-- ==== Sys2Proof/Word.lean ====
section
/-! DEFINITION. The words of the L416: bytes, 32-byte secrets, sets of credential slots, and the names
that stand for the values the part makes itself (nonces, data keys, range access keys) and for the
content of a block. The cipher, the wrapping and the digest are known by their inputs and outputs only
(00_scope 3), so a digest is the term of what it was made from (log 2) and a value the part makes
itself is a name that never comes twice (log 3). -/

namespace Sys2Proof

/-- One byte on the link. -/
abbrev Byte := BitVec 8

/-- A 32-byte value held outside the part: a credential secret, the label secret, a platform token. -/
abbrev Secret := BitVec 256

/-- A set of credential slots as the layouts carry it: bit s is set for slot s (11.2). -/
abbrev CredSet := BitVec 16

/-- A nonce, by the number of its issue. Only equality is ever read (R45, R128). -/
structure Nonce where
  issue : Nat
deriving DecidableEq, Repr

/-- A 256-bit data key, by the number of its making (R29). -/
structure DataKey where
  issue : Nat
deriving DecidableEq, Repr

/-- A range access key, by the number of its making (2.4). -/
structure Rak where
  issue : Nat
deriving DecidableEq, Repr

/-- A keyed digest: of a nonce and a text, under a 32-byte key (R47, R128); `other` is any 32 bytes
that are no such digest. -/
inductive Proof where
  | digest (key : Secret) (nonce : Nonce) (text : List Nat)
  | other (bits : Secret)
deriving DecidableEq, Repr

/-- The verifier of a secret: it decides whether a proof was made with the secret (R47). -/
structure Verifier where
  secret : Secret
deriving DecidableEq, Repr

/-- The value under which a credential slot's envelopes are made, derived from its secret (R31), or the
device-internal key of a device envelope (R32). -/
inductive WrapValue where
  | ofSecret (secret : Secret)
  | device
deriving DecidableEq, Repr

/-- State of a scratch header (11.2). -/
inductive HeaderState where
  | filled
  | copied
deriving DecidableEq, Repr

/-- The fields of the scratch header that its check value covers (11.2). -/
structure ScratchHeader where
  serial : Nat
  range : Nat
  newKeySlot : Nat
  first : Nat
  n : Nat
  state : HeaderState
deriving DecidableEq, Repr

/-- The 4096 bytes of a block: zeros, bytes from outside, a scratch header whose check value matches, or
the term of a transform of another block under a key and a tweak. -/
inductive Block where
  | zeros
  | raw (bytes : List Byte)
  | header (h : ScratchHeader)
  | enciphered (key : DataKey) (tweak : Nat) (b : Block)
  | deciphered (key : DataKey) (tweak : Nat) (b : Block)
deriving DecidableEq, Repr

end Sys2Proof
end

