-- ==== Sys2Proof/Config.lean ====
section
/-! DEFINITION. What one implementation of the L416 fixes: the key parameters of 00_scope 1.3 and the
full periods of the timers, and the FREE VALUES, which the manual leaves open and nothing here gives a
value: the design level of IDENTIFY (log 11), the byte lengths of the replies that chapter 11 does not lay out (log 10), and where
the fields of the payloads lie that it does not lay out (log 9). -/

namespace Sys2Proof.Config

/-- Ranges (1.3). -/
def ranges : Nat := 16
/-- Pool key slots 0 to 22 (1.3). -/
def poolSlots : Nat := 23
/-- The slot of the START key (R27). -/
def startSlot : Nat := 23
/-- Credential slots (1.3). -/
def credSlots : Nat := 10
/-- Entries of the challenge table (3.2). -/
def challengeEntries : Nat := 4
/-- Stream contexts (1.3). -/
def contexts : Nat := 16
/-- Cipher cores (R88). -/
def cores : Nat := 4
/-- Evidence sources (1.3). -/
def sources : Nat := 8
/-- Staged edits at most (R10). -/
def stagedMax : Nat := 8
/-- Jobs of the rekey queue at most (R98). -/
def rekeyMax : Nat := 8
/-- Blocks of a rekey chunk at most (R101). -/
def rekeyChunk : Nat := 32
/-- Blocks of the scratch span (1.3). -/
def scratchSpan : Nat := 33
/-- Blocks of a start image at most (1.3). -/
def imageMax : Nat := 16384
/-- Blocks of one FILL chunk (R143). -/
def fillChunk : Nat := 256
/-- Writes of the store queue at most (R154). -/
def queueMax : Nat := 16
/-- Blocks of the address space at most: 2^40 (1.3). -/
def blockMax : Nat := 1099511627776
/-- Media blocks: block numbers of 48 bits (R170). -/
def mediaMax : Nat := 281474976710656
/-- The default and largest reply limit (R173), which is also the largest long payload (11.1). -/
def payloadMax : Nat := 4160

/-- The part code (R172). -/
def partCode : String := "L416"

/-- Life of a challenge in seconds (R45). -/
def challengeLife : Nat := 60
/-- The drain timer in seconds (R15). -/
def drainPeriod : Nat := 5
/-- The hello window in seconds (R76). -/
def helloPeriod : Nat := 30
/-- The media timeout in seconds (R174). -/
def mediaPeriod : Nat := 2
/-- failure_limit when a slot is first set (3.1). -/
def defaultLimit : Nat := 10
/-- alarm_minimum by default (7.2). -/
def defaultAlarm : Nat := 5
/-- absence_threshold by default (7.2). -/
def defaultAbsence : Nat := 600

/-- FREE: the design level that IDENTIFY reports (R172). -/
opaque designLevel : Nat
/-- FREE: bytes of a SLOT_LIST reply before its entries, at most 63 (R173: a list is readable at 64). -/
opaque slotListHead : Fin 64
/-- FREE: bytes of a SLOT_LIST entry, before the bound of `slotListEntry`. -/
opaque slotListItem : Nat
/-- FREE: bytes of an EVIDENCE_LIST reply before its entries, at most 63. -/
opaque evidenceListHead : Fin 64
/-- FREE: bytes of an EVIDENCE_LIST entry, before the bound of `evidenceListEntry`. -/
opaque evidenceListItem : Nat
/-- FREE: bytes of a REKEY_STATUS reply with so many jobs. -/
opaque rekeyStatusBytes : Nat → Nat
/-- FREE: bytes of a RESPONSE_STATUS reply. -/
opaque responseStatusBytes : Nat
/-- FREE: bytes of a WIPE_STATUS reply with so many steps in all. -/
opaque wipeStatusBytes : Nat → Nat

/-- FREE: the length of a long request of a kind and sub-kind that chapter 11 does not lay out (R177 item 5). -/
opaque payloadLength (kind sub : Nat) : Nat
/-- FREE: the value of field i of such a request, from its payload. -/
opaque payloadField (kind sub i : Nat) (payload : List Byte) : Nat

/-- Bytes of a SLOT_LIST entry: at least 1, and one entry fits a limit of 64 (R173). -/
def slotListEntry : Nat := slotListItem % (64 - slotListHead.val) + 1
/-- Bytes of an EVIDENCE_LIST entry: at least 1, and one entry fits a limit of 64 (R173). -/
def evidenceListEntry : Nat := evidenceListItem % (64 - evidenceListHead.val) + 1

end Sys2Proof.Config
end

