-- ==== Sys2Proof/Syntax.lean ====
section
/-! DEFINITION. The commands of the L416: one constructor of `Instr` for each row of
spec/opcode_table.json, with the fields the row's message carries. A field whose codes the manual gives is
its number; a field whose codes it does not give is `some` of what it names, or `none` for a value that
names nothing (log 9). -/

namespace Sys2Proof

/-- The four channels of the link (10.1). -/
inductive Channel where
  | data
  | control
  | platform
  | media
deriving DecidableEq, Repr

/-- The two forms of a frame (10.1). -/
inductive Form where
  | short
  | long
deriving DecidableEq, Repr

/-- What the Link Interface checks of a request's frame before its message rules (R165, R177): its tag, its
form, the length of a long payload, and, for the five messages whose payload chapter 11 does not lay out,
whether the length is the one the message takes (log 9); and, of a request that ends in a proof block, every byte
before the block, which the proof covers beside the fields read from them (R47, R176). -/
structure Hdr where
  tag : Nat
  form : Form
  length : Nat
  lengthFits : Bool
  bytes : List Byte
deriving DecidableEq, Repr

/-- The proof block (3.3, 11.2). -/
structure ProofBlock where
  slot : Nat
  challenge : Nat
  proof : Proof
deriving DecidableEq, Repr

/-- The messages that the controller sends as requests (11.3). -/
inductive Message where
  | linkStart | identify | status | setReplyLimit
  | challenge | setCredential | resetAttempts | slotList
  | provision | unlock | lock | bindPlatform | startImageUnseal
  | rangeList | rangeStage | rangeDiscard | rangeCommit
  | rekeyQueue | rekeyResume | rekeyStatus
  | evidenceSet | evidenceList | responseStatus | responseClear | remoteOrder
  | wipeStart | wipeAbort | wipeStatus | reprovision
  | xferOpen | xferBlock | xferClose
  | platformHello | presence | motion | standbyEnter | standbyExit | powerDown
deriving DecidableEq, Repr

/-- action of SET_CREDENTIAL (3.7). -/
inductive CredAction where
  | set
  | disable
deriving DecidableEq, Repr

/-- action of BIND_PLATFORM (R75). -/
inductive BindAction where
  | bind
  | unbind
deriving DecidableEq, Repr

/-- action of START_IMAGE_UNSEAL (R74). -/
inductive UnsealAction where
  | unseal
  | reseal
deriving DecidableEq, Repr

/-- lock_mode (1.1). -/
inductive LockMode where
  | refuse
  | shroud
deriving DecidableEq, Repr

/-- The five kinds of edit (1.5). -/
inductive EditKind where
  | define
  | options
  | access
  | newKey
  | disable
deriving DecidableEq, Repr

/-- The fields of a RANGE_STAGE request (1.5); those of other kinds of edit are not examined. -/
structure EditFields where
  range : Nat
  kind : Option EditKind
  first : Nat
  count : Nat
  lockMode : Option LockMode
  concealed : Option Bool
  powerLock : Option Bool
  standbyLock : Option Bool
  reseal : Option Bool
  readList : CredSet
  writeList : CredSet
deriving DecidableEq, Repr

/-- guard of an evidence source (7.2). -/
inductive Guard where
  | always
  | whileSealed
  | whileAsleep
deriving DecidableEq, Repr

/-- The values of an EVIDENCE_SET request (R118): the settings entry for a target of 0 to 7, the three
table-wide settings for 0xFF. -/
structure EvidenceValues where
  enabled : Option Bool
  level : Nat
  delay : Nat
  immediate : Option Bool
  guard : Option Guard
  purgeAllowed : Option Bool
  alarmMinimum : Nat
  absenceThreshold : Nat
deriving DecidableEq, Repr

/-- The two wipe chains (R137). -/
inductive ChainKind where
  | normal
  | injected
deriving DecidableEq, Repr

/-- What the surroundings bring to a start-up: the sources that the retention domain adds to the latch
during it (R130), the key slots whose stored material no longer unwraps (R36), and the ranges whose stored
envelopes no longer open (R32). -/
structure StartInputs where
  edges : List Nat
  badKeys : List Nat
  badEnvelopes : List Nat
deriving DecidableEq, Repr

/-- The commands: the rows of spec/opcode_table.json in the table's order. -/
inductive Instr where
  | linkStart (f : Hdr) (credits capacity imageBase scratchBase : Nat)
  | identify (f : Hdr)
  | status (f : Hdr)
  | setReplyLimit (f : Hdr) (channel limit : Nat)
  | challenge (f : Hdr)
  | setCredential (f : Hdr) (target : Nat) (action : Option CredAction) (secret : Secret) (limit : Nat) (p : ProofBlock)
  | resetAttempts (f : Hdr) (target : Nat) (p : ProofBlock)
  | slotList (f : Hdr) (start : Nat)
  | provision (f : Hdr) (adminSecret recoverySecret : Secret) (imageSize : Nat) (tokenPresent : Option Bool) (token : Secret) (p : ProofBlock)
  | unlock (f : Hdr) (range : Nat) (p : ProofBlock)
  | lock (f : Hdr) (range direction : Nat) (p : ProofBlock)
  | bindPlatform (f : Hdr) (action : Option BindAction) (token : Secret) (p : ProofBlock)
  | startImageUnseal (f : Hdr) (action : Option UnsealAction) (p : ProofBlock)
  | rangeList (f : Hdr) (start : Nat) (p : Option ProofBlock)
  | rangeStage (f : Hdr) (e : EditFields) (p : ProofBlock)
  | rangeDiscard (f : Hdr) (p : ProofBlock)
  | rangeCommit (f : Hdr) (defer : Option Bool) (p : ProofBlock)
  | rekeyQueue (f : Hdr) (range : Nat) (p : ProofBlock)
  | rekeyResume (f : Hdr) (range : Nat) (p : ProofBlock)
  | rekeyStatus (f : Hdr)
  | evidenceSet (f : Hdr) (target : Nat) (v : EvidenceValues) (p : ProofBlock)
  | evidenceList (f : Hdr) (start : Nat) (p : ProofBlock)
  | responseStatus (f : Hdr)
  | responseClear (f : Hdr) (p : ProofBlock)
  | remoteOrder (f : Hdr) (level : Nat) (p : ProofBlock)
  | wipeStart (f : Hdr) (fill : Option Bool) (p : ProofBlock)
  | wipeAbort (f : Hdr) (p : ProofBlock)
  | wipeStatus (f : Hdr)
  | reprovision (f : Hdr) (p : ProofBlock)
  | xferOpen (f : Hdr) (direction first count : Nat)
  | xferBlock (f : Hdr) (context generation index : Nat) (data : Block)
  | xferClose (f : Hdr) (context generation : Nat)
  | platformHello (f : Hdr) (token : Secret)
  | presence (f : Hdr) (proof : Proof)
  | motion (f : Hdr)
  | standbyEnter (f : Hdr)
  | standbyExit (f : Hdr)
  | powerDown (f : Hdr)
  | mediaReply (tag kind status : Nat) (data : Option Block)
  | headerCheckFail
  | frameDamaged (channel : Channel) (tag : Nat)
  | burstEnd
  | motionInEdge
  | tamperInEdge
  | retentionSupplyWarning
  | retentionSupplyLost
  | retentionSupplyReturn
  | mainSupplyRemoved
  | startUp (u : StartInputs)
  | startUpComplete
  | storeWriteComplete
  | cipherTransformComplete (core : Nat)
  | cipherCoreGrant
  | mediaCreditGrant
  | challengeExpiry (entry : Nat)
  | backoffExpiry (slot : Nat)
  | drainTimerExpiry
  | helloWindowExpiry
  | delayTimerExpiry
  | absenceThreshold
  | alarmMinimumExpiry
  | mediaTimeout (tag : Nat)
  | commitWriting
  | rekeyJobStart
  | chunkForm
  | chunkClaim
  | wipeStepBegin (chain : ChainKind)
  | standbyDrainEnd
  | powerDownDrainEnd
  | unknownKind (channel : Channel) (tag : Nat)
deriving DecidableEq, Repr

end Sys2Proof
end

