-- ==== Sys2Proof/Decode.lean ====
section
/-! DEFINITION. The command that a word of the table's bits spells. No row of spec/opcode_table.json gives
bits, so no word spells a command (log 9). -/

namespace Sys2Proof

/-- The command whose bits are w, by the table: none of its rows gives bits. -/
def decodeTableWord (_nbits _w : Nat) : Option Instr := none

end Sys2Proof
end

