-- ==== Sys2Proof/Machine/State.lean ====
section
/-! DEFINITION. The state of the L416 as plain data, one structure for each of its ten blocks (00_scope 2.1),
and the state after reset: the part fresh from manufacture whose first cold start-up has ended (log 1).
A collection of fixed size is a list; the sizes are the invariant `Sys2Proof.Machine.Shaped` of Safety. -/

namespace Sys2Proof.Machine

/-- The part never stops: every refusal of the manual is a reply, so no meaning raises a fault. -/
inductive Fault
deriving DecidableEq, Repr

/-- Why a command has no outcome. -/
inductive Refusal where
  /-- Raised by an arm of `exec` for a row that has no meaning yet; safe. No arm of this model raises it. -/
  | notModelled (mnemonic : String)
deriving DecidableEq, Repr

/-! ### Frames that the part sends -/

/-- The status codes (11.4). -/
inductive Status where
  | ok | accepted | done
  | notStarted | badKind | badField | badLength | frameDamaged | tagInUse | tooLong | busy | standby
  | noContext | order | locked | held | outOfRange | crossesRange | readOnlyOverlay | keyLost
  | tableDamaged | discarded | aborted
  | badSlot | blockedSlot | backoff | staleChallenge | badProof | notPermitted | wrongState | responsePending
  | invalidLayout | rangeBusy | noKeySlot | listFull | duplicate | preempted
  | mediaFault | mediaTimeout
deriving DecidableEq, Repr

/-- Mode of a stream context (5.1). -/
inductive Mode where
  | clear
  | shroud
  | overlay
deriving DecidableEq, Repr

/-- Cause of an abort by the part (R90). -/
inductive AbortCause where
  | lockdown
  | keysCut
  | drain
  | keyDamaged
deriving DecidableEq, Repr

/-- The five boot states (4.1). -/
inductive BootState where
  | blank
  | sealed
  | opened
  | quarantine
  | erased
deriving DecidableEq, Repr

/-- The four power states (9.5). -/
inductive PowerState where
  | active
  | standby
  | off
  | dead
deriving DecidableEq, Repr

/-- The three drain states (R159), as STATUS reports them. -/
inductive DrainState where
  | none
  | standbyDrain
  | powerDownDrain
deriving DecidableEq, Repr

/-- The five response levels (7.3). -/
inductive Level where
  | calm
  | guard
  | lock
  | erase
  | purge
deriving DecidableEq, Repr

/-- The five hello statuses (4.7). -/
inductive HelloStatus where
  | none
  | notDue
  | waiting
  | passed
  | failed
deriving DecidableEq, Repr

/-- The four states of a credential slot (R43). -/
inductive CredState where
  | empty
  | enabled
  | disabled
  | blocked
deriving DecidableEq, Repr

/-- The three states of a key slot (R26). -/
inductive KeyState where
  | empty
  | live
  | retiring
deriving DecidableEq, Repr

/-- Mark of the staged list (1.5). -/
inductive Mark where
  | none
  | deferred
  | applying
deriving DecidableEq, Repr

/-- Commit state as reported (R8). -/
inductive CommitPhase where
  | idle
  | draining
  | writing
deriving DecidableEq, Repr

/-- State of a rekey job (R98). -/
inductive JobState where
  | queued
  | sweeping
  | paused
  | faulted
deriving DecidableEq, Repr

/-- fault_cause of a FAULTED job (6.1). -/
inductive FaultCause where
  | mediaFault
  | mediaTimeout
  | keyLost
deriving DecidableEq, Repr

/-- Chunk phase of the sweep (6.1). -/
inductive Phase where
  | idle
  | claiming
  | reading
  | staged
  | copying
deriving DecidableEq, Repr

/-- Origin of a wipe chain (8.1). -/
inductive Origin where
  | sanitize
  | reprovision
  | responseErase
  | responsePurge
  | storeDamage
deriving DecidableEq, Repr

/-- A wipe step (8.1): a FILL from block 0 holds its count, absent until it begins, and its progress. -/
inductive WipeStep where
  | cutKeys
  | cutCredentials
  | fill (count : Option Nat) (progress : Nat)
  | resetTable
deriving DecidableEq, Repr

/-- First block and count of a span (4.1). -/
structure Span where
  first : Nat
  count : Nat
deriving DecidableEq, Repr

/-- An entry of RANGE_LIST (R7, R8): number, status (0 DISABLED, 1 ENABLED, 2 DAMAGED) and, of an ENABLED
entry, what the view shows; the last three groups are absent in the plain view. -/
structure ListedRange where
  number : Nat
  status : Nat
  bounds : Option Span
  readLocked : Bool
  writeLocked : Bool
  options : Option (LockMode × Bool × Bool × Bool × Bool)
  keys : Option (Nat × Option (Nat × Nat))
  lists : Option (CredSet × CredSet)
deriving DecidableEq, Repr

/-- The further header of the full view (R8). -/
structure FullHeader where
  staged : Nat
  mark : Mark
  commit : CommitPhase
  resealOnWake : Bool
deriving DecidableEq, Repr

/-- The reply to STATUS (R172). -/
structure StatusReport where
  started : Bool
  mediaCredits : Nat
  creditsInUse : Nat
  capacity : Nat
  erroredBursts : Nat
  power : PowerState
  drain : DrainState
  boot : BootState
  overlay : Bool
  imageSize : Nat
  unsealed : Bool
  tokenBound : Bool
  hello : HelloStatus
  level : Level
  openContexts : Nat
  emptySlots : Nat
  liveSlots : Nat
  retiringSlots : Nat
  loadedRanges : Nat
  sweepHold : Bool
  commit : CommitPhase
  damagedUnits : Nat
  waitingWrites : Nat
deriving DecidableEq, Repr

/-- The reply to IDENTIFY (R172). -/
structure Identity where
  partCode : String
  designLevel : Nat
  payloadMax : Nat
  contexts : Nat
  ranges : Nat
  keySlots : Nat
  credSlots : Nat
  sources : Nat
  scratchSpan : Nat
  imageMax : Nat
deriving DecidableEq, Repr

/-- One source's settings (7.2). -/
structure Setting where
  enabled : Bool
  level : Level
  delay : Nat
  immediate : Bool
  guard : Guard
deriving DecidableEq, Repr

/-- The reply to REKEY_STATUS (R113): serial counter, jobs as (range or 0xFF, state), and of the head its
serial, fault_cause, watermark, phase, chunk and window. -/
structure RekeyReport where
  serial : Nat
  jobs : List (Nat × JobState)
  headSerial : Option Nat
  faultCause : Option FaultCause
  watermark : Option Nat
  phase : Phase
  chunk : Option (Nat × Nat)
  window : Bool
deriving DecidableEq, Repr

/-- The reply to RESPONSE_STATUS (R134). -/
structure ResponseReport where
  level : Level
  firstCause : Option Nat
  lastCause : Option Nat
  timer : Option (Level × Nat × Nat)
  wipeLevel : Level
  startLatch : List Nat
  alarmRemaining : Nat
  absence : Nat
  absenceCounting : Bool
  alarmOut : Bool
deriving DecidableEq, Repr

/-- One chain in the reply to WIPE_STATUS (R150). -/
structure ChainReport where
  origin : Origin
  steps : List WipeStep
  begun : Bool
  suspended : Bool
  closing : Bool
  outstanding : Nat
  failedChunks : Nat
deriving DecidableEq, Repr

/-- What a frame that the part sends carries, beyond its channel and tag. -/
inductive Body where
  /-- a short reply with a status and its detail (11.1) -/
  | status (st : Status) (detail : List Nat)
  | grant (context generation : Nat) (mode : Mode) (offset : Nat)
  | block (context generation index : Nat) (data : Block)
  | discarded (context generation index : Nat)
  | aborted (context generation : Nat) (cause : AbortCause) (taken : Nat)
  | linkStarted (boot : BootState) (power : PowerState) (restart : Bool)
  | identity (r : Identity)
  | partStatus (r : StatusReport)
  | challenge (entry : Nat) (nonce : Nonce)
  | slotList (count total : Nat) (entries : List (Nat × CredState × Nat))
  | unlocked (opened skipped : Nat) (boot : BootState)
  | rangeList (count total : Nat) (full : Option FullHeader) (entries : List ListedRange)
  | jobState (st : JobState)
  | rekeyStatus (r : RekeyReport)
  | evidenceList (count total : Nat) (purgeAllowed : Bool) (alarmMinimum absenceThreshold : Nat) (entries : List Setting)
  | responseStatus (r : ResponseReport)
  | level (l : Level)
  | ordered (accepted : Bool) (l : Level) (pending : Option (Level × Nat))
  | wipeStatus (normal injected : Option ChainReport)
  | beacon (nonce : Nonce)
  | burstDropped (taken : Nat)
  | responseNotice (old new : Level) (cause : Nat)
  | rekeyDone (range serial : Nat) (st : Status)
  | wipeDone (chain : ChainKind) (origin : Origin) (st : Status) (failedChunks : Nat)
  | mediaRead (block : Nat)
  | mediaWrite (block : Nat) (data : Block)
  | mediaFill (first length : Nat) (pattern : Byte)
deriving DecidableEq, Repr

/-- A frame that the part sends (R164). -/
structure Frame where
  channel : Channel
  tag : Nat
  body : Body
deriving DecidableEq, Repr

/-- Where a reply that is still owed goes: channel, tag, and the link session of its request (R171, log 8). -/
structure ReplyTo where
  channel : Channel
  tag : Nat
  session : Nat
deriving DecidableEq, Repr

/-! ### Records of the Secure Store (9.1) -/

/-- A record unit (R153). -/
inductive StoreUnit where
  | cred (i : Nat)
  | key (k : Nat)
  | range (r : Nat)
  | stage
  | evset (i : Nat)
  | response
  | wipe
  | rekeyQueue
  | rekeyProgress
  | device
deriving DecidableEq, Repr

/-- Content of a CRED record (3.1). -/
structure CredRecord where
  state : CredState
  verifier : Option Verifier
  wrap : Option WrapValue
  failures : Nat
  limit : Nat
  damaged : Bool
deriving DecidableEq, Repr

/-- Wrapped material of a data key: the key, the RAK it is wrapped under, and whether it is intact (R36). -/
structure Material where
  key : DataKey
  rak : Rak
  whole : Bool
deriving DecidableEq, Repr

/-- Content of a KEY record (2.1). -/
structure KeyRecord where
  state : KeyState
  owner : Option Nat
  material : Option Material
deriving DecidableEq, Repr

/-- The holder of an envelope (R31). -/
inductive Holder where
  | cred (slot : Nat)
  | device
deriving DecidableEq, Repr

/-- An envelope: its holder, the wrapping values of its one or two forms, the older first (R39), the RAK,
and whether its content is intact (R32). -/
structure Envelope where
  holder : Holder
  wraps : List WrapValue
  rak : Rak
  whole : Bool
deriving DecidableEq, Repr

/-- new_key_slot and watermark, held together (1.1). -/
structure Split where
  newKey : Nat
  watermark : Nat
deriving DecidableEq, Repr

/-- The fields of an ENABLED range entry (1.1); bounds are absent for range 0. -/
structure RangeFields where
  bounds : Option Span
  keySlot : Nat
  split : Option Split
  readLocked : Bool
  writeLocked : Bool
  lockMode : LockMode
  concealed : Bool
  powerLock : Bool
  standbyLock : Bool
  readList : CredSet
  writeList : CredSet
  envelopes : List Envelope
  keyLost : Bool
deriving DecidableEq, Repr

/-- A range entry (R1). -/
inductive Entry where
  | disabled
  | damaged
  | enabled (f : RangeFields)
deriving DecidableEq, Repr

/-- A staged edit (1.5). -/
inductive Edit where
  | define (r first count : Nat)
  | options (r : Nat) (mode : LockMode) (concealed powerLock standbyLock reseal : Bool)
  | access (r : Nat) (readList writeList : CredSet)
  | newKey (r : Nat)
  | disable (r : Nat)
deriving DecidableEq, Repr

/-- Prepared or assigned material of a staged list (R19, R22): key slots by range, and the envelopes made. -/
structure Prepared where
  slots : List (Nat × Nat)
  envelopes : List (Nat × Envelope)
deriving DecidableEq, Repr

/-- The staged edit list (1.5). -/
structure StagedList where
  edits : List Edit
  mark : Mark
  prepared : Prepared
deriving DecidableEq, Repr

/-- A pending escalation (7.3). -/
structure Pending where
  level : Level
  source : Nat
  delay : Nat
deriving DecidableEq, Repr

/-- Content of the RESPONSE record (R120). -/
structure ResponseRecord where
  level : Level
  firstCause : Option Nat
  lastCause : Option Nat
  pending : Option Pending
  wipeLevel : Level
deriving DecidableEq, Repr

/-- One chain in the WIPE record (R152). -/
structure ChainRecord where
  origin : Origin
  steps : List WipeStep
  closing : Bool
  failedChunks : Nat
deriving DecidableEq, Repr

/-- Content of the WIPE record. -/
structure WipeRecord where
  normal : Option ChainRecord
  injected : Option ChainRecord
deriving DecidableEq, Repr

/-- The active job as the queue part names it (R110). -/
structure ActiveJob where
  range : Nat
  serial : Nat
  newKey : Nat
deriving DecidableEq, Repr

/-- Queue part of the REKEY record (R110). -/
structure QueuePart where
  serial : Nat
  ranges : List Nat
  active : Option ActiveJob
deriving DecidableEq, Repr

/-- The active job as the progress part holds it (R110, R114, log 22). -/
structure ProgressJob where
  range : Nat
  serial : Nat
  newKey : Nat
  state : JobState
  fault : Option FaultCause
  copying : Bool
  watermark : Nat
  chunk : Option (Nat × Nat)
deriving DecidableEq, Repr

/-- Boot field of the DEVICE record (R62). -/
inductive BootField where
  | blank
  | provisioned
  | erased
deriving DecidableEq, Repr

/-- Content of the DEVICE record (R153). -/
structure DeviceRecord where
  boot : BootField
  labelVerifier : Verifier
  token : Option Secret
  imageSize : Nat
  resealOnWake : Bool
  purgeAllowed : Bool
  alarmMinimum : Nat
  absenceThreshold : Nat
deriving DecidableEq, Repr

/-- Content of a record unit. -/
inductive Record where
  | cred (c : CredRecord)
  | key (k : KeyRecord)
  | range (e : Entry)
  | stage (l : StagedList)
  | evset (e : Setting)
  | response (r : ResponseRecord)
  | wipe (w : WipeRecord)
  | rekeyQueue (q : QueuePart)
  | rekeyProgress (p : Option ProgressJob)
  | device (d : DeviceRecord)
deriving DecidableEq, Repr

/-- The 64 units; `none` is a unit whose write was cut, which reads as damaged (R156). -/
structure Units where
  cred : List (Option CredRecord)
  key : List (Option KeyRecord)
  range : List (Option Entry)
  stage : Option StagedList
  evset : List (Option Setting)
  response : Option ResponseRecord
  wipe : Option WipeRecord
  rekeyQueue : Option QueuePart
  rekeyProgress : Option (Option ProgressJob)
  device : Option DeviceRecord
deriving DecidableEq, Repr

/-- Steps of the writes at a rekey job's start (R100) and at its completion (R105). -/
inductive RekeySeq where
  | startKey
  | startQueue
  | startProgress
  | startRange
  | doneRecords
  | doneProgress
  | doneQueue
deriving DecidableEq, Repr

/-- What a requester of a write does when the write completes (R155). -/
inductive Waiter where
  /-- send a reply, the request's last -/
  | reply (rto : ReplyTo) (b : Body)
  /-- send BAD_PROOF and, when the failure blocked its slot, raise ATTEMPTS (R49, R51) -/
  | badProof (rto : ReplyTo) (blocked : Bool)
  /-- one write of the current commit wave (R19) -/
  | commitWave
  /-- one write of a deferred commit (R22) -/
  | deferredCommit (rto : ReplyTo)
  /-- one write of the start-up's commit work (R23, R25) -/
  | startCommit
  /-- one write of the current wave of the credential change of slot i (R39) -/
  | credWave (i : Nat)
  /-- one write of the current wave of PROVISION (R66) -/
  | provision
  /-- BIND_PLATFORM takes effect (R75) -/
  | bindPlatform (rto : ReplyTo) (token : Option Secret)
  /-- EVIDENCE_SET of one source takes effect (R118) -/
  | evidenceSource (rto : ReplyTo) (i : Nat) (e : Setting)
  /-- EVIDENCE_SET of the table-wide settings takes effect (R118) -/
  | evidenceTable (rto : ReplyTo) (purgeAllowed : Bool) (alarmMinimum absenceThreshold : Nat)
  /-- erasure of key slot k (R30) -/
  | erased (k : Nat)
  /-- a step of this level given by the Response Unit is durable (R126, R138) -/
  | wipeGiven (l : Level)
  /-- the record that holds the chain with its step current is written (R140) -/
  | chainDurable (c : ChainKind) (no : Nat)
  /-- one write of the step's own work (R141 to R145) -/
  | stepWork (c : ChainKind) (no : Nat)
  /-- one write of FILL progress (R144) -/
  | fillProgress (c : ChainKind) (no : Nat)
  /-- the write of the chain's end (R146) -/
  | chainEnd (c : ChainKind) (no : Nat)
  /-- one write of a rekey job's start or completion -/
  | rekeySeq (step : RekeySeq) (serial : Nat)
  /-- the COPYING record of a STAGED chunk (R103) -/
  | chunkStaged (chunk : Nat)
  /-- the READING record after a chunk's copy (R104) -/
  | chunkDone (chunk : Nat)
  /-- the progress record of a resumed job (R107, R112), by its resumption -/
  | rekeyResumed (no : Nat)
  /-- the progress record after the scratch header was judged (R115) -/
  | rekeyRecovered
deriving DecidableEq, Repr

/-- A write waiting or in service (R154). -/
structure Write where
  unit : StoreUnit
  content : Record
  waiters : List Waiter
deriving DecidableEq, Repr

/-- What waits for the end of a drain (R160, R162). -/
inductive Drain where
  | none
  | standby (rto : ReplyTo)
  | powerDown (rto : ReplyTo)
deriving DecidableEq, Repr

/-- Secure Store (chapter 9). -/
structure Store where
  units : Units
  /-- the manufacture copy of the label-secret verifier (R54) -/
  labelCopy : Verifier
  /-- units marked damaged (R153) -/
  marks : List StoreUnit
  queue : List Write
  waiting : List Write
  serving : Option Write
  /-- content of the last DEVICE write placed (R153) -/
  lastDevice : DeviceRecord
  seconds : Nat
  power : PowerState
  drain : Drain
  downMark : Bool
  /-- READY_OUT (R163) -/
  ready : Bool
  /-- the retention supply is present (9.5, log 14) -/
  retention : Bool
deriving DecidableEq, Repr

/-! ### The other blocks -/

/-- A media request of a rekey chunk (R102, R104, R114, R115). -/
inductive ChunkOp where
  | read (i : Nat)
  | scratch (i : Nat)
  | headerFilled
  | dest (i : Nat)
  | headerCopied
  | recoverRead (i : Nat)
  | recoverHeader
deriving DecidableEq, Repr

/-- Kind of a media request (10.6). -/
inductive MediaKind where
  | read
  | write
  | fill
deriving DecidableEq, Repr

/-- The engine that issued a media request and what it asked. -/
inductive Client where
  | rekey (chunk : Nat) (op : ChunkOp)
  | wipe (c : ChainKind) (no : Nat) (k : Nat)
deriving DecidableEq, Repr

/-- An outstanding media request (R174). -/
structure MediaReq where
  tag : Nat
  kind : MediaKind
  client : Client
  remaining : Nat
deriving DecidableEq, Repr

/-- Link Interface (chapter 10). -/
structure Link where
  started : Bool
  mediaCredits : Nat
  capacity : Nat
  imageBase : Nat
  scratchBase : Nat
  limitData : Nat
  limitControl : Nat
  limitPlatform : Nat
  outstanding : List MediaReq
  freeCredits : Nat
  nextTag : Nat
  tagsInUse : List Nat
  erroredBursts : Nat
  burstTaken : Nat
  burstErrored : Bool
  burstDropped : Bool
  session : Nat
deriving DecidableEq, Repr

/-- A credential slot: its record and its backoff (3.1). -/
structure CredSlot where
  record : CredRecord
  backoff : Option Nat
deriving DecidableEq, Repr

/-- A challenge (3.2). -/
structure Challenge where
  nonce : Nonce
  remaining : Nat
deriving DecidableEq, Repr

/-- The three waves of a credential change (R39). -/
inductive CredWave where
  | a
  | b
  | c
deriving DecidableEq, Repr

/-- A SET_CREDENTIAL in progress (R56); `limit` is none when the target's limit is kept; `oldVerifier` and
`oldWrap` are what the target held before the change, in force until wave B completes. -/
structure CredOp where
  target : Nat
  verifier : Verifier
  wrap : WrapValue
  oldVerifier : Option Verifier
  oldWrap : Option WrapValue
  limit : Option Nat
  wave : CredWave
  left : Nat
  ranges : List Nat
  skipped : Nat
  rto : ReplyTo
deriving DecidableEq, Repr

/-- Credential Unit (chapter 3). -/
structure Credentials where
  slots : List CredSlot
  challenges : List (Option Challenge)
  ops : List CredOp
deriving DecidableEq, Repr

/-- A PROVISION in progress (R66). -/
structure Provisioning where
  adminVerifier : Verifier
  adminWrap : WrapValue
  recoveryVerifier : Verifier
  recoveryWrap : WrapValue
  imageSize : Nat
  token : Option Secret
  secondWave : Bool
  left : Nat
  envelopes : List (Nat × Envelope)
  rto : ReplyTo
deriving DecidableEq, Repr

/-- Boot Control (chapter 4). -/
structure Boot where
  state : BootState
  unsealed : Bool
  imageSize : Nat
  token : Option Secret
  labelVerifier : Verifier
  hello : HelloStatus
  window : Option Nat
  provisioning : Option Provisioning
deriving DecidableEq, Repr

/-- A key slot (2.1); `copy` is the loaded copy, `erasing` the mark that its erasure was placed (R30). -/
structure KeySlot where
  state : KeyState
  owner : Option Nat
  material : Option Material
  users : Nat
  copy : Option DataKey
  erasing : Bool
deriving DecidableEq, Repr

/-- RAK load state of a range (2.5). -/
inductive Load where
  | notLoaded
  | loaded (k : Rak)
  | releasing (k : Rak)
deriving DecidableEq, Repr

/-- The sweep hold: on a range's RAK and both its data keys (2.5). -/
structure Hold where
  range : Nat
  oldKey : Nat
  newKey : Nat
deriving DecidableEq, Repr

/-- Key Store (chapter 2). -/
structure Keys where
  slots : List KeySlot
  loads : List Load
  hold : Option Hold
  reservation : Nat
deriving DecidableEq, Repr

/-- The commit state with what each state holds (R15 to R19). -/
inductive Commit where
  | idle
  | draining (affected : List Nat) (timer : Nat) (raks : List (Nat × Rak)) (rto : ReplyTo)
  | writing (affected : List Nat) (wave left : Nat) (changed retired : List Nat) (resealed : Bool) (rto : ReplyTo)
deriving DecidableEq, Repr

/-- Writes of a deferred commit that are outstanding (R22). -/
structure Preparing where
  left : Nat
  rto : ReplyTo
deriving DecidableEq, Repr

/-- Start-up commit writes that are outstanding; `last` when the STAGE write is among them (R23, R25). -/
structure StartCommit where
  left : Nat
  last : Bool
deriving DecidableEq, Repr

/-- Range Table (chapter 1). -/
structure Ranges where
  entries : List Entry
  resealOnWake : Bool
  staged : StagedList
  commit : Commit
  preparing : List Preparing
  startCommit : Option StartCommit
deriving DecidableEq, Repr

/-- Direction of a transfer (5.1). -/
inductive Direction where
  | read
  | write
deriving DecidableEq, Repr

/-- The fields of an OPEN stream context (5.1); `range` is absent in mode OVERLAY. -/
structure OpenContext where
  direction : Direction
  range : Option Nat
  first : Nat
  count : Nat
  nextIndex : Nat
  mode : Mode
  keyRefs : List Nat
  rto : ReplyTo
deriving DecidableEq, Repr

/-- A stream context (R78). -/
structure Context where
  generation : Nat
  xfer : Option OpenContext
deriving DecidableEq, Repr

/-- Where a transform stands (R88). -/
inductive CoreStage where
  | waiting
  | inCore (core : Nat)
  | done
deriving DecidableEq, Repr

/-- A block in flight (R88): `key` is the working copy for this block alone, discarded when its transform
completes; `data` is the block as it came, and from then on its result. -/
structure Flight where
  context : Nat
  generation : Nat
  index : Nat
  direction : Direction
  key : Option DataKey
  tweak : Nat
  data : Block
  stage : CoreStage
  rto : ReplyTo
deriving DecidableEq, Repr

/-- A reply the DPU owes on a context that has ended (R88). -/
structure Owed where
  context : Nat
  generation : Nat
  body : Body
  rto : ReplyTo
deriving DecidableEq, Repr

/-- The two sides that share the cipher cores (R88). -/
inductive CoreSide where
  | dataPath
  | rekey
deriving DecidableEq, Repr

/-- Data Path (chapter 5). -/
structure DataPath where
  contexts : List Context
  flights : List Flight
  owed : List Owed
  lastSide : CoreSide
deriving DecidableEq, Repr

/-- A rekey job (6.1). -/
structure Job where
  range : Nat
  state : JobState
  copy : Option Rak
  serial : Option Nat
  newKey : Option Nat
  fault : Option FaultCause
deriving DecidableEq, Repr

/-- A transform of a rekey chunk: from the old key to the new (R102). -/
structure SweepWork where
  chunk : Nat
  position : Nat
  oldKey : DataKey
  newKey : DataKey
  tweak : Nat
  data : Block
  stage : CoreStage
deriving DecidableEq, Repr

/-- Start-up recovery that the Rekey Engine has still to do after LINK_START (R114, R115). -/
inductive Recovery where
  | none
  /-- copy the recorded chunk again from the scratch span -/
  | copy (first n : Nat)
  /-- read and judge the scratch header; the whole range is held -/
  | header
deriving DecidableEq, Repr

/-- What is known of the head job once it has completed and its completion writes are outstanding (R105): its
range, its serial and the watermark it ended with. -/
structure FinishedJob where
  range : Nat
  serial : Nat
  watermark : Nat
  /-- completed before a start-up: no REKEY_DONE is sent (R114) -/
  silent : Bool
deriving DecidableEq, Repr

/-- Rekey Engine (chapter 6). -/
structure Rekey where
  queue : List Job
  serial : Nat
  phase : Phase
  first : Nat
  n : Nat
  window : Bool
  headerIssued : Bool
  buffer : List (Option Block)
  /-- requests of the chunk ready to issue, in order -/
  todo : List ChunkOp
  /-- requests of the chunk issued and not answered -/
  issued : List ChunkOp
  work : List SweepWork
  /-- the model's own name of the current chunk (log 22) -/
  chunk : Nat
  /-- the READING record that ends the chunk is being written (R104) -/
  closing : Bool
  seq : Option RekeySeq
  seqLeft : Nat
  finished : Option FinishedJob
  /-- the resumed job's progress record is being written (R107) -/
  resuming : Bool
  /-- the model's own name of the latest resumption (log 22) -/
  resumption : Nat
  recovery : Recovery
  /-- the whole range of the head job is held (R115) -/
  rangeHeld : Bool
  /-- a recovery copy runs whatever the job's state (R114) -/
  runAnyway : Bool
  dueQueue : Option (List Waiter)
  dueProgress : Option (List Waiter)
deriving DecidableEq, Repr

/-- The delay timer while RUNNING (7.4). -/
structure Timer where
  pending : Pending
  remaining : Nat
deriving DecidableEq, Repr

/-- Response Unit (chapter 7). -/
structure Response where
  level : Level
  firstCause : Option Nat
  lastCause : Option Nat
  timer : Option Timer
  wipeLevel : Level
  settings : List Setting
  purgeAllowed : Bool
  alarmMinimum : Nat
  absenceThreshold : Nat
  absence : Nat
  alarm : Option Nat
  beacon : Nonce
  latch : List Nat
  startLatch : List Nat
deriving DecidableEq, Repr

/-- A wipe chain (8.1) with what the Wipe Engine keeps of it in memory. -/
structure Chain where
  origin : Origin
  steps : List WipeStep
  begun : Bool
  closing : Bool
  failedChunks : Nat
  /-- the model's own name of the chain (log 25) -/
  no : Nat
  /-- the record that holds the chain with its step current is written (R140) -/
  durable : Bool
  /-- the completion of a step other than FILL is being recorded (R139) -/
  recording : Bool
  /-- writes of the begun step outstanding -/
  left : Nat
  /-- CUT_CREDENTIALS waits for credential changes (R60) -/
  waitsCreds : Bool
  /-- FILL chunks above progress that ended, and whether each was skipped (R144) -/
  above : List (Nat × Bool)
  /-- the chain has no step left and its end is being recorded with this status (R146) -/
  ending : Option Status
deriving DecidableEq, Repr

/-- Wipe Engine (chapter 8). -/
structure Wipe where
  normal : Option Chain
  injected : Option Chain
  nextNo : Nat
deriving DecidableEq, Repr

/-- The L416. -/
structure State where
  lif : Link
  cru : Credentials
  btc : Boot
  kst : Keys
  rtb : Ranges
  dpu : DataPath
  rke : Rekey
  rsu : Response
  wpe : Wipe
  sst : Store
  /-- names the next nonce, data key or RAK (log 3) -/
  fresh : Nat
  /-- the frames sent, oldest first (log 7) -/
  sent : List Frame
  /-- the commands that wait, first in first out -/
  pending : List Instr
deriving DecidableEq, Repr

/-! ### Reset -/

/-- An EMPTY credential record (R60). -/
def CredRecord.blank : CredRecord :=
  { state := .empty, verifier := none, wrap := none, failures := 0, limit := Config.defaultLimit, damaged := false }

/-- An EMPTY key record (R26). -/
def KeyRecord.blank : KeyRecord := { state := .empty, owner := none, material := none }

/-- An EMPTY key slot. -/
def KeySlot.blank : KeySlot :=
  { state := .empty, owner := none, material := none, users := 0, copy := none, erasing := false }

/-- A disabled source at its other defaults (R117). -/
def Setting.blank : Setting := { enabled := false, level := .lock, delay := 0, immediate := false, guard := .always }

/-- The default settings: ATTEMPTS (3) alone is enabled (R117). -/
def Setting.defaults : List Setting :=
  [.blank, .blank, .blank, { Setting.blank with enabled := true }, .blank, .blank, .blank, .blank]

/-- An empty staged list with mark NONE (R9). -/
def StagedList.blank : StagedList := { edits := [], mark := .none, prepared := { slots := [], envelopes := [] } }

/-- Range 0 of the BLANK configuration under a RAK (R145): a device envelope alone. -/
def RangeFields.blank (keySlot : Nat) (rak : Rak) : RangeFields :=
  { bounds := none, keySlot := keySlot, split := none, readLocked := true, writeLocked := true,
    lockMode := .refuse, concealed := false, powerLock := false, standbyLock := false,
    readList := 0, writeList := 0,
    envelopes := [{ holder := .device, wraps := [.device], rak := rak, whole := true }], keyLost := false }

/-- The label secret of manufacture, by name (log 33). -/
def manufactureLabel : Verifier := { secret := 0 }

/-- The BLANK configuration of the DEVICE record around a label verifier and an image size (R63, R71). -/
def DeviceRecord.blank (label : Verifier) (imageSize : Nat) : DeviceRecord :=
  { boot := .blank, labelVerifier := label, token := none, imageSize := imageSize, resealOnWake := false,
    purgeAllowed := false, alarmMinimum := Config.defaultAlarm, absenceThreshold := Config.defaultAbsence }

/-- The incident record at CALM (R145). -/
def ResponseRecord.blank : ResponseRecord :=
  { level := .calm, firstCause := none, lastCause := none, pending := none, wipeLevel := .calm }

/-- The START key (R27), range 0's first RAK and its first data key, by name (log 33). -/
def startKey : DataKey := { issue := 0 }
def manufactureRak : Rak := { issue := 1 }
def manufactureKey : DataKey := { issue := 2 }

/-- Material of slot 23: wrapped under the device-internal key, which no RAK of a range is (R27). -/
def Material.start : Material := { key := startKey, rak := { issue := 0 }, whole := true }

/-- Material of range 0's key at manufacture. -/
def Material.manufacture : Material := { key := manufactureKey, rak := manufactureRak, whole := true }

/-- The 64 units as written at manufacture (R153). -/
def Units.manufacture : Units :=
  { cred := List.replicate 10 (some .blank)
    key := some { state := .live, owner := some 0, material := some .manufacture } ::
      (List.replicate 22 (some .blank) ++ [some { state := .live, owner := none, material := some .start }])
    range := some (.enabled (.blank 0 manufactureRak)) :: List.replicate 15 (some .disabled)
    stage := some .blank
    evset := Setting.defaults.map some
    response := some .blank
    wipe := some { normal := none, injected := none }
    rekeyQueue := some { serial := 0, ranges := [], active := none }
    rekeyProgress := some none
    device := some (.blank manufactureLabel 0) }

/-- The link before the first LINK_START after a start-up (state table of chapter 10). -/
def Link.blank (session : Nat) : Link :=
  { started := false, mediaCredits := 0, capacity := 0, imageBase := 0, scratchBase := 0,
    limitData := Config.payloadMax, limitControl := Config.payloadMax, limitPlatform := Config.payloadMax,
    outstanding := [], freeCredits := 0, nextTag := 1, tagsInUse := [], erroredBursts := 0,
    burstTaken := 0, burstErrored := false, burstDropped := false, session := session }

/-- Every context FREE with generation 0 and no block in flight (R97). -/
def DataPath.blank : DataPath :=
  { contexts := List.replicate 16 { generation := 0, xfer := none }, flights := [], owed := [], lastSide := .dataPath }

/-- No job, no chunk (R114), with the next chunk name. -/
def Rekey.blank (serial chunk : Nat) : Rekey :=
  { queue := [], serial := serial, phase := .idle, first := 0, n := 0, window := false, headerIssued := false,
    buffer := [], todo := [], issued := [], work := [], chunk := chunk, closing := false, seq := none,
    seqLeft := 0, finished := none, resuming := false, resumption := 0, recovery := .none, rangeHeld := false,
    runAnyway := false, dueQueue := none, dueProgress := none }

/-- The part after reset: manufactured, started up cold for the first time, READY_OUT asserted (log 1). -/
def State.reset : State :=
  { lif := .blank 1
    cru := { slots := List.replicate 10 { record := .blank, backoff := none },
             challenges := List.replicate 4 none, ops := [] }
    btc := { state := .blank, unsealed := false, imageSize := 0, token := none, labelVerifier := manufactureLabel,
             hello := .none, window := none, provisioning := none }
    kst := { slots := { state := .live, owner := some 0, material := some .manufacture, users := 0,
                        copy := some manufactureKey, erasing := false } ::
               (List.replicate 22 .blank ++
                 [{ state := .live, owner := none, material := some .start, users := 0, copy := some startKey,
                    erasing := false }]),
             loads := .loaded manufactureRak :: List.replicate 15 .notLoaded, hold := none, reservation := 0 }
    rtb := { entries := .enabled { RangeFields.blank 0 manufactureRak with readLocked := false, writeLocked := false } ::
               List.replicate 15 .disabled,
             resealOnWake := false, staged := .blank, commit := .idle, preparing := [], startCommit := none }
    dpu := .blank
    rke := .blank 0 1
    rsu := { level := .calm, firstCause := none, lastCause := none, timer := none, wipeLevel := .calm,
             settings := Setting.defaults, purgeAllowed := false, alarmMinimum := Config.defaultAlarm,
             absenceThreshold := Config.defaultAbsence, absence := 0, alarm := none, beacon := { issue := 3 },
             latch := [], startLatch := [] }
    wpe := { normal := none, injected := none, nextNo := 0 }
    sst := { units := .manufacture, labelCopy := manufactureLabel, marks := [], queue := [], waiting := [],
             serving := none, lastDevice := .blank manufactureLabel 0, seconds := 0, power := .active, drain := .none,
             downMark := false, ready := true, retention := true }
    fresh := 4
    sent := []
    pending := [] }

/-- The part fresh from manufacture, without any supply (R153, 4.3): what the first cold start-up starts
from. Only the store holds state in DEAD (9.5). -/
def State.manufactured : State :=
  { State.reset with
    lif := .blank 0
    kst := { slots := List.replicate 24 .blank, loads := List.replicate 16 .notLoaded, hold := none, reservation := 0 }
    rtb := { State.reset.rtb with entries := List.replicate 16 .disabled }
    rke := .blank 0 0
    sst := { State.reset.sst with power := .dead, ready := false, retention := false }
    fresh := 3 }

end Sys2Proof.Machine
end

