-- ==== Sys2Proof/Machine/Operands.lean ====
section
/-! DEFINITION. The operand forms of the messages: the kind codes and forms of 11.3, the lengths that
chapter 11 gives, the text that a proof digests (R47), and the field checks that need no state (R177 item 7). -/

namespace Sys2Proof

/-- Channel numbers (10.1). -/
def Channel.number : Channel → Nat
  | .data => 0
  | .control => 1
  | .platform => 2
  | .media => 3

/-- Channel of a message (11.3). -/
def Message.channel : Message → Channel
  | .xferOpen | .xferBlock | .xferClose => .data
  | .platformHello | .presence | .motion | .standbyEnter | .standbyExit | .powerDown => .platform
  | _ => .control

/-- Kind of a message (11.3). -/
def Message.kind : Message → Nat
  | .linkStart | .identify | .status | .setReplyLimit => 1
  | .challenge | .setCredential | .resetAttempts | .slotList => 2
  | .provision | .unlock | .lock | .bindPlatform | .startImageUnseal => 3
  | .rangeList | .rangeStage | .rangeDiscard | .rangeCommit => 4
  | .rekeyQueue | .rekeyResume | .rekeyStatus => 5
  | .evidenceSet | .evidenceList | .responseStatus | .responseClear | .remoteOrder => 6
  | .wipeStart | .wipeAbort | .wipeStatus | .reprovision => 7
  | .xferOpen => 0
  | .xferBlock => 1
  | .xferClose => 2
  | .platformHello => 0
  | .presence => 1
  | .motion => 2
  | .standbyEnter => 3
  | .standbyExit => 4
  | .powerDown => 5

/-- Sub-kind of a CONTROL message (11.3); 0 elsewhere. -/
def Message.sub : Message → Nat
  | .linkStart => 0 | .identify => 1 | .status => 2 | .setReplyLimit => 3
  | .challenge => 0 | .setCredential => 1 | .resetAttempts => 2 | .slotList => 3
  | .provision => 0 | .unlock => 1 | .lock => 2 | .bindPlatform => 3 | .startImageUnseal => 4
  | .rangeList => 0 | .rangeStage => 1 | .rangeDiscard => 2 | .rangeCommit => 3
  | .rekeyQueue => 0 | .rekeyResume => 1 | .rekeyStatus => 2
  | .evidenceSet => 0 | .evidenceList => 1 | .responseStatus => 2 | .responseClear => 3 | .remoteOrder => 4
  | .wipeStart => 0 | .wipeAbort => 1 | .wipeStatus => 2 | .reprovision => 3
  | _ => 0

/-- Form of a request (11.3). -/
def Message.form : Message → Form
  | .linkStart | .setCredential | .provision | .bindPlatform | .rangeList | .rangeStage | .evidenceSet => .long
  | .xferOpen | .xferBlock | .platformHello | .presence => .long
  | _ => .short

/-- A short request followed by a proof tail: S+P in 11.3 (R176). -/
def Message.tail : Message → Bool
  | .resetAttempts | .unlock | .lock | .startImageUnseal | .rangeDiscard | .rangeCommit | .rekeyQueue
  | .rekeyResume | .evidenceList | .responseClear | .remoteOrder | .wipeStart | .wipeAbort | .reprovision => true
  | _ => false

/-- The payload lengths that chapter 11 gives a long request (11.2); `none` where it gives none (log 9). -/
def Message.length : Message → Option Nat
  | .xferOpen => some 9
  | .xferBlock => some 4104
  | .linkStart => some 20
  | .platformHello => some 32
  | .presence => some 32
  | _ => none

/-- Every message that arrives as a request. -/
def Message.all : List Message :=
  [.linkStart, .identify, .status, .setReplyLimit, .challenge, .setCredential, .resetAttempts, .slotList,
   .provision, .unlock, .lock, .bindPlatform, .startImageUnseal, .rangeList, .rangeStage, .rangeDiscard,
   .rangeCommit, .rekeyQueue, .rekeyResume, .rekeyStatus, .evidenceSet, .evidenceList, .responseStatus,
   .responseClear, .remoteOrder, .wipeStart, .wipeAbort, .wipeStatus, .reprovision] ++
  [.xferOpen, .xferBlock, .xferClose, .platformHello, .presence, .motion, .standbyEnter, .standbyExit, .powerDown]

/-- R177 item 5: the form is the message's, and a long payload has a length that the message takes. The five
messages whose length chapter 11 does not give end in a proof block, so theirs has room for the sub-kind and the
34 bytes of the block (R47, R176). -/
def Message.fits (m : Message) (f : Hdr) : Bool :=
  f.form == m.form && (f.form == .short ||
    (match m.length with
     | some n => f.length == n
     | none => f.lengthFits && 35 ≤ f.length))

/-- R177 item 5 for RANGE_LIST: 2 bytes, or 36 with a proof block (11.2). -/
def rangeListFits (f : Hdr) (proved : Bool) : Bool :=
  f.form == .long && f.length == (if proved then 36 else 2)

/-! ### The text of a proof -/

/-- A yes or no field, 255 for any other value (log 9). -/
def flagCode : Option Bool → Nat
  | some false => 0
  | some true => 1
  | none => 255

/-- action of SET_CREDENTIAL (log 9). -/
def credActionCode : Option CredAction → Nat
  | some .set => 0
  | some .disable => 1
  | none => 255

/-- action of BIND_PLATFORM (log 9). -/
def bindActionCode : Option BindAction → Nat
  | some .bind => 0
  | some .unbind => 1
  | none => 255

/-- action of START_IMAGE_UNSEAL (log 9). -/
def unsealActionCode : Option UnsealAction → Nat
  | some .unseal => 0
  | some .reseal => 1
  | none => 255

/-- lock_mode in a request (log 9). -/
def lockModeCode : Option LockMode → Nat
  | some .refuse => 0
  | some .shroud => 1
  | none => 255

/-- Kind of an edit (log 9). -/
def editKindCode : Option EditKind → Nat
  | some .define => 0
  | some .options => 1
  | some .access => 2
  | some .newKey => 3
  | some .disable => 4
  | none => 255

/-- guard of a source (log 9). -/
def guardCode : Option Guard → Nat
  | some .always => 0
  | some .whileSealed => 1
  | some .whileAsleep => 2
  | none => 255

/-- R47 items 2 to 4: channel, kind, sub-kind and what stands before the proof block. -/
def digestText (m : Message) (fields : List Nat) : List Nat := m.channel.number :: m.kind :: m.sub :: fields

/-- R47 item 4: what stands before the proof block: the fields, which a command carries by their meaning, and every
byte, whether a field is read from it or not (11.3, S+P). -/
def Hdr.covered (f : Hdr) (fields : List Nat) : List Nat := fields ++ f.bytes.map (fun b => b.toNat)

/-- The fields of a RANGE_STAGE request, as its proof covers them. -/
def EditFields.text (e : EditFields) : List Nat :=
  [e.range, editKindCode e.kind, e.first, e.count, lockModeCode e.lockMode, flagCode e.concealed,
   flagCode e.powerLock, flagCode e.standbyLock, flagCode e.reseal, e.readList.toNat, e.writeList.toNat]

/-- The values of an EVIDENCE_SET request, as its proof covers them. -/
def EvidenceValues.text (v : EvidenceValues) : List Nat :=
  [flagCode v.enabled, v.level, v.delay, flagCode v.immediate, guardCode v.guard, flagCode v.purgeAllowed,
   v.alarmMinimum, v.absenceThreshold]

/-! ### Field checks -/

namespace Machine

/-- Credential slots above 9 are absent from a list (R10). -/
def listFits (l : CredSet) : Bool := l.toNat < 1024

/-- Credential slot s is in a list. -/
def listed (l : CredSet) (s : Nat) : Bool := l.getLsbD s

/-- R10, field checks: the edit of a RANGE_STAGE request, or none for BAD_FIELD. R13 ignores reseal_on_wake for a
range other than 0; a value there that is neither yes nor no is refused all the same (the model's choice, log 37). -/
def stagedEdit (e : EditFields) : Option Edit :=
  if e.range > 15 then none
  else match e.kind with
    | none => none
    | some .define =>
      if e.first ≥ Config.blockMax || e.count > Config.blockMax then none else some (.define e.range e.first e.count)
    | some .options =>
      match e.lockMode, e.concealed, e.powerLock, e.standbyLock, e.reseal with
      | some m, some c, some p, some b, some r => some (.options e.range m c p b r)
      | _, _, _, _, _ => none
    | some .access =>
      if listFits e.readList && listFits e.writeList then some (.access e.range e.readList e.writeList) else none
    | some .newKey => some (.newKey e.range)
    | some .disable => some (.disable e.range)

/-- The range an edit names. -/
def Edit.range : Edit → Nat
  | .define r _ _ => r
  | .options r _ _ _ _ _ => r
  | .access r _ _ => r
  | .newKey r => r
  | .disable r => r

/-- Levels of the response by number (7.3). -/
def levelOf : Nat → Option Level
  | 0 => some .calm
  | 1 => some .guard
  | 2 => some .lock
  | 3 => some .erase
  | 4 => some .purge
  | _ => none

/-- A level a source or an order may ask for: not CALM (7.2, R129). -/
def askedLevel (n : Nat) : Option Level := if n = 0 then none else levelOf n

/-- R118, a whole settings entry, or none for BAD_FIELD. -/
def settingOf (v : EvidenceValues) : Option Setting :=
  match v.enabled, askedLevel v.level, v.immediate, v.guard with
  | some e, some l, some i, some g => if v.delay ≤ 3600 then some ⟨e, l, v.delay, i, g⟩ else none
  | _, _, _, _ => none

/-- R118, the table-wide settings, or none for BAD_FIELD. -/
def tableOf (v : EvidenceValues) : Option (Bool × Nat × Nat) :=
  match v.purgeAllowed with
  | some p =>
    if 1 ≤ v.alarmMinimum && v.alarmMinimum ≤ 60 && 10 ≤ v.absenceThreshold && v.absenceThreshold ≤ 3600 then
      some (p, v.alarmMinimum, v.absenceThreshold)
    else none
  | none => none

/-- failure_limit of SET_CREDENTIAL: 0, or 3 to 32 (R55). -/
def limitFits (n : Nat) : Bool := n == 0 || (3 ≤ n && n ≤ 32)

/-- LOCK's direction: 1 READ, 2 WRITE, 3 BOTH, as (read, write) (11.3). -/
def lockDirections : Nat → Option (Bool × Bool)
  | 1 => some (true, false)
  | 2 => some (false, true)
  | 3 => some (true, true)
  | _ => none

/-- XFER_OPEN's direction: 0 READ, 1 WRITE (11.2). -/
def openDirection : Nat → Option Direction
  | 0 => some .read
  | 1 => some .write
  | _ => none

/-- A range field of 16 to 254 names no range (R53, R67, R69). -/
def rangeFieldFits (r : Nat) : Bool := r < 16 || r == 255

/-- Two spans share a block (4.1). -/
def overlap (f n g m : Nat) : Bool := f < g + m && g < f + n

/-- R170: the fields of LINK_START against their ranges and the start image span of the size in force. -/
def linkFieldsFit (credits capacity imageBase scratchBase size : Nat) : Bool :=
  1 ≤ credits && credits ≤ 8 && 1 ≤ capacity && capacity ≤ Config.blockMax && imageBase < Config.mediaMax &&
    scratchBase ≤ Config.mediaMax - 34 && !(0 < size && overlap scratchBase Config.scratchSpan imageBase size)

/-- R173: the limits SET_REPLY_LIMIT takes, by channel number. -/
def limitTaken (channel limit : Nat) : Option Channel :=
  if channel = 0 then (if 4104 ≤ limit && limit ≤ 4160 then some .data else none)
  else if channel = 1 then (if 64 ≤ limit && limit ≤ 4160 then some .control else none)
  else if channel = 2 then (if 64 ≤ limit && limit ≤ 4160 then some .platform else none)
  else none

end Machine

end Sys2Proof
end

