-- ==== Sys2Proof/Machine/Flags.lean ====
section
/-! DEFINITION. What the state reads as: the entries of its tables, and every condition and flag that the
rules compute from it (the overlay, ALARM_OUT, the range of a block, the guards of the evidence sources,
the counts of STATUS). Nothing here changes the state. -/

namespace Sys2Proof.Machine

/-! ### Reads of the tables -/

/-- Key slot k. -/
def State.slot (s : State) (k : Nat) : KeySlot := s.kst.slots[k]?.getD .blank

/-- RAK load state of range r (2.5). -/
def State.load (s : State) (r : Nat) : Load := s.kst.loads[r]?.getD .notLoaded

/-- Credential slot i. -/
def State.cred (s : State) (i : Nat) : CredSlot := s.cru.slots[i]?.getD { record := .blank, backoff := none }

/-- Range entry r. -/
def State.entry (s : State) (r : Nat) : Entry := s.rtb.entries[r]?.getD .disabled

/-- The fields of an entry that is ENABLED. -/
def Entry.fields? : Entry → Option RangeFields
  | .enabled f => some f
  | _ => none

/-- The fields of range r, where it is ENABLED. -/
def State.fields (s : State) (r : Nat) : Option RangeFields := (s.entry r).fields?

/-- The numbers of the ENABLED ranges, ascending. -/
def State.enabledRanges (s : State) : List Nat := (List.range 16).filter (fun r => (s.fields r).isSome)

/-- Stream context c. -/
def State.ctx (s : State) (c : Nat) : Context := s.dpu.contexts[c]?.getD { generation := 0, xfer := none }

/-- The OPEN contexts with their numbers, ascending. -/
def State.openContexts (s : State) : List (Nat × OpenContext) :=
  (List.range 16).filterMap (fun c => (s.ctx c).xfer.map (fun x => (c, x)))

/-- The settings of source i (7.2). -/
def State.setting (s : State) (i : Nat) : Setting := s.rsu.settings[i]?.getD .blank

/-- The chain of a kind. -/
def State.chain (s : State) : ChainKind → Option Chain
  | .normal => s.wpe.normal
  | .injected => s.wpe.injected

/-! ### Levels, boot state, power -/

/-- Number of a level (7.3). -/
def Level.number : Level → Nat
  | .calm => 0
  | .guard => 1
  | .lock => 2
  | .erase => 3
  | .purge => 4

/-- a is below b. -/
def Level.below (a b : Level) : Bool := a.number < b.number

/-- The response level is LOCK or higher. -/
def State.lockdown (s : State) : Bool := 2 ≤ s.rsu.level.number

/-- R72: the overlay is on exactly in SEALED, QUARANTINE and ERASED. -/
def BootState.overlay : BootState → Bool
  | .sealed | .quarantine | .erased => true
  | .blank | .opened => false

/-- The boot state is SEALED or OPEN (R12, R99, R112). -/
def BootState.usable : BootState → Bool
  | .sealed | .opened => true
  | _ => false

/-- The main supply is present: ACTIVE or STANDBY (9.5). -/
def PowerState.supplied : PowerState → Bool
  | .active | .standby => true
  | .off | .dead => false

/-- R163: frames are taken while READY_OUT is asserted; READY_OUT is deasserted from the removal of the
main supply. -/
def State.takesFrames (s : State) : Bool := s.sst.ready && s.sst.power.supplied

/-- R132: ALARM_OUT; undriven in OFF and DEAD. -/
def State.alarmOut (s : State) : Bool := s.sst.power.supplied && (s.rsu.level != .calm || s.rsu.alarm.isSome)

/-- The drain state as STATUS reports it (R159). -/
def Drain.report : Drain → DrainState
  | .none => .none
  | .standby _ => .standbyDrain
  | .powerDown _ => .powerDownDrain

/-- R121: WHILE_SEALED is met. -/
def State.whileSealed (s : State) : Bool := s.btc.state.overlay

/-- R121: the guard of a source is met. -/
def State.guardMet (s : State) : Guard → Bool
  | .always => true
  | .whileSealed => s.whileSealed
  | .whileAsleep => s.whileSealed || s.sst.power == .standby

/-- R127: the absence timer counts. -/
def State.absenceCounting (s : State) : Bool :=
  s.sst.power == .active && (s.setting 0).enabled && s.btc.token.isSome && s.lif.started

/-! ### The layout of the address space -/

/-- A bounded range covers block b. -/
def Entry.covers (e : Entry) (b : Nat) : Bool :=
  match e with
  | .enabled f =>
    (match f.bounds with
     | some p => p.first ≤ b && b < p.first + p.count
     | none => false)
  | _ => false

/-- R2: the range of block b. -/
def State.rangeOf (s : State) (b : Nat) : Nat :=
  (((List.range 16).drop 1).find? (fun r => (s.entry r).covers b)).getD 0

/-- R82 item 1: how far into the span of n blocks from f the first block of another range lies. -/
def State.crossing (s : State) (f n : Nat) : Option Nat :=
  (List.range n).find? (fun i => s.rangeOf (f + i) != s.rangeOf f)

/-- R24: some entry is DAMAGED. -/
def State.tableDamaged (s : State) : Bool := (List.range 16).any (fun r => s.entry r == .damaged)

/-- R16: the affected set of a commit that is DRAINING or WRITING. -/
def State.affected (s : State) : List Nat :=
  match s.rtb.commit with
  | .idle => []
  | .draining a _ _ _ => a
  | .writing a _ _ _ _ _ _ => a

/-- The commit state as reported. -/
def Commit.phase : Commit → CommitPhase
  | .idle => .idle
  | .draining _ _ _ _ => .draining
  | .writing _ _ _ _ _ _ _ => .writing

/-- The commit state is IDLE. -/
def State.commitIdle (s : State) : Bool := s.rtb.commit.phase == .idle

/-- An OPEN context lies in a range of the list (R15, R17); OVERLAY contexts lie in none. -/
def OpenContext.inRanges (x : OpenContext) (l : List Nat) : Bool :=
  match x.range with
  | some r => l.contains r
  | none => false

/-! ### Rekey -/

/-- The head job (6.1). -/
def State.headJob (s : State) : Option Job := s.rke.queue.head?

/-- The head job, where it is SWEEPING, PAUSED or FAULTED: the active job of a record. -/
def State.activeJob (s : State) : Option Job :=
  match s.headJob with
  | some j => if j.state == .queued then none else some j
  | none => none

/-- Range r has a job that is SWEEPING, PAUSED or FAULTED (R14); a completed job is SWEEPING until its last write
has completed (R105). -/
def State.inSweep (s : State) (r : Nat) : Bool :=
  match s.activeJob with
  | some j => j.range == r
  | none => false

/-- R82 item 3: a chunk from CLAIMING until its window is released, or the whole range of the active job
while its scratch header is still to be judged (R115). -/
def State.underChunk (s : State) (r f n : Nat) : Bool :=
  (s.rke.rangeHeld && s.inSweep r) ||
    ((s.rke.phase == .claiming || s.rke.window) && overlap f n s.rke.first s.rke.n)

/-- R101: an OPEN context in mode CLEAR or SHROUD overlaps the chunk. -/
def State.chunkBlocked (s : State) : Bool :=
  s.openContexts.any (fun (_, x) => x.mode != .overlay && overlap x.first x.count s.rke.first s.rke.n)

/-- R107, R108: a chunk whose header has not been issued can be dropped. -/
def State.droppable (s : State) : Bool :=
  s.rke.phase == .claiming || (s.rke.phase == .reading && !s.rke.headerIssued)

/-- R105: the head job's queue part is being written without it. -/
def State.leaving (s : State) : Bool := s.rke.seq == some .doneQueue

/-- R105: the head job's progress part is cleared. -/
def State.cleared (s : State) : Bool := s.rke.seq == some .doneProgress || s.leaving

/-- A job's start writes are under way up to its queue part, so its progress part is still to come. -/
def State.progressAhead (s : State) : Bool := s.rke.seq == some .startKey || s.rke.seq == some .startQueue

/-! ### Store -/

/-- A write of unit u is queued, waiting or in service (R110's "outstanding"). -/
def State.outstanding (s : State) (u : StoreUnit) : Bool :=
  s.sst.queue.any (fun w => w.unit == u) || s.sst.waiting.any (fun w => w.unit == u) ||
    (match s.sst.serving with
     | some w => w.unit == u
     | none => false)

/-- R160: the write queue and the wait list are empty, and no write is in service. -/
def State.storeIdle (s : State) : Bool := s.sst.queue.isEmpty && s.sst.waiting.isEmpty && s.sst.serving.isNone

/-! ### Counts -/

/-- Pool slots in a state (R172). -/
def State.poolCount (s : State) (st : KeyState) : Nat :=
  ((List.range 23).filter (fun k => (s.slot k).state == st)).length

/-- The lowest EMPTY pool slot (R29). -/
def State.emptySlot (s : State) : Option Nat := (List.range 23).find? (fun k => (s.slot k).state == .empty)

/-- R172: ranges whose RAK is loaded: LOADED or RELEASING (log 30). -/
def State.loadedRanges (s : State) : Nat := ((List.range 16).filter (fun r => s.load r != .notLoaded)).length

/-- The core is carrying a transform. -/
def State.coreBusy (s : State) (c : Nat) : Bool :=
  s.dpu.flights.any (fun f => f.stage == .inCore c) || s.rke.work.any (fun w => w.stage == .inCore c)

/-- The lowest free cipher core (R88, log 27). -/
def State.freeCore (s : State) : Option Nat := (List.range 4).find? (fun c => !s.coreBusy c)

/-- The Data Path has a block waiting for a core. -/
def State.dataWaits (s : State) : Bool := s.dpu.flights.any (fun f => f.stage == .waiting)

/-- The Rekey Engine has a transform waiting for a core. -/
def State.sweepWaits (s : State) : Bool := s.rke.work.any (fun w => w.stage == .waiting)

/-- The key slots an ENABLED range names. -/
def RangeFields.named (f : RangeFields) : List Nat :=
  match f.split with
  | some p => [f.keySlot, p.newKey]
  | none => [f.keySlot]

/-- The key slots that range r names. -/
def State.namedSlots (s : State) (r : Nat) : List Nat :=
  match s.fields r with
  | some f => f.named
  | none => []

/-- Slot k holds a key of range r. A slot that a range still names after its key was lost may hold a later key of
another range (R26); that key is none of the first range's (the model's reading, log 37). -/
def State.owns (s : State) (r k : Nat) : Bool := (s.slot k).owner == some r

/-- R34: holders of range r: a nonzero users count on its key_slot or new_key_slot, or a sweep hold. -/
def State.hasHolders (s : State) (r : Nat) : Bool :=
  (match s.kst.hold with
   | some h => h.range == r
   | none => false) ||
  (s.namedSlots r).any (fun k => s.owns r k && decide (0 < (s.slot k).users))

/-- R40: nothing is left to cut. -/
def State.nothingToCut (s : State) : Bool :=
  s.poolCount .empty == 23 &&
    (List.range 16).all (fun r => s.load r == .notLoaded &&
      (match s.fields r with
       | some f => f.envelopes.isEmpty
       | none => true))

/-- R72: the reply to STATUS (R172). -/
def State.statusReport (s : State) : StatusReport :=
  { started := s.lif.started
    mediaCredits := s.lif.mediaCredits
    creditsInUse := s.lif.outstanding.length
    capacity := s.lif.capacity
    erroredBursts := s.lif.erroredBursts
    power := s.sst.power
    drain := s.sst.drain.report
    boot := s.btc.state
    overlay := s.btc.state.overlay
    imageSize := s.btc.imageSize
    unsealed := s.btc.unsealed
    tokenBound := s.btc.token.isSome
    hello := s.btc.hello
    level := s.rsu.level
    openContexts := s.openContexts.length
    emptySlots := s.poolCount .empty
    liveSlots := s.poolCount .live
    retiringSlots := s.poolCount .retiring
    loadedRanges := s.loadedRanges
    sweepHold := s.kst.hold.isSome
    commit := s.rtb.commit.phase
    damagedUnits := s.sst.marks.length
    waitingWrites := s.sst.queue.length + s.sst.waiting.length }

/-! ### Data blocks -/

/-- The cipher under a key with a tweak (R86): it undoes its inverse under the same key and tweak. -/
def encipher (key : DataKey) (tweak : Nat) (b : Block) : Block :=
  match b with
  | .deciphered k t x => if k = key ∧ t = tweak then x else .enciphered key tweak b
  | _ => .enciphered key tweak b

/-- The inverse of the cipher. -/
def decipher (key : DataKey) (tweak : Nat) (b : Block) : Block :=
  match b with
  | .enciphered k t x => if k = key ∧ t = tweak then x else .deciphered key tweak b
  | _ => .deciphered key tweak b

end Sys2Proof.Machine
end

