-- ==== Sys2Proof/Machine/Ops.lean ====
section
/-! DEFINITION. The named operations over the state that the meanings share: updates of the tables, the
frames the part sends (10.1, R171), the content of every record unit (R153) and the write queue of the
Secure Store (R154, R155), and fresh names (log 3). -/

namespace Sys2Proof.Machine

/-! ### Updates of the tables -/

/-- Change key slot k. -/
def State.mapSlot (s : State) (k : Nat) (g : KeySlot → KeySlot) : State :=
  { s with kst := { s.kst with slots := s.kst.slots.modify k g } }

/-- Set the RAK load state of range r. -/
def State.setLoad (s : State) (r : Nat) (l : Load) : State :=
  { s with kst := { s.kst with loads := s.kst.loads.set r l } }

/-- Change credential slot i. -/
def State.mapCred (s : State) (i : Nat) (g : CredSlot → CredSlot) : State :=
  { s with cru := { s.cru with slots := s.cru.slots.modify i g } }

/-- Set range entry r. -/
def State.setEntry (s : State) (r : Nat) (e : Entry) : State :=
  { s with rtb := { s.rtb with entries := s.rtb.entries.set r e } }

/-- Change the fields of range r, where it is ENABLED. -/
def State.mapFields (s : State) (r : Nat) (g : RangeFields → RangeFields) : State :=
  match s.fields r with
  | some f => s.setEntry r (.enabled (g f))
  | none => s

/-- Set stream context c. -/
def State.setCtx (s : State) (c : Nat) (x : Context) : State :=
  { s with dpu := { s.dpu with contexts := s.dpu.contexts.set c x } }

/-- Set the chain of a kind. -/
def State.setChain (s : State) (k : ChainKind) (c : Option Chain) : State :=
  match k with
  | .normal => { s with wpe := { s.wpe with normal := c } }
  | .injected => { s with wpe := { s.wpe with injected := c } }

/-- Change the head job. -/
def State.mapHead (s : State) (g : Job → Job) : State :=
  { s with rke := { s.rke with queue := s.rke.queue.modify 0 g } }

/-- Name a value that the part makes (log 3). -/
def State.bump (s : State) : State := { s with fresh := s.fresh + 1 }

/-! ### Frames -/

/-- Send a frame. -/
def State.send (s : State) (ch : Channel) (tag : Nat) (b : Body) : State :=
  { s with sent := s.sent ++ [{ channel := ch, tag := tag, body := b }] }

/-- A CONTROL tag leaves the set of tags in use with its request's final frame (R165). -/
def State.freeTag (s : State) (tag : Nat) : State :=
  { s with lif := { s.lif with tagsInUse := s.lif.tagsInUse.filter (fun t => t != tag) } }

/-- A frame under the tag of a request that is not its final frame; withheld after a link restart (R171). -/
def State.interim (s : State) (rto : ReplyTo) (b : Body) : State :=
  if rto.session = s.lif.session then s.send rto.channel rto.tag b else s

/-- The final frame of a request (R165); withheld after a link restart (R171). -/
def State.answer (s : State) (rto : ReplyTo) (b : Body) : State :=
  if rto.session = s.lif.session then
    match rto.channel with
    | .control => (s.send .control rto.tag b).freeTag rto.tag
    | ch => s.send ch rto.tag b
  else s

/-- A final frame that carries a status alone. -/
def State.refuse (s : State) (rto : ReplyTo) (st : Status) (detail : List Nat := []) : State :=
  s.answer rto (.status st detail)

/-- A notice on CONTROL under tag 0; one that falls due while the link is not started is not sent (R169). -/
def State.notice (s : State) (b : Body) : State := if s.lif.started then s.send .control 0 b else s

/-- Where the replies to a request taken now go. -/
def State.replyTo (s : State) (ch : Channel) (tag : Nat) : ReplyTo :=
  { channel := ch, tag := tag, session := s.lif.session }

/-- The reply limit of a channel (R173). -/
def State.limit (s : State) : Channel → Nat
  | .data => s.lif.limitData
  | .control => s.lif.limitControl
  | .platform => s.lif.limitPlatform
  | .media => Config.payloadMax

/-- A long reply of so many bytes, sent whole or refused TOO_LONG (R173). -/
def State.answerLong (s : State) (rto : ReplyTo) (bytes : Nat) (b : Body) : State :=
  if bytes ≤ s.limit rto.channel then s.answer rto b else s.refuse rto .tooLong

/-- R173, list replies: the entries of a page from a start index, or none for TOO_LONG. -/
def pageOf {α : Type} (limit head item start : Nat) (l : List α) : Option (List α) :=
  if start ≥ l.length then some []
  else if (limit - head) / item = 0 then none
  else some ((l.drop start).take ((limit - head) / item))

/-! ### Envelopes -/

/-- The holders in the order of an envelope list (R31). -/
def holderOrder : List Holder :=
  [.cred 0, .cred 1, .device, .cred 2, .cred 3, .cred 4, .cred 5, .cred 6, .cred 7, .cred 8, .cred 9]

/-- The envelope of a holder. -/
def envelopeOf (l : List Envelope) (h : Holder) : Option Envelope := l.find? (fun e => e.holder == h)

/-- An envelope list in order, at most one envelope per holder, the first of each (R31). -/
def ordered (l : List Envelope) : List Envelope := holderOrder.filterMap (fun h => envelopeOf l h)

/-! ### Content of the record units -/

/-- The RANGE record of an entry: the lock flags are not stored (R4). -/
def Entry.stored : Entry → Entry
  | .enabled f => .enabled { f with readLocked := true, writeLocked := true }
  | e => e

/-- The WIPE record of a chain; a chain whose end is being recorded is absent (R146). -/
def Chain.stored (c : Chain) : Option ChainRecord :=
  if c.steps.isEmpty then none
  else some { origin := c.origin, steps := c.steps, closing := c.closing, failedChunks := c.failedChunks }

/-- The active job as the queue part names it. -/
def Job.active (j : Job) : ActiveJob := { range := j.range, serial := j.serial.getD 0, newKey := j.newKey.getD 0 }

/-- The queue part of the REKEY record (R110): the last write of a completion is without its job (R105). -/
def State.queueRecord (s : State) : QueuePart :=
  let jobs := s.rke.queue.map (fun j => j.range)
  if s.leaving then { serial := s.rke.serial, ranges := jobs.drop 1, active := none }
  else { serial := s.rke.serial, ranges := jobs, active := s.activeJob.map Job.active }

/-- The recorded chunk of the progress part: of COPYING, of a kept FAULTED chunk, or still to be recovered. -/
def State.recordedChunk (s : State) (j : Job) : Option (Nat × Nat) :=
  if s.rke.closing then none
  else match s.rke.recovery with
    | .copy f n => some (f, n)
    | _ =>
      if s.rke.phase == .staged || s.rke.phase == .copying || (j.state == .faulted && s.rke.headerIssued) then
        some (s.rke.first, s.rke.n)
      else none

/-- The phase of the progress part is COPYING: from STAGED to the end of the copy, or still to be recovered. -/
def State.recordedCopying (s : State) : Bool :=
  !s.rke.closing && (s.rke.phase == .staged || s.rke.phase == .copying ||
    (match s.rke.recovery with
     | .copy _ _ => true
     | _ => false))

/-- The watermark that the progress part holds: of a completed job, whose range has none, the one it ended with. -/
def State.recordedMark (s : State) (r : Nat) : Nat :=
  match s.rke.finished with
  | some x => x.watermark
  | none =>
    match (s.fields r).bind (fun f => f.split) with
    | some p => p.watermark
    | none => 0

/-- The progress part of the REKEY record (R110, log 22); a completion clears it (R105). -/
def State.progressRecord (s : State) : Option ProgressJob :=
  match s.activeJob with
  | none => none
  | some j =>
    if s.cleared then none
    else
      some { range := j.range, serial := j.serial.getD 0, newKey := j.newKey.getD 0, state := j.state, fault := j.fault
             copying := s.recordedCopying
             watermark := if s.rke.closing then s.rke.first + s.rke.n else s.recordedMark j.range
             chunk := s.recordedChunk j }

/-- The RESPONSE record (R120). -/
def State.responseRecord (s : State) : ResponseRecord :=
  { level := s.rsu.level, firstCause := s.rsu.firstCause, lastCause := s.rsu.lastCause,
    pending := s.rsu.timer.map (fun t => t.pending), wipeLevel := s.rsu.wipeLevel }

/-- The CRED record that PROVISION writes for a custodian (R61). -/
def custodianRecord (v : Verifier) (w : WrapValue) : CredRecord :=
  { state := .enabled, verifier := some v, wrap := some w, failures := 0, limit := Config.defaultLimit, damaged := false }

/-- The content a write of a unit carries: the unit's whole content as its owner holds it now (9.2). The
custodians and envelopes of a PROVISION in progress are written before they take effect (R66); the KEY
record of a slot whose erasure was placed is EMPTY (R30). -/
def State.recordOf (s : State) : StoreUnit → Record
  | .cred i =>
    match s.btc.provisioning with
    | some p =>
      if i = 0 then .cred (custodianRecord p.adminVerifier p.adminWrap)
      else if i = 1 then .cred (custodianRecord p.recoveryVerifier p.recoveryWrap)
      else .cred (s.cred i).record
    | none => .cred (s.cred i).record
  | .key k =>
    let x := s.slot k
    if x.erasing then .key .blank else .key { state := x.state, owner := x.owner, material := x.material }
  | .range r =>
    match s.btc.provisioning, s.fields r with
    | some p, some f =>
      let made := (p.envelopes.filter (fun q => q.1 == r)).map (fun q => q.2)
      .range (Entry.stored (.enabled { f with envelopes := ordered (made ++ f.envelopes) }))
    | _, _ => .range (s.entry r).stored
  | .stage => .stage s.rtb.staged
  | .evset i => .evset (s.setting i)
  | .response => .response s.responseRecord
  | .wipe => .wipe { normal := s.wpe.normal.bind Chain.stored, injected := s.wpe.injected.bind Chain.stored }
  | .rekeyQueue => .rekeyQueue s.queueRecord
  | .rekeyProgress => .rekeyProgress s.progressRecord
  | .device => .device s.sst.lastDevice

/-! ### The write queue -/

/-- R154 case 1: a waiting write of the unit takes the new content and requesters. -/
def replaceWrite (u : StoreUnit) (c : Record) (ws : List Waiter) (l : List Write) : List Write :=
  l.map (fun w => if w.unit = u then { w with content := c, waiters := w.waiters ++ ws } else w)

/-- R154: place a write of a unit with a content for its requesters. -/
def State.place (s : State) (u : StoreUnit) (c : Record) (ws : List Waiter) : State :=
  let w : Write := { unit := u, content := c, waiters := ws }
  if s.sst.queue.any (fun x => x.unit == u) then
    { s with sst := { s.sst with queue := replaceWrite u c ws s.sst.queue } }
  else if s.sst.waiting.any (fun x => x.unit == u) then
    { s with sst := { s.sst with waiting := replaceWrite u c ws s.sst.waiting } }
  else if s.sst.queue.length < Config.queueMax then
    { s with sst := { s.sst with queue := s.sst.queue ++ [w] } }
  else { s with sst := { s.sst with waiting := s.sst.waiting ++ [w] } }

/-- Place a write of a unit with its content as it stands. -/
def State.write (s : State) (u : StoreUnit) (ws : List Waiter) : State := s.place u (s.recordOf u) ws

/-- Place writes of several units, in order, each for one requester. -/
def State.writeAll (s : State) (us : List StoreUnit) (w : Waiter) : State :=
  us.foldl (fun t u => t.write u [w]) s

/-- R153: a write of the DEVICE unit is built from the last one placed, with the requester's change. -/
def State.writeDevice (s : State) (g : DeviceRecord → DeviceRecord) (ws : List Waiter) : State :=
  let d := g s.sst.lastDevice
  { s with sst := { s.sst with lastDevice := d } }.place .device (.device d) ws

/-- R155: when no write is in service, the head of the queue goes into service, and the head of the wait
list joins the tail of the queue (R154). -/
def State.serve (s : State) : State :=
  match s.sst.serving, s.sst.queue with
  | none, w :: q =>
    match s.sst.waiting with
    | x :: l => { s with sst := { s.sst with serving := some w, queue := q ++ [x], waiting := l } }
    | [] => { s with sst := { s.sst with serving := some w, queue := q } }
  | _, _ => s

/-- The outcome of a command: the machine goes on, and the store takes its next write (log 6). -/
def done (s : State) : Host.Outcome State Fault Refusal := .next s.serve

/-! ### The REKEY record's two parts -/

/-- A write of the progress part must wait (R110): the other part is outstanding, the start's queue part is
still to come (log 22), or the watermark is still to be recovered (R115). -/
def State.progressBlocked (s : State) : Bool :=
  s.outstanding .rekeyQueue || s.progressAhead || s.rke.recovery == .header

/-- R110: a write of the queue part, placed now or due. -/
def State.writeQueuePart (s : State) (ws : List Waiter) : State :=
  let all := s.rke.dueQueue.getD [] ++ ws
  if s.outstanding .rekeyProgress then { s with rke := { s.rke with dueQueue := some all } }
  else { s with rke := { s.rke with dueQueue := none } }.write .rekeyQueue all

/-- R110: a write of the progress part, placed now or due. -/
def State.writeProgressPart (s : State) (ws : List Waiter) : State :=
  let all := s.rke.dueProgress.getD [] ++ ws
  if s.progressBlocked then { s with rke := { s.rke with dueProgress := some all } }
  else { s with rke := { s.rke with dueProgress := none } }.write .rekeyProgress all

/-- R110: the part whose write fell due is placed when the other part's write has completed. -/
def State.flushParts (s : State) : State :=
  let s := match s.rke.dueQueue with
    | some _ => s.writeQueuePart []
    | none => s
  match s.rke.dueProgress with
  | some _ => s.writeProgressPart []
  | none => s

end Sys2Proof.Machine
end

