-- ==== Sys2Proof/Machine/Keys.lean ====
section
/-! DEFINITION. The Key Store's own operations (chapter 2): users counts and what their fall brings,
generation and retirement, ordinary and forced unloads, the sweep hold and the cut; and the ends of stream
contexts, which release references (R89, R90). -/

namespace Sys2Proof.Machine

/-! ### Retirement and unload -/

/-- R30: a RETIRING slot without users has its copy dropped and its erasure placed, once. -/
def State.settleSlot (s : State) (k : Nat) : State :=
  if (s.slot k).state = .retiring ∧ (s.slot k).users = 0 ∧ (s.slot k).erasing = false then
    (s.mapSlot k (fun x => { x with copy := none, erasing := true })).write (.key k) [.erased k]
  else s

/-- The LIVE pool slots that hold a data key of range r, named by it or not (R26). -/
def State.ownedSlots (s : State) (r : Nat) : List Nat :=
  (List.range 23).filter (fun k => (s.slot k).state == .live && s.owns r k)

/-- Drop the RAK of range r and the copies of its data keys: NOT_LOADED (R34). -/
def State.dropRange (s : State) (r : Nat) : State :=
  ((s.ownedSlots r).foldl (fun t k => t.mapSlot k (fun x => { x with copy := none })) s).setLoad r .notLoaded

/-- R34: a RELEASING range that has lost its last holder goes NOT_LOADED. -/
def State.settleRange (s : State) (r : Nat) : State :=
  match s.load r with
  | .releasing _ => if s.hasHolders r then s else s.dropRange r
  | _ => s

/-- R34: an ordinary unload of range r. -/
def State.unload (s : State) (r : Nat) : State :=
  match s.load r with
  | .notLoaded => s
  | .loaded k | .releasing k => if s.hasHolders r then s.setLoad r (.releasing k) else s.dropRange r

/-- R28: a reference on slot k ends. -/
def State.dropUser (s : State) (k : Nat) : State :=
  let t := (s.mapSlot k (fun x => { x with users := x.users - 1 })).settleSlot k
  match (s.slot k).owner with
  | some r => t.settleRange r
  | none => t

/-- R28: a reference on slot k is taken. -/
def State.addUser (s : State) (k : Nat) : State := s.mapSlot k (fun x => { x with users := x.users + 1 })

/-- R30: a LIVE pool slot is retired. -/
def State.retire (s : State) (k : Nat) : State :=
  if (s.slot k).state = .live then (s.mapSlot k (fun x => { x with state := .retiring })).settleSlot k else s

/-! ### Lost keys -/

/-- R1, R157: key_lost is set on range r, where it is ENABLED, and its record is written. A DAMAGED entry takes no write
before its repair. -/
def State.loseKey (s : State) (r : Nat) : State :=
  match s.fields r with
  | some f => (s.setEntry r (.enabled { f with keyLost := true })).write (.range r) []
  | none => s

/-! ### Generation -/

/-- The RAK in the cache of range r, LOADED or RELEASING. -/
def Load.rak? : Load → Option Rak
  | .notLoaded => none
  | .loaded k | .releasing k => some k

/-- R29: a new data key for range r under a RAK, in the lowest EMPTY pool slot; the slot's number, or none
when no pool slot is EMPTY. -/
def State.generate (s : State) (r : Nat) (rak : Rak) : State × Option Nat :=
  match s.emptySlot with
  | none => (s, none)
  | some k =>
    let key : DataKey := { issue := s.fresh }
    let x : KeySlot :=
      { state := .live, owner := some r, material := some { key := key, rak := rak, whole := true }, users := 0,
        copy := if (s.load r).rak? = some rak then some key else none, erasing := false }
    ((s.mapSlot k (fun _ => x)).bump, some k)

/-- A new RAK (2.4). -/
def State.newRak (s : State) : State × Rak := (s.bump, { issue := s.fresh })

/-- R29: another generation than a draining commit's may take a slot. -/
def State.canGenerate (s : State) : Bool := s.kst.reservation < s.poolCount .empty

/-! ### The sweep hold -/

/-- R100, R107: take the sweep hold on range r. -/
def State.takeHold (s : State) (r : Nat) : State :=
  match s.fields r with
  | some f =>
    match f.split with
    | some p =>
      let t := (s.addUser f.keySlot).addUser p.newKey
      { t with kst := { t.kst with hold := some { range := r, oldKey := f.keySlot, newKey := p.newKey } } }
    | none => s
  | none => s

/-- Both directions of the range are locked. -/
def State.bothLocked (s : State) (r : Nat) : Bool :=
  match s.fields r with
  | some f => f.readLocked && f.writeLocked
  | none => false

/-- R28, R34: release the sweep hold, and ask for an unload of a range that is locked both ways. -/
def State.releaseHold (s : State) : State :=
  match s.kst.hold with
  | none => s
  | some h =>
    let t := { s with kst := { s.kst with hold := none } }
    let t := (t.dropUser h.oldKey).dropUser h.newKey
    if t.bothLocked h.range then t.unload h.range else t.settleRange h.range

/-! ### Forced unload and cut -/

/-- R35: every RAK and every pool key copy is dropped. -/
def State.forcedUnload (s : State) : State :=
  { s with kst := { s.kst with
      loads := s.kst.loads.map (fun _ => Load.notLoaded)
      slots := (s.kst.slots.take 23).map (fun x => { x with copy := none }) ++ s.kst.slots.drop 23 } }

/-- R40 items 1, 2 and 4: every pool slot becomes EMPTY, every range NOT_LOADED, the hold and the
reservation end. -/
def State.cutSlots (s : State) : State :=
  { s with kst := { s.kst with
      loads := s.kst.loads.map (fun _ => Load.notLoaded)
      slots := (s.kst.slots.take 23).map (fun _ => KeySlot.blank) ++ s.kst.slots.drop 23
      hold := none
      reservation := 0 } }

/-- R40 item 3 and R110: every ENABLED entry loses its envelopes and its split, and is locked both ways (R4). -/
def Entry.cut : Entry → Entry
  | .enabled f => .enabled { f with envelopes := [], split := none, readLocked := true, writeLocked := true }
  | e => e

/-! ### The ends of stream contexts -/

/-- R78: a context becomes FREE, and its references end (R28). -/
def State.freeContext (s : State) (c : Nat) : State :=
  match (s.ctx c).xfer with
  | none => s
  | some x => x.keyRefs.foldl State.dropUser (s.setCtx c { (s.ctx c) with xfer := none })

/-- Some block of the grant is still in flight (R88). -/
def State.inFlight (s : State) (c g : Nat) : Bool :=
  s.dpu.flights.any (fun f => f.context == c && f.generation == g)

/-- A frame that ends a context's transfer: an XFER_ABORTED is a notice, which a link restart does not withhold
(4.6, R171); any other is the answer to its request. -/
def State.lastWord (s : State) (rto : ReplyTo) (b : Body) : State :=
  match b with
  | .aborted _ _ _ _ => s.send rto.channel rto.tag b
  | _ => s.answer rto b

/-- R88: a reply the DPU owes on an ended context follows the replies to its blocks in flight. -/
def State.owe (s : State) (c g : Nat) (rto : ReplyTo) (b : Body) : State :=
  if s.inFlight c g then
    { s with dpu := { s.dpu with owed := s.dpu.owed ++ [{ context := c, generation := g, body := b, rto := rto }] } }
  else s.lastWord rto b

/-- R90: abort context c. -/
def State.abort (s : State) (cause : AbortCause) (c : Nat) : State :=
  match (s.ctx c).xfer with
  | none => s
  | some x =>
    let g := (s.ctx c).generation
    (s.freeContext c).owe c g x.rto (.aborted c g cause x.nextIndex)

/-- R90: abort every OPEN context that a test picks, each with its own notice. R90 leaves the order of the notices open; they
are taken in ascending context number (the model's choice, log 31). -/
def State.abortAll (s : State) (cause : AbortCause) (p : OpenContext → Bool) : State :=
  ((s.openContexts.filter (fun q => p q.2)).map (fun q => q.1)).foldl (fun t c => t.abort cause c) s

end Sys2Proof.Machine
end

