-- ==== Sys2Proof/Machine/Sweep.lean ====
section
/-! DEFINITION. The Rekey Engine's shared operations (chapter 6): the ends of a chunk, the faults, pauses
and resumptions of the active job, the requests of a chunk, and the judging of a scratch header; and the
Link Interface's issue of a media request (R174). -/

namespace Sys2Proof.Machine

/-! ### Chunks -/

/-- R102: the chunk is dropped: window released, buffer discarded; a transform already in a core runs on and
its result is discarded, and later replies are known by the old chunk name (log 22). -/
def State.dropChunk (s : State) : State :=
  { s with rke := { s.rke with
      phase := .idle, first := 0, n := 0, window := false, headerIssued := false, buffer := [], todo := [],
      issued := [], work := s.rke.work.filter (fun w => w.stage != .waiting), chunk := s.rke.chunk + 1,
      closing := false } }

/-- R110: the sweep is abandoned in any phase, with every start-up recovery and every step of its writes. -/
def State.abandonSweep (s : State) : State :=
  let t := s.dropChunk
  { t with rke := { t.rke with
      seq := none, seqLeft := 0, finished := none, resuming := false, recovery := .none, rangeHeld := false,
      runAnyway := false } }

/-- The position an operation works on, for the ascending order of R100 to R104. -/
def ChunkOp.position : ChunkOp → Nat
  | .read i | .scratch i | .dest i | .recoverRead i => i
  | .headerFilled | .headerCopied | .recoverHeader => 0

/-- An operation that must be done again joins the operations still to issue, in ascending block order. -/
def insertOp (o : ChunkOp) (l : List ChunkOp) : List ChunkOp :=
  l.filter (fun x => x.position < o.position) ++ o :: l.filter (fun x => !(x.position < o.position) && x != o)

/-- The operations over the blocks of a chunk, in order. -/
def opsFor (n : Nat) (g : Nat → ChunkOp) : List ChunkOp := (List.range n).map g

/-! ### The active job -/

/-- R109: the active job becomes FAULTED; a chunk whose header was not issued is dropped, any other is kept. A fault
also stops a start-up recovery until a REKEY_RESUME: the copy of R114, which otherwise runs whatever the job's state, and
the header read of R115. So does a key of the job that a load after LINK_START finds damaged, which R36 handles as for a
media fault: the spec does not say whether the recovery then goes on (the model's choice, log 39). -/
def State.faultJob (s : State) (cause : FaultCause) : State :=
  let t := if s.rke.headerIssued || s.rke.phase == .idle then s else s.dropChunk
  let t := t.mapHead (fun j => { j with state := .faulted, fault := some cause })
  let t := { t with rke := { t.rke with runAnyway := false } }
  t.releaseHold.writeProgressPart []

/-- R107, R108: an escalation to LOCK or higher, or a standby, reaches the sweep. A job that has completed has
nothing left to pause (log 23). -/
def State.pauseSweep (s : State) (dropCopies : Bool) : State :=
  let t := if s.droppable then s.dropChunk else s
  let t := t.releaseHold
  let t := if dropCopies then { t with rke := { t.rke with queue := t.rke.queue.map (fun j => { j with copy := none }) } }
           else t
  match t.headJob with
  | some j =>
    if j.state = .sweeping ∧ t.rke.finished = none then
      (t.mapHead (fun j => { j with state := .paused })).writeProgressPart []
    else t
  | none => t

/-- R107, R112: a PAUSED or FAULTED head sweeps again: hold retaken, fault_cause removed, progress part
written; a scratch header still to be judged is read again (R115). -/
def State.resumeJob (s : State) (r : Nat) (ws : List Waiter) : State :=
  let t := s.takeHold r
  let t := t.mapHead (fun j => { j with state := .sweeping, fault := none })
  let n := t.rke.resumption + 1
  { t with rke := { t.rke with resuming := true, resumption := n } }.writeProgressPart (.rekeyResumed n :: ws)

/-- A key slot that an ENABLED range names is EMPTY (R114), or holds another range's key by now. A range that is not ENABLED, its record being damaged,
has lost its slots as well: the model's choice, of which R114 says nothing (log 39). -/
def State.slotLost (s : State) (r : Nat) : Bool :=
  match s.fields r with
  | some f => f.named.any (fun k => (s.slot k).state == .empty || !s.owns r k)
  | none => true

/-- R107: a PAUSED job resumes when its range's RAK goes LOADED. A job that has lost a key slot does not, nor does any
load resume one whose scratch header is still to be judged: it waits for its state to be settled, or for a REKEY_RESUME
(R112, R115; the model's choice, log 39). -/
def State.resumeIfPaused (s : State) (r : Nat) : State :=
  match s.headJob, s.load r with
  | some j, .loaded _ =>
    if j.range = r ∧ j.state = .paused ∧ s.rke.recovery ≠ .header ∧ s.slotLost r = false then s.resumeJob r [] else s
  | _, _ => s

/-- R114: the recovered job's state is settled from its slots and its range's RAK; a completed one has none. A job that
a REKEY_RESUME or a load has already resumed holds its range, and sweeps on though an unload has made the range RELEASING
(R106; the model's reading, log 39). -/
def State.settleJob (s : State) : State :=
  match s.activeJob with
  | none => s
  | some j =>
    if j.state = .faulted ∨ s.rke.finished.isSome = true then s
    else if s.slotLost j.range then s.releaseHold.mapHead (fun j => { j with state := .faulted, fault := some .keyLost })
    else if s.kst.hold.isSome then s.mapHead (fun j => { j with state := .sweeping })
    else match s.load j.range with
      | .loaded _ => (s.takeHold j.range).mapHead (fun j => { j with state := .sweeping })
      | _ => s.mapHead (fun j => { j with state := .paused })

/-! ### Media requests -/

/-- R174: the next tag of the cycle 1 to 255 that is not outstanding. -/
def State.mediaTag (s : State) : Nat :=
  (((List.range 255).map (fun i => (s.lif.nextTag - 1 + i) % 255 + 1)).find?
    (fun t => !s.lif.outstanding.any (fun q => q.tag == t))).getD s.lif.nextTag

/-- R174: an engine that is granted a credit issues its request at once. -/
def State.issue (s : State) (k : MediaKind) (c : Client) (b : Body) : State :=
  let tag := s.mediaTag
  let q : MediaReq := { tag := tag, kind := k, client := c, remaining := Config.mediaPeriod }
  { s with lif := { s.lif with
      freeCredits := s.lif.freeCredits - 1, outstanding := s.lif.outstanding ++ [q], nextTag := tag % 255 + 1 } }.send
    .media tag b

/-- The scratch header of the chunk in a state (R102, R104). -/
def State.scratchHeader (s : State) (st : HeaderState) : Block :=
  match s.headJob with
  | some j => .header { serial := j.serial.getD 0, range := j.range, newKeySlot := j.newKey.getD 0,
                        first := s.rke.first, n := s.rke.n, state := st }
  | none => .zeros

/-- The block at a position of the chunk buffer. -/
def State.buffered (s : State) (i : Nat) : Block := (s.rke.buffer[i]?.getD none).getD .zeros

/-- The media request of a chunk operation (R102, R104, R114, R115). -/
def State.chunkFrame (s : State) : ChunkOp → MediaKind × Body
  | .read i => (.read, .mediaRead (s.rke.first + i))
  | .scratch i => (.write, .mediaWrite (s.lif.scratchBase + 1 + i) (s.buffered i))
  | .headerFilled => (.write, .mediaWrite s.lif.scratchBase (s.scratchHeader .filled))
  | .dest i => (.write, .mediaWrite (s.rke.first + i) (s.buffered i))
  | .headerCopied => (.write, .mediaWrite s.lif.scratchBase (s.scratchHeader .copied))
  | .recoverRead i => (.read, .mediaRead (s.lif.scratchBase + 1 + i))
  | .recoverHeader => (.read, .mediaRead s.lif.scratchBase)

/-- A write of the scratch span. -/
def ChunkOp.toScratch : ChunkOp → Bool
  | .scratch _ | .headerFilled | .headerCopied => true
  | _ => false

/-- R102: a scratch write of an earlier chunk is outstanding. -/
def State.staleScratch (s : State) : Bool :=
  s.lif.outstanding.any (fun q => match q.client with
    | .rekey c o => c != s.rke.chunk && o.toScratch
    | .wipe _ _ _ => false)

/-- R175: the Rekey Engine waits for a credit, with this request of its chunk. A kept chunk issues its requests again
as soon as its job has resumed, and does not wait for the progress part's write (R112; the model's choice, log 39). -/
def State.sweepRequest (s : State) : Option ChunkOp :=
  match s.rke.todo, s.headJob with
  | o :: _, some j =>
    if s.lif.started && (s.rke.runAnyway || j.state != .faulted) && !(o.toScratch && s.staleScratch) then some o else none
  | _, _ => none

/-- The Rekey Engine issues the next request of its chunk. -/
def State.issueSweep (s : State) (o : ChunkOp) : State :=
  let q := s.chunkFrame o
  let t := s.issue q.1 (.rekey s.rke.chunk o) q.2
  { t with rke := { t.rke with
      todo := t.rke.todo.drop 1, issued := t.rke.issued ++ [o],
      headerIssued := t.rke.headerIssued || o == .headerFilled } }

/-! ### Progress of a chunk -/

/-- Requests to follow, once every one of the step before has ended (R102, R104). -/
def State.thenOps (s : State) (l : List ChunkOp) : State :=
  if s.rke.todo.isEmpty && s.rke.issued.isEmpty then { s with rke := { s.rke with todo := l } } else s

/-- R102: a block of the chunk is in the buffer; when the buffer is full the scratch writes are issued. -/
def State.fillBuffer (s : State) (i : Nat) (b : Block) (next : List ChunkOp) : State :=
  let t := { s with rke := { s.rke with buffer := s.rke.buffer.set i (some b) } }
  if t.rke.buffer.all (fun x => x.isSome) then t.thenOps next else t

/-- The key that a slot's transform uses: its loaded copy, or the key of its material (log 28). -/
def State.keyOf (s : State) (k : Nat) : DataKey :=
  match (s.slot k).copy with
  | some x => x
  | none =>
    match (s.slot k).material with
    | some m => m.key
    | none => startKey

/-- R88: a new waiter takes a core at once when one is free and nobody waits; otherwise it waits. -/
def State.coreStage (s : State) : CoreStage :=
  if s.dataWaits || s.sweepWaits then .waiting
  else match s.freeCore with
    | some c => .inCore c
    | none => .waiting

/-- R102: a data reply of the chunk goes to a cipher core, from the old key to the new. -/
def State.startTransform (s : State) (i : Nat) (b : Block) : State :=
  match s.headJob with
  | some j =>
    match s.fields j.range with
    | some f =>
      let w : SweepWork :=
        { chunk := s.rke.chunk, position := i, oldKey := s.keyOf f.keySlot,
          newKey := s.keyOf (j.newKey.getD f.keySlot), tweak := s.rke.first + i, data := b, stage := s.coreStage }
      { s with rke := { s.rke with work := s.rke.work ++ [w] } }
    | none => s
  | none => s

/-- The first block of a range: where a job's watermark begins (R100). -/
def State.firstBlock (s : State) (r : Nat) : Nat :=
  match s.fields r with
  | some f => (match f.bounds with
      | some p => p.first
      | none => 0)
  | none => 0

/-- Set the watermark of a range under rekey. -/
def State.setWatermark (s : State) (r w : Nat) : State :=
  s.mapFields r (fun f => { f with split := f.split.map (fun p => { p with watermark := w }) })

/-- R115, the third row and COPIED: the watermark is known, and the progress part is rewritten. -/
def State.recovered (s : State) (r w : Nat) : State :=
  let t := s.setWatermark r w
  { t with rke := { t.rke with recovery := .none, runAnyway := false } }.writeProgressPart [.rekeyRecovered]

/-- R115: the scratch header is unreadable; key_lost is written with the range (9.2), before the parts that wait. -/
def State.unrecovered (s : State) (r : Nat) : State :=
  let t := (s.loseKey r).mapHead (fun j => { j with state := .faulted, fault := some .keyLost })
  let t := { t with rke := { t.rke with recovery := .none, runAnyway := false, rangeHeld := false } }.releaseHold
  t.flushParts

/-- R114: COPYING of a recorded chunk from the scratch span. -/
def State.recoverCopy (s : State) (f n : Nat) : State :=
  { s with rke := { s.rke with
      phase := .copying, first := f, n := n, window := true, headerIssued := true, recovery := .copy f n,
      buffer := List.replicate n none, todo := opsFor n .recoverRead, issued := [], runAnyway := true } }

/-- R115: the scratch header is judged against the active job. -/
def State.judge (s : State) (b : Block) : State :=
  match s.headJob with
  | none => s
  | some j =>
    match b with
    | .header h =>
      if h.serial = j.serial.getD 0 ∧ h.range = j.range ∧ h.newKeySlot = j.newKey.getD 0 then
        match h.state with
        | .filled => ((s.setWatermark j.range h.first).recoverCopy h.first h.n).flushParts
        | .copied => s.recovered j.range (h.first + h.n)
      else s.recovered j.range (s.firstBlock j.range)
    | _ => s.unrecovered j.range

/-- A request of the current chunk is answered OK, with its data where it is a read (R102 to R104, R114, R115). -/
def State.confirmOp (s : State) (o : ChunkOp) (data : Block) : State :=
  let t := { s with rke := { s.rke with issued := s.rke.issued.erase o } }
  match o with
  | .read i => t.startTransform i data
  | .scratch _ => t.thenOps [.headerFilled]
  | .headerFilled => { t with rke := { t.rke with phase := .staged } }.writeProgressPart [.chunkStaged t.rke.chunk]
  | .dest _ => t.thenOps [.headerCopied]
  | .headerCopied => { t with rke := { t.rke with closing := true } }.writeProgressPart [.chunkDone t.rke.chunk]
  | .recoverRead i =>
    let u := t.fillBuffer i data (opsFor t.rke.n .dest)
    if u.rke.buffer.all (fun x => x.isSome) then { u with rke := { u.rke with recovery := .none } } else u
  | .recoverHeader => t.judge data

/-- R109, R115: a request of the current chunk ends in a fault or a timeout. -/
def State.failOp (s : State) (o : ChunkOp) (cause : FaultCause) : State :=
  let t := { s with rke := { s.rke with issued := s.rke.issued.erase o, todo := insertOp o s.rke.todo } }
  match o, cause, s.headJob with
  | .recoverHeader, .mediaFault, some j => { t with rke := { t.rke with todo := [] } }.unrecovered j.range
  | _, _, _ => t.faultJob cause

end Sys2Proof.Machine
end

