-- ==== Sys2Proof/Machine/Loads.lean ====
section
/-! DEFINITION. Loads of range access keys (R33), what a damaged key does (R36), the opening of envelopes
(R32), and the lock flags with the loads and unloads that go with them (R3, R4). -/

namespace Sys2Proof.Machine

/-- R36: the key of slot k, which range r names, is found damaged. A job that has completed does not become
FAULTED (log 23). -/
def State.damagedKey (s : State) (r k : Nat) : State :=
  let t := s.abortAll .keyDamaged (fun x => x.mode == .clear && x.range == some r)
  let t := match t.activeJob, t.fields r with
    | some j, some f => if j.range = r ∧ k ∈ f.named ∧ t.rke.finished = none then t.faultJob .keyLost else t
    | _, _ => t
  ((t.mapSlot k (fun _ => KeySlot.blank)).write (.key k) []).loseKey r

/-- R33: slot k of range r is unwrapped under a RAK, where it is LIVE and holds a key of the range. -/
def State.unwrap (s : State) (r : Nat) (rak : Rak) (k : Nat) : State :=
  if (s.slot k).state = .live ∧ s.owns r k = true then
    match (s.slot k).material with
    | some m =>
      if m.whole = true ∧ m.rak = rak then s.mapSlot k (fun x => { x with copy := some m.key }) else s.damagedKey r k
    | none => s.damagedKey r k
  else s

/-- R33: a load of range r through a RAK that was obtained, or not; whether it succeeded. It unwraps the slots
that the range names; a slot prepared for it by a deferred list stays unloaded (the model's choice, log 37). -/
def State.loadRange (s : State) (r : Nat) (via : Option Rak) : State × Bool :=
  if s.lockdown then (s, false)
  else match s.load r, via with
    | .loaded _, _ => (s, true)
    | .releasing k, _ => ((s.setLoad r (.loaded k)).resumeIfPaused r, true)
    | .notLoaded, none => (s, false)
    | .notLoaded, some k =>
      (((s.namedSlots r).foldl (fun t x => t.unwrap r k x) (s.setLoad r (.loaded k))).resumeIfPaused r, true)

/-- R32: the RAK of range r through a holder's envelope, with the wrapping value that the grant gives. -/
def State.openEnvelope (s : State) (r : Nat) (h : Holder) (w : Option WrapValue) : Option Rak :=
  match s.fields r, w with
  | some f, some v =>
    match envelopeOf f.envelopes h with
    | some e => if e.whole = true ∧ v ∈ e.wraps then some e.rak else none
    | none => none
  | _, _ => none

/-- R32: the RAK of range r through its device envelope, which needs no grant. -/
def State.openDevice (s : State) (r : Nat) : Option Rak := s.openEnvelope r .device (some .device)

/-- Set the lock flags of range r: a direction that is named takes the value. -/
def State.setLocks (s : State) (r : Nat) (read write v : Bool) : State :=
  s.mapFields r (fun f => { f with readLocked := if read then v else f.readLocked,
                                   writeLocked := if write then v else f.writeLocked })

/-- R3, R4: the named directions of range r are locked, and a range locked both ways is unloaded. -/
def State.lockRange (s : State) (read write : Bool) (r : Nat) : State :=
  let t := s.setLocks r read write true
  if t.bothLocked r then t.unload r else t

/-- R3: the named directions of range r are unlocked once its RAK is loaded; whether it was. -/
def State.unlockRange (s : State) (read write : Bool) (via : Option Rak) (r : Nat) : State × Bool :=
  let q := s.loadRange r via
  if q.2 then (q.1.setLocks r read write false, true) else (q.1, false)

/-- R4, R5, R6: both directions of range r are unlocked through its device envelope. -/
def State.unlockDevice (s : State) (r : Nat) : State := (s.unlockRange true true (s.openDevice r) r).1

/-- The ENABLED ranges whose fields a test picks, ascending. -/
def State.rangesWhere (s : State) (p : RangeFields → Bool) : List Nat :=
  (List.range 16).filter (fun r => match s.fields r with
    | some f => p f
    | none => false)

/-- R4: both directions of every ENABLED range are locked. -/
def State.lockAll (s : State) : State :=
  { s with rtb := { s.rtb with entries := s.rtb.entries.map (fun e => match e with
      | .enabled f => .enabled { f with readLocked := true, writeLocked := true }
      | e => e) } }

end Sys2Proof.Machine
end

