-- ==== Sys2Proof/Machine/Commit.lean ====
section
/-! DEFINITION. The commit of the staged edit list (1.6, 1.7): the edits and their checks, the plan they
make, new keys and envelopes, the installation of the result, and the waves of writes. -/

namespace Sys2Proof.Machine

/-! ### Edits (R13, R14) -/

/-- The result of the edits so far on a copy of the table: the entries, reseal_on_wake, and the ranges that
became ENABLED with a new RAK, that a NEW_KEY touched, and that a repair touched. -/
structure Plan where
  entries : List Entry
  reseal : Bool
  remade : List Nat
  rekeyed : List Nat
  repaired : List Nat
deriving DecidableEq, Repr

/-- The entry of a plan. -/
def Plan.entry (p : Plan) (r : Nat) : Entry := p.entries[r]?.getD .disabled

/-- Set an entry of a plan. -/
def Plan.set (p : Plan) (r : Nat) (e : Entry) : Plan := { p with entries := p.entries.set r e }

/-- R13, repair edits: key_lost is cleared and the split of the range goes with its keys. -/
def Plan.repair (p : Plan) (r : Nat) (f : RangeFields) : Plan :=
  if f.keyLost then
    { p.set r (.enabled { f with keyLost := false, split := none }) with repaired := r :: p.repaired }
  else p.set r (.enabled f)

/-- R13: an entry that becomes ENABLED; its key slot and envelopes come with the installation. -/
def RangeFields.made (bounds : Option Span) (powerLock : Bool) : RangeFields :=
  { bounds := bounds, keySlot := 0, split := none, readLocked := true, writeLocked := true, lockMode := .refuse,
    concealed := false, powerLock := powerLock, standbyLock := false, readList := 0, writeList := 0, envelopes := [],
    keyLost := false }

/-- R13: the effect of one edit. A DISABLE of an entry that is DISABLED at that point, for which R13 has no row and R14
no refusal, changes nothing (the model's choice, log 37). Nor does an OPTIONS, an ACCESS or, of ranges 1 to 15, a NEW_KEY
of an entry that is not ENABLED, which only a list that a start-up applies can meet: a deferred list (R23), whose check
it passes, or an interrupted one (R25). Such an OPTIONS leaves reseal_on_wake too where that entry is range 0's (the
model's choice, log 20). -/
def Plan.apply (p : Plan) : Edit → Plan
  | .define r first count =>
    if r = 0 then p
    else
      let b : Option Span := some { first := first, count := count }
      match p.entry r with
      | .enabled f => p.repair r { f with bounds := b }
      | .disabled => { p.set r (.enabled (.made b true)) with remade := r :: p.remade }
      | .damaged => { p.set r (.enabled (.made b true)) with remade := r :: p.remade, repaired := r :: p.repaired }
  | .options r mode concealed powerLock standbyLock reseal =>
    match p.entry r with
    | .enabled f =>
      { p.set r (.enabled { f with lockMode := mode, concealed := concealed, powerLock := powerLock,
                                   standbyLock := standbyLock }) with
        reseal := if r = 0 then reseal else p.reseal }
    | _ => p
  | .access r rl wl =>
    match p.entry r with
    | .enabled f => p.set r (.enabled { f with readList := rl, writeList := wl })
    | _ => p
  | .newKey r =>
    match p.entry r with
    | .enabled f => { p.repair r f with rekeyed := r :: p.rekeyed }
    | .damaged =>
      if r = 0 then
        { p.set r (.enabled (.made none false)) with remade := r :: p.remade, repaired := r :: p.repaired }
      else p
    | .disabled => p
  | .disable r =>
    if r = 0 then p
    else match p.entry r with
      | .enabled f => { p.set r .disabled with repaired := if f.keyLost then r :: p.repaired else p.repaired }
      | .damaged => { p.set r .disabled with repaired := r :: p.repaired }
      | .disabled => p

/-- The working table as a plan without edits. -/
def State.planStart (s : State) : Plan :=
  { entries := s.rtb.entries, reseal := s.rtb.resealOnWake, remade := [], rekeyed := [], repaired := [] }

/-- R13: the result of a list. -/
def State.plan (s : State) (es : List Edit) : Plan := es.foldl Plan.apply s.planStart

/-- R14: a range whose job is SWEEPING, PAUSED or FAULTED and whose key_lost is off. A range that an earlier edit of
the list repairs is not busy, though its job stands until the commit, and neither is a DAMAGED entry, which holds no
rekey (the model's choices, log 37 and log 20). -/
def State.busyRange (s : State) (p : Plan) (r : Nat) : Bool :=
  s.inSweep r && !p.repaired.contains r &&
    (match p.entry r with
     | .enabled f => !f.keyLost
     | _ => false)

/-- R14: an ACCESS list names a credential slot that is EMPTY. -/
def State.listsEmpty (s : State) (l : CredSet) : Bool :=
  (List.range 10).any (fun i => listed l i && (s.cred i).record.state == .empty)

/-- The entry is ENABLED. -/
def Entry.isEnabled : Entry → Bool
  | .enabled _ => true
  | _ => false

/-- R14, edit checks: the status that refuses an edit against the copy, if any. -/
def State.checkEdit (s : State) (p : Plan) : Edit → Option Status
  | .define r first count =>
    if r = 0 then some .invalidLayout
    else if count = 0 then some .invalidLayout
    else if first + count > s.lif.capacity then some .invalidLayout
    else if s.busyRange p r then some .rangeBusy
    else none
  | .options r _ _ _ _ _ => if (p.entry r).isEnabled then none else some .invalidLayout
  | .access r rl wl =>
    if !(p.entry r).isEnabled then some .invalidLayout
    else if s.listsEmpty rl || s.listsEmpty wl then some .invalidLayout
    else none
  | .newKey r =>
    if !((p.entry r).isEnabled || (r == 0 && p.entry r == .damaged)) then some .invalidLayout
    else if s.busyRange p r then some .rangeBusy
    else none
  | .disable r =>
    if r = 0 then some .invalidLayout
    else if s.busyRange p r then some .rangeBusy
    else none

/-- R14: the first edit that is refused, with its index; else the plan. -/
def State.checkEdits (s : State) : Nat → Plan → List Edit → Except (Status × List Nat) Plan
  | _, p, [] => .ok p
  | i, p, e :: es =>
    match s.checkEdit p e with
    | some st => .error (st, [i])
    | none => s.checkEdits (i + 1) (p.apply e) es

/-- The bounds of a bounded ENABLED entry. -/
def Entry.bounds? : Entry → Option Span
  | .enabled f => f.bounds
  | _ => none

/-- R14, overlap check: of several pairs of overlapping ranges, the one with the lowest first range, and of these
the lowest second, decides (the model's choice, log 37). -/
def Plan.overlapping (p : Plan) : Option (Nat × Nat) :=
  (((List.range 16).drop 1).flatMap (fun a => ((List.range 16).drop (a + 1)).map (fun b => (a, b)))).find? (fun q =>
    match (p.entry q.1).bounds?, (p.entry q.2).bounds? with
    | some x, some y => overlap x.first x.count y.first y.count
    | _, _ => false)

/-- The edit sets the bounds of one of two ranges. -/
def Edit.setsBounds (e : Edit) (a b : Nat) : Bool :=
  match e with
  | .define r _ _ => r == a || r == b
  | _ => false

/-- The index of the last edit that set the bounds of either range (R14). -/
def lastBounds (es : List Edit) (a b : Nat) : List Nat :=
  (((List.range es.length).filter (fun i => match es[i]? with
    | some e => e.setsBounds a b
    | none => false)).getLast?).toList

/-- R13: the ranges that need a new data key, ascending. A range that was ENABLED and that the list disables and defines
anew is one of them: its DEFINE gives a new RAK and a new data key by the table of R13, though the paragraph New keys
does not name it (the model's choice, log 37). -/
def Plan.needKeys (p : Plan) : List Nat :=
  (List.range 16).filter (fun r =>
    (p.entry r).isEnabled && (p.remade.contains r || p.rekeyed.contains r || p.repaired.contains r))

/-- R14: validation of a list. -/
def State.validate (s : State) (es : List Edit) : Except (Status × List Nat) Plan :=
  match s.checkEdits 0 s.planStart es with
  | .error e => .error e
  | .ok p =>
    match p.overlapping with
    | some (a, b) => .error (.invalidLayout, lastBounds es a b)
    | none => if p.needKeys.length > s.poolCount .empty then .error (.noKeySlot, []) else .ok p

/-! ### What a commit names -/

/-- The ranges that a list names, ascending. -/
def namedRanges (es : List Edit) : List Nat :=
  (List.range 16).filter (fun r => es.any (fun e => e.range == r))

/-- The edit changes coverage or keys: DEFINE, NEW_KEY or DISABLE. -/
def Edit.structural : Edit → Bool
  | .define _ _ _ | .newKey _ | .disable _ => true
  | _ => false

/-- A DEFINE or DISABLE, which changes the global range's coverage. -/
def Edit.reshapes : Edit → Bool
  | .define _ _ _ | .disable _ => true
  | _ => false

/-- R15: the affected set. -/
def affectedSet (es : List Edit) : List Nat :=
  (List.range 16).filter (fun r =>
    es.any (fun e => e.structural && e.range == r) || (r == 0 && es.any Edit.reshapes))

/-- R15, R22: the RAK of each ENABLED range named, opened through the ADMIN envelope; none when one of the
envelopes does not open. -/
def State.workingRaks (s : State) (w : Option WrapValue) : List Nat → Option (List (Nat × Rak))
  | [] => some []
  | r :: rs =>
    if (s.fields r).isSome then
      match s.openEnvelope r (.cred 0) w, s.workingRaks w rs with
      | some k, some l => some ((r, k) :: l)
      | _, _ => none
    else s.workingRaks w rs

/-- The value paired with a number. -/
def pairedWith {α : Type} (l : List (Nat × α)) (r : Nat) : Option α := (l.find? (fun q => q.1 == r)).map (fun q => q.2)

/-! ### Keys and envelopes of a commit -/

/-- R37, R39: the wrapping values under which an envelope for slot i is made now: both forms while a change
of the slot is in wave A or B, else the slot's own; none when it has none. Of a damaged slot with a change in wave A R37
says both that no envelope is made for it and that a slot with a change in progress gets both forms: such a slot has no
earlier wrapping value, and its envelope is made in the new form alone (the model's choice, log 21). -/
def State.wrapForms (s : State) (i : Nat) : List WrapValue :=
  match s.cru.ops.find? (fun o => o.target == i && o.wave != .c) with
  | some o => o.oldWrap.toList ++ [o.wrap]
  | none => (s.cred i).record.wrap.toList

/-- An envelope for a holder under a RAK, where it can be made. -/
def State.makeEnvelope (s : State) (rak : Rak) (h : Holder) : Option Envelope :=
  let ws := match h with
    | .cred i => s.wrapForms i
    | .device => [.device]
  if ws.isEmpty then none else some { holder := h, wraps := ws, rak := rak, whole := true }

/-- R31: the holder should have an envelope by the range's options and lists. -/
def RangeFields.holds (f : RangeFields) : Holder → Bool
  | .cred i => i < 2 || listed f.readList i || listed f.writeList i
  | .device => !f.powerLock

/-- R37: the holders for which a commit makes an envelope: those that should have one and did not before. -/
def newHolders (old : Option RangeFields) (f : RangeFields) : List Holder :=
  holderOrder.filter (fun h => f.holds h && (match old with
    | none => true
    | some o => !o.holds h))

/-- R18 step 2, R22 step 1: new keys for ranges in ascending order, under new RAKs or the opened ones; the
slots by range and the new RAKs. -/
def State.makeKeys (s : State) (p : Plan) (raks : List (Nat × Rak)) : List Nat → State × List (Nat × Nat) × List (Nat × Rak)
  | [] => (s, [], [])
  | r :: rs =>
    let q : State × Option Rak := if p.remade.contains r then (s.newRak.1, some s.newRak.2) else (s, pairedWith raks r)
    match q.2 with
    | none => q.1.makeKeys p raks rs
    | some k =>
      let g := q.1.generate r k
      let rest := g.1.makeKeys p raks rs
      (rest.1, (match g.2 with
        | some slot => (r, slot) :: rest.2.1
        | none => rest.2.1), if p.remade.contains r then (r, k) :: rest.2.2 else rest.2.2)

/-- R18 steps 2 and 4, R22 steps 1 to 3: the key slots by range and the envelopes made for a plan. -/
def State.prepare (s : State) (p : Plan) (named : List Nat) (raks : List (Nat × Rak)) : State × Prepared :=
  let q := s.makeKeys p raks p.needKeys
  let made := named.flatMap (fun r =>
    match p.entry r with
    | .enabled f =>
      let old := if p.remade.contains r then none else s.fields r
      (match pairedWith (q.2.2 ++ raks) r with
       | some k => (newHolders old f).filterMap (fun h => (q.1.makeEnvelope k h).map (fun e => (r, e)))
       | none => [])
    | _ => [])
  (q.1, { slots := q.2.1, envelopes := made })

/-- The installed entry of a range: its assigned key slot, and its envelope list in line with its options
and lists (R18 steps 2 and 4, R37). -/
def installed (p : Plan) (m : Prepared) (r : Nat) : Entry :=
  match p.entry r with
  | .enabled f =>
    let made := (m.envelopes.filter (fun q => q.1 == r)).map (fun q => q.2)
    .enabled { f with
      keySlot := (pairedWith m.slots r).getD f.keySlot
      envelopes := ordered (made ++ f.envelopes.filter (fun e => f.holds e.holder)) }
  | e => e

/-- The slots that the ENABLED entries name. -/
def State.tableSlots (s : State) : List Nat := s.enabledRanges.flatMap s.namedSlots

/-- Slot k, of range r, is one that the named ranges named in the table before and name no more; R25 keeps the slots of a
DAMAGED range until its repair. -/
def State.released (before s : State) (named : List Nat) (r k : Nat) : Bool :=
  (named.contains r && before.entry r == .damaged) ||
    named.any (fun q => (before.namedSlots q).contains k && !(s.namedSlots q).contains k)

/-- R18 step 3: the LIVE pool slots that the result no longer names. A slot's own range alone counts as naming it: a
number that a range with key_lost still holds (R1) keeps no key of another range (log 37). -/
def State.unnamedSlots (s before : State) (named : List Nat) : List Nat :=
  (List.range 23).filter (fun k =>
    (s.slot k).state == .live && (match (s.slot k).owner with
      | some r => before.released s named r k && s.entry r != .damaged && !(s.namedSlots r).contains k
      | none => false))

/-! ### Rekey jobs of the ranges (R18 step 6) -/

/-- A repaired range's active job is discarded, with REKEY_DONE KEY_LOST (R13, R110). -/
def State.discardHead (s : State) (j : Job) : State :=
  let t := s.releaseHold.abandonSweep
  let t := { t with rke := { t.rke with queue := t.rke.queue.drop 1 } }
  ((t.writeQueuePart []).writeProgressPart []).notice (.rekeyDone j.range (j.serial.getD 0) .keyLost)

/-- R18 step 6, R13: the queued jobs that a commit removes: of ranges that became DISABLED, received a new RAK or were
repaired. -/
def State.removesJob (s : State) (p : Plan) (j : Job) : Bool :=
  j.state == .queued && ((p.entry j.range == .disabled && s.entry j.range != .disabled) ||
    p.remade.contains j.range || p.repaired.contains j.range)

/-- R110: the head of the queue is QUEUED, and its range, repaired, is still ENABLED under its RAK; a range that
became DISABLED or received a new RAK gives no REKEY_DONE (R18 step 6). -/
def State.queuedRepair (s : State) (p : Plan) : Option Job :=
  s.headJob.filter (fun j => j.state == .queued && p.repaired.contains j.range &&
    (p.entry j.range).isEnabled && !p.remade.contains j.range)

/-- R18 step 6, the jobs that leave the queue. -/
def State.dropJobs (s : State) (p : Plan) : State :=
  let t := match s.activeJob with
    | some j => if p.repaired.contains j.range then s.discardHead j else s
    | none => s
  if t.rke.queue.any (s.removesJob p) then
    { t with rke := { t.rke with queue := t.rke.queue.filter (fun j => !s.removesJob p j) } }.writeQueuePart []
  else t

/-- R18 step 6; a QUEUED job has no serial, and an absent field is zero (chapter 11, log 20). -/
def State.commitJobs (s : State) (p : Plan) : State :=
  match s.queuedRepair p with
  | some j => (s.dropJobs p).notice (.rekeyDone j.range (j.serial.getD 0) .keyLost)
  | none => s.dropJobs p

/-! ### Installation (R18) -/

/-- Retire slots in order. -/
def State.retireAll (s : State) (ks : List Nat) : State := ks.foldl State.retire s

/-- R18 step 5: the lock flags of one named range, from its fields before. -/
def State.commitLocks (before : State) (p : Plan) (m : Prepared) (s : State) (r : Nat) : State :=
  match s.fields r with
  | none => s
  | some f =>
    if p.remade.contains r then
      if f.powerLock then s
      else (s.unlockRange true true ((envelopeOf ((m.envelopes.filter (fun q => q.1 == r)).map (fun q => q.2)) .device).map
        (fun e => e.rak)) r).1
    else match before.fields r with
      | some o => if o.powerLock && !f.powerLock then s.unlockDevice r else s
      | none => s

/-- R18: the result of a list is installed, from prepared keys and envelopes; the changed entries and the
slots that went RETIRING. -/
def State.install (s : State) (p : Plan) (m : Prepared) (named : List Nat) : State × List Nat × List Nat :=
  let changed := named.filter (fun r => (installed p m r).stored != (s.entry r).stored)
  let t := s.commitJobs p
  let t := named.foldl (fun u r => if p.remade.contains r || !(p.entry r).isEnabled then u.dropRange r else u) t
  let t := named.foldl (fun u r => u.setEntry r (installed p m r)) t
  let t := { t with rtb := { t.rtb with resealOnWake := p.reseal } }
  let gone := t.unnamedSlots s named
  (t.retireAll gone, changed, gone)

/-! ### The states of a commit -/

/-- R19: the units of wave 1. -/
def waveOne (m : Prepared) : List StoreUnit := m.slots.map (fun q => .key q.2) ++ [.stage]

/-- R19: the units of wave 2, but for the DEVICE unit. -/
def waveTwo (changed retired : List Nat) : List StoreUnit :=
  changed.map StoreUnit.range ++ retired.map StoreUnit.key

/-- R18, R19: the commit enters WRITING and places wave 1. Its result is made anew from the table as it stands: where
key_lost was set during the drain, the edit is a repair with a new key, beyond the reservation, for which the damaged
key's own slot is EMPTY (the model's choice, log 37). -/
def State.enterWriting (s : State) : State :=
  match s.rtb.commit with
  | .draining a _ raks rto =>
    let es := s.rtb.staged.edits
    let p := s.plan es
    let named := namedRanges es
    let t := named.foldl (fun u r => if p.remade.contains r || !(p.entry r).isEnabled then u.dropRange r else u) s
    let t := { t with kst := { t.kst with reservation := 0 } }
    let q := t.prepare p named raks
    let i := q.1.install p q.2 named
    let t := named.foldl (fun u r => State.commitLocks s p q.2 u r) i.1
    let t := { t with rtb := { t.rtb with
        staged := { edits := es, mark := .applying, prepared := q.2 }
        commit := .writing a 1 (waveOne q.2).length i.2.1 i.2.2 (p.reseal != s.rtb.resealOnWake) rto } }
    t.writeAll (waveOne q.2) .commitWave
  | _ => s

/-- R17: the drain ends when no OPEN context lies in an affected range. -/
def State.settleDrain (s : State) : State :=
  match s.rtb.commit with
  | .draining a _ _ _ => if s.openContexts.any (fun q => q.2.inRanges a) then s else s.enterWriting
  | _ => s

/-- R20: a commit in DRAINING is abandoned. -/
def State.abandonCommit (s : State) : State :=
  match s.rtb.commit with
  | .draining _ _ _ rto =>
    { s with rtb := { s.rtb with commit := .idle }, kst := { s.kst with reservation := 0 } }.refuse rto .preempted
  | _ => s

/-- R19: wave 3, the STAGE record, empty, mark NONE. -/
def State.placeWaveThree (s : State) : State :=
  match s.rtb.commit with
  | .writing a _ _ c d e rto =>
    { s with rtb := { s.rtb with commit := .writing a 3 1 c d e rto } }.place .stage (.stage .blank) [.commitWave]
  | _ => s

/-- R19: wave 2. -/
def State.placeWaveTwo (s : State) : State :=
  match s.rtb.commit with
  | .writing a _ _ c d e rto =>
    let n := (waveTwo c d).length + (if e then 1 else 0)
    if n = 0 then s.placeWaveThree
    else
      let t := { s with rtb := { s.rtb with commit := .writing a 2 n c d e rto } }.writeAll (waveTwo c d) .commitWave
      if e then t.writeDevice (fun x => { x with resealOnWake := s.rtb.resealOnWake }) [.commitWave] else t
  | _ => s

/-- R19: a write of the current wave completes. -/
def State.commitWaveDone (s : State) : State :=
  match s.rtb.commit with
  | .writing a w left c d e rto =>
    if 1 < left then { s with rtb := { s.rtb with commit := .writing a w (left - 1) c d e rto } }
    else if w = 1 then s.placeWaveTwo
    else if w = 2 then s.placeWaveThree
    else { s with rtb := { s.rtb with staged := .blank, commit := .idle } }.refuse rto .done
  | _ => s

/-- R22: a write of a deferred commit completes; after the last, ACCEPTED is sent. -/
def State.deferredDone (s : State) (rto : ReplyTo) : State :=
  match s.rtb.preparing.find? (fun q => q.rto == rto) with
  | some q =>
    if 1 < q.left then
      { s with rtb := { s.rtb with
          preparing := s.rtb.preparing.map (fun x => if x.rto = rto then { x with left := x.left - 1 } else x) } }
    else { s with rtb := { s.rtb with preparing := s.rtb.preparing.filter (fun x => x.rto != rto) } }.refuse rto .accepted
  | none => s

end Sys2Proof.Machine
end

