-- ==== Sys2Proof/Machine/Chains.lean ====
section
/-! DEFINITION. The wipe chains (chapter 8): placement of given steps (R138), the conditions of a step
(R139, R140), what each kind of step does (R141 to R145), its completion and the end of a chain (R146). -/

namespace Sys2Proof.Machine

/-! ### Chains -/

/-- Change the chain of a kind, where it is present. -/
def State.mapChain (s : State) (k : ChainKind) (g : Chain → Chain) : State := s.setChain k ((s.chain k).map g)

/-- A chain as created: its step not begun and its record not yet written (R137, R140). -/
def Chain.make (o : Origin) (steps : List WipeStep) (no : Nat) : Chain :=
  { origin := o, steps := steps, begun := false, closing := false, failedChunks := 0, no := no, durable := false,
    recording := false, left := 0, waitsCreds := false, above := [], ending := none }

/-- Create a chain and place its record (R147, R149, R138); the requesters learn of its durability. -/
def State.createChain (s : State) (k : ChainKind) (o : Origin) (steps : List WipeStep) (ws : List Waiter) : State :=
  let no := s.wpe.nextNo
  let t := s.setChain k (some (.make o steps no))
  { t with wpe := { t.wpe with nextNo := no + 1 } }.write .wipe (.chainDurable k no :: ws)

/-- The step is a FILL. -/
def WipeStep.isFill : WipeStep → Bool
  | .fill _ _ => true
  | _ => false

/-- The steps of a chain that have not begun. -/
def Chain.notBegun (c : Chain) : List WipeStep := if c.begun then c.steps.drop 1 else c.steps

/-- R138: a CUT_KEYS, or a FILL, given to the injected chain, with the origin of a chain it creates. A step
given while the chain's end is being recorded becomes its current step (log 25). -/
def State.giveStep (s : State) (fill : Bool) (o : Origin) (ws : List Waiter) : State :=
  let step : WipeStep := if fill then .fill none 0 else .cutKeys
  match s.wpe.injected with
  | none => s.createChain .injected o (if fill then [.cutKeys, step] else [step]) ws
  | some c =>
    if c.notBegun.any (fun x => if fill then x.isFill else x == .cutKeys) then s.write .wipe ws
    else
      let c := { c with steps := c.steps ++ [step], origin := if fill then .responsePurge else c.origin }
      if c.ending.isSome then
        (s.setChain .injected (some { c with ending := none, durable := false })).write .wipe (.chainDurable .injected c.no :: ws)
      else (s.setChain .injected (some c)).write .wipe ws

/-- The current step of a chain is begun and is no FILL: it holds back the other chain (R139). -/
def Chain.holdsBack (c : Chain) : Bool :=
  c.recording || (c.begun && (match c.steps with
    | x :: _ => !x.isFill
    | [] => false))

/-- R139: the chain may take a step: begin one, or issue a request of a FILL. -/
def State.mayTake (s : State) (k : ChainKind) : Bool :=
  match k with
  | .injected => !(match s.wpe.normal with
      | some c => c.holdsBack
      | none => false)
  | .normal => s.wpe.injected.isNone

/-- R140: the further condition of a kind of step. -/
def State.stepReady (s : State) : WipeStep → Bool
  | .cutKeys => s.rtb.commit.phase != .writing && s.btc.provisioning.isNone
  | .fill _ _ => s.sst.power == .active
  | _ => true

/-- R140: the current step of a chain begins. -/
def State.canBegin (s : State) (k : ChainKind) (c : Chain) (step : WipeStep) : Bool :=
  !c.begun && c.durable && s.mayTake k && s.lif.started && s.sst.power.supplied && !s.sst.downMark && s.stepReady step

/-! ### Completion of a step and end of a chain -/

/-- R140, R146: the current step leaves the front of its chain, and the record is written; with no step left
the chain ends when that write completes. -/
def State.stepCompleted (s : State) (k : ChainKind) (c : Chain) : State :=
  let rest := c.steps.drop 1
  let fill := match c.steps with
    | x :: _ => x.isFill
    | [] => false
  let d : Chain := { c with steps := rest, begun := false, durable := false, recording := !fill, left := 0,
                            waitsCreds := false, above := [] }
  if rest.isEmpty then
    (s.setChain k (some { d with ending := some (if c.closing then Status.aborted else Status.done) })).write .wipe [.chainEnd k c.no]
  else (s.setChain k (some d)).write .wipe [.chainDurable k c.no]

/-- R146: the write with the chain absent completes. -/
def State.chainEnded (s : State) (k : ChainKind) (no : Nat) : State :=
  match s.chain k with
  | some c =>
    match c.ending with
    | some st => if c.no = no then (s.setChain k none).notice (.wipeDone k c.origin st c.failedChunks) else s
    | none => s
  | none => s

/-- R71, R141, R145: what takes effect when a step's work has completed. With the hello status the completion of a
RESET_TABLE ends a hello window that runs (the model's choice, log 38). -/
def State.finishStep (s : State) (k : ChainKind) : State :=
  match s.chain k with
  | some c =>
    match c.steps with
    | .cutKeys :: _ => { s with btc := { s.btc with state := .erased } }.stepCompleted k c
    | .resetTable :: _ =>
      { s with btc := { s.btc with state := .blank, unsealed := false, hello := .none, window := none } }.stepCompleted k c
    | _ :: _ => s.stepCompleted k c
    | [] => s
  | none => s

/-- A write of the begun step completes (R141, R142, R145). -/
def State.stepWorkDone (s : State) (k : ChainKind) (no : Nat) : State :=
  match s.chain k with
  | some c =>
    if c.no = no ∧ c.begun = true then
      if 1 < c.left then s.setChain k (some { c with left := c.left - 1 })
      else (s.setChain k (some { c with left := 0 })).finishStep k
    else s
  | none => s

/-! ### CUT_KEYS (R141) -/

/-- R62: set the boot field in the next DEVICE write. -/
def DeviceRecord.withBoot (b : BootField) (d : DeviceRecord) : DeviceRecord := { d with boot := b }

/-- R28, R92: the aborts of the step that empties the pool slots at once: every OPEN CLEAR context ends. -/
def State.abortCut (s : State) : State := s.abortAll .keysCut (fun x => x.mode == .clear)

/-- R141: what the beginning of the step changes, in one step. The serial counter keeps its value, in memory and in the
cleared queue part: R110 clears both parts and does not say whether the counter returns to 0 (the model's choice, log 26). -/
def State.cut (s : State) : State :=
  let t := s.abandonCommit.abortCut
  let t := t.abandonSweep
  let t := { t with rke := { t.rke with queue := [] } }.cutSlots
  { t with rtb := { t.rtb with entries := t.rtb.entries.map Entry.cut, staged := .blank } }

/-- R141: the units that the step writes, but for the REKEY and DEVICE units. -/
def State.cutUnits (s : State) : List StoreUnit :=
  (List.range 23).map StoreUnit.key ++ s.enabledRanges.map StoreUnit.range ++ [.stage]

/-- R141: a CUT_KEYS step begins. -/
def State.beginCut (s : State) (k : ChainKind) (c : Chain) : State :=
  let none? := s.nothingToCut
  let w : Waiter := .stepWork k c.no
  let t := s.cut
  if none? then
    if s.sst.lastDevice.boot = .erased then (t.setChain k (some { c with begun := true })).finishStep k
    else (t.setChain k (some { c with begun := true, left := 1 })).writeDevice (.withBoot .erased) [w]
  else
    let us := t.cutUnits
    let t := (t.setChain k (some { c with begun := true, left := us.length + 3 })).writeAll us w
    ((t.writeQueuePart [w]).writeProgressPart [w]).writeDevice (.withBoot .erased) [w]

/-! ### CUT_CREDENTIALS (R142, R60) -/

/-- R60 items 2 to 4. -/
def State.cutCredentials (s : State) (k : ChainKind) : State :=
  match s.chain k with
  | some c =>
    let t := { s with cru := { s.cru with
        slots := s.cru.slots.map (fun _ => { record := .blank, backoff := none })
        challenges := s.cru.challenges.map (fun _ => none) } }
    (t.setChain k (some { c with left := 10, waitsCreds := false })).writeAll ((List.range 10).map StoreUnit.cred) (.stepWork k c.no)
  | none => s

/-- R60 item 1: a waiting step goes on when no SET_CREDENTIAL is in progress. A DISABLE whose CRED write has not completed
does not hold it back: R60 and R142 let a change in progress complete its waves, and a DISABLE has none, though R55 counts
it as in progress for another SET_CREDENTIAL of its slot (the model's choice, log 19). -/
def State.resumeCutCredentials (s : State) (k : ChainKind) : State :=
  match s.chain k with
  | some c => if c.waitsCreds && s.cru.ops.isEmpty then s.cutCredentials k else s
  | none => s

/-- R142: a CUT_CREDENTIALS step begins. -/
def State.beginCutCredentials (s : State) (k : ChainKind) (c : Chain) : State :=
  (s.setChain k (some { c with begun := true, waitsCreds := true })).resumeCutCredentials k

/-! ### FILL (R143, R144) -/

/-- R144: the step completes when progress has reached the end and its record writes have completed, that of its beginning
among them (the model's choice, log 18). -/
def State.settleFill (s : State) (k : ChainKind) : State :=
  match s.chain k with
  | some c =>
    match c.steps with
    | .fill (some n) p :: _ => if c.begun && n ≤ p && c.left == 0 then s.stepCompleted k c else s
    | _ => s
  | none => s

/-- R143: a FILL step begins; a count already recorded is kept. The write that holds the count is the first the completion
waits for: R144 names the writes of its own rule alone, and R140 and R143 do not say when a restarted FILL whose recorded
progress is already at its count completes. It completes with this write (the model's choice, log 18). -/
def State.beginFill (s : State) (k : ChainKind) (c : Chain) (count : Option Nat) (p : Nat) : State :=
  let d := { c with begun := true, left := 1, above := [],
                    steps := .fill (some (count.getD s.lif.capacity)) p :: c.steps.drop 1 }
  (s.setChain k (some d)).write .wipe [.fillProgress k c.no]

/-- A write of FILL progress completes (R144). -/
def State.fillProgressDone (s : State) (k : ChainKind) (no : Nat) : State :=
  match s.chain k with
  | some c => if c.no = no then (s.setChain k (some { c with left := c.left - 1 })).settleFill k else s
  | none => s

/-- R144: progress passes every chunk at its position that is confirmed or skipped; the chunks left above
it, the progress, and how many skipped ones were passed. -/
def advanceFill (n : Nat) : Nat → Nat → List (Nat × Bool) → Nat × List (Nat × Bool) × Nat
  | 0, p, l => (p, l, 0)
  | fuel + 1, p, l =>
    if n ≤ p then (p, l, 0)
    else match l.find? (fun q => q.1 == p / Config.fillChunk) with
      | none => (p, l, 0)
      | some q =>
        let r := advanceFill n fuel (min n ((q.1 + 1) * Config.fillChunk)) (l.filter (fun x => x.1 != q.1))
        (r.1, r.2.1, r.2.2 + if q.2 then 1 else 0)

/-- R144: an outstanding chunk of a FILL ends, confirmed or skipped. -/
def State.chunkEnded (s : State) (k : ChainKind) (no chunk : Nat) (skipped : Bool) : State :=
  match s.chain k with
  | some c =>
    match c.steps with
    | .fill (some n) p :: rest =>
      if c.no = no ∧ c.begun = true then
        let l := c.above ++ [(chunk, skipped)]
        let q := advanceFill n (l.length + 1) p l
        let d := { c with steps := .fill (some n) q.1 :: rest, above := q.2.1,
                          failedChunks := min 65535 (c.failedChunks + q.2.2) }
        if q.1 = p then s.setChain k (some d)
        else (s.setChain k (some { d with left := d.left + 1 })).write .wipe [.fillProgress k no]
      else s
    | _ => s
  | none => s

/-- A chunk of this chain is outstanding. -/
def State.chunkOut (s : State) (k : ChainKind) (no chunk : Nat) : Bool :=
  s.lif.outstanding.any (fun q => q.client == .wipe k no chunk)

/-- R143, R175: the next chunk that a chain's FILL has ready to issue and may issue: the lowest at or above its
progress that neither ended nor is outstanding. -/
def State.fillRequest (s : State) (k : ChainKind) : Option (Chain × Nat × Nat) :=
  match s.chain k with
  | some c =>
    match c.steps with
    | .fill (some n) p :: _ =>
      if c.begun && s.lif.started && s.sst.power == .active && s.mayTake k then
        (((List.range (c.above.length + s.lif.outstanding.length + 1)).map (fun i => p / Config.fillChunk + i)).find?
          (fun i => decide (p ≤ i * Config.fillChunk) && decide (i * Config.fillChunk < n) && !c.above.any (fun q => q.1 == i) && !s.chunkOut k c.no i)).map
          (fun i => (c, i, min Config.fillChunk (n - i * Config.fillChunk)))
      else none
    | _ => none
  | none => none

/-- R143: issue one chunk of a FILL, with the zero pattern (10.6). -/
def State.issueFill (s : State) (k : ChainKind) (q : Chain × Nat × Nat) : State :=
  s.issue .fill (.wipe k q.1.no q.2.1) (.mediaFill (q.2.1 * Config.fillChunk) q.2.2 0#8)

/-! ### RESET_TABLE (R145) -/

/-- The DEVICE record that the step writes (R71). -/
def DeviceRecord.reset (d : DeviceRecord) : DeviceRecord := .blank d.labelVerifier d.imageSize

/-- R145: the BLANK configuration is built. The pool slots are emptied as for a cut, so a CLEAR context that was opened
before a restarted step ends in it, with the cause of a cut (R28, R92; the model's reading of the cause, log 26); the
slot of range 0's new key is the lowest EMPTY pool slot. -/
def State.blankTable (s : State) : State :=
  let t := s.abortCut.cutSlots
  let q := t.newRak
  let g := q.1.generate 0 q.2
  let k := g.2.getD 0
  let t := g.1
  let t := { t with
    rtb := { t.rtb with
      entries := .enabled { RangeFields.blank k q.2 with readLocked := false, writeLocked := false } :: List.replicate 15 .disabled
      resealOnWake := false, staged := .blank }
    rsu := { t.rsu with
      level := .calm, firstCause := none, lastCause := none, timer := none, wipeLevel := .calm,
      settings := Setting.defaults, purgeAllowed := false, alarmMinimum := Config.defaultAlarm,
      absenceThreshold := Config.defaultAbsence, absence := 0 }
    btc := { t.btc with token := none } }
  (t.loadRange 0 (t.openDevice 0)).1

/-- R145: a RESET_TABLE step begins. -/
def State.beginReset (s : State) (k : ChainKind) (c : Chain) : State :=
  let t := s.blankTable
  let ks := (List.range 23).filter (fun i => (s.slot i).state != .empty || (t.slot i).state != .empty)
  let us := (List.range 16).map StoreUnit.range ++ ks.map StoreUnit.key ++ [.response] ++ (List.range 8).map StoreUnit.evset
  let w : Waiter := .stepWork k c.no
  ((t.setChain k (some { c with begun := true, left := us.length + 1 })).writeAll us w).writeDevice DeviceRecord.reset [w]

/-! ### Beginning a step -/

/-- R140: the current step of a chain begins, when its conditions hold. -/
def State.beginStep (s : State) (k : ChainKind) : State :=
  match s.chain k with
  | some c =>
    match c.steps with
    | step :: _ =>
      if s.canBegin k c step then
        match step with
        | .cutKeys => s.beginCut k c
        | .cutCredentials => s.beginCutCredentials k c
        | .fill n p => s.beginFill k c n p
        | .resetTable => s.beginReset k c
      else s
    | [] => s
  | none => s

/-- R140: the record that holds the chain with its step current is written. -/
def State.chainDurable (s : State) (k : ChainKind) (no : Nat) : State :=
  match s.chain k with
  | some c => if c.no = no then s.setChain k (some { c with durable := true, recording := false }) else s
  | none => s

end Sys2Proof.Machine
end

