-- ==== Sys2Proof/Machine/Respond.lean ====
section
/-! DEFINITION. Arrivals of evidence and escalations (R121 to R126): what every source of evidence shares. -/

namespace Sys2Proof.Machine

/-! ### Escalation -/

/-- R125, the effects of passing LOCK, in the one step of the escalation (R20, R4, R91, R107, R35, R70). -/
def State.lockEffects (s : State) : State :=
  let t := s.abandonCommit.lockAll
  let t := (t.abortAll .lockdown (fun x => x.mode == .clear)).pauseSweep true
  let t := t.forcedUnload
  { t with btc := { t.btc with
      state := match t.btc.state with
        | .sealed | .opened => .quarantine
        | b => b } }

/-- An escalation from old to new passes a level. -/
def passes (old new l : Level) : Bool := old.below l && !new.below l

/-- R124: the part escalates to level n with cause c; `n` is above the level. -/
def State.escalate (s : State) (n : Level) (c : Nat) : State :=
  let old := s.rsu.level
  let t := { s with rsu := { s.rsu with
      level := n, firstCause := if old = Level.calm then some c else s.rsu.firstCause } }
  let t := if passes old n .lock then t.lockEffects else t
  let t := if passes old n .erase then t.giveStep false .responseErase [.wipeGiven .erase] else t
  let t := if passes old n .purge then t.giveStep true .responsePurge [.wipeGiven .purge] else t
  (t.write .response []).notice (.responseNotice old n c)

/-! ### Arrivals -/

/-- R121: PURGE is demoted to ERASE while purge_allowed is off. -/
def State.demote (s : State) (l : Level) : Level :=
  if l = .purge ∧ s.rsu.purgeAllowed = false then .erase else l

/-- R121: the source is enabled and its guard is met. -/
def State.accepts (s : State) (i : Nat) : Bool := (s.setting i).enabled && s.guardMet (s.setting i).guard

/-- R122 case 2: the timer goes on only when its pending level is above L. -/
def State.cancelTimerTo (s : State) (l : Level) : State :=
  match s.rsu.timer with
  | some t => if l.below t.pending.level then s else { s with rsu := { s.rsu with timer := none } }
  | none => s

/-- R122 cases 3 and 4: the timer starts, or its pending level rises. -/
def State.pend (s : State) (l : Level) (i delay : Nat) : State :=
  let p : Pending := { level := l, source := i, delay := delay }
  match s.rsu.timer with
  | none => { s with rsu := { s.rsu with timer := some { pending := p, remaining := delay } } }
  | some t =>
    if t.pending.level.below l then { s with rsu := { s.rsu with timer := some { t with pending := p } } } else s

/-- R122: an accepted arrival of source i with a requested level. -/
def State.weigh (s : State) (i : Nat) (l : Level) : State :=
  let x := s.setting i
  if !s.rsu.level.below l then s
  else if x.delay = 0 ∨ x.immediate = true ∨ s.btc.state = .blank then (s.escalate l i).cancelTimerTo l
  else s.pend l i x.delay

/-- R121: an arrival of source i; `order` is the level of a REMOTE_ORDER. The requester of the RESPONSE write,
if any, learns of its completion (R129). -/
def State.arrive (s : State) (i : Nat) (order : Option Level) (ws : List Waiter) : State :=
  if s.accepts i then
    let t := { s with rsu := { s.rsu with lastCause := some i, alarm := some s.rsu.alarmMinimum } }
    (t.weigh i (t.demote (order.getD (t.setting i).level))).write .response ws
  else s

/-- One arrival of a source that carries no level of its own. -/
def State.raise (s : State) (i : Nat) : State := s.arrive i none []

/-- R123: the delay timer expires. -/
def State.timerExpired (s : State) : State :=
  match s.rsu.timer with
  | none => s
  | some t =>
    let u := { s with rsu := { s.rsu with timer := none } }
    if u.rsu.level.below t.pending.level then u.escalate t.pending.level t.pending.source else u.write .response []

/-- R126: the Wipe Engine reports a level as durable. -/
def State.wipeGiven (s : State) (l : Level) : State :=
  if s.rsu.wipeLevel.below l then { s with rsu := { s.rsu with wipeLevel := l } }.write .response [] else s.write .response []

end Sys2Proof.Machine
end

