-- ==== Sys2Proof/Machine/Proofs.lean ====
section
/-! DEFINITION. How a request is taken: the checks of the Link Interface (R163, R165, R169, R177) and the
check of a proof block by the Credential Unit (R48 to R54). -/

namespace Sys2Proof.Machine

/-! ### The checks of the Link Interface -/

/-- The messages that are taken before the first LINK_START (R169). -/
def Message.early : Message → Bool
  | .linkStart | .identify | .status => true
  | _ => false

/-- R166, R163: a frame that passed its checks is taken, unless READY_OUT is deasserted or its burst was
dropped. -/
def State.frameTaken (s : State) : State := { s with lif := { s.lif with burstTaken := s.lif.burstTaken + 1 } }

/-- The Link Interface takes nothing now. -/
def State.deaf (s : State) : Bool := !s.takesFrames || s.lif.burstDropped

/-- R177 items 1, 2, 4 and 5: the status that refuses a request of a known message, if any. -/
def State.refusal (s : State) (m : Message) (f : Hdr) (fits : Bool) : Option Status :=
  if f.tag = 0 then some .badField
  else if m.channel = .control ∧ m ≠ .linkStart ∧ f.tag ∈ s.lif.tagsInUse then some .tagInUse
  else if s.lif.started = false ∧ Message.early m = false then some .notStarted
  else if fits = false then some .badLength
  else none

/-- R165: the tag of a CONTROL request joins the set of tags in use. LINK_START is answered in its own step,
and its tag never joins (R171). -/
def State.joinTag (s : State) (m : Message) (tag : Nat) : State :=
  if m.channel = .control ∧ m ≠ .linkStart then { s with lif := { s.lif with tagsInUse := s.lif.tagsInUse ++ [tag] } } else s

/-- R177: a request is discarded, refused, or passed to its message rules. -/
def State.take (s : State) (m : Message) (f : Hdr) (fits : Bool) (act : State → ReplyTo → State) : State :=
  if s.deaf then s
  else
    match s.refusal m f fits with
    | some st => s.frameTaken.send m.channel f.tag (.status st [])
    | none => act (s.frameTaken.joinTag m f.tag) (s.replyTo m.channel f.tag)

/-- A request whose frame has the form and length of its message. -/
def State.request (s : State) (m : Message) (f : Hdr) (act : State → ReplyTo → State) : State :=
  s.take m f (m.fits f) act

/-! ### The Credential Unit -/

/-- The change of slot i whose wave B is outstanding (R56 item 3). -/
def State.waveB (s : State) (i : Nat) : Option CredOp :=
  s.cru.ops.find? (fun o => o.target == i && o.wave == .b)

/-- The verifier in force for slot i: the old one until wave B completes (R56 item 3). A slot that was EMPTY, or whose
record was damaged, has no old one: until then no proof under it matches, and each is counted (the model's choice,
log 38). -/
def State.verifier (s : State) (i : Nat) : Option Verifier :=
  match s.waveB i with
  | some o => o.oldVerifier
  | none => (s.cred i).record.verifier

/-- The wrapping value that a grant for slot i opens (R32, R39). -/
def State.grantValue (s : State) (i : Nat) : Option WrapValue :=
  match s.waveB i with
  | some o => o.oldWrap
  | none => (s.cred i).record.wrap

/-- R50: the full backoff period for a count of failures. -/
def backoffPeriod (n : Nat) : Nat := if 12 ≤ n then 512 else 2 ^ (n - 3)

/-- R49: the failure of a proof under slot i, counted in the slot. -/
def CredSlot.fail (x : CredSlot) : CredSlot :=
  let n := min 255 (x.record.failures + 1)
  if x.record.limit ≤ n then { record := { x.record with failures := n, state := .blocked }, backoff := none }
  else if 3 ≤ n then { record := { x.record with failures := n }, backoff := some (backoffPeriod n) }
  else { x with record := { x.record with failures := n } }

/-- R49: count a failure; BAD_PROOF is sent when the write completes, with ATTEMPTS when it blocked (R51). -/
def State.failProof (s : State) (i : Nat) (rto : ReplyTo) : State :=
  let blocked := (s.cred i).fail.record.state == .blocked && (s.cred i).record.state != .blocked
  (s.mapCred i CredSlot.fail).write (.cred i) [.badProof rto blocked]

/-- R52: a matching proof resets a nonzero count. -/
def State.proofMatched (s : State) (i : Nat) : State :=
  if (s.cred i).record.failures = 0 then s
  else (s.mapCred i (fun x => { x with record := { x.record with failures := 0 } })).write (.cred i) []

/-- The slot is a custodian's (4.5). -/
def custodian (i : Nat) : Bool := i < 2

/-- R53: range r lists slot i. -/
def State.listsHold (s : State) (r i : Nat) : Bool :=
  match s.fields r with
  | some f => listed f.readList i || listed f.writeList i
  | none => false

/-- R53, a row restricted to ranges whose lists hold the slot: 0xFF and a field that names no range pass. -/
def State.rangePermits (s : State) (r i : Nat) : Bool := if r < 16 then s.listsHold r i else true

/-- R53: slot i may make a request; `n` is its range field or target, where the row depends on it. -/
def State.permits (s : State) (m : Message) (i n : Nat) : Bool :=
  match m with
  | .unlock => s.rangePermits n i
  | .lock => custodian i || s.rangePermits n i
  | .setCredential => true
  | .resetAttempts => custodian i && n != i
  | .startImageUnseal | .rangeList | .evidenceList | .responseClear | .remoteOrder | .wipeAbort => custodian i
  | .bindPlatform | .rangeStage | .rangeDiscard | .rangeCommit | .rekeyQueue | .rekeyResume | .evidenceSet | .wipeStart =>
    i == 0
  | _ => false

/-- The challenge that a proof block names (R48 check 4). -/
def State.challengeOf (s : State) (p : ProofBlock) : Option Challenge := (s.cru.challenges[p.challenge]?).getD none

/-- R48 check 5: the named entry is freed. -/
def State.consume (s : State) (p : ProofBlock) : State :=
  { s with cru := { s.cru with challenges := s.cru.challenges.set p.challenge none } }

/-- R48 checks 1 to 3 for a credential slot: the refusal, with its detail. -/
def State.slotRefusal (s : State) (i : Nat) : Option (Status × List Nat) :=
  if 10 ≤ i then some (.badSlot, [])
  else match (s.cred i).record.state, (s.cred i).backoff with
    | .empty, _ | .disabled, _ => some (.badSlot, [])
    | .blocked, _ => some (.blockedSlot, [])
    | .enabled, some n => some (.backoff, [n])
    | .enabled, none => none

/-- R47: the proof was made with the verifier's secret over a nonce and the request. -/
def Verifier.matches (v : Option Verifier) (n : Nonce) (text : List Nat) (p : Proof) : Bool :=
  match v with
  | some v => p == .digest v.secret n text
  | none => false

/-- R48, R52, R53: a request under a credential slot; `act` receives the proving slot and its grant. -/
def State.proven (s : State) (m : Message) (fields : List Nat) (n : Nat) (p : ProofBlock) (rto : ReplyTo)
    (act : State → Nat → Option WrapValue → State) : State :=
  match s.slotRefusal p.slot with
  | some (st, d) => s.refuse rto st d
  | none =>
    match s.challengeOf p with
    | none => s.refuse rto .staleChallenge
    | some c =>
      let t := s.consume p
      if Verifier.matches (t.verifier p.slot) c.nonce (digestText m fields) p.proof then
        let u := t.proofMatched p.slot
        if u.permits m p.slot n then act u p.slot (u.grantValue p.slot) else u.refuse rto .notPermitted
      else t.failProof p.slot rto

/-- R54: a request that takes a label proof (PROVISION, REPROVISION); under any other slot no request of these
kinds is permitted (R53). -/
def State.labelled (s : State) (m : Message) (fields : List Nat) (p : ProofBlock) (rto : ReplyTo) (act : State → State) : State :=
  if p.slot = 255 then
    match s.challengeOf p with
    | none => s.refuse rto .staleChallenge
    | some c =>
      let t := s.consume p
      if Verifier.matches (some t.btc.labelVerifier) c.nonce (digestText m fields) p.proof then act t
      else t.refuse rto .badProof
  else s.proven m fields 0 p rto (fun t _ _ => t)

end Sys2Proof.Machine
end

