-- ==== Sys2Proof/Machine/Credentials.lean ====
section
/-! DEFINITION. The commands of the Credential Unit (chapter 3): CHALLENGE, SET_CREDENTIAL with the waves of
R39, RESET_ATTEMPTS, SLOT_LIST, and the expiries of a challenge and of a backoff. -/

namespace Sys2Proof.Machine

/-! ### Challenges (R45, R46) -/

/-- The seconds remaining of an entry; a free one has none. -/
def challengeLeft (c : Option Challenge) : Nat :=
  match c with
  | some x => x.remaining
  | none => 0

/-- R45: the lowest free entry, else the entry with the least seconds remaining, the lowest of equals. -/
def State.challengeEntry (s : State) : Nat :=
  match (List.range 4).find? (fun i => ((s.cru.challenges[i]?).getD none).isNone) with
  | some i => i
  | none =>
    let left := fun i => challengeLeft ((s.cru.challenges[i]?).getD none)
    ((List.range 4).find? (fun i => (List.range 4).all (fun j => left i ≤ left j))).getD 0

/-- R45: a fresh challenge is placed in the table and answered. -/
def State.challenge (s : State) (rto : ReplyTo) : State :=
  let i := s.challengeEntry
  let n : Nonce := { issue := s.fresh }
  let t := { s with cru := { s.cru with
      challenges := s.cru.challenges.set i (some { nonce := n, remaining := Config.challengeLife }) } }
  t.bump.answer rto (.challenge i n)

/-- CHALLENGE (R45). -/
def execChallenge (f : Hdr) (s : State) : Host.Outcome State Fault Refusal :=
  done (s.request .challenge f (fun t rto => t.challenge rto))

/-- CHALLENGE_EXPIRY (R46): the entry becomes free. -/
def execChallengeExpiry (entry : Nat) (s : State) : Host.Outcome State Fault Refusal :=
  .next { s with cru := { s.cru with challenges := s.cru.challenges.set entry none } }

/-- BACKOFF_EXPIRY (R50): the slot's backoff stops. -/
def execBackoffExpiry (slot : Nat) (s : State) : Host.Outcome State Fault Refusal :=
  .next (s.mapCred slot (fun x => { x with backoff := none }))

/-! ### The waves of a credential change (R38, R39, R56) -/

/-- The change in progress for slot i. -/
def State.credOp (s : State) (i : Nat) : Option CredOp := s.cru.ops.find? (fun o => o.target == i)

/-- Change the change in progress for slot i. -/
def State.mapOp (s : State) (i : Nat) (g : CredOp → CredOp) : State :=
  { s with cru := { s.cru with ops := s.cru.ops.map (fun o => if o.target = i then g o else o) } }

/-- R38: the ENABLED ranges that should hold an envelope for slot i. -/
def State.rangesFor (s : State) (i : Nat) : List Nat :=
  s.rangesWhere (fun f => custodian i || listed f.readList i || listed f.writeList i)

/-- The envelope of slot i in a new form: beside the old form where an intact one exists (R39). -/
def twoForms (l : List Envelope) (i : Nat) (rak : Rak) (w : WrapValue) : Envelope :=
  let old := match envelopeOf l (.cred i) with
    | some e => if e.whole then e.wraps else []
    | none => []
  { holder := .cred i, wraps := old ++ [w], rak := rak, whole := true }

/-- Put an envelope into a list in place of its holder's (R31). -/
def putEnvelope (l : List Envelope) (e : Envelope) : List Envelope := ordered (e :: l)

/-- R38: the opener's envelope of each affected range is opened; the ranges opened, with their RAKs. -/
def State.openedRanges (s : State) (i p : Nat) (g : Option WrapValue) : List (Nat × Rak) :=
  (s.rangesFor i).filterMap (fun r => (s.openEnvelope r (.cred p) g).map (fun k => (r, k)))

/-- The DAMAGED entries, which a change skips (R38, log 19). -/
def State.damagedEntries (s : State) : Nat := ((List.range 16).filter (fun r => s.entry r == .damaged)).length

/-- R56 item 2: the slot's record with the new secret's values. -/
def CredSlot.renew (x : CredSlot) (v : Verifier) (w : WrapValue) (limit : Option Nat) : CredSlot :=
  let lim := limit.getD x.record.limit
  let atLimit : Bool := lim ≤ x.record.failures
  let st := match x.record.state with
    | .empty | .disabled | .enabled => if atLimit then CredState.blocked else .enabled
    | .blocked => .blocked
  { record := { x.record with state := st, verifier := some v, wrap := some w, limit := lim, damaged := false }
    backoff := if st = .blocked then none else x.backoff }

/-- R56 item 2: wave B. -/
def State.placeWaveB (s : State) (i : Nat) : State :=
  match s.credOp i with
  | some o =>
    let t := s.mapOp i (fun o => { o with
      wave := .b, left := 1, oldVerifier := (s.cred i).record.verifier, oldWrap := (s.cred i).record.wrap })
    (t.mapCred i (fun x => x.renew o.verifier o.wrap o.limit)).write (.cred i) [.credWave i]
  | none => s

/-- R56 item 5: the change ends with its reply; a waiting CUT_CREDENTIALS may go on (R60). -/
def State.finishOp (s : State) (i : Nat) : State :=
  match s.credOp i with
  | some o =>
    let t := { s with cru := { s.cru with ops := s.cru.ops.filter (fun x => x.target != i) } }
    ((t.refuse o.rto .ok [o.skipped]).resumeCutCredentials .injected).resumeCutCredentials .normal
  | none => s

/-- The envelope of slot i, where it has two forms, in the new form alone (R39 wave C). -/
def settleForms (l : List Envelope) (i : Nat) (w : WrapValue) : List Envelope :=
  l.map (fun e => if e.holder = .cred i then { e with wraps := if w ∈ e.wraps then [w] else e.wraps } else e)

/-- R39: wave C, over the ranges of wave A and any that received both forms since. -/
def State.placeWaveC (s : State) (i : Nat) : State :=
  match s.credOp i with
  | some o =>
    let rs := (List.range 16).filter (fun r => o.ranges.contains r || (match s.fields r with
      | some f => f.envelopes.any (fun e => e.holder == .cred i && 1 < e.wraps.length)
      | none => false))
    let t := rs.foldl (fun u r => u.mapFields r (fun f => { f with envelopes := settleForms f.envelopes i o.wrap })) s
    let t := t.mapOp i (fun o => { o with wave := .c, left := rs.length })
    if rs.isEmpty then t.finishOp i else t.writeAll (rs.map StoreUnit.range) (.credWave i)
  | none => s

/-- R39: a write of the current wave completes. -/
def State.credWaveDone (s : State) (i : Nat) : State :=
  match s.credOp i with
  | some o =>
    if 1 < o.left then s.mapOp i (fun o => { o with left := o.left - 1 })
    else match o.wave with
      | .a => s.placeWaveB i
      | .b => s.placeWaveC i
      | .c => s.finishOp i
  | none => s

/-- R56 item 1: the envelopes are prepared in two forms and wave A is placed. -/
def State.startOp (s : State) (i p : Nat) (g : Option WrapValue) (secret : Secret) (limit : Nat) (rto : ReplyTo) : State :=
  let opened := s.openedRanges i p g
  let w : WrapValue := .ofSecret secret
  let op : CredOp :=
    { target := i, verifier := { secret := secret }, wrap := w, oldVerifier := (s.cred i).record.verifier,
      oldWrap := (s.cred i).record.wrap, limit := if limit = 0 then none else some limit, wave := .a,
      left := opened.length, ranges := opened.map (fun q => q.1),
      skipped := (s.rangesFor i).length - opened.length + s.damagedEntries, rto := rto }
  let t := opened.foldl (fun u q =>
    u.mapFields q.1 (fun f => { f with envelopes := putEnvelope f.envelopes (twoForms f.envelopes i q.2 w) })) s
  let t := { t with cru := { t.cru with ops := t.cru.ops ++ [op] } }
  if opened.isEmpty then t.placeWaveB i else t.writeAll (opened.map (fun q => .range q.1)) (.credWave i)

/-! ### SET_CREDENTIAL (R55 to R57) -/

/-- R55 item 2: the pairs of proving slot and target, by action. -/
def mayChange (p t : Nat) (a : CredAction) (limit : Nat) : Bool :=
  match a with
  | .set => if p = t then custodian p || limit == 0 else custodian p
  | .disable => custodian p && !custodian t

/-- R57: a user target is disabled. -/
def State.disableCred (s : State) (i limit : Nat) (rto : ReplyTo) : State :=
  (s.mapCred i (fun x => { record := { x.record with
      state := .disabled, limit := if limit = 0 then x.record.limit else limit }, backoff := none })).write
    (.cred i) [.reply rto (.status .ok [0])]

/-- R55 item 4: a DISABLE of an EMPTY or DISABLED target. -/
def State.idleTarget (s : State) (i : Nat) : Bool :=
  (s.cred i).record.state == .empty || (s.cred i).record.state == .disabled

/-- The reply of a DISABLE, 0 ranges skipped (R57), which no other request that waits for a CRED write sends. -/
def Waiter.ofDisable : Waiter → Bool
  | .reply _ (.status .ok [0]) => true
  | _ => false

/-- R55 item 5: a DISABLE of slot i has not completed: its write has not. -/
def State.disabling (s : State) (i : Nat) : Bool :=
  (s.sst.queue ++ s.sst.waiting ++ s.sst.serving.toList).any (fun w =>
    w.unit == .cred i && w.waiters.any Waiter.ofDisable)

/-- R55: the admission of a SET_CREDENTIAL whose proof under slot p matches. The secret of a DISABLE, zero by 3.7, is not
looked at (the model's choice, log 38). -/
def State.setCredential (s : State) (p : Nat) (g : Option WrapValue) (target : Nat) (action : Option CredAction)
    (secret : Secret) (limit : Nat) (rto : ReplyTo) : State :=
  match action with
  | none => s.refuse rto .badField
  | some a =>
    if target > 9 ∨ limitFits limit = false then s.refuse rto .badField
    else if mayChange p target a limit = false then s.refuse rto .notPermitted
    else if s.btc.state = .erased then s.refuse rto .wrongState
    else if a = .disable ∧ s.idleTarget target = true then s.refuse rto .wrongState
    else if (s.credOp target).isSome ∨ s.disabling target = true then s.refuse rto .busy
    else match a with
      | .set => s.startOp target p g secret limit rto
      | .disable => s.disableCred target limit rto

/-- SET_CREDENTIAL. -/
def execSetCredential (f : Hdr) (target : Nat) (action : Option CredAction) (secret : Secret) (limit : Nat) (p : ProofBlock)
    (s : State) : Host.Outcome State Fault Refusal :=
  done (s.request .setCredential f (fun t rto =>
    t.proven .setCredential (f.covered [target, credActionCode action, secret.toNat, limit]) target p rto
      (fun u slot g => u.setCredential slot g target action secret limit rto)))

/-! ### RESET_ATTEMPTS (R58) and SLOT_LIST (R59) -/

/-- R58: the target's failures and backoff are reset, and a BLOCKED target is ENABLED. -/
def CredSlot.resetAttempts (x : CredSlot) : CredSlot :=
  { record := { x.record with failures := 0, state := if x.record.state = .blocked then .enabled else x.record.state }
    backoff := none }

/-- R58. -/
def State.resetAttempts (s : State) (target : Nat) (rto : ReplyTo) : State :=
  if target > 9 then s.refuse rto .badField
  else if (s.cred target).record.state = .empty then s.refuse rto .wrongState
  else (s.mapCred target CredSlot.resetAttempts).write (.cred target) [.reply rto (.status .ok [])]

/-- RESET_ATTEMPTS. -/
def execResetAttempts (f : Hdr) (target : Nat) (p : ProofBlock) (s : State) : Host.Outcome State Fault Refusal :=
  done (s.request .resetAttempts f (fun t rto =>
    t.proven .resetAttempts (f.covered [target]) target p rto (fun u _ _ => u.resetAttempts target rto)))

/-- R59: the entry of a slot. A target shows its new state from the placing of wave B, not from its completion (the
model's choice, log 38). -/
def State.slotEntry (s : State) (i : Nat) : Nat × CredState × Nat :=
  (i, if (s.cred i).record.damaged then .disabled else (s.cred i).record.state, (s.cred i).record.failures)

/-- R59, R173: the page from a start index. -/
def State.slotList (s : State) (start : Nat) (rto : ReplyTo) : State :=
  match pageOf (s.limit .control) Config.slotListHead.val Config.slotListEntry start ((List.range 10).map s.slotEntry) with
  | some l => s.answer rto (.slotList l.length 10 l)
  | none => s.refuse rto .tooLong

/-- SLOT_LIST. -/
def execSlotList (f : Hdr) (start : Nat) (s : State) : Host.Outcome State Fault Refusal :=
  done (s.request .slotList f (fun t rto => t.slotList start rto))

end Sys2Proof.Machine
end

