-- ==== Sys2Proof/Machine/BootControl.lean ====
section
/-! DEFINITION. The commands of Boot Control (chapter 4): PROVISION, UNLOCK, LOCK, BIND_PLATFORM,
START_IMAGE_UNSEAL, PLATFORM_HELLO and the expiry of the hello window. -/

namespace Sys2Proof.Machine

/-! ### PROVISION (R65, R66) -/

/-- R66 wave 1: the custodian envelopes of every ENABLED range whose device envelope opens. -/
def State.custodianEnvelopes (s : State) (a r : WrapValue) : List (Nat × Envelope) :=
  s.enabledRanges.flatMap (fun i => match s.openDevice i with
    | some k => [(i, { holder := .cred 0, wraps := [a], rak := k, whole := true }),
                 (i, { holder := .cred 1, wraps := [r], rak := k, whole := true })]
    | none => [])

/-- R66: the ranges that gain envelopes. -/
def gained (l : List (Nat × Envelope)) : List Nat := (List.range 16).filter (fun i => l.any (fun q => q.1 == i))

/-- R66: wave 1 is placed. -/
def State.startProvision (s : State) (admin recovery : Secret) (size : Nat) (token : Option Secret) (rto : ReplyTo) : State :=
  let es := s.custodianEnvelopes (.ofSecret admin) (.ofSecret recovery)
  let us := [.cred 0, .cred 1] ++ (gained es).map StoreUnit.range ++ (List.range 8).map StoreUnit.evset
  let p : Provisioning :=
    { adminVerifier := { secret := admin }, adminWrap := .ofSecret admin, recoveryVerifier := { secret := recovery },
      recoveryWrap := .ofSecret recovery, imageSize := size, token := token, secondWave := false, left := us.length,
      envelopes := es, rto := rto }
  { s with
    btc := { s.btc with provisioning := some p }
    rsu := { s.rsu with settings := Setting.defaults, purgeAllowed := false, alarmMinimum := Config.defaultAlarm,
                        absenceThreshold := Config.defaultAbsence } }.writeAll us .provision

/-- R66 wave 2: the DEVICE record. -/
def DeviceRecord.provisioned (size : Nat) (token : Option Secret) (d : DeviceRecord) : DeviceRecord :=
  { d with boot := .provisioned, imageSize := size, token := token, purgeAllowed := false,
           alarmMinimum := Config.defaultAlarm, absenceThreshold := Config.defaultAbsence }

/-- R66: what takes effect together when the wave 2 write completes. -/
def State.finishProvision (s : State) (p : Provisioning) : State :=
  let t := s.mapCred 0 (fun x => { x with record := custodianRecord p.adminVerifier p.adminWrap })
  let t := t.mapCred 1 (fun x => { x with record := custodianRecord p.recoveryVerifier p.recoveryWrap })
  let t := p.envelopes.foldl (fun u q => u.mapFields q.1 (fun f => { f with envelopes := putEnvelope f.envelopes q.2 })) t
  { t with btc := { t.btc with
      provisioning := none, imageSize := p.imageSize, token := p.token
      hello := if p.token.isSome then .notDue else t.btc.hello
      state := if s.lockdown then .quarantine else .opened } }.refuse p.rto .ok

/-- R66: a write of the current wave completes. -/
def State.provisionDone (s : State) : State :=
  match s.btc.provisioning with
  | some p =>
    if 1 < p.left then { s with btc := { s.btc with provisioning := some { p with left := p.left - 1 } } }
    else if p.secondWave then s.finishProvision p
    else { s with btc := { s.btc with provisioning := some { p with secondWave := true, left := 1 } } }.writeDevice
      (.provisioned p.imageSize p.token) [.provision]
  | none => s

/-- R65: the admission of a PROVISION whose label proof matches. With token_present no the token is not looked at (the
model's choice, log 38). -/
def State.provision (s : State) (admin recovery : Secret) (size : Nat) (present : Option Bool) (token : Secret)
    (rto : ReplyTo) : State :=
  match present with
  | none => s.refuse rto .badField
  | some b =>
    if size > Config.imageMax then s.refuse rto .badField
    else if s.btc.state ≠ .blank then s.refuse rto .wrongState
    else if s.btc.provisioning.isSome ∨ s.wpe.normal.isSome ∨ s.wpe.injected.isSome then s.refuse rto .busy
    else s.startProvision admin recovery size (if b then some token else none) rto

/-- PROVISION. -/
def execProvision (f : Hdr) (admin recovery : Secret) (size : Nat) (present : Option Bool) (token : Secret) (p : ProofBlock)
    (s : State) : Host.Outcome State Fault Refusal :=
  done (s.request .provision f (fun t rto =>
    t.labelled .provision (f.covered [admin.toNat, recovery.toNat, size, flagCode present, token.toNat]) p rto
      (fun u => u.provision admin recovery size present token rto)))

/-! ### UNLOCK (R67, R68) -/

/-- R68: the scope of a request whose range field names one range, or every range that lists slot i. -/
def State.listedScope (s : State) (range i : Nat) : List Nat :=
  if range = 255 then s.rangesWhere (fun f => listed f.readList i || listed f.writeList i) else [range]

/-- R68 items 1 to 4, for one range: whether it was opened. -/
def State.unlockFor (s : State) (i : Nat) (g : Option WrapValue) (r : Nat) : State × Bool :=
  match s.fields r with
  | some f => s.unlockRange (listed f.readList i) (listed f.writeList i) (s.openEnvelope r (.cred i) g) r
  | none => (s, false)

/-- R68: the ranges of the scope in order; how many were opened. -/
def State.unlockScope (s : State) (i : Nat) (g : Option WrapValue) : List Nat → State × Nat
  | [] => (s, 0)
  | r :: rs =>
    let q := s.unlockFor i g r
    let rest := q.1.unlockScope i g rs
    (rest.1, rest.2 + if q.2 then 1 else 0)

/-- R68: SEALED becomes OPEN when a range was opened; the overlay going off clears the unsealed flag (R73). -/
def State.openBoot (s : State) (opened : Nat) : State :=
  if 0 < opened ∧ s.btc.state = .sealed then { s with btc := { s.btc with state := .opened, unsealed := false } } else s

/-- R67 item 3: the timer pends LOCK or higher. -/
def State.responsePending (s : State) : Option (Level × Nat) :=
  match s.rsu.timer with
  | some t => if 2 ≤ t.pending.level.number then some (t.pending.level, t.remaining) else none
  | none => none

/-- R67, R68: an UNLOCK under slot i. -/
def State.unlock (s : State) (i : Nat) (g : Option WrapValue) (range : Nat) (rto : ReplyTo) : State :=
  if rangeFieldFits range = false then s.refuse rto .badField
  else if s.btc.state = .quarantine ∨ s.btc.state = .erased then s.refuse rto .wrongState
  else match s.responsePending with
    | some (l, n) => s.refuse rto .responsePending [l.number, n]
    | none =>
      let scope := s.listedScope range i
      let q := s.unlockScope i g scope
      let t := q.1.openBoot q.2
      (t.answer rto (.unlocked q.2 (scope.length - q.2) t.btc.state)).settleDrain

/-- UNLOCK. -/
def execUnlock (f : Hdr) (range : Nat) (p : ProofBlock) (s : State) : Host.Outcome State Fault Refusal :=
  done (s.request .unlock f (fun t rto => t.proven .unlock (f.covered [range]) range p rto (fun u i g => u.unlock i g range rto)))

/-! ### LOCK (R69) -/

/-- R69 item 2: the scope. -/
def State.lockScope (s : State) (range i : Nat) : List Nat :=
  if range = 255 then (if custodian i then s.enabledRanges else s.listedScope 255 i) else [range]

/-- R69. -/
def State.lock (s : State) (i range direction : Nat) (rto : ReplyTo) : State :=
  match lockDirections direction with
  | none => s.refuse rto .badField
  | some (rd, wr) =>
    if rangeFieldFits range = false then s.refuse rto .badField
    else if range < 16 ∧ s.fields range = none then s.refuse rto .wrongState
    else
      let scope := s.lockScope range i
      (scope.foldl (fun t r => t.lockRange rd wr r) s).refuse rto .ok [scope.length]

/-- LOCK. -/
def execLock (f : Hdr) (range direction : Nat) (p : ProofBlock) (s : State) : Host.Outcome State Fault Refusal :=
  done (s.request .lock f (fun t rto =>
    t.proven .lock (f.covered [range, direction]) range p rto (fun u i _ => u.lock i range direction rto)))

/-! ### BIND_PLATFORM (R75) and START_IMAGE_UNSEAL (R73, R74) -/

/-- R75: the token takes effect when its DEVICE write completes; the absence timer is re-armed (R127). -/
def State.bound (s : State) (rto : ReplyTo) (token : Option Secret) : State :=
  { s with
    btc := { s.btc with
      token := token
      hello := match token with
        | none => HelloStatus.none
        | some _ => if s.btc.hello = HelloStatus.none then .notDue else s.btc.hello
      window := if token.isNone then none else s.btc.window }
    rsu := { s.rsu with absence := 0 } }.refuse rto .ok

/-- R75: the DEVICE record with a token. -/
def DeviceRecord.withToken (t : Option Secret) (d : DeviceRecord) : DeviceRecord := { d with token := t }

/-- R75. The token of an UNBIND is not looked at (the model's choice, log 38). -/
def State.bindPlatform (s : State) (action : Option BindAction) (token : Secret) (rto : ReplyTo) : State :=
  match action with
  | none => s.refuse rto .badField
  | some a =>
    if s.btc.state = .erased then s.refuse rto .wrongState
    else
      let t := if a = .bind then some token else none
      s.writeDevice (.withToken t) [.bindPlatform rto t]

/-- BIND_PLATFORM. -/
def execBindPlatform (f : Hdr) (action : Option BindAction) (token : Secret) (p : ProofBlock) (s : State) :
    Host.Outcome State Fault Refusal :=
  done (s.request .bindPlatform f (fun t rto =>
    t.proven .bindPlatform (f.covered [bindActionCode action, token.toNat]) 0 p rto (fun u _ _ => u.bindPlatform action token rto)))

/-- R74. -/
def State.unseal (s : State) (action : Option UnsealAction) (rto : ReplyTo) : State :=
  match action with
  | none => s.refuse rto .badField
  | some a =>
    if s.btc.state.overlay then
      { s with btc := { s.btc with unsealed := a == UnsealAction.unseal } }.refuse rto .ok [if a == UnsealAction.unseal then 1 else 0]
    else s.refuse rto .wrongState

/-- START_IMAGE_UNSEAL. -/
def execStartImageUnseal (f : Hdr) (action : Option UnsealAction) (p : ProofBlock) (s : State) :
    Host.Outcome State Fault Refusal :=
  done (s.request .startImageUnseal f (fun t rto =>
    t.proven .startImageUnseal (f.covered [unsealActionCode action]) 0 p rto (fun u _ _ => u.unseal action rto)))

/-! ### The platform hello (R76, R77) -/

/-- R77: a hello against the token in force. -/
def State.hello (s : State) (token : Secret) : State :=
  match s.btc.token with
  | none => s
  | some t =>
    if t = token then
      if s.btc.hello = .failed then s else { s with btc := { s.btc with hello := .passed, window := none } }
    else { s with btc := { s.btc with hello := .failed, window := none } }.raise 4

/-- PLATFORM_HELLO: answered OK in every case. -/
def execPlatformHello (f : Hdr) (token : Secret) (s : State) : Host.Outcome State Fault Refusal :=
  done (s.request .platformHello f (fun t rto => (t.hello token).refuse rto .ok))

/-- R76: the window expires. -/
def State.helloExpired (s : State) : State :=
  match s.btc.window with
  | some _ => { s with btc := { s.btc with hello := .failed, window := none } }.raise 4
  | none => s

/-- HELLO_WINDOW_EXPIRY. -/
def execHelloWindowExpiry (s : State) : Host.Outcome State Fault Refusal := done s.helloExpired

end Sys2Proof.Machine
end

