-- ==== Sys2Proof/Machine/RangeTable.lean ====
section
/-! DEFINITION. The commands of the Range Table (chapter 1): RANGE_LIST, RANGE_STAGE, RANGE_DISCARD,
RANGE_COMMIT, the expiry of the drain timer and the entry to WRITING. -/

namespace Sys2Proof.Machine

/-! ### RANGE_LIST (R7, R8) -/

/-- R7: the entry of a range in the plain view, where it shows one. -/
def plainEntry (n : Nat) (e : Entry) : Option ListedRange :=
  match e with
  | .disabled => none
  | .damaged =>
    some { number := n, status := 2, bounds := none, readLocked := false, writeLocked := false, options := none,
           keys := none, lists := none }
  | .enabled f =>
    if f.concealed then none
    else some { number := n, status := 1, bounds := f.bounds, readLocked := f.readLocked, writeLocked := f.writeLocked,
                options := none, keys := none, lists := none }

/-- R8: the entry of a range in the full view. -/
def fullEntry (n : Nat) (e : Entry) : ListedRange :=
  match e with
  | .disabled =>
    { number := n, status := 0, bounds := none, readLocked := false, writeLocked := false, options := none, keys := none,
      lists := none }
  | .damaged =>
    { number := n, status := 2, bounds := none, readLocked := false, writeLocked := false, options := none, keys := none,
      lists := none }
  | .enabled f =>
    { number := n, status := 1, bounds := f.bounds, readLocked := f.readLocked, writeLocked := f.writeLocked,
      options := some (f.lockMode, f.concealed, f.powerLock, f.standbyLock, f.keyLost)
      keys := some (f.keySlot, f.split.map (fun p => (p.newKey, p.watermark)))
      lists := some (f.readList, f.writeList) }

/-- R7: the visible sequence of the plain view. -/
def State.plainView (s : State) : List ListedRange := (List.range 16).filterMap (fun r => plainEntry r (s.entry r))

/-- R8: the visible sequence of the full view. -/
def State.fullView (s : State) : List ListedRange := (List.range 16).map (fun r => fullEntry r (s.entry r))

/-- R8: the further header of the full view. -/
def State.fullHeader (s : State) : FullHeader :=
  { staged := s.rtb.staged.edits.length, mark := s.rtb.staged.mark, commit := s.rtb.commit.phase,
    resealOnWake := s.rtb.resealOnWake }

/-- R7: a page of the plain view; header 4 bytes, entries 16 (11.2). -/
def State.listPlain (s : State) (start : Nat) (rto : ReplyTo) : State :=
  match pageOf (s.limit .control) 4 16 start s.plainView with
  | some l => s.answer rto (.rangeList l.length s.plainView.length none l)
  | none => s.refuse rto .tooLong

/-- R8: a page of the full view; header 8 bytes, entries 28 (11.2). -/
def State.listFull (s : State) (start : Nat) (rto : ReplyTo) : State :=
  match pageOf (s.limit .control) 8 28 start s.fullView with
  | some l => s.answer rto (.rangeList l.length 16 (some s.fullHeader) l)
  | none => s.refuse rto .tooLong

/-- RANGE_LIST. -/
def execRangeList (f : Hdr) (start : Nat) (p : Option ProofBlock) (s : State) : Host.Outcome State Fault Refusal :=
  done (s.take .rangeList f (rangeListFits f p.isSome) (fun t rto =>
    match p with
    | none => t.listPlain start rto
    | some b => t.proven .rangeList (f.covered [start]) 0 b rto (fun u _ _ => u.listFull start rto)))

/-! ### RANGE_STAGE (R10) and RANGE_DISCARD (R11) -/

/-- R10, after the field checks: the edit is appended. -/
def State.stage (s : State) (e : Edit) (rto : ReplyTo) : State :=
  if s.commitIdle = false then s.refuse rto .busy
  else if s.rtb.staged.mark = .deferred then s.refuse rto .busy
  else if s.btc.state = .erased then s.refuse rto .wrongState
  else if Config.stagedMax ≤ s.rtb.staged.edits.length then s.refuse rto .listFull
  else
    let l := s.rtb.staged.edits ++ [e]
    { s with rtb := { s.rtb with staged := { s.rtb.staged with edits := l } } }.write .stage [.reply rto (.status .ok [l.length])]

/-- RANGE_STAGE. -/
def execRangeStage (f : Hdr) (e : EditFields) (p : ProofBlock) (s : State) : Host.Outcome State Fault Refusal :=
  done (s.request .rangeStage f (fun t rto =>
    t.proven .rangeStage (f.covered e.text) 0 p rto (fun u _ _ =>
      match stagedEdit e with
      | some x => u.stage x rto
      | none => u.refuse rto .badField)))

/-- R11: the list is emptied; a deferred list's prepared slots are retired. -/
def State.discard (s : State) (rto : ReplyTo) : State :=
  if s.commitIdle = false then s.refuse rto .busy
  else
    let t := if s.rtb.staged.mark = .deferred then s.retireAll (s.rtb.staged.prepared.slots.map (fun q => q.2)) else s
    { t with rtb := { t.rtb with staged := .blank } }.write .stage [.reply rto (.status .ok [])]

/-- RANGE_DISCARD. -/
def execRangeDiscard (f : Hdr) (p : ProofBlock) (s : State) : Host.Outcome State Fault Refusal :=
  done (s.request .rangeDiscard f (fun t rto => t.proven .rangeDiscard (f.covered []) 0 p rto (fun u _ _ => u.discard rto)))

/-! ### RANGE_COMMIT (R12, R15, R22) -/

/-- A CUT_KEYS step of the chain is in progress (R12 item 3). -/
def Chain.cutting (c : Option Chain) : Bool :=
  match c with
  | some c => c.begun && c.steps.head? == some .cutKeys
  | none => false

/-- R12: the status that refuses a commit before its list is looked at. -/
def State.commitRefusal (s : State) : Option Status :=
  if s.commitIdle = false then some .busy
  else if s.rtb.staged.mark = .deferred then some .busy
  else if Chain.cutting s.wpe.normal ∨ Chain.cutting s.wpe.injected then some .busy
  else if s.btc.state.usable = false ∨ s.lockdown then some .wrongState
  else none

/-- R15: the commit is accepted and drains. -/
def State.startDrain (s : State) (p : Plan) (raks : List (Nat × Rak)) (rto : ReplyTo) : State :=
  let t := s.interim rto (.status .accepted [])
  let c : Commit := .draining (affectedSet s.rtb.staged.edits) Config.drainPeriod raks rto
  let t := { t with rtb := { t.rtb with commit := c }, kst := { t.kst with reservation := p.needKeys.length } }
  t.settleDrain

/-- R22: the list is prepared for the next start-up. -/
def State.defer (s : State) (p : Plan) (raks : List (Nat × Rak)) (rto : ReplyTo) : State :=
  let es := s.rtb.staged.edits
  let q := s.prepare p (namedRanges es) raks
  let us := waveOne q.2
  let l : StagedList := { edits := es, mark := .deferred, prepared := q.2 }
  let x : Preparing := { left := us.length, rto := rto }
  let t := q.1
  let t := { t with rtb := { t.rtb with staged := l, preparing := t.rtb.preparing ++ [x] } }
  t.writeAll us (.deferredCommit rto)

/-- R12, R14, R15, R22: a RANGE_COMMIT whose ADMIN proof matched. -/
def State.commit (s : State) (g : Option WrapValue) (defer : Option Bool) (rto : ReplyTo) : State :=
  match defer with
  | none => s.refuse rto .badField
  | some d =>
    match s.commitRefusal with
    | some st => s.refuse rto st
    | none =>
      if s.rtb.staged.edits.isEmpty then s.refuse rto .done
      else match s.validate s.rtb.staged.edits with
        | .error (st, i) => s.refuse rto st i
        | .ok p =>
          match s.workingRaks g (namedRanges s.rtb.staged.edits) with
          | none => s.refuse rto .wrongState
          | some raks => if d then s.defer p raks rto else s.startDrain p raks rto

/-- RANGE_COMMIT. -/
def execRangeCommit (f : Hdr) (defer : Option Bool) (p : ProofBlock) (s : State) : Host.Outcome State Fault Refusal :=
  done (s.request .rangeCommit f (fun t rto =>
    t.proven .rangeCommit (f.covered [flagCode defer]) 0 p rto (fun u _ g => u.commit g defer rto)))

/-! ### The end of a drain (R17, R93) -/

/-- R17, R93: the drain timer expires; the affected contexts are aborted and the commit enters WRITING. -/
def State.drainExpired (s : State) : State :=
  match s.rtb.commit with
  | .draining a _ _ _ => (s.abortAll .drain (fun x => x.inRanges a)).enterWriting
  | _ => s

/-- DRAIN_TIMER_EXPIRY. -/
def execDrainTimerExpiry (s : State) : Host.Outcome State Fault Refusal := done s.drainExpired

/-- COMMIT_WRITING (R17, R18): the commit enters WRITING once no affected context is OPEN. -/
def execCommitWriting (s : State) : Host.Outcome State Fault Refusal := done s.settleDrain

end Sys2Proof.Machine
end

