-- ==== Sys2Proof/Machine/Transfers.lean ====
section
/-! DEFINITION. The commands of the Data Path (chapter 5): XFER_OPEN, XFER_BLOCK, XFER_CLOSE, the grant of a
cipher core and the completion of a transform. -/

namespace Sys2Proof.Machine

/-! ### XFER_OPEN (R80 to R83) -/

/-- What the checks of an open decide: a refusal with its detail, or a grant in a mode, with its range, its
key slots and the overlay offset. -/
inductive OpenResult where
  | refuse (st : Status) (detail : List Nat)
  | grant (mode : Mode) (range : Option Nat) (keys : List Nat) (offset : Nat)
deriving DecidableEq, Repr

/-- The lowest FREE context (R78). -/
def State.freeContextNumber (s : State) : Option Nat := (List.range 16).find? (fun c => (s.ctx c).xfer.isNone)

/-- R81: a span in the overlay. -/
def State.openOverlay (s : State) (d : Direction) (first : Nat) : OpenResult :=
  if d = .write ∧ s.btc.unsealed = false then .refuse .readOnlyOverlay []
  else if s.freeContextNumber.isNone then .refuse .noContext []
  else .grant .overlay none [Config.startSlot] first

/-- R82 item 7: the key slots that a span uses. -/
def spanSlots (f : RangeFields) (first count : Nat) : List Nat :=
  match f.split with
  | none => [f.keySlot]
  | some p =>
    if first + count ≤ p.watermark then [p.newKey]
    else if p.watermark ≤ first then [f.keySlot]
    else [f.keySlot, p.newKey]

/-- R82 items 4 to 7: a span in an ENABLED range that nothing holds. -/
def State.openRange (s : State) (d : Direction) (r : Nat) (f : RangeFields) (first count : Nat) : OpenResult :=
  let locked := match d with
    | .read => f.readLocked
    | .write => f.writeLocked
  if f.keyLost then .refuse .keyLost []
  else if locked = true ∧ f.lockMode = .refuse then .refuse .locked []
  else if s.freeContextNumber.isNone then .refuse .noContext []
  else if locked then .grant .shroud (some r) [] 0
  else
    match s.load r with
    | .loaded _ =>
      let ks := spanSlots f first count
      if ks.all (fun k => (s.slot k).state == .live) then .grant .clear (some r) ks 0 else .refuse .keyLost []
    | _ => .refuse .locked []

/-- R82: a span outside the overlay. -/
def State.openSpan (s : State) (d : Direction) (first count : Nat) : OpenResult :=
  match s.crossing first count with
  | some i => .refuse .crossesRange [i]
  | none =>
    let r := s.rangeOf first
    if s.tableDamaged then .refuse .tableDamaged []
    else if s.affected.contains r || s.underChunk r first count then .refuse .held []
    else match s.fields r with
      | some f => s.openRange d r f first count
      | none => .refuse .tableDamaged []

/-- R80 items 4 to 6, and R81 or R82. -/
def State.openFields (s : State) (d : Direction) (first count : Nat) : OpenResult :=
  if s.btc.state = .erased ∧ ¬(d = .read ∧ first < s.btc.imageSize) then .refuse .wrongState []
  else if s.lif.capacity < first + count then .refuse .outOfRange []
  else if s.btc.state.overlay = true ∧ first < s.btc.imageSize then
    if s.btc.imageSize < first + count then .refuse .crossesRange [s.btc.imageSize - first] else s.openOverlay d first
  else s.openSpan d first count

/-- R80 items 2 and 3. -/
def State.openResult (s : State) (direction first count : Nat) : OpenResult :=
  if s.sst.power = .standby then .refuse .standby []
  else match openDirection direction with
    | none => .refuse .badField []
    | some d =>
      if count = 0 ∨ 256 < count ∨ Config.blockMax ≤ first then .refuse .badField [] else s.openFields d first count

/-- R83: the grant. -/
def State.grant (s : State) (direction first count : Nat) (mode : Mode) (range : Option Nat) (keys : List Nat)
    (offset : Nat) (rto : ReplyTo) : State :=
  match s.freeContextNumber with
  | some c =>
    let g := ((s.ctx c).generation + 1) % 256
    let x : OpenContext :=
      { direction := if direction = 1 then .write else .read, range := range, first := first, count := count,
        nextIndex := 0, mode := mode, keyRefs := keys, rto := rto }
    (keys.foldl State.addUser (s.setCtx c { generation := g, xfer := some x })).answer rto (.grant c g mode offset)
  | none => s.refuse rto .noContext

/-- R80 to R83. -/
def State.xferOpen (s : State) (direction first count : Nat) (rto : ReplyTo) : State :=
  match s.openResult direction first count with
  | .refuse st d => s.refuse rto st d
  | .grant m r ks o => s.grant direction first count m r ks o rto

/-- XFER_OPEN. -/
def execXferOpen (f : Hdr) (direction first count : Nat) (s : State) : Host.Outcome State Fault Refusal :=
  done (s.request .xferOpen f (fun t rto => t.xferOpen direction first count rto))

/-! ### XFER_BLOCK (R85 to R88) -/

/-- R79: the transfer that a frame names by context and generation. -/
def State.transfer (s : State) (c g : Nat) : Option OpenContext :=
  if (s.ctx c).generation = g then (s.ctx c).xfer else none

/-- R86: the key slot of block b in a CLEAR context of range r. -/
def State.blockSlot (s : State) (r b : Nat) : Nat :=
  match s.fields r with
  | some f =>
    match f.split with
    | some p => if b < p.watermark then p.newKey else f.keySlot
    | none => f.keySlot
  | none => Config.startSlot

/-- R88: a block is in flight, with a working copy of its key. -/
def State.fly (s : State) (c g i : Nat) (x : OpenContext) (key : DataKey) (data : Block) (rto : ReplyTo) : State :=
  let f : Flight :=
    { context := c, generation := g, index := i, direction := x.direction, key := some key, tweak := x.first + i, data := data,
      stage := s.coreStage, rto := rto }
  { s with dpu := { s.dpu with flights := s.dpu.flights ++ [f] } }

/-- R85 item 4, R86, R87: a block that is taken. -/
def State.takeBlock (s : State) (c g : Nat) (x : OpenContext) (data : Block) (rto : ReplyTo) : State :=
  let i := x.nextIndex
  let t := s.setCtx c { (s.ctx c) with xfer := some { x with nextIndex := i + 1 } }
  match x.mode, x.direction with
  | .shroud, .read => t.answer rto (.block c g i .zeros)
  | .shroud, .write => t.answer rto (.discarded c g i)
  | .overlay, _ => t.fly c g i x (s.keyOf Config.startSlot) data rto
  | .clear, _ => t.fly c g i x (s.keyOf (s.blockSlot (x.range.getD 0) (x.first + i))) data rto

/-- R85; a context above 15 (R79) or an index above 255 (11.2, R177 item 7) is out of range. -/
def State.xferBlock (s : State) (c g i : Nat) (data : Block) (rto : ReplyTo) : State :=
  if s.sst.power = .standby then s.refuse rto .standby
  else if 15 < c ∨ 255 < i then s.refuse rto .badField
  else match s.transfer c g with
    | none => s.refuse rto .noContext
    | some x =>
      if i ≠ x.nextIndex ∨ x.count ≤ x.nextIndex then s.refuse rto .order else s.takeBlock c g x data rto

/-- XFER_BLOCK. -/
def execXferBlock (f : Hdr) (context generation index : Nat) (data : Block) (s : State) : Host.Outcome State Fault Refusal :=
  done (s.request .xferBlock f (fun t rto => t.xferBlock context generation index data rto))

/-! ### XFER_CLOSE (R89) -/

/-- R89. -/
def State.xferClose (s : State) (c g : Nat) (rto : ReplyTo) : State :=
  if s.sst.power = .standby then s.refuse rto .standby
  else if 15 < c then s.refuse rto .badField
  else match s.transfer c g with
    | none => s.refuse rto .noContext
    | some x => ((s.freeContext c).owe c g rto (.status .ok [x.nextIndex])).settleDrain

/-- XFER_CLOSE. -/
def execXferClose (f : Hdr) (context generation : Nat) (s : State) : Host.Outcome State Fault Refusal :=
  done (s.request .xferClose f (fun t rto => t.xferClose context generation rto))

/-! ### Cipher cores (R88) -/

/-- Give a core to the first Data Path block that waits. -/
def grantFlight (core : Nat) : List Flight → List Flight
  | [] => []
  | f :: l => if f.stage = .waiting then { f with stage := .inCore core } :: l else f :: grantFlight core l

/-- Give a core to the first rekey transform that waits. -/
def grantWork (core : Nat) : List SweepWork → List SweepWork
  | [] => []
  | w :: l => if w.stage = .waiting then { w with stage := .inCore core } :: l else w :: grantWork core l

/-- The side that did not receive the last core given while both waited. -/
def CoreSide.other : CoreSide → CoreSide
  | .dataPath => .rekey
  | .rekey => .dataPath

/-- R88: a free core goes to a waiter. -/
def State.grantCore (s : State) : State :=
  match s.freeCore with
  | none => s
  | some c =>
    let toData : State := { s with dpu := { s.dpu with flights := grantFlight c s.dpu.flights } }
    let toSweep : State := { s with rke := { s.rke with work := grantWork c s.rke.work } }
    match s.dataWaits, s.sweepWaits, s.dpu.lastSide with
    | true, true, .rekey => { toData with dpu := { toData.dpu with lastSide := .dataPath } }
    | true, true, .dataPath => { toSweep with dpu := { toSweep.dpu with lastSide := .rekey } }
    | true, false, _ => toData
    | false, true, _ => toSweep
    | false, false, _ => s

/-- CIPHER_CORE_GRANT. -/
def execCipherCoreGrant (s : State) : Host.Outcome State Fault Refusal := .next s.grantCore

/-- R86, R87: the transformed data of a block under a key. -/
def Flight.result (f : Flight) (key : DataKey) : Block :=
  match f.direction with
  | .read => decipher key f.tweak f.data
  | .write => encipher key f.tweak f.data

/-- R88: the transform in a core completes: the block holds its result, and its working copy is discarded. -/
def Flight.complete (core : Nat) (f : Flight) : Flight :=
  if f.stage = .inCore core then
    { f with stage := .done, key := none, data := (f.key.map f.result).getD f.data }
  else f

/-- R88: the flights whose replies may leave now, in index order within each context, and those kept. -/
def readyFlights : List Flight → List Flight → List Flight × List Flight
  | kept, [] => ([], kept)
  | kept, f :: l =>
    if f.stage = .done ∧ ¬(kept.any (fun k => k.context == f.context && k.generation == f.generation)) then
      (f :: (readyFlights kept l).1, (readyFlights kept l).2)
    else readyFlights (kept ++ [f]) l

/-- R88: send the replies that are ready, then what is owed on contexts with no block left in flight. -/
def State.flushData (s : State) : State :=
  let q := readyFlights [] s.dpu.flights
  let t := { s with dpu := { s.dpu with flights := q.2 } }
  let t := q.1.foldl (fun u f => u.answer f.rto (.block f.context f.generation f.index f.data)) t
  let ready := t.dpu.owed.filter (fun o => !t.inFlight o.context o.generation)
  let t := { t with dpu := { t.dpu with owed := t.dpu.owed.filter (fun o => t.inFlight o.context o.generation) } }
  ready.foldl (fun u o => u.lastWord o.rto o.body) t

/-- R88, R102: the transform in a core completes. -/
def State.transformDone (s : State) (core : Nat) : State :=
  match s.rke.work.find? (fun w => w.stage == .inCore core) with
  | some w =>
    let t := { s with rke := { s.rke with work := s.rke.work.filter (fun x => x.stage != .inCore core) } }
    if w.chunk = s.rke.chunk then
      t.fillBuffer w.position (encipher w.newKey w.tweak (decipher w.oldKey w.tweak w.data)) (opsFor s.rke.n .scratch)
    else t
  | none =>
    let t : State := { s with dpu := { s.dpu with flights := s.dpu.flights.map (Flight.complete core) } }
    t.flushData

/-- CIPHER_TRANSFORM_COMPLETE. -/
def execCipherTransformComplete (core : Nat) (s : State) : Host.Outcome State Fault Refusal := done (s.transformDone core)

end Sys2Proof.Machine
end

