-- ==== Sys2Proof/Machine/RekeyEngine.lean ====
section
/-! DEFINITION. The commands of the Rekey Engine (chapter 6): REKEY_QUEUE, REKEY_RESUME, REKEY_STATUS, the
start of a job, the forming and claiming of a chunk, and what the completion of the engine's writes brings. -/

namespace Sys2Proof.Machine

/-! ### REKEY_QUEUE (R99) -/

/-- R99: the status that refuses a job for a range, if any. -/
def State.queueRefusal (s : State) (r : Nat) : Option Status :=
  if 15 < r then some .badField
  else if s.btc.state.usable = false ∨ s.lockdown then some .wrongState
  else match s.fields r with
    | none => some .wrongState
    | some f =>
      if f.keyLost then some .keyLost
      else if s.rke.queue.any (fun j => j.range == r) then some .duplicate
      else if Config.rekeyMax ≤ s.rke.queue.length then some .listFull
      else none

/-- R99. The OK carries the position at which the job joined, whatever leaves the queue before the queue part's write has
completed: R99 does not say which moment counts (the model's choice, log 43). -/
def State.queueRekey (s : State) (g : Option WrapValue) (r : Nat) (rto : ReplyTo) : State :=
  match s.queueRefusal r with
  | some st => s.refuse rto st
  | none =>
    match s.openEnvelope r (.cred 0) g with
    | none => s.refuse rto .wrongState
    | some k =>
      let j : Job := { range := r, state := .queued, copy := some k, serial := none, newKey := none, fault := none }
      let t : State := { s with rke := { s.rke with queue := s.rke.queue ++ [j] } }
      t.writeQueuePart [.reply rto (.status .ok [s.rke.queue.length])]

/-- REKEY_QUEUE. -/
def execRekeyQueue (f : Hdr) (range : Nat) (p : ProofBlock) (s : State) : Host.Outcome State Fault Refusal :=
  done (s.request .rekeyQueue f (fun t rto =>
    t.proven .rekeyQueue (f.covered [range]) 0 p rto (fun u _ g => u.queueRekey g range rto)))

/-! ### REKEY_RESUME (R112) -/

/-- R112: the status that refuses a resume, if any. -/
def State.resumeRefusal (s : State) (r : Nat) : Option Status :=
  if 15 < r then some .badField
  else if s.sst.power = .standby ∨ s.lockdown = true ∨ s.btc.state.usable = false then some .wrongState
  else match s.headJob with
    | none => some .wrongState
    | some j =>
      if j.range ≠ r ∨ j.state = .sweeping then some .wrongState
      else match s.fields r with
        | none => some .wrongState
        | some f => if f.keyLost then some .keyLost else none

/-- The state of the head job. -/
def State.headState (s : State) : Option JobState := s.headJob.map (fun j => j.state)

/-- R112: the RAK is loaded where the range is not LOADED; a QUEUED head keeps it as its job_copy, and a PAUSED or
FAULTED one sweeps again. A request whose load finds a key damaged is refused KEY_LOST (log 24). -/
def State.resumeHead (s : State) (r : Nat) (k : Rak) (rto : ReplyTo) : State :=
  let q := s.loadRange r (some k)
  let reply : Waiter := .reply rto (.jobState .sweeping)
  if q.2 = false then q.1.refuse rto .wrongState
  else if q.1.headState = some .sweeping then q.1.writeProgressPart [reply]
  else match q.1.fields r with
    | some f =>
      if f.keyLost then q.1.refuse rto .keyLost
      else if q.1.headState = some .queued then
        (q.1.mapHead (fun j => { j with copy := some k })).answer rto (.jobState .queued)
      else q.1.resumeJob r [reply]
    | none => q.1.refuse rto .wrongState

/-- R112. -/
def State.resumeRekey (s : State) (g : Option WrapValue) (r : Nat) (rto : ReplyTo) : State :=
  match s.resumeRefusal r with
  | some st => s.refuse rto st
  | none =>
    match s.openEnvelope r (.cred 0) g with
    | none => s.refuse rto .wrongState
    | some k => (s.resumeHead r k rto).settleDrain

/-- REKEY_RESUME. -/
def execRekeyResume (f : Hdr) (range : Nat) (p : ProofBlock) (s : State) : Host.Outcome State Fault Refusal :=
  done (s.request .rekeyResume f (fun t rto =>
    t.proven .rekeyResume (f.covered [range]) 0 p rto (fun u _ g => u.resumeRekey g range rto)))

/-! ### REKEY_STATUS (R113) -/

/-- The range is concealed. -/
def State.concealed (s : State) (r : Nat) : Bool :=
  match s.fields r with
  | some f => f.concealed
  | none => false

/-- The split of a range under rekey. -/
def State.split (s : State) (r : Nat) : Option Split := (s.fields r).bind (fun f => f.split)

/-- R113. -/
def State.rekeyReport (s : State) : RekeyReport :=
  let shown := match s.headJob with
    | some j => !s.concealed j.range
    | none => true
  { serial := s.rke.serial
    jobs := s.rke.queue.map (fun j => (if s.concealed j.range then 255 else j.range, j.state))
    headSerial := s.headJob.bind (fun j => j.serial)
    faultCause := s.headJob.bind (fun j => j.fault)
    watermark := if shown then s.headJob.bind (fun j => (s.split j.range).map (fun p => p.watermark)) else none
    phase := s.rke.phase
    chunk := if shown && s.rke.phase != .idle then some (s.rke.first, s.rke.n) else none
    window := s.rke.window }

/-- REKEY_STATUS. -/
def execRekeyStatus (f : Hdr) (s : State) : Host.Outcome State Fault Refusal :=
  done (s.request .rekeyStatus f (fun t rto =>
    t.answerLong rto (Config.rekeyStatusBytes t.rke.queue.length) (.rekeyStatus t.rekeyReport)))

/-! ### REKEY_JOB_START (R100) -/

/-- R100: the head job starts. -/
def State.canStart (s : State) (j : Job) : Bool :=
  j.state == .queued && s.rke.seq.isNone && s.sst.power == .active && !s.lockdown && s.commitIdle &&
    (j.copy.isSome || (match s.load j.range with
      | .loaded _ => true
      | _ => false)) && s.canGenerate && (s.fields j.range).isSome

/-- R100 items 2 to 4, with the range LOADED under a RAK; a key found damaged makes the started job FAULTED
(R36, log 23). -/
def State.startJob (s : State) (r : Nat) (rak : Rak) : State :=
  let q := s.generate r rak
  match q.2, q.1.fields r with
  | some k, some f =>
    let serial := (s.rke.serial + 1) % 65536
    let t := q.1.setEntry r (.enabled { f with split := some { newKey := k, watermark := q.1.firstBlock r } })
    let t := t.takeHold r
    let t := t.mapHead (fun j => { j with state := .sweeping, copy := none, serial := some serial, newKey := some k })
    let t : State := { t with rke := { t.rke with serial := serial, seq := some .startKey } }
    let t := t.write (.key k) [.rekeySeq .startKey serial]
    if (s.slot f.keySlot).state = .live ∧ s.owns r f.keySlot = true then t else t.faultJob .keyLost
  | _, _ => s

/-- R100. -/
def State.rekeyJobStart (s : State) : State :=
  match s.headJob with
  | some j =>
    if s.canStart j then
      let q := s.loadRange j.range j.copy
      match q.2, (q.1.load j.range).rak? with
      | true, some k => q.1.startJob j.range k
      | _, _ => s
    else s
  | none => s

/-- REKEY_JOB_START. -/
def execRekeyJobStart (s : State) : Host.Outcome State Fault Refusal := done s.rekeyJobStart

/-! ### CHUNK_FORM (R101, R105) and CHUNK_CLAIM (R101) -/

/-- R101, range 0: the next block at or after b that lies in range 0. -/
def State.nextGlobal (s : State) : Nat → Nat → Nat
  | 0, b => b
  | fuel + 1, b =>
    match s.fields (s.rangeOf b) with
    | some f =>
      match f.bounds with
      | some p => s.nextGlobal fuel (p.first + p.count)
      | none => b
    | none => b

/-- R101, range 0: how many blocks from b, at most n, lie before the first block of another ENABLED range. -/
def State.globalRun (s : State) (b n : Nat) : Nat :=
  (List.range 16).foldl (fun m r =>
    match s.fields r with
    | some f =>
      match f.bounds with
      | some p => if b ≤ p.first ∧ 0 < p.count then min m (p.first - b) else m
      | none => m
    | none => m) n

/-- R101: the next chunk of a range from a watermark: its first block and length, 0 when none remains. -/
def State.nextChunk (s : State) (r w : Nat) : Nat × Nat :=
  match s.fields r with
  | some f =>
    match f.bounds with
    | some p => (w, min Config.rekeyChunk (min (p.first + p.count) s.lif.capacity - w))
    | none =>
      let b := s.nextGlobal 16 w
      (b, min (s.lif.capacity - b) (s.globalRun b Config.rekeyChunk))
  | none => (w, 0)

/-- R105: the head job completes; it stays at the head of the queue until the last of its writes. -/
def State.completeJob (s : State) (j : Job) (f : RangeFields) (p : Split) : State :=
  let serial := j.serial.getD 0
  let t := s.setEntry j.range (.enabled { f with keySlot := p.newKey, split := none })
  let t := (t.retire f.keySlot).releaseHold
  let t : State := { t with rke := { t.rke with
      finished := some { range := j.range, serial := serial, watermark := p.watermark, silent := false }, seq := some .doneRecords, seqLeft := 2 } }
  t.writeAll [.range j.range, .key f.keySlot] (.rekeySeq .doneRecords serial)

/-- R101: the conditions under which the next chunk is formed. -/
def State.canForm (s : State) (j : Job) : Bool :=
  j.state == .sweeping && s.rke.seq.isNone && s.rke.phase == .idle && s.lif.started && s.commitIdle &&
    s.rke.recovery == .none && !s.rke.resuming

/-- R101: the chunk enters CLAIMING. -/
def State.claiming (s : State) (first n : Nat) : State :=
  { s with rke := { s.rke with phase := .claiming, first := first, n := n } }

/-- R101, R105. -/
def State.chunkForm (s : State) : State :=
  match s.headJob with
  | some j =>
    if s.canForm j then
      match s.fields j.range, s.split j.range with
      | some f, some p =>
        let q := s.nextChunk j.range p.watermark
        if q.2 = 0 then s.completeJob j f p else (s.setWatermark j.range q.1).claiming q.1 q.2
      | _, _ => s
    else s
  | none => s

/-- CHUNK_FORM. -/
def execChunkForm (s : State) : Host.Outcome State Fault Refusal := done s.chunkForm

/-- R101, R102: the window is set and the reads may be issued. -/
def State.chunkClaim (s : State) : State :=
  if s.rke.phase = .claiming ∧ s.chunkBlocked = false then
    { s with rke := { s.rke with
        phase := .reading, window := true, headerIssued := false, buffer := List.replicate s.rke.n none,
        todo := opsFor s.rke.n .read, issued := [] } }
  else s

/-- CHUNK_CLAIM. -/
def execChunkClaim (s : State) : Host.Outcome State Fault Refusal := .next s.chunkClaim

/-! ### Completions of the engine's writes -/

/-- The serial of the job whose start or completion writes are under way. -/
def State.seqSerial (s : State) : Option Nat :=
  match s.rke.finished with
  | some f => some f.serial
  | none => s.headJob.bind (fun j => j.serial)

/-- The next step of a job's start or completion writes. -/
def State.setSeq (s : State) (q : Option RekeySeq) : State := { s with rke := { s.rke with seq := q } }

/-- R105: with the last completion write the job leaves the queue, REKEY_DONE is sent, and the next job becomes
the head. -/
def State.rekeyDone (s : State) : State :=
  match s.rke.finished with
  | some f =>
    let t : State := { s with rke := { s.rke with queue := s.rke.queue.drop 1, seq := none, finished := none } }
    if f.silent then t else t.notice (.rekeyDone f.range f.serial .done)
  | none => s.setSeq none

/-- R100, R105: a write of the job's start or completion completes, and the next is placed. -/
def State.seqDone (s : State) (step : RekeySeq) (serial : Nat) : State :=
  if s.rke.seq = some step ∧ s.seqSerial = some serial then
    match step with
    | .startKey => (s.setSeq (some .startQueue)).writeQueuePart [.rekeySeq .startQueue serial]
    | .startQueue => (s.setSeq (some .startProgress)).writeProgressPart [.rekeySeq .startProgress serial]
    | .startProgress =>
      match s.headJob with
      | some j => (s.setSeq (some .startRange)).write (.range j.range) [.rekeySeq .startRange serial]
      | none => s.setSeq none
    | .startRange => s.setSeq none
    | .doneRecords =>
      if 1 < s.rke.seqLeft then { s with rke := { s.rke with seqLeft := s.rke.seqLeft - 1 } }
      else (s.setSeq (some .doneProgress)).writeProgressPart [.rekeySeq .doneProgress serial]
    | .doneProgress => (s.setSeq (some .doneQueue)).writeQueuePart [.rekeySeq .doneQueue serial]
    | .doneQueue => s.rekeyDone
  else s

/-- R103: the COPYING record is written. -/
def State.chunkStaged (s : State) (c : Nat) : State :=
  if s.rke.chunk = c ∧ s.rke.phase = .staged then
    { s with rke := { s.rke with phase := .copying, todo := opsFor s.rke.n .dest, issued := [] } }
  else s

/-- R115: the hold on the whole range ends, and the job's state is settled. -/
def State.endRecovery (s : State) : State :=
  if s.rke.rangeHeld then
    let t : State := { s with rke := { s.rke with rangeHeld := false } }
    t.settleJob
  else s

/-- R104: the READING record is written; the watermark advances and the window is released. -/
def State.chunkDone (s : State) (c : Nat) : State :=
  if s.rke.chunk = c ∧ s.rke.closing = true then
    let w := s.rke.first + s.rke.n
    let t := match s.headJob with
      | some j => s.setWatermark j.range w
      | none => s
    let t := t.dropChunk
    let t : State := { t with rke := { t.rke with recovery := .none, runAnyway := false } }
    t.endRecovery
  else s

/-- R107: the progress part of resumption n is written; that of an earlier resumption says nothing of the latest. -/
def State.rekeyResumed (s : State) (n : Nat) : State :=
  if n = s.rke.resumption then { s with rke := { s.rke with resuming := false } } else s

end Sys2Proof.Machine
end

