-- ==== Sys2Proof/Machine/ResponseUnit.lean ====
section
/-! DEFINITION. The commands of the Response Unit (chapter 7): settings, listings, clears and orders, the
platform's presence and motion notices, the edges of the two input lines and the expiries of its timers. -/

namespace Sys2Proof.Machine

/-! ### EVIDENCE_SET (R118) and EVIDENCE_LIST (R119) -/

/-- R118: a source's new settings take effect; a change of source 0's enabled value re-arms the absence timer. -/
def State.sourceSet (s : State) (rto : ReplyTo) (i : Nat) (e : Setting) : State :=
  let rearm := i == 0 && e.enabled != (s.setting 0).enabled
  let t : State := { s with rsu := { s.rsu with
      settings := s.rsu.settings.set i e, absence := if rearm then 0 else s.rsu.absence } }
  t.refuse rto .ok

/-- R118: the new table-wide settings take effect; a change of the threshold re-arms the absence timer. -/
def State.tableSet (s : State) (rto : ReplyTo) (purge : Bool) (alarm threshold : Nat) : State :=
  let t : State := { s with rsu := { s.rsu with
      purgeAllowed := purge, alarmMinimum := alarm, absenceThreshold := threshold,
      absence := if threshold = s.rsu.absenceThreshold then s.rsu.absence else 0 } }
  t.refuse rto .ok

/-- R118: the DEVICE record with new table-wide settings. -/
def DeviceRecord.withTable (purge : Bool) (alarm threshold : Nat) (d : DeviceRecord) : DeviceRecord :=
  { d with purgeAllowed := purge, alarmMinimum := alarm, absenceThreshold := threshold }

/-- R118. -/
def State.evidenceSet (s : State) (target : Nat) (v : EvidenceValues) (rto : ReplyTo) : State :=
  if target < 8 then
    match settingOf v with
    | none => s.refuse rto .badField
    | some e =>
      if s.btc.state = .erased then s.refuse rto .wrongState
      else s.place (.evset target) (.evset e) [.evidenceSource rto target e]
  else if target = 255 then
    match tableOf v with
    | none => s.refuse rto .badField
    | some (p, a, t) =>
      if s.btc.state = .erased then s.refuse rto .wrongState
      else s.writeDevice (.withTable p a t) [.evidenceTable rto p a t]
  else s.refuse rto .badField

/-- EVIDENCE_SET. -/
def execEvidenceSet (f : Hdr) (target : Nat) (v : EvidenceValues) (p : ProofBlock) (s : State) :
    Host.Outcome State Fault Refusal :=
  done (s.request .evidenceSet f (fun t rto =>
    t.proven .evidenceSet (f.covered (target :: v.text)) 0 p rto (fun u _ _ => u.evidenceSet target v rto)))

/-- R119, R173: the page from a start index. -/
def State.evidenceList (s : State) (start : Nat) (rto : ReplyTo) : State :=
  match pageOf (s.limit .control) Config.evidenceListHead.val Config.evidenceListEntry start ((List.range 8).map s.setting) with
  | some l => s.answer rto (.evidenceList l.length 8 s.rsu.purgeAllowed s.rsu.alarmMinimum s.rsu.absenceThreshold l)
  | none => s.refuse rto .tooLong

/-- EVIDENCE_LIST. -/
def execEvidenceList (f : Hdr) (start : Nat) (p : ProofBlock) (s : State) : Host.Outcome State Fault Refusal :=
  done (s.request .evidenceList f (fun t rto =>
    t.proven .evidenceList (f.covered [start]) 0 p rto (fun u _ _ => u.evidenceList start rto)))

/-! ### RESPONSE_STATUS (R134) -/

/-- R134. -/
def State.responseReport (s : State) : ResponseReport :=
  { level := s.rsu.level, firstCause := s.rsu.firstCause, lastCause := s.rsu.lastCause
    timer := s.rsu.timer.map (fun t => (t.pending.level, t.pending.source, t.remaining))
    wipeLevel := s.rsu.wipeLevel, startLatch := s.rsu.startLatch, alarmRemaining := s.rsu.alarm.getD 0
    absence := s.rsu.absence, absenceCounting := s.absenceCounting, alarmOut := s.alarmOut }

/-- RESPONSE_STATUS. -/
def execResponseStatus (f : Hdr) (s : State) : Host.Outcome State Fault Refusal :=
  done (s.request .responseStatus f (fun t rto =>
    t.answerLong rto Config.responseStatusBytes (.responseStatus t.responseReport)))

/-! ### RESPONSE_CLEAR (R133) -/

/-- R133: level CALM, first_cause and the pending fields removed, QUARANTINE to SEALED (R70). -/
def State.calmed (s : State) : State :=
  { s with
    rsu := { s.rsu with level := .calm, firstCause := none, timer := none }
    btc := { s.btc with state := if s.btc.state = .quarantine then .sealed else s.btc.state } }

/-- R133: the ranges with power_lock off are unlocked through their device envelopes. In an ERASED whose CUT_KEYS has not
begun the envelope lists are still whole, and the ranges open, though R133 says that nothing opens in ERASED since the cut
has emptied the lists (the model's choice, log 42). -/
def State.reopenAll (s : State) : State := (s.rangesWhere (fun f => !f.powerLock)).foldl State.unlockDevice s

/-- R133. -/
def State.responseClear (s : State) (rto : ReplyTo) : State :=
  match s.rsu.level with
  | .erase | .purge => s.refuse rto .wrongState
  | .guard | .lock => (s.calmed.reopenAll.write .response [.reply rto (.level .calm)]).settleDrain
  | .calm =>
    match s.rsu.timer with
    | some _ =>
      let t : State := { s with rsu := { s.rsu with timer := none } }
      t.write .response [.reply rto (.level .calm)]
    | none => s.answer rto (.level .calm)

/-- RESPONSE_CLEAR. -/
def execResponseClear (f : Hdr) (p : ProofBlock) (s : State) : Host.Outcome State Fault Refusal :=
  done (s.request .responseClear f (fun t rto => t.proven .responseClear (f.covered []) 0 p rto (fun u _ _ => u.responseClear rto)))

/-! ### REMOTE_ORDER (R129) -/

/-- R129: the reply, from the state after the arrival. The one that waits for the RESPONSE record shows the level, the
pending level and the seconds remaining as they stand right after the arrival, not as they stand when it is sent: R129
says it of the level, and of the timer it is the model's choice (log 41). -/
def State.orderReply (s : State) (accepted : Bool) : Body :=
  .ordered accepted s.rsu.level (s.rsu.timer.map (fun t => (t.pending.level, t.remaining)))

/-- R129. -/
def State.remoteOrder (s : State) (level : Nat) (rto : ReplyTo) : State :=
  match askedLevel level with
  | none => s.refuse rto .badField
  | some l =>
    if s.accepts 5 then
      let t := s.arrive 5 (some l) []
      t.write .response [.reply rto (t.orderReply true)]
    else s.answer rto (s.orderReply false)

/-- REMOTE_ORDER. -/
def execRemoteOrder (f : Hdr) (level : Nat) (p : ProofBlock) (s : State) : Host.Outcome State Fault Refusal :=
  done (s.request .remoteOrder f (fun t rto =>
    t.proven .remoteOrder (f.covered [level]) 0 p rto (fun u _ _ => u.remoteOrder level rto)))

/-! ### Notices of the platform and edges of the lines (R116, R128, R130) -/

/-- R128: a matching PRESENCE resets the absence timer, and a fresh nonce replaces the current one. -/
def State.presence (s : State) (p : Proof) : State :=
  match s.btc.token with
  | some k =>
    if p = .digest k s.rsu.beacon [] then
      let t : State := { s with rsu := { s.rsu with absence := 0, beacon := { issue := s.fresh } } }
      t.bump
    else s
  | none => s

/-- PRESENCE. -/
def execPresence (f : Hdr) (p : Proof) (s : State) : Host.Outcome State Fault Refusal :=
  done (s.request .presence f (fun t rto => (t.presence p).answer rto (.beacon (t.presence p).rsu.beacon)))

/-- MOTION (R116). -/
def execMotion (f : Hdr) (s : State) : Host.Outcome State Fault Refusal :=
  done (s.request .motion f (fun t rto => (t.raise 1).refuse rto .ok))

/-- R130: a source joins the latch, once. -/
def State.latch (s : State) (i : Nat) : State :=
  if i ∈ s.rsu.latch then s else { s with rsu := { s.rsu with latch := s.rsu.latch ++ [i] } }

/-- R116, R130: a line changes to asserted. -/
def State.edge (s : State) (i : Nat) : State :=
  match s.sst.power with
  | .active | .standby => s.raise i
  | .off => s.latch i
  | .dead => s

/-- MOTION_IN_EDGE. -/
def execMotionInEdge (s : State) : Host.Outcome State Fault Refusal := done (s.edge 1)

/-- TAMPER_IN_EDGE. -/
def execTamperInEdge (s : State) : Host.Outcome State Fault Refusal := done (s.edge 2)

/-! ### Expiries -/

/-- DELAY_TIMER_EXPIRY (R123). -/
def execDelayTimerExpiry (s : State) : Host.Outcome State Fault Refusal := done s.timerExpired

/-- R127: the count has reached the threshold: source 0 arrives, and the count returns to 0. -/
def State.absenceReached (s : State) : State :=
  if s.absenceCounting = true ∧ s.rsu.absenceThreshold ≤ s.rsu.absence then
    let t : State := { s with rsu := { s.rsu with absence := 0 } }
    t.raise 0
  else s

/-- ABSENCE_THRESHOLD. -/
def execAbsenceThreshold (s : State) : Host.Outcome State Fault Refusal := done s.absenceReached

/-- ALARM_MINIMUM_EXPIRY (R132). -/
def execAlarmMinimumExpiry (s : State) : Host.Outcome State Fault Refusal :=
  .next { s with rsu := { s.rsu with alarm := none } }

end Sys2Proof.Machine
end

