-- ==== Sys2Proof/Machine/WipeEngine.lean ====
section
/-! DEFINITION. The commands of the Wipe Engine (chapter 8): WIPE_START, WIPE_ABORT, WIPE_STATUS,
REPROVISION and the beginning of a step. -/

namespace Sys2Proof.Machine

/-- R147. -/
def State.wipeStart (s : State) (fill : Option Bool) (rto : ReplyTo) : State :=
  match fill with
  | none => s.refuse rto .badField
  | some b =>
    if s.wpe.normal.isSome then s.refuse rto .busy
    else s.createChain .normal .sanitize (if b then [.cutKeys, .fill none 0] else [.cutKeys]) [.reply rto (.status .accepted [])]

/-- WIPE_START. -/
def execWipeStart (f : Hdr) (fill : Option Bool) (p : ProofBlock) (s : State) : Host.Outcome State Fault Refusal :=
  done (s.request .wipeStart f (fun t rto =>
    t.proven .wipeStart (f.covered [flagCode fill]) 0 p rto (fun u _ _ => u.wipeStart fill rto)))

/-- R148: a chain whose step in progress is no FILL is cut down to it; any other is removed. One that is closing
already is not changed, and one whose end is already being recorded is left to it (log 25). -/
def Chain.abort (c : Chain) : Chain :=
  if c.closing || c.ending.isSome then c
  else if c.begun && !(match c.steps with
      | x :: _ => x.isFill
      | [] => false) then { c with steps := c.steps.take 1, closing := true }
  else { c with steps := [], begun := false, left := 0, above := [], ending := some .aborted }

/-- R148: the chain ends at the completion of the write, when the abort removed it. -/
def State.wipeAbort (s : State) (rto : ReplyTo) : State :=
  match s.wpe.normal with
  | none => s.refuse rto .wrongState
  | some c =>
    let t := s.setChain .normal (some c.abort)
    let ends : List Waiter := if c.ending.isNone && c.abort.ending.isSome then [.chainEnd .normal c.no] else []
    t.write .wipe (.reply rto (.status .ok []) :: ends)

/-- WIPE_ABORT. -/
def execWipeAbort (f : Hdr) (p : ProofBlock) (s : State) : Host.Outcome State Fault Refusal :=
  done (s.request .wipeAbort f (fun t rto => t.proven .wipeAbort (f.covered []) 0 p rto (fun u _ _ => u.wipeAbort rto)))

/-- A FILL as WIPE_STATUS shows it before it has begun: without a count (R150), though one that a start-up has set
begun no keeps the count it recorded (R143, R152). -/
def WipeStep.uncounted : WipeStep → WipeStep
  | .fill _ p => .fill none p
  | x => x

/-- R150: one chain. -/
def State.chainReport (s : State) (k : ChainKind) (c : Chain) : ChainReport :=
  let fill := match c.steps with
    | x :: _ => x.isFill && c.begun
    | [] => false
  { origin := c.origin, steps := if c.begun then c.steps else c.steps.map WipeStep.uncounted, begun := c.begun
    suspended := k == .normal && fill && s.wpe.injected.isSome
    closing := c.closing
    outstanding := (s.lif.outstanding.filter (fun q => match q.client with
      | .wipe k' no _ => k' == k && no == c.no
      | .rekey _ _ => false)).length
    failedChunks := c.failedChunks }

/-- The steps of a chain, or none. -/
def Chain.count (c : Option Chain) : Nat :=
  match c with
  | some c => c.steps.length
  | none => 0

/-- WIPE_STATUS (R150). -/
def execWipeStatus (f : Hdr) (s : State) : Host.Outcome State Fault Refusal :=
  done (s.request .wipeStatus f (fun t rto =>
    t.answerLong rto (Config.wipeStatusBytes (Chain.count t.wpe.normal + Chain.count t.wpe.injected))
      (.wipeStatus (t.wpe.normal.map (t.chainReport .normal)) (t.wpe.injected.map (t.chainReport .injected)))))

/-- R149. -/
def State.reprovision (s : State) (rto : ReplyTo) : State :=
  let accept (steps : List WipeStep) := s.createChain .normal .reprovision steps [.reply rto (.status .accepted [])]
  match s.btc.state with
  | .blank => s.refuse rto .wrongState
  | .sealed | .opened | .quarantine =>
    if s.wpe.normal.isSome then s.refuse rto .busy else accept [.cutKeys, .cutCredentials, .resetTable]
  | .erased =>
    if s.wpe.normal.isSome ∨ s.wpe.injected.isSome then s.refuse rto .busy else accept [.cutCredentials, .resetTable]

/-- REPROVISION. -/
def execReprovision (f : Hdr) (p : ProofBlock) (s : State) : Host.Outcome State Fault Refusal :=
  done (s.request .reprovision f (fun t rto => t.labelled .reprovision (f.covered []) p rto (fun u => u.reprovision rto)))

/-- WIPE_STEP_BEGIN (R140). -/
def execWipeStepBegin (k : ChainKind) (s : State) : Host.Outcome State Fault Refusal := done (s.beginStep k)

end Sys2Proof.Machine
end

