-- ==== Sys2Proof/Machine/LinkInterface.lean ====
section
/-! DEFINITION. The commands of the Link Interface (chapter 10): LINK_START, IDENTIFY, STATUS,
SET_REPLY_LIMIT, the ends and errors of bursts, unknown kinds, and the media requests with their credits,
replies and timeouts. -/

namespace Sys2Proof.Machine

/-! ### LINK_START (R170, R171) -/

/-- R111, R114, R115: the Rekey Engine at a LINK_START: recoveries begin at the first; a restart forgets the
requests of a chunk, and they are issued again. -/
def State.linkSweep (s : State) (restart : Bool) : State :=
  if restart then
    match s.rke.phase, s.rke.headerIssued with
    | .reading, false =>
      { s with rke := { s.rke with
          chunk := s.rke.chunk + 1, buffer := List.replicate s.rke.n none, todo := opsFor s.rke.n .read, issued := [],
          work := s.rke.work.filter (fun w => w.stage != .waiting) } }
    | .reading, true => { s with rke := { s.rke with todo := opsFor s.rke.n .scratch, issued := [] } }
    | _, _ => { s with rke := { s.rke with todo := s.rke.issued.foldl (fun l o => insertOp o l) s.rke.todo, issued := [] } }
  else
    match s.rke.recovery with
    | .none => s
    | .copy f n => s.recoverCopy f n
    | .header => { s with rke := { s.rke with todo := [.recoverHeader], issued := [], runAnyway := true } }

/-- R76: the hello window starts if a token is bound. -/
def State.linkHello (s : State) : State :=
  { s with btc := { s.btc with
      hello := if s.btc.token.isSome then .waiting else .none
      window := if s.btc.token.isSome then some Config.helloPeriod else none } }

/-- R127, R128: the absence timer is re-armed and a fresh beacon nonce is made. -/
def State.linkBeacon (s : State) : State :=
  let t : State := { s with rsu := { s.rsu with absence := 0, beacon := { issue := s.fresh } } }
  t.bump

/-- R96: at a restart every OPEN context becomes FREE without notice. -/
def State.freeAll (s : State) : State := (List.range 16).foldl State.freeContext s

/-- R170, R171: the parameters, the free credits and the reply limits of an accepted LINK_START; a restart
forgets the outstanding requests and withholds the replies still owed. -/
def State.linkParameters (s : State) (restart : Bool) (credits capacity imageBase scratchBase : Nat) : State :=
  { s with lif := { s.lif with
      started := true, mediaCredits := credits, capacity := capacity, imageBase := imageBase, scratchBase := scratchBase,
      limitData := Config.payloadMax, limitControl := Config.payloadMax, limitPlatform := Config.payloadMax,
      outstanding := [], freeCredits := credits, tagsInUse := if restart then [] else s.lif.tagsInUse
      session := if restart then s.lif.session + 1 else s.lif.session } }

/-- R170: a restart may not move the scratch span under a staged chunk or a recovery. -/
def State.scratchFixed (s : State) : Bool :=
  s.lif.started && (s.rke.phase == .staged || s.rke.phase == .copying || s.rke.recovery != .none)

/-- R170, R171: an accepted LINK_START. -/
def State.linkStarted (s : State) (credits capacity imageBase scratchBase : Nat) : State :=
  let restart := s.lif.started
  let t := if restart then s.freeAll else s
  (((t.linkParameters restart credits capacity imageBase scratchBase).linkHello).linkBeacon).linkSweep restart

/-- R170. -/
def State.linkStart (s : State) (credits capacity imageBase scratchBase tag : Nat) : State :=
  if linkFieldsFit credits capacity imageBase scratchBase s.btc.imageSize = false then
    s.send .control tag (.status .badField [])
  else if s.scratchFixed = true ∧ scratchBase ≠ s.lif.scratchBase then s.send .control tag (.status .badField [])
  else
    let t := s.linkStarted credits capacity imageBase scratchBase
    (t.send .control tag (.linkStarted t.btc.state t.sst.power s.lif.started)).settleDrain

/-- LINK_START. -/
def execLinkStart (f : Hdr) (credits capacity imageBase scratchBase : Nat) (s : State) : Host.Outcome State Fault Refusal :=
  done (s.request .linkStart f (fun t rto => t.linkStart credits capacity imageBase scratchBase rto.tag))

/-! ### IDENTIFY, STATUS (R172) and SET_REPLY_LIMIT (R173) -/

/-- R172: what the part says of itself. -/
def identity : Identity :=
  { partCode := Config.partCode, designLevel := Config.designLevel, payloadMax := Config.payloadMax
    contexts := Config.contexts, ranges := Config.ranges, keySlots := Config.poolSlots + 1, credSlots := Config.credSlots
    sources := Config.sources, scratchSpan := Config.scratchSpan, imageMax := Config.imageMax }

/-- IDENTIFY (R172). -/
def execIdentify (f : Hdr) (s : State) : Host.Outcome State Fault Refusal :=
  done (s.request .identify f (fun t rto => t.answer rto (.identity identity)))

/-- STATUS. -/
def execStatus (f : Hdr) (s : State) : Host.Outcome State Fault Refusal :=
  done (s.request .status f (fun t rto => t.answer rto (.partStatus t.statusReport)))

/-- R173: a channel's limit is set. -/
def State.setLimit (s : State) (ch : Channel) (n : Nat) : State :=
  match ch with
  | .data => { s with lif := { s.lif with limitData := n } }
  | .control => { s with lif := { s.lif with limitControl := n } }
  | .platform => { s with lif := { s.lif with limitPlatform := n } }
  | .media => s

/-- R173. -/
def State.replyLimit (s : State) (channel limit : Nat) (rto : ReplyTo) : State :=
  match limitTaken channel limit with
  | some ch => (s.setLimit ch limit).refuse rto .ok [limit]
  | none => s.refuse rto .badField

/-- SET_REPLY_LIMIT. -/
def execSetReplyLimit (f : Hdr) (channel limit : Nat) (s : State) : Host.Outcome State Fault Refusal :=
  done (s.request .setReplyLimit f (fun t rto => t.replyLimit channel limit rto))

/-! ### Bursts and errors (R166 to R168, R177) -/

/-- R166: the rest of the burst is discarded, and one BURST_DROPPED notice is sent. -/
def State.dropBurst (s : State) : State :=
  if s.deaf then s
  else
    let t : State := { s with lif := { s.lif with burstDropped := true, burstErrored := true } }
    t.notice (.burstDropped s.lif.burstTaken)

/-- HEADER_CHECK_FAIL. -/
def execHeaderCheckFail (s : State) : Host.Outcome State Fault Refusal := .next s.dropBurst

/-- R167: the frame is discarded alone and answered FRAME_DAMAGED. -/
def State.damagedFrame (s : State) (ch : Channel) (tag : Nat) : State :=
  if s.deaf then s
  else
    let t : State := { s with lif := { s.lif with burstErrored := true } }
    t.send ch tag (.status .frameDamaged [])

/-- FRAME_DAMAGED. -/
def execFrameDamaged (ch : Channel) (tag : Nat) (s : State) : Host.Outcome State Fault Refusal := .next (s.damagedFrame ch tag)

/-- R166: the next burst begins. -/
def State.nextBurst (s : State) (count : Nat) : State :=
  { s with lif := { s.lif with erroredBursts := count, burstTaken := 0, burstErrored := false, burstDropped := false } }

/-- R168: the errored-burst count at the end of a burst. -/
def State.burstEnd (s : State) : State :=
  if s.takesFrames = false then s
  else if s.lif.burstErrored then
    if s.lif.erroredBursts + 1 = 32 then (s.nextBurst 0).raise 7 else s.nextBurst (s.lif.erroredBursts + 1)
  else s.nextBurst 0

/-- BURST_END. -/
def execBurstEnd (s : State) : Host.Outcome State Fault Refusal := done s.burstEnd

/-- R177 items 1 to 3: a frame whose kind names no message. -/
def State.unknownKind (s : State) (ch : Channel) (tag : Nat) : State :=
  if s.deaf then s
  else
    let t := s.frameTaken
    if ch = .media then t
    else if tag = 0 then t.send ch 0 (.status .badField [])
    else if ch = .control ∧ tag ∈ s.lif.tagsInUse then t.send ch tag (.status .tagInUse [])
    else t.send ch tag (.status .badKind [])

/-- UNKNOWN_KIND. -/
def execUnknownKind (ch : Channel) (tag : Nat) (s : State) : Host.Outcome State Fault Refusal := .next (s.unknownKind ch tag)

/-! ### Media requests (R174, R175) -/

/-- Kind codes of MEDIA (11.3). -/
def MediaKind.code : MediaKind → Nat
  | .read => 0
  | .write => 1
  | .fill => 2

/-- R174: the request leaves the table and its credit is returned. -/
def State.endRequest (s : State) (tag : Nat) : State :=
  { s with lif := { s.lif with
      outstanding := s.lif.outstanding.filter (fun q => q.tag != tag), freeCredits := s.lif.freeCredits + 1 } }

/-- R174: how a request ended: with its data, or with a fault or a timeout. -/
inductive MediaEnd where
  | ok (data : Block)
  | failed (cause : FaultCause)
deriving DecidableEq, Repr

/-- R174: a status that is neither OK nor MEDIA_FAULT, or a read without data, is handed on as MEDIA_FAULT. -/
def mediaEnd (k : MediaKind) (status : Nat) (data : Option Block) : MediaEnd :=
  if status ≠ 0 then .failed .mediaFault
  else match k, data with
    | .read, some b => .ok b
    | .read, none => .failed .mediaFault
    | _, _ => .ok .zeros

/-- The engine sees the end of its request; the end of a request of a dropped chunk or removed chain is
discarded (R102, R148). -/
def State.mediaEnded (s : State) (c : Client) (e : MediaEnd) : State :=
  match c, e with
  | .rekey n o, .ok b => if n = s.rke.chunk then s.confirmOp o b else s
  | .rekey n o, .failed x => if n = s.rke.chunk then s.failOp o x else s
  | .wipe k no i, .ok _ => s.chunkEnded k no i false
  | .wipe k no i, .failed _ => s.chunkEnded k no i true

/-- The outstanding request under a tag. -/
def State.request? (s : State) (tag : Nat) : Option MediaReq := s.lif.outstanding.find? (fun q => q.tag == tag)

/-- R174: a frame on MEDIA is matched by tag and kind; an unmatched one is discarded. -/
def State.mediaReply (s : State) (tag kind status : Nat) (data : Option Block) : State :=
  if s.deaf then s
  else
    let t := s.frameTaken
    match t.request? tag with
    | some q => if q.kind.code = kind then (t.endRequest tag).mediaEnded q.client (mediaEnd q.kind status data) else t
    | none => t

/-- MEDIA_REPLY. -/
def execMediaReply (tag kind status : Nat) (data : Option Block) (s : State) : Host.Outcome State Fault Refusal :=
  done (s.mediaReply tag kind status data)

/-- R174: the media timeout of a request expires. -/
def State.mediaTimeout (s : State) (tag : Nat) : State :=
  match s.request? tag with
  | some q => (s.endRequest tag).mediaEnded q.client (.failed .mediaTimeout)
  | none => s

/-- MEDIA_TIMEOUT. -/
def execMediaTimeout (tag : Nat) (s : State) : Host.Outcome State Fault Refusal := done (s.mediaTimeout tag)

/-- R175: the arbiter grants a free credit: the injected chain, the sweep, the normal chain. -/
def State.grantCredit (s : State) : State :=
  if s.lif.freeCredits = 0 then s
  else match s.fillRequest .injected, s.sweepRequest, s.fillRequest .normal with
    | some q, _, _ => s.issueFill .injected q
    | none, some o, _ => s.issueSweep o
    | none, none, some q => s.issueFill .normal q
    | none, none, none => s

/-- MEDIA_CREDIT_GRANT. -/
def execMediaCreditGrant (s : State) : Host.Outcome State Fault Refusal := .next s.grantCredit

end Sys2Proof.Machine
end

