-- ==== Sys2Proof/Machine/SecureStore.lean ====
section
/-! DEFINITION. STORE_WRITE_COMPLETE (R155): the write in service becomes durable and every requester learns
of it, each by its own rule. -/

namespace Sys2Proof.Machine

/-- R153: the content of a unit after a write of it. -/
def Units.store (u : Units) : StoreUnit → Record → Units
  | .cred i, .cred c => { u with cred := u.cred.set i (some c) }
  | .key k, .key c => { u with key := u.key.set k (some c) }
  | .range r, .range e => { u with range := u.range.set r (some e) }
  | .stage, .stage l => { u with stage := some l }
  | .evset i, .evset e => { u with evset := u.evset.set i (some e) }
  | .response, .response r => { u with response := some r }
  | .wipe, .wipe w => { u with wipe := some w }
  | .rekeyQueue, .rekeyQueue q => { u with rekeyQueue := some q }
  | .rekeyProgress, .rekeyProgress p => { u with rekeyProgress := some p }
  | .device, .device d => { u with device := some d }
  | _, _ => u

/-- R30: the erasure of a slot completes, and the slot is EMPTY. -/
def State.erasedSlot (s : State) (k : Nat) : State :=
  if (s.slot k).state = .retiring ∧ (s.slot k).erasing = true then s.mapSlot k (fun _ => KeySlot.blank) else s

/-- R49, R51: the count is durable; BAD_PROOF is sent, and a blocking failure raises ATTEMPTS. -/
def State.badProofDone (s : State) (rto : ReplyTo) (blocked : Bool) : State :=
  let t := s.refuse rto .badProof
  if blocked then t.raise 3 else t

/-- R23, R25: a write of the start-up's commit work completes; the STAGE write is the last. -/
def State.startCommitDone (s : State) : State :=
  match s.rtb.startCommit with
  | some c =>
    if 1 < c.left then { s with rtb := { s.rtb with startCommit := some { c with left := c.left - 1 } } }
    else if c.last then { s with rtb := { s.rtb with startCommit := none } }
    else
      let t : State := { s with rtb := { s.rtb with startCommit := some { left := 1, last := true } } }
      t.write .stage [.startCommit]
  | none => s

/-- R155: a requester of a completed write proceeds by its own rule. -/
def State.signal (s : State) : Waiter → State
  | .reply rto b => s.answer rto b
  | .badProof rto blocked => s.badProofDone rto blocked
  | .commitWave => s.commitWaveDone
  | .deferredCommit rto => s.deferredDone rto
  | .startCommit => s.startCommitDone
  | .credWave i => s.credWaveDone i
  | .provision => s.provisionDone
  | .bindPlatform rto t => s.bound rto t
  | .evidenceSource rto i e => s.sourceSet rto i e
  | .evidenceTable rto p a t => s.tableSet rto p a t
  | .erased k => s.erasedSlot k
  | .wipeGiven l => s.wipeGiven l
  | .chainDurable k no => s.chainDurable k no
  | .stepWork k no => s.stepWorkDone k no
  | .fillProgress k no => s.fillProgressDone k no
  | .chainEnd k no => s.chainEnded k no
  | .rekeySeq q n => s.seqDone q n
  | .chunkStaged c => s.chunkStaged c
  | .chunkDone c => s.chunkDone c
  | .rekeyResumed n => s.rekeyResumed n
  | .rekeyRecovered => s.endRecovery

/-- R155: the content is durable in its unit, and the damage mark is cleared. -/
def State.durable (s : State) (w : Write) : State :=
  { s with sst := { s.sst with
      units := s.sst.units.store w.unit w.content, marks := s.sst.marks.filter (fun u => u != w.unit), serving := none } }

/-- R155: the write in service completes. Its requesters are signalled in the order in which they joined it; the spec
gives none among them (the model's choice, log 6). -/
def State.writeDone (s : State) : State :=
  match s.sst.serving with
  | none => s
  | some w => (w.waiters.foldl State.signal (s.durable w)).flushParts

/-- STORE_WRITE_COMPLETE. -/
def execStoreWriteComplete (s : State) : Host.Outcome State Fault Refusal := done s.writeDone

end Sys2Proof.Machine
end

