-- ==== Sys2Proof/Machine/Power.lean ====
section
/-! DEFINITION. The power states (chapter 9): STANDBY_ENTER, STANDBY_EXIT, POWER_DOWN, the ends of their
drains, the supplies of the part and the removal of the main supply. -/

namespace Sys2Proof.Machine

/-! ### Entering standby (R160, R162) -/

/-- R160: what takes effect when the power state becomes STANDBY: the sweep pauses (R108), the ranges with
standby_lock are locked and unloaded (R6). -/
def State.enterStandby (s : State) : State :=
  let t : State := { s with sst := { s.sst with power := .standby } }
  let t := t.pauseSweep false
  (t.rangesWhere (fun f => f.standbyLock)).foldl (fun u r => u.lockRange true true r) t

/-- A stream context is OPEN (R95). -/
def State.contextsOpen (s : State) : Bool := !s.openContexts.isEmpty

/-- Set the drain state. -/
def State.setDrain (s : State) (d : Drain) : State := { s with sst := { s.sst with drain := d } }

/-- R160. -/
def State.standbyEnter (s : State) (rto : ReplyTo) : State :=
  if s.sst.drain ≠ .none then s.refuse rto .busy
  else if s.sst.power = .standby then s.refuse rto .done
  else if s.contextsOpen then s.refuse rto .busy
  else s.enterStandby.setDrain (.standby rto)

/-- STANDBY_ENTER. -/
def execStandbyEnter (f : Hdr) (s : State) : Host.Outcome State Fault Refusal :=
  done (s.request .standbyEnter f (fun t rto => t.standbyEnter rto))

/-- R162. -/
def State.powerDown (s : State) (rto : ReplyTo) : State :=
  if s.contextsOpen then s.refuse rto .busy
  else if s.sst.drain ≠ .none then s.refuse rto .busy
  else if s.sst.downMark then s.refuse rto .done
  else
    let t := if s.sst.power = .standby then s else s.enterStandby
    { t with sst := { t.sst with downMark := true, drain := .powerDown rto } }

/-- POWER_DOWN. -/
def execPowerDown (f : Hdr) (s : State) : Host.Outcome State Fault Refusal :=
  done (s.request .powerDown f (fun t rto => t.powerDown rto))

/-! ### The end of a drain (R160, R162) -/

/-- A chain's step of another kind than FILL is in progress. -/
def Chain.working (c : Option Chain) : Bool :=
  match c with
  | some c => c.holdsBack
  | none => false

/-- R160: a FILL chunk is outstanding. -/
def State.fillOut (s : State) : Bool :=
  s.lif.outstanding.any (fun q => match q.client with
    | .wipe _ _ _ => true
    | .rekey _ _ => false)

/-- R160: the conditions that end a drain hold together. -/
def State.drained (s : State) : Bool :=
  s.rke.phase == .idle && s.commitIdle && !s.fillOut && !Chain.working s.wpe.normal && !Chain.working s.wpe.injected &&
    s.storeIdle

/-- R160: the entry drain ends, and DONE is sent. -/
def State.standbyDrainEnd (s : State) : State :=
  match s.sst.drain with
  | .standby rto => if s.drained then (s.setDrain .none).refuse rto .done else s
  | _ => s

/-- STANDBY_DRAIN_END. -/
def execStandbyDrainEnd (s : State) : Host.Outcome State Fault Refusal := done s.standbyDrainEnd

/-- R162: the power-down drain ends, and DONE is sent. -/
def State.powerDownDrainEnd (s : State) : State :=
  match s.sst.drain with
  | .powerDown rto => if s.drained then (s.setDrain .none).refuse rto .done else s
  | _ => s

/-- POWER_DOWN_DRAIN_END. -/
def execPowerDownDrainEnd (s : State) : Host.Outcome State Fault Refusal := done s.powerDownDrainEnd

/-! ### Leaving standby (R161) -/

/-- R6, R70: the reseal. -/
def State.reseal (s : State) : State :=
  if s.rtb.resealOnWake = true ∧ s.btc.state = .opened then
    let t := (s.rangesWhere (fun f => f.powerLock)).foldl (fun u r => u.lockRange true true r) s
    { t with btc := { t.btc with state := .sealed, unsealed := false } }
  else s

/-- R6: the reopen. -/
def State.reopen (s : State) : State :=
  if s.lockdown = true ∨ s.btc.state = .erased then s
  else (s.rangesWhere (fun f => f.standbyLock && !f.powerLock)).foldl State.unlockDevice s

/-- R108: a PAUSED head resumes if its RAK is LOADED. -/
def State.resumeHeadJob (s : State) : State :=
  match s.headJob with
  | some j => s.resumeIfPaused j.range
  | none => s

/-- R161: the part wakes. -/
def State.wake (s : State) : State :=
  let t : State := { s with sst := { s.sst with power := .active, downMark := false } }
  let t := t.reseal.reopen
  let t : State := { t with rsu := { t.rsu with absence := 0 } }
  t.resumeHeadJob

/-- R161. -/
def State.standbyExit (s : State) (rto : ReplyTo) : State :=
  if s.sst.drain ≠ .none then s.refuse rto .busy
  else if s.sst.power = .standby then (s.wake.refuse rto .ok).settleDrain
  else s.refuse rto .ok

/-- STANDBY_EXIT. -/
def execStandbyExit (f : Hdr) (s : State) : Host.Outcome State Fault Refusal :=
  done (s.request .standbyExit f (fun t rto => t.standbyExit rto))

/-! ### The supplies (R130, R156, R159) -/

/-- RETENTION_SUPPLY_WARNING: in OFF the domain adds SUPPLY to the latch (R130); with the main supply present
the retention supply plays no part (9.5). -/
def execRetentionSupplyWarning (s : State) : Host.Outcome State Fault Refusal :=
  .next (if s.sst.power = .off then s.latch 6 else s)

/-- RETENTION_SUPPLY_LOST: OFF becomes DEAD, and the latch is lost (R159, R130). -/
def State.retentionLost (s : State) : State :=
  let t : State := { s with sst := { s.sst with retention := false } }
  if s.sst.power = .off then { t with sst := { t.sst with power := .dead }, rsu := { t.rsu with latch := [] } } else t

/-- RETENTION_SUPPLY_LOST. -/
def execRetentionSupplyLost (s : State) : Host.Outcome State Fault Refusal := .next s.retentionLost

/-- RETENTION_SUPPLY_RETURN: DEAD stays DEAD (R159). -/
def execRetentionSupplyReturn (s : State) : Host.Outcome State Fault Refusal :=
  .next { s with sst := { s.sst with retention := true } }

/-- R156: the unit of a write that is cut reads as damaged. So does the DEVICE unit where the write of wave 2 of a
PROVISION is cut in service: R63 then chooses ERASED, where R66 speaks of a boot field left BLANK (the model's choice,
log 40). -/
def Units.cut (u : Units) : StoreUnit → Units
  | .cred i => { u with cred := u.cred.set i none }
  | .key k => { u with key := u.key.set k none }
  | .range r => { u with range := u.range.set r none }
  | .stage => { u with stage := none }
  | .evset i => { u with evset := u.evset.set i none }
  | .response => { u with response := none }
  | .wipe => { u with wipe := none }
  | .rekeyQueue => { u with rekeyQueue := none }
  | .rekeyProgress => { u with rekeyProgress := none }
  | .device => { u with device := none }

/-- R156: the store stops: the write in service is cut, the others are lost. -/
def State.cutStore (s : State) : State :=
  { s with sst := { s.sst with
      units := (match s.sst.serving with
        | some w => s.sst.units.cut w.unit
        | none => s.sst.units)
      queue := [], waiting := [], serving := none } }

/-- 9.5: in OFF and DEAD only the store and the latch hold state; what the other blocks held is gone (log 13). -/
def State.blackout (s : State) : State :=
  { s with
    lif := .blank s.lif.session
    cru := { slots := s.cru.slots.map (fun x => { x with backoff := none }), challenges := List.replicate 4 none, ops := [] }
    btc := { s.btc with unsealed := false, window := none, provisioning := none }
    kst := { slots := s.kst.slots.map (fun x => { x with users := 0, copy := none, erasing := false }),
             loads := List.replicate 16 .notLoaded, hold := none, reservation := 0 }
    rtb := { s.rtb with commit := .idle, preparing := [], startCommit := none }
    dpu := .blank
    rke := .blank s.rke.serial s.rke.chunk
    rsu := { s.rsu with timer := none, alarm := none, absence := 0 } }

/-- R156, R159: the main supply is removed. -/
def State.mainRemoved (s : State) : State :=
  if s.sst.power.supplied then
    let t := s.cutStore.blackout
    { t with sst := { t.sst with
        power := if s.sst.retention then .off else .dead, drain := .none, downMark := false, ready := false } }
  else s

/-- MAIN_SUPPLY_REMOVED. -/
def execMainSupplyRemoved (s : State) : Host.Outcome State Fault Refusal := .next s.mainRemoved

end Sys2Proof.Machine
end

