-- ==== Sys2Proof/Machine/StartUp.lean ====
section
/-! DEFINITION. The start-up, warm or cold (R163): the store is read, every block rebuilds its state (R44,
R41, R24, R114, R135, R152), the boot state is chosen (R63), and what follows the choice is done (R5, R41,
R131). START_UP does steps 1 to 4 in one step (log 12); START_UP_COMPLETE is step 5. -/

namespace Sys2Proof.Machine

/-! ### Step 1: the store -/

/-- R36: the material of a stored key that no longer unwraps. -/
def KeyRecord.spoil (k : KeyRecord) : KeyRecord :=
  { k with material := k.material.map (fun (m : Material) => { m with whole := false }) }

/-- R32: the envelopes of a stored range that no longer open. -/
def Entry.spoil : Entry → Entry
  | .enabled f => .enabled { f with envelopes := f.envelopes.map (fun (e : Envelope) => { e with whole := false }) }
  | e => e

/-- What the surroundings did to the store's content since it was written (R32, R36). -/
def Units.spoil (x : Units) (u : StartInputs) : Units :=
  { x with
    key := u.badKeys.foldl (fun l k => l.modify k (fun c => c.map KeyRecord.spoil)) x.key
    range := u.badEnvelopes.foldl (fun l r => l.modify r (fun c => c.map Entry.spoil)) x.range }

/-- The units of a list that read as damaged. -/
def damagedIn {α : Type} (mk : Nat → StoreUnit) (l : List (Option α)) : List StoreUnit :=
  ((List.range l.length).filter (fun i => ((l[i]?).getD none).isNone)).map mk

/-- A single unit, where it reads as damaged. -/
def damagedOne {α : Type} (u : StoreUnit) (c : Option α) : List StoreUnit := if c.isNone then [u] else []

/-- R157: every unit that reads as damaged. -/
def Units.damaged (x : Units) : List StoreUnit :=
  damagedIn .cred x.cred ++ damagedIn .key x.key ++ damagedIn .range x.range ++ damagedOne .stage x.stage ++
    damagedIn .evset x.evset ++ damagedOne .response x.response ++ damagedOne .wipe x.wipe ++
    damagedOne .rekeyQueue x.rekeyQueue ++ damagedOne .rekeyProgress x.rekeyProgress ++ damagedOne .device x.device

/-- R63 case 1: the DEVICE record that a damaged one becomes. -/
def DeviceRecord.lost (label : Verifier) : DeviceRecord := { DeviceRecord.blank label 0 with boot := .erased }

/-- R63, R153: the content of the DEVICE unit as the blocks take it. -/
def State.storedDevice (s : State) : DeviceRecord := s.sst.units.device.getD (.lost s.sst.labelCopy)

/-- R163 step 1: the timebase begins at 0, the marks are set, and the part is ACTIVE without a drain; the
Data Path has no context (R97) and the Link Interface waits for LINK_START (R163 step 2). -/
def State.readStore (s : State) (u : StartInputs) : State :=
  let x := s.sst.units.spoil u
  { s with
    lif := .blank (s.lif.session + 1)
    dpu := .blank
    sst := { s.sst with
      units := x, marks := x.damaged, queue := [], waiting := [], serving := none, lastDevice := s.storedDevice
      seconds := 0, power := .active, drain := .none, downMark := false, ready := false } }

/-! ### Credential Unit (R44) -/

/-- R44 item 2: the slot of a damaged record. -/
def CredRecord.lost : CredRecord :=
  { state := .disabled, verifier := none, wrap := none, failures := 0, limit := Config.defaultLimit, damaged := true }

/-- R44 items 1 to 3. -/
def credOf (c : Option CredRecord) : CredSlot :=
  let r := c.getD .lost
  { record := r, backoff := if r.state = .enabled ∧ 3 ≤ r.failures then some (backoffPeriod r.failures) else none }

/-- R44. -/
def State.rebuildCreds (s : State) : State :=
  let t : State := { s with cru := { slots := s.sst.units.cred.map credOf, challenges := List.replicate 4 none, ops := [] } }
  (damagedIn StoreUnit.cred s.sst.units.cred).foldl (fun t u => t.write u []) t

/-! ### Key Store and Range Table, from their records (R41 steps 1 to 3, R24) -/

/-- R41 step 2: a slot from its record; a damaged record gives EMPTY. -/
def slotOf (c : Option KeyRecord) : KeySlot :=
  let r := c.getD .blank
  { state := r.state, owner := r.owner, material := r.material, users := 0, copy := none, erasing := false }

/-- R27, R41 step 1: the START key is loaded. -/
def KeySlot.load (x : KeySlot) : KeySlot := { x with copy := x.material.map (fun m => m.key) }

/-- R41 steps 1 and 2. -/
def State.rebuildKeys (s : State) : State :=
  { s with kst := { slots := (s.sst.units.key.map slotOf).modify Config.startSlot KeySlot.load,
                    loads := List.replicate 16 .notLoaded, hold := none, reservation := 0 } }

/-- R9: the staged list of a damaged record is empty, and the record is written. -/
def State.rebuildStage (s : State) : State :=
  match s.sst.units.stage with
  | some l => { s with rtb := { s.rtb with staged := l } }
  | none =>
    let t : State := { s with rtb := { s.rtb with staged := .blank } }
    t.write .stage []

/-- R24 items 1 to 3; reseal_on_wake is read from the DEVICE record. -/
def State.rebuildTable (s : State) : State :=
  let t : State := { s with rtb := { s.rtb with
      entries := s.sst.units.range.map (fun c => c.getD .damaged)
      resealOnWake := s.storedDevice.resealOnWake, commit := .idle
      preparing := [], startCommit := none } }
  t.rebuildStage

/-- The slot of an envelope is a user's and its record was damaged (R43). -/
def State.lostUser (s : State) (i : Nat) : Bool := !custodian i && (s.cred i).record.damaged

/-- R39: of the forms of an envelope, the one of its slot's CRED record, or the newer one. -/
def CredRecord.form (c : CredRecord) (l : List WrapValue) : List WrapValue :=
  match c.wrap with
  | some w => if w ∈ l then [w] else l.getLast?.toList
  | none => l.getLast?.toList

/-- R39: an envelope found in two forms is resolved. One in a single form of a user slot whose record was damaged is
dropped: a range that lists such a slot holds no envelope for it (R31, R43, log 38). So the newer form, kept for a
damaged record at the start-up that finds the two forms, is dropped by the next one, unless the slot was set between
them (the model's choice, log 38). -/
def State.resolveForms (s : State) (e : Envelope) : Option Envelope :=
  match e.holder with
  | .cred i =>
    if 1 < e.wraps.length then some { e with wraps := (s.cred i).record.form e.wraps }
    else if s.lostUser i then none
    else some e
  | .device => some e

/-- R39: the envelopes of range r are resolved, and its record is written when one changed. -/
def State.resolveRange (s : State) (r : Nat) : State :=
  match s.fields r with
  | some f =>
    let l := f.envelopes.filterMap s.resolveForms
    if l = f.envelopes then s else (s.mapFields r (fun f => { f with envelopes := l })).write (.range r) []
  | none => s

/-- R41 step 3: envelopes of the table, and of prepared material, are resolved. -/
def State.resolveEnvelopes (s : State) : State :=
  let t : State := { s with rtb := { s.rtb with staged := { s.rtb.staged with prepared := { s.rtb.staged.prepared with
      envelopes := s.rtb.staged.prepared.envelopes.filterMap (fun q => (s.resolveForms q.2).map (fun e => (q.1, e))) } } } }
  (List.range 16).foldl State.resolveRange t

/-! ### Rekey Engine (R114, R115) -/

/-- A job known by its range alone. -/
def Job.queued (r : Nat) : Job :=
  { range := r, state := .queued, copy := none, serial := none, newKey := none, fault := none }

/-- The active job as recovered. -/
def ActiveJob.job (a : ActiveJob) (st : JobState) (fault : Option FaultCause) : Job :=
  { range := a.range, state := st, copy := none, serial := some a.serial, newKey := some a.newKey, fault := fault }

/-- R114: the jobs of the queue part behind the active one. -/
def ActiveJob.behind (a : ActiveJob) (rs : List Nat) : List Job := (rs.filter (fun r => r != a.range)).map Job.queued

/-- R114: the Range Table takes the active job's new_key_slot and watermark. -/
def State.takeSplit (s : State) (a : ActiveJob) (w : Nat) : State :=
  s.mapFields a.range (fun f => { f with split := some { newKey := a.newKey, watermark := w } })

/-- R114: the recorded chunk of phase COPYING is to be copied again after LINK_START. -/
def ProgressJob.recovery (j : ProgressJob) : Recovery :=
  match j.copying, j.chunk with
  | true, some (f, n) => .copy f n
  | _, _ => .none

/-- R114, R115: the active job that is not completed, from the progress part: damaged, of this job, or of another. While
the scratch header is still to be judged the job is PAUSED: REKEY_STATUS shows it so and REKEY_RESUME takes it; the spec
gives it no state in that time. Nor does R114 or R115 give the watermark that the range entry holds until then, which
REKEY_STATUS and the full RANGE_LIST show: it is the range's first block, and not the RANGE record's copy (the model's
choices, log 39). -/
def State.recoverJob (s : State) (a : ActiveJob) (rest : List Job) (p : Option (Option ProgressJob)) : State :=
  match p with
  | none =>
    let t := s.takeSplit a (s.firstBlock a.range)
    { t with rke := { t.rke with queue := a.job .paused none :: rest, recovery := .header, rangeHeld := true } }
  | some q =>
    match q.filter (fun j => j.serial == a.serial) with
    | some j =>
      let t := s.takeSplit a j.watermark
      { t with rke := { t.rke with queue := a.job j.state j.fault :: rest, recovery := j.recovery } }
    | none =>
      let t := s.takeSplit a (s.firstBlock a.range)
      { t with rke := { t.rke with queue := a.job .sweeping none :: rest } }

/-- R114, job already completed: the completion writes that had not been made are made, and the job leaves the queue
with the last of them (R105); no REKEY_DONE is sent. -/
def State.finishRecovered (s : State) (a : ActiveJob) (rest : List Job) : State :=
  let t : State := { s with rke := { s.rke with
      queue := a.job .sweeping none :: rest
      finished := some { range := a.range, serial := a.serial, watermark := 0, silent := true }
      seq := some .doneProgress } }
  t.writeProgressPart [.rekeySeq .doneProgress a.serial]

/-- The range entry's key_slot already equals the job's new_key_slot (R114). -/
def State.completedAlready (s : State) (a : ActiveJob) : Bool :=
  match s.fields a.range with
  | some f => f.keySlot == a.newKey
  | none => false

/-- R114: the jobs from a queue part; a damaged progress part without an active job is rewritten. A RANGE record that
holds new_key_slot and watermark while the queue part names no active job keeps both fields, without a job: R114 speaks
of such a record only where both parts are damaged (the model's choice, log 39). -/
def State.recoverJobs (s : State) (q : QueuePart) (p : Option (Option ProgressJob)) : State :=
  let t : State := { s with rke := { s.rke with serial := q.serial } }
  match q.active with
  | some a => if t.completedAlready a then t.finishRecovered a (a.behind q.ranges) else t.recoverJob a (a.behind q.ranges) p
  | none =>
    let t : State := { t with rke := { t.rke with queue := q.ranges.map Job.queued } }
    if p.isNone then t.writeProgressPart [] else t

/-- R114: the queue part rebuilt from the progress part. -/
def queueFrom (j : Option ProgressJob) : QueuePart :=
  match j with
  | some j => { serial := j.serial, ranges := [j.range],
                active := some { range := j.range, serial := j.serial, newKey := j.newKey } }
  | none => { serial := 0, ranges := [], active := none }

/-- R114, both parts damaged: a range with a new_key_slot has key_lost set, and its record is written. -/
def State.loseSplit (s : State) (r : Nat) : State :=
  match s.fields r with
  | some f => if f.split.isSome then s.loseKey r else s
  | none => s

/-- R114. -/
def State.rebuildRekey (s : State) : State :=
  let t : State := { s with rke := .blank 0 (s.rke.chunk + 1) }
  match s.sst.units.rekeyQueue, s.sst.units.rekeyProgress with
  | some q, p => t.recoverJobs q p
  | none, some j => (t.recoverJobs (queueFrom j) (some j)).writeQueuePart []
  | none, none => (((List.range 16).foldl State.loseSplit t).writeQueuePart []).writeProgressPart []

/-! ### Damaged KEY records (R36, R157) -/

/-- The pool slots whose KEY records read as damaged. -/
def State.damagedSlots (s : State) : List Nat :=
  (List.range 23).filter (fun k => ((s.sst.units.key[k]?).getD none).isNone)

/-- R1, R157: an ENABLED range that names a slot whose KEY record is damaged has key_lost set, and is written. -/
def State.loseNamed (s : State) (r : Nat) : State :=
  match s.fields r with
  | some f => if f.named.any (fun k => s.damagedSlots.contains k) then s.loseKey r else s
  | none => s

/-- R36, R157: every ENABLED range. -/
def State.loseAllNamed (s : State) : State := (List.range 16).foldl State.loseNamed s

/-- R36, R157: the slots whose KEY records are damaged are written EMPTY, and the ranges that name them have lost
their keys. -/
def State.loseKeys (s : State) : State := (s.damagedSlots.foldl (fun t k => t.write (.key k) []) s).loseAllNamed

/-! ### Deferred and interrupted commits (R23, R25) -/

/-- The prepared material has what range r needs: its key slot, and its RAK where it is new. -/
def Prepared.serves (m : Prepared) (p : Plan) (r : Nat) : Bool :=
  m.slots.any (fun q => q.1 == r) &&
    (!p.remade.contains r || m.envelopes.any (fun q => q.1 == r && q.2.holder == .cred 0))

/-- R23: a range whose recovered job is SWEEPING, PAUSED or FAULTED, with key_lost off; as in R14 a DAMAGED entry is
not among them (the model's choice, log 20), nor is a job that a start-up found completed (R114). -/
def State.recoveredBusy (s : State) (r : Nat) : Bool := s.rke.finished.isNone && s.busyRange s.planStart r

/-- R23: the check of a deferred list against the stored table (log 20). -/
def State.deferredHolds (s : State) (es : List Edit) (m : Prepared) : Bool :=
  es.all (fun e => !(e.structural && s.recoveredBusy e.range)) &&
  m.slots.all (fun q => (s.slot q.2).state == .live) &&
  (s.plan es).needKeys.all (fun r => m.serves (s.plan es) r)

/-- R25: a range whose entry was damaged after its material was prepared stays as it is (log 20). -/
def Plan.keepLost (p : Plan) (s : State) (m : Prepared) : Plan :=
  (p.needKeys.filter (fun r => !m.serves p r)).foldl (fun q r =>
    match s.entry r, q.entry r with
    | .enabled o, .enabled f =>
      { q.set r (.enabled { f with keyLost := o.keyLost, split := o.split }) with
        repaired := q.repaired.filter (fun x => x != r), rekeyed := q.rekeyed.filter (fun x => x != r) }
    | e, _ => { q.set r e with remade := q.remade.filter (fun x => x != r), repaired := q.repaired.filter (fun x => x != r) }) p

/-- R23, R25: the list is installed from its prepared material, and the first writes are placed; the STAGE
write follows them. -/
def State.startApply (s : State) (p : Plan) (l : StagedList) : State :=
  let i := s.install p l.prepared (namedRanges l.edits)
  let t := i.1
  let resealed := p.reseal != s.rtb.resealOnWake
  let us := waveTwo i.2.1 i.2.2
  let n := us.length + (if resealed then 1 else 0)
  let t : State := { t with rtb := { t.rtb with
      staged := .blank, startCommit := some { left := if n = 0 then 1 else n, last := n == 0 } } }
  if n = 0 then t.write .stage [.startCommit]
  else
    let t := t.writeAll us .startCommit
    if resealed then t.writeDevice (fun d => { d with resealOnWake := p.reseal }) [.startCommit] else t

/-- R23: the check failed: the list is kept with mark NONE, and the prepared slots go RETIRING. -/
def State.startReject (s : State) (l : StagedList) : State :=
  let t := s.retireAll (l.prepared.slots.map (fun q => q.2))
  let t : State := { t with rtb := { t.rtb with
      staged := { edits := l.edits, mark := .none, prepared := { slots := [], envelopes := [] } }
      startCommit := some { left := 1, last := true } } }
  t.write .stage [.startCommit]

/-- R23, R25. -/
def State.settleStaged (s : State) : State :=
  let l := s.rtb.staged
  match l.mark with
  | .none => s
  | .deferred => if s.deferredHolds l.edits l.prepared then s.startApply (s.plan l.edits) l else s.startReject l
  | .applying => s.startApply ((s.plan l.edits).keepLost s l.prepared) l

/-- R25, R41 step 4: a LIVE slot that nothing names, and whose owner is not DAMAGED, goes RETIRING; every
RETIRING slot has its erasure placed. -/
def State.handoffSlot (s : State) (k : Nat) : State :=
  let x := s.slot k
  let kept : Bool := s.tableSlots.contains k || (match x.owner with
    | some r => s.entry r == .damaged
    | none => false)
  if x.state = .live ∧ kept = false then s.retire k else s.settleSlot k

/-- R41 step 4. -/
def State.handoff (s : State) : State := (List.range 23).foldl State.handoffSlot s

/-! ### Response Unit and Wipe Engine (R135 steps 1 to 3, R152) -/

/-- R135 step 2: the incident record of a damaged unit. -/
def ResponseRecord.lost : ResponseRecord :=
  { level := .lock, firstCause := some 255, lastCause := some 255, pending := none, wipeLevel := .calm }

/-- R123: the timer of stored pending fields runs with the full delay. -/
def Pending.timer (p : Pending) : Timer := { pending := p, remaining := p.delay }

/-- R135 steps 1 and 2, R117, R128: the settings, the incident record, the timers and a fresh beacon nonce. -/
def State.rebuildResponse (s : State) : State :=
  let x := s.sst.units
  let r := x.response.getD .lost
  let d := s.storedDevice
  let t : State := { s with rsu :=
    { level := r.level, firstCause := r.firstCause, lastCause := r.lastCause, timer := r.pending.map Pending.timer
      wipeLevel := r.wipeLevel, settings := x.evset.map (fun c => c.getD .blank), purgeAllowed := d.purgeAllowed
      alarmMinimum := d.alarmMinimum, absenceThreshold := d.absenceThreshold, absence := 0, alarm := none
      beacon := { issue := s.fresh }, latch := s.rsu.latch, startLatch := [] } }
  let t := (damagedIn StoreUnit.evset x.evset).foldl (fun t u => t.write u []) t.bump
  if x.response.isNone then t.write .response [] else t

/-- R152 item 1: a chain from its record. -/
def ChainRecord.chain (c : ChainRecord) (no : Nat) : Chain :=
  { Chain.make c.origin c.steps no with closing := c.closing, failedChunks := c.failedChunks, durable := true }

/-- R152 items 1 and 2. -/
def State.rebuildChains (s : State) : State :=
  let t : State := { s with wpe := { s.wpe with normal := none, injected := none } }
  match s.sst.units.wipe with
  | some w =>
    let a := s.wpe.nextNo
    let b := if w.normal.isSome then a + 1 else a
    { t with wpe := { normal := w.normal.map (fun c => c.chain a), injected := w.injected.map (fun c => c.chain b)
                      nextNo := if w.injected.isSome then b + 1 else b } }
  | none => t.createChain .injected .storeDamage [.cutKeys] []

/-- R135 step 3, R152 item 4: the steps of the levels above wipe_level are given again. -/
def State.giveAgain (s : State) : State :=
  let t := if 3 ≤ s.rsu.level.number ∧ s.rsu.wipeLevel.number < 3 then s.giveStep false .responseErase [.wipeGiven .erase] else s
  if 4 ≤ s.rsu.level.number ∧ s.rsu.wipeLevel.number < 4 then t.giveStep true .responsePurge [.wipeGiven .purge] else t

/-- R152: the chains before the boot state is chosen. -/
def State.rebuildWipe (s : State) : State :=
  let t := s.rebuildChains
  let t := if s.sst.units.device.isNone then t.giveStep false .storeDamage [] else t
  t.giveAgain

/-! ### Boot Control (R63, R64) -/

/-- R63. -/
def State.bootChoice (s : State) (d : DeviceRecord) : BootState :=
  match d.boot with
  | .blank => .blank
  | .erased => .erased
  | .provisioned =>
    if s.wpe.normal.isSome ∨ s.wpe.injected.isSome then .erased else if s.lockdown then .quarantine else .sealed

/-- R63: Boot Control takes its fields and chooses the boot state; a damaged DEVICE record is written. Where the list of
a deferred or interrupted commit has set reseal_on_wake at this start-up (R23, R25), the list's value stands in memory and
in that write; R63 would set it off (the model's choice, log 20). -/
def State.chooseBoot (s : State) : State :=
  let d := s.storedDevice
  let t : State := { s with
    btc := { state := s.bootChoice d, unsealed := false, imageSize := d.imageSize, token := d.token
             labelVerifier := d.labelVerifier, hello := if d.token.isSome then .notDue else .none
             window := none, provisioning := none } }
  if s.sst.units.device.isNone then t.writeDevice (fun x => x) [] else t

/-- R64: range r holds a custodian envelope. -/
def State.custodianTrace (s : State) (r : Nat) : Bool :=
  match s.fields r with
  | some f => f.envelopes.any (fun e => e.holder == .cred 0 || e.holder == .cred 1)
  | none => false

/-- R64 item 2: the custodian envelopes of range r are deleted. -/
def State.dropCustodians (s : State) (r : Nat) : State :=
  if s.custodianTrace r then
    (s.mapFields r (fun f => { f with envelopes := f.envelopes.filter (fun e => !(e.holder == .cred 0 || e.holder == .cred 1)) })).write
      (.range r) []
  else s

/-- R64: the trace of an interrupted PROVISION. -/
def State.provisionTrace (s : State) : Bool :=
  (s.cred 0).record.state != .empty || (s.cred 1).record.state != .empty || (List.range 16).any s.custodianTrace

/-- R64. -/
def State.undoProvision (s : State) : State :=
  if s.btc.state = .blank ∧ s.provisionTrace = true then
    let t := (s.mapCred 0 (fun _ => { record := .blank, backoff := none })).mapCred 1 (fun _ => { record := .blank, backoff := none })
    (List.range 16).foldl State.dropCustodians ((t.write (.cred 0) []).write (.cred 1) [])
  else s

/-! ### After the choice (R163 step 4) -/

/-- R5: the ranges with power_lock off are open in BLANK and SEALED; every other is locked both ways. -/
def State.startLocks (s : State) : State :=
  let t := s.lockAll
  match s.btc.state with
  | .blank | .sealed => (t.rangesWhere (fun f => !f.powerLock)).foldl State.unlockDevice t
  | _ => t

/-- R114: the recovered job is settled, unless its scratch header is still to be judged (R115). -/
def State.startSettle (s : State) : State := if s.rke.recovery = .header then s else s.settleJob

/-- R131: the sources taken from the latch, in ascending order. -/
def State.latched (s : State) (warm : Bool) (edges : List Nat) : List Nat :=
  let l := if warm then s.rsu.latch ++ edges else if s.btc.state = .blank then edges else 6 :: edges
  [1, 2, 6].filter (fun i => l.contains i)

/-- R131: each source taken is one arrival, and the latch is emptied. -/
def State.takeLatch (s : State) (warm : Bool) (edges : List Nat) : State :=
  let l := s.latched warm edges
  let t := l.foldl State.raise s
  { t with rsu := { t.rsu with latch := [], startLatch := l } }

/-! ### The start-up -/

/-- R163 step 2: the blocks rebuild their state. A list that the start-up installs may make a range name a slot whose
KEY record is damaged, so the loss of keys is seen again after it (R1, R25, R36). -/
def State.rebuild (s : State) : State :=
  let t := s.rebuildCreds.rebuildKeys.rebuildTable.resolveEnvelopes
  let t := t.rebuildRekey.loseKeys
  let t := t.settleStaged.loseAllNamed.handoff
  t.rebuildResponse.rebuildWipe

/-- R163: steps 1 to 4 of a start-up. -/
def State.startUp (s : State) (u : StartInputs) : State :=
  let warm := s.sst.power == .off
  let t := (s.readStore u).rebuild
  let t := t.chooseBoot.undoProvision
  (t.startLocks.startSettle).takeLatch warm u.edges

/-- START_UP: the main supply returns in OFF (warm) or DEAD (cold). -/
def execStartUp (u : StartInputs) (s : State) : Host.Outcome State Fault Refusal :=
  if s.sst.power.supplied then .next s else done (s.startUp u)

/-- R163 step 5: READY_OUT asserts when the start-up's commit writes have completed. -/
def State.startUpComplete (s : State) : State :=
  if s.sst.power.supplied = true ∧ s.rtb.startCommit.isNone = true then { s with sst := { s.sst with ready := true } } else s

/-- START_UP_COMPLETE. -/
def execStartUpComplete (s : State) : Host.Outcome State Fault Refusal := .next s.startUpComplete

end Sys2Proof.Machine
end

