-- ==== Sys2Proof/Machine/Time.lean ====
section
/-! DEFINITION. One second of the timebase (R158): the table has no row for it, so it is what a step does on
an empty queue (log 4). A timer that counts down holds at 0 until its expiry, a row of the table, is taken. -/

namespace Sys2Proof.Machine

/-- A running timer loses a second, and holds at 0. -/
def tickOption (t : Option Nat) : Option Nat := t.map (fun n => n - 1)

/-- R46, R50: challenges age and backoffs run down. -/
def Credentials.tick (c : Credentials) : Credentials :=
  { c with
    slots := c.slots.map (fun x => { x with backoff := tickOption x.backoff })
    challenges := c.challenges.map (fun x => x.map (fun (y : Challenge) => { y with remaining := y.remaining - 1 })) }

/-- R15: the drain timer. -/
def Commit.tick : Commit → Commit
  | .draining a n k rto => .draining a (n - 1) k rto
  | c => c

/-- R123, R127, R132: the delay timer, the alarm minimum period and the absence count, which holds at its
threshold. -/
def Response.tick (r : Response) (counts : Bool) : Response :=
  { r with
    timer := r.timer.map (fun (t : Timer) => { t with remaining := t.remaining - 1 })
    alarm := tickOption r.alarm
    absence := if counts && r.absence < r.absenceThreshold then r.absence + 1 else r.absence }

/-- R174: the media timeouts. -/
def Link.tick (l : Link) : Link :=
  { l with outstanding := l.outstanding.map (fun (q : MediaReq) => { q with remaining := q.remaining - 1 }) }

/-- R158: one second of the timebase, where the main supply is present. -/
def State.second (s : State) : State :=
  if s.sst.power.supplied then
    { s with
      cru := s.cru.tick
      btc := { s.btc with window := tickOption s.btc.window }
      rtb := { s.rtb with commit := if s.sst.power = .active then s.rtb.commit.tick else s.rtb.commit }
      rsu := s.rsu.tick s.absenceCounting
      lif := s.lif.tick
      sst := { s.sst with seconds := s.sst.seconds + 1 } }
  else s

end Sys2Proof.Machine
end

