-- ==== Sys2Proof/Machine/Dispatch.lean ====
section
/-! DEFINITION. One arm per command: its meaning. -/

namespace Sys2Proof.Machine

def exec (i : Instr) (s : State) : Host.Outcome State Fault Refusal :=
  match i with
  | .linkStart f credits capacity imageBase scratchBase => Sys2Proof.Machine.execLinkStart f credits capacity imageBase scratchBase s
  | .identify f => Sys2Proof.Machine.execIdentify f s
  | .status f => Sys2Proof.Machine.execStatus f s
  | .setReplyLimit f channel limit => Sys2Proof.Machine.execSetReplyLimit f channel limit s
  | .challenge f => Sys2Proof.Machine.execChallenge f s
  | .setCredential f target action secret limit p => Sys2Proof.Machine.execSetCredential f target action secret limit p s
  | .resetAttempts f target p => Sys2Proof.Machine.execResetAttempts f target p s
  | .slotList f start => Sys2Proof.Machine.execSlotList f start s
  | .provision f adminSecret recoverySecret imageSize tokenPresent token p => Sys2Proof.Machine.execProvision f adminSecret recoverySecret imageSize tokenPresent token p s
  | .unlock f range p => Sys2Proof.Machine.execUnlock f range p s
  | .lock f range direction p => Sys2Proof.Machine.execLock f range direction p s
  | .bindPlatform f action token p => Sys2Proof.Machine.execBindPlatform f action token p s
  | .startImageUnseal f action p => Sys2Proof.Machine.execStartImageUnseal f action p s
  | .rangeList f start p => Sys2Proof.Machine.execRangeList f start p s
  | .rangeStage f e p => Sys2Proof.Machine.execRangeStage f e p s
  | .rangeDiscard f p => Sys2Proof.Machine.execRangeDiscard f p s
  | .rangeCommit f defer p => Sys2Proof.Machine.execRangeCommit f defer p s
  | .rekeyQueue f range p => Sys2Proof.Machine.execRekeyQueue f range p s
  | .rekeyResume f range p => Sys2Proof.Machine.execRekeyResume f range p s
  | .rekeyStatus f => Sys2Proof.Machine.execRekeyStatus f s
  | .evidenceSet f target v p => Sys2Proof.Machine.execEvidenceSet f target v p s
  | .evidenceList f start p => Sys2Proof.Machine.execEvidenceList f start p s
  | .responseStatus f => Sys2Proof.Machine.execResponseStatus f s
  | .responseClear f p => Sys2Proof.Machine.execResponseClear f p s
  | .remoteOrder f level p => Sys2Proof.Machine.execRemoteOrder f level p s
  | .wipeStart f fill p => Sys2Proof.Machine.execWipeStart f fill p s
  | .wipeAbort f p => Sys2Proof.Machine.execWipeAbort f p s
  | .wipeStatus f => Sys2Proof.Machine.execWipeStatus f s
  | .reprovision f p => Sys2Proof.Machine.execReprovision f p s
  | .xferOpen f direction first count => Sys2Proof.Machine.execXferOpen f direction first count s
  | .xferBlock f context generation index data => Sys2Proof.Machine.execXferBlock f context generation index data s
  | .xferClose f context generation => Sys2Proof.Machine.execXferClose f context generation s
  | .platformHello f token => Sys2Proof.Machine.execPlatformHello f token s
  | .presence f proof => Sys2Proof.Machine.execPresence f proof s
  | .motion f => Sys2Proof.Machine.execMotion f s
  | .standbyEnter f => Sys2Proof.Machine.execStandbyEnter f s
  | .standbyExit f => Sys2Proof.Machine.execStandbyExit f s
  | .powerDown f => Sys2Proof.Machine.execPowerDown f s
  | .mediaReply tag kind status data => Sys2Proof.Machine.execMediaReply tag kind status data s
  | .headerCheckFail => Sys2Proof.Machine.execHeaderCheckFail s
  | .frameDamaged channel tag => Sys2Proof.Machine.execFrameDamaged channel tag s
  | .burstEnd => Sys2Proof.Machine.execBurstEnd s
  | .motionInEdge => Sys2Proof.Machine.execMotionInEdge s
  | .tamperInEdge => Sys2Proof.Machine.execTamperInEdge s
  | .retentionSupplyWarning => Sys2Proof.Machine.execRetentionSupplyWarning s
  | .retentionSupplyLost => Sys2Proof.Machine.execRetentionSupplyLost s
  | .retentionSupplyReturn => Sys2Proof.Machine.execRetentionSupplyReturn s
  | .mainSupplyRemoved => Sys2Proof.Machine.execMainSupplyRemoved s
  | .startUp u => Sys2Proof.Machine.execStartUp u s
  | .startUpComplete => Sys2Proof.Machine.execStartUpComplete s
  | .storeWriteComplete => Sys2Proof.Machine.execStoreWriteComplete s
  | .cipherTransformComplete core => Sys2Proof.Machine.execCipherTransformComplete core s
  | .cipherCoreGrant => Sys2Proof.Machine.execCipherCoreGrant s
  | .mediaCreditGrant => Sys2Proof.Machine.execMediaCreditGrant s
  | .challengeExpiry entry => Sys2Proof.Machine.execChallengeExpiry entry s
  | .backoffExpiry slot => Sys2Proof.Machine.execBackoffExpiry slot s
  | .drainTimerExpiry => Sys2Proof.Machine.execDrainTimerExpiry s
  | .helloWindowExpiry => Sys2Proof.Machine.execHelloWindowExpiry s
  | .delayTimerExpiry => Sys2Proof.Machine.execDelayTimerExpiry s
  | .absenceThreshold => Sys2Proof.Machine.execAbsenceThreshold s
  | .alarmMinimumExpiry => Sys2Proof.Machine.execAlarmMinimumExpiry s
  | .mediaTimeout tag => Sys2Proof.Machine.execMediaTimeout tag s
  | .commitWriting => Sys2Proof.Machine.execCommitWriting s
  | .rekeyJobStart => Sys2Proof.Machine.execRekeyJobStart s
  | .chunkForm => Sys2Proof.Machine.execChunkForm s
  | .chunkClaim => Sys2Proof.Machine.execChunkClaim s
  | .wipeStepBegin chain => Sys2Proof.Machine.execWipeStepBegin chain s
  | .standbyDrainEnd => Sys2Proof.Machine.execStandbyDrainEnd s
  | .powerDownDrainEnd => Sys2Proof.Machine.execPowerDownDrainEnd s
  | .unknownKind channel tag => Sys2Proof.Machine.execUnknownKind channel tag s

end Sys2Proof.Machine
end

