-- ==== Sys2Proof/Machine/Step.lean ====
section
/-! DEFINITION. A step of the part: the command at the front of the queue, or, on an empty queue, one second
of the timebase (log 4). -/

namespace Sys2Proof.Machine

/-- Take the command at the front and run it on the state with the rest of the queue; on an empty queue a
second passes. -/
def step (s : State) : Host.Outcome State Fault Refusal :=
  match s.pending with
  | c :: rest => exec c { s with pending := rest }
  | [] => .next s.second

/-- s with the command that a word spells at the front of its queue. -/
def State.withFetchWord (s : State) (nbits w : Nat) : State :=
  match Sys2Proof.decodeTableWord nbits w with
  | some c => { s with pending := c :: s.pending }
  | none => s

end Sys2Proof.Machine
end

