-- ==== Sys2Proof/Machine/Wire.lean ====
section
/-! DEFINITION. The bytes of chapter 11: check codes, frames, the layouts the chapter gives, and the scan of a
burst (R166, R167, R176), which says which commands the frames of a burst are. The meanings do not depend on
this file: a command carries the fields, not the bytes. -/

namespace Sys2Proof.Machine

/-! ### Check codes (11.1) -/

/-- One bit of the CRC-8 with polynomial x^8 + x^2 + x + 1. -/
def crc8Bit (c : Byte) : Byte := if c.msb then (c <<< 1) ^^^ 7#8 else c <<< 1

/-- hchk of bytes: initial value 0, no reflection, no final inversion. -/
def hchk (l : List Byte) : Byte := l.foldl (fun c b => (List.range 8).foldl (fun x _ => crc8Bit x) (c ^^^ b)) 0#8

/-- One bit of the CRC-32 with polynomial 0x04C11DB7, reflected. -/
def crc32Bit (c : BitVec 32) : BitVec 32 := if c.getLsbD 0 then (c >>> 1) ^^^ 0xEDB88320#32 else c >>> 1

/-- The payload check: initial and final values all ones, input and output reflected. -/
def crc32 (l : List Byte) : BitVec 32 :=
  ~~~ (l.foldl (fun c b => (List.range 8).foldl (fun x _ => crc32Bit x) (c ^^^ b.setWidth 32)) 0xFFFFFFFF#32)

/-! ### Fields -/

/-- A number in n bytes, most significant first (11, opening). -/
def bytesOf : Nat → Nat → List Byte
  | 0, _ => []
  | n + 1, v => BitVec.ofNat 8 (v / 256 ^ n) :: bytesOf n v

/-- The number that bytes carry, most significant first. -/
def numberOf (l : List Byte) : Nat := l.foldl (fun a b => a * 256 + b.toNat) 0

/-! ### Frames (11.1) -/

/-- The head byte: form, channel, kind. -/
def headByte (f : Form) (ch : Channel) (kind : Nat) : Byte :=
  BitVec.ofNat 8 ((if f = .long then 128 else 0) + ch.number * 32 + kind)

/-- A short frame with five argument bytes; absent ones are zero. -/
def shortFrame (ch : Channel) (kind tag : Nat) (args : List Byte) : List Byte :=
  let l := headByte .short ch kind :: BitVec.ofNat 8 tag :: (args ++ List.replicate (5 - args.length) 0#8)
  l ++ [hchk l]

/-- A long frame. -/
def longFrame (ch : Channel) (kind tag : Nat) (payload : List Byte) : List Byte :=
  let h := headByte .long ch kind :: BitVec.ofNat 8 tag :: bytesOf 2 payload.length
  h ++ [hchk h] ++ payload ++ bytesOf 4 (crc32 payload).toNat

/-- R176: a proof tail: the proof block and its CRC-32. -/
def proofTail (block : List Byte) : List Byte := block ++ bytesOf 4 (crc32 block).toNat

/-! ### Codes (11.2 to 11.4) -/

/-- Status codes (11.4). -/
def Status.code : Status → Nat
  | .ok => 0x00 | .accepted => 0x01 | .done => 0x02
  | .notStarted => 0x10 | .badKind => 0x11 | .badField => 0x12 | .badLength => 0x13 | .frameDamaged => 0x14
  | .tagInUse => 0x15 | .tooLong => 0x16 | .busy => 0x17 | .standby => 0x18
  | .noContext => 0x20 | .order => 0x21 | .locked => 0x22 | .held => 0x23 | .outOfRange => 0x24 | .crossesRange => 0x25
  | .readOnlyOverlay => 0x26 | .keyLost => 0x27 | .tableDamaged => 0x28 | .discarded => 0x29 | .aborted => 0x2A
  | .badSlot => 0x30 | .blockedSlot => 0x31 | .backoff => 0x32 | .staleChallenge => 0x33 | .badProof => 0x34
  | .notPermitted => 0x35 | .wrongState => 0x36 | .responsePending => 0x37
  | .invalidLayout => 0x40 | .rangeBusy => 0x41 | .noKeySlot => 0x42 | .listFull => 0x43 | .duplicate => 0x44
  | .preempted => 0x45
  | .mediaFault => 0x50 | .mediaTimeout => 0x51

/-- Modes in a grant (11.2). -/
def Mode.code : Mode → Nat
  | .clear => 0
  | .shroud => 1
  | .overlay => 2

/-- Causes in an XFER_ABORTED (11.2). -/
def AbortCause.code : AbortCause → Nat
  | .lockdown => 0
  | .keysCut => 1
  | .drain => 2
  | .keyDamaged => 3

/-- Marks of the staged list (11.2). -/
def Mark.code : Mark → Nat
  | .none => 0
  | .deferred => 1
  | .applying => 2

/-- Commit states (11.2). -/
def CommitPhase.code : CommitPhase → Nat
  | .idle => 0
  | .draining => 1
  | .writing => 2

/-- States of a scratch header (11.2). -/
def headerStateCode : HeaderState → Nat
  | .filled => 1
  | .copied => 2

/-- A flag at a bit. -/
def flagBit (b : Bool) (n : Nat) : Nat := if b then 2 ^ n else 0

/-! ### Layouts that the part sends (11.1, 11.2) -/

/-- Argument bytes of a grant. -/
def grantArgs (context generation : Nat) (m : Mode) (offset : Nat) : List Byte :=
  bytesOf 1 (Status.ok.code) ++ bytesOf 1 (context * 16 + m.code) ++ bytesOf 1 generation ++ bytesOf 2 offset

/-- Argument bytes of an XFER_ABORTED. -/
def abortedArgs (context generation : Nat) (c : AbortCause) (taken : Nat) : List Byte :=
  bytesOf 1 (Status.aborted.code) ++ bytesOf 1 (context * 16 + c.code) ++ bytesOf 1 generation ++ bytesOf 2 taken

/-- Bytes 0 to 11 of a scratch header, which its check value covers. -/
def scratchBytes (h : ScratchHeader) : List Byte :=
  bytesOf 2 h.serial ++ bytesOf 1 h.range ++ bytesOf 1 h.newKeySlot ++ bytesOf 6 h.first ++ bytesOf 1 h.n ++
    bytesOf 1 (headerStateCode h.state)

/-- Bounds of an entry: zero when absent. -/
def boundsBytes (b : Option Span) : List Byte :=
  match b with
  | some p => bytesOf 6 p.first ++ bytesOf 6 p.count
  | none => bytesOf 12 0

/-- Flags of an entry in either view. -/
def ListedRange.flags (e : ListedRange) : Nat :=
  flagBit e.readLocked 0 + flagBit e.writeLocked 1 + flagBit e.bounds.isSome 7 +
    (match e.options with
     | some (m, c, p, b, k) => flagBit (m == LockMode.shroud) 2 + flagBit c 3 + flagBit p 4 + flagBit b 5 + flagBit k 6
     | none => 0)

/-- An entry of the plain view: 16 bytes. -/
def ListedRange.plainBytes (e : ListedRange) : List Byte :=
  bytesOf 1 e.number ++ bytesOf 1 e.status ++ bytesOf 1 e.flags ++ boundsBytes e.bounds ++ [0#8]

/-- Key slots and watermark of an ENABLED entry in the full view; zero for any other. -/
def ListedRange.keyBytes (e : ListedRange) : List Byte :=
  match e.keys with
  | some (k, some (n, w)) => bytesOf 1 k ++ bytesOf 1 n ++ bytesOf 6 w
  | some (k, none) => bytesOf 1 k ++ [255#8] ++ bytesOf 6 0
  | none => bytesOf 8 0

/-- Lists of an entry in the full view. -/
def ListedRange.listBytes (e : ListedRange) : List Byte :=
  match e.lists with
  | some (r, w) => bytesOf 2 r.toNat ++ bytesOf 2 w.toNat
  | none => bytesOf 4 0

/-- An entry of the full view: 28 bytes. -/
def ListedRange.fullBytes (e : ListedRange) : List Byte :=
  bytesOf 1 e.number ++ bytesOf 1 e.status ++ bytesOf 1 e.flags ++ boundsBytes e.bounds ++ e.keyBytes ++ e.listBytes ++ [0#8]

/-- The further header of the full view: 4 bytes. -/
def FullHeader.bytes (h : FullHeader) : List Byte :=
  bytesOf 1 h.staged ++ bytesOf 1 h.mark.code ++ bytesOf 1 h.commit.code ++ bytesOf 1 (flagBit h.resealOnWake 0)

/-- The numbers of a detail in so many bytes: each takes one, and the last of them every byte that is left, right-aligned
(chapter 11, opening; log 9). -/
def detailBytes : Nat → List Nat → List Byte
  | _, [] => []
  | n, [v] => bytesOf n v
  | n, v :: l => bytesOf 1 v ++ detailBytes (n - 1) l

/-- Argument bytes of the short DATA frames that chapter 11 lays out, and of a short status reply elsewhere;
`sub` is the sub-kind, on CONTROL. The detail takes the remaining argument bytes (11.1). -/
def Body.args (sub : Option Nat) : Body → Option (List Byte)
  | .status st d =>
    let l := sub.toList.flatMap (bytesOf 1) ++ bytesOf 1 st.code
    some (l ++ detailBytes (5 - l.length) d)
  | .grant c g m o => some (grantArgs c g m o)
  | .aborted c g k n => some (abortedArgs c g k n)
  | _ => none

/-! ### The scan of a burst (R166, R167, R176) -/

/-- What the Link Interface makes of the next bytes of a burst. -/
inductive Arrival where
  /-- a frame that passed its checks: head fields, tag, argument or payload bytes, proof block of a tail -/
  | taken (form : Form) (channel : Channel) (kind tag : Nat) (bytes : List Byte) (tail : List Byte)
  /-- a frame whose payload or tail check fails (R167, R176) -/
  | damaged (channel : Channel) (tag : Nat)
  /-- a failure that ends the taking of the burst (R166) -/
  | failed
deriving DecidableEq, Repr

/-- Channel of a head byte. -/
def headChannel (h : Byte) : Channel :=
  match h.toNat / 32 % 4 with
  | 0 => .data
  | 1 => .control
  | 2 => .platform
  | _ => .media

/-- Kind of a head byte. -/
def headKind (h : Byte) : Nat := h.toNat % 32

/-- The message of a kind and sub-kind on a channel (11.3). -/
def messageOf (ch : Channel) (kind sub : Nat) : Option Message :=
  Message.all.find? (fun m => m.channel == ch && m.kind == kind && (ch != .control || m.sub == sub))

/-- R176: a short CONTROL frame with this kind and first argument byte is followed by a proof tail. -/
def tailed (ch : Channel) (kind sub : Nat) : Bool :=
  ch == .control && (match messageOf ch kind sub with
    | some m => m.tail
    | none => false)

/-- A tail, once its frame's header check matched. -/
def scanTail (ch : Channel) (kind tag : Nat) (args rest : List Byte) : Arrival × List Byte :=
  if rest.length < 38 then (.failed, [])
  else if numberOf ((rest.drop 34).take 4) = (crc32 (rest.take 34)).toNat then
    (.taken .short ch kind tag args (rest.take 34), rest.drop 38)
  else (.damaged ch tag, rest.drop 38)

/-- A short frame at the front of a burst's bytes. One of fewer than 8 bytes, cut off by the end of its burst, counts as a
failed header check (R166; the model's choice, log 9). -/
def scanShort (l : List Byte) : Arrival × List Byte :=
  match l with
  | h :: t :: a :: rest =>
    let frame := l.take 7
    if l.length < 8 ∨ l[7]? ≠ some (hchk frame) then (.failed, [])
    else
      let args := a :: rest.take 4
      if tailed (headChannel h) (headKind h) a.toNat then scanTail (headChannel h) (headKind h) t.toNat args (l.drop 8)
      else (.taken .short (headChannel h) (headKind h) t.toNat args [], l.drop 8)
  | _ => (.failed, [])

/-- A long frame at the front of a burst's bytes. -/
def scanLong (l : List Byte) : Arrival × List Byte :=
  match l with
  | h :: t :: a :: b :: c :: rest =>
    let n := numberOf [a, b]
    if c ≠ hchk [h, t, a, b] ∨ Config.payloadMax < n ∨ rest.length < n + 4 then (.failed, [])
    else if numberOf ((rest.drop n).take 4) = (crc32 (rest.take n)).toNat then
      (.taken .long (headChannel h) (headKind h) t.toNat (rest.take n) [], rest.drop (n + 4))
    else (.damaged (headChannel h) t.toNat, rest.drop (n + 4))
  | _ => (.failed, [])

/-- The arrivals of a burst, in order; nothing follows a failure. Each frame has at least one byte, so the
number of bytes bounds the number of frames. -/
def scanFrames : Nat → List Byte → List Arrival
  | 0, _ => []
  | _, [] => []
  | n + 1, h :: l =>
    let q := if h.msb then scanLong (h :: l) else scanShort (h :: l)
    q.1 :: (if q.1 = .failed then [] else scanFrames n q.2)

/-- The arrivals of a burst. -/
def scanBurst (l : List Byte) : List Arrival := scanFrames l.length l

/-! ### The commands of a burst -/

/-- Bytes i to j of a payload as a number. -/
def field (l : List Byte) (i j : Nat) : Nat := numberOf ((l.drop i).take (j + 1 - i))

/-- A proof block (11.2); its 32 bytes of proof are what they are. -/
def proofBlockOf (l : List Byte) : ProofBlock :=
  { slot := field l 0 0, challenge := field l 1 1, proof := .other (BitVec.ofNat 256 (field l 2 33)) }

/-- The codes of a field whose codes chapter 11 does not give: the value that a code names (log 9). -/
def coded {α : Type} (l : List α) (n : Nat) : Option α := l[n]?

/-- Yes or no (log 9). -/
def flagOf : Nat → Option Bool := coded [false, true]

/-- The long requests that end in a proof block, but for RANGE_LIST, whose block is optional (11.2). -/
def longProof : Message → Bool
  | .setCredential | .provision | .bindPlatform | .rangeStage | .evidenceSet => true
  | _ => false

/-- R176: the bytes of a request before its proof block, and the block: the arguments and the tail of a short
request, or a long payload without its last 34 bytes, and those. -/
def proofSplit (m : Message) (l tail : List Byte) : List Byte × List Byte :=
  if m.tail then (l, tail)
  else if longProof m || (m == .rangeList && l.length == 36) then (l.take (l.length - 34), l.drop (l.length - 34))
  else ([], [])

/-- The checks' view of a frame of a message; a length that chapter 11 does not give is a free value (log 9). -/
def hdrOf (m : Message) (form : Form) (tag : Nat) (l before : List Byte) : Hdr :=
  { tag := tag, form := form, length := if form = .long then l.length else 0
    lengthFits := l.length == Config.payloadLength m.kind m.sub, bytes := before }

/-- The edit that a RANGE_STAGE payload carries; where its fields lie is a free value (log 9). -/
def editOf (v : Nat → Nat) : EditFields :=
  { range := v 0, kind := coded [EditKind.define, .options, .access, .newKey, .disable] (v 1), first := v 2, count := v 3
    lockMode := coded [LockMode.refuse, .shroud] (v 4), concealed := flagOf (v 5), powerLock := flagOf (v 6)
    standbyLock := flagOf (v 7), reseal := flagOf (v 8), readList := BitVec.ofNat 16 (v 9), writeList := BitVec.ofNat 16 (v 10) }

/-- The values that an EVIDENCE_SET payload carries behind its target (log 9). -/
def evidenceOf (v : Nat → Nat) : EvidenceValues :=
  { enabled := flagOf (v 1), level := v 2, delay := v 3, immediate := flagOf (v 4)
    guard := coded [Guard.always, .whileSealed, .whileAsleep] (v 5), purgeAllowed := flagOf (v 6), alarmMinimum := v 7
    absenceThreshold := v 8 }

/-- The command of a request of a message, from its header, its bytes and its proof block. The fields of a short
CONTROL request follow its sub-kind, in the order in which the message's rule names them (11.1). XFER_CLOSE, a short DATA
request that chapter 11 does not lay out, carries its context in argument byte 0 and its generation in byte 1, as 5.4
names them, and the limit of a SET_REPLY_LIMIT, whose width no rule gives, is read from argument bytes 2 and 3 (the model's
choices, log 9). -/
def commandOf (m : Message) (f : Hdr) (l block : List Byte) : Instr :=
  let p := proofBlockOf block
  let a := field l 1 1
  let v := fun i => Config.payloadField m.kind m.sub i l
  let secret := fun i => BitVec.ofNat 256 (v i)
  match m with
  | .linkStart => .linkStart f a (field l 2 7) (field l 8 13) (field l 14 19)
  | .identify => .identify f
  | .status => .status f
  | .setReplyLimit => .setReplyLimit f a (field l 2 3)
  | .challenge => .challenge f
  | .setCredential => .setCredential f (v 0) (coded [CredAction.set, .disable] (v 1)) (secret 2) (v 3) p
  | .resetAttempts => .resetAttempts f a p
  | .slotList => .slotList f a
  | .provision => .provision f (secret 0) (secret 1) (v 2) (flagOf (v 3)) (secret 4) p
  | .unlock => .unlock f a p
  | .lock => .lock f a (field l 2 2) p
  | .bindPlatform => .bindPlatform f (coded [BindAction.bind, .unbind] (v 0)) (secret 1) p
  | .startImageUnseal => .startImageUnseal f (coded [UnsealAction.unseal, .reseal] a) p
  | .rangeList => .rangeList f a (if l.length = 36 then some p else none)
  | .rangeStage => .rangeStage f (editOf v) p
  | .rangeDiscard => .rangeDiscard f p
  | .rangeCommit => .rangeCommit f (flagOf a) p
  | .rekeyQueue => .rekeyQueue f a p
  | .rekeyResume => .rekeyResume f a p
  | .rekeyStatus => .rekeyStatus f
  | .evidenceSet => .evidenceSet f (v 0) (evidenceOf v) p
  | .evidenceList => .evidenceList f a p
  | .responseStatus => .responseStatus f
  | .responseClear => .responseClear f p
  | .remoteOrder => .remoteOrder f a p
  | .wipeStart => .wipeStart f (flagOf a) p
  | .wipeAbort => .wipeAbort f p
  | .wipeStatus => .wipeStatus f
  | .reprovision => .reprovision f p
  | .xferOpen => .xferOpen f (field l 0 0) (field l 1 6) (field l 7 8)
  | .xferBlock => .xferBlock f (field l 0 0) a (field l 2 3) (.raw (l.drop 8))
  | .xferClose => .xferClose f (field l 0 0) a
  | .platformHello => .platformHello f (BitVec.ofNat 256 (field l 0 31))
  | .presence => .presence f (.other (BitVec.ofNat 256 (field l 0 31)))
  | .motion => .motion f
  | .standbyEnter => .standbyEnter f
  | .standbyExit => .standbyExit f
  | .powerDown => .powerDown f

/-- The sub-kind of a frame (11.1): its first argument or payload byte. A long CONTROL frame with an empty payload is read
as one of sub-kind 0 (R177 items 3 and 5; the model's choice, log 9). -/
def subKind (l : List Byte) : Nat := field l 0 0

/-- The status of a frame on MEDIA: its first byte. A payload without one carries no status, which R174 counts among
those that are neither OK nor MEDIA_FAULT; 255 is none of them. -/
def mediaStatus (l : List Byte) : Nat := if l.isEmpty then 255 else field l 0 0

/-- The data of a frame on MEDIA: 4096 bytes behind the status of a long one (10.6). Data of any other length is taken as
no data, so that an OK to a MEDIA_READ with it is handed on as MEDIA_FAULT (R174; the model's choice, log 9). -/
def mediaData (form : Form) (l : List Byte) : Option Block :=
  if form = .long ∧ l.length = 4097 then some (.raw (l.drop 1)) else none

/-- The command that an arrival is. -/
def Arrival.command : Arrival → Instr
  | .failed => .headerCheckFail
  | .damaged ch tag => .frameDamaged ch tag
  | .taken form ch kind tag l tail =>
    if ch = .media then .mediaReply tag kind (mediaStatus l) (mediaData form l)
    else match messageOf ch kind (subKind l) with
      | some m =>
        let q := proofSplit m l tail
        commandOf m (hdrOf m form tag l q.1) l q.2
      | none => .unknownKind ch tag

end Sys2Proof.Machine
end

