-- ==== Sys2Proof/Safety.lean ====
section
/-! DEFINITION. What is meant by a state being in order: the sizes of its tables, the law of the store's
waiting writes (R154) and of the media credits (R174); and the words the statements are made of: a request
that passes the Link Interface's checks, a proof that matches, a write that the store holds. -/

namespace Sys2Proof

namespace Machine

/-! ### The machine in order -/

/-- Every table has its size (00_scope 1.3, R153). -/
def Shaped (s : State) : Prop :=
  s.cru.slots.length = 10 ∧ s.cru.challenges.length = 4 ∧ s.kst.slots.length = 24 ∧ s.kst.loads.length = 16 ∧
  s.rtb.entries.length = 16 ∧ s.dpu.contexts.length = 16 ∧ s.rsu.settings.length = 8 ∧
  s.sst.units.cred.length = 10 ∧ s.sst.units.key.length = 24 ∧ s.sst.units.range.length = 16 ∧
  s.sst.units.evset.length = 8

/-- R154: at most 16 writes in the queue, at most one waiting write a unit, and a wait list only behind a
full queue. -/
def WaitLaw (queue waiting : List Write) : Prop :=
  queue.length ≤ Config.queueMax ∧ ((queue ++ waiting).map (fun w => w.unit)).Nodup ∧
    (waiting ≠ [] → queue.length = Config.queueMax)

/-- R154: the writes that wait in the store obey their law. -/
def Lawful (s : State) : Prop := WaitLaw s.sst.queue s.sst.waiting

/-- R174: every credit is free or held by an outstanding request, there are at most 8, and no two outstanding
requests have one tag. -/
def Credited (s : State) : Prop :=
  s.lif.outstanding.length + s.lif.freeCredits = s.lif.mediaCredits ∧ s.lif.mediaCredits ≤ 8 ∧
    (s.lif.outstanding.map (fun q => q.tag)).Nodup

/-- What nearly every operation keeps: the queue of commands, the manufacture copy of the label verifier, the
media table, the sizes and the law of the store. -/
abbrev Keeps (s t : State) : Prop :=
  t.pending = s.pending ∧ t.sst.labelCopy = s.sst.labelCopy ∧ t.lif.outstanding = s.lif.outstanding ∧
  t.lif.freeCredits = s.lif.freeCredits ∧ t.lif.mediaCredits = s.lif.mediaCredits ∧ (Shaped s → Shaped t) ∧
  (Lawful s → Lawful t)

/-! ### Words of the statements -/

/-- A request of message m passes the checks of the Link Interface (R163, R165, R169, R177 items 1 to 5). -/
def Passes (s : State) (m : Message) (f : Hdr) (fits : Bool) : Prop :=
  s.takesFrames = true ∧ s.lif.burstDropped = false ∧ f.tag ≠ 0 ∧
  (m.channel = .control → m ≠ .linkStart → f.tag ∉ s.lif.tagsInUse) ∧
  (s.lif.started = true ∨ Message.early m = true) ∧ fits = true

/-- A proof under credential slot i passes R48 and matches: the slot is ENABLED without backoff, the challenge
stands, and the proof is the digest of its nonce and the request under the secret of the verifier in force. -/
def Proves (s : State) (m : Message) (fields : List Nat) (i : Nat) (p : ProofBlock) : Prop :=
  p.slot = i ∧ i < 10 ∧ (s.cred i).record.state = .enabled ∧ (s.cred i).backoff = none ∧
  ∃ c v, s.challengeOf p = some c ∧ s.verifier i = some v ∧ p.proof = .digest v.secret c.nonce (digestText m fields)

/-- A label proof matches (R54). -/
def Labels (s : State) (m : Message) (fields : List Nat) (p : ProofBlock) : Prop :=
  p.slot = 255 ∧ ∃ c, s.challengeOf p = some c ∧
    p.proof = .digest s.btc.labelVerifier.secret c.nonce (digestText m fields)

/-- The store holds a write of a unit with a content, one of whose requesters is w: waiting or in service. -/
def State.holds (s : State) (u : StoreUnit) (c : Record) (w : Waiter) : Prop :=
  ∃ x ∈ s.sst.serving.toList ++ s.sst.queue ++ s.sst.waiting, x.unit = u ∧ x.content = c ∧ w ∈ x.waiters

/-- The writes that the store holds: in service, in the queue and on the wait list. -/
def State.writesHeld (s : State) : List Write := s.sst.serving.toList ++ s.sst.queue ++ s.sst.waiting

/-- The store holds a write of a unit with the unit's content as it stands, whoever asked for it. -/
def State.hasWrite (s : State) (u : StoreUnit) : Prop := ∃ x ∈ s.writesHeld, x.unit = u ∧ x.content = s.recordOf u

/-- No write of a unit but the listed ones is placed, lost or changed. -/
def WritesOnly (units : List StoreUnit) (s t : State) : Prop :=
  ∀ w : Write, w.unit ∉ units → (w ∈ t.writesHeld ↔ w ∈ s.writesHeld)

/-- The store holds a write of the progress part for a requester, or the write is due (R110). -/
def State.progressAwaits (s : State) (w : Waiter) : Prop :=
  s.holds .rekeyProgress (s.recordOf .rekeyProgress) w ∨ ∃ ws, s.rke.dueProgress = some ws ∧ w ∈ ws

/-- The store holds a write of the queue part for a requester, or the write is due (R110). -/
def State.queuePartAwaits (s : State) (w : Waiter) : Prop :=
  s.holds .rekeyQueue (s.recordOf .rekeyQueue) w ∨ ∃ ws, s.rke.dueQueue = some ws ∧ w ∈ ws

/-- Every LIVE key slot of range r that it names has whole material under the RAK k (R33, R36). -/
def State.intactUnder (s : State) (r : Nat) (k : Rak) : Prop :=
  ∀ x ∈ s.namedSlots r, (s.slot x).state = .live → s.owns r x = true → ∃ m, (s.slot x).material = some m ∧ m.whole = true ∧ m.rak = k

/-- The last frame that the part sent. -/
def State.lastFrame (s : State) : Option Frame := s.sent.getLast?

/-- A frame as it is sent. -/
def frame (ch : Channel) (tag : Nat) (b : Body) : Frame := { channel := ch, tag := tag, body := b }

end Machine

open Machine

/-! ### What a command asks -/

/-- The message, header and length check of a command that is a request. -/
def Instr.asRequest : Instr → Option (Message × Hdr × Bool)
  | .linkStart f _ _ _ _ => some (.linkStart, f, Message.linkStart.fits f)
  | .identify f => some (.identify, f, Message.identify.fits f)
  | .status f => some (.status, f, Message.status.fits f)
  | .setReplyLimit f _ _ => some (.setReplyLimit, f, Message.setReplyLimit.fits f)
  | .challenge f => some (.challenge, f, Message.challenge.fits f)
  | .setCredential f _ _ _ _ _ => some (.setCredential, f, Message.setCredential.fits f)
  | .resetAttempts f _ _ => some (.resetAttempts, f, Message.resetAttempts.fits f)
  | .slotList f _ => some (.slotList, f, Message.slotList.fits f)
  | .provision f _ _ _ _ _ _ => some (.provision, f, Message.provision.fits f)
  | .unlock f _ _ => some (.unlock, f, Message.unlock.fits f)
  | .lock f _ _ _ => some (.lock, f, Message.lock.fits f)
  | .bindPlatform f _ _ _ => some (.bindPlatform, f, Message.bindPlatform.fits f)
  | .startImageUnseal f _ _ => some (.startImageUnseal, f, Message.startImageUnseal.fits f)
  | .rangeList f _ p => some (.rangeList, f, rangeListFits f p.isSome)
  | .rangeStage f _ _ => some (.rangeStage, f, Message.rangeStage.fits f)
  | .rangeDiscard f _ => some (.rangeDiscard, f, Message.rangeDiscard.fits f)
  | .rangeCommit f _ _ => some (.rangeCommit, f, Message.rangeCommit.fits f)
  | .rekeyQueue f _ _ => some (.rekeyQueue, f, Message.rekeyQueue.fits f)
  | .rekeyResume f _ _ => some (.rekeyResume, f, Message.rekeyResume.fits f)
  | .rekeyStatus f => some (.rekeyStatus, f, Message.rekeyStatus.fits f)
  | .evidenceSet f _ _ _ => some (.evidenceSet, f, Message.evidenceSet.fits f)
  | .evidenceList f _ _ => some (.evidenceList, f, Message.evidenceList.fits f)
  | .responseStatus f => some (.responseStatus, f, Message.responseStatus.fits f)
  | .responseClear f _ => some (.responseClear, f, Message.responseClear.fits f)
  | .remoteOrder f _ _ => some (.remoteOrder, f, Message.remoteOrder.fits f)
  | .wipeStart f _ _ => some (.wipeStart, f, Message.wipeStart.fits f)
  | .wipeAbort f _ => some (.wipeAbort, f, Message.wipeAbort.fits f)
  | .wipeStatus f => some (.wipeStatus, f, Message.wipeStatus.fits f)
  | .reprovision f _ => some (.reprovision, f, Message.reprovision.fits f)
  | .xferOpen f _ _ _ => some (.xferOpen, f, Message.xferOpen.fits f)
  | .xferBlock f _ _ _ _ => some (.xferBlock, f, Message.xferBlock.fits f)
  | .xferClose f _ _ => some (.xferClose, f, Message.xferClose.fits f)
  | .platformHello f _ => some (.platformHello, f, Message.platformHello.fits f)
  | .presence f _ => some (.presence, f, Message.presence.fits f)
  | .motion f => some (.motion, f, Message.motion.fits f)
  | .standbyEnter f => some (.standbyEnter, f, Message.standbyEnter.fits f)
  | .standbyExit f => some (.standbyExit, f, Message.standbyExit.fits f)
  | .powerDown f => some (.powerDown, f, Message.powerDown.fits f)
  | _ => none

/-- The checks of the Link Interface pass for a command; a command that is no request meets none. -/
def Instr.passes (c : Instr) (s : State) : Prop :=
  match c.asRequest with
  | some (m, f, fits) => Passes s m f fits
  | none => True

/-- The fields that the proof of a command covers, the number its permission depends on, and its proof block. -/
def Instr.asProven : Instr → Option (Message × List Nat × Nat × ProofBlock)
  | .setCredential f target action secret limit p =>
    some (.setCredential, f.covered [target, credActionCode action, secret.toNat, limit], target, p)
  | .resetAttempts f target p => some (.resetAttempts, f.covered [target], target, p)
  | .unlock f range p => some (.unlock, f.covered [range], range, p)
  | .lock f range direction p => some (.lock, f.covered [range, direction], range, p)
  | .bindPlatform f action token p => some (.bindPlatform, f.covered [bindActionCode action, token.toNat], 0, p)
  | .startImageUnseal f action p => some (.startImageUnseal, f.covered [unsealActionCode action], 0, p)
  | .rangeList f start (some p) => some (.rangeList, f.covered [start], 0, p)
  | .rangeStage f e p => some (.rangeStage, f.covered e.text, 0, p)
  | .rangeDiscard f p => some (.rangeDiscard, f.covered [], 0, p)
  | .rangeCommit f defer p => some (.rangeCommit, f.covered [flagCode defer], 0, p)
  | .rekeyQueue f range p => some (.rekeyQueue, f.covered [range], 0, p)
  | .rekeyResume f range p => some (.rekeyResume, f.covered [range], 0, p)
  | .evidenceSet f target v p => some (.evidenceSet, f.covered (target :: v.text), 0, p)
  | .evidenceList f start p => some (.evidenceList, f.covered [start], 0, p)
  | .responseClear f p => some (.responseClear, f.covered [], 0, p)
  | .remoteOrder f level p => some (.remoteOrder, f.covered [level], 0, p)
  | .wipeStart f fill p => some (.wipeStart, f.covered [flagCode fill], 0, p)
  | .wipeAbort f p => some (.wipeAbort, f.covered [], 0, p)
  | .provision f admin recovery size present token p =>
    if p.slot = 255 then none
    else some (.provision, f.covered [admin.toNat, recovery.toNat, size, flagCode present, token.toNat], 0, p)
  | .reprovision f p => if p.slot = 255 then none else some (.reprovision, f.covered [], 0, p)
  | _ => none

/-- The fields that the label proof of a command covers, and its proof block. -/
def Instr.asLabelled : Instr → Option (Message × List Nat × ProofBlock)
  | .provision f admin recovery size present token p =>
    some (.provision, f.covered [admin.toNat, recovery.toNat, size, flagCode present, token.toNat], p)
  | .reprovision f p => some (.reprovision, f.covered [], p)
  | _ => none

/-- A command's proof under credential slot i matches, and the slot may make the request (R48, R53). -/
def Instr.proves (c : Instr) (s : State) (i : Nat) : Prop :=
  match c.asProven with
  | some (m, fields, n, p) => Proves s m fields i p ∧ s.permits m i n = true
  | none => False

/-- A command's label proof matches (R54). -/
def Instr.labels (c : Instr) (s : State) : Prop :=
  match c.asLabelled with
  | some (m, fields, p) => Labels s m fields p
  | none => False

namespace Machine

/-! ### Frames of the statements -/

/-- The pieces of state that a frame tells apart. -/
inductive Piece where
  | link | media | bursts | tags
  | credSlots | challenges | credOps
  | boot
  | keySlots | loads | hold
  | ranges | commit
  | data | rekey | response | wipe
  | durable | writes | device | power
  | names | sent
deriving DecidableEq, Repr

/-- A piece is the same in two states. -/
def Piece.same (s t : State) : Piece → Prop
  | .link =>
    t.lif.started = s.lif.started ∧ t.lif.mediaCredits = s.lif.mediaCredits ∧ t.lif.capacity = s.lif.capacity ∧
    t.lif.imageBase = s.lif.imageBase ∧ t.lif.scratchBase = s.lif.scratchBase ∧ t.lif.limitData = s.lif.limitData ∧
    t.lif.limitControl = s.lif.limitControl ∧ t.lif.limitPlatform = s.lif.limitPlatform ∧ t.lif.session = s.lif.session
  | .media =>
    t.lif.outstanding = s.lif.outstanding ∧ t.lif.freeCredits = s.lif.freeCredits ∧ t.lif.nextTag = s.lif.nextTag
  | .bursts =>
    t.lif.erroredBursts = s.lif.erroredBursts ∧ t.lif.burstTaken = s.lif.burstTaken ∧
    t.lif.burstErrored = s.lif.burstErrored ∧ t.lif.burstDropped = s.lif.burstDropped
  | .tags => t.lif.tagsInUse = s.lif.tagsInUse
  | .credSlots => t.cru.slots = s.cru.slots
  | .challenges => t.cru.challenges = s.cru.challenges
  | .credOps => t.cru.ops = s.cru.ops
  | .boot => t.btc = s.btc
  | .keySlots => t.kst.slots = s.kst.slots
  | .loads => t.kst.loads = s.kst.loads
  | .hold => t.kst.hold = s.kst.hold ∧ t.kst.reservation = s.kst.reservation
  | .ranges => t.rtb.entries = s.rtb.entries ∧ t.rtb.resealOnWake = s.rtb.resealOnWake
  | .commit =>
    t.rtb.staged = s.rtb.staged ∧ t.rtb.commit = s.rtb.commit ∧ t.rtb.preparing = s.rtb.preparing ∧
    t.rtb.startCommit = s.rtb.startCommit
  | .data => t.dpu = s.dpu
  | .rekey => t.rke = s.rke
  | .response => t.rsu = s.rsu
  | .wipe => t.wpe = s.wpe
  | .durable => t.sst.units = s.sst.units ∧ t.sst.marks = s.sst.marks ∧ t.sst.labelCopy = s.sst.labelCopy
  | .writes =>
    t.sst.queue = s.sst.queue ∧ t.sst.waiting = s.sst.waiting ∧ t.sst.serving = s.sst.serving
  | .device => t.sst.lastDevice = s.sst.lastDevice
  | .power =>
    t.sst.seconds = s.sst.seconds ∧ t.sst.power = s.sst.power ∧ t.sst.drain = s.sst.drain ∧
    t.sst.downMark = s.sst.downMark ∧ t.sst.ready = s.sst.ready ∧ t.sst.retention = s.sst.retention
  | .names => t.fresh = s.fresh
  | .sent => t.sent = s.sent

/-- The queue of commands and every piece of state but the named ones are as before. -/
def Framed (changed : List Piece) (s t : State) : Prop := t.pending = s.pending ∧ ∀ p : Piece, p ∉ changed → p.same s t

/-- What a matching proof under slot i changes: its challenge is free, the slot's failures are 0, and the slot's record is
written exactly when they were not 0 before (R48, R52). -/
def Proved (s t : State) (i : Nat) (p : ProofBlock) : Prop :=
  t.cru.challenges = s.cru.challenges.set p.challenge none ∧
  t.cru.slots = s.cru.slots.modify i (fun x => { x with record := { x.record with failures := 0 } }) ∧
  ((s.cred i).record.failures ≠ 0 → t.hasWrite (.cred i)) ∧
  ((s.cred i).record.failures = 0 → ∀ w : Write, w.unit = .cred i → (w ∈ t.writesHeld ↔ w ∈ s.writesHeld))

/-- A command answers t, after which the store takes its next write, if it may (R155, log 6). -/
abbrev Goes (c : Instr) (s t : State) : Prop := exec c s = .next t.serve

/-- A CONTROL request is answered after its matching proof: beyond the proof nothing but its answer. -/
def AnsweredAfterProof (c : Instr) (s : State) (i : Nat) (p : ProofBlock) (tag : Nat) (b : Body) : Prop :=
  ∃ t, Goes c s t ∧ Framed [.bursts, .challenges, .credSlots, .writes, .sent] s t ∧ Proved s t i p ∧
    WritesOnly [.cred i] s t ∧ t.sent = s.sent ++ [frame .control tag b]

/-- A CONTROL request is refused after its matching proof. -/
def RefusedAfterProof (c : Instr) (s : State) (i : Nat) (p : ProofBlock) (tag : Nat) (st : Status) (detail : List Nat) : Prop :=
  AnsweredAfterProof c s i p tag (.status st detail)

/-- A CONTROL request is refused after its matching label proof. -/
def RefusedAfterLabel (c : Instr) (s : State) (p : ProofBlock) (tag : Nat) (st : Status) : Prop :=
  ∃ t, Goes c s t ∧ Framed [.bursts, .challenges, .sent] s t ∧
    t.cru.challenges = s.cru.challenges.set p.challenge none ∧ t.sent = s.sent ++ [frame .control tag (.status st [])]

/-- An XFER_OPEN is granted (R83): the lowest FREE context is OPEN with its next generation, the users of its key
slots rise, and the grant is answered; nothing else changes. -/
def GrantedOpen (c : Instr) (s : State) (f : Hdr) (direction : Direction) (first count : Nat) (mode : Mode) (range : Option Nat)
    (keys : List Nat) (offset : Nat) : Prop :=
  ∃ t k, Goes c s t ∧ Framed [.bursts, .data, .keySlots, .sent] s t ∧ k < 16 ∧ (s.ctx k).xfer = none ∧
    (∀ j < k, (s.ctx j).xfer ≠ none) ∧
    t.ctx k = { generation := ((s.ctx k).generation + 1) % 256
                xfer := some { direction := direction, range := range, first := first, count := count, nextIndex := 0,
                               mode := mode, keyRefs := keys, rto := s.replyTo .data f.tag } } ∧
    (∀ j, j ≠ k → t.ctx j = s.ctx j) ∧ t.dpu.flights = s.dpu.flights ∧ t.dpu.owed = s.dpu.owed ∧
    (∀ j, t.slot j = { s.slot j with users := (s.slot j).users + keys.count j }) ∧
    t.sent = s.sent ++ [frame .data f.tag (.grant k (((s.ctx k).generation + 1) % 256) mode offset)]

/-- s with one frame more taken and an answer to it sent. -/
def State.answered (s : State) (m : Message) (f : Hdr) (b : Body) : State :=
  { s with lif := { s.lif with burstTaken := s.lif.burstTaken + 1 }, sent := s.sent ++ [frame m.channel f.tag b] }

/-- R165: the tags in use once the final frame of a request has followed them: without its own where it is a CONTROL
request; after a link restart, which withholds the frame, as they were (R171). -/
def State.tagsAfter (s : State) (rto : ReplyTo) (tags : List Nat) : List Nat :=
  if rto.channel = .control ∧ rto.session = s.lif.session then tags.filter (fun x => x != rto.tag) else tags

/-- R165: between s and t the tag of a request leaves the tags in use with its final frame, and no other does. -/
abbrev TagFreed (rto : ReplyTo) (s t : State) : Prop := t.lif.tagsInUse = s.tagsAfter rto s.lif.tagsInUse

/-- Where the part answers a CONTROL request of tag n that it takes now. -/
def State.reply (s : State) (n : Nat) (b : Body) : Waiter := .reply (s.replyTo .control n) b

/-! ### Loads and aborts (R33, R36, R90, R107, R109) -/

/-- R90 to R92: every OPEN context that a test picks is FREE, its XFER_ABORTED with the cause and the blocks taken is sent or
follows its blocks in flight, and no other context changes. -/
def ContextsAborted (cause : AbortCause) (picked : OpenContext → Bool) (s t : State) : Prop :=
  (∀ c < 16, t.ctx c = match (s.ctx c).xfer with
    | some x => if picked x = true then { s.ctx c with xfer := none } else s.ctx c
    | none => s.ctx c) ∧
  (∀ c < 16, ∀ x, (s.ctx c).xfer = some x → picked x = true →
    let b := Body.aborted c (s.ctx c).generation cause x.nextIndex
    frame x.rto.channel x.rto.tag b ∈ t.sent ∨ { context := c, generation := (s.ctx c).generation, body := b, rto := x.rto } ∈ t.dpu.owed)

/-- R33: a load of range r unwraps slot x: the range names it, and it is LIVE and holds a key of the range. -/
def State.unwraps (s : State) (r x : Nat) : Prop :=
  x ∈ s.namedSlots r ∧ (s.slot x).state = .live ∧ s.owns r x = true

/-- R36: a load of range r under the RAK k finds the key of slot x damaged. -/
def State.findsDamaged (s : State) (r : Nat) (k : Rak) (x : Nat) : Prop :=
  s.unwraps r x ∧ ∀ m, (s.slot x).material = some m → m.whole = true → m.rak ≠ k

/-- No write of a unit is placed, lost or changed. -/
def WritesSame (u : StoreUnit) (s t : State) : Prop := ∀ w : Write, w.unit = u → (w ∈ t.writesHeld ↔ w ∈ s.writesHeld)

/-- R33, R34: each range of a list is LOADED, under the RAK in the cache or, NOT_LOADED before, under the one that `via`
gives it; the slots that a range which was NOT_LOADED unwraps have their copies. No other load changes, and of the key
slots nothing else but users counts. -/
def KeysLoaded (l : List Nat) (via : Nat → Option Rak) (s t : State) : Prop :=
  (∀ r ∈ l, ∀ k, ((s.load r).rak? = some k ∨ (s.load r = .notLoaded ∧ via r = some k)) → t.load r = .loaded k) ∧
  (∀ r, r ∉ l → t.load r = s.load r) ∧ t.kst.reservation = s.kst.reservation ∧
  ∀ x,
    let taken := ∃ r ∈ l, s.load r = .notLoaded ∧ s.unwraps r x
    (taken → (t.slot x).copy = (s.slot x).material.map (fun m => m.key)) ∧
    (¬ taken → (t.slot x).copy = (s.slot x).copy) ∧
    t.slot x = { s.slot x with users := (t.slot x).users, copy := (t.slot x).copy }

/-- R107, R112: the head job j, PAUSED or FAULTED before, is SWEEPING without a fault, its chunk and every other job stay,
the sweep hold is taken on its two key slots, and a write of the progress part, which the next chunk waits for, is held or
due. The number of the resumption is the model's (log 22). -/
def SweepsAgain (j : Job) (s t : State) : Prop :=
  let n := s.rke.resumption + 1
  t.rke = { s.rke with
    queue := { j with state := .sweeping, fault := none } :: s.rke.queue.tail
    resuming := true, resumption := n, dueProgress := t.rke.dueProgress } ∧
  t.progressAwaits (.rekeyResumed n) ∧
  (∀ g w, s.fields j.range = some g → g.split = some w →
    t.kst.hold = some { range := j.range, oldKey := g.keySlot, newKey := w.newKey } ∧
    ∀ x < 24, (t.slot x).users = (s.slot x).users + [g.keySlot, w.newKey].count x) ∧
  ((∀ g, s.fields j.range = some g → g.split = none) →
    t.kst.hold = s.kst.hold ∧ ∀ x, (t.slot x).users = (s.slot x).users)

/-- R107: what the loads of a list of ranges do to the sweep. A PAUSED head job of one of them that was not LOADED sweeps
again, but for a job that has lost a key slot or whose scratch header is still to be judged (log 39); else neither the
sweep, its hold nor a users count changes. -/
def SweepResumed (l : List Nat) (s t : State) : Prop :=
  let resumes := fun j : Job => s.headJob = some j ∧ j.state = .paused ∧ j.range ∈ l ∧ (∀ k, s.load j.range ≠ .loaded k) ∧
    s.rke.recovery ≠ .header ∧
    ∃ g, s.fields j.range = some g ∧ ∀ x ∈ g.named, (s.slot x).state ≠ .empty ∧ s.owns j.range x = true
  (∀ j, resumes j → SweepsAgain j s t) ∧
  ((∀ j, ¬ resumes j) → t.rke = s.rke ∧ t.kst.hold = s.kst.hold ∧ (∀ x, (t.slot x).users = (s.slot x).users) ∧
    WritesSame .rekeyProgress s t)

/-- R36, R109: the active job j is FAULTED with KEY_LOST and the sweep hold is released; a chunk whose header was not issued
is dropped and any other is kept, a write of the progress part is held or due, and a recovery stops (log 39). -/
def JobLosesKey (j : Job) (s t : State) : Prop :=
  let kept := s.rke.headerIssued = true ∨ s.rke.phase = .idle
  let faulted := { s.rke with
    queue := { j with state := .faulted, fault := some .keyLost } :: s.rke.queue.tail
    runAnyway := false, dueProgress := t.rke.dueProgress }
  t.kst.hold = none ∧ (t.hasWrite .rekeyProgress ∨ t.rke.dueProgress ≠ none) ∧
  (kept → t.rke = faulted) ∧
  (¬ kept → t.rke = { faulted with
    phase := .idle, first := 0, n := 0, window := false, headerIssued := false, buffer := [], todo := [], issued := []
    work := s.rke.work.filter (fun w => w.stage != .waiting), chunk := s.rke.chunk + 1, closing := false })

/-- R33, R36, R94: a load of range r under the RAK k, NOT_LOADED before, that finds a key damaged. The CLEAR contexts of the
range are aborted KEY_DAMAGED; each damaged slot is EMPTY, and its KEY record and the RANGE record are written; the active
job of the range is FAULTED, but for one that has completed (log 23), and no job resumes (log 39). The range is LOADED, and
its other slots have their copies. Nothing else of the key slots, the loads and the sweep changes but what the contexts and
the hold release. -/
def KeysDamaged (r : Nat) (k : Rak) (s t : State) : Prop :=
  let picked := fun x : OpenContext => x.mode == .clear && x.range == some r
  let swept := fun j : Job => s.activeJob = some j ∧ j.range = r ∧ s.rke.finished = none
  let unheld := (∃ j, swept j) → s.kst.hold = none
  ContextsAborted .keyDamaged picked s t ∧ t.dpu.flights = s.dpu.flights ∧ t.kst.reservation = s.kst.reservation ∧
  (∀ x, s.findsDamaged r k x → t.slot x = .blank ∧ t.hasWrite (.key x)) ∧ t.hasWrite (.range r) ∧
  (∀ x, ¬ s.findsDamaged r k x → t.slot x =
    { s.slot x with users := (t.slot x).users, copy := (t.slot x).copy, erasing := (t.slot x).erasing }) ∧
  (∀ j, swept j → JobLosesKey j s t) ∧
  ((∀ j, ¬ swept j) → t.rke = s.rke ∧ t.kst.hold = s.kst.hold ∧ WritesSame .rekeyProgress s t) ∧
  (unheld → t.load r = .loaded k) ∧
  (unheld → (∀ c x, (s.ctx c).xfer = some x → picked x = false) →
    (∀ q, q ≠ r → t.load q = s.load q) ∧
    (∀ x, ¬ s.findsDamaged r k x → WritesSame (.key x) s t ∧
      (s.unwraps r x → t.slot x = { s.slot x with copy := (s.slot x).material.map (fun m => m.key) }) ∧
      (¬ s.unwraps r x → t.slot x = s.slot x)))

/-! ### An escalation (R124 to R126, R138) -/

/-- R90 to R92: every OPEN context in mode CLEAR is aborted, and no other context changes. -/
abbrev ClearAborted (cause : AbortCause) (s t : State) : Prop := ContextsAborted cause (fun x => x.mode == .clear) s t

/-- R20, R165: a commit in DRAINING is abandoned, with PREEMPTED under its tag unless a link restart withholds it, and its
tag is free; any other commit state stays. `tags` are the tags in use when it is abandoned. -/
def DrainPreempted (tags : List Nat) (s t : State) : Prop :=
  (∀ a n k rto, s.rtb.commit = .draining a n k rto → t.rtb.commit = .idle ∧ t.lif.tagsInUse = s.tagsAfter rto tags ∧
    (rto.session = s.lif.session → frame rto.channel rto.tag (.status .preempted []) ∈ t.sent)) ∧
  ((∀ a n k rto, s.rtb.commit ≠ .draining a n k rto) → t.rtb.commit = s.rtb.commit ∧ t.lif.tagsInUse = tags)

/-- R34, R105, R108: what a released sweep hold leaves of the load of its range r. A RELEASING range, or a LOADED one that
is locked both ways, goes NOT_LOADED when no key of its own that it names has users left, else RELEASING; any other load
stays. -/
def LoadReleased (s t : State) (r : Nat) : Prop :=
  let locked := ∃ g, t.fields r = some g ∧ g.readLocked = true ∧ g.writeLocked = true
  let unused := ∀ k ∈ t.namedSlots r, (t.slot k).owner = some r → (t.slot k).users = 0
  (s.load r = .notLoaded → t.load r = .notLoaded) ∧
  (∀ k, s.load r = .loaded k → ¬ locked → t.load r = .loaded k) ∧
  (∀ k, (s.load r = .releasing k ∨ (s.load r = .loaded k ∧ locked)) →
    (unused → t.load r = .notLoaded) ∧ (¬ unused → t.load r = .releasing k))

/-- The record units that a released hold may write: those of its keys, RETIRING with their last user gone (R30). -/
def State.heldUnits (s : State) : List StoreUnit :=
  match s.kst.hold with
  | some h => [.key h.oldKey, .key h.newKey]
  | none => []

/-- R125, the effects of passing LOCK: every ENABLED range is locked both ways, no RAK and no pool key copy is loaded,
the CLEAR contexts alone end, with cause LOCKDOWN, a commit that drains is abandoned with PREEMPTED and its staged list
kept (R20), the sweep pauses, dropping a chunk that can be dropped and every job_copy (R107), and SEALED and OPEN become
QUARANTINE. `tags` are the tags in use before it. -/
def LockedDown (tags : List Nat) (s t : State) : Prop :=
  let droppable := s.rke.phase = .claiming ∨ (s.rke.phase = .reading ∧ s.rke.headerIssued = false)
  (∀ r, t.fields r = (s.fields r).map (fun g => { g with readLocked := true, writeLocked := true })) ∧
  (∀ r, s.fields r = none → t.entry r = s.entry r) ∧ t.rtb.resealOnWake = s.rtb.resealOnWake ∧ t.rtb.staged = s.rtb.staged ∧
  (∀ r, t.load r = .notLoaded) ∧ t.kst.hold = none ∧ (t.slot 23).copy = (s.slot 23).copy ∧
  (∀ k < 23, (t.slot k).copy = none ∧ (t.slot k).state = (s.slot k).state ∧ (t.slot k).owner = (s.slot k).owner ∧
    (t.slot k).material = (s.slot k).material) ∧
  ClearAborted .lockdown s t ∧ DrainPreempted tags s t ∧
  t.kst.reservation = (if s.rtb.commit.phase = .draining then 0 else s.kst.reservation) ∧
  t.rke.queue.map (fun j => j.range) = s.rke.queue.map (fun j => j.range) ∧ (∀ j ∈ t.rke.queue, j.copy = none) ∧
  (∀ j, s.headJob = some j →
    t.headState = some (if j.state = .sweeping ∧ s.rke.finished = none then .paused else j.state)) ∧
  (droppable → t.rke.phase = .idle ∧ t.rke.window = false) ∧
  (¬ droppable → t.rke.phase = s.rke.phase ∧ t.rke.window = s.rke.window) ∧
  t.btc = { s.btc with state := if s.btc.state = .sealed ∨ s.btc.state = .opened then .quarantine else s.btc.state }

/-- R138: a step given to the injected chain. Without a chain, one is created with the steps and the origin of its giver;
a step of the same kind that has not begun absorbs it; otherwise it joins the end of the chain, with that chain's new
origin. A chain whose end is being recorded goes on with it (log 25). -/
def StepGiven (same : WipeStep → Bool) (step : WipeStep) (made : List WipeStep) (o : Origin) (joined : Origin → Origin)
    (before after : Option Chain) : Prop :=
  match before with
  | none => ∃ no, after = some (.make o made no)
  | some c =>
    let waiting := if c.begun then c.steps.tail else c.steps
    ((∃ x ∈ waiting, same x = true) → after = some c) ∧
    ((∀ x ∈ waiting, same x = false) →
      (c.ending = none → after = some { c with steps := c.steps ++ [step], origin := joined c.origin }) ∧
      (c.ending ≠ none →
        after = some { c with steps := c.steps ++ [step], origin := joined c.origin, ending := none, durable := false }))

/-- R126, R138: one CUT_KEYS from the Response Unit. -/
def CutGiven : Option Chain → Option Chain → Prop :=
  StepGiven (fun x => x == .cutKeys) .cutKeys [.cutKeys] .responseErase id

/-- R126, R138: one FILL(0, capacity) from the Response Unit. -/
def FillGiven : Option Chain → Option Chain → Prop :=
  StepGiven WipeStep.isFill (.fill none 0) [.cutKeys, .fill none 0] .responsePurge (fun _ => .responsePurge)

/-- R124 to R126: the part escalates from the level of s to n with cause c. The effects of each level passed are there,
a CUT_KEYS is placed before a FILL, the WIPE record waits in the store for the report of each, and while the link is
started a RESPONSE_NOTICE is sent; `more` are the pieces that the command changes besides, and `tags` the tags in use before
the escalation, of which only that of an abandoned commit becomes free. -/
def Escalates (more : List Piece) (tags : List Nat) (s t : State) (n : Level) (c : Nat) : Prop :=
  let lock := s.rsu.level.number < 2 ∧ 2 ≤ n.number
  let erase := s.rsu.level.number < 3 ∧ 3 ≤ n.number
  let purge := s.rsu.level.number < 4 ∧ 4 ≤ n.number
  t.rsu.level = n ∧ t.rsu.firstCause = (if s.rsu.level = .calm then some c else s.rsu.firstCause) ∧
  Framed (more ++ [.response, .writes, .sent, .wipe, .tags, .boot, .ranges, .commit, .data, .rekey, .keySlots, .loads, .hold]) s t ∧
  (¬ lock → Framed (more ++ [.response, .writes, .sent, .wipe]) s t ∧ t.lif.tagsInUse = tags) ∧ (lock → LockedDown tags s t) ∧
  (¬ erase → ¬ purge → t.wpe = s.wpe) ∧ t.wpe.normal = s.wpe.normal ∧
  (∃ m, (erase → CutGiven s.wpe.injected m ∧ t.holds .wipe (t.recordOf .wipe) (.wipeGiven .erase)) ∧
    (¬ erase → m = s.wpe.injected) ∧
    (purge → FillGiven m t.wpe.injected ∧ t.holds .wipe (t.recordOf .wipe) (.wipeGiven .purge)) ∧
    (¬ purge → t.wpe.injected = m)) ∧
  (s.lif.started = true → frame .control 0 (.responseNotice s.rsu.level n c) ∈ t.sent)

/-! ### The Range Table at a start-up -/

/-- R114: the active job that the REKEY record names: that of the queue part, or of the progress part where the queue
part is damaged. -/
def Units.activeJob (x : Units) : Option ActiveJob :=
  match x.rekeyQueue, x.rekeyProgress with
  | some q, _ => q.active
  | none, some (some j) => some { range := j.range, serial := j.serial, newKey := j.newKey }
  | none, _ => none

/-- R114: the queue part that the rekey queue is rebuilt from: the stored one, or, where it is damaged, the active job of a
readable progress part alone, whose serial the serial counter takes; none where both parts are damaged. -/
def Units.queuePart (x : Units) : Option QueuePart :=
  match x.rekeyQueue, x.rekeyProgress with
  | some q, _ => some q
  | none, some (some j) => some { serial := j.serial, ranges := [j.range], active := x.activeJob }
  | none, some none => some { serial := 0, ranges := [], active := none }
  | none, none => none

/-- R114: a stored range's new_key_slot and watermark. Those of the active job's range come from the REKEY record, whose
progress part counts where it is of this job; else the watermark is the range's first block, also while a damaged part's
scratch header is still to be judged (the model's choice, log 39). They stay as the RANGE record has them where the job is
completed, and in every other range. -/
def Units.split (x : Units) (r : Nat) (g : RangeFields) : Option Split :=
  let first := (g.bounds.map (fun b => b.first)).getD 0
  match x.activeJob with
  | none => g.split
  | some a =>
    if a.range ≠ r ∨ a.newKey = g.keySlot then g.split
    else some { newKey := a.newKey, watermark := match x.rekeyProgress with
      | some (some j) => if j.serial = a.serial then j.watermark else first
      | _ => first }

/-- R39, R43: what a start-up keeps of an envelope. Of two forms it keeps the one of the slot's CRED record, or the newer
where that record is damaged; a single form of a user slot whose record was damaged goes (log 38). -/
def Units.kept (x : Units) (e : Envelope) : Option Envelope :=
  match e.holder with
  | .device => some e
  | .cred i =>
    let c := (x.cred[i]?).getD none
    let newer := e.wraps.getLast?.toList
    if 1 < e.wraps.length then
      some { e with wraps := match c.bind (fun d => d.wrap) with
        | some w => if w ∈ e.wraps then [w] else newer
        | none => newer }
    else if 2 ≤ i ∧ ∀ d, c = some d → d.damaged = true then none
    else some e

/-- R24, R36, R39, R114, R157: the entries that the record units give at a start-up, before a staged list is settled: a
damaged RANGE record gives DAMAGED, and a range has key_lost where its record says so, where a KEY record that it names is
damaged, or where both parts of the REKEY record are and it has a new_key_slot. -/
def Units.table (x : Units) : List Entry :=
  (List.range 16).map (fun (r : Nat) => match ((x.range[r]?).getD none : Option Entry) with
    | none => .damaged
    | some (.enabled g) =>
      let f := { g with split := x.split r g, envelopes := g.envelopes.filterMap x.kept }
      .enabled { f with keyLost := g.keyLost || f.named.any (fun k => decide (k < 23 ∧ x.key[k]? = some none)) ||
        (x.rekeyQueue.isNone && x.rekeyProgress.isNone && g.split.isSome) }
    | some e => e)

/-- R13: the result of a list on the entries of a start-up. -/
def Units.plan (x : Units) (reseal : Bool) (es : List Edit) : Plan :=
  es.foldl Plan.apply { entries := x.table, reseal := reseal, remade := [], rekeyed := [], repaired := [] }

/-- R23, R25: the prepared material of a list has a key slot for each range that needs a new key, and the ADMIN envelope
of each new RAK (log 20). -/
def Units.serves (x : Units) (reseal : Bool) (l : StagedList) : Prop :=
  ∀ r ∈ (x.plan reseal l.edits).needKeys, (∃ k, (r, k) ∈ l.prepared.slots) ∧
    (r ∈ (x.plan reseal l.edits).remade → ∃ e, (r, e) ∈ l.prepared.envelopes ∧ e.holder = .cred 0)

/-- R23: the check of a deferred list at a start-up: no DEFINE, NEW_KEY or DISABLE names the range of the recovered job,
with key_lost off and the job not completed; every prepared slot is LIVE; and the material serves the list (log 20). -/
def Units.deferredHolds (x : Units) (reseal : Bool) (l : StagedList) : Prop :=
  (∀ a f, x.activeJob = some a → x.table[a.range]? = some (.enabled f) → f.keyLost = false → f.keySlot ≠ a.newKey →
    ∀ e ∈ l.edits, e.range = a.range → e.structural = false) ∧
  (∀ q ∈ l.prepared.slots, ∃ c, x.key[q.2]? = some (some c) ∧ c.state = .live) ∧ x.serves reseal l

/-- R5, R33, R36, R64: range r shows an entry after a start-up: all of it but the lock flags, which R5 sets, key_lost,
which the load of a key may set besides, and in BLANK the custodian envelopes, which are gone. -/
def State.shows (t : State) (r : Nat) : Entry → Prop
  | .enabled f => ∃ h, t.fields r = some h ∧
      { h with readLocked := f.readLocked, writeLocked := f.writeLocked, envelopes := f.envelopes, keyLost := f.keyLost } = f ∧
      h.envelopes = f.envelopes.filter (fun e => decide (t.btc.state = .blank → e.holder ≠ .cred 0 ∧ e.holder ≠ .cred 1)) ∧
      (f.keyLost = true → h.keyLost = true) ∧
      (h.keyLost = true → f.keyLost = true ∨ ∃ k ∈ f.named, (t.slot k).state = .empty)
  | e => t.entry r = e

/-- R23, R25: a list stands installed after a start-up. The ranges it does not name show the stored table; those it names
show its result with the prepared slots and envelopes, and the RANGE record of each that changed waits for the store. The
staged list is empty, reseal_on_wake is the list's, the jobs of repaired ranges are gone, and the start-up's work goes on
until its writes have completed. -/
def State.installedAtStart (t : State) (x : Units) (reseal : Bool) (l : StagedList) : Prop :=
  let p := x.plan reseal l.edits
  let before := fun r : Nat => (x.table[r]?).getD .disabled
  let awaited := fun (u : StoreUnit) (ok : Record → Prop) => ∃ w ∈ t.writesHeld, w.unit = u ∧ .startCommit ∈ w.waiters ∧ ok w.content
  t.rtb.staged = .blank ∧ t.rtb.startCommit ≠ none ∧ (∃ u, awaited u (fun _ => True)) ∧
  t.rtb.resealOnWake = p.reseal ∧
  (p.reseal ≠ reseal → awaited .device (fun c => ∃ d, c = .device d ∧ d.resealOnWake = p.reseal)) ∧
  (∀ r < 16, (∀ e ∈ l.edits, e.range ≠ r) → t.shows r (before r)) ∧
  (∀ r < 16, (∃ e ∈ l.edits, e.range = r) →
    let result : Entry := match p.entry r with
      | .enabled f => .enabled { f with
          keySlot := (pairedWith l.prepared.slots r).getD f.keySlot
          envelopes := ordered ((l.prepared.envelopes.filter (fun q => q.1 == r)).filterMap (fun q => x.kept q.2) ++
            f.envelopes.filter (fun e => f.holds e.holder)) }
      | e => e
    t.shows r result ∧ (result.stored ≠ (before r).stored → awaited (.range r) (fun _ => True))) ∧
  (∀ j ∈ t.rke.queue, j.range ∉ p.repaired)

end Machine

end Sys2Proof
end

