-- ==== Sys2Proof/Certificates/Slice0/Obligations.lean ====
section
/-! DEFINITION. The statements about the L416 for the provers: the machine as a whole first, then the
commands by the chapters of the manual. A statement of what a command does has as its conclusion that the
command answers a next state, and its frame says which pieces of state may differ. -/

open Sys2Proof Sys2Proof.Machine

/-! ### The machine as a whole -/

/-- A step runs the command at the front of the queue on the state with the rest of the queue. -/
def Obligations.StepRunsFrontCommand : Prop :=
  ∀ (c : Instr) (rest : List Instr) (s : State), s.pending = c :: rest → step s = exec c { s with pending := rest }

/-- On an empty queue one second passes (log 4, the model's choice for R158): while the main supply is present
the timebase counts it, challenges, backoffs, the hello window, the media timeouts and the alarm lose it, and
the absence timer gains it up to its threshold while it counts; without the main supply nothing changes. A draining
commit loses a second in ACTIVE; any other commit, the staged list and the work on either stay.
That a count which has reached 0 stays 0 until its own command comes, and the absence count at its threshold, is the
model's choice too (log 36). -/
def Obligations.IdleStepPassesOneSecond : Prop :=
  ∀ s : State, s.pending = [] →
    (s.sst.power.supplied = false → step s = .next s) ∧
    (s.sst.power.supplied = true → ∃ t, step s = .next t ∧
      Framed [.credSlots, .challenges, .boot, .commit, .media, .response, .power] s t ∧
      t.sst = { s.sst with seconds := s.sst.seconds + 1 } ∧
      t.cru.slots = s.cru.slots.map (fun x => { x with backoff := x.backoff.map (· - 1) }) ∧
      t.cru.challenges = s.cru.challenges.map (fun x => x.map (fun y => { y with remaining := y.remaining - 1 })) ∧
      t.btc = { s.btc with window := s.btc.window.map (· - 1) } ∧
      t.lif = { s.lif with outstanding := s.lif.outstanding.map (fun q => { q with remaining := q.remaining - 1 }) } ∧
      t.rsu = { s.rsu with
        timer := s.rsu.timer.map (fun x => { x with remaining := x.remaining - 1 })
        alarm := s.rsu.alarm.map (· - 1)
        absence := if s.absenceCounting = true ∧ s.rsu.absence < s.rsu.absenceThreshold then s.rsu.absence + 1
                   else s.rsu.absence } ∧
      t.rtb = { s.rtb with commit := t.rtb.commit } ∧
      (∀ a n k rto, s.rtb.commit = .draining a n k rto →
        t.rtb.commit = .draining a (if s.sst.power = .active then n - 1 else n) k rto) ∧
      ((∀ a n k rto, s.rtb.commit ≠ .draining a n k rto) → t.rtb.commit = s.rtb.commit))

/-- Every command goes on: none faults or is refused, none touches the queue of commands, and none changes
the manufacture copy of the label-secret verifier (R54). -/
def Obligations.EveryCommandGoesOn : Prop :=
  ∀ (c : Instr) (s : State), ∃ t, exec c s = .next t ∧ t.pending = s.pending ∧ t.sst.labelCopy = s.sst.labelCopy

/-- Every step keeps the sizes of the tables. -/
def Obligations.StepKeepsTableSizes : Prop :=
  ∀ s t : State, Shaped s → step s = .next t → Shaped t

/-- Every step keeps the law of the store's waiting writes (R154). -/
def Obligations.StepKeepsStoreLaw : Prop :=
  ∀ s t : State, Lawful s → step s = .next t → Lawful t

/-- Every step keeps the media credits: each is free or held by one outstanding request under its own tag (R174). -/
def Obligations.StepKeepsMediaCredits : Prop :=
  ∀ s t : State, Credited s → step s = .next t → Credited t

/-- The state after reset has its tables at their sizes, its store in order and no credit, and it is what a cold
start-up of a part fresh from manufacture leaves (4.3, R27, R41, R44, R97, R117, R163, R168, R173): BLANK, ACTIVE,
level CALM, the link not started, READY_OUT asserted, ten EMPTY credential slots, range 0 over the whole drive and
open, one pool slot and the START slot LIVE.
Taking this state as the reset state is the model's choice (log 1). -/
def Obligations.ResetIsBlankPart : Prop :=
  let s := State.reset
  Shaped s ∧ Lawful s ∧ Credited s ∧ s.btc.state = .blank ∧ s.btc.unsealed = false ∧ s.btc.token = none ∧ s.btc.hello = .none ∧
  s.sst.power = .active ∧ s.sst.drain = .none ∧ s.sst.seconds = 0 ∧ s.sst.ready = true ∧ s.sst.marks = [] ∧
  s.rsu.level = .calm ∧ s.rsu.timer = none ∧ s.rsu.absence = 0 ∧ s.rsu.alarm = none ∧
  s.lif.started = false ∧ s.lif.mediaCredits = 0 ∧ s.lif.capacity = 0 ∧ s.lif.erroredBursts = 0 ∧
  s.lif.nextTag = 1 ∧ s.lif.limitControl = 4160 ∧
  (∀ i < 10, (s.cred i).record.state = .empty ∧ (s.cred i).record.limit = 10 ∧ (s.cred i).backoff = none) ∧
  (∀ i < 4, s.cru.challenges[i]? = some none) ∧
  (∀ r < 16, 0 < r → s.entry r = .disabled) ∧
  (∃ f, s.fields 0 = some f ∧ f.bounds = none ∧ f.readLocked = false ∧ f.writeLocked = false ∧ f.powerLock = false) ∧
  s.poolCount .live = 1 ∧ s.poolCount .empty = 22 ∧ (s.slot 23).state = .live ∧
  (∀ c < 16, s.ctx c = { generation := 0, xfer := none }) ∧
  (∀ i < 8, (s.setting i).enabled = decide (i = 3)) ∧ (s.setting 3).level = .lock ∧ (s.setting 3).delay = 0 ∧
  s.rtb.commit = .idle ∧ s.rtb.staged.edits = [] ∧ s.rke.queue = [] ∧ s.wpe.normal = none ∧ s.wpe.injected = none

/-- R154: a write of a unit that waits in the queue or on the wait list takes the place of the waiting one, with
the new content and both their requesters; any other joins the tail of the queue, or, when sixteen wait there, the tail of
the wait list; a write in service is not touched. When no write is in service the store takes the head of its queue into
service, and the head of the wait list then joins the tail of the queue. Nothing else changes. Both keep what the rule says
of the collections: at most sixteen writes in the queue, at most one waiting write a unit, and a wait list only behind a
full queue. -/
def Obligations.StorePlacesAndTakesWrites : Prop :=
  (∀ (s : State) (u : StoreUnit) (content : Record) (ws : List Waiter),
    let t := s.place u content ws
    let new : Write := { unit := u, content := content, waiters := ws }
    let replaced := fun l : List Write =>
      l.map (fun w => if w.unit = u then { w with content := content, waiters := w.waiters ++ ws } else w)
    let queued := ∃ w ∈ s.sst.queue, w.unit = u
    let waits := ∃ w ∈ s.sst.waiting, w.unit = u
    s.write u ws = s.place u (s.recordOf u) ws ∧ (Lawful s → Lawful t) ∧
      Framed [.writes] s t ∧ t.sst.serving = s.sst.serving ∧
      (queued → t.sst.queue = replaced s.sst.queue ∧ t.sst.waiting = s.sst.waiting) ∧
      (¬ queued → waits → t.sst.queue = s.sst.queue ∧ t.sst.waiting = replaced s.sst.waiting) ∧
      (¬ queued → ¬ waits → s.sst.queue.length < 16 →
        t.sst.queue = s.sst.queue ++ [new] ∧ t.sst.waiting = s.sst.waiting) ∧
      (¬ queued → ¬ waits → 16 ≤ s.sst.queue.length →
        t.sst.queue = s.sst.queue ∧ t.sst.waiting = s.sst.waiting ++ [new])) ∧
  (∀ s : State, Framed [.writes] s s.serve ∧ (Lawful s → Lawful s.serve) ∧
    (∀ w, s.sst.serving = some w → s.serve = s) ∧ (s.sst.queue = [] → s.serve = s) ∧
    (∀ w q, s.sst.serving = none → s.sst.queue = w :: q →
      s.serve.sst.serving = some w ∧ s.serve.sst.queue = q ++ s.sst.waiting.take 1 ∧
      s.serve.sst.waiting = s.sst.waiting.drop 1))

/-! ### Requests and proofs (chapters 3, 10) -/

/-- R163, R166: while READY_OUT is deasserted or the main supply is away, and in the rest of a dropped burst,
a request is not taken; the store alone may take its next write. R165, R169, R177: the checks of the Link Interface on
a request it takes, in their order: tag 0, a CONTROL tag in use (but for LINK_START), the link not started (but for
LINK_START, IDENTIFY and STATUS), the length. A refused request changes nothing but the count of frames taken; its
answer carries its tag and channel.
That a frame which is not taken leaves no trace is the model's choice (log 16). -/
def Obligations.LinkChecksComeInOrder : Prop :=
  (∀ (c : Instr) (s : State), c.asRequest.isSome = true → (s.takesFrames = false ∨ s.lif.burstDropped = true) →
     Goes c s s) ∧
  (∀ (c : Instr) (s : State) (m : Message) (f : Hdr) (fits : Bool), c.asRequest = some (m, f, fits) →
     s.takesFrames = true → s.lif.burstDropped = false →
     (f.tag = 0 → Goes c s (s.answered m f (.status .badField []))) ∧
     (f.tag ≠ 0 → m.channel = .control → m ≠ .linkStart → f.tag ∈ s.lif.tagsInUse →
       Goes c s (s.answered m f (.status .tagInUse []))) ∧
     (f.tag ≠ 0 → ¬(m.channel = .control ∧ m ≠ .linkStart ∧ f.tag ∈ s.lif.tagsInUse) → s.lif.started = false →
       m ∉ [Message.linkStart, .identify, .status] →
       Goes c s (s.answered m f (.status .notStarted []))) ∧
     (f.tag ≠ 0 → ¬(m.channel = .control ∧ m ≠ .linkStart ∧ f.tag ∈ s.lif.tagsInUse) →
       (s.lif.started = true ∨ m ∈ [Message.linkStart, .identify, .status]) → fits = false →
       Goes c s (s.answered m f (.status .badLength []))))

/-- R48, checks 1 to 4: a proof block under an EMPTY or DISABLED slot or no slot, a BLOCKED slot, a slot whose
backoff runs, or over a free challenge, in this order; nothing is counted and no challenge is consumed. R52 to R54: a
proof that matches under a slot that may not make the request is refused NOT_PERMITTED, its challenge consumed and the
slot's failures 0, its record written where they were not (R52); a label proof over a free challenge is refused STALE_CHALLENGE, and one that does not match
BAD_PROOF at once, its challenge consumed, nothing counted and nothing written. The last clause gives the rows of R53's
table: which slots may make each request that carries a proof. -/
def Obligations.ProofIsCheckedInOrder : Prop :=
  (∀ (c : Instr) (s : State) (m : Message) (f : Hdr) (fields : List Nat) (n : Nat) (p : ProofBlock),
     c.asRequest = some (m, f, true) → c.asProven = some (m, fields, n, p) → c.passes s →
     ((10 ≤ p.slot ∨ (s.cred p.slot).record.state = .empty ∨ (s.cred p.slot).record.state = .disabled) →
       Goes c s (s.answered m f (.status .badSlot []))) ∧
     (p.slot < 10 → (s.cred p.slot).record.state = .blocked →
       Goes c s (s.answered m f (.status .blockedSlot []))) ∧
     (∀ k, p.slot < 10 → (s.cred p.slot).record.state = .enabled → (s.cred p.slot).backoff = some k →
       Goes c s (s.answered m f (.status .backoff [k]))) ∧
     (p.slot < 10 → (s.cred p.slot).record.state = .enabled → (s.cred p.slot).backoff = none →
       s.challengeOf p = none → Goes c s (s.answered m f (.status .staleChallenge [])))) ∧
  (∀ (c : Instr) (s : State) (m : Message) (f : Hdr) (fields : List Nat) (p : ProofBlock),
     c.asRequest = some (m, f, true) → c.passes s →
     (∀ n i, c.asProven = some (m, fields, n, p) → Proves s m fields i p → s.permits m i n = false →
       RefusedAfterProof c s i p f.tag .notPermitted []) ∧
     (∀ ch, c.asLabelled = some (m, fields, p) → p.slot = 255 → s.challengeOf p = some ch →
       p.proof ≠ .digest s.btc.labelVerifier.secret ch.nonce (digestText m fields) →
       RefusedAfterLabel c s p f.tag .badProof) ∧
     (c.asLabelled = some (m, fields, p) → p.slot = 255 → s.challengeOf p = none →
       Goes c s (s.answered m f (.status .staleChallenge [])))) ∧
  (∀ (s : State) (i n : Nat),
     let lists := ∃ g, s.fields n = some g ∧ (listed g.readList i = true ∨ listed g.writeList i = true)
     (s.permits .unlock i n = true ↔ (n < 16 → lists)) ∧ (s.permits .lock i n = true ↔ (i < 2 ∨ (n < 16 → lists))) ∧
     s.permits .setCredential i n = true ∧ (s.permits .resetAttempts i n = true ↔ (i < 2 ∧ n ≠ i)) ∧
     (∀ m ∈ [Message.startImageUnseal, .rangeList, .evidenceList, .responseClear, .remoteOrder, .wipeAbort],
       (s.permits m i n = true ↔ i < 2)) ∧
     (∀ m ∈ [Message.bindPlatform, .rangeStage, .rangeDiscard, .rangeCommit, .rekeyQueue, .rekeyResume, .evidenceSet, .wipeStart],
       (s.permits m i n = true ↔ i = 0)) ∧
     s.permits .provision i n = false ∧ s.permits .reprovision i n = false)

/-- R49: a proof that does not match under an ENABLED slot without backoff: the challenge is consumed, the
failures rise by 1 and hold at 255, a backoff of 2^(n − 3) seconds, at most 512, starts from 3 failures below
the limit, the slot is BLOCKED at the limit, and the BAD_PROOF waits for a write of the slot's record. -/
def Obligations.BadProofIsCounted : Prop :=
  ∀ (c : Instr) (s : State) (m : Message) (f : Hdr) (fields : List Nat) (n : Nat) (p : ProofBlock) (ch : Challenge)
    (v : Verifier),
    c.asRequest = some (m, f, true) → c.asProven = some (m, fields, n, p) → c.passes s → Shaped s →
    p.slot < 10 → (s.cred p.slot).record.state = .enabled → (s.cred p.slot).backoff = none →
    s.challengeOf p = some ch → s.verifier p.slot = some v → p.proof ≠ .digest v.secret ch.nonce (digestText m fields) →
    ∃ t, Goes c s t ∧ Framed [.bursts, .tags, .challenges, .credSlots, .writes] s t ∧ WritesOnly [.cred p.slot] s t ∧
      t.lif.tagsInUse = s.lif.tagsInUse ++ [f.tag] ∧
      t.cru.challenges = s.cru.challenges.set p.challenge none ∧
      (∀ j, j ≠ p.slot → t.cred j = s.cred j) ∧
      (t.cred p.slot).record.failures = min 255 ((s.cred p.slot).record.failures + 1) ∧
      (t.cred p.slot).record.limit = (s.cred p.slot).record.limit ∧
      (t.cred p.slot).record.verifier = (s.cred p.slot).record.verifier ∧
      ((s.cred p.slot).record.limit ≤ (t.cred p.slot).record.failures →
        (t.cred p.slot).record.state = .blocked ∧ (t.cred p.slot).backoff = none) ∧
      ((t.cred p.slot).record.failures < (s.cred p.slot).record.limit →
        (t.cred p.slot).record.state = .enabled ∧
        (t.cred p.slot).backoff = if 3 ≤ (t.cred p.slot).record.failures
          then some (min 512 (2 ^ ((t.cred p.slot).record.failures - 3))) else none) ∧
      t.holds (.cred p.slot) (t.recordOf (.cred p.slot))
        (.badProof (s.replyTo .control f.tag) ((t.cred p.slot).record.state == .blocked))

/-! ### The Link Interface (chapter 10) -/

/-- R42, R96, R111, R114, R115, R170, R171: an accepted LINK_START starts the link with its four values, frees all
credits, returns every limit to 4160, starts the hello window where a token is bound, and re-arms the absence timer with
a fresh beacon. The first one begins the recovery of a recorded chunk from the scratch span, or the read of the scratch
header. At a restart no tag is in use and every context is FREE: the users of its key slots fall, a RETIRING slot whose
last user it was is erased, and a RELEASING range without a holder left is NOT_LOADED; a chunk in READING starts again
from its reads, or, its header issued, from its scratch writes, and any other issues again, in ascending order, what has
not ended. Its OK is sent after the step, and a drain that waited for contexts goes on. Any other LINK_START is refused
BAD_FIELD and changes nothing. -/
def Obligations.LinkStartStartsTheLink : Prop :=
  ∀ (f : Hdr) (credits capacity image scratch : Nat) (s : State),
    (Instr.linkStart f credits capacity image scratch).passes s →
    let fits := 1 ≤ credits ∧ credits ≤ 8 ∧ 1 ≤ capacity ∧ capacity ≤ 2 ^ 40 ∧ image < 2 ^ 48 ∧ scratch ≤ 2 ^ 48 - 34 ∧
      (s.btc.imageSize = 0 ∨ scratch + 33 ≤ image ∨ image + s.btc.imageSize ≤ scratch) ∧
      (s.lif.started = true → scratch ≠ s.lif.scratchBase →
        s.rke.phase ≠ .staged ∧ s.rke.phase ≠ .copying ∧ s.rke.recovery = .none)
    let refs := (List.range 16).flatMap (fun c => match (s.ctx c).xfer with
      | some x => x.keyRefs
      | none => [])
    (fits → ∃ t, Goes (.linkStart f credits capacity image scratch) s t.settleDrain ∧
      Framed [.link, .media, .bursts, .tags, .boot, .keySlots, .loads, .data, .rekey, .response, .writes, .names, .sent] s t ∧
      t.lif.started = true ∧ t.lif.mediaCredits = credits ∧ t.lif.capacity = capacity ∧ t.lif.imageBase = image ∧
      t.lif.scratchBase = scratch ∧ t.lif.freeCredits = credits ∧ t.lif.outstanding = [] ∧
      t.lif.nextTag = s.lif.nextTag ∧ t.lif.erroredBursts = s.lif.erroredBursts ∧
      t.lif.limitData = 4160 ∧ t.lif.limitControl = 4160 ∧ t.lif.limitPlatform = 4160 ∧
      t.lif.tagsInUse = (if s.lif.started then [] else s.lif.tagsInUse) ∧
      (s.lif.started = true → t.lif.session = s.lif.session + 1 ∧ ∀ c < 16, (t.ctx c).xfer = none) ∧
      (∀ c < 16, (t.ctx c).generation = (s.ctx c).generation) ∧ t.dpu = { s.dpu with contexts := t.dpu.contexts } ∧
      WritesOnly (refs.map StoreUnit.key) s t ∧
      (s.lif.started = true →
        (∀ k, t.slot k = { s.slot k with
          users := (s.slot k).users - refs.count k, copy := (t.slot k).copy, erasing := (t.slot k).erasing }) ∧
        (∀ k ∈ refs, (s.slot k).state = .retiring → (s.slot k).erasing = false → (t.slot k).users = 0 →
          t.holds (.key k) (.key .blank) (.erased k)) ∧
        (∀ r, t.load r = s.load r ∨ ((∃ k, s.load r = .releasing k) ∧ t.load r = .notLoaded)) ∧
        (∀ r k, k ∈ refs → (s.slot k).owner = some r → (∃ x, s.load r = .releasing x) →
          (∀ h, s.kst.hold = some h → h.range ≠ r) →
          (∀ g, s.fields r = some g → ∀ x ∈ g.named, (s.slot x).owner = some r → (t.slot x).users = 0) →
          t.load r = .notLoaded) ∧
        (s.rke.phase = .reading → s.rke.headerIssued = false → t.rke = { s.rke with
          chunk := s.rke.chunk + 1, buffer := List.replicate s.rke.n none, issued := []
          todo := (List.range s.rke.n).map ChunkOp.read, work := s.rke.work.filter (fun w => w.stage != .waiting) }) ∧
        (s.rke.phase = .reading → s.rke.headerIssued = true → t.rke = { s.rke with
          todo := (List.range s.rke.n).map ChunkOp.scratch, issued := [] }) ∧
        (s.rke.phase ≠ .reading → t.rke = { s.rke with todo := t.rke.todo, issued := [] } ∧
          (∀ o, o ∈ t.rke.todo ↔ o ∈ s.rke.todo ∨ o ∈ s.rke.issued) ∧
          ((s.rke.todo.map ChunkOp.position).Pairwise (· ≤ ·) → (t.rke.todo.map ChunkOp.position).Pairwise (· ≤ ·)))) ∧
      (s.lif.started = false → t.kst = s.kst ∧ t.dpu = s.dpu ∧ t.sst = s.sst ∧
        t.rke = match s.rke.recovery with
          | .none => s.rke
          | .copy first n => { s.rke with
              phase := .copying, first := first, n := n, window := true, headerIssued := true
              buffer := List.replicate n none, todo := (List.range n).map ChunkOp.recoverRead, issued := [], runAnyway := true }
          | .header => { s.rke with todo := [.recoverHeader], issued := [], runAnyway := true }) ∧
      t.btc = { s.btc with hello := if s.btc.token.isSome then .waiting else .none
                           window := if s.btc.token.isSome then some 30 else none } ∧
      t.rsu = { s.rsu with absence := 0, beacon := { issue := s.fresh } } ∧ t.fresh = s.fresh + 1 ∧
      t.sent = s.sent ++ [frame .control f.tag (.linkStarted s.btc.state s.sst.power s.lif.started)]) ∧
    (¬ fits → Goes (.linkStart f credits capacity image scratch) s (s.answered .linkStart f (.status .badField [])))

/-- R113, R134, R150, R172, R173: the five reads without a proof are answered in their step and change nothing else.
IDENTIFY gives the part code, the design level and the fixed sizes, STATUS the state of the part at the moment it is
taken. REKEY_STATUS shows the jobs in order, a concealed range as 0xFF and without its watermark and chunk;
RESPONSE_STATUS the level, its causes, the timer, the latch, the alarm and the absence count; WIPE_STATUS each chain, a
FILL without its count before it has begun.
The last three are answered whole, or refused TOO_LONG where the reply exceeds the limit of CONTROL.
Which lengths those replies have is left free (log 10), and so is the design level (log 11). That STATUS counts a
RELEASING range as loaded is the model's reading (log 30); that WIPE_STATUS lists a chain whose end is being recorded,
with no step, is its choice (log 35). -/
def Obligations.ReadsAnswerInTheirStep : Prop :=
  ∀ (f : Hdr) (s : State),
    let whole := fun (bytes : Nat) (b : Body) => if bytes ≤ s.lif.limitControl then b else .status .tooLong []
    let hidden := fun r : Nat => ∃ g, s.fields r = some g ∧ g.concealed = true
    ((Instr.identify f).passes s → Goes (.identify f) s (s.answered .identify f (.identity
      { partCode := "L416", designLevel := Config.designLevel, payloadMax := 4160, contexts := 16, ranges := 16,
        keySlots := 24, credSlots := 10, sources := 8, scratchSpan := 33, imageMax := 16384 }))) ∧
    ((Instr.status f).passes s → ∃ r : StatusReport, Goes (.status f) s (s.answered .status f (.partStatus r)) ∧
      r.started = s.lif.started ∧ r.mediaCredits = s.lif.mediaCredits ∧ r.creditsInUse = s.lif.outstanding.length ∧
      r.capacity = s.lif.capacity ∧ r.erroredBursts = s.lif.erroredBursts ∧ r.power = s.sst.power ∧
      r.drain = s.sst.drain.report ∧ r.boot = s.btc.state ∧
      (r.overlay = true ↔ s.btc.state = .sealed ∨ s.btc.state = .quarantine ∨ s.btc.state = .erased) ∧
      r.imageSize = s.btc.imageSize ∧ r.unsealed = s.btc.unsealed ∧ r.tokenBound = s.btc.token.isSome ∧
      r.hello = s.btc.hello ∧ r.level = s.rsu.level ∧ r.openContexts = s.openContexts.length ∧
      r.emptySlots = s.poolCount .empty ∧ r.liveSlots = s.poolCount .live ∧ r.retiringSlots = s.poolCount .retiring ∧
      r.loadedRanges = s.loadedRanges ∧ r.sweepHold = s.kst.hold.isSome ∧ r.commit = s.rtb.commit.phase ∧
      r.damagedUnits = s.sst.marks.length ∧ r.waitingWrites = s.sst.queue.length + s.sst.waiting.length) ∧
    ((Instr.rekeyStatus f).passes s → ∃ r : RekeyReport,
      Goes (.rekeyStatus f) s (s.answered .rekeyStatus f
        (whole (Config.rekeyStatusBytes s.rke.queue.length) (.rekeyStatus r))) ∧
      r.serial = s.rke.serial ∧ r.phase = s.rke.phase ∧ r.window = s.rke.window ∧
      r.jobs.length = s.rke.queue.length ∧
      (∀ (i : Nat) (j : Job), s.rke.queue[i]? = some j → ∃ n, r.jobs[i]? = some (n, j.state) ∧
        (hidden j.range → n = 255) ∧ (¬ hidden j.range → n = j.range)) ∧
      (s.headJob = none → r.headSerial = none ∧ r.faultCause = none ∧ r.watermark = none) ∧
      (∀ j, s.headJob = some j → r.headSerial = j.serial ∧ r.faultCause = j.fault ∧
        (hidden j.range → r.watermark = none ∧ r.chunk = none) ∧
        (¬ hidden j.range → r.watermark = ((s.fields j.range).bind (fun g => g.split)).map (fun w => w.watermark) ∧
          r.chunk = if s.rke.phase = .idle then none else some (s.rke.first, s.rke.n)))) ∧
    ((Instr.responseStatus f).passes s → ∃ r : ResponseReport,
      Goes (.responseStatus f) s (s.answered .responseStatus f (whole Config.responseStatusBytes (.responseStatus r))) ∧
      r.level = s.rsu.level ∧ r.firstCause = s.rsu.firstCause ∧ r.lastCause = s.rsu.lastCause ∧
      r.timer = s.rsu.timer.map (fun x => (x.pending.level, x.pending.source, x.remaining)) ∧
      r.wipeLevel = s.rsu.wipeLevel ∧ r.startLatch = s.rsu.startLatch ∧ r.alarmRemaining = s.rsu.alarm.getD 0 ∧
      r.absence = s.rsu.absence ∧
      (r.absenceCounting = true ↔ s.sst.power = .active ∧ (s.setting 0).enabled = true ∧ s.btc.token ≠ none ∧
        s.lif.started = true) ∧
      (r.alarmOut = true ↔ s.sst.power.supplied = true ∧ (s.rsu.level ≠ .calm ∨ s.rsu.alarm ≠ none))) ∧
    ((Instr.wipeStatus f).passes s → ∃ r : ChainKind → Option ChainReport,
      Goes (.wipeStatus f) s (s.answered .wipeStatus f
        (whole (Config.wipeStatusBytes (Chain.count s.wpe.normal + Chain.count s.wpe.injected))
          (.wipeStatus (r .normal) (r .injected)))) ∧
      (∀ k, s.chain k = none → r k = none) ∧
      (∀ k c, s.chain k = some c → ∃ x, r k = some x ∧ x.origin = c.origin ∧ x.begun = c.begun ∧
        x.steps = (if c.begun then c.steps else c.steps.map (fun y => match y with
          | .fill _ p => .fill none p
          | y => y)) ∧
        x.closing = c.closing ∧ x.failedChunks = c.failedChunks ∧
        (x.suspended = true ↔ k = .normal ∧ c.begun = true ∧ (∃ n p, c.steps.head? = some (.fill n p)) ∧ s.wpe.injected ≠ none) ∧
        x.outstanding = (s.lif.outstanding.filter (fun q => match q.client with
          | .wipe y no _ => y == k && no == c.no
          | .rekey _ _ => false)).length))

/-- R173: SET_REPLY_LIMIT takes 4104 to 4160 on DATA and 64 to 4160 on CONTROL and PLATFORM, and its OK carries
the limit; any other channel or value is refused BAD_FIELD. -/
def Obligations.SetReplyLimitSetsOneLimit : Prop :=
  ∀ (f : Hdr) (channel limit : Nat) (s : State), (Instr.setReplyLimit f channel limit).passes s →
    let c := Instr.setReplyLimit f channel limit
    let t := s.answered .setReplyLimit f (.status .ok [limit])
    (channel = 0 → 4104 ≤ limit → limit ≤ 4160 → Goes c s { t with lif := { t.lif with limitData := limit } }) ∧
    (channel = 1 → 64 ≤ limit → limit ≤ 4160 → Goes c s { t with lif := { t.lif with limitControl := limit } }) ∧
    (channel = 2 → 64 ≤ limit → limit ≤ 4160 → Goes c s { t with lif := { t.lif with limitPlatform := limit } }) ∧
    ((2 < channel ∨ 4160 < limit ∨ limit < 64 ∨ (channel = 0 ∧ limit < 4104)) →
      Goes c s (s.answered .setReplyLimit f (.status .badField [])))

/-- R166, R167, R177 items 1 to 3: a failed header check drops the rest of its burst with one BURST_DROPPED
notice, not sent before LINK_START; a damaged payload is answered FRAME_DAMAGED; a kind that names no message
is answered BAD_FIELD under tag 0, TAG_IN_USE under a CONTROL tag in use, BAD_KIND otherwise, and on MEDIA is
discarded. Nothing else changes, and in a dropped burst nothing is taken. R168: at the end of a burst the
errored-burst count rises by 1 after a failure, returning to 0 at 32 with an arrival of source 7, and returns to 0
after a clean burst.
What a BURST_DROPPED counts is the model's choice (log 17), as is a damaged frame on MEDIA (log 34). So is it that a failed,
damaged or unknown frame changes nothing at all, not even the mark of its burst, while no frame is taken or in a dropped
burst (log 16). -/
def Obligations.DamagedFramesAreAnsweredAndCounted : Prop :=
  ∀ (ch : Channel) (tag : Nat) (s : State),
    (s.takesFrames = true → s.lif.burstDropped = false →
      exec .headerCheckFail s = .next { s with
        lif := { s.lif with burstDropped := true, burstErrored := true }
        sent := if s.lif.started then s.sent ++ [frame .control 0 (.burstDropped s.lif.burstTaken)] else s.sent } ∧
      exec (.frameDamaged ch tag) s = .next { s with
        lif := { s.lif with burstErrored := true }, sent := s.sent ++ [frame ch tag (.status .frameDamaged [])] } ∧
      exec (.unknownKind ch tag) s = .next { s with
        lif := { s.lif with burstTaken := s.lif.burstTaken + 1 }
        sent := if ch = .media then s.sent
                else s.sent ++ [frame ch tag (.status
                  (if tag = 0 then .badField else if ch = .control ∧ tag ∈ s.lif.tagsInUse then .tagInUse else .badKind) [])] }) ∧
    (s.takesFrames = false ∨ s.lif.burstDropped = true →
      exec .headerCheckFail s = .next s ∧ exec (.frameDamaged ch tag) s = .next s ∧ exec (.unknownKind ch tag) s = .next s) ∧
    (s.takesFrames = true →
      let n := fun k : Nat => { s with lif := { s.lif with
        erroredBursts := k, burstTaken := 0, burstErrored := false, burstDropped := false } }
      (s.lif.burstErrored = false → Goes .burstEnd s (n 0)) ∧
      (s.lif.burstErrored = true → s.lif.erroredBursts ≠ 31 → Goes .burstEnd s (n (s.lif.erroredBursts + 1))) ∧
      (s.lif.burstErrored = true → s.lif.erroredBursts = 31 → Goes .burstEnd s ((n 0).raise 7)))

/-- R174: a media request ends, by a reply of its kind under its tag or by its timeout: it leaves the table, its
credit is free again, and its engine sees data, MEDIA_FAULT or MEDIA_TIMEOUT. What the engine then does FillChunksEnd and
SweepRequestsEnd say. A reply that matches nothing is discarded.
That such a reply counts among the frames of its burst taken is the model's choice (log 17): R174 says only that it is
discarded. -/
def Obligations.MediaRequestEndsOnce : Prop :=
  ∀ (tag kind status : Nat) (data : Option Block) (s : State),
    let ended := fun (u : State) => { u with lif := { u.lif with
      outstanding := u.lif.outstanding.filter (fun x => x.tag != tag), freeCredits := u.lif.freeCredits + 1 } }
    let taken := { s with lif := { s.lif with burstTaken := s.lif.burstTaken + 1 } }
    (∀ q, s.lif.outstanding.find? (fun x => x.tag == tag) = some q →
      (∃ t, Goes (.mediaTimeout tag) s t ∧ t = (ended s).mediaEnded q.client (.failed .mediaTimeout) ∧
        t.lif.outstanding = s.lif.outstanding.filter (fun x => x.tag != tag) ∧ t.lif.freeCredits = s.lif.freeCredits + 1) ∧
      (s.takesFrames = true → s.lif.burstDropped = false →
        (kind = q.kind.code → ∃ t, Goes (.mediaReply tag kind status data) s t ∧
          (status ≠ 0 → t = (ended taken).mediaEnded q.client (.failed .mediaFault)) ∧
          (status = 0 → q.kind = .read → data = none → t = (ended taken).mediaEnded q.client (.failed .mediaFault)) ∧
          (∀ b, status = 0 → q.kind = .read → data = some b → t = (ended taken).mediaEnded q.client (.ok b)) ∧
          (status = 0 → q.kind ≠ .read → t = (ended taken).mediaEnded q.client (.ok .zeros)) ∧
          t.lif.outstanding = s.lif.outstanding.filter (fun x => x.tag != tag) ∧
          t.lif.freeCredits = s.lif.freeCredits + 1) ∧
        (kind ≠ q.kind.code → Goes (.mediaReply tag kind status data) s taken))) ∧
    (s.lif.outstanding.find? (fun x => x.tag == tag) = none →
      Goes (.mediaTimeout tag) s s ∧
      (s.takesFrames = true → s.lif.burstDropped = false → Goes (.mediaReply tag kind status data) s taken))

/-- R174, R175: a free credit goes to the injected chain, else to the sweep, else to the normal chain, and its
request is issued in the same step: one credit fewer, the next tag of the cycle 1, 2, …, 255, 1, … that is not
outstanding, a timeout of 2 seconds, the frame on MEDIA. A chain asks for the lowest chunk at or above its progress that neither ended nor is
outstanding, with the zero pattern, once its FILL has begun, in ACTIVE; the normal chain asks for none while the injected
chain is present, nor the injected one while a step of the normal chain that is no FILL is in progress or its completion
is being recorded (R139). The sweep asks for the next request of its chunk while the link is started: for no scratch write
while one of an earlier chunk is outstanding (R102), and for none under a FAULTED job (R109) but those of a copy that
start-up recovery carries out (R114). It asks for the block, the scratch block or the scratch header of its request, which
is then issued; with the FILLED header header_issued becomes yes (R102).
Without a free credit or a waiter nothing changes. So MEDIA_CREDIT_GRANT goes on from every state, and from each in which
the account of the credits stands (StepKeepsMediaCredits) with the frame of the first waiter.
That a kept chunk issues its requests again at once when its job resumes is the model's choice (log 39). -/
def Obligations.CreditGoesToFirstWaiter : Prop :=
  ∀ s : State,
    let header := fun (j : Job) (st : HeaderState) => Block.header
      { serial := j.serial.getD 0, range := j.range, newKeySlot := j.newKey.getD 0, first := s.rke.first, n := s.rke.n,
        state := st }
    let asks := fun (o : ChunkOp) (k : MediaKind) (b : Body) =>
      (∀ i, o = .read i → k = .read ∧ b = .mediaRead (s.rke.first + i)) ∧
      (∀ i, o = .scratch i → k = .write ∧ b = .mediaWrite (s.lif.scratchBase + 1 + i) (s.buffered i)) ∧
      (∀ i, o = .dest i → k = .write ∧ b = .mediaWrite (s.rke.first + i) (s.buffered i)) ∧
      (∀ i, o = .recoverRead i → k = .read ∧ b = .mediaRead (s.lif.scratchBase + 1 + i)) ∧
      (o = .recoverHeader → k = .read ∧ b = .mediaRead s.lif.scratchBase) ∧
      (∀ j, s.headJob = some j →
        (o = .headerFilled → k = .write ∧ b = .mediaWrite s.lif.scratchBase (header j .filled)) ∧
        (o = .headerCopied → k = .write ∧ b = .mediaWrite s.lif.scratchBase (header j .copied)))
    let may := fun k : ChainKind =>
      (k = .normal → s.wpe.injected = none) ∧
      (k = .injected → ∀ x, s.wpe.normal = some x →
        x.recording = false ∧ (x.begun = true → ∀ a l, x.steps = a :: l → ∃ n q, a = .fill n q))
    let cycle := fun n : Nat => (s.lif.nextTag - 1 + n) % 255 + 1
    let taken := fun x : Nat => x ∈ s.lif.outstanding.map (fun q => q.tag)
    let scratch := fun o : ChunkOp => (∃ i, o = .scratch i) ∨ o = .headerFilled ∨ o = .headerCopied
    (∀ k, s.fillRequest k ≠ none → may k ∧ s.lif.started = true ∧ s.sst.power = .active ∧
      ∃ c, s.chain k = some c ∧ c.begun = true) ∧
    (∀ k c m p l i, s.chain k = some c → c.begun = true → c.steps = .fill (some m) p :: l → p % 256 = 0 →
      may k → s.lif.started = true → s.sst.power = .active → p ≤ i * 256 → i * 256 < m → (∀ q ∈ c.above, q.1 ≠ i) →
      (∀ q ∈ s.lif.outstanding, q.client ≠ .wipe k c.no i) → s.fillRequest k ≠ none) ∧
    (∀ k c i n, s.fillRequest k = some (c, i, n) → s.chain k = some c ∧ ∃ m p l, c.steps = .fill (some m) p :: l ∧
      p ≤ i * 256 ∧ i * 256 < m ∧ n = min 256 (m - i * 256) ∧ (∀ q ∈ c.above, q.1 ≠ i) ∧
      (∀ q ∈ s.lif.outstanding, q.client ≠ .wipe k c.no i) ∧
      (∀ j, p ≤ j * 256 → j < i → (∃ q ∈ c.above, q.1 = j) ∨ ∃ q ∈ s.lif.outstanding, q.client = .wipe k c.no j)) ∧
    (∀ o, s.sweepRequest = some o ↔ s.lif.started = true ∧ s.rke.todo.head? = some o ∧
      (∃ j, s.headJob = some j ∧ (j.state = .faulted → s.rke.runAnyway = true)) ∧
      (scratch o → ∀ q ∈ s.lif.outstanding, ∀ c x, q.client = .rekey c x → scratch x → c = s.rke.chunk)) ∧
    ((s.lif.freeCredits = 0 ∨ (s.fillRequest .injected = none ∧ s.sweepRequest = none ∧ s.fillRequest .normal = none)) →
      exec .mediaCreditGrant s = .next s) ∧
    (s.lif.freeCredits ≠ 0 →
      (s.fillRequest .injected ≠ none ∨ s.sweepRequest ≠ none ∨ s.fillRequest .normal ≠ none) → Credited s →
      ∃ t q b, exec .mediaCreditGrant s = .next t ∧ Framed [.media, .rekey, .sent] s t ∧
        t.lif.freeCredits + 1 = s.lif.freeCredits ∧ t.lif.outstanding = s.lif.outstanding ++ [q] ∧
        (∃ n < 255, q.tag = cycle n ∧ ¬ taken q.tag ∧ ∀ m < n, taken (cycle m)) ∧ q.remaining = 2 ∧
        t.lif.nextTag = q.tag % 255 + 1 ∧ t.sent = s.sent ++ [frame .media q.tag b] ∧
        (∀ c i n, s.fillRequest .injected = some (c, i, n) →
          q.client = .wipe .injected c.no i ∧ q.kind = .fill ∧ b = .mediaFill (i * 256) n 0 ∧ t.rke = s.rke) ∧
        (∀ o, s.fillRequest .injected = none → s.sweepRequest = some o →
          q.client = .rekey s.rke.chunk o ∧ asks o q.kind b ∧
          t.rke = { s.rke with
            todo := s.rke.todo.drop 1, issued := s.rke.issued ++ [o]
            headerIssued := s.rke.headerIssued || decide (o = .headerFilled) }) ∧
        (∀ c i n, s.fillRequest .injected = none → s.sweepRequest = none → s.fillRequest .normal = some (c, i, n) →
          q.client = .wipe .normal c.no i ∧ q.kind = .fill ∧ b = .mediaFill (i * 256) n 0 ∧ t.rke = s.rke))

/-- R144, R148: the end of a FILL chunk of a begun chain: it is confirmed, or, after a fault or a timeout, skipped.
Progress passes every chunk from its own position on that has ended, to the step's count at most; failed_chunks rises
by the skipped chunks it passed and holds at 65,535; and when progress moved, the WIPE record is written. The end of a
chunk of a chain that is gone changes nothing. -/
def Obligations.FillChunksEnd : Prop :=
  ∀ (k : ChainKind) (no i : Nat) (e : MediaEnd) (s : State),
    let t := s.mediaEnded (.wipe k no i) e
    let skipped := match e with
      | .ok _ => false
      | .failed _ => true
    ((∀ c n p l, s.chain k = some c → c.no = no → c.begun = true → c.steps ≠ .fill (some n) p :: l) → t = s) ∧
    (∀ c n p l, s.chain k = some c → c.no = no → c.begun = true → c.steps = .fill (some n) p :: l → p % 256 = 0 →
      let known := c.above ++ [(i, skipped)]
      (known.map (fun x => x.1)).Nodup → (∀ x ∈ known, p ≤ x.1 * 256 ∧ x.1 * 256 < n) →
      ∃ y q, t.chain k = some y ∧ p ≤ q ∧ q ≤ n ∧ (q < n → q % 256 = 0) ∧
        y = { c with steps := .fill (some n) q :: l
                     above := known.filter (fun x => decide (q ≤ x.1 * 256))
                     failedChunks := min 65535
                       (c.failedChunks + (known.filter (fun x => x.2 && decide (x.1 * 256 < q))).length)
                     left := if q = p then c.left else c.left + 1 } ∧
        (∀ j, p ≤ j * 256 → j * 256 < q → ∃ x ∈ known, x.1 = j) ∧ (∀ x ∈ known, q < n → x.1 * 256 ≠ q) ∧
        (q = p → Framed [.wipe] s t) ∧
        (q ≠ p → Framed [.wipe, .writes] s t ∧ WritesOnly [.wipe] s t ∧
          t.holds .wipe (t.recordOf .wipe) (.fillProgress k no)) ∧
        (∀ x, x ≠ k → t.chain x = s.chain x) ∧ t.wpe.nextNo = s.wpe.nextNo)

/-- R102 to R104, R109, R114, R115: the end of a request of the current chunk. A block read goes to a cipher core
from the old key to the new; when every scratch write has ended the header FILLED is written, and its end makes the
chunk STAGED with the COPYING record placed; when every block is written in place the header COPIED is written, and
its end closes the chunk with the READING record placed. A scratch block read back fills the buffer, and a full
buffer is written in place; a scratch header is judged against the active job. A fault or a timeout makes the job
FAULTED with that cause: a chunk whose header was issued is kept with the request to be made again, any other is
dropped. A scratch header that is none, or that the medium cannot give, loses the keys of the range and makes the job
FAULTED with KEY_LOST; its RANGE record is written, but for a DAMAGED one, which stays for its repair (R157). A request
of an earlier chunk changes nothing. -/
def Obligations.SweepRequestsEnd : Prop :=
  ∀ (n : Nat) (o : ChunkOp) (s : State),
    let left := s.rke.issued.erase o
    let next := fun l : List ChunkOp => if s.rke.todo = [] ∧ left = [] then l else s.rke.todo
    let lost := fun (j : Job) (t : State) => Framed [.ranges, .rekey, .hold, .keySlots, .loads, .writes] s t ∧
      (∀ g, s.fields j.range = some g → t.fields j.range = some { g with keyLost := true } ∧
        t.hasWrite (.range j.range)) ∧
      (s.fields j.range = none → t.rtb = s.rtb ∧ ∀ w : Write, w.unit = .range j.range → (w ∈ t.writesHeld ↔ w ∈ s.writesHeld)) ∧
      t.headJob = some { j with state := .faulted, fault := some .keyLost } ∧ t.rke.recovery = .none ∧
      t.rke.rangeHeld = false ∧ t.kst.hold = none
    (∀ e, n ≠ s.rke.chunk → s.mediaEnded (.rekey n o) e = s) ∧
    (∀ b, n = s.rke.chunk →
      let t := s.mediaEnded (.rekey n o) (.ok b)
      (∀ i j g, o = .read i → s.headJob = some j → s.fields j.range = some g → Framed [.rekey] s t ∧
        ∃ w : SweepWork, t.rke = { s.rke with issued := left, work := s.rke.work ++ [w] } ∧ w.chunk = s.rke.chunk ∧
          w.position = i ∧ w.tweak = s.rke.first + i ∧ w.data = b ∧
          (∀ x, (s.slot g.keySlot).copy = some x → w.oldKey = x) ∧
          (∀ k x, j.newKey = some k → (s.slot k).copy = some x → w.newKey = x) ∧
          (w.stage = .waiting ∨ ∃ c < 4, s.coreBusy c = false ∧ w.stage = .inCore c)) ∧
      (∀ i, o = .scratch i → Framed [.rekey] s t ∧ t.rke = { s.rke with issued := left, todo := next [.headerFilled] }) ∧
      (∀ i, o = .dest i → Framed [.rekey] s t ∧ t.rke = { s.rke with issued := left, todo := next [.headerCopied] }) ∧
      (o = .headerFilled → Framed [.rekey, .writes] s t ∧ WritesOnly [.rekeyProgress] s t ∧
        t.rke = { s.rke with issued := left, phase := .staged, dueProgress := t.rke.dueProgress } ∧
        t.progressAwaits (.chunkStaged n)) ∧
      (o = .headerCopied → Framed [.rekey, .writes] s t ∧ WritesOnly [.rekeyProgress] s t ∧
        t.rke = { s.rke with issued := left, closing := true, dueProgress := t.rke.dueProgress } ∧
        t.progressAwaits (.chunkDone n)) ∧
      (∀ i, o = .recoverRead i → Framed [.rekey] s t ∧
        let full := (s.rke.buffer.set i (some b)).all (fun x => x.isSome)
        t.rke = { s.rke with
          issued := left, buffer := s.rke.buffer.set i (some b)
          todo := if full then next ((List.range s.rke.n).map ChunkOp.dest) else s.rke.todo
          recovery := if full then .none else s.rke.recovery }) ∧
      (∀ j, o = .recoverHeader → s.headJob = some j →
        let moved := fun (w : Nat) (u : State) =>
          u.fields j.range = (s.fields j.range).map (fun g => { g with split := g.split.map (fun x => { x with watermark := w }) }) ∧
          ∀ r, r ≠ j.range → u.entry r = s.entry r
        let known := fun (w : Nat) (u : State) => Framed [.ranges, .rekey, .writes] s u ∧ WritesOnly [.rekeyProgress] s u ∧
          moved w u ∧ u.rke.recovery = .none ∧ u.rke.queue = s.rke.queue ∧ u.progressAwaits .rekeyRecovered
        (∀ h, b = .header h → (h.serial = j.serial.getD 0 ∧ h.range = j.range ∧ h.newKeySlot = j.newKey.getD 0) →
          (h.state = .copied → known (h.first + h.n) t) ∧
          (h.state = .filled → Framed [.ranges, .rekey, .writes] s t ∧ moved h.first t ∧
            t.rke.phase = .copying ∧ t.rke.first = h.first ∧ t.rke.n = h.n ∧ t.rke.window = true ∧
            t.rke.recovery = .copy h.first h.n ∧ t.rke.buffer = List.replicate h.n none ∧
            t.rke.todo = (List.range h.n).map ChunkOp.recoverRead ∧ t.rke.issued = [] ∧ t.rke.queue = s.rke.queue)) ∧
        (∀ h, b = .header h → ¬(h.serial = j.serial.getD 0 ∧ h.range = j.range ∧ h.newKeySlot = j.newKey.getD 0) →
          known (s.firstBlock j.range) t) ∧
        ((∀ h, b ≠ .header h) → lost j t))) ∧
    (∀ j, n = s.rke.chunk → s.headJob = some j → o = .recoverHeader →
      lost j (s.mediaEnded (.rekey n o) (.failed .mediaFault))) ∧
    (∀ x j, n = s.rke.chunk → s.headJob = some j → (o ≠ .recoverHeader ∨ x ≠ .mediaFault) →
      let t := s.mediaEnded (.rekey n o) (.failed x)
      Framed [.rekey, .hold, .keySlots, .loads, .writes] s t ∧ t.kst.hold = none ∧
        t.rke.queue = { j with state := .faulted, fault := some x } :: s.rke.queue.tail ∧
        ((∃ w ∈ t.writesHeld, w.unit = .rekeyProgress) ∨ t.rke.dueProgress ≠ none) ∧
        ((s.rke.headerIssued = true ∨ s.rke.phase = .idle) → t.rke.phase = s.rke.phase ∧ t.rke.chunk = s.rke.chunk ∧
          t.rke.window = s.rke.window ∧ t.rke.issued = left ∧ o ∈ t.rke.todo) ∧
        (s.rke.headerIssued = false → s.rke.phase ≠ .idle → t.rke.phase = .idle ∧ t.rke.window = false ∧
          t.rke.todo = [] ∧ t.rke.issued = [] ∧ t.rke.chunk = s.rke.chunk + 1))

/-! ### The Credential Unit (chapter 3) -/

/-- R45: a challenge goes into the lowest free entry, else into the lowest of those with the least seconds
remaining; it has a new nonce and 60 seconds, and the OK carries the entry and the nonce. R46, R50: at its expiry a
challenge entry is free, and a slot's backoff has stopped; nothing else changes. -/
def Obligations.ChallengesComeAndExpire : Prop :=
  (∀ (f : Hdr) (s : State), (Instr.challenge f).passes s →
     let entry := fun j : Nat => (s.cru.challenges[j]?).getD none
     let left := fun j : Nat => match entry j with
       | some x => x.remaining
       | none => 0
     ∃ t i, Goes (.challenge f) s t ∧ Framed [.bursts, .challenges, .names, .sent] s t ∧ i < 4 ∧
       ((∃ j < 4, entry j = none) → entry i = none ∧ ∀ j < i, entry j ≠ none) ∧
       ((∀ j < 4, entry j ≠ none) → (∀ j < 4, left i ≤ left j) ∧ ∀ j < i, left i < left j) ∧
       t.cru.challenges = s.cru.challenges.set i (some { nonce := { issue := s.fresh }, remaining := 60 }) ∧
       t.fresh = s.fresh + 1 ∧ t.sent = s.sent ++ [frame .control f.tag (.challenge i { issue := s.fresh })]) ∧
  (∀ (e i : Nat) (s : State),
     exec (.challengeExpiry e) s = .next { s with cru := { s.cru with challenges := s.cru.challenges.set e none } } ∧
     exec (.backoffExpiry i) s = .next
       { s with cru := { s.cru with slots := s.cru.slots.modify i (fun x => { x with backoff := none }) } })

/-- R55: the admission checks of SET_CREDENTIAL, in their order, with the status of each refusal. -/
def Obligations.SetCredentialIsAdmitted : Prop :=
  ∀ (f : Hdr) (target : Nat) (action : Option CredAction) (secret : Secret) (limit i : Nat) (p : ProofBlock) (s : State),
    let c := Instr.setCredential f target action secret limit p
    c.passes s → c.proves s i → Shaped s →
    let fields := target ≤ 9 ∧ action ≠ none ∧ (limit = 0 ∨ (3 ≤ limit ∧ limit ≤ 32))
    let permitted := (action = some .set ∧ ((i = target ∧ (i < 2 ∨ limit = 0)) ∨ (i ≠ target ∧ i < 2))) ∨
      (action = some .disable ∧ i < 2 ∧ 2 ≤ target)
    let idle := (s.cred target).record.state = .empty ∨ (s.cred target).record.state = .disabled
    (¬ fields → RefusedAfterProof c s i p f.tag .badField []) ∧
    (fields → ¬ permitted → RefusedAfterProof c s i p f.tag .notPermitted []) ∧
    (fields → permitted → s.btc.state = .erased → RefusedAfterProof c s i p f.tag .wrongState []) ∧
    (fields → permitted → s.btc.state ≠ .erased → action = some .disable → idle →
      RefusedAfterProof c s i p f.tag .wrongState []) ∧
    (fields → permitted → s.btc.state ≠ .erased → (action = some .disable → ¬ idle) →
      ((∃ o ∈ s.cru.ops, o.target = target) ∨ s.disabling target = true) → RefusedAfterProof c s i p f.tag .busy [])

/-- R38, R39, R56: an admitted SET. Where the proving slot's envelope opens ranges that should hold the target,
each such range gets the target's envelope with the new form added behind the old one, where it had one, its other
envelopes and fields as before, and wave A writes those ranges; where it opens none, the target's record changes at once
and wave B writes it: the target keeps its failures, but for a proving slot's, which are 0, and its backoff, unless it is
BLOCKED. Every other slot stays. The old verifier and wrapping value stay in force, and the tag stays in use until the
reply.
That a DAMAGED entry counts among the skipped ranges is the model's reading (log 19). -/
def Obligations.SetCredentialStartsItsWaves : Prop :=
  ∀ (f : Hdr) (target : Nat) (secret : Secret) (limit i : Nat) (p : ProofBlock) (s : State),
    let c := Instr.setCredential f target (some .set) secret limit p
    c.passes s → c.proves s i → Shaped s → target ≤ 9 → (limit = 0 ∨ (3 ≤ limit ∧ limit ≤ 32)) →
    ((i = target ∧ (i < 2 ∨ limit = 0)) ∨ (i ≠ target ∧ i < 2)) → s.btc.state ≠ .erased →
    (∀ o ∈ s.cru.ops, o.target ≠ target) → s.disabling target = false →
    let opened := s.openedRanges target i (s.grantValue i)
    ∃ t o, Goes c s t ∧
      Framed [.bursts, .tags, .challenges, .credSlots, .credOps, .ranges, .writes] s t ∧
      WritesOnly (.cred i :: .cred target :: opened.map (fun q => .range q.1)) s t ∧
      t.rtb.resealOnWake = s.rtb.resealOnWake ∧ (∀ r, r ∉ opened.map (fun q => q.1) → t.entry r = s.entry r) ∧
      t.lif.tagsInUse = s.lif.tagsInUse ++ [f.tag] ∧ t.cru.challenges = s.cru.challenges.set p.challenge none ∧
      t.cru.ops = s.cru.ops ++ [o] ∧ o.target = target ∧ o.verifier = { secret := secret } ∧
      o.wrap = .ofSecret secret ∧ o.limit = (if limit = 0 then none else some limit) ∧ o.rto = s.replyTo .control f.tag ∧
      o.oldVerifier = (s.cred target).record.verifier ∧ t.verifier target = (s.cred target).record.verifier ∧
      o.oldWrap = (s.cred target).record.wrap ∧ t.grantValue target = (s.cred target).record.wrap ∧
      o.skipped = (s.rangesFor target).length - opened.length + s.damagedEntries ∧
      (∀ r k, (r, k) ∈ opened ↔ ∃ g, s.fields r = some g ∧ (target < 2 ∨ listed g.readList target = true ∨
        listed g.writeList target = true) ∧ s.openEnvelope r (.cred i) (s.grantValue i) = some k) ∧
      (opened ≠ [] → o.wave = .a ∧ o.left = opened.length ∧ o.ranges = opened.map (fun q => q.1) ∧ Proved s t i p ∧
        ∀ q ∈ opened, t.holds (.range q.1) (t.recordOf (.range q.1)) (.credWave target) ∧
          ∃ g h e, s.fields q.1 = some g ∧ t.fields q.1 = some h ∧ { h with envelopes := g.envelopes } = g ∧
            envelopeOf h.envelopes (.cred target) = some e ∧ e.rak = q.2 ∧ e.whole = true ∧ .ofSecret secret ∈ e.wraps ∧
            (∀ d, envelopeOf g.envelopes (.cred target) = some d → d.whole = true → e.wraps = d.wraps ++ [.ofSecret secret]) ∧
            (envelopeOf g.envelopes (.cred target) = none → e.wraps = [.ofSecret secret]) ∧
            (∀ x ∈ holderOrder, x ≠ .cred target → envelopeOf h.envelopes x = envelopeOf g.envelopes x)) ∧
      (opened = [] → o.wave = .b ∧ o.left = 1 ∧ t.rtb = s.rtb ∧
        (t.cred target).record.verifier = some { secret := secret } ∧
        (t.cred target).record.wrap = some (.ofSecret secret) ∧ (t.cred target).record.damaged = false ∧
        (t.cred target).record.limit = (if limit = 0 then (s.cred target).record.limit else limit) ∧
        (t.cred target).record.state =
          (if (s.cred target).record.state = .blocked ∨
              (t.cred target).record.limit ≤ (t.cred target).record.failures then .blocked else .enabled) ∧
        (t.cred target).record.failures = (if i = target then 0 else (s.cred target).record.failures) ∧
        (t.cred target).backoff = (if (t.cred target).record.state = .blocked then none else (s.cred target).backoff) ∧
        (∀ j, j ≠ i → j ≠ target → t.cred j = s.cred j) ∧
        (i ≠ target → t.cred i = { s.cred i with record := { (s.cred i).record with failures := 0 } } ∧
          ((s.cred i).record.failures ≠ 0 → t.hasWrite (.cred i)) ∧
          ((s.cred i).record.failures = 0 → WritesSame (.cred i) s t)) ∧
        t.holds (.cred target) (t.recordOf (.cred target)) (.credWave target))

/-- R39, R56: the completion of a write of a credential change. Before the last write of its wave only the count
falls. After wave A the target's record takes the new values, wave B writes it, and the old verifier and wrapping value
stay in force until it completes. After wave B every range with the target's envelope in two forms, and every range of
wave A, keeps the new form alone and is written by wave C. After wave C, or with no range to write, the change ends:
the OK carries the number of ranges skipped and frees its tag (R165), and a CUT_CREDENTIALS that waited for it goes on
(R60).
That wave C takes every range whose envelope gained both forms meanwhile, and that a change without such a range ends at
once, is the model's reading, and that a DISABLE whose record is still to be written does not hold that CUT_CREDENTIALS
back is its choice (log 19). -/
def Obligations.CredentialWavesComplete : Prop :=
  ∀ (i : Nat) (s : State),
    let t := s.signal (.credWave i)
    let ops := fun (g : CredOp → CredOp) => s.cru.ops.map (fun x => if x.target = i then g x else x)
    (s.credOp i = none → t = s) ∧
    (∀ o, s.credOp i = some o →
      let inWaveC := fun r : Nat => r < 16 ∧ (r ∈ o.ranges ∨ ∃ g e, s.fields r = some g ∧ e ∈ g.envelopes ∧
        e.holder = .cred i ∧ 1 < e.wraps.length)
      let newForm := fun (g : RangeFields) => { g with envelopes := g.envelopes.map (fun e =>
        if e.holder = .cred i then { e with wraps := if o.wrap ∈ e.wraps then [o.wrap] else e.wraps } else e) }
      let ends := t.cru.ops = s.cru.ops.filter (fun x => x.target != i) ∧
        (o.rto.session = s.lif.session → frame o.rto.channel o.rto.tag (.status .ok [o.skipped]) ∈ t.sent) ∧ TagFreed o.rto s t ∧
        ((∀ k c, s.chain k = some c → c.waitsCreds = false) → Framed [.credOps, .tags, .sent] s t) ∧
        (∀ k c, Shaped s → t.cru.ops = [] → s.chain k = some c → c.waitsCreds = true →
          (∃ d, t.chain k = some d ∧ d.waitsCreds = false) ∧ (∀ j < 10, t.cred j = { record := .blank, backoff := none }) ∧
          (∀ j < 10, t.holds (.cred j) (t.recordOf (.cred j)) (.stepWork k c.no)))
      (1 < o.left → Framed [.credOps] s t ∧ t.cru.ops = ops (fun x => { x with left := x.left - 1 })) ∧
      (o.left ≤ 1 → o.wave = .a → i < 10 → Shaped s →
        let limit := o.limit.getD (s.cred i).record.limit
        let blocked := (s.cred i).record.state = .blocked ∨ limit ≤ (s.cred i).record.failures
        Framed [.credOps, .credSlots, .writes] s t ∧ WritesOnly [.cred i] s t ∧
          t.cru.ops = ops (fun x => { x with wave := .b, left := 1, oldVerifier := (s.cred i).record.verifier,
                                             oldWrap := (s.cred i).record.wrap }) ∧
          (∀ j, j ≠ i → t.cred j = s.cred j) ∧
          (t.cred i).record.verifier = some o.verifier ∧ (t.cred i).record.wrap = some o.wrap ∧
          (t.cred i).record.failures = (s.cred i).record.failures ∧ (t.cred i).record.limit = limit ∧
          (t.cred i).record.damaged = false ∧
          (blocked → (t.cred i).record.state = .blocked ∧ (t.cred i).backoff = none) ∧
          (¬ blocked → (t.cred i).record.state = .enabled ∧ (t.cred i).backoff = (s.cred i).backoff) ∧
          t.verifier i = (s.cred i).record.verifier ∧ t.grantValue i = (s.cred i).record.wrap ∧
          t.holds (.cred i) (t.recordOf (.cred i)) (.credWave i)) ∧
      (o.left ≤ 1 → o.wave = .b → (∃ r, inWaveC r) → ∃ rs : List Nat,
        rs.Nodup ∧ (∀ r, r ∈ rs ↔ inWaveC r) ∧ Framed [.credOps, .ranges, .writes] s t ∧
          WritesOnly (rs.map StoreUnit.range) s t ∧ t.rtb.resealOnWake = s.rtb.resealOnWake ∧
          t.cru.ops = ops (fun x => { x with wave := .c, left := rs.length }) ∧
          (∀ r, t.fields r = if r ∈ rs then (s.fields r).map newForm else s.fields r) ∧
          (∀ r, s.fields r = none → t.entry r = s.entry r) ∧
          (∀ r ∈ rs, t.holds (.range r) (t.recordOf (.range r)) (.credWave i))) ∧
      (o.left ≤ 1 → o.wave = .b → (∀ r, ¬ inWaveC r) → ends) ∧
      (o.left ≤ 1 → o.wave = .c → ends))

/-- R57: an admitted DISABLE of a user slot: it is DISABLED at once without backoff, keeps its failures and its
secret's values, takes the limit if one was given, and the OK waits for the write of its record. R58: RESET_ATTEMPTS
of a target that is not EMPTY: failures 0, no backoff, BLOCKED becomes ENABLED, and the OK waits for the write of its
record; a target above 9 is refused BAD_FIELD and an EMPTY one WRONG_STATE. -/
def Obligations.DisableAndResetWaitForTheirWrite : Prop :=
  (∀ (f : Hdr) (target : Nat) (secret : Secret) (limit i : Nat) (p : ProofBlock) (s : State),
     let c := Instr.setCredential f target (some .disable) secret limit p
     c.passes s → c.proves s i → Shaped s → target ≤ 9 → (limit = 0 ∨ (3 ≤ limit ∧ limit ≤ 32)) → i < 2 → 2 ≤ target →
     s.btc.state ≠ .erased →
     ((s.cred target).record.state = .enabled ∨ (s.cred target).record.state = .blocked) →
     (∀ o ∈ s.cru.ops, o.target ≠ target) → s.disabling target = false →
     ∃ t, Goes c s t ∧ Framed [.bursts, .tags, .challenges, .credSlots, .writes] s t ∧ WritesOnly [.cred i, .cred target] s t ∧
       t.lif.tagsInUse = s.lif.tagsInUse ++ [f.tag] ∧ t.cru.challenges = s.cru.challenges.set p.challenge none ∧
       (t.cred i).record.failures = 0 ∧ (∀ j, j ≠ i → j ≠ target → t.cred j = s.cred j) ∧
       t.cred target = { record := { (s.cred target).record with
         state := .disabled, limit := if limit = 0 then (s.cred target).record.limit else limit }, backoff := none } ∧
       t.holds (.cred target) (.cred (t.cred target).record) (s.reply f.tag (.status .ok [0]))) ∧
  (∀ (f : Hdr) (target i : Nat) (p : ProofBlock) (s : State),
     let c := Instr.resetAttempts f target p
     c.passes s → c.proves s i → Shaped s →
     (9 < target → RefusedAfterProof c s i p f.tag .badField []) ∧
     (target ≤ 9 → (s.cred target).record.state = .empty → RefusedAfterProof c s i p f.tag .wrongState []) ∧
     (target ≤ 9 → (s.cred target).record.state ≠ .empty →
       ∃ t, Goes c s t ∧ Framed [.bursts, .tags, .challenges, .credSlots, .writes] s t ∧ WritesOnly [.cred i, .cred target] s t ∧
         t.lif.tagsInUse = s.lif.tagsInUse ++ [f.tag] ∧ t.cru.challenges = s.cru.challenges.set p.challenge none ∧
         (t.cred i).record.failures = 0 ∧ (∀ j, j ≠ i → j ≠ target → t.cred j = s.cred j) ∧
         t.cred target = { record := { (s.cred target).record with
           failures := 0
           state := if (s.cred target).record.state = .blocked then .enabled else (s.cred target).record.state }
                           backoff := none } ∧
         t.holds (.cred target) (t.recordOf (.cred target)) (s.reply f.tag (.status .ok []))))

/-- R59, R173: SLOT_LIST shows the slots from the start index, as many whole entries as fit; a damaged slot shows
DISABLED. From 10 on the list is empty, and from a limit of 64 on one entry always fits. R119: EVIDENCE_LIST shows the
settings from the start index, as many whole entries as fit, with the three table-wide settings in its header; from 8
on it is empty, and from a limit of 64 on one entry always fits.
That a slot shows its new state from the placing of wave B on is the model's choice (log 38). -/
def Obligations.SlotAndEvidenceListsShowTheirPage : Prop :=
  (∀ (f : Hdr) (start : Nat) (s : State), (Instr.slotList f start).passes s →
     let n := (s.lif.limitControl - Config.slotListHead.val) / Config.slotListEntry
     let entry := fun i : Nat =>
       (i, if (s.cred i).record.damaged then CredState.disabled else (s.cred i).record.state, (s.cred i).record.failures)
     let c := Instr.slotList f start
     (10 ≤ start → Goes c s (s.answered .slotList f (.slotList 0 10 []))) ∧
     (start < 10 → n = 0 → Goes c s (s.answered .slotList f (.status .tooLong []))) ∧
     (start < 10 → n ≠ 0 → Goes c s (s.answered .slotList f
       (.slotList (min n (10 - start)) 10 ((((List.range 10).drop start).take n).map entry)))) ∧
     (64 ≤ s.lif.limitControl → n ≠ 0)) ∧
  (∀ (f : Hdr) (start i : Nat) (p : ProofBlock) (s : State),
     let c := Instr.evidenceList f start p
     let n := (s.lif.limitControl - Config.evidenceListHead.val) / Config.evidenceListEntry
     let list := fun (k : Nat) (l : List Setting) =>
       Body.evidenceList k 8 s.rsu.purgeAllowed s.rsu.alarmMinimum s.rsu.absenceThreshold l
     c.passes s → c.proves s i → Shaped s →
     i < 2 ∧ (8 ≤ start → AnsweredAfterProof c s i p f.tag (list 0 [])) ∧
     (start < 8 → n = 0 → RefusedAfterProof c s i p f.tag .tooLong []) ∧
     (start < 8 → n ≠ 0 →
       AnsweredAfterProof c s i p f.tag (list (min n (8 - start)) ((s.rsu.settings.drop start).take n))) ∧
     (64 ≤ s.lif.limitControl → n ≠ 0))

/-! ### Boot Control (chapter 4) -/

/-- R65: the admission checks of PROVISION, in their order. R61, R66 wave 1: an admitted PROVISION writes the two
custodians' records, the ranges whose device envelopes open, with envelopes for both custodians, and the eight EVSET
records; nothing else takes effect yet but the default evidence settings, and the tag stays in use. Until then it holds what
wave 2 puts in force: each custodian's verifier and wrapping value from the secret asked for, those envelopes and no other,
the image size and the token; and the count of the writes placed.
That a token is ignored where token_present is no is the model's choice (log 38). -/
def Obligations.ProvisionIsAdmittedAndStarts : Prop :=
  (∀ (f : Hdr) (admin recovery : Secret) (size : Nat) (present : Option Bool) (token : Secret) (p : ProofBlock) (s : State),
     let c := Instr.provision f admin recovery size present token p
     c.passes s → c.labels s →
     ((16384 < size ∨ present = none) → RefusedAfterLabel c s p f.tag .badField) ∧
     (size ≤ 16384 → present ≠ none → s.btc.state ≠ .blank → RefusedAfterLabel c s p f.tag .wrongState) ∧
     (size ≤ 16384 → present ≠ none → s.btc.state = .blank →
       (s.btc.provisioning ≠ none ∨ s.wpe.normal ≠ none ∨ s.wpe.injected ≠ none) →
       RefusedAfterLabel c s p f.tag .busy)) ∧
  (∀ (f : Hdr) (admin recovery : Secret) (size : Nat) (b : Bool) (token : Secret) (p : ProofBlock) (s : State),
     let c := Instr.provision f admin recovery size (some b) token p
     c.passes s → c.labels s → size ≤ 16384 → s.btc.state = .blank → s.btc.provisioning = none →
     s.wpe.normal = none → s.wpe.injected = none →
     ∃ t x, Goes c s t ∧ Framed [.bursts, .tags, .challenges, .boot, .response, .writes] s t ∧
       WritesOnly ([.cred 0, .cred 1] ++ (List.range 16).map StoreUnit.range ++ (List.range 8).map StoreUnit.evset) s t ∧
       t.lif.tagsInUse = s.lif.tagsInUse ++ [f.tag] ∧ t.cru.challenges = s.cru.challenges.set p.challenge none ∧
       t.btc = { s.btc with provisioning := some x } ∧ x.imageSize = size ∧
       x.token = (if b then some token else none) ∧ x.secondWave = false ∧ x.rto = s.replyTo .control f.tag ∧
       x.adminVerifier = { secret := admin } ∧ x.adminWrap = .ofSecret admin ∧
       x.recoveryVerifier = { secret := recovery } ∧ x.recoveryWrap = .ofSecret recovery ∧
       x.left = 10 + ((List.range 16).filter (fun r => (s.openDevice r).isSome)).length ∧
       (∀ r e, (r, e) ∈ x.envelopes → r < 16 ∧ ∃ k, s.openDevice r = some k ∧
         (e = { holder := .cred 0, wraps := [.ofSecret admin], rak := k, whole := true } ∨
           e = { holder := .cred 1, wraps := [.ofSecret recovery], rak := k, whole := true })) ∧
       t.rsu = { s.rsu with settings := Setting.defaults, purgeAllowed := false, alarmMinimum := 5, absenceThreshold := 600 } ∧
       t.holds (.cred 0) (.cred (custodianRecord { secret := admin } (.ofSecret admin))) .provision ∧
       t.holds (.cred 1) (.cred (custodianRecord { secret := recovery } (.ofSecret recovery))) .provision ∧
       (∀ i < 8, t.holds (.evset i) (.evset (t.setting i)) .provision) ∧
       (∀ r < 16, ∀ k, s.openDevice r = some k →
         t.holds (.range r) (t.recordOf (.range r)) .provision ∧
         (r, { holder := .cred 0, wraps := [.ofSecret admin], rak := k, whole := true }) ∈ x.envelopes ∧
         (r, { holder := .cred 1, wraps := [.ofSecret recovery], rak := k, whole := true }) ∈ x.envelopes))

/-- R66: the completion of a write of a PROVISION. Before the last write of its wave only the count falls. After wave
1 the DEVICE record is written PROVISIONED, with the image size, the token and the default settings (R61). After it
the custodians, their envelopes, the image size, the token and the boot state OPEN, or QUARANTINE from LOCK on, take
effect together, and the OK is sent and frees its tag (R165). -/
def Obligations.ProvisionTakesEffect : Prop :=
  ∀ s : State,
    let t := s.signal .provision
    (s.btc.provisioning = none → t = s) ∧
    (∀ p, s.btc.provisioning = some p →
      let device := { s.sst.lastDevice with
        boot := .provisioned, imageSize := p.imageSize, token := p.token, purgeAllowed := false, alarmMinimum := 5,
        absenceThreshold := 600 }
      (1 < p.left → Framed [.boot] s t ∧ t.btc = { s.btc with provisioning := some { p with left := p.left - 1 } }) ∧
      (p.left ≤ 1 → p.secondWave = false →
        Framed [.boot, .writes, .device] s t ∧ WritesOnly [.device] s t ∧
          t.btc = { s.btc with provisioning := some { p with secondWave := true, left := 1 } } ∧
          t.sst.lastDevice = device ∧ t.holds .device (.device device) .provision) ∧
      (p.left ≤ 1 → p.secondWave = true → Shaped s →
        Framed [.boot, .credSlots, .ranges, .tags, .sent] s t ∧ t.rtb.resealOnWake = s.rtb.resealOnWake ∧
          (t.cred 0).record = custodianRecord p.adminVerifier p.adminWrap ∧
          (t.cred 1).record = custodianRecord p.recoveryVerifier p.recoveryWrap ∧
          (t.cred 0).backoff = (s.cred 0).backoff ∧ (t.cred 1).backoff = (s.cred 1).backoff ∧
          (∀ i, 2 ≤ i → t.cred i = s.cred i) ∧
          (∀ r, s.fields r = none → t.entry r = s.entry r) ∧
          (∀ r g, s.fields r = some g → ∃ h, t.fields r = some h ∧ { h with envelopes := g.envelopes } = g ∧
            ((∀ q ∈ p.envelopes, q.1 ≠ r) → h = g) ∧
            (∀ e, (r, e) ∈ p.envelopes → (e.holder = .cred 0 ∨ e.holder = .cred 1) →
              ∃ x, (r, x) ∈ p.envelopes ∧ x.holder = e.holder ∧ envelopeOf h.envelopes e.holder = some x) ∧
            (∀ x ∈ holderOrder, (∀ e, (r, e) ∈ p.envelopes → e.holder ≠ x) →
              envelopeOf h.envelopes x = envelopeOf g.envelopes x)) ∧
          t.btc = { s.btc with
            provisioning := none, imageSize := p.imageSize, token := p.token
            hello := if p.token.isSome then .notDue else s.btc.hello
            state := if 2 ≤ s.rsu.level.number then .quarantine else .opened } ∧
          TagFreed p.rto s t ∧
          (p.rto.session = s.lif.session → t.sent = s.sent ++ [frame p.rto.channel p.rto.tag (.status .ok [])])))

/-- R67: the admission checks of UNLOCK, in their order. R68: a range of the scope opens where its RAK is in the cache,
or the slot's envelope opens it under the grant, and the level is below LOCK; the directions that its lists give the
slot are unlocked, and the other keeps its flag. A range that does not open keeps both. SEALED becomes OPEN when a
range was opened, and the OK carries the numbers opened and skipped and the boot state. Of one range that does not open
nothing but the proof takes effect; of all the ranges that list the slot, each opens or not by itself where the key
material of none is damaged.
R33, R107: a range that opens is LOADED, and in one that was NOT_LOADED the LIVE slots that it names have their copies; a
PAUSED head job of a range that goes LOADED sweeps again, takes the sweep hold, and has its progress part written.
R36, R94, R109: where the load finds a key of the range damaged, the slot is EMPTY, the CLEAR contexts of the range are
aborted KEY_DAMAGED, key_lost is set and the KEY and RANGE records are written, and the active job of the range is FAULTED
with KEY_LOST, its hold released. The last clause says this of every load after LINK_START that finds a damaged key.
That a job which has completed is not FAULTED is the model's reading (log 23), as are the number of a resumption and when
the progress part's write must wait (log 22). That a load resumes no job that has lost a key slot or whose scratch header
is still to be judged, and that the fault stops a recovery, is the model's choice (log 39), and so is that another range's
key in a slot that the range still names is not loaded (log 37). -/
def Obligations.UnlockOpensItsRanges : Prop :=
  (∀ (f : Hdr) (r i : Nat) (p : ProofBlock) (s : State),
    let c := Instr.unlock f r p
    let usable := s.btc.state ≠ .quarantine ∧ s.btc.state ≠ .erased
    let calm := ∀ x, s.rsu.timer = some x → x.pending.level.number < 2
    let via := fun q : Nat => s.openEnvelope q (.cred i) (s.grantValue i)
    let opens := fun q : Nat => s.lockdown = false ∧ (s.load q ≠ .notLoaded ∨ via q ≠ none)
    let freed := fun g : RangeFields => { g with
      readLocked := g.readLocked && !listed g.readList i, writeLocked := g.writeLocked && !listed g.writeList i }
    let pieces := [Piece.bursts, .challenges, .credSlots, .writes, .sent, .boot, .ranges, .loads, .keySlots, .hold, .data,
                   .rekey]
    let booted := fun n : Nat =>
      if 0 < n ∧ s.btc.state = .sealed then { s.btc with state := .opened, unsealed := false } else s.btc
    c.passes s → c.proves s i →
    (16 ≤ r → r ≠ 255 → RefusedAfterProof c s i p f.tag .badField []) ∧
    ((r < 16 ∨ r = 255) → ¬ usable → RefusedAfterProof c s i p f.tag .wrongState []) ∧
    (∀ x, (r < 16 ∨ r = 255) → usable → s.rsu.timer = some x → 2 ≤ x.pending.level.number →
      RefusedAfterProof c s i p f.tag .responsePending [x.pending.level.number, x.remaining]) ∧
    (∀ g, Shaped s → r < 16 → s.fields r = some g → usable → calm →
      (opens r → ∃ t, Goes c s t.settleDrain ∧ Framed pieces s t ∧ Proved s t i p ∧
        t.rtb.resealOnWake = s.rtb.resealOnWake ∧ (∀ q, q ≠ r → t.entry q = s.entry q) ∧ t.btc = booted 1 ∧
        t.lastFrame = some (frame .control f.tag (.unlocked 1 0 t.btc.state)) ∧
        ((s.load r ≠ .notLoaded ∨ ∀ k, via r = some k → s.intactUnder r k) →
          t.fields r = some (freed g) ∧ KeysLoaded [r] via s t ∧ SweepResumed [r] s t ∧
          WritesOnly [.cred i, .rekeyProgress] s t ∧
          t.sent = s.sent ++ [frame .control f.tag (.unlocked 1 0 t.btc.state)]) ∧
        (∀ k, s.load r = .notLoaded → via r = some k → ¬ s.intactUnder r k →
          t.fields r = some { freed g with keyLost := true } ∧ KeysDamaged r k s t ∧
          WritesOnly (.cred i :: .range r :: .rekeyProgress :: (List.range 24).map StoreUnit.key) s t)) ∧
      (¬ opens r → ∃ t, Goes c s t.settleDrain ∧ Framed [.bursts, .challenges, .credSlots, .writes, .sent] s t ∧
        Proved s t i p ∧ WritesOnly [.cred i] s t ∧
        t.sent = s.sent ++ [frame .control f.tag (.unlocked 0 1 s.btc.state)])) ∧
    (r = 255 → usable → calm →
      let lists := fun g : RangeFields => listed g.readList i = true ∨ listed g.writeList i = true
      (∃ (t : State) (n k : Nat), Goes c s t.settleDrain ∧
        n + k = (s.rangesWhere (fun g => listed g.readList i || listed g.writeList i)).length ∧
        t.btc = booted n ∧ t.lastFrame = some (frame .control f.tag (.unlocked n k t.btc.state))) ∧
      (Shaped s → (∀ q g k, s.fields q = some g → lists g → s.load q = .notLoaded → via q = some k → s.intactUnder q k) →
        ∃ (t : State) (all won : List Nat), Goes c s t.settleDrain ∧ Framed pieces s t ∧ all.Nodup ∧ won.Nodup ∧
          (∀ q, q ∈ all ↔ ∃ g, s.fields q = some g ∧ lists g) ∧ (∀ q, q ∈ won ↔ q ∈ all ∧ opens q) ∧
          Proved s t i p ∧ t.rtb.resealOnWake = s.rtb.resealOnWake ∧
          (∀ q, t.fields q = if q ∈ won then (s.fields q).map freed else s.fields q) ∧
          (∀ q, q ∉ won → t.entry q = s.entry q) ∧ KeysLoaded won via s t ∧ SweepResumed won s t ∧
          WritesOnly [.cred i, .rekeyProgress] s t ∧ t.btc = booted won.length ∧
          t.sent = s.sent ++ [frame .control f.tag (.unlocked won.length (all.length - won.length) t.btc.state)]))) ∧
  (∀ (s : State) (r : Nat) (k : Rak) (g : RangeFields), Shaped s → s.lockdown = false → s.load r = .notLoaded →
    s.fields r = some g → ¬ s.intactUnder r k →
    ∃ t, s.loadRange r (some k) = (t, true) ∧
      Framed [.writes, .sent, .ranges, .loads, .keySlots, .hold, .data, .rekey] s t ∧ KeysDamaged r k s t ∧
      t.fields r = some { g with keyLost := true } ∧ (∀ q, q ≠ r → t.entry q = s.entry q) ∧
      t.rtb.resealOnWake = s.rtb.resealOnWake ∧
      WritesOnly (.range r :: .rekeyProgress :: (List.range 24).map StoreUnit.key) s t)

/-- R69: LOCK locks the named directions of its scope, asks for an unload of each range that is locked both
ways, and answers the number of ranges; a range field of 16 to 254 or an unknown direction is refused
BAD_FIELD, and a custodian's single range that is not ENABLED WRONG_STATE. By R34 such a range goes RELEASING while a user
of a key of its own or the sweep hold is left on it, and else NOT_LOADED, the copies of its LIVE pool slots dropped; every
other range keeps its load.
R34 counts every user of the range's key_slot or new_key_slot. That a slot which the range names, but which holds another
range's key by now, is neither counted nor dropped is the model's choice (log 37). -/
def Obligations.LockLocksItsScope : Prop :=
  ∀ (f : Hdr) (range direction i : Nat) (p : ProofBlock) (s : State),
    let c := Instr.lock f range direction p
    c.passes s → c.proves s i → Shaped s →
    let fields := (range < 16 ∨ range = 255) ∧ 1 ≤ direction ∧ direction ≤ 3
    let scope := if range = 255 then
        (if i < 2 then s.enabledRanges else s.rangesWhere (fun g => listed g.readList i || listed g.writeList i))
      else [range]
    let locked := fun g : RangeFields => { g with
      readLocked := g.readLocked || direction == 1 || direction == 3
      writeLocked := g.writeLocked || direction == 2 || direction == 3 }
    (¬ fields → RefusedAfterProof c s i p f.tag .badField []) ∧
    (fields → range < 16 → s.fields range = none → RefusedAfterProof c s i p f.tag .wrongState []) ∧
    (fields → (range < 16 → s.fields range ≠ none) →
      ∃ t, Goes c s t ∧
        Framed [.bursts, .challenges, .credSlots, .writes, .sent, .ranges, .loads, .keySlots] s t ∧ Proved s t i p ∧
        WritesOnly [.cred i] s t ∧
        t.sent = s.sent ++ [frame .control f.tag (.status .ok [scope.length])] ∧ t.rtb.resealOnWake = s.rtb.resealOnWake ∧
        (∀ r, t.fields r = if r ∈ scope then (s.fields r).map locked else s.fields r) ∧
        (let both := fun r : Nat => r ∈ scope ∧ ∃ g, t.fields r = some g ∧ g.readLocked = true ∧ g.writeLocked = true
         let held := fun r : Nat => (∃ h, s.kst.hold = some h ∧ h.range = r) ∨
           ∃ x ∈ s.namedSlots r, s.owns r x = true ∧ 0 < (s.slot x).users
         (∀ r, ¬ both r → t.load r = s.load r) ∧
         (∀ r, both r →
           (s.load r = .notLoaded → t.load r = .notLoaded) ∧
           (∀ k, (s.load r).rak? = some k →
             (held r → t.load r = .releasing k) ∧ (¬ held r → t.load r = .notLoaded))) ∧
         (∀ x,
           let dropped := x < 23 ∧ (s.slot x).state = .live ∧
             ∃ r, both r ∧ s.load r ≠ .notLoaded ∧ ¬ held r ∧ s.owns r x = true
           (dropped → t.slot x = { s.slot x with copy := none }) ∧ (¬ dropped → t.slot x = s.slot x))))

/-- R74: START_IMAGE_UNSEAL sets or clears the unsealed flag while the overlay is on, and the OK carries the new
value; an unknown action is refused BAD_FIELD, and with the overlay off the request is refused WRONG_STATE. -/
def Obligations.StartImageUnsealSetsTheFlag : Prop :=
  ∀ (f : Hdr) (action : Option UnsealAction) (i : Nat) (p : ProofBlock) (s : State),
    let c := Instr.startImageUnseal f action p
    c.passes s → c.proves s i →
    let on := s.btc.state = .sealed ∨ s.btc.state = .quarantine ∨ s.btc.state = .erased
    (action = none → RefusedAfterProof c s i p f.tag .badField []) ∧
    (action ≠ none → ¬ on → RefusedAfterProof c s i p f.tag .wrongState []) ∧
    (∀ a, action = some a → on →
      ∃ t, Goes c s t ∧ Framed [.bursts, .challenges, .credSlots, .writes, .sent, .boot] s t ∧ Proved s t i p ∧
        WritesOnly [.cred i] s t ∧
        t.btc = { s.btc with unsealed := decide (a = .unseal) } ∧
        t.sent = s.sent ++ [frame .control f.tag (.status .ok [if a = .unseal then 1 else 0])])

/-- R75, R118: BIND_PLATFORM and EVIDENCE_SET place the write of their record and change nothing else of their
block until it completes; the DEVICE write differs from the last one placed in the named fields alone (R153). A value
outside its range, an unknown action and a target of 8 to 254 are refused BAD_FIELD, and in ERASED both requests WRONG_STATE.
That a token is ignored with UNBIND is the model's choice (log 38). -/
def Obligations.SettingsWaitForTheirWrite : Prop :=
  ∀ (f : Hdr) (p : ProofBlock) (s : State),
    (∀ (action : Option BindAction) (token : Secret) (i : Nat),
      let c := Instr.bindPlatform f action token p
      c.passes s → c.proves s i →
      (action = none → RefusedAfterProof c s i p f.tag .badField []) ∧
      (action ≠ none → s.btc.state = .erased → RefusedAfterProof c s i p f.tag .wrongState [])) ∧
    (∀ (target : Nat) (v : EvidenceValues) (i : Nat),
      let c := Instr.evidenceSet f target v p
      let entry := v.enabled ≠ none ∧ 1 ≤ v.level ∧ v.level ≤ 4 ∧ v.delay ≤ 3600 ∧ v.immediate ≠ none ∧ v.guard ≠ none
      let table := v.purgeAllowed ≠ none ∧ 1 ≤ v.alarmMinimum ∧ v.alarmMinimum ≤ 60 ∧ 10 ≤ v.absenceThreshold ∧
        v.absenceThreshold ≤ 3600
      let fields := (target < 8 ∧ entry) ∨ (target = 255 ∧ table)
      c.passes s → c.proves s i →
      (¬ fields → RefusedAfterProof c s i p f.tag .badField []) ∧
      (fields → s.btc.state = .erased → RefusedAfterProof c s i p f.tag .wrongState [])) ∧
    (s.btc.state ≠ .erased →
    (∀ (a : BindAction) (token : Secret) (i : Nat),
      let c := Instr.bindPlatform f (some a) token p
      let new := if a = .bind then some token else none
      c.passes s → c.proves s i →
      ∃ t, Goes c s t ∧ Framed [.bursts, .tags, .challenges, .credSlots, .writes, .device] s t ∧ Proved s t i p ∧
        WritesOnly [.cred i, .device] s t ∧
        t.lif.tagsInUse = s.lif.tagsInUse ++ [f.tag] ∧ t.sst.lastDevice = { s.sst.lastDevice with token := new } ∧
        t.holds .device (.device t.sst.lastDevice) (.bindPlatform (s.replyTo .control f.tag) new)) ∧
    (∀ (target : Nat) (v : EvidenceValues) (e : Setting) (i : Nat),
      let c := Instr.evidenceSet f target v p
      c.passes s → c.proves s i → target < 8 → v.enabled = some e.enabled → levelOf v.level = some e.level →
      v.level ≠ 0 → v.delay = e.delay → v.delay ≤ 3600 → v.immediate = some e.immediate → v.guard = some e.guard →
      ∃ t, Goes c s t ∧ Framed [.bursts, .tags, .challenges, .credSlots, .writes] s t ∧ Proved s t i p ∧
        WritesOnly [.cred i, .evset target] s t ∧
        t.lif.tagsInUse = s.lif.tagsInUse ++ [f.tag] ∧
        t.holds (.evset target) (.evset e) (.evidenceSource (s.replyTo .control f.tag) target e)) ∧
    (∀ (v : EvidenceValues) (b : Bool) (i : Nat),
      let c := Instr.evidenceSet f 255 v p
      c.passes s → c.proves s i → v.purgeAllowed = some b → 1 ≤ v.alarmMinimum → v.alarmMinimum ≤ 60 →
      10 ≤ v.absenceThreshold → v.absenceThreshold ≤ 3600 →
      ∃ t, Goes c s t ∧ Framed [.bursts, .tags, .challenges, .credSlots, .writes, .device] s t ∧ Proved s t i p ∧
        WritesOnly [.cred i, .device] s t ∧
        t.lif.tagsInUse = s.lif.tagsInUse ++ [f.tag] ∧
        t.sst.lastDevice = { s.sst.lastDevice with
          purgeAllowed := b, alarmMinimum := v.alarmMinimum, absenceThreshold := v.absenceThreshold } ∧
        t.holds .device (.device t.sst.lastDevice)
          (.evidenceTable (s.replyTo .control f.tag) b v.alarmMinimum v.absenceThreshold)))

/-- R76, R77: a hello is answered OK in every case; a matching one stops the window and passes, unless the status is
FAILED, and one that does not match fails and raises source 4. The expiry of a running window fails and raises
source 4. R128: a PRESENCE proof over the current beacon nonce under the token resets the absence timer and makes a
fresh nonce; the answer carries the nonce now current in every case.
That the frames of an escalation come before the PLATFORM answer to a hello that fails is the model's choice (log 7). -/
def Obligations.PlatformProvesItsToken : Prop :=
  ∀ (f : Hdr) (token : Secret) (q : Proof) (s : State),
    let c := Instr.platformHello f token
    let ok := Body.status .ok []
    let failed := { s with btc := { s.btc with hello := .failed, window := none } }
    (c.passes s →
      (s.btc.token = none → Goes c s (s.answered .platformHello f ok)) ∧
      (s.btc.token = some token → s.btc.hello = .failed → Goes c s (s.answered .platformHello f ok)) ∧
      (s.btc.token = some token → s.btc.hello ≠ .failed →
        Goes c s ({ s with btc := { s.btc with hello := .passed, window := none } }.answered .platformHello f ok)) ∧
      (∀ k, s.btc.token = some k → k ≠ token →
        Goes c s ((failed.frameTaken.raise 4).send .platform f.tag ok))) ∧
    (s.btc.window = none → Goes .helloWindowExpiry s s) ∧
    (s.btc.window ≠ none → Goes .helloWindowExpiry s (failed.raise 4)) ∧
    ((Instr.presence f q).passes s →
      (∀ k, s.btc.token = some k → q = .digest k s.rsu.beacon [] →
        Goes (.presence f q) s ({ s with
          rsu := { s.rsu with absence := 0, beacon := { issue := s.fresh } }
          fresh := s.fresh + 1 }.answered .presence f (.beacon { issue := s.fresh }))) ∧
      ((∀ k, s.btc.token = some k → q ≠ .digest k s.rsu.beacon []) →
        Goes (.presence f q) s (s.answered .presence f (.beacon s.rsu.beacon))))

/-! ### The Range Table (chapter 1) -/

/-- R7, R8, R173: RANGE_LIST without a proof shows the ranges that are DAMAGED, or ENABLED and not concealed, in ascending
order, in entries of 16 bytes behind 4: number, status, and of an ENABLED one the bounds and the two lock flags, nothing
else. With a custodian's proof it shows all sixteen, in ascending order, in entries of 28 bytes behind 8, with the staged
count, mark, commit state and reseal_on_wake: a DISABLED or DAMAGED one by number and status, an ENABLED one with every
field but its envelopes. Either way it is answered in its step, and beyond its answer and the proof nothing changes. -/
def Obligations.RangeListShowsItsView : Prop :=
  ∀ (f : Hdr) (start : Nat) (s : State),
    let n := (s.lif.limitControl - 4) / 16
    let m := (s.lif.limitControl - 8) / 28
    let bare := fun (r st : Nat) => { number := r, status := st, bounds := none, readLocked := false, writeLocked := false,
                                      options := none, keys := none, lists := none : ListedRange }
    let open_ := fun (r : Nat) (g : RangeFields) => { bare r 1 with
      bounds := g.bounds, readLocked := g.readLocked, writeLocked := g.writeLocked }
    let v := (List.range 16).flatMap (fun r => match s.entry r with
      | .disabled => []
      | .damaged => [bare r 2]
      | .enabled g => if g.concealed then [] else [open_ r g])
    let full := (List.range 16).map (fun r => match s.entry r with
      | .disabled => bare r 0
      | .damaged => bare r 2
      | .enabled g => { open_ r g with
          options := some (g.lockMode, g.concealed, g.powerLock, g.standbyLock, g.keyLost)
          keys := some (g.keySlot, g.split.map (fun w => (w.newKey, w.watermark)))
          lists := some (g.readList, g.writeList) })
    let header := some { staged := s.rtb.staged.edits.length, mark := s.rtb.staged.mark, commit := s.rtb.commit.phase,
                         resealOnWake := s.rtb.resealOnWake : FullHeader }
    (∀ r < 16, (∃ e ∈ v, e.number = r) ↔ s.entry r = .damaged ∨ ∃ g, s.fields r = some g ∧ g.concealed = false) ∧
    (64 ≤ s.lif.limitControl → n ≠ 0 ∧ m ≠ 0) ∧
    ((Instr.rangeList f start none).passes s →
      (v.length ≤ start → Goes (.rangeList f start none) s (s.answered .rangeList f (.rangeList 0 v.length none []))) ∧
      (start < v.length → n = 0 → Goes (.rangeList f start none) s (s.answered .rangeList f (.status .tooLong []))) ∧
      (start < v.length → n ≠ 0 → Goes (.rangeList f start none) s (s.answered .rangeList f
        (.rangeList (min n (v.length - start)) v.length none ((v.drop start).take n))))) ∧
    (∀ i p, (Instr.rangeList f start (some p)).passes s → (Instr.rangeList f start (some p)).proves s i →
      let c := Instr.rangeList f start (some p)
      (16 ≤ start → AnsweredAfterProof c s i p f.tag (.rangeList 0 16 header [])) ∧
      (start < 16 → m = 0 → RefusedAfterProof c s i p f.tag .tooLong []) ∧
      (start < 16 → m ≠ 0 → AnsweredAfterProof c s i p f.tag (.rangeList (min m (16 - start)) 16 header
        ((full.drop start).take m))))

/-- R10: an edit whose fields are in range is appended to the staged list, and the OK with the list's length waits
for the write of the STAGE record; before that come BAD_FIELD, BUSY, WRONG_STATE and LIST_FULL, in this order. R11:
RANGE_DISCARD, which takes an ADMIN proof, empties the staged list with mark NONE; a deferred list's prepared slots go
RETIRING; the OK waits for the write of the STAGE record. During a commit it is refused BUSY. The first clause gives the
field checks: a range above 15, an unknown kind, a DEFINE with first_block of 2^40 or more or block_count above 2^40, an
OPTIONS with a value that names nothing, and an ACCESS list with a slot above 9 are BAD_FIELD; any other edit is taken as it is.
That a reseal_on_wake which is neither yes nor no is BAD_FIELD for a range other than 0 too is the model's choice (log 37). -/
def Obligations.StagedListIsEdited : Prop :=
  (∀ e : EditFields,
     let known := e.range ≤ 15
     let slots := fun l : CredSet => ∀ i, 9 < i → listed l i = false
     ((¬ known ∨ e.kind = none) → stagedEdit e = none) ∧
     (known → e.kind = some .define → stagedEdit e =
       if e.first < 2 ^ 40 ∧ e.count ≤ 2 ^ 40 then some (.define e.range e.first e.count) else none) ∧
     (known → e.kind = some .options →
       (∀ m a b c d, e.lockMode = some m → e.concealed = some a → e.powerLock = some b → e.standbyLock = some c →
         e.reseal = some d → stagedEdit e = some (.options e.range m a b c d)) ∧
       ((e.lockMode = none ∨ e.concealed = none ∨ e.powerLock = none ∨ e.standbyLock = none ∨ e.reseal = none) →
         stagedEdit e = none)) ∧
     (known → e.kind = some .access →
       (slots e.readList → slots e.writeList → stagedEdit e = some (.access e.range e.readList e.writeList)) ∧
       (¬(slots e.readList ∧ slots e.writeList) → stagedEdit e = none)) ∧
     (known → e.kind = some .newKey → stagedEdit e = some (.newKey e.range)) ∧
     (known → e.kind = some .disable → stagedEdit e = some (.disable e.range))) ∧
  (∀ (f : Hdr) (e : EditFields) (i : Nat) (p : ProofBlock) (s : State),
     let c := Instr.rangeStage f e p
     c.passes s → c.proves s i →
     (stagedEdit e = none → RefusedAfterProof c s i p f.tag .badField []) ∧
     (∀ x, stagedEdit e = some x →
       ((s.rtb.commit ≠ .idle ∨ s.rtb.staged.mark = .deferred) → RefusedAfterProof c s i p f.tag .busy []) ∧
       (s.rtb.commit = .idle → s.rtb.staged.mark ≠ .deferred → s.btc.state = .erased →
         RefusedAfterProof c s i p f.tag .wrongState []) ∧
       (s.rtb.commit = .idle → s.rtb.staged.mark ≠ .deferred → s.btc.state ≠ .erased → 8 ≤ s.rtb.staged.edits.length →
         RefusedAfterProof c s i p f.tag .listFull []) ∧
       (s.rtb.commit = .idle → s.rtb.staged.mark ≠ .deferred → s.btc.state ≠ .erased → s.rtb.staged.edits.length < 8 →
         ∃ t, Goes c s t ∧ Framed [.bursts, .tags, .challenges, .credSlots, .writes, .commit] s t ∧ Proved s t i p ∧
           WritesOnly [.cred i, .stage] s t ∧ t.lif.tagsInUse = s.lif.tagsInUse ++ [f.tag] ∧
           t.rtb = { s.rtb with staged := { s.rtb.staged with edits := s.rtb.staged.edits ++ [x] } } ∧
           t.holds .stage (.stage t.rtb.staged) (s.reply f.tag (.status .ok [s.rtb.staged.edits.length + 1]))))) ∧
  (∀ (f : Hdr) (i : Nat) (p : ProofBlock) (s : State),
     let c := Instr.rangeDiscard f p
     let prepared := s.rtb.staged.prepared.slots.map (fun q => q.2)
     (c.proves s i → i = 0) ∧
     (c.passes s → c.proves s i → s.rtb.commit ≠ .idle → RefusedAfterProof c s i p f.tag .busy []) ∧
     (c.passes s → c.proves s i → Shaped s → s.rtb.commit = .idle →
       ∃ t, Goes c s t ∧ Framed [.bursts, .tags, .challenges, .credSlots, .writes, .commit, .keySlots] s t ∧
         Proved s t i p ∧ WritesOnly ([.cred i, .stage] ++ prepared.map StoreUnit.key) s t ∧
         t.lif.tagsInUse = s.lif.tagsInUse ++ [f.tag] ∧ t.rtb = { s.rtb with staged := .blank } ∧
         (s.rtb.staged.mark ≠ .deferred → t.kst = s.kst) ∧
         (∀ k, s.rtb.staged.mark = .deferred → k ∈ prepared → (s.slot k).state = .live → (t.slot k).state = .retiring) ∧
         (∀ k, k ∉ prepared → t.slot k = s.slot k) ∧
         t.holds .stage (.stage .blank) (s.reply f.tag (.status .ok []))))

/-- R13, R14: the edits of a list are checked and applied to a copy of the table in order. The first that fails refuses
the list, with its status and its index: INVALID_LAYOUT for range 0, an empty or overlong span, an entry that is not
ENABLED or an EMPTY credential slot; RANGE_BUSY for a change of coverage or keys of a range under rekey whose keys are
not lost. Then two bounded ranges that overlap refuse it INVALID_LAYOUT with the index of the last edit that set the
bounds of either, and new keys beyond the EMPTY pool slots NO_KEY_SLOT. What each edit does to the copy, and which
ranges need a new key, follow.
Of several pairs that overlap the lowest decides, and a range that an earlier edit repairs is not busy: the model's
choices (log 37); a DAMAGED entry is not busy: log 20. -/
def Obligations.ListIsValidated : Prop :=
  ∀ s : State,
    let busy := fun (p : Plan) (r : Nat) => (∃ j, s.headJob = some j ∧ j.state ≠ .queued ∧ j.range = r) ∧
      r ∉ p.repaired ∧ ∃ g, p.entry r = .enabled g ∧ g.keyLost = false
    let enabled := fun (p : Plan) (r : Nat) => ∃ g, p.entry r = .enabled g
    let invalid := some Status.invalidLayout
    let keyChecks := fun (p : Plan) (r : Nat) (o : Option Status) =>
      (busy p r → o = some .rangeBusy) ∧ (¬ busy p r → o = none)
    let overlaps := fun (p : Plan) (a b : Nat) => 1 ≤ a ∧ a < b ∧ b < 16 ∧ ∃ g h x y, p.entry a = .enabled g ∧
      p.entry b = .enabled h ∧ g.bounds = some x ∧ h.bounds = some y ∧
      x.first < y.first + y.count ∧ y.first < x.first + x.count
    (∀ (p : Plan) (r first count : Nat),
      let o := s.checkEdit p (.define r first count)
      let bad := r = 0 ∨ count = 0 ∨ s.lif.capacity < first + count
      (bad → o = invalid) ∧ (¬ bad → keyChecks p r o)) ∧
    (∀ (p : Plan) (r : Nat) (m : LockMode) (a b c d : Bool),
      let o := s.checkEdit p (.options r m a b c d)
      (enabled p r → o = none) ∧ (¬ enabled p r → o = invalid)) ∧
    (∀ (p : Plan) (r : Nat) (x y : CredSet),
      let o := s.checkEdit p (.access r x y)
      let bad := ¬ enabled p r ∨ ∃ i < 10, (listed x i = true ∨ listed y i = true) ∧ (s.cred i).record.state = .empty
      (bad → o = invalid) ∧ (¬ bad → o = none)) ∧
    (∀ (p : Plan) (r : Nat),
      let o := s.checkEdit p (.newKey r)
      let bad := ¬ enabled p r ∧ ¬(r = 0 ∧ p.entry 0 = .damaged)
      (bad → o = invalid) ∧ (¬ bad → keyChecks p r o)) ∧
    (∀ (p : Plan) (r : Nat),
      let o := s.checkEdit p (.disable r)
      (r = 0 → o = invalid) ∧ (r ≠ 0 → keyChecks p r o)) ∧
    (∀ (es : List Edit) (i : Nat) (e : Edit) (st : Status), es[i]? = some e → s.checkEdit (s.plan (es.take i)) e = some st →
      (∀ j x, j < i → es[j]? = some x → s.checkEdit (s.plan (es.take j)) x = none) → s.validate es = .error (st, [i])) ∧
    (∀ es : List Edit, (∀ i x, es[i]? = some x → s.checkEdit (s.plan (es.take i)) x = none) →
      let p := s.plan es
      (∀ a b i e, overlaps p a b → (∀ x y, overlaps p x y → a < x ∨ (a = x ∧ b ≤ y)) → es[i]? = some e →
        (∃ n m, e = .define a n m ∨ e = .define b n m) → (∀ j n m, i < j → es[j]? ≠ some (.define a n m) ∧ es[j]? ≠ some (.define b n m)) →
        s.validate es = .error (.invalidLayout, [i])) ∧
      ((∀ x y, ¬ overlaps p x y) → s.poolCount .empty < p.needKeys.length → s.validate es = .error (.noKeySlot, [])) ∧
      ((∀ x y, ¬ overlaps p x y) → p.needKeys.length ≤ s.poolCount .empty → s.validate es = .ok p)) ∧
    (s.plan []).entries = s.rtb.entries ∧ (s.plan []).reseal = s.rtb.resealOnWake ∧ (s.plan []).remade = [] ∧
    (s.plan []).rekeyed = [] ∧ (s.plan []).repaired = [] ∧
    (∀ es e, s.plan (es ++ [e]) = (s.plan es).apply e) ∧
    (∀ (p : Plan) (r : Nat), r ∈ p.needKeys ↔
      r < 16 ∧ enabled p r ∧ (r ∈ p.remade ∨ r ∈ p.rekeyed ∨ r ∈ p.repaired)) ∧
    (∀ (p : Plan) (r : Nat), r < p.entries.length →
      let cleared := fun g : RangeFields => { g with keyLost := false, split := if g.keyLost then none else g.split }
      let others := fun q : Plan => ∀ x, x ≠ r → q.entry x = p.entry x
      (∀ first count, r ≠ 0 →
        let q := p.apply (.define r first count)
        let b : Option Span := some { first := first, count := count }
        others q ∧ q.reseal = p.reseal ∧ q.rekeyed = p.rekeyed ∧
        (∀ g, p.entry r = .enabled g → q.entry r = .enabled (cleared { g with bounds := b }) ∧ q.remade = p.remade ∧
          (∀ x, x ∈ q.repaired ↔ x ∈ p.repaired ∨ (x = r ∧ g.keyLost = true))) ∧
        (¬ enabled p r → q.entry r = .enabled
            { bounds := b, keySlot := 0, split := none, readLocked := true, writeLocked := true, lockMode := .refuse,
              concealed := false, powerLock := true, standbyLock := false, readList := 0, writeList := 0, envelopes := [],
              keyLost := false } ∧ q.remade = r :: p.remade ∧
          (∀ x, x ∈ q.repaired ↔ x ∈ p.repaired ∨ (x = r ∧ p.entry r = .damaged)))) ∧
      (∀ m a b c d, ∀ g, p.entry r = .enabled g →
        let q := p.apply (.options r m a b c d)
        others q ∧ q.entry r = .enabled { g with lockMode := m, concealed := a, powerLock := b, standbyLock := c } ∧
        q.reseal = (if r = 0 then d else p.reseal) ∧ q.remade = p.remade ∧ q.rekeyed = p.rekeyed ∧ q.repaired = p.repaired) ∧
      (∀ x y, ∀ g, p.entry r = .enabled g →
        p.apply (.access r x y) = { p with entries := p.entries.set r (.enabled { g with readList := x, writeList := y }) }) ∧
      (∀ g, p.entry r = .enabled g →
        let q := p.apply (.newKey r)
        others q ∧ q.entry r = .enabled (cleared g) ∧ q.reseal = p.reseal ∧ q.remade = p.remade ∧ q.rekeyed = r :: p.rekeyed ∧
        (∀ x, x ∈ q.repaired ↔ x ∈ p.repaired ∨ (x = r ∧ g.keyLost = true))) ∧
      (r = 0 → p.entry 0 = .damaged →
        let q := p.apply (.newKey 0)
        others q ∧ q.entry 0 = .enabled
          { bounds := none, keySlot := 0, split := none, readLocked := true, writeLocked := true, lockMode := .refuse,
            concealed := false, powerLock := false, standbyLock := false, readList := 0, writeList := 0, envelopes := [],
            keyLost := false } ∧ q.reseal = p.reseal ∧ q.remade = 0 :: p.remade ∧ q.rekeyed = p.rekeyed ∧
        q.repaired = 0 :: p.repaired) ∧
      (r ≠ 0 →
        let q := p.apply (.disable r)
        others q ∧ q.entry r = .disabled ∧ q.reseal = p.reseal ∧ q.remade = p.remade ∧ q.rekeyed = p.rekeyed ∧
        (∀ x, x ∈ q.repaired ↔ x ∈ p.repaired ∨
          (x = r ∧ (p.entry r = .damaged ∨ ∃ g, p.entry r = .enabled g ∧ g.keyLost = true)))))

/-- R12: the cases in which a RANGE_COMMIT is refused before its list is looked at, in their order; one that passes
with an empty list is answered DONE at once and changes nothing, and any other goes on to validation. R14, R15, R22: a
list that is not valid is refused with its status, as ListIsValidated says, and one whose ADMIN envelopes do not open
WRONG_STATE. Without defer the commit is accepted at once and drains with 5 seconds on its timer, the new keys it needs
reserved; a drain that waits for no context ends in the same step. With defer the list is marked DEFERRED beside a
prepared slot for every range that needs a new key, and the answer waits for the writes. The first clauses say what the
affected set holds (R15) and which RAKs are opened, those of the ENABLED ranges that any edit names; a defer that is
neither yes nor no is refused BAD_FIELD (R177). -/
def Obligations.RangeCommitIsCheckedAndAccepted : Prop :=
  (∀ (es : List Edit) (r : Nat), r ∈ affectedSet es ↔ r < 16 ∧
     ((∃ n m, .define r n m ∈ es) ∨ .newKey r ∈ es ∨ .disable r ∈ es ∨
       (r = 0 ∧ ∃ x, (∃ n m, .define x n m ∈ es) ∨ .disable x ∈ es))) ∧
  (∀ (s : State) (w : Option WrapValue) (es : List Edit),
     let named := fun r : Nat => r < 16 ∧ s.fields r ≠ none ∧ ∃ e ∈ es, e.range = r
     let opened := s.workingRaks w (namedRanges es)
     (opened = none ↔ ∃ r, named r ∧ s.openEnvelope r (.cred 0) w = none) ∧
     (∀ l, opened = some l → ∀ r k, (r, k) ∈ l ↔ (named r ∧ s.openEnvelope r (.cred 0) w = some k))) ∧
  (∀ (f : Hdr) (i : Nat) (p : ProofBlock) (s : State),
     let c := Instr.rangeCommit f none p
     c.passes s → c.proves s i → RefusedAfterProof c s i p f.tag .badField []) ∧
  (∀ (f : Hdr) (defer : Bool) (i : Nat) (p : ProofBlock) (s : State),
     let c := Instr.rangeCommit f (some defer) p
     c.passes s → c.proves s i →
     let cutting := ∃ k x, s.chain k = some x ∧ x.begun = true ∧ x.steps.head? = some .cutKeys
     let busy := s.rtb.commit ≠ .idle ∨ s.rtb.staged.mark = .deferred ∨ cutting
     let wrong := (s.btc.state ≠ .sealed ∧ s.btc.state ≠ .opened) ∨ 2 ≤ s.rsu.level.number
     (busy → RefusedAfterProof c s i p f.tag .busy []) ∧
     (¬ busy → wrong → RefusedAfterProof c s i p f.tag .wrongState []) ∧
     (¬ busy → ¬ wrong → s.rtb.staged.edits = [] → AnsweredAfterProof c s i p f.tag (.status .done [])) ∧
     (¬ busy → ¬ wrong → s.rtb.staged.edits ≠ [] → ∀ st d, s.validate s.rtb.staged.edits = .error (st, d) →
       RefusedAfterProof c s i p f.tag st d)) ∧
  (∀ (f : Hdr) (defer : Bool) (i : Nat) (p : ProofBlock) (s : State),
     let c := Instr.rangeCommit f (some defer) p
     let es := s.rtb.staged.edits
     c.passes s → c.proves s i → s.commitRefusal = none → es ≠ [] →
     (∀ st d, s.validate es = .error (st, d) → RefusedAfterProof c s i p f.tag st d) ∧
     (∀ x, s.validate es = .ok x → s.workingRaks (s.grantValue i) (namedRanges es) = none →
       RefusedAfterProof c s i p f.tag .wrongState []) ∧
     (∀ x raks, s.validate es = .ok x → s.workingRaks (s.grantValue i) (namedRanges es) = some raks →
       (defer = false → ∃ t, Goes c s t.settleDrain ∧
         Framed [.bursts, .tags, .challenges, .credSlots, .writes, .commit, .hold, .sent] s t ∧ Proved s t i p ∧
         WritesOnly [.cred i] s t ∧ t.lif.tagsInUse = s.lif.tagsInUse ++ [f.tag] ∧
         t.rtb = { s.rtb with commit := .draining (affectedSet es) 5 raks (s.replyTo .control f.tag) } ∧
         t.kst = { s.kst with reservation := x.needKeys.length } ∧
         t.sent = s.sent ++ [frame .control f.tag (.status .accepted [])]) ∧
       (defer = true → ∃ t, Goes c s t ∧
         Framed [.bursts, .tags, .challenges, .credSlots, .writes, .commit, .keySlots, .names] s t ∧ Proved s t i p ∧
         t.lif.tagsInUse = s.lif.tagsInUse ++ [f.tag] ∧
         t.rtb.staged.edits = es ∧ t.rtb.staged.mark = .deferred ∧ t.rtb.commit = s.rtb.commit ∧
         t.holds .stage (.stage t.rtb.staged) (.deferredCommit (s.replyTo .control f.tag)) ∧
         (Shaped s → ∀ n ∈ x.needKeys, ∃ k, (n, k) ∈ t.rtb.staged.prepared.slots ∧ k < 23 ∧ (s.slot k).state = .empty ∧
           (t.slot k).state = .live ∧ (t.slot k).owner = some n) ∧
         (∀ q ∈ t.rtb.staged.prepared.slots,
           t.holds (.key q.2) (t.recordOf (.key q.2)) (.deferredCommit (s.replyTo .control f.tag))))))

/-- R15, R17, R18, R93: a draining commit enters WRITING once no OPEN context lies in its affected set, with mark
APPLYING and the first wave placed; at the expiry of its timer the contexts of the set are aborted first, whatever
their mode, with cause DRAIN, and no other context. Without a draining commit neither changes anything. -/
def Obligations.DrainEndsInWriting : Prop :=
  ∀ s : State,
    ((∀ a n k rto, s.rtb.commit ≠ .draining a n k rto) →
      Goes .commitWriting s s ∧ Goes .drainTimerExpiry s s) ∧
    (∀ a n k rto, s.rtb.commit = .draining a n k rto →
      ((∃ c < 16, ∃ x, (s.ctx c).xfer = some x ∧ x.inRanges a = true) → Goes .commitWriting s s) ∧
      ((∀ c < 16, ∀ x, (s.ctx c).xfer = some x → x.inRanges a = false) → Goes .commitWriting s s.enterWriting) ∧
      (∃ u, Goes .drainTimerExpiry s u.enterWriting ∧
        Framed [.data, .keySlots, .loads, .writes, .sent] s u ∧
        (∀ c < 16, u.ctx c = match (s.ctx c).xfer with
          | some x => if x.inRanges a then { s.ctx c with xfer := none } else s.ctx c
          | none => s.ctx c) ∧
        (∀ c < 16, ∀ x, (s.ctx c).xfer = some x → x.inRanges a = true →
          frame x.rto.channel x.rto.tag (.aborted c (s.ctx c).generation .drain x.nextIndex) ∈ u.sent ∨
          ∃ o ∈ u.dpu.owed, o.context = c ∧ o.generation = (s.ctx c).generation ∧ o.rto = x.rto ∧
            o.body = .aborted c (s.ctx c).generation .drain x.nextIndex)) ∧
      (∃ w left changed retired resealed, s.enterWriting.rtb.commit = .writing a w left changed retired resealed rto ∧ w = 1) ∧
      s.enterWriting.rtb.staged.edits = s.rtb.staged.edits ∧ s.enterWriting.rtb.staged.mark = .applying ∧
      s.enterWriting.kst.reservation = 0 ∧
      s.enterWriting.holds .stage (.stage s.enterWriting.rtb.staged) .commitWave)

/-- R18, R19 wave 1: what a draining commit installs as it enters WRITING. A range that the list leaves DISABLED or
DAMAGED has its entry and is NOT_LOADED; an ENABLED one has its new fields, its new data key's slot where it needs one,
and an envelope for each holder that its options and lists now give and did not give before, while those no longer
given are gone. Entries that the list does not name keep. Each new key lies in a slot that was EMPTY, under the range's
RAK, and its KEY write is in wave 1 with the STAGE write. The LIVE slots that a named range named and names no more, and
those of a DAMAGED range that is repaired, go RETIRING, and no other. Wave 2 is settled with them: the changed ranges are
those whose RANGE record differs, in which the lock flags are not stored (R4), and the retired slots those that went
RETIRING; what it writes CommitWavesComplete says. The jobs that R18 and R110 end leave the queue, those
of ranges that became DISABLED, received a new RAK or were repaired, a repaired head's with REKEY_DONE KEY_LOST. A range
newly ENABLED with power_lock off, or whose power_lock was turned off, is unlocked; the other named ranges keep their
flags, a newly ENABLED one with power_lock on its locks.
That an edit of a range whose key is lost during the drain becomes a repair with a new key is the model's choice
(log 37), as is that a slot's own range alone counts as naming it (log 37); the REKEY_DONE of a repaired range's job that
is still QUEUED is its reading (log 20). -/
def Obligations.CommitInstallsItsList : Prop :=
  ∀ (s : State) (a : List Nat) (n : Nat) (raks : List (Nat × Rak)) (rto : ReplyTo),
    let es := s.rtb.staged.edits
    let p := s.plan es
    let t := s.enterWriting
    let m := t.rtb.staged.prepared
    let named := fun r : Nat => r < 16 ∧ ∃ e ∈ es, e.range = r
    let freed := fun (r : Nat) (g : RangeFields) => named r ∧ g.powerLock = false ∧
      (r ∈ p.remade ∨ ∃ o, s.fields r = some o ∧ o.powerLock = true)
    let stays := fun j : Job => !(j.state == .queued && ((p.entry j.range == .disabled && s.entry j.range != .disabled) ||
      p.remade.contains j.range || p.repaired.contains j.range))
    let names := fun (u : State) (q k : Nat) => ∃ g, u.fields q = some g ∧ k ∈ g.named
    let told := fun j : Job => frame .control 0 (.rekeyDone j.range (j.serial.getD 0) .keyLost) ∈ t.sent
    s.rtb.commit = .draining a n raks rto → Shaped s → s.lockdown = false → p.needKeys.length ≤ s.poolCount .empty →
    (∀ r g, named r → s.fields r = some g → ∃ k, pairedWith raks r = some k ∧ s.intactUnder r k) →
    (∃ changed retired, t.rtb.commit = .writing a 1 (m.slots.length + 1) changed retired
        (p.reseal != s.rtb.resealOnWake) rto ∧ changed.Nodup ∧ retired.Nodup ∧
      (∀ r, r ∈ changed ↔ (t.entry r).stored ≠ (s.entry r).stored) ∧
      (∀ k, k ∈ retired ↔ k < 23 ∧ (s.slot k).state = .live ∧ (t.slot k).state = .retiring)) ∧
    t.rtb.resealOnWake = p.reseal ∧ t.rtb.staged.edits = es ∧ t.rtb.staged.mark = .applying ∧ t.kst.reservation = 0 ∧
    t.holds .stage (.stage t.rtb.staged) .commitWave ∧
    (∀ r, ¬ named r → t.entry r = s.entry r) ∧
    (∀ r, named r → (∀ g, p.entry r ≠ .enabled g) → t.entry r = p.entry r ∧ t.load r = .notLoaded) ∧
    (∀ r, r ∈ p.needKeys → ∃ k, (r, k) ∈ m.slots ∧ k < 23 ∧ (s.slot k).state = .empty ∧ (t.slot k).state = .live ∧
      (t.slot k).owner = some r ∧ t.holds (.key k) (t.recordOf (.key k)) .commitWave ∧
      ∃ d, (t.slot k).material = some d ∧ d.whole = true ∧ (r ∉ p.remade → pairedWith raks r = some d.rak)) ∧
    (∀ r g, named r → p.entry r = .enabled g → ∃ h, t.fields r = some h ∧
      { h with keySlot := g.keySlot, readLocked := g.readLocked, writeLocked := g.writeLocked, envelopes := g.envelopes } = g ∧
      (∀ k, (r, k) ∈ m.slots → h.keySlot = k) ∧ (r ∉ p.needKeys → h.keySlot = g.keySlot) ∧
      (freed r g → h.readLocked = false ∧ h.writeLocked = false ∧ ∃ k, t.load r = .loaded k) ∧
      (¬ freed r g → h.readLocked = g.readLocked ∧ h.writeLocked = g.writeLocked) ∧
      (∀ x ∈ holderOrder, g.holds x = false → envelopeOf h.envelopes x = none) ∧
      (∀ x ∈ holderOrder, g.holds x = true → ∀ o, r ∉ p.remade → s.fields r = some o → o.holds x = true →
        envelopeOf h.envelopes x = envelopeOf o.envelopes x) ∧
      (∀ x ∈ holderOrder, g.holds x = true → (r ∈ p.remade ∨ ∀ o, s.fields r = some o → o.holds x = false) →
        (∀ i, x = .cred i → s.credOp i = none ∧ (s.cred i).record.wrap ≠ none) →
        ∃ e, envelopeOf h.envelopes x = some e ∧ e.whole = true ∧ (r ∉ p.remade → pairedWith raks r = some e.rak) ∧
          (∀ d, (t.slot h.keySlot).material = some d → r ∈ p.remade → e.rak = d.rak) ∧
          (∀ i, x = .cred i → some e.wraps = (s.cred i).record.wrap.map (fun w => [w])) ∧ (x = .device → e.wraps = [.device]))) ∧
    (∀ k < 23, ∀ r, (s.slot k).state = .live → (s.slot k).owner = some r →
      let dropped := t.entry r ≠ .damaged ∧ ¬ names t r k ∧
        ((named r ∧ s.entry r = .damaged) ∨ ∃ q, named q ∧ names s q k ∧ ¬ names t q k)
      (dropped → (t.slot k).state = .retiring) ∧ (¬ dropped → (t.slot k).state = .live)) ∧
    (∀ j, s.activeJob = some j → j.range ∈ p.repaired →
      t.rke.queue.map (fun x => x.range) = (s.rke.queue.tail.filter stays).map (fun x => x.range) ∧
        (s.lif.started = true → told j)) ∧
    ((∀ j, s.activeJob = some j → j.range ∉ p.repaired) →
      t.rke.queue.map (fun x => x.range) = (s.rke.queue.filter stays).map (fun x => x.range)) ∧
    (∀ j, s.headJob = some j → j.state = .queued → j.range ∈ p.repaired → j.range ∉ p.remade →
      (∃ g, p.entry j.range = .enabled g) → s.lif.started = true → told j)

/-- R19, R22, R23, R25: the completion of a write of a commit. Before the last write of its wave only the count falls.
After wave 1 come the RANGE records of the changed entries, the KEY records of the slots retired and, where
reseal_on_wake changed, the DEVICE record; after wave 2 the STAGE record, empty with mark NONE; and after it the commit
is over and DONE is sent. A wave without a write is passed over. After the last write of a deferred commit ACCEPTED is
sent; either frees its tag (R165). After those of a start-up's commit the STAGE record is written, and with it the start-up's
commit is over. -/
def Obligations.CommitWavesComplete : Prop :=
  ∀ s : State,
    (let t := s.signal .commitWave
     ((∀ a w l c d e rto, s.rtb.commit ≠ .writing a w l c d e rto) → t = s) ∧
     (∀ a w l c d e rto, s.rtb.commit = .writing a w l c d e rto →
      let units := c.map StoreUnit.range ++ d.map StoreUnit.key
      let n := units.length + if e then 1 else 0
      (1 < l → Framed [.commit] s t ∧ t.rtb = { s.rtb with commit := .writing a w (l - 1) c d e rto }) ∧
      (l ≤ 1 → w = 1 → n ≠ 0 → Framed [.commit, .writes, .device] s t ∧ WritesOnly (.device :: units) s t ∧
        t.rtb = { s.rtb with commit := .writing a 2 n c d e rto } ∧
        (∀ u ∈ units, t.holds u (t.recordOf u) .commitWave) ∧
        (e = false → t.sst.lastDevice = s.sst.lastDevice ∧ WritesOnly units s t) ∧
        (e = true → t.sst.lastDevice = { s.sst.lastDevice with resealOnWake := s.rtb.resealOnWake } ∧
          t.holds .device (.device t.sst.lastDevice) .commitWave)) ∧
      (l ≤ 1 → (w = 2 ∨ (w = 1 ∧ n = 0)) → Framed [.commit, .writes] s t ∧ WritesOnly [.stage] s t ∧
        t.rtb = { s.rtb with commit := .writing a 3 1 c d e rto } ∧ t.holds .stage (.stage .blank) .commitWave) ∧
      (l ≤ 1 → w = 3 → Framed [.commit, .tags, .sent] s t ∧ TagFreed rto s t ∧
        t.rtb = { s.rtb with staged := .blank, commit := .idle } ∧
        (rto.session = s.lif.session → t.sent = s.sent ++ [frame rto.channel rto.tag (.status .done [])])))) ∧
    (∀ rto : ReplyTo,
      let t := s.signal (.deferredCommit rto)
      ((∀ q ∈ s.rtb.preparing, q.rto ≠ rto) → t = s) ∧
      (∀ q, s.rtb.preparing.find? (fun x => x.rto == rto) = some q →
        (1 < q.left → Framed [.commit] s t ∧ t.rtb = { s.rtb with
          preparing := s.rtb.preparing.map (fun x => if x.rto = rto then { x with left := x.left - 1 } else x) }) ∧
        (q.left ≤ 1 → Framed [.commit, .tags, .sent] s t ∧ TagFreed rto s t ∧
          t.rtb = { s.rtb with preparing := s.rtb.preparing.filter (fun x => x.rto != rto) } ∧
          (rto.session = s.lif.session → t.sent = s.sent ++ [frame rto.channel rto.tag (.status .accepted [])])))) ∧
    (let t := s.signal .startCommit
     (s.rtb.startCommit = none → t = s) ∧
     (∀ c, s.rtb.startCommit = some c →
      (1 < c.left → Framed [.commit] s t ∧ t.rtb = { s.rtb with startCommit := some { c with left := c.left - 1 } }) ∧
      (c.left ≤ 1 → c.last = true → Framed [.commit] s t ∧ t.rtb = { s.rtb with startCommit := none }) ∧
      (c.left ≤ 1 → c.last = false → Framed [.commit, .writes] s t ∧ WritesOnly [.stage] s t ∧
        t.rtb = { s.rtb with startCommit := some { left := 1, last := true } } ∧
        t.holds .stage (.stage s.rtb.staged) .startCommit)))

/-! ### The Data Path (chapter 5) -/

/-- R80, R81: the checks of an XFER_OPEN before its range is looked up, in their order, and the open of a span in
the overlay: READ_ONLY_OVERLAY, NO_CONTEXT, or a grant in mode OVERLAY under slot 23 with the offset of its media
block from image_base.
That a first_block of 2^40 or more is refused BAD_FIELD is the model's choice (log 9). -/
def Obligations.XferOpenIsCheckedAndServesOverlay : Prop :=
  ∀ (f : Hdr) (d first count : Nat) (s : State),
    let c := Instr.xferOpen f d first count
    let refused := fun (st : Status) (det : List Nat) => Goes c s (s.answered .xferOpen f (.status st det))
    let fields := d ≤ 1 ∧ 1 ≤ count ∧ count ≤ 256 ∧ first < 2 ^ 40
    let overlay := s.btc.state = .sealed ∨ s.btc.state = .quarantine ∨ s.btc.state = .erased
    let wrong := s.btc.state = .erased ∧ ¬(d = 0 ∧ first < s.btc.imageSize)
    c.passes s → Shaped s →
    (s.sst.power = .standby → refused .standby []) ∧
    (s.sst.power ≠ .standby → ¬ fields → refused .badField []) ∧
    (s.sst.power ≠ .standby → fields →
      (wrong → refused .wrongState []) ∧
      (¬ wrong → s.lif.capacity < first + count → refused .outOfRange []) ∧
      (¬ wrong → first + count ≤ s.lif.capacity → overlay → first < s.btc.imageSize →
        (s.btc.imageSize < first + count → refused .crossesRange [s.btc.imageSize - first]) ∧
        (first + count ≤ s.btc.imageSize → d = 1 → s.btc.unsealed = false → refused .readOnlyOverlay []) ∧
        (first + count ≤ s.btc.imageSize → (d = 0 ∨ s.btc.unsealed = true) →
          ((∀ k < 16, (s.ctx k).xfer ≠ none) → refused .noContext []) ∧
          ((∃ k < 16, (s.ctx k).xfer = none) →
            GrantedOpen c s f (if d = 1 then .write else .read) first count .overlay none [23] first))))

/-- R2, R16, R82: an XFER_OPEN outside the overlay: CROSSES_RANGE with the distance of the first block of another
range, TABLE_DAMAGED, HELD, KEY_LOST, LOCKED, NO_CONTEXT, in their order; a locked range with lock_mode SHROUD
grants in mode SHROUD without keys, and an unlocked one in mode CLEAR under the LIVE key slots its span uses. A block lies
in the bounded ENABLED range that covers it, and in range 0 where none does (R2). A span is held under a chunk that it
overlaps, from CLAIMING until its window is released, and, while the scratch header is still to be judged, anywhere in the
active job's range (R82 item 3, R115). -/
def Obligations.XferOpenLooksUpItsRange : Prop :=
  ∀ (f : Hdr) (d first count : Nat) (s : State),
    let c := Instr.xferOpen f d first count
    let refused := fun (st : Status) (det : List Nat) => Goes c s (s.answered .xferOpen f (.status st det))
    let overlay := s.btc.state = .sealed ∨ s.btc.state = .quarantine ∨ s.btc.state = .erased
    let r := s.rangeOf first
    let full := ∀ k < 16, (s.ctx k).xfer ≠ none
    let covers := fun q b : Nat => ∃ g x, s.fields q = some g ∧ g.bounds = some x ∧ x.first ≤ b ∧ b < x.first + x.count
    (∀ b, (∀ q < 16, 1 ≤ q → ¬ covers q b) → s.rangeOf b = 0) ∧
    (∀ q b, 1 ≤ q → q < 16 → covers q b → (∀ x < 16, 1 ≤ x → covers x b → x = q) → s.rangeOf b = q) ∧
    (∀ q b n, s.underChunk q b n = true ↔
      ((s.rke.phase = .claiming ∨ s.rke.window = true) ∧ b < s.rke.first + s.rke.n ∧ s.rke.first < b + n) ∨
      (s.rke.rangeHeld = true ∧ ∃ j, s.headJob = some j ∧ j.state ≠ .queued ∧ j.range = q)) ∧
    (c.passes s → Shaped s → s.sst.power ≠ .standby → d ≤ 1 → 1 ≤ count → count ≤ 256 → first < 2 ^ 40 → s.btc.state ≠ .erased →
    first + count ≤ s.lif.capacity → (overlay → s.btc.imageSize ≤ first) →
    (∀ i < count, s.rangeOf (first + i) ≠ r → (∀ j < i, s.rangeOf (first + j) = r) → refused .crossesRange [i]) ∧
    ((∀ i < count, s.rangeOf (first + i) = r) →
      ((∃ q < 16, s.entry q = .damaged) → refused .tableDamaged []) ∧
      ((∀ q < 16, s.entry q ≠ .damaged) →
        ((r ∈ s.affected ∨ s.underChunk r first count = true) → refused .held []) ∧
        (r ∉ s.affected → s.underChunk r first count = false → ∀ g, s.fields r = some g →
          let locked := if d = 1 then g.writeLocked else g.readLocked
          let dir := if d = 1 then Direction.write else .read
          let keys := match g.split with
            | none => [g.keySlot]
            | some w => if first + count ≤ w.watermark then [w.newKey]
              else if w.watermark ≤ first then [g.keySlot] else [g.keySlot, w.newKey]
          (g.keyLost = true → refused .keyLost []) ∧
          (g.keyLost = false → locked = true → g.lockMode = .refuse → refused .locked []) ∧
          (g.keyLost = false → (locked = false ∨ g.lockMode = .shroud) → full → refused .noContext []) ∧
          (g.keyLost = false → locked = true → g.lockMode = .shroud → ¬ full →
            GrantedOpen c s f dir first count .shroud (some r) [] 0) ∧
          (g.keyLost = false → locked = false → ¬ full → (∀ k, s.load r ≠ .loaded k) → refused .locked []) ∧
          (∀ k, g.keyLost = false → locked = false → ¬ full → s.load r = .loaded k →
            ((∃ x ∈ keys, (s.slot x).state ≠ .live) → refused .keyLost []) ∧
            ((∀ x ∈ keys, (s.slot x).state = .live) → GrantedOpen c s f dir first count .clear (some r) keys 0))))))

/-- R79, R85 to R87: an XFER_BLOCK: STANDBY, BAD_FIELD for a context above 15 or an index above 255 (R177
item 7), NO_CONTEXT for a FREE context or another generation, ORDER for another index; a taken block raises
next_index, and a SHROUD one is answered at once with zeros or DISCARDED, while a CLEAR or OVERLAY one is in flight
under the key of its block with tweak b: that of slot 23 in mode OVERLAY, and in mode CLEAR that of the range's
new_key_slot below its watermark and of its key_slot elsewhere (R86).
Which key a block meets whose slot holds no loaded copy is the model's choice (log 28), and that a CLEAR block's key is
chosen as the block is taken is its reading (log 29). -/
def Obligations.XferBlockIsTakenInOrder : Prop :=
  ∀ (f : Hdr) (n g i : Nat) (data : Block) (s : State),
    let c := Instr.xferBlock f n g i data
    let refused := fun st : Status => Goes c s (s.answered .xferBlock f (.status st []))
    c.passes s → Shaped s →
    (s.sst.power = .standby → refused .standby) ∧
    (s.sst.power ≠ .standby → (15 < n ∨ 255 < i) → refused .badField) ∧
    (s.sst.power ≠ .standby → n ≤ 15 → i ≤ 255 → ((s.ctx n).xfer = none ∨ (s.ctx n).generation ≠ g) → refused .noContext) ∧
    (∀ x, s.sst.power ≠ .standby → n ≤ 15 → i ≤ 255 → (s.ctx n).generation = g → (s.ctx n).xfer = some x →
      ((i ≠ x.nextIndex ∨ x.count ≤ x.nextIndex) → refused .order) ∧
      (i = x.nextIndex → x.nextIndex < x.count →
        ∃ t, Goes c s t ∧ Framed [.bursts, .data, .sent] s t ∧
          t.ctx n = { s.ctx n with xfer := some { x with nextIndex := i + 1 } } ∧ (∀ j, j ≠ n → t.ctx j = s.ctx j) ∧
          t.dpu.owed = s.dpu.owed ∧ t.dpu.lastSide = s.dpu.lastSide ∧
          (x.mode = .shroud → t.dpu.flights = s.dpu.flights ∧ t.sent = s.sent ++ [frame .data f.tag
            (if x.direction = .read then .block n g i .zeros else .discarded n g i)]) ∧
          (x.mode ≠ .shroud → t.sent = s.sent ∧ ∃ y, t.dpu.flights = s.dpu.flights ++ [y] ∧
            y.context = n ∧ y.generation = g ∧ y.index = i ∧ y.direction = x.direction ∧ y.tweak = x.first + i ∧
            y.data = data ∧ y.rto = s.replyTo .data f.tag ∧ y.stage ≠ .done ∧
            y.key = some (s.keyOf (if x.mode = .overlay then 23 else s.blockSlot (x.range.getD 0) (x.first + i))) ∧
            (∀ q h, x.mode = .clear → x.range = some q → s.fields q = some h →
              let k := match h.split with
                | some w => if x.first + i < w.watermark then w.newKey else h.keySlot
                | none => h.keySlot
              y.key = some (s.keyOf k) ∧ (∀ z, (s.slot k).copy = some z → y.key = some z)) ∧
            (∀ z, x.mode = .overlay → (s.slot 23).copy = some z → y.key = some z))))

/-- R79, R89: an XFER_CLOSE frees its context and ends its references; the OK with the number of blocks taken follows
the replies to its blocks still in flight, and a drain that waited for the context goes on. R28, R30, R34: the users of
its key slots fall; a RETIRING slot whose last user it was loses its copy and has its erasure placed; a RELEASING range
that is left without a holder is NOT_LOADED, its keys' copies dropped, and any other range keeps its load. -/
def Obligations.XferCloseFreesItsContext : Prop :=
  ∀ (f : Hdr) (n g : Nat) (s : State),
    let c := Instr.xferClose f n g
    let refused := fun st : Status => Goes c s (s.answered .xferClose f (.status st []))
    c.passes s → Shaped s →
    (s.sst.power = .standby → refused .standby) ∧
    (s.sst.power ≠ .standby → 15 < n → refused .badField) ∧
    (s.sst.power ≠ .standby → n ≤ 15 → ((s.ctx n).xfer = none ∨ (s.ctx n).generation ≠ g) → refused .noContext) ∧
    (∀ x, s.sst.power ≠ .standby → n ≤ 15 → (s.ctx n).generation = g → (s.ctx n).xfer = some x →
      ∃ t, Goes c s t.settleDrain ∧ Framed [.bursts, .data, .keySlots, .loads, .writes, .sent] s t ∧
        WritesOnly (x.keyRefs.map StoreUnit.key) s t ∧
        t.ctx n = { s.ctx n with xfer := none } ∧ (∀ j, j ≠ n → t.ctx j = s.ctx j) ∧ t.dpu.flights = s.dpu.flights ∧
        (∀ k, t.slot k = { s.slot k with
          users := (s.slot k).users - x.keyRefs.count k, copy := (t.slot k).copy, erasing := (t.slot k).erasing }) ∧
        (let erased := fun k : Nat => k ∈ x.keyRefs ∧ (s.slot k).state = .retiring ∧ (s.slot k).erasing = false ∧ (t.slot k).users = 0
         let left := fun r : Nat => (∃ y, s.load r = .releasing y) ∧ (∃ k ∈ x.keyRefs, (s.slot k).owner = some r) ∧
           (∀ h, s.kst.hold = some h → h.range ≠ r) ∧
           ∀ k ∈ s.namedSlots r, (s.slot k).owner = some r → (t.slot k).users = 0
         (∀ k, erased k → (t.slot k).copy = none ∧ (t.slot k).erasing = true ∧ t.holds (.key k) (.key .blank) (.erased k)) ∧
         (∀ k, ¬ erased k → (t.slot k).erasing = (s.slot k).erasing) ∧
         (∀ r, left r → t.load r = .notLoaded ∧
           ∀ k < 23, (s.slot k).state = .live → (s.slot k).owner = some r → (t.slot k).copy = none) ∧
         (∀ r, ¬ left r → t.load r = s.load r) ∧
         (∀ k, ¬ erased k → (∀ r, (s.slot k).owner = some r → ¬ left r) → (t.slot k).copy = (s.slot k).copy)) ∧
        (s.inFlight n g = false → t.dpu.owed = s.dpu.owed ∧
          t.sent = s.sent ++ [frame .data f.tag (.status .ok [x.nextIndex])]) ∧
        (s.inFlight n g = true → t.sent = s.sent ∧ t.dpu.owed = s.dpu.owed ++
          [{ context := n, generation := g, body := .status .ok [x.nextIndex], rto := s.replyTo .data f.tag }]))

/-- R88, R102: a free core goes to the first waiter of the side that waits, and, when both wait, of the side that did
not receive the last one given so. A completed block holds its result and gives up its copy of the key. It leaves, and is
answered, exactly when no earlier block of its grant is still under way, the frames in the order in which the blocks were
taken, which for one grant is index order; any other stays in flight unanswered. Behind them what is owed on a context is
sent, exactly when no block of its grant is left in flight. A link restart in between withholds an answer, but no notice
of an abort. A completed rekey transform puts its block, under the new key, into the buffer of its chunk, and a full
buffer is written to the scratch span.
The choice among free cores is the model's (log 27), and so is that what is owed follows all the answers of its step
(log 31). -/
def Obligations.CoresServeBothSides : Prop :=
  (∀ s : State, ((∀ k < 4, s.coreBusy k = true) ∨ (s.dataWaits = false ∧ s.sweepWaits = false)) →
    exec .cipherCoreGrant s = .next s) ∧
  (∀ (s : State) (k : Nat), k < 4 → s.coreBusy k = false → (∀ j < k, s.coreBusy j = true) →
    (s.dataWaits = true → (s.sweepWaits = false ∨ s.dpu.lastSide = .rekey) →
      ∃ t pre y post, exec .cipherCoreGrant s = .next t ∧ Framed [.data] s t ∧ s.dpu.flights = pre ++ y :: post ∧
        y.stage = .waiting ∧ (∀ z ∈ pre, z.stage ≠ .waiting) ∧
        t.dpu = { s.dpu with flights := pre ++ { y with stage := .inCore k } :: post
                             lastSide := if s.sweepWaits then .dataPath else s.dpu.lastSide }) ∧
    (s.sweepWaits = true → (s.dataWaits = false ∨ s.dpu.lastSide = .dataPath) →
      ∃ t pre y post, exec .cipherCoreGrant s = .next t ∧ Framed [.data, .rekey] s t ∧ s.rke.work = pre ++ y :: post ∧
        y.stage = .waiting ∧ (∀ z ∈ pre, z.stage ≠ .waiting) ∧
        t.rke = { s.rke with work := pre ++ { y with stage := .inCore k } :: post } ∧
        t.dpu = { s.dpu with lastSide := if s.dataWaits then .rekey else s.dpu.lastSide })) ∧
  (∀ (s : State) (k : Nat), s.rke.work.find? (fun w => w.stage == .inCore k) = none →
    let after := s.dpu.flights.map (fun y : Flight => if y.stage = .inCore k then { y with
        stage := .done, key := none
        data := match y.key, y.direction with
          | some key, .read => decipher key y.tweak y.data
          | some key, .write => encipher key y.tweak y.data
          | none, _ => y.data } else y)
    let leaves : Nat → Bool := fun i => match after[i]? with
      | some y => (after.take (i + 1)).all (fun z => !(z.context == y.context && z.generation == y.generation) || z.stage == .done)
      | none => false
    let gone := (List.range after.length).filterMap (fun i => if leaves i then after[i]? else none)
    let left := (List.range after.length).filterMap (fun i => if leaves i then none else after[i]?)
    let waits := fun o : Owed => left.any (fun z => z.context == o.context && z.generation == o.generation)
    let told := fun o : Owed => decide (o.rto.session = s.lif.session) || (match o.body with
      | .aborted _ _ _ _ => true
      | _ => false)
    ∃ t, Goes (.cipherTransformComplete k) s t ∧ Framed [.tags, .data, .sent] s t ∧
      ((∀ y ∈ s.dpu.flights, y.rto.channel = .data) → (∀ o ∈ s.dpu.owed, o.rto.channel = .data) →
        t.lif.tagsInUse = s.lif.tagsInUse) ∧
      t.dpu = { s.dpu with flights := left, owed := s.dpu.owed.filter waits } ∧
      t.sent = s.sent ++ (gone.filter (fun y => decide (y.rto.session = s.lif.session))).map (fun y =>
          frame y.rto.channel y.rto.tag (.block y.context y.generation y.index y.data)) ++
        (s.dpu.owed.filter (fun o => !waits o && told o)).map (fun o => frame o.rto.channel o.rto.tag o.body)) ∧
  (∀ (s : State) (k : Nat) (w : SweepWork), s.rke.work.find? (fun w => w.stage == .inCore k) = some w →
    let others := s.rke.work.filter (fun x => x.stage != .inCore k)
    let buffer := s.rke.buffer.set w.position (some (encipher w.newKey w.tweak (decipher w.oldKey w.tweak w.data)))
    ∃ t, Goes (.cipherTransformComplete k) s t ∧ Framed [.rekey] s t ∧
      (w.chunk ≠ s.rke.chunk → t.rke = { s.rke with work := others }) ∧
      (w.chunk = s.rke.chunk → t.rke = { s.rke with
        work := others, buffer := buffer
        todo := if (∀ x ∈ buffer, x ≠ none) ∧ s.rke.todo = [] ∧ s.rke.issued = [] then (List.range s.rke.n).map ChunkOp.scratch
                else s.rke.todo }))

/-! ### The Rekey Engine (chapter 6) -/

/-- R99, R112: REKEY_QUEUE appends a QUEUED job whose job_copy is opened through the ADMIN envelope, and its OK waits
for the queue part; REKEY_RESUME loads the range's RAK where it is not loaded (R33); a QUEUED head takes it as its copy,
and is answered at once, and a PAUSED or FAULTED head becomes SWEEPING, its sweep hold taken again (R106, R107), the answer
waiting for the progress part, while a kept chunk issues again its requests that had not ended. The rest of the queue
stays. Each refusal comes in its order.
That a resume whose load finds a key of the range damaged (R36) is refused KEY_LOST is the model's reading (log 24), as are
the number of a resumption and when the progress part's write must wait (log 22), and that a job which has completed is
not FAULTED (log 23). That a kept chunk's requests do not wait for that write, and that the fault stops a recovery, is the
model's choice (log 39), as is that the OK of a REKEY_QUEUE carries the position at which its job joined (log 43). -/
def Obligations.RekeyRequestsMoveTheQueue : Prop :=
  ∀ (f : Hdr) (r i : Nat) (p : ProofBlock) (s : State),
    let wrong := (s.btc.state ≠ .sealed ∧ s.btc.state ≠ .opened) ∨ 2 ≤ s.rsu.level.number
    let opened := s.openEnvelope r (.cred 0) (s.grantValue i)
    (let c := Instr.rekeyQueue f r p
     c.passes s → c.proves s i →
      (15 < r → RefusedAfterProof c s i p f.tag .badField []) ∧
      (r ≤ 15 → (wrong ∨ s.fields r = none) → RefusedAfterProof c s i p f.tag .wrongState []) ∧
      (∀ g, r ≤ 15 → ¬ wrong → s.fields r = some g →
        let twice := ∃ j ∈ s.rke.queue, j.range = r
        (g.keyLost = true → RefusedAfterProof c s i p f.tag .keyLost []) ∧
        (g.keyLost = false → twice → RefusedAfterProof c s i p f.tag .duplicate []) ∧
        (g.keyLost = false → ¬ twice → 8 ≤ s.rke.queue.length → RefusedAfterProof c s i p f.tag .listFull []) ∧
        (g.keyLost = false → ¬ twice → s.rke.queue.length < 8 → opened = none →
          RefusedAfterProof c s i p f.tag .wrongState []) ∧
        (∀ k, g.keyLost = false → ¬ twice → s.rke.queue.length < 8 → opened = some k →
          ∃ t, Goes c s t ∧ Framed [.bursts, .tags, .challenges, .credSlots, .writes, .rekey] s t ∧ Proved s t i p ∧
            WritesOnly [.cred i, .rekeyQueue] s t ∧ t.lif.tagsInUse = s.lif.tagsInUse ++ [f.tag] ∧
            t.rke = { s.rke with
              queue := s.rke.queue ++ [{ range := r, state := .queued, copy := some k, serial := none, newKey := none, fault := none }]
              dueQueue := t.rke.dueQueue } ∧
            t.queuePartAwaits (s.reply f.tag (.status .ok [s.rke.queue.length]))))) ∧
    (let c := Instr.rekeyResume f r p
     c.passes s → c.proves s i →
      (15 < r → RefusedAfterProof c s i p f.tag .badField []) ∧
      (r ≤ 15 → (s.sst.power = .standby ∨ wrong ∨ (∀ j, s.headJob = some j → j.range ≠ r ∨ j.state = .sweeping) ∨
        s.fields r = none) → RefusedAfterProof c s i p f.tag .wrongState []) ∧
      (∀ j g, r ≤ 15 → s.sst.power ≠ .standby → ¬ wrong → s.headJob = some j → j.range = r → j.state ≠ .sweeping →
        s.fields r = some g →
        (g.keyLost = true → RefusedAfterProof c s i p f.tag .keyLost []) ∧
        (g.keyLost = false → opened = none → RefusedAfterProof c s i p f.tag .wrongState []) ∧
        (∀ k, g.keyLost = false → opened = some k → j.state = .queued →
          (s.load r ≠ .notLoaded ∨ s.intactUnder r k) → Shaped s →
          ∃ t : State, Goes c s t.settleDrain ∧
            Framed [.bursts, .challenges, .credSlots, .writes, .keySlots, .loads, .rekey, .sent] s t ∧ Proved s t i p ∧
            WritesOnly [.cred i] s t ∧ KeysLoaded [r] (fun _ => some k) s t ∧ (∀ x, (t.slot x).users = (s.slot x).users) ∧
            t.rke = { s.rke with queue := { j with copy := some k } :: s.rke.queue.tail } ∧
            t.sent = s.sent ++ [frame .control f.tag (.jobState .queued)]) ∧
        (∀ k, g.keyLost = false → opened = some k → (j.state = .paused ∨ j.state = .faulted) →
          (s.load r ≠ .notLoaded ∨ s.intactUnder r k) → Shaped s →
          ∃ t : State, Goes c s t.settleDrain ∧
            Framed [.bursts, .tags, .challenges, .credSlots, .writes, .rekey, .hold, .keySlots, .loads] s t ∧ Proved s t i p ∧
            WritesOnly [.cred i, .rekeyProgress] s t ∧ t.lif.tagsInUse = s.lif.tagsInUse ++ [f.tag] ∧
            KeysLoaded [r] (fun _ => some k) s t ∧ SweepsAgain j s t ∧
            t.progressAwaits (s.reply f.tag (.jobState .sweeping)) ∧
            (∀ o l, s.rke.todo = o :: l → (o.toScratch = true → s.staleScratch = false) → t.sweepRequest = some o)) ∧
        (∀ k, g.keyLost = false → opened = some k → s.load r = .notLoaded → ¬ s.intactUnder r k → Shaped s →
          ∃ t : State, Goes c s t.settleDrain ∧
            Framed [.bursts, .challenges, .credSlots, .writes, .sent, .ranges, .loads, .keySlots, .hold, .data, .rekey] s t ∧
            Proved s t i p ∧ KeysDamaged r k s t ∧ t.fields r = some { g with keyLost := true } ∧
            (∀ q, q ≠ r → t.entry q = s.entry q) ∧ t.rtb.resealOnWake = s.rtb.resealOnWake ∧
            WritesOnly (.cred i :: .range r :: .rekeyProgress :: (List.range 24).map StoreUnit.key) s t ∧
            t.lastFrame = some (frame .control f.tag (.status .keyLost [])))))

/-- R33, R100: the head job starts: its range is LOADED under the RAK in the cache or the job_copy, and no other load
changes; a new data key, loaded under that RAK, is made in the lowest EMPTY pool slot, the range holds new_key_slot and
the watermark at its first block, the sweep hold is taken, the serial rises, the job is SWEEPING without its job_copy, and
the record of the new slot is the first of its writes. A range that was NOT_LOADED has the old key unwrapped. Without its
conditions nothing changes. -/
def Obligations.RekeyJobStarts : Prop :=
  ∀ s : State,
    let ready := fun (j : Job) => s.headJob = some j ∧ j.state = .queued ∧ s.rke.seq = none ∧ s.sst.power = .active ∧
      s.rsu.level.number < 2 ∧ s.rtb.commit = .idle ∧ s.kst.reservation < s.poolCount .empty ∧
      (j.copy ≠ none ∨ ∃ k, s.load j.range = .loaded k) ∧ s.fields j.range ≠ none
    ((∀ j, ¬ ready j) → Goes .rekeyJobStart s s) ∧
    (∀ j g k, ready j → Shaped s → s.fields j.range = some g → (s.slot g.keySlot).state = .live →
      (s.slot g.keySlot).owner = some j.range →
      ((s.load j.range).rak? = some k ∨ (s.load j.range = .notLoaded ∧ j.copy = some k ∧ s.intactUnder j.range k)) →
      ∃ t e, Goes .rekeyJobStart s t ∧
        Framed [.writes, .keySlots, .loads, .hold, .ranges, .rekey, .names] s t ∧ WritesOnly [.key e] s t ∧
        t.load j.range = .loaded k ∧ (∀ r, r ≠ j.range → t.load r = s.load r) ∧ t.kst.reservation = s.kst.reservation ∧
        e < 23 ∧ (s.slot e).state = .empty ∧ (∀ x < e, (s.slot x).state ≠ .empty) ∧
        t.rtb.resealOnWake = s.rtb.resealOnWake ∧ t.fresh = s.fresh + 1 ∧
        t.fields j.range = some { g with split := some { newKey := e, watermark := s.firstBlock j.range } } ∧
        (∀ r, r ≠ j.range → t.entry r = s.entry r) ∧
        t.slot e = { state := .live, owner := some j.range, users := 1, copy := some { issue := s.fresh }, erasing := false
                     material := some { key := { issue := s.fresh }, rak := k, whole := true } } ∧
        t.slot g.keySlot = { s.slot g.keySlot with
          users := (s.slot g.keySlot).users + 1
          copy := if s.load j.range = .notLoaded then (s.slot g.keySlot).material.map (fun m => m.key)
                  else (s.slot g.keySlot).copy } ∧
        (∀ x, x ≠ e → x ≠ g.keySlot → t.slot x = { s.slot x with copy := (t.slot x).copy } ∧
          ((s.load j.range ≠ .notLoaded ∨ x ∉ g.named) → t.slot x = s.slot x)) ∧
        t.kst.hold = some { range := j.range, oldKey := g.keySlot, newKey := e } ∧
        t.rke = { s.rke with
          serial := (s.rke.serial + 1) % 65536, seq := some .startKey
          queue := { j with state := .sweeping, copy := none, serial := some ((s.rke.serial + 1) % 65536)
                            newKey := some e } :: s.rke.queue.tail } ∧
        t.holds (.key e) (.key { state := .live, owner := some j.range, material := (t.slot e).material })
          (.rekeySeq .startKey ((s.rke.serial + 1) % 65536)))

/-- R101, R105: the next chunk of a sweeping job: of a bounded range at most 32 blocks from the watermark to the end
of the range and the capacity; of range 0 the next blocks of range 0 in a row. With none left the job completes: the new key becomes
key_slot, the old slot goes RETIRING and, once no context uses it, has its erasure placed, the hold ends, with an unload
of a range that is locked both ways, and the RANGE record and the old slot's KEY record are written, the first of the
completion's writes; the job stays at the head of the queue until its last write has completed. A chunk is claimed once no
CLEAR or SHROUD context overlaps it, and its blocks are then to be read. -/
def Obligations.ChunksAreFormedAndClaimed : Prop :=
  ∀ s : State,
    let ready := fun (j : Job) (g : RangeFields) (w : Split) => s.headJob = some j ∧ j.state = .sweeping ∧
      s.rke.seq = none ∧ s.rke.phase = .idle ∧ s.lif.started = true ∧ s.rtb.commit = .idle ∧ s.rke.recovery = .none ∧
      s.rke.resuming = false ∧ s.fields j.range = some g ∧ g.split = some w
    ((∀ j g w, ¬ ready j g w) → Goes .chunkForm s s) ∧
    (∀ j g w, ready j g w → Shaped s →
      let q := s.nextChunk j.range w.watermark
      (∀ b, g.bounds = some b → q = (w.watermark, min 32 (min (b.first + b.count) s.lif.capacity - w.watermark))) ∧
      (g.bounds = none → j.range = 0 → w.watermark ≤ q.1 ∧ s.rangeOf q.1 = 0 ∧
        (∀ b, w.watermark ≤ b → b < q.1 → s.rangeOf b ≠ 0) ∧ q.2 ≤ 32 ∧
        (∀ i < q.2, s.rangeOf (q.1 + i) = 0 ∧ q.1 + i < s.lif.capacity) ∧
        (q.2 = 32 ∨ s.lif.capacity ≤ q.1 + q.2 ∨ s.rangeOf (q.1 + q.2) ≠ 0) ∧
        (q.2 = 0 ↔ ∀ b, w.watermark ≤ b → b < s.lif.capacity → s.rangeOf b ≠ 0)) ∧
      (q.2 ≠ 0 → ∃ t, Goes .chunkForm s t ∧ Framed [.ranges, .rekey] s t ∧
        t.rke = { s.rke with phase := .claiming, first := q.1, n := q.2 } ∧
        t.fields j.range = some { g with split := some { w with watermark := q.1 } } ∧
        (∀ r, r ≠ j.range → t.entry r = s.entry r)) ∧
      (q.2 = 0 → ∃ t, Goes .chunkForm s t ∧ Framed [.ranges, .rekey, .keySlots, .loads, .hold, .writes] s t ∧
        t.fields j.range = some { g with keySlot := w.newKey, split := none } ∧
        (∀ r, r ≠ j.range → t.entry r = s.entry r) ∧ t.kst.hold = none ∧
        t.rke = { s.rke with
          finished := some { range := j.range, serial := j.serial.getD 0, watermark := w.watermark, silent := false }
          seq := some .doneRecords, seqLeft := 2 } ∧
        WritesOnly (.range j.range :: .key g.keySlot :: s.heldUnits) s t ∧
        ((s.slot g.keySlot).state = .live → (t.slot g.keySlot).state = .retiring) ∧
        (∀ x, x ≠ g.keySlot → t.slot x = { s.slot x with
          users := (t.slot x).users, copy := (t.slot x).copy, erasing := (t.slot x).erasing }) ∧
        (s.kst.hold = some { range := j.range, oldKey := g.keySlot, newKey := w.newKey } → g.keySlot ≠ w.newKey →
          (s.slot g.keySlot).owner = some j.range → (s.slot w.newKey).owner = some j.range →
          LoadReleased s t j.range ∧ (∀ r, r ≠ j.range → t.load r = s.load r) ∧
          (∀ x, (t.slot x).users = (s.slot x).users - if x = g.keySlot ∨ x = w.newKey then 1 else 0) ∧
          ((s.slot g.keySlot).state = .live → (s.slot g.keySlot).erasing = false → (t.slot g.keySlot).users = 0 →
            (t.slot g.keySlot).copy = none ∧ t.holds (.key g.keySlot) (.key .blank) (.erased g.keySlot))) ∧
        t.holds (.range j.range) (t.recordOf (.range j.range)) (.rekeySeq .doneRecords (j.serial.getD 0)) ∧
        t.holds (.key g.keySlot) (t.recordOf (.key g.keySlot)) (.rekeySeq .doneRecords (j.serial.getD 0)))) ∧
    (let free := s.rke.phase = .claiming ∧ ∀ c < 16, ∀ x, (s.ctx c).xfer = some x → x.mode ≠ .overlay →
        (x.first + x.count ≤ s.rke.first ∨ s.rke.first + s.rke.n ≤ x.first)
     (free → exec .chunkClaim s = .next { s with rke := { s.rke with
        phase := .reading, window := true, headerIssued := false, buffer := List.replicate s.rke.n none
        todo := (List.range s.rke.n).map ChunkOp.read, issued := [] } }) ∧
     (¬ free → exec .chunkClaim s = .next s))

/-- R100, R103 to R105, R107, R110, R112, R114, R115: the completion of a write of the Rekey Engine. The writes of a
job's start come one after the other: the new slot's KEY record, the queue part, the progress part, the RANGE record;
so do those of its completion: the RANGE and the old KEY record, the cleared progress part, the queue part without the
job; with the last the next job is the head and REKEY_DONE is sent. The COPYING record lets the blocks be written in
place; the READING record moves the watermark and ends the chunk. The progress part of the latest resumption lets
chunks be formed again. After a recovery the job's state is settled: FAULTED with KEY_LOST, its hold released, where a slot
is lost, SWEEPING under the hold where the RAK is loaded, else PAUSED. A write that belongs to no such step changes nothing.
That a range which is not ENABLED has lost its slots is the model's choice (log 39), and so is that a slot with another
range's key is lost (log 37); that a job which already holds its range sweeps on, though an unload has made the range
RELEASING, is its reading (log 39). -/
def Obligations.RekeyWritesComplete : Prop :=
  ∀ s : State,
    let settled := fun (t : State) =>
      (s.activeJob = none → t.rke.queue = s.rke.queue ∧ t.kst = s.kst ∧ t.sst = s.sst) ∧
      (∀ j, s.activeJob = some j →
        let kept := j.state = .faulted ∨ s.rke.finished ≠ none
        let lost := ∀ g, s.fields j.range = some g →
          ∃ k ∈ g.named, (s.slot k).state = .empty ∨ (s.slot k).owner ≠ some j.range
        let loaded := ∃ k, s.load j.range = .loaded k
        (kept → t.rke.queue = s.rke.queue ∧ t.kst = s.kst) ∧
        (¬ kept → lost → t.rke.queue = { j with state := .faulted, fault := some .keyLost } :: s.rke.queue.tail ∧
          t.kst.hold = none ∧ (s.kst.hold = none → t.kst = s.kst ∧ t.sst = s.sst)) ∧
        ((kept ∨ ¬ lost) → t.sst = s.sst ∧ t.kst.loads = s.kst.loads) ∧
        (¬ kept → ¬ lost → s.kst.hold ≠ none →
          t.rke.queue = { j with state := .sweeping } :: s.rke.queue.tail ∧ t.kst = s.kst) ∧
        (¬ kept → ¬ lost → s.kst.hold = none → loaded → t.rke.queue = { j with state := .sweeping } :: s.rke.queue.tail ∧
          (∀ g w, s.fields j.range = some g → g.split = some w →
            t.kst.hold = some { range := j.range, oldKey := g.keySlot, newKey := w.newKey })) ∧
        (¬ kept → ¬ lost → s.kst.hold = none → ¬ loaded →
          t.rke.queue = { j with state := .paused } :: s.rke.queue.tail ∧ t.kst = s.kst))
    (∀ (q : RekeySeq) (n : Nat),
      let t := s.signal (.rekeySeq q n)
      let mine := s.rke.seq = some q ∧
        ((∃ x, s.rke.finished = some x ∧ x.serial = n) ∨ (s.rke.finished = none ∧ ∃ j, s.headJob = some j ∧ j.serial = some n))
      let goesOn := fun (next : RekeySeq) => t.rke = { s.rke with
        seq := some next, dueQueue := t.rke.dueQueue, dueProgress := t.rke.dueProgress }
      (¬ mine → t = s) ∧
      (mine → q = .startKey → Framed [.rekey, .writes] s t ∧ WritesOnly [.rekeyQueue] s t ∧ goesOn .startQueue ∧
        t.queuePartAwaits (.rekeySeq .startQueue n)) ∧
      (mine → q = .startQueue → Framed [.rekey, .writes] s t ∧ WritesOnly [.rekeyProgress] s t ∧ goesOn .startProgress ∧
        t.progressAwaits (.rekeySeq .startProgress n)) ∧
      (∀ j, mine → q = .startProgress → s.headJob = some j → Framed [.rekey, .writes] s t ∧
        WritesOnly [.range j.range] s t ∧ goesOn .startRange ∧
        t.holds (.range j.range) (t.recordOf (.range j.range)) (.rekeySeq .startRange n)) ∧
      (mine → q = .startRange → t = { s with rke := { s.rke with seq := none } }) ∧
      (mine → q = .doneRecords → 1 < s.rke.seqLeft → t = { s with rke := { s.rke with seqLeft := s.rke.seqLeft - 1 } }) ∧
      (mine → q = .doneRecords → s.rke.seqLeft ≤ 1 → Framed [.rekey, .writes] s t ∧ WritesOnly [.rekeyProgress] s t ∧
        goesOn .doneProgress ∧ t.recordOf .rekeyProgress = .rekeyProgress none ∧
        t.progressAwaits (.rekeySeq .doneProgress n)) ∧
      (mine → q = .doneProgress → Framed [.rekey, .writes] s t ∧ WritesOnly [.rekeyQueue] s t ∧ goesOn .doneQueue ∧
        t.recordOf .rekeyQueue =
          .rekeyQueue { serial := s.rke.serial, ranges := s.rke.queue.tail.map (fun j => j.range), active := none } ∧
        t.queuePartAwaits (.rekeySeq .doneQueue n)) ∧
      (∀ x, mine → q = .doneQueue → s.rke.finished = some x → Framed [.rekey, .sent] s t ∧
        t.rke = { s.rke with queue := s.rke.queue.tail, seq := none, finished := none } ∧
        t.sent = s.sent ++ (if x.silent = false ∧ s.lif.started = true
          then [frame .control 0 (.rekeyDone x.range x.serial .done)] else []))) ∧
    (∀ n : Nat,
      (s.rke.chunk = n → s.rke.phase = .staged → s.signal (.chunkStaged n) = { s with rke := { s.rke with
        phase := .copying, todo := (List.range s.rke.n).map ChunkOp.dest, issued := [] } }) ∧
      (¬(s.rke.chunk = n ∧ s.rke.phase = .staged) → s.signal (.chunkStaged n) = s) ∧
      (¬(s.rke.chunk = n ∧ s.rke.closing = true) → s.signal (.chunkDone n) = s) ∧
      (∀ j, s.rke.chunk = n → s.rke.closing = true → s.headJob = some j →
        let t := s.signal (.chunkDone n)
        Framed [.ranges, .rekey, .hold, .keySlots, .loads, .writes] s t ∧ WritesOnly s.heldUnits s t ∧
          (s.rke.rangeHeld = false → t.kst = s.kst ∧ t.sst = s.sst ∧ t.rke.queue = s.rke.queue) ∧
          (s.rke.rangeHeld = true → settled t) ∧
          t.fields j.range = (s.fields j.range).map (fun g => { g with
            split := g.split.map (fun w => { w with watermark := s.rke.first + s.rke.n }) }) ∧
          (∀ r, r ≠ j.range → t.entry r = s.entry r) ∧ t.rtb.resealOnWake = s.rtb.resealOnWake ∧
          t.rke.phase = .idle ∧ t.rke.window = false ∧ t.rke.chunk = n + 1 ∧ t.rke.closing = false ∧ t.rke.todo = [] ∧
          t.rke.issued = [] ∧ t.rke.recovery = .none ∧ t.rke.rangeHeld = false) ∧
      (n = s.rke.resumption → s.signal (.rekeyResumed n) = { s with rke := { s.rke with resuming := false } }) ∧
      (n ≠ s.rke.resumption → s.signal (.rekeyResumed n) = s)) ∧
    (s.rke.rangeHeld = false → s.signal .rekeyRecovered = s) ∧
    (s.rke.rangeHeld = true →
      let t := s.signal .rekeyRecovered
      Framed [.rekey, .hold, .keySlots, .loads, .writes] s t ∧ WritesOnly s.heldUnits s t ∧
        t.rke = { s.rke with rangeHeld := false, queue := t.rke.queue } ∧ settled t)

/-! ### The Response Unit (chapter 7) -/

/-- R133: RESPONSE_CLEAR at CALM without a timer is answered at once; with a timer it stops it; from GUARD or LOCK the
level becomes CALM, first_cause and the timer are removed, QUARANTINE becomes SEALED, every range with power_lock
off is unlocked through its device envelope, and the answer waits for the write of the RESPONSE record; from ERASE or
PURGE it is refused WRONG_STATE. A range with power_lock on keeps its entry, and its load but for a hold or a RELEASING that
a damaged key of another range ends. Where no key is damaged, each range with power_lock off that opens is LOADED, its
copies taken (R33), and a PAUSED head job of one that goes LOADED sweeps again (R107); what a damaged key does
UnlockOpensItsRanges says.
The number of a resumption and when the progress part's write must wait are the model's reading (log 22), and that a load
resumes no job that has lost a key slot or whose scratch header is still to be judged is its choice (log 39), as is that
another range's key in a slot that the range still names is not loaded (log 37). That ranges open in ERASED too, as long
as no cut has emptied the envelope lists, is its choice (log 42). -/
def Obligations.ResponseClearCalms : Prop :=
  ∀ (f : Hdr) (i : Nat) (p : ProofBlock) (s : State),
    let c := Instr.responseClear f p
    let calm := s.reply f.tag (.level .calm)
    let via := fun r : Nat => s.openEnvelope r .device (some .device)
    c.passes s → c.proves s i →
    ((s.rsu.level = .erase ∨ s.rsu.level = .purge) → RefusedAfterProof c s i p f.tag .wrongState []) ∧
    (s.rsu.level = .calm → s.rsu.timer = none → AnsweredAfterProof c s i p f.tag (.level .calm)) ∧
    (s.rsu.level = .calm → s.rsu.timer ≠ none →
      ∃ t, Goes c s t ∧ Framed [.bursts, .tags, .challenges, .credSlots, .writes, .response] s t ∧ Proved s t i p ∧
        WritesOnly [.cred i, .response] s t ∧ t.lif.tagsInUse = s.lif.tagsInUse ++ [f.tag] ∧
        t.rsu = { s.rsu with timer := none } ∧ t.holds .response (.response t.responseRecord) calm) ∧
    ((s.rsu.level = .guard ∨ s.rsu.level = .lock) →
      ∃ t, Goes c s t.settleDrain ∧
        Framed [.bursts, .tags, .challenges, .credSlots, .writes, .response, .boot, .ranges, .loads, .keySlots, .hold, .data,
                .rekey, .sent] s t ∧
        Proved s t i p ∧ t.lif.tagsInUse = s.lif.tagsInUse ++ [f.tag] ∧
        t.rsu = { s.rsu with level := .calm, firstCause := none, timer := none } ∧
        t.btc = { s.btc with state := if s.btc.state = .quarantine then .sealed else s.btc.state } ∧
        t.rtb.resealOnWake = s.rtb.resealOnWake ∧
        (Shaped s → WritesOnly ([.cred i, .response, .rekeyProgress] ++ (List.range 24).map StoreUnit.key ++
          (s.rangesWhere (fun g => !g.powerLock)).map StoreUnit.range) s t) ∧
        (∀ r, (∀ g, s.fields r = some g → g.powerLock = true) → t.entry r = s.entry r ∧
          ((∀ k, s.load r ≠ .releasing k) → (∀ h, s.kst.hold = some h → h.range ≠ r) → t.load r = s.load r)) ∧
        (Shaped s → (∀ r g k, s.fields r = some g → g.powerLock = false → s.load r = .notLoaded → via r = some k →
            s.intactUnder r k) →
          ∃ won : List Nat,
            (∀ r, r ∈ won ↔ ∃ g, s.fields r = some g ∧ g.powerLock = false ∧ (s.load r ≠ .notLoaded ∨ via r ≠ none)) ∧
            (∀ r, t.fields r = if r ∈ won then (s.fields r).map (fun g => { g with readLocked := false, writeLocked := false })
              else s.fields r) ∧
            (∀ r, r ∉ won → t.entry r = s.entry r) ∧ KeysLoaded won via s t ∧ SweepResumed won s t ∧
            WritesOnly [.cred i, .response, .rekeyProgress] s t ∧ t.sent = s.sent) ∧
        t.holds .response (.response t.responseRecord) calm)

/-- R121, R122, R124, R129: a REMOTE_ORDER with a level of GUARD to PURGE is an arrival of source 5 with that level; any
other level is refused BAD_FIELD. Where the source is disabled or its guard is not met, the answer says so at once and
nothing else changes. Otherwise last_cause is 5 and the alarm restarts, PURGE counts as ERASE while purge_allowed is off,
and the level asked for is weighed: not above the current one, it does nothing more; with a delay of 0, the immediate
setting or in BLANK, the part escalates to it, and a running timer whose pending level is not above it is removed; else it
starts the delay timer, or raises the pending level of a running one without touching its seconds. The answer, which
shows the level and the timer then, waits for the RESPONSE record.
That the waiting answer keeps the pending level and the seconds remaining as they stood right after the arrival is the
model's choice (log 41). Of an escalation (Escalates, LockedDown, StepGiven) two clauses are the model's readings: a head
job that has completed is not paused (log 23), and a step given to a chain whose end is being recorded becomes its current
step (log 25). -/
def Obligations.RemoteOrderIsAnArrival : Prop :=
  ∀ (f : Hdr) (n i : Nat) (p : ProofBlock) (s : State),
    let c := Instr.remoteOrder f n p
    let x := s.setting 5
    let accepted := x.enabled = true ∧ (x.guard = .always ∨
      (s.btc.state = .sealed ∨ s.btc.state = .quarantine ∨ s.btc.state = .erased) ∨
      (x.guard = .whileAsleep ∧ s.sst.power = .standby))
    let pieces := [Piece.bursts, .tags, .challenges, .credSlots, .writes]
    c.passes s → c.proves s i →
    ((n = 0 ∨ 4 < n) → RefusedAfterProof c s i p f.tag .badField []) ∧
    (1 ≤ n → n ≤ 4 → ¬ accepted → AnsweredAfterProof c s i p f.tag
      (.ordered false s.rsu.level (s.rsu.timer.map (fun y => (y.pending.level, y.remaining))))) ∧
    (∀ l : Level, 1 ≤ n → n ≤ 4 → accepted → l.number = (if n = 4 ∧ s.rsu.purgeAllowed = false then 3 else n) →
      let now := x.delay = 0 ∨ x.immediate = true ∨ s.btc.state = .blank
      let told := { s.rsu with lastCause := some 5, alarm := some s.rsu.alarmMinimum }
      let pending := { level := l, source := 5, delay := x.delay : Pending }
      ∃ t, Goes c s t ∧ Proved s t i p ∧
        t.holds .response (.response t.responseRecord) (s.reply f.tag
          (.ordered true t.rsu.level (t.rsu.timer.map (fun y => (y.pending.level, y.remaining))))) ∧
        (¬ (s.rsu.level.number < l.number ∧ now) → t.lif.tagsInUse = s.lif.tagsInUse ++ [f.tag]) ∧
        (l.number ≤ s.rsu.level.number → Framed (.response :: pieces) s t ∧ WritesOnly [.cred i, .response] s t ∧ t.rsu = told) ∧
        (s.rsu.level.number < l.number → now → Shaped s → Escalates pieces (s.lif.tagsInUse ++ [f.tag]) s t l 5 ∧
          t.rsu = { told with
            level := l, firstCause := if s.rsu.level = .calm then some 5 else s.rsu.firstCause
            timer := s.rsu.timer.filter (fun y => decide (l.number < y.pending.level.number)) }) ∧
        (s.rsu.level.number < l.number → ¬ now → Framed (.response :: pieces) s t ∧ WritesOnly [.cred i, .response] s t ∧
          (s.rsu.timer = none → t.rsu = { told with timer := some { pending := pending, remaining := x.delay } }) ∧
          (∀ y, s.rsu.timer = some y → y.pending.level.number < l.number →
            t.rsu = { told with timer := some { y with pending := pending } }) ∧
          (∀ y, s.rsu.timer = some y → l.number ≤ y.pending.level.number → t.rsu = told)))

/-- R116, R121, R122, R127, R130: MOTION, an edge of MOTION_IN (source 1) or TAMPER_IN (source 2) with the main supply
present, and the counting absence timer at its threshold (source 0) are each one arrival; in OFF an edge joins the latch, and
in DEAD it is lost. An arrival whose source is disabled or whose guard is not met changes nothing; an accepted one
sets last_cause and restarts the alarm, and its RESPONSE record is written; a level above the current one is taken at once
without a delay, in BLANK or with the immediate setting, with all that an escalation does (R124 to R126) and a running
timer whose pending level is not above it removed, and otherwise pends on the delay timer.
That the frames of an escalation come before the PLATFORM answer to MOTION is the model's choice (log 7). Of an escalation
(Escalates, LockedDown, StepGiven) two clauses are the model's readings: a head job that has completed is not paused
(log 23), and a step given to a chain whose end is being recorded becomes its current step (log 25). -/
def Obligations.ArrivalsAreWeighed : Prop :=
  ∀ s : State,
    (s.sst.power.supplied = true →
      Goes .motionInEdge s (s.raise 1) ∧ Goes .tamperInEdge s (s.raise 2)) ∧
    (s.sst.power = .off → ∀ k, (k = 1 ∨ k = 2) →
      ∃ t, Goes (if k = 1 then .motionInEdge else .tamperInEdge) s t ∧
        t = { s with rsu := { s.rsu with latch := if k ∈ s.rsu.latch then s.rsu.latch else s.rsu.latch ++ [k] } }) ∧
    (s.sst.power = .dead → Goes .motionInEdge s s ∧ Goes .tamperInEdge s s) ∧
    (∀ f, (Instr.motion f).passes s →
      Goes (.motion f) s ((s.frameTaken.raise 1).send .platform f.tag (.status .ok []))) ∧
    (s.absenceCounting = true → s.rsu.absenceThreshold ≤ s.rsu.absence →
      Goes .absenceThreshold s ({ s with rsu := { s.rsu with absence := 0 } }.raise 0)) ∧
    ((s.absenceCounting = false ∨ s.rsu.absence < s.rsu.absenceThreshold) → Goes .absenceThreshold s s) ∧
    (∀ i : Nat,
      let x := s.setting i
      let l := if x.level = .purge ∧ s.rsu.purgeAllowed = false then Level.erase else x.level
      let now := x.delay = 0 ∨ x.immediate = true ∨ s.btc.state = .blank
      let told := { s.rsu with lastCause := some i, alarm := some s.rsu.alarmMinimum }
      ((x.enabled = false ∨ s.guardMet x.guard = false) → s.raise i = s) ∧
      (x.enabled = true → s.guardMet x.guard = true →
        (s.raise i).hasWrite .response ∧
        (l.number ≤ s.rsu.level.number →
          Framed [.response, .writes] s (s.raise i) ∧ WritesOnly [.response] s (s.raise i) ∧ (s.raise i).rsu = told) ∧
        (s.rsu.level.number < l.number → now →
          (Shaped s → Escalates [] s.lif.tagsInUse s (s.raise i) l i) ∧
          (s.raise i).rsu = { told with
            level := l, firstCause := if s.rsu.level = .calm then some i else s.rsu.firstCause
            timer := s.rsu.timer.filter (fun y => decide (l.number < y.pending.level.number)) }) ∧
        (s.rsu.level.number < l.number → ¬ now →
          Framed [.response, .writes] s (s.raise i) ∧ WritesOnly [.response] s (s.raise i) ∧
          (s.raise i).rsu = { told with timer := match s.rsu.timer with
            | none => some { pending := { level := l, source := i, delay := x.delay }, remaining := x.delay }
            | some y => if y.pending.level.number < l.number then
                some { y with pending := { level := l, source := i, delay := x.delay } } else some y })))

/-- R123 to R126, R132: at its expiry the delay timer is removed, and a pending level above the current one is taken
with its cause: at LOCK or above every range is locked, no RAK is loaded, no CLEAR context is OPEN, no commit
drains, SEALED and OPEN become QUARANTINE, and at ERASE or above the injected chain is present; the new level is
told in a RESPONSE_NOTICE while the link is started. The words Escalates and LockedDown say this whole: what each level
passed does, the CUT_KEYS that passing ERASE gives and the FILL that passing PURGE gives, and how R138 places each, in a
chain it creates, absorbed, or at the end of the chain. The alarm minimum period ends alone.
That the notice is the last frame of its step, behind the XFER_ABORTED frames on DATA, is the model's choice (log 7). Of an
escalation (Escalates, LockedDown, StepGiven) two clauses are the model's readings: a head job that has completed is not
paused (log 23), and a step given to a chain whose end is being recorded becomes its current step (log 25). -/
def Obligations.DelayTimerEscalates : Prop :=
  ∀ s : State,
    exec .alarmMinimumExpiry s = .next { s with rsu := { s.rsu with alarm := none } } ∧
    (s.rsu.timer = none → Goes .delayTimerExpiry s s) ∧
    (∀ x, s.rsu.timer = some x → x.pending.level.number ≤ s.rsu.level.number →
      ∃ t, Goes .delayTimerExpiry s t ∧ Framed [.response, .writes] s t ∧ WritesOnly [.response] s t ∧
        t.rsu = { s.rsu with timer := none } ∧ t.hasWrite .response) ∧
    (∀ x, s.rsu.timer = some x → s.rsu.level.number < x.pending.level.number → Shaped s →
      ∃ t, Goes .delayTimerExpiry s t ∧ t.rsu = { s.rsu with
          timer := none, level := x.pending.level
          firstCause := if s.rsu.level = .calm then some x.pending.source else s.rsu.firstCause } ∧
        (s.lif.started = true →
          t.lastFrame = some (frame .control 0 (.responseNotice s.rsu.level x.pending.level x.pending.source))) ∧
        (t.hasWrite .response) ∧
        (x.pending.level = .guard → t.btc = s.btc ∧ t.rtb = s.rtb ∧ t.dpu = s.dpu ∧ t.kst = s.kst ∧ t.wpe = s.wpe) ∧
        (s.rsu.level.number < 2 → 2 ≤ x.pending.level.number →
          (∀ r g, t.fields r = some g → g.readLocked = true ∧ g.writeLocked = true) ∧
          (∀ r, t.load r = .notLoaded) ∧ (∀ k < 23, (t.slot k).copy = none) ∧
          (∀ c y, (t.ctx c).xfer = some y → y.mode ≠ .clear) ∧
          (∀ a n k rto, t.rtb.commit ≠ .draining a n k rto) ∧
          t.btc = { s.btc with state := if s.btc.state = .sealed ∨ s.btc.state = .opened then .quarantine else s.btc.state }) ∧
        (s.rsu.level.number < 3 → 3 ≤ x.pending.level.number → ∃ y, t.wpe.injected = some y ∧ .cutKeys ∈ y.steps) ∧
        Escalates [] s.lif.tagsInUse s t x.pending.level x.pending.source)

/-! ### The Wipe Engine (chapter 8) -/

/-- R147 to R149: WIPE_START and REPROVISION create the normal chain with their steps, in their boot states and while
no chain stands in the way, and ACCEPTED waits for the WIPE record; WIPE_ABORT cuts the normal chain down to a step
in progress that is no FILL, or removes it, and its OK waits for the record too; a chain that is closing it leaves. Of a
removed chain no step is left, and it keeps its origin, its number and its failed_chunks until its end is recorded.
That it also leaves a chain whose end is being recorded is the model's reading (log 25). -/
def Obligations.WipeRequestsMakeAndEndTheChain : Prop :=
  ∀ (f : Hdr) (p : ProofBlock) (s : State),
    let made := fun (c : Instr) (units : List StoreUnit) (proved : State → Prop) (o : Origin) (steps : List WipeStep) =>
      ∃ t, Goes c s t ∧ Framed [.bursts, .tags, .challenges, .credSlots, .writes, .wipe] s t ∧
        WritesOnly (.wipe :: units) s t ∧ t.lif.tagsInUse = s.lif.tagsInUse ++ [f.tag] ∧ proved t ∧
        t.wpe = { s.wpe with normal := some (.make o steps s.wpe.nextNo), nextNo := s.wpe.nextNo + 1 } ∧
        t.holds .wipe (t.recordOf .wipe) (s.reply f.tag (.status .accepted [])) ∧
        t.holds .wipe (t.recordOf .wipe) (.chainDurable .normal s.wpe.nextNo)
    let byProof := fun (i : Nat) (t : State) => Proved s t i p
    let byLabel := fun (t : State) =>
      t.cru.challenges = s.cru.challenges.set p.challenge none ∧ t.cru.slots = s.cru.slots
    (∀ i fill, (Instr.wipeStart f fill p).passes s → (Instr.wipeStart f fill p).proves s i →
      (fill = none → RefusedAfterProof (.wipeStart f fill p) s i p f.tag .badField []) ∧
      (fill ≠ none → s.wpe.normal ≠ none → RefusedAfterProof (.wipeStart f fill p) s i p f.tag .busy []) ∧
      (s.wpe.normal = none → fill = some false → made (.wipeStart f fill p) [.cred i] (byProof i) .sanitize [.cutKeys]) ∧
      (s.wpe.normal = none → fill = some true →
        made (.wipeStart f fill p) [.cred i] (byProof i) .sanitize [.cutKeys, .fill none 0])) ∧
    ((Instr.reprovision f p).passes s → (Instr.reprovision f p).labels s →
      (s.btc.state = .blank → RefusedAfterLabel (.reprovision f p) s p f.tag .wrongState) ∧
      (s.btc.state ≠ .blank → (s.wpe.normal ≠ none ∨ (s.btc.state = .erased ∧ s.wpe.injected ≠ none)) →
        RefusedAfterLabel (.reprovision f p) s p f.tag .busy) ∧
      (s.btc.state ≠ .blank → s.btc.state ≠ .erased → s.wpe.normal = none →
        made (.reprovision f p) [] byLabel .reprovision [.cutKeys, .cutCredentials, .resetTable]) ∧
      (s.btc.state = .erased → s.wpe.normal = none → s.wpe.injected = none →
        made (.reprovision f p) [] byLabel .reprovision [.cutCredentials, .resetTable])) ∧
    (∀ i, (Instr.wipeAbort f p).passes s → (Instr.wipeAbort f p).proves s i →
      (s.wpe.normal = none → RefusedAfterProof (.wipeAbort f p) s i p f.tag .wrongState []) ∧
      (∀ x, s.wpe.normal = some x → ∃ t y, Goes (.wipeAbort f p) s t ∧
        Framed [.bursts, .tags, .challenges, .credSlots, .writes, .wipe] s t ∧ Proved s t i p ∧
        WritesOnly [.cred i, .wipe] s t ∧ t.lif.tagsInUse = s.lif.tagsInUse ++ [f.tag] ∧
        t.wpe = { s.wpe with normal := some y } ∧
        t.holds .wipe (t.recordOf .wipe) (s.reply f.tag (.status .ok [])) ∧
        ((x.closing = true ∨ x.ending ≠ none) → y = x) ∧
        (∀ a l, x.closing = false → x.ending = none → x.steps = a :: l → x.begun = true → (∀ n q, a ≠ .fill n q) →
          y = { x with steps := [a], closing := true }) ∧
        (x.closing = false → x.ending = none → (x.begun = false ∨ ∃ n q, x.steps.head? = some (.fill n q)) →
          y = { x with steps := [], begun := false, left := 0, above := [], ending := some .aborted } ∧
          t.holds .wipe (t.recordOf .wipe) (.chainEnd .normal x.no))))

/-- R60, R139 to R145: a step of a chain begins under its conditions, and else nothing changes: the chain may take a
step (the normal chain none while the injected one is present, the injected one none while a step of the normal chain
that is no FILL is in progress or its completion is being recorded), its record is written, the link is started, the main
supply is present and the power-down mark clear, for CUT_KEYS no commit is WRITING and no PROVISION runs, and for FILL the
power state is ACTIVE. Begun becomes yes, and the other chain stays.
CUT_KEYS ends every CLEAR context with KEYS_CUT and a draining commit with PREEMPTED, empties every pool slot, every RAK,
every envelope list, the staged list and the rekey queue, abandons the sweep in any phase, and locks every range; its
writes are the pool slots' KEY records, the RANGE records of the ENABLED ranges, the STAGE record, both parts of the REKEY
record and the DEVICE record with boot field ERASED; with nothing left to cut the DEVICE record alone, and with the boot
field ERASED already the step completes at once. CUT_CREDENTIALS empties every slot and challenge once no credential
change runs, and writes the ten records; FILL records its count.
RESET_TABLE builds the BLANK configuration: the pool slots are emptied, with the CLEAR contexts that use them, range 0
is open under a new RAK and a new key with its device envelope alone, every other range is DISABLED, the level is CALM
with no incident, timer or wipe_level, the settings, the table-wide settings and reseal_on_wake are the defaults, and the
token is gone; its writes are the RANGE records, the KEY records of the slots it changed, the RESPONSE record, the EVSET
records and the DEVICE record with boot field BLANK.
That CUT_KEYS writes the DEVICE record unless the last one placed reads ERASED and keeps the serial counter, and that
RESET_TABLE ends a CLEAR context with KEYS_CUT, is the model's (log 26), as is that no DISABLE holds CUT_CREDENTIALS back
(log 19). -/
def Obligations.WipeStepsBegin : Prop :=
  ∀ (k : ChainKind) (s : State),
    let may := (k = .normal → s.wpe.injected = none) ∧
      (k = .injected → ∀ x, s.wpe.normal = some x →
        x.recording = false ∧ (x.begun = true → ∀ a l, x.steps = a :: l → ∃ n q, a = .fill n q))
    let ready := fun (c : Chain) (a : WipeStep) => s.chain k = some c ∧ c.steps.head? = some a ∧ c.begun = false ∧
      c.durable = true ∧ may ∧ s.lif.started = true ∧ s.sst.power.supplied = true ∧ s.sst.downMark = false ∧
      (a = .cutKeys → s.rtb.commit.phase ≠ .writing ∧ s.btc.provisioning = none) ∧
      (∀ n q, a = .fill n q → s.sst.power = .active)
    let go := Instr.wipeStepBegin k
    let begun := fun (c : Chain) (t : State) =>
      t.chain k = some c ∧ (∀ x, x ≠ k → t.chain x = s.chain x) ∧ t.wpe.nextNo = s.wpe.nextNo
    let start := (s.slot 23).state = .live
    ((∀ c a, ¬ ready c a) → Goes go s s) ∧
    (∀ c, ready c .cutKeys → Shaped s → ∃ t, Goes go s t ∧
      Framed [.wipe, .keySlots, .loads, .hold, .ranges, .commit, .data, .rekey, .tags, .boot, .writes, .device, .sent] s t ∧
      (∀ x < 23, t.slot x = .blank) ∧
      (t.slot 23).state = (s.slot 23).state ∧ (t.slot 23).material = (s.slot 23).material ∧
      (start → (t.slot 23).copy = (s.slot 23).copy) ∧ (∀ r, t.load r = .notLoaded) ∧
      t.kst.hold = none ∧ t.kst.reservation = 0 ∧ t.rtb.staged = .blank ∧ DrainPreempted s.lif.tagsInUse s t ∧ ClearAborted .keysCut s t ∧
      t.dpu.flights = s.dpu.flights ∧ t.dpu.lastSide = s.dpu.lastSide ∧ t.rtb.resealOnWake = s.rtb.resealOnWake ∧
      t.rke = { Rekey.blank s.rke.serial (s.rke.chunk + 1) with
        work := s.rke.work.filter (fun w => w.stage != .waiting), resumption := s.rke.resumption
        dueQueue := t.rke.dueQueue, dueProgress := t.rke.dueProgress } ∧
      (∀ r, s.fields r = none → t.entry r = s.entry r) ∧
      (∀ r g, s.fields r = some g → t.fields r =
        some { g with envelopes := [], split := none, readLocked := true, writeLocked := true }) ∧
      t.sst.lastDevice = { s.sst.lastDevice with boot := .erased } ∧
      (let work := Waiter.stepWork k c.no
       (s.nothingToCut = false → t.btc = s.btc ∧
         begun { c with begun := true, left := 27 + s.enabledRanges.length } t ∧
         (start → WritesOnly ((List.range 23).map StoreUnit.key ++ s.enabledRanges.map StoreUnit.range ++
           [.stage, .rekeyQueue, .rekeyProgress, .device]) s t) ∧
         (∀ x < 23, t.holds (.key x) (.key .blank) work) ∧
         (∀ r g, s.fields r = some g → t.holds (.range r) (t.recordOf (.range r)) work) ∧ t.holds .stage (.stage .blank) work ∧
         t.recordOf .rekeyQueue = .rekeyQueue { serial := s.rke.serial, ranges := [], active := none } ∧
         t.queuePartAwaits work ∧ t.recordOf .rekeyProgress = .rekeyProgress none ∧ t.progressAwaits work ∧
         t.holds .device (.device t.sst.lastDevice) work) ∧
       (s.nothingToCut = true → s.sst.lastDevice.boot ≠ .erased → t.btc = s.btc ∧ begun { c with begun := true, left := 1 } t ∧
         (start → WritesOnly [.device] s t) ∧ t.holds .device (.device t.sst.lastDevice) work) ∧
       (s.nothingToCut = true → s.sst.lastDevice.boot = .erased → t.btc = { s.btc with state := .erased } ∧
         (start → WritesOnly [.wipe] s t) ∧ ∃ d, begun d t ∧ d.steps = c.steps.tail ∧ d.begun = false ∧ d.durable = false ∧
           (c.steps.tail = [] → d.ending = some (if c.closing then .aborted else .done) ∧
             t.holds .wipe (t.recordOf .wipe) (.chainEnd k c.no)) ∧
           (c.steps.tail ≠ [] → d.ending = c.ending ∧ t.holds .wipe (t.recordOf .wipe) (.chainDurable k c.no))))) ∧
    (∀ c, ready c .cutCredentials → Shaped s →
      (s.cru.ops ≠ [] → ∃ t, Goes go s t ∧ Framed [.wipe] s t ∧ begun { c with begun := true, waitsCreds := true } t) ∧
      (s.cru.ops = [] → ∃ t, Goes go s t ∧ Framed [.wipe, .credSlots, .challenges, .writes] s t ∧
        begun { c with begun := true, waitsCreds := false, left := 10 } t ∧
        WritesOnly ((List.range 10).map StoreUnit.cred) s t ∧
        (∀ i < 10, t.cred i = { record := .blank, backoff := none }) ∧ (∀ i < 4, t.cru.challenges[i]? = some none) ∧
        (∀ i < 10, t.holds (.cred i) (t.recordOf (.cred i)) (.stepWork k c.no)))) ∧
    (∀ c n q, ready c (.fill n q) → ∃ t, Goes go s t ∧ Framed [.wipe, .writes] s t ∧ WritesOnly [.wipe] s t ∧
      begun { c with begun := true, left := 1, above := []
                     steps := .fill (some (n.getD s.lif.capacity)) q :: c.steps.tail } t ∧
      t.holds .wipe (t.recordOf .wipe) (.fillProgress k c.no)) ∧
    (∀ c, ready c .resetTable → Shaped s →
      let rak : Rak := { issue := s.fresh }
      let key : DataKey := { issue := s.fresh + 1 }
      let changed := (List.range 23).filter (fun x => (s.slot x).state != .empty || x == 0)
      let quiet := ∀ j, s.headJob = some j → j.state ≠ .paused
      ∃ t g, Goes go s t ∧
      Framed [.wipe, .keySlots, .loads, .hold, .ranges, .commit, .data, .rekey, .response, .boot, .writes, .device, .names, .sent] s t ∧
      begun { c with begun := true, left := 26 + changed.length } t ∧ ClearAborted .keysCut s t ∧ t.dpu.flights = s.dpu.flights ∧
      t.fields 0 = some g ∧ g.bounds = none ∧ g.keySlot = 0 ∧ g.split = none ∧ g.readLocked = false ∧
      g.writeLocked = false ∧ g.lockMode = .refuse ∧ g.concealed = false ∧ g.powerLock = false ∧ g.standbyLock = false ∧
      g.readList = 0 ∧ g.writeList = 0 ∧ g.keyLost = false ∧
      g.envelopes = [{ holder := .device, wraps := [.device], rak := rak, whole := true }] ∧
      (∀ r < 16, 0 < r → t.entry r = .disabled) ∧
      t.rtb = { s.rtb with entries := t.rtb.entries, resealOnWake := false, staged := .blank } ∧
      t.slot 0 = { state := .live, owner := some 0, material := some { key := key, rak := rak, whole := true }, users := 0
                   copy := some key, erasing := false } ∧
      (∀ x < 23, 0 < x → t.slot x = .blank) ∧ (t.slot 23).state = (s.slot 23).state ∧
      (t.slot 23).material = (s.slot 23).material ∧ (start → (t.slot 23).copy = (s.slot 23).copy) ∧
      t.load 0 = .loaded rak ∧ (∀ r, 0 < r → t.load r = .notLoaded) ∧ t.kst.reservation = 0 ∧ t.fresh = s.fresh + 2 ∧
      (quiet → t.kst.hold = none ∧ t.rke = s.rke) ∧
      t.rsu = { s.rsu with
        level := .calm, firstCause := none, lastCause := none, timer := none, wipeLevel := .calm
        settings := Setting.defaults, purgeAllowed := false, alarmMinimum := 5, absenceThreshold := 600, absence := 0 } ∧
      t.btc = { s.btc with token := none } ∧
      t.sst.lastDevice = .blank s.sst.lastDevice.labelVerifier s.sst.lastDevice.imageSize ∧
      (quiet → start → WritesOnly ((List.range 16).map StoreUnit.range ++ changed.map StoreUnit.key ++
        (List.range 8).map StoreUnit.evset ++ [.response, .device]) s t) ∧
      (∀ r < 16, t.holds (.range r) (t.recordOf (.range r)) (.stepWork k c.no)) ∧
      (∀ x ∈ changed, t.holds (.key x) (t.recordOf (.key x)) (.stepWork k c.no)) ∧
      t.holds .response (.response t.responseRecord) (.stepWork k c.no) ∧
      (∀ i < 8, t.holds (.evset i) (.evset (t.setting i)) (.stepWork k c.no)) ∧
      t.holds .device (.device t.sst.lastDevice) (.stepWork k c.no))

/-- R126, R139 to R142, R144 to R146: the completion of a write of a chain. The record that holds the chain with its
step current lets the step begin. The last write of a step's own work completes it, with its effect on the boot state:
ERASED after CUT_KEYS, BLANK without a hello or an unsealed image after RESET_TABLE; a FILL completes once progress is
at its count and no progress write is outstanding. A completed step leaves the front of the chain and the WIPE record
is written; with none left the chain ends when that write completes, with DONE or, closing, ABORTED, in a WIPE_DONE. A
level whose steps are given is recorded. A write of a chain that is gone changes nothing.
That RESET_TABLE also ends a running hello window is the model's choice (log 38), as is that a FILL's completion waits for the
write of its beginning too (log 18). -/
def Obligations.ChainWritesComplete : Prop :=
  ∀ (k : ChainKind) (no : Nat) (s : State),
    let completed := fun (c : Chain) (t : State) => ∃ d, t.chain k = some d ∧ d.steps = c.steps.tail ∧ d.begun = false ∧
      d.durable = false ∧ d.closing = c.closing ∧ d.failedChunks = c.failedChunks ∧ d.no = c.no ∧ d.origin = c.origin ∧
      (c.steps.tail = [] → d.ending = some (if c.closing then .aborted else .done) ∧
        t.holds .wipe (t.recordOf .wipe) (.chainEnd k c.no)) ∧
      (c.steps.tail ≠ [] → d.ending = c.ending ∧ t.holds .wipe (t.recordOf .wipe) (.chainDurable k c.no))
    ((∀ c, s.chain k = some c → c.no ≠ no) → s.signal (.chainDurable k no) = s ∧ s.signal (.stepWork k no) = s ∧
      s.signal (.fillProgress k no) = s ∧ s.signal (.chainEnd k no) = s) ∧
    (∀ c, s.chain k = some c → c.no = no →
      (let t := s.signal (.chainDurable k no)
       Framed [.wipe] s t ∧ t.chain k = some { c with durable := true, recording := false } ∧
         (∀ x, x ≠ k → t.chain x = s.chain x)) ∧
      (let t := s.signal (.stepWork k no)
       (c.begun = false → t = s) ∧
       (c.begun = true → 1 < c.left → Framed [.wipe] s t ∧ t.chain k = some { c with left := c.left - 1 } ∧
         (∀ x, x ≠ k → t.chain x = s.chain x)) ∧
       (∀ a l, c.begun = true → c.left ≤ 1 → c.steps = a :: l → (∀ n p, a ≠ .fill n p) →
         Framed [.boot, .wipe, .writes] s t ∧ WritesOnly [.wipe] s t ∧ completed c t ∧ (∀ x, x ≠ k → t.chain x = s.chain x) ∧
         (a = .cutKeys → t.btc = { s.btc with state := .erased }) ∧ (a = .cutCredentials → t.btc = s.btc) ∧
         (a = .resetTable → t.btc = { s.btc with state := .blank, unsealed := false, hello := .none, window := none }))) ∧
      (let t := s.signal (.fillProgress k no)
       let full := ∃ n p l, c.steps = .fill (some n) p :: l ∧ c.begun = true ∧ n ≤ p ∧ c.left ≤ 1
       (full → Framed [.wipe, .writes] s t ∧ WritesOnly [.wipe] s t ∧ completed c t ∧ (∀ x, x ≠ k → t.chain x = s.chain x)) ∧
       (¬ full → Framed [.wipe] s t ∧ t.chain k = some { c with left := c.left - 1 } ∧ (∀ x, x ≠ k → t.chain x = s.chain x))) ∧
      (let t := s.signal (.chainEnd k no)
       (c.ending = none → t = s) ∧
       (∀ st, c.ending = some st → Framed [.wipe, .sent] s t ∧ t.chain k = none ∧ (∀ x, x ≠ k → t.chain x = s.chain x) ∧
         t.sent = s.sent ++ (if s.lif.started then [frame .control 0 (.wipeDone k c.origin st c.failedChunks)] else [])))) ∧
    (∀ l : Level,
      let t := s.signal (.wipeGiven l)
      Framed [.response, .writes] s t ∧ WritesOnly [.response] s t ∧
        t.rsu = { s.rsu with wipeLevel := if s.rsu.wipeLevel.number < l.number then l else s.rsu.wipeLevel } ∧
        t.hasWrite .response)

/-! ### The Secure Store and the power states (chapter 9) -/

/-- R155: the write in service becomes durable in its unit and its damage mark is cleared; its requesters learn of it
in the order in which they joined it (log 6, the model's choice), each by its own rule, and the parts of the REKEY
record that were due are placed. A reply that waited for it is sent and frees its tag (R165), a BAD_PROOF likewise (R49),
where its failure blocked the slot with source 3 raised (R51), an erased slot is EMPTY (R30), and a token (R75) or a setting (R118) takes effect and its OK is sent, the absence
timer re-armed at a token and where source 0's enabled value or the threshold changed; what the waves of a credential change, a PROVISION and a commit,
a chain and the Rekey Engine do with their completions, the statements about those say. -/
def Obligations.WriteCompletionIsDurable : Prop :=
  ∀ s : State,
    (s.sst.serving = none → Goes .storeWriteComplete s s) ∧
    (∀ w, s.sst.serving = some w →
      let d := { s with sst := { s.sst with
        units := s.sst.units.store w.unit w.content, marks := s.sst.marks.filter (fun u => u != w.unit), serving := none } }
      ∃ u, Goes .storeWriteComplete s u.flushParts ∧ u = w.waiters.foldl State.signal d ∧
        u.flushParts.sst.units = d.sst.units ∧ u.flushParts.sst.marks = d.sst.marks ∧ u.flushParts.sst.serving = none ∧
        (w.waiters = [] → u = d) ∧
        (∀ rto b, w.waiters = [.reply rto b] → rto.session = s.lif.session →
          Framed [.tags, .sent] d u ∧ TagFreed rto d u ∧ u.sent = s.sent ++ [frame rto.channel rto.tag b]) ∧
        (∀ rto b, w.waiters = [.reply rto b] → rto.session ≠ s.lif.session → u = d) ∧
        (∀ rto blocked, w.waiters = [.badProof rto blocked] → ∃ v : State,
          u = (if blocked then v.raise 3 else v) ∧ Framed [.tags, .sent] d v ∧ TagFreed rto d v ∧
          v.sent = s.sent ++ (if rto.session = s.lif.session then [frame rto.channel rto.tag (.status .badProof [])] else [])) ∧
        (∀ k, w.waiters = [.erased k] → (s.slot k).state = .retiring → (s.slot k).erasing = true → u.slot k = .blank) ∧
        (∀ rto tok, w.waiters = [.bindPlatform rto tok] → Framed [.boot, .response, .tags, .sent] d u ∧ TagFreed rto d u ∧
          u.btc = { s.btc with token := tok, hello := u.btc.hello, window := u.btc.window } ∧
          u.rsu = { s.rsu with absence := 0 } ∧
          (tok = none → u.btc.hello = .none ∧ u.btc.window = none) ∧
          (tok ≠ none → u.btc.hello = (if s.btc.hello = .none then .notDue else s.btc.hello) ∧ u.btc.window = s.btc.window) ∧
          (rto.session = s.lif.session → u.sent = s.sent ++ [frame rto.channel rto.tag (.status .ok [])])) ∧
        (∀ rto i e, w.waiters = [.evidenceSource rto i e] → Framed [.response, .tags, .sent] d u ∧ TagFreed rto d u ∧
          u.rsu = { s.rsu with
            settings := s.rsu.settings.set i e
            absence := if i = 0 ∧ e.enabled ≠ (s.setting 0).enabled then 0 else s.rsu.absence } ∧
          (rto.session = s.lif.session → u.sent = s.sent ++ [frame rto.channel rto.tag (.status .ok [])])) ∧
        (∀ rto b x y, w.waiters = [.evidenceTable rto b x y] → Framed [.response, .tags, .sent] d u ∧ TagFreed rto d u ∧
          u.rsu = { s.rsu with
            purgeAllowed := b, alarmMinimum := x, absenceThreshold := y
            absence := if y = s.rsu.absenceThreshold then s.rsu.absence else 0 } ∧
          (rto.session = s.lif.session → u.sent = s.sent ++ [frame rto.channel rto.tag (.status .ok [])])))

/-- R6, R95, R108, R159 to R162: STANDBY_ENTER and POWER_DOWN are refused BUSY while a context is OPEN or a drain runs;
otherwise the part is in STANDBY at once, a chunk that can be dropped is dropped and any other runs on, the sweep hold
is released and a SWEEPING job is PAUSED, its progress part written and every job_copy kept (R108), the ranges with
standby_lock are locked and unloaded, NOT_LOADED where none but the hold has a reference on their keys, while the others keep their loads but for what the released hold ends (R34, R42), and DONE is sent by the drain's end, when its conditions hold together; after a link restart the drain ends
without it. A POWER_DOWN in STANDBY starts its drain alone. STANDBY_EXIT returns to ACTIVE: the
reseal locks the ranges with power_lock first, the reopen unlocks those with standby_lock alone through their device
envelopes, and a PAUSED job whose RAK is loaded sweeps again. It is refused BUSY while a drain runs.
That a job whose completion is being written is not paused is the model's choice (log 23). -/
def Obligations.StandbyDrainsAndWakes : Prop :=
  ∀ (f : Hdr) (s : State),
    let openCtx := ∃ c < 16, (s.ctx c).xfer ≠ none
    let held := fun k : Nat => (s.kst.hold.toList.flatMap (fun h => [h.oldKey, h.newKey])).count k
    let asleep := fun (t : State) => t.sst.power = .standby ∧ t.sent = s.sent ∧
      (∀ r < 16, ∀ g, s.fields r = some g → ∃ h, t.fields r = some h ∧
        h = { g with readLocked := g.readLocked || g.standbyLock, writeLocked := g.writeLocked || g.standbyLock } ∧
        (g.standbyLock = true → ∀ k, t.load r ≠ .loaded k) ∧
        (g.standbyLock = true → (∀ k ∈ g.named, s.owns r k = true → (s.slot k).users ≤ held k) → t.load r = .notLoaded) ∧
        (g.standbyLock = false → (∀ h, s.kst.hold = some h → h.range ≠ r ∧ (s.slot h.oldKey).owner ≠ some r ∧
          (s.slot h.newKey).owner ≠ some r) → t.load r = s.load r) ∧
        (g.standbyLock = false → (∃ h, s.kst.hold = some h ∧ h.range = r ∧ (s.slot h.oldKey).owner = some r ∧
          (s.slot h.newKey).owner = some r) → LoadReleased s t r)) ∧
      t.kst.hold = none ∧ WritesOnly (.rekeyProgress :: s.heldUnits) s t ∧
      (let paused := ∃ j, s.headJob = some j ∧ j.state = .sweeping ∧ s.rke.finished = none
       let queue := s.rke.queue.modify 0 (fun j => { j with state := .paused })
       let droppable := s.rke.phase = .claiming ∨ (s.rke.phase = .reading ∧ s.rke.headerIssued = false)
       (paused → t.rke.queue = queue ∧ (t.hasWrite .rekeyProgress ∨ t.rke.dueProgress ≠ none)) ∧
       (¬ paused → t.rke.queue = s.rke.queue ∧ t.rke.dueProgress = s.rke.dueProgress) ∧
       (droppable → t.rke = { s.rke with
         phase := .idle, first := 0, n := 0, window := false, headerIssued := false, buffer := [], todo := [], issued := []
         work := s.rke.work.filter (fun w => w.stage != .waiting), chunk := s.rke.chunk + 1, closing := false
         queue := t.rke.queue, dueProgress := t.rke.dueProgress }) ∧
       (¬ droppable → t.rke = { s.rke with queue := t.rke.queue, dueProgress := t.rke.dueProgress }))
    let pieces := [Piece.bursts, .power, .ranges, .loads, .keySlots, .hold, .rekey, .writes]
    ((Instr.standbyEnter f).passes s →
      (s.sst.drain ≠ .none → Goes (.standbyEnter f) s (s.answered .standbyEnter f (.status .busy []))) ∧
      (s.sst.drain = .none → s.sst.power = .standby →
        Goes (.standbyEnter f) s (s.answered .standbyEnter f (.status .done []))) ∧
      (s.sst.drain = .none → s.sst.power ≠ .standby → openCtx →
        Goes (.standbyEnter f) s (s.answered .standbyEnter f (.status .busy []))) ∧
      (s.sst.drain = .none → s.sst.power ≠ .standby → ¬ openCtx → Shaped s →
        ∃ t, Goes (.standbyEnter f) s t ∧ Framed pieces s t ∧ asleep t ∧
          t.sst.drain = .standby (s.replyTo .platform f.tag) ∧ t.sst.downMark = s.sst.downMark)) ∧
    ((Instr.powerDown f).passes s →
      ((openCtx ∨ s.sst.drain ≠ .none) → Goes (.powerDown f) s (s.answered .powerDown f (.status .busy []))) ∧
      (¬ openCtx → s.sst.drain = .none → s.sst.downMark = true →
        Goes (.powerDown f) s (s.answered .powerDown f (.status .done []))) ∧
      (¬ openCtx → s.sst.drain = .none → s.sst.downMark = false → Shaped s → s.sst.power ≠ .standby →
        ∃ t, Goes (.powerDown f) s t ∧ Framed pieces s t ∧ asleep t ∧
          t.sst.drain = .powerDown (s.replyTo .platform f.tag) ∧ t.sst.downMark = true) ∧
      (¬ openCtx → s.sst.drain = .none → s.sst.downMark = false → s.sst.power = .standby →
        Goes (.powerDown f) s { s.frameTaken with sst := { s.sst with
          drain := .powerDown (s.replyTo .platform f.tag), downMark := true } })) ∧
    ((Instr.standbyExit f).passes s →
      (s.sst.drain ≠ .none → Goes (.standbyExit f) s (s.answered .standbyExit f (.status .busy []))) ∧
      (s.sst.drain = .none → s.sst.power ≠ .standby →
        Goes (.standbyExit f) s (s.answered .standbyExit f (.status .ok []))) ∧
      (s.sst.drain = .none → s.sst.power = .standby →
        ∃ t : State, Goes (.standbyExit f) s t.settleDrain ∧
          Framed (.sent :: .boot :: .response :: .data :: pieces) s t ∧ t.sst.power = .active ∧
          t.sst.downMark = false ∧
          t.rsu = { s.rsu with absence := 0 } ∧
          t.btc = (if s.rtb.resealOnWake = true ∧ s.btc.state = .opened then
            { s.btc with state := .sealed, unsealed := false } else s.btc) ∧
          (Shaped s → (∀ r g k, s.fields r = some g → g.powerLock = false → s.load r = .notLoaded →
              s.openEnvelope r .device (some .device) = some k → s.intactUnder r k) → t.rtb.resealOnWake = s.rtb.resealOnWake ∧
            (∀ j, s.headJob = some j → (j.state ≠ .paused ∨ (∀ k, t.load j.range ≠ .loaded k)) → t.headState = some j.state) ∧
            (∀ j g k, s.headJob = some j → j.state = .paused → t.fields j.range = some g → t.load j.range = .loaded k →
              s.rke.recovery ≠ .header → (∀ x ∈ g.named, (t.slot x).state ≠ .empty ∧ (t.slot x).owner = some j.range) →
              t.headState = some .sweeping) ∧
            ∀ r g, s.fields r = some g →
              let sealed := s.rtb.resealOnWake = true ∧ s.btc.state = .opened ∧ g.powerLock = true
              let reopened := s.lockdown = false ∧ s.btc.state ≠ .erased ∧ g.standbyLock = true ∧ g.powerLock = false ∧
                (s.load r ≠ .notLoaded ∨ s.openEnvelope r .device (some .device) ≠ none)
              (sealed → t.fields r = some { g with readLocked := true, writeLocked := true } ∧ ∀ k, t.load r ≠ .loaded k) ∧
              (reopened → t.fields r = some { g with readLocked := false, writeLocked := false } ∧ ∃ k, t.load r = .loaded k) ∧
              (¬ sealed → ¬ reopened → t.entry r = s.entry r ∧ t.load r = s.load r)) ∧
          t.lastFrame = some (frame .platform f.tag (.status .ok [])))) ∧
    (let drained := s.rke.phase = .idle ∧ s.rtb.commit = .idle ∧
        (∀ q ∈ s.lif.outstanding, ∀ k no x, q.client ≠ .wipe k no x) ∧ Chain.working s.wpe.normal = false ∧
        Chain.working s.wpe.injected = false ∧ s.sst.queue = [] ∧ s.sst.waiting = [] ∧ s.sst.serving = none
     ((¬ drained ∨ ∀ rto, s.sst.drain ≠ .standby rto) → Goes .standbyDrainEnd s s) ∧
     ((¬ drained ∨ ∀ rto, s.sst.drain ≠ .powerDown rto) → Goes .powerDownDrainEnd s s) ∧
     (∀ rto, drained → rto.session ≠ s.lif.session →
       (s.sst.drain = .standby rto → Goes .standbyDrainEnd s { s with sst := { s.sst with drain := .none } }) ∧
       (s.sst.drain = .powerDown rto → Goes .powerDownDrainEnd s { s with sst := { s.sst with drain := .none } })) ∧
     (∀ rto, drained → rto.session = s.lif.session →
       (s.sst.drain = .standby rto → ∃ t, Goes .standbyDrainEnd s t ∧ Framed [.power, .tags, .sent] s t ∧ TagFreed rto s t ∧
         t.sst = { s.sst with drain := .none } ∧ t.sent = s.sent ++ [frame rto.channel rto.tag (.status .done [])]) ∧
       (s.sst.drain = .powerDown rto → ∃ t, Goes .powerDownDrainEnd s t ∧ Framed [.power, .tags, .sent] s t ∧ TagFreed rto s t ∧
         t.sst = { s.sst with drain := .none } ∧ t.sent = s.sent ++ [frame rto.channel rto.tag (.status .done [])])))

/-- R130, R156, R159: the retention supply's warning adds SUPPLY to the latch in OFF alone; its loss turns OFF into DEAD
and empties the latch, and its return changes no power state. The removal of the main supply cuts the write in
service, whose unit reads as damaged, loses the waiting ones, and leaves OFF or, without the retention supply, DEAD.
What becomes of the volatile state is the model's choice (log 13), and so is the retention flag (log 14). -/
def Obligations.SuppliesMoveThePowerState : Prop :=
  ∀ s : State,
    (s.sst.power = .off → exec .retentionSupplyWarning s = .next
      { s with rsu := { s.rsu with latch := if 6 ∈ s.rsu.latch then s.rsu.latch else s.rsu.latch ++ [6] } }) ∧
    (s.sst.power ≠ .off → exec .retentionSupplyWarning s = .next s) ∧
    (s.sst.power = .off → exec .retentionSupplyLost s = .next
      { s with sst := { s.sst with retention := false, power := .dead }, rsu := { s.rsu with latch := [] } }) ∧
    (s.sst.power ≠ .off → exec .retentionSupplyLost s = .next { s with sst := { s.sst with retention := false } }) ∧
    exec .retentionSupplyReturn s = .next { s with sst := { s.sst with retention := true } } ∧
    (s.sst.power.supplied = false → exec .mainSupplyRemoved s = .next s) ∧
    (s.sst.power.supplied = true → ∃ t, exec .mainSupplyRemoved s = .next t ∧
      t.sst.power = (if s.sst.retention then .off else .dead) ∧ t.sst.ready = false ∧ t.sst.drain = .none ∧
      t.sst.queue = [] ∧ t.sst.waiting = [] ∧ t.sst.serving = none ∧ t.sst.marks = s.sst.marks ∧
      (∀ w, s.sst.serving = some w → t.sst.units = s.sst.units.cut w.unit) ∧
      (s.sst.serving = none → t.sst.units = s.sst.units) ∧ t.rsu.latch = s.rsu.latch ∧ t.sent = s.sent ∧
      t.takesFrames = false)

/-- R5, R41, R44, R46, R63, R97, R131, R163, R168, R169: a START_UP in OFF or DEAD leaves the part ACTIVE with the
timebase at 0, the link not started, every context FREE with generation 0 and no block in flight, the challenge
table and the latch empty; the boot field BLANK or ERASED chooses its boot state. R5 unlocks and loads, in BLANK and
SEALED below LOCK, each range with power_lock off whose device envelope opens, and locks every other. Then each source of
the start latch is one arrival, in ascending order (an arrival is what O51 says of raise): after a warm start-up the
sources of the latch and the edges of the start-up, after a cold one these edges, with SUPPLY outside BLANK. READY_OUT
asserts at START_UP_COMPLETE, once the start-up's commit writes have completed.
That START_UP is one step is the model's choice (log 12). -/
def Obligations.StartUpRebuildsThePart : Prop :=
  ∀ (u : StartInputs) (s : State),
    (s.sst.power.supplied = true → exec (.startUp u) s = .next s) ∧
    (s.sst.power.supplied = false → ∃ t, Goes (.startUp u) s t ∧
      t.sst.power = .active ∧ t.sst.seconds = 0 ∧ t.sst.drain = .none ∧ t.sst.downMark = false ∧ t.sst.ready = false ∧
      t.sst.units = s.sst.units.spoil u ∧ t.sst.marks = (s.sst.units.spoil u).damaged ∧
      t.lif.started = false ∧ t.lif.outstanding = [] ∧ t.lif.freeCredits = 0 ∧ t.lif.erroredBursts = 0 ∧
      t.lif.nextTag = 1 ∧ t.lif.limitControl = 4160 ∧
      (∀ c, t.ctx c = { generation := 0, xfer := none }) ∧ t.dpu.flights = [] ∧
      t.cru.challenges = [none, none, none, none] ∧ t.rsu.latch = [] ∧ t.rtb.commit = .idle ∧
      t.btc.unsealed = false ∧ t.btc.window = none ∧
      (∀ d, s.sst.units.device = some d → t.btc.imageSize = d.imageSize ∧ t.btc.token = d.token ∧
        t.btc.hello = (if d.token.isSome then .notDue else .none) ∧
        (d.boot = .blank → t.btc.state = .blank) ∧ (d.boot = .erased → t.btc.state = .erased)) ∧
      (t.btc.state ≠ .blank → t.btc.state ≠ .sealed →
        ∀ r g, t.fields r = some g → g.readLocked = true ∧ g.writeLocked = true) ∧
      (Shaped s → ∃ w : State, w.sst.power = .active ∧ w.lif.started = false ∧
        (∀ r g, w.fields r = some g →
          let opens := fun k : Rak => (w.btc.state = .blank ∨ w.btc.state = .sealed) ∧ g.powerLock = false ∧
            w.rsu.level.number < 2 ∧ w.openEnvelope r .device (some .device) = some k
          (∀ k, opens k → g.readLocked = false ∧ g.writeLocked = false ∧ w.load r = .loaded k) ∧
          ((∀ k, ¬ opens k) → g.readLocked = true ∧ g.writeLocked = true ∧ w.load r = .notLoaded)) ∧
        let taken := [1, 2, 6].filter (fun i => decide (i ∈ u.edges ∨
          if s.sst.power = .off then i ∈ s.rsu.latch else i = 6 ∧ w.btc.state ≠ .blank))
        let after := taken.foldl State.raise w
        t = { after with rsu := { after.rsu with latch := [], startLatch := taken } })) ∧
    (s.sst.power.supplied = true → s.rtb.startCommit = none →
      exec .startUpComplete s = .next { s with sst := { s.sst with ready := true } }) ∧
    ((s.sst.power.supplied = false ∨ s.rtb.startCommit ≠ none) → exec .startUpComplete s = .next s)

/-- R9, R23, R24, R25, R27, R36, R39, R41, R44, R63, R64, R114, R115, R123, R135, R152, R163: what the blocks rebuild at a
START_UP from the record units, whose content may have been spoilt. Credential slots come from their records with the full
backoff, a damaged one DISABLED; in BLANK no custodian is left. A damaged KEY record gives an EMPTY slot, and a range that
names it has key_lost; a RETIRING slot is erased, a LIVE one that nothing names goes RETIRING, one that its range names
stays; the START key is loaded.
The Range Table shows what the RANGE records give (Units.table): a damaged one DAMAGED, an envelope in two forms resolved by
its slot's CRED record, key_lost where a KEY record or both parts of the REKEY record fail the range. The staged list is the
STAGE record's, empty where damaged. A deferred list whose check holds, and an interrupted one, stand installed, and
the start-up's work goes on until their writes have completed; one whose check fails is kept with mark NONE, and its prepared
slots go RETIRING.
The rekey queue comes from the queue part, which where damaged is rewritten from the progress part's job and serial; the
watermark from the progress part or the scratch header; the settings, the incident record and the timer from theirs, with a
fresh beacon; the chains from theirs, to begin again. A PROVISIONED part is ERASED with a chain, QUARANTINE from LOCK on,
else SEALED; a damaged DEVICE record makes it ERASED with a CUT_KEYS given.
That START_UP is one step is the model's choice (log 12), and that a job found completed stays the head until its writes
are made, the progress part first, is its reading (log 22). So are, of a staged list, that its material must serve every
range that needs a key, and what reseal_on_wake a damaged DEVICE record leaves (log 20), and that a damaged CRED record's
slot keeps no envelope in a single form (log 38), and that the watermark reads as the range's first block while the scratch
header is still to be judged (log 39). -/
def Obligations.StartUpRebuildsTheBlocks : Prop :=
  ∀ (u : StartInputs) (s : State), s.sst.power.supplied = false → Shaped s →
    let x := s.sst.units
    let quiet := x.device ≠ none ∧ ∀ i e, (i = 1 ∨ i = 2 ∨ i = 6) → x.evset[i]? = some (some e) → e.enabled = false
    let y := x.spoil u
    let before := fun r : Nat => (y.table[r]?).getD .disabled
    let reseal := (x.device.map (fun d => d.resealOnWake)).getD false
    ∃ t, Goes (.startUp u) s t ∧
      (∀ i < 10, (2 ≤ i ∨ t.btc.state ≠ .blank) →
        (∀ c, x.cred[i]? = some (some c) → t.cred i = { record := c, backoff :=
          if c.state = .enabled ∧ 3 ≤ c.failures then some (min 512 (2 ^ (c.failures - 3))) else none }) ∧
        (x.cred[i]? = some none → (t.cred i).record.state = .disabled ∧ (t.cred i).record.damaged = true ∧
          (t.cred i).record.verifier = none ∧ (t.cred i).record.failures = 0 ∧ (t.cred i).record.limit = 10 ∧
          (t.cred i).backoff = none ∧ ∃ w ∈ t.writesHeld, w.unit = .cred i)) ∧
      (t.btc.state = .blank → (t.cred 0).record.state = .empty ∧ (t.cred 1).record.state = .empty ∧
        ∀ r g, t.fields r = some g → ∀ e ∈ g.envelopes, e.holder ≠ .cred 0 ∧ e.holder ≠ .cred 1) ∧
      (∀ k < 23, x.key[k]? = some none → (t.slot k).state = .empty ∧ (t.slot k).material = none ∧
        (∃ w ∈ t.writesHeld, w.unit = .key k) ∧ ∀ r g, t.fields r = some g → k ∈ g.named → g.keyLost = true) ∧
      (∀ k c, k < 23 → x.key[k]? = some (some c) →
        (c.state = .empty → (t.slot k).state = .empty) ∧
        (c.state = .retiring → (t.slot k).state = .retiring ∧ t.holds (.key k) (.key .blank) (.erased k)) ∧
        (c.state = .live → (∀ r g, t.fields r = some g → k ∉ g.named) → (∀ r, c.owner = some r → t.entry r ≠ .damaged) →
          (t.slot k).state = .retiring ∧ t.holds (.key k) (.key .blank) (.erased k)) ∧
        (c.state = .live → (∃ r g, t.fields r = some g ∧ k ∈ g.named ∧ c.owner = some r) →
          (∀ l, x.stage = some l → l.mark = .deferred → y.deferredHolds reseal l ∨ ∀ q ∈ l.prepared.slots, q.2 ≠ k) →
          (t.slot k).state = .live ∨
            ((t.slot k).state = .empty ∧ ∀ r g, t.fields r = some g → k ∈ g.named → c.owner = some r → g.keyLost = true))) ∧
      ((∀ l, x.stage = some l → l.mark = .none) → (∀ r < 16, t.shows r (before r)) ∧ t.rtb.resealOnWake = reseal ∧
        t.rtb.startCommit = none ∧
        ∀ r g f, y.range[r]? = some (some (.enabled g)) → before r = .enabled f →
          let stores := fun p : RangeFields → Prop =>
            ∃ w ∈ t.writesHeld, w.unit = .range r ∧ ∃ z, w.content = .range (.enabled z) ∧ p z
          (f.envelopes ≠ g.envelopes → t.btc.state ≠ .blank → ∀ h, t.fields r = some h →
            stores (fun z => z.envelopes = h.envelopes)) ∧
          (f.keyLost = true → g.keyLost = false → stores (fun z => z.keyLost = true))) ∧
      (x.stage = none → t.rtb.staged = .blank ∧ t.hasWrite .stage) ∧
      (∀ l, x.stage = some l →
        (l.mark = .none → t.rtb.staged.edits = l.edits ∧ t.rtb.staged.mark = .none ∧
          t.rtb.staged.prepared.slots = l.prepared.slots) ∧
        ((∀ j, x.rekeyProgress = some (some j) → j.state ≠ .queued) → l.mark = .deferred → ¬ y.deferredHolds reseal l →
          (∀ r < 16, t.shows r (before r)) ∧ t.rtb.resealOnWake = reseal ∧ t.rtb.startCommit ≠ none ∧
          t.rtb.staged = { edits := l.edits, mark := .none, prepared := { slots := [], envelopes := [] } } ∧
          t.holds .stage (.stage t.rtb.staged) .startCommit ∧
          ∀ q c, q ∈ l.prepared.slots → q.2 < 23 → x.key[q.2]? = some (some c) → c.state = .live →
            (t.slot q.2).state = .retiring ∧ t.holds (.key q.2) (.key .blank) (.erased q.2)) ∧
        ((∀ j, x.rekeyProgress = some (some j) → j.state ≠ .queued) →
          (l.mark = .deferred ∧ y.deferredHolds reseal l) ∨ (l.mark = .applying ∧ y.serves reseal l) →
          t.installedAtStart y reseal l)) ∧
      (x.rekeyQueue = none → x.rekeyProgress = none → t.hasWrite .rekeyQueue ∧
        (t.hasWrite .rekeyProgress ∨ t.rke.dueProgress ≠ none)) ∧
      (∀ c, (x.spoil u).key[23]? = some (some c) → c.state = .live → c.owner = none →
        (∀ l, x.stage = some l → ∀ q ∈ l.prepared.slots, q.2 < 23) →
        (t.slot 23).state = .live ∧ (t.slot 23).material = c.material ∧ (t.slot 23).copy = c.material.map (fun m => m.key)) ∧
      (∀ q, (∀ l, x.stage = some l → l.mark = .none) → x.queuePart = some q →
        t.rke.serial = q.serial ∧ t.rke.phase = .idle ∧ t.rke.window = false ∧
        (q.active = none → t.rke.queue = q.ranges.map (fun r =>
          { range := r, state := .queued, copy := none, serial := none, newKey := none, fault := none })) ∧
        (∀ a g, q.active = some a → x.range[a.range]? = some (some (.enabled g)) →
            (∀ j, x.rekeyProgress = some (some j) → j.state ≠ .queued) →
          (∃ h, t.headJob = some h ∧ h.range = a.range ∧ h.serial = some a.serial ∧ h.newKey = some a.newKey ∧
            h.state ≠ .queued ∧ h.copy = none) ∧
          t.rke.queue.tail = (q.ranges.filter (fun r => r != a.range)).map (fun r =>
            { range := r, state := .queued, copy := none, serial := none, newKey := none, fault := none }) ∧
          (g.keySlot = a.newKey → t.rke.seq = some .doneProgress ∧ t.progressAwaits (.rekeySeq .doneProgress a.serial) ∧
            ∃ y, t.rke.finished = some y ∧ y.range = a.range ∧ y.serial = a.serial ∧ y.silent = true) ∧
          (g.keySlot ≠ a.newKey → t.rke.finished = none ∧
            let resumes := fun (w : Nat) => ∃ h, t.fields a.range = some h ∧ h.split = some { newKey := a.newKey, watermark := w }
            let start := match g.bounds with
              | some b => b.first
              | none => 0
            (∀ j, x.rekeyProgress = some (some j) → j.serial = a.serial → resumes j.watermark ∧
              (j.state = .faulted → t.headState = some .faulted) ∧
              (∀ n m, j.copying = true → j.chunk = some (n, m) → t.rke.recovery = .copy n m)) ∧
            (∀ y, x.rekeyProgress = some y → (∀ j, y = some j → j.serial ≠ a.serial) → resumes start) ∧
            (x.rekeyProgress = none → resumes start ∧ t.rke.recovery = .header ∧ t.rke.rangeHeld = true) ∧
            (t.headState = some .sweeping → ∃ k, t.load a.range = .loaded k)))) ∧
      ((∀ l, x.stage = some l → l.mark = .none) → (∀ j, x.rekeyProgress = some (some j) → j.state ≠ .queued) →
        x.rekeyQueue = none → x.rekeyProgress ≠ none → t.hasWrite .rekeyQueue ∨ t.rke.dueQueue ≠ none) ∧
      ((∀ l, x.stage = some l → l.mark = .none) → x.rekeyQueue = none → x.rekeyProgress = none →
        t.rke.queue = [] ∧ t.rke.serial = 0) ∧
      (∀ i < 8, (∀ e, x.evset[i]? = some (some e) → t.setting i = e) ∧
        (x.evset[i]? = some none → (t.setting i).enabled = false ∧ ∃ w ∈ t.writesHeld, w.unit = .evset i)) ∧
      t.rsu.absence = 0 ∧ s.fresh ≤ t.rsu.beacon.issue ∧ t.rsu.beacon.issue < t.fresh ∧
      (quiet → (∀ y, x.response = some y → t.rsu.level = y.level ∧ t.rsu.firstCause = y.firstCause ∧
          t.rsu.lastCause = y.lastCause ∧ t.rsu.wipeLevel = y.wipeLevel ∧
          t.rsu.timer = y.pending.map (fun p => { pending := p, remaining := p.delay })) ∧
        (x.response = none → t.rsu.level = .lock ∧ t.rsu.firstCause = some 255 ∧ t.rsu.lastCause = some 255 ∧
          t.rsu.timer = none ∧ t.rsu.wipeLevel = .calm ∧ ∃ w ∈ t.writesHeld, w.unit = .response)) ∧
      (∀ w, x.wipe = some w →
        let again := fun (k : ChainKind) (y : ChainRecord) => ∃ c, t.chain k = some c ∧ c.origin = y.origin ∧ c.steps = y.steps ∧
          c.closing = y.closing ∧ c.failedChunks = y.failedChunks ∧ c.begun = false ∧ c.durable = true ∧ c.ending = none
        (w.normal = none → t.wpe.normal = none) ∧ (∀ y, w.normal = some y → again .normal y) ∧
        (quiet → t.rsu.level.number < 3 → (w.injected = none → t.wpe.injected = none) ∧
          (∀ y, w.injected = some y → again .injected y))) ∧
      ((x.wipe = none ∨ x.device = none ∨ (quiet ∧ 3 ≤ t.rsu.level.number ∧ t.rsu.wipeLevel.number < 3)) →
        ∃ c, t.wpe.injected = some c ∧ .cutKeys ∈ c.steps) ∧
      (x.wipe = none → t.wpe.normal = none) ∧
      (∀ d, x.device = some d → d.boot = .provisioned → quiet →
        t.btc.state = (if t.wpe.normal ≠ none ∨ t.wpe.injected ≠ none then .erased
          else if 2 ≤ t.rsu.level.number then .quarantine else .sealed)) ∧
      (x.device = none → t.btc.state = .erased ∧ t.btc.imageSize = 0 ∧ t.btc.token = none ∧
        t.btc.labelVerifier = s.sst.labelCopy ∧ ∃ w ∈ t.writesHeld, w.unit = .device)
end

