-- ==== Sys2Proof/Laws/Commit.lean ====
section
/-! SUPPORT. What a commit retires and which queued jobs it removes (R18). -/

namespace Sys2Proof.Machine

/-- R18 step 3: the slots that a commit retires, in full. -/
theorem State.mem_unnamedSlots (s before : State) (named : List Nat) (k : Nat) :
    k ∈ s.unnamedSlots before named ↔ k < 23 ∧ (s.slot k).state = .live ∧ ∃ r, (s.slot k).owner = some r ∧
      before.released s named r k = true ∧ s.entry r ≠ .damaged ∧ k ∉ s.namedSlots r := by
  unfold State.unnamedSlots
  cases h : (s.slot k).owner <;> simp [h, and_assoc]

/-- R18 step 3: only what a named range gave up, or a repaired owner, releases a slot. -/
theorem State.released_iff (before s : State) (named : List Nat) (r k : Nat) :
    before.released s named r k = true ↔ (r ∈ named ∧ before.entry r = .damaged) ∨
      ∃ q ∈ named, k ∈ before.namedSlots q ∧ k ∉ s.namedSlots q := by
  simp [State.released]

/-- R18 step 6: the jobs that a commit removes are QUEUED ones, of ranges that became DISABLED, were made anew or were
repaired. -/
theorem State.removesJob_iff (s : State) (p : Plan) (j : Job) :
    s.removesJob p j = true ↔ j.state = .queued ∧
      ((p.entry j.range = .disabled ∧ s.entry j.range ≠ .disabled) ∨ j.range ∈ p.remade ∨ j.range ∈ p.repaired) := by
  simp [State.removesJob, or_assoc]

/-- R18 step 6: a job whose range the plan leaves as it stands is kept, DAMAGED or not. -/
theorem State.removesJob_of_untouched (s : State) (p : Plan) (j : Job) (he : p.entry j.range = s.entry j.range)
    (hm : j.range ∉ p.remade) (hr : j.range ∉ p.repaired) : s.removesJob p j = false := by
  rw [Bool.eq_false_iff, Ne, State.removesJob_iff, he]
  tauto

end Sys2Proof.Machine
end

