-- ==== Sys2Proof/Laws/Frames.lean ====
section
/-! SUPPORT. What every operation of the meanings leaves alone, field by field: one lemma an operation, so that a
frame is found by `simp` and nothing is unfolded. Before them, the same for a fold of one operation over a list. -/

set_option Elab.async false

namespace Sys2Proof.Machine

/-! ### Folds -/

@[simp] theorem foldl_lif {α : Type} (f : State → α → State) (h : ∀ t r, (f t r).lif = t.lif) (l : List α) (s : State) :
    (l.foldl f s).lif = s.lif := by
  induction l generalizing s with
  | nil => rfl
  | cons a l ih => simp [ih, h]

@[simp] theorem foldl_lif_started {α : Type} (f : State → α → State) (h : ∀ t r, (f t r).lif.started = t.lif.started) (l : List α) (s : State) :
    (l.foldl f s).lif.started = s.lif.started := by
  induction l generalizing s with
  | nil => rfl
  | cons a l ih => simp [ih, h]

@[simp] theorem foldl_lif_mediaCredits {α : Type} (f : State → α → State) (h : ∀ t r, (f t r).lif.mediaCredits = t.lif.mediaCredits) (l : List α) (s : State) :
    (l.foldl f s).lif.mediaCredits = s.lif.mediaCredits := by
  induction l generalizing s with
  | nil => rfl
  | cons a l ih => simp [ih, h]

@[simp] theorem foldl_lif_capacity {α : Type} (f : State → α → State) (h : ∀ t r, (f t r).lif.capacity = t.lif.capacity) (l : List α) (s : State) :
    (l.foldl f s).lif.capacity = s.lif.capacity := by
  induction l generalizing s with
  | nil => rfl
  | cons a l ih => simp [ih, h]

@[simp] theorem foldl_lif_imageBase {α : Type} (f : State → α → State) (h : ∀ t r, (f t r).lif.imageBase = t.lif.imageBase) (l : List α) (s : State) :
    (l.foldl f s).lif.imageBase = s.lif.imageBase := by
  induction l generalizing s with
  | nil => rfl
  | cons a l ih => simp [ih, h]

@[simp] theorem foldl_lif_scratchBase {α : Type} (f : State → α → State) (h : ∀ t r, (f t r).lif.scratchBase = t.lif.scratchBase) (l : List α) (s : State) :
    (l.foldl f s).lif.scratchBase = s.lif.scratchBase := by
  induction l generalizing s with
  | nil => rfl
  | cons a l ih => simp [ih, h]

@[simp] theorem foldl_lif_limitData {α : Type} (f : State → α → State) (h : ∀ t r, (f t r).lif.limitData = t.lif.limitData) (l : List α) (s : State) :
    (l.foldl f s).lif.limitData = s.lif.limitData := by
  induction l generalizing s with
  | nil => rfl
  | cons a l ih => simp [ih, h]

@[simp] theorem foldl_lif_limitControl {α : Type} (f : State → α → State) (h : ∀ t r, (f t r).lif.limitControl = t.lif.limitControl) (l : List α) (s : State) :
    (l.foldl f s).lif.limitControl = s.lif.limitControl := by
  induction l generalizing s with
  | nil => rfl
  | cons a l ih => simp [ih, h]

@[simp] theorem foldl_lif_limitPlatform {α : Type} (f : State → α → State) (h : ∀ t r, (f t r).lif.limitPlatform = t.lif.limitPlatform) (l : List α) (s : State) :
    (l.foldl f s).lif.limitPlatform = s.lif.limitPlatform := by
  induction l generalizing s with
  | nil => rfl
  | cons a l ih => simp [ih, h]

@[simp] theorem foldl_lif_outstanding {α : Type} (f : State → α → State) (h : ∀ t r, (f t r).lif.outstanding = t.lif.outstanding) (l : List α) (s : State) :
    (l.foldl f s).lif.outstanding = s.lif.outstanding := by
  induction l generalizing s with
  | nil => rfl
  | cons a l ih => simp [ih, h]

@[simp] theorem foldl_lif_freeCredits {α : Type} (f : State → α → State) (h : ∀ t r, (f t r).lif.freeCredits = t.lif.freeCredits) (l : List α) (s : State) :
    (l.foldl f s).lif.freeCredits = s.lif.freeCredits := by
  induction l generalizing s with
  | nil => rfl
  | cons a l ih => simp [ih, h]

@[simp] theorem foldl_lif_nextTag {α : Type} (f : State → α → State) (h : ∀ t r, (f t r).lif.nextTag = t.lif.nextTag) (l : List α) (s : State) :
    (l.foldl f s).lif.nextTag = s.lif.nextTag := by
  induction l generalizing s with
  | nil => rfl
  | cons a l ih => simp [ih, h]

@[simp] theorem foldl_lif_tagsInUse {α : Type} (f : State → α → State) (h : ∀ t r, (f t r).lif.tagsInUse = t.lif.tagsInUse) (l : List α) (s : State) :
    (l.foldl f s).lif.tagsInUse = s.lif.tagsInUse := by
  induction l generalizing s with
  | nil => rfl
  | cons a l ih => simp [ih, h]

@[simp] theorem foldl_lif_erroredBursts {α : Type} (f : State → α → State) (h : ∀ t r, (f t r).lif.erroredBursts = t.lif.erroredBursts) (l : List α) (s : State) :
    (l.foldl f s).lif.erroredBursts = s.lif.erroredBursts := by
  induction l generalizing s with
  | nil => rfl
  | cons a l ih => simp [ih, h]

@[simp] theorem foldl_lif_burstTaken {α : Type} (f : State → α → State) (h : ∀ t r, (f t r).lif.burstTaken = t.lif.burstTaken) (l : List α) (s : State) :
    (l.foldl f s).lif.burstTaken = s.lif.burstTaken := by
  induction l generalizing s with
  | nil => rfl
  | cons a l ih => simp [ih, h]

@[simp] theorem foldl_lif_burstErrored {α : Type} (f : State → α → State) (h : ∀ t r, (f t r).lif.burstErrored = t.lif.burstErrored) (l : List α) (s : State) :
    (l.foldl f s).lif.burstErrored = s.lif.burstErrored := by
  induction l generalizing s with
  | nil => rfl
  | cons a l ih => simp [ih, h]

@[simp] theorem foldl_lif_burstDropped {α : Type} (f : State → α → State) (h : ∀ t r, (f t r).lif.burstDropped = t.lif.burstDropped) (l : List α) (s : State) :
    (l.foldl f s).lif.burstDropped = s.lif.burstDropped := by
  induction l generalizing s with
  | nil => rfl
  | cons a l ih => simp [ih, h]

@[simp] theorem foldl_lif_session {α : Type} (f : State → α → State) (h : ∀ t r, (f t r).lif.session = t.lif.session) (l : List α) (s : State) :
    (l.foldl f s).lif.session = s.lif.session := by
  induction l generalizing s with
  | nil => rfl
  | cons a l ih => simp [ih, h]

@[simp] theorem foldl_cru {α : Type} (f : State → α → State) (h : ∀ t r, (f t r).cru = t.cru) (l : List α) (s : State) :
    (l.foldl f s).cru = s.cru := by
  induction l generalizing s with
  | nil => rfl
  | cons a l ih => simp [ih, h]

@[simp] theorem foldl_cru_slots {α : Type} (f : State → α → State) (h : ∀ t r, (f t r).cru.slots = t.cru.slots) (l : List α) (s : State) :
    (l.foldl f s).cru.slots = s.cru.slots := by
  induction l generalizing s with
  | nil => rfl
  | cons a l ih => simp [ih, h]

@[simp] theorem foldl_cru_challenges {α : Type} (f : State → α → State) (h : ∀ t r, (f t r).cru.challenges = t.cru.challenges) (l : List α) (s : State) :
    (l.foldl f s).cru.challenges = s.cru.challenges := by
  induction l generalizing s with
  | nil => rfl
  | cons a l ih => simp [ih, h]

@[simp] theorem foldl_cru_ops {α : Type} (f : State → α → State) (h : ∀ t r, (f t r).cru.ops = t.cru.ops) (l : List α) (s : State) :
    (l.foldl f s).cru.ops = s.cru.ops := by
  induction l generalizing s with
  | nil => rfl
  | cons a l ih => simp [ih, h]

@[simp] theorem foldl_btc {α : Type} (f : State → α → State) (h : ∀ t r, (f t r).btc = t.btc) (l : List α) (s : State) :
    (l.foldl f s).btc = s.btc := by
  induction l generalizing s with
  | nil => rfl
  | cons a l ih => simp [ih, h]

@[simp] theorem foldl_kst {α : Type} (f : State → α → State) (h : ∀ t r, (f t r).kst = t.kst) (l : List α) (s : State) :
    (l.foldl f s).kst = s.kst := by
  induction l generalizing s with
  | nil => rfl
  | cons a l ih => simp [ih, h]

@[simp] theorem foldl_kst_slots {α : Type} (f : State → α → State) (h : ∀ t r, (f t r).kst.slots = t.kst.slots) (l : List α) (s : State) :
    (l.foldl f s).kst.slots = s.kst.slots := by
  induction l generalizing s with
  | nil => rfl
  | cons a l ih => simp [ih, h]

@[simp] theorem foldl_kst_loads {α : Type} (f : State → α → State) (h : ∀ t r, (f t r).kst.loads = t.kst.loads) (l : List α) (s : State) :
    (l.foldl f s).kst.loads = s.kst.loads := by
  induction l generalizing s with
  | nil => rfl
  | cons a l ih => simp [ih, h]

@[simp] theorem foldl_kst_hold {α : Type} (f : State → α → State) (h : ∀ t r, (f t r).kst.hold = t.kst.hold) (l : List α) (s : State) :
    (l.foldl f s).kst.hold = s.kst.hold := by
  induction l generalizing s with
  | nil => rfl
  | cons a l ih => simp [ih, h]

@[simp] theorem foldl_kst_reservation {α : Type} (f : State → α → State) (h : ∀ t r, (f t r).kst.reservation = t.kst.reservation) (l : List α) (s : State) :
    (l.foldl f s).kst.reservation = s.kst.reservation := by
  induction l generalizing s with
  | nil => rfl
  | cons a l ih => simp [ih, h]

@[simp] theorem foldl_rtb {α : Type} (f : State → α → State) (h : ∀ t r, (f t r).rtb = t.rtb) (l : List α) (s : State) :
    (l.foldl f s).rtb = s.rtb := by
  induction l generalizing s with
  | nil => rfl
  | cons a l ih => simp [ih, h]

@[simp] theorem foldl_rtb_entries {α : Type} (f : State → α → State) (h : ∀ t r, (f t r).rtb.entries = t.rtb.entries) (l : List α) (s : State) :
    (l.foldl f s).rtb.entries = s.rtb.entries := by
  induction l generalizing s with
  | nil => rfl
  | cons a l ih => simp [ih, h]

@[simp] theorem foldl_rtb_resealOnWake {α : Type} (f : State → α → State) (h : ∀ t r, (f t r).rtb.resealOnWake = t.rtb.resealOnWake) (l : List α) (s : State) :
    (l.foldl f s).rtb.resealOnWake = s.rtb.resealOnWake := by
  induction l generalizing s with
  | nil => rfl
  | cons a l ih => simp [ih, h]

@[simp] theorem foldl_rtb_staged {α : Type} (f : State → α → State) (h : ∀ t r, (f t r).rtb.staged = t.rtb.staged) (l : List α) (s : State) :
    (l.foldl f s).rtb.staged = s.rtb.staged := by
  induction l generalizing s with
  | nil => rfl
  | cons a l ih => simp [ih, h]

@[simp] theorem foldl_rtb_commit {α : Type} (f : State → α → State) (h : ∀ t r, (f t r).rtb.commit = t.rtb.commit) (l : List α) (s : State) :
    (l.foldl f s).rtb.commit = s.rtb.commit := by
  induction l generalizing s with
  | nil => rfl
  | cons a l ih => simp [ih, h]

@[simp] theorem foldl_rtb_preparing {α : Type} (f : State → α → State) (h : ∀ t r, (f t r).rtb.preparing = t.rtb.preparing) (l : List α) (s : State) :
    (l.foldl f s).rtb.preparing = s.rtb.preparing := by
  induction l generalizing s with
  | nil => rfl
  | cons a l ih => simp [ih, h]

@[simp] theorem foldl_rtb_startCommit {α : Type} (f : State → α → State) (h : ∀ t r, (f t r).rtb.startCommit = t.rtb.startCommit) (l : List α) (s : State) :
    (l.foldl f s).rtb.startCommit = s.rtb.startCommit := by
  induction l generalizing s with
  | nil => rfl
  | cons a l ih => simp [ih, h]

@[simp] theorem foldl_dpu {α : Type} (f : State → α → State) (h : ∀ t r, (f t r).dpu = t.dpu) (l : List α) (s : State) :
    (l.foldl f s).dpu = s.dpu := by
  induction l generalizing s with
  | nil => rfl
  | cons a l ih => simp [ih, h]

@[simp] theorem foldl_rke {α : Type} (f : State → α → State) (h : ∀ t r, (f t r).rke = t.rke) (l : List α) (s : State) :
    (l.foldl f s).rke = s.rke := by
  induction l generalizing s with
  | nil => rfl
  | cons a l ih => simp [ih, h]

@[simp] theorem foldl_rsu {α : Type} (f : State → α → State) (h : ∀ t r, (f t r).rsu = t.rsu) (l : List α) (s : State) :
    (l.foldl f s).rsu = s.rsu := by
  induction l generalizing s with
  | nil => rfl
  | cons a l ih => simp [ih, h]

@[simp] theorem foldl_wpe {α : Type} (f : State → α → State) (h : ∀ t r, (f t r).wpe = t.wpe) (l : List α) (s : State) :
    (l.foldl f s).wpe = s.wpe := by
  induction l generalizing s with
  | nil => rfl
  | cons a l ih => simp [ih, h]

@[simp] theorem foldl_sst {α : Type} (f : State → α → State) (h : ∀ t r, (f t r).sst = t.sst) (l : List α) (s : State) :
    (l.foldl f s).sst = s.sst := by
  induction l generalizing s with
  | nil => rfl
  | cons a l ih => simp [ih, h]

@[simp] theorem foldl_sst_units {α : Type} (f : State → α → State) (h : ∀ t r, (f t r).sst.units = t.sst.units) (l : List α) (s : State) :
    (l.foldl f s).sst.units = s.sst.units := by
  induction l generalizing s with
  | nil => rfl
  | cons a l ih => simp [ih, h]

@[simp] theorem foldl_sst_labelCopy {α : Type} (f : State → α → State) (h : ∀ t r, (f t r).sst.labelCopy = t.sst.labelCopy) (l : List α) (s : State) :
    (l.foldl f s).sst.labelCopy = s.sst.labelCopy := by
  induction l generalizing s with
  | nil => rfl
  | cons a l ih => simp [ih, h]

@[simp] theorem foldl_sst_marks {α : Type} (f : State → α → State) (h : ∀ t r, (f t r).sst.marks = t.sst.marks) (l : List α) (s : State) :
    (l.foldl f s).sst.marks = s.sst.marks := by
  induction l generalizing s with
  | nil => rfl
  | cons a l ih => simp [ih, h]

@[simp] theorem foldl_sst_queue {α : Type} (f : State → α → State) (h : ∀ t r, (f t r).sst.queue = t.sst.queue) (l : List α) (s : State) :
    (l.foldl f s).sst.queue = s.sst.queue := by
  induction l generalizing s with
  | nil => rfl
  | cons a l ih => simp [ih, h]

@[simp] theorem foldl_sst_waiting {α : Type} (f : State → α → State) (h : ∀ t r, (f t r).sst.waiting = t.sst.waiting) (l : List α) (s : State) :
    (l.foldl f s).sst.waiting = s.sst.waiting := by
  induction l generalizing s with
  | nil => rfl
  | cons a l ih => simp [ih, h]

@[simp] theorem foldl_sst_serving {α : Type} (f : State → α → State) (h : ∀ t r, (f t r).sst.serving = t.sst.serving) (l : List α) (s : State) :
    (l.foldl f s).sst.serving = s.sst.serving := by
  induction l generalizing s with
  | nil => rfl
  | cons a l ih => simp [ih, h]

@[simp] theorem foldl_sst_lastDevice {α : Type} (f : State → α → State) (h : ∀ t r, (f t r).sst.lastDevice = t.sst.lastDevice) (l : List α) (s : State) :
    (l.foldl f s).sst.lastDevice = s.sst.lastDevice := by
  induction l generalizing s with
  | nil => rfl
  | cons a l ih => simp [ih, h]

@[simp] theorem foldl_sst_seconds {α : Type} (f : State → α → State) (h : ∀ t r, (f t r).sst.seconds = t.sst.seconds) (l : List α) (s : State) :
    (l.foldl f s).sst.seconds = s.sst.seconds := by
  induction l generalizing s with
  | nil => rfl
  | cons a l ih => simp [ih, h]

@[simp] theorem foldl_sst_power {α : Type} (f : State → α → State) (h : ∀ t r, (f t r).sst.power = t.sst.power) (l : List α) (s : State) :
    (l.foldl f s).sst.power = s.sst.power := by
  induction l generalizing s with
  | nil => rfl
  | cons a l ih => simp [ih, h]

@[simp] theorem foldl_sst_drain {α : Type} (f : State → α → State) (h : ∀ t r, (f t r).sst.drain = t.sst.drain) (l : List α) (s : State) :
    (l.foldl f s).sst.drain = s.sst.drain := by
  induction l generalizing s with
  | nil => rfl
  | cons a l ih => simp [ih, h]

@[simp] theorem foldl_sst_downMark {α : Type} (f : State → α → State) (h : ∀ t r, (f t r).sst.downMark = t.sst.downMark) (l : List α) (s : State) :
    (l.foldl f s).sst.downMark = s.sst.downMark := by
  induction l generalizing s with
  | nil => rfl
  | cons a l ih => simp [ih, h]

@[simp] theorem foldl_sst_ready {α : Type} (f : State → α → State) (h : ∀ t r, (f t r).sst.ready = t.sst.ready) (l : List α) (s : State) :
    (l.foldl f s).sst.ready = s.sst.ready := by
  induction l generalizing s with
  | nil => rfl
  | cons a l ih => simp [ih, h]

@[simp] theorem foldl_sst_retention {α : Type} (f : State → α → State) (h : ∀ t r, (f t r).sst.retention = t.sst.retention) (l : List α) (s : State) :
    (l.foldl f s).sst.retention = s.sst.retention := by
  induction l generalizing s with
  | nil => rfl
  | cons a l ih => simp [ih, h]

@[simp] theorem foldl_fresh {α : Type} (f : State → α → State) (h : ∀ t r, (f t r).fresh = t.fresh) (l : List α) (s : State) :
    (l.foldl f s).fresh = s.fresh := by
  induction l generalizing s with
  | nil => rfl
  | cons a l ih => simp [ih, h]

@[simp] theorem foldl_sent {α : Type} (f : State → α → State) (h : ∀ t r, (f t r).sent = t.sent) (l : List α) (s : State) :
    (l.foldl f s).sent = s.sent := by
  induction l generalizing s with
  | nil => rfl
  | cons a l ih => simp [ih, h]

/-! ### Operations of all blocks -/

@[simp] theorem State.mapSlot_frame (s : State) (k : Nat) (g : KeySlot → KeySlot) : (s.mapSlot k g).lif = s.lif ∧
    (s.mapSlot k g).cru = s.cru ∧ (s.mapSlot k g).btc = s.btc ∧ (s.mapSlot k g).kst.loads = s.kst.loads ∧
    (s.mapSlot k g).kst.hold = s.kst.hold ∧ (s.mapSlot k g).kst.reservation = s.kst.reservation ∧
    (s.mapSlot k g).rtb = s.rtb ∧ (s.mapSlot k g).dpu = s.dpu ∧ (s.mapSlot k g).rke = s.rke ∧
    (s.mapSlot k g).rsu = s.rsu ∧ (s.mapSlot k g).wpe = s.wpe ∧ (s.mapSlot k g).sst = s.sst ∧
    (s.mapSlot k g).fresh = s.fresh ∧ (s.mapSlot k g).sent = s.sent := by
  unfold State.mapSlot; (try dsimp only); (repeat' split) <;> first | (simp; done) | simp [apply_ite]

@[simp] theorem State.setLoad_frame (s : State) (r : Nat) (l : Load) : (s.setLoad r l).lif = s.lif ∧
    (s.setLoad r l).cru = s.cru ∧ (s.setLoad r l).btc = s.btc ∧ (s.setLoad r l).kst.slots = s.kst.slots ∧
    (s.setLoad r l).kst.hold = s.kst.hold ∧ (s.setLoad r l).kst.reservation = s.kst.reservation ∧
    (s.setLoad r l).rtb = s.rtb ∧ (s.setLoad r l).dpu = s.dpu ∧ (s.setLoad r l).rke = s.rke ∧
    (s.setLoad r l).rsu = s.rsu ∧ (s.setLoad r l).wpe = s.wpe ∧ (s.setLoad r l).sst = s.sst ∧
    (s.setLoad r l).fresh = s.fresh ∧ (s.setLoad r l).sent = s.sent := by
  unfold State.setLoad; (try dsimp only); (repeat' split) <;> first | (simp; done) | simp [apply_ite]

@[simp] theorem State.mapCred_frame (s : State) (i : Nat) (g : CredSlot → CredSlot) : (s.mapCred i g).lif = s.lif ∧
    (s.mapCred i g).cru.challenges = s.cru.challenges ∧ (s.mapCred i g).cru.ops = s.cru.ops ∧
    (s.mapCred i g).btc = s.btc ∧ (s.mapCred i g).kst = s.kst ∧ (s.mapCred i g).rtb = s.rtb ∧
    (s.mapCred i g).dpu = s.dpu ∧ (s.mapCred i g).rke = s.rke ∧ (s.mapCred i g).rsu = s.rsu ∧
    (s.mapCred i g).wpe = s.wpe ∧ (s.mapCred i g).sst = s.sst ∧ (s.mapCred i g).fresh = s.fresh ∧
    (s.mapCred i g).sent = s.sent := by
  unfold State.mapCred; (try dsimp only); (repeat' split) <;> first | (simp; done) | simp [apply_ite]

@[simp] theorem State.setEntry_frame (s : State) (r : Nat) (e : Entry) : (s.setEntry r e).lif = s.lif ∧
    (s.setEntry r e).cru = s.cru ∧ (s.setEntry r e).btc = s.btc ∧ (s.setEntry r e).kst = s.kst ∧
    (s.setEntry r e).rtb.resealOnWake = s.rtb.resealOnWake ∧ (s.setEntry r e).rtb.staged = s.rtb.staged ∧
    (s.setEntry r e).rtb.commit = s.rtb.commit ∧ (s.setEntry r e).rtb.preparing = s.rtb.preparing ∧
    (s.setEntry r e).rtb.startCommit = s.rtb.startCommit ∧ (s.setEntry r e).dpu = s.dpu ∧
    (s.setEntry r e).rke = s.rke ∧ (s.setEntry r e).rsu = s.rsu ∧ (s.setEntry r e).wpe = s.wpe ∧
    (s.setEntry r e).sst = s.sst ∧ (s.setEntry r e).fresh = s.fresh ∧ (s.setEntry r e).sent = s.sent := by
  unfold State.setEntry; (try dsimp only); (repeat' split) <;> first | (simp; done) | simp [apply_ite]

@[simp] theorem State.mapFields_frame (s : State) (r : Nat) (g : RangeFields → RangeFields) :
    (s.mapFields r g).lif = s.lif ∧ (s.mapFields r g).cru = s.cru ∧ (s.mapFields r g).btc = s.btc ∧
    (s.mapFields r g).kst = s.kst ∧ (s.mapFields r g).rtb.resealOnWake = s.rtb.resealOnWake ∧
    (s.mapFields r g).rtb.staged = s.rtb.staged ∧ (s.mapFields r g).rtb.commit = s.rtb.commit ∧
    (s.mapFields r g).rtb.preparing = s.rtb.preparing ∧ (s.mapFields r g).rtb.startCommit = s.rtb.startCommit ∧
    (s.mapFields r g).dpu = s.dpu ∧ (s.mapFields r g).rke = s.rke ∧ (s.mapFields r g).rsu = s.rsu ∧
    (s.mapFields r g).wpe = s.wpe ∧ (s.mapFields r g).sst = s.sst ∧ (s.mapFields r g).fresh = s.fresh ∧
    (s.mapFields r g).sent = s.sent := by
  unfold State.mapFields; (try dsimp only); (repeat' split) <;> first | (simp; done) | simp [apply_ite]

@[simp] theorem State.setCtx_frame (s : State) (c : Nat) (x : Context) : (s.setCtx c x).lif = s.lif ∧
    (s.setCtx c x).cru = s.cru ∧ (s.setCtx c x).btc = s.btc ∧ (s.setCtx c x).kst = s.kst ∧
    (s.setCtx c x).rtb = s.rtb ∧ (s.setCtx c x).rke = s.rke ∧ (s.setCtx c x).rsu = s.rsu ∧
    (s.setCtx c x).wpe = s.wpe ∧ (s.setCtx c x).sst = s.sst ∧ (s.setCtx c x).fresh = s.fresh ∧
    (s.setCtx c x).sent = s.sent := by
  unfold State.setCtx; (try dsimp only); (repeat' split) <;> first | (simp; done) | simp [apply_ite]

@[simp] theorem State.setChain_frame (s : State) (k : ChainKind) (c : Option Chain) : (s.setChain k c).lif = s.lif ∧
    (s.setChain k c).cru = s.cru ∧ (s.setChain k c).btc = s.btc ∧ (s.setChain k c).kst = s.kst ∧
    (s.setChain k c).rtb = s.rtb ∧ (s.setChain k c).dpu = s.dpu ∧ (s.setChain k c).rke = s.rke ∧
    (s.setChain k c).rsu = s.rsu ∧ (s.setChain k c).sst = s.sst ∧ (s.setChain k c).fresh = s.fresh ∧
    (s.setChain k c).sent = s.sent := by
  unfold State.setChain; (try dsimp only); (repeat' split) <;> first | (simp; done) | simp [apply_ite]

@[simp] theorem State.mapHead_frame (s : State) (g : Job → Job) : (s.mapHead g).lif = s.lif ∧
    (s.mapHead g).cru = s.cru ∧ (s.mapHead g).btc = s.btc ∧ (s.mapHead g).kst = s.kst ∧ (s.mapHead g).rtb = s.rtb ∧
    (s.mapHead g).dpu = s.dpu ∧ (s.mapHead g).rsu = s.rsu ∧ (s.mapHead g).wpe = s.wpe ∧ (s.mapHead g).sst = s.sst ∧
    (s.mapHead g).fresh = s.fresh ∧ (s.mapHead g).sent = s.sent := by
  unfold State.mapHead; (try dsimp only); (repeat' split) <;> first | (simp; done) | simp [apply_ite]

@[simp] theorem State.bump_frame (s : State) : s.bump.lif = s.lif ∧ s.bump.cru = s.cru ∧ s.bump.btc = s.btc ∧
    s.bump.kst = s.kst ∧ s.bump.rtb = s.rtb ∧ s.bump.dpu = s.dpu ∧ s.bump.rke = s.rke ∧ s.bump.rsu = s.rsu ∧
    s.bump.wpe = s.wpe ∧ s.bump.sst = s.sst ∧ s.bump.sent = s.sent := by
  unfold State.bump; (try dsimp only); (repeat' split) <;> first | (simp; done) | simp [apply_ite]

@[simp] theorem State.send_frame (s : State) (ch : Channel) (tag : Nat) (b : Body) : (s.send ch tag b).lif = s.lif ∧
    (s.send ch tag b).cru = s.cru ∧ (s.send ch tag b).btc = s.btc ∧ (s.send ch tag b).kst = s.kst ∧
    (s.send ch tag b).rtb = s.rtb ∧ (s.send ch tag b).dpu = s.dpu ∧ (s.send ch tag b).rke = s.rke ∧
    (s.send ch tag b).rsu = s.rsu ∧ (s.send ch tag b).wpe = s.wpe ∧ (s.send ch tag b).sst = s.sst ∧
    (s.send ch tag b).fresh = s.fresh := by
  unfold State.send; (try dsimp only); (repeat' split) <;> first | (simp; done) | simp [apply_ite]

@[simp] theorem State.freeTag_frame (s : State) (tag : Nat) : (s.freeTag tag).lif.started = s.lif.started ∧
    (s.freeTag tag).lif.mediaCredits = s.lif.mediaCredits ∧ (s.freeTag tag).lif.capacity = s.lif.capacity ∧
    (s.freeTag tag).lif.imageBase = s.lif.imageBase ∧ (s.freeTag tag).lif.scratchBase = s.lif.scratchBase ∧
    (s.freeTag tag).lif.limitData = s.lif.limitData ∧ (s.freeTag tag).lif.limitControl = s.lif.limitControl ∧
    (s.freeTag tag).lif.limitPlatform = s.lif.limitPlatform ∧ (s.freeTag tag).lif.outstanding = s.lif.outstanding ∧
    (s.freeTag tag).lif.freeCredits = s.lif.freeCredits ∧ (s.freeTag tag).lif.nextTag = s.lif.nextTag ∧
    (s.freeTag tag).lif.erroredBursts = s.lif.erroredBursts ∧ (s.freeTag tag).lif.burstTaken = s.lif.burstTaken ∧
    (s.freeTag tag).lif.burstErrored = s.lif.burstErrored ∧ (s.freeTag tag).lif.burstDropped = s.lif.burstDropped ∧
    (s.freeTag tag).lif.session = s.lif.session ∧ (s.freeTag tag).cru = s.cru ∧ (s.freeTag tag).btc = s.btc ∧
    (s.freeTag tag).kst = s.kst ∧ (s.freeTag tag).rtb = s.rtb ∧ (s.freeTag tag).dpu = s.dpu ∧
    (s.freeTag tag).rke = s.rke ∧ (s.freeTag tag).rsu = s.rsu ∧ (s.freeTag tag).wpe = s.wpe ∧
    (s.freeTag tag).sst = s.sst ∧ (s.freeTag tag).fresh = s.fresh ∧ (s.freeTag tag).sent = s.sent := by
  unfold State.freeTag; (try dsimp only); (repeat' split) <;> first | (simp; done) | simp [apply_ite]

@[simp] theorem State.interim_frame (s : State) (rto : ReplyTo) (b : Body) : (s.interim rto b).lif = s.lif ∧
    (s.interim rto b).cru = s.cru ∧ (s.interim rto b).btc = s.btc ∧ (s.interim rto b).kst = s.kst ∧
    (s.interim rto b).rtb = s.rtb ∧ (s.interim rto b).dpu = s.dpu ∧ (s.interim rto b).rke = s.rke ∧
    (s.interim rto b).rsu = s.rsu ∧ (s.interim rto b).wpe = s.wpe ∧ (s.interim rto b).sst = s.sst ∧
    (s.interim rto b).fresh = s.fresh := by
  unfold State.interim; (try dsimp only); (repeat' split) <;> first | (simp; done) | simp [apply_ite]

@[simp] theorem State.answer_frame (s : State) (rto : ReplyTo) (b : Body) :
    (s.answer rto b).lif.started = s.lif.started ∧ (s.answer rto b).lif.mediaCredits = s.lif.mediaCredits ∧
    (s.answer rto b).lif.capacity = s.lif.capacity ∧ (s.answer rto b).lif.imageBase = s.lif.imageBase ∧
    (s.answer rto b).lif.scratchBase = s.lif.scratchBase ∧ (s.answer rto b).lif.limitData = s.lif.limitData ∧
    (s.answer rto b).lif.limitControl = s.lif.limitControl ∧
    (s.answer rto b).lif.limitPlatform = s.lif.limitPlatform ∧ (s.answer rto b).lif.outstanding = s.lif.outstanding ∧
    (s.answer rto b).lif.freeCredits = s.lif.freeCredits ∧ (s.answer rto b).lif.nextTag = s.lif.nextTag ∧
    (s.answer rto b).lif.erroredBursts = s.lif.erroredBursts ∧ (s.answer rto b).lif.burstTaken = s.lif.burstTaken ∧
    (s.answer rto b).lif.burstErrored = s.lif.burstErrored ∧ (s.answer rto b).lif.burstDropped = s.lif.burstDropped ∧
    (s.answer rto b).lif.session = s.lif.session ∧ (s.answer rto b).cru = s.cru ∧ (s.answer rto b).btc = s.btc ∧
    (s.answer rto b).kst = s.kst ∧ (s.answer rto b).rtb = s.rtb ∧ (s.answer rto b).dpu = s.dpu ∧
    (s.answer rto b).rke = s.rke ∧ (s.answer rto b).rsu = s.rsu ∧ (s.answer rto b).wpe = s.wpe ∧
    (s.answer rto b).sst = s.sst ∧ (s.answer rto b).fresh = s.fresh := by
  unfold State.answer; (try dsimp only); (repeat' split) <;> first | (simp; done) | simp [apply_ite]

@[simp] theorem State.refuse_frame (s : State) (rto : ReplyTo) (st : Status) (detail : List Nat) :
    (s.refuse rto st detail).lif.started = s.lif.started ∧
    (s.refuse rto st detail).lif.mediaCredits = s.lif.mediaCredits ∧
    (s.refuse rto st detail).lif.capacity = s.lif.capacity ∧
    (s.refuse rto st detail).lif.imageBase = s.lif.imageBase ∧
    (s.refuse rto st detail).lif.scratchBase = s.lif.scratchBase ∧
    (s.refuse rto st detail).lif.limitData = s.lif.limitData ∧
    (s.refuse rto st detail).lif.limitControl = s.lif.limitControl ∧
    (s.refuse rto st detail).lif.limitPlatform = s.lif.limitPlatform ∧
    (s.refuse rto st detail).lif.outstanding = s.lif.outstanding ∧
    (s.refuse rto st detail).lif.freeCredits = s.lif.freeCredits ∧
    (s.refuse rto st detail).lif.nextTag = s.lif.nextTag ∧
    (s.refuse rto st detail).lif.erroredBursts = s.lif.erroredBursts ∧
    (s.refuse rto st detail).lif.burstTaken = s.lif.burstTaken ∧
    (s.refuse rto st detail).lif.burstErrored = s.lif.burstErrored ∧
    (s.refuse rto st detail).lif.burstDropped = s.lif.burstDropped ∧
    (s.refuse rto st detail).lif.session = s.lif.session ∧ (s.refuse rto st detail).cru = s.cru ∧
    (s.refuse rto st detail).btc = s.btc ∧ (s.refuse rto st detail).kst = s.kst ∧
    (s.refuse rto st detail).rtb = s.rtb ∧ (s.refuse rto st detail).dpu = s.dpu ∧
    (s.refuse rto st detail).rke = s.rke ∧ (s.refuse rto st detail).rsu = s.rsu ∧
    (s.refuse rto st detail).wpe = s.wpe ∧ (s.refuse rto st detail).sst = s.sst ∧
    (s.refuse rto st detail).fresh = s.fresh := by
  unfold State.refuse; (try dsimp only); (repeat' split) <;> first | (simp; done) | simp [apply_ite]

@[simp] theorem State.notice_frame (s : State) (b : Body) : (s.notice b).lif = s.lif ∧ (s.notice b).cru = s.cru ∧
    (s.notice b).btc = s.btc ∧ (s.notice b).kst = s.kst ∧ (s.notice b).rtb = s.rtb ∧ (s.notice b).dpu = s.dpu ∧
    (s.notice b).rke = s.rke ∧ (s.notice b).rsu = s.rsu ∧ (s.notice b).wpe = s.wpe ∧ (s.notice b).sst = s.sst ∧
    (s.notice b).fresh = s.fresh := by
  unfold State.notice; (try dsimp only); (repeat' split) <;> first | (simp; done) | simp [apply_ite]

@[simp] theorem State.answerLong_frame (s : State) (rto : ReplyTo) (bytes : Nat) (b : Body) :
    (s.answerLong rto bytes b).lif.started = s.lif.started ∧
    (s.answerLong rto bytes b).lif.mediaCredits = s.lif.mediaCredits ∧
    (s.answerLong rto bytes b).lif.capacity = s.lif.capacity ∧
    (s.answerLong rto bytes b).lif.imageBase = s.lif.imageBase ∧
    (s.answerLong rto bytes b).lif.scratchBase = s.lif.scratchBase ∧
    (s.answerLong rto bytes b).lif.limitData = s.lif.limitData ∧
    (s.answerLong rto bytes b).lif.limitControl = s.lif.limitControl ∧
    (s.answerLong rto bytes b).lif.limitPlatform = s.lif.limitPlatform ∧
    (s.answerLong rto bytes b).lif.outstanding = s.lif.outstanding ∧
    (s.answerLong rto bytes b).lif.freeCredits = s.lif.freeCredits ∧
    (s.answerLong rto bytes b).lif.nextTag = s.lif.nextTag ∧
    (s.answerLong rto bytes b).lif.erroredBursts = s.lif.erroredBursts ∧
    (s.answerLong rto bytes b).lif.burstTaken = s.lif.burstTaken ∧
    (s.answerLong rto bytes b).lif.burstErrored = s.lif.burstErrored ∧
    (s.answerLong rto bytes b).lif.burstDropped = s.lif.burstDropped ∧
    (s.answerLong rto bytes b).lif.session = s.lif.session ∧ (s.answerLong rto bytes b).cru = s.cru ∧
    (s.answerLong rto bytes b).btc = s.btc ∧ (s.answerLong rto bytes b).kst = s.kst ∧
    (s.answerLong rto bytes b).rtb = s.rtb ∧ (s.answerLong rto bytes b).dpu = s.dpu ∧
    (s.answerLong rto bytes b).rke = s.rke ∧ (s.answerLong rto bytes b).rsu = s.rsu ∧
    (s.answerLong rto bytes b).wpe = s.wpe ∧ (s.answerLong rto bytes b).sst = s.sst ∧
    (s.answerLong rto bytes b).fresh = s.fresh := by
  unfold State.answerLong; (try dsimp only); (repeat' split) <;> first | (simp; done) | simp [apply_ite]

@[simp] theorem State.place_frame (s : State) (u : StoreUnit) (c : Record) (ws : List Waiter) :
    (s.place u c ws).lif = s.lif ∧ (s.place u c ws).cru = s.cru ∧ (s.place u c ws).btc = s.btc ∧
    (s.place u c ws).kst = s.kst ∧ (s.place u c ws).rtb = s.rtb ∧ (s.place u c ws).dpu = s.dpu ∧
    (s.place u c ws).rke = s.rke ∧ (s.place u c ws).rsu = s.rsu ∧ (s.place u c ws).wpe = s.wpe ∧
    (s.place u c ws).sst.units = s.sst.units ∧ (s.place u c ws).sst.labelCopy = s.sst.labelCopy ∧
    (s.place u c ws).sst.marks = s.sst.marks ∧ (s.place u c ws).sst.serving = s.sst.serving ∧
    (s.place u c ws).sst.lastDevice = s.sst.lastDevice ∧ (s.place u c ws).sst.seconds = s.sst.seconds ∧
    (s.place u c ws).sst.power = s.sst.power ∧ (s.place u c ws).sst.drain = s.sst.drain ∧
    (s.place u c ws).sst.downMark = s.sst.downMark ∧ (s.place u c ws).sst.ready = s.sst.ready ∧
    (s.place u c ws).sst.retention = s.sst.retention ∧ (s.place u c ws).fresh = s.fresh ∧
    (s.place u c ws).sent = s.sent := by
  unfold State.place; (try dsimp only); (repeat' split) <;> first | (simp; done) | simp [apply_ite]

@[simp] theorem State.write_frame (s : State) (u : StoreUnit) (ws : List Waiter) : (s.write u ws).lif = s.lif ∧
    (s.write u ws).cru = s.cru ∧ (s.write u ws).btc = s.btc ∧ (s.write u ws).kst = s.kst ∧
    (s.write u ws).rtb = s.rtb ∧ (s.write u ws).dpu = s.dpu ∧ (s.write u ws).rke = s.rke ∧
    (s.write u ws).rsu = s.rsu ∧ (s.write u ws).wpe = s.wpe ∧ (s.write u ws).sst.units = s.sst.units ∧
    (s.write u ws).sst.labelCopy = s.sst.labelCopy ∧ (s.write u ws).sst.marks = s.sst.marks ∧
    (s.write u ws).sst.serving = s.sst.serving ∧ (s.write u ws).sst.lastDevice = s.sst.lastDevice ∧
    (s.write u ws).sst.seconds = s.sst.seconds ∧ (s.write u ws).sst.power = s.sst.power ∧
    (s.write u ws).sst.drain = s.sst.drain ∧ (s.write u ws).sst.downMark = s.sst.downMark ∧
    (s.write u ws).sst.ready = s.sst.ready ∧ (s.write u ws).sst.retention = s.sst.retention ∧
    (s.write u ws).fresh = s.fresh ∧ (s.write u ws).sent = s.sent := by
  unfold State.write; (try dsimp only); (repeat' split) <;> first | (simp; done) | simp [apply_ite]

@[simp] theorem State.writeAll_frame (s : State) (us : List StoreUnit) (w : Waiter) : (s.writeAll us w).lif = s.lif ∧
    (s.writeAll us w).cru = s.cru ∧ (s.writeAll us w).btc = s.btc ∧ (s.writeAll us w).kst = s.kst ∧
    (s.writeAll us w).rtb = s.rtb ∧ (s.writeAll us w).dpu = s.dpu ∧ (s.writeAll us w).rke = s.rke ∧
    (s.writeAll us w).rsu = s.rsu ∧ (s.writeAll us w).wpe = s.wpe ∧ (s.writeAll us w).sst.units = s.sst.units ∧
    (s.writeAll us w).sst.labelCopy = s.sst.labelCopy ∧ (s.writeAll us w).sst.marks = s.sst.marks ∧
    (s.writeAll us w).sst.serving = s.sst.serving ∧ (s.writeAll us w).sst.lastDevice = s.sst.lastDevice ∧
    (s.writeAll us w).sst.seconds = s.sst.seconds ∧ (s.writeAll us w).sst.power = s.sst.power ∧
    (s.writeAll us w).sst.drain = s.sst.drain ∧ (s.writeAll us w).sst.downMark = s.sst.downMark ∧
    (s.writeAll us w).sst.ready = s.sst.ready ∧ (s.writeAll us w).sst.retention = s.sst.retention ∧
    (s.writeAll us w).fresh = s.fresh ∧ (s.writeAll us w).sent = s.sent := by
  unfold State.writeAll; (try dsimp only); (repeat' split) <;> first | (simp; done) | simp [apply_ite]

@[simp] theorem State.writeDevice_frame (s : State) (g : DeviceRecord → DeviceRecord) (ws : List Waiter) :
    (s.writeDevice g ws).lif = s.lif ∧ (s.writeDevice g ws).cru = s.cru ∧ (s.writeDevice g ws).btc = s.btc ∧
    (s.writeDevice g ws).kst = s.kst ∧ (s.writeDevice g ws).rtb = s.rtb ∧ (s.writeDevice g ws).dpu = s.dpu ∧
    (s.writeDevice g ws).rke = s.rke ∧ (s.writeDevice g ws).rsu = s.rsu ∧ (s.writeDevice g ws).wpe = s.wpe ∧
    (s.writeDevice g ws).sst.units = s.sst.units ∧ (s.writeDevice g ws).sst.labelCopy = s.sst.labelCopy ∧
    (s.writeDevice g ws).sst.marks = s.sst.marks ∧ (s.writeDevice g ws).sst.serving = s.sst.serving ∧
    (s.writeDevice g ws).sst.seconds = s.sst.seconds ∧ (s.writeDevice g ws).sst.power = s.sst.power ∧
    (s.writeDevice g ws).sst.drain = s.sst.drain ∧ (s.writeDevice g ws).sst.downMark = s.sst.downMark ∧
    (s.writeDevice g ws).sst.ready = s.sst.ready ∧ (s.writeDevice g ws).sst.retention = s.sst.retention ∧
    (s.writeDevice g ws).fresh = s.fresh ∧ (s.writeDevice g ws).sent = s.sent := by
  unfold State.writeDevice; (try dsimp only); (repeat' split) <;> first | (simp; done) | simp [apply_ite]

@[simp] theorem State.serve_frame (s : State) : s.serve.lif = s.lif ∧ s.serve.cru = s.cru ∧ s.serve.btc = s.btc ∧
    s.serve.kst = s.kst ∧ s.serve.rtb = s.rtb ∧ s.serve.dpu = s.dpu ∧ s.serve.rke = s.rke ∧ s.serve.rsu = s.rsu ∧
    s.serve.wpe = s.wpe ∧ s.serve.sst.units = s.sst.units ∧ s.serve.sst.labelCopy = s.sst.labelCopy ∧
    s.serve.sst.marks = s.sst.marks ∧ s.serve.sst.lastDevice = s.sst.lastDevice ∧
    s.serve.sst.seconds = s.sst.seconds ∧ s.serve.sst.power = s.sst.power ∧ s.serve.sst.drain = s.sst.drain ∧
    s.serve.sst.downMark = s.sst.downMark ∧ s.serve.sst.ready = s.sst.ready ∧
    s.serve.sst.retention = s.sst.retention ∧ s.serve.fresh = s.fresh ∧ s.serve.sent = s.sent := by
  unfold State.serve; (try dsimp only); (repeat' split) <;> first | (simp; done) | simp [apply_ite]

@[simp] theorem State.writeQueuePart_frame (s : State) (ws : List Waiter) : (s.writeQueuePart ws).lif = s.lif ∧
    (s.writeQueuePart ws).cru = s.cru ∧ (s.writeQueuePart ws).btc = s.btc ∧ (s.writeQueuePart ws).kst = s.kst ∧
    (s.writeQueuePart ws).rtb = s.rtb ∧ (s.writeQueuePart ws).dpu = s.dpu ∧ (s.writeQueuePart ws).rsu = s.rsu ∧
    (s.writeQueuePart ws).wpe = s.wpe ∧ (s.writeQueuePart ws).sst.units = s.sst.units ∧
    (s.writeQueuePart ws).sst.labelCopy = s.sst.labelCopy ∧ (s.writeQueuePart ws).sst.marks = s.sst.marks ∧
    (s.writeQueuePart ws).sst.serving = s.sst.serving ∧ (s.writeQueuePart ws).sst.lastDevice = s.sst.lastDevice ∧
    (s.writeQueuePart ws).sst.seconds = s.sst.seconds ∧ (s.writeQueuePart ws).sst.power = s.sst.power ∧
    (s.writeQueuePart ws).sst.drain = s.sst.drain ∧ (s.writeQueuePart ws).sst.downMark = s.sst.downMark ∧
    (s.writeQueuePart ws).sst.ready = s.sst.ready ∧ (s.writeQueuePart ws).sst.retention = s.sst.retention ∧
    (s.writeQueuePart ws).fresh = s.fresh ∧ (s.writeQueuePart ws).sent = s.sent := by
  unfold State.writeQueuePart; (try dsimp only); (repeat' split) <;> first | (simp; done) | simp [apply_ite]

@[simp] theorem State.writeProgressPart_frame (s : State) (ws : List Waiter) : (s.writeProgressPart ws).lif = s.lif ∧
    (s.writeProgressPart ws).cru = s.cru ∧ (s.writeProgressPart ws).btc = s.btc ∧
    (s.writeProgressPart ws).kst = s.kst ∧ (s.writeProgressPart ws).rtb = s.rtb ∧
    (s.writeProgressPart ws).dpu = s.dpu ∧ (s.writeProgressPart ws).rsu = s.rsu ∧
    (s.writeProgressPart ws).wpe = s.wpe ∧ (s.writeProgressPart ws).sst.units = s.sst.units ∧
    (s.writeProgressPart ws).sst.labelCopy = s.sst.labelCopy ∧ (s.writeProgressPart ws).sst.marks = s.sst.marks ∧
    (s.writeProgressPart ws).sst.serving = s.sst.serving ∧
    (s.writeProgressPart ws).sst.lastDevice = s.sst.lastDevice ∧
    (s.writeProgressPart ws).sst.seconds = s.sst.seconds ∧ (s.writeProgressPart ws).sst.power = s.sst.power ∧
    (s.writeProgressPart ws).sst.drain = s.sst.drain ∧ (s.writeProgressPart ws).sst.downMark = s.sst.downMark ∧
    (s.writeProgressPart ws).sst.ready = s.sst.ready ∧ (s.writeProgressPart ws).sst.retention = s.sst.retention ∧
    (s.writeProgressPart ws).fresh = s.fresh ∧ (s.writeProgressPart ws).sent = s.sent := by
  unfold State.writeProgressPart; (try dsimp only); (repeat' split) <;> first | (simp; done) | simp [apply_ite]

@[simp] theorem State.flushParts_frame (s : State) : s.flushParts.lif = s.lif ∧ s.flushParts.cru = s.cru ∧
    s.flushParts.btc = s.btc ∧ s.flushParts.kst = s.kst ∧ s.flushParts.rtb = s.rtb ∧ s.flushParts.dpu = s.dpu ∧
    s.flushParts.rsu = s.rsu ∧ s.flushParts.wpe = s.wpe ∧ s.flushParts.sst.units = s.sst.units ∧
    s.flushParts.sst.labelCopy = s.sst.labelCopy ∧ s.flushParts.sst.marks = s.sst.marks ∧
    s.flushParts.sst.serving = s.sst.serving ∧ s.flushParts.sst.lastDevice = s.sst.lastDevice ∧
    s.flushParts.sst.seconds = s.sst.seconds ∧ s.flushParts.sst.power = s.sst.power ∧
    s.flushParts.sst.drain = s.sst.drain ∧ s.flushParts.sst.downMark = s.sst.downMark ∧
    s.flushParts.sst.ready = s.sst.ready ∧ s.flushParts.sst.retention = s.sst.retention ∧
    s.flushParts.fresh = s.fresh ∧ s.flushParts.sent = s.sent := by
  unfold State.flushParts; (try dsimp only); (repeat' split) <;> first | (simp; done) | simp [apply_ite]

/-! ### Operations of the Key Store -/

@[simp] theorem State.settleSlot_frame (s : State) (k : Nat) : (s.settleSlot k).lif = s.lif ∧
    (s.settleSlot k).cru = s.cru ∧ (s.settleSlot k).btc = s.btc ∧ (s.settleSlot k).kst.loads = s.kst.loads ∧
    (s.settleSlot k).kst.hold = s.kst.hold ∧ (s.settleSlot k).kst.reservation = s.kst.reservation ∧
    (s.settleSlot k).rtb = s.rtb ∧ (s.settleSlot k).dpu = s.dpu ∧ (s.settleSlot k).rke = s.rke ∧
    (s.settleSlot k).rsu = s.rsu ∧ (s.settleSlot k).wpe = s.wpe ∧ (s.settleSlot k).sst.units = s.sst.units ∧
    (s.settleSlot k).sst.labelCopy = s.sst.labelCopy ∧ (s.settleSlot k).sst.marks = s.sst.marks ∧
    (s.settleSlot k).sst.serving = s.sst.serving ∧ (s.settleSlot k).sst.lastDevice = s.sst.lastDevice ∧
    (s.settleSlot k).sst.seconds = s.sst.seconds ∧ (s.settleSlot k).sst.power = s.sst.power ∧
    (s.settleSlot k).sst.drain = s.sst.drain ∧ (s.settleSlot k).sst.downMark = s.sst.downMark ∧
    (s.settleSlot k).sst.ready = s.sst.ready ∧ (s.settleSlot k).sst.retention = s.sst.retention ∧
    (s.settleSlot k).fresh = s.fresh ∧ (s.settleSlot k).sent = s.sent := by
  unfold State.settleSlot; (try dsimp only); (repeat' split) <;> first | (simp; done) | simp [apply_ite]

@[simp] theorem State.dropRange_frame (s : State) (r : Nat) : (s.dropRange r).lif = s.lif ∧
    (s.dropRange r).cru = s.cru ∧ (s.dropRange r).btc = s.btc ∧ (s.dropRange r).kst.hold = s.kst.hold ∧
    (s.dropRange r).kst.reservation = s.kst.reservation ∧ (s.dropRange r).rtb = s.rtb ∧ (s.dropRange r).dpu = s.dpu ∧
    (s.dropRange r).rke = s.rke ∧ (s.dropRange r).rsu = s.rsu ∧ (s.dropRange r).wpe = s.wpe ∧
    (s.dropRange r).sst = s.sst ∧ (s.dropRange r).fresh = s.fresh ∧ (s.dropRange r).sent = s.sent := by
  unfold State.dropRange; (try dsimp only); (repeat' split) <;> first | (simp; done) | simp [apply_ite]

@[simp] theorem State.settleRange_frame (s : State) (r : Nat) : (s.settleRange r).lif = s.lif ∧
    (s.settleRange r).cru = s.cru ∧ (s.settleRange r).btc = s.btc ∧ (s.settleRange r).kst.hold = s.kst.hold ∧
    (s.settleRange r).kst.reservation = s.kst.reservation ∧ (s.settleRange r).rtb = s.rtb ∧
    (s.settleRange r).dpu = s.dpu ∧ (s.settleRange r).rke = s.rke ∧ (s.settleRange r).rsu = s.rsu ∧
    (s.settleRange r).wpe = s.wpe ∧ (s.settleRange r).sst = s.sst ∧ (s.settleRange r).fresh = s.fresh ∧
    (s.settleRange r).sent = s.sent := by
  unfold State.settleRange; (try dsimp only); (repeat' split) <;> first | (simp; done) | simp [apply_ite]

@[simp] theorem State.unload_frame (s : State) (r : Nat) : (s.unload r).lif = s.lif ∧ (s.unload r).cru = s.cru ∧
    (s.unload r).btc = s.btc ∧ (s.unload r).kst.hold = s.kst.hold ∧ (s.unload r).kst.reservation = s.kst.reservation ∧
    (s.unload r).rtb = s.rtb ∧ (s.unload r).dpu = s.dpu ∧ (s.unload r).rke = s.rke ∧ (s.unload r).rsu = s.rsu ∧
    (s.unload r).wpe = s.wpe ∧ (s.unload r).sst = s.sst ∧ (s.unload r).fresh = s.fresh ∧
    (s.unload r).sent = s.sent := by
  unfold State.unload; (try dsimp only); (repeat' split) <;> first | (simp; done) | simp [apply_ite]

@[simp] theorem State.dropUser_frame (s : State) (k : Nat) : (s.dropUser k).lif = s.lif ∧ (s.dropUser k).cru = s.cru ∧
    (s.dropUser k).btc = s.btc ∧ (s.dropUser k).kst.hold = s.kst.hold ∧
    (s.dropUser k).kst.reservation = s.kst.reservation ∧ (s.dropUser k).rtb = s.rtb ∧ (s.dropUser k).dpu = s.dpu ∧
    (s.dropUser k).rke = s.rke ∧ (s.dropUser k).rsu = s.rsu ∧ (s.dropUser k).wpe = s.wpe ∧
    (s.dropUser k).sst.units = s.sst.units ∧ (s.dropUser k).sst.labelCopy = s.sst.labelCopy ∧
    (s.dropUser k).sst.marks = s.sst.marks ∧ (s.dropUser k).sst.serving = s.sst.serving ∧
    (s.dropUser k).sst.lastDevice = s.sst.lastDevice ∧ (s.dropUser k).sst.seconds = s.sst.seconds ∧
    (s.dropUser k).sst.power = s.sst.power ∧ (s.dropUser k).sst.drain = s.sst.drain ∧
    (s.dropUser k).sst.downMark = s.sst.downMark ∧ (s.dropUser k).sst.ready = s.sst.ready ∧
    (s.dropUser k).sst.retention = s.sst.retention ∧ (s.dropUser k).fresh = s.fresh ∧
    (s.dropUser k).sent = s.sent := by
  unfold State.dropUser; (try dsimp only); (repeat' split) <;> first | (simp; done) | simp [apply_ite]

@[simp] theorem State.addUser_frame (s : State) (k : Nat) : (s.addUser k).lif = s.lif ∧ (s.addUser k).cru = s.cru ∧
    (s.addUser k).btc = s.btc ∧ (s.addUser k).kst.loads = s.kst.loads ∧ (s.addUser k).kst.hold = s.kst.hold ∧
    (s.addUser k).kst.reservation = s.kst.reservation ∧ (s.addUser k).rtb = s.rtb ∧ (s.addUser k).dpu = s.dpu ∧
    (s.addUser k).rke = s.rke ∧ (s.addUser k).rsu = s.rsu ∧ (s.addUser k).wpe = s.wpe ∧ (s.addUser k).sst = s.sst ∧
    (s.addUser k).fresh = s.fresh ∧ (s.addUser k).sent = s.sent := by
  unfold State.addUser; (try dsimp only); (repeat' split) <;> first | (simp; done) | simp [apply_ite]

@[simp] theorem State.retire_frame (s : State) (k : Nat) : (s.retire k).lif = s.lif ∧ (s.retire k).cru = s.cru ∧
    (s.retire k).btc = s.btc ∧ (s.retire k).kst.loads = s.kst.loads ∧ (s.retire k).kst.hold = s.kst.hold ∧
    (s.retire k).kst.reservation = s.kst.reservation ∧ (s.retire k).rtb = s.rtb ∧ (s.retire k).dpu = s.dpu ∧
    (s.retire k).rke = s.rke ∧ (s.retire k).rsu = s.rsu ∧ (s.retire k).wpe = s.wpe ∧
    (s.retire k).sst.units = s.sst.units ∧ (s.retire k).sst.labelCopy = s.sst.labelCopy ∧
    (s.retire k).sst.marks = s.sst.marks ∧ (s.retire k).sst.serving = s.sst.serving ∧
    (s.retire k).sst.lastDevice = s.sst.lastDevice ∧ (s.retire k).sst.seconds = s.sst.seconds ∧
    (s.retire k).sst.power = s.sst.power ∧ (s.retire k).sst.drain = s.sst.drain ∧
    (s.retire k).sst.downMark = s.sst.downMark ∧ (s.retire k).sst.ready = s.sst.ready ∧
    (s.retire k).sst.retention = s.sst.retention ∧ (s.retire k).fresh = s.fresh ∧ (s.retire k).sent = s.sent := by
  unfold State.retire; (try dsimp only); (repeat' split) <;> first | (simp; done) | simp [apply_ite]

@[simp] theorem State.loseKey_frame (s : State) (r : Nat) : (s.loseKey r).lif = s.lif ∧ (s.loseKey r).cru = s.cru ∧
    (s.loseKey r).btc = s.btc ∧ (s.loseKey r).kst = s.kst ∧ (s.loseKey r).rtb.resealOnWake = s.rtb.resealOnWake ∧
    (s.loseKey r).rtb.staged = s.rtb.staged ∧ (s.loseKey r).rtb.commit = s.rtb.commit ∧
    (s.loseKey r).rtb.preparing = s.rtb.preparing ∧ (s.loseKey r).rtb.startCommit = s.rtb.startCommit ∧
    (s.loseKey r).dpu = s.dpu ∧ (s.loseKey r).rke = s.rke ∧ (s.loseKey r).rsu = s.rsu ∧ (s.loseKey r).wpe = s.wpe ∧
    (s.loseKey r).sst.units = s.sst.units ∧ (s.loseKey r).sst.labelCopy = s.sst.labelCopy ∧
    (s.loseKey r).sst.marks = s.sst.marks ∧ (s.loseKey r).sst.serving = s.sst.serving ∧
    (s.loseKey r).sst.lastDevice = s.sst.lastDevice ∧ (s.loseKey r).sst.seconds = s.sst.seconds ∧
    (s.loseKey r).sst.power = s.sst.power ∧ (s.loseKey r).sst.drain = s.sst.drain ∧
    (s.loseKey r).sst.downMark = s.sst.downMark ∧ (s.loseKey r).sst.ready = s.sst.ready ∧
    (s.loseKey r).sst.retention = s.sst.retention ∧ (s.loseKey r).fresh = s.fresh ∧ (s.loseKey r).sent = s.sent := by
  unfold State.loseKey; (try dsimp only); (repeat' split) <;> first | (simp; done) | simp [apply_ite]

@[simp] theorem State.generate_frame (s : State) (r : Nat) (rak : Rak) : (s.generate r rak).1.lif = s.lif ∧
    (s.generate r rak).1.cru = s.cru ∧ (s.generate r rak).1.btc = s.btc ∧
    (s.generate r rak).1.kst.loads = s.kst.loads ∧ (s.generate r rak).1.kst.hold = s.kst.hold ∧
    (s.generate r rak).1.kst.reservation = s.kst.reservation ∧ (s.generate r rak).1.rtb = s.rtb ∧
    (s.generate r rak).1.dpu = s.dpu ∧ (s.generate r rak).1.rke = s.rke ∧ (s.generate r rak).1.rsu = s.rsu ∧
    (s.generate r rak).1.wpe = s.wpe ∧ (s.generate r rak).1.sst = s.sst ∧ (s.generate r rak).1.sent = s.sent := by
  unfold State.generate; (try dsimp only); (repeat' split) <;> first | (simp; done) | simp [apply_ite]

@[simp] theorem State.newRak_frame (s : State) : (s.newRak).1.lif = s.lif ∧ (s.newRak).1.cru = s.cru ∧
    (s.newRak).1.btc = s.btc ∧ (s.newRak).1.kst = s.kst ∧ (s.newRak).1.rtb = s.rtb ∧ (s.newRak).1.dpu = s.dpu ∧
    (s.newRak).1.rke = s.rke ∧ (s.newRak).1.rsu = s.rsu ∧ (s.newRak).1.wpe = s.wpe ∧ (s.newRak).1.sst = s.sst ∧
    (s.newRak).1.sent = s.sent := by
  unfold State.newRak; (try dsimp only); (repeat' split) <;> first | (simp; done) | simp [apply_ite]

@[simp] theorem State.takeHold_frame (s : State) (r : Nat) : (s.takeHold r).lif = s.lif ∧ (s.takeHold r).cru = s.cru ∧
    (s.takeHold r).btc = s.btc ∧ (s.takeHold r).kst.loads = s.kst.loads ∧
    (s.takeHold r).kst.reservation = s.kst.reservation ∧ (s.takeHold r).rtb = s.rtb ∧ (s.takeHold r).dpu = s.dpu ∧
    (s.takeHold r).rke = s.rke ∧ (s.takeHold r).rsu = s.rsu ∧ (s.takeHold r).wpe = s.wpe ∧
    (s.takeHold r).sst = s.sst ∧ (s.takeHold r).fresh = s.fresh ∧ (s.takeHold r).sent = s.sent := by
  unfold State.takeHold; (try dsimp only); (repeat' split) <;> first | (simp; done) | simp [apply_ite]

@[simp] theorem State.releaseHold_frame (s : State) : s.releaseHold.lif = s.lif ∧ s.releaseHold.cru = s.cru ∧
    s.releaseHold.btc = s.btc ∧ s.releaseHold.kst.reservation = s.kst.reservation ∧ s.releaseHold.rtb = s.rtb ∧
    s.releaseHold.dpu = s.dpu ∧ s.releaseHold.rke = s.rke ∧ s.releaseHold.rsu = s.rsu ∧ s.releaseHold.wpe = s.wpe ∧
    s.releaseHold.sst.units = s.sst.units ∧ s.releaseHold.sst.labelCopy = s.sst.labelCopy ∧
    s.releaseHold.sst.marks = s.sst.marks ∧ s.releaseHold.sst.serving = s.sst.serving ∧
    s.releaseHold.sst.lastDevice = s.sst.lastDevice ∧ s.releaseHold.sst.seconds = s.sst.seconds ∧
    s.releaseHold.sst.power = s.sst.power ∧ s.releaseHold.sst.drain = s.sst.drain ∧
    s.releaseHold.sst.downMark = s.sst.downMark ∧ s.releaseHold.sst.ready = s.sst.ready ∧
    s.releaseHold.sst.retention = s.sst.retention ∧ s.releaseHold.fresh = s.fresh ∧ s.releaseHold.sent = s.sent := by
  unfold State.releaseHold; (try dsimp only); (repeat' split) <;> first | (simp; done) | simp [apply_ite]

@[simp] theorem State.forcedUnload_frame (s : State) : s.forcedUnload.lif = s.lif ∧ s.forcedUnload.cru = s.cru ∧
    s.forcedUnload.btc = s.btc ∧ s.forcedUnload.kst.hold = s.kst.hold ∧
    s.forcedUnload.kst.reservation = s.kst.reservation ∧ s.forcedUnload.rtb = s.rtb ∧ s.forcedUnload.dpu = s.dpu ∧
    s.forcedUnload.rke = s.rke ∧ s.forcedUnload.rsu = s.rsu ∧ s.forcedUnload.wpe = s.wpe ∧
    s.forcedUnload.sst = s.sst ∧ s.forcedUnload.fresh = s.fresh ∧ s.forcedUnload.sent = s.sent := by
  unfold State.forcedUnload; (try dsimp only); (repeat' split) <;> first | (simp; done) | simp [apply_ite]

@[simp] theorem State.cutSlots_frame (s : State) : s.cutSlots.lif = s.lif ∧ s.cutSlots.cru = s.cru ∧
    s.cutSlots.btc = s.btc ∧ s.cutSlots.rtb = s.rtb ∧ s.cutSlots.dpu = s.dpu ∧ s.cutSlots.rke = s.rke ∧
    s.cutSlots.rsu = s.rsu ∧ s.cutSlots.wpe = s.wpe ∧ s.cutSlots.sst = s.sst ∧ s.cutSlots.fresh = s.fresh ∧
    s.cutSlots.sent = s.sent := by
  unfold State.cutSlots; (try dsimp only); (repeat' split) <;> first | (simp; done) | simp [apply_ite]

@[simp] theorem State.freeContext_frame (s : State) (c : Nat) : (s.freeContext c).lif = s.lif ∧
    (s.freeContext c).cru = s.cru ∧ (s.freeContext c).btc = s.btc ∧ (s.freeContext c).kst.hold = s.kst.hold ∧
    (s.freeContext c).kst.reservation = s.kst.reservation ∧ (s.freeContext c).rtb = s.rtb ∧
    (s.freeContext c).rke = s.rke ∧ (s.freeContext c).rsu = s.rsu ∧ (s.freeContext c).wpe = s.wpe ∧
    (s.freeContext c).sst.units = s.sst.units ∧ (s.freeContext c).sst.labelCopy = s.sst.labelCopy ∧
    (s.freeContext c).sst.marks = s.sst.marks ∧ (s.freeContext c).sst.serving = s.sst.serving ∧
    (s.freeContext c).sst.lastDevice = s.sst.lastDevice ∧ (s.freeContext c).sst.seconds = s.sst.seconds ∧
    (s.freeContext c).sst.power = s.sst.power ∧ (s.freeContext c).sst.drain = s.sst.drain ∧
    (s.freeContext c).sst.downMark = s.sst.downMark ∧ (s.freeContext c).sst.ready = s.sst.ready ∧
    (s.freeContext c).sst.retention = s.sst.retention ∧ (s.freeContext c).fresh = s.fresh ∧
    (s.freeContext c).sent = s.sent := by
  unfold State.freeContext; (try dsimp only); (repeat' split) <;> first | (simp; done) | simp [apply_ite]

@[simp] theorem State.lastWord_frame (s : State) (rto : ReplyTo) (b : Body) :
    (s.lastWord rto b).lif.started = s.lif.started ∧ (s.lastWord rto b).lif.mediaCredits = s.lif.mediaCredits ∧
    (s.lastWord rto b).lif.capacity = s.lif.capacity ∧ (s.lastWord rto b).lif.imageBase = s.lif.imageBase ∧
    (s.lastWord rto b).lif.scratchBase = s.lif.scratchBase ∧ (s.lastWord rto b).lif.limitData = s.lif.limitData ∧
    (s.lastWord rto b).lif.limitControl = s.lif.limitControl ∧
    (s.lastWord rto b).lif.limitPlatform = s.lif.limitPlatform ∧
    (s.lastWord rto b).lif.outstanding = s.lif.outstanding ∧ (s.lastWord rto b).lif.freeCredits = s.lif.freeCredits ∧
    (s.lastWord rto b).lif.nextTag = s.lif.nextTag ∧ (s.lastWord rto b).lif.erroredBursts = s.lif.erroredBursts ∧
    (s.lastWord rto b).lif.burstTaken = s.lif.burstTaken ∧ (s.lastWord rto b).lif.burstErrored = s.lif.burstErrored ∧
    (s.lastWord rto b).lif.burstDropped = s.lif.burstDropped ∧ (s.lastWord rto b).lif.session = s.lif.session ∧
    (s.lastWord rto b).cru = s.cru ∧ (s.lastWord rto b).btc = s.btc ∧ (s.lastWord rto b).kst = s.kst ∧
    (s.lastWord rto b).rtb = s.rtb ∧ (s.lastWord rto b).dpu = s.dpu ∧ (s.lastWord rto b).rke = s.rke ∧
    (s.lastWord rto b).rsu = s.rsu ∧ (s.lastWord rto b).wpe = s.wpe ∧ (s.lastWord rto b).sst = s.sst ∧
    (s.lastWord rto b).fresh = s.fresh := by
  unfold State.lastWord; (try dsimp only); (repeat' split) <;> first | (simp; done) | simp [apply_ite]

@[simp] theorem State.owe_frame (s : State) (c g : Nat) (rto : ReplyTo) (b : Body) :
    (s.owe c g rto b).lif.started = s.lif.started ∧ (s.owe c g rto b).lif.mediaCredits = s.lif.mediaCredits ∧
    (s.owe c g rto b).lif.capacity = s.lif.capacity ∧ (s.owe c g rto b).lif.imageBase = s.lif.imageBase ∧
    (s.owe c g rto b).lif.scratchBase = s.lif.scratchBase ∧ (s.owe c g rto b).lif.limitData = s.lif.limitData ∧
    (s.owe c g rto b).lif.limitControl = s.lif.limitControl ∧
    (s.owe c g rto b).lif.limitPlatform = s.lif.limitPlatform ∧
    (s.owe c g rto b).lif.outstanding = s.lif.outstanding ∧ (s.owe c g rto b).lif.freeCredits = s.lif.freeCredits ∧
    (s.owe c g rto b).lif.nextTag = s.lif.nextTag ∧ (s.owe c g rto b).lif.erroredBursts = s.lif.erroredBursts ∧
    (s.owe c g rto b).lif.burstTaken = s.lif.burstTaken ∧ (s.owe c g rto b).lif.burstErrored = s.lif.burstErrored ∧
    (s.owe c g rto b).lif.burstDropped = s.lif.burstDropped ∧ (s.owe c g rto b).lif.session = s.lif.session ∧
    (s.owe c g rto b).cru = s.cru ∧ (s.owe c g rto b).btc = s.btc ∧ (s.owe c g rto b).kst = s.kst ∧
    (s.owe c g rto b).rtb = s.rtb ∧ (s.owe c g rto b).rke = s.rke ∧ (s.owe c g rto b).rsu = s.rsu ∧
    (s.owe c g rto b).wpe = s.wpe ∧ (s.owe c g rto b).sst = s.sst ∧ (s.owe c g rto b).fresh = s.fresh := by
  unfold State.owe; (try dsimp only); (repeat' split) <;> first | (simp; done) | simp [apply_ite]

@[simp] theorem State.abort_frame (s : State) (cause : AbortCause) (c : Nat) :
    (s.abort cause c).lif.started = s.lif.started ∧ (s.abort cause c).lif.mediaCredits = s.lif.mediaCredits ∧
    (s.abort cause c).lif.capacity = s.lif.capacity ∧ (s.abort cause c).lif.imageBase = s.lif.imageBase ∧
    (s.abort cause c).lif.scratchBase = s.lif.scratchBase ∧ (s.abort cause c).lif.limitData = s.lif.limitData ∧
    (s.abort cause c).lif.limitControl = s.lif.limitControl ∧
    (s.abort cause c).lif.limitPlatform = s.lif.limitPlatform ∧
    (s.abort cause c).lif.outstanding = s.lif.outstanding ∧ (s.abort cause c).lif.freeCredits = s.lif.freeCredits ∧
    (s.abort cause c).lif.nextTag = s.lif.nextTag ∧ (s.abort cause c).lif.erroredBursts = s.lif.erroredBursts ∧
    (s.abort cause c).lif.burstTaken = s.lif.burstTaken ∧ (s.abort cause c).lif.burstErrored = s.lif.burstErrored ∧
    (s.abort cause c).lif.burstDropped = s.lif.burstDropped ∧ (s.abort cause c).lif.session = s.lif.session ∧
    (s.abort cause c).cru = s.cru ∧ (s.abort cause c).btc = s.btc ∧ (s.abort cause c).kst.hold = s.kst.hold ∧
    (s.abort cause c).kst.reservation = s.kst.reservation ∧ (s.abort cause c).rtb = s.rtb ∧
    (s.abort cause c).rke = s.rke ∧ (s.abort cause c).rsu = s.rsu ∧ (s.abort cause c).wpe = s.wpe ∧
    (s.abort cause c).sst.units = s.sst.units ∧ (s.abort cause c).sst.labelCopy = s.sst.labelCopy ∧
    (s.abort cause c).sst.marks = s.sst.marks ∧ (s.abort cause c).sst.serving = s.sst.serving ∧
    (s.abort cause c).sst.lastDevice = s.sst.lastDevice ∧ (s.abort cause c).sst.seconds = s.sst.seconds ∧
    (s.abort cause c).sst.power = s.sst.power ∧ (s.abort cause c).sst.drain = s.sst.drain ∧
    (s.abort cause c).sst.downMark = s.sst.downMark ∧ (s.abort cause c).sst.ready = s.sst.ready ∧
    (s.abort cause c).sst.retention = s.sst.retention ∧ (s.abort cause c).fresh = s.fresh := by
  unfold State.abort; (try dsimp only); (repeat' split) <;> first | (simp; done) | simp [apply_ite]

@[simp] theorem State.abortAll_frame (s : State) (cause : AbortCause) (p : OpenContext → Bool) :
    (s.abortAll cause p).lif.started = s.lif.started ∧ (s.abortAll cause p).lif.mediaCredits = s.lif.mediaCredits ∧
    (s.abortAll cause p).lif.capacity = s.lif.capacity ∧ (s.abortAll cause p).lif.imageBase = s.lif.imageBase ∧
    (s.abortAll cause p).lif.scratchBase = s.lif.scratchBase ∧ (s.abortAll cause p).lif.limitData = s.lif.limitData ∧
    (s.abortAll cause p).lif.limitControl = s.lif.limitControl ∧
    (s.abortAll cause p).lif.limitPlatform = s.lif.limitPlatform ∧
    (s.abortAll cause p).lif.outstanding = s.lif.outstanding ∧
    (s.abortAll cause p).lif.freeCredits = s.lif.freeCredits ∧ (s.abortAll cause p).lif.nextTag = s.lif.nextTag ∧
    (s.abortAll cause p).lif.erroredBursts = s.lif.erroredBursts ∧
    (s.abortAll cause p).lif.burstTaken = s.lif.burstTaken ∧
    (s.abortAll cause p).lif.burstErrored = s.lif.burstErrored ∧
    (s.abortAll cause p).lif.burstDropped = s.lif.burstDropped ∧ (s.abortAll cause p).lif.session = s.lif.session ∧
    (s.abortAll cause p).cru = s.cru ∧ (s.abortAll cause p).btc = s.btc ∧ (s.abortAll cause p).kst.hold = s.kst.hold ∧
    (s.abortAll cause p).kst.reservation = s.kst.reservation ∧ (s.abortAll cause p).rtb = s.rtb ∧
    (s.abortAll cause p).rke = s.rke ∧ (s.abortAll cause p).rsu = s.rsu ∧ (s.abortAll cause p).wpe = s.wpe ∧
    (s.abortAll cause p).sst.units = s.sst.units ∧ (s.abortAll cause p).sst.labelCopy = s.sst.labelCopy ∧
    (s.abortAll cause p).sst.marks = s.sst.marks ∧ (s.abortAll cause p).sst.serving = s.sst.serving ∧
    (s.abortAll cause p).sst.lastDevice = s.sst.lastDevice ∧ (s.abortAll cause p).sst.seconds = s.sst.seconds ∧
    (s.abortAll cause p).sst.power = s.sst.power ∧ (s.abortAll cause p).sst.drain = s.sst.drain ∧
    (s.abortAll cause p).sst.downMark = s.sst.downMark ∧ (s.abortAll cause p).sst.ready = s.sst.ready ∧
    (s.abortAll cause p).sst.retention = s.sst.retention ∧ (s.abortAll cause p).fresh = s.fresh := by
  unfold State.abortAll; (try dsimp only); (repeat' split) <;> first | (simp; done) | simp [apply_ite]

/-! ### Operations of the sweep -/

@[simp] theorem State.dropChunk_frame (s : State) : s.dropChunk.lif = s.lif ∧ s.dropChunk.cru = s.cru ∧
    s.dropChunk.btc = s.btc ∧ s.dropChunk.kst = s.kst ∧ s.dropChunk.rtb = s.rtb ∧ s.dropChunk.dpu = s.dpu ∧
    s.dropChunk.rsu = s.rsu ∧ s.dropChunk.wpe = s.wpe ∧ s.dropChunk.sst = s.sst ∧ s.dropChunk.fresh = s.fresh ∧
    s.dropChunk.sent = s.sent := by
  unfold State.dropChunk; (try dsimp only); (repeat' split) <;> first | (simp; done) | simp [apply_ite]

@[simp] theorem State.abandonSweep_frame (s : State) : s.abandonSweep.lif = s.lif ∧ s.abandonSweep.cru = s.cru ∧
    s.abandonSweep.btc = s.btc ∧ s.abandonSweep.kst = s.kst ∧ s.abandonSweep.rtb = s.rtb ∧
    s.abandonSweep.dpu = s.dpu ∧ s.abandonSweep.rsu = s.rsu ∧ s.abandonSweep.wpe = s.wpe ∧
    s.abandonSweep.sst = s.sst ∧ s.abandonSweep.fresh = s.fresh ∧ s.abandonSweep.sent = s.sent := by
  unfold State.abandonSweep; (try dsimp only); (repeat' split) <;> first | (simp; done) | simp [apply_ite]

@[simp] theorem State.faultJob_frame (s : State) (cause : FaultCause) : (s.faultJob cause).lif = s.lif ∧
    (s.faultJob cause).cru = s.cru ∧ (s.faultJob cause).btc = s.btc ∧
    (s.faultJob cause).kst.reservation = s.kst.reservation ∧ (s.faultJob cause).rtb = s.rtb ∧
    (s.faultJob cause).dpu = s.dpu ∧ (s.faultJob cause).rsu = s.rsu ∧ (s.faultJob cause).wpe = s.wpe ∧
    (s.faultJob cause).sst.units = s.sst.units ∧ (s.faultJob cause).sst.labelCopy = s.sst.labelCopy ∧
    (s.faultJob cause).sst.marks = s.sst.marks ∧ (s.faultJob cause).sst.serving = s.sst.serving ∧
    (s.faultJob cause).sst.lastDevice = s.sst.lastDevice ∧ (s.faultJob cause).sst.seconds = s.sst.seconds ∧
    (s.faultJob cause).sst.power = s.sst.power ∧ (s.faultJob cause).sst.drain = s.sst.drain ∧
    (s.faultJob cause).sst.downMark = s.sst.downMark ∧ (s.faultJob cause).sst.ready = s.sst.ready ∧
    (s.faultJob cause).sst.retention = s.sst.retention ∧ (s.faultJob cause).fresh = s.fresh ∧
    (s.faultJob cause).sent = s.sent := by
  unfold State.faultJob; (try dsimp only); (repeat' split) <;> first | (simp; done) | simp [apply_ite]

@[simp] theorem State.pauseSweep_frame (s : State) (dropCopies : Bool) : (s.pauseSweep dropCopies).lif = s.lif ∧
    (s.pauseSweep dropCopies).cru = s.cru ∧ (s.pauseSweep dropCopies).btc = s.btc ∧
    (s.pauseSweep dropCopies).kst.reservation = s.kst.reservation ∧ (s.pauseSweep dropCopies).rtb = s.rtb ∧
    (s.pauseSweep dropCopies).dpu = s.dpu ∧ (s.pauseSweep dropCopies).rsu = s.rsu ∧
    (s.pauseSweep dropCopies).wpe = s.wpe ∧ (s.pauseSweep dropCopies).sst.units = s.sst.units ∧
    (s.pauseSweep dropCopies).sst.labelCopy = s.sst.labelCopy ∧ (s.pauseSweep dropCopies).sst.marks = s.sst.marks ∧
    (s.pauseSweep dropCopies).sst.serving = s.sst.serving ∧
    (s.pauseSweep dropCopies).sst.lastDevice = s.sst.lastDevice ∧
    (s.pauseSweep dropCopies).sst.seconds = s.sst.seconds ∧ (s.pauseSweep dropCopies).sst.power = s.sst.power ∧
    (s.pauseSweep dropCopies).sst.drain = s.sst.drain ∧ (s.pauseSweep dropCopies).sst.downMark = s.sst.downMark ∧
    (s.pauseSweep dropCopies).sst.ready = s.sst.ready ∧ (s.pauseSweep dropCopies).sst.retention = s.sst.retention ∧
    (s.pauseSweep dropCopies).fresh = s.fresh ∧ (s.pauseSweep dropCopies).sent = s.sent := by
  unfold State.pauseSweep; (try dsimp only); (repeat' split) <;> first | (simp; done) | simp [apply_ite]

@[simp] theorem State.resumeJob_frame (s : State) (r : Nat) (ws : List Waiter) : (s.resumeJob r ws).lif = s.lif ∧
    (s.resumeJob r ws).cru = s.cru ∧ (s.resumeJob r ws).btc = s.btc ∧ (s.resumeJob r ws).kst.loads = s.kst.loads ∧
    (s.resumeJob r ws).kst.reservation = s.kst.reservation ∧ (s.resumeJob r ws).rtb = s.rtb ∧
    (s.resumeJob r ws).dpu = s.dpu ∧ (s.resumeJob r ws).rsu = s.rsu ∧ (s.resumeJob r ws).wpe = s.wpe ∧
    (s.resumeJob r ws).sst.units = s.sst.units ∧ (s.resumeJob r ws).sst.labelCopy = s.sst.labelCopy ∧
    (s.resumeJob r ws).sst.marks = s.sst.marks ∧ (s.resumeJob r ws).sst.serving = s.sst.serving ∧
    (s.resumeJob r ws).sst.lastDevice = s.sst.lastDevice ∧ (s.resumeJob r ws).sst.seconds = s.sst.seconds ∧
    (s.resumeJob r ws).sst.power = s.sst.power ∧ (s.resumeJob r ws).sst.drain = s.sst.drain ∧
    (s.resumeJob r ws).sst.downMark = s.sst.downMark ∧ (s.resumeJob r ws).sst.ready = s.sst.ready ∧
    (s.resumeJob r ws).sst.retention = s.sst.retention ∧ (s.resumeJob r ws).fresh = s.fresh ∧
    (s.resumeJob r ws).sent = s.sent := by
  unfold State.resumeJob; (try dsimp only); (repeat' split) <;> first | (simp; done) | simp [apply_ite]

@[simp] theorem State.resumeIfPaused_frame (s : State) (r : Nat) : (s.resumeIfPaused r).lif = s.lif ∧
    (s.resumeIfPaused r).cru = s.cru ∧ (s.resumeIfPaused r).btc = s.btc ∧
    (s.resumeIfPaused r).kst.loads = s.kst.loads ∧ (s.resumeIfPaused r).kst.reservation = s.kst.reservation ∧
    (s.resumeIfPaused r).rtb = s.rtb ∧ (s.resumeIfPaused r).dpu = s.dpu ∧ (s.resumeIfPaused r).rsu = s.rsu ∧
    (s.resumeIfPaused r).wpe = s.wpe ∧ (s.resumeIfPaused r).sst.units = s.sst.units ∧
    (s.resumeIfPaused r).sst.labelCopy = s.sst.labelCopy ∧ (s.resumeIfPaused r).sst.marks = s.sst.marks ∧
    (s.resumeIfPaused r).sst.serving = s.sst.serving ∧ (s.resumeIfPaused r).sst.lastDevice = s.sst.lastDevice ∧
    (s.resumeIfPaused r).sst.seconds = s.sst.seconds ∧ (s.resumeIfPaused r).sst.power = s.sst.power ∧
    (s.resumeIfPaused r).sst.drain = s.sst.drain ∧ (s.resumeIfPaused r).sst.downMark = s.sst.downMark ∧
    (s.resumeIfPaused r).sst.ready = s.sst.ready ∧ (s.resumeIfPaused r).sst.retention = s.sst.retention ∧
    (s.resumeIfPaused r).fresh = s.fresh ∧ (s.resumeIfPaused r).sent = s.sent := by
  unfold State.resumeIfPaused; (try dsimp only); (repeat' split) <;> first | (simp; done) | simp [apply_ite]

@[simp] theorem State.settleJob_frame (s : State) : s.settleJob.lif = s.lif ∧ s.settleJob.cru = s.cru ∧
    s.settleJob.btc = s.btc ∧ s.settleJob.kst.reservation = s.kst.reservation ∧ s.settleJob.rtb = s.rtb ∧
    s.settleJob.dpu = s.dpu ∧ s.settleJob.rsu = s.rsu ∧ s.settleJob.wpe = s.wpe ∧
    s.settleJob.sst.units = s.sst.units ∧ s.settleJob.sst.labelCopy = s.sst.labelCopy ∧
    s.settleJob.sst.marks = s.sst.marks ∧ s.settleJob.sst.serving = s.sst.serving ∧
    s.settleJob.sst.lastDevice = s.sst.lastDevice ∧ s.settleJob.sst.seconds = s.sst.seconds ∧
    s.settleJob.sst.power = s.sst.power ∧ s.settleJob.sst.drain = s.sst.drain ∧
    s.settleJob.sst.downMark = s.sst.downMark ∧ s.settleJob.sst.ready = s.sst.ready ∧
    s.settleJob.sst.retention = s.sst.retention ∧ s.settleJob.fresh = s.fresh ∧ s.settleJob.sent = s.sent := by
  unfold State.settleJob; (try dsimp only); (repeat' split) <;> first | (simp; done) | simp [apply_ite]

@[simp] theorem State.issue_frame (s : State) (k : MediaKind) (c : Client) (b : Body) :
    (s.issue k c b).lif.started = s.lif.started ∧ (s.issue k c b).lif.mediaCredits = s.lif.mediaCredits ∧
    (s.issue k c b).lif.capacity = s.lif.capacity ∧ (s.issue k c b).lif.imageBase = s.lif.imageBase ∧
    (s.issue k c b).lif.scratchBase = s.lif.scratchBase ∧ (s.issue k c b).lif.limitData = s.lif.limitData ∧
    (s.issue k c b).lif.limitControl = s.lif.limitControl ∧ (s.issue k c b).lif.limitPlatform = s.lif.limitPlatform ∧
    (s.issue k c b).lif.tagsInUse = s.lif.tagsInUse ∧ (s.issue k c b).lif.erroredBursts = s.lif.erroredBursts ∧
    (s.issue k c b).lif.burstTaken = s.lif.burstTaken ∧ (s.issue k c b).lif.burstErrored = s.lif.burstErrored ∧
    (s.issue k c b).lif.burstDropped = s.lif.burstDropped ∧ (s.issue k c b).lif.session = s.lif.session ∧
    (s.issue k c b).cru = s.cru ∧ (s.issue k c b).btc = s.btc ∧ (s.issue k c b).kst = s.kst ∧
    (s.issue k c b).rtb = s.rtb ∧ (s.issue k c b).dpu = s.dpu ∧ (s.issue k c b).rke = s.rke ∧
    (s.issue k c b).rsu = s.rsu ∧ (s.issue k c b).wpe = s.wpe ∧ (s.issue k c b).sst = s.sst ∧
    (s.issue k c b).fresh = s.fresh := by
  unfold State.issue; (try dsimp only); (repeat' split) <;> first | (simp; done) | simp [apply_ite]

@[simp] theorem State.issueSweep_frame (s : State) (o : ChunkOp) : (s.issueSweep o).lif.started = s.lif.started ∧
    (s.issueSweep o).lif.mediaCredits = s.lif.mediaCredits ∧ (s.issueSweep o).lif.capacity = s.lif.capacity ∧
    (s.issueSweep o).lif.imageBase = s.lif.imageBase ∧ (s.issueSweep o).lif.scratchBase = s.lif.scratchBase ∧
    (s.issueSweep o).lif.limitData = s.lif.limitData ∧ (s.issueSweep o).lif.limitControl = s.lif.limitControl ∧
    (s.issueSweep o).lif.limitPlatform = s.lif.limitPlatform ∧ (s.issueSweep o).lif.tagsInUse = s.lif.tagsInUse ∧
    (s.issueSweep o).lif.erroredBursts = s.lif.erroredBursts ∧ (s.issueSweep o).lif.burstTaken = s.lif.burstTaken ∧
    (s.issueSweep o).lif.burstErrored = s.lif.burstErrored ∧ (s.issueSweep o).lif.burstDropped = s.lif.burstDropped ∧
    (s.issueSweep o).lif.session = s.lif.session ∧ (s.issueSweep o).cru = s.cru ∧ (s.issueSweep o).btc = s.btc ∧
    (s.issueSweep o).kst = s.kst ∧ (s.issueSweep o).rtb = s.rtb ∧ (s.issueSweep o).dpu = s.dpu ∧
    (s.issueSweep o).rsu = s.rsu ∧ (s.issueSweep o).wpe = s.wpe ∧ (s.issueSweep o).sst = s.sst ∧
    (s.issueSweep o).fresh = s.fresh := by
  unfold State.issueSweep; (try dsimp only); (repeat' split) <;> first | (simp; done) | simp [apply_ite]

@[simp] theorem State.thenOps_frame (s : State) (l : List ChunkOp) : (s.thenOps l).lif = s.lif ∧
    (s.thenOps l).cru = s.cru ∧ (s.thenOps l).btc = s.btc ∧ (s.thenOps l).kst = s.kst ∧ (s.thenOps l).rtb = s.rtb ∧
    (s.thenOps l).dpu = s.dpu ∧ (s.thenOps l).rsu = s.rsu ∧ (s.thenOps l).wpe = s.wpe ∧ (s.thenOps l).sst = s.sst ∧
    (s.thenOps l).fresh = s.fresh ∧ (s.thenOps l).sent = s.sent := by
  unfold State.thenOps; (try dsimp only); (repeat' split) <;> first | (simp; done) | simp [apply_ite]

@[simp] theorem State.fillBuffer_frame (s : State) (i : Nat) (b : Block) (next : List ChunkOp) :
    (s.fillBuffer i b next).lif = s.lif ∧ (s.fillBuffer i b next).cru = s.cru ∧ (s.fillBuffer i b next).btc = s.btc ∧
    (s.fillBuffer i b next).kst = s.kst ∧ (s.fillBuffer i b next).rtb = s.rtb ∧ (s.fillBuffer i b next).dpu = s.dpu ∧
    (s.fillBuffer i b next).rsu = s.rsu ∧ (s.fillBuffer i b next).wpe = s.wpe ∧ (s.fillBuffer i b next).sst = s.sst ∧
    (s.fillBuffer i b next).fresh = s.fresh ∧ (s.fillBuffer i b next).sent = s.sent := by
  unfold State.fillBuffer; (try dsimp only); (repeat' split) <;> first | (simp; done) | simp [apply_ite]

@[simp] theorem State.startTransform_frame (s : State) (i : Nat) (b : Block) : (s.startTransform i b).lif = s.lif ∧
    (s.startTransform i b).cru = s.cru ∧ (s.startTransform i b).btc = s.btc ∧ (s.startTransform i b).kst = s.kst ∧
    (s.startTransform i b).rtb = s.rtb ∧ (s.startTransform i b).dpu = s.dpu ∧ (s.startTransform i b).rsu = s.rsu ∧
    (s.startTransform i b).wpe = s.wpe ∧ (s.startTransform i b).sst = s.sst ∧ (s.startTransform i b).fresh = s.fresh ∧
    (s.startTransform i b).sent = s.sent := by
  unfold State.startTransform; (try dsimp only); (repeat' split) <;> first | (simp; done) | simp [apply_ite]

@[simp] theorem State.setWatermark_frame (s : State) (r w : Nat) : (s.setWatermark r w).lif = s.lif ∧
    (s.setWatermark r w).cru = s.cru ∧ (s.setWatermark r w).btc = s.btc ∧ (s.setWatermark r w).kst = s.kst ∧
    (s.setWatermark r w).rtb.resealOnWake = s.rtb.resealOnWake ∧ (s.setWatermark r w).rtb.staged = s.rtb.staged ∧
    (s.setWatermark r w).rtb.commit = s.rtb.commit ∧ (s.setWatermark r w).rtb.preparing = s.rtb.preparing ∧
    (s.setWatermark r w).rtb.startCommit = s.rtb.startCommit ∧ (s.setWatermark r w).dpu = s.dpu ∧
    (s.setWatermark r w).rke = s.rke ∧ (s.setWatermark r w).rsu = s.rsu ∧ (s.setWatermark r w).wpe = s.wpe ∧
    (s.setWatermark r w).sst = s.sst ∧ (s.setWatermark r w).fresh = s.fresh ∧ (s.setWatermark r w).sent = s.sent := by
  unfold State.setWatermark; (try dsimp only); (repeat' split) <;> first | (simp; done) | simp [apply_ite]

@[simp] theorem State.recovered_frame (s : State) (r w : Nat) : (s.recovered r w).lif = s.lif ∧
    (s.recovered r w).cru = s.cru ∧ (s.recovered r w).btc = s.btc ∧ (s.recovered r w).kst = s.kst ∧
    (s.recovered r w).rtb.resealOnWake = s.rtb.resealOnWake ∧ (s.recovered r w).rtb.staged = s.rtb.staged ∧
    (s.recovered r w).rtb.commit = s.rtb.commit ∧ (s.recovered r w).rtb.preparing = s.rtb.preparing ∧
    (s.recovered r w).rtb.startCommit = s.rtb.startCommit ∧ (s.recovered r w).dpu = s.dpu ∧
    (s.recovered r w).rsu = s.rsu ∧ (s.recovered r w).wpe = s.wpe ∧ (s.recovered r w).sst.units = s.sst.units ∧
    (s.recovered r w).sst.labelCopy = s.sst.labelCopy ∧ (s.recovered r w).sst.marks = s.sst.marks ∧
    (s.recovered r w).sst.serving = s.sst.serving ∧ (s.recovered r w).sst.lastDevice = s.sst.lastDevice ∧
    (s.recovered r w).sst.seconds = s.sst.seconds ∧ (s.recovered r w).sst.power = s.sst.power ∧
    (s.recovered r w).sst.drain = s.sst.drain ∧ (s.recovered r w).sst.downMark = s.sst.downMark ∧
    (s.recovered r w).sst.ready = s.sst.ready ∧ (s.recovered r w).sst.retention = s.sst.retention ∧
    (s.recovered r w).fresh = s.fresh ∧ (s.recovered r w).sent = s.sent := by
  unfold State.recovered; (try dsimp only); (repeat' split) <;> first | (simp; done) | simp [apply_ite]

@[simp] theorem State.unrecovered_frame (s : State) (r : Nat) : (s.unrecovered r).lif = s.lif ∧
    (s.unrecovered r).cru = s.cru ∧ (s.unrecovered r).btc = s.btc ∧
    (s.unrecovered r).kst.reservation = s.kst.reservation ∧ (s.unrecovered r).rtb.resealOnWake = s.rtb.resealOnWake ∧
    (s.unrecovered r).rtb.staged = s.rtb.staged ∧ (s.unrecovered r).rtb.commit = s.rtb.commit ∧
    (s.unrecovered r).rtb.preparing = s.rtb.preparing ∧ (s.unrecovered r).rtb.startCommit = s.rtb.startCommit ∧
    (s.unrecovered r).dpu = s.dpu ∧ (s.unrecovered r).rsu = s.rsu ∧ (s.unrecovered r).wpe = s.wpe ∧
    (s.unrecovered r).sst.units = s.sst.units ∧ (s.unrecovered r).sst.labelCopy = s.sst.labelCopy ∧
    (s.unrecovered r).sst.marks = s.sst.marks ∧ (s.unrecovered r).sst.serving = s.sst.serving ∧
    (s.unrecovered r).sst.lastDevice = s.sst.lastDevice ∧ (s.unrecovered r).sst.seconds = s.sst.seconds ∧
    (s.unrecovered r).sst.power = s.sst.power ∧ (s.unrecovered r).sst.drain = s.sst.drain ∧
    (s.unrecovered r).sst.downMark = s.sst.downMark ∧ (s.unrecovered r).sst.ready = s.sst.ready ∧
    (s.unrecovered r).sst.retention = s.sst.retention ∧ (s.unrecovered r).fresh = s.fresh ∧
    (s.unrecovered r).sent = s.sent := by
  unfold State.unrecovered; (try dsimp only); (repeat' split) <;> first | (simp; done) | simp [apply_ite]

@[simp] theorem State.recoverCopy_frame (s : State) (f n : Nat) : (s.recoverCopy f n).lif = s.lif ∧
    (s.recoverCopy f n).cru = s.cru ∧ (s.recoverCopy f n).btc = s.btc ∧ (s.recoverCopy f n).kst = s.kst ∧
    (s.recoverCopy f n).rtb = s.rtb ∧ (s.recoverCopy f n).dpu = s.dpu ∧ (s.recoverCopy f n).rsu = s.rsu ∧
    (s.recoverCopy f n).wpe = s.wpe ∧ (s.recoverCopy f n).sst = s.sst ∧ (s.recoverCopy f n).fresh = s.fresh ∧
    (s.recoverCopy f n).sent = s.sent := by
  unfold State.recoverCopy; (try dsimp only); (repeat' split) <;> first | (simp; done) | simp [apply_ite]

@[simp] theorem State.judge_frame (s : State) (b : Block) : (s.judge b).lif = s.lif ∧ (s.judge b).cru = s.cru ∧
    (s.judge b).btc = s.btc ∧ (s.judge b).kst.reservation = s.kst.reservation ∧
    (s.judge b).rtb.resealOnWake = s.rtb.resealOnWake ∧ (s.judge b).rtb.staged = s.rtb.staged ∧
    (s.judge b).rtb.commit = s.rtb.commit ∧ (s.judge b).rtb.preparing = s.rtb.preparing ∧
    (s.judge b).rtb.startCommit = s.rtb.startCommit ∧ (s.judge b).dpu = s.dpu ∧ (s.judge b).rsu = s.rsu ∧
    (s.judge b).wpe = s.wpe ∧ (s.judge b).sst.units = s.sst.units ∧ (s.judge b).sst.labelCopy = s.sst.labelCopy ∧
    (s.judge b).sst.marks = s.sst.marks ∧ (s.judge b).sst.serving = s.sst.serving ∧
    (s.judge b).sst.lastDevice = s.sst.lastDevice ∧ (s.judge b).sst.seconds = s.sst.seconds ∧
    (s.judge b).sst.power = s.sst.power ∧ (s.judge b).sst.drain = s.sst.drain ∧
    (s.judge b).sst.downMark = s.sst.downMark ∧ (s.judge b).sst.ready = s.sst.ready ∧
    (s.judge b).sst.retention = s.sst.retention ∧ (s.judge b).fresh = s.fresh ∧ (s.judge b).sent = s.sent := by
  unfold State.judge; (try dsimp only); (repeat' split) <;> first | (simp; done) | simp [apply_ite]

@[simp] theorem State.confirmOp_frame (s : State) (o : ChunkOp) (data : Block) : (s.confirmOp o data).lif = s.lif ∧
    (s.confirmOp o data).cru = s.cru ∧ (s.confirmOp o data).btc = s.btc ∧
    (s.confirmOp o data).kst.reservation = s.kst.reservation ∧
    (s.confirmOp o data).rtb.resealOnWake = s.rtb.resealOnWake ∧ (s.confirmOp o data).rtb.staged = s.rtb.staged ∧
    (s.confirmOp o data).rtb.commit = s.rtb.commit ∧ (s.confirmOp o data).rtb.preparing = s.rtb.preparing ∧
    (s.confirmOp o data).rtb.startCommit = s.rtb.startCommit ∧ (s.confirmOp o data).dpu = s.dpu ∧
    (s.confirmOp o data).rsu = s.rsu ∧ (s.confirmOp o data).wpe = s.wpe ∧
    (s.confirmOp o data).sst.units = s.sst.units ∧ (s.confirmOp o data).sst.labelCopy = s.sst.labelCopy ∧
    (s.confirmOp o data).sst.marks = s.sst.marks ∧ (s.confirmOp o data).sst.serving = s.sst.serving ∧
    (s.confirmOp o data).sst.lastDevice = s.sst.lastDevice ∧ (s.confirmOp o data).sst.seconds = s.sst.seconds ∧
    (s.confirmOp o data).sst.power = s.sst.power ∧ (s.confirmOp o data).sst.drain = s.sst.drain ∧
    (s.confirmOp o data).sst.downMark = s.sst.downMark ∧ (s.confirmOp o data).sst.ready = s.sst.ready ∧
    (s.confirmOp o data).sst.retention = s.sst.retention ∧ (s.confirmOp o data).fresh = s.fresh ∧
    (s.confirmOp o data).sent = s.sent := by
  unfold State.confirmOp; (try dsimp only); (repeat' split) <;> first | (simp; done) | simp [apply_ite]

@[simp] theorem State.failOp_frame (s : State) (o : ChunkOp) (cause : FaultCause) : (s.failOp o cause).lif = s.lif ∧
    (s.failOp o cause).cru = s.cru ∧ (s.failOp o cause).btc = s.btc ∧
    (s.failOp o cause).kst.reservation = s.kst.reservation ∧
    (s.failOp o cause).rtb.resealOnWake = s.rtb.resealOnWake ∧ (s.failOp o cause).rtb.staged = s.rtb.staged ∧
    (s.failOp o cause).rtb.commit = s.rtb.commit ∧ (s.failOp o cause).rtb.preparing = s.rtb.preparing ∧
    (s.failOp o cause).rtb.startCommit = s.rtb.startCommit ∧ (s.failOp o cause).dpu = s.dpu ∧
    (s.failOp o cause).rsu = s.rsu ∧ (s.failOp o cause).wpe = s.wpe ∧ (s.failOp o cause).sst.units = s.sst.units ∧
    (s.failOp o cause).sst.labelCopy = s.sst.labelCopy ∧ (s.failOp o cause).sst.marks = s.sst.marks ∧
    (s.failOp o cause).sst.serving = s.sst.serving ∧ (s.failOp o cause).sst.lastDevice = s.sst.lastDevice ∧
    (s.failOp o cause).sst.seconds = s.sst.seconds ∧ (s.failOp o cause).sst.power = s.sst.power ∧
    (s.failOp o cause).sst.drain = s.sst.drain ∧ (s.failOp o cause).sst.downMark = s.sst.downMark ∧
    (s.failOp o cause).sst.ready = s.sst.ready ∧ (s.failOp o cause).sst.retention = s.sst.retention ∧
    (s.failOp o cause).fresh = s.fresh ∧ (s.failOp o cause).sent = s.sent := by
  unfold State.failOp; (try dsimp only); (repeat' split) <;> first | (simp; done) | simp [apply_ite]

/-! ### Operations of loads -/

@[simp] theorem State.damagedKey_frame (s : State) (r k : Nat) : (s.damagedKey r k).lif.started = s.lif.started ∧
    (s.damagedKey r k).lif.mediaCredits = s.lif.mediaCredits ∧ (s.damagedKey r k).lif.capacity = s.lif.capacity ∧
    (s.damagedKey r k).lif.imageBase = s.lif.imageBase ∧ (s.damagedKey r k).lif.scratchBase = s.lif.scratchBase ∧
    (s.damagedKey r k).lif.limitData = s.lif.limitData ∧ (s.damagedKey r k).lif.limitControl = s.lif.limitControl ∧
    (s.damagedKey r k).lif.limitPlatform = s.lif.limitPlatform ∧
    (s.damagedKey r k).lif.outstanding = s.lif.outstanding ∧ (s.damagedKey r k).lif.freeCredits = s.lif.freeCredits ∧
    (s.damagedKey r k).lif.nextTag = s.lif.nextTag ∧ (s.damagedKey r k).lif.erroredBursts = s.lif.erroredBursts ∧
    (s.damagedKey r k).lif.burstTaken = s.lif.burstTaken ∧ (s.damagedKey r k).lif.burstErrored = s.lif.burstErrored ∧
    (s.damagedKey r k).lif.burstDropped = s.lif.burstDropped ∧ (s.damagedKey r k).lif.session = s.lif.session ∧
    (s.damagedKey r k).cru = s.cru ∧ (s.damagedKey r k).btc = s.btc ∧
    (s.damagedKey r k).kst.reservation = s.kst.reservation ∧
    (s.damagedKey r k).rtb.resealOnWake = s.rtb.resealOnWake ∧ (s.damagedKey r k).rtb.staged = s.rtb.staged ∧
    (s.damagedKey r k).rtb.commit = s.rtb.commit ∧ (s.damagedKey r k).rtb.preparing = s.rtb.preparing ∧
    (s.damagedKey r k).rtb.startCommit = s.rtb.startCommit ∧ (s.damagedKey r k).rsu = s.rsu ∧
    (s.damagedKey r k).wpe = s.wpe ∧ (s.damagedKey r k).sst.units = s.sst.units ∧
    (s.damagedKey r k).sst.labelCopy = s.sst.labelCopy ∧ (s.damagedKey r k).sst.marks = s.sst.marks ∧
    (s.damagedKey r k).sst.serving = s.sst.serving ∧ (s.damagedKey r k).sst.lastDevice = s.sst.lastDevice ∧
    (s.damagedKey r k).sst.seconds = s.sst.seconds ∧ (s.damagedKey r k).sst.power = s.sst.power ∧
    (s.damagedKey r k).sst.drain = s.sst.drain ∧ (s.damagedKey r k).sst.downMark = s.sst.downMark ∧
    (s.damagedKey r k).sst.ready = s.sst.ready ∧ (s.damagedKey r k).sst.retention = s.sst.retention ∧
    (s.damagedKey r k).fresh = s.fresh := by
  unfold State.damagedKey; (try dsimp only); (repeat' split) <;> first | (simp; done) | simp [apply_ite]

@[simp] theorem State.unwrap_frame (s : State) (r : Nat) (rak : Rak) (k : Nat) :
    (s.unwrap r rak k).lif.started = s.lif.started ∧ (s.unwrap r rak k).lif.mediaCredits = s.lif.mediaCredits ∧
    (s.unwrap r rak k).lif.capacity = s.lif.capacity ∧ (s.unwrap r rak k).lif.imageBase = s.lif.imageBase ∧
    (s.unwrap r rak k).lif.scratchBase = s.lif.scratchBase ∧ (s.unwrap r rak k).lif.limitData = s.lif.limitData ∧
    (s.unwrap r rak k).lif.limitControl = s.lif.limitControl ∧
    (s.unwrap r rak k).lif.limitPlatform = s.lif.limitPlatform ∧
    (s.unwrap r rak k).lif.outstanding = s.lif.outstanding ∧ (s.unwrap r rak k).lif.freeCredits = s.lif.freeCredits ∧
    (s.unwrap r rak k).lif.nextTag = s.lif.nextTag ∧ (s.unwrap r rak k).lif.erroredBursts = s.lif.erroredBursts ∧
    (s.unwrap r rak k).lif.burstTaken = s.lif.burstTaken ∧ (s.unwrap r rak k).lif.burstErrored = s.lif.burstErrored ∧
    (s.unwrap r rak k).lif.burstDropped = s.lif.burstDropped ∧ (s.unwrap r rak k).lif.session = s.lif.session ∧
    (s.unwrap r rak k).cru = s.cru ∧ (s.unwrap r rak k).btc = s.btc ∧
    (s.unwrap r rak k).kst.reservation = s.kst.reservation ∧
    (s.unwrap r rak k).rtb.resealOnWake = s.rtb.resealOnWake ∧ (s.unwrap r rak k).rtb.staged = s.rtb.staged ∧
    (s.unwrap r rak k).rtb.commit = s.rtb.commit ∧ (s.unwrap r rak k).rtb.preparing = s.rtb.preparing ∧
    (s.unwrap r rak k).rtb.startCommit = s.rtb.startCommit ∧ (s.unwrap r rak k).rsu = s.rsu ∧
    (s.unwrap r rak k).wpe = s.wpe ∧ (s.unwrap r rak k).sst.units = s.sst.units ∧
    (s.unwrap r rak k).sst.labelCopy = s.sst.labelCopy ∧ (s.unwrap r rak k).sst.marks = s.sst.marks ∧
    (s.unwrap r rak k).sst.serving = s.sst.serving ∧ (s.unwrap r rak k).sst.lastDevice = s.sst.lastDevice ∧
    (s.unwrap r rak k).sst.seconds = s.sst.seconds ∧ (s.unwrap r rak k).sst.power = s.sst.power ∧
    (s.unwrap r rak k).sst.drain = s.sst.drain ∧ (s.unwrap r rak k).sst.downMark = s.sst.downMark ∧
    (s.unwrap r rak k).sst.ready = s.sst.ready ∧ (s.unwrap r rak k).sst.retention = s.sst.retention ∧
    (s.unwrap r rak k).fresh = s.fresh := by
  unfold State.unwrap; (try dsimp only); (repeat' split) <;> first | (simp; done) | simp [apply_ite]

@[simp] theorem State.loadRange_frame (s : State) (r : Nat) (via : Option Rak) :
    (s.loadRange r via).1.lif.started = s.lif.started ∧ (s.loadRange r via).1.lif.mediaCredits = s.lif.mediaCredits ∧
    (s.loadRange r via).1.lif.capacity = s.lif.capacity ∧ (s.loadRange r via).1.lif.imageBase = s.lif.imageBase ∧
    (s.loadRange r via).1.lif.scratchBase = s.lif.scratchBase ∧
    (s.loadRange r via).1.lif.limitData = s.lif.limitData ∧
    (s.loadRange r via).1.lif.limitControl = s.lif.limitControl ∧
    (s.loadRange r via).1.lif.limitPlatform = s.lif.limitPlatform ∧
    (s.loadRange r via).1.lif.outstanding = s.lif.outstanding ∧
    (s.loadRange r via).1.lif.freeCredits = s.lif.freeCredits ∧ (s.loadRange r via).1.lif.nextTag = s.lif.nextTag ∧
    (s.loadRange r via).1.lif.erroredBursts = s.lif.erroredBursts ∧
    (s.loadRange r via).1.lif.burstTaken = s.lif.burstTaken ∧
    (s.loadRange r via).1.lif.burstErrored = s.lif.burstErrored ∧
    (s.loadRange r via).1.lif.burstDropped = s.lif.burstDropped ∧ (s.loadRange r via).1.lif.session = s.lif.session ∧
    (s.loadRange r via).1.cru = s.cru ∧ (s.loadRange r via).1.btc = s.btc ∧
    (s.loadRange r via).1.kst.reservation = s.kst.reservation ∧
    (s.loadRange r via).1.rtb.resealOnWake = s.rtb.resealOnWake ∧ (s.loadRange r via).1.rtb.staged = s.rtb.staged ∧
    (s.loadRange r via).1.rtb.commit = s.rtb.commit ∧ (s.loadRange r via).1.rtb.preparing = s.rtb.preparing ∧
    (s.loadRange r via).1.rtb.startCommit = s.rtb.startCommit ∧ (s.loadRange r via).1.rsu = s.rsu ∧
    (s.loadRange r via).1.wpe = s.wpe ∧ (s.loadRange r via).1.sst.units = s.sst.units ∧
    (s.loadRange r via).1.sst.labelCopy = s.sst.labelCopy ∧ (s.loadRange r via).1.sst.marks = s.sst.marks ∧
    (s.loadRange r via).1.sst.serving = s.sst.serving ∧ (s.loadRange r via).1.sst.lastDevice = s.sst.lastDevice ∧
    (s.loadRange r via).1.sst.seconds = s.sst.seconds ∧ (s.loadRange r via).1.sst.power = s.sst.power ∧
    (s.loadRange r via).1.sst.drain = s.sst.drain ∧ (s.loadRange r via).1.sst.downMark = s.sst.downMark ∧
    (s.loadRange r via).1.sst.ready = s.sst.ready ∧ (s.loadRange r via).1.sst.retention = s.sst.retention ∧
    (s.loadRange r via).1.fresh = s.fresh := by
  unfold State.loadRange; (try dsimp only); (repeat' split) <;> first | (simp; done) | simp [apply_ite]

@[simp] theorem State.setLocks_frame (s : State) (r : Nat) (read write v : Bool) :
    (s.setLocks r read write v).lif = s.lif ∧ (s.setLocks r read write v).cru = s.cru ∧
    (s.setLocks r read write v).btc = s.btc ∧ (s.setLocks r read write v).kst = s.kst ∧
    (s.setLocks r read write v).rtb.resealOnWake = s.rtb.resealOnWake ∧
    (s.setLocks r read write v).rtb.staged = s.rtb.staged ∧ (s.setLocks r read write v).rtb.commit = s.rtb.commit ∧
    (s.setLocks r read write v).rtb.preparing = s.rtb.preparing ∧
    (s.setLocks r read write v).rtb.startCommit = s.rtb.startCommit ∧ (s.setLocks r read write v).dpu = s.dpu ∧
    (s.setLocks r read write v).rke = s.rke ∧ (s.setLocks r read write v).rsu = s.rsu ∧
    (s.setLocks r read write v).wpe = s.wpe ∧ (s.setLocks r read write v).sst = s.sst ∧
    (s.setLocks r read write v).fresh = s.fresh ∧ (s.setLocks r read write v).sent = s.sent := by
  unfold State.setLocks; (try dsimp only); (repeat' split) <;> first | (simp; done) | simp [apply_ite]

@[simp] theorem State.lockRange_frame (s : State) (read write : Bool) (r : Nat) :
    (s.lockRange read write r).lif = s.lif ∧ (s.lockRange read write r).cru = s.cru ∧
    (s.lockRange read write r).btc = s.btc ∧ (s.lockRange read write r).kst.hold = s.kst.hold ∧
    (s.lockRange read write r).kst.reservation = s.kst.reservation ∧
    (s.lockRange read write r).rtb.resealOnWake = s.rtb.resealOnWake ∧
    (s.lockRange read write r).rtb.staged = s.rtb.staged ∧ (s.lockRange read write r).rtb.commit = s.rtb.commit ∧
    (s.lockRange read write r).rtb.preparing = s.rtb.preparing ∧
    (s.lockRange read write r).rtb.startCommit = s.rtb.startCommit ∧ (s.lockRange read write r).dpu = s.dpu ∧
    (s.lockRange read write r).rke = s.rke ∧ (s.lockRange read write r).rsu = s.rsu ∧
    (s.lockRange read write r).wpe = s.wpe ∧ (s.lockRange read write r).sst = s.sst ∧
    (s.lockRange read write r).fresh = s.fresh ∧ (s.lockRange read write r).sent = s.sent := by
  unfold State.lockRange; (try dsimp only); (repeat' split) <;> first | (simp; done) | simp [apply_ite]

@[simp] theorem State.unlockRange_frame (s : State) (read write : Bool) (via : Option Rak) (r : Nat) :
    (s.unlockRange read write via r).1.lif.started = s.lif.started ∧
    (s.unlockRange read write via r).1.lif.mediaCredits = s.lif.mediaCredits ∧
    (s.unlockRange read write via r).1.lif.capacity = s.lif.capacity ∧
    (s.unlockRange read write via r).1.lif.imageBase = s.lif.imageBase ∧
    (s.unlockRange read write via r).1.lif.scratchBase = s.lif.scratchBase ∧
    (s.unlockRange read write via r).1.lif.limitData = s.lif.limitData ∧
    (s.unlockRange read write via r).1.lif.limitControl = s.lif.limitControl ∧
    (s.unlockRange read write via r).1.lif.limitPlatform = s.lif.limitPlatform ∧
    (s.unlockRange read write via r).1.lif.outstanding = s.lif.outstanding ∧
    (s.unlockRange read write via r).1.lif.freeCredits = s.lif.freeCredits ∧
    (s.unlockRange read write via r).1.lif.nextTag = s.lif.nextTag ∧
    (s.unlockRange read write via r).1.lif.erroredBursts = s.lif.erroredBursts ∧
    (s.unlockRange read write via r).1.lif.burstTaken = s.lif.burstTaken ∧
    (s.unlockRange read write via r).1.lif.burstErrored = s.lif.burstErrored ∧
    (s.unlockRange read write via r).1.lif.burstDropped = s.lif.burstDropped ∧
    (s.unlockRange read write via r).1.lif.session = s.lif.session ∧ (s.unlockRange read write via r).1.cru = s.cru ∧
    (s.unlockRange read write via r).1.btc = s.btc ∧
    (s.unlockRange read write via r).1.kst.reservation = s.kst.reservation ∧
    (s.unlockRange read write via r).1.rtb.resealOnWake = s.rtb.resealOnWake ∧
    (s.unlockRange read write via r).1.rtb.staged = s.rtb.staged ∧
    (s.unlockRange read write via r).1.rtb.commit = s.rtb.commit ∧
    (s.unlockRange read write via r).1.rtb.preparing = s.rtb.preparing ∧
    (s.unlockRange read write via r).1.rtb.startCommit = s.rtb.startCommit ∧
    (s.unlockRange read write via r).1.rsu = s.rsu ∧ (s.unlockRange read write via r).1.wpe = s.wpe ∧
    (s.unlockRange read write via r).1.sst.units = s.sst.units ∧
    (s.unlockRange read write via r).1.sst.labelCopy = s.sst.labelCopy ∧
    (s.unlockRange read write via r).1.sst.marks = s.sst.marks ∧
    (s.unlockRange read write via r).1.sst.serving = s.sst.serving ∧
    (s.unlockRange read write via r).1.sst.lastDevice = s.sst.lastDevice ∧
    (s.unlockRange read write via r).1.sst.seconds = s.sst.seconds ∧
    (s.unlockRange read write via r).1.sst.power = s.sst.power ∧
    (s.unlockRange read write via r).1.sst.drain = s.sst.drain ∧
    (s.unlockRange read write via r).1.sst.downMark = s.sst.downMark ∧
    (s.unlockRange read write via r).1.sst.ready = s.sst.ready ∧
    (s.unlockRange read write via r).1.sst.retention = s.sst.retention ∧
    (s.unlockRange read write via r).1.fresh = s.fresh := by
  unfold State.unlockRange; (try dsimp only); (repeat' split) <;> first | (simp; done) | simp [apply_ite]

@[simp] theorem State.unlockDevice_frame (s : State) (r : Nat) : (s.unlockDevice r).lif.started = s.lif.started ∧
    (s.unlockDevice r).lif.mediaCredits = s.lif.mediaCredits ∧ (s.unlockDevice r).lif.capacity = s.lif.capacity ∧
    (s.unlockDevice r).lif.imageBase = s.lif.imageBase ∧ (s.unlockDevice r).lif.scratchBase = s.lif.scratchBase ∧
    (s.unlockDevice r).lif.limitData = s.lif.limitData ∧ (s.unlockDevice r).lif.limitControl = s.lif.limitControl ∧
    (s.unlockDevice r).lif.limitPlatform = s.lif.limitPlatform ∧
    (s.unlockDevice r).lif.outstanding = s.lif.outstanding ∧ (s.unlockDevice r).lif.freeCredits = s.lif.freeCredits ∧
    (s.unlockDevice r).lif.nextTag = s.lif.nextTag ∧ (s.unlockDevice r).lif.erroredBursts = s.lif.erroredBursts ∧
    (s.unlockDevice r).lif.burstTaken = s.lif.burstTaken ∧ (s.unlockDevice r).lif.burstErrored = s.lif.burstErrored ∧
    (s.unlockDevice r).lif.burstDropped = s.lif.burstDropped ∧ (s.unlockDevice r).lif.session = s.lif.session ∧
    (s.unlockDevice r).cru = s.cru ∧ (s.unlockDevice r).btc = s.btc ∧
    (s.unlockDevice r).kst.reservation = s.kst.reservation ∧
    (s.unlockDevice r).rtb.resealOnWake = s.rtb.resealOnWake ∧ (s.unlockDevice r).rtb.staged = s.rtb.staged ∧
    (s.unlockDevice r).rtb.commit = s.rtb.commit ∧ (s.unlockDevice r).rtb.preparing = s.rtb.preparing ∧
    (s.unlockDevice r).rtb.startCommit = s.rtb.startCommit ∧ (s.unlockDevice r).rsu = s.rsu ∧
    (s.unlockDevice r).wpe = s.wpe ∧ (s.unlockDevice r).sst.units = s.sst.units ∧
    (s.unlockDevice r).sst.labelCopy = s.sst.labelCopy ∧ (s.unlockDevice r).sst.marks = s.sst.marks ∧
    (s.unlockDevice r).sst.serving = s.sst.serving ∧ (s.unlockDevice r).sst.lastDevice = s.sst.lastDevice ∧
    (s.unlockDevice r).sst.seconds = s.sst.seconds ∧ (s.unlockDevice r).sst.power = s.sst.power ∧
    (s.unlockDevice r).sst.drain = s.sst.drain ∧ (s.unlockDevice r).sst.downMark = s.sst.downMark ∧
    (s.unlockDevice r).sst.ready = s.sst.ready ∧ (s.unlockDevice r).sst.retention = s.sst.retention ∧
    (s.unlockDevice r).fresh = s.fresh := by
  unfold State.unlockDevice; (try dsimp only); (repeat' split) <;> first | (simp; done) | simp [apply_ite]

@[simp] theorem State.lockAll_frame (s : State) : s.lockAll.lif = s.lif ∧ s.lockAll.cru = s.cru ∧
    s.lockAll.btc = s.btc ∧ s.lockAll.kst = s.kst ∧ s.lockAll.rtb.resealOnWake = s.rtb.resealOnWake ∧
    s.lockAll.rtb.staged = s.rtb.staged ∧ s.lockAll.rtb.commit = s.rtb.commit ∧
    s.lockAll.rtb.preparing = s.rtb.preparing ∧ s.lockAll.rtb.startCommit = s.rtb.startCommit ∧
    s.lockAll.dpu = s.dpu ∧ s.lockAll.rke = s.rke ∧ s.lockAll.rsu = s.rsu ∧ s.lockAll.wpe = s.wpe ∧
    s.lockAll.sst = s.sst ∧ s.lockAll.fresh = s.fresh ∧ s.lockAll.sent = s.sent := by
  unfold State.lockAll; (try dsimp only); (repeat' split) <;> first | (simp; done) | simp [apply_ite]

/-! ### Operations of commits -/

@[simp] theorem State.makeKeys_frame (s : State) (p : Plan) (raks : List (Nat × Rak)) (l : List Nat) :
    (s.makeKeys p raks l).1.lif = s.lif ∧ (s.makeKeys p raks l).1.cru = s.cru ∧ (s.makeKeys p raks l).1.btc = s.btc ∧
    (s.makeKeys p raks l).1.kst.loads = s.kst.loads ∧ (s.makeKeys p raks l).1.kst.hold = s.kst.hold ∧
    (s.makeKeys p raks l).1.kst.reservation = s.kst.reservation ∧ (s.makeKeys p raks l).1.rtb = s.rtb ∧
    (s.makeKeys p raks l).1.dpu = s.dpu ∧ (s.makeKeys p raks l).1.rke = s.rke ∧ (s.makeKeys p raks l).1.rsu = s.rsu ∧
    (s.makeKeys p raks l).1.wpe = s.wpe ∧ (s.makeKeys p raks l).1.sst = s.sst ∧
    (s.makeKeys p raks l).1.sent = s.sent := by
  induction l generalizing s with
  | nil => simp [State.makeKeys]
  | cons r rs ih => unfold State.makeKeys; dsimp only; (repeat' split) <;> simp [ih]

@[simp] theorem State.prepare_frame (s : State) (p : Plan) (named : List Nat) (raks : List (Nat × Rak)) :
    (s.prepare p named raks).1.lif = s.lif ∧ (s.prepare p named raks).1.cru = s.cru ∧
    (s.prepare p named raks).1.btc = s.btc ∧ (s.prepare p named raks).1.kst.loads = s.kst.loads ∧
    (s.prepare p named raks).1.kst.hold = s.kst.hold ∧
    (s.prepare p named raks).1.kst.reservation = s.kst.reservation ∧ (s.prepare p named raks).1.rtb = s.rtb ∧
    (s.prepare p named raks).1.dpu = s.dpu ∧ (s.prepare p named raks).1.rke = s.rke ∧
    (s.prepare p named raks).1.rsu = s.rsu ∧ (s.prepare p named raks).1.wpe = s.wpe ∧
    (s.prepare p named raks).1.sst = s.sst ∧ (s.prepare p named raks).1.sent = s.sent := by
  unfold State.prepare; (try dsimp only); (repeat' split) <;> first | (simp; done) | simp [apply_ite]

@[simp] theorem State.discardHead_frame (s : State) (j : Job) : (s.discardHead j).lif = s.lif ∧
    (s.discardHead j).cru = s.cru ∧ (s.discardHead j).btc = s.btc ∧
    (s.discardHead j).kst.reservation = s.kst.reservation ∧ (s.discardHead j).rtb = s.rtb ∧
    (s.discardHead j).dpu = s.dpu ∧ (s.discardHead j).rsu = s.rsu ∧ (s.discardHead j).wpe = s.wpe ∧
    (s.discardHead j).sst.units = s.sst.units ∧ (s.discardHead j).sst.labelCopy = s.sst.labelCopy ∧
    (s.discardHead j).sst.marks = s.sst.marks ∧ (s.discardHead j).sst.serving = s.sst.serving ∧
    (s.discardHead j).sst.lastDevice = s.sst.lastDevice ∧ (s.discardHead j).sst.seconds = s.sst.seconds ∧
    (s.discardHead j).sst.power = s.sst.power ∧ (s.discardHead j).sst.drain = s.sst.drain ∧
    (s.discardHead j).sst.downMark = s.sst.downMark ∧ (s.discardHead j).sst.ready = s.sst.ready ∧
    (s.discardHead j).sst.retention = s.sst.retention ∧ (s.discardHead j).fresh = s.fresh := by
  unfold State.discardHead; (try dsimp only); (repeat' split) <;> first | (simp; done) | simp [apply_ite]

@[simp] theorem State.dropJobs_frame (s : State) (p : Plan) : (s.dropJobs p).lif = s.lif ∧
    (s.dropJobs p).cru = s.cru ∧ (s.dropJobs p).btc = s.btc ∧ (s.dropJobs p).kst.reservation = s.kst.reservation ∧
    (s.dropJobs p).rtb = s.rtb ∧ (s.dropJobs p).dpu = s.dpu ∧ (s.dropJobs p).rsu = s.rsu ∧
    (s.dropJobs p).wpe = s.wpe ∧ (s.dropJobs p).sst.units = s.sst.units ∧
    (s.dropJobs p).sst.labelCopy = s.sst.labelCopy ∧ (s.dropJobs p).sst.marks = s.sst.marks ∧
    (s.dropJobs p).sst.serving = s.sst.serving ∧ (s.dropJobs p).sst.lastDevice = s.sst.lastDevice ∧
    (s.dropJobs p).sst.seconds = s.sst.seconds ∧ (s.dropJobs p).sst.power = s.sst.power ∧
    (s.dropJobs p).sst.drain = s.sst.drain ∧ (s.dropJobs p).sst.downMark = s.sst.downMark ∧
    (s.dropJobs p).sst.ready = s.sst.ready ∧ (s.dropJobs p).sst.retention = s.sst.retention ∧
    (s.dropJobs p).fresh = s.fresh := by
  unfold State.dropJobs; (try dsimp only); (repeat' split) <;> first | (simp; done) | simp [apply_ite]

@[simp] theorem State.commitJobs_frame (s : State) (p : Plan) : (s.commitJobs p).lif = s.lif ∧
    (s.commitJobs p).cru = s.cru ∧ (s.commitJobs p).btc = s.btc ∧
    (s.commitJobs p).kst.reservation = s.kst.reservation ∧ (s.commitJobs p).rtb = s.rtb ∧
    (s.commitJobs p).dpu = s.dpu ∧ (s.commitJobs p).rsu = s.rsu ∧ (s.commitJobs p).wpe = s.wpe ∧
    (s.commitJobs p).sst.units = s.sst.units ∧ (s.commitJobs p).sst.labelCopy = s.sst.labelCopy ∧
    (s.commitJobs p).sst.marks = s.sst.marks ∧ (s.commitJobs p).sst.serving = s.sst.serving ∧
    (s.commitJobs p).sst.lastDevice = s.sst.lastDevice ∧ (s.commitJobs p).sst.seconds = s.sst.seconds ∧
    (s.commitJobs p).sst.power = s.sst.power ∧ (s.commitJobs p).sst.drain = s.sst.drain ∧
    (s.commitJobs p).sst.downMark = s.sst.downMark ∧ (s.commitJobs p).sst.ready = s.sst.ready ∧
    (s.commitJobs p).sst.retention = s.sst.retention ∧ (s.commitJobs p).fresh = s.fresh := by
  unfold State.commitJobs; (try dsimp only); (repeat' split) <;> first | (simp; done) | simp [apply_ite]

@[simp] theorem State.retireAll_frame (s : State) (ks : List Nat) : (s.retireAll ks).lif = s.lif ∧
    (s.retireAll ks).cru = s.cru ∧ (s.retireAll ks).btc = s.btc ∧ (s.retireAll ks).kst.loads = s.kst.loads ∧
    (s.retireAll ks).kst.hold = s.kst.hold ∧ (s.retireAll ks).kst.reservation = s.kst.reservation ∧
    (s.retireAll ks).rtb = s.rtb ∧ (s.retireAll ks).dpu = s.dpu ∧ (s.retireAll ks).rke = s.rke ∧
    (s.retireAll ks).rsu = s.rsu ∧ (s.retireAll ks).wpe = s.wpe ∧ (s.retireAll ks).sst.units = s.sst.units ∧
    (s.retireAll ks).sst.labelCopy = s.sst.labelCopy ∧ (s.retireAll ks).sst.marks = s.sst.marks ∧
    (s.retireAll ks).sst.serving = s.sst.serving ∧ (s.retireAll ks).sst.lastDevice = s.sst.lastDevice ∧
    (s.retireAll ks).sst.seconds = s.sst.seconds ∧ (s.retireAll ks).sst.power = s.sst.power ∧
    (s.retireAll ks).sst.drain = s.sst.drain ∧ (s.retireAll ks).sst.downMark = s.sst.downMark ∧
    (s.retireAll ks).sst.ready = s.sst.ready ∧ (s.retireAll ks).sst.retention = s.sst.retention ∧
    (s.retireAll ks).fresh = s.fresh ∧ (s.retireAll ks).sent = s.sent := by
  unfold State.retireAll; (try dsimp only); (repeat' split) <;> first | (simp; done) | simp [apply_ite]

@[simp] theorem State.commitLocks_frame (before : State) (p : Plan) (m : Prepared) (s : State) (r : Nat) :
    (State.commitLocks before p m s r).lif.started = s.lif.started ∧
    (State.commitLocks before p m s r).lif.mediaCredits = s.lif.mediaCredits ∧
    (State.commitLocks before p m s r).lif.capacity = s.lif.capacity ∧
    (State.commitLocks before p m s r).lif.imageBase = s.lif.imageBase ∧
    (State.commitLocks before p m s r).lif.scratchBase = s.lif.scratchBase ∧
    (State.commitLocks before p m s r).lif.limitData = s.lif.limitData ∧
    (State.commitLocks before p m s r).lif.limitControl = s.lif.limitControl ∧
    (State.commitLocks before p m s r).lif.limitPlatform = s.lif.limitPlatform ∧
    (State.commitLocks before p m s r).lif.outstanding = s.lif.outstanding ∧
    (State.commitLocks before p m s r).lif.freeCredits = s.lif.freeCredits ∧
    (State.commitLocks before p m s r).lif.nextTag = s.lif.nextTag ∧
    (State.commitLocks before p m s r).lif.erroredBursts = s.lif.erroredBursts ∧
    (State.commitLocks before p m s r).lif.burstTaken = s.lif.burstTaken ∧
    (State.commitLocks before p m s r).lif.burstErrored = s.lif.burstErrored ∧
    (State.commitLocks before p m s r).lif.burstDropped = s.lif.burstDropped ∧
    (State.commitLocks before p m s r).lif.session = s.lif.session ∧ (State.commitLocks before p m s r).cru = s.cru ∧
    (State.commitLocks before p m s r).btc = s.btc ∧
    (State.commitLocks before p m s r).kst.reservation = s.kst.reservation ∧
    (State.commitLocks before p m s r).rtb.resealOnWake = s.rtb.resealOnWake ∧
    (State.commitLocks before p m s r).rtb.staged = s.rtb.staged ∧
    (State.commitLocks before p m s r).rtb.commit = s.rtb.commit ∧
    (State.commitLocks before p m s r).rtb.preparing = s.rtb.preparing ∧
    (State.commitLocks before p m s r).rtb.startCommit = s.rtb.startCommit ∧
    (State.commitLocks before p m s r).rsu = s.rsu ∧ (State.commitLocks before p m s r).wpe = s.wpe ∧
    (State.commitLocks before p m s r).sst.units = s.sst.units ∧
    (State.commitLocks before p m s r).sst.labelCopy = s.sst.labelCopy ∧
    (State.commitLocks before p m s r).sst.marks = s.sst.marks ∧
    (State.commitLocks before p m s r).sst.serving = s.sst.serving ∧
    (State.commitLocks before p m s r).sst.lastDevice = s.sst.lastDevice ∧
    (State.commitLocks before p m s r).sst.seconds = s.sst.seconds ∧
    (State.commitLocks before p m s r).sst.power = s.sst.power ∧
    (State.commitLocks before p m s r).sst.drain = s.sst.drain ∧
    (State.commitLocks before p m s r).sst.downMark = s.sst.downMark ∧
    (State.commitLocks before p m s r).sst.ready = s.sst.ready ∧
    (State.commitLocks before p m s r).sst.retention = s.sst.retention ∧
    (State.commitLocks before p m s r).fresh = s.fresh := by
  unfold State.commitLocks; (try dsimp only); (repeat' split) <;> first | (simp; done) | simp [apply_ite]

@[simp] theorem State.install_frame (s : State) (p : Plan) (m : Prepared) (named : List Nat) :
    (s.install p m named).1.lif = s.lif ∧ (s.install p m named).1.cru = s.cru ∧ (s.install p m named).1.btc = s.btc ∧
    (s.install p m named).1.kst.reservation = s.kst.reservation ∧ (s.install p m named).1.rtb.staged = s.rtb.staged ∧
    (s.install p m named).1.rtb.commit = s.rtb.commit ∧ (s.install p m named).1.rtb.preparing = s.rtb.preparing ∧
    (s.install p m named).1.rtb.startCommit = s.rtb.startCommit ∧ (s.install p m named).1.dpu = s.dpu ∧
    (s.install p m named).1.rsu = s.rsu ∧ (s.install p m named).1.wpe = s.wpe ∧
    (s.install p m named).1.sst.units = s.sst.units ∧ (s.install p m named).1.sst.labelCopy = s.sst.labelCopy ∧
    (s.install p m named).1.sst.marks = s.sst.marks ∧ (s.install p m named).1.sst.serving = s.sst.serving ∧
    (s.install p m named).1.sst.lastDevice = s.sst.lastDevice ∧ (s.install p m named).1.sst.seconds = s.sst.seconds ∧
    (s.install p m named).1.sst.power = s.sst.power ∧ (s.install p m named).1.sst.drain = s.sst.drain ∧
    (s.install p m named).1.sst.downMark = s.sst.downMark ∧ (s.install p m named).1.sst.ready = s.sst.ready ∧
    (s.install p m named).1.sst.retention = s.sst.retention ∧ (s.install p m named).1.fresh = s.fresh := by
  unfold State.install; (try dsimp only); (repeat' split) <;> first | (simp; done) | simp [apply_ite]

@[simp] theorem State.enterWriting_frame (s : State) : s.enterWriting.lif.started = s.lif.started ∧
    s.enterWriting.lif.mediaCredits = s.lif.mediaCredits ∧ s.enterWriting.lif.capacity = s.lif.capacity ∧
    s.enterWriting.lif.imageBase = s.lif.imageBase ∧ s.enterWriting.lif.scratchBase = s.lif.scratchBase ∧
    s.enterWriting.lif.limitData = s.lif.limitData ∧ s.enterWriting.lif.limitControl = s.lif.limitControl ∧
    s.enterWriting.lif.limitPlatform = s.lif.limitPlatform ∧ s.enterWriting.lif.outstanding = s.lif.outstanding ∧
    s.enterWriting.lif.freeCredits = s.lif.freeCredits ∧ s.enterWriting.lif.nextTag = s.lif.nextTag ∧
    s.enterWriting.lif.erroredBursts = s.lif.erroredBursts ∧ s.enterWriting.lif.burstTaken = s.lif.burstTaken ∧
    s.enterWriting.lif.burstErrored = s.lif.burstErrored ∧ s.enterWriting.lif.burstDropped = s.lif.burstDropped ∧
    s.enterWriting.lif.session = s.lif.session ∧ s.enterWriting.cru = s.cru ∧ s.enterWriting.btc = s.btc ∧
    s.enterWriting.rtb.preparing = s.rtb.preparing ∧ s.enterWriting.rtb.startCommit = s.rtb.startCommit ∧
    s.enterWriting.rsu = s.rsu ∧ s.enterWriting.wpe = s.wpe ∧ s.enterWriting.sst.units = s.sst.units ∧
    s.enterWriting.sst.labelCopy = s.sst.labelCopy ∧ s.enterWriting.sst.marks = s.sst.marks ∧
    s.enterWriting.sst.serving = s.sst.serving ∧ s.enterWriting.sst.lastDevice = s.sst.lastDevice ∧
    s.enterWriting.sst.seconds = s.sst.seconds ∧ s.enterWriting.sst.power = s.sst.power ∧
    s.enterWriting.sst.drain = s.sst.drain ∧ s.enterWriting.sst.downMark = s.sst.downMark ∧
    s.enterWriting.sst.ready = s.sst.ready ∧ s.enterWriting.sst.retention = s.sst.retention := by
  unfold State.enterWriting; (try dsimp only); (repeat' split) <;> first | (simp; done) | simp [apply_ite]

@[simp] theorem State.settleDrain_frame (s : State) : s.settleDrain.lif.started = s.lif.started ∧
    s.settleDrain.lif.mediaCredits = s.lif.mediaCredits ∧ s.settleDrain.lif.capacity = s.lif.capacity ∧
    s.settleDrain.lif.imageBase = s.lif.imageBase ∧ s.settleDrain.lif.scratchBase = s.lif.scratchBase ∧
    s.settleDrain.lif.limitData = s.lif.limitData ∧ s.settleDrain.lif.limitControl = s.lif.limitControl ∧
    s.settleDrain.lif.limitPlatform = s.lif.limitPlatform ∧ s.settleDrain.lif.outstanding = s.lif.outstanding ∧
    s.settleDrain.lif.freeCredits = s.lif.freeCredits ∧ s.settleDrain.lif.nextTag = s.lif.nextTag ∧
    s.settleDrain.lif.erroredBursts = s.lif.erroredBursts ∧ s.settleDrain.lif.burstTaken = s.lif.burstTaken ∧
    s.settleDrain.lif.burstErrored = s.lif.burstErrored ∧ s.settleDrain.lif.burstDropped = s.lif.burstDropped ∧
    s.settleDrain.lif.session = s.lif.session ∧ s.settleDrain.cru = s.cru ∧ s.settleDrain.btc = s.btc ∧
    s.settleDrain.rtb.preparing = s.rtb.preparing ∧ s.settleDrain.rtb.startCommit = s.rtb.startCommit ∧
    s.settleDrain.rsu = s.rsu ∧ s.settleDrain.wpe = s.wpe ∧ s.settleDrain.sst.units = s.sst.units ∧
    s.settleDrain.sst.labelCopy = s.sst.labelCopy ∧ s.settleDrain.sst.marks = s.sst.marks ∧
    s.settleDrain.sst.serving = s.sst.serving ∧ s.settleDrain.sst.lastDevice = s.sst.lastDevice ∧
    s.settleDrain.sst.seconds = s.sst.seconds ∧ s.settleDrain.sst.power = s.sst.power ∧
    s.settleDrain.sst.drain = s.sst.drain ∧ s.settleDrain.sst.downMark = s.sst.downMark ∧
    s.settleDrain.sst.ready = s.sst.ready ∧ s.settleDrain.sst.retention = s.sst.retention := by
  unfold State.settleDrain; (try dsimp only); (repeat' split) <;> first | (simp; done) | simp [apply_ite]

@[simp] theorem State.abandonCommit_frame (s : State) : s.abandonCommit.lif.started = s.lif.started ∧
    s.abandonCommit.lif.mediaCredits = s.lif.mediaCredits ∧ s.abandonCommit.lif.capacity = s.lif.capacity ∧
    s.abandonCommit.lif.imageBase = s.lif.imageBase ∧ s.abandonCommit.lif.scratchBase = s.lif.scratchBase ∧
    s.abandonCommit.lif.limitData = s.lif.limitData ∧ s.abandonCommit.lif.limitControl = s.lif.limitControl ∧
    s.abandonCommit.lif.limitPlatform = s.lif.limitPlatform ∧ s.abandonCommit.lif.outstanding = s.lif.outstanding ∧
    s.abandonCommit.lif.freeCredits = s.lif.freeCredits ∧ s.abandonCommit.lif.nextTag = s.lif.nextTag ∧
    s.abandonCommit.lif.erroredBursts = s.lif.erroredBursts ∧ s.abandonCommit.lif.burstTaken = s.lif.burstTaken ∧
    s.abandonCommit.lif.burstErrored = s.lif.burstErrored ∧ s.abandonCommit.lif.burstDropped = s.lif.burstDropped ∧
    s.abandonCommit.lif.session = s.lif.session ∧ s.abandonCommit.cru = s.cru ∧ s.abandonCommit.btc = s.btc ∧
    s.abandonCommit.kst.slots = s.kst.slots ∧ s.abandonCommit.kst.loads = s.kst.loads ∧
    s.abandonCommit.kst.hold = s.kst.hold ∧ s.abandonCommit.rtb.entries = s.rtb.entries ∧
    s.abandonCommit.rtb.resealOnWake = s.rtb.resealOnWake ∧ s.abandonCommit.rtb.staged = s.rtb.staged ∧
    s.abandonCommit.rtb.preparing = s.rtb.preparing ∧ s.abandonCommit.rtb.startCommit = s.rtb.startCommit ∧
    s.abandonCommit.dpu = s.dpu ∧ s.abandonCommit.rke = s.rke ∧ s.abandonCommit.rsu = s.rsu ∧
    s.abandonCommit.wpe = s.wpe ∧ s.abandonCommit.sst = s.sst ∧ s.abandonCommit.fresh = s.fresh := by
  unfold State.abandonCommit; (try dsimp only); (repeat' split) <;> first | (simp; done) | simp [apply_ite]

@[simp] theorem State.placeWaveThree_frame (s : State) : s.placeWaveThree.lif = s.lif ∧ s.placeWaveThree.cru = s.cru ∧
    s.placeWaveThree.btc = s.btc ∧ s.placeWaveThree.kst = s.kst ∧ s.placeWaveThree.rtb.entries = s.rtb.entries ∧
    s.placeWaveThree.rtb.resealOnWake = s.rtb.resealOnWake ∧ s.placeWaveThree.rtb.staged = s.rtb.staged ∧
    s.placeWaveThree.rtb.preparing = s.rtb.preparing ∧ s.placeWaveThree.rtb.startCommit = s.rtb.startCommit ∧
    s.placeWaveThree.dpu = s.dpu ∧ s.placeWaveThree.rke = s.rke ∧ s.placeWaveThree.rsu = s.rsu ∧
    s.placeWaveThree.wpe = s.wpe ∧ s.placeWaveThree.sst.units = s.sst.units ∧
    s.placeWaveThree.sst.labelCopy = s.sst.labelCopy ∧ s.placeWaveThree.sst.marks = s.sst.marks ∧
    s.placeWaveThree.sst.serving = s.sst.serving ∧ s.placeWaveThree.sst.lastDevice = s.sst.lastDevice ∧
    s.placeWaveThree.sst.seconds = s.sst.seconds ∧ s.placeWaveThree.sst.power = s.sst.power ∧
    s.placeWaveThree.sst.drain = s.sst.drain ∧ s.placeWaveThree.sst.downMark = s.sst.downMark ∧
    s.placeWaveThree.sst.ready = s.sst.ready ∧ s.placeWaveThree.sst.retention = s.sst.retention ∧
    s.placeWaveThree.fresh = s.fresh ∧ s.placeWaveThree.sent = s.sent := by
  unfold State.placeWaveThree; (try dsimp only); (repeat' split) <;> first | (simp; done) | simp [apply_ite]

@[simp] theorem State.placeWaveTwo_frame (s : State) : s.placeWaveTwo.lif = s.lif ∧ s.placeWaveTwo.cru = s.cru ∧
    s.placeWaveTwo.btc = s.btc ∧ s.placeWaveTwo.kst = s.kst ∧ s.placeWaveTwo.rtb.entries = s.rtb.entries ∧
    s.placeWaveTwo.rtb.resealOnWake = s.rtb.resealOnWake ∧ s.placeWaveTwo.rtb.staged = s.rtb.staged ∧
    s.placeWaveTwo.rtb.preparing = s.rtb.preparing ∧ s.placeWaveTwo.rtb.startCommit = s.rtb.startCommit ∧
    s.placeWaveTwo.dpu = s.dpu ∧ s.placeWaveTwo.rke = s.rke ∧ s.placeWaveTwo.rsu = s.rsu ∧
    s.placeWaveTwo.wpe = s.wpe ∧ s.placeWaveTwo.sst.units = s.sst.units ∧
    s.placeWaveTwo.sst.labelCopy = s.sst.labelCopy ∧ s.placeWaveTwo.sst.marks = s.sst.marks ∧
    s.placeWaveTwo.sst.serving = s.sst.serving ∧ s.placeWaveTwo.sst.seconds = s.sst.seconds ∧
    s.placeWaveTwo.sst.power = s.sst.power ∧ s.placeWaveTwo.sst.drain = s.sst.drain ∧
    s.placeWaveTwo.sst.downMark = s.sst.downMark ∧ s.placeWaveTwo.sst.ready = s.sst.ready ∧
    s.placeWaveTwo.sst.retention = s.sst.retention ∧ s.placeWaveTwo.fresh = s.fresh ∧
    s.placeWaveTwo.sent = s.sent := by
  unfold State.placeWaveTwo; (try dsimp only); (repeat' split) <;> first | (simp; done) | simp [apply_ite]

@[simp] theorem State.commitWaveDone_frame (s : State) : s.commitWaveDone.lif.started = s.lif.started ∧
    s.commitWaveDone.lif.mediaCredits = s.lif.mediaCredits ∧ s.commitWaveDone.lif.capacity = s.lif.capacity ∧
    s.commitWaveDone.lif.imageBase = s.lif.imageBase ∧ s.commitWaveDone.lif.scratchBase = s.lif.scratchBase ∧
    s.commitWaveDone.lif.limitData = s.lif.limitData ∧ s.commitWaveDone.lif.limitControl = s.lif.limitControl ∧
    s.commitWaveDone.lif.limitPlatform = s.lif.limitPlatform ∧ s.commitWaveDone.lif.outstanding = s.lif.outstanding ∧
    s.commitWaveDone.lif.freeCredits = s.lif.freeCredits ∧ s.commitWaveDone.lif.nextTag = s.lif.nextTag ∧
    s.commitWaveDone.lif.erroredBursts = s.lif.erroredBursts ∧ s.commitWaveDone.lif.burstTaken = s.lif.burstTaken ∧
    s.commitWaveDone.lif.burstErrored = s.lif.burstErrored ∧ s.commitWaveDone.lif.burstDropped = s.lif.burstDropped ∧
    s.commitWaveDone.lif.session = s.lif.session ∧ s.commitWaveDone.cru = s.cru ∧ s.commitWaveDone.btc = s.btc ∧
    s.commitWaveDone.kst = s.kst ∧ s.commitWaveDone.rtb.entries = s.rtb.entries ∧
    s.commitWaveDone.rtb.resealOnWake = s.rtb.resealOnWake ∧ s.commitWaveDone.rtb.preparing = s.rtb.preparing ∧
    s.commitWaveDone.rtb.startCommit = s.rtb.startCommit ∧ s.commitWaveDone.dpu = s.dpu ∧
    s.commitWaveDone.rke = s.rke ∧ s.commitWaveDone.rsu = s.rsu ∧ s.commitWaveDone.wpe = s.wpe ∧
    s.commitWaveDone.sst.units = s.sst.units ∧ s.commitWaveDone.sst.labelCopy = s.sst.labelCopy ∧
    s.commitWaveDone.sst.marks = s.sst.marks ∧ s.commitWaveDone.sst.serving = s.sst.serving ∧
    s.commitWaveDone.sst.seconds = s.sst.seconds ∧ s.commitWaveDone.sst.power = s.sst.power ∧
    s.commitWaveDone.sst.drain = s.sst.drain ∧ s.commitWaveDone.sst.downMark = s.sst.downMark ∧
    s.commitWaveDone.sst.ready = s.sst.ready ∧ s.commitWaveDone.sst.retention = s.sst.retention ∧
    s.commitWaveDone.fresh = s.fresh := by
  unfold State.commitWaveDone; (try dsimp only); (repeat' split) <;> first | (simp; done) | simp [apply_ite]

@[simp] theorem State.deferredDone_frame (s : State) (rto : ReplyTo) :
    (s.deferredDone rto).lif.started = s.lif.started ∧ (s.deferredDone rto).lif.mediaCredits = s.lif.mediaCredits ∧
    (s.deferredDone rto).lif.capacity = s.lif.capacity ∧ (s.deferredDone rto).lif.imageBase = s.lif.imageBase ∧
    (s.deferredDone rto).lif.scratchBase = s.lif.scratchBase ∧ (s.deferredDone rto).lif.limitData = s.lif.limitData ∧
    (s.deferredDone rto).lif.limitControl = s.lif.limitControl ∧
    (s.deferredDone rto).lif.limitPlatform = s.lif.limitPlatform ∧
    (s.deferredDone rto).lif.outstanding = s.lif.outstanding ∧
    (s.deferredDone rto).lif.freeCredits = s.lif.freeCredits ∧ (s.deferredDone rto).lif.nextTag = s.lif.nextTag ∧
    (s.deferredDone rto).lif.erroredBursts = s.lif.erroredBursts ∧
    (s.deferredDone rto).lif.burstTaken = s.lif.burstTaken ∧
    (s.deferredDone rto).lif.burstErrored = s.lif.burstErrored ∧
    (s.deferredDone rto).lif.burstDropped = s.lif.burstDropped ∧ (s.deferredDone rto).lif.session = s.lif.session ∧
    (s.deferredDone rto).cru = s.cru ∧ (s.deferredDone rto).btc = s.btc ∧ (s.deferredDone rto).kst = s.kst ∧
    (s.deferredDone rto).rtb.entries = s.rtb.entries ∧ (s.deferredDone rto).rtb.resealOnWake = s.rtb.resealOnWake ∧
    (s.deferredDone rto).rtb.staged = s.rtb.staged ∧ (s.deferredDone rto).rtb.commit = s.rtb.commit ∧
    (s.deferredDone rto).rtb.startCommit = s.rtb.startCommit ∧ (s.deferredDone rto).dpu = s.dpu ∧
    (s.deferredDone rto).rke = s.rke ∧ (s.deferredDone rto).rsu = s.rsu ∧ (s.deferredDone rto).wpe = s.wpe ∧
    (s.deferredDone rto).sst = s.sst ∧ (s.deferredDone rto).fresh = s.fresh := by
  unfold State.deferredDone; (try dsimp only); (repeat' split) <;> first | (simp; done) | simp [apply_ite]

/-! ### Operations of wipe chains -/

@[simp] theorem State.mapChain_frame (s : State) (k : ChainKind) (g : Chain → Chain) : (s.mapChain k g).lif = s.lif ∧
    (s.mapChain k g).cru = s.cru ∧ (s.mapChain k g).btc = s.btc ∧ (s.mapChain k g).kst = s.kst ∧
    (s.mapChain k g).rtb = s.rtb ∧ (s.mapChain k g).dpu = s.dpu ∧ (s.mapChain k g).rke = s.rke ∧
    (s.mapChain k g).rsu = s.rsu ∧ (s.mapChain k g).sst = s.sst ∧ (s.mapChain k g).fresh = s.fresh ∧
    (s.mapChain k g).sent = s.sent := by
  unfold State.mapChain; (try dsimp only); (repeat' split) <;> first | (simp; done) | simp [apply_ite]

@[simp] theorem State.createChain_frame (s : State) (k : ChainKind) (o : Origin) (steps : List WipeStep) (ws : List Waiter) :
    (s.createChain k o steps ws).lif = s.lif ∧ (s.createChain k o steps ws).cru = s.cru ∧
    (s.createChain k o steps ws).btc = s.btc ∧ (s.createChain k o steps ws).kst = s.kst ∧
    (s.createChain k o steps ws).rtb = s.rtb ∧ (s.createChain k o steps ws).dpu = s.dpu ∧
    (s.createChain k o steps ws).rke = s.rke ∧ (s.createChain k o steps ws).rsu = s.rsu ∧
    (s.createChain k o steps ws).sst.units = s.sst.units ∧
    (s.createChain k o steps ws).sst.labelCopy = s.sst.labelCopy ∧
    (s.createChain k o steps ws).sst.marks = s.sst.marks ∧ (s.createChain k o steps ws).sst.serving = s.sst.serving ∧
    (s.createChain k o steps ws).sst.lastDevice = s.sst.lastDevice ∧
    (s.createChain k o steps ws).sst.seconds = s.sst.seconds ∧ (s.createChain k o steps ws).sst.power = s.sst.power ∧
    (s.createChain k o steps ws).sst.drain = s.sst.drain ∧
    (s.createChain k o steps ws).sst.downMark = s.sst.downMark ∧
    (s.createChain k o steps ws).sst.ready = s.sst.ready ∧
    (s.createChain k o steps ws).sst.retention = s.sst.retention ∧ (s.createChain k o steps ws).fresh = s.fresh ∧
    (s.createChain k o steps ws).sent = s.sent := by
  unfold State.createChain; (try dsimp only); (repeat' split) <;> first | (simp; done) | simp [apply_ite]

@[simp] theorem State.giveStep_frame (s : State) (fill : Bool) (o : Origin) (ws : List Waiter) :
    (s.giveStep fill o ws).lif = s.lif ∧ (s.giveStep fill o ws).cru = s.cru ∧ (s.giveStep fill o ws).btc = s.btc ∧
    (s.giveStep fill o ws).kst = s.kst ∧ (s.giveStep fill o ws).rtb = s.rtb ∧ (s.giveStep fill o ws).dpu = s.dpu ∧
    (s.giveStep fill o ws).rke = s.rke ∧ (s.giveStep fill o ws).rsu = s.rsu ∧
    (s.giveStep fill o ws).sst.units = s.sst.units ∧ (s.giveStep fill o ws).sst.labelCopy = s.sst.labelCopy ∧
    (s.giveStep fill o ws).sst.marks = s.sst.marks ∧ (s.giveStep fill o ws).sst.serving = s.sst.serving ∧
    (s.giveStep fill o ws).sst.lastDevice = s.sst.lastDevice ∧ (s.giveStep fill o ws).sst.seconds = s.sst.seconds ∧
    (s.giveStep fill o ws).sst.power = s.sst.power ∧ (s.giveStep fill o ws).sst.drain = s.sst.drain ∧
    (s.giveStep fill o ws).sst.downMark = s.sst.downMark ∧ (s.giveStep fill o ws).sst.ready = s.sst.ready ∧
    (s.giveStep fill o ws).sst.retention = s.sst.retention ∧ (s.giveStep fill o ws).fresh = s.fresh ∧
    (s.giveStep fill o ws).sent = s.sent := by
  unfold State.giveStep; (try dsimp only); (repeat' split) <;> first | (simp; done) | simp [apply_ite]

@[simp] theorem State.stepCompleted_frame (s : State) (k : ChainKind) (c : Chain) :
    (s.stepCompleted k c).lif = s.lif ∧ (s.stepCompleted k c).cru = s.cru ∧ (s.stepCompleted k c).btc = s.btc ∧
    (s.stepCompleted k c).kst = s.kst ∧ (s.stepCompleted k c).rtb = s.rtb ∧ (s.stepCompleted k c).dpu = s.dpu ∧
    (s.stepCompleted k c).rke = s.rke ∧ (s.stepCompleted k c).rsu = s.rsu ∧
    (s.stepCompleted k c).sst.units = s.sst.units ∧ (s.stepCompleted k c).sst.labelCopy = s.sst.labelCopy ∧
    (s.stepCompleted k c).sst.marks = s.sst.marks ∧ (s.stepCompleted k c).sst.serving = s.sst.serving ∧
    (s.stepCompleted k c).sst.lastDevice = s.sst.lastDevice ∧ (s.stepCompleted k c).sst.seconds = s.sst.seconds ∧
    (s.stepCompleted k c).sst.power = s.sst.power ∧ (s.stepCompleted k c).sst.drain = s.sst.drain ∧
    (s.stepCompleted k c).sst.downMark = s.sst.downMark ∧ (s.stepCompleted k c).sst.ready = s.sst.ready ∧
    (s.stepCompleted k c).sst.retention = s.sst.retention ∧ (s.stepCompleted k c).fresh = s.fresh ∧
    (s.stepCompleted k c).sent = s.sent := by
  unfold State.stepCompleted; (try dsimp only); (repeat' split) <;> first | (simp; done) | simp [apply_ite]

@[simp] theorem State.chainEnded_frame (s : State) (k : ChainKind) (no : Nat) : (s.chainEnded k no).lif = s.lif ∧
    (s.chainEnded k no).cru = s.cru ∧ (s.chainEnded k no).btc = s.btc ∧ (s.chainEnded k no).kst = s.kst ∧
    (s.chainEnded k no).rtb = s.rtb ∧ (s.chainEnded k no).dpu = s.dpu ∧ (s.chainEnded k no).rke = s.rke ∧
    (s.chainEnded k no).rsu = s.rsu ∧ (s.chainEnded k no).sst = s.sst ∧ (s.chainEnded k no).fresh = s.fresh := by
  unfold State.chainEnded; (try dsimp only); (repeat' split) <;> first | (simp; done) | simp [apply_ite]

@[simp] theorem State.finishStep_frame (s : State) (k : ChainKind) : (s.finishStep k).lif = s.lif ∧
    (s.finishStep k).cru = s.cru ∧ (s.finishStep k).kst = s.kst ∧ (s.finishStep k).rtb = s.rtb ∧
    (s.finishStep k).dpu = s.dpu ∧ (s.finishStep k).rke = s.rke ∧ (s.finishStep k).rsu = s.rsu ∧
    (s.finishStep k).sst.units = s.sst.units ∧ (s.finishStep k).sst.labelCopy = s.sst.labelCopy ∧
    (s.finishStep k).sst.marks = s.sst.marks ∧ (s.finishStep k).sst.serving = s.sst.serving ∧
    (s.finishStep k).sst.lastDevice = s.sst.lastDevice ∧ (s.finishStep k).sst.seconds = s.sst.seconds ∧
    (s.finishStep k).sst.power = s.sst.power ∧ (s.finishStep k).sst.drain = s.sst.drain ∧
    (s.finishStep k).sst.downMark = s.sst.downMark ∧ (s.finishStep k).sst.ready = s.sst.ready ∧
    (s.finishStep k).sst.retention = s.sst.retention ∧ (s.finishStep k).fresh = s.fresh ∧
    (s.finishStep k).sent = s.sent := by
  unfold State.finishStep; (try dsimp only); (repeat' split) <;> first | (simp; done) | simp [apply_ite]

@[simp] theorem State.stepWorkDone_frame (s : State) (k : ChainKind) (no : Nat) : (s.stepWorkDone k no).lif = s.lif ∧
    (s.stepWorkDone k no).cru = s.cru ∧ (s.stepWorkDone k no).kst = s.kst ∧ (s.stepWorkDone k no).rtb = s.rtb ∧
    (s.stepWorkDone k no).dpu = s.dpu ∧ (s.stepWorkDone k no).rke = s.rke ∧ (s.stepWorkDone k no).rsu = s.rsu ∧
    (s.stepWorkDone k no).sst.units = s.sst.units ∧ (s.stepWorkDone k no).sst.labelCopy = s.sst.labelCopy ∧
    (s.stepWorkDone k no).sst.marks = s.sst.marks ∧ (s.stepWorkDone k no).sst.serving = s.sst.serving ∧
    (s.stepWorkDone k no).sst.lastDevice = s.sst.lastDevice ∧ (s.stepWorkDone k no).sst.seconds = s.sst.seconds ∧
    (s.stepWorkDone k no).sst.power = s.sst.power ∧ (s.stepWorkDone k no).sst.drain = s.sst.drain ∧
    (s.stepWorkDone k no).sst.downMark = s.sst.downMark ∧ (s.stepWorkDone k no).sst.ready = s.sst.ready ∧
    (s.stepWorkDone k no).sst.retention = s.sst.retention ∧ (s.stepWorkDone k no).fresh = s.fresh ∧
    (s.stepWorkDone k no).sent = s.sent := by
  unfold State.stepWorkDone; (try dsimp only); (repeat' split) <;> first | (simp; done) | simp [apply_ite]

@[simp] theorem State.abortCut_frame (s : State) : s.abortCut.lif.started = s.lif.started ∧
    s.abortCut.lif.mediaCredits = s.lif.mediaCredits ∧ s.abortCut.lif.capacity = s.lif.capacity ∧
    s.abortCut.lif.imageBase = s.lif.imageBase ∧ s.abortCut.lif.scratchBase = s.lif.scratchBase ∧
    s.abortCut.lif.limitData = s.lif.limitData ∧ s.abortCut.lif.limitControl = s.lif.limitControl ∧
    s.abortCut.lif.limitPlatform = s.lif.limitPlatform ∧ s.abortCut.lif.outstanding = s.lif.outstanding ∧
    s.abortCut.lif.freeCredits = s.lif.freeCredits ∧ s.abortCut.lif.nextTag = s.lif.nextTag ∧
    s.abortCut.lif.erroredBursts = s.lif.erroredBursts ∧ s.abortCut.lif.burstTaken = s.lif.burstTaken ∧
    s.abortCut.lif.burstErrored = s.lif.burstErrored ∧ s.abortCut.lif.burstDropped = s.lif.burstDropped ∧
    s.abortCut.lif.session = s.lif.session ∧ s.abortCut.cru = s.cru ∧ s.abortCut.btc = s.btc ∧
    s.abortCut.kst.hold = s.kst.hold ∧ s.abortCut.kst.reservation = s.kst.reservation ∧ s.abortCut.rtb = s.rtb ∧
    s.abortCut.rke = s.rke ∧ s.abortCut.rsu = s.rsu ∧ s.abortCut.wpe = s.wpe ∧ s.abortCut.sst.units = s.sst.units ∧
    s.abortCut.sst.labelCopy = s.sst.labelCopy ∧ s.abortCut.sst.marks = s.sst.marks ∧
    s.abortCut.sst.serving = s.sst.serving ∧ s.abortCut.sst.lastDevice = s.sst.lastDevice ∧
    s.abortCut.sst.seconds = s.sst.seconds ∧ s.abortCut.sst.power = s.sst.power ∧ s.abortCut.sst.drain = s.sst.drain ∧
    s.abortCut.sst.downMark = s.sst.downMark ∧ s.abortCut.sst.ready = s.sst.ready ∧
    s.abortCut.sst.retention = s.sst.retention ∧ s.abortCut.fresh = s.fresh := by
  unfold State.abortCut; (try dsimp only); (repeat' split) <;> first | (simp; done) | simp [apply_ite]

@[simp] theorem State.cut_frame (s : State) : s.cut.lif.started = s.lif.started ∧
    s.cut.lif.mediaCredits = s.lif.mediaCredits ∧ s.cut.lif.capacity = s.lif.capacity ∧
    s.cut.lif.imageBase = s.lif.imageBase ∧ s.cut.lif.scratchBase = s.lif.scratchBase ∧
    s.cut.lif.limitData = s.lif.limitData ∧ s.cut.lif.limitControl = s.lif.limitControl ∧
    s.cut.lif.limitPlatform = s.lif.limitPlatform ∧ s.cut.lif.outstanding = s.lif.outstanding ∧
    s.cut.lif.freeCredits = s.lif.freeCredits ∧ s.cut.lif.nextTag = s.lif.nextTag ∧
    s.cut.lif.erroredBursts = s.lif.erroredBursts ∧ s.cut.lif.burstTaken = s.lif.burstTaken ∧
    s.cut.lif.burstErrored = s.lif.burstErrored ∧ s.cut.lif.burstDropped = s.lif.burstDropped ∧
    s.cut.lif.session = s.lif.session ∧ s.cut.cru = s.cru ∧ s.cut.btc = s.btc ∧
    s.cut.rtb.resealOnWake = s.rtb.resealOnWake ∧ s.cut.rtb.preparing = s.rtb.preparing ∧
    s.cut.rtb.startCommit = s.rtb.startCommit ∧ s.cut.rsu = s.rsu ∧ s.cut.wpe = s.wpe ∧
    s.cut.sst.units = s.sst.units ∧ s.cut.sst.labelCopy = s.sst.labelCopy ∧ s.cut.sst.marks = s.sst.marks ∧
    s.cut.sst.serving = s.sst.serving ∧ s.cut.sst.lastDevice = s.sst.lastDevice ∧ s.cut.sst.seconds = s.sst.seconds ∧
    s.cut.sst.power = s.sst.power ∧ s.cut.sst.drain = s.sst.drain ∧ s.cut.sst.downMark = s.sst.downMark ∧
    s.cut.sst.ready = s.sst.ready ∧ s.cut.sst.retention = s.sst.retention ∧ s.cut.fresh = s.fresh := by
  unfold State.cut; (try dsimp only); (repeat' split) <;> first | (simp; done) | simp [apply_ite]

@[simp] theorem State.beginCut_frame (s : State) (k : ChainKind) (c : Chain) :
    (s.beginCut k c).lif.started = s.lif.started ∧ (s.beginCut k c).lif.mediaCredits = s.lif.mediaCredits ∧
    (s.beginCut k c).lif.capacity = s.lif.capacity ∧ (s.beginCut k c).lif.imageBase = s.lif.imageBase ∧
    (s.beginCut k c).lif.scratchBase = s.lif.scratchBase ∧ (s.beginCut k c).lif.limitData = s.lif.limitData ∧
    (s.beginCut k c).lif.limitControl = s.lif.limitControl ∧
    (s.beginCut k c).lif.limitPlatform = s.lif.limitPlatform ∧ (s.beginCut k c).lif.outstanding = s.lif.outstanding ∧
    (s.beginCut k c).lif.freeCredits = s.lif.freeCredits ∧ (s.beginCut k c).lif.nextTag = s.lif.nextTag ∧
    (s.beginCut k c).lif.erroredBursts = s.lif.erroredBursts ∧ (s.beginCut k c).lif.burstTaken = s.lif.burstTaken ∧
    (s.beginCut k c).lif.burstErrored = s.lif.burstErrored ∧ (s.beginCut k c).lif.burstDropped = s.lif.burstDropped ∧
    (s.beginCut k c).lif.session = s.lif.session ∧ (s.beginCut k c).cru = s.cru ∧
    (s.beginCut k c).rtb.resealOnWake = s.rtb.resealOnWake ∧ (s.beginCut k c).rtb.preparing = s.rtb.preparing ∧
    (s.beginCut k c).rtb.startCommit = s.rtb.startCommit ∧ (s.beginCut k c).rsu = s.rsu ∧
    (s.beginCut k c).sst.units = s.sst.units ∧ (s.beginCut k c).sst.labelCopy = s.sst.labelCopy ∧
    (s.beginCut k c).sst.marks = s.sst.marks ∧ (s.beginCut k c).sst.serving = s.sst.serving ∧
    (s.beginCut k c).sst.seconds = s.sst.seconds ∧ (s.beginCut k c).sst.power = s.sst.power ∧
    (s.beginCut k c).sst.drain = s.sst.drain ∧ (s.beginCut k c).sst.downMark = s.sst.downMark ∧
    (s.beginCut k c).sst.ready = s.sst.ready ∧ (s.beginCut k c).sst.retention = s.sst.retention ∧
    (s.beginCut k c).fresh = s.fresh := by
  unfold State.beginCut; (try dsimp only); (repeat' split) <;> first | (simp; done) | simp [apply_ite]

@[simp] theorem State.cutCredentials_frame (s : State) (k : ChainKind) : (s.cutCredentials k).lif = s.lif ∧
    (s.cutCredentials k).cru.ops = s.cru.ops ∧ (s.cutCredentials k).btc = s.btc ∧ (s.cutCredentials k).kst = s.kst ∧
    (s.cutCredentials k).rtb = s.rtb ∧ (s.cutCredentials k).dpu = s.dpu ∧ (s.cutCredentials k).rke = s.rke ∧
    (s.cutCredentials k).rsu = s.rsu ∧ (s.cutCredentials k).sst.units = s.sst.units ∧
    (s.cutCredentials k).sst.labelCopy = s.sst.labelCopy ∧ (s.cutCredentials k).sst.marks = s.sst.marks ∧
    (s.cutCredentials k).sst.serving = s.sst.serving ∧ (s.cutCredentials k).sst.lastDevice = s.sst.lastDevice ∧
    (s.cutCredentials k).sst.seconds = s.sst.seconds ∧ (s.cutCredentials k).sst.power = s.sst.power ∧
    (s.cutCredentials k).sst.drain = s.sst.drain ∧ (s.cutCredentials k).sst.downMark = s.sst.downMark ∧
    (s.cutCredentials k).sst.ready = s.sst.ready ∧ (s.cutCredentials k).sst.retention = s.sst.retention ∧
    (s.cutCredentials k).fresh = s.fresh ∧ (s.cutCredentials k).sent = s.sent := by
  unfold State.cutCredentials; (try dsimp only); (repeat' split) <;> first | (simp; done) | simp [apply_ite]

@[simp] theorem State.resumeCutCredentials_frame (s : State) (k : ChainKind) :
    (s.resumeCutCredentials k).lif = s.lif ∧ (s.resumeCutCredentials k).cru.ops = s.cru.ops ∧
    (s.resumeCutCredentials k).btc = s.btc ∧ (s.resumeCutCredentials k).kst = s.kst ∧
    (s.resumeCutCredentials k).rtb = s.rtb ∧ (s.resumeCutCredentials k).dpu = s.dpu ∧
    (s.resumeCutCredentials k).rke = s.rke ∧ (s.resumeCutCredentials k).rsu = s.rsu ∧
    (s.resumeCutCredentials k).sst.units = s.sst.units ∧ (s.resumeCutCredentials k).sst.labelCopy = s.sst.labelCopy ∧
    (s.resumeCutCredentials k).sst.marks = s.sst.marks ∧ (s.resumeCutCredentials k).sst.serving = s.sst.serving ∧
    (s.resumeCutCredentials k).sst.lastDevice = s.sst.lastDevice ∧
    (s.resumeCutCredentials k).sst.seconds = s.sst.seconds ∧ (s.resumeCutCredentials k).sst.power = s.sst.power ∧
    (s.resumeCutCredentials k).sst.drain = s.sst.drain ∧ (s.resumeCutCredentials k).sst.downMark = s.sst.downMark ∧
    (s.resumeCutCredentials k).sst.ready = s.sst.ready ∧ (s.resumeCutCredentials k).sst.retention = s.sst.retention ∧
    (s.resumeCutCredentials k).fresh = s.fresh ∧ (s.resumeCutCredentials k).sent = s.sent := by
  unfold State.resumeCutCredentials; (try dsimp only); (repeat' split) <;> first | (simp; done) | simp [apply_ite]

@[simp] theorem State.beginCutCredentials_frame (s : State) (k : ChainKind) (c : Chain) :
    (s.beginCutCredentials k c).lif = s.lif ∧ (s.beginCutCredentials k c).cru.ops = s.cru.ops ∧
    (s.beginCutCredentials k c).btc = s.btc ∧ (s.beginCutCredentials k c).kst = s.kst ∧
    (s.beginCutCredentials k c).rtb = s.rtb ∧ (s.beginCutCredentials k c).dpu = s.dpu ∧
    (s.beginCutCredentials k c).rke = s.rke ∧ (s.beginCutCredentials k c).rsu = s.rsu ∧
    (s.beginCutCredentials k c).sst.units = s.sst.units ∧
    (s.beginCutCredentials k c).sst.labelCopy = s.sst.labelCopy ∧
    (s.beginCutCredentials k c).sst.marks = s.sst.marks ∧ (s.beginCutCredentials k c).sst.serving = s.sst.serving ∧
    (s.beginCutCredentials k c).sst.lastDevice = s.sst.lastDevice ∧
    (s.beginCutCredentials k c).sst.seconds = s.sst.seconds ∧ (s.beginCutCredentials k c).sst.power = s.sst.power ∧
    (s.beginCutCredentials k c).sst.drain = s.sst.drain ∧ (s.beginCutCredentials k c).sst.downMark = s.sst.downMark ∧
    (s.beginCutCredentials k c).sst.ready = s.sst.ready ∧
    (s.beginCutCredentials k c).sst.retention = s.sst.retention ∧ (s.beginCutCredentials k c).fresh = s.fresh ∧
    (s.beginCutCredentials k c).sent = s.sent := by
  unfold State.beginCutCredentials; (try dsimp only); (repeat' split) <;> first | (simp; done) | simp [apply_ite]

@[simp] theorem State.settleFill_frame (s : State) (k : ChainKind) : (s.settleFill k).lif = s.lif ∧
    (s.settleFill k).cru = s.cru ∧ (s.settleFill k).btc = s.btc ∧ (s.settleFill k).kst = s.kst ∧
    (s.settleFill k).rtb = s.rtb ∧ (s.settleFill k).dpu = s.dpu ∧ (s.settleFill k).rke = s.rke ∧
    (s.settleFill k).rsu = s.rsu ∧ (s.settleFill k).sst.units = s.sst.units ∧
    (s.settleFill k).sst.labelCopy = s.sst.labelCopy ∧ (s.settleFill k).sst.marks = s.sst.marks ∧
    (s.settleFill k).sst.serving = s.sst.serving ∧ (s.settleFill k).sst.lastDevice = s.sst.lastDevice ∧
    (s.settleFill k).sst.seconds = s.sst.seconds ∧ (s.settleFill k).sst.power = s.sst.power ∧
    (s.settleFill k).sst.drain = s.sst.drain ∧ (s.settleFill k).sst.downMark = s.sst.downMark ∧
    (s.settleFill k).sst.ready = s.sst.ready ∧ (s.settleFill k).sst.retention = s.sst.retention ∧
    (s.settleFill k).fresh = s.fresh ∧ (s.settleFill k).sent = s.sent := by
  unfold State.settleFill; (try dsimp only); (repeat' split) <;> first | (simp; done) | simp [apply_ite]

@[simp] theorem State.beginFill_frame (s : State) (k : ChainKind) (c : Chain) (count : Option Nat) (p : Nat) :
    (s.beginFill k c count p).lif = s.lif ∧ (s.beginFill k c count p).cru = s.cru ∧
    (s.beginFill k c count p).btc = s.btc ∧ (s.beginFill k c count p).kst = s.kst ∧
    (s.beginFill k c count p).rtb = s.rtb ∧ (s.beginFill k c count p).dpu = s.dpu ∧
    (s.beginFill k c count p).rke = s.rke ∧ (s.beginFill k c count p).rsu = s.rsu ∧
    (s.beginFill k c count p).sst.units = s.sst.units ∧ (s.beginFill k c count p).sst.labelCopy = s.sst.labelCopy ∧
    (s.beginFill k c count p).sst.marks = s.sst.marks ∧ (s.beginFill k c count p).sst.serving = s.sst.serving ∧
    (s.beginFill k c count p).sst.lastDevice = s.sst.lastDevice ∧
    (s.beginFill k c count p).sst.seconds = s.sst.seconds ∧ (s.beginFill k c count p).sst.power = s.sst.power ∧
    (s.beginFill k c count p).sst.drain = s.sst.drain ∧ (s.beginFill k c count p).sst.downMark = s.sst.downMark ∧
    (s.beginFill k c count p).sst.ready = s.sst.ready ∧ (s.beginFill k c count p).sst.retention = s.sst.retention ∧
    (s.beginFill k c count p).fresh = s.fresh ∧ (s.beginFill k c count p).sent = s.sent := by
  unfold State.beginFill; (try dsimp only); (repeat' split) <;> first | (simp; done) | simp [apply_ite]

@[simp] theorem State.fillProgressDone_frame (s : State) (k : ChainKind) (no : Nat) :
    (s.fillProgressDone k no).lif = s.lif ∧ (s.fillProgressDone k no).cru = s.cru ∧
    (s.fillProgressDone k no).btc = s.btc ∧ (s.fillProgressDone k no).kst = s.kst ∧
    (s.fillProgressDone k no).rtb = s.rtb ∧ (s.fillProgressDone k no).dpu = s.dpu ∧
    (s.fillProgressDone k no).rke = s.rke ∧ (s.fillProgressDone k no).rsu = s.rsu ∧
    (s.fillProgressDone k no).sst.units = s.sst.units ∧ (s.fillProgressDone k no).sst.labelCopy = s.sst.labelCopy ∧
    (s.fillProgressDone k no).sst.marks = s.sst.marks ∧ (s.fillProgressDone k no).sst.serving = s.sst.serving ∧
    (s.fillProgressDone k no).sst.lastDevice = s.sst.lastDevice ∧
    (s.fillProgressDone k no).sst.seconds = s.sst.seconds ∧ (s.fillProgressDone k no).sst.power = s.sst.power ∧
    (s.fillProgressDone k no).sst.drain = s.sst.drain ∧ (s.fillProgressDone k no).sst.downMark = s.sst.downMark ∧
    (s.fillProgressDone k no).sst.ready = s.sst.ready ∧ (s.fillProgressDone k no).sst.retention = s.sst.retention ∧
    (s.fillProgressDone k no).fresh = s.fresh ∧ (s.fillProgressDone k no).sent = s.sent := by
  unfold State.fillProgressDone; (try dsimp only); (repeat' split) <;> first | (simp; done) | simp [apply_ite]

@[simp] theorem State.chunkEnded_frame (s : State) (k : ChainKind) (no chunk : Nat) (skipped : Bool) :
    (s.chunkEnded k no chunk skipped).lif = s.lif ∧ (s.chunkEnded k no chunk skipped).cru = s.cru ∧
    (s.chunkEnded k no chunk skipped).btc = s.btc ∧ (s.chunkEnded k no chunk skipped).kst = s.kst ∧
    (s.chunkEnded k no chunk skipped).rtb = s.rtb ∧ (s.chunkEnded k no chunk skipped).dpu = s.dpu ∧
    (s.chunkEnded k no chunk skipped).rke = s.rke ∧ (s.chunkEnded k no chunk skipped).rsu = s.rsu ∧
    (s.chunkEnded k no chunk skipped).sst.units = s.sst.units ∧
    (s.chunkEnded k no chunk skipped).sst.labelCopy = s.sst.labelCopy ∧
    (s.chunkEnded k no chunk skipped).sst.marks = s.sst.marks ∧
    (s.chunkEnded k no chunk skipped).sst.serving = s.sst.serving ∧
    (s.chunkEnded k no chunk skipped).sst.lastDevice = s.sst.lastDevice ∧
    (s.chunkEnded k no chunk skipped).sst.seconds = s.sst.seconds ∧
    (s.chunkEnded k no chunk skipped).sst.power = s.sst.power ∧
    (s.chunkEnded k no chunk skipped).sst.drain = s.sst.drain ∧
    (s.chunkEnded k no chunk skipped).sst.downMark = s.sst.downMark ∧
    (s.chunkEnded k no chunk skipped).sst.ready = s.sst.ready ∧
    (s.chunkEnded k no chunk skipped).sst.retention = s.sst.retention ∧
    (s.chunkEnded k no chunk skipped).fresh = s.fresh ∧ (s.chunkEnded k no chunk skipped).sent = s.sent := by
  unfold State.chunkEnded; (try dsimp only); (repeat' split) <;> first | (simp; done) | simp [apply_ite]

@[simp] theorem State.issueFill_frame (s : State) (k : ChainKind) (q : Chain × Nat × Nat) :
    (s.issueFill k q).lif.started = s.lif.started ∧ (s.issueFill k q).lif.mediaCredits = s.lif.mediaCredits ∧
    (s.issueFill k q).lif.capacity = s.lif.capacity ∧ (s.issueFill k q).lif.imageBase = s.lif.imageBase ∧
    (s.issueFill k q).lif.scratchBase = s.lif.scratchBase ∧ (s.issueFill k q).lif.limitData = s.lif.limitData ∧
    (s.issueFill k q).lif.limitControl = s.lif.limitControl ∧
    (s.issueFill k q).lif.limitPlatform = s.lif.limitPlatform ∧ (s.issueFill k q).lif.tagsInUse = s.lif.tagsInUse ∧
    (s.issueFill k q).lif.erroredBursts = s.lif.erroredBursts ∧ (s.issueFill k q).lif.burstTaken = s.lif.burstTaken ∧
    (s.issueFill k q).lif.burstErrored = s.lif.burstErrored ∧
    (s.issueFill k q).lif.burstDropped = s.lif.burstDropped ∧ (s.issueFill k q).lif.session = s.lif.session ∧
    (s.issueFill k q).cru = s.cru ∧ (s.issueFill k q).btc = s.btc ∧ (s.issueFill k q).kst = s.kst ∧
    (s.issueFill k q).rtb = s.rtb ∧ (s.issueFill k q).dpu = s.dpu ∧ (s.issueFill k q).rke = s.rke ∧
    (s.issueFill k q).rsu = s.rsu ∧ (s.issueFill k q).wpe = s.wpe ∧ (s.issueFill k q).sst = s.sst ∧
    (s.issueFill k q).fresh = s.fresh := by
  unfold State.issueFill; (try dsimp only); (repeat' split) <;> first | (simp; done) | simp [apply_ite]

@[simp] theorem State.blankTable_frame (s : State) : s.blankTable.lif.started = s.lif.started ∧
    s.blankTable.lif.mediaCredits = s.lif.mediaCredits ∧ s.blankTable.lif.capacity = s.lif.capacity ∧
    s.blankTable.lif.imageBase = s.lif.imageBase ∧ s.blankTable.lif.scratchBase = s.lif.scratchBase ∧
    s.blankTable.lif.limitData = s.lif.limitData ∧ s.blankTable.lif.limitControl = s.lif.limitControl ∧
    s.blankTable.lif.limitPlatform = s.lif.limitPlatform ∧ s.blankTable.lif.outstanding = s.lif.outstanding ∧
    s.blankTable.lif.freeCredits = s.lif.freeCredits ∧ s.blankTable.lif.nextTag = s.lif.nextTag ∧
    s.blankTable.lif.erroredBursts = s.lif.erroredBursts ∧ s.blankTable.lif.burstTaken = s.lif.burstTaken ∧
    s.blankTable.lif.burstErrored = s.lif.burstErrored ∧ s.blankTable.lif.burstDropped = s.lif.burstDropped ∧
    s.blankTable.lif.session = s.lif.session ∧ s.blankTable.cru = s.cru ∧ s.blankTable.rtb.commit = s.rtb.commit ∧
    s.blankTable.rtb.preparing = s.rtb.preparing ∧ s.blankTable.rtb.startCommit = s.rtb.startCommit ∧
    s.blankTable.wpe = s.wpe ∧ s.blankTable.sst.units = s.sst.units ∧ s.blankTable.sst.labelCopy = s.sst.labelCopy ∧
    s.blankTable.sst.marks = s.sst.marks ∧ s.blankTable.sst.serving = s.sst.serving ∧
    s.blankTable.sst.lastDevice = s.sst.lastDevice ∧ s.blankTable.sst.seconds = s.sst.seconds ∧
    s.blankTable.sst.power = s.sst.power ∧ s.blankTable.sst.drain = s.sst.drain ∧
    s.blankTable.sst.downMark = s.sst.downMark ∧ s.blankTable.sst.ready = s.sst.ready ∧
    s.blankTable.sst.retention = s.sst.retention := by
  unfold State.blankTable; (try dsimp only); (repeat' split) <;> first | (simp; done) | simp [apply_ite]

@[simp] theorem State.beginReset_frame (s : State) (k : ChainKind) (c : Chain) :
    (s.beginReset k c).lif.started = s.lif.started ∧ (s.beginReset k c).lif.mediaCredits = s.lif.mediaCredits ∧
    (s.beginReset k c).lif.capacity = s.lif.capacity ∧ (s.beginReset k c).lif.imageBase = s.lif.imageBase ∧
    (s.beginReset k c).lif.scratchBase = s.lif.scratchBase ∧ (s.beginReset k c).lif.limitData = s.lif.limitData ∧
    (s.beginReset k c).lif.limitControl = s.lif.limitControl ∧
    (s.beginReset k c).lif.limitPlatform = s.lif.limitPlatform ∧
    (s.beginReset k c).lif.outstanding = s.lif.outstanding ∧ (s.beginReset k c).lif.freeCredits = s.lif.freeCredits ∧
    (s.beginReset k c).lif.nextTag = s.lif.nextTag ∧ (s.beginReset k c).lif.erroredBursts = s.lif.erroredBursts ∧
    (s.beginReset k c).lif.burstTaken = s.lif.burstTaken ∧ (s.beginReset k c).lif.burstErrored = s.lif.burstErrored ∧
    (s.beginReset k c).lif.burstDropped = s.lif.burstDropped ∧ (s.beginReset k c).lif.session = s.lif.session ∧
    (s.beginReset k c).cru = s.cru ∧ (s.beginReset k c).rtb.commit = s.rtb.commit ∧
    (s.beginReset k c).rtb.preparing = s.rtb.preparing ∧ (s.beginReset k c).rtb.startCommit = s.rtb.startCommit ∧
    (s.beginReset k c).sst.units = s.sst.units ∧ (s.beginReset k c).sst.labelCopy = s.sst.labelCopy ∧
    (s.beginReset k c).sst.marks = s.sst.marks ∧ (s.beginReset k c).sst.serving = s.sst.serving ∧
    (s.beginReset k c).sst.seconds = s.sst.seconds ∧ (s.beginReset k c).sst.power = s.sst.power ∧
    (s.beginReset k c).sst.drain = s.sst.drain ∧ (s.beginReset k c).sst.downMark = s.sst.downMark ∧
    (s.beginReset k c).sst.ready = s.sst.ready ∧ (s.beginReset k c).sst.retention = s.sst.retention := by
  unfold State.beginReset; (try dsimp only); (repeat' split) <;> first | (simp; done) | simp [apply_ite]

@[simp] theorem State.beginStep_frame (s : State) (k : ChainKind) : (s.beginStep k).lif.started = s.lif.started ∧
    (s.beginStep k).lif.mediaCredits = s.lif.mediaCredits ∧ (s.beginStep k).lif.capacity = s.lif.capacity ∧
    (s.beginStep k).lif.imageBase = s.lif.imageBase ∧ (s.beginStep k).lif.scratchBase = s.lif.scratchBase ∧
    (s.beginStep k).lif.limitData = s.lif.limitData ∧ (s.beginStep k).lif.limitControl = s.lif.limitControl ∧
    (s.beginStep k).lif.limitPlatform = s.lif.limitPlatform ∧ (s.beginStep k).lif.outstanding = s.lif.outstanding ∧
    (s.beginStep k).lif.freeCredits = s.lif.freeCredits ∧ (s.beginStep k).lif.nextTag = s.lif.nextTag ∧
    (s.beginStep k).lif.erroredBursts = s.lif.erroredBursts ∧ (s.beginStep k).lif.burstTaken = s.lif.burstTaken ∧
    (s.beginStep k).lif.burstErrored = s.lif.burstErrored ∧ (s.beginStep k).lif.burstDropped = s.lif.burstDropped ∧
    (s.beginStep k).lif.session = s.lif.session ∧ (s.beginStep k).cru.ops = s.cru.ops ∧
    (s.beginStep k).rtb.preparing = s.rtb.preparing ∧ (s.beginStep k).rtb.startCommit = s.rtb.startCommit ∧
    (s.beginStep k).sst.units = s.sst.units ∧ (s.beginStep k).sst.labelCopy = s.sst.labelCopy ∧
    (s.beginStep k).sst.marks = s.sst.marks ∧ (s.beginStep k).sst.serving = s.sst.serving ∧
    (s.beginStep k).sst.seconds = s.sst.seconds ∧ (s.beginStep k).sst.power = s.sst.power ∧
    (s.beginStep k).sst.drain = s.sst.drain ∧ (s.beginStep k).sst.downMark = s.sst.downMark ∧
    (s.beginStep k).sst.ready = s.sst.ready ∧ (s.beginStep k).sst.retention = s.sst.retention := by
  unfold State.beginStep; (try dsimp only); (repeat' split) <;> first | (simp; done) | simp [apply_ite]

@[simp] theorem State.chainDurable_frame (s : State) (k : ChainKind) (no : Nat) : (s.chainDurable k no).lif = s.lif ∧
    (s.chainDurable k no).cru = s.cru ∧ (s.chainDurable k no).btc = s.btc ∧ (s.chainDurable k no).kst = s.kst ∧
    (s.chainDurable k no).rtb = s.rtb ∧ (s.chainDurable k no).dpu = s.dpu ∧ (s.chainDurable k no).rke = s.rke ∧
    (s.chainDurable k no).rsu = s.rsu ∧ (s.chainDurable k no).sst = s.sst ∧ (s.chainDurable k no).fresh = s.fresh ∧
    (s.chainDurable k no).sent = s.sent := by
  unfold State.chainDurable; (try dsimp only); (repeat' split) <;> first | (simp; done) | simp [apply_ite]

/-! ### Operations of responses -/

@[simp] theorem State.lockEffects_frame (s : State) : s.lockEffects.lif.started = s.lif.started ∧
    s.lockEffects.lif.mediaCredits = s.lif.mediaCredits ∧ s.lockEffects.lif.capacity = s.lif.capacity ∧
    s.lockEffects.lif.imageBase = s.lif.imageBase ∧ s.lockEffects.lif.scratchBase = s.lif.scratchBase ∧
    s.lockEffects.lif.limitData = s.lif.limitData ∧ s.lockEffects.lif.limitControl = s.lif.limitControl ∧
    s.lockEffects.lif.limitPlatform = s.lif.limitPlatform ∧ s.lockEffects.lif.outstanding = s.lif.outstanding ∧
    s.lockEffects.lif.freeCredits = s.lif.freeCredits ∧ s.lockEffects.lif.nextTag = s.lif.nextTag ∧
    s.lockEffects.lif.erroredBursts = s.lif.erroredBursts ∧ s.lockEffects.lif.burstTaken = s.lif.burstTaken ∧
    s.lockEffects.lif.burstErrored = s.lif.burstErrored ∧ s.lockEffects.lif.burstDropped = s.lif.burstDropped ∧
    s.lockEffects.lif.session = s.lif.session ∧ s.lockEffects.cru = s.cru ∧
    s.lockEffects.rtb.resealOnWake = s.rtb.resealOnWake ∧ s.lockEffects.rtb.staged = s.rtb.staged ∧
    s.lockEffects.rtb.preparing = s.rtb.preparing ∧ s.lockEffects.rtb.startCommit = s.rtb.startCommit ∧
    s.lockEffects.rsu = s.rsu ∧ s.lockEffects.wpe = s.wpe ∧ s.lockEffects.sst.units = s.sst.units ∧
    s.lockEffects.sst.labelCopy = s.sst.labelCopy ∧ s.lockEffects.sst.marks = s.sst.marks ∧
    s.lockEffects.sst.serving = s.sst.serving ∧ s.lockEffects.sst.lastDevice = s.sst.lastDevice ∧
    s.lockEffects.sst.seconds = s.sst.seconds ∧ s.lockEffects.sst.power = s.sst.power ∧
    s.lockEffects.sst.drain = s.sst.drain ∧ s.lockEffects.sst.downMark = s.sst.downMark ∧
    s.lockEffects.sst.ready = s.sst.ready ∧ s.lockEffects.sst.retention = s.sst.retention ∧
    s.lockEffects.fresh = s.fresh := by
  unfold State.lockEffects; (try dsimp only); (repeat' split) <;> first | (simp; done) | simp [apply_ite]

@[simp] theorem State.escalate_frame (s : State) (n : Level) (c : Nat) :
    (s.escalate n c).lif.started = s.lif.started ∧ (s.escalate n c).lif.mediaCredits = s.lif.mediaCredits ∧
    (s.escalate n c).lif.capacity = s.lif.capacity ∧ (s.escalate n c).lif.imageBase = s.lif.imageBase ∧
    (s.escalate n c).lif.scratchBase = s.lif.scratchBase ∧ (s.escalate n c).lif.limitData = s.lif.limitData ∧
    (s.escalate n c).lif.limitControl = s.lif.limitControl ∧
    (s.escalate n c).lif.limitPlatform = s.lif.limitPlatform ∧ (s.escalate n c).lif.outstanding = s.lif.outstanding ∧
    (s.escalate n c).lif.freeCredits = s.lif.freeCredits ∧ (s.escalate n c).lif.nextTag = s.lif.nextTag ∧
    (s.escalate n c).lif.erroredBursts = s.lif.erroredBursts ∧ (s.escalate n c).lif.burstTaken = s.lif.burstTaken ∧
    (s.escalate n c).lif.burstErrored = s.lif.burstErrored ∧ (s.escalate n c).lif.burstDropped = s.lif.burstDropped ∧
    (s.escalate n c).lif.session = s.lif.session ∧ (s.escalate n c).cru = s.cru ∧
    (s.escalate n c).rtb.resealOnWake = s.rtb.resealOnWake ∧ (s.escalate n c).rtb.staged = s.rtb.staged ∧
    (s.escalate n c).rtb.preparing = s.rtb.preparing ∧ (s.escalate n c).rtb.startCommit = s.rtb.startCommit ∧
    (s.escalate n c).sst.units = s.sst.units ∧ (s.escalate n c).sst.labelCopy = s.sst.labelCopy ∧
    (s.escalate n c).sst.marks = s.sst.marks ∧ (s.escalate n c).sst.serving = s.sst.serving ∧
    (s.escalate n c).sst.lastDevice = s.sst.lastDevice ∧ (s.escalate n c).sst.seconds = s.sst.seconds ∧
    (s.escalate n c).sst.power = s.sst.power ∧ (s.escalate n c).sst.drain = s.sst.drain ∧
    (s.escalate n c).sst.downMark = s.sst.downMark ∧ (s.escalate n c).sst.ready = s.sst.ready ∧
    (s.escalate n c).sst.retention = s.sst.retention ∧ (s.escalate n c).fresh = s.fresh := by
  unfold State.escalate; (try dsimp only); (repeat' split) <;> first | (simp; done) | simp [apply_ite]

@[simp] theorem State.cancelTimerTo_frame (s : State) (l : Level) : (s.cancelTimerTo l).lif = s.lif ∧
    (s.cancelTimerTo l).cru = s.cru ∧ (s.cancelTimerTo l).btc = s.btc ∧ (s.cancelTimerTo l).kst = s.kst ∧
    (s.cancelTimerTo l).rtb = s.rtb ∧ (s.cancelTimerTo l).dpu = s.dpu ∧ (s.cancelTimerTo l).rke = s.rke ∧
    (s.cancelTimerTo l).wpe = s.wpe ∧ (s.cancelTimerTo l).sst = s.sst ∧ (s.cancelTimerTo l).fresh = s.fresh ∧
    (s.cancelTimerTo l).sent = s.sent := by
  unfold State.cancelTimerTo; (try dsimp only); (repeat' split) <;> first | (simp; done) | simp [apply_ite]

@[simp] theorem State.pend_frame (s : State) (l : Level) (i delay : Nat) : (s.pend l i delay).lif = s.lif ∧
    (s.pend l i delay).cru = s.cru ∧ (s.pend l i delay).btc = s.btc ∧ (s.pend l i delay).kst = s.kst ∧
    (s.pend l i delay).rtb = s.rtb ∧ (s.pend l i delay).dpu = s.dpu ∧ (s.pend l i delay).rke = s.rke ∧
    (s.pend l i delay).wpe = s.wpe ∧ (s.pend l i delay).sst = s.sst ∧ (s.pend l i delay).fresh = s.fresh ∧
    (s.pend l i delay).sent = s.sent := by
  unfold State.pend; (try dsimp only); (repeat' split) <;> first | (simp; done) | simp [apply_ite]

@[simp] theorem State.weigh_frame (s : State) (i : Nat) (l : Level) : (s.weigh i l).lif.started = s.lif.started ∧
    (s.weigh i l).lif.mediaCredits = s.lif.mediaCredits ∧ (s.weigh i l).lif.capacity = s.lif.capacity ∧
    (s.weigh i l).lif.imageBase = s.lif.imageBase ∧ (s.weigh i l).lif.scratchBase = s.lif.scratchBase ∧
    (s.weigh i l).lif.limitData = s.lif.limitData ∧ (s.weigh i l).lif.limitControl = s.lif.limitControl ∧
    (s.weigh i l).lif.limitPlatform = s.lif.limitPlatform ∧ (s.weigh i l).lif.outstanding = s.lif.outstanding ∧
    (s.weigh i l).lif.freeCredits = s.lif.freeCredits ∧ (s.weigh i l).lif.nextTag = s.lif.nextTag ∧
    (s.weigh i l).lif.erroredBursts = s.lif.erroredBursts ∧ (s.weigh i l).lif.burstTaken = s.lif.burstTaken ∧
    (s.weigh i l).lif.burstErrored = s.lif.burstErrored ∧ (s.weigh i l).lif.burstDropped = s.lif.burstDropped ∧
    (s.weigh i l).lif.session = s.lif.session ∧ (s.weigh i l).cru = s.cru ∧
    (s.weigh i l).rtb.resealOnWake = s.rtb.resealOnWake ∧ (s.weigh i l).rtb.staged = s.rtb.staged ∧
    (s.weigh i l).rtb.preparing = s.rtb.preparing ∧ (s.weigh i l).rtb.startCommit = s.rtb.startCommit ∧
    (s.weigh i l).sst.units = s.sst.units ∧ (s.weigh i l).sst.labelCopy = s.sst.labelCopy ∧
    (s.weigh i l).sst.marks = s.sst.marks ∧ (s.weigh i l).sst.serving = s.sst.serving ∧
    (s.weigh i l).sst.lastDevice = s.sst.lastDevice ∧ (s.weigh i l).sst.seconds = s.sst.seconds ∧
    (s.weigh i l).sst.power = s.sst.power ∧ (s.weigh i l).sst.drain = s.sst.drain ∧
    (s.weigh i l).sst.downMark = s.sst.downMark ∧ (s.weigh i l).sst.ready = s.sst.ready ∧
    (s.weigh i l).sst.retention = s.sst.retention ∧ (s.weigh i l).fresh = s.fresh := by
  unfold State.weigh; (try dsimp only); (repeat' split) <;> first | (simp; done) | simp [apply_ite]

@[simp] theorem State.arrive_frame (s : State) (i : Nat) (order : Option Level) (ws : List Waiter) :
    (s.arrive i order ws).lif.started = s.lif.started ∧ (s.arrive i order ws).lif.mediaCredits = s.lif.mediaCredits ∧
    (s.arrive i order ws).lif.capacity = s.lif.capacity ∧ (s.arrive i order ws).lif.imageBase = s.lif.imageBase ∧
    (s.arrive i order ws).lif.scratchBase = s.lif.scratchBase ∧
    (s.arrive i order ws).lif.limitData = s.lif.limitData ∧
    (s.arrive i order ws).lif.limitControl = s.lif.limitControl ∧
    (s.arrive i order ws).lif.limitPlatform = s.lif.limitPlatform ∧
    (s.arrive i order ws).lif.outstanding = s.lif.outstanding ∧
    (s.arrive i order ws).lif.freeCredits = s.lif.freeCredits ∧ (s.arrive i order ws).lif.nextTag = s.lif.nextTag ∧
    (s.arrive i order ws).lif.erroredBursts = s.lif.erroredBursts ∧
    (s.arrive i order ws).lif.burstTaken = s.lif.burstTaken ∧
    (s.arrive i order ws).lif.burstErrored = s.lif.burstErrored ∧
    (s.arrive i order ws).lif.burstDropped = s.lif.burstDropped ∧ (s.arrive i order ws).lif.session = s.lif.session ∧
    (s.arrive i order ws).cru = s.cru ∧ (s.arrive i order ws).rtb.resealOnWake = s.rtb.resealOnWake ∧
    (s.arrive i order ws).rtb.staged = s.rtb.staged ∧ (s.arrive i order ws).rtb.preparing = s.rtb.preparing ∧
    (s.arrive i order ws).rtb.startCommit = s.rtb.startCommit ∧ (s.arrive i order ws).sst.units = s.sst.units ∧
    (s.arrive i order ws).sst.labelCopy = s.sst.labelCopy ∧ (s.arrive i order ws).sst.marks = s.sst.marks ∧
    (s.arrive i order ws).sst.serving = s.sst.serving ∧ (s.arrive i order ws).sst.lastDevice = s.sst.lastDevice ∧
    (s.arrive i order ws).sst.seconds = s.sst.seconds ∧ (s.arrive i order ws).sst.power = s.sst.power ∧
    (s.arrive i order ws).sst.drain = s.sst.drain ∧ (s.arrive i order ws).sst.downMark = s.sst.downMark ∧
    (s.arrive i order ws).sst.ready = s.sst.ready ∧ (s.arrive i order ws).sst.retention = s.sst.retention ∧
    (s.arrive i order ws).fresh = s.fresh := by
  unfold State.arrive; (try dsimp only); (repeat' split) <;> first | (simp; done) | simp [apply_ite]

@[simp] theorem State.raise_frame (s : State) (i : Nat) : (s.raise i).lif.started = s.lif.started ∧
    (s.raise i).lif.mediaCredits = s.lif.mediaCredits ∧ (s.raise i).lif.capacity = s.lif.capacity ∧
    (s.raise i).lif.imageBase = s.lif.imageBase ∧ (s.raise i).lif.scratchBase = s.lif.scratchBase ∧
    (s.raise i).lif.limitData = s.lif.limitData ∧ (s.raise i).lif.limitControl = s.lif.limitControl ∧
    (s.raise i).lif.limitPlatform = s.lif.limitPlatform ∧ (s.raise i).lif.outstanding = s.lif.outstanding ∧
    (s.raise i).lif.freeCredits = s.lif.freeCredits ∧ (s.raise i).lif.nextTag = s.lif.nextTag ∧
    (s.raise i).lif.erroredBursts = s.lif.erroredBursts ∧ (s.raise i).lif.burstTaken = s.lif.burstTaken ∧
    (s.raise i).lif.burstErrored = s.lif.burstErrored ∧ (s.raise i).lif.burstDropped = s.lif.burstDropped ∧
    (s.raise i).lif.session = s.lif.session ∧ (s.raise i).cru = s.cru ∧
    (s.raise i).rtb.resealOnWake = s.rtb.resealOnWake ∧ (s.raise i).rtb.staged = s.rtb.staged ∧
    (s.raise i).rtb.preparing = s.rtb.preparing ∧ (s.raise i).rtb.startCommit = s.rtb.startCommit ∧
    (s.raise i).sst.units = s.sst.units ∧ (s.raise i).sst.labelCopy = s.sst.labelCopy ∧
    (s.raise i).sst.marks = s.sst.marks ∧ (s.raise i).sst.serving = s.sst.serving ∧
    (s.raise i).sst.lastDevice = s.sst.lastDevice ∧ (s.raise i).sst.seconds = s.sst.seconds ∧
    (s.raise i).sst.power = s.sst.power ∧ (s.raise i).sst.drain = s.sst.drain ∧
    (s.raise i).sst.downMark = s.sst.downMark ∧ (s.raise i).sst.ready = s.sst.ready ∧
    (s.raise i).sst.retention = s.sst.retention ∧ (s.raise i).fresh = s.fresh := by
  unfold State.raise; (try dsimp only); (repeat' split) <;> first | (simp; done) | simp [apply_ite]

@[simp] theorem State.timerExpired_frame (s : State) : s.timerExpired.lif.started = s.lif.started ∧
    s.timerExpired.lif.mediaCredits = s.lif.mediaCredits ∧ s.timerExpired.lif.capacity = s.lif.capacity ∧
    s.timerExpired.lif.imageBase = s.lif.imageBase ∧ s.timerExpired.lif.scratchBase = s.lif.scratchBase ∧
    s.timerExpired.lif.limitData = s.lif.limitData ∧ s.timerExpired.lif.limitControl = s.lif.limitControl ∧
    s.timerExpired.lif.limitPlatform = s.lif.limitPlatform ∧ s.timerExpired.lif.outstanding = s.lif.outstanding ∧
    s.timerExpired.lif.freeCredits = s.lif.freeCredits ∧ s.timerExpired.lif.nextTag = s.lif.nextTag ∧
    s.timerExpired.lif.erroredBursts = s.lif.erroredBursts ∧ s.timerExpired.lif.burstTaken = s.lif.burstTaken ∧
    s.timerExpired.lif.burstErrored = s.lif.burstErrored ∧ s.timerExpired.lif.burstDropped = s.lif.burstDropped ∧
    s.timerExpired.lif.session = s.lif.session ∧ s.timerExpired.cru = s.cru ∧
    s.timerExpired.rtb.resealOnWake = s.rtb.resealOnWake ∧ s.timerExpired.rtb.staged = s.rtb.staged ∧
    s.timerExpired.rtb.preparing = s.rtb.preparing ∧ s.timerExpired.rtb.startCommit = s.rtb.startCommit ∧
    s.timerExpired.sst.units = s.sst.units ∧ s.timerExpired.sst.labelCopy = s.sst.labelCopy ∧
    s.timerExpired.sst.marks = s.sst.marks ∧ s.timerExpired.sst.serving = s.sst.serving ∧
    s.timerExpired.sst.lastDevice = s.sst.lastDevice ∧ s.timerExpired.sst.seconds = s.sst.seconds ∧
    s.timerExpired.sst.power = s.sst.power ∧ s.timerExpired.sst.drain = s.sst.drain ∧
    s.timerExpired.sst.downMark = s.sst.downMark ∧ s.timerExpired.sst.ready = s.sst.ready ∧
    s.timerExpired.sst.retention = s.sst.retention ∧ s.timerExpired.fresh = s.fresh := by
  unfold State.timerExpired; (try dsimp only); (repeat' split) <;> first | (simp; done) | simp [apply_ite]

@[simp] theorem State.wipeGiven_frame (s : State) (l : Level) : (s.wipeGiven l).lif = s.lif ∧
    (s.wipeGiven l).cru = s.cru ∧ (s.wipeGiven l).btc = s.btc ∧ (s.wipeGiven l).kst = s.kst ∧
    (s.wipeGiven l).rtb = s.rtb ∧ (s.wipeGiven l).dpu = s.dpu ∧ (s.wipeGiven l).rke = s.rke ∧
    (s.wipeGiven l).wpe = s.wpe ∧ (s.wipeGiven l).sst.units = s.sst.units ∧
    (s.wipeGiven l).sst.labelCopy = s.sst.labelCopy ∧ (s.wipeGiven l).sst.marks = s.sst.marks ∧
    (s.wipeGiven l).sst.serving = s.sst.serving ∧ (s.wipeGiven l).sst.lastDevice = s.sst.lastDevice ∧
    (s.wipeGiven l).sst.seconds = s.sst.seconds ∧ (s.wipeGiven l).sst.power = s.sst.power ∧
    (s.wipeGiven l).sst.drain = s.sst.drain ∧ (s.wipeGiven l).sst.downMark = s.sst.downMark ∧
    (s.wipeGiven l).sst.ready = s.sst.ready ∧ (s.wipeGiven l).sst.retention = s.sst.retention ∧
    (s.wipeGiven l).fresh = s.fresh ∧ (s.wipeGiven l).sent = s.sent := by
  unfold State.wipeGiven; (try dsimp only); (repeat' split) <;> first | (simp; done) | simp [apply_ite]

/-! ### Operations of requests and proofs -/

@[simp] theorem State.frameTaken_frame (s : State) : s.frameTaken.lif.started = s.lif.started ∧
    s.frameTaken.lif.mediaCredits = s.lif.mediaCredits ∧ s.frameTaken.lif.capacity = s.lif.capacity ∧
    s.frameTaken.lif.imageBase = s.lif.imageBase ∧ s.frameTaken.lif.scratchBase = s.lif.scratchBase ∧
    s.frameTaken.lif.limitData = s.lif.limitData ∧ s.frameTaken.lif.limitControl = s.lif.limitControl ∧
    s.frameTaken.lif.limitPlatform = s.lif.limitPlatform ∧ s.frameTaken.lif.outstanding = s.lif.outstanding ∧
    s.frameTaken.lif.freeCredits = s.lif.freeCredits ∧ s.frameTaken.lif.nextTag = s.lif.nextTag ∧
    s.frameTaken.lif.tagsInUse = s.lif.tagsInUse ∧ s.frameTaken.lif.erroredBursts = s.lif.erroredBursts ∧
    s.frameTaken.lif.burstErrored = s.lif.burstErrored ∧ s.frameTaken.lif.burstDropped = s.lif.burstDropped ∧
    s.frameTaken.lif.session = s.lif.session ∧ s.frameTaken.cru = s.cru ∧ s.frameTaken.btc = s.btc ∧
    s.frameTaken.kst = s.kst ∧ s.frameTaken.rtb = s.rtb ∧ s.frameTaken.dpu = s.dpu ∧ s.frameTaken.rke = s.rke ∧
    s.frameTaken.rsu = s.rsu ∧ s.frameTaken.wpe = s.wpe ∧ s.frameTaken.sst = s.sst ∧ s.frameTaken.fresh = s.fresh ∧
    s.frameTaken.sent = s.sent := by
  unfold State.frameTaken; (try dsimp only); (repeat' split) <;> first | (simp; done) | simp [apply_ite]

@[simp] theorem State.joinTag_frame (s : State) (m : Message) (tag : Nat) :
    (s.joinTag m tag).lif.started = s.lif.started ∧ (s.joinTag m tag).lif.mediaCredits = s.lif.mediaCredits ∧
    (s.joinTag m tag).lif.capacity = s.lif.capacity ∧ (s.joinTag m tag).lif.imageBase = s.lif.imageBase ∧
    (s.joinTag m tag).lif.scratchBase = s.lif.scratchBase ∧ (s.joinTag m tag).lif.limitData = s.lif.limitData ∧
    (s.joinTag m tag).lif.limitControl = s.lif.limitControl ∧
    (s.joinTag m tag).lif.limitPlatform = s.lif.limitPlatform ∧
    (s.joinTag m tag).lif.outstanding = s.lif.outstanding ∧ (s.joinTag m tag).lif.freeCredits = s.lif.freeCredits ∧
    (s.joinTag m tag).lif.nextTag = s.lif.nextTag ∧ (s.joinTag m tag).lif.erroredBursts = s.lif.erroredBursts ∧
    (s.joinTag m tag).lif.burstTaken = s.lif.burstTaken ∧ (s.joinTag m tag).lif.burstErrored = s.lif.burstErrored ∧
    (s.joinTag m tag).lif.burstDropped = s.lif.burstDropped ∧ (s.joinTag m tag).lif.session = s.lif.session ∧
    (s.joinTag m tag).cru = s.cru ∧ (s.joinTag m tag).btc = s.btc ∧ (s.joinTag m tag).kst = s.kst ∧
    (s.joinTag m tag).rtb = s.rtb ∧ (s.joinTag m tag).dpu = s.dpu ∧ (s.joinTag m tag).rke = s.rke ∧
    (s.joinTag m tag).rsu = s.rsu ∧ (s.joinTag m tag).wpe = s.wpe ∧ (s.joinTag m tag).sst = s.sst ∧
    (s.joinTag m tag).fresh = s.fresh ∧ (s.joinTag m tag).sent = s.sent := by
  unfold State.joinTag; (try dsimp only); (repeat' split) <;> first | (simp; done) | simp [apply_ite]

@[simp] theorem State.failProof_frame (s : State) (i : Nat) (rto : ReplyTo) : (s.failProof i rto).lif = s.lif ∧
    (s.failProof i rto).cru.challenges = s.cru.challenges ∧ (s.failProof i rto).cru.ops = s.cru.ops ∧
    (s.failProof i rto).btc = s.btc ∧ (s.failProof i rto).kst = s.kst ∧ (s.failProof i rto).rtb = s.rtb ∧
    (s.failProof i rto).dpu = s.dpu ∧ (s.failProof i rto).rke = s.rke ∧ (s.failProof i rto).rsu = s.rsu ∧
    (s.failProof i rto).wpe = s.wpe ∧ (s.failProof i rto).sst.units = s.sst.units ∧
    (s.failProof i rto).sst.labelCopy = s.sst.labelCopy ∧ (s.failProof i rto).sst.marks = s.sst.marks ∧
    (s.failProof i rto).sst.serving = s.sst.serving ∧ (s.failProof i rto).sst.lastDevice = s.sst.lastDevice ∧
    (s.failProof i rto).sst.seconds = s.sst.seconds ∧ (s.failProof i rto).sst.power = s.sst.power ∧
    (s.failProof i rto).sst.drain = s.sst.drain ∧ (s.failProof i rto).sst.downMark = s.sst.downMark ∧
    (s.failProof i rto).sst.ready = s.sst.ready ∧ (s.failProof i rto).sst.retention = s.sst.retention ∧
    (s.failProof i rto).fresh = s.fresh ∧ (s.failProof i rto).sent = s.sent := by
  unfold State.failProof; (try dsimp only); (repeat' split) <;> first | (simp; done) | simp [apply_ite]

@[simp] theorem State.proofMatched_frame (s : State) (i : Nat) : (s.proofMatched i).lif = s.lif ∧
    (s.proofMatched i).cru.challenges = s.cru.challenges ∧ (s.proofMatched i).cru.ops = s.cru.ops ∧
    (s.proofMatched i).btc = s.btc ∧ (s.proofMatched i).kst = s.kst ∧ (s.proofMatched i).rtb = s.rtb ∧
    (s.proofMatched i).dpu = s.dpu ∧ (s.proofMatched i).rke = s.rke ∧ (s.proofMatched i).rsu = s.rsu ∧
    (s.proofMatched i).wpe = s.wpe ∧ (s.proofMatched i).sst.units = s.sst.units ∧
    (s.proofMatched i).sst.labelCopy = s.sst.labelCopy ∧ (s.proofMatched i).sst.marks = s.sst.marks ∧
    (s.proofMatched i).sst.serving = s.sst.serving ∧ (s.proofMatched i).sst.lastDevice = s.sst.lastDevice ∧
    (s.proofMatched i).sst.seconds = s.sst.seconds ∧ (s.proofMatched i).sst.power = s.sst.power ∧
    (s.proofMatched i).sst.drain = s.sst.drain ∧ (s.proofMatched i).sst.downMark = s.sst.downMark ∧
    (s.proofMatched i).sst.ready = s.sst.ready ∧ (s.proofMatched i).sst.retention = s.sst.retention ∧
    (s.proofMatched i).fresh = s.fresh ∧ (s.proofMatched i).sent = s.sent := by
  unfold State.proofMatched; (try dsimp only); (repeat' split) <;> first | (simp; done) | simp [apply_ite]

@[simp] theorem State.consume_frame (s : State) (p : ProofBlock) : (s.consume p).lif = s.lif ∧
    (s.consume p).cru.slots = s.cru.slots ∧ (s.consume p).cru.ops = s.cru.ops ∧ (s.consume p).btc = s.btc ∧
    (s.consume p).kst = s.kst ∧ (s.consume p).rtb = s.rtb ∧ (s.consume p).dpu = s.dpu ∧ (s.consume p).rke = s.rke ∧
    (s.consume p).rsu = s.rsu ∧ (s.consume p).wpe = s.wpe ∧ (s.consume p).sst = s.sst ∧
    (s.consume p).fresh = s.fresh ∧ (s.consume p).sent = s.sent := by
  unfold State.consume; (try dsimp only); (repeat' split) <;> first | (simp; done) | simp [apply_ite]

/-! ### Operations of the Credential Unit -/

@[simp] theorem State.challenge_frame (s : State) (rto : ReplyTo) : (s.challenge rto).lif.started = s.lif.started ∧
    (s.challenge rto).lif.mediaCredits = s.lif.mediaCredits ∧ (s.challenge rto).lif.capacity = s.lif.capacity ∧
    (s.challenge rto).lif.imageBase = s.lif.imageBase ∧ (s.challenge rto).lif.scratchBase = s.lif.scratchBase ∧
    (s.challenge rto).lif.limitData = s.lif.limitData ∧ (s.challenge rto).lif.limitControl = s.lif.limitControl ∧
    (s.challenge rto).lif.limitPlatform = s.lif.limitPlatform ∧
    (s.challenge rto).lif.outstanding = s.lif.outstanding ∧ (s.challenge rto).lif.freeCredits = s.lif.freeCredits ∧
    (s.challenge rto).lif.nextTag = s.lif.nextTag ∧ (s.challenge rto).lif.erroredBursts = s.lif.erroredBursts ∧
    (s.challenge rto).lif.burstTaken = s.lif.burstTaken ∧ (s.challenge rto).lif.burstErrored = s.lif.burstErrored ∧
    (s.challenge rto).lif.burstDropped = s.lif.burstDropped ∧ (s.challenge rto).lif.session = s.lif.session ∧
    (s.challenge rto).cru.slots = s.cru.slots ∧ (s.challenge rto).cru.ops = s.cru.ops ∧
    (s.challenge rto).btc = s.btc ∧ (s.challenge rto).kst = s.kst ∧ (s.challenge rto).rtb = s.rtb ∧
    (s.challenge rto).dpu = s.dpu ∧ (s.challenge rto).rke = s.rke ∧ (s.challenge rto).rsu = s.rsu ∧
    (s.challenge rto).wpe = s.wpe ∧ (s.challenge rto).sst = s.sst := by
  unfold State.challenge; (try dsimp only); (repeat' split) <;> first | (simp; done) | simp [apply_ite]

@[simp] theorem State.mapOp_frame (s : State) (i : Nat) (g : CredOp → CredOp) : (s.mapOp i g).lif = s.lif ∧
    (s.mapOp i g).cru.slots = s.cru.slots ∧ (s.mapOp i g).cru.challenges = s.cru.challenges ∧
    (s.mapOp i g).btc = s.btc ∧ (s.mapOp i g).kst = s.kst ∧ (s.mapOp i g).rtb = s.rtb ∧ (s.mapOp i g).dpu = s.dpu ∧
    (s.mapOp i g).rke = s.rke ∧ (s.mapOp i g).rsu = s.rsu ∧ (s.mapOp i g).wpe = s.wpe ∧ (s.mapOp i g).sst = s.sst ∧
    (s.mapOp i g).fresh = s.fresh ∧ (s.mapOp i g).sent = s.sent := by
  unfold State.mapOp; (try dsimp only); (repeat' split) <;> first | (simp; done) | simp [apply_ite]

@[simp] theorem State.placeWaveB_frame (s : State) (i : Nat) : (s.placeWaveB i).lif = s.lif ∧
    (s.placeWaveB i).cru.challenges = s.cru.challenges ∧ (s.placeWaveB i).btc = s.btc ∧ (s.placeWaveB i).kst = s.kst ∧
    (s.placeWaveB i).rtb = s.rtb ∧ (s.placeWaveB i).dpu = s.dpu ∧ (s.placeWaveB i).rke = s.rke ∧
    (s.placeWaveB i).rsu = s.rsu ∧ (s.placeWaveB i).wpe = s.wpe ∧ (s.placeWaveB i).sst.units = s.sst.units ∧
    (s.placeWaveB i).sst.labelCopy = s.sst.labelCopy ∧ (s.placeWaveB i).sst.marks = s.sst.marks ∧
    (s.placeWaveB i).sst.serving = s.sst.serving ∧ (s.placeWaveB i).sst.lastDevice = s.sst.lastDevice ∧
    (s.placeWaveB i).sst.seconds = s.sst.seconds ∧ (s.placeWaveB i).sst.power = s.sst.power ∧
    (s.placeWaveB i).sst.drain = s.sst.drain ∧ (s.placeWaveB i).sst.downMark = s.sst.downMark ∧
    (s.placeWaveB i).sst.ready = s.sst.ready ∧ (s.placeWaveB i).sst.retention = s.sst.retention ∧
    (s.placeWaveB i).fresh = s.fresh ∧ (s.placeWaveB i).sent = s.sent := by
  unfold State.placeWaveB; (try dsimp only); (repeat' split) <;> first | (simp; done) | simp [apply_ite]

@[simp] theorem State.finishOp_frame (s : State) (i : Nat) : (s.finishOp i).lif.started = s.lif.started ∧
    (s.finishOp i).lif.mediaCredits = s.lif.mediaCredits ∧ (s.finishOp i).lif.capacity = s.lif.capacity ∧
    (s.finishOp i).lif.imageBase = s.lif.imageBase ∧ (s.finishOp i).lif.scratchBase = s.lif.scratchBase ∧
    (s.finishOp i).lif.limitData = s.lif.limitData ∧ (s.finishOp i).lif.limitControl = s.lif.limitControl ∧
    (s.finishOp i).lif.limitPlatform = s.lif.limitPlatform ∧ (s.finishOp i).lif.outstanding = s.lif.outstanding ∧
    (s.finishOp i).lif.freeCredits = s.lif.freeCredits ∧ (s.finishOp i).lif.nextTag = s.lif.nextTag ∧
    (s.finishOp i).lif.erroredBursts = s.lif.erroredBursts ∧ (s.finishOp i).lif.burstTaken = s.lif.burstTaken ∧
    (s.finishOp i).lif.burstErrored = s.lif.burstErrored ∧ (s.finishOp i).lif.burstDropped = s.lif.burstDropped ∧
    (s.finishOp i).lif.session = s.lif.session ∧ (s.finishOp i).btc = s.btc ∧ (s.finishOp i).kst = s.kst ∧
    (s.finishOp i).rtb = s.rtb ∧ (s.finishOp i).dpu = s.dpu ∧ (s.finishOp i).rke = s.rke ∧
    (s.finishOp i).rsu = s.rsu ∧ (s.finishOp i).sst.units = s.sst.units ∧
    (s.finishOp i).sst.labelCopy = s.sst.labelCopy ∧ (s.finishOp i).sst.marks = s.sst.marks ∧
    (s.finishOp i).sst.serving = s.sst.serving ∧ (s.finishOp i).sst.lastDevice = s.sst.lastDevice ∧
    (s.finishOp i).sst.seconds = s.sst.seconds ∧ (s.finishOp i).sst.power = s.sst.power ∧
    (s.finishOp i).sst.drain = s.sst.drain ∧ (s.finishOp i).sst.downMark = s.sst.downMark ∧
    (s.finishOp i).sst.ready = s.sst.ready ∧ (s.finishOp i).sst.retention = s.sst.retention ∧
    (s.finishOp i).fresh = s.fresh := by
  unfold State.finishOp; (try dsimp only); (repeat' split) <;> first | (simp; done) | simp [apply_ite]

@[simp] theorem State.placeWaveC_frame (s : State) (i : Nat) : (s.placeWaveC i).lif.started = s.lif.started ∧
    (s.placeWaveC i).lif.mediaCredits = s.lif.mediaCredits ∧ (s.placeWaveC i).lif.capacity = s.lif.capacity ∧
    (s.placeWaveC i).lif.imageBase = s.lif.imageBase ∧ (s.placeWaveC i).lif.scratchBase = s.lif.scratchBase ∧
    (s.placeWaveC i).lif.limitData = s.lif.limitData ∧ (s.placeWaveC i).lif.limitControl = s.lif.limitControl ∧
    (s.placeWaveC i).lif.limitPlatform = s.lif.limitPlatform ∧ (s.placeWaveC i).lif.outstanding = s.lif.outstanding ∧
    (s.placeWaveC i).lif.freeCredits = s.lif.freeCredits ∧ (s.placeWaveC i).lif.nextTag = s.lif.nextTag ∧
    (s.placeWaveC i).lif.erroredBursts = s.lif.erroredBursts ∧ (s.placeWaveC i).lif.burstTaken = s.lif.burstTaken ∧
    (s.placeWaveC i).lif.burstErrored = s.lif.burstErrored ∧ (s.placeWaveC i).lif.burstDropped = s.lif.burstDropped ∧
    (s.placeWaveC i).lif.session = s.lif.session ∧ (s.placeWaveC i).btc = s.btc ∧ (s.placeWaveC i).kst = s.kst ∧
    (s.placeWaveC i).rtb.resealOnWake = s.rtb.resealOnWake ∧ (s.placeWaveC i).rtb.staged = s.rtb.staged ∧
    (s.placeWaveC i).rtb.commit = s.rtb.commit ∧ (s.placeWaveC i).rtb.preparing = s.rtb.preparing ∧
    (s.placeWaveC i).rtb.startCommit = s.rtb.startCommit ∧ (s.placeWaveC i).dpu = s.dpu ∧
    (s.placeWaveC i).rke = s.rke ∧ (s.placeWaveC i).rsu = s.rsu ∧ (s.placeWaveC i).sst.units = s.sst.units ∧
    (s.placeWaveC i).sst.labelCopy = s.sst.labelCopy ∧ (s.placeWaveC i).sst.marks = s.sst.marks ∧
    (s.placeWaveC i).sst.serving = s.sst.serving ∧ (s.placeWaveC i).sst.lastDevice = s.sst.lastDevice ∧
    (s.placeWaveC i).sst.seconds = s.sst.seconds ∧ (s.placeWaveC i).sst.power = s.sst.power ∧
    (s.placeWaveC i).sst.drain = s.sst.drain ∧ (s.placeWaveC i).sst.downMark = s.sst.downMark ∧
    (s.placeWaveC i).sst.ready = s.sst.ready ∧ (s.placeWaveC i).sst.retention = s.sst.retention ∧
    (s.placeWaveC i).fresh = s.fresh := by
  unfold State.placeWaveC; (try dsimp only); (repeat' split) <;> first | (simp; done) | simp [apply_ite]

@[simp] theorem State.credWaveDone_frame (s : State) (i : Nat) : (s.credWaveDone i).lif.started = s.lif.started ∧
    (s.credWaveDone i).lif.mediaCredits = s.lif.mediaCredits ∧ (s.credWaveDone i).lif.capacity = s.lif.capacity ∧
    (s.credWaveDone i).lif.imageBase = s.lif.imageBase ∧ (s.credWaveDone i).lif.scratchBase = s.lif.scratchBase ∧
    (s.credWaveDone i).lif.limitData = s.lif.limitData ∧ (s.credWaveDone i).lif.limitControl = s.lif.limitControl ∧
    (s.credWaveDone i).lif.limitPlatform = s.lif.limitPlatform ∧
    (s.credWaveDone i).lif.outstanding = s.lif.outstanding ∧ (s.credWaveDone i).lif.freeCredits = s.lif.freeCredits ∧
    (s.credWaveDone i).lif.nextTag = s.lif.nextTag ∧ (s.credWaveDone i).lif.erroredBursts = s.lif.erroredBursts ∧
    (s.credWaveDone i).lif.burstTaken = s.lif.burstTaken ∧ (s.credWaveDone i).lif.burstErrored = s.lif.burstErrored ∧
    (s.credWaveDone i).lif.burstDropped = s.lif.burstDropped ∧ (s.credWaveDone i).lif.session = s.lif.session ∧
    (s.credWaveDone i).btc = s.btc ∧ (s.credWaveDone i).kst = s.kst ∧
    (s.credWaveDone i).rtb.resealOnWake = s.rtb.resealOnWake ∧ (s.credWaveDone i).rtb.staged = s.rtb.staged ∧
    (s.credWaveDone i).rtb.commit = s.rtb.commit ∧ (s.credWaveDone i).rtb.preparing = s.rtb.preparing ∧
    (s.credWaveDone i).rtb.startCommit = s.rtb.startCommit ∧ (s.credWaveDone i).dpu = s.dpu ∧
    (s.credWaveDone i).rke = s.rke ∧ (s.credWaveDone i).rsu = s.rsu ∧ (s.credWaveDone i).sst.units = s.sst.units ∧
    (s.credWaveDone i).sst.labelCopy = s.sst.labelCopy ∧ (s.credWaveDone i).sst.marks = s.sst.marks ∧
    (s.credWaveDone i).sst.serving = s.sst.serving ∧ (s.credWaveDone i).sst.lastDevice = s.sst.lastDevice ∧
    (s.credWaveDone i).sst.seconds = s.sst.seconds ∧ (s.credWaveDone i).sst.power = s.sst.power ∧
    (s.credWaveDone i).sst.drain = s.sst.drain ∧ (s.credWaveDone i).sst.downMark = s.sst.downMark ∧
    (s.credWaveDone i).sst.ready = s.sst.ready ∧ (s.credWaveDone i).sst.retention = s.sst.retention ∧
    (s.credWaveDone i).fresh = s.fresh := by
  unfold State.credWaveDone; (try dsimp only); (repeat' split) <;> first | (simp; done) | simp [apply_ite]

@[simp] theorem State.startOp_frame (s : State) (i p : Nat) (g : Option WrapValue) (secret : Secret) (limit : Nat) (rto : ReplyTo) :
    (s.startOp i p g secret limit rto).lif = s.lif ∧
    (s.startOp i p g secret limit rto).cru.challenges = s.cru.challenges ∧
    (s.startOp i p g secret limit rto).btc = s.btc ∧ (s.startOp i p g secret limit rto).kst = s.kst ∧
    (s.startOp i p g secret limit rto).rtb.resealOnWake = s.rtb.resealOnWake ∧
    (s.startOp i p g secret limit rto).rtb.staged = s.rtb.staged ∧
    (s.startOp i p g secret limit rto).rtb.commit = s.rtb.commit ∧
    (s.startOp i p g secret limit rto).rtb.preparing = s.rtb.preparing ∧
    (s.startOp i p g secret limit rto).rtb.startCommit = s.rtb.startCommit ∧
    (s.startOp i p g secret limit rto).dpu = s.dpu ∧ (s.startOp i p g secret limit rto).rke = s.rke ∧
    (s.startOp i p g secret limit rto).rsu = s.rsu ∧ (s.startOp i p g secret limit rto).wpe = s.wpe ∧
    (s.startOp i p g secret limit rto).sst.units = s.sst.units ∧
    (s.startOp i p g secret limit rto).sst.labelCopy = s.sst.labelCopy ∧
    (s.startOp i p g secret limit rto).sst.marks = s.sst.marks ∧
    (s.startOp i p g secret limit rto).sst.serving = s.sst.serving ∧
    (s.startOp i p g secret limit rto).sst.lastDevice = s.sst.lastDevice ∧
    (s.startOp i p g secret limit rto).sst.seconds = s.sst.seconds ∧
    (s.startOp i p g secret limit rto).sst.power = s.sst.power ∧
    (s.startOp i p g secret limit rto).sst.drain = s.sst.drain ∧
    (s.startOp i p g secret limit rto).sst.downMark = s.sst.downMark ∧
    (s.startOp i p g secret limit rto).sst.ready = s.sst.ready ∧
    (s.startOp i p g secret limit rto).sst.retention = s.sst.retention ∧
    (s.startOp i p g secret limit rto).fresh = s.fresh ∧ (s.startOp i p g secret limit rto).sent = s.sent := by
  unfold State.startOp; (try dsimp only); (repeat' split) <;> first | (simp; done) | simp [apply_ite]

@[simp] theorem State.disableCred_frame (s : State) (i limit : Nat) (rto : ReplyTo) :
    (s.disableCred i limit rto).lif = s.lif ∧ (s.disableCred i limit rto).cru.challenges = s.cru.challenges ∧
    (s.disableCred i limit rto).cru.ops = s.cru.ops ∧ (s.disableCred i limit rto).btc = s.btc ∧
    (s.disableCred i limit rto).kst = s.kst ∧ (s.disableCred i limit rto).rtb = s.rtb ∧
    (s.disableCred i limit rto).dpu = s.dpu ∧ (s.disableCred i limit rto).rke = s.rke ∧
    (s.disableCred i limit rto).rsu = s.rsu ∧ (s.disableCred i limit rto).wpe = s.wpe ∧
    (s.disableCred i limit rto).sst.units = s.sst.units ∧
    (s.disableCred i limit rto).sst.labelCopy = s.sst.labelCopy ∧
    (s.disableCred i limit rto).sst.marks = s.sst.marks ∧ (s.disableCred i limit rto).sst.serving = s.sst.serving ∧
    (s.disableCred i limit rto).sst.lastDevice = s.sst.lastDevice ∧
    (s.disableCred i limit rto).sst.seconds = s.sst.seconds ∧ (s.disableCred i limit rto).sst.power = s.sst.power ∧
    (s.disableCred i limit rto).sst.drain = s.sst.drain ∧ (s.disableCred i limit rto).sst.downMark = s.sst.downMark ∧
    (s.disableCred i limit rto).sst.ready = s.sst.ready ∧
    (s.disableCred i limit rto).sst.retention = s.sst.retention ∧ (s.disableCred i limit rto).fresh = s.fresh ∧
    (s.disableCred i limit rto).sent = s.sent := by
  unfold State.disableCred; (try dsimp only); (repeat' split) <;> first | (simp; done) | simp [apply_ite]

@[simp] theorem State.setCredential_frame (s : State) (p : Nat) (g : Option WrapValue) (target : Nat) (action : Option CredAction) (secret : Secret) (limit : Nat) (rto : ReplyTo) :
    (s.setCredential p g target action secret limit rto).lif.started = s.lif.started ∧
    (s.setCredential p g target action secret limit rto).lif.mediaCredits = s.lif.mediaCredits ∧
    (s.setCredential p g target action secret limit rto).lif.capacity = s.lif.capacity ∧
    (s.setCredential p g target action secret limit rto).lif.imageBase = s.lif.imageBase ∧
    (s.setCredential p g target action secret limit rto).lif.scratchBase = s.lif.scratchBase ∧
    (s.setCredential p g target action secret limit rto).lif.limitData = s.lif.limitData ∧
    (s.setCredential p g target action secret limit rto).lif.limitControl = s.lif.limitControl ∧
    (s.setCredential p g target action secret limit rto).lif.limitPlatform = s.lif.limitPlatform ∧
    (s.setCredential p g target action secret limit rto).lif.outstanding = s.lif.outstanding ∧
    (s.setCredential p g target action secret limit rto).lif.freeCredits = s.lif.freeCredits ∧
    (s.setCredential p g target action secret limit rto).lif.nextTag = s.lif.nextTag ∧
    (s.setCredential p g target action secret limit rto).lif.erroredBursts = s.lif.erroredBursts ∧
    (s.setCredential p g target action secret limit rto).lif.burstTaken = s.lif.burstTaken ∧
    (s.setCredential p g target action secret limit rto).lif.burstErrored = s.lif.burstErrored ∧
    (s.setCredential p g target action secret limit rto).lif.burstDropped = s.lif.burstDropped ∧
    (s.setCredential p g target action secret limit rto).lif.session = s.lif.session ∧
    (s.setCredential p g target action secret limit rto).cru.challenges = s.cru.challenges ∧
    (s.setCredential p g target action secret limit rto).btc = s.btc ∧
    (s.setCredential p g target action secret limit rto).kst = s.kst ∧
    (s.setCredential p g target action secret limit rto).rtb.resealOnWake = s.rtb.resealOnWake ∧
    (s.setCredential p g target action secret limit rto).rtb.staged = s.rtb.staged ∧
    (s.setCredential p g target action secret limit rto).rtb.commit = s.rtb.commit ∧
    (s.setCredential p g target action secret limit rto).rtb.preparing = s.rtb.preparing ∧
    (s.setCredential p g target action secret limit rto).rtb.startCommit = s.rtb.startCommit ∧
    (s.setCredential p g target action secret limit rto).dpu = s.dpu ∧
    (s.setCredential p g target action secret limit rto).rke = s.rke ∧
    (s.setCredential p g target action secret limit rto).rsu = s.rsu ∧
    (s.setCredential p g target action secret limit rto).wpe = s.wpe ∧
    (s.setCredential p g target action secret limit rto).sst.units = s.sst.units ∧
    (s.setCredential p g target action secret limit rto).sst.labelCopy = s.sst.labelCopy ∧
    (s.setCredential p g target action secret limit rto).sst.marks = s.sst.marks ∧
    (s.setCredential p g target action secret limit rto).sst.serving = s.sst.serving ∧
    (s.setCredential p g target action secret limit rto).sst.lastDevice = s.sst.lastDevice ∧
    (s.setCredential p g target action secret limit rto).sst.seconds = s.sst.seconds ∧
    (s.setCredential p g target action secret limit rto).sst.power = s.sst.power ∧
    (s.setCredential p g target action secret limit rto).sst.drain = s.sst.drain ∧
    (s.setCredential p g target action secret limit rto).sst.downMark = s.sst.downMark ∧
    (s.setCredential p g target action secret limit rto).sst.ready = s.sst.ready ∧
    (s.setCredential p g target action secret limit rto).sst.retention = s.sst.retention ∧
    (s.setCredential p g target action secret limit rto).fresh = s.fresh := by
  unfold State.setCredential; (try dsimp only); (repeat' split) <;> first | (simp; done) | simp [apply_ite]

@[simp] theorem State.resetAttempts_frame (s : State) (target : Nat) (rto : ReplyTo) :
    (s.resetAttempts target rto).lif.started = s.lif.started ∧
    (s.resetAttempts target rto).lif.mediaCredits = s.lif.mediaCredits ∧
    (s.resetAttempts target rto).lif.capacity = s.lif.capacity ∧
    (s.resetAttempts target rto).lif.imageBase = s.lif.imageBase ∧
    (s.resetAttempts target rto).lif.scratchBase = s.lif.scratchBase ∧
    (s.resetAttempts target rto).lif.limitData = s.lif.limitData ∧
    (s.resetAttempts target rto).lif.limitControl = s.lif.limitControl ∧
    (s.resetAttempts target rto).lif.limitPlatform = s.lif.limitPlatform ∧
    (s.resetAttempts target rto).lif.outstanding = s.lif.outstanding ∧
    (s.resetAttempts target rto).lif.freeCredits = s.lif.freeCredits ∧
    (s.resetAttempts target rto).lif.nextTag = s.lif.nextTag ∧
    (s.resetAttempts target rto).lif.erroredBursts = s.lif.erroredBursts ∧
    (s.resetAttempts target rto).lif.burstTaken = s.lif.burstTaken ∧
    (s.resetAttempts target rto).lif.burstErrored = s.lif.burstErrored ∧
    (s.resetAttempts target rto).lif.burstDropped = s.lif.burstDropped ∧
    (s.resetAttempts target rto).lif.session = s.lif.session ∧
    (s.resetAttempts target rto).cru.challenges = s.cru.challenges ∧
    (s.resetAttempts target rto).cru.ops = s.cru.ops ∧ (s.resetAttempts target rto).btc = s.btc ∧
    (s.resetAttempts target rto).kst = s.kst ∧ (s.resetAttempts target rto).rtb = s.rtb ∧
    (s.resetAttempts target rto).dpu = s.dpu ∧ (s.resetAttempts target rto).rke = s.rke ∧
    (s.resetAttempts target rto).rsu = s.rsu ∧ (s.resetAttempts target rto).wpe = s.wpe ∧
    (s.resetAttempts target rto).sst.units = s.sst.units ∧
    (s.resetAttempts target rto).sst.labelCopy = s.sst.labelCopy ∧
    (s.resetAttempts target rto).sst.marks = s.sst.marks ∧ (s.resetAttempts target rto).sst.serving = s.sst.serving ∧
    (s.resetAttempts target rto).sst.lastDevice = s.sst.lastDevice ∧
    (s.resetAttempts target rto).sst.seconds = s.sst.seconds ∧ (s.resetAttempts target rto).sst.power = s.sst.power ∧
    (s.resetAttempts target rto).sst.drain = s.sst.drain ∧
    (s.resetAttempts target rto).sst.downMark = s.sst.downMark ∧
    (s.resetAttempts target rto).sst.ready = s.sst.ready ∧
    (s.resetAttempts target rto).sst.retention = s.sst.retention ∧ (s.resetAttempts target rto).fresh = s.fresh := by
  unfold State.resetAttempts; (try dsimp only); (repeat' split) <;> first | (simp; done) | simp [apply_ite]

@[simp] theorem State.slotList_frame (s : State) (start : Nat) (rto : ReplyTo) :
    (s.slotList start rto).lif.started = s.lif.started ∧
    (s.slotList start rto).lif.mediaCredits = s.lif.mediaCredits ∧
    (s.slotList start rto).lif.capacity = s.lif.capacity ∧ (s.slotList start rto).lif.imageBase = s.lif.imageBase ∧
    (s.slotList start rto).lif.scratchBase = s.lif.scratchBase ∧
    (s.slotList start rto).lif.limitData = s.lif.limitData ∧
    (s.slotList start rto).lif.limitControl = s.lif.limitControl ∧
    (s.slotList start rto).lif.limitPlatform = s.lif.limitPlatform ∧
    (s.slotList start rto).lif.outstanding = s.lif.outstanding ∧
    (s.slotList start rto).lif.freeCredits = s.lif.freeCredits ∧ (s.slotList start rto).lif.nextTag = s.lif.nextTag ∧
    (s.slotList start rto).lif.erroredBursts = s.lif.erroredBursts ∧
    (s.slotList start rto).lif.burstTaken = s.lif.burstTaken ∧
    (s.slotList start rto).lif.burstErrored = s.lif.burstErrored ∧
    (s.slotList start rto).lif.burstDropped = s.lif.burstDropped ∧
    (s.slotList start rto).lif.session = s.lif.session ∧ (s.slotList start rto).cru = s.cru ∧
    (s.slotList start rto).btc = s.btc ∧ (s.slotList start rto).kst = s.kst ∧ (s.slotList start rto).rtb = s.rtb ∧
    (s.slotList start rto).dpu = s.dpu ∧ (s.slotList start rto).rke = s.rke ∧ (s.slotList start rto).rsu = s.rsu ∧
    (s.slotList start rto).wpe = s.wpe ∧ (s.slotList start rto).sst = s.sst ∧
    (s.slotList start rto).fresh = s.fresh := by
  unfold State.slotList; (try dsimp only); (repeat' split) <;> first | (simp; done) | simp [apply_ite]

/-! ### Operations of Boot Control -/

@[simp] theorem State.startProvision_frame (s : State) (admin recovery : Secret) (size : Nat) (token : Option Secret) (rto : ReplyTo) :
    (s.startProvision admin recovery size token rto).lif = s.lif ∧
    (s.startProvision admin recovery size token rto).cru = s.cru ∧
    (s.startProvision admin recovery size token rto).kst = s.kst ∧
    (s.startProvision admin recovery size token rto).rtb = s.rtb ∧
    (s.startProvision admin recovery size token rto).dpu = s.dpu ∧
    (s.startProvision admin recovery size token rto).rke = s.rke ∧
    (s.startProvision admin recovery size token rto).wpe = s.wpe ∧
    (s.startProvision admin recovery size token rto).sst.units = s.sst.units ∧
    (s.startProvision admin recovery size token rto).sst.labelCopy = s.sst.labelCopy ∧
    (s.startProvision admin recovery size token rto).sst.marks = s.sst.marks ∧
    (s.startProvision admin recovery size token rto).sst.serving = s.sst.serving ∧
    (s.startProvision admin recovery size token rto).sst.lastDevice = s.sst.lastDevice ∧
    (s.startProvision admin recovery size token rto).sst.seconds = s.sst.seconds ∧
    (s.startProvision admin recovery size token rto).sst.power = s.sst.power ∧
    (s.startProvision admin recovery size token rto).sst.drain = s.sst.drain ∧
    (s.startProvision admin recovery size token rto).sst.downMark = s.sst.downMark ∧
    (s.startProvision admin recovery size token rto).sst.ready = s.sst.ready ∧
    (s.startProvision admin recovery size token rto).sst.retention = s.sst.retention ∧
    (s.startProvision admin recovery size token rto).fresh = s.fresh ∧
    (s.startProvision admin recovery size token rto).sent = s.sent := by
  unfold State.startProvision; (try dsimp only); (repeat' split) <;> first | (simp; done) | simp [apply_ite]

@[simp] theorem State.finishProvision_frame (s : State) (p : Provisioning) :
    (s.finishProvision p).lif.started = s.lif.started ∧ (s.finishProvision p).lif.mediaCredits = s.lif.mediaCredits ∧
    (s.finishProvision p).lif.capacity = s.lif.capacity ∧ (s.finishProvision p).lif.imageBase = s.lif.imageBase ∧
    (s.finishProvision p).lif.scratchBase = s.lif.scratchBase ∧
    (s.finishProvision p).lif.limitData = s.lif.limitData ∧
    (s.finishProvision p).lif.limitControl = s.lif.limitControl ∧
    (s.finishProvision p).lif.limitPlatform = s.lif.limitPlatform ∧
    (s.finishProvision p).lif.outstanding = s.lif.outstanding ∧
    (s.finishProvision p).lif.freeCredits = s.lif.freeCredits ∧ (s.finishProvision p).lif.nextTag = s.lif.nextTag ∧
    (s.finishProvision p).lif.erroredBursts = s.lif.erroredBursts ∧
    (s.finishProvision p).lif.burstTaken = s.lif.burstTaken ∧
    (s.finishProvision p).lif.burstErrored = s.lif.burstErrored ∧
    (s.finishProvision p).lif.burstDropped = s.lif.burstDropped ∧ (s.finishProvision p).lif.session = s.lif.session ∧
    (s.finishProvision p).cru.challenges = s.cru.challenges ∧ (s.finishProvision p).cru.ops = s.cru.ops ∧
    (s.finishProvision p).kst = s.kst ∧ (s.finishProvision p).rtb.resealOnWake = s.rtb.resealOnWake ∧
    (s.finishProvision p).rtb.staged = s.rtb.staged ∧ (s.finishProvision p).rtb.commit = s.rtb.commit ∧
    (s.finishProvision p).rtb.preparing = s.rtb.preparing ∧
    (s.finishProvision p).rtb.startCommit = s.rtb.startCommit ∧ (s.finishProvision p).dpu = s.dpu ∧
    (s.finishProvision p).rke = s.rke ∧ (s.finishProvision p).rsu = s.rsu ∧ (s.finishProvision p).wpe = s.wpe ∧
    (s.finishProvision p).sst = s.sst ∧ (s.finishProvision p).fresh = s.fresh := by
  unfold State.finishProvision; (try dsimp only); (repeat' split) <;> first | (simp; done) | simp [apply_ite]

@[simp] theorem State.provisionDone_frame (s : State) : s.provisionDone.lif.started = s.lif.started ∧
    s.provisionDone.lif.mediaCredits = s.lif.mediaCredits ∧ s.provisionDone.lif.capacity = s.lif.capacity ∧
    s.provisionDone.lif.imageBase = s.lif.imageBase ∧ s.provisionDone.lif.scratchBase = s.lif.scratchBase ∧
    s.provisionDone.lif.limitData = s.lif.limitData ∧ s.provisionDone.lif.limitControl = s.lif.limitControl ∧
    s.provisionDone.lif.limitPlatform = s.lif.limitPlatform ∧ s.provisionDone.lif.outstanding = s.lif.outstanding ∧
    s.provisionDone.lif.freeCredits = s.lif.freeCredits ∧ s.provisionDone.lif.nextTag = s.lif.nextTag ∧
    s.provisionDone.lif.erroredBursts = s.lif.erroredBursts ∧ s.provisionDone.lif.burstTaken = s.lif.burstTaken ∧
    s.provisionDone.lif.burstErrored = s.lif.burstErrored ∧ s.provisionDone.lif.burstDropped = s.lif.burstDropped ∧
    s.provisionDone.lif.session = s.lif.session ∧ s.provisionDone.cru.challenges = s.cru.challenges ∧
    s.provisionDone.cru.ops = s.cru.ops ∧ s.provisionDone.kst = s.kst ∧
    s.provisionDone.rtb.resealOnWake = s.rtb.resealOnWake ∧ s.provisionDone.rtb.staged = s.rtb.staged ∧
    s.provisionDone.rtb.commit = s.rtb.commit ∧ s.provisionDone.rtb.preparing = s.rtb.preparing ∧
    s.provisionDone.rtb.startCommit = s.rtb.startCommit ∧ s.provisionDone.dpu = s.dpu ∧ s.provisionDone.rke = s.rke ∧
    s.provisionDone.rsu = s.rsu ∧ s.provisionDone.wpe = s.wpe ∧ s.provisionDone.sst.units = s.sst.units ∧
    s.provisionDone.sst.labelCopy = s.sst.labelCopy ∧ s.provisionDone.sst.marks = s.sst.marks ∧
    s.provisionDone.sst.serving = s.sst.serving ∧ s.provisionDone.sst.seconds = s.sst.seconds ∧
    s.provisionDone.sst.power = s.sst.power ∧ s.provisionDone.sst.drain = s.sst.drain ∧
    s.provisionDone.sst.downMark = s.sst.downMark ∧ s.provisionDone.sst.ready = s.sst.ready ∧
    s.provisionDone.sst.retention = s.sst.retention ∧ s.provisionDone.fresh = s.fresh := by
  unfold State.provisionDone; (try dsimp only); (repeat' split) <;> first | (simp; done) | simp [apply_ite]

@[simp] theorem State.provision_frame (s : State) (admin recovery : Secret) (size : Nat) (present : Option Bool) (token : Secret) (rto : ReplyTo) :
    (s.provision admin recovery size present token rto).lif.started = s.lif.started ∧
    (s.provision admin recovery size present token rto).lif.mediaCredits = s.lif.mediaCredits ∧
    (s.provision admin recovery size present token rto).lif.capacity = s.lif.capacity ∧
    (s.provision admin recovery size present token rto).lif.imageBase = s.lif.imageBase ∧
    (s.provision admin recovery size present token rto).lif.scratchBase = s.lif.scratchBase ∧
    (s.provision admin recovery size present token rto).lif.limitData = s.lif.limitData ∧
    (s.provision admin recovery size present token rto).lif.limitControl = s.lif.limitControl ∧
    (s.provision admin recovery size present token rto).lif.limitPlatform = s.lif.limitPlatform ∧
    (s.provision admin recovery size present token rto).lif.outstanding = s.lif.outstanding ∧
    (s.provision admin recovery size present token rto).lif.freeCredits = s.lif.freeCredits ∧
    (s.provision admin recovery size present token rto).lif.nextTag = s.lif.nextTag ∧
    (s.provision admin recovery size present token rto).lif.erroredBursts = s.lif.erroredBursts ∧
    (s.provision admin recovery size present token rto).lif.burstTaken = s.lif.burstTaken ∧
    (s.provision admin recovery size present token rto).lif.burstErrored = s.lif.burstErrored ∧
    (s.provision admin recovery size present token rto).lif.burstDropped = s.lif.burstDropped ∧
    (s.provision admin recovery size present token rto).lif.session = s.lif.session ∧
    (s.provision admin recovery size present token rto).cru = s.cru ∧
    (s.provision admin recovery size present token rto).kst = s.kst ∧
    (s.provision admin recovery size present token rto).rtb = s.rtb ∧
    (s.provision admin recovery size present token rto).dpu = s.dpu ∧
    (s.provision admin recovery size present token rto).rke = s.rke ∧
    (s.provision admin recovery size present token rto).wpe = s.wpe ∧
    (s.provision admin recovery size present token rto).sst.units = s.sst.units ∧
    (s.provision admin recovery size present token rto).sst.labelCopy = s.sst.labelCopy ∧
    (s.provision admin recovery size present token rto).sst.marks = s.sst.marks ∧
    (s.provision admin recovery size present token rto).sst.serving = s.sst.serving ∧
    (s.provision admin recovery size present token rto).sst.lastDevice = s.sst.lastDevice ∧
    (s.provision admin recovery size present token rto).sst.seconds = s.sst.seconds ∧
    (s.provision admin recovery size present token rto).sst.power = s.sst.power ∧
    (s.provision admin recovery size present token rto).sst.drain = s.sst.drain ∧
    (s.provision admin recovery size present token rto).sst.downMark = s.sst.downMark ∧
    (s.provision admin recovery size present token rto).sst.ready = s.sst.ready ∧
    (s.provision admin recovery size present token rto).sst.retention = s.sst.retention ∧
    (s.provision admin recovery size present token rto).fresh = s.fresh := by
  unfold State.provision; (try dsimp only); (repeat' split) <;> first | (simp; done) | simp [apply_ite]

@[simp] theorem State.unlockFor_frame (s : State) (i : Nat) (g : Option WrapValue) (r : Nat) :
    (s.unlockFor i g r).1.lif.started = s.lif.started ∧ (s.unlockFor i g r).1.lif.mediaCredits = s.lif.mediaCredits ∧
    (s.unlockFor i g r).1.lif.capacity = s.lif.capacity ∧ (s.unlockFor i g r).1.lif.imageBase = s.lif.imageBase ∧
    (s.unlockFor i g r).1.lif.scratchBase = s.lif.scratchBase ∧
    (s.unlockFor i g r).1.lif.limitData = s.lif.limitData ∧
    (s.unlockFor i g r).1.lif.limitControl = s.lif.limitControl ∧
    (s.unlockFor i g r).1.lif.limitPlatform = s.lif.limitPlatform ∧
    (s.unlockFor i g r).1.lif.outstanding = s.lif.outstanding ∧
    (s.unlockFor i g r).1.lif.freeCredits = s.lif.freeCredits ∧ (s.unlockFor i g r).1.lif.nextTag = s.lif.nextTag ∧
    (s.unlockFor i g r).1.lif.erroredBursts = s.lif.erroredBursts ∧
    (s.unlockFor i g r).1.lif.burstTaken = s.lif.burstTaken ∧
    (s.unlockFor i g r).1.lif.burstErrored = s.lif.burstErrored ∧
    (s.unlockFor i g r).1.lif.burstDropped = s.lif.burstDropped ∧ (s.unlockFor i g r).1.lif.session = s.lif.session ∧
    (s.unlockFor i g r).1.cru = s.cru ∧ (s.unlockFor i g r).1.btc = s.btc ∧
    (s.unlockFor i g r).1.kst.reservation = s.kst.reservation ∧
    (s.unlockFor i g r).1.rtb.resealOnWake = s.rtb.resealOnWake ∧ (s.unlockFor i g r).1.rtb.staged = s.rtb.staged ∧
    (s.unlockFor i g r).1.rtb.commit = s.rtb.commit ∧ (s.unlockFor i g r).1.rtb.preparing = s.rtb.preparing ∧
    (s.unlockFor i g r).1.rtb.startCommit = s.rtb.startCommit ∧ (s.unlockFor i g r).1.rsu = s.rsu ∧
    (s.unlockFor i g r).1.wpe = s.wpe ∧ (s.unlockFor i g r).1.sst.units = s.sst.units ∧
    (s.unlockFor i g r).1.sst.labelCopy = s.sst.labelCopy ∧ (s.unlockFor i g r).1.sst.marks = s.sst.marks ∧
    (s.unlockFor i g r).1.sst.serving = s.sst.serving ∧ (s.unlockFor i g r).1.sst.lastDevice = s.sst.lastDevice ∧
    (s.unlockFor i g r).1.sst.seconds = s.sst.seconds ∧ (s.unlockFor i g r).1.sst.power = s.sst.power ∧
    (s.unlockFor i g r).1.sst.drain = s.sst.drain ∧ (s.unlockFor i g r).1.sst.downMark = s.sst.downMark ∧
    (s.unlockFor i g r).1.sst.ready = s.sst.ready ∧ (s.unlockFor i g r).1.sst.retention = s.sst.retention ∧
    (s.unlockFor i g r).1.fresh = s.fresh := by
  unfold State.unlockFor; (try dsimp only); (repeat' split) <;> first | (simp; done) | simp [apply_ite]

@[simp] theorem State.unlockScope_frame (s : State) (i : Nat) (g : Option WrapValue) (l : List Nat) :
    (s.unlockScope i g l).1.lif.started = s.lif.started ∧
    (s.unlockScope i g l).1.lif.mediaCredits = s.lif.mediaCredits ∧
    (s.unlockScope i g l).1.lif.capacity = s.lif.capacity ∧ (s.unlockScope i g l).1.lif.imageBase = s.lif.imageBase ∧
    (s.unlockScope i g l).1.lif.scratchBase = s.lif.scratchBase ∧
    (s.unlockScope i g l).1.lif.limitData = s.lif.limitData ∧
    (s.unlockScope i g l).1.lif.limitControl = s.lif.limitControl ∧
    (s.unlockScope i g l).1.lif.limitPlatform = s.lif.limitPlatform ∧
    (s.unlockScope i g l).1.lif.outstanding = s.lif.outstanding ∧
    (s.unlockScope i g l).1.lif.freeCredits = s.lif.freeCredits ∧
    (s.unlockScope i g l).1.lif.nextTag = s.lif.nextTag ∧
    (s.unlockScope i g l).1.lif.erroredBursts = s.lif.erroredBursts ∧
    (s.unlockScope i g l).1.lif.burstTaken = s.lif.burstTaken ∧
    (s.unlockScope i g l).1.lif.burstErrored = s.lif.burstErrored ∧
    (s.unlockScope i g l).1.lif.burstDropped = s.lif.burstDropped ∧
    (s.unlockScope i g l).1.lif.session = s.lif.session ∧ (s.unlockScope i g l).1.cru = s.cru ∧
    (s.unlockScope i g l).1.btc = s.btc ∧ (s.unlockScope i g l).1.kst.reservation = s.kst.reservation ∧
    (s.unlockScope i g l).1.rtb.resealOnWake = s.rtb.resealOnWake ∧
    (s.unlockScope i g l).1.rtb.staged = s.rtb.staged ∧ (s.unlockScope i g l).1.rtb.commit = s.rtb.commit ∧
    (s.unlockScope i g l).1.rtb.preparing = s.rtb.preparing ∧
    (s.unlockScope i g l).1.rtb.startCommit = s.rtb.startCommit ∧ (s.unlockScope i g l).1.rsu = s.rsu ∧
    (s.unlockScope i g l).1.wpe = s.wpe ∧ (s.unlockScope i g l).1.sst.units = s.sst.units ∧
    (s.unlockScope i g l).1.sst.labelCopy = s.sst.labelCopy ∧ (s.unlockScope i g l).1.sst.marks = s.sst.marks ∧
    (s.unlockScope i g l).1.sst.serving = s.sst.serving ∧ (s.unlockScope i g l).1.sst.lastDevice = s.sst.lastDevice ∧
    (s.unlockScope i g l).1.sst.seconds = s.sst.seconds ∧ (s.unlockScope i g l).1.sst.power = s.sst.power ∧
    (s.unlockScope i g l).1.sst.drain = s.sst.drain ∧ (s.unlockScope i g l).1.sst.downMark = s.sst.downMark ∧
    (s.unlockScope i g l).1.sst.ready = s.sst.ready ∧ (s.unlockScope i g l).1.sst.retention = s.sst.retention ∧
    (s.unlockScope i g l).1.fresh = s.fresh := by
  induction l generalizing s with
  | nil => simp [State.unlockScope]
  | cons r rs ih => unfold State.unlockScope; dsimp only; (repeat' split) <;> simp [ih]

@[simp] theorem State.openBoot_frame (s : State) (opened : Nat) : (s.openBoot opened).lif = s.lif ∧
    (s.openBoot opened).cru = s.cru ∧ (s.openBoot opened).kst = s.kst ∧ (s.openBoot opened).rtb = s.rtb ∧
    (s.openBoot opened).dpu = s.dpu ∧ (s.openBoot opened).rke = s.rke ∧ (s.openBoot opened).rsu = s.rsu ∧
    (s.openBoot opened).wpe = s.wpe ∧ (s.openBoot opened).sst = s.sst ∧ (s.openBoot opened).fresh = s.fresh ∧
    (s.openBoot opened).sent = s.sent := by
  unfold State.openBoot; (try dsimp only); (repeat' split) <;> first | (simp; done) | simp [apply_ite]

@[simp] theorem State.unlock_frame (s : State) (i : Nat) (g : Option WrapValue) (range : Nat) (rto : ReplyTo) :
    (s.unlock i g range rto).lif.started = s.lif.started ∧
    (s.unlock i g range rto).lif.mediaCredits = s.lif.mediaCredits ∧
    (s.unlock i g range rto).lif.capacity = s.lif.capacity ∧
    (s.unlock i g range rto).lif.imageBase = s.lif.imageBase ∧
    (s.unlock i g range rto).lif.scratchBase = s.lif.scratchBase ∧
    (s.unlock i g range rto).lif.limitData = s.lif.limitData ∧
    (s.unlock i g range rto).lif.limitControl = s.lif.limitControl ∧
    (s.unlock i g range rto).lif.limitPlatform = s.lif.limitPlatform ∧
    (s.unlock i g range rto).lif.outstanding = s.lif.outstanding ∧
    (s.unlock i g range rto).lif.freeCredits = s.lif.freeCredits ∧
    (s.unlock i g range rto).lif.nextTag = s.lif.nextTag ∧
    (s.unlock i g range rto).lif.erroredBursts = s.lif.erroredBursts ∧
    (s.unlock i g range rto).lif.burstTaken = s.lif.burstTaken ∧
    (s.unlock i g range rto).lif.burstErrored = s.lif.burstErrored ∧
    (s.unlock i g range rto).lif.burstDropped = s.lif.burstDropped ∧
    (s.unlock i g range rto).lif.session = s.lif.session ∧ (s.unlock i g range rto).cru = s.cru ∧
    (s.unlock i g range rto).rtb.preparing = s.rtb.preparing ∧
    (s.unlock i g range rto).rtb.startCommit = s.rtb.startCommit ∧ (s.unlock i g range rto).rsu = s.rsu ∧
    (s.unlock i g range rto).wpe = s.wpe ∧ (s.unlock i g range rto).sst.units = s.sst.units ∧
    (s.unlock i g range rto).sst.labelCopy = s.sst.labelCopy ∧ (s.unlock i g range rto).sst.marks = s.sst.marks ∧
    (s.unlock i g range rto).sst.serving = s.sst.serving ∧
    (s.unlock i g range rto).sst.lastDevice = s.sst.lastDevice ∧
    (s.unlock i g range rto).sst.seconds = s.sst.seconds ∧ (s.unlock i g range rto).sst.power = s.sst.power ∧
    (s.unlock i g range rto).sst.drain = s.sst.drain ∧ (s.unlock i g range rto).sst.downMark = s.sst.downMark ∧
    (s.unlock i g range rto).sst.ready = s.sst.ready ∧ (s.unlock i g range rto).sst.retention = s.sst.retention := by
  unfold State.unlock; (try dsimp only); (repeat' split) <;> first | (simp; done) | simp [apply_ite]

@[simp] theorem State.lock_frame (s : State) (i range direction : Nat) (rto : ReplyTo) :
    (s.lock i range direction rto).lif.started = s.lif.started ∧
    (s.lock i range direction rto).lif.mediaCredits = s.lif.mediaCredits ∧
    (s.lock i range direction rto).lif.capacity = s.lif.capacity ∧
    (s.lock i range direction rto).lif.imageBase = s.lif.imageBase ∧
    (s.lock i range direction rto).lif.scratchBase = s.lif.scratchBase ∧
    (s.lock i range direction rto).lif.limitData = s.lif.limitData ∧
    (s.lock i range direction rto).lif.limitControl = s.lif.limitControl ∧
    (s.lock i range direction rto).lif.limitPlatform = s.lif.limitPlatform ∧
    (s.lock i range direction rto).lif.outstanding = s.lif.outstanding ∧
    (s.lock i range direction rto).lif.freeCredits = s.lif.freeCredits ∧
    (s.lock i range direction rto).lif.nextTag = s.lif.nextTag ∧
    (s.lock i range direction rto).lif.erroredBursts = s.lif.erroredBursts ∧
    (s.lock i range direction rto).lif.burstTaken = s.lif.burstTaken ∧
    (s.lock i range direction rto).lif.burstErrored = s.lif.burstErrored ∧
    (s.lock i range direction rto).lif.burstDropped = s.lif.burstDropped ∧
    (s.lock i range direction rto).lif.session = s.lif.session ∧ (s.lock i range direction rto).cru = s.cru ∧
    (s.lock i range direction rto).btc = s.btc ∧ (s.lock i range direction rto).kst.hold = s.kst.hold ∧
    (s.lock i range direction rto).kst.reservation = s.kst.reservation ∧
    (s.lock i range direction rto).rtb.resealOnWake = s.rtb.resealOnWake ∧
    (s.lock i range direction rto).rtb.staged = s.rtb.staged ∧
    (s.lock i range direction rto).rtb.commit = s.rtb.commit ∧
    (s.lock i range direction rto).rtb.preparing = s.rtb.preparing ∧
    (s.lock i range direction rto).rtb.startCommit = s.rtb.startCommit ∧ (s.lock i range direction rto).dpu = s.dpu ∧
    (s.lock i range direction rto).rke = s.rke ∧ (s.lock i range direction rto).rsu = s.rsu ∧
    (s.lock i range direction rto).wpe = s.wpe ∧ (s.lock i range direction rto).sst = s.sst ∧
    (s.lock i range direction rto).fresh = s.fresh := by
  unfold State.lock; (try dsimp only); (repeat' split) <;> first | (simp; done) | simp [apply_ite]

@[simp] theorem State.bound_frame (s : State) (rto : ReplyTo) (token : Option Secret) :
    (s.bound rto token).lif.started = s.lif.started ∧ (s.bound rto token).lif.mediaCredits = s.lif.mediaCredits ∧
    (s.bound rto token).lif.capacity = s.lif.capacity ∧ (s.bound rto token).lif.imageBase = s.lif.imageBase ∧
    (s.bound rto token).lif.scratchBase = s.lif.scratchBase ∧ (s.bound rto token).lif.limitData = s.lif.limitData ∧
    (s.bound rto token).lif.limitControl = s.lif.limitControl ∧
    (s.bound rto token).lif.limitPlatform = s.lif.limitPlatform ∧
    (s.bound rto token).lif.outstanding = s.lif.outstanding ∧
    (s.bound rto token).lif.freeCredits = s.lif.freeCredits ∧ (s.bound rto token).lif.nextTag = s.lif.nextTag ∧
    (s.bound rto token).lif.erroredBursts = s.lif.erroredBursts ∧
    (s.bound rto token).lif.burstTaken = s.lif.burstTaken ∧
    (s.bound rto token).lif.burstErrored = s.lif.burstErrored ∧
    (s.bound rto token).lif.burstDropped = s.lif.burstDropped ∧ (s.bound rto token).lif.session = s.lif.session ∧
    (s.bound rto token).cru = s.cru ∧ (s.bound rto token).kst = s.kst ∧ (s.bound rto token).rtb = s.rtb ∧
    (s.bound rto token).dpu = s.dpu ∧ (s.bound rto token).rke = s.rke ∧ (s.bound rto token).wpe = s.wpe ∧
    (s.bound rto token).sst = s.sst ∧ (s.bound rto token).fresh = s.fresh := by
  unfold State.bound; (try dsimp only); (repeat' split) <;> first | (simp; done) | simp [apply_ite]

@[simp] theorem State.bindPlatform_frame (s : State) (action : Option BindAction) (token : Secret) (rto : ReplyTo) :
    (s.bindPlatform action token rto).lif.started = s.lif.started ∧
    (s.bindPlatform action token rto).lif.mediaCredits = s.lif.mediaCredits ∧
    (s.bindPlatform action token rto).lif.capacity = s.lif.capacity ∧
    (s.bindPlatform action token rto).lif.imageBase = s.lif.imageBase ∧
    (s.bindPlatform action token rto).lif.scratchBase = s.lif.scratchBase ∧
    (s.bindPlatform action token rto).lif.limitData = s.lif.limitData ∧
    (s.bindPlatform action token rto).lif.limitControl = s.lif.limitControl ∧
    (s.bindPlatform action token rto).lif.limitPlatform = s.lif.limitPlatform ∧
    (s.bindPlatform action token rto).lif.outstanding = s.lif.outstanding ∧
    (s.bindPlatform action token rto).lif.freeCredits = s.lif.freeCredits ∧
    (s.bindPlatform action token rto).lif.nextTag = s.lif.nextTag ∧
    (s.bindPlatform action token rto).lif.erroredBursts = s.lif.erroredBursts ∧
    (s.bindPlatform action token rto).lif.burstTaken = s.lif.burstTaken ∧
    (s.bindPlatform action token rto).lif.burstErrored = s.lif.burstErrored ∧
    (s.bindPlatform action token rto).lif.burstDropped = s.lif.burstDropped ∧
    (s.bindPlatform action token rto).lif.session = s.lif.session ∧ (s.bindPlatform action token rto).cru = s.cru ∧
    (s.bindPlatform action token rto).btc = s.btc ∧ (s.bindPlatform action token rto).kst = s.kst ∧
    (s.bindPlatform action token rto).rtb = s.rtb ∧ (s.bindPlatform action token rto).dpu = s.dpu ∧
    (s.bindPlatform action token rto).rke = s.rke ∧ (s.bindPlatform action token rto).rsu = s.rsu ∧
    (s.bindPlatform action token rto).wpe = s.wpe ∧ (s.bindPlatform action token rto).sst.units = s.sst.units ∧
    (s.bindPlatform action token rto).sst.labelCopy = s.sst.labelCopy ∧
    (s.bindPlatform action token rto).sst.marks = s.sst.marks ∧
    (s.bindPlatform action token rto).sst.serving = s.sst.serving ∧
    (s.bindPlatform action token rto).sst.seconds = s.sst.seconds ∧
    (s.bindPlatform action token rto).sst.power = s.sst.power ∧
    (s.bindPlatform action token rto).sst.drain = s.sst.drain ∧
    (s.bindPlatform action token rto).sst.downMark = s.sst.downMark ∧
    (s.bindPlatform action token rto).sst.ready = s.sst.ready ∧
    (s.bindPlatform action token rto).sst.retention = s.sst.retention ∧
    (s.bindPlatform action token rto).fresh = s.fresh := by
  unfold State.bindPlatform; (try dsimp only); (repeat' split) <;> first | (simp; done) | simp [apply_ite]

@[simp] theorem State.unseal_frame (s : State) (action : Option UnsealAction) (rto : ReplyTo) :
    (s.unseal action rto).lif.started = s.lif.started ∧ (s.unseal action rto).lif.mediaCredits = s.lif.mediaCredits ∧
    (s.unseal action rto).lif.capacity = s.lif.capacity ∧ (s.unseal action rto).lif.imageBase = s.lif.imageBase ∧
    (s.unseal action rto).lif.scratchBase = s.lif.scratchBase ∧
    (s.unseal action rto).lif.limitData = s.lif.limitData ∧
    (s.unseal action rto).lif.limitControl = s.lif.limitControl ∧
    (s.unseal action rto).lif.limitPlatform = s.lif.limitPlatform ∧
    (s.unseal action rto).lif.outstanding = s.lif.outstanding ∧
    (s.unseal action rto).lif.freeCredits = s.lif.freeCredits ∧ (s.unseal action rto).lif.nextTag = s.lif.nextTag ∧
    (s.unseal action rto).lif.erroredBursts = s.lif.erroredBursts ∧
    (s.unseal action rto).lif.burstTaken = s.lif.burstTaken ∧
    (s.unseal action rto).lif.burstErrored = s.lif.burstErrored ∧
    (s.unseal action rto).lif.burstDropped = s.lif.burstDropped ∧ (s.unseal action rto).lif.session = s.lif.session ∧
    (s.unseal action rto).cru = s.cru ∧ (s.unseal action rto).kst = s.kst ∧ (s.unseal action rto).rtb = s.rtb ∧
    (s.unseal action rto).dpu = s.dpu ∧ (s.unseal action rto).rke = s.rke ∧ (s.unseal action rto).rsu = s.rsu ∧
    (s.unseal action rto).wpe = s.wpe ∧ (s.unseal action rto).sst = s.sst ∧
    (s.unseal action rto).fresh = s.fresh := by
  unfold State.unseal; (try dsimp only); (repeat' split) <;> first | (simp; done) | simp [apply_ite]

@[simp] theorem State.hello_frame (s : State) (token : Secret) : (s.hello token).lif.started = s.lif.started ∧
    (s.hello token).lif.mediaCredits = s.lif.mediaCredits ∧ (s.hello token).lif.capacity = s.lif.capacity ∧
    (s.hello token).lif.imageBase = s.lif.imageBase ∧ (s.hello token).lif.scratchBase = s.lif.scratchBase ∧
    (s.hello token).lif.limitData = s.lif.limitData ∧ (s.hello token).lif.limitControl = s.lif.limitControl ∧
    (s.hello token).lif.limitPlatform = s.lif.limitPlatform ∧ (s.hello token).lif.outstanding = s.lif.outstanding ∧
    (s.hello token).lif.freeCredits = s.lif.freeCredits ∧ (s.hello token).lif.nextTag = s.lif.nextTag ∧
    (s.hello token).lif.erroredBursts = s.lif.erroredBursts ∧ (s.hello token).lif.burstTaken = s.lif.burstTaken ∧
    (s.hello token).lif.burstErrored = s.lif.burstErrored ∧ (s.hello token).lif.burstDropped = s.lif.burstDropped ∧
    (s.hello token).lif.session = s.lif.session ∧ (s.hello token).cru = s.cru ∧
    (s.hello token).rtb.resealOnWake = s.rtb.resealOnWake ∧ (s.hello token).rtb.staged = s.rtb.staged ∧
    (s.hello token).rtb.preparing = s.rtb.preparing ∧ (s.hello token).rtb.startCommit = s.rtb.startCommit ∧
    (s.hello token).sst.units = s.sst.units ∧ (s.hello token).sst.labelCopy = s.sst.labelCopy ∧
    (s.hello token).sst.marks = s.sst.marks ∧ (s.hello token).sst.serving = s.sst.serving ∧
    (s.hello token).sst.lastDevice = s.sst.lastDevice ∧ (s.hello token).sst.seconds = s.sst.seconds ∧
    (s.hello token).sst.power = s.sst.power ∧ (s.hello token).sst.drain = s.sst.drain ∧
    (s.hello token).sst.downMark = s.sst.downMark ∧ (s.hello token).sst.ready = s.sst.ready ∧
    (s.hello token).sst.retention = s.sst.retention ∧ (s.hello token).fresh = s.fresh := by
  unfold State.hello; (try dsimp only); (repeat' split) <;> first | (simp; done) | simp [apply_ite]

@[simp] theorem State.helloExpired_frame (s : State) : s.helloExpired.lif.started = s.lif.started ∧
    s.helloExpired.lif.mediaCredits = s.lif.mediaCredits ∧ s.helloExpired.lif.capacity = s.lif.capacity ∧
    s.helloExpired.lif.imageBase = s.lif.imageBase ∧ s.helloExpired.lif.scratchBase = s.lif.scratchBase ∧
    s.helloExpired.lif.limitData = s.lif.limitData ∧ s.helloExpired.lif.limitControl = s.lif.limitControl ∧
    s.helloExpired.lif.limitPlatform = s.lif.limitPlatform ∧ s.helloExpired.lif.outstanding = s.lif.outstanding ∧
    s.helloExpired.lif.freeCredits = s.lif.freeCredits ∧ s.helloExpired.lif.nextTag = s.lif.nextTag ∧
    s.helloExpired.lif.erroredBursts = s.lif.erroredBursts ∧ s.helloExpired.lif.burstTaken = s.lif.burstTaken ∧
    s.helloExpired.lif.burstErrored = s.lif.burstErrored ∧ s.helloExpired.lif.burstDropped = s.lif.burstDropped ∧
    s.helloExpired.lif.session = s.lif.session ∧ s.helloExpired.cru = s.cru ∧
    s.helloExpired.rtb.resealOnWake = s.rtb.resealOnWake ∧ s.helloExpired.rtb.staged = s.rtb.staged ∧
    s.helloExpired.rtb.preparing = s.rtb.preparing ∧ s.helloExpired.rtb.startCommit = s.rtb.startCommit ∧
    s.helloExpired.sst.units = s.sst.units ∧ s.helloExpired.sst.labelCopy = s.sst.labelCopy ∧
    s.helloExpired.sst.marks = s.sst.marks ∧ s.helloExpired.sst.serving = s.sst.serving ∧
    s.helloExpired.sst.lastDevice = s.sst.lastDevice ∧ s.helloExpired.sst.seconds = s.sst.seconds ∧
    s.helloExpired.sst.power = s.sst.power ∧ s.helloExpired.sst.drain = s.sst.drain ∧
    s.helloExpired.sst.downMark = s.sst.downMark ∧ s.helloExpired.sst.ready = s.sst.ready ∧
    s.helloExpired.sst.retention = s.sst.retention ∧ s.helloExpired.fresh = s.fresh := by
  unfold State.helloExpired; (try dsimp only); (repeat' split) <;> first | (simp; done) | simp [apply_ite]

/-! ### Operations of the Range Table -/

@[simp] theorem State.listPlain_frame (s : State) (start : Nat) (rto : ReplyTo) :
    (s.listPlain start rto).lif.started = s.lif.started ∧
    (s.listPlain start rto).lif.mediaCredits = s.lif.mediaCredits ∧
    (s.listPlain start rto).lif.capacity = s.lif.capacity ∧ (s.listPlain start rto).lif.imageBase = s.lif.imageBase ∧
    (s.listPlain start rto).lif.scratchBase = s.lif.scratchBase ∧
    (s.listPlain start rto).lif.limitData = s.lif.limitData ∧
    (s.listPlain start rto).lif.limitControl = s.lif.limitControl ∧
    (s.listPlain start rto).lif.limitPlatform = s.lif.limitPlatform ∧
    (s.listPlain start rto).lif.outstanding = s.lif.outstanding ∧
    (s.listPlain start rto).lif.freeCredits = s.lif.freeCredits ∧
    (s.listPlain start rto).lif.nextTag = s.lif.nextTag ∧
    (s.listPlain start rto).lif.erroredBursts = s.lif.erroredBursts ∧
    (s.listPlain start rto).lif.burstTaken = s.lif.burstTaken ∧
    (s.listPlain start rto).lif.burstErrored = s.lif.burstErrored ∧
    (s.listPlain start rto).lif.burstDropped = s.lif.burstDropped ∧
    (s.listPlain start rto).lif.session = s.lif.session ∧ (s.listPlain start rto).cru = s.cru ∧
    (s.listPlain start rto).btc = s.btc ∧ (s.listPlain start rto).kst = s.kst ∧ (s.listPlain start rto).rtb = s.rtb ∧
    (s.listPlain start rto).dpu = s.dpu ∧ (s.listPlain start rto).rke = s.rke ∧ (s.listPlain start rto).rsu = s.rsu ∧
    (s.listPlain start rto).wpe = s.wpe ∧ (s.listPlain start rto).sst = s.sst ∧
    (s.listPlain start rto).fresh = s.fresh := by
  unfold State.listPlain; (try dsimp only); (repeat' split) <;> first | (simp; done) | simp [apply_ite]

@[simp] theorem State.listFull_frame (s : State) (start : Nat) (rto : ReplyTo) :
    (s.listFull start rto).lif.started = s.lif.started ∧
    (s.listFull start rto).lif.mediaCredits = s.lif.mediaCredits ∧
    (s.listFull start rto).lif.capacity = s.lif.capacity ∧ (s.listFull start rto).lif.imageBase = s.lif.imageBase ∧
    (s.listFull start rto).lif.scratchBase = s.lif.scratchBase ∧
    (s.listFull start rto).lif.limitData = s.lif.limitData ∧
    (s.listFull start rto).lif.limitControl = s.lif.limitControl ∧
    (s.listFull start rto).lif.limitPlatform = s.lif.limitPlatform ∧
    (s.listFull start rto).lif.outstanding = s.lif.outstanding ∧
    (s.listFull start rto).lif.freeCredits = s.lif.freeCredits ∧ (s.listFull start rto).lif.nextTag = s.lif.nextTag ∧
    (s.listFull start rto).lif.erroredBursts = s.lif.erroredBursts ∧
    (s.listFull start rto).lif.burstTaken = s.lif.burstTaken ∧
    (s.listFull start rto).lif.burstErrored = s.lif.burstErrored ∧
    (s.listFull start rto).lif.burstDropped = s.lif.burstDropped ∧
    (s.listFull start rto).lif.session = s.lif.session ∧ (s.listFull start rto).cru = s.cru ∧
    (s.listFull start rto).btc = s.btc ∧ (s.listFull start rto).kst = s.kst ∧ (s.listFull start rto).rtb = s.rtb ∧
    (s.listFull start rto).dpu = s.dpu ∧ (s.listFull start rto).rke = s.rke ∧ (s.listFull start rto).rsu = s.rsu ∧
    (s.listFull start rto).wpe = s.wpe ∧ (s.listFull start rto).sst = s.sst ∧
    (s.listFull start rto).fresh = s.fresh := by
  unfold State.listFull; (try dsimp only); (repeat' split) <;> first | (simp; done) | simp [apply_ite]

@[simp] theorem State.stage_frame (s : State) (e : Edit) (rto : ReplyTo) :
    (s.stage e rto).lif.started = s.lif.started ∧ (s.stage e rto).lif.mediaCredits = s.lif.mediaCredits ∧
    (s.stage e rto).lif.capacity = s.lif.capacity ∧ (s.stage e rto).lif.imageBase = s.lif.imageBase ∧
    (s.stage e rto).lif.scratchBase = s.lif.scratchBase ∧ (s.stage e rto).lif.limitData = s.lif.limitData ∧
    (s.stage e rto).lif.limitControl = s.lif.limitControl ∧ (s.stage e rto).lif.limitPlatform = s.lif.limitPlatform ∧
    (s.stage e rto).lif.outstanding = s.lif.outstanding ∧ (s.stage e rto).lif.freeCredits = s.lif.freeCredits ∧
    (s.stage e rto).lif.nextTag = s.lif.nextTag ∧ (s.stage e rto).lif.erroredBursts = s.lif.erroredBursts ∧
    (s.stage e rto).lif.burstTaken = s.lif.burstTaken ∧ (s.stage e rto).lif.burstErrored = s.lif.burstErrored ∧
    (s.stage e rto).lif.burstDropped = s.lif.burstDropped ∧ (s.stage e rto).lif.session = s.lif.session ∧
    (s.stage e rto).cru = s.cru ∧ (s.stage e rto).btc = s.btc ∧ (s.stage e rto).kst = s.kst ∧
    (s.stage e rto).rtb.entries = s.rtb.entries ∧ (s.stage e rto).rtb.resealOnWake = s.rtb.resealOnWake ∧
    (s.stage e rto).rtb.commit = s.rtb.commit ∧ (s.stage e rto).rtb.preparing = s.rtb.preparing ∧
    (s.stage e rto).rtb.startCommit = s.rtb.startCommit ∧ (s.stage e rto).dpu = s.dpu ∧ (s.stage e rto).rke = s.rke ∧
    (s.stage e rto).rsu = s.rsu ∧ (s.stage e rto).wpe = s.wpe ∧ (s.stage e rto).sst.units = s.sst.units ∧
    (s.stage e rto).sst.labelCopy = s.sst.labelCopy ∧ (s.stage e rto).sst.marks = s.sst.marks ∧
    (s.stage e rto).sst.serving = s.sst.serving ∧ (s.stage e rto).sst.lastDevice = s.sst.lastDevice ∧
    (s.stage e rto).sst.seconds = s.sst.seconds ∧ (s.stage e rto).sst.power = s.sst.power ∧
    (s.stage e rto).sst.drain = s.sst.drain ∧ (s.stage e rto).sst.downMark = s.sst.downMark ∧
    (s.stage e rto).sst.ready = s.sst.ready ∧ (s.stage e rto).sst.retention = s.sst.retention ∧
    (s.stage e rto).fresh = s.fresh := by
  unfold State.stage; (try dsimp only); (repeat' split) <;> first | (simp; done) | simp [apply_ite]

@[simp] theorem State.discard_frame (s : State) (rto : ReplyTo) : (s.discard rto).lif.started = s.lif.started ∧
    (s.discard rto).lif.mediaCredits = s.lif.mediaCredits ∧ (s.discard rto).lif.capacity = s.lif.capacity ∧
    (s.discard rto).lif.imageBase = s.lif.imageBase ∧ (s.discard rto).lif.scratchBase = s.lif.scratchBase ∧
    (s.discard rto).lif.limitData = s.lif.limitData ∧ (s.discard rto).lif.limitControl = s.lif.limitControl ∧
    (s.discard rto).lif.limitPlatform = s.lif.limitPlatform ∧ (s.discard rto).lif.outstanding = s.lif.outstanding ∧
    (s.discard rto).lif.freeCredits = s.lif.freeCredits ∧ (s.discard rto).lif.nextTag = s.lif.nextTag ∧
    (s.discard rto).lif.erroredBursts = s.lif.erroredBursts ∧ (s.discard rto).lif.burstTaken = s.lif.burstTaken ∧
    (s.discard rto).lif.burstErrored = s.lif.burstErrored ∧ (s.discard rto).lif.burstDropped = s.lif.burstDropped ∧
    (s.discard rto).lif.session = s.lif.session ∧ (s.discard rto).cru = s.cru ∧ (s.discard rto).btc = s.btc ∧
    (s.discard rto).kst.loads = s.kst.loads ∧ (s.discard rto).kst.hold = s.kst.hold ∧
    (s.discard rto).kst.reservation = s.kst.reservation ∧ (s.discard rto).rtb.entries = s.rtb.entries ∧
    (s.discard rto).rtb.resealOnWake = s.rtb.resealOnWake ∧ (s.discard rto).rtb.commit = s.rtb.commit ∧
    (s.discard rto).rtb.preparing = s.rtb.preparing ∧ (s.discard rto).rtb.startCommit = s.rtb.startCommit ∧
    (s.discard rto).dpu = s.dpu ∧ (s.discard rto).rke = s.rke ∧ (s.discard rto).rsu = s.rsu ∧
    (s.discard rto).wpe = s.wpe ∧ (s.discard rto).sst.units = s.sst.units ∧
    (s.discard rto).sst.labelCopy = s.sst.labelCopy ∧ (s.discard rto).sst.marks = s.sst.marks ∧
    (s.discard rto).sst.serving = s.sst.serving ∧ (s.discard rto).sst.lastDevice = s.sst.lastDevice ∧
    (s.discard rto).sst.seconds = s.sst.seconds ∧ (s.discard rto).sst.power = s.sst.power ∧
    (s.discard rto).sst.drain = s.sst.drain ∧ (s.discard rto).sst.downMark = s.sst.downMark ∧
    (s.discard rto).sst.ready = s.sst.ready ∧ (s.discard rto).sst.retention = s.sst.retention ∧
    (s.discard rto).fresh = s.fresh := by
  unfold State.discard; (try dsimp only); (repeat' split) <;> first | (simp; done) | simp [apply_ite]

@[simp] theorem State.startDrain_frame (s : State) (p : Plan) (raks : List (Nat × Rak)) (rto : ReplyTo) :
    (s.startDrain p raks rto).lif.started = s.lif.started ∧
    (s.startDrain p raks rto).lif.mediaCredits = s.lif.mediaCredits ∧
    (s.startDrain p raks rto).lif.capacity = s.lif.capacity ∧
    (s.startDrain p raks rto).lif.imageBase = s.lif.imageBase ∧
    (s.startDrain p raks rto).lif.scratchBase = s.lif.scratchBase ∧
    (s.startDrain p raks rto).lif.limitData = s.lif.limitData ∧
    (s.startDrain p raks rto).lif.limitControl = s.lif.limitControl ∧
    (s.startDrain p raks rto).lif.limitPlatform = s.lif.limitPlatform ∧
    (s.startDrain p raks rto).lif.outstanding = s.lif.outstanding ∧
    (s.startDrain p raks rto).lif.freeCredits = s.lif.freeCredits ∧
    (s.startDrain p raks rto).lif.nextTag = s.lif.nextTag ∧
    (s.startDrain p raks rto).lif.erroredBursts = s.lif.erroredBursts ∧
    (s.startDrain p raks rto).lif.burstTaken = s.lif.burstTaken ∧
    (s.startDrain p raks rto).lif.burstErrored = s.lif.burstErrored ∧
    (s.startDrain p raks rto).lif.burstDropped = s.lif.burstDropped ∧
    (s.startDrain p raks rto).lif.session = s.lif.session ∧ (s.startDrain p raks rto).cru = s.cru ∧
    (s.startDrain p raks rto).btc = s.btc ∧ (s.startDrain p raks rto).rtb.preparing = s.rtb.preparing ∧
    (s.startDrain p raks rto).rtb.startCommit = s.rtb.startCommit ∧ (s.startDrain p raks rto).rsu = s.rsu ∧
    (s.startDrain p raks rto).wpe = s.wpe ∧ (s.startDrain p raks rto).sst.units = s.sst.units ∧
    (s.startDrain p raks rto).sst.labelCopy = s.sst.labelCopy ∧ (s.startDrain p raks rto).sst.marks = s.sst.marks ∧
    (s.startDrain p raks rto).sst.serving = s.sst.serving ∧
    (s.startDrain p raks rto).sst.lastDevice = s.sst.lastDevice ∧
    (s.startDrain p raks rto).sst.seconds = s.sst.seconds ∧ (s.startDrain p raks rto).sst.power = s.sst.power ∧
    (s.startDrain p raks rto).sst.drain = s.sst.drain ∧ (s.startDrain p raks rto).sst.downMark = s.sst.downMark ∧
    (s.startDrain p raks rto).sst.ready = s.sst.ready ∧
    (s.startDrain p raks rto).sst.retention = s.sst.retention := by
  unfold State.startDrain; (try dsimp only); (repeat' split) <;> first | (simp; done) | simp [apply_ite]

@[simp] theorem State.defer_frame (s : State) (p : Plan) (raks : List (Nat × Rak)) (rto : ReplyTo) :
    (s.defer p raks rto).lif = s.lif ∧ (s.defer p raks rto).cru = s.cru ∧ (s.defer p raks rto).btc = s.btc ∧
    (s.defer p raks rto).kst.loads = s.kst.loads ∧ (s.defer p raks rto).kst.hold = s.kst.hold ∧
    (s.defer p raks rto).kst.reservation = s.kst.reservation ∧ (s.defer p raks rto).rtb.entries = s.rtb.entries ∧
    (s.defer p raks rto).rtb.resealOnWake = s.rtb.resealOnWake ∧ (s.defer p raks rto).rtb.commit = s.rtb.commit ∧
    (s.defer p raks rto).rtb.startCommit = s.rtb.startCommit ∧ (s.defer p raks rto).dpu = s.dpu ∧
    (s.defer p raks rto).rke = s.rke ∧ (s.defer p raks rto).rsu = s.rsu ∧ (s.defer p raks rto).wpe = s.wpe ∧
    (s.defer p raks rto).sst.units = s.sst.units ∧ (s.defer p raks rto).sst.labelCopy = s.sst.labelCopy ∧
    (s.defer p raks rto).sst.marks = s.sst.marks ∧ (s.defer p raks rto).sst.serving = s.sst.serving ∧
    (s.defer p raks rto).sst.lastDevice = s.sst.lastDevice ∧ (s.defer p raks rto).sst.seconds = s.sst.seconds ∧
    (s.defer p raks rto).sst.power = s.sst.power ∧ (s.defer p raks rto).sst.drain = s.sst.drain ∧
    (s.defer p raks rto).sst.downMark = s.sst.downMark ∧ (s.defer p raks rto).sst.ready = s.sst.ready ∧
    (s.defer p raks rto).sst.retention = s.sst.retention ∧ (s.defer p raks rto).sent = s.sent := by
  unfold State.defer; (try dsimp only); (repeat' split) <;> first | (simp; done) | simp [apply_ite]

@[simp] theorem State.commit_frame (s : State) (g : Option WrapValue) (defer : Option Bool) (rto : ReplyTo) :
    (s.commit g defer rto).lif.started = s.lif.started ∧
    (s.commit g defer rto).lif.mediaCredits = s.lif.mediaCredits ∧
    (s.commit g defer rto).lif.capacity = s.lif.capacity ∧ (s.commit g defer rto).lif.imageBase = s.lif.imageBase ∧
    (s.commit g defer rto).lif.scratchBase = s.lif.scratchBase ∧
    (s.commit g defer rto).lif.limitData = s.lif.limitData ∧
    (s.commit g defer rto).lif.limitControl = s.lif.limitControl ∧
    (s.commit g defer rto).lif.limitPlatform = s.lif.limitPlatform ∧
    (s.commit g defer rto).lif.outstanding = s.lif.outstanding ∧
    (s.commit g defer rto).lif.freeCredits = s.lif.freeCredits ∧ (s.commit g defer rto).lif.nextTag = s.lif.nextTag ∧
    (s.commit g defer rto).lif.erroredBursts = s.lif.erroredBursts ∧
    (s.commit g defer rto).lif.burstTaken = s.lif.burstTaken ∧
    (s.commit g defer rto).lif.burstErrored = s.lif.burstErrored ∧
    (s.commit g defer rto).lif.burstDropped = s.lif.burstDropped ∧
    (s.commit g defer rto).lif.session = s.lif.session ∧ (s.commit g defer rto).cru = s.cru ∧
    (s.commit g defer rto).btc = s.btc ∧ (s.commit g defer rto).rtb.startCommit = s.rtb.startCommit ∧
    (s.commit g defer rto).rsu = s.rsu ∧ (s.commit g defer rto).wpe = s.wpe ∧
    (s.commit g defer rto).sst.units = s.sst.units ∧ (s.commit g defer rto).sst.labelCopy = s.sst.labelCopy ∧
    (s.commit g defer rto).sst.marks = s.sst.marks ∧ (s.commit g defer rto).sst.serving = s.sst.serving ∧
    (s.commit g defer rto).sst.lastDevice = s.sst.lastDevice ∧ (s.commit g defer rto).sst.seconds = s.sst.seconds ∧
    (s.commit g defer rto).sst.power = s.sst.power ∧ (s.commit g defer rto).sst.drain = s.sst.drain ∧
    (s.commit g defer rto).sst.downMark = s.sst.downMark ∧ (s.commit g defer rto).sst.ready = s.sst.ready ∧
    (s.commit g defer rto).sst.retention = s.sst.retention := by
  unfold State.commit; (try dsimp only); (repeat' split) <;> first | (simp; done) | simp [apply_ite]

@[simp] theorem State.drainExpired_frame (s : State) : s.drainExpired.lif.started = s.lif.started ∧
    s.drainExpired.lif.mediaCredits = s.lif.mediaCredits ∧ s.drainExpired.lif.capacity = s.lif.capacity ∧
    s.drainExpired.lif.imageBase = s.lif.imageBase ∧ s.drainExpired.lif.scratchBase = s.lif.scratchBase ∧
    s.drainExpired.lif.limitData = s.lif.limitData ∧ s.drainExpired.lif.limitControl = s.lif.limitControl ∧
    s.drainExpired.lif.limitPlatform = s.lif.limitPlatform ∧ s.drainExpired.lif.outstanding = s.lif.outstanding ∧
    s.drainExpired.lif.freeCredits = s.lif.freeCredits ∧ s.drainExpired.lif.nextTag = s.lif.nextTag ∧
    s.drainExpired.lif.erroredBursts = s.lif.erroredBursts ∧ s.drainExpired.lif.burstTaken = s.lif.burstTaken ∧
    s.drainExpired.lif.burstErrored = s.lif.burstErrored ∧ s.drainExpired.lif.burstDropped = s.lif.burstDropped ∧
    s.drainExpired.lif.session = s.lif.session ∧ s.drainExpired.cru = s.cru ∧ s.drainExpired.btc = s.btc ∧
    s.drainExpired.rtb.preparing = s.rtb.preparing ∧ s.drainExpired.rtb.startCommit = s.rtb.startCommit ∧
    s.drainExpired.rsu = s.rsu ∧ s.drainExpired.wpe = s.wpe ∧ s.drainExpired.sst.units = s.sst.units ∧
    s.drainExpired.sst.labelCopy = s.sst.labelCopy ∧ s.drainExpired.sst.marks = s.sst.marks ∧
    s.drainExpired.sst.serving = s.sst.serving ∧ s.drainExpired.sst.lastDevice = s.sst.lastDevice ∧
    s.drainExpired.sst.seconds = s.sst.seconds ∧ s.drainExpired.sst.power = s.sst.power ∧
    s.drainExpired.sst.drain = s.sst.drain ∧ s.drainExpired.sst.downMark = s.sst.downMark ∧
    s.drainExpired.sst.ready = s.sst.ready ∧ s.drainExpired.sst.retention = s.sst.retention := by
  unfold State.drainExpired; (try dsimp only); (repeat' split) <;> first | (simp; done) | simp [apply_ite]

/-! ### Operations of the Data Path -/

@[simp] theorem State.grant_frame (s : State) (direction first count : Nat) (mode : Mode) (range : Option Nat) (keys : List Nat) (offset : Nat) (rto : ReplyTo) :
    (s.grant direction first count mode range keys offset rto).lif.started = s.lif.started ∧
    (s.grant direction first count mode range keys offset rto).lif.mediaCredits = s.lif.mediaCredits ∧
    (s.grant direction first count mode range keys offset rto).lif.capacity = s.lif.capacity ∧
    (s.grant direction first count mode range keys offset rto).lif.imageBase = s.lif.imageBase ∧
    (s.grant direction first count mode range keys offset rto).lif.scratchBase = s.lif.scratchBase ∧
    (s.grant direction first count mode range keys offset rto).lif.limitData = s.lif.limitData ∧
    (s.grant direction first count mode range keys offset rto).lif.limitControl = s.lif.limitControl ∧
    (s.grant direction first count mode range keys offset rto).lif.limitPlatform = s.lif.limitPlatform ∧
    (s.grant direction first count mode range keys offset rto).lif.outstanding = s.lif.outstanding ∧
    (s.grant direction first count mode range keys offset rto).lif.freeCredits = s.lif.freeCredits ∧
    (s.grant direction first count mode range keys offset rto).lif.nextTag = s.lif.nextTag ∧
    (s.grant direction first count mode range keys offset rto).lif.erroredBursts = s.lif.erroredBursts ∧
    (s.grant direction first count mode range keys offset rto).lif.burstTaken = s.lif.burstTaken ∧
    (s.grant direction first count mode range keys offset rto).lif.burstErrored = s.lif.burstErrored ∧
    (s.grant direction first count mode range keys offset rto).lif.burstDropped = s.lif.burstDropped ∧
    (s.grant direction first count mode range keys offset rto).lif.session = s.lif.session ∧
    (s.grant direction first count mode range keys offset rto).cru = s.cru ∧
    (s.grant direction first count mode range keys offset rto).btc = s.btc ∧
    (s.grant direction first count mode range keys offset rto).kst.loads = s.kst.loads ∧
    (s.grant direction first count mode range keys offset rto).kst.hold = s.kst.hold ∧
    (s.grant direction first count mode range keys offset rto).kst.reservation = s.kst.reservation ∧
    (s.grant direction first count mode range keys offset rto).rtb = s.rtb ∧
    (s.grant direction first count mode range keys offset rto).rke = s.rke ∧
    (s.grant direction first count mode range keys offset rto).rsu = s.rsu ∧
    (s.grant direction first count mode range keys offset rto).wpe = s.wpe ∧
    (s.grant direction first count mode range keys offset rto).sst = s.sst ∧
    (s.grant direction first count mode range keys offset rto).fresh = s.fresh := by
  unfold State.grant; (try dsimp only); (repeat' split) <;> first | (simp; done) | simp [apply_ite]

@[simp] theorem State.xferOpen_frame (s : State) (direction first count : Nat) (rto : ReplyTo) :
    (s.xferOpen direction first count rto).lif.started = s.lif.started ∧
    (s.xferOpen direction first count rto).lif.mediaCredits = s.lif.mediaCredits ∧
    (s.xferOpen direction first count rto).lif.capacity = s.lif.capacity ∧
    (s.xferOpen direction first count rto).lif.imageBase = s.lif.imageBase ∧
    (s.xferOpen direction first count rto).lif.scratchBase = s.lif.scratchBase ∧
    (s.xferOpen direction first count rto).lif.limitData = s.lif.limitData ∧
    (s.xferOpen direction first count rto).lif.limitControl = s.lif.limitControl ∧
    (s.xferOpen direction first count rto).lif.limitPlatform = s.lif.limitPlatform ∧
    (s.xferOpen direction first count rto).lif.outstanding = s.lif.outstanding ∧
    (s.xferOpen direction first count rto).lif.freeCredits = s.lif.freeCredits ∧
    (s.xferOpen direction first count rto).lif.nextTag = s.lif.nextTag ∧
    (s.xferOpen direction first count rto).lif.erroredBursts = s.lif.erroredBursts ∧
    (s.xferOpen direction first count rto).lif.burstTaken = s.lif.burstTaken ∧
    (s.xferOpen direction first count rto).lif.burstErrored = s.lif.burstErrored ∧
    (s.xferOpen direction first count rto).lif.burstDropped = s.lif.burstDropped ∧
    (s.xferOpen direction first count rto).lif.session = s.lif.session ∧
    (s.xferOpen direction first count rto).cru = s.cru ∧ (s.xferOpen direction first count rto).btc = s.btc ∧
    (s.xferOpen direction first count rto).kst.loads = s.kst.loads ∧
    (s.xferOpen direction first count rto).kst.hold = s.kst.hold ∧
    (s.xferOpen direction first count rto).kst.reservation = s.kst.reservation ∧
    (s.xferOpen direction first count rto).rtb = s.rtb ∧ (s.xferOpen direction first count rto).rke = s.rke ∧
    (s.xferOpen direction first count rto).rsu = s.rsu ∧ (s.xferOpen direction first count rto).wpe = s.wpe ∧
    (s.xferOpen direction first count rto).sst = s.sst ∧ (s.xferOpen direction first count rto).fresh = s.fresh := by
  unfold State.xferOpen; (try dsimp only); (repeat' split) <;> first | (simp; done) | simp [apply_ite]

@[simp] theorem State.fly_frame (s : State) (c g i : Nat) (x : OpenContext) (key : DataKey) (data : Block) (rto : ReplyTo) :
    (s.fly c g i x key data rto).lif = s.lif ∧ (s.fly c g i x key data rto).cru = s.cru ∧
    (s.fly c g i x key data rto).btc = s.btc ∧ (s.fly c g i x key data rto).kst = s.kst ∧
    (s.fly c g i x key data rto).rtb = s.rtb ∧ (s.fly c g i x key data rto).rke = s.rke ∧
    (s.fly c g i x key data rto).rsu = s.rsu ∧ (s.fly c g i x key data rto).wpe = s.wpe ∧
    (s.fly c g i x key data rto).sst = s.sst ∧ (s.fly c g i x key data rto).fresh = s.fresh ∧
    (s.fly c g i x key data rto).sent = s.sent := by
  unfold State.fly; (try dsimp only); (repeat' split) <;> first | (simp; done) | simp [apply_ite]

@[simp] theorem State.takeBlock_frame (s : State) (c g : Nat) (x : OpenContext) (data : Block) (rto : ReplyTo) :
    (s.takeBlock c g x data rto).lif.started = s.lif.started ∧
    (s.takeBlock c g x data rto).lif.mediaCredits = s.lif.mediaCredits ∧
    (s.takeBlock c g x data rto).lif.capacity = s.lif.capacity ∧
    (s.takeBlock c g x data rto).lif.imageBase = s.lif.imageBase ∧
    (s.takeBlock c g x data rto).lif.scratchBase = s.lif.scratchBase ∧
    (s.takeBlock c g x data rto).lif.limitData = s.lif.limitData ∧
    (s.takeBlock c g x data rto).lif.limitControl = s.lif.limitControl ∧
    (s.takeBlock c g x data rto).lif.limitPlatform = s.lif.limitPlatform ∧
    (s.takeBlock c g x data rto).lif.outstanding = s.lif.outstanding ∧
    (s.takeBlock c g x data rto).lif.freeCredits = s.lif.freeCredits ∧
    (s.takeBlock c g x data rto).lif.nextTag = s.lif.nextTag ∧
    (s.takeBlock c g x data rto).lif.erroredBursts = s.lif.erroredBursts ∧
    (s.takeBlock c g x data rto).lif.burstTaken = s.lif.burstTaken ∧
    (s.takeBlock c g x data rto).lif.burstErrored = s.lif.burstErrored ∧
    (s.takeBlock c g x data rto).lif.burstDropped = s.lif.burstDropped ∧
    (s.takeBlock c g x data rto).lif.session = s.lif.session ∧ (s.takeBlock c g x data rto).cru = s.cru ∧
    (s.takeBlock c g x data rto).btc = s.btc ∧ (s.takeBlock c g x data rto).kst = s.kst ∧
    (s.takeBlock c g x data rto).rtb = s.rtb ∧ (s.takeBlock c g x data rto).rke = s.rke ∧
    (s.takeBlock c g x data rto).rsu = s.rsu ∧ (s.takeBlock c g x data rto).wpe = s.wpe ∧
    (s.takeBlock c g x data rto).sst = s.sst ∧ (s.takeBlock c g x data rto).fresh = s.fresh := by
  unfold State.takeBlock; (try dsimp only); (repeat' split) <;> first | (simp; done) | simp [apply_ite]

@[simp] theorem State.xferBlock_frame (s : State) (c g i : Nat) (data : Block) (rto : ReplyTo) :
    (s.xferBlock c g i data rto).lif.started = s.lif.started ∧
    (s.xferBlock c g i data rto).lif.mediaCredits = s.lif.mediaCredits ∧
    (s.xferBlock c g i data rto).lif.capacity = s.lif.capacity ∧
    (s.xferBlock c g i data rto).lif.imageBase = s.lif.imageBase ∧
    (s.xferBlock c g i data rto).lif.scratchBase = s.lif.scratchBase ∧
    (s.xferBlock c g i data rto).lif.limitData = s.lif.limitData ∧
    (s.xferBlock c g i data rto).lif.limitControl = s.lif.limitControl ∧
    (s.xferBlock c g i data rto).lif.limitPlatform = s.lif.limitPlatform ∧
    (s.xferBlock c g i data rto).lif.outstanding = s.lif.outstanding ∧
    (s.xferBlock c g i data rto).lif.freeCredits = s.lif.freeCredits ∧
    (s.xferBlock c g i data rto).lif.nextTag = s.lif.nextTag ∧
    (s.xferBlock c g i data rto).lif.erroredBursts = s.lif.erroredBursts ∧
    (s.xferBlock c g i data rto).lif.burstTaken = s.lif.burstTaken ∧
    (s.xferBlock c g i data rto).lif.burstErrored = s.lif.burstErrored ∧
    (s.xferBlock c g i data rto).lif.burstDropped = s.lif.burstDropped ∧
    (s.xferBlock c g i data rto).lif.session = s.lif.session ∧ (s.xferBlock c g i data rto).cru = s.cru ∧
    (s.xferBlock c g i data rto).btc = s.btc ∧ (s.xferBlock c g i data rto).kst = s.kst ∧
    (s.xferBlock c g i data rto).rtb = s.rtb ∧ (s.xferBlock c g i data rto).rke = s.rke ∧
    (s.xferBlock c g i data rto).rsu = s.rsu ∧ (s.xferBlock c g i data rto).wpe = s.wpe ∧
    (s.xferBlock c g i data rto).sst = s.sst ∧ (s.xferBlock c g i data rto).fresh = s.fresh := by
  unfold State.xferBlock; (try dsimp only); (repeat' split) <;> first | (simp; done) | simp [apply_ite]

@[simp] theorem State.xferClose_frame (s : State) (c g : Nat) (rto : ReplyTo) :
    (s.xferClose c g rto).lif.started = s.lif.started ∧ (s.xferClose c g rto).lif.mediaCredits = s.lif.mediaCredits ∧
    (s.xferClose c g rto).lif.capacity = s.lif.capacity ∧ (s.xferClose c g rto).lif.imageBase = s.lif.imageBase ∧
    (s.xferClose c g rto).lif.scratchBase = s.lif.scratchBase ∧
    (s.xferClose c g rto).lif.limitData = s.lif.limitData ∧
    (s.xferClose c g rto).lif.limitControl = s.lif.limitControl ∧
    (s.xferClose c g rto).lif.limitPlatform = s.lif.limitPlatform ∧
    (s.xferClose c g rto).lif.outstanding = s.lif.outstanding ∧
    (s.xferClose c g rto).lif.freeCredits = s.lif.freeCredits ∧ (s.xferClose c g rto).lif.nextTag = s.lif.nextTag ∧
    (s.xferClose c g rto).lif.erroredBursts = s.lif.erroredBursts ∧
    (s.xferClose c g rto).lif.burstTaken = s.lif.burstTaken ∧
    (s.xferClose c g rto).lif.burstErrored = s.lif.burstErrored ∧
    (s.xferClose c g rto).lif.burstDropped = s.lif.burstDropped ∧ (s.xferClose c g rto).lif.session = s.lif.session ∧
    (s.xferClose c g rto).cru = s.cru ∧ (s.xferClose c g rto).btc = s.btc ∧
    (s.xferClose c g rto).rtb.preparing = s.rtb.preparing ∧
    (s.xferClose c g rto).rtb.startCommit = s.rtb.startCommit ∧ (s.xferClose c g rto).rsu = s.rsu ∧
    (s.xferClose c g rto).wpe = s.wpe ∧ (s.xferClose c g rto).sst.units = s.sst.units ∧
    (s.xferClose c g rto).sst.labelCopy = s.sst.labelCopy ∧ (s.xferClose c g rto).sst.marks = s.sst.marks ∧
    (s.xferClose c g rto).sst.serving = s.sst.serving ∧ (s.xferClose c g rto).sst.lastDevice = s.sst.lastDevice ∧
    (s.xferClose c g rto).sst.seconds = s.sst.seconds ∧ (s.xferClose c g rto).sst.power = s.sst.power ∧
    (s.xferClose c g rto).sst.drain = s.sst.drain ∧ (s.xferClose c g rto).sst.downMark = s.sst.downMark ∧
    (s.xferClose c g rto).sst.ready = s.sst.ready ∧ (s.xferClose c g rto).sst.retention = s.sst.retention := by
  unfold State.xferClose; (try dsimp only); (repeat' split) <;> first | (simp; done) | simp [apply_ite]

@[simp] theorem State.grantCore_frame (s : State) : s.grantCore.lif = s.lif ∧ s.grantCore.cru = s.cru ∧
    s.grantCore.btc = s.btc ∧ s.grantCore.kst = s.kst ∧ s.grantCore.rtb = s.rtb ∧ s.grantCore.rsu = s.rsu ∧
    s.grantCore.wpe = s.wpe ∧ s.grantCore.sst = s.sst ∧ s.grantCore.fresh = s.fresh ∧ s.grantCore.sent = s.sent := by
  unfold State.grantCore; (try dsimp only); (repeat' split) <;> first | (simp; done) | simp [apply_ite]

@[simp] theorem State.flushData_frame (s : State) : s.flushData.lif.started = s.lif.started ∧
    s.flushData.lif.mediaCredits = s.lif.mediaCredits ∧ s.flushData.lif.capacity = s.lif.capacity ∧
    s.flushData.lif.imageBase = s.lif.imageBase ∧ s.flushData.lif.scratchBase = s.lif.scratchBase ∧
    s.flushData.lif.limitData = s.lif.limitData ∧ s.flushData.lif.limitControl = s.lif.limitControl ∧
    s.flushData.lif.limitPlatform = s.lif.limitPlatform ∧ s.flushData.lif.outstanding = s.lif.outstanding ∧
    s.flushData.lif.freeCredits = s.lif.freeCredits ∧ s.flushData.lif.nextTag = s.lif.nextTag ∧
    s.flushData.lif.erroredBursts = s.lif.erroredBursts ∧ s.flushData.lif.burstTaken = s.lif.burstTaken ∧
    s.flushData.lif.burstErrored = s.lif.burstErrored ∧ s.flushData.lif.burstDropped = s.lif.burstDropped ∧
    s.flushData.lif.session = s.lif.session ∧ s.flushData.cru = s.cru ∧ s.flushData.btc = s.btc ∧
    s.flushData.kst = s.kst ∧ s.flushData.rtb = s.rtb ∧ s.flushData.rke = s.rke ∧ s.flushData.rsu = s.rsu ∧
    s.flushData.wpe = s.wpe ∧ s.flushData.sst = s.sst ∧ s.flushData.fresh = s.fresh := by
  unfold State.flushData; (try dsimp only); (repeat' split) <;> first | (simp; done) | simp [apply_ite]

@[simp] theorem State.transformDone_frame (s : State) (core : Nat) :
    (s.transformDone core).lif.started = s.lif.started ∧
    (s.transformDone core).lif.mediaCredits = s.lif.mediaCredits ∧
    (s.transformDone core).lif.capacity = s.lif.capacity ∧ (s.transformDone core).lif.imageBase = s.lif.imageBase ∧
    (s.transformDone core).lif.scratchBase = s.lif.scratchBase ∧
    (s.transformDone core).lif.limitData = s.lif.limitData ∧
    (s.transformDone core).lif.limitControl = s.lif.limitControl ∧
    (s.transformDone core).lif.limitPlatform = s.lif.limitPlatform ∧
    (s.transformDone core).lif.outstanding = s.lif.outstanding ∧
    (s.transformDone core).lif.freeCredits = s.lif.freeCredits ∧ (s.transformDone core).lif.nextTag = s.lif.nextTag ∧
    (s.transformDone core).lif.erroredBursts = s.lif.erroredBursts ∧
    (s.transformDone core).lif.burstTaken = s.lif.burstTaken ∧
    (s.transformDone core).lif.burstErrored = s.lif.burstErrored ∧
    (s.transformDone core).lif.burstDropped = s.lif.burstDropped ∧
    (s.transformDone core).lif.session = s.lif.session ∧ (s.transformDone core).cru = s.cru ∧
    (s.transformDone core).btc = s.btc ∧ (s.transformDone core).kst = s.kst ∧ (s.transformDone core).rtb = s.rtb ∧
    (s.transformDone core).rsu = s.rsu ∧ (s.transformDone core).wpe = s.wpe ∧ (s.transformDone core).sst = s.sst ∧
    (s.transformDone core).fresh = s.fresh := by
  unfold State.transformDone; (try dsimp only); (repeat' split) <;> first | (simp; done) | simp [apply_ite]

/-! ### Operations of the Rekey Engine -/

@[simp] theorem State.queueRekey_frame (s : State) (g : Option WrapValue) (r : Nat) (rto : ReplyTo) :
    (s.queueRekey g r rto).lif.started = s.lif.started ∧
    (s.queueRekey g r rto).lif.mediaCredits = s.lif.mediaCredits ∧
    (s.queueRekey g r rto).lif.capacity = s.lif.capacity ∧ (s.queueRekey g r rto).lif.imageBase = s.lif.imageBase ∧
    (s.queueRekey g r rto).lif.scratchBase = s.lif.scratchBase ∧
    (s.queueRekey g r rto).lif.limitData = s.lif.limitData ∧
    (s.queueRekey g r rto).lif.limitControl = s.lif.limitControl ∧
    (s.queueRekey g r rto).lif.limitPlatform = s.lif.limitPlatform ∧
    (s.queueRekey g r rto).lif.outstanding = s.lif.outstanding ∧
    (s.queueRekey g r rto).lif.freeCredits = s.lif.freeCredits ∧ (s.queueRekey g r rto).lif.nextTag = s.lif.nextTag ∧
    (s.queueRekey g r rto).lif.erroredBursts = s.lif.erroredBursts ∧
    (s.queueRekey g r rto).lif.burstTaken = s.lif.burstTaken ∧
    (s.queueRekey g r rto).lif.burstErrored = s.lif.burstErrored ∧
    (s.queueRekey g r rto).lif.burstDropped = s.lif.burstDropped ∧
    (s.queueRekey g r rto).lif.session = s.lif.session ∧ (s.queueRekey g r rto).cru = s.cru ∧
    (s.queueRekey g r rto).btc = s.btc ∧ (s.queueRekey g r rto).kst = s.kst ∧ (s.queueRekey g r rto).rtb = s.rtb ∧
    (s.queueRekey g r rto).dpu = s.dpu ∧ (s.queueRekey g r rto).rsu = s.rsu ∧ (s.queueRekey g r rto).wpe = s.wpe ∧
    (s.queueRekey g r rto).sst.units = s.sst.units ∧ (s.queueRekey g r rto).sst.labelCopy = s.sst.labelCopy ∧
    (s.queueRekey g r rto).sst.marks = s.sst.marks ∧ (s.queueRekey g r rto).sst.serving = s.sst.serving ∧
    (s.queueRekey g r rto).sst.lastDevice = s.sst.lastDevice ∧ (s.queueRekey g r rto).sst.seconds = s.sst.seconds ∧
    (s.queueRekey g r rto).sst.power = s.sst.power ∧ (s.queueRekey g r rto).sst.drain = s.sst.drain ∧
    (s.queueRekey g r rto).sst.downMark = s.sst.downMark ∧ (s.queueRekey g r rto).sst.ready = s.sst.ready ∧
    (s.queueRekey g r rto).sst.retention = s.sst.retention ∧ (s.queueRekey g r rto).fresh = s.fresh := by
  unfold State.queueRekey; (try dsimp only); (repeat' split) <;> first | (simp; done) | simp [apply_ite]

@[simp] theorem State.resumeHead_frame (s : State) (r : Nat) (k : Rak) (rto : ReplyTo) :
    (s.resumeHead r k rto).lif.started = s.lif.started ∧
    (s.resumeHead r k rto).lif.mediaCredits = s.lif.mediaCredits ∧
    (s.resumeHead r k rto).lif.capacity = s.lif.capacity ∧ (s.resumeHead r k rto).lif.imageBase = s.lif.imageBase ∧
    (s.resumeHead r k rto).lif.scratchBase = s.lif.scratchBase ∧
    (s.resumeHead r k rto).lif.limitData = s.lif.limitData ∧
    (s.resumeHead r k rto).lif.limitControl = s.lif.limitControl ∧
    (s.resumeHead r k rto).lif.limitPlatform = s.lif.limitPlatform ∧
    (s.resumeHead r k rto).lif.outstanding = s.lif.outstanding ∧
    (s.resumeHead r k rto).lif.freeCredits = s.lif.freeCredits ∧ (s.resumeHead r k rto).lif.nextTag = s.lif.nextTag ∧
    (s.resumeHead r k rto).lif.erroredBursts = s.lif.erroredBursts ∧
    (s.resumeHead r k rto).lif.burstTaken = s.lif.burstTaken ∧
    (s.resumeHead r k rto).lif.burstErrored = s.lif.burstErrored ∧
    (s.resumeHead r k rto).lif.burstDropped = s.lif.burstDropped ∧
    (s.resumeHead r k rto).lif.session = s.lif.session ∧ (s.resumeHead r k rto).cru = s.cru ∧
    (s.resumeHead r k rto).btc = s.btc ∧ (s.resumeHead r k rto).kst.reservation = s.kst.reservation ∧
    (s.resumeHead r k rto).rtb.resealOnWake = s.rtb.resealOnWake ∧ (s.resumeHead r k rto).rtb.staged = s.rtb.staged ∧
    (s.resumeHead r k rto).rtb.commit = s.rtb.commit ∧ (s.resumeHead r k rto).rtb.preparing = s.rtb.preparing ∧
    (s.resumeHead r k rto).rtb.startCommit = s.rtb.startCommit ∧ (s.resumeHead r k rto).rsu = s.rsu ∧
    (s.resumeHead r k rto).wpe = s.wpe ∧ (s.resumeHead r k rto).sst.units = s.sst.units ∧
    (s.resumeHead r k rto).sst.labelCopy = s.sst.labelCopy ∧ (s.resumeHead r k rto).sst.marks = s.sst.marks ∧
    (s.resumeHead r k rto).sst.serving = s.sst.serving ∧ (s.resumeHead r k rto).sst.lastDevice = s.sst.lastDevice ∧
    (s.resumeHead r k rto).sst.seconds = s.sst.seconds ∧ (s.resumeHead r k rto).sst.power = s.sst.power ∧
    (s.resumeHead r k rto).sst.drain = s.sst.drain ∧ (s.resumeHead r k rto).sst.downMark = s.sst.downMark ∧
    (s.resumeHead r k rto).sst.ready = s.sst.ready ∧ (s.resumeHead r k rto).sst.retention = s.sst.retention ∧
    (s.resumeHead r k rto).fresh = s.fresh := by
  unfold State.resumeHead; (try dsimp only); (repeat' split) <;> first | (simp; done) | simp [apply_ite]

@[simp] theorem State.resumeRekey_frame (s : State) (g : Option WrapValue) (r : Nat) (rto : ReplyTo) :
    (s.resumeRekey g r rto).lif.started = s.lif.started ∧
    (s.resumeRekey g r rto).lif.mediaCredits = s.lif.mediaCredits ∧
    (s.resumeRekey g r rto).lif.capacity = s.lif.capacity ∧ (s.resumeRekey g r rto).lif.imageBase = s.lif.imageBase ∧
    (s.resumeRekey g r rto).lif.scratchBase = s.lif.scratchBase ∧
    (s.resumeRekey g r rto).lif.limitData = s.lif.limitData ∧
    (s.resumeRekey g r rto).lif.limitControl = s.lif.limitControl ∧
    (s.resumeRekey g r rto).lif.limitPlatform = s.lif.limitPlatform ∧
    (s.resumeRekey g r rto).lif.outstanding = s.lif.outstanding ∧
    (s.resumeRekey g r rto).lif.freeCredits = s.lif.freeCredits ∧
    (s.resumeRekey g r rto).lif.nextTag = s.lif.nextTag ∧
    (s.resumeRekey g r rto).lif.erroredBursts = s.lif.erroredBursts ∧
    (s.resumeRekey g r rto).lif.burstTaken = s.lif.burstTaken ∧
    (s.resumeRekey g r rto).lif.burstErrored = s.lif.burstErrored ∧
    (s.resumeRekey g r rto).lif.burstDropped = s.lif.burstDropped ∧
    (s.resumeRekey g r rto).lif.session = s.lif.session ∧ (s.resumeRekey g r rto).cru = s.cru ∧
    (s.resumeRekey g r rto).btc = s.btc ∧ (s.resumeRekey g r rto).rtb.preparing = s.rtb.preparing ∧
    (s.resumeRekey g r rto).rtb.startCommit = s.rtb.startCommit ∧ (s.resumeRekey g r rto).rsu = s.rsu ∧
    (s.resumeRekey g r rto).wpe = s.wpe ∧ (s.resumeRekey g r rto).sst.units = s.sst.units ∧
    (s.resumeRekey g r rto).sst.labelCopy = s.sst.labelCopy ∧ (s.resumeRekey g r rto).sst.marks = s.sst.marks ∧
    (s.resumeRekey g r rto).sst.serving = s.sst.serving ∧ (s.resumeRekey g r rto).sst.lastDevice = s.sst.lastDevice ∧
    (s.resumeRekey g r rto).sst.seconds = s.sst.seconds ∧ (s.resumeRekey g r rto).sst.power = s.sst.power ∧
    (s.resumeRekey g r rto).sst.drain = s.sst.drain ∧ (s.resumeRekey g r rto).sst.downMark = s.sst.downMark ∧
    (s.resumeRekey g r rto).sst.ready = s.sst.ready ∧ (s.resumeRekey g r rto).sst.retention = s.sst.retention := by
  unfold State.resumeRekey; (try dsimp only); (repeat' split) <;> first | (simp; done) | simp [apply_ite]

@[simp] theorem State.startJob_frame (s : State) (r : Nat) (rak : Rak) : (s.startJob r rak).lif = s.lif ∧
    (s.startJob r rak).cru = s.cru ∧ (s.startJob r rak).btc = s.btc ∧
    (s.startJob r rak).kst.reservation = s.kst.reservation ∧
    (s.startJob r rak).rtb.resealOnWake = s.rtb.resealOnWake ∧ (s.startJob r rak).rtb.staged = s.rtb.staged ∧
    (s.startJob r rak).rtb.commit = s.rtb.commit ∧ (s.startJob r rak).rtb.preparing = s.rtb.preparing ∧
    (s.startJob r rak).rtb.startCommit = s.rtb.startCommit ∧ (s.startJob r rak).dpu = s.dpu ∧
    (s.startJob r rak).rsu = s.rsu ∧ (s.startJob r rak).wpe = s.wpe ∧ (s.startJob r rak).sst.units = s.sst.units ∧
    (s.startJob r rak).sst.labelCopy = s.sst.labelCopy ∧ (s.startJob r rak).sst.marks = s.sst.marks ∧
    (s.startJob r rak).sst.serving = s.sst.serving ∧ (s.startJob r rak).sst.lastDevice = s.sst.lastDevice ∧
    (s.startJob r rak).sst.seconds = s.sst.seconds ∧ (s.startJob r rak).sst.power = s.sst.power ∧
    (s.startJob r rak).sst.drain = s.sst.drain ∧ (s.startJob r rak).sst.downMark = s.sst.downMark ∧
    (s.startJob r rak).sst.ready = s.sst.ready ∧ (s.startJob r rak).sst.retention = s.sst.retention ∧
    (s.startJob r rak).sent = s.sent := by
  unfold State.startJob; (try dsimp only); (repeat' split) <;> first | (simp; done) | simp [apply_ite]

@[simp] theorem State.rekeyJobStart_frame (s : State) : s.rekeyJobStart.lif.started = s.lif.started ∧
    s.rekeyJobStart.lif.mediaCredits = s.lif.mediaCredits ∧ s.rekeyJobStart.lif.capacity = s.lif.capacity ∧
    s.rekeyJobStart.lif.imageBase = s.lif.imageBase ∧ s.rekeyJobStart.lif.scratchBase = s.lif.scratchBase ∧
    s.rekeyJobStart.lif.limitData = s.lif.limitData ∧ s.rekeyJobStart.lif.limitControl = s.lif.limitControl ∧
    s.rekeyJobStart.lif.limitPlatform = s.lif.limitPlatform ∧ s.rekeyJobStart.lif.outstanding = s.lif.outstanding ∧
    s.rekeyJobStart.lif.freeCredits = s.lif.freeCredits ∧ s.rekeyJobStart.lif.nextTag = s.lif.nextTag ∧
    s.rekeyJobStart.lif.erroredBursts = s.lif.erroredBursts ∧ s.rekeyJobStart.lif.burstTaken = s.lif.burstTaken ∧
    s.rekeyJobStart.lif.burstErrored = s.lif.burstErrored ∧ s.rekeyJobStart.lif.burstDropped = s.lif.burstDropped ∧
    s.rekeyJobStart.lif.session = s.lif.session ∧ s.rekeyJobStart.cru = s.cru ∧ s.rekeyJobStart.btc = s.btc ∧
    s.rekeyJobStart.kst.reservation = s.kst.reservation ∧ s.rekeyJobStart.rtb.resealOnWake = s.rtb.resealOnWake ∧
    s.rekeyJobStart.rtb.staged = s.rtb.staged ∧ s.rekeyJobStart.rtb.commit = s.rtb.commit ∧
    s.rekeyJobStart.rtb.preparing = s.rtb.preparing ∧ s.rekeyJobStart.rtb.startCommit = s.rtb.startCommit ∧
    s.rekeyJobStart.rsu = s.rsu ∧ s.rekeyJobStart.wpe = s.wpe ∧ s.rekeyJobStart.sst.units = s.sst.units ∧
    s.rekeyJobStart.sst.labelCopy = s.sst.labelCopy ∧ s.rekeyJobStart.sst.marks = s.sst.marks ∧
    s.rekeyJobStart.sst.serving = s.sst.serving ∧ s.rekeyJobStart.sst.lastDevice = s.sst.lastDevice ∧
    s.rekeyJobStart.sst.seconds = s.sst.seconds ∧ s.rekeyJobStart.sst.power = s.sst.power ∧
    s.rekeyJobStart.sst.drain = s.sst.drain ∧ s.rekeyJobStart.sst.downMark = s.sst.downMark ∧
    s.rekeyJobStart.sst.ready = s.sst.ready ∧ s.rekeyJobStart.sst.retention = s.sst.retention := by
  unfold State.rekeyJobStart; (try dsimp only); (repeat' split) <;> first | (simp; done) | simp [apply_ite]

@[simp] theorem State.completeJob_frame (s : State) (j : Job) (f : RangeFields) (p : Split) :
    (s.completeJob j f p).lif = s.lif ∧ (s.completeJob j f p).cru = s.cru ∧ (s.completeJob j f p).btc = s.btc ∧
    (s.completeJob j f p).kst.reservation = s.kst.reservation ∧
    (s.completeJob j f p).rtb.resealOnWake = s.rtb.resealOnWake ∧ (s.completeJob j f p).rtb.staged = s.rtb.staged ∧
    (s.completeJob j f p).rtb.commit = s.rtb.commit ∧ (s.completeJob j f p).rtb.preparing = s.rtb.preparing ∧
    (s.completeJob j f p).rtb.startCommit = s.rtb.startCommit ∧ (s.completeJob j f p).dpu = s.dpu ∧
    (s.completeJob j f p).rsu = s.rsu ∧ (s.completeJob j f p).wpe = s.wpe ∧
    (s.completeJob j f p).sst.units = s.sst.units ∧ (s.completeJob j f p).sst.labelCopy = s.sst.labelCopy ∧
    (s.completeJob j f p).sst.marks = s.sst.marks ∧ (s.completeJob j f p).sst.serving = s.sst.serving ∧
    (s.completeJob j f p).sst.lastDevice = s.sst.lastDevice ∧ (s.completeJob j f p).sst.seconds = s.sst.seconds ∧
    (s.completeJob j f p).sst.power = s.sst.power ∧ (s.completeJob j f p).sst.drain = s.sst.drain ∧
    (s.completeJob j f p).sst.downMark = s.sst.downMark ∧ (s.completeJob j f p).sst.ready = s.sst.ready ∧
    (s.completeJob j f p).sst.retention = s.sst.retention ∧ (s.completeJob j f p).fresh = s.fresh ∧
    (s.completeJob j f p).sent = s.sent := by
  unfold State.completeJob; (try dsimp only); (repeat' split) <;> first | (simp; done) | simp [apply_ite]

@[simp] theorem State.claiming_frame (s : State) (first n : Nat) : (s.claiming first n).lif = s.lif ∧
    (s.claiming first n).cru = s.cru ∧ (s.claiming first n).btc = s.btc ∧ (s.claiming first n).kst = s.kst ∧
    (s.claiming first n).rtb = s.rtb ∧ (s.claiming first n).dpu = s.dpu ∧ (s.claiming first n).rsu = s.rsu ∧
    (s.claiming first n).wpe = s.wpe ∧ (s.claiming first n).sst = s.sst ∧ (s.claiming first n).fresh = s.fresh ∧
    (s.claiming first n).sent = s.sent := by
  unfold State.claiming; (try dsimp only); (repeat' split) <;> first | (simp; done) | simp [apply_ite]

@[simp] theorem State.chunkForm_frame (s : State) : s.chunkForm.lif = s.lif ∧ s.chunkForm.cru = s.cru ∧
    s.chunkForm.btc = s.btc ∧ s.chunkForm.kst.reservation = s.kst.reservation ∧
    s.chunkForm.rtb.resealOnWake = s.rtb.resealOnWake ∧ s.chunkForm.rtb.staged = s.rtb.staged ∧
    s.chunkForm.rtb.commit = s.rtb.commit ∧ s.chunkForm.rtb.preparing = s.rtb.preparing ∧
    s.chunkForm.rtb.startCommit = s.rtb.startCommit ∧ s.chunkForm.dpu = s.dpu ∧ s.chunkForm.rsu = s.rsu ∧
    s.chunkForm.wpe = s.wpe ∧ s.chunkForm.sst.units = s.sst.units ∧ s.chunkForm.sst.labelCopy = s.sst.labelCopy ∧
    s.chunkForm.sst.marks = s.sst.marks ∧ s.chunkForm.sst.serving = s.sst.serving ∧
    s.chunkForm.sst.lastDevice = s.sst.lastDevice ∧ s.chunkForm.sst.seconds = s.sst.seconds ∧
    s.chunkForm.sst.power = s.sst.power ∧ s.chunkForm.sst.drain = s.sst.drain ∧
    s.chunkForm.sst.downMark = s.sst.downMark ∧ s.chunkForm.sst.ready = s.sst.ready ∧
    s.chunkForm.sst.retention = s.sst.retention ∧ s.chunkForm.fresh = s.fresh ∧ s.chunkForm.sent = s.sent := by
  unfold State.chunkForm; (try dsimp only); (repeat' split) <;> first | (simp; done) | simp [apply_ite]

@[simp] theorem State.chunkClaim_frame (s : State) : s.chunkClaim.lif = s.lif ∧ s.chunkClaim.cru = s.cru ∧
    s.chunkClaim.btc = s.btc ∧ s.chunkClaim.kst = s.kst ∧ s.chunkClaim.rtb = s.rtb ∧ s.chunkClaim.dpu = s.dpu ∧
    s.chunkClaim.rsu = s.rsu ∧ s.chunkClaim.wpe = s.wpe ∧ s.chunkClaim.sst = s.sst ∧ s.chunkClaim.fresh = s.fresh ∧
    s.chunkClaim.sent = s.sent := by
  unfold State.chunkClaim; (try dsimp only); (repeat' split) <;> first | (simp; done) | simp [apply_ite]

@[simp] theorem State.setSeq_frame (s : State) (q : Option RekeySeq) : (s.setSeq q).lif = s.lif ∧
    (s.setSeq q).cru = s.cru ∧ (s.setSeq q).btc = s.btc ∧ (s.setSeq q).kst = s.kst ∧ (s.setSeq q).rtb = s.rtb ∧
    (s.setSeq q).dpu = s.dpu ∧ (s.setSeq q).rsu = s.rsu ∧ (s.setSeq q).wpe = s.wpe ∧ (s.setSeq q).sst = s.sst ∧
    (s.setSeq q).fresh = s.fresh ∧ (s.setSeq q).sent = s.sent := by
  unfold State.setSeq; (try dsimp only); (repeat' split) <;> first | (simp; done) | simp [apply_ite]

@[simp] theorem State.rekeyDone_frame (s : State) : s.rekeyDone.lif = s.lif ∧ s.rekeyDone.cru = s.cru ∧
    s.rekeyDone.btc = s.btc ∧ s.rekeyDone.kst = s.kst ∧ s.rekeyDone.rtb = s.rtb ∧ s.rekeyDone.dpu = s.dpu ∧
    s.rekeyDone.rsu = s.rsu ∧ s.rekeyDone.wpe = s.wpe ∧ s.rekeyDone.sst = s.sst ∧ s.rekeyDone.fresh = s.fresh := by
  unfold State.rekeyDone; (try dsimp only); (repeat' split) <;> first | (simp; done) | simp [apply_ite]

@[simp] theorem State.seqDone_frame (s : State) (step : RekeySeq) (serial : Nat) :
    (s.seqDone step serial).lif = s.lif ∧ (s.seqDone step serial).cru = s.cru ∧ (s.seqDone step serial).btc = s.btc ∧
    (s.seqDone step serial).kst = s.kst ∧ (s.seqDone step serial).rtb = s.rtb ∧ (s.seqDone step serial).dpu = s.dpu ∧
    (s.seqDone step serial).rsu = s.rsu ∧ (s.seqDone step serial).wpe = s.wpe ∧
    (s.seqDone step serial).sst.units = s.sst.units ∧ (s.seqDone step serial).sst.labelCopy = s.sst.labelCopy ∧
    (s.seqDone step serial).sst.marks = s.sst.marks ∧ (s.seqDone step serial).sst.serving = s.sst.serving ∧
    (s.seqDone step serial).sst.lastDevice = s.sst.lastDevice ∧ (s.seqDone step serial).sst.seconds = s.sst.seconds ∧
    (s.seqDone step serial).sst.power = s.sst.power ∧ (s.seqDone step serial).sst.drain = s.sst.drain ∧
    (s.seqDone step serial).sst.downMark = s.sst.downMark ∧ (s.seqDone step serial).sst.ready = s.sst.ready ∧
    (s.seqDone step serial).sst.retention = s.sst.retention ∧ (s.seqDone step serial).fresh = s.fresh := by
  unfold State.seqDone; (try dsimp only); (repeat' split) <;> first | (simp; done) | simp [apply_ite]

@[simp] theorem State.chunkStaged_frame (s : State) (c : Nat) : (s.chunkStaged c).lif = s.lif ∧
    (s.chunkStaged c).cru = s.cru ∧ (s.chunkStaged c).btc = s.btc ∧ (s.chunkStaged c).kst = s.kst ∧
    (s.chunkStaged c).rtb = s.rtb ∧ (s.chunkStaged c).dpu = s.dpu ∧ (s.chunkStaged c).rsu = s.rsu ∧
    (s.chunkStaged c).wpe = s.wpe ∧ (s.chunkStaged c).sst = s.sst ∧ (s.chunkStaged c).fresh = s.fresh ∧
    (s.chunkStaged c).sent = s.sent := by
  unfold State.chunkStaged; (try dsimp only); (repeat' split) <;> first | (simp; done) | simp [apply_ite]

@[simp] theorem State.endRecovery_frame (s : State) : s.endRecovery.lif = s.lif ∧ s.endRecovery.cru = s.cru ∧
    s.endRecovery.btc = s.btc ∧ s.endRecovery.kst.reservation = s.kst.reservation ∧ s.endRecovery.rtb = s.rtb ∧
    s.endRecovery.dpu = s.dpu ∧ s.endRecovery.rsu = s.rsu ∧ s.endRecovery.wpe = s.wpe ∧
    s.endRecovery.sst.units = s.sst.units ∧ s.endRecovery.sst.labelCopy = s.sst.labelCopy ∧
    s.endRecovery.sst.marks = s.sst.marks ∧ s.endRecovery.sst.serving = s.sst.serving ∧
    s.endRecovery.sst.lastDevice = s.sst.lastDevice ∧ s.endRecovery.sst.seconds = s.sst.seconds ∧
    s.endRecovery.sst.power = s.sst.power ∧ s.endRecovery.sst.drain = s.sst.drain ∧
    s.endRecovery.sst.downMark = s.sst.downMark ∧ s.endRecovery.sst.ready = s.sst.ready ∧
    s.endRecovery.sst.retention = s.sst.retention ∧ s.endRecovery.fresh = s.fresh ∧ s.endRecovery.sent = s.sent := by
  unfold State.endRecovery; (try dsimp only); (repeat' split) <;> first | (simp; done) | simp [apply_ite]

@[simp] theorem State.chunkDone_frame (s : State) (c : Nat) : (s.chunkDone c).lif = s.lif ∧
    (s.chunkDone c).cru = s.cru ∧ (s.chunkDone c).btc = s.btc ∧ (s.chunkDone c).kst.reservation = s.kst.reservation ∧
    (s.chunkDone c).rtb.resealOnWake = s.rtb.resealOnWake ∧ (s.chunkDone c).rtb.staged = s.rtb.staged ∧
    (s.chunkDone c).rtb.commit = s.rtb.commit ∧ (s.chunkDone c).rtb.preparing = s.rtb.preparing ∧
    (s.chunkDone c).rtb.startCommit = s.rtb.startCommit ∧ (s.chunkDone c).dpu = s.dpu ∧ (s.chunkDone c).rsu = s.rsu ∧
    (s.chunkDone c).wpe = s.wpe ∧ (s.chunkDone c).sst.units = s.sst.units ∧
    (s.chunkDone c).sst.labelCopy = s.sst.labelCopy ∧ (s.chunkDone c).sst.marks = s.sst.marks ∧
    (s.chunkDone c).sst.serving = s.sst.serving ∧ (s.chunkDone c).sst.lastDevice = s.sst.lastDevice ∧
    (s.chunkDone c).sst.seconds = s.sst.seconds ∧ (s.chunkDone c).sst.power = s.sst.power ∧
    (s.chunkDone c).sst.drain = s.sst.drain ∧ (s.chunkDone c).sst.downMark = s.sst.downMark ∧
    (s.chunkDone c).sst.ready = s.sst.ready ∧ (s.chunkDone c).sst.retention = s.sst.retention ∧
    (s.chunkDone c).fresh = s.fresh ∧ (s.chunkDone c).sent = s.sent := by
  unfold State.chunkDone; (try dsimp only); (repeat' split) <;> first | (simp; done) | simp [apply_ite]

@[simp] theorem State.rekeyResumed_frame (s : State) (n : Nat) : (s.rekeyResumed n).lif = s.lif ∧
    (s.rekeyResumed n).cru = s.cru ∧ (s.rekeyResumed n).btc = s.btc ∧ (s.rekeyResumed n).kst = s.kst ∧
    (s.rekeyResumed n).rtb = s.rtb ∧ (s.rekeyResumed n).dpu = s.dpu ∧ (s.rekeyResumed n).rsu = s.rsu ∧
    (s.rekeyResumed n).wpe = s.wpe ∧ (s.rekeyResumed n).sst = s.sst ∧ (s.rekeyResumed n).fresh = s.fresh ∧
    (s.rekeyResumed n).sent = s.sent := by
  unfold State.rekeyResumed; (try dsimp only); (repeat' split) <;> first | (simp; done) | simp [apply_ite]

/-! ### Operations of the Response Unit -/

@[simp] theorem State.sourceSet_frame (s : State) (rto : ReplyTo) (i : Nat) (e : Setting) :
    (s.sourceSet rto i e).lif.started = s.lif.started ∧ (s.sourceSet rto i e).lif.mediaCredits = s.lif.mediaCredits ∧
    (s.sourceSet rto i e).lif.capacity = s.lif.capacity ∧ (s.sourceSet rto i e).lif.imageBase = s.lif.imageBase ∧
    (s.sourceSet rto i e).lif.scratchBase = s.lif.scratchBase ∧
    (s.sourceSet rto i e).lif.limitData = s.lif.limitData ∧
    (s.sourceSet rto i e).lif.limitControl = s.lif.limitControl ∧
    (s.sourceSet rto i e).lif.limitPlatform = s.lif.limitPlatform ∧
    (s.sourceSet rto i e).lif.outstanding = s.lif.outstanding ∧
    (s.sourceSet rto i e).lif.freeCredits = s.lif.freeCredits ∧ (s.sourceSet rto i e).lif.nextTag = s.lif.nextTag ∧
    (s.sourceSet rto i e).lif.erroredBursts = s.lif.erroredBursts ∧
    (s.sourceSet rto i e).lif.burstTaken = s.lif.burstTaken ∧
    (s.sourceSet rto i e).lif.burstErrored = s.lif.burstErrored ∧
    (s.sourceSet rto i e).lif.burstDropped = s.lif.burstDropped ∧ (s.sourceSet rto i e).lif.session = s.lif.session ∧
    (s.sourceSet rto i e).cru = s.cru ∧ (s.sourceSet rto i e).btc = s.btc ∧ (s.sourceSet rto i e).kst = s.kst ∧
    (s.sourceSet rto i e).rtb = s.rtb ∧ (s.sourceSet rto i e).dpu = s.dpu ∧ (s.sourceSet rto i e).rke = s.rke ∧
    (s.sourceSet rto i e).wpe = s.wpe ∧ (s.sourceSet rto i e).sst = s.sst ∧
    (s.sourceSet rto i e).fresh = s.fresh := by
  unfold State.sourceSet; (try dsimp only); (repeat' split) <;> first | (simp; done) | simp [apply_ite]

@[simp] theorem State.tableSet_frame (s : State) (rto : ReplyTo) (purge : Bool) (alarm threshold : Nat) :
    (s.tableSet rto purge alarm threshold).lif.started = s.lif.started ∧
    (s.tableSet rto purge alarm threshold).lif.mediaCredits = s.lif.mediaCredits ∧
    (s.tableSet rto purge alarm threshold).lif.capacity = s.lif.capacity ∧
    (s.tableSet rto purge alarm threshold).lif.imageBase = s.lif.imageBase ∧
    (s.tableSet rto purge alarm threshold).lif.scratchBase = s.lif.scratchBase ∧
    (s.tableSet rto purge alarm threshold).lif.limitData = s.lif.limitData ∧
    (s.tableSet rto purge alarm threshold).lif.limitControl = s.lif.limitControl ∧
    (s.tableSet rto purge alarm threshold).lif.limitPlatform = s.lif.limitPlatform ∧
    (s.tableSet rto purge alarm threshold).lif.outstanding = s.lif.outstanding ∧
    (s.tableSet rto purge alarm threshold).lif.freeCredits = s.lif.freeCredits ∧
    (s.tableSet rto purge alarm threshold).lif.nextTag = s.lif.nextTag ∧
    (s.tableSet rto purge alarm threshold).lif.erroredBursts = s.lif.erroredBursts ∧
    (s.tableSet rto purge alarm threshold).lif.burstTaken = s.lif.burstTaken ∧
    (s.tableSet rto purge alarm threshold).lif.burstErrored = s.lif.burstErrored ∧
    (s.tableSet rto purge alarm threshold).lif.burstDropped = s.lif.burstDropped ∧
    (s.tableSet rto purge alarm threshold).lif.session = s.lif.session ∧
    (s.tableSet rto purge alarm threshold).cru = s.cru ∧ (s.tableSet rto purge alarm threshold).btc = s.btc ∧
    (s.tableSet rto purge alarm threshold).kst = s.kst ∧ (s.tableSet rto purge alarm threshold).rtb = s.rtb ∧
    (s.tableSet rto purge alarm threshold).dpu = s.dpu ∧ (s.tableSet rto purge alarm threshold).rke = s.rke ∧
    (s.tableSet rto purge alarm threshold).wpe = s.wpe ∧ (s.tableSet rto purge alarm threshold).sst = s.sst ∧
    (s.tableSet rto purge alarm threshold).fresh = s.fresh := by
  unfold State.tableSet; (try dsimp only); (repeat' split) <;> first | (simp; done) | simp [apply_ite]

@[simp] theorem State.evidenceSet_frame (s : State) (target : Nat) (v : EvidenceValues) (rto : ReplyTo) :
    (s.evidenceSet target v rto).lif.started = s.lif.started ∧
    (s.evidenceSet target v rto).lif.mediaCredits = s.lif.mediaCredits ∧
    (s.evidenceSet target v rto).lif.capacity = s.lif.capacity ∧
    (s.evidenceSet target v rto).lif.imageBase = s.lif.imageBase ∧
    (s.evidenceSet target v rto).lif.scratchBase = s.lif.scratchBase ∧
    (s.evidenceSet target v rto).lif.limitData = s.lif.limitData ∧
    (s.evidenceSet target v rto).lif.limitControl = s.lif.limitControl ∧
    (s.evidenceSet target v rto).lif.limitPlatform = s.lif.limitPlatform ∧
    (s.evidenceSet target v rto).lif.outstanding = s.lif.outstanding ∧
    (s.evidenceSet target v rto).lif.freeCredits = s.lif.freeCredits ∧
    (s.evidenceSet target v rto).lif.nextTag = s.lif.nextTag ∧
    (s.evidenceSet target v rto).lif.erroredBursts = s.lif.erroredBursts ∧
    (s.evidenceSet target v rto).lif.burstTaken = s.lif.burstTaken ∧
    (s.evidenceSet target v rto).lif.burstErrored = s.lif.burstErrored ∧
    (s.evidenceSet target v rto).lif.burstDropped = s.lif.burstDropped ∧
    (s.evidenceSet target v rto).lif.session = s.lif.session ∧ (s.evidenceSet target v rto).cru = s.cru ∧
    (s.evidenceSet target v rto).btc = s.btc ∧ (s.evidenceSet target v rto).kst = s.kst ∧
    (s.evidenceSet target v rto).rtb = s.rtb ∧ (s.evidenceSet target v rto).dpu = s.dpu ∧
    (s.evidenceSet target v rto).rke = s.rke ∧ (s.evidenceSet target v rto).rsu = s.rsu ∧
    (s.evidenceSet target v rto).wpe = s.wpe ∧ (s.evidenceSet target v rto).sst.units = s.sst.units ∧
    (s.evidenceSet target v rto).sst.labelCopy = s.sst.labelCopy ∧
    (s.evidenceSet target v rto).sst.marks = s.sst.marks ∧ (s.evidenceSet target v rto).sst.serving = s.sst.serving ∧
    (s.evidenceSet target v rto).sst.seconds = s.sst.seconds ∧ (s.evidenceSet target v rto).sst.power = s.sst.power ∧
    (s.evidenceSet target v rto).sst.drain = s.sst.drain ∧
    (s.evidenceSet target v rto).sst.downMark = s.sst.downMark ∧
    (s.evidenceSet target v rto).sst.ready = s.sst.ready ∧
    (s.evidenceSet target v rto).sst.retention = s.sst.retention ∧ (s.evidenceSet target v rto).fresh = s.fresh := by
  unfold State.evidenceSet; (try dsimp only); (repeat' split) <;> first | (simp; done) | simp [apply_ite]

@[simp] theorem State.evidenceList_frame (s : State) (start : Nat) (rto : ReplyTo) :
    (s.evidenceList start rto).lif.started = s.lif.started ∧
    (s.evidenceList start rto).lif.mediaCredits = s.lif.mediaCredits ∧
    (s.evidenceList start rto).lif.capacity = s.lif.capacity ∧
    (s.evidenceList start rto).lif.imageBase = s.lif.imageBase ∧
    (s.evidenceList start rto).lif.scratchBase = s.lif.scratchBase ∧
    (s.evidenceList start rto).lif.limitData = s.lif.limitData ∧
    (s.evidenceList start rto).lif.limitControl = s.lif.limitControl ∧
    (s.evidenceList start rto).lif.limitPlatform = s.lif.limitPlatform ∧
    (s.evidenceList start rto).lif.outstanding = s.lif.outstanding ∧
    (s.evidenceList start rto).lif.freeCredits = s.lif.freeCredits ∧
    (s.evidenceList start rto).lif.nextTag = s.lif.nextTag ∧
    (s.evidenceList start rto).lif.erroredBursts = s.lif.erroredBursts ∧
    (s.evidenceList start rto).lif.burstTaken = s.lif.burstTaken ∧
    (s.evidenceList start rto).lif.burstErrored = s.lif.burstErrored ∧
    (s.evidenceList start rto).lif.burstDropped = s.lif.burstDropped ∧
    (s.evidenceList start rto).lif.session = s.lif.session ∧ (s.evidenceList start rto).cru = s.cru ∧
    (s.evidenceList start rto).btc = s.btc ∧ (s.evidenceList start rto).kst = s.kst ∧
    (s.evidenceList start rto).rtb = s.rtb ∧ (s.evidenceList start rto).dpu = s.dpu ∧
    (s.evidenceList start rto).rke = s.rke ∧ (s.evidenceList start rto).rsu = s.rsu ∧
    (s.evidenceList start rto).wpe = s.wpe ∧ (s.evidenceList start rto).sst = s.sst ∧
    (s.evidenceList start rto).fresh = s.fresh := by
  unfold State.evidenceList; (try dsimp only); (repeat' split) <;> first | (simp; done) | simp [apply_ite]

@[simp] theorem State.calmed_frame (s : State) : s.calmed.lif = s.lif ∧ s.calmed.cru = s.cru ∧ s.calmed.kst = s.kst ∧
    s.calmed.rtb = s.rtb ∧ s.calmed.dpu = s.dpu ∧ s.calmed.rke = s.rke ∧ s.calmed.wpe = s.wpe ∧ s.calmed.sst = s.sst ∧
    s.calmed.fresh = s.fresh ∧ s.calmed.sent = s.sent := by
  unfold State.calmed; (try dsimp only); (repeat' split) <;> first | (simp; done) | simp [apply_ite]

@[simp] theorem State.reopenAll_frame (s : State) : s.reopenAll.lif.started = s.lif.started ∧
    s.reopenAll.lif.mediaCredits = s.lif.mediaCredits ∧ s.reopenAll.lif.capacity = s.lif.capacity ∧
    s.reopenAll.lif.imageBase = s.lif.imageBase ∧ s.reopenAll.lif.scratchBase = s.lif.scratchBase ∧
    s.reopenAll.lif.limitData = s.lif.limitData ∧ s.reopenAll.lif.limitControl = s.lif.limitControl ∧
    s.reopenAll.lif.limitPlatform = s.lif.limitPlatform ∧ s.reopenAll.lif.outstanding = s.lif.outstanding ∧
    s.reopenAll.lif.freeCredits = s.lif.freeCredits ∧ s.reopenAll.lif.nextTag = s.lif.nextTag ∧
    s.reopenAll.lif.erroredBursts = s.lif.erroredBursts ∧ s.reopenAll.lif.burstTaken = s.lif.burstTaken ∧
    s.reopenAll.lif.burstErrored = s.lif.burstErrored ∧ s.reopenAll.lif.burstDropped = s.lif.burstDropped ∧
    s.reopenAll.lif.session = s.lif.session ∧ s.reopenAll.cru = s.cru ∧ s.reopenAll.btc = s.btc ∧
    s.reopenAll.kst.reservation = s.kst.reservation ∧ s.reopenAll.rtb.resealOnWake = s.rtb.resealOnWake ∧
    s.reopenAll.rtb.staged = s.rtb.staged ∧ s.reopenAll.rtb.commit = s.rtb.commit ∧
    s.reopenAll.rtb.preparing = s.rtb.preparing ∧ s.reopenAll.rtb.startCommit = s.rtb.startCommit ∧
    s.reopenAll.rsu = s.rsu ∧ s.reopenAll.wpe = s.wpe ∧ s.reopenAll.sst.units = s.sst.units ∧
    s.reopenAll.sst.labelCopy = s.sst.labelCopy ∧ s.reopenAll.sst.marks = s.sst.marks ∧
    s.reopenAll.sst.serving = s.sst.serving ∧ s.reopenAll.sst.lastDevice = s.sst.lastDevice ∧
    s.reopenAll.sst.seconds = s.sst.seconds ∧ s.reopenAll.sst.power = s.sst.power ∧
    s.reopenAll.sst.drain = s.sst.drain ∧ s.reopenAll.sst.downMark = s.sst.downMark ∧
    s.reopenAll.sst.ready = s.sst.ready ∧ s.reopenAll.sst.retention = s.sst.retention ∧
    s.reopenAll.fresh = s.fresh := by
  unfold State.reopenAll; (try dsimp only); (repeat' split) <;> first | (simp; done) | simp [apply_ite]

@[simp] theorem State.responseClear_frame (s : State) (rto : ReplyTo) :
    (s.responseClear rto).lif.started = s.lif.started ∧ (s.responseClear rto).lif.mediaCredits = s.lif.mediaCredits ∧
    (s.responseClear rto).lif.capacity = s.lif.capacity ∧ (s.responseClear rto).lif.imageBase = s.lif.imageBase ∧
    (s.responseClear rto).lif.scratchBase = s.lif.scratchBase ∧
    (s.responseClear rto).lif.limitData = s.lif.limitData ∧
    (s.responseClear rto).lif.limitControl = s.lif.limitControl ∧
    (s.responseClear rto).lif.limitPlatform = s.lif.limitPlatform ∧
    (s.responseClear rto).lif.outstanding = s.lif.outstanding ∧
    (s.responseClear rto).lif.freeCredits = s.lif.freeCredits ∧ (s.responseClear rto).lif.nextTag = s.lif.nextTag ∧
    (s.responseClear rto).lif.erroredBursts = s.lif.erroredBursts ∧
    (s.responseClear rto).lif.burstTaken = s.lif.burstTaken ∧
    (s.responseClear rto).lif.burstErrored = s.lif.burstErrored ∧
    (s.responseClear rto).lif.burstDropped = s.lif.burstDropped ∧ (s.responseClear rto).lif.session = s.lif.session ∧
    (s.responseClear rto).cru = s.cru ∧ (s.responseClear rto).rtb.preparing = s.rtb.preparing ∧
    (s.responseClear rto).rtb.startCommit = s.rtb.startCommit ∧ (s.responseClear rto).wpe = s.wpe ∧
    (s.responseClear rto).sst.units = s.sst.units ∧ (s.responseClear rto).sst.labelCopy = s.sst.labelCopy ∧
    (s.responseClear rto).sst.marks = s.sst.marks ∧ (s.responseClear rto).sst.serving = s.sst.serving ∧
    (s.responseClear rto).sst.lastDevice = s.sst.lastDevice ∧ (s.responseClear rto).sst.seconds = s.sst.seconds ∧
    (s.responseClear rto).sst.power = s.sst.power ∧ (s.responseClear rto).sst.drain = s.sst.drain ∧
    (s.responseClear rto).sst.downMark = s.sst.downMark ∧ (s.responseClear rto).sst.ready = s.sst.ready ∧
    (s.responseClear rto).sst.retention = s.sst.retention := by
  unfold State.responseClear; (try dsimp only); (repeat' split) <;> first | (simp; done) | simp [apply_ite]

@[simp] theorem State.remoteOrder_frame (s : State) (level : Nat) (rto : ReplyTo) :
    (s.remoteOrder level rto).lif.started = s.lif.started ∧
    (s.remoteOrder level rto).lif.mediaCredits = s.lif.mediaCredits ∧
    (s.remoteOrder level rto).lif.capacity = s.lif.capacity ∧
    (s.remoteOrder level rto).lif.imageBase = s.lif.imageBase ∧
    (s.remoteOrder level rto).lif.scratchBase = s.lif.scratchBase ∧
    (s.remoteOrder level rto).lif.limitData = s.lif.limitData ∧
    (s.remoteOrder level rto).lif.limitControl = s.lif.limitControl ∧
    (s.remoteOrder level rto).lif.limitPlatform = s.lif.limitPlatform ∧
    (s.remoteOrder level rto).lif.outstanding = s.lif.outstanding ∧
    (s.remoteOrder level rto).lif.freeCredits = s.lif.freeCredits ∧
    (s.remoteOrder level rto).lif.nextTag = s.lif.nextTag ∧
    (s.remoteOrder level rto).lif.erroredBursts = s.lif.erroredBursts ∧
    (s.remoteOrder level rto).lif.burstTaken = s.lif.burstTaken ∧
    (s.remoteOrder level rto).lif.burstErrored = s.lif.burstErrored ∧
    (s.remoteOrder level rto).lif.burstDropped = s.lif.burstDropped ∧
    (s.remoteOrder level rto).lif.session = s.lif.session ∧ (s.remoteOrder level rto).cru = s.cru ∧
    (s.remoteOrder level rto).rtb.resealOnWake = s.rtb.resealOnWake ∧
    (s.remoteOrder level rto).rtb.staged = s.rtb.staged ∧ (s.remoteOrder level rto).rtb.preparing = s.rtb.preparing ∧
    (s.remoteOrder level rto).rtb.startCommit = s.rtb.startCommit ∧
    (s.remoteOrder level rto).sst.units = s.sst.units ∧ (s.remoteOrder level rto).sst.labelCopy = s.sst.labelCopy ∧
    (s.remoteOrder level rto).sst.marks = s.sst.marks ∧ (s.remoteOrder level rto).sst.serving = s.sst.serving ∧
    (s.remoteOrder level rto).sst.lastDevice = s.sst.lastDevice ∧
    (s.remoteOrder level rto).sst.seconds = s.sst.seconds ∧ (s.remoteOrder level rto).sst.power = s.sst.power ∧
    (s.remoteOrder level rto).sst.drain = s.sst.drain ∧ (s.remoteOrder level rto).sst.downMark = s.sst.downMark ∧
    (s.remoteOrder level rto).sst.ready = s.sst.ready ∧ (s.remoteOrder level rto).sst.retention = s.sst.retention ∧
    (s.remoteOrder level rto).fresh = s.fresh := by
  unfold State.remoteOrder; (try dsimp only); (repeat' split) <;> first | (simp; done) | simp [apply_ite]

@[simp] theorem State.presence_frame (s : State) (p : Proof) : (s.presence p).lif = s.lif ∧
    (s.presence p).cru = s.cru ∧ (s.presence p).btc = s.btc ∧ (s.presence p).kst = s.kst ∧
    (s.presence p).rtb = s.rtb ∧ (s.presence p).dpu = s.dpu ∧ (s.presence p).rke = s.rke ∧
    (s.presence p).wpe = s.wpe ∧ (s.presence p).sst = s.sst ∧ (s.presence p).sent = s.sent := by
  unfold State.presence; (try dsimp only); (repeat' split) <;> first | (simp; done) | simp [apply_ite]

@[simp] theorem State.latch_frame (s : State) (i : Nat) : (s.latch i).lif = s.lif ∧ (s.latch i).cru = s.cru ∧
    (s.latch i).btc = s.btc ∧ (s.latch i).kst = s.kst ∧ (s.latch i).rtb = s.rtb ∧ (s.latch i).dpu = s.dpu ∧
    (s.latch i).rke = s.rke ∧ (s.latch i).wpe = s.wpe ∧ (s.latch i).sst = s.sst ∧ (s.latch i).fresh = s.fresh ∧
    (s.latch i).sent = s.sent := by
  unfold State.latch; (try dsimp only); (repeat' split) <;> first | (simp; done) | simp [apply_ite]

@[simp] theorem State.edge_frame (s : State) (i : Nat) : (s.edge i).lif.started = s.lif.started ∧
    (s.edge i).lif.mediaCredits = s.lif.mediaCredits ∧ (s.edge i).lif.capacity = s.lif.capacity ∧
    (s.edge i).lif.imageBase = s.lif.imageBase ∧ (s.edge i).lif.scratchBase = s.lif.scratchBase ∧
    (s.edge i).lif.limitData = s.lif.limitData ∧ (s.edge i).lif.limitControl = s.lif.limitControl ∧
    (s.edge i).lif.limitPlatform = s.lif.limitPlatform ∧ (s.edge i).lif.outstanding = s.lif.outstanding ∧
    (s.edge i).lif.freeCredits = s.lif.freeCredits ∧ (s.edge i).lif.nextTag = s.lif.nextTag ∧
    (s.edge i).lif.erroredBursts = s.lif.erroredBursts ∧ (s.edge i).lif.burstTaken = s.lif.burstTaken ∧
    (s.edge i).lif.burstErrored = s.lif.burstErrored ∧ (s.edge i).lif.burstDropped = s.lif.burstDropped ∧
    (s.edge i).lif.session = s.lif.session ∧ (s.edge i).cru = s.cru ∧
    (s.edge i).rtb.resealOnWake = s.rtb.resealOnWake ∧ (s.edge i).rtb.staged = s.rtb.staged ∧
    (s.edge i).rtb.preparing = s.rtb.preparing ∧ (s.edge i).rtb.startCommit = s.rtb.startCommit ∧
    (s.edge i).sst.units = s.sst.units ∧ (s.edge i).sst.labelCopy = s.sst.labelCopy ∧
    (s.edge i).sst.marks = s.sst.marks ∧ (s.edge i).sst.serving = s.sst.serving ∧
    (s.edge i).sst.lastDevice = s.sst.lastDevice ∧ (s.edge i).sst.seconds = s.sst.seconds ∧
    (s.edge i).sst.power = s.sst.power ∧ (s.edge i).sst.drain = s.sst.drain ∧
    (s.edge i).sst.downMark = s.sst.downMark ∧ (s.edge i).sst.ready = s.sst.ready ∧
    (s.edge i).sst.retention = s.sst.retention ∧ (s.edge i).fresh = s.fresh := by
  unfold State.edge; (try dsimp only); (repeat' split) <;> first | (simp; done) | simp [apply_ite]

@[simp] theorem State.absenceReached_frame (s : State) : s.absenceReached.lif.started = s.lif.started ∧
    s.absenceReached.lif.mediaCredits = s.lif.mediaCredits ∧ s.absenceReached.lif.capacity = s.lif.capacity ∧
    s.absenceReached.lif.imageBase = s.lif.imageBase ∧ s.absenceReached.lif.scratchBase = s.lif.scratchBase ∧
    s.absenceReached.lif.limitData = s.lif.limitData ∧ s.absenceReached.lif.limitControl = s.lif.limitControl ∧
    s.absenceReached.lif.limitPlatform = s.lif.limitPlatform ∧ s.absenceReached.lif.outstanding = s.lif.outstanding ∧
    s.absenceReached.lif.freeCredits = s.lif.freeCredits ∧ s.absenceReached.lif.nextTag = s.lif.nextTag ∧
    s.absenceReached.lif.erroredBursts = s.lif.erroredBursts ∧ s.absenceReached.lif.burstTaken = s.lif.burstTaken ∧
    s.absenceReached.lif.burstErrored = s.lif.burstErrored ∧ s.absenceReached.lif.burstDropped = s.lif.burstDropped ∧
    s.absenceReached.lif.session = s.lif.session ∧ s.absenceReached.cru = s.cru ∧
    s.absenceReached.rtb.resealOnWake = s.rtb.resealOnWake ∧ s.absenceReached.rtb.staged = s.rtb.staged ∧
    s.absenceReached.rtb.preparing = s.rtb.preparing ∧ s.absenceReached.rtb.startCommit = s.rtb.startCommit ∧
    s.absenceReached.sst.units = s.sst.units ∧ s.absenceReached.sst.labelCopy = s.sst.labelCopy ∧
    s.absenceReached.sst.marks = s.sst.marks ∧ s.absenceReached.sst.serving = s.sst.serving ∧
    s.absenceReached.sst.lastDevice = s.sst.lastDevice ∧ s.absenceReached.sst.seconds = s.sst.seconds ∧
    s.absenceReached.sst.power = s.sst.power ∧ s.absenceReached.sst.drain = s.sst.drain ∧
    s.absenceReached.sst.downMark = s.sst.downMark ∧ s.absenceReached.sst.ready = s.sst.ready ∧
    s.absenceReached.sst.retention = s.sst.retention ∧ s.absenceReached.fresh = s.fresh := by
  unfold State.absenceReached; (try dsimp only); (repeat' split) <;> first | (simp; done) | simp [apply_ite]

/-! ### Operations of the Wipe Engine -/

@[simp] theorem State.wipeStart_frame (s : State) (fill : Option Bool) (rto : ReplyTo) :
    (s.wipeStart fill rto).lif.started = s.lif.started ∧
    (s.wipeStart fill rto).lif.mediaCredits = s.lif.mediaCredits ∧
    (s.wipeStart fill rto).lif.capacity = s.lif.capacity ∧ (s.wipeStart fill rto).lif.imageBase = s.lif.imageBase ∧
    (s.wipeStart fill rto).lif.scratchBase = s.lif.scratchBase ∧
    (s.wipeStart fill rto).lif.limitData = s.lif.limitData ∧
    (s.wipeStart fill rto).lif.limitControl = s.lif.limitControl ∧
    (s.wipeStart fill rto).lif.limitPlatform = s.lif.limitPlatform ∧
    (s.wipeStart fill rto).lif.outstanding = s.lif.outstanding ∧
    (s.wipeStart fill rto).lif.freeCredits = s.lif.freeCredits ∧ (s.wipeStart fill rto).lif.nextTag = s.lif.nextTag ∧
    (s.wipeStart fill rto).lif.erroredBursts = s.lif.erroredBursts ∧
    (s.wipeStart fill rto).lif.burstTaken = s.lif.burstTaken ∧
    (s.wipeStart fill rto).lif.burstErrored = s.lif.burstErrored ∧
    (s.wipeStart fill rto).lif.burstDropped = s.lif.burstDropped ∧
    (s.wipeStart fill rto).lif.session = s.lif.session ∧ (s.wipeStart fill rto).cru = s.cru ∧
    (s.wipeStart fill rto).btc = s.btc ∧ (s.wipeStart fill rto).kst = s.kst ∧ (s.wipeStart fill rto).rtb = s.rtb ∧
    (s.wipeStart fill rto).dpu = s.dpu ∧ (s.wipeStart fill rto).rke = s.rke ∧ (s.wipeStart fill rto).rsu = s.rsu ∧
    (s.wipeStart fill rto).sst.units = s.sst.units ∧ (s.wipeStart fill rto).sst.labelCopy = s.sst.labelCopy ∧
    (s.wipeStart fill rto).sst.marks = s.sst.marks ∧ (s.wipeStart fill rto).sst.serving = s.sst.serving ∧
    (s.wipeStart fill rto).sst.lastDevice = s.sst.lastDevice ∧ (s.wipeStart fill rto).sst.seconds = s.sst.seconds ∧
    (s.wipeStart fill rto).sst.power = s.sst.power ∧ (s.wipeStart fill rto).sst.drain = s.sst.drain ∧
    (s.wipeStart fill rto).sst.downMark = s.sst.downMark ∧ (s.wipeStart fill rto).sst.ready = s.sst.ready ∧
    (s.wipeStart fill rto).sst.retention = s.sst.retention ∧ (s.wipeStart fill rto).fresh = s.fresh := by
  unfold State.wipeStart; (try dsimp only); (repeat' split) <;> first | (simp; done) | simp [apply_ite]

@[simp] theorem State.wipeAbort_frame (s : State) (rto : ReplyTo) : (s.wipeAbort rto).lif.started = s.lif.started ∧
    (s.wipeAbort rto).lif.mediaCredits = s.lif.mediaCredits ∧ (s.wipeAbort rto).lif.capacity = s.lif.capacity ∧
    (s.wipeAbort rto).lif.imageBase = s.lif.imageBase ∧ (s.wipeAbort rto).lif.scratchBase = s.lif.scratchBase ∧
    (s.wipeAbort rto).lif.limitData = s.lif.limitData ∧ (s.wipeAbort rto).lif.limitControl = s.lif.limitControl ∧
    (s.wipeAbort rto).lif.limitPlatform = s.lif.limitPlatform ∧
    (s.wipeAbort rto).lif.outstanding = s.lif.outstanding ∧ (s.wipeAbort rto).lif.freeCredits = s.lif.freeCredits ∧
    (s.wipeAbort rto).lif.nextTag = s.lif.nextTag ∧ (s.wipeAbort rto).lif.erroredBursts = s.lif.erroredBursts ∧
    (s.wipeAbort rto).lif.burstTaken = s.lif.burstTaken ∧ (s.wipeAbort rto).lif.burstErrored = s.lif.burstErrored ∧
    (s.wipeAbort rto).lif.burstDropped = s.lif.burstDropped ∧ (s.wipeAbort rto).lif.session = s.lif.session ∧
    (s.wipeAbort rto).cru = s.cru ∧ (s.wipeAbort rto).btc = s.btc ∧ (s.wipeAbort rto).kst = s.kst ∧
    (s.wipeAbort rto).rtb = s.rtb ∧ (s.wipeAbort rto).dpu = s.dpu ∧ (s.wipeAbort rto).rke = s.rke ∧
    (s.wipeAbort rto).rsu = s.rsu ∧ (s.wipeAbort rto).sst.units = s.sst.units ∧
    (s.wipeAbort rto).sst.labelCopy = s.sst.labelCopy ∧ (s.wipeAbort rto).sst.marks = s.sst.marks ∧
    (s.wipeAbort rto).sst.serving = s.sst.serving ∧ (s.wipeAbort rto).sst.lastDevice = s.sst.lastDevice ∧
    (s.wipeAbort rto).sst.seconds = s.sst.seconds ∧ (s.wipeAbort rto).sst.power = s.sst.power ∧
    (s.wipeAbort rto).sst.drain = s.sst.drain ∧ (s.wipeAbort rto).sst.downMark = s.sst.downMark ∧
    (s.wipeAbort rto).sst.ready = s.sst.ready ∧ (s.wipeAbort rto).sst.retention = s.sst.retention ∧
    (s.wipeAbort rto).fresh = s.fresh := by
  unfold State.wipeAbort; (try dsimp only); (repeat' split) <;> first | (simp; done) | simp [apply_ite]

@[simp] theorem State.reprovision_frame (s : State) (rto : ReplyTo) :
    (s.reprovision rto).lif.started = s.lif.started ∧ (s.reprovision rto).lif.mediaCredits = s.lif.mediaCredits ∧
    (s.reprovision rto).lif.capacity = s.lif.capacity ∧ (s.reprovision rto).lif.imageBase = s.lif.imageBase ∧
    (s.reprovision rto).lif.scratchBase = s.lif.scratchBase ∧ (s.reprovision rto).lif.limitData = s.lif.limitData ∧
    (s.reprovision rto).lif.limitControl = s.lif.limitControl ∧
    (s.reprovision rto).lif.limitPlatform = s.lif.limitPlatform ∧
    (s.reprovision rto).lif.outstanding = s.lif.outstanding ∧
    (s.reprovision rto).lif.freeCredits = s.lif.freeCredits ∧ (s.reprovision rto).lif.nextTag = s.lif.nextTag ∧
    (s.reprovision rto).lif.erroredBursts = s.lif.erroredBursts ∧
    (s.reprovision rto).lif.burstTaken = s.lif.burstTaken ∧
    (s.reprovision rto).lif.burstErrored = s.lif.burstErrored ∧
    (s.reprovision rto).lif.burstDropped = s.lif.burstDropped ∧ (s.reprovision rto).lif.session = s.lif.session ∧
    (s.reprovision rto).cru = s.cru ∧ (s.reprovision rto).btc = s.btc ∧ (s.reprovision rto).kst = s.kst ∧
    (s.reprovision rto).rtb = s.rtb ∧ (s.reprovision rto).dpu = s.dpu ∧ (s.reprovision rto).rke = s.rke ∧
    (s.reprovision rto).rsu = s.rsu ∧ (s.reprovision rto).sst.units = s.sst.units ∧
    (s.reprovision rto).sst.labelCopy = s.sst.labelCopy ∧ (s.reprovision rto).sst.marks = s.sst.marks ∧
    (s.reprovision rto).sst.serving = s.sst.serving ∧ (s.reprovision rto).sst.lastDevice = s.sst.lastDevice ∧
    (s.reprovision rto).sst.seconds = s.sst.seconds ∧ (s.reprovision rto).sst.power = s.sst.power ∧
    (s.reprovision rto).sst.drain = s.sst.drain ∧ (s.reprovision rto).sst.downMark = s.sst.downMark ∧
    (s.reprovision rto).sst.ready = s.sst.ready ∧ (s.reprovision rto).sst.retention = s.sst.retention ∧
    (s.reprovision rto).fresh = s.fresh := by
  unfold State.reprovision; (try dsimp only); (repeat' split) <;> first | (simp; done) | simp [apply_ite]

/-! ### Operations of the Link Interface -/

@[simp] theorem State.linkSweep_frame (s : State) (restart : Bool) : (s.linkSweep restart).lif = s.lif ∧
    (s.linkSweep restart).cru = s.cru ∧ (s.linkSweep restart).btc = s.btc ∧ (s.linkSweep restart).kst = s.kst ∧
    (s.linkSweep restart).rtb = s.rtb ∧ (s.linkSweep restart).dpu = s.dpu ∧ (s.linkSweep restart).rsu = s.rsu ∧
    (s.linkSweep restart).wpe = s.wpe ∧ (s.linkSweep restart).sst = s.sst ∧ (s.linkSweep restart).fresh = s.fresh ∧
    (s.linkSweep restart).sent = s.sent := by
  unfold State.linkSweep; (try dsimp only); (repeat' split) <;> first | (simp; done) | simp [apply_ite]

@[simp] theorem State.linkHello_frame (s : State) : s.linkHello.lif = s.lif ∧ s.linkHello.cru = s.cru ∧
    s.linkHello.kst = s.kst ∧ s.linkHello.rtb = s.rtb ∧ s.linkHello.dpu = s.dpu ∧ s.linkHello.rke = s.rke ∧
    s.linkHello.rsu = s.rsu ∧ s.linkHello.wpe = s.wpe ∧ s.linkHello.sst = s.sst ∧ s.linkHello.fresh = s.fresh ∧
    s.linkHello.sent = s.sent := by
  unfold State.linkHello; (try dsimp only); (repeat' split) <;> first | (simp; done) | simp [apply_ite]

@[simp] theorem State.linkBeacon_frame (s : State) : s.linkBeacon.lif = s.lif ∧ s.linkBeacon.cru = s.cru ∧
    s.linkBeacon.btc = s.btc ∧ s.linkBeacon.kst = s.kst ∧ s.linkBeacon.rtb = s.rtb ∧ s.linkBeacon.dpu = s.dpu ∧
    s.linkBeacon.rke = s.rke ∧ s.linkBeacon.wpe = s.wpe ∧ s.linkBeacon.sst = s.sst ∧ s.linkBeacon.sent = s.sent := by
  unfold State.linkBeacon; (try dsimp only); (repeat' split) <;> first | (simp; done) | simp [apply_ite]

@[simp] theorem State.freeAll_frame (s : State) : s.freeAll.lif = s.lif ∧ s.freeAll.cru = s.cru ∧
    s.freeAll.btc = s.btc ∧ s.freeAll.kst.hold = s.kst.hold ∧ s.freeAll.kst.reservation = s.kst.reservation ∧
    s.freeAll.rtb = s.rtb ∧ s.freeAll.rke = s.rke ∧ s.freeAll.rsu = s.rsu ∧ s.freeAll.wpe = s.wpe ∧
    s.freeAll.sst.units = s.sst.units ∧ s.freeAll.sst.labelCopy = s.sst.labelCopy ∧
    s.freeAll.sst.marks = s.sst.marks ∧ s.freeAll.sst.serving = s.sst.serving ∧
    s.freeAll.sst.lastDevice = s.sst.lastDevice ∧ s.freeAll.sst.seconds = s.sst.seconds ∧
    s.freeAll.sst.power = s.sst.power ∧ s.freeAll.sst.drain = s.sst.drain ∧ s.freeAll.sst.downMark = s.sst.downMark ∧
    s.freeAll.sst.ready = s.sst.ready ∧ s.freeAll.sst.retention = s.sst.retention ∧ s.freeAll.fresh = s.fresh ∧
    s.freeAll.sent = s.sent := by
  unfold State.freeAll; (try dsimp only); (repeat' split) <;> first | (simp; done) | simp [apply_ite]

@[simp] theorem State.linkParameters_frame (s : State) (restart : Bool) (credits capacity imageBase scratchBase : Nat) :
    (s.linkParameters restart credits capacity imageBase scratchBase).lif.nextTag = s.lif.nextTag ∧
    (s.linkParameters restart credits capacity imageBase scratchBase).lif.erroredBursts = s.lif.erroredBursts ∧
    (s.linkParameters restart credits capacity imageBase scratchBase).lif.burstTaken = s.lif.burstTaken ∧
    (s.linkParameters restart credits capacity imageBase scratchBase).lif.burstErrored = s.lif.burstErrored ∧
    (s.linkParameters restart credits capacity imageBase scratchBase).lif.burstDropped = s.lif.burstDropped ∧
    (s.linkParameters restart credits capacity imageBase scratchBase).cru = s.cru ∧
    (s.linkParameters restart credits capacity imageBase scratchBase).btc = s.btc ∧
    (s.linkParameters restart credits capacity imageBase scratchBase).kst = s.kst ∧
    (s.linkParameters restart credits capacity imageBase scratchBase).rtb = s.rtb ∧
    (s.linkParameters restart credits capacity imageBase scratchBase).dpu = s.dpu ∧
    (s.linkParameters restart credits capacity imageBase scratchBase).rke = s.rke ∧
    (s.linkParameters restart credits capacity imageBase scratchBase).rsu = s.rsu ∧
    (s.linkParameters restart credits capacity imageBase scratchBase).wpe = s.wpe ∧
    (s.linkParameters restart credits capacity imageBase scratchBase).sst = s.sst ∧
    (s.linkParameters restart credits capacity imageBase scratchBase).fresh = s.fresh ∧
    (s.linkParameters restart credits capacity imageBase scratchBase).sent = s.sent := by
  unfold State.linkParameters; (try dsimp only); (repeat' split) <;> first | (simp; done) | simp [apply_ite]

@[simp] theorem State.linkStarted_frame (s : State) (credits capacity imageBase scratchBase : Nat) :
    (s.linkStarted credits capacity imageBase scratchBase).lif.nextTag = s.lif.nextTag ∧
    (s.linkStarted credits capacity imageBase scratchBase).lif.erroredBursts = s.lif.erroredBursts ∧
    (s.linkStarted credits capacity imageBase scratchBase).lif.burstTaken = s.lif.burstTaken ∧
    (s.linkStarted credits capacity imageBase scratchBase).lif.burstErrored = s.lif.burstErrored ∧
    (s.linkStarted credits capacity imageBase scratchBase).lif.burstDropped = s.lif.burstDropped ∧
    (s.linkStarted credits capacity imageBase scratchBase).cru = s.cru ∧
    (s.linkStarted credits capacity imageBase scratchBase).kst.hold = s.kst.hold ∧
    (s.linkStarted credits capacity imageBase scratchBase).kst.reservation = s.kst.reservation ∧
    (s.linkStarted credits capacity imageBase scratchBase).rtb = s.rtb ∧
    (s.linkStarted credits capacity imageBase scratchBase).wpe = s.wpe ∧
    (s.linkStarted credits capacity imageBase scratchBase).sst.units = s.sst.units ∧
    (s.linkStarted credits capacity imageBase scratchBase).sst.labelCopy = s.sst.labelCopy ∧
    (s.linkStarted credits capacity imageBase scratchBase).sst.marks = s.sst.marks ∧
    (s.linkStarted credits capacity imageBase scratchBase).sst.serving = s.sst.serving ∧
    (s.linkStarted credits capacity imageBase scratchBase).sst.lastDevice = s.sst.lastDevice ∧
    (s.linkStarted credits capacity imageBase scratchBase).sst.seconds = s.sst.seconds ∧
    (s.linkStarted credits capacity imageBase scratchBase).sst.power = s.sst.power ∧
    (s.linkStarted credits capacity imageBase scratchBase).sst.drain = s.sst.drain ∧
    (s.linkStarted credits capacity imageBase scratchBase).sst.downMark = s.sst.downMark ∧
    (s.linkStarted credits capacity imageBase scratchBase).sst.ready = s.sst.ready ∧
    (s.linkStarted credits capacity imageBase scratchBase).sst.retention = s.sst.retention ∧
    (s.linkStarted credits capacity imageBase scratchBase).sent = s.sent := by
  unfold State.linkStarted; (try dsimp only); (repeat' split) <;> first | (simp; done) | simp [apply_ite]

@[simp] theorem State.linkStart_frame (s : State) (credits capacity imageBase scratchBase tag : Nat) :
    (s.linkStart credits capacity imageBase scratchBase tag).lif.nextTag = s.lif.nextTag ∧
    (s.linkStart credits capacity imageBase scratchBase tag).lif.erroredBursts = s.lif.erroredBursts ∧
    (s.linkStart credits capacity imageBase scratchBase tag).lif.burstTaken = s.lif.burstTaken ∧
    (s.linkStart credits capacity imageBase scratchBase tag).lif.burstErrored = s.lif.burstErrored ∧
    (s.linkStart credits capacity imageBase scratchBase tag).lif.burstDropped = s.lif.burstDropped ∧
    (s.linkStart credits capacity imageBase scratchBase tag).cru = s.cru ∧
    (s.linkStart credits capacity imageBase scratchBase tag).rtb.preparing = s.rtb.preparing ∧
    (s.linkStart credits capacity imageBase scratchBase tag).rtb.startCommit = s.rtb.startCommit ∧
    (s.linkStart credits capacity imageBase scratchBase tag).wpe = s.wpe ∧
    (s.linkStart credits capacity imageBase scratchBase tag).sst.units = s.sst.units ∧
    (s.linkStart credits capacity imageBase scratchBase tag).sst.labelCopy = s.sst.labelCopy ∧
    (s.linkStart credits capacity imageBase scratchBase tag).sst.marks = s.sst.marks ∧
    (s.linkStart credits capacity imageBase scratchBase tag).sst.serving = s.sst.serving ∧
    (s.linkStart credits capacity imageBase scratchBase tag).sst.lastDevice = s.sst.lastDevice ∧
    (s.linkStart credits capacity imageBase scratchBase tag).sst.seconds = s.sst.seconds ∧
    (s.linkStart credits capacity imageBase scratchBase tag).sst.power = s.sst.power ∧
    (s.linkStart credits capacity imageBase scratchBase tag).sst.drain = s.sst.drain ∧
    (s.linkStart credits capacity imageBase scratchBase tag).sst.downMark = s.sst.downMark ∧
    (s.linkStart credits capacity imageBase scratchBase tag).sst.ready = s.sst.ready ∧
    (s.linkStart credits capacity imageBase scratchBase tag).sst.retention = s.sst.retention := by
  unfold State.linkStart; (try dsimp only); (repeat' split) <;> first | (simp; done) | simp [apply_ite]

@[simp] theorem State.setLimit_frame (s : State) (ch : Channel) (n : Nat) :
    (s.setLimit ch n).lif.started = s.lif.started ∧ (s.setLimit ch n).lif.mediaCredits = s.lif.mediaCredits ∧
    (s.setLimit ch n).lif.capacity = s.lif.capacity ∧ (s.setLimit ch n).lif.imageBase = s.lif.imageBase ∧
    (s.setLimit ch n).lif.scratchBase = s.lif.scratchBase ∧ (s.setLimit ch n).lif.outstanding = s.lif.outstanding ∧
    (s.setLimit ch n).lif.freeCredits = s.lif.freeCredits ∧ (s.setLimit ch n).lif.nextTag = s.lif.nextTag ∧
    (s.setLimit ch n).lif.tagsInUse = s.lif.tagsInUse ∧ (s.setLimit ch n).lif.erroredBursts = s.lif.erroredBursts ∧
    (s.setLimit ch n).lif.burstTaken = s.lif.burstTaken ∧ (s.setLimit ch n).lif.burstErrored = s.lif.burstErrored ∧
    (s.setLimit ch n).lif.burstDropped = s.lif.burstDropped ∧ (s.setLimit ch n).lif.session = s.lif.session ∧
    (s.setLimit ch n).cru = s.cru ∧ (s.setLimit ch n).btc = s.btc ∧ (s.setLimit ch n).kst = s.kst ∧
    (s.setLimit ch n).rtb = s.rtb ∧ (s.setLimit ch n).dpu = s.dpu ∧ (s.setLimit ch n).rke = s.rke ∧
    (s.setLimit ch n).rsu = s.rsu ∧ (s.setLimit ch n).wpe = s.wpe ∧ (s.setLimit ch n).sst = s.sst ∧
    (s.setLimit ch n).fresh = s.fresh ∧ (s.setLimit ch n).sent = s.sent := by
  unfold State.setLimit; (try dsimp only); (repeat' split) <;> first | (simp; done) | simp [apply_ite]

@[simp] theorem State.replyLimit_frame (s : State) (channel limit : Nat) (rto : ReplyTo) :
    (s.replyLimit channel limit rto).lif.started = s.lif.started ∧
    (s.replyLimit channel limit rto).lif.mediaCredits = s.lif.mediaCredits ∧
    (s.replyLimit channel limit rto).lif.capacity = s.lif.capacity ∧
    (s.replyLimit channel limit rto).lif.imageBase = s.lif.imageBase ∧
    (s.replyLimit channel limit rto).lif.scratchBase = s.lif.scratchBase ∧
    (s.replyLimit channel limit rto).lif.outstanding = s.lif.outstanding ∧
    (s.replyLimit channel limit rto).lif.freeCredits = s.lif.freeCredits ∧
    (s.replyLimit channel limit rto).lif.nextTag = s.lif.nextTag ∧
    (s.replyLimit channel limit rto).lif.erroredBursts = s.lif.erroredBursts ∧
    (s.replyLimit channel limit rto).lif.burstTaken = s.lif.burstTaken ∧
    (s.replyLimit channel limit rto).lif.burstErrored = s.lif.burstErrored ∧
    (s.replyLimit channel limit rto).lif.burstDropped = s.lif.burstDropped ∧
    (s.replyLimit channel limit rto).lif.session = s.lif.session ∧ (s.replyLimit channel limit rto).cru = s.cru ∧
    (s.replyLimit channel limit rto).btc = s.btc ∧ (s.replyLimit channel limit rto).kst = s.kst ∧
    (s.replyLimit channel limit rto).rtb = s.rtb ∧ (s.replyLimit channel limit rto).dpu = s.dpu ∧
    (s.replyLimit channel limit rto).rke = s.rke ∧ (s.replyLimit channel limit rto).rsu = s.rsu ∧
    (s.replyLimit channel limit rto).wpe = s.wpe ∧ (s.replyLimit channel limit rto).sst = s.sst ∧
    (s.replyLimit channel limit rto).fresh = s.fresh := by
  unfold State.replyLimit; (try dsimp only); (repeat' split) <;> first | (simp; done) | simp [apply_ite]

@[simp] theorem State.dropBurst_frame (s : State) : s.dropBurst.lif.started = s.lif.started ∧
    s.dropBurst.lif.mediaCredits = s.lif.mediaCredits ∧ s.dropBurst.lif.capacity = s.lif.capacity ∧
    s.dropBurst.lif.imageBase = s.lif.imageBase ∧ s.dropBurst.lif.scratchBase = s.lif.scratchBase ∧
    s.dropBurst.lif.limitData = s.lif.limitData ∧ s.dropBurst.lif.limitControl = s.lif.limitControl ∧
    s.dropBurst.lif.limitPlatform = s.lif.limitPlatform ∧ s.dropBurst.lif.outstanding = s.lif.outstanding ∧
    s.dropBurst.lif.freeCredits = s.lif.freeCredits ∧ s.dropBurst.lif.nextTag = s.lif.nextTag ∧
    s.dropBurst.lif.tagsInUse = s.lif.tagsInUse ∧ s.dropBurst.lif.erroredBursts = s.lif.erroredBursts ∧
    s.dropBurst.lif.burstTaken = s.lif.burstTaken ∧ s.dropBurst.lif.session = s.lif.session ∧
    s.dropBurst.cru = s.cru ∧ s.dropBurst.btc = s.btc ∧ s.dropBurst.kst = s.kst ∧ s.dropBurst.rtb = s.rtb ∧
    s.dropBurst.dpu = s.dpu ∧ s.dropBurst.rke = s.rke ∧ s.dropBurst.rsu = s.rsu ∧ s.dropBurst.wpe = s.wpe ∧
    s.dropBurst.sst = s.sst ∧ s.dropBurst.fresh = s.fresh := by
  unfold State.dropBurst; (try dsimp only); (repeat' split) <;> first | (simp; done) | simp [apply_ite]

@[simp] theorem State.damagedFrame_frame (s : State) (ch : Channel) (tag : Nat) :
    (s.damagedFrame ch tag).lif.started = s.lif.started ∧
    (s.damagedFrame ch tag).lif.mediaCredits = s.lif.mediaCredits ∧
    (s.damagedFrame ch tag).lif.capacity = s.lif.capacity ∧ (s.damagedFrame ch tag).lif.imageBase = s.lif.imageBase ∧
    (s.damagedFrame ch tag).lif.scratchBase = s.lif.scratchBase ∧
    (s.damagedFrame ch tag).lif.limitData = s.lif.limitData ∧
    (s.damagedFrame ch tag).lif.limitControl = s.lif.limitControl ∧
    (s.damagedFrame ch tag).lif.limitPlatform = s.lif.limitPlatform ∧
    (s.damagedFrame ch tag).lif.outstanding = s.lif.outstanding ∧
    (s.damagedFrame ch tag).lif.freeCredits = s.lif.freeCredits ∧
    (s.damagedFrame ch tag).lif.nextTag = s.lif.nextTag ∧ (s.damagedFrame ch tag).lif.tagsInUse = s.lif.tagsInUse ∧
    (s.damagedFrame ch tag).lif.erroredBursts = s.lif.erroredBursts ∧
    (s.damagedFrame ch tag).lif.burstTaken = s.lif.burstTaken ∧
    (s.damagedFrame ch tag).lif.burstDropped = s.lif.burstDropped ∧
    (s.damagedFrame ch tag).lif.session = s.lif.session ∧ (s.damagedFrame ch tag).cru = s.cru ∧
    (s.damagedFrame ch tag).btc = s.btc ∧ (s.damagedFrame ch tag).kst = s.kst ∧ (s.damagedFrame ch tag).rtb = s.rtb ∧
    (s.damagedFrame ch tag).dpu = s.dpu ∧ (s.damagedFrame ch tag).rke = s.rke ∧ (s.damagedFrame ch tag).rsu = s.rsu ∧
    (s.damagedFrame ch tag).wpe = s.wpe ∧ (s.damagedFrame ch tag).sst = s.sst ∧
    (s.damagedFrame ch tag).fresh = s.fresh := by
  unfold State.damagedFrame; (try dsimp only); (repeat' split) <;> first | (simp; done) | simp [apply_ite]

@[simp] theorem State.nextBurst_frame (s : State) (count : Nat) : (s.nextBurst count).lif.started = s.lif.started ∧
    (s.nextBurst count).lif.mediaCredits = s.lif.mediaCredits ∧ (s.nextBurst count).lif.capacity = s.lif.capacity ∧
    (s.nextBurst count).lif.imageBase = s.lif.imageBase ∧ (s.nextBurst count).lif.scratchBase = s.lif.scratchBase ∧
    (s.nextBurst count).lif.limitData = s.lif.limitData ∧ (s.nextBurst count).lif.limitControl = s.lif.limitControl ∧
    (s.nextBurst count).lif.limitPlatform = s.lif.limitPlatform ∧
    (s.nextBurst count).lif.outstanding = s.lif.outstanding ∧
    (s.nextBurst count).lif.freeCredits = s.lif.freeCredits ∧ (s.nextBurst count).lif.nextTag = s.lif.nextTag ∧
    (s.nextBurst count).lif.tagsInUse = s.lif.tagsInUse ∧ (s.nextBurst count).lif.session = s.lif.session ∧
    (s.nextBurst count).cru = s.cru ∧ (s.nextBurst count).btc = s.btc ∧ (s.nextBurst count).kst = s.kst ∧
    (s.nextBurst count).rtb = s.rtb ∧ (s.nextBurst count).dpu = s.dpu ∧ (s.nextBurst count).rke = s.rke ∧
    (s.nextBurst count).rsu = s.rsu ∧ (s.nextBurst count).wpe = s.wpe ∧ (s.nextBurst count).sst = s.sst ∧
    (s.nextBurst count).fresh = s.fresh ∧ (s.nextBurst count).sent = s.sent := by
  unfold State.nextBurst; (try dsimp only); (repeat' split) <;> first | (simp; done) | simp [apply_ite]

@[simp] theorem State.burstEnd_frame (s : State) : s.burstEnd.lif.started = s.lif.started ∧
    s.burstEnd.lif.mediaCredits = s.lif.mediaCredits ∧ s.burstEnd.lif.capacity = s.lif.capacity ∧
    s.burstEnd.lif.imageBase = s.lif.imageBase ∧ s.burstEnd.lif.scratchBase = s.lif.scratchBase ∧
    s.burstEnd.lif.limitData = s.lif.limitData ∧ s.burstEnd.lif.limitControl = s.lif.limitControl ∧
    s.burstEnd.lif.limitPlatform = s.lif.limitPlatform ∧ s.burstEnd.lif.outstanding = s.lif.outstanding ∧
    s.burstEnd.lif.freeCredits = s.lif.freeCredits ∧ s.burstEnd.lif.nextTag = s.lif.nextTag ∧
    s.burstEnd.lif.session = s.lif.session ∧ s.burstEnd.cru = s.cru ∧
    s.burstEnd.rtb.resealOnWake = s.rtb.resealOnWake ∧ s.burstEnd.rtb.staged = s.rtb.staged ∧
    s.burstEnd.rtb.preparing = s.rtb.preparing ∧ s.burstEnd.rtb.startCommit = s.rtb.startCommit ∧
    s.burstEnd.sst.units = s.sst.units ∧ s.burstEnd.sst.labelCopy = s.sst.labelCopy ∧
    s.burstEnd.sst.marks = s.sst.marks ∧ s.burstEnd.sst.serving = s.sst.serving ∧
    s.burstEnd.sst.lastDevice = s.sst.lastDevice ∧ s.burstEnd.sst.seconds = s.sst.seconds ∧
    s.burstEnd.sst.power = s.sst.power ∧ s.burstEnd.sst.drain = s.sst.drain ∧
    s.burstEnd.sst.downMark = s.sst.downMark ∧ s.burstEnd.sst.ready = s.sst.ready ∧
    s.burstEnd.sst.retention = s.sst.retention ∧ s.burstEnd.fresh = s.fresh := by
  unfold State.burstEnd; (try dsimp only); (repeat' split) <;> first | (simp; done) | simp [apply_ite]

@[simp] theorem State.unknownKind_frame (s : State) (ch : Channel) (tag : Nat) :
    (s.unknownKind ch tag).lif.started = s.lif.started ∧
    (s.unknownKind ch tag).lif.mediaCredits = s.lif.mediaCredits ∧
    (s.unknownKind ch tag).lif.capacity = s.lif.capacity ∧ (s.unknownKind ch tag).lif.imageBase = s.lif.imageBase ∧
    (s.unknownKind ch tag).lif.scratchBase = s.lif.scratchBase ∧
    (s.unknownKind ch tag).lif.limitData = s.lif.limitData ∧
    (s.unknownKind ch tag).lif.limitControl = s.lif.limitControl ∧
    (s.unknownKind ch tag).lif.limitPlatform = s.lif.limitPlatform ∧
    (s.unknownKind ch tag).lif.outstanding = s.lif.outstanding ∧
    (s.unknownKind ch tag).lif.freeCredits = s.lif.freeCredits ∧ (s.unknownKind ch tag).lif.nextTag = s.lif.nextTag ∧
    (s.unknownKind ch tag).lif.tagsInUse = s.lif.tagsInUse ∧
    (s.unknownKind ch tag).lif.erroredBursts = s.lif.erroredBursts ∧
    (s.unknownKind ch tag).lif.burstErrored = s.lif.burstErrored ∧
    (s.unknownKind ch tag).lif.burstDropped = s.lif.burstDropped ∧
    (s.unknownKind ch tag).lif.session = s.lif.session ∧ (s.unknownKind ch tag).cru = s.cru ∧
    (s.unknownKind ch tag).btc = s.btc ∧ (s.unknownKind ch tag).kst = s.kst ∧ (s.unknownKind ch tag).rtb = s.rtb ∧
    (s.unknownKind ch tag).dpu = s.dpu ∧ (s.unknownKind ch tag).rke = s.rke ∧ (s.unknownKind ch tag).rsu = s.rsu ∧
    (s.unknownKind ch tag).wpe = s.wpe ∧ (s.unknownKind ch tag).sst = s.sst ∧
    (s.unknownKind ch tag).fresh = s.fresh := by
  unfold State.unknownKind; (try dsimp only); (repeat' split) <;> first | (simp; done) | simp [apply_ite]

@[simp] theorem State.endRequest_frame (s : State) (tag : Nat) : (s.endRequest tag).lif.started = s.lif.started ∧
    (s.endRequest tag).lif.mediaCredits = s.lif.mediaCredits ∧ (s.endRequest tag).lif.capacity = s.lif.capacity ∧
    (s.endRequest tag).lif.imageBase = s.lif.imageBase ∧ (s.endRequest tag).lif.scratchBase = s.lif.scratchBase ∧
    (s.endRequest tag).lif.limitData = s.lif.limitData ∧ (s.endRequest tag).lif.limitControl = s.lif.limitControl ∧
    (s.endRequest tag).lif.limitPlatform = s.lif.limitPlatform ∧ (s.endRequest tag).lif.nextTag = s.lif.nextTag ∧
    (s.endRequest tag).lif.tagsInUse = s.lif.tagsInUse ∧ (s.endRequest tag).lif.erroredBursts = s.lif.erroredBursts ∧
    (s.endRequest tag).lif.burstTaken = s.lif.burstTaken ∧ (s.endRequest tag).lif.burstErrored = s.lif.burstErrored ∧
    (s.endRequest tag).lif.burstDropped = s.lif.burstDropped ∧ (s.endRequest tag).lif.session = s.lif.session ∧
    (s.endRequest tag).cru = s.cru ∧ (s.endRequest tag).btc = s.btc ∧ (s.endRequest tag).kst = s.kst ∧
    (s.endRequest tag).rtb = s.rtb ∧ (s.endRequest tag).dpu = s.dpu ∧ (s.endRequest tag).rke = s.rke ∧
    (s.endRequest tag).rsu = s.rsu ∧ (s.endRequest tag).wpe = s.wpe ∧ (s.endRequest tag).sst = s.sst ∧
    (s.endRequest tag).fresh = s.fresh ∧ (s.endRequest tag).sent = s.sent := by
  unfold State.endRequest; (try dsimp only); (repeat' split) <;> first | (simp; done) | simp [apply_ite]

@[simp] theorem State.mediaEnded_frame (s : State) (c : Client) (e : MediaEnd) : (s.mediaEnded c e).lif = s.lif ∧
    (s.mediaEnded c e).cru = s.cru ∧ (s.mediaEnded c e).btc = s.btc ∧
    (s.mediaEnded c e).kst.reservation = s.kst.reservation ∧
    (s.mediaEnded c e).rtb.resealOnWake = s.rtb.resealOnWake ∧ (s.mediaEnded c e).rtb.staged = s.rtb.staged ∧
    (s.mediaEnded c e).rtb.commit = s.rtb.commit ∧ (s.mediaEnded c e).rtb.preparing = s.rtb.preparing ∧
    (s.mediaEnded c e).rtb.startCommit = s.rtb.startCommit ∧ (s.mediaEnded c e).dpu = s.dpu ∧
    (s.mediaEnded c e).rsu = s.rsu ∧ (s.mediaEnded c e).sst.units = s.sst.units ∧
    (s.mediaEnded c e).sst.labelCopy = s.sst.labelCopy ∧ (s.mediaEnded c e).sst.marks = s.sst.marks ∧
    (s.mediaEnded c e).sst.serving = s.sst.serving ∧ (s.mediaEnded c e).sst.lastDevice = s.sst.lastDevice ∧
    (s.mediaEnded c e).sst.seconds = s.sst.seconds ∧ (s.mediaEnded c e).sst.power = s.sst.power ∧
    (s.mediaEnded c e).sst.drain = s.sst.drain ∧ (s.mediaEnded c e).sst.downMark = s.sst.downMark ∧
    (s.mediaEnded c e).sst.ready = s.sst.ready ∧ (s.mediaEnded c e).sst.retention = s.sst.retention ∧
    (s.mediaEnded c e).fresh = s.fresh ∧ (s.mediaEnded c e).sent = s.sent := by
  unfold State.mediaEnded; (try dsimp only); (repeat' split) <;> first | (simp; done) | simp [apply_ite]

@[simp] theorem State.mediaReply_frame (s : State) (tag kind status : Nat) (data : Option Block) :
    (s.mediaReply tag kind status data).lif.started = s.lif.started ∧
    (s.mediaReply tag kind status data).lif.mediaCredits = s.lif.mediaCredits ∧
    (s.mediaReply tag kind status data).lif.capacity = s.lif.capacity ∧
    (s.mediaReply tag kind status data).lif.imageBase = s.lif.imageBase ∧
    (s.mediaReply tag kind status data).lif.scratchBase = s.lif.scratchBase ∧
    (s.mediaReply tag kind status data).lif.limitData = s.lif.limitData ∧
    (s.mediaReply tag kind status data).lif.limitControl = s.lif.limitControl ∧
    (s.mediaReply tag kind status data).lif.limitPlatform = s.lif.limitPlatform ∧
    (s.mediaReply tag kind status data).lif.nextTag = s.lif.nextTag ∧
    (s.mediaReply tag kind status data).lif.tagsInUse = s.lif.tagsInUse ∧
    (s.mediaReply tag kind status data).lif.erroredBursts = s.lif.erroredBursts ∧
    (s.mediaReply tag kind status data).lif.burstErrored = s.lif.burstErrored ∧
    (s.mediaReply tag kind status data).lif.burstDropped = s.lif.burstDropped ∧
    (s.mediaReply tag kind status data).lif.session = s.lif.session ∧
    (s.mediaReply tag kind status data).cru = s.cru ∧ (s.mediaReply tag kind status data).btc = s.btc ∧
    (s.mediaReply tag kind status data).kst.reservation = s.kst.reservation ∧
    (s.mediaReply tag kind status data).rtb.resealOnWake = s.rtb.resealOnWake ∧
    (s.mediaReply tag kind status data).rtb.staged = s.rtb.staged ∧
    (s.mediaReply tag kind status data).rtb.commit = s.rtb.commit ∧
    (s.mediaReply tag kind status data).rtb.preparing = s.rtb.preparing ∧
    (s.mediaReply tag kind status data).rtb.startCommit = s.rtb.startCommit ∧
    (s.mediaReply tag kind status data).dpu = s.dpu ∧ (s.mediaReply tag kind status data).rsu = s.rsu ∧
    (s.mediaReply tag kind status data).sst.units = s.sst.units ∧
    (s.mediaReply tag kind status data).sst.labelCopy = s.sst.labelCopy ∧
    (s.mediaReply tag kind status data).sst.marks = s.sst.marks ∧
    (s.mediaReply tag kind status data).sst.serving = s.sst.serving ∧
    (s.mediaReply tag kind status data).sst.lastDevice = s.sst.lastDevice ∧
    (s.mediaReply tag kind status data).sst.seconds = s.sst.seconds ∧
    (s.mediaReply tag kind status data).sst.power = s.sst.power ∧
    (s.mediaReply tag kind status data).sst.drain = s.sst.drain ∧
    (s.mediaReply tag kind status data).sst.downMark = s.sst.downMark ∧
    (s.mediaReply tag kind status data).sst.ready = s.sst.ready ∧
    (s.mediaReply tag kind status data).sst.retention = s.sst.retention ∧
    (s.mediaReply tag kind status data).fresh = s.fresh ∧ (s.mediaReply tag kind status data).sent = s.sent := by
  unfold State.mediaReply; (try dsimp only); (repeat' split) <;> first | (simp; done) | simp [apply_ite]

@[simp] theorem State.mediaTimeout_frame (s : State) (tag : Nat) : (s.mediaTimeout tag).lif.started = s.lif.started ∧
    (s.mediaTimeout tag).lif.mediaCredits = s.lif.mediaCredits ∧ (s.mediaTimeout tag).lif.capacity = s.lif.capacity ∧
    (s.mediaTimeout tag).lif.imageBase = s.lif.imageBase ∧ (s.mediaTimeout tag).lif.scratchBase = s.lif.scratchBase ∧
    (s.mediaTimeout tag).lif.limitData = s.lif.limitData ∧
    (s.mediaTimeout tag).lif.limitControl = s.lif.limitControl ∧
    (s.mediaTimeout tag).lif.limitPlatform = s.lif.limitPlatform ∧ (s.mediaTimeout tag).lif.nextTag = s.lif.nextTag ∧
    (s.mediaTimeout tag).lif.tagsInUse = s.lif.tagsInUse ∧
    (s.mediaTimeout tag).lif.erroredBursts = s.lif.erroredBursts ∧
    (s.mediaTimeout tag).lif.burstTaken = s.lif.burstTaken ∧
    (s.mediaTimeout tag).lif.burstErrored = s.lif.burstErrored ∧
    (s.mediaTimeout tag).lif.burstDropped = s.lif.burstDropped ∧ (s.mediaTimeout tag).lif.session = s.lif.session ∧
    (s.mediaTimeout tag).cru = s.cru ∧ (s.mediaTimeout tag).btc = s.btc ∧
    (s.mediaTimeout tag).kst.reservation = s.kst.reservation ∧
    (s.mediaTimeout tag).rtb.resealOnWake = s.rtb.resealOnWake ∧ (s.mediaTimeout tag).rtb.staged = s.rtb.staged ∧
    (s.mediaTimeout tag).rtb.commit = s.rtb.commit ∧ (s.mediaTimeout tag).rtb.preparing = s.rtb.preparing ∧
    (s.mediaTimeout tag).rtb.startCommit = s.rtb.startCommit ∧ (s.mediaTimeout tag).dpu = s.dpu ∧
    (s.mediaTimeout tag).rsu = s.rsu ∧ (s.mediaTimeout tag).sst.units = s.sst.units ∧
    (s.mediaTimeout tag).sst.labelCopy = s.sst.labelCopy ∧ (s.mediaTimeout tag).sst.marks = s.sst.marks ∧
    (s.mediaTimeout tag).sst.serving = s.sst.serving ∧ (s.mediaTimeout tag).sst.lastDevice = s.sst.lastDevice ∧
    (s.mediaTimeout tag).sst.seconds = s.sst.seconds ∧ (s.mediaTimeout tag).sst.power = s.sst.power ∧
    (s.mediaTimeout tag).sst.drain = s.sst.drain ∧ (s.mediaTimeout tag).sst.downMark = s.sst.downMark ∧
    (s.mediaTimeout tag).sst.ready = s.sst.ready ∧ (s.mediaTimeout tag).sst.retention = s.sst.retention ∧
    (s.mediaTimeout tag).fresh = s.fresh ∧ (s.mediaTimeout tag).sent = s.sent := by
  unfold State.mediaTimeout; (try dsimp only); (repeat' split) <;> first | (simp; done) | simp [apply_ite]

@[simp] theorem State.grantCredit_frame (s : State) : s.grantCredit.lif.started = s.lif.started ∧
    s.grantCredit.lif.mediaCredits = s.lif.mediaCredits ∧ s.grantCredit.lif.capacity = s.lif.capacity ∧
    s.grantCredit.lif.imageBase = s.lif.imageBase ∧ s.grantCredit.lif.scratchBase = s.lif.scratchBase ∧
    s.grantCredit.lif.limitData = s.lif.limitData ∧ s.grantCredit.lif.limitControl = s.lif.limitControl ∧
    s.grantCredit.lif.limitPlatform = s.lif.limitPlatform ∧ s.grantCredit.lif.tagsInUse = s.lif.tagsInUse ∧
    s.grantCredit.lif.erroredBursts = s.lif.erroredBursts ∧ s.grantCredit.lif.burstTaken = s.lif.burstTaken ∧
    s.grantCredit.lif.burstErrored = s.lif.burstErrored ∧ s.grantCredit.lif.burstDropped = s.lif.burstDropped ∧
    s.grantCredit.lif.session = s.lif.session ∧ s.grantCredit.cru = s.cru ∧ s.grantCredit.btc = s.btc ∧
    s.grantCredit.kst = s.kst ∧ s.grantCredit.rtb = s.rtb ∧ s.grantCredit.dpu = s.dpu ∧ s.grantCredit.rsu = s.rsu ∧
    s.grantCredit.wpe = s.wpe ∧ s.grantCredit.sst = s.sst ∧ s.grantCredit.fresh = s.fresh := by
  unfold State.grantCredit; (try dsimp only); (repeat' split) <;> first | (simp; done) | simp [apply_ite]

/-! ### Operations of the Secure Store -/

@[simp] theorem State.erasedSlot_frame (s : State) (k : Nat) : (s.erasedSlot k).lif = s.lif ∧
    (s.erasedSlot k).cru = s.cru ∧ (s.erasedSlot k).btc = s.btc ∧ (s.erasedSlot k).kst.loads = s.kst.loads ∧
    (s.erasedSlot k).kst.hold = s.kst.hold ∧ (s.erasedSlot k).kst.reservation = s.kst.reservation ∧
    (s.erasedSlot k).rtb = s.rtb ∧ (s.erasedSlot k).dpu = s.dpu ∧ (s.erasedSlot k).rke = s.rke ∧
    (s.erasedSlot k).rsu = s.rsu ∧ (s.erasedSlot k).wpe = s.wpe ∧ (s.erasedSlot k).sst = s.sst ∧
    (s.erasedSlot k).fresh = s.fresh ∧ (s.erasedSlot k).sent = s.sent := by
  unfold State.erasedSlot; (try dsimp only); (repeat' split) <;> first | (simp; done) | simp [apply_ite]

@[simp] theorem State.badProofDone_frame (s : State) (rto : ReplyTo) (blocked : Bool) :
    (s.badProofDone rto blocked).lif.started = s.lif.started ∧
    (s.badProofDone rto blocked).lif.mediaCredits = s.lif.mediaCredits ∧
    (s.badProofDone rto blocked).lif.capacity = s.lif.capacity ∧
    (s.badProofDone rto blocked).lif.imageBase = s.lif.imageBase ∧
    (s.badProofDone rto blocked).lif.scratchBase = s.lif.scratchBase ∧
    (s.badProofDone rto blocked).lif.limitData = s.lif.limitData ∧
    (s.badProofDone rto blocked).lif.limitControl = s.lif.limitControl ∧
    (s.badProofDone rto blocked).lif.limitPlatform = s.lif.limitPlatform ∧
    (s.badProofDone rto blocked).lif.outstanding = s.lif.outstanding ∧
    (s.badProofDone rto blocked).lif.freeCredits = s.lif.freeCredits ∧
    (s.badProofDone rto blocked).lif.nextTag = s.lif.nextTag ∧
    (s.badProofDone rto blocked).lif.erroredBursts = s.lif.erroredBursts ∧
    (s.badProofDone rto blocked).lif.burstTaken = s.lif.burstTaken ∧
    (s.badProofDone rto blocked).lif.burstErrored = s.lif.burstErrored ∧
    (s.badProofDone rto blocked).lif.burstDropped = s.lif.burstDropped ∧
    (s.badProofDone rto blocked).lif.session = s.lif.session ∧ (s.badProofDone rto blocked).cru = s.cru ∧
    (s.badProofDone rto blocked).rtb.resealOnWake = s.rtb.resealOnWake ∧
    (s.badProofDone rto blocked).rtb.staged = s.rtb.staged ∧
    (s.badProofDone rto blocked).rtb.preparing = s.rtb.preparing ∧
    (s.badProofDone rto blocked).rtb.startCommit = s.rtb.startCommit ∧
    (s.badProofDone rto blocked).sst.units = s.sst.units ∧
    (s.badProofDone rto blocked).sst.labelCopy = s.sst.labelCopy ∧
    (s.badProofDone rto blocked).sst.marks = s.sst.marks ∧ (s.badProofDone rto blocked).sst.serving = s.sst.serving ∧
    (s.badProofDone rto blocked).sst.lastDevice = s.sst.lastDevice ∧
    (s.badProofDone rto blocked).sst.seconds = s.sst.seconds ∧ (s.badProofDone rto blocked).sst.power = s.sst.power ∧
    (s.badProofDone rto blocked).sst.drain = s.sst.drain ∧
    (s.badProofDone rto blocked).sst.downMark = s.sst.downMark ∧
    (s.badProofDone rto blocked).sst.ready = s.sst.ready ∧
    (s.badProofDone rto blocked).sst.retention = s.sst.retention ∧ (s.badProofDone rto blocked).fresh = s.fresh := by
  unfold State.badProofDone; (try dsimp only); (repeat' split) <;> first | (simp; done) | simp [apply_ite]

@[simp] theorem State.startCommitDone_frame (s : State) : s.startCommitDone.lif = s.lif ∧
    s.startCommitDone.cru = s.cru ∧ s.startCommitDone.btc = s.btc ∧ s.startCommitDone.kst = s.kst ∧
    s.startCommitDone.rtb.entries = s.rtb.entries ∧ s.startCommitDone.rtb.resealOnWake = s.rtb.resealOnWake ∧
    s.startCommitDone.rtb.staged = s.rtb.staged ∧ s.startCommitDone.rtb.commit = s.rtb.commit ∧
    s.startCommitDone.rtb.preparing = s.rtb.preparing ∧ s.startCommitDone.dpu = s.dpu ∧
    s.startCommitDone.rke = s.rke ∧ s.startCommitDone.rsu = s.rsu ∧ s.startCommitDone.wpe = s.wpe ∧
    s.startCommitDone.sst.units = s.sst.units ∧ s.startCommitDone.sst.labelCopy = s.sst.labelCopy ∧
    s.startCommitDone.sst.marks = s.sst.marks ∧ s.startCommitDone.sst.serving = s.sst.serving ∧
    s.startCommitDone.sst.lastDevice = s.sst.lastDevice ∧ s.startCommitDone.sst.seconds = s.sst.seconds ∧
    s.startCommitDone.sst.power = s.sst.power ∧ s.startCommitDone.sst.drain = s.sst.drain ∧
    s.startCommitDone.sst.downMark = s.sst.downMark ∧ s.startCommitDone.sst.ready = s.sst.ready ∧
    s.startCommitDone.sst.retention = s.sst.retention ∧ s.startCommitDone.fresh = s.fresh ∧
    s.startCommitDone.sent = s.sent := by
  unfold State.startCommitDone; (try dsimp only); (repeat' split) <;> first | (simp; done) | simp [apply_ite]

/-! ### Operations of power -/

@[simp] theorem State.enterStandby_frame (s : State) : s.enterStandby.lif = s.lif ∧ s.enterStandby.cru = s.cru ∧
    s.enterStandby.btc = s.btc ∧ s.enterStandby.kst.reservation = s.kst.reservation ∧
    s.enterStandby.rtb.resealOnWake = s.rtb.resealOnWake ∧ s.enterStandby.rtb.staged = s.rtb.staged ∧
    s.enterStandby.rtb.commit = s.rtb.commit ∧ s.enterStandby.rtb.preparing = s.rtb.preparing ∧
    s.enterStandby.rtb.startCommit = s.rtb.startCommit ∧ s.enterStandby.dpu = s.dpu ∧ s.enterStandby.rsu = s.rsu ∧
    s.enterStandby.wpe = s.wpe ∧ s.enterStandby.sst.units = s.sst.units ∧
    s.enterStandby.sst.labelCopy = s.sst.labelCopy ∧ s.enterStandby.sst.marks = s.sst.marks ∧
    s.enterStandby.sst.serving = s.sst.serving ∧ s.enterStandby.sst.lastDevice = s.sst.lastDevice ∧
    s.enterStandby.sst.seconds = s.sst.seconds ∧ s.enterStandby.sst.drain = s.sst.drain ∧
    s.enterStandby.sst.downMark = s.sst.downMark ∧ s.enterStandby.sst.ready = s.sst.ready ∧
    s.enterStandby.sst.retention = s.sst.retention ∧ s.enterStandby.fresh = s.fresh ∧
    s.enterStandby.sent = s.sent := by
  unfold State.enterStandby; (try dsimp only); (repeat' split) <;> first | (simp; done) | simp [apply_ite]

@[simp] theorem State.setDrain_frame (s : State) (d : Drain) : (s.setDrain d).lif = s.lif ∧
    (s.setDrain d).cru = s.cru ∧ (s.setDrain d).btc = s.btc ∧ (s.setDrain d).kst = s.kst ∧
    (s.setDrain d).rtb = s.rtb ∧ (s.setDrain d).dpu = s.dpu ∧ (s.setDrain d).rke = s.rke ∧
    (s.setDrain d).rsu = s.rsu ∧ (s.setDrain d).wpe = s.wpe ∧ (s.setDrain d).sst.units = s.sst.units ∧
    (s.setDrain d).sst.labelCopy = s.sst.labelCopy ∧ (s.setDrain d).sst.marks = s.sst.marks ∧
    (s.setDrain d).sst.queue = s.sst.queue ∧ (s.setDrain d).sst.waiting = s.sst.waiting ∧
    (s.setDrain d).sst.serving = s.sst.serving ∧ (s.setDrain d).sst.lastDevice = s.sst.lastDevice ∧
    (s.setDrain d).sst.seconds = s.sst.seconds ∧ (s.setDrain d).sst.power = s.sst.power ∧
    (s.setDrain d).sst.downMark = s.sst.downMark ∧ (s.setDrain d).sst.ready = s.sst.ready ∧
    (s.setDrain d).sst.retention = s.sst.retention ∧ (s.setDrain d).fresh = s.fresh ∧
    (s.setDrain d).sent = s.sent := by
  unfold State.setDrain; (try dsimp only); (repeat' split) <;> first | (simp; done) | simp [apply_ite]

@[simp] theorem State.standbyEnter_frame (s : State) (rto : ReplyTo) :
    (s.standbyEnter rto).lif.started = s.lif.started ∧ (s.standbyEnter rto).lif.mediaCredits = s.lif.mediaCredits ∧
    (s.standbyEnter rto).lif.capacity = s.lif.capacity ∧ (s.standbyEnter rto).lif.imageBase = s.lif.imageBase ∧
    (s.standbyEnter rto).lif.scratchBase = s.lif.scratchBase ∧ (s.standbyEnter rto).lif.limitData = s.lif.limitData ∧
    (s.standbyEnter rto).lif.limitControl = s.lif.limitControl ∧
    (s.standbyEnter rto).lif.limitPlatform = s.lif.limitPlatform ∧
    (s.standbyEnter rto).lif.outstanding = s.lif.outstanding ∧
    (s.standbyEnter rto).lif.freeCredits = s.lif.freeCredits ∧ (s.standbyEnter rto).lif.nextTag = s.lif.nextTag ∧
    (s.standbyEnter rto).lif.erroredBursts = s.lif.erroredBursts ∧
    (s.standbyEnter rto).lif.burstTaken = s.lif.burstTaken ∧
    (s.standbyEnter rto).lif.burstErrored = s.lif.burstErrored ∧
    (s.standbyEnter rto).lif.burstDropped = s.lif.burstDropped ∧ (s.standbyEnter rto).lif.session = s.lif.session ∧
    (s.standbyEnter rto).cru = s.cru ∧ (s.standbyEnter rto).btc = s.btc ∧
    (s.standbyEnter rto).kst.reservation = s.kst.reservation ∧
    (s.standbyEnter rto).rtb.resealOnWake = s.rtb.resealOnWake ∧ (s.standbyEnter rto).rtb.staged = s.rtb.staged ∧
    (s.standbyEnter rto).rtb.commit = s.rtb.commit ∧ (s.standbyEnter rto).rtb.preparing = s.rtb.preparing ∧
    (s.standbyEnter rto).rtb.startCommit = s.rtb.startCommit ∧ (s.standbyEnter rto).dpu = s.dpu ∧
    (s.standbyEnter rto).rsu = s.rsu ∧ (s.standbyEnter rto).wpe = s.wpe ∧
    (s.standbyEnter rto).sst.units = s.sst.units ∧ (s.standbyEnter rto).sst.labelCopy = s.sst.labelCopy ∧
    (s.standbyEnter rto).sst.marks = s.sst.marks ∧ (s.standbyEnter rto).sst.serving = s.sst.serving ∧
    (s.standbyEnter rto).sst.lastDevice = s.sst.lastDevice ∧ (s.standbyEnter rto).sst.seconds = s.sst.seconds ∧
    (s.standbyEnter rto).sst.downMark = s.sst.downMark ∧ (s.standbyEnter rto).sst.ready = s.sst.ready ∧
    (s.standbyEnter rto).sst.retention = s.sst.retention ∧ (s.standbyEnter rto).fresh = s.fresh := by
  unfold State.standbyEnter; (try dsimp only); (repeat' split) <;> first | (simp; done) | simp [apply_ite]

@[simp] theorem State.powerDown_frame (s : State) (rto : ReplyTo) : (s.powerDown rto).lif.started = s.lif.started ∧
    (s.powerDown rto).lif.mediaCredits = s.lif.mediaCredits ∧ (s.powerDown rto).lif.capacity = s.lif.capacity ∧
    (s.powerDown rto).lif.imageBase = s.lif.imageBase ∧ (s.powerDown rto).lif.scratchBase = s.lif.scratchBase ∧
    (s.powerDown rto).lif.limitData = s.lif.limitData ∧ (s.powerDown rto).lif.limitControl = s.lif.limitControl ∧
    (s.powerDown rto).lif.limitPlatform = s.lif.limitPlatform ∧
    (s.powerDown rto).lif.outstanding = s.lif.outstanding ∧ (s.powerDown rto).lif.freeCredits = s.lif.freeCredits ∧
    (s.powerDown rto).lif.nextTag = s.lif.nextTag ∧ (s.powerDown rto).lif.erroredBursts = s.lif.erroredBursts ∧
    (s.powerDown rto).lif.burstTaken = s.lif.burstTaken ∧ (s.powerDown rto).lif.burstErrored = s.lif.burstErrored ∧
    (s.powerDown rto).lif.burstDropped = s.lif.burstDropped ∧ (s.powerDown rto).lif.session = s.lif.session ∧
    (s.powerDown rto).cru = s.cru ∧ (s.powerDown rto).btc = s.btc ∧
    (s.powerDown rto).kst.reservation = s.kst.reservation ∧ (s.powerDown rto).rtb.resealOnWake = s.rtb.resealOnWake ∧
    (s.powerDown rto).rtb.staged = s.rtb.staged ∧ (s.powerDown rto).rtb.commit = s.rtb.commit ∧
    (s.powerDown rto).rtb.preparing = s.rtb.preparing ∧ (s.powerDown rto).rtb.startCommit = s.rtb.startCommit ∧
    (s.powerDown rto).dpu = s.dpu ∧ (s.powerDown rto).rsu = s.rsu ∧ (s.powerDown rto).wpe = s.wpe ∧
    (s.powerDown rto).sst.units = s.sst.units ∧ (s.powerDown rto).sst.labelCopy = s.sst.labelCopy ∧
    (s.powerDown rto).sst.marks = s.sst.marks ∧ (s.powerDown rto).sst.serving = s.sst.serving ∧
    (s.powerDown rto).sst.lastDevice = s.sst.lastDevice ∧ (s.powerDown rto).sst.seconds = s.sst.seconds ∧
    (s.powerDown rto).sst.ready = s.sst.ready ∧ (s.powerDown rto).sst.retention = s.sst.retention ∧
    (s.powerDown rto).fresh = s.fresh := by
  unfold State.powerDown; (try dsimp only); (repeat' split) <;> first | (simp; done) | simp [apply_ite]

@[simp] theorem State.standbyDrainEnd_frame (s : State) : s.standbyDrainEnd.lif.started = s.lif.started ∧
    s.standbyDrainEnd.lif.mediaCredits = s.lif.mediaCredits ∧ s.standbyDrainEnd.lif.capacity = s.lif.capacity ∧
    s.standbyDrainEnd.lif.imageBase = s.lif.imageBase ∧ s.standbyDrainEnd.lif.scratchBase = s.lif.scratchBase ∧
    s.standbyDrainEnd.lif.limitData = s.lif.limitData ∧ s.standbyDrainEnd.lif.limitControl = s.lif.limitControl ∧
    s.standbyDrainEnd.lif.limitPlatform = s.lif.limitPlatform ∧
    s.standbyDrainEnd.lif.outstanding = s.lif.outstanding ∧ s.standbyDrainEnd.lif.freeCredits = s.lif.freeCredits ∧
    s.standbyDrainEnd.lif.nextTag = s.lif.nextTag ∧ s.standbyDrainEnd.lif.erroredBursts = s.lif.erroredBursts ∧
    s.standbyDrainEnd.lif.burstTaken = s.lif.burstTaken ∧ s.standbyDrainEnd.lif.burstErrored = s.lif.burstErrored ∧
    s.standbyDrainEnd.lif.burstDropped = s.lif.burstDropped ∧ s.standbyDrainEnd.lif.session = s.lif.session ∧
    s.standbyDrainEnd.cru = s.cru ∧ s.standbyDrainEnd.btc = s.btc ∧ s.standbyDrainEnd.kst = s.kst ∧
    s.standbyDrainEnd.rtb = s.rtb ∧ s.standbyDrainEnd.dpu = s.dpu ∧ s.standbyDrainEnd.rke = s.rke ∧
    s.standbyDrainEnd.rsu = s.rsu ∧ s.standbyDrainEnd.wpe = s.wpe ∧ s.standbyDrainEnd.sst.units = s.sst.units ∧
    s.standbyDrainEnd.sst.labelCopy = s.sst.labelCopy ∧ s.standbyDrainEnd.sst.marks = s.sst.marks ∧
    s.standbyDrainEnd.sst.queue = s.sst.queue ∧ s.standbyDrainEnd.sst.waiting = s.sst.waiting ∧
    s.standbyDrainEnd.sst.serving = s.sst.serving ∧ s.standbyDrainEnd.sst.lastDevice = s.sst.lastDevice ∧
    s.standbyDrainEnd.sst.seconds = s.sst.seconds ∧ s.standbyDrainEnd.sst.power = s.sst.power ∧
    s.standbyDrainEnd.sst.downMark = s.sst.downMark ∧ s.standbyDrainEnd.sst.ready = s.sst.ready ∧
    s.standbyDrainEnd.sst.retention = s.sst.retention ∧ s.standbyDrainEnd.fresh = s.fresh := by
  unfold State.standbyDrainEnd; (try dsimp only); (repeat' split) <;> first | (simp; done) | simp [apply_ite]

@[simp] theorem State.powerDownDrainEnd_frame (s : State) : s.powerDownDrainEnd.lif.started = s.lif.started ∧
    s.powerDownDrainEnd.lif.mediaCredits = s.lif.mediaCredits ∧ s.powerDownDrainEnd.lif.capacity = s.lif.capacity ∧
    s.powerDownDrainEnd.lif.imageBase = s.lif.imageBase ∧ s.powerDownDrainEnd.lif.scratchBase = s.lif.scratchBase ∧
    s.powerDownDrainEnd.lif.limitData = s.lif.limitData ∧ s.powerDownDrainEnd.lif.limitControl = s.lif.limitControl ∧
    s.powerDownDrainEnd.lif.limitPlatform = s.lif.limitPlatform ∧
    s.powerDownDrainEnd.lif.outstanding = s.lif.outstanding ∧
    s.powerDownDrainEnd.lif.freeCredits = s.lif.freeCredits ∧ s.powerDownDrainEnd.lif.nextTag = s.lif.nextTag ∧
    s.powerDownDrainEnd.lif.erroredBursts = s.lif.erroredBursts ∧
    s.powerDownDrainEnd.lif.burstTaken = s.lif.burstTaken ∧
    s.powerDownDrainEnd.lif.burstErrored = s.lif.burstErrored ∧
    s.powerDownDrainEnd.lif.burstDropped = s.lif.burstDropped ∧ s.powerDownDrainEnd.lif.session = s.lif.session ∧
    s.powerDownDrainEnd.cru = s.cru ∧ s.powerDownDrainEnd.btc = s.btc ∧ s.powerDownDrainEnd.kst = s.kst ∧
    s.powerDownDrainEnd.rtb = s.rtb ∧ s.powerDownDrainEnd.dpu = s.dpu ∧ s.powerDownDrainEnd.rke = s.rke ∧
    s.powerDownDrainEnd.rsu = s.rsu ∧ s.powerDownDrainEnd.wpe = s.wpe ∧ s.powerDownDrainEnd.sst.units = s.sst.units ∧
    s.powerDownDrainEnd.sst.labelCopy = s.sst.labelCopy ∧ s.powerDownDrainEnd.sst.marks = s.sst.marks ∧
    s.powerDownDrainEnd.sst.queue = s.sst.queue ∧ s.powerDownDrainEnd.sst.waiting = s.sst.waiting ∧
    s.powerDownDrainEnd.sst.serving = s.sst.serving ∧ s.powerDownDrainEnd.sst.lastDevice = s.sst.lastDevice ∧
    s.powerDownDrainEnd.sst.seconds = s.sst.seconds ∧ s.powerDownDrainEnd.sst.power = s.sst.power ∧
    s.powerDownDrainEnd.sst.downMark = s.sst.downMark ∧ s.powerDownDrainEnd.sst.ready = s.sst.ready ∧
    s.powerDownDrainEnd.sst.retention = s.sst.retention ∧ s.powerDownDrainEnd.fresh = s.fresh := by
  unfold State.powerDownDrainEnd; (try dsimp only); (repeat' split) <;> first | (simp; done) | simp [apply_ite]

@[simp] theorem State.reseal_frame (s : State) : s.reseal.lif = s.lif ∧ s.reseal.cru = s.cru ∧
    s.reseal.kst.hold = s.kst.hold ∧ s.reseal.kst.reservation = s.kst.reservation ∧
    s.reseal.rtb.resealOnWake = s.rtb.resealOnWake ∧ s.reseal.rtb.staged = s.rtb.staged ∧
    s.reseal.rtb.commit = s.rtb.commit ∧ s.reseal.rtb.preparing = s.rtb.preparing ∧
    s.reseal.rtb.startCommit = s.rtb.startCommit ∧ s.reseal.dpu = s.dpu ∧ s.reseal.rke = s.rke ∧
    s.reseal.rsu = s.rsu ∧ s.reseal.wpe = s.wpe ∧ s.reseal.sst = s.sst ∧ s.reseal.fresh = s.fresh ∧
    s.reseal.sent = s.sent := by
  unfold State.reseal; (try dsimp only); (repeat' split) <;> first | (simp; done) | simp [apply_ite]

@[simp] theorem State.reopen_frame (s : State) : s.reopen.lif.started = s.lif.started ∧
    s.reopen.lif.mediaCredits = s.lif.mediaCredits ∧ s.reopen.lif.capacity = s.lif.capacity ∧
    s.reopen.lif.imageBase = s.lif.imageBase ∧ s.reopen.lif.scratchBase = s.lif.scratchBase ∧
    s.reopen.lif.limitData = s.lif.limitData ∧ s.reopen.lif.limitControl = s.lif.limitControl ∧
    s.reopen.lif.limitPlatform = s.lif.limitPlatform ∧ s.reopen.lif.outstanding = s.lif.outstanding ∧
    s.reopen.lif.freeCredits = s.lif.freeCredits ∧ s.reopen.lif.nextTag = s.lif.nextTag ∧
    s.reopen.lif.erroredBursts = s.lif.erroredBursts ∧ s.reopen.lif.burstTaken = s.lif.burstTaken ∧
    s.reopen.lif.burstErrored = s.lif.burstErrored ∧ s.reopen.lif.burstDropped = s.lif.burstDropped ∧
    s.reopen.lif.session = s.lif.session ∧ s.reopen.cru = s.cru ∧ s.reopen.btc = s.btc ∧
    s.reopen.kst.reservation = s.kst.reservation ∧ s.reopen.rtb.resealOnWake = s.rtb.resealOnWake ∧
    s.reopen.rtb.staged = s.rtb.staged ∧ s.reopen.rtb.commit = s.rtb.commit ∧
    s.reopen.rtb.preparing = s.rtb.preparing ∧ s.reopen.rtb.startCommit = s.rtb.startCommit ∧ s.reopen.rsu = s.rsu ∧
    s.reopen.wpe = s.wpe ∧ s.reopen.sst.units = s.sst.units ∧ s.reopen.sst.labelCopy = s.sst.labelCopy ∧
    s.reopen.sst.marks = s.sst.marks ∧ s.reopen.sst.serving = s.sst.serving ∧
    s.reopen.sst.lastDevice = s.sst.lastDevice ∧ s.reopen.sst.seconds = s.sst.seconds ∧
    s.reopen.sst.power = s.sst.power ∧ s.reopen.sst.drain = s.sst.drain ∧ s.reopen.sst.downMark = s.sst.downMark ∧
    s.reopen.sst.ready = s.sst.ready ∧ s.reopen.sst.retention = s.sst.retention ∧ s.reopen.fresh = s.fresh := by
  unfold State.reopen; (try dsimp only); (repeat' split) <;> first | (simp; done) | simp [apply_ite]

@[simp] theorem State.resumeHeadJob_frame (s : State) : s.resumeHeadJob.lif = s.lif ∧ s.resumeHeadJob.cru = s.cru ∧
    s.resumeHeadJob.btc = s.btc ∧ s.resumeHeadJob.kst.loads = s.kst.loads ∧
    s.resumeHeadJob.kst.reservation = s.kst.reservation ∧ s.resumeHeadJob.rtb = s.rtb ∧ s.resumeHeadJob.dpu = s.dpu ∧
    s.resumeHeadJob.rsu = s.rsu ∧ s.resumeHeadJob.wpe = s.wpe ∧ s.resumeHeadJob.sst.units = s.sst.units ∧
    s.resumeHeadJob.sst.labelCopy = s.sst.labelCopy ∧ s.resumeHeadJob.sst.marks = s.sst.marks ∧
    s.resumeHeadJob.sst.serving = s.sst.serving ∧ s.resumeHeadJob.sst.lastDevice = s.sst.lastDevice ∧
    s.resumeHeadJob.sst.seconds = s.sst.seconds ∧ s.resumeHeadJob.sst.power = s.sst.power ∧
    s.resumeHeadJob.sst.drain = s.sst.drain ∧ s.resumeHeadJob.sst.downMark = s.sst.downMark ∧
    s.resumeHeadJob.sst.ready = s.sst.ready ∧ s.resumeHeadJob.sst.retention = s.sst.retention ∧
    s.resumeHeadJob.fresh = s.fresh ∧ s.resumeHeadJob.sent = s.sent := by
  unfold State.resumeHeadJob; (try dsimp only); (repeat' split) <;> first | (simp; done) | simp [apply_ite]

@[simp] theorem State.wake_frame (s : State) : s.wake.lif.started = s.lif.started ∧
    s.wake.lif.mediaCredits = s.lif.mediaCredits ∧ s.wake.lif.capacity = s.lif.capacity ∧
    s.wake.lif.imageBase = s.lif.imageBase ∧ s.wake.lif.scratchBase = s.lif.scratchBase ∧
    s.wake.lif.limitData = s.lif.limitData ∧ s.wake.lif.limitControl = s.lif.limitControl ∧
    s.wake.lif.limitPlatform = s.lif.limitPlatform ∧ s.wake.lif.outstanding = s.lif.outstanding ∧
    s.wake.lif.freeCredits = s.lif.freeCredits ∧ s.wake.lif.nextTag = s.lif.nextTag ∧
    s.wake.lif.erroredBursts = s.lif.erroredBursts ∧ s.wake.lif.burstTaken = s.lif.burstTaken ∧
    s.wake.lif.burstErrored = s.lif.burstErrored ∧ s.wake.lif.burstDropped = s.lif.burstDropped ∧
    s.wake.lif.session = s.lif.session ∧ s.wake.cru = s.cru ∧ s.wake.kst.reservation = s.kst.reservation ∧
    s.wake.rtb.resealOnWake = s.rtb.resealOnWake ∧ s.wake.rtb.staged = s.rtb.staged ∧
    s.wake.rtb.commit = s.rtb.commit ∧ s.wake.rtb.preparing = s.rtb.preparing ∧
    s.wake.rtb.startCommit = s.rtb.startCommit ∧ s.wake.wpe = s.wpe ∧ s.wake.sst.units = s.sst.units ∧
    s.wake.sst.labelCopy = s.sst.labelCopy ∧ s.wake.sst.marks = s.sst.marks ∧ s.wake.sst.serving = s.sst.serving ∧
    s.wake.sst.lastDevice = s.sst.lastDevice ∧ s.wake.sst.seconds = s.sst.seconds ∧ s.wake.sst.drain = s.sst.drain ∧
    s.wake.sst.ready = s.sst.ready ∧ s.wake.sst.retention = s.sst.retention ∧ s.wake.fresh = s.fresh := by
  unfold State.wake; (try dsimp only); (repeat' split) <;> first | (simp; done) | simp [apply_ite]

@[simp] theorem State.standbyExit_frame (s : State) (rto : ReplyTo) :
    (s.standbyExit rto).lif.started = s.lif.started ∧ (s.standbyExit rto).lif.mediaCredits = s.lif.mediaCredits ∧
    (s.standbyExit rto).lif.capacity = s.lif.capacity ∧ (s.standbyExit rto).lif.imageBase = s.lif.imageBase ∧
    (s.standbyExit rto).lif.scratchBase = s.lif.scratchBase ∧ (s.standbyExit rto).lif.limitData = s.lif.limitData ∧
    (s.standbyExit rto).lif.limitControl = s.lif.limitControl ∧
    (s.standbyExit rto).lif.limitPlatform = s.lif.limitPlatform ∧
    (s.standbyExit rto).lif.outstanding = s.lif.outstanding ∧
    (s.standbyExit rto).lif.freeCredits = s.lif.freeCredits ∧ (s.standbyExit rto).lif.nextTag = s.lif.nextTag ∧
    (s.standbyExit rto).lif.erroredBursts = s.lif.erroredBursts ∧
    (s.standbyExit rto).lif.burstTaken = s.lif.burstTaken ∧
    (s.standbyExit rto).lif.burstErrored = s.lif.burstErrored ∧
    (s.standbyExit rto).lif.burstDropped = s.lif.burstDropped ∧ (s.standbyExit rto).lif.session = s.lif.session ∧
    (s.standbyExit rto).cru = s.cru ∧ (s.standbyExit rto).rtb.preparing = s.rtb.preparing ∧
    (s.standbyExit rto).rtb.startCommit = s.rtb.startCommit ∧ (s.standbyExit rto).wpe = s.wpe ∧
    (s.standbyExit rto).sst.units = s.sst.units ∧ (s.standbyExit rto).sst.labelCopy = s.sst.labelCopy ∧
    (s.standbyExit rto).sst.marks = s.sst.marks ∧ (s.standbyExit rto).sst.serving = s.sst.serving ∧
    (s.standbyExit rto).sst.lastDevice = s.sst.lastDevice ∧ (s.standbyExit rto).sst.seconds = s.sst.seconds ∧
    (s.standbyExit rto).sst.drain = s.sst.drain ∧ (s.standbyExit rto).sst.ready = s.sst.ready ∧
    (s.standbyExit rto).sst.retention = s.sst.retention := by
  unfold State.standbyExit; (try dsimp only); (repeat' split) <;> first | (simp; done) | simp [apply_ite]

@[simp] theorem State.retentionLost_frame (s : State) : s.retentionLost.lif = s.lif ∧ s.retentionLost.cru = s.cru ∧
    s.retentionLost.btc = s.btc ∧ s.retentionLost.kst = s.kst ∧ s.retentionLost.rtb = s.rtb ∧
    s.retentionLost.dpu = s.dpu ∧ s.retentionLost.rke = s.rke ∧ s.retentionLost.wpe = s.wpe ∧
    s.retentionLost.sst.units = s.sst.units ∧ s.retentionLost.sst.labelCopy = s.sst.labelCopy ∧
    s.retentionLost.sst.marks = s.sst.marks ∧ s.retentionLost.sst.queue = s.sst.queue ∧
    s.retentionLost.sst.waiting = s.sst.waiting ∧ s.retentionLost.sst.serving = s.sst.serving ∧
    s.retentionLost.sst.lastDevice = s.sst.lastDevice ∧ s.retentionLost.sst.seconds = s.sst.seconds ∧
    s.retentionLost.sst.drain = s.sst.drain ∧ s.retentionLost.sst.downMark = s.sst.downMark ∧
    s.retentionLost.sst.ready = s.sst.ready ∧ s.retentionLost.fresh = s.fresh ∧ s.retentionLost.sent = s.sent := by
  unfold State.retentionLost; (try dsimp only); (repeat' split) <;> first | (simp; done) | simp [apply_ite]

@[simp] theorem State.cutStore_frame (s : State) : s.cutStore.lif = s.lif ∧ s.cutStore.cru = s.cru ∧
    s.cutStore.btc = s.btc ∧ s.cutStore.kst = s.kst ∧ s.cutStore.rtb = s.rtb ∧ s.cutStore.dpu = s.dpu ∧
    s.cutStore.rke = s.rke ∧ s.cutStore.rsu = s.rsu ∧ s.cutStore.wpe = s.wpe ∧
    s.cutStore.sst.labelCopy = s.sst.labelCopy ∧ s.cutStore.sst.marks = s.sst.marks ∧
    s.cutStore.sst.lastDevice = s.sst.lastDevice ∧ s.cutStore.sst.seconds = s.sst.seconds ∧
    s.cutStore.sst.power = s.sst.power ∧ s.cutStore.sst.drain = s.sst.drain ∧
    s.cutStore.sst.downMark = s.sst.downMark ∧ s.cutStore.sst.ready = s.sst.ready ∧
    s.cutStore.sst.retention = s.sst.retention ∧ s.cutStore.fresh = s.fresh ∧ s.cutStore.sent = s.sent := by
  unfold State.cutStore; (try dsimp only); (repeat' split) <;> first | (simp; done) | simp [apply_ite]

@[simp] theorem State.blackout_frame (s : State) : s.blackout.rtb.entries = s.rtb.entries ∧
    s.blackout.rtb.resealOnWake = s.rtb.resealOnWake ∧ s.blackout.rtb.staged = s.rtb.staged ∧ s.blackout.wpe = s.wpe ∧
    s.blackout.sst = s.sst ∧ s.blackout.fresh = s.fresh ∧ s.blackout.sent = s.sent := by
  unfold State.blackout; (try dsimp only); (repeat' split) <;> first | (simp; done) | simp [apply_ite]

@[simp] theorem State.mainRemoved_frame (s : State) : s.mainRemoved.rtb.entries = s.rtb.entries ∧
    s.mainRemoved.rtb.resealOnWake = s.rtb.resealOnWake ∧ s.mainRemoved.rtb.staged = s.rtb.staged ∧
    s.mainRemoved.wpe = s.wpe ∧ s.mainRemoved.sst.labelCopy = s.sst.labelCopy ∧
    s.mainRemoved.sst.marks = s.sst.marks ∧ s.mainRemoved.sst.lastDevice = s.sst.lastDevice ∧
    s.mainRemoved.sst.seconds = s.sst.seconds ∧ s.mainRemoved.sst.retention = s.sst.retention ∧
    s.mainRemoved.fresh = s.fresh ∧ s.mainRemoved.sent = s.sent := by
  unfold State.mainRemoved; (try dsimp only); (repeat' split) <;> first | (simp; done) | simp [apply_ite]

/-! ### Operations of the start-up -/

@[simp] theorem State.readStore_frame (s : State) (u : StartInputs) : (s.readStore u).cru = s.cru ∧
    (s.readStore u).btc = s.btc ∧ (s.readStore u).kst = s.kst ∧ (s.readStore u).rtb = s.rtb ∧
    (s.readStore u).rke = s.rke ∧ (s.readStore u).rsu = s.rsu ∧ (s.readStore u).wpe = s.wpe ∧
    (s.readStore u).sst.labelCopy = s.sst.labelCopy ∧ (s.readStore u).sst.retention = s.sst.retention ∧
    (s.readStore u).fresh = s.fresh ∧ (s.readStore u).sent = s.sent := by
  unfold State.readStore; (try dsimp only); (repeat' split) <;> first | (simp; done) | simp [apply_ite]

@[simp] theorem State.rebuildCreds_frame (s : State) : s.rebuildCreds.lif = s.lif ∧ s.rebuildCreds.btc = s.btc ∧
    s.rebuildCreds.kst = s.kst ∧ s.rebuildCreds.rtb = s.rtb ∧ s.rebuildCreds.dpu = s.dpu ∧
    s.rebuildCreds.rke = s.rke ∧ s.rebuildCreds.rsu = s.rsu ∧ s.rebuildCreds.wpe = s.wpe ∧
    s.rebuildCreds.sst.units = s.sst.units ∧ s.rebuildCreds.sst.labelCopy = s.sst.labelCopy ∧
    s.rebuildCreds.sst.marks = s.sst.marks ∧ s.rebuildCreds.sst.serving = s.sst.serving ∧
    s.rebuildCreds.sst.lastDevice = s.sst.lastDevice ∧ s.rebuildCreds.sst.seconds = s.sst.seconds ∧
    s.rebuildCreds.sst.power = s.sst.power ∧ s.rebuildCreds.sst.drain = s.sst.drain ∧
    s.rebuildCreds.sst.downMark = s.sst.downMark ∧ s.rebuildCreds.sst.ready = s.sst.ready ∧
    s.rebuildCreds.sst.retention = s.sst.retention ∧ s.rebuildCreds.fresh = s.fresh ∧
    s.rebuildCreds.sent = s.sent := by
  unfold State.rebuildCreds; (try dsimp only); (repeat' split) <;> first | (simp; done) | simp [apply_ite]

@[simp] theorem State.rebuildKeys_frame (s : State) : s.rebuildKeys.lif = s.lif ∧ s.rebuildKeys.cru = s.cru ∧
    s.rebuildKeys.btc = s.btc ∧ s.rebuildKeys.rtb = s.rtb ∧ s.rebuildKeys.dpu = s.dpu ∧ s.rebuildKeys.rke = s.rke ∧
    s.rebuildKeys.rsu = s.rsu ∧ s.rebuildKeys.wpe = s.wpe ∧ s.rebuildKeys.sst = s.sst ∧
    s.rebuildKeys.fresh = s.fresh ∧ s.rebuildKeys.sent = s.sent := by
  unfold State.rebuildKeys; (try dsimp only); (repeat' split) <;> first | (simp; done) | simp [apply_ite]

@[simp] theorem State.rebuildStage_frame (s : State) : s.rebuildStage.lif = s.lif ∧ s.rebuildStage.cru = s.cru ∧
    s.rebuildStage.btc = s.btc ∧ s.rebuildStage.kst = s.kst ∧ s.rebuildStage.rtb.entries = s.rtb.entries ∧
    s.rebuildStage.rtb.resealOnWake = s.rtb.resealOnWake ∧ s.rebuildStage.rtb.commit = s.rtb.commit ∧
    s.rebuildStage.rtb.preparing = s.rtb.preparing ∧ s.rebuildStage.rtb.startCommit = s.rtb.startCommit ∧
    s.rebuildStage.dpu = s.dpu ∧ s.rebuildStage.rke = s.rke ∧ s.rebuildStage.rsu = s.rsu ∧
    s.rebuildStage.wpe = s.wpe ∧ s.rebuildStage.sst.units = s.sst.units ∧
    s.rebuildStage.sst.labelCopy = s.sst.labelCopy ∧ s.rebuildStage.sst.marks = s.sst.marks ∧
    s.rebuildStage.sst.serving = s.sst.serving ∧ s.rebuildStage.sst.lastDevice = s.sst.lastDevice ∧
    s.rebuildStage.sst.seconds = s.sst.seconds ∧ s.rebuildStage.sst.power = s.sst.power ∧
    s.rebuildStage.sst.drain = s.sst.drain ∧ s.rebuildStage.sst.downMark = s.sst.downMark ∧
    s.rebuildStage.sst.ready = s.sst.ready ∧ s.rebuildStage.sst.retention = s.sst.retention ∧
    s.rebuildStage.fresh = s.fresh ∧ s.rebuildStage.sent = s.sent := by
  unfold State.rebuildStage; (try dsimp only); (repeat' split) <;> first | (simp; done) | simp [apply_ite]

@[simp] theorem State.rebuildTable_frame (s : State) : s.rebuildTable.lif = s.lif ∧ s.rebuildTable.cru = s.cru ∧
    s.rebuildTable.btc = s.btc ∧ s.rebuildTable.kst = s.kst ∧ s.rebuildTable.dpu = s.dpu ∧
    s.rebuildTable.rke = s.rke ∧ s.rebuildTable.rsu = s.rsu ∧ s.rebuildTable.wpe = s.wpe ∧
    s.rebuildTable.sst.units = s.sst.units ∧ s.rebuildTable.sst.labelCopy = s.sst.labelCopy ∧
    s.rebuildTable.sst.marks = s.sst.marks ∧ s.rebuildTable.sst.serving = s.sst.serving ∧
    s.rebuildTable.sst.lastDevice = s.sst.lastDevice ∧ s.rebuildTable.sst.seconds = s.sst.seconds ∧
    s.rebuildTable.sst.power = s.sst.power ∧ s.rebuildTable.sst.drain = s.sst.drain ∧
    s.rebuildTable.sst.downMark = s.sst.downMark ∧ s.rebuildTable.sst.ready = s.sst.ready ∧
    s.rebuildTable.sst.retention = s.sst.retention ∧ s.rebuildTable.fresh = s.fresh ∧
    s.rebuildTable.sent = s.sent := by
  unfold State.rebuildTable; (try dsimp only); (repeat' split) <;> first | (simp; done) | simp [apply_ite]

@[simp] theorem State.resolveRange_frame (s : State) (r : Nat) : (s.resolveRange r).lif = s.lif ∧
    (s.resolveRange r).cru = s.cru ∧ (s.resolveRange r).btc = s.btc ∧ (s.resolveRange r).kst = s.kst ∧
    (s.resolveRange r).rtb.resealOnWake = s.rtb.resealOnWake ∧ (s.resolveRange r).rtb.staged = s.rtb.staged ∧
    (s.resolveRange r).rtb.commit = s.rtb.commit ∧ (s.resolveRange r).rtb.preparing = s.rtb.preparing ∧
    (s.resolveRange r).rtb.startCommit = s.rtb.startCommit ∧ (s.resolveRange r).dpu = s.dpu ∧
    (s.resolveRange r).rke = s.rke ∧ (s.resolveRange r).rsu = s.rsu ∧ (s.resolveRange r).wpe = s.wpe ∧
    (s.resolveRange r).sst.units = s.sst.units ∧ (s.resolveRange r).sst.labelCopy = s.sst.labelCopy ∧
    (s.resolveRange r).sst.marks = s.sst.marks ∧ (s.resolveRange r).sst.serving = s.sst.serving ∧
    (s.resolveRange r).sst.lastDevice = s.sst.lastDevice ∧ (s.resolveRange r).sst.seconds = s.sst.seconds ∧
    (s.resolveRange r).sst.power = s.sst.power ∧ (s.resolveRange r).sst.drain = s.sst.drain ∧
    (s.resolveRange r).sst.downMark = s.sst.downMark ∧ (s.resolveRange r).sst.ready = s.sst.ready ∧
    (s.resolveRange r).sst.retention = s.sst.retention ∧ (s.resolveRange r).fresh = s.fresh ∧
    (s.resolveRange r).sent = s.sent := by
  unfold State.resolveRange; (try dsimp only); (repeat' split) <;> first | (simp; done) | simp [apply_ite]

@[simp] theorem State.resolveEnvelopes_frame (s : State) : s.resolveEnvelopes.lif = s.lif ∧
    s.resolveEnvelopes.cru = s.cru ∧ s.resolveEnvelopes.btc = s.btc ∧ s.resolveEnvelopes.kst = s.kst ∧
    s.resolveEnvelopes.rtb.resealOnWake = s.rtb.resealOnWake ∧ s.resolveEnvelopes.rtb.commit = s.rtb.commit ∧
    s.resolveEnvelopes.rtb.preparing = s.rtb.preparing ∧ s.resolveEnvelopes.rtb.startCommit = s.rtb.startCommit ∧
    s.resolveEnvelopes.dpu = s.dpu ∧ s.resolveEnvelopes.rke = s.rke ∧ s.resolveEnvelopes.rsu = s.rsu ∧
    s.resolveEnvelopes.wpe = s.wpe ∧ s.resolveEnvelopes.sst.units = s.sst.units ∧
    s.resolveEnvelopes.sst.labelCopy = s.sst.labelCopy ∧ s.resolveEnvelopes.sst.marks = s.sst.marks ∧
    s.resolveEnvelopes.sst.serving = s.sst.serving ∧ s.resolveEnvelopes.sst.lastDevice = s.sst.lastDevice ∧
    s.resolveEnvelopes.sst.seconds = s.sst.seconds ∧ s.resolveEnvelopes.sst.power = s.sst.power ∧
    s.resolveEnvelopes.sst.drain = s.sst.drain ∧ s.resolveEnvelopes.sst.downMark = s.sst.downMark ∧
    s.resolveEnvelopes.sst.ready = s.sst.ready ∧ s.resolveEnvelopes.sst.retention = s.sst.retention ∧
    s.resolveEnvelopes.fresh = s.fresh ∧ s.resolveEnvelopes.sent = s.sent := by
  unfold State.resolveEnvelopes; (try dsimp only); (repeat' split) <;> first | (simp; done) | simp [apply_ite]

@[simp] theorem State.takeSplit_frame (s : State) (a : ActiveJob) (w : Nat) : (s.takeSplit a w).lif = s.lif ∧
    (s.takeSplit a w).cru = s.cru ∧ (s.takeSplit a w).btc = s.btc ∧ (s.takeSplit a w).kst = s.kst ∧
    (s.takeSplit a w).rtb.resealOnWake = s.rtb.resealOnWake ∧ (s.takeSplit a w).rtb.staged = s.rtb.staged ∧
    (s.takeSplit a w).rtb.commit = s.rtb.commit ∧ (s.takeSplit a w).rtb.preparing = s.rtb.preparing ∧
    (s.takeSplit a w).rtb.startCommit = s.rtb.startCommit ∧ (s.takeSplit a w).dpu = s.dpu ∧
    (s.takeSplit a w).rke = s.rke ∧ (s.takeSplit a w).rsu = s.rsu ∧ (s.takeSplit a w).wpe = s.wpe ∧
    (s.takeSplit a w).sst = s.sst ∧ (s.takeSplit a w).fresh = s.fresh ∧ (s.takeSplit a w).sent = s.sent := by
  unfold State.takeSplit; (try dsimp only); (repeat' split) <;> first | (simp; done) | simp [apply_ite]

@[simp] theorem State.recoverJob_frame (s : State) (a : ActiveJob) (rest : List Job) (p : Option (Option ProgressJob)) :
    (s.recoverJob a rest p).lif = s.lif ∧ (s.recoverJob a rest p).cru = s.cru ∧ (s.recoverJob a rest p).btc = s.btc ∧
    (s.recoverJob a rest p).kst = s.kst ∧ (s.recoverJob a rest p).rtb.resealOnWake = s.rtb.resealOnWake ∧
    (s.recoverJob a rest p).rtb.staged = s.rtb.staged ∧ (s.recoverJob a rest p).rtb.commit = s.rtb.commit ∧
    (s.recoverJob a rest p).rtb.preparing = s.rtb.preparing ∧
    (s.recoverJob a rest p).rtb.startCommit = s.rtb.startCommit ∧ (s.recoverJob a rest p).dpu = s.dpu ∧
    (s.recoverJob a rest p).rsu = s.rsu ∧ (s.recoverJob a rest p).wpe = s.wpe ∧ (s.recoverJob a rest p).sst = s.sst ∧
    (s.recoverJob a rest p).fresh = s.fresh ∧ (s.recoverJob a rest p).sent = s.sent := by
  unfold State.recoverJob; (try dsimp only); (repeat' split) <;> first | (simp; done) | simp [apply_ite]

@[simp] theorem State.finishRecovered_frame (s : State) (a : ActiveJob) (rest : List Job) :
    (s.finishRecovered a rest).lif = s.lif ∧ (s.finishRecovered a rest).cru = s.cru ∧
    (s.finishRecovered a rest).btc = s.btc ∧ (s.finishRecovered a rest).kst = s.kst ∧
    (s.finishRecovered a rest).rtb = s.rtb ∧ (s.finishRecovered a rest).dpu = s.dpu ∧
    (s.finishRecovered a rest).rsu = s.rsu ∧ (s.finishRecovered a rest).wpe = s.wpe ∧
    (s.finishRecovered a rest).sst.units = s.sst.units ∧ (s.finishRecovered a rest).sst.labelCopy = s.sst.labelCopy ∧
    (s.finishRecovered a rest).sst.marks = s.sst.marks ∧ (s.finishRecovered a rest).sst.serving = s.sst.serving ∧
    (s.finishRecovered a rest).sst.lastDevice = s.sst.lastDevice ∧
    (s.finishRecovered a rest).sst.seconds = s.sst.seconds ∧ (s.finishRecovered a rest).sst.power = s.sst.power ∧
    (s.finishRecovered a rest).sst.drain = s.sst.drain ∧ (s.finishRecovered a rest).sst.downMark = s.sst.downMark ∧
    (s.finishRecovered a rest).sst.ready = s.sst.ready ∧ (s.finishRecovered a rest).sst.retention = s.sst.retention ∧
    (s.finishRecovered a rest).fresh = s.fresh ∧ (s.finishRecovered a rest).sent = s.sent := by
  unfold State.finishRecovered; (try dsimp only); (repeat' split) <;> first | (simp; done) | simp [apply_ite]

@[simp] theorem State.recoverJobs_frame (s : State) (q : QueuePart) (p : Option (Option ProgressJob)) :
    (s.recoverJobs q p).lif = s.lif ∧ (s.recoverJobs q p).cru = s.cru ∧ (s.recoverJobs q p).btc = s.btc ∧
    (s.recoverJobs q p).kst = s.kst ∧ (s.recoverJobs q p).rtb.resealOnWake = s.rtb.resealOnWake ∧
    (s.recoverJobs q p).rtb.staged = s.rtb.staged ∧ (s.recoverJobs q p).rtb.commit = s.rtb.commit ∧
    (s.recoverJobs q p).rtb.preparing = s.rtb.preparing ∧ (s.recoverJobs q p).rtb.startCommit = s.rtb.startCommit ∧
    (s.recoverJobs q p).dpu = s.dpu ∧ (s.recoverJobs q p).rsu = s.rsu ∧ (s.recoverJobs q p).wpe = s.wpe ∧
    (s.recoverJobs q p).sst.units = s.sst.units ∧ (s.recoverJobs q p).sst.labelCopy = s.sst.labelCopy ∧
    (s.recoverJobs q p).sst.marks = s.sst.marks ∧ (s.recoverJobs q p).sst.serving = s.sst.serving ∧
    (s.recoverJobs q p).sst.lastDevice = s.sst.lastDevice ∧ (s.recoverJobs q p).sst.seconds = s.sst.seconds ∧
    (s.recoverJobs q p).sst.power = s.sst.power ∧ (s.recoverJobs q p).sst.drain = s.sst.drain ∧
    (s.recoverJobs q p).sst.downMark = s.sst.downMark ∧ (s.recoverJobs q p).sst.ready = s.sst.ready ∧
    (s.recoverJobs q p).sst.retention = s.sst.retention ∧ (s.recoverJobs q p).fresh = s.fresh ∧
    (s.recoverJobs q p).sent = s.sent := by
  unfold State.recoverJobs; (try dsimp only); (repeat' split) <;> first | (simp; done) | simp [apply_ite]

@[simp] theorem State.loseSplit_frame (s : State) (r : Nat) : (s.loseSplit r).lif = s.lif ∧
    (s.loseSplit r).cru = s.cru ∧ (s.loseSplit r).btc = s.btc ∧ (s.loseSplit r).kst = s.kst ∧
    (s.loseSplit r).rtb.resealOnWake = s.rtb.resealOnWake ∧ (s.loseSplit r).rtb.staged = s.rtb.staged ∧
    (s.loseSplit r).rtb.commit = s.rtb.commit ∧ (s.loseSplit r).rtb.preparing = s.rtb.preparing ∧
    (s.loseSplit r).rtb.startCommit = s.rtb.startCommit ∧ (s.loseSplit r).dpu = s.dpu ∧ (s.loseSplit r).rke = s.rke ∧
    (s.loseSplit r).rsu = s.rsu ∧ (s.loseSplit r).wpe = s.wpe ∧ (s.loseSplit r).sst.units = s.sst.units ∧
    (s.loseSplit r).sst.labelCopy = s.sst.labelCopy ∧ (s.loseSplit r).sst.marks = s.sst.marks ∧
    (s.loseSplit r).sst.serving = s.sst.serving ∧ (s.loseSplit r).sst.lastDevice = s.sst.lastDevice ∧
    (s.loseSplit r).sst.seconds = s.sst.seconds ∧ (s.loseSplit r).sst.power = s.sst.power ∧
    (s.loseSplit r).sst.drain = s.sst.drain ∧ (s.loseSplit r).sst.downMark = s.sst.downMark ∧
    (s.loseSplit r).sst.ready = s.sst.ready ∧ (s.loseSplit r).sst.retention = s.sst.retention ∧
    (s.loseSplit r).fresh = s.fresh ∧ (s.loseSplit r).sent = s.sent := by
  unfold State.loseSplit; (try dsimp only); (repeat' split) <;> first | (simp; done) | simp [apply_ite]

@[simp] theorem State.rebuildRekey_frame (s : State) : s.rebuildRekey.lif = s.lif ∧ s.rebuildRekey.cru = s.cru ∧
    s.rebuildRekey.btc = s.btc ∧ s.rebuildRekey.kst = s.kst ∧ s.rebuildRekey.rtb.resealOnWake = s.rtb.resealOnWake ∧
    s.rebuildRekey.rtb.staged = s.rtb.staged ∧ s.rebuildRekey.rtb.commit = s.rtb.commit ∧
    s.rebuildRekey.rtb.preparing = s.rtb.preparing ∧ s.rebuildRekey.rtb.startCommit = s.rtb.startCommit ∧
    s.rebuildRekey.dpu = s.dpu ∧ s.rebuildRekey.rsu = s.rsu ∧ s.rebuildRekey.wpe = s.wpe ∧
    s.rebuildRekey.sst.units = s.sst.units ∧ s.rebuildRekey.sst.labelCopy = s.sst.labelCopy ∧
    s.rebuildRekey.sst.marks = s.sst.marks ∧ s.rebuildRekey.sst.serving = s.sst.serving ∧
    s.rebuildRekey.sst.lastDevice = s.sst.lastDevice ∧ s.rebuildRekey.sst.seconds = s.sst.seconds ∧
    s.rebuildRekey.sst.power = s.sst.power ∧ s.rebuildRekey.sst.drain = s.sst.drain ∧
    s.rebuildRekey.sst.downMark = s.sst.downMark ∧ s.rebuildRekey.sst.ready = s.sst.ready ∧
    s.rebuildRekey.sst.retention = s.sst.retention ∧ s.rebuildRekey.fresh = s.fresh ∧
    s.rebuildRekey.sent = s.sent := by
  unfold State.rebuildRekey; (try dsimp only); (repeat' split) <;> first | (simp; done) | simp [apply_ite]

@[simp] theorem State.loseNamed_frame (s : State) (r : Nat) : (s.loseNamed r).lif = s.lif ∧
    (s.loseNamed r).cru = s.cru ∧ (s.loseNamed r).btc = s.btc ∧ (s.loseNamed r).kst = s.kst ∧
    (s.loseNamed r).rtb.resealOnWake = s.rtb.resealOnWake ∧ (s.loseNamed r).rtb.staged = s.rtb.staged ∧
    (s.loseNamed r).rtb.commit = s.rtb.commit ∧ (s.loseNamed r).rtb.preparing = s.rtb.preparing ∧
    (s.loseNamed r).rtb.startCommit = s.rtb.startCommit ∧ (s.loseNamed r).dpu = s.dpu ∧ (s.loseNamed r).rke = s.rke ∧
    (s.loseNamed r).rsu = s.rsu ∧ (s.loseNamed r).wpe = s.wpe ∧ (s.loseNamed r).sst.units = s.sst.units ∧
    (s.loseNamed r).sst.labelCopy = s.sst.labelCopy ∧ (s.loseNamed r).sst.marks = s.sst.marks ∧
    (s.loseNamed r).sst.serving = s.sst.serving ∧ (s.loseNamed r).sst.lastDevice = s.sst.lastDevice ∧
    (s.loseNamed r).sst.seconds = s.sst.seconds ∧ (s.loseNamed r).sst.power = s.sst.power ∧
    (s.loseNamed r).sst.drain = s.sst.drain ∧ (s.loseNamed r).sst.downMark = s.sst.downMark ∧
    (s.loseNamed r).sst.ready = s.sst.ready ∧ (s.loseNamed r).sst.retention = s.sst.retention ∧
    (s.loseNamed r).fresh = s.fresh ∧ (s.loseNamed r).sent = s.sent := by
  unfold State.loseNamed; (try dsimp only); (repeat' split) <;> first | (simp; done) | simp [apply_ite]

@[simp] theorem State.loseAllNamed_frame (s : State) : s.loseAllNamed.lif = s.lif ∧ s.loseAllNamed.cru = s.cru ∧
    s.loseAllNamed.btc = s.btc ∧ s.loseAllNamed.kst = s.kst ∧ s.loseAllNamed.rtb.resealOnWake = s.rtb.resealOnWake ∧
    s.loseAllNamed.rtb.staged = s.rtb.staged ∧ s.loseAllNamed.rtb.commit = s.rtb.commit ∧
    s.loseAllNamed.rtb.preparing = s.rtb.preparing ∧ s.loseAllNamed.rtb.startCommit = s.rtb.startCommit ∧
    s.loseAllNamed.dpu = s.dpu ∧ s.loseAllNamed.rke = s.rke ∧ s.loseAllNamed.rsu = s.rsu ∧
    s.loseAllNamed.wpe = s.wpe ∧ s.loseAllNamed.sst.units = s.sst.units ∧
    s.loseAllNamed.sst.labelCopy = s.sst.labelCopy ∧ s.loseAllNamed.sst.marks = s.sst.marks ∧
    s.loseAllNamed.sst.serving = s.sst.serving ∧ s.loseAllNamed.sst.lastDevice = s.sst.lastDevice ∧
    s.loseAllNamed.sst.seconds = s.sst.seconds ∧ s.loseAllNamed.sst.power = s.sst.power ∧
    s.loseAllNamed.sst.drain = s.sst.drain ∧ s.loseAllNamed.sst.downMark = s.sst.downMark ∧
    s.loseAllNamed.sst.ready = s.sst.ready ∧ s.loseAllNamed.sst.retention = s.sst.retention ∧
    s.loseAllNamed.fresh = s.fresh ∧ s.loseAllNamed.sent = s.sent := by
  unfold State.loseAllNamed; (try dsimp only); (repeat' split) <;> first | (simp; done) | simp [apply_ite]

@[simp] theorem State.loseKeys_frame (s : State) : s.loseKeys.lif = s.lif ∧ s.loseKeys.cru = s.cru ∧
    s.loseKeys.btc = s.btc ∧ s.loseKeys.kst = s.kst ∧ s.loseKeys.rtb.resealOnWake = s.rtb.resealOnWake ∧
    s.loseKeys.rtb.staged = s.rtb.staged ∧ s.loseKeys.rtb.commit = s.rtb.commit ∧
    s.loseKeys.rtb.preparing = s.rtb.preparing ∧ s.loseKeys.rtb.startCommit = s.rtb.startCommit ∧
    s.loseKeys.dpu = s.dpu ∧ s.loseKeys.rke = s.rke ∧ s.loseKeys.rsu = s.rsu ∧ s.loseKeys.wpe = s.wpe ∧
    s.loseKeys.sst.units = s.sst.units ∧ s.loseKeys.sst.labelCopy = s.sst.labelCopy ∧
    s.loseKeys.sst.marks = s.sst.marks ∧ s.loseKeys.sst.serving = s.sst.serving ∧
    s.loseKeys.sst.lastDevice = s.sst.lastDevice ∧ s.loseKeys.sst.seconds = s.sst.seconds ∧
    s.loseKeys.sst.power = s.sst.power ∧ s.loseKeys.sst.drain = s.sst.drain ∧
    s.loseKeys.sst.downMark = s.sst.downMark ∧ s.loseKeys.sst.ready = s.sst.ready ∧
    s.loseKeys.sst.retention = s.sst.retention ∧ s.loseKeys.fresh = s.fresh ∧ s.loseKeys.sent = s.sent := by
  unfold State.loseKeys; (try dsimp only); (repeat' split) <;> first | (simp; done) | simp [apply_ite]

@[simp] theorem State.startApply_frame (s : State) (p : Plan) (l : StagedList) : (s.startApply p l).lif = s.lif ∧
    (s.startApply p l).cru = s.cru ∧ (s.startApply p l).btc = s.btc ∧
    (s.startApply p l).kst.reservation = s.kst.reservation ∧ (s.startApply p l).rtb.commit = s.rtb.commit ∧
    (s.startApply p l).rtb.preparing = s.rtb.preparing ∧ (s.startApply p l).dpu = s.dpu ∧
    (s.startApply p l).rsu = s.rsu ∧ (s.startApply p l).wpe = s.wpe ∧ (s.startApply p l).sst.units = s.sst.units ∧
    (s.startApply p l).sst.labelCopy = s.sst.labelCopy ∧ (s.startApply p l).sst.marks = s.sst.marks ∧
    (s.startApply p l).sst.serving = s.sst.serving ∧ (s.startApply p l).sst.seconds = s.sst.seconds ∧
    (s.startApply p l).sst.power = s.sst.power ∧ (s.startApply p l).sst.drain = s.sst.drain ∧
    (s.startApply p l).sst.downMark = s.sst.downMark ∧ (s.startApply p l).sst.ready = s.sst.ready ∧
    (s.startApply p l).sst.retention = s.sst.retention ∧ (s.startApply p l).fresh = s.fresh := by
  unfold State.startApply; (try dsimp only); (repeat' split) <;> first | (simp; done) | simp [apply_ite]

@[simp] theorem State.startReject_frame (s : State) (l : StagedList) : (s.startReject l).lif = s.lif ∧
    (s.startReject l).cru = s.cru ∧ (s.startReject l).btc = s.btc ∧ (s.startReject l).kst.loads = s.kst.loads ∧
    (s.startReject l).kst.hold = s.kst.hold ∧ (s.startReject l).kst.reservation = s.kst.reservation ∧
    (s.startReject l).rtb.entries = s.rtb.entries ∧ (s.startReject l).rtb.resealOnWake = s.rtb.resealOnWake ∧
    (s.startReject l).rtb.commit = s.rtb.commit ∧ (s.startReject l).rtb.preparing = s.rtb.preparing ∧
    (s.startReject l).dpu = s.dpu ∧ (s.startReject l).rke = s.rke ∧ (s.startReject l).rsu = s.rsu ∧
    (s.startReject l).wpe = s.wpe ∧ (s.startReject l).sst.units = s.sst.units ∧
    (s.startReject l).sst.labelCopy = s.sst.labelCopy ∧ (s.startReject l).sst.marks = s.sst.marks ∧
    (s.startReject l).sst.serving = s.sst.serving ∧ (s.startReject l).sst.lastDevice = s.sst.lastDevice ∧
    (s.startReject l).sst.seconds = s.sst.seconds ∧ (s.startReject l).sst.power = s.sst.power ∧
    (s.startReject l).sst.drain = s.sst.drain ∧ (s.startReject l).sst.downMark = s.sst.downMark ∧
    (s.startReject l).sst.ready = s.sst.ready ∧ (s.startReject l).sst.retention = s.sst.retention ∧
    (s.startReject l).fresh = s.fresh ∧ (s.startReject l).sent = s.sent := by
  unfold State.startReject; (try dsimp only); (repeat' split) <;> first | (simp; done) | simp [apply_ite]

@[simp] theorem State.settleStaged_frame (s : State) : s.settleStaged.lif = s.lif ∧ s.settleStaged.cru = s.cru ∧
    s.settleStaged.btc = s.btc ∧ s.settleStaged.kst.reservation = s.kst.reservation ∧
    s.settleStaged.rtb.commit = s.rtb.commit ∧ s.settleStaged.rtb.preparing = s.rtb.preparing ∧
    s.settleStaged.dpu = s.dpu ∧ s.settleStaged.rsu = s.rsu ∧ s.settleStaged.wpe = s.wpe ∧
    s.settleStaged.sst.units = s.sst.units ∧ s.settleStaged.sst.labelCopy = s.sst.labelCopy ∧
    s.settleStaged.sst.marks = s.sst.marks ∧ s.settleStaged.sst.serving = s.sst.serving ∧
    s.settleStaged.sst.seconds = s.sst.seconds ∧ s.settleStaged.sst.power = s.sst.power ∧
    s.settleStaged.sst.drain = s.sst.drain ∧ s.settleStaged.sst.downMark = s.sst.downMark ∧
    s.settleStaged.sst.ready = s.sst.ready ∧ s.settleStaged.sst.retention = s.sst.retention ∧
    s.settleStaged.fresh = s.fresh := by
  unfold State.settleStaged; (try dsimp only); (repeat' split) <;> first | (simp; done) | simp [apply_ite]

@[simp] theorem State.handoffSlot_frame (s : State) (k : Nat) : (s.handoffSlot k).lif = s.lif ∧
    (s.handoffSlot k).cru = s.cru ∧ (s.handoffSlot k).btc = s.btc ∧ (s.handoffSlot k).kst.loads = s.kst.loads ∧
    (s.handoffSlot k).kst.hold = s.kst.hold ∧ (s.handoffSlot k).kst.reservation = s.kst.reservation ∧
    (s.handoffSlot k).rtb = s.rtb ∧ (s.handoffSlot k).dpu = s.dpu ∧ (s.handoffSlot k).rke = s.rke ∧
    (s.handoffSlot k).rsu = s.rsu ∧ (s.handoffSlot k).wpe = s.wpe ∧ (s.handoffSlot k).sst.units = s.sst.units ∧
    (s.handoffSlot k).sst.labelCopy = s.sst.labelCopy ∧ (s.handoffSlot k).sst.marks = s.sst.marks ∧
    (s.handoffSlot k).sst.serving = s.sst.serving ∧ (s.handoffSlot k).sst.lastDevice = s.sst.lastDevice ∧
    (s.handoffSlot k).sst.seconds = s.sst.seconds ∧ (s.handoffSlot k).sst.power = s.sst.power ∧
    (s.handoffSlot k).sst.drain = s.sst.drain ∧ (s.handoffSlot k).sst.downMark = s.sst.downMark ∧
    (s.handoffSlot k).sst.ready = s.sst.ready ∧ (s.handoffSlot k).sst.retention = s.sst.retention ∧
    (s.handoffSlot k).fresh = s.fresh ∧ (s.handoffSlot k).sent = s.sent := by
  unfold State.handoffSlot; (try dsimp only); (repeat' split) <;> first | (simp; done) | simp [apply_ite]

@[simp] theorem State.handoff_frame (s : State) : s.handoff.lif = s.lif ∧ s.handoff.cru = s.cru ∧
    s.handoff.btc = s.btc ∧ s.handoff.kst.loads = s.kst.loads ∧ s.handoff.kst.hold = s.kst.hold ∧
    s.handoff.kst.reservation = s.kst.reservation ∧ s.handoff.rtb = s.rtb ∧ s.handoff.dpu = s.dpu ∧
    s.handoff.rke = s.rke ∧ s.handoff.rsu = s.rsu ∧ s.handoff.wpe = s.wpe ∧ s.handoff.sst.units = s.sst.units ∧
    s.handoff.sst.labelCopy = s.sst.labelCopy ∧ s.handoff.sst.marks = s.sst.marks ∧
    s.handoff.sst.serving = s.sst.serving ∧ s.handoff.sst.lastDevice = s.sst.lastDevice ∧
    s.handoff.sst.seconds = s.sst.seconds ∧ s.handoff.sst.power = s.sst.power ∧ s.handoff.sst.drain = s.sst.drain ∧
    s.handoff.sst.downMark = s.sst.downMark ∧ s.handoff.sst.ready = s.sst.ready ∧
    s.handoff.sst.retention = s.sst.retention ∧ s.handoff.fresh = s.fresh ∧ s.handoff.sent = s.sent := by
  unfold State.handoff; (try dsimp only); (repeat' split) <;> first | (simp; done) | simp [apply_ite]

@[simp] theorem State.rebuildResponse_frame (s : State) : s.rebuildResponse.lif = s.lif ∧
    s.rebuildResponse.cru = s.cru ∧ s.rebuildResponse.btc = s.btc ∧ s.rebuildResponse.kst = s.kst ∧
    s.rebuildResponse.rtb = s.rtb ∧ s.rebuildResponse.dpu = s.dpu ∧ s.rebuildResponse.rke = s.rke ∧
    s.rebuildResponse.wpe = s.wpe ∧ s.rebuildResponse.sst.units = s.sst.units ∧
    s.rebuildResponse.sst.labelCopy = s.sst.labelCopy ∧ s.rebuildResponse.sst.marks = s.sst.marks ∧
    s.rebuildResponse.sst.serving = s.sst.serving ∧ s.rebuildResponse.sst.lastDevice = s.sst.lastDevice ∧
    s.rebuildResponse.sst.seconds = s.sst.seconds ∧ s.rebuildResponse.sst.power = s.sst.power ∧
    s.rebuildResponse.sst.drain = s.sst.drain ∧ s.rebuildResponse.sst.downMark = s.sst.downMark ∧
    s.rebuildResponse.sst.ready = s.sst.ready ∧ s.rebuildResponse.sst.retention = s.sst.retention ∧
    s.rebuildResponse.sent = s.sent := by
  unfold State.rebuildResponse; (try dsimp only); (repeat' split) <;> first | (simp; done) | simp [apply_ite]

@[simp] theorem State.rebuildChains_frame (s : State) : s.rebuildChains.lif = s.lif ∧ s.rebuildChains.cru = s.cru ∧
    s.rebuildChains.btc = s.btc ∧ s.rebuildChains.kst = s.kst ∧ s.rebuildChains.rtb = s.rtb ∧
    s.rebuildChains.dpu = s.dpu ∧ s.rebuildChains.rke = s.rke ∧ s.rebuildChains.rsu = s.rsu ∧
    s.rebuildChains.sst.units = s.sst.units ∧ s.rebuildChains.sst.labelCopy = s.sst.labelCopy ∧
    s.rebuildChains.sst.marks = s.sst.marks ∧ s.rebuildChains.sst.serving = s.sst.serving ∧
    s.rebuildChains.sst.lastDevice = s.sst.lastDevice ∧ s.rebuildChains.sst.seconds = s.sst.seconds ∧
    s.rebuildChains.sst.power = s.sst.power ∧ s.rebuildChains.sst.drain = s.sst.drain ∧
    s.rebuildChains.sst.downMark = s.sst.downMark ∧ s.rebuildChains.sst.ready = s.sst.ready ∧
    s.rebuildChains.sst.retention = s.sst.retention ∧ s.rebuildChains.fresh = s.fresh ∧
    s.rebuildChains.sent = s.sent := by
  unfold State.rebuildChains; (try dsimp only); (repeat' split) <;> first | (simp; done) | simp [apply_ite]

@[simp] theorem State.giveAgain_frame (s : State) : s.giveAgain.lif = s.lif ∧ s.giveAgain.cru = s.cru ∧
    s.giveAgain.btc = s.btc ∧ s.giveAgain.kst = s.kst ∧ s.giveAgain.rtb = s.rtb ∧ s.giveAgain.dpu = s.dpu ∧
    s.giveAgain.rke = s.rke ∧ s.giveAgain.rsu = s.rsu ∧ s.giveAgain.sst.units = s.sst.units ∧
    s.giveAgain.sst.labelCopy = s.sst.labelCopy ∧ s.giveAgain.sst.marks = s.sst.marks ∧
    s.giveAgain.sst.serving = s.sst.serving ∧ s.giveAgain.sst.lastDevice = s.sst.lastDevice ∧
    s.giveAgain.sst.seconds = s.sst.seconds ∧ s.giveAgain.sst.power = s.sst.power ∧
    s.giveAgain.sst.drain = s.sst.drain ∧ s.giveAgain.sst.downMark = s.sst.downMark ∧
    s.giveAgain.sst.ready = s.sst.ready ∧ s.giveAgain.sst.retention = s.sst.retention ∧ s.giveAgain.fresh = s.fresh ∧
    s.giveAgain.sent = s.sent := by
  unfold State.giveAgain; (try dsimp only); (repeat' split) <;> first | (simp; done) | simp [apply_ite]

@[simp] theorem State.rebuildWipe_frame (s : State) : s.rebuildWipe.lif = s.lif ∧ s.rebuildWipe.cru = s.cru ∧
    s.rebuildWipe.btc = s.btc ∧ s.rebuildWipe.kst = s.kst ∧ s.rebuildWipe.rtb = s.rtb ∧ s.rebuildWipe.dpu = s.dpu ∧
    s.rebuildWipe.rke = s.rke ∧ s.rebuildWipe.rsu = s.rsu ∧ s.rebuildWipe.sst.units = s.sst.units ∧
    s.rebuildWipe.sst.labelCopy = s.sst.labelCopy ∧ s.rebuildWipe.sst.marks = s.sst.marks ∧
    s.rebuildWipe.sst.serving = s.sst.serving ∧ s.rebuildWipe.sst.lastDevice = s.sst.lastDevice ∧
    s.rebuildWipe.sst.seconds = s.sst.seconds ∧ s.rebuildWipe.sst.power = s.sst.power ∧
    s.rebuildWipe.sst.drain = s.sst.drain ∧ s.rebuildWipe.sst.downMark = s.sst.downMark ∧
    s.rebuildWipe.sst.ready = s.sst.ready ∧ s.rebuildWipe.sst.retention = s.sst.retention ∧
    s.rebuildWipe.fresh = s.fresh ∧ s.rebuildWipe.sent = s.sent := by
  unfold State.rebuildWipe; (try dsimp only); (repeat' split) <;> first | (simp; done) | simp [apply_ite]

@[simp] theorem State.chooseBoot_frame (s : State) : s.chooseBoot.lif = s.lif ∧ s.chooseBoot.cru = s.cru ∧
    s.chooseBoot.kst = s.kst ∧ s.chooseBoot.rtb = s.rtb ∧ s.chooseBoot.dpu = s.dpu ∧ s.chooseBoot.rke = s.rke ∧
    s.chooseBoot.rsu = s.rsu ∧ s.chooseBoot.wpe = s.wpe ∧ s.chooseBoot.sst.units = s.sst.units ∧
    s.chooseBoot.sst.labelCopy = s.sst.labelCopy ∧ s.chooseBoot.sst.marks = s.sst.marks ∧
    s.chooseBoot.sst.serving = s.sst.serving ∧ s.chooseBoot.sst.seconds = s.sst.seconds ∧
    s.chooseBoot.sst.power = s.sst.power ∧ s.chooseBoot.sst.drain = s.sst.drain ∧
    s.chooseBoot.sst.downMark = s.sst.downMark ∧ s.chooseBoot.sst.ready = s.sst.ready ∧
    s.chooseBoot.sst.retention = s.sst.retention ∧ s.chooseBoot.fresh = s.fresh ∧ s.chooseBoot.sent = s.sent := by
  unfold State.chooseBoot; (try dsimp only); (repeat' split) <;> first | (simp; done) | simp [apply_ite]

@[simp] theorem State.dropCustodians_frame (s : State) (r : Nat) : (s.dropCustodians r).lif = s.lif ∧
    (s.dropCustodians r).cru = s.cru ∧ (s.dropCustodians r).btc = s.btc ∧ (s.dropCustodians r).kst = s.kst ∧
    (s.dropCustodians r).rtb.resealOnWake = s.rtb.resealOnWake ∧ (s.dropCustodians r).rtb.staged = s.rtb.staged ∧
    (s.dropCustodians r).rtb.commit = s.rtb.commit ∧ (s.dropCustodians r).rtb.preparing = s.rtb.preparing ∧
    (s.dropCustodians r).rtb.startCommit = s.rtb.startCommit ∧ (s.dropCustodians r).dpu = s.dpu ∧
    (s.dropCustodians r).rke = s.rke ∧ (s.dropCustodians r).rsu = s.rsu ∧ (s.dropCustodians r).wpe = s.wpe ∧
    (s.dropCustodians r).sst.units = s.sst.units ∧ (s.dropCustodians r).sst.labelCopy = s.sst.labelCopy ∧
    (s.dropCustodians r).sst.marks = s.sst.marks ∧ (s.dropCustodians r).sst.serving = s.sst.serving ∧
    (s.dropCustodians r).sst.lastDevice = s.sst.lastDevice ∧ (s.dropCustodians r).sst.seconds = s.sst.seconds ∧
    (s.dropCustodians r).sst.power = s.sst.power ∧ (s.dropCustodians r).sst.drain = s.sst.drain ∧
    (s.dropCustodians r).sst.downMark = s.sst.downMark ∧ (s.dropCustodians r).sst.ready = s.sst.ready ∧
    (s.dropCustodians r).sst.retention = s.sst.retention ∧ (s.dropCustodians r).fresh = s.fresh ∧
    (s.dropCustodians r).sent = s.sent := by
  unfold State.dropCustodians; (try dsimp only); (repeat' split) <;> first | (simp; done) | simp [apply_ite]

@[simp] theorem State.undoProvision_frame (s : State) : s.undoProvision.lif = s.lif ∧
    s.undoProvision.cru.challenges = s.cru.challenges ∧ s.undoProvision.cru.ops = s.cru.ops ∧
    s.undoProvision.btc = s.btc ∧ s.undoProvision.kst = s.kst ∧
    s.undoProvision.rtb.resealOnWake = s.rtb.resealOnWake ∧ s.undoProvision.rtb.staged = s.rtb.staged ∧
    s.undoProvision.rtb.commit = s.rtb.commit ∧ s.undoProvision.rtb.preparing = s.rtb.preparing ∧
    s.undoProvision.rtb.startCommit = s.rtb.startCommit ∧ s.undoProvision.dpu = s.dpu ∧ s.undoProvision.rke = s.rke ∧
    s.undoProvision.rsu = s.rsu ∧ s.undoProvision.wpe = s.wpe ∧ s.undoProvision.sst.units = s.sst.units ∧
    s.undoProvision.sst.labelCopy = s.sst.labelCopy ∧ s.undoProvision.sst.marks = s.sst.marks ∧
    s.undoProvision.sst.serving = s.sst.serving ∧ s.undoProvision.sst.lastDevice = s.sst.lastDevice ∧
    s.undoProvision.sst.seconds = s.sst.seconds ∧ s.undoProvision.sst.power = s.sst.power ∧
    s.undoProvision.sst.drain = s.sst.drain ∧ s.undoProvision.sst.downMark = s.sst.downMark ∧
    s.undoProvision.sst.ready = s.sst.ready ∧ s.undoProvision.sst.retention = s.sst.retention ∧
    s.undoProvision.fresh = s.fresh ∧ s.undoProvision.sent = s.sent := by
  unfold State.undoProvision; (try dsimp only); (repeat' split) <;> first | (simp; done) | simp [apply_ite]

@[simp] theorem State.startLocks_frame (s : State) : s.startLocks.lif.started = s.lif.started ∧
    s.startLocks.lif.mediaCredits = s.lif.mediaCredits ∧ s.startLocks.lif.capacity = s.lif.capacity ∧
    s.startLocks.lif.imageBase = s.lif.imageBase ∧ s.startLocks.lif.scratchBase = s.lif.scratchBase ∧
    s.startLocks.lif.limitData = s.lif.limitData ∧ s.startLocks.lif.limitControl = s.lif.limitControl ∧
    s.startLocks.lif.limitPlatform = s.lif.limitPlatform ∧ s.startLocks.lif.outstanding = s.lif.outstanding ∧
    s.startLocks.lif.freeCredits = s.lif.freeCredits ∧ s.startLocks.lif.nextTag = s.lif.nextTag ∧
    s.startLocks.lif.erroredBursts = s.lif.erroredBursts ∧ s.startLocks.lif.burstTaken = s.lif.burstTaken ∧
    s.startLocks.lif.burstErrored = s.lif.burstErrored ∧ s.startLocks.lif.burstDropped = s.lif.burstDropped ∧
    s.startLocks.lif.session = s.lif.session ∧ s.startLocks.cru = s.cru ∧ s.startLocks.btc = s.btc ∧
    s.startLocks.kst.reservation = s.kst.reservation ∧ s.startLocks.rtb.resealOnWake = s.rtb.resealOnWake ∧
    s.startLocks.rtb.staged = s.rtb.staged ∧ s.startLocks.rtb.commit = s.rtb.commit ∧
    s.startLocks.rtb.preparing = s.rtb.preparing ∧ s.startLocks.rtb.startCommit = s.rtb.startCommit ∧
    s.startLocks.rsu = s.rsu ∧ s.startLocks.wpe = s.wpe ∧ s.startLocks.sst.units = s.sst.units ∧
    s.startLocks.sst.labelCopy = s.sst.labelCopy ∧ s.startLocks.sst.marks = s.sst.marks ∧
    s.startLocks.sst.serving = s.sst.serving ∧ s.startLocks.sst.lastDevice = s.sst.lastDevice ∧
    s.startLocks.sst.seconds = s.sst.seconds ∧ s.startLocks.sst.power = s.sst.power ∧
    s.startLocks.sst.drain = s.sst.drain ∧ s.startLocks.sst.downMark = s.sst.downMark ∧
    s.startLocks.sst.ready = s.sst.ready ∧ s.startLocks.sst.retention = s.sst.retention ∧
    s.startLocks.fresh = s.fresh := by
  unfold State.startLocks; (try dsimp only); (repeat' split) <;> first | (simp; done) | simp [apply_ite]

@[simp] theorem State.startSettle_frame (s : State) : s.startSettle.lif = s.lif ∧ s.startSettle.cru = s.cru ∧
    s.startSettle.btc = s.btc ∧ s.startSettle.kst.reservation = s.kst.reservation ∧ s.startSettle.rtb = s.rtb ∧
    s.startSettle.dpu = s.dpu ∧ s.startSettle.rsu = s.rsu ∧ s.startSettle.wpe = s.wpe ∧
    s.startSettle.sst.units = s.sst.units ∧ s.startSettle.sst.labelCopy = s.sst.labelCopy ∧
    s.startSettle.sst.marks = s.sst.marks ∧ s.startSettle.sst.serving = s.sst.serving ∧
    s.startSettle.sst.lastDevice = s.sst.lastDevice ∧ s.startSettle.sst.seconds = s.sst.seconds ∧
    s.startSettle.sst.power = s.sst.power ∧ s.startSettle.sst.drain = s.sst.drain ∧
    s.startSettle.sst.downMark = s.sst.downMark ∧ s.startSettle.sst.ready = s.sst.ready ∧
    s.startSettle.sst.retention = s.sst.retention ∧ s.startSettle.fresh = s.fresh ∧ s.startSettle.sent = s.sent := by
  unfold State.startSettle; (try dsimp only); (repeat' split) <;> first | (simp; done) | simp [apply_ite]

@[simp] theorem State.takeLatch_frame (s : State) (warm : Bool) (edges : List Nat) :
    (s.takeLatch warm edges).lif.started = s.lif.started ∧
    (s.takeLatch warm edges).lif.mediaCredits = s.lif.mediaCredits ∧
    (s.takeLatch warm edges).lif.capacity = s.lif.capacity ∧
    (s.takeLatch warm edges).lif.imageBase = s.lif.imageBase ∧
    (s.takeLatch warm edges).lif.scratchBase = s.lif.scratchBase ∧
    (s.takeLatch warm edges).lif.limitData = s.lif.limitData ∧
    (s.takeLatch warm edges).lif.limitControl = s.lif.limitControl ∧
    (s.takeLatch warm edges).lif.limitPlatform = s.lif.limitPlatform ∧
    (s.takeLatch warm edges).lif.outstanding = s.lif.outstanding ∧
    (s.takeLatch warm edges).lif.freeCredits = s.lif.freeCredits ∧
    (s.takeLatch warm edges).lif.nextTag = s.lif.nextTag ∧
    (s.takeLatch warm edges).lif.erroredBursts = s.lif.erroredBursts ∧
    (s.takeLatch warm edges).lif.burstTaken = s.lif.burstTaken ∧
    (s.takeLatch warm edges).lif.burstErrored = s.lif.burstErrored ∧
    (s.takeLatch warm edges).lif.burstDropped = s.lif.burstDropped ∧
    (s.takeLatch warm edges).lif.session = s.lif.session ∧ (s.takeLatch warm edges).cru = s.cru ∧
    (s.takeLatch warm edges).rtb.resealOnWake = s.rtb.resealOnWake ∧
    (s.takeLatch warm edges).rtb.staged = s.rtb.staged ∧ (s.takeLatch warm edges).rtb.preparing = s.rtb.preparing ∧
    (s.takeLatch warm edges).rtb.startCommit = s.rtb.startCommit ∧ (s.takeLatch warm edges).sst.units = s.sst.units ∧
    (s.takeLatch warm edges).sst.labelCopy = s.sst.labelCopy ∧ (s.takeLatch warm edges).sst.marks = s.sst.marks ∧
    (s.takeLatch warm edges).sst.serving = s.sst.serving ∧
    (s.takeLatch warm edges).sst.lastDevice = s.sst.lastDevice ∧
    (s.takeLatch warm edges).sst.seconds = s.sst.seconds ∧ (s.takeLatch warm edges).sst.power = s.sst.power ∧
    (s.takeLatch warm edges).sst.drain = s.sst.drain ∧ (s.takeLatch warm edges).sst.downMark = s.sst.downMark ∧
    (s.takeLatch warm edges).sst.ready = s.sst.ready ∧ (s.takeLatch warm edges).sst.retention = s.sst.retention ∧
    (s.takeLatch warm edges).fresh = s.fresh := by
  unfold State.takeLatch; (try dsimp only); (repeat' split) <;> first | (simp; done) | simp [apply_ite]

@[simp] theorem State.rebuild_frame (s : State) : s.rebuild.lif = s.lif ∧ s.rebuild.btc = s.btc ∧
    s.rebuild.dpu = s.dpu ∧ s.rebuild.sst.units = s.sst.units ∧ s.rebuild.sst.labelCopy = s.sst.labelCopy ∧
    s.rebuild.sst.marks = s.sst.marks ∧ s.rebuild.sst.serving = s.sst.serving ∧
    s.rebuild.sst.seconds = s.sst.seconds ∧ s.rebuild.sst.power = s.sst.power ∧ s.rebuild.sst.drain = s.sst.drain ∧
    s.rebuild.sst.downMark = s.sst.downMark ∧ s.rebuild.sst.ready = s.sst.ready ∧
    s.rebuild.sst.retention = s.sst.retention := by
  unfold State.rebuild; (try dsimp only); (repeat' split) <;> first | (simp; done) | simp [apply_ite]

@[simp] theorem State.startUp_frame (s : State) (u : StartInputs) : (s.startUp u).sst.labelCopy = s.sst.labelCopy ∧
    (s.startUp u).sst.retention = s.sst.retention := by
  unfold State.startUp; (try dsimp only); (repeat' split) <;> first | (simp; done) | simp [apply_ite]

@[simp] theorem State.startUpComplete_frame (s : State) : s.startUpComplete.lif = s.lif ∧
    s.startUpComplete.cru = s.cru ∧ s.startUpComplete.btc = s.btc ∧ s.startUpComplete.kst = s.kst ∧
    s.startUpComplete.rtb = s.rtb ∧ s.startUpComplete.dpu = s.dpu ∧ s.startUpComplete.rke = s.rke ∧
    s.startUpComplete.rsu = s.rsu ∧ s.startUpComplete.wpe = s.wpe ∧ s.startUpComplete.sst.units = s.sst.units ∧
    s.startUpComplete.sst.labelCopy = s.sst.labelCopy ∧ s.startUpComplete.sst.marks = s.sst.marks ∧
    s.startUpComplete.sst.queue = s.sst.queue ∧ s.startUpComplete.sst.waiting = s.sst.waiting ∧
    s.startUpComplete.sst.serving = s.sst.serving ∧ s.startUpComplete.sst.lastDevice = s.sst.lastDevice ∧
    s.startUpComplete.sst.seconds = s.sst.seconds ∧ s.startUpComplete.sst.power = s.sst.power ∧
    s.startUpComplete.sst.drain = s.sst.drain ∧ s.startUpComplete.sst.downMark = s.sst.downMark ∧
    s.startUpComplete.sst.retention = s.sst.retention ∧ s.startUpComplete.fresh = s.fresh ∧
    s.startUpComplete.sent = s.sent := by
  unfold State.startUpComplete; (try dsimp only); (repeat' split) <;> first | (simp; done) | simp [apply_ite]

/-! ### Operations of time -/

@[simp] theorem State.second_frame (s : State) : s.second.kst = s.kst ∧ s.second.rtb.entries = s.rtb.entries ∧
    s.second.rtb.resealOnWake = s.rtb.resealOnWake ∧ s.second.rtb.staged = s.rtb.staged ∧
    s.second.rtb.preparing = s.rtb.preparing ∧ s.second.rtb.startCommit = s.rtb.startCommit ∧ s.second.dpu = s.dpu ∧
    s.second.rke = s.rke ∧ s.second.wpe = s.wpe ∧ s.second.sst.units = s.sst.units ∧
    s.second.sst.labelCopy = s.sst.labelCopy ∧ s.second.sst.marks = s.sst.marks ∧ s.second.sst.queue = s.sst.queue ∧
    s.second.sst.waiting = s.sst.waiting ∧ s.second.sst.serving = s.sst.serving ∧
    s.second.sst.lastDevice = s.sst.lastDevice ∧ s.second.sst.power = s.sst.power ∧ s.second.sst.drain = s.sst.drain ∧
    s.second.sst.downMark = s.sst.downMark ∧ s.second.sst.ready = s.sst.ready ∧
    s.second.sst.retention = s.sst.retention ∧ s.second.fresh = s.fresh ∧ s.second.sent = s.sent := by
  unfold State.second; (try dsimp only); (repeat' split) <;> first | (simp; done) | simp [apply_ite]

end Sys2Proof.Machine
end

