-- ==== Sys2Proof/Laws/State.lean ====
section
/-! SUPPORT. What the sizes of `Shaped` say field by field, what each small operation keeps (`Keeps`), and
that folds keep what their steps keep. -/

set_option Elab.async false

namespace Sys2Proof.Machine

/-! ### Sizes, field by field -/

section sizes
variable {s : State} (h : Shaped s)
include h

@[simp] theorem Shaped.credSlots : s.cru.slots.length = 10 := h.1
@[simp] theorem Shaped.challenges : s.cru.challenges.length = 4 := h.2.1
@[simp] theorem Shaped.keySlots : s.kst.slots.length = 24 := h.2.2.1
@[simp] theorem Shaped.loads : s.kst.loads.length = 16 := h.2.2.2.1
@[simp] theorem Shaped.entries : s.rtb.entries.length = 16 := h.2.2.2.2.1
@[simp] theorem Shaped.contexts : s.dpu.contexts.length = 16 := h.2.2.2.2.2.1
@[simp] theorem Shaped.settings : s.rsu.settings.length = 8 := h.2.2.2.2.2.2.1
@[simp] theorem Shaped.credUnits : s.sst.units.cred.length = 10 := h.2.2.2.2.2.2.2.1
@[simp] theorem Shaped.keyUnits : s.sst.units.key.length = 24 := h.2.2.2.2.2.2.2.2.1
@[simp] theorem Shaped.rangeUnits : s.sst.units.range.length = 16 := h.2.2.2.2.2.2.2.2.2.1
@[simp] theorem Shaped.evsetUnits : s.sst.units.evset.length = 8 := h.2.2.2.2.2.2.2.2.2.2

end sizes

/-- The sizes of a state written field by field. -/
@[simp] theorem shaped_mk (l : Link) (c : Credentials) (b : Boot) (k : Keys) (r : Ranges) (d : DataPath) (e : Rekey)
    (p : Response) (w : Wipe) (x : Store) (n : Nat) (f : List Frame) (q : List Instr) :
    Shaped (State.mk l c b k r d e p w x n f q) ↔ (c.slots.length = 10 ∧ c.challenges.length = 4 ∧ k.slots.length = 24 ∧
      k.loads.length = 16 ∧ r.entries.length = 16 ∧ d.contexts.length = 16 ∧ p.settings.length = 8 ∧
      x.units.cred.length = 10 ∧ x.units.key.length = 24 ∧ x.units.range.length = 16 ∧ x.units.evset.length = 8) := ⟨id, id⟩

/-- The law of the store of a state written field by field. -/
@[simp] theorem lawful_mk (l : Link) (c : Credentials) (b : Boot) (k : Keys) (r : Ranges) (d : DataPath) (e : Rekey)
    (p : Response) (w : Wipe) (x : Store) (n : Nat) (f : List Frame) (q : List Instr) :
    Lawful (State.mk l c b k r d e p w x n f q) ↔ WaitLaw x.queue x.waiting := ⟨id, id⟩

@[simp] theorem Lawful.law {s : State} (h : Lawful s) : WaitLaw s.sst.queue s.sst.waiting := h

/-- No write waits. -/
@[simp] theorem waitLaw_nil : WaitLaw [] [] := by simp [WaitLaw]

/-! ### The store's lists -/

/-- A replacement changes no unit (R154 case 1). -/
@[simp] theorem replaceWrite_units (u : StoreUnit) (c : Record) (ws : List Waiter) (l : List Write) :
    (replaceWrite u c ws l).map (fun w => w.unit) = l.map (fun w => w.unit) := by
  simp only [replaceWrite, List.map_map]
  apply List.map_congr_left; intro w _; simp only [Function.comp]; split <;> rfl

@[simp] theorem replaceWrite_length (u : StoreUnit) (c : Record) (ws : List Waiter) (l : List Write) :
    (replaceWrite u c ws l).length = l.length := by simp [replaceWrite]

@[simp] theorem replaceWrite_nil (u : StoreUnit) (c : Record) (ws : List Waiter) (l : List Write) :
    replaceWrite u c ws l = [] ↔ l = [] := by simp [replaceWrite]

/-- R154: placing a write keeps the law. -/
theorem place_law (s : State) (u : StoreUnit) (c : Record) (ws : List Waiter) (h : Lawful s) : Lawful (s.place u c ws) := by
  obtain ⟨h1, h2, h3⟩ := h
  unfold State.place
  simp only [List.map_append] at h2
  split
  · simpa [WaitLaw, List.map_append] using ⟨h1, h2, h3⟩
  · rename_i hq
    split
    · simpa [WaitLaw, List.map_append] using ⟨h1, h2, h3⟩
    · rename_i hw
      have fresh : u ∉ s.sst.queue.map (fun w => w.unit) ∧ u ∉ s.sst.waiting.map (fun w => w.unit) := by
        simp at hq hw; constructor <;> (simp; assumption)
      obtain ⟨n1, n2, n3⟩ := List.nodup_append.mp h2
      split
      · rename_i hl
        simp only [lawful_mk]
        refine ⟨by simp; omega, ?_, ?_⟩
        · simp only [List.map_append, List.append_assoc, List.nodup_append]
          have := fresh.2; simp at this
          refine ⟨n1, ⟨by simp, n2, by simp; exact fun a ha e => this a ha e.symm⟩, ?_⟩
          intro a ha b hb
          simp at hb
          rcases hb with rfl | ⟨x, hx, rfl⟩
          · intro e; subst e; exact fresh.1 ha
          · exact n3 a ha x.unit (List.mem_map_of_mem hx)
        · intro hne; have := h3 hne; omega
      · rename_i hl
        have hfull : s.sst.queue.length = Config.queueMax := by omega
        simp only [lawful_mk]
        refine ⟨h1, ?_, fun _ => hfull⟩
        simp only [List.map_append, List.nodup_append]
        have f2 := fresh.2; have f1 := fresh.1
        refine ⟨n1, ⟨n2, by simp, ?_⟩, ?_⟩
        · intro a ha b hb; simp at hb; subst hb; intro e; subst e; exact f2 ha
        · intro a ha b hb
          simp at hb
          rcases hb with ⟨x, hx, rfl⟩ | rfl
          · exact n3 a ha x.unit (List.mem_map_of_mem hx)
          · intro e; subst e; exact f1 ha

/-- R155: taking the next write into service keeps the law. -/
theorem serve_law (s : State) (h : Lawful s) : Lawful s.serve := by
  obtain ⟨h1, h2, h3⟩ := h
  unfold State.serve
  split
  · rename_i w q e1 e2
    rw [e2] at h1 h2 h3
    split
    · rename_i x l e3
      rw [e3] at h2 h3
      simp only [lawful_mk]
      have := h3 (by simp)
      refine ⟨by simp at this ⊢; omega, ?_, ?_⟩
      · simp at h2 ⊢; exact h2.2
      · intro _; simp at this ⊢; omega
    · rename_i e3
      rw [e3] at h2
      simp only [lawful_mk]
      refine ⟨by simp at h1 ⊢; omega, ?_, by simp [*]⟩
      simp [e3] at h2 ⊢; exact h2.2
  · exact ⟨h1, h2, h3⟩

@[simp] theorem State.place_keeps (s : State) (u : StoreUnit) (c : Record) (ws : List Waiter) : Keeps s (s.place u c ws) := by
  have h := place_law s u c ws
  revert h; unfold State.place; (repeat' split) <;> simp +contextual [Keeps]

@[simp] theorem State.serve_keeps (s : State) : Keeps s s.serve := by
  have h := serve_law s
  revert h; unfold State.serve; (repeat' split) <;> simp +contextual [Keeps]

/-! ### Chains of operations -/

theorem Keeps.trans {a b c : State} (h : Keeps a b) (k : Keeps b c) : Keeps a c := by
  simp only [Keeps] at *; obtain ⟨h1, h2, h3, h4, h5, h6, h7⟩ := h; obtain ⟨k1, k2, k3, k4, k5, k6, k7⟩ := k
  exact ⟨k1.trans h1, k2.trans h2, k3.trans h3, k4.trans h4, k5.trans h5, k6 ∘ h6, k7 ∘ h7⟩

/-- A fold keeps what each of its steps keeps. -/
@[simp] theorem foldl_keeps {α : Type} (f : State → α → State) (h : ∀ s a, Keeps s (f s a)) (l : List α) (s : State) :
    Keeps s (l.foldl f s) := by
  induction l generalizing s with
  | nil => simp [Keeps]
  | cons a l ih => exact (h s a).trans (ih (f s a))

end Sys2Proof.Machine
end

