-- ==== Sys2Proof/Laws/Keeps.lean ====
section
/-! SUPPORT. Every operation of the meanings keeps what `Keeps` names: one lemma an operation, so that a
claim about every command cites them and unfolds nothing. The operations of the link's own table (issue of a
media request, its end, LINK_START), the removal of the main supply, the reading of the store and the tick
change the media table and have no lemma here. -/

set_option Elab.async false

namespace Sys2Proof.Machine

/-! ### Operations of all blocks -/

@[simp] theorem State.mapSlot_keeps (s : State) (k : Nat) (g : KeySlot → KeySlot) : Keeps s (s.mapSlot k g) := by
  unfold State.mapSlot; (try dsimp only); (repeat' split) <;> simp (maxDischargeDepth := 40) +contextual [Keeps]

@[simp] theorem State.setLoad_keeps (s : State) (r : Nat) (l : Load) : Keeps s (s.setLoad r l) := by
  unfold State.setLoad; (try dsimp only); (repeat' split) <;> simp (maxDischargeDepth := 40) +contextual [Keeps]

@[simp] theorem State.mapCred_keeps (s : State) (i : Nat) (g : CredSlot → CredSlot) : Keeps s (s.mapCred i g) := by
  unfold State.mapCred; (try dsimp only); (repeat' split) <;> simp (maxDischargeDepth := 40) +contextual [Keeps]

@[simp] theorem State.setEntry_keeps (s : State) (r : Nat) (e : Entry) : Keeps s (s.setEntry r e) := by
  unfold State.setEntry; (try dsimp only); (repeat' split) <;> simp (maxDischargeDepth := 40) +contextual [Keeps]

@[simp] theorem State.mapFields_keeps (s : State) (r : Nat) (g : RangeFields → RangeFields) : Keeps s (s.mapFields r g) := by
  unfold State.mapFields; (try dsimp only); (repeat' split) <;> simp (maxDischargeDepth := 40) +contextual [Keeps]

@[simp] theorem State.setCtx_keeps (s : State) (c : Nat) (x : Context) : Keeps s (s.setCtx c x) := by
  unfold State.setCtx; (try dsimp only); (repeat' split) <;> simp (maxDischargeDepth := 40) +contextual [Keeps]

@[simp] theorem State.setChain_keeps (s : State) (k : ChainKind) (c : Option Chain) : Keeps s (s.setChain k c) := by
  unfold State.setChain; (try dsimp only); (repeat' split) <;> simp (maxDischargeDepth := 40) +contextual [Keeps]

@[simp] theorem State.mapHead_keeps (s : State) (g : Job → Job) : Keeps s (s.mapHead g) := by
  unfold State.mapHead; (try dsimp only); (repeat' split) <;> simp (maxDischargeDepth := 40) +contextual [Keeps]

@[simp] theorem State.bump_keeps (s : State) : Keeps s (s.bump) := by
  unfold State.bump; (try dsimp only); (repeat' split) <;> simp (maxDischargeDepth := 40) +contextual [Keeps]

@[simp] theorem State.send_keeps (s : State) (ch : Channel) (tag : Nat) (b : Body) : Keeps s (s.send ch tag b) := by
  unfold State.send; (try dsimp only); (repeat' split) <;> simp (maxDischargeDepth := 40) +contextual [Keeps]

@[simp] theorem State.freeTag_keeps (s : State) (tag : Nat) : Keeps s (s.freeTag tag) := by
  unfold State.freeTag; (try dsimp only); (repeat' split) <;> simp (maxDischargeDepth := 40) +contextual [Keeps]

@[simp] theorem State.interim_keeps (s : State) (rto : ReplyTo) (b : Body) : Keeps s (s.interim rto b) := by
  unfold State.interim; (try dsimp only); (repeat' split) <;> simp (maxDischargeDepth := 40) +contextual [Keeps]

@[simp] theorem State.answer_keeps (s : State) (rto : ReplyTo) (b : Body) : Keeps s (s.answer rto b) := by
  unfold State.answer; (try dsimp only); (repeat' split) <;> simp (maxDischargeDepth := 40) +contextual [Keeps]

@[simp] theorem State.refuse_keeps (s : State) (rto : ReplyTo) (st : Status) (detail : List Nat) : Keeps s (s.refuse rto st detail) := by
  unfold State.refuse; (try dsimp only); (repeat' split) <;> simp (maxDischargeDepth := 40) +contextual [Keeps]

@[simp] theorem State.notice_keeps (s : State) (b : Body) : Keeps s (s.notice b) := by
  unfold State.notice; (try dsimp only); (repeat' split) <;> simp (maxDischargeDepth := 40) +contextual [Keeps]

@[simp] theorem State.answerLong_keeps (s : State) (rto : ReplyTo) (bytes : Nat) (b : Body) : Keeps s (s.answerLong rto bytes b) := by
  unfold State.answerLong; (try dsimp only); (repeat' split) <;> simp (maxDischargeDepth := 40) +contextual [Keeps]

@[simp] theorem State.write_keeps (s : State) (u : StoreUnit) (ws : List Waiter) : Keeps s (s.write u ws) := by
  unfold State.write; (try dsimp only); (repeat' split) <;> simp (maxDischargeDepth := 40) +contextual [Keeps]

@[simp] theorem State.writeAll_keeps (s : State) (us : List StoreUnit) (w : Waiter) : Keeps s (s.writeAll us w) := by
  unfold State.writeAll; (try dsimp only); (repeat' split) <;> simp (maxDischargeDepth := 40) +contextual [Keeps]

@[simp] theorem State.writeDevice_keeps (s : State) (g : DeviceRecord → DeviceRecord) (ws : List Waiter) : Keeps s (s.writeDevice g ws) := by
  unfold State.writeDevice; (try dsimp only); (repeat' split) <;> simp (maxDischargeDepth := 40) +contextual [Keeps]

@[simp] theorem State.writeQueuePart_keeps (s : State) (ws : List Waiter) : Keeps s (s.writeQueuePart ws) := by
  unfold State.writeQueuePart; (try dsimp only); (repeat' split) <;> simp (maxDischargeDepth := 40) +contextual [Keeps]

@[simp] theorem State.writeProgressPart_keeps (s : State) (ws : List Waiter) : Keeps s (s.writeProgressPart ws) := by
  unfold State.writeProgressPart; (try dsimp only); (repeat' split) <;> simp (maxDischargeDepth := 40) +contextual [Keeps]

@[simp] theorem State.flushParts_keeps (s : State) : Keeps s (s.flushParts) := by
  unfold State.flushParts; (try dsimp only); (repeat' split) <;> simp (maxDischargeDepth := 40) +contextual [Keeps]

/-! ### Operations of the Key Store -/

@[simp] theorem State.settleSlot_keeps (s : State) (k : Nat) : Keeps s (s.settleSlot k) := by
  unfold State.settleSlot; (try dsimp only); (repeat' split) <;> simp (maxDischargeDepth := 40) +contextual [Keeps]

@[simp] theorem State.dropRange_keeps (s : State) (r : Nat) : Keeps s (s.dropRange r) := by
  unfold State.dropRange; (try dsimp only); (repeat' split) <;> simp (maxDischargeDepth := 40) +contextual [Keeps]

@[simp] theorem State.settleRange_keeps (s : State) (r : Nat) : Keeps s (s.settleRange r) := by
  unfold State.settleRange; (try dsimp only); (repeat' split) <;> simp (maxDischargeDepth := 40) +contextual [Keeps]

@[simp] theorem State.unload_keeps (s : State) (r : Nat) : Keeps s (s.unload r) := by
  unfold State.unload; (try dsimp only); (repeat' split) <;> simp (maxDischargeDepth := 40) +contextual [Keeps]

@[simp] theorem State.dropUser_keeps (s : State) (k : Nat) : Keeps s (s.dropUser k) := by
  unfold State.dropUser; (try dsimp only); (repeat' split) <;> simp (maxDischargeDepth := 40) +contextual [Keeps]

@[simp] theorem State.addUser_keeps (s : State) (k : Nat) : Keeps s (s.addUser k) := by
  unfold State.addUser; (try dsimp only); (repeat' split) <;> simp (maxDischargeDepth := 40) +contextual [Keeps]

@[simp] theorem State.retire_keeps (s : State) (k : Nat) : Keeps s (s.retire k) := by
  unfold State.retire; (try dsimp only); (repeat' split) <;> simp (maxDischargeDepth := 40) +contextual [Keeps]

@[simp] theorem State.loseKey_keeps (s : State) (r : Nat) : Keeps s (s.loseKey r) := by
  unfold State.loseKey; (try dsimp only); (repeat' split) <;> simp (maxDischargeDepth := 40) +contextual [Keeps]

@[simp] theorem State.generate_keeps (s : State) (r : Nat) (rak : Rak) : Keeps s (s.generate r rak).1 := by
  unfold State.generate; (try dsimp only); (repeat' split) <;> simp (maxDischargeDepth := 40) +contextual [Keeps]

@[simp] theorem State.newRak_keeps (s : State) : Keeps s (s.newRak).1 := by
  unfold State.newRak; (try dsimp only); (repeat' split) <;> simp (maxDischargeDepth := 40) +contextual [Keeps]

@[simp] theorem State.takeHold_keeps (s : State) (r : Nat) : Keeps s (s.takeHold r) := by
  unfold State.takeHold; (try dsimp only); (repeat' split) <;> simp (maxDischargeDepth := 40) +contextual [Keeps]

@[simp] theorem State.releaseHold_keeps (s : State) : Keeps s (s.releaseHold) := by
  unfold State.releaseHold; (try dsimp only); (repeat' split) <;> simp (maxDischargeDepth := 40) +contextual [Keeps]

@[simp] theorem State.forcedUnload_keeps (s : State) : Keeps s (s.forcedUnload) := by
  unfold State.forcedUnload; (try dsimp only); (repeat' split) <;> simp (maxDischargeDepth := 40) +contextual [Keeps]

@[simp] theorem State.cutSlots_keeps (s : State) : Keeps s (s.cutSlots) := by
  unfold State.cutSlots; (try dsimp only); (repeat' split) <;> simp (maxDischargeDepth := 40) +contextual [Keeps]

@[simp] theorem State.freeContext_keeps (s : State) (c : Nat) : Keeps s (s.freeContext c) := by
  unfold State.freeContext; (try dsimp only); (repeat' split) <;> simp (maxDischargeDepth := 40) +contextual [Keeps]

@[simp] theorem State.lastWord_keeps (s : State) (rto : ReplyTo) (b : Body) : Keeps s (s.lastWord rto b) := by
  unfold State.lastWord; (try dsimp only); (repeat' split) <;> simp (maxDischargeDepth := 40) +contextual [Keeps]

@[simp] theorem State.owe_keeps (s : State) (c g : Nat) (rto : ReplyTo) (b : Body) : Keeps s (s.owe c g rto b) := by
  unfold State.owe; (try dsimp only); (repeat' split) <;> simp (maxDischargeDepth := 40) +contextual [Keeps]

@[simp] theorem State.abort_keeps (s : State) (cause : AbortCause) (c : Nat) : Keeps s (s.abort cause c) := by
  unfold State.abort; (try dsimp only); (repeat' split) <;> simp (maxDischargeDepth := 40) +contextual [Keeps]

@[simp] theorem State.abortAll_keeps (s : State) (cause : AbortCause) (p : OpenContext → Bool) : Keeps s (s.abortAll cause p) := by
  unfold State.abortAll; (try dsimp only); (repeat' split) <;> simp (maxDischargeDepth := 40) +contextual [Keeps]

/-! ### Operations of the sweep -/

@[simp] theorem State.dropChunk_keeps (s : State) : Keeps s (s.dropChunk) := by
  unfold State.dropChunk; (try dsimp only); (repeat' split) <;> simp (maxDischargeDepth := 40) +contextual [Keeps]

@[simp] theorem State.abandonSweep_keeps (s : State) : Keeps s (s.abandonSweep) := by
  unfold State.abandonSweep; (try dsimp only); (repeat' split) <;> simp (maxDischargeDepth := 40) +contextual [Keeps]

@[simp] theorem State.faultJob_keeps (s : State) (cause : FaultCause) : Keeps s (s.faultJob cause) := by
  unfold State.faultJob; (try dsimp only); (repeat' split) <;> simp (maxDischargeDepth := 40) +contextual [Keeps]

@[simp] theorem State.pauseSweep_keeps (s : State) (dropCopies : Bool) : Keeps s (s.pauseSweep dropCopies) := by
  unfold State.pauseSweep; (try dsimp only); (repeat' split) <;> simp (maxDischargeDepth := 40) +contextual [Keeps]

@[simp] theorem State.resumeJob_keeps (s : State) (r : Nat) (ws : List Waiter) : Keeps s (s.resumeJob r ws) := by
  unfold State.resumeJob; (try dsimp only); (repeat' split) <;> simp (maxDischargeDepth := 40) +contextual [Keeps]

@[simp] theorem State.resumeIfPaused_keeps (s : State) (r : Nat) : Keeps s (s.resumeIfPaused r) := by
  unfold State.resumeIfPaused; (try dsimp only); (repeat' split) <;> simp (maxDischargeDepth := 40) +contextual [Keeps]

@[simp] theorem State.settleJob_keeps (s : State) : Keeps s (s.settleJob) := by
  unfold State.settleJob; (try dsimp only); (repeat' split) <;> simp (maxDischargeDepth := 40) +contextual [Keeps]

@[simp] theorem State.thenOps_keeps (s : State) (l : List ChunkOp) : Keeps s (s.thenOps l) := by
  unfold State.thenOps; (try dsimp only); (repeat' split) <;> simp (maxDischargeDepth := 40) +contextual [Keeps]

@[simp] theorem State.fillBuffer_keeps (s : State) (i : Nat) (b : Block) (next : List ChunkOp) : Keeps s (s.fillBuffer i b next) := by
  unfold State.fillBuffer; (try dsimp only); (repeat' split) <;> simp (maxDischargeDepth := 40) +contextual [Keeps]

@[simp] theorem State.startTransform_keeps (s : State) (i : Nat) (b : Block) : Keeps s (s.startTransform i b) := by
  unfold State.startTransform; (try dsimp only); (repeat' split) <;> simp (maxDischargeDepth := 40) +contextual [Keeps]

@[simp] theorem State.setWatermark_keeps (s : State) (r w : Nat) : Keeps s (s.setWatermark r w) := by
  unfold State.setWatermark; (try dsimp only); (repeat' split) <;> simp (maxDischargeDepth := 40) +contextual [Keeps]

@[simp] theorem State.recovered_keeps (s : State) (r w : Nat) : Keeps s (s.recovered r w) := by
  unfold State.recovered; (try dsimp only); (repeat' split) <;> simp (maxDischargeDepth := 40) +contextual [Keeps]

@[simp] theorem State.unrecovered_keeps (s : State) (r : Nat) : Keeps s (s.unrecovered r) := by
  unfold State.unrecovered; (try dsimp only); (repeat' split) <;> simp (maxDischargeDepth := 40) +contextual [Keeps]

@[simp] theorem State.recoverCopy_keeps (s : State) (f n : Nat) : Keeps s (s.recoverCopy f n) := by
  unfold State.recoverCopy; (try dsimp only); (repeat' split) <;> simp (maxDischargeDepth := 40) +contextual [Keeps]

@[simp] theorem State.judge_keeps (s : State) (b : Block) : Keeps s (s.judge b) := by
  unfold State.judge; (try dsimp only); (repeat' split) <;> simp (maxDischargeDepth := 40) +contextual [Keeps]

@[simp] theorem State.confirmOp_keeps (s : State) (o : ChunkOp) (data : Block) : Keeps s (s.confirmOp o data) := by
  unfold State.confirmOp; (try dsimp only); (repeat' split) <;> simp (maxDischargeDepth := 40) +contextual [Keeps]

@[simp] theorem State.failOp_keeps (s : State) (o : ChunkOp) (cause : FaultCause) : Keeps s (s.failOp o cause) := by
  unfold State.failOp; (try dsimp only); (repeat' split) <;> simp (maxDischargeDepth := 40) +contextual [Keeps]

/-! ### Operations of loads -/

@[simp] theorem State.damagedKey_keeps (s : State) (r k : Nat) : Keeps s (s.damagedKey r k) := by
  unfold State.damagedKey; (try dsimp only); (repeat' split) <;> simp (maxDischargeDepth := 40) +contextual [Keeps]

@[simp] theorem State.unwrap_keeps (s : State) (r : Nat) (rak : Rak) (k : Nat) : Keeps s (s.unwrap r rak k) := by
  unfold State.unwrap; (try dsimp only); (repeat' split) <;> simp (maxDischargeDepth := 40) +contextual [Keeps]

@[simp] theorem State.loadRange_keeps (s : State) (r : Nat) (via : Option Rak) : Keeps s (s.loadRange r via).1 := by
  unfold State.loadRange; (try dsimp only); (repeat' split) <;> simp (maxDischargeDepth := 40) +contextual [Keeps]

@[simp] theorem State.setLocks_keeps (s : State) (r : Nat) (read write v : Bool) : Keeps s (s.setLocks r read write v) := by
  unfold State.setLocks; (try dsimp only); (repeat' split) <;> simp (maxDischargeDepth := 40) +contextual [Keeps]

@[simp] theorem State.lockRange_keeps (s : State) (read write : Bool) (r : Nat) : Keeps s (s.lockRange read write r) := by
  unfold State.lockRange; (try dsimp only); (repeat' split) <;> simp (maxDischargeDepth := 40) +contextual [Keeps]

@[simp] theorem State.unlockRange_keeps (s : State) (read write : Bool) (via : Option Rak) (r : Nat) : Keeps s (s.unlockRange read write via r).1 := by
  unfold State.unlockRange; (try dsimp only); (repeat' split) <;> simp (maxDischargeDepth := 40) +contextual [Keeps]

@[simp] theorem State.unlockDevice_keeps (s : State) (r : Nat) : Keeps s (s.unlockDevice r) := by
  unfold State.unlockDevice; (try dsimp only); (repeat' split) <;> simp (maxDischargeDepth := 40) +contextual [Keeps]

@[simp] theorem State.lockAll_keeps (s : State) : Keeps s (s.lockAll) := by
  unfold State.lockAll; (try dsimp only); (repeat' split) <;> simp (maxDischargeDepth := 40) +contextual [Keeps]

/-! ### Operations of commits -/

@[simp] theorem State.makeKeys_keeps (s : State) (p : Plan) (raks : List (Nat × Rak)) (l : List Nat) :
    Keeps s (s.makeKeys p raks l).1 := by
  induction l generalizing s with
  | nil => exact ⟨rfl, rfl, rfl, rfl, rfl, id, id⟩
  | cons r rs ih =>
    unfold State.makeKeys; (try dsimp only); (repeat' split) <;> simp (maxDischargeDepth := 40) +contextual [Keeps, ih]

@[simp] theorem State.prepare_keeps (s : State) (p : Plan) (named : List Nat) (raks : List (Nat × Rak)) :
    Keeps s (s.prepare p named raks).1 := State.makeKeys_keeps s p raks p.needKeys

@[simp] theorem State.discardHead_keeps (s : State) (j : Job) : Keeps s (s.discardHead j) := by
  unfold State.discardHead; (try dsimp only); (repeat' split) <;> simp (maxDischargeDepth := 40) +contextual [Keeps]

@[simp] theorem State.dropJobs_keeps (s : State) (p : Plan) : Keeps s (s.dropJobs p) := by
  unfold State.dropJobs; (try dsimp only); (repeat' split) <;> simp (maxDischargeDepth := 40) +contextual [Keeps]

@[simp] theorem State.commitJobs_keeps (s : State) (p : Plan) : Keeps s (s.commitJobs p) := by
  unfold State.commitJobs; (try dsimp only); (repeat' split) <;> simp (maxDischargeDepth := 40) +contextual [Keeps]

@[simp] theorem State.retireAll_keeps (s : State) (ks : List Nat) : Keeps s (s.retireAll ks) := by
  unfold State.retireAll; (try dsimp only); (repeat' split) <;> simp (maxDischargeDepth := 40) +contextual [Keeps]

@[simp] theorem State.commitLocks_keeps (before : State) (p : Plan) (m : Prepared) (s : State) (r : Nat) : Keeps s (State.commitLocks before p m s r) := by
  unfold State.commitLocks; (try dsimp only); (repeat' split) <;> simp (maxDischargeDepth := 40) +contextual [Keeps]

/-- A change of the Range Table that leaves the number of its entries. -/
theorem keeps_rtb (s : State) (x : Ranges) (h : x.entries.length = s.rtb.entries.length) : Keeps s { s with rtb := x } :=
  ⟨rfl, rfl, rfl, rfl, rfl, fun k => by simp [k, h], id⟩

/-- Ranges that lose their keys at a commit. -/
theorem dropped_keeps (p : Plan) (l : List Nat) (s : State) :
    Keeps s (l.foldl (fun u r => if p.remade.contains r || !(p.entry r).isEnabled then u.dropRange r else u) s) := by
  refine foldl_keeps _ ?_ l s
  intro t r; split
  · exact State.dropRange_keeps t r
  · exact ⟨rfl, rfl, rfl, rfl, rfl, id, id⟩

/-- An installation is made of operations that keep. -/
@[simp] theorem State.install_keeps (s : State) (p : Plan) (m : Prepared) (named : List Nat) :
    Keeps s (s.install p m named).1 := by
  unfold State.install; dsimp only
  refine Keeps.trans ?_ (State.retireAll_keeps _ _)
  refine Keeps.trans ?_ (keeps_rtb _ _ rfl)
  refine Keeps.trans ?_ (foldl_keeps _ (fun t r => State.setEntry_keeps t r _) named _)
  exact (State.commitJobs_keeps s p).trans (dropped_keeps p named _)

@[simp] theorem State.enterWriting_keeps (s : State) : Keeps s s.enterWriting := by
  unfold State.enterWriting
  split
  · dsimp only
    refine Keeps.trans ?_ (State.writeAll_keeps _ _ _)
    refine Keeps.trans ?_ (keeps_rtb _ _ rfl)
    refine Keeps.trans ?_ (foldl_keeps _ (fun t r => State.commitLocks_keeps s _ _ t r) _ _)
    refine Keeps.trans ?_ (State.install_keeps _ _ _ _)
    refine Keeps.trans ?_ (State.prepare_keeps _ _ _ _)
    exact (dropped_keeps _ _ s).trans ⟨rfl, rfl, rfl, rfl, rfl, id, id⟩
  · exact ⟨rfl, rfl, rfl, rfl, rfl, id, id⟩

@[simp] theorem State.settleDrain_keeps (s : State) : Keeps s (s.settleDrain) := by
  unfold State.settleDrain; (try dsimp only); (repeat' split) <;> simp (maxDischargeDepth := 40) +contextual [Keeps]

@[simp] theorem State.abandonCommit_keeps (s : State) : Keeps s (s.abandonCommit) := by
  unfold State.abandonCommit; (try dsimp only); (repeat' split) <;> simp (maxDischargeDepth := 40) +contextual [Keeps]

@[simp] theorem State.placeWaveThree_keeps (s : State) : Keeps s (s.placeWaveThree) := by
  unfold State.placeWaveThree; (try dsimp only); (repeat' split) <;> simp (maxDischargeDepth := 40) +contextual [Keeps]

@[simp] theorem State.placeWaveTwo_keeps (s : State) : Keeps s (s.placeWaveTwo) := by
  unfold State.placeWaveTwo; (try dsimp only); (repeat' split) <;> simp (maxDischargeDepth := 40) +contextual [Keeps]

@[simp] theorem State.commitWaveDone_keeps (s : State) : Keeps s (s.commitWaveDone) := by
  unfold State.commitWaveDone; (try dsimp only); (repeat' split) <;> simp (maxDischargeDepth := 40) +contextual [Keeps]

@[simp] theorem State.deferredDone_keeps (s : State) (rto : ReplyTo) : Keeps s (s.deferredDone rto) := by
  unfold State.deferredDone; (try dsimp only); (repeat' split) <;> simp (maxDischargeDepth := 40) +contextual [Keeps]

/-! ### Operations of wipe chains -/

@[simp] theorem State.mapChain_keeps (s : State) (k : ChainKind) (g : Chain → Chain) : Keeps s (s.mapChain k g) := by
  unfold State.mapChain; (try dsimp only); (repeat' split) <;> simp (maxDischargeDepth := 40) +contextual [Keeps]

@[simp] theorem State.createChain_keeps (s : State) (k : ChainKind) (o : Origin) (steps : List WipeStep) (ws : List Waiter) : Keeps s (s.createChain k o steps ws) := by
  unfold State.createChain; (try dsimp only); (repeat' split) <;> simp (maxDischargeDepth := 40) +contextual [Keeps]

@[simp] theorem State.giveStep_keeps (s : State) (fill : Bool) (o : Origin) (ws : List Waiter) : Keeps s (s.giveStep fill o ws) := by
  unfold State.giveStep; (try dsimp only); (repeat' split) <;> simp (maxDischargeDepth := 40) +contextual [Keeps]

@[simp] theorem State.stepCompleted_keeps (s : State) (k : ChainKind) (c : Chain) : Keeps s (s.stepCompleted k c) := by
  unfold State.stepCompleted; (try dsimp only); (repeat' split) <;> simp (maxDischargeDepth := 40) +contextual [Keeps]

@[simp] theorem State.chainEnded_keeps (s : State) (k : ChainKind) (no : Nat) : Keeps s (s.chainEnded k no) := by
  unfold State.chainEnded; (try dsimp only); (repeat' split) <;> simp (maxDischargeDepth := 40) +contextual [Keeps]

@[simp] theorem State.finishStep_keeps (s : State) (k : ChainKind) : Keeps s (s.finishStep k) := by
  unfold State.finishStep; (try dsimp only); (repeat' split) <;> simp (maxDischargeDepth := 40) +contextual [Keeps]

@[simp] theorem State.stepWorkDone_keeps (s : State) (k : ChainKind) (no : Nat) : Keeps s (s.stepWorkDone k no) := by
  unfold State.stepWorkDone; (try dsimp only); (repeat' split) <;> simp (maxDischargeDepth := 40) +contextual [Keeps]

@[simp] theorem State.abortCut_keeps (s : State) : Keeps s s.abortCut := State.abortAll_keeps _ _ _

@[simp] theorem State.cut_keeps (s : State) : Keeps s (s.cut) := by
  unfold State.cut; (try dsimp only); (repeat' split) <;> simp (maxDischargeDepth := 40) +contextual [Keeps]

@[simp] theorem State.beginCut_keeps (s : State) (k : ChainKind) (c : Chain) : Keeps s (s.beginCut k c) := by
  unfold State.beginCut; (try dsimp only); (repeat' split) <;> simp (maxDischargeDepth := 40) +contextual [Keeps]

@[simp] theorem State.cutCredentials_keeps (s : State) (k : ChainKind) : Keeps s (s.cutCredentials k) := by
  unfold State.cutCredentials; (try dsimp only); (repeat' split) <;> simp (maxDischargeDepth := 40) +contextual [Keeps]

@[simp] theorem State.resumeCutCredentials_keeps (s : State) (k : ChainKind) : Keeps s (s.resumeCutCredentials k) := by
  unfold State.resumeCutCredentials; (try dsimp only); (repeat' split) <;> simp (maxDischargeDepth := 40) +contextual [Keeps]

@[simp] theorem State.beginCutCredentials_keeps (s : State) (k : ChainKind) (c : Chain) : Keeps s (s.beginCutCredentials k c) := by
  unfold State.beginCutCredentials; (try dsimp only); (repeat' split) <;> simp (maxDischargeDepth := 40) +contextual [Keeps]

@[simp] theorem State.settleFill_keeps (s : State) (k : ChainKind) : Keeps s (s.settleFill k) := by
  unfold State.settleFill; (try dsimp only); (repeat' split) <;> simp (maxDischargeDepth := 40) +contextual [Keeps]

@[simp] theorem State.beginFill_keeps (s : State) (k : ChainKind) (c : Chain) (count : Option Nat) (p : Nat) : Keeps s (s.beginFill k c count p) := by
  unfold State.beginFill; (try dsimp only); (repeat' split) <;> simp (maxDischargeDepth := 40) +contextual [Keeps]

@[simp] theorem State.fillProgressDone_keeps (s : State) (k : ChainKind) (no : Nat) : Keeps s (s.fillProgressDone k no) := by
  unfold State.fillProgressDone; (try dsimp only); (repeat' split) <;> simp (maxDischargeDepth := 40) +contextual [Keeps]

@[simp] theorem State.chunkEnded_keeps (s : State) (k : ChainKind) (no chunk : Nat) (skipped : Bool) : Keeps s (s.chunkEnded k no chunk skipped) := by
  unfold State.chunkEnded; (try dsimp only); (repeat' split) <;> simp (maxDischargeDepth := 40) +contextual [Keeps]

@[simp] theorem settingDefaults_length : Setting.defaults.length = 8 := rfl

@[simp] theorem State.blankTable_keeps (s : State) : Keeps s s.blankTable := by
  unfold State.blankTable; dsimp only
  refine Keeps.trans (b := (s.abortCut.cutSlots.newRak.1.generate 0 s.abortCut.cutSlots.newRak.2).1) ?_
    (Keeps.trans ?_ (State.loadRange_keeps _ _ _))
  · exact ((State.abortCut_keeps s).trans (State.cutSlots_keeps _)).trans ((State.newRak_keeps _).trans (State.generate_keeps _ _ _))
  · generalize (s.abortCut.cutSlots.newRak.1.generate 0 s.abortCut.cutSlots.newRak.2).1 = b
    refine ⟨rfl, rfl, rfl, rfl, rfl, ?_, fun h => ?_⟩
    · intro h
      have k := h
      unfold Shaped at k ⊢
      simp only [List.length_cons, List.length_replicate, settingDefaults_length]
      simp only [k, and_self]
    · unfold Lawful at h ⊢
      exact h

@[simp] theorem State.beginReset_keeps (s : State) (k : ChainKind) (c : Chain) : Keeps s (s.beginReset k c) := by
  unfold State.beginReset; (try dsimp only); (repeat' split) <;> simp (maxDischargeDepth := 40) +contextual [Keeps]

@[simp] theorem State.beginStep_keeps (s : State) (k : ChainKind) : Keeps s (s.beginStep k) := by
  unfold State.beginStep; (try dsimp only); (repeat' split) <;> simp (maxDischargeDepth := 40) +contextual [Keeps]

@[simp] theorem State.chainDurable_keeps (s : State) (k : ChainKind) (no : Nat) : Keeps s (s.chainDurable k no) := by
  unfold State.chainDurable; (try dsimp only); (repeat' split) <;> simp (maxDischargeDepth := 40) +contextual [Keeps]

/-! ### Operations of responses -/

@[simp] theorem State.lockEffects_keeps (s : State) : Keeps s (s.lockEffects) := by
  unfold State.lockEffects; (try dsimp only); (repeat' split) <;> simp (maxDischargeDepth := 40) +contextual [Keeps]

@[simp] theorem State.escalate_keeps (s : State) (n : Level) (c : Nat) : Keeps s (s.escalate n c) := by
  unfold State.escalate; (try dsimp only); (repeat' split) <;> simp (maxDischargeDepth := 40) +contextual [Keeps]

@[simp] theorem State.cancelTimerTo_keeps (s : State) (l : Level) : Keeps s (s.cancelTimerTo l) := by
  unfold State.cancelTimerTo; (try dsimp only); (repeat' split) <;> simp (maxDischargeDepth := 40) +contextual [Keeps]

@[simp] theorem State.pend_keeps (s : State) (l : Level) (i delay : Nat) : Keeps s (s.pend l i delay) := by
  unfold State.pend; (try dsimp only); (repeat' split) <;> simp (maxDischargeDepth := 40) +contextual [Keeps]

@[simp] theorem State.weigh_keeps (s : State) (i : Nat) (l : Level) : Keeps s (s.weigh i l) := by
  unfold State.weigh; (try dsimp only); (repeat' split) <;> simp (maxDischargeDepth := 40) +contextual [Keeps]

@[simp] theorem State.arrive_keeps (s : State) (i : Nat) (order : Option Level) (ws : List Waiter) : Keeps s (s.arrive i order ws) := by
  unfold State.arrive; (try dsimp only); (repeat' split) <;> simp (maxDischargeDepth := 40) +contextual [Keeps]

@[simp] theorem State.raise_keeps (s : State) (i : Nat) : Keeps s (s.raise i) := by
  unfold State.raise; (try dsimp only); (repeat' split) <;> simp (maxDischargeDepth := 40) +contextual [Keeps]

@[simp] theorem State.timerExpired_keeps (s : State) : Keeps s (s.timerExpired) := by
  unfold State.timerExpired; (try dsimp only); (repeat' split) <;> simp (maxDischargeDepth := 40) +contextual [Keeps]

@[simp] theorem State.wipeGiven_keeps (s : State) (l : Level) : Keeps s (s.wipeGiven l) := by
  unfold State.wipeGiven; (try dsimp only); (repeat' split) <;> simp (maxDischargeDepth := 40) +contextual [Keeps]

/-! ### Operations of requests and proofs -/

@[simp] theorem State.frameTaken_keeps (s : State) : Keeps s (s.frameTaken) := by
  unfold State.frameTaken; (try dsimp only); (repeat' split) <;> simp (maxDischargeDepth := 40) +contextual [Keeps]

@[simp] theorem State.joinTag_keeps (s : State) (m : Message) (tag : Nat) : Keeps s (s.joinTag m tag) := by
  unfold State.joinTag; (try dsimp only); (repeat' split) <;> simp (maxDischargeDepth := 40) +contextual [Keeps]

/-- A request is taken by an action that keeps. -/
theorem State.take_keeps (s : State) (m : Message) (f : Hdr) (fits : Bool) (act : State → ReplyTo → State)
    (h : ∀ t rto, Keeps t (act t rto)) : Keeps s (s.take m f fits act) := by
  unfold State.take; split
  · exact ⟨rfl, rfl, rfl, rfl, rfl, id, id⟩
  · split
    · exact (State.frameTaken_keeps s).trans (State.send_keeps _ _ _ _)
    · exact (State.frameTaken_keeps s).trans ((State.joinTag_keeps _ _ _).trans (h _ _))

theorem State.request_keeps (s : State) (m : Message) (f : Hdr) (act : State → ReplyTo → State)
    (h : ∀ t rto, Keeps t (act t rto)) : Keeps s (s.request m f act) := State.take_keeps s m f _ act h

@[simp] theorem State.failProof_keeps (s : State) (i : Nat) (rto : ReplyTo) : Keeps s (s.failProof i rto) := by
  unfold State.failProof; (try dsimp only); (repeat' split) <;> simp (maxDischargeDepth := 40) +contextual [Keeps]

@[simp] theorem State.proofMatched_keeps (s : State) (i : Nat) : Keeps s (s.proofMatched i) := by
  unfold State.proofMatched; (try dsimp only); (repeat' split) <;> simp (maxDischargeDepth := 40) +contextual [Keeps]

@[simp] theorem State.consume_keeps (s : State) (p : ProofBlock) : Keeps s (s.consume p) := by
  unfold State.consume; (try dsimp only); (repeat' split) <;> simp (maxDischargeDepth := 40) +contextual [Keeps]

/-- A proof is checked before an action that keeps. -/
theorem State.proven_keeps (s : State) (m : Message) (fields : List Nat) (n : Nat) (p : ProofBlock) (rto : ReplyTo)
    (act : State → Nat → Option WrapValue → State) (h : ∀ t i g, Keeps t (act t i g)) :
    Keeps s (s.proven m fields n p rto act) := by
  unfold State.proven; split
  · exact State.refuse_keeps s _ _ _
  · split
    · exact State.refuse_keeps s _ _ _
    · dsimp only; split
      · split
        · exact (State.consume_keeps s p).trans ((State.proofMatched_keeps _ _).trans (h _ _ _))
        · exact (State.consume_keeps s p).trans ((State.proofMatched_keeps _ _).trans (State.refuse_keeps _ _ _ _))
      · exact (State.consume_keeps s p).trans (State.failProof_keeps _ _ _)

theorem State.labelled_keeps (s : State) (m : Message) (fields : List Nat) (p : ProofBlock) (rto : ReplyTo)
    (act : State → State) (h : ∀ t, Keeps t (act t)) : Keeps s (s.labelled m fields p rto act) := by
  unfold State.labelled; split
  · split
    · exact State.refuse_keeps s _ _ _
    · dsimp only; split
      · exact (State.consume_keeps s p).trans (h _)
      · exact (State.consume_keeps s p).trans (State.refuse_keeps _ _ _ _)
  · exact State.proven_keeps s m fields 0 p rto _ (fun t _ _ => ⟨rfl, rfl, rfl, rfl, rfl, id, id⟩)

/-! ### Operations of the Credential Unit -/

@[simp] theorem State.challenge_keeps (s : State) (rto : ReplyTo) : Keeps s (s.challenge rto) := by
  unfold State.challenge; (try dsimp only); (repeat' split) <;> simp (maxDischargeDepth := 40) +contextual [Keeps]

@[simp] theorem State.mapOp_keeps (s : State) (i : Nat) (g : CredOp → CredOp) : Keeps s (s.mapOp i g) := by
  unfold State.mapOp; (try dsimp only); (repeat' split) <;> simp (maxDischargeDepth := 40) +contextual [Keeps]

@[simp] theorem State.placeWaveB_keeps (s : State) (i : Nat) : Keeps s (s.placeWaveB i) := by
  unfold State.placeWaveB; (try dsimp only); (repeat' split) <;> simp (maxDischargeDepth := 40) +contextual [Keeps]

@[simp] theorem State.finishOp_keeps (s : State) (i : Nat) : Keeps s (s.finishOp i) := by
  unfold State.finishOp; (try dsimp only); (repeat' split) <;> simp (maxDischargeDepth := 40) +contextual [Keeps]

@[simp] theorem State.placeWaveC_keeps (s : State) (i : Nat) : Keeps s (s.placeWaveC i) := by
  unfold State.placeWaveC; (try dsimp only); (repeat' split) <;> simp (maxDischargeDepth := 40) +contextual [Keeps]

@[simp] theorem State.credWaveDone_keeps (s : State) (i : Nat) : Keeps s (s.credWaveDone i) := by
  unfold State.credWaveDone; (try dsimp only); (repeat' split) <;> simp (maxDischargeDepth := 40) +contextual [Keeps]

@[simp] theorem State.startOp_keeps (s : State) (i p : Nat) (g : Option WrapValue) (secret : Secret) (limit : Nat) (rto : ReplyTo) : Keeps s (s.startOp i p g secret limit rto) := by
  unfold State.startOp; (try dsimp only); (repeat' split) <;> simp (maxDischargeDepth := 40) +contextual [Keeps]

@[simp] theorem State.disableCred_keeps (s : State) (i limit : Nat) (rto : ReplyTo) : Keeps s (s.disableCred i limit rto) := by
  unfold State.disableCred; (try dsimp only); (repeat' split) <;> simp (maxDischargeDepth := 40) +contextual [Keeps]

@[simp] theorem State.setCredential_keeps (s : State) (p : Nat) (g : Option WrapValue) (target : Nat) (action : Option CredAction) (secret : Secret) (limit : Nat) (rto : ReplyTo) : Keeps s (s.setCredential p g target action secret limit rto) := by
  unfold State.setCredential; (try dsimp only); (repeat' split) <;> simp (maxDischargeDepth := 40) +contextual [Keeps]

@[simp] theorem State.resetAttempts_keeps (s : State) (target : Nat) (rto : ReplyTo) : Keeps s (s.resetAttempts target rto) := by
  unfold State.resetAttempts; (try dsimp only); (repeat' split) <;> simp (maxDischargeDepth := 40) +contextual [Keeps]

@[simp] theorem State.slotList_keeps (s : State) (start : Nat) (rto : ReplyTo) : Keeps s (s.slotList start rto) := by
  unfold State.slotList; (try dsimp only); (repeat' split) <;> simp (maxDischargeDepth := 40) +contextual [Keeps]

/-! ### Operations of Boot Control -/

@[simp] theorem State.startProvision_keeps (s : State) (admin recovery : Secret) (size : Nat) (token : Option Secret)
    (rto : ReplyTo) : Keeps s (s.startProvision admin recovery size token rto) := by
  unfold State.startProvision; dsimp only
  refine Keeps.trans ?_ (State.writeAll_keeps _ _ _)
  refine ⟨rfl, rfl, rfl, rfl, rfl, ?_, id⟩
  intro h; simp [h]

@[simp] theorem State.finishProvision_keeps (s : State) (p : Provisioning) : Keeps s (s.finishProvision p) := by
  unfold State.finishProvision; (try dsimp only); (repeat' split) <;> simp (maxDischargeDepth := 40) +contextual [Keeps]

@[simp] theorem State.provisionDone_keeps (s : State) : Keeps s (s.provisionDone) := by
  unfold State.provisionDone; (try dsimp only); (repeat' split) <;> simp (maxDischargeDepth := 40) +contextual [Keeps]

@[simp] theorem State.provision_keeps (s : State) (admin recovery : Secret) (size : Nat) (present : Option Bool) (token : Secret) (rto : ReplyTo) : Keeps s (s.provision admin recovery size present token rto) := by
  unfold State.provision; (try dsimp only); (repeat' split) <;> simp (maxDischargeDepth := 40) +contextual [Keeps]

@[simp] theorem State.unlockFor_keeps (s : State) (i : Nat) (g : Option WrapValue) (r : Nat) : Keeps s (s.unlockFor i g r).1 := by
  unfold State.unlockFor; (try dsimp only); (repeat' split) <;> simp (maxDischargeDepth := 40) +contextual [Keeps]

@[simp] theorem State.unlockScope_keeps (s : State) (i : Nat) (g : Option WrapValue) (l : List Nat) :
    Keeps s (s.unlockScope i g l).1 := by
  induction l generalizing s with
  | nil => exact ⟨rfl, rfl, rfl, rfl, rfl, id, id⟩
  | cons r rs ih => exact (State.unlockFor_keeps s i g r).trans (ih _)

@[simp] theorem State.openBoot_keeps (s : State) (opened : Nat) : Keeps s (s.openBoot opened) := by
  unfold State.openBoot; (try dsimp only); (repeat' split) <;> simp (maxDischargeDepth := 40) +contextual [Keeps]

@[simp] theorem State.unlock_keeps (s : State) (i : Nat) (g : Option WrapValue) (range : Nat) (rto : ReplyTo) : Keeps s (s.unlock i g range rto) := by
  unfold State.unlock; (try dsimp only); (repeat' split) <;> simp (maxDischargeDepth := 40) +contextual [Keeps]

@[simp] theorem State.lock_keeps (s : State) (i range direction : Nat) (rto : ReplyTo) : Keeps s (s.lock i range direction rto) := by
  unfold State.lock; (try dsimp only); (repeat' split) <;> simp (maxDischargeDepth := 40) +contextual [Keeps]

@[simp] theorem State.bound_keeps (s : State) (rto : ReplyTo) (token : Option Secret) : Keeps s (s.bound rto token) := by
  unfold State.bound; (try dsimp only); (repeat' split) <;> simp (maxDischargeDepth := 40) +contextual [Keeps]

@[simp] theorem State.bindPlatform_keeps (s : State) (action : Option BindAction) (token : Secret) (rto : ReplyTo) : Keeps s (s.bindPlatform action token rto) := by
  unfold State.bindPlatform; (try dsimp only); (repeat' split) <;> simp (maxDischargeDepth := 40) +contextual [Keeps]

@[simp] theorem State.unseal_keeps (s : State) (action : Option UnsealAction) (rto : ReplyTo) : Keeps s (s.unseal action rto) := by
  unfold State.unseal; (try dsimp only); (repeat' split) <;> simp (maxDischargeDepth := 40) +contextual [Keeps]

@[simp] theorem State.hello_keeps (s : State) (token : Secret) : Keeps s (s.hello token) := by
  unfold State.hello; (try dsimp only); (repeat' split) <;> simp (maxDischargeDepth := 40) +contextual [Keeps]

@[simp] theorem State.helloExpired_keeps (s : State) : Keeps s (s.helloExpired) := by
  unfold State.helloExpired; (try dsimp only); (repeat' split) <;> simp (maxDischargeDepth := 40) +contextual [Keeps]

/-! ### Operations of the Range Table -/

@[simp] theorem State.listPlain_keeps (s : State) (start : Nat) (rto : ReplyTo) : Keeps s (s.listPlain start rto) := by
  unfold State.listPlain; (try dsimp only); (repeat' split) <;> simp (maxDischargeDepth := 40) +contextual [Keeps]

@[simp] theorem State.listFull_keeps (s : State) (start : Nat) (rto : ReplyTo) : Keeps s (s.listFull start rto) := by
  unfold State.listFull; (try dsimp only); (repeat' split) <;> simp (maxDischargeDepth := 40) +contextual [Keeps]

@[simp] theorem State.stage_keeps (s : State) (e : Edit) (rto : ReplyTo) : Keeps s (s.stage e rto) := by
  unfold State.stage; (try dsimp only); (repeat' split) <;> simp (maxDischargeDepth := 40) +contextual [Keeps]

@[simp] theorem State.discard_keeps (s : State) (rto : ReplyTo) : Keeps s (s.discard rto) := by
  unfold State.discard; (try dsimp only); (repeat' split) <;> simp (maxDischargeDepth := 40) +contextual [Keeps]

@[simp] theorem State.startDrain_keeps (s : State) (p : Plan) (raks : List (Nat × Rak)) (rto : ReplyTo) : Keeps s (s.startDrain p raks rto) := by
  unfold State.startDrain; (try dsimp only); (repeat' split) <;> simp (maxDischargeDepth := 40) +contextual [Keeps]

@[simp] theorem State.defer_keeps (s : State) (p : Plan) (raks : List (Nat × Rak)) (rto : ReplyTo) : Keeps s (s.defer p raks rto) := by
  unfold State.defer; (try dsimp only); (repeat' split) <;> simp (maxDischargeDepth := 40) +contextual [Keeps]

@[simp] theorem State.commit_keeps (s : State) (g : Option WrapValue) (defer : Option Bool) (rto : ReplyTo) : Keeps s (s.commit g defer rto) := by
  unfold State.commit; (try dsimp only); (repeat' split) <;> simp (maxDischargeDepth := 40) +contextual [Keeps]

@[simp] theorem State.drainExpired_keeps (s : State) : Keeps s (s.drainExpired) := by
  unfold State.drainExpired; (try dsimp only); (repeat' split) <;> simp (maxDischargeDepth := 40) +contextual [Keeps]

/-! ### Operations of the Data Path -/

@[simp] theorem State.grant_keeps (s : State) (direction first count : Nat) (mode : Mode) (range : Option Nat) (keys : List Nat) (offset : Nat) (rto : ReplyTo) : Keeps s (s.grant direction first count mode range keys offset rto) := by
  unfold State.grant; (try dsimp only); (repeat' split) <;> simp (maxDischargeDepth := 40) +contextual [Keeps]

@[simp] theorem State.xferOpen_keeps (s : State) (direction first count : Nat) (rto : ReplyTo) : Keeps s (s.xferOpen direction first count rto) := by
  unfold State.xferOpen; (try dsimp only); (repeat' split) <;> simp (maxDischargeDepth := 40) +contextual [Keeps]

@[simp] theorem State.fly_keeps (s : State) (c g i : Nat) (x : OpenContext) (key : DataKey) (data : Block) (rto : ReplyTo) : Keeps s (s.fly c g i x key data rto) := by
  unfold State.fly; (try dsimp only); (repeat' split) <;> simp (maxDischargeDepth := 40) +contextual [Keeps]

@[simp] theorem State.takeBlock_keeps (s : State) (c g : Nat) (x : OpenContext) (data : Block) (rto : ReplyTo) : Keeps s (s.takeBlock c g x data rto) := by
  unfold State.takeBlock; (try dsimp only); (repeat' split) <;> simp (maxDischargeDepth := 40) +contextual [Keeps]

@[simp] theorem State.xferBlock_keeps (s : State) (c g i : Nat) (data : Block) (rto : ReplyTo) : Keeps s (s.xferBlock c g i data rto) := by
  unfold State.xferBlock; (try dsimp only); (repeat' split) <;> simp (maxDischargeDepth := 40) +contextual [Keeps]

@[simp] theorem State.xferClose_keeps (s : State) (c g : Nat) (rto : ReplyTo) : Keeps s (s.xferClose c g rto) := by
  unfold State.xferClose; (try dsimp only); (repeat' split) <;> simp (maxDischargeDepth := 40) +contextual [Keeps]

@[simp] theorem State.grantCore_keeps (s : State) : Keeps s (s.grantCore) := by
  unfold State.grantCore; (try dsimp only); (repeat' split) <;> simp (maxDischargeDepth := 40) +contextual [Keeps]

@[simp] theorem State.flushData_keeps (s : State) : Keeps s (s.flushData) := by
  unfold State.flushData; (try dsimp only); (repeat' split) <;> simp (maxDischargeDepth := 40) +contextual [Keeps]

@[simp] theorem State.transformDone_keeps (s : State) (core : Nat) : Keeps s (s.transformDone core) := by
  unfold State.transformDone; (try dsimp only); (repeat' split) <;> simp (maxDischargeDepth := 40) +contextual [Keeps]

/-! ### Operations of the Rekey Engine -/

@[simp] theorem State.queueRekey_keeps (s : State) (g : Option WrapValue) (r : Nat) (rto : ReplyTo) : Keeps s (s.queueRekey g r rto) := by
  unfold State.queueRekey; (try dsimp only); (repeat' split) <;> simp (maxDischargeDepth := 40) +contextual [Keeps]

@[simp] theorem State.resumeHead_keeps (s : State) (r : Nat) (k : Rak) (rto : ReplyTo) : Keeps s (s.resumeHead r k rto) := by
  unfold State.resumeHead; (try dsimp only); (repeat' split) <;> simp (maxDischargeDepth := 40) +contextual [Keeps]

@[simp] theorem State.resumeRekey_keeps (s : State) (g : Option WrapValue) (r : Nat) (rto : ReplyTo) : Keeps s (s.resumeRekey g r rto) := by
  unfold State.resumeRekey; (try dsimp only); (repeat' split) <;> simp (maxDischargeDepth := 40) +contextual [Keeps]

@[simp] theorem State.startJob_keeps (s : State) (r : Nat) (rak : Rak) : Keeps s (s.startJob r rak) := by
  unfold State.startJob; (try dsimp only); (repeat' split) <;> simp (maxDischargeDepth := 40) +contextual [Keeps]

@[simp] theorem State.rekeyJobStart_keeps (s : State) : Keeps s (s.rekeyJobStart) := by
  unfold State.rekeyJobStart; (try dsimp only); (repeat' split) <;> simp (maxDischargeDepth := 40) +contextual [Keeps]

@[simp] theorem State.completeJob_keeps (s : State) (j : Job) (f : RangeFields) (p : Split) : Keeps s (s.completeJob j f p) := by
  unfold State.completeJob; (try dsimp only); (repeat' split) <;> simp (maxDischargeDepth := 40) +contextual [Keeps]

@[simp] theorem State.claiming_keeps (s : State) (first n : Nat) : Keeps s (s.claiming first n) := by
  unfold State.claiming; (try dsimp only); (repeat' split) <;> simp (maxDischargeDepth := 40) +contextual [Keeps]

@[simp] theorem State.chunkForm_keeps (s : State) : Keeps s (s.chunkForm) := by
  unfold State.chunkForm; (try dsimp only); (repeat' split) <;> simp (maxDischargeDepth := 40) +contextual [Keeps]

@[simp] theorem State.chunkClaim_keeps (s : State) : Keeps s (s.chunkClaim) := by
  unfold State.chunkClaim; (try dsimp only); (repeat' split) <;> simp (maxDischargeDepth := 40) +contextual [Keeps]

@[simp] theorem State.setSeq_keeps (s : State) (q : Option RekeySeq) : Keeps s (s.setSeq q) := by
  unfold State.setSeq; (try dsimp only); (repeat' split) <;> simp (maxDischargeDepth := 40) +contextual [Keeps]

@[simp] theorem State.rekeyDone_keeps (s : State) : Keeps s (s.rekeyDone) := by
  unfold State.rekeyDone; (try dsimp only); (repeat' split) <;> simp (maxDischargeDepth := 40) +contextual [Keeps]

@[simp] theorem State.seqDone_keeps (s : State) (step : RekeySeq) (serial : Nat) : Keeps s (s.seqDone step serial) := by
  unfold State.seqDone; (try dsimp only); (repeat' split) <;> simp (maxDischargeDepth := 40) +contextual [Keeps]

@[simp] theorem State.chunkStaged_keeps (s : State) (c : Nat) : Keeps s (s.chunkStaged c) := by
  unfold State.chunkStaged; (try dsimp only); (repeat' split) <;> simp (maxDischargeDepth := 40) +contextual [Keeps]

@[simp] theorem State.endRecovery_keeps (s : State) : Keeps s (s.endRecovery) := by
  unfold State.endRecovery; (try dsimp only); (repeat' split) <;> simp (maxDischargeDepth := 40) +contextual [Keeps]

@[simp] theorem State.chunkDone_keeps (s : State) (c : Nat) : Keeps s (s.chunkDone c) := by
  unfold State.chunkDone; (try dsimp only); (repeat' split) <;> simp (maxDischargeDepth := 40) +contextual [Keeps]

@[simp] theorem State.rekeyResumed_keeps (s : State) (n : Nat) : Keeps s (s.rekeyResumed n) := by
  unfold State.rekeyResumed; (try dsimp only); (repeat' split) <;> simp (maxDischargeDepth := 40) +contextual [Keeps]

/-! ### Operations of the Response Unit -/

@[simp] theorem State.sourceSet_keeps (s : State) (rto : ReplyTo) (i : Nat) (e : Setting) : Keeps s (s.sourceSet rto i e) := by
  unfold State.sourceSet; (try dsimp only); (repeat' split) <;> simp (maxDischargeDepth := 40) +contextual [Keeps]

@[simp] theorem State.tableSet_keeps (s : State) (rto : ReplyTo) (purge : Bool) (alarm threshold : Nat) : Keeps s (s.tableSet rto purge alarm threshold) := by
  unfold State.tableSet; (try dsimp only); (repeat' split) <;> simp (maxDischargeDepth := 40) +contextual [Keeps]

@[simp] theorem State.evidenceSet_keeps (s : State) (target : Nat) (v : EvidenceValues) (rto : ReplyTo) : Keeps s (s.evidenceSet target v rto) := by
  unfold State.evidenceSet; (try dsimp only); (repeat' split) <;> simp (maxDischargeDepth := 40) +contextual [Keeps]

@[simp] theorem State.evidenceList_keeps (s : State) (start : Nat) (rto : ReplyTo) : Keeps s (s.evidenceList start rto) := by
  unfold State.evidenceList; (try dsimp only); (repeat' split) <;> simp (maxDischargeDepth := 40) +contextual [Keeps]

@[simp] theorem State.calmed_keeps (s : State) : Keeps s (s.calmed) := by
  unfold State.calmed; (try dsimp only); (repeat' split) <;> simp (maxDischargeDepth := 40) +contextual [Keeps]

@[simp] theorem State.reopenAll_keeps (s : State) : Keeps s (s.reopenAll) := by
  unfold State.reopenAll; (try dsimp only); (repeat' split) <;> simp (maxDischargeDepth := 40) +contextual [Keeps]

@[simp] theorem State.responseClear_keeps (s : State) (rto : ReplyTo) : Keeps s (s.responseClear rto) := by
  unfold State.responseClear; (try dsimp only); (repeat' split) <;> simp (maxDischargeDepth := 40) +contextual [Keeps]

@[simp] theorem State.remoteOrder_keeps (s : State) (level : Nat) (rto : ReplyTo) : Keeps s (s.remoteOrder level rto) := by
  unfold State.remoteOrder; (try dsimp only); (repeat' split) <;> simp (maxDischargeDepth := 40) +contextual [Keeps]

@[simp] theorem State.presence_keeps (s : State) (p : Proof) : Keeps s (s.presence p) := by
  unfold State.presence; (try dsimp only); (repeat' split) <;> simp (maxDischargeDepth := 40) +contextual [Keeps]

@[simp] theorem State.latch_keeps (s : State) (i : Nat) : Keeps s (s.latch i) := by
  unfold State.latch; (try dsimp only); (repeat' split) <;> simp (maxDischargeDepth := 40) +contextual [Keeps]

@[simp] theorem State.edge_keeps (s : State) (i : Nat) : Keeps s (s.edge i) := by
  unfold State.edge; (try dsimp only); (repeat' split) <;> simp (maxDischargeDepth := 40) +contextual [Keeps]

@[simp] theorem State.absenceReached_keeps (s : State) : Keeps s (s.absenceReached) := by
  unfold State.absenceReached; (try dsimp only); (repeat' split) <;> simp (maxDischargeDepth := 40) +contextual [Keeps]

/-! ### Operations of the Wipe Engine -/

@[simp] theorem State.wipeStart_keeps (s : State) (fill : Option Bool) (rto : ReplyTo) : Keeps s (s.wipeStart fill rto) := by
  unfold State.wipeStart; (try dsimp only); (repeat' split) <;> simp (maxDischargeDepth := 40) +contextual [Keeps]

@[simp] theorem State.wipeAbort_keeps (s : State) (rto : ReplyTo) : Keeps s (s.wipeAbort rto) := by
  unfold State.wipeAbort; (try dsimp only); (repeat' split) <;> simp (maxDischargeDepth := 40) +contextual [Keeps]

@[simp] theorem State.reprovision_keeps (s : State) (rto : ReplyTo) : Keeps s (s.reprovision rto) := by
  unfold State.reprovision; (try dsimp only); (repeat' split) <;> simp (maxDischargeDepth := 40) +contextual [Keeps]

/-! ### Operations of the Link Interface -/

@[simp] theorem State.linkSweep_keeps (s : State) (restart : Bool) : Keeps s (s.linkSweep restart) := by
  unfold State.linkSweep; (try dsimp only); (repeat' split) <;> simp (maxDischargeDepth := 40) +contextual [Keeps]

@[simp] theorem State.linkHello_keeps (s : State) : Keeps s (s.linkHello) := by
  unfold State.linkHello; (try dsimp only); (repeat' split) <;> simp (maxDischargeDepth := 40) +contextual [Keeps]

@[simp] theorem State.linkBeacon_keeps (s : State) : Keeps s (s.linkBeacon) := by
  unfold State.linkBeacon; (try dsimp only); (repeat' split) <;> simp (maxDischargeDepth := 40) +contextual [Keeps]

@[simp] theorem State.freeAll_keeps (s : State) : Keeps s (s.freeAll) := by
  unfold State.freeAll; (try dsimp only); (repeat' split) <;> simp (maxDischargeDepth := 40) +contextual [Keeps]

@[simp] theorem State.setLimit_keeps (s : State) (ch : Channel) (n : Nat) : Keeps s (s.setLimit ch n) := by
  unfold State.setLimit; (try dsimp only); (repeat' split) <;> simp (maxDischargeDepth := 40) +contextual [Keeps]

@[simp] theorem State.replyLimit_keeps (s : State) (channel limit : Nat) (rto : ReplyTo) : Keeps s (s.replyLimit channel limit rto) := by
  unfold State.replyLimit; (try dsimp only); (repeat' split) <;> simp (maxDischargeDepth := 40) +contextual [Keeps]

@[simp] theorem State.dropBurst_keeps (s : State) : Keeps s (s.dropBurst) := by
  unfold State.dropBurst; (try dsimp only); (repeat' split) <;> simp (maxDischargeDepth := 40) +contextual [Keeps]

@[simp] theorem State.damagedFrame_keeps (s : State) (ch : Channel) (tag : Nat) : Keeps s (s.damagedFrame ch tag) := by
  unfold State.damagedFrame; (try dsimp only); (repeat' split) <;> simp (maxDischargeDepth := 40) +contextual [Keeps]

@[simp] theorem State.nextBurst_keeps (s : State) (count : Nat) : Keeps s (s.nextBurst count) := by
  unfold State.nextBurst; (try dsimp only); (repeat' split) <;> simp (maxDischargeDepth := 40) +contextual [Keeps]

@[simp] theorem State.burstEnd_keeps (s : State) : Keeps s (s.burstEnd) := by
  unfold State.burstEnd; (try dsimp only); (repeat' split) <;> simp (maxDischargeDepth := 40) +contextual [Keeps]

@[simp] theorem State.unknownKind_keeps (s : State) (ch : Channel) (tag : Nat) : Keeps s (s.unknownKind ch tag) := by
  unfold State.unknownKind; (try dsimp only); (repeat' split) <;> simp (maxDischargeDepth := 40) +contextual [Keeps]

@[simp] theorem State.mediaEnded_keeps (s : State) (c : Client) (e : MediaEnd) : Keeps s (s.mediaEnded c e) := by
  unfold State.mediaEnded; (try dsimp only); (repeat' split) <;> simp (maxDischargeDepth := 40) +contextual [Keeps]

/-! ### Operations of the Secure Store -/

@[simp] theorem State.erasedSlot_keeps (s : State) (k : Nat) : Keeps s (s.erasedSlot k) := by
  unfold State.erasedSlot; (try dsimp only); (repeat' split) <;> simp (maxDischargeDepth := 40) +contextual [Keeps]

@[simp] theorem State.badProofDone_keeps (s : State) (rto : ReplyTo) (blocked : Bool) : Keeps s (s.badProofDone rto blocked) := by
  unfold State.badProofDone; (try dsimp only); (repeat' split) <;> simp (maxDischargeDepth := 40) +contextual [Keeps]

@[simp] theorem State.startCommitDone_keeps (s : State) : Keeps s (s.startCommitDone) := by
  unfold State.startCommitDone; (try dsimp only); (repeat' split) <;> simp (maxDischargeDepth := 40) +contextual [Keeps]

/-- A stored record changes no size. -/
@[simp] theorem store_lengths (x : Units) (u : StoreUnit) (c : Record) :
    (x.store u c).cred.length = x.cred.length ∧ (x.store u c).key.length = x.key.length ∧
    (x.store u c).range.length = x.range.length ∧ (x.store u c).evset.length = x.evset.length := by
  unfold Units.store; split <;> simp

/-- A cut unit changes no size. -/
@[simp] theorem cut_lengths (x : Units) (u : StoreUnit) :
    (x.cut u).cred.length = x.cred.length ∧ (x.cut u).key.length = x.key.length ∧
    (x.cut u).range.length = x.range.length ∧ (x.cut u).evset.length = x.evset.length := by
  unfold Units.cut; split <;> simp

@[simp] theorem State.durable_keeps (s : State) (w : Write) : Keeps s (s.durable w) :=
  ⟨rfl, rfl, rfl, rfl, rfl, fun h => by simp [State.durable, h], id⟩

@[simp] theorem State.signal_keeps (s : State) (w : Waiter) : Keeps s (s.signal w) := by
  cases w <;> simp +contextual [Keeps, State.signal]

@[simp] theorem State.writeDone_keeps (s : State) : Keeps s (s.writeDone) := by
  unfold State.writeDone; (try dsimp only); (repeat' split) <;> simp (maxDischargeDepth := 40) +contextual [Keeps]

/-! ### Operations of power -/

@[simp] theorem State.enterStandby_keeps (s : State) : Keeps s (s.enterStandby) := by
  unfold State.enterStandby; (try dsimp only); (repeat' split) <;> simp (maxDischargeDepth := 40) +contextual [Keeps]

@[simp] theorem State.setDrain_keeps (s : State) (d : Drain) : Keeps s (s.setDrain d) := by
  unfold State.setDrain; (try dsimp only); (repeat' split) <;> simp (maxDischargeDepth := 40) +contextual [Keeps]

@[simp] theorem State.standbyEnter_keeps (s : State) (rto : ReplyTo) : Keeps s (s.standbyEnter rto) := by
  unfold State.standbyEnter; (try dsimp only); (repeat' split) <;> simp (maxDischargeDepth := 40) +contextual [Keeps]

@[simp] theorem State.powerDown_keeps (s : State) (rto : ReplyTo) : Keeps s (s.powerDown rto) := by
  unfold State.powerDown; (try dsimp only); (repeat' split) <;> simp (maxDischargeDepth := 40) +contextual [Keeps]

@[simp] theorem State.standbyDrainEnd_keeps (s : State) : Keeps s (s.standbyDrainEnd) := by
  unfold State.standbyDrainEnd; (try dsimp only); (repeat' split) <;> simp (maxDischargeDepth := 40) +contextual [Keeps]

@[simp] theorem State.powerDownDrainEnd_keeps (s : State) : Keeps s (s.powerDownDrainEnd) := by
  unfold State.powerDownDrainEnd; (try dsimp only); (repeat' split) <;> simp (maxDischargeDepth := 40) +contextual [Keeps]

@[simp] theorem State.reseal_keeps (s : State) : Keeps s (s.reseal) := by
  unfold State.reseal; (try dsimp only); (repeat' split) <;> simp (maxDischargeDepth := 40) +contextual [Keeps]

@[simp] theorem State.reopen_keeps (s : State) : Keeps s (s.reopen) := by
  unfold State.reopen; (try dsimp only); (repeat' split) <;> simp (maxDischargeDepth := 40) +contextual [Keeps]

@[simp] theorem State.resumeHeadJob_keeps (s : State) : Keeps s (s.resumeHeadJob) := by
  unfold State.resumeHeadJob; (try dsimp only); (repeat' split) <;> simp (maxDischargeDepth := 40) +contextual [Keeps]

@[simp] theorem State.wake_keeps (s : State) : Keeps s (s.wake) := by
  unfold State.wake; (try dsimp only); (repeat' split) <;> simp (maxDischargeDepth := 40) +contextual [Keeps]

@[simp] theorem State.standbyExit_keeps (s : State) (rto : ReplyTo) : Keeps s (s.standbyExit rto) := by
  unfold State.standbyExit; (try dsimp only); (repeat' split) <;> simp (maxDischargeDepth := 40) +contextual [Keeps]

@[simp] theorem State.retentionLost_keeps (s : State) : Keeps s (s.retentionLost) := by
  unfold State.retentionLost; (try dsimp only); (repeat' split) <;> simp (maxDischargeDepth := 40) +contextual [Keeps]

@[simp] theorem State.cutStore_keeps (s : State) : Keeps s s.cutStore := by
  refine ⟨rfl, rfl, rfl, rfl, rfl, fun h => ?_, fun _ => waitLaw_nil⟩
  unfold State.cutStore; cases s.sst.serving <;> simp [h]

/-! ### Operations of the start-up -/

@[simp] theorem State.rebuildCreds_keeps (s : State) : Keeps s (s.rebuildCreds) := by
  unfold State.rebuildCreds; (try dsimp only); (repeat' split) <;> simp (maxDischargeDepth := 40) +contextual [Keeps]

@[simp] theorem State.rebuildKeys_keeps (s : State) : Keeps s (s.rebuildKeys) := by
  unfold State.rebuildKeys; (try dsimp only); (repeat' split) <;> simp (maxDischargeDepth := 40) +contextual [Keeps]

@[simp] theorem State.rebuildStage_keeps (s : State) : Keeps s (s.rebuildStage) := by
  unfold State.rebuildStage; (try dsimp only); (repeat' split) <;> simp (maxDischargeDepth := 40) +contextual [Keeps]

@[simp] theorem State.rebuildTable_keeps (s : State) : Keeps s (s.rebuildTable) := by
  unfold State.rebuildTable; (try dsimp only); (repeat' split) <;> simp (maxDischargeDepth := 40) +contextual [Keeps]

@[simp] theorem State.resolveRange_keeps (s : State) (r : Nat) : Keeps s (s.resolveRange r) := by
  unfold State.resolveRange; (try dsimp only); (repeat' split) <;> simp (maxDischargeDepth := 40) +contextual [Keeps]

@[simp] theorem State.resolveEnvelopes_keeps (s : State) : Keeps s (s.resolveEnvelopes) := by
  unfold State.resolveEnvelopes; (try dsimp only); (repeat' split) <;> simp (maxDischargeDepth := 40) +contextual [Keeps]

@[simp] theorem State.takeSplit_keeps (s : State) (a : ActiveJob) (w : Nat) : Keeps s (s.takeSplit a w) := by
  unfold State.takeSplit; (try dsimp only); (repeat' split) <;> simp (maxDischargeDepth := 40) +contextual [Keeps]

@[simp] theorem State.recoverJob_keeps (s : State) (a : ActiveJob) (rest : List Job) (p : Option (Option ProgressJob)) : Keeps s (s.recoverJob a rest p) := by
  unfold State.recoverJob; (try dsimp only); (repeat' split) <;> simp (maxDischargeDepth := 40) +contextual [Keeps]

@[simp] theorem State.finishRecovered_keeps (s : State) (a : ActiveJob) (rest : List Job) : Keeps s (s.finishRecovered a rest) := by
  unfold State.finishRecovered; (try dsimp only); (repeat' split) <;> simp (maxDischargeDepth := 40) +contextual [Keeps]

@[simp] theorem State.recoverJobs_keeps (s : State) (q : QueuePart) (p : Option (Option ProgressJob)) : Keeps s (s.recoverJobs q p) := by
  unfold State.recoverJobs; (try dsimp only); (repeat' split) <;> simp (maxDischargeDepth := 40) +contextual [Keeps]

@[simp] theorem State.loseSplit_keeps (s : State) (r : Nat) : Keeps s (s.loseSplit r) := by
  unfold State.loseSplit; (try dsimp only); (repeat' split) <;> simp (maxDischargeDepth := 40) +contextual [Keeps]

@[simp] theorem State.rebuildRekey_keeps (s : State) : Keeps s (s.rebuildRekey) := by
  unfold State.rebuildRekey; (try dsimp only); (repeat' split) <;> simp (maxDischargeDepth := 40) +contextual [Keeps]

@[simp] theorem State.loseNamed_keeps (s : State) (r : Nat) : Keeps s (s.loseNamed r) := by
  unfold State.loseNamed; (try dsimp only); (repeat' split) <;> simp (maxDischargeDepth := 40) +contextual [Keeps]

@[simp] theorem State.loseAllNamed_keeps (s : State) : Keeps s (s.loseAllNamed) := by
  unfold State.loseAllNamed; (try dsimp only); (repeat' split) <;> simp (maxDischargeDepth := 40) +contextual [Keeps]

@[simp] theorem State.loseKeys_keeps (s : State) : Keeps s (s.loseKeys) := by
  unfold State.loseKeys; (try dsimp only); (repeat' split) <;> simp (maxDischargeDepth := 40) +contextual [Keeps]

@[simp] theorem State.startApply_keeps (s : State) (p : Plan) (l : StagedList) : Keeps s (s.startApply p l) := by
  unfold State.startApply; (try dsimp only); (repeat' split) <;> simp (maxDischargeDepth := 40) +contextual [Keeps]

@[simp] theorem State.startReject_keeps (s : State) (l : StagedList) : Keeps s (s.startReject l) := by
  unfold State.startReject; (try dsimp only); (repeat' split) <;> simp (maxDischargeDepth := 40) +contextual [Keeps]

@[simp] theorem State.settleStaged_keeps (s : State) : Keeps s (s.settleStaged) := by
  unfold State.settleStaged; (try dsimp only); (repeat' split) <;> simp (maxDischargeDepth := 40) +contextual [Keeps]

@[simp] theorem State.handoffSlot_keeps (s : State) (k : Nat) : Keeps s (s.handoffSlot k) := by
  unfold State.handoffSlot; (try dsimp only); (repeat' split) <;> simp (maxDischargeDepth := 40) +contextual [Keeps]

@[simp] theorem State.handoff_keeps (s : State) : Keeps s (s.handoff) := by
  unfold State.handoff; (try dsimp only); (repeat' split) <;> simp (maxDischargeDepth := 40) +contextual [Keeps]

@[simp] theorem State.rebuildResponse_keeps (s : State) : Keeps s (s.rebuildResponse) := by
  unfold State.rebuildResponse; (try dsimp only); (repeat' split) <;> simp (maxDischargeDepth := 40) +contextual [Keeps]

@[simp] theorem State.rebuildChains_keeps (s : State) : Keeps s (s.rebuildChains) := by
  unfold State.rebuildChains; (try dsimp only); (repeat' split) <;> simp (maxDischargeDepth := 40) +contextual [Keeps]

@[simp] theorem State.giveAgain_keeps (s : State) : Keeps s (s.giveAgain) := by
  unfold State.giveAgain; (try dsimp only); (repeat' split) <;> simp (maxDischargeDepth := 40) +contextual [Keeps]

@[simp] theorem State.rebuildWipe_keeps (s : State) : Keeps s (s.rebuildWipe) := by
  unfold State.rebuildWipe; (try dsimp only); (repeat' split) <;> simp (maxDischargeDepth := 40) +contextual [Keeps]

@[simp] theorem State.chooseBoot_keeps (s : State) : Keeps s (s.chooseBoot) := by
  unfold State.chooseBoot; (try dsimp only); (repeat' split) <;> simp (maxDischargeDepth := 40) +contextual [Keeps]

@[simp] theorem State.dropCustodians_keeps (s : State) (r : Nat) : Keeps s (s.dropCustodians r) := by
  unfold State.dropCustodians; (try dsimp only); (repeat' split) <;> simp (maxDischargeDepth := 40) +contextual [Keeps]

@[simp] theorem State.undoProvision_keeps (s : State) : Keeps s (s.undoProvision) := by
  unfold State.undoProvision; (try dsimp only); (repeat' split) <;> simp (maxDischargeDepth := 40) +contextual [Keeps]

@[simp] theorem State.startLocks_keeps (s : State) : Keeps s (s.startLocks) := by
  unfold State.startLocks; (try dsimp only); (repeat' split) <;> simp (maxDischargeDepth := 40) +contextual [Keeps]

@[simp] theorem State.startSettle_keeps (s : State) : Keeps s (s.startSettle) := by
  unfold State.startSettle; (try dsimp only); (repeat' split) <;> simp (maxDischargeDepth := 40) +contextual [Keeps]

@[simp] theorem State.takeLatch_keeps (s : State) (warm : Bool) (edges : List Nat) : Keeps s (s.takeLatch warm edges) := by
  unfold State.takeLatch; (try dsimp only); (repeat' split) <;> simp (maxDischargeDepth := 40) +contextual [Keeps]

@[simp] theorem State.rebuild_keeps (s : State) : Keeps s (s.rebuild) := by
  unfold State.rebuild; (try dsimp only); (repeat' split) <;> simp (maxDischargeDepth := 40) +contextual [Keeps]

@[simp] theorem State.startUpComplete_keeps (s : State) : Keeps s (s.startUpComplete) := by
  unfold State.startUpComplete; (try dsimp only); (repeat' split) <;> simp (maxDischargeDepth := 40) +contextual [Keeps]

end Sys2Proof.Machine
end

