-- ==== Sys2Proof/Laws/Writes.lean ====
section
/-! SUPPORT. Where a placed write stands (R154): the store holds it with its content and its requesters, it keeps the
writes of other units, and it changes no content that another write would carry. -/

set_option Elab.async false

namespace Sys2Proof.Machine

/-! ### Where a write stands -/

/-- A placed write is held by the store with its content and its requesters (R154). -/
theorem place_holds (s : State) (u : StoreUnit) (c : Record) (ws : List Waiter) (w : Waiter) (h : w ∈ ws) :
    (s.place u c ws).holds u c w := by
  have rep : ∀ l : List Write, l.any (fun x => x.unit == u) = true →
      ∃ x ∈ replaceWrite u c ws l, x.unit = u ∧ x.content = c ∧ w ∈ x.waiters := by
    intro l hl
    simp only [List.any_eq_true, beq_iff_eq] at hl
    obtain ⟨x, hx, rfl⟩ := hl
    exact ⟨{ x with content := c, waiters := x.waiters ++ ws }, by
      simp only [replaceWrite, List.mem_map]; exact ⟨x, hx, by simp⟩, rfl, rfl, by simp [h]⟩
  unfold State.place State.holds
  dsimp only
  split
  · rename_i hq
    obtain ⟨x, hx, k⟩ := rep _ hq
    exact ⟨x, by simp [hx], k⟩
  · split
    · rename_i hw
      obtain ⟨x, hx, k⟩ := rep _ hw
      exact ⟨x, by simp [hx], k⟩
    · split
      · exact ⟨⟨u, c, ws⟩, by simp, rfl, rfl, h⟩
      · exact ⟨⟨u, c, ws⟩, by simp, rfl, rfl, h⟩

/-- A placed write is held by the store with its content, whoever asked for it (R154). -/
theorem place_held (s : State) (u : StoreUnit) (c : Record) (ws : List Waiter) :
    ∃ x ∈ (s.place u c ws).writesHeld, x.unit = u ∧ x.content = c := by
  have rep : ∀ l : List Write, l.any (fun x => x.unit == u) = true →
      ∃ x ∈ replaceWrite u c ws l, x.unit = u ∧ x.content = c := by
    intro l hl
    simp only [List.any_eq_true, beq_iff_eq] at hl
    obtain ⟨x, hx, e⟩ := hl
    exact ⟨_, List.mem_map.mpr ⟨x, hx, rfl⟩, by simp [e]⟩
  unfold State.place State.writesHeld
  dsimp only
  split
  · rename_i hq
    obtain ⟨x, hx, k⟩ := rep _ hq
    exact ⟨x, by simp [hx], k⟩
  · split
    · rename_i hw
      obtain ⟨x, hx, k⟩ := rep _ hw
      exact ⟨x, by simp [hx], k⟩
    · split <;> exact ⟨⟨u, c, ws⟩, by simp, rfl, rfl⟩

/-- Taking the next write into service loses none (R155). -/
theorem serve_holds (s : State) (u : StoreUnit) (c : Record) (w : Waiter) (h : s.holds u c w) : s.serve.holds u c w := by
  obtain ⟨x, hx, k⟩ := h
  unfold State.serve State.holds
  split
  · next y q e1 e2 =>
    rw [e1, e2] at hx
    split
    · next z l e3 =>
      rw [e3] at hx
      refine ⟨x, ?_, k⟩
      simpa using hx
    · next e3 =>
      rw [e3] at hx
      refine ⟨x, ?_, k⟩
      simpa [e3] using hx
  · exact ⟨x, hx, k⟩

/-- A write of a unit is held with its content as it stands. -/
theorem write_holds (s : State) (u : StoreUnit) (ws : List Waiter) (w : Waiter) (h : w ∈ ws) :
    (s.write u ws).serve.holds u (s.recordOf u) w := serve_holds _ _ _ _ (place_holds _ _ _ _ _ h)

/-! ### What is held stays held -/

/-- A write of another unit leaves what is held (R154). -/
theorem place_holds_other (s : State) (u v : StoreUnit) (c d : Record) (ws : List Waiter) (w : Waiter) (h : u ≠ v)
    (k : s.holds v d w) : (s.place u c ws).holds v d w := by
  obtain ⟨x, hx, rfl, k⟩ := k
  have keep : ∀ l : List Write, x ∈ l → x ∈ replaceWrite u c ws l := fun l hl =>
    List.mem_map.mpr ⟨x, hl, by simp [h.symm]⟩
  unfold State.place State.holds
  dsimp only
  split
  · refine ⟨x, ?_, rfl, k⟩
    simp only [List.mem_append] at hx ⊢
    exact hx.imp (Or.imp_right (keep _)) id
  · split
    · refine ⟨x, ?_, rfl, k⟩
      simp only [List.mem_append] at hx ⊢
      exact hx.imp id (keep _)
    · split
      · refine ⟨x, ?_, rfl, k⟩
        simp only [List.mem_append] at hx ⊢
        exact hx.imp (Or.imp_right Or.inl) id
      · refine ⟨x, ?_, rfl, k⟩
        simp only [List.mem_append] at hx ⊢
        exact hx.imp id Or.inl

/-- A further write of the same unit with the same content leaves what is held. -/
theorem place_holds_same (s : State) (u : StoreUnit) (c : Record) (ws : List Waiter) (w : Waiter)
    (k : s.holds u c w) : (s.place u c ws).holds u c w := by
  obtain ⟨x, hx, rfl, rfl, k⟩ := k
  have keep : ∀ l : List Write, x ∈ l → ∃ y ∈ replaceWrite x.unit x.content ws l,
      y.unit = x.unit ∧ y.content = x.content ∧ w ∈ y.waiters := fun l hl =>
    ⟨_, List.mem_map.mpr ⟨x, hl, rfl⟩, by simp [k]⟩
  unfold State.place State.holds
  dsimp only
  simp only [List.mem_append] at hx
  split
  · rcases hx with (hx | hx) | hx
    · exact ⟨x, by simp [hx], rfl, rfl, k⟩
    · obtain ⟨y, hy, e⟩ := keep _ hx
      exact ⟨y, by simp [hy], e⟩
    · exact ⟨x, by simp [hx], rfl, rfl, k⟩
  · split
    · rcases hx with (hx | hx) | hx
      · exact ⟨x, by simp [hx], rfl, rfl, k⟩
      · exact ⟨x, by simp [hx], rfl, rfl, k⟩
      · obtain ⟨y, hy, e⟩ := keep _ hx
        exact ⟨y, by simp [hy], e⟩
    · split
      · exact ⟨x, by simp only [List.mem_append]; exact hx.imp (Or.imp_right Or.inl) id, rfl, rfl, k⟩
      · exact ⟨x, by simp only [List.mem_append]; exact hx.imp id Or.inl, rfl, rfl, k⟩

/-- A change that leaves the store's writes leaves what is held. -/
theorem holds_of_eq {s t : State} (h1 : t.sst.queue = s.sst.queue) (h2 : t.sst.waiting = s.sst.waiting)
    (h3 : t.sst.serving = s.sst.serving) (u : StoreUnit) (c : Record) (w : Waiter) : t.holds u c w ↔ s.holds u c w := by
  unfold State.holds; rw [h1, h2, h3]

/-- A write changes no content that a write would carry: the content is the owner's (R153, 9.2). -/
@[simp] theorem place_recordOf (s : State) (u v : StoreUnit) (c : Record) (ws : List Waiter) :
    (s.place u c ws).recordOf v = s.recordOf v := by
  cases v <;> simp [State.recordOf, State.cred, State.slot, State.fields, State.entry, State.setting,
    State.responseRecord, State.queueRecord, State.progressRecord, State.leaving, State.cleared, State.activeJob,
    State.headJob, State.recordedChunk, State.recordedCopying, State.recordedMark] <;> rfl

@[simp] theorem write_recordOf (s : State) (u v : StoreUnit) (ws : List Waiter) :
    (s.write u ws).recordOf v = s.recordOf v := place_recordOf _ _ _ _ _

/-- A write of a unit is held with its content as it stands, whoever asked for it. -/
theorem write_hasWrite (s : State) (u : StoreUnit) (ws : List Waiter) : (s.write u ws).hasWrite u := by
  obtain ⟨x, h, e, k⟩ := place_held s u (s.recordOf u) ws
  exact ⟨x, h, e, by rw [k, write_recordOf]⟩

/-- An answer touches no write and no content (R165). -/
theorem answer_hasWrite (s : State) (rto : ReplyTo) (b : Body) (u : StoreUnit) (h : s.hasWrite u) :
    (s.answer rto b).hasWrite u := by
  have e : (s.answer rto b).recordOf u = s.recordOf u := by
    cases u <;> simp [State.recordOf, State.cred, State.slot, State.fields, State.entry, State.setting,
      State.responseRecord, State.queueRecord, State.progressRecord, State.leaving, State.cleared, State.activeJob,
      State.headJob, State.recordedChunk, State.recordedCopying, State.recordedMark] <;> rfl
  obtain ⟨x, hx, k⟩ := h
  exact ⟨x, by simpa [State.writesHeld] using hx, by rw [e]; exact k⟩

@[simp] theorem writeAll_recordOf (us : List StoreUnit) (w : Waiter) (s : State) (v : StoreUnit) :
    (s.writeAll us w).recordOf v = s.recordOf v := by
  unfold State.writeAll
  induction us generalizing s with
  | nil => rfl
  | cons a l ih => simp [ih]

@[simp] theorem serve_recordOf (s : State) (v : StoreUnit) : s.serve.recordOf v = s.recordOf v := by
  cases v <;> simp [State.recordOf, State.cred, State.slot, State.fields, State.entry, State.setting,
    State.responseRecord, State.queueRecord, State.progressRecord, State.leaving, State.cleared, State.activeJob,
    State.headJob, State.recordedChunk, State.recordedCopying, State.recordedMark] <;> rfl

/-- A write of any unit with its content as it stands leaves what is held with its content as it stands. -/
theorem write_keeps_holds (s : State) (u v : StoreUnit) (ws : List Waiter) (w : Waiter)
    (k : s.holds v (s.recordOf v) w) : (s.write u ws).holds v (s.recordOf v) w := by
  by_cases h : u = v
  · subst h; exact place_holds_same _ _ _ _ _ k
  · exact place_holds_other _ _ _ _ _ _ _ h k

theorem writeAll_keeps_holds (us : List StoreUnit) (r : Waiter) (s : State) (v : StoreUnit) (w : Waiter)
    (k : s.holds v (s.recordOf v) w) : (s.writeAll us r).holds v (s.recordOf v) w := by
  unfold State.writeAll
  induction us generalizing s with
  | nil => exact k
  | cons a l ih =>
    rw [List.foldl_cons, ← write_recordOf s a v [r]]
    exact ih _ (by rw [write_recordOf]; exact write_keeps_holds _ _ _ _ _ k)

/-- Every unit of a list is held after the list's writes, with its content as it stands. -/
theorem writeAll_holds (us : List StoreUnit) (r : Waiter) (s : State) (v : StoreUnit) (h : v ∈ us) :
    (s.writeAll us r).holds v (s.recordOf v) r := by
  unfold State.writeAll
  induction us generalizing s with
  | nil => cases h
  | cons a l ih =>
    rw [List.foldl_cons, ← write_recordOf s a v [r]]
    rcases List.mem_cons.mp h with rfl | h
    · exact writeAll_keeps_holds l r _ _ _ (by rw [write_recordOf]; exact place_holds _ _ _ _ _ (by simp))
    · exact ih _ h

/-! ### What else is held -/

/-- Nothing is placed. -/
theorem writesOnly_of_eq {s t : State} (h1 : t.sst.queue = s.sst.queue) (h2 : t.sst.waiting = s.sst.waiting)
    (h3 : t.sst.serving = s.sst.serving) (us : List StoreUnit) : WritesOnly us s t := by
  intro w _; simp [State.writesHeld, h1, h2, h3]

theorem WritesOnly.refl (us : List StoreUnit) (s : State) : WritesOnly us s s := fun _ _ => Iff.rfl

theorem WritesOnly.trans {us vs : List StoreUnit} {s t r : State} (h : WritesOnly us s t) (k : WritesOnly vs t r) :
    WritesOnly (us ++ vs) s r := fun w hw =>
  (k w (fun m => hw (List.mem_append_right _ m))).trans (h w (fun m => hw (List.mem_append_left _ m)))

theorem WritesOnly.mono {us vs : List StoreUnit} {s t : State} (h : WritesOnly us s t) (k : ∀ u ∈ us, u ∈ vs) :
    WritesOnly vs s t := fun w hw => h w (fun m => hw (k _ m))

/-- A placed write is of its unit alone. -/
theorem place_only (s : State) (u : StoreUnit) (c : Record) (ws : List Waiter) : WritesOnly [u] s (s.place u c ws) := by
  intro w hw
  have ne : w.unit ≠ u := by simpa using hw
  have keep : ∀ l : List Write, w ∈ replaceWrite u c ws l ↔ w ∈ l := by
    intro l
    simp only [replaceWrite, List.mem_map]
    constructor
    · rintro ⟨x, hx, e⟩
      split at e
      · rename_i hu; subst e; exact absurd hu ne
      · exact e ▸ hx
    · exact fun h => ⟨w, h, by simp [ne]⟩
  have new : w ≠ { unit := u, content := c, waiters := ws } := fun e => ne (by rw [e])
  unfold State.place State.writesHeld
  dsimp only
  (repeat' split) <;> simp [keep, new]

theorem write_only (s : State) (u : StoreUnit) (ws : List Waiter) : WritesOnly [u] s (s.write u ws) := place_only _ _ _ _

theorem writeAll_only (us : List StoreUnit) (r : Waiter) (s : State) : WritesOnly us s (s.writeAll us r) := by
  unfold State.writeAll
  induction us generalizing s with
  | nil => exact WritesOnly.refl _ _
  | cons a l ih => exact (write_only s a [r]).trans (ih _)

theorem writeDevice_only (s : State) (g : DeviceRecord → DeviceRecord) (ws : List Waiter) :
    WritesOnly [.device] s (s.writeDevice g ws) :=
  (writesOnly_of_eq (us := []) rfl rfl rfl).trans (place_only _ _ _ _)

/-- Taking a write into service loses and changes none. -/
theorem serve_writesHeld (s : State) (w : Write) : w ∈ s.serve.writesHeld ↔ w ∈ s.writesHeld := by
  unfold State.serve State.writesHeld
  split
  · next y q e1 e2 =>
    split
    · next z l e3 => simp [e1, e2, e3]
    · next e3 => simp [e1, e2, e3]
  · exact Iff.rfl

end Sys2Proof.Machine
end

