-- ==== Sys2Proof/Laws/Loads.lean ====
section
/-! SUPPORT. What the ends of references and the loads of ranges can do to key slots, loads and waiting writes
(R28, R30, R33, R34, R36, R90). -/

set_option Elab.async false

namespace Sys2Proof.Machine

/-! ### Reads after an update -/

theorem slot_mapSlot (s : State) (k x : Nat) (g : KeySlot → KeySlot) :
    (s.mapSlot k g).slot x = if x = k ∧ x < s.kst.slots.length then g (s.slot x) else s.slot x := by
  unfold State.slot State.mapSlot
  simp only [List.getElem?_modify]
  by_cases h : k = x
  · subst h
    by_cases hl : k < s.kst.slots.length
    · simp [hl]
    · simp [hl]
  · rw [if_neg (fun e => h e.1.symm)]; simp [h]

theorem load_setLoad (s : State) (r q : Nat) (l : Load) :
    (s.setLoad r l).load q = if q = r ∧ r < s.kst.loads.length then l else s.load q := by
  unfold State.load State.setLoad
  simp only [List.getElem?_set]
  by_cases h : r = q
  · subst h
    by_cases hl : r < s.kst.loads.length
    · simp [hl]
    · simp [hl]
  · rw [if_neg h, if_neg (fun e => h e.1.symm)]

theorem entry_setEntry (s : State) (r q : Nat) (e : Entry) :
    (s.setEntry r e).entry q = if q = r ∧ r < s.rtb.entries.length then e else s.entry q := by
  unfold State.entry State.setEntry
  simp only [List.getElem?_set]
  by_cases h : r = q
  · subst h
    by_cases hl : r < s.rtb.entries.length
    · simp [hl]
    · simp [hl]
  · rw [if_neg h, if_neg (fun e => h e.1.symm)]

/-- A slot that is not EMPTY is one of the table. -/
theorem slot_lt (s : State) (x : Nat) (h : (s.slot x).state ≠ .empty) : x < s.kst.slots.length := by
  rcases Nat.lt_or_ge x s.kst.slots.length with hx | hx
  · exact hx
  · exact absurd (by simp [State.slot, List.getElem?_eq_none hx, KeySlot.blank]) h

/-- A range that is ENABLED is one of the table. -/
theorem fields_lt (s : State) (r : Nat) (g : RangeFields) (h : s.fields r = some g) : r < s.rtb.entries.length := by
  rcases Nat.lt_or_ge r s.rtb.entries.length with hx | hx
  · exact hx
  · simp [State.fields, State.entry, List.getElem?_eq_none hx, Entry.fields?] at h

/-! ### The ends of references -/

/-- Two slots differ at most in their users, copy and erasing. -/
def KeySlot.alike (x y : KeySlot) : Prop := y = { x with users := y.users, copy := y.copy, erasing := y.erasing }

theorem KeySlot.alike_refl (x : KeySlot) : x.alike x := rfl

theorem KeySlot.alike.trans {x y z : KeySlot} (h : x.alike y) (k : y.alike z) : x.alike z := by
  unfold KeySlot.alike at *; rw [k, h]

/-- What ends a reference changes of the Key Store: users, copies and erasures, and KEY writes. -/
def Loosened (s t : State) : Prop :=
  (∀ x, (s.slot x).alike (t.slot x)) ∧ t.rtb = s.rtb ∧ t.rke = s.rke ∧ t.kst.reservation = s.kst.reservation ∧
  (Shaped s → Shaped t ∧ WritesOnly ((List.range 24).map StoreUnit.key) s t)

/-- A LOADED range stays LOADED. -/
def LoadsKept (s t : State) : Prop := ∀ q k, s.load q = .loaded k → t.load q = .loaded k

theorem Loosened.refl (s : State) : Loosened s s :=
  ⟨fun _ => KeySlot.alike_refl _, rfl, rfl, rfl, fun h => ⟨h, WritesOnly.refl _ _⟩⟩

theorem Loosened.trans {s t u : State} (h : Loosened s t) (k : Loosened t u) : Loosened s u := by
  obtain ⟨h1, h2, h3, h4, h5⟩ := h
  obtain ⟨k1, k2, k3, k4, k5⟩ := k
  refine ⟨fun x => (h1 x).trans (k1 x), k2.trans h2, k3.trans h3, k4.trans h4, fun hs => ?_⟩
  obtain ⟨a, b⟩ := h5 hs
  obtain ⟨c, d⟩ := k5 a
  exact ⟨c, (b.trans d).mono (by simp)⟩

theorem Loosened.foldl {α : Type} (f : State → α → State) (h : ∀ s a, Loosened s (f s a)) (l : List α) (s : State) :
    Loosened s (l.foldl f s) := by
  induction l generalizing s with
  | nil => exact Loosened.refl _
  | cons a l ih => exact (h s a).trans (ih _)

theorem LoadsKept.trans {s t u : State} (h : LoadsKept s t) (k : LoadsKept t u) : LoadsKept s u :=
  fun q x e => k q x (h q x e)

theorem LoadsKept.foldl {α : Type} (f : State → α → State) (h : ∀ s a, LoadsKept s (f s a)) (l : List α) (s : State) :
    LoadsKept s (l.foldl f s) := by
  induction l generalizing s with
  | nil => exact fun _ _ e => e
  | cons a l ih => exact (h s a).trans (ih _)

theorem loosened_mapSlot (s : State) (k : Nat) (g : KeySlot → KeySlot) (h : ∀ x : KeySlot, x.alike (g x)) :
    Loosened s (s.mapSlot k g) := by
  refine ⟨fun x => ?_, by simp, by simp, by simp [State.mapSlot], fun hs => ⟨?_, ?_⟩⟩
  · rw [slot_mapSlot]; split
    · exact h _
    · exact KeySlot.alike_refl _
  · exact (State.mapSlot_keeps s k g).2.2.2.2.2.1 hs
  · exact writesOnly_of_eq (by simp) (by simp) (by simp) _

/-- The shape is kept by what keeps everything. -/
theorem Keeps.shaped {s t : State} (h : Keeps s t) : Shaped s → Shaped t := h.2.2.2.2.2.1

theorem State.settleSlot_loosened (s : State) (k : Nat) : Loosened s (s.settleSlot k) := by
  refine ⟨fun x => ?_, by simp, by simp, by simp, fun hs => ⟨(State.settleSlot_keeps s k).shaped hs, ?_⟩⟩
  · unfold State.settleSlot
    split
    · simp only [State.slot, State.write_frame]
      exact (loosened_mapSlot s k (fun x => { x with copy := none, erasing := true }) (fun _ => rfl)).1 x
    · exact KeySlot.alike_refl _
  · unfold State.settleSlot
    split
    · next h =>
      have hk : k < 24 := Shaped.keySlots hs ▸ slot_lt s k (by rw [h.1]; decide)
      exact ((writesOnly_of_eq (us := []) (by simp) (by simp) (by simp)).trans (write_only _ (.key k) _)).mono (by simpa using hk)
    · exact WritesOnly.refl _ _

theorem State.dropRange_loosened (s : State) (r : Nat) : Loosened s (s.dropRange r) := by
  have h := Loosened.foldl (fun t k => t.mapSlot k (fun x => { x with copy := none }))
    (fun t k => loosened_mapSlot t k _ (fun _ => rfl)) (s.ownedSlots r) s
  refine h.trans ⟨fun x => KeySlot.alike_refl _, rfl, rfl, rfl, fun hs => ⟨(State.setLoad_keeps _ _ _).shaped hs, ?_⟩⟩
  exact writesOnly_of_eq rfl rfl rfl _

theorem State.setLoad_loosened (s : State) (r : Nat) (l : Load) : Loosened s (s.setLoad r l) :=
  ⟨fun _ => KeySlot.alike_refl _, rfl, rfl, rfl, fun hs => ⟨(State.setLoad_keeps _ _ _).shaped hs, writesOnly_of_eq rfl rfl rfl _⟩⟩

theorem State.settleRange_loosened (s : State) (r : Nat) : Loosened s (s.settleRange r) := by
  unfold State.settleRange
  (repeat' split) <;> first | exact Loosened.refl _ | exact State.dropRange_loosened _ _

theorem State.unload_loosened (s : State) (r : Nat) : Loosened s (s.unload r) := by
  unfold State.unload
  (repeat' split) <;> first | exact Loosened.refl _ | exact State.dropRange_loosened _ _ | exact State.setLoad_loosened _ _ _

theorem State.dropUser_loosened (s : State) (k : Nat) : Loosened s (s.dropUser k) := by
  have h := (loosened_mapSlot s k (fun x => { x with users := x.users - 1 }) (fun _ => rfl)).trans (State.settleSlot_loosened _ k)
  unfold State.dropUser
  split
  · exact h.trans (State.settleRange_loosened _ _)
  · exact h

theorem State.addUser_loosened (s : State) (k : Nat) : Loosened s (s.addUser k) :=
  loosened_mapSlot s k (fun x => { x with users := x.users + 1 }) (fun _ => rfl)

/-- A change that touches neither the Key Store, the table, the sweep nor the store loosens nothing. -/
theorem Loosened.of_eq {s t : State} (h1 : t.kst.slots = s.kst.slots) (h2 : t.rtb = s.rtb) (h3 : t.rke = s.rke)
    (h4 : t.kst.reservation = s.kst.reservation) (h5 : t.sst = s.sst) (h6 : Shaped s → Shaped t) : Loosened s t :=
  ⟨fun x => by simp [State.slot, h1, KeySlot.alike], h2, h3, h4,
    fun hs => ⟨h6 hs, writesOnly_of_eq (by rw [h5]) (by rw [h5]) (by rw [h5]) _⟩⟩

theorem State.freeContext_loosened (s : State) (c : Nat) : Loosened s (s.freeContext c) := by
  unfold State.freeContext
  split
  · exact Loosened.refl _
  · exact (Loosened.of_eq (by simp) (by simp) (by simp) (by simp) (by simp) (State.setCtx_keeps _ _ _).shaped).trans
      (Loosened.foldl _ State.dropUser_loosened _ _)

theorem State.abort_loosened (s : State) (cause : AbortCause) (c : Nat) : Loosened s (s.abort cause c) := by
  unfold State.abort
  split
  · exact Loosened.refl _
  · exact (State.freeContext_loosened s c).trans
      (Loosened.of_eq (by simp) (by simp) (by simp) (by simp) (by simp) (State.owe_keeps _ _ _ _ _).shaped)

theorem State.abortAll_loosened (s : State) (cause : AbortCause) (p : OpenContext → Bool) : Loosened s (s.abortAll cause p) :=
  Loosened.foldl _ (fun t c => State.abort_loosened t cause c) _ _

theorem State.releaseHold_loosened (s : State) : Loosened s s.releaseHold := by
  unfold State.releaseHold
  split
  · exact Loosened.refl _
  · next h _ =>
    have k := ((Loosened.of_eq (s := s) (t := { s with kst := { s.kst with hold := none } }) rfl rfl rfl rfl rfl
      (by simp only [Shaped]; exact id)).trans (State.dropUser_loosened _ h.oldKey)).trans (State.dropUser_loosened _ h.newKey)
    dsimp only
    split
    · exact k.trans (State.unload_loosened _ _)
    · exact k.trans (State.settleRange_loosened _ _)

/-! ### What stays LOADED -/

theorem State.dropRange_loads (s : State) (r : Nat) (h : ∀ k, s.load r ≠ .loaded k) : LoadsKept s (s.dropRange r) := by
  intro q k e
  have : q ≠ r := fun x => h k (x ▸ e)
  unfold State.dropRange
  rw [load_setLoad, if_neg (fun x => this x.1)]
  simpa [State.load] using e

theorem State.settleRange_loads (s : State) (r : Nat) : LoadsKept s (s.settleRange r) := by
  unfold State.settleRange
  split
  · next k e => split
                · exact fun _ _ e => e
                · exact State.dropRange_loads s r (fun k' => by rw [e]; simp)
  · exact fun _ _ e => e

theorem State.dropUser_loads (s : State) (k : Nat) : LoadsKept s (s.dropUser k) := by
  have h : LoadsKept s ((s.mapSlot k (fun x => { x with users := x.users - 1 })).settleSlot k) := by
    intro q x e; simpa [State.load] using e
  unfold State.dropUser
  split
  · exact h.trans (State.settleRange_loads _ _)
  · exact h

theorem State.abortAll_loads (s : State) (cause : AbortCause) (p : OpenContext → Bool) : LoadsKept s (s.abortAll cause p) := by
  refine LoadsKept.foldl _ (fun t c => ?_) _ _
  unfold State.abort
  split
  · exact fun _ _ e => e
  · next x hx =>
    have h : LoadsKept t (t.freeContext c) := by
      unfold State.freeContext; rw [hx]
      refine LoadsKept.trans (t := t.setCtx c { (t.ctx c) with xfer := none }) (fun q k e => by simpa [State.load] using e) ?_
      exact LoadsKept.foldl _ State.dropUser_loads _ _
    exact h.trans (fun q k e => by simpa [State.load] using e)

/-! ### Aborts (R90) -/

/-- No context that the test picks is OPEN: nothing is aborted. -/
theorem State.abortAll_none (s : State) (cause : AbortCause) (p : OpenContext → Bool)
    (h : ∀ c < 16, ∀ x, (s.ctx c).xfer = some x → p x = false) : s.abortAll cause p = s := by
  have e : s.openContexts.filter (fun q => p q.2) = [] := by
    rw [List.filter_eq_nil_iff]
    intro q hq
    simp only [State.openContexts, List.mem_filterMap, List.mem_range, Option.map_eq_some_iff] at hq
    obtain ⟨c, hc, x, hx, rfl⟩ := hq
    simp [h c hc x hx]
  simp [State.abortAll, e]

theorem ctx_setCtx (s : State) (c j : Nat) (x : Context) (h : c < s.dpu.contexts.length) :
    (s.setCtx c x).ctx j = if j = c then x else s.ctx j := by
  unfold State.ctx State.setCtx
  simp only [List.getElem?_set]
  by_cases e : c = j
  · subst e; simp [h]
  · rw [if_neg e, if_neg (fun k => e k.symm)]

/-- R90: the abort of one OPEN context. -/
theorem State.abort_open (s : State) (cause : AbortCause) (c : Nat) (x : OpenContext) (hc : c < s.dpu.contexts.length)
    (hx : (s.ctx c).xfer = some x) :
    (∀ j, (s.abort cause c).ctx j = if j = c then { s.ctx c with xfer := none } else s.ctx j) ∧
    (s.abort cause c).dpu.flights = s.dpu.flights ∧
    (s.abort cause c).dpu.contexts.length = s.dpu.contexts.length ∧
    (∀ f ∈ s.sent, f ∈ (s.abort cause c).sent) ∧ (∀ o ∈ s.dpu.owed, o ∈ (s.abort cause c).dpu.owed) ∧
    (let b := Body.aborted c (s.ctx c).generation cause x.nextIndex
     frame x.rto.channel x.rto.tag b ∈ (s.abort cause c).sent ∨
      { context := c, generation := (s.ctx c).generation, body := b, rto := x.rto } ∈ (s.abort cause c).dpu.owed) := by
  have hd : (s.freeContext c).dpu = (s.setCtx c { (s.ctx c) with xfer := none }).dpu := by
    unfold State.freeContext; rw [hx]; exact foldl_dpu _ (fun t k => (State.dropUser_frame t k).2.2.2.2.2.2.1) _ _
  have hctx : ∀ j, (s.freeContext c).ctx j = if j = c then { s.ctx c with xfer := none } else s.ctx j := by
    intro j; rw [← ctx_setCtx s c j _ hc]; simp only [State.ctx, hd]
  unfold State.abort; rw [hx]
  dsimp only
  unfold State.owe
  split
  · refine ⟨hctx, by simp [hd, State.setCtx], by simp [hd, State.setCtx], by simp, ?_, Or.inr (by simp)⟩
    intro o ho; simp only [hd]; exact List.mem_append_left _ ho
  · refine ⟨fun j => ?_, by simp [State.lastWord, hd, State.setCtx], by simp [State.lastWord, hd, State.setCtx], ?_, ?_, Or.inl ?_⟩
    · simpa [State.lastWord, State.ctx] using hctx j
    · intro f hf; simp [State.lastWord, State.send, hf]
    · intro o ho; simpa [State.lastWord, hd, State.setCtx] using ho
    · simp [State.lastWord, State.send, frame]

theorem State.aborts_open (cause : AbortCause) (l : List Nat) (s : State) (hn : l.Nodup)
    (hl : ∀ c ∈ l, c < s.dpu.contexts.length ∧ (s.ctx c).xfer ≠ none) :
    let t := l.foldl (fun t c => t.abort cause c) s
    (∀ j, t.ctx j = if j ∈ l then { s.ctx j with xfer := none } else s.ctx j) ∧ t.dpu.flights = s.dpu.flights ∧
    (∀ f ∈ s.sent, f ∈ t.sent) ∧ (∀ o ∈ s.dpu.owed, o ∈ t.dpu.owed) ∧
    ∀ c ∈ l, ∀ x, (s.ctx c).xfer = some x →
      let b := Body.aborted c (s.ctx c).generation cause x.nextIndex
      frame x.rto.channel x.rto.tag b ∈ t.sent ∨
        { context := c, generation := (s.ctx c).generation, body := b, rto := x.rto } ∈ t.dpu.owed := by
  induction l generalizing s with
  | nil => simp
  | cons a l ih =>
    obtain ⟨ha, hn⟩ := List.nodup_cons.mp hn
    obtain ⟨hal, hax⟩ := hl a (List.mem_cons_self)
    obtain ⟨x, hx⟩ := Option.ne_none_iff_exists'.mp hax
    obtain ⟨a1, a2, a3, a4, a5, a6⟩ := State.abort_open s cause a x hal hx
    have ne : ∀ c ∈ l, c ≠ a := fun c hc e => ha (e ▸ hc)
    obtain ⟨b1, b2, b3, b4, b5⟩ := ih (s.abort cause a) hn (fun c hc => by
      rw [a3, a1, if_neg (ne c hc)]; exact hl c (List.mem_cons_of_mem _ hc))
    refine ⟨fun j => ?_, b2.trans a2, fun f hf => b3 f (a4 f hf), fun o ho => b4 o (a5 o ho), fun c hc y hy => ?_⟩
    · rw [List.foldl_cons, b1]
      by_cases e : j = a
      · subst e; rw [if_neg ha, if_pos List.mem_cons_self, a1, if_pos rfl]
      · rw [a1, if_neg e]; simp [e]
    · rw [List.foldl_cons]
      rcases List.mem_cons.mp hc with rfl | hc
      · rw [hx] at hy; cases hy
        exact a6.imp (b3 _) (b4 _)
      · have := b5 c hc y (by rw [a1, if_neg (ne c hc)]; exact hy)
        rwa [a1, if_neg (ne c hc)] at this

theorem openContexts_numbers (s : State) :
    s.openContexts.map (fun q => q.1) = (List.range 16).filter (fun c => (s.ctx c).xfer.isSome) := by
  unfold State.openContexts
  induction List.range 16 with
  | nil => rfl
  | cons a l ih => cases h : (s.ctx a).xfer <;> simp [h, ih]

/-- R90: the abort of every OPEN context that a test picks. -/
theorem State.abortAll_aborted (s : State) (cause : AbortCause) (p : OpenContext → Bool) (h : Shaped s) :
    ContextsAborted cause p s (s.abortAll cause p) ∧ (s.abortAll cause p).dpu.flights = s.dpu.flights := by
  let l := (s.openContexts.filter (fun q => p q.2)).map (fun q => q.1)
  have mem : ∀ c, c ∈ l ↔ c < 16 ∧ ∃ x, (s.ctx c).xfer = some x ∧ p x = true := by
    intro c
    simp only [l, State.openContexts, List.mem_map, List.mem_filter, List.mem_filterMap, List.mem_range,
      Option.map_eq_some_iff]
    constructor
    · rintro ⟨q, ⟨⟨d, hd, x, hx, rfl⟩, hp⟩, rfl⟩; exact ⟨hd, x, hx, hp⟩
    · rintro ⟨hc, x, hx, hp⟩; exact ⟨(c, x), ⟨⟨c, hc, x, hx, rfl⟩, hp⟩, rfl⟩
  have nd : l.Nodup := by
    have e : l.Sublist (s.openContexts.map (fun q => q.1)) := List.filter_sublist.map _
    exact e.nodup (by rw [openContexts_numbers]; exact List.filter_sublist.nodup List.nodup_range)
  have hl : s.dpu.contexts.length = 16 := Shaped.contexts h
  obtain ⟨a1, a2, _, _, a5⟩ := State.aborts_open cause l s nd (fun c hc => by
    obtain ⟨h1, x, hx, _⟩ := (mem c).mp hc; rw [hl, hx]; exact ⟨h1, by simp⟩)
  refine ⟨⟨fun c hc => ?_, fun c hc x hx hp => a5 c ((mem c).mpr ⟨hc, x, hx, hp⟩) x hx⟩, a2⟩
  show (l.foldl _ s).ctx c = _
  rw [a1]
  cases hx : (s.ctx c).xfer with
  | none => rw [if_neg (fun m => by obtain ⟨_, x, e, _⟩ := (mem c).mp m; simp [hx] at e)]
  | some x =>
    by_cases hp : p x = true
    · rw [if_pos ((mem c).mpr ⟨hc, x, hx, hp⟩)]; simp [hp]
    · rw [if_neg (fun m => by obtain ⟨_, y, e, k⟩ := (mem c).mp m; rw [hx] at e; cases e; exact hp k)]; simp [hp]

/-! ### The link's table through aborts and loads -/

/-- An XFER_ABORTED is a notice: an abort frees no CONTROL tag (4.6, R165). -/
theorem State.abort_lif (s : State) (cause : AbortCause) (c : Nat) : (s.abort cause c).lif = s.lif := by
  unfold State.abort
  split
  · rfl
  · dsimp only; unfold State.owe; split <;> simp [State.lastWord]

theorem State.abortAll_lif (s : State) (cause : AbortCause) (p : OpenContext → Bool) : (s.abortAll cause p).lif = s.lif :=
  foldl_lif _ (fun t c => State.abort_lif t cause c) _ _

theorem State.damagedKey_lif (s : State) (r k : Nat) : (s.damagedKey r k).lif = s.lif := by
  have h := State.abortAll_lif s .keyDamaged (fun x => x.mode == .clear && x.range == some r)
  unfold State.damagedKey
  simp only [State.loseKey_frame, State.write_frame, State.mapSlot_frame]
  split
  · split <;> simp [h]
  · exact h

theorem State.unwrap_lif (s : State) (r : Nat) (rak : Rak) (k : Nat) : (s.unwrap r rak k).lif = s.lif := by
  unfold State.unwrap
  (repeat' split) <;> simp [State.damagedKey_lif]

/-- A load answers no request. -/
theorem State.loadRange_lif (s : State) (r : Nat) (via : Option Rak) : (s.loadRange r via).1.lif = s.lif := by
  unfold State.loadRange
  split
  · rfl
  · split <;> simp [foldl_lif _ (fun t x => State.unwrap_lif t r _ x)]

end Sys2Proof.Machine
end

