-- ==== Sys2Proof/Laws/Sweep.lean ====
section
/-! SUPPORT. What the loss of a range's key does (R157), and where the settled state of a recovered job comes from
(R106, R114). -/

set_option Elab.async false

namespace Sys2Proof.Machine

/-- R157: an entry that is not ENABLED loses no key and takes no write. -/
@[simp] theorem State.loseKey_of_none (s : State) (r : Nat) (h : s.fields r = none) : s.loseKey r = s := by
  simp [State.loseKey, h]

/-- R1: an ENABLED entry has key_lost set, and nothing else of the table changes. -/
theorem State.loseKey_rtb (s : State) (r : Nat) (f : RangeFields) (h : s.fields r = some f) :
    (s.loseKey r).rtb = { s.rtb with entries := s.rtb.entries.set r (.enabled { f with keyLost := true }) } := by
  simp [State.loseKey, h, State.setEntry]

/-- R1: the loss of a range's key writes its record alone. -/
theorem State.loseKey_only (s : State) (r : Nat) : WritesOnly [.range r] s (s.loseKey r) := by
  unfold State.loseKey
  split
  · exact fun w hw => write_only (s.setEntry r _) (.range r) [] w hw
  · exact WritesOnly.refl _ _

/-- R1: the store holds the record of an ENABLED entry that has lost its key, as the entry then stands. -/
theorem State.loseKey_held (s : State) (r : Nat) (f : RangeFields) (h : s.fields r = some f) :
    (s.loseKey r).hasWrite (.range r) := by
  simp only [State.loseKey, h]
  exact write_hasWrite _ _ _

/-- R106, R114: a job that holds its range sweeps on, whatever the load state of the range. -/
theorem State.settleJob_of_held (s : State) (j : Job) (hj : s.activeJob = some j) (hs : j.state ≠ .faulted)
    (hf : s.rke.finished = none) (hl : s.slotLost j.range = false) (hh : s.kst.hold.isSome = true) :
    s.settleJob = s.mapHead (fun j => { j with state := .sweeping }) := by
  simp [State.settleJob, hj, hs, hf, hl, hh]

/-- R114: settling a job under no hold touches neither the store nor the loads, as at every start-up. -/
theorem State.settleJob_of_unheld (s : State) (h : s.kst.hold = none) :
    s.settleJob.sst = s.sst ∧ s.settleJob.kst.loads = s.kst.loads := by
  have hr : s.releaseHold = s := by simp [State.releaseHold, h]
  unfold State.settleJob
  rw [hr]
  (repeat' split) <;> simp

end Sys2Proof.Machine
end

