-- ==== Sys2Proof/Laws/KeyLoss.lean ====
section
/-! SUPPORT. What a job that loses its key comes to (R109), and what one damaged key does (R36). -/

set_option Elab.async false

namespace Sys2Proof.Machine

/-! ### The progress part -/

/-- A released hold is gone (R28). -/
theorem State.releaseHold_hold (s : State) : s.releaseHold.kst.hold = none := by
  unfold State.releaseHold
  split
  · assumption
  · dsimp only; split <;> simp

/-- Without a hold there is nothing to release. -/
theorem State.releaseHold_none (s : State) (h : s.kst.hold = none) : s.releaseHold = s := by simp [State.releaseHold, h]

/-- A write of the progress part changes the Rekey Engine in what is due alone (R110). -/
theorem State.writeProgressPart_rke (s : State) (ws : List Waiter) :
    (s.writeProgressPart ws).rke = { s.rke with dueProgress := (s.writeProgressPart ws).rke.dueProgress } := by
  unfold State.writeProgressPart; dsimp only; split <;> simp

/-- A write of the progress part places no other write. -/
theorem State.writeProgressPart_only (s : State) (ws : List Waiter) : WritesOnly [.rekeyProgress] s (s.writeProgressPart ws) := by
  unfold State.writeProgressPart; dsimp only; split
  · exact writesOnly_of_eq rfl rfl rfl _
  · exact (writesOnly_of_eq (us := []) rfl rfl rfl).trans (write_only _ _ _)

/-- A write of the progress part is held or due (R110). -/
theorem State.writeProgressPart_held (s : State) (ws : List Waiter) :
    (s.writeProgressPart ws).hasWrite .rekeyProgress ∨ (s.writeProgressPart ws).rke.dueProgress ≠ none := by
  unfold State.writeProgressPart; dsimp only; split
  · exact Or.inr (by simp)
  · exact Or.inl (write_hasWrite _ _ _)

/-- R109: what the fault of the active job with KEY_LOST does. -/
theorem State.faultJob_loses (s : State) (j : Job) (hj : s.activeJob = some j) :
    JobLosesKey j s (s.faultJob .keyLost) ∧
    (∀ x, (s.slot x).alike ((s.faultJob .keyLost).slot x)) ∧
    (Shaped s → WritesOnly (.rekeyProgress :: (List.range 24).map StoreUnit.key) s (s.faultJob .keyLost)) ∧
    (s.kst.hold = none → (s.faultJob .keyLost).kst = s.kst ∧ WritesOnly [.rekeyProgress] s (s.faultJob .keyLost)) := by
  have hq : s.rke.queue = j :: s.rke.queue.tail ∧ j.state ≠ .queued := by
    unfold State.activeJob State.headJob at hj
    cases hq : s.rke.queue with
    | nil => simp [hq] at hj
    | cons a l =>
      simp only [hq, List.head?_cons] at hj
      split at hj
      · simp at hj
      · next h => simp at hj h; exact ⟨by simp [hj], hj ▸ h⟩
  let a : State := if s.rke.headerIssued || s.rke.phase == .idle then s else s.dropChunk
  let b : State := { (a.mapHead (fun j => { j with state := .faulted, fault := some .keyLost })) with
    rke := { (a.mapHead (fun j => { j with state := .faulted, fault := some .keyLost })).rke with runAnyway := false } }
  have e : s.faultJob .keyLost = b.releaseHold.writeProgressPart [] := rfl
  have ak : a.kst = s.kst ∧ a.sst = s.sst ∧ a.rke.queue = s.rke.queue ∧ a.rtb = s.rtb := by
    show State.kst (if _ then s else s.dropChunk) = _ ∧ State.sst (if _ then s else s.dropChunk) = _ ∧ (State.rke (if _ then s else s.dropChunk)).queue = _ ∧ State.rtb (if _ then s else s.dropChunk) = _
    split <;> simp [State.dropChunk]
  have bk : b.kst = s.kst := ak.1
  have bs : b.sst = s.sst := ak.2.1
  have bb : WritesOnly [] s b := writesOnly_of_eq (by rw [bs]) (by rw [bs]) (by rw [bs]) _
  have lo := State.releaseHold_loosened b
  have rk : (s.faultJob .keyLost).rke = { b.rke with dueProgress := (s.faultJob .keyLost).rke.dueProgress } := by
    rw [e, State.writeProgressPart_rke]; simp
  have kk : (s.faultJob .keyLost).kst = b.releaseHold.kst := by rw [e]; simp
  refine ⟨⟨?_, ?_, ?_, ?_⟩, ?_, ?_, ?_⟩
  · rw [kk, State.releaseHold_hold]
  · rw [e]; exact State.writeProgressPart_held _ _
  · intro kept
    have ea : a = s := if_pos (by simpa using kept)
    rw [rk]
    simp only [b, ea, State.mapHead]
    congr 1
    rw [hq.1]; rfl
  · intro kept
    have ea : a = s.dropChunk := if_neg (by simpa using kept)
    rw [rk]
    simp only [b, ea, State.mapHead, State.dropChunk]
    congr 1
    rw [hq.1]; rfl
  · intro x
    have := lo.1 x
    simp only [State.slot, kk] at *
    rwa [bk] at this
  · intro hs
    have hb : Shaped b := by
      unfold Shaped at hs ⊢
      have : b.cru = s.cru ∧ b.dpu = s.dpu ∧ b.rsu = s.rsu := by
        show State.cru (if _ then s else s.dropChunk) = _ ∧ State.dpu (if _ then s else s.dropChunk) = _ ∧ State.rsu (if _ then s else s.dropChunk) = _
        split <;> simp [State.dropChunk]
      rw [bk, bs, this.1, this.2.1, this.2.2, show b.rtb = s.rtb from ak.2.2.2]; exact hs
    rw [e]
    exact ((bb.trans (lo.2.2.2.2 hb).2).trans (State.writeProgressPart_only _ _)).mono (by simp; exact fun u h => h.symm)
  · intro hh
    have er : b.releaseHold = b := State.releaseHold_none b (by rw [bk]; exact hh)
    refine ⟨by rw [kk, er, bk], ?_⟩
    rw [e, er]
    exact (bb.trans (State.writeProgressPart_only _ _)).mono (by simp)

/-- What the store holds of a unit stays held while the unit is not written and its content stays. -/
theorem State.hasWrite_of {s t : State} {us : List StoreUnit} (h : WritesOnly us s t) (u : StoreUnit) (hu : u ∉ us)
    (e : t.recordOf u = s.recordOf u) (k : s.hasWrite u) : t.hasWrite u := by
  obtain ⟨x, hx, h1, h2⟩ := k
  exact ⟨x, (h x (by rw [h1]; exact hu)).mpr hx, h1, by rw [e]; exact h2⟩

/-- A unit that is not listed keeps its writes. -/
theorem WritesOnly.same {us : List StoreUnit} {s t : State} (h : WritesOnly us s t) (u : StoreUnit) (hu : u ∉ us) : WritesSame u s t :=
  fun w hw => h w (hw ▸ hu)

theorem WritesSame.trans {u : StoreUnit} {s t v : State} (h : WritesSame u s t) (k : WritesSame u t v) : WritesSame u s v :=
  fun w hw => (k w hw).trans (h w hw)

/-- A write of any unit leaves what is held of every unit with its content as it stands. -/
theorem write_hasWrite_keeps (s : State) (u v : StoreUnit) (ws : List Waiter) (k : s.hasWrite v) : (s.write u ws).hasWrite v := by
  by_cases h : v = u
  · subst h; exact write_hasWrite _ _ _
  · exact State.hasWrite_of (write_only s u ws) v (by simpa using h) (by simp) k

/-- R36: all that one damaged key, in slot x of range r with the fields f, can do from t to u. -/
structure DamagedStep (r x : Nat) (f : RangeFields) (t u : State) : Prop where
  shaped : Shaped u
  fields : u.fields r = some { f with keyLost := true }
  entries : ∀ q, q ≠ r → u.entry q = t.entry q
  blank : u.slot x = .blank
  alike : ∀ y, y ≠ x → (t.slot y).alike (u.slot y)
  keyHeld : u.hasWrite (.key x)
  rangeHeld : u.hasWrite (.range r)
  aborted : ContextsAborted .keyDamaged (fun y => y.mode == .clear && y.range == some r) t u
  flights : u.dpu.flights = t.dpu.flights
  res : u.kst.reservation = t.kst.reservation
  lost : ∀ j, t.activeJob = some j → j.range = r → t.rke.finished = none → JobLosesKey j t u
  kept : (∀ j, ¬ (t.activeJob = some j ∧ j.range = r ∧ t.rke.finished = none)) →
    u.rke = t.rke ∧ u.kst.hold = t.kst.hold ∧ WritesSame .rekeyProgress t u
  loads : ((∃ j, t.activeJob = some j ∧ j.range = r ∧ t.rke.finished = none) → t.kst.hold = none) → LoadsKept t u
  writes : WritesOnly (.range r :: .rekeyProgress :: (List.range 24).map StoreUnit.key) t u
  quiet : (∀ c < 16, ∀ y, (t.ctx c).xfer = some y → (y.mode == .clear && y.range == some r) = false) → u.dpu = t.dpu ∧ u.sent = t.sent
  calm : ((∃ j, t.activeJob = some j ∧ j.range = r ∧ t.rke.finished = none) → t.kst.hold = none) →
    (∀ c y, (t.ctx c).xfer = some y → (y.mode == .clear && y.range == some r) = false) →
    u.kst.loads = t.kst.loads ∧ (∀ y, y ≠ x → u.slot y = t.slot y ∧ WritesSame (.key y) t u)

/-- R36: damagedKey does this. -/
theorem State.damagedKey_damaged (t : State) (r x : Nat) (f : RangeFields) (hs : Shaped t) (hf : t.fields r = some f)
    (hx : x ∈ f.named) (hl : x < 24) : DamagedStep r x f t (t.damagedKey r x) := by
  let p : OpenContext → Bool := fun y => y.mode == .clear && y.range == some r
  let a := t.abortAll .keyDamaged p
  have la : Loosened t a := State.abortAll_loosened _ _ _
  have ca := State.abortAll_aborted t .keyDamaged p hs
  have af : ∀ q, a.fields q = t.fields q := by intro q; simp [a, State.fields, State.entry]
  have aj : a.activeJob = t.activeJob := by simp [a, State.activeJob, State.headJob]
  have ar : a.rke = t.rke := la.2.2.1
  have ah : a.kst.hold = t.kst.hold := by simp [a]
  obtain ⟨hsa, wa⟩ := la.2.2.2.2 hs
  let b : State := match a.activeJob, a.fields r with
    | some j, some f => if j.range = r ∧ x ∈ f.named ∧ a.rke.finished = none then a.faultJob .keyLost else a
    | _, _ => a
  have b1 : ∀ j, t.activeJob = some j → j.range = r → t.rke.finished = none → b = a.faultJob .keyLost := by
    intro j h1 h2 h3
    simp only [b, aj, h1, af, hf, ar]; rw [if_pos ⟨h2, hx, h3⟩]
  have b2 : (∀ j, ¬ (t.activeJob = some j ∧ j.range = r ∧ t.rke.finished = none)) → b = a := by
    intro h
    simp only [b, aj, af, hf, ar]
    cases e : t.activeJob with
    | none => rfl
    | some j => exact if_neg (fun k => h j ⟨e, k.1, k.2.2⟩)
  have cases : (∃ j, t.activeJob = some j ∧ j.range = r ∧ t.rke.finished = none ∧ b = a.faultJob .keyLost) ∨
      ((∀ j, ¬ (t.activeJob = some j ∧ j.range = r ∧ t.rke.finished = none)) ∧ b = a) := by
    by_cases h : ∃ j, t.activeJob = some j ∧ j.range = r ∧ t.rke.finished = none
    · obtain ⟨j, h1, h2, h3⟩ := h; exact Or.inl ⟨j, h1, h2, h3, b1 j h1 h2 h3⟩
    · exact Or.inr ⟨fun j hj => h ⟨j, hj⟩, b2 (fun j hj => h ⟨j, hj⟩)⟩
  have bal : ∀ y, (a.slot y).alike (b.slot y) := by
    rcases cases with ⟨j, h1, h2, h3, e⟩ | ⟨-, e⟩ <;> rw [e]
    · exact (State.faultJob_loses a j (aj.trans h1)).2.1
    · exact fun y => KeySlot.alike_refl _
  have brtb : b.rtb = t.rtb := by
    rcases cases with ⟨j, h1, h2, h3, e⟩ | ⟨-, e⟩ <;> rw [e] <;> simp [a]
  have bdpu : b.dpu = a.dpu := by
    rcases cases with ⟨j, h1, h2, h3, e⟩ | ⟨-, e⟩ <;> rw [e] <;> simp
  have bsent : b.sent = a.sent := by
    rcases cases with ⟨j, h1, h2, h3, e⟩ | ⟨-, e⟩ <;> rw [e] <;> simp
  have bres : b.kst.reservation = t.kst.reservation := by
    rcases cases with ⟨j, h1, h2, h3, e⟩ | ⟨-, e⟩ <;> rw [e] <;> simp [a]
  have bw : WritesOnly (.rekeyProgress :: (List.range 24).map StoreUnit.key) t b := by
    rcases cases with ⟨j, h1, h2, h3, e⟩ | ⟨-, e⟩ <;> rw [e]
    · exact (wa.trans ((State.faultJob_loses a j (aj.trans h1)).2.2.1 hsa)).mono (by simp; exact fun u h => h.elim Or.inr id)
    · exact wa.mono (by simp)
  have bsh : Shaped b := by
    rcases cases with ⟨j, h1, h2, h3, e⟩ | ⟨-, e⟩ <;> rw [e]
    · exact (State.faultJob_keeps _ _).shaped hsa
    · exact hsa
  have bf : b.fields r = some f := by rw [← hf]; simp [State.fields, State.entry, brtb]
  let c := (b.mapSlot x (fun _ => KeySlot.blank)).write (.key x) []
  have csh : Shaped c := (State.write_keeps _ _ _).shaped ((State.mapSlot_keeps _ _ _).shaped bsh)
  have crtb : c.rtb = t.rtb := by simp [c, brtb]
  have cf : c.fields r = some f := by rw [← hf]; simp [State.fields, State.entry, crtb]
  have cslot : ∀ y, c.slot y = if y = x then .blank else b.slot y := by
    intro y
    have : c.slot y = (b.mapSlot x (fun _ => KeySlot.blank)).slot y := by simp [c, State.slot]
    rw [this, slot_mapSlot, Shaped.keySlots bsh]
    by_cases h : y = x
    · simp [h, hl]
    · simp [h]
  have e : t.damagedKey r x = c.loseKey r := rfl
  let d := (c.setEntry r (.enabled { f with keyLost := true })).write (.range r) []
  have ed : t.damagedKey r x = d := by rw [e, State.loseKey, cf]
  rw [ed]
  have rl : r < c.rtb.entries.length := fields_lt c r f cf
  have dent : ∀ q, d.entry q = if q = r then .enabled { f with keyLost := true } else t.entry q := by
    intro q
    have : d.entry q = (c.setEntry r (.enabled { f with keyLost := true })).entry q := by simp [d, State.entry]
    rw [this, entry_setEntry]
    by_cases h : q = r
    · rw [if_pos ⟨h, rl⟩, if_pos h]
    · rw [if_neg (fun k => h k.1), if_neg h]; simp [State.entry, crtb]
  have dslot : ∀ y, d.slot y = if y = x then .blank else b.slot y := by
    intro y; rw [← cslot]; simp [d, State.slot, State.setEntry]
  have drke : d.rke = b.rke := by simp [d, c]
  have dkst : d.kst.hold = b.kst.hold ∧ d.kst.loads = b.kst.loads ∧ d.kst.reservation = b.kst.reservation := by simp [d, c]
  have wbd : WritesOnly [.key x, .range r] b d := by
    have h1 : WritesOnly [.key x] b c := ((writesOnly_of_eq (us := []) (by simp) (by simp) (by simp)).trans (write_only _ _ _)).mono (by simp)
    have h2 : WritesOnly [.range r] c d := ((writesOnly_of_eq (us := []) (by simp) (by simp) (by simp)).trans (write_only _ _ _)).mono (by simp)
    exact (h1.trans h2)
  have drec : d.recordOf .rekeyProgress = b.recordOf .rekeyProgress := by
    have : ∀ q, (d.fields q).bind (fun g => g.split) = (b.fields q).bind (fun g => g.split) := by
      intro q
      unfold State.fields
      rw [dent]
      by_cases h : q = r
      · subst h
        rw [if_pos rfl]
        have : (b.entry q).fields? = some f := bf
        rw [this]; rfl
      · rw [if_neg h]; simp [State.entry, brtb]
    unfold State.recordOf State.progressRecord State.cleared State.leaving State.activeJob State.headJob State.recordedChunk State.recordedCopying State.recordedMark
    simp only [drke, this]
  refine ⟨?_, ?_, ?_, ?_, ?_, ?_, ?_, ?_, ?_, ?_, ?_, ?_, ?_, ?_, ?_, ?_⟩
  · exact (State.write_keeps _ _ _).shaped ((State.setEntry_keeps _ _ _).shaped csh)
  · unfold State.fields; rw [dent, if_pos rfl]; rfl
  · intro q hq; rw [dent, if_neg hq]
  · rw [dslot, if_pos rfl]
  · intro y hy; rw [dslot, if_neg hy]; exact (la.1 y).trans (bal y)
  · have h : c.hasWrite (.key x) := write_hasWrite _ _ _
    have h2 : (c.setEntry r (.enabled { f with keyLost := true })).hasWrite (.key x) :=
      State.hasWrite_of (us := []) (writesOnly_of_eq (by simp) (by simp) (by simp) _) _ (by simp) rfl h
    exact write_hasWrite_keeps _ _ _ _ h2
  · exact write_hasWrite _ _ _
  · have hd : d.dpu = a.dpu := by simp [d, c, bdpu]
    have hse : d.sent = a.sent := by simp [d, c, bsent]
    refine ⟨fun k hk => ?_, fun k hk y hy hp => ?_⟩
    · rw [← ca.1.1 k hk]; simp only [State.ctx, hd, a]
    · rw [hd, hse]; exact ca.1.2 k hk y hy hp
  · have hd : d.dpu = a.dpu := by simp [d, c, bdpu]
    rw [hd]; exact ca.2
  · rw [dkst.2.2, bres]
  · intro j h1 h2 h3
    obtain ⟨⟨l1, l2, l3, l4⟩, -⟩ := State.faultJob_loses a j (aj.trans h1)
    have eb := b1 j h1 h2 h3
    rw [← eb] at l1 l2 l3 l4
    refine ⟨dkst.1.trans l1, ?_, ?_, ?_⟩
    · rw [drke]
      exact l2.imp (fun h => State.hasWrite_of wbd _ (by simp) drec h) id
    · rw [drke, ← ar]; exact l3
    · rw [drke, ← ar]; exact l4
  · intro h
    have eb := b2 h
    rw [drke, dkst.1, eb]
    refine ⟨ar, ah, ?_⟩
    rw [eb] at wbd
    exact ((wa.trans wbd).same _ (by simp))
  · intro h
    have bl : LoadsKept a b := by
      rcases cases with ⟨j, h1, h2, h3, e⟩ | ⟨-, e⟩ <;> rw [e]
      · intro q k hk
        have := ((State.faultJob_loses a j (aj.trans h1)).2.2.2 (by rw [ah]; exact h ⟨j, h1, h2, h3⟩)).1
        simpa [State.load, this] using hk
      · exact fun _ _ k => k
    have := (State.abortAll_loads t .keyDamaged p).trans bl
    intro q k hk
    have := this q k hk
    simpa [State.load, dkst.2.1] using this
  · exact (bw.trans wbd).mono (by
      simp only [List.mem_append, List.mem_cons, List.mem_map, List.mem_range, List.not_mem_nil, or_false]
      rintro u ((h | h) | (h | h))
      · exact Or.inr (Or.inl h)
      · exact Or.inr (Or.inr h)
      · exact Or.inr (Or.inr ⟨x, hl, h.symm⟩)
      · exact Or.inl h)
  · intro hc
    have ea : a = t := State.abortAll_none t .keyDamaged p hc
    have hd : d.dpu = a.dpu := by simp [d, c, bdpu]
    have hse : d.sent = a.sent := by simp [d, c, bsent]
    rw [hd, hse, ea]; exact ⟨rfl, rfl⟩
  · intro h hc
    have ea : a = t := State.abortAll_none t .keyDamaged p (fun c _ y hy => hc c y hy)
    have bk : b.kst = t.kst ∧ WritesOnly [.rekeyProgress] t b := by
      rcases cases with ⟨j, h1, h2, h3, e⟩ | ⟨-, e⟩ <;> rw [e]
      · have := (State.faultJob_loses a j (aj.trans h1)).2.2.2 (by rw [ah]; exact h ⟨j, h1, h2, h3⟩)
        rw [ea] at this ⊢; exact this
      · rw [ea]; exact ⟨rfl, WritesOnly.refl _ _⟩
    refine ⟨by rw [dkst.2.1, bk.1], fun y hy => ⟨?_, ?_⟩⟩
    · rw [dslot, if_neg hy]; simp [State.slot, bk.1]
    · exact (bk.2.trans wbd).same _ (by simp [hy])

end Sys2Proof.Machine
end

