-- ==== Sys2Proof/Laws/LoadRange.lean ====
section
/-! SUPPORT. What a load of a range can do (R33, R36, R107): the slots it has unwrapped so far, the resumption that follows, and the
two outcomes, with a damaged key and without. -/

set_option Elab.async false

namespace Sys2Proof.Machine

/-- The active job of range r, which has not completed. -/
def JobOf (s : State) (r : Nat) (j : Job) : Prop := s.activeJob = some j ∧ j.range = r ∧ s.rke.finished = none

/-- A context in mode CLEAR in range r. -/
def clearIn (r : Nat) (y : OpenContext) : Bool := y.mode == .clear && y.range == some r

/-- One of the listed slots is found damaged. -/
abbrev DamagedAmong (s : State) (r : Nat) (k : Rak) (done : List Nat) : Prop := ∃ x ∈ done, s.findsDamaged r k x

/-- No hold is to be released where the job of range r would be faulted. -/
def HoldFree (s : State) (r : Nat) : Prop := (∃ j, JobOf s r j) → s.kst.hold = none

/-- R33, R36: what a load of range r with the fields g, under the RAK k, has done from s to t once it has unwrapped the listed
slots. The fields whose name ends in D hold where one was damaged, those in N where none was. -/
structure LoadSoFar (s : State) (r : Nat) (k : Rak) (g : RangeFields) (done : List Nat) (t : State) : Prop where
  shaped : Shaped t
  ent : ∀ q, q ≠ r → t.entry q = s.entry q
  fldD : DamagedAmong s r k done → t.fields r = some { g with keyLost := true }
  fldN : ¬ DamagedAmong s r k done → t.fields r = some g
  blank : ∀ x ∈ done, s.findsDamaged r k x → t.slot x = .blank ∧ t.hasWrite (.key x)
  alike : ∀ x, ¬ (x ∈ done ∧ s.findsDamaged r k x) → (s.slot x).alike (t.slot x)
  rheld : DamagedAmong s r k done → t.hasWrite (.range r)
  abD : DamagedAmong s r k done → ContextsAborted .keyDamaged (clearIn r) s t
  abN : (DamagedAmong s r k done → ∀ c < 16, ∀ y, (s.ctx c).xfer = some y → clearIn r y = false) → t.dpu = s.dpu ∧ t.sent = s.sent
  flights : t.dpu.flights = s.dpu.flights
  res : t.kst.reservation = s.kst.reservation
  lost : DamagedAmong s r k done → ∀ j, JobOf s r j → JobLosesKey j s t
  kept : (DamagedAmong s r k done → ∀ j, ¬ JobOf s r j) → t.rke = s.rke ∧ t.kst.hold = s.kst.hold ∧ WritesSame .rekeyProgress s t
  load : (DamagedAmong s r k done → HoldFree s r) → t.load r = .loaded k
  calmL : (DamagedAmong s r k done → HoldFree s r ∧ ∀ c y, (s.ctx c).xfer = some y → clearIn r y = false) →
    ∀ q, q ≠ r → t.load q = s.load q
  calmS : (DamagedAmong s r k done → HoldFree s r ∧ ∀ c y, (s.ctx c).xfer = some y → clearIn r y = false) →
    ∀ x, ¬ (x ∈ done ∧ s.findsDamaged r k x) → WritesSame (.key x) s t ∧
      (x ∈ done → s.unwraps r x → t.slot x = { s.slot x with copy := (s.slot x).material.map (fun m => m.key) }) ∧
      (¬ (x ∈ done ∧ s.unwraps r x) → t.slot x = s.slot x)
  writes : WritesOnly (.range r :: .rekeyProgress :: (List.range 24).map StoreUnit.key) s t
  writesN : ¬ DamagedAmong s r k done → WritesOnly [] s t
  rtbN : ¬ DamagedAmong s r k done → t.rtb = s.rtb

/-- The order of the slots does not matter. -/
theorem LoadSoFar.congr {s : State} {r : Nat} {k : Rak} {g : RangeFields} {done l : List Nat} {t : State} (h : LoadSoFar s r k g done t)
    (e : ∀ x, x ∈ done ↔ x ∈ l) : LoadSoFar s r k g l t := by
  have hd : DamagedAmong s r k done ↔ DamagedAmong s r k l := by simp [DamagedAmong, e]
  constructor
  · exact h.shaped
  · exact h.ent
  · rw [← hd]; exact h.fldD
  · rw [← hd]; exact h.fldN
  · intro x; rw [← e]; exact h.blank x
  · intro x; rw [← e]; exact h.alike x
  · rw [← hd]; exact h.rheld
  · rw [← hd]; exact h.abD
  · rw [← hd]; exact h.abN
  · exact h.flights
  · exact h.res
  · rw [← hd]; exact h.lost
  · rw [← hd]; exact h.kept
  · rw [← hd]; exact h.load
  · rw [← hd]; exact h.calmL
  · rw [← hd]; intro a x; rw [← e]; exact h.calmS a x
  · exact h.writes
  · rw [← hd]; exact h.writesN
  · rw [← hd]; exact h.rtbN

/-- A sound slot takes its copy. -/
theorem LoadSoFar.takes {s : State} {r : Nat} {k : Rak} {g : RangeFields} {done : List Nat} {t : State} (h : LoadSoFar s r k g done t)
    {x : Nat} {m : Material} (hu : s.unwraps r x) (hn : ¬ s.findsDamaged r k x) (hm : (s.slot x).material = some m) (hx : x < 24) :
    LoadSoFar s r k g (x :: done) (t.mapSlot x (fun y => { y with copy := some m.key })) := by
  have hd : DamagedAmong s r k (x :: done) ↔ DamagedAmong s r k done := by
    simp only [DamagedAmong, List.mem_cons, exists_eq_or_imp]; exact ⟨fun a => a.resolve_left hn, Or.inr⟩
  have hs : ∀ y, (t.mapSlot x (fun y => { y with copy := some m.key })).slot y =
      if y = x then { t.slot x with copy := some m.key } else t.slot y := by
    intro y; rw [slot_mapSlot, Shaped.keySlots h.shaped]
    by_cases e : y = x
    · subst e; simp [hx]
    · simp [e]
  have hw : WritesOnly [] t (t.mapSlot x (fun y => { y with copy := some m.key })) :=
    writesOnly_of_eq (by simp) (by simp) (by simp) _
  have hrec : ∀ u, (∀ y, u ≠ .key y) → (t.mapSlot x (fun y => { y with copy := some m.key })).recordOf u = t.recordOf u := by
    intro u hu; cases u <;> first | rfl | exact absurd rfl (hu _)
  have hrk : ∀ y, (t.mapSlot x (fun y => { y with copy := some m.key })).recordOf (.key y) = t.recordOf (.key y) := by
    intro y; simp only [State.recordOf, hs]; split
    · next e => subst e; rfl
    · rfl
  constructor
  · exact (State.mapSlot_keeps _ _ _).shaped h.shaped
  · intro q hq; simpa [State.entry] using h.ent q hq
  · rw [hd]; intro a; simpa [State.fields, State.entry] using h.fldD a
  · rw [hd]; intro a; simpa [State.fields, State.entry] using h.fldN a
  · intro y hy hf
    rcases List.mem_cons.mp hy with rfl | hy
    · exact absurd hf hn
    · obtain ⟨a, b⟩ := h.blank y hy hf
      refine ⟨?_, State.hasWrite_of hw _ (by simp) (hrk y) b⟩
      rw [hs, if_neg (fun e => hn (by rw [← e]; exact hf))]; exact a
  · intro y hy
    have := h.alike y (fun a => hy ⟨List.mem_cons_of_mem _ a.1, a.2⟩)
    rw [hs]
    split
    · next e => subst e; exact this.trans rfl
    · exact this
  · rw [hd]; intro a; exact State.hasWrite_of hw _ (by simp) (hrec _ (by simp)) (h.rheld a)
  · rw [hd]; intro a; exact h.abD a
  · rw [hd]; intro a; exact h.abN a
  · exact h.flights
  · exact h.res
  · rw [hd]; intro a j hj
    obtain ⟨b1, b2, b3, b4⟩ := h.lost a j hj
    exact ⟨b1, b2.imp (State.hasWrite_of hw _ (by simp) (hrec _ (by simp))) id, b3, b4⟩
  · rw [hd]; intro a
    obtain ⟨b1, b2, b3⟩ := h.kept a
    exact ⟨b1, b2, b3.trans (hw.same _ (by simp))⟩
  · rw [hd]; intro a; simpa [State.load] using h.load a
  · rw [hd]; intro a q hq; simpa [State.load] using h.calmL a q hq
  · rw [hd]; intro a y hy
    obtain ⟨b1, b2, b3⟩ := h.calmS a y (fun c => hy ⟨List.mem_cons_of_mem _ c.1, c.2⟩)
    refine ⟨b1.trans (hw.same _ (by simp)), fun c d => ?_, fun c => ?_⟩
    · rw [hs]
      split
      · next e =>
        subst e
        by_cases f : y ∈ done
        · rw [b2 f d, hm]; rfl
        · rw [b3 (fun z => f z.1), hm]; rfl
      · next e => exact b2 ((List.mem_cons.mp c).resolve_left e) d
    · have e : y ≠ x := fun e => c (by subst e; exact ⟨List.mem_cons_self, hu⟩)
      rw [hs, if_neg e]
      exact b3 (fun z => c ⟨List.mem_cons_of_mem _ z.1, z.2⟩)
  · exact (h.writes.trans hw).mono (by simp)
  · rw [hd]; intro a; exact ((h.writesN a).trans hw).mono (by simp)
  · rw [hd]; intro a; simpa using h.rtbN a

/-- After their abort no CLEAR context of the range is OPEN. -/
theorem no_clear_left {s t : State} {r : Nat} (h : ContextsAborted .keyDamaged (clearIn r) s t) :
    ∀ c < 16, ∀ y, (t.ctx c).xfer = some y → clearIn r y = false := by
  intro c hc y hy
  have := h.1 c hc
  cases e : (s.ctx c).xfer with
  | none => simp [e] at this; rw [this, e] at hy; cases hy
  | some x =>
    simp only [e] at this
    by_cases p : clearIn r x = true
    · simp [p] at this; rw [this] at hy; cases hy
    · rw [if_neg p] at this; rw [this, e] at hy; cases hy; simpa using p

/-- A job that lost its key stays the active job, FAULTED, with its chunk kept or dropped. -/
theorem JobOf.lost {s t : State} {r : Nat} {j : Job} (hj : JobOf s r j) (h : JobLosesKey j s t) :
    JobOf t r { j with state := .faulted, fault := some .keyLost } ∧ (t.rke.headerIssued = true ∨ t.rke.phase = .idle) ∧
    t.rke.finished = none := by
  obtain ⟨h1, h2, h3⟩ := hj
  obtain ⟨-, -, b3, b4⟩ := h
  by_cases k : s.rke.headerIssued = true ∨ s.rke.phase = .idle
  · have e := b3 k
    refine ⟨⟨?_, h2, ?_⟩, ?_, ?_⟩
    · unfold State.activeJob State.headJob; rw [e]; rfl
    · rw [e]; exact h3
    · rw [e]; exact k
    · rw [e]; exact h3
  · have e := b4 k
    refine ⟨⟨?_, h2, ?_⟩, ?_, ?_⟩
    · unfold State.activeJob State.headJob; rw [e]; rfl
    · rw [e]; exact h3
    · rw [e]; exact Or.inr rfl
    · rw [e]; exact h3

/-- A second damaged key of the range changes nothing more of the job. -/
theorem JobLosesKey.again {s t u : State} {r : Nat} {j : Job} (hj : JobOf s r j) (h : JobLosesKey j s t)
    (k : JobLosesKey { j with state := .faulted, fault := some .keyLost } t u) : JobLosesKey j s u := by
  obtain ⟨-, kp, -⟩ := hj.lost h
  obtain ⟨-, -, b3, b4⟩ := h
  obtain ⟨c1, c2, c3, -⟩ := k
  have e := c3 kp
  refine ⟨c1, c2, fun a => ?_, fun a => ?_⟩
  · rw [b3 a] at e; exact e
  · rw [b4 a] at e; exact e

theorem JobOf.unique {s : State} {r : Nat} {i j : Job} (h : JobOf s r i) (k : JobOf s r j) : i = j :=
  Option.some.inj (h.1.symm.trans k.1)

theorem JobOf.of_rke {s t : State} (h : t.rke = s.rke) (r : Nat) (j : Job) : JobOf t r j ↔ JobOf s r j := by
  simp [JobOf, State.activeJob, State.headJob, h]

/-- A slot is found damaged. -/
theorem LoadSoFar.damages {s : State} {r : Nat} {k : Rak} {g : RangeFields} {done : List Nat} {t : State} (h : LoadSoFar s r k g done t)
    {x : Nat} (hf : s.findsDamaged r k x) (hx : x < 24) (hnamed : x ∈ g.named)
    (hxd : x ∉ done) : LoadSoFar s r k g (x :: done) (t.damagedKey r x) := by
  have hD : DamagedAmong s r k (x :: done) := ⟨x, List.mem_cons_self, hf⟩
  obtain ⟨f, hfd, ef⟩ : ∃ f, t.fields r = some f ∧ f.named = g.named ∧ ({ f with keyLost := true } : RangeFields) = { g with keyLost := true } := by
    by_cases d : DamagedAmong s r k done
    · exact ⟨_, h.fldD d, rfl, rfl⟩
    · exact ⟨_, h.fldN d, rfl, rfl⟩
  have D := State.damagedKey_damaged t r x f h.shaped hfd (ef.1 ▸ hnamed) hx
  have sw : (∃ j, JobOf t r j) ↔ ∃ j, JobOf s r j := by
    by_cases e : ∃ j, JobOf s r j
    · obtain ⟨j, hj⟩ := e
      refine ⟨fun _ => ⟨j, hj⟩, fun _ => ?_⟩
      by_cases d : DamagedAmong s r k done
      · exact ⟨_, (hj.lost (h.lost d j hj)).1⟩
      · exact ⟨j, (JobOf.of_rke (h.kept (fun a => absurd a d)).1 r j).mpr hj⟩
    · have := (h.kept (fun _ j hj => e ⟨j, hj⟩)).1
      simp only [JobOf.of_rke this]
  have uh : HoldFree s r → HoldFree t r := by
    intro a b
    have b' := sw.mp b
    by_cases d : DamagedAmong s r k done
    · obtain ⟨j, hj⟩ := b'; exact (h.lost d j hj).1
    · rw [(h.kept (fun a => absurd a d)).2.1]; exact a b'
  have cN : ∀ d : DamagedAmong s r k done, ∀ c < 16, ∀ y, (t.ctx c).xfer = some y → (y.mode == .clear && y.range == some r) = false :=
    fun d => no_clear_left (h.abD d)
  have ctx16 : ∀ c y, (t.ctx c).xfer = some y → c < 16 := by
    intro c y hy
    rcases Nat.lt_or_ge c 16 with a | a
    · exact a
    · have e : t.dpu.contexts.length ≤ c := Nat.le_trans (Nat.le_of_eq (Shaped.contexts h.shaped)) a
      simp [State.ctx, List.getElem?_eq_none e] at hy
  have quietT : (∀ c y, (s.ctx c).xfer = some y → clearIn r y = false) →
      ∀ c y, (t.ctx c).xfer = some y → (y.mode == .clear && y.range == some r) = false := by
    intro a c y hy
    by_cases d : DamagedAmong s r k done
    · exact cN d c (ctx16 c y hy) y hy
    · have : t.ctx c = s.ctx c := by simp [State.ctx, (h.abN (fun a => absurd a d)).1]
      rw [this] at hy; exact a c y hy
  constructor
  · exact D.shaped
  · intro q hq; rw [D.entries q hq, h.ent q hq]
  · intro _; rw [D.fields, ef.2]
  · exact fun a => absurd hD a
  · intro y hy hyf
    rcases List.mem_cons.mp hy with rfl | hy
    · exact ⟨D.blank, D.keyHeld⟩
    · have ne : y ≠ x := fun e => hxd (e ▸ hy)
      obtain ⟨a, b⟩ := h.blank y hy hyf
      have d : DamagedAmong s r k done := ⟨y, hy, hyf⟩
      have uhT : HoldFree t r := fun e => by
        obtain ⟨j, hj⟩ := sw.mp e; exact (h.lost d j hj).1
      obtain ⟨c1, c2⟩ := (D.calm uhT (fun c z hz => cN d c (ctx16 c z hz) z hz)).2 y ne
      refine ⟨c1.trans a, ?_⟩
      obtain ⟨w, hw, w1, w2⟩ := b
      exact ⟨w, (c2 w w1).mpr hw, w1, by rw [w2]; simp only [State.recordOf, c1]⟩
  · intro y hy
    have ne : y ≠ x := fun e => hy (by subst e; exact ⟨List.mem_cons_self, hf⟩)
    exact (h.alike y (fun a => hy ⟨List.mem_cons_of_mem _ a.1, a.2⟩)).trans (D.alike y ne)
  · exact fun _ => D.rangeHeld
  · intro _
    by_cases d : DamagedAmong s r k done
    · have q := D.quiet (cN d)
      have a := h.abD d
      refine ⟨fun c hc => ?_, fun c hc y hy hp => ?_⟩
      · rw [← a.1 c hc]; simp [State.ctx, q.1]
      · rw [q.1, q.2]; exact a.2 c hc y hy hp
    · have q := h.abN (fun a => absurd a d)
      have a := D.aborted
      have e : ∀ c, t.ctx c = s.ctx c := fun c => by simp [State.ctx, q.1]
      refine ⟨fun c hc => ?_, fun c hc y hy hp => ?_⟩
      · rw [a.1 c hc, e]; rfl
      · rw [← e] at hy ⊢; exact a.2 c hc y hy hp
  · intro a
    have a := a hD
    have q := D.quiet (fun c hc y hy => by
      by_cases d : DamagedAmong s r k done
      · exact cN d c hc y hy
      · have : t.ctx c = s.ctx c := by simp [State.ctx, (h.abN (fun a => absurd a d)).1]
        rw [this] at hy; exact a c hc y hy)
    have q2 := h.abN (fun _ => a)
    exact ⟨q.1.trans q2.1, q.2.trans q2.2⟩
  · exact D.flights.trans h.flights
  · exact D.res.trans h.res
  · intro _ j hj
    by_cases d : DamagedAmong s r k done
    · have a := h.lost d j hj
      have b := (hj.lost a).1
      exact JobLosesKey.again hj a (D.lost _ b.1 b.2.1 b.2.2)
    · have a := h.kept (fun a => absurd a d)
      have b := (JobOf.of_rke a.1 r j).mpr hj
      obtain ⟨c1, c2, c3, c4⟩ := D.lost j b.1 b.2.1 b.2.2
      unfold JobLosesKey
      rw [a.1] at c3 c4
      exact ⟨c1, c2, c3, c4⟩
  · intro a
    have a := a hD
    obtain ⟨b1, b2, b3⟩ := h.kept (fun _ => a)
    obtain ⟨c1, c2, c3⟩ := D.kept (fun j hj => a j ((JobOf.of_rke b1 r j).mp hj))
    exact ⟨c1.trans b1, c2.trans b2, b3.trans c3⟩
  · intro a
    exact D.loads (uh (a hD)) r k (h.load (fun _ => a hD))
  · intro a q hq
    have a := a hD
    have c := D.calm (uh a.1) (quietT a.2)
    rw [← h.calmL (fun _ => a) q hq]; simp [State.load, c.1]
  · intro a y hy
    have a := a hD
    have c := D.calm (uh a.1) (quietT a.2)
    have ne : y ≠ x := fun e => hy (by subst e; exact ⟨List.mem_cons_self, hf⟩)
    obtain ⟨c1, c2⟩ := c.2 y ne
    obtain ⟨b1, b2, b3⟩ := h.calmS (fun _ => a) y (fun z => hy ⟨List.mem_cons_of_mem _ z.1, z.2⟩)
    refine ⟨b1.trans c2, fun d e => ?_, fun d => ?_⟩
    · rw [c1]; exact b2 ((List.mem_cons.mp d).resolve_left ne) e
    · rw [c1]; exact b3 (fun z => d ⟨List.mem_cons_of_mem _ z.1, z.2⟩)
  · exact (h.writes.trans D.writes).mono (by simp; exact fun u a => by rcases a with a | a | a | a <;> simp [a])
  · exact fun a => absurd hD a
  · exact fun a => absurd hD a

/-- R28: a reference raises the users count of its slot alone. -/
theorem slot_addUser (s : State) (h : Shaped s) (k x : Nat) (hx : x < 24) :
    (s.addUser k).slot x = { s.slot x with users := (s.slot x).users + [k].count x } := by
  unfold State.addUser
  rw [slot_mapSlot, Shaped.keySlots h]
  by_cases e : x = k
  · subst e; simp [hx]
  · rw [if_neg (fun a => e a.1)]
    have : [k].count x = 0 := by rw [List.count_eq_zero]; simpa using e
    rw [this]; rfl

theorem slot_addUser_alike (s : State) (k x : Nat) : (s.addUser k).slot x = { s.slot x with users := ((s.addUser k).slot x).users } := by
  unfold State.addUser
  rw [slot_mapSlot]
  split <;> rfl

/-- Each requester of a write of the progress part awaits it (R110). -/
theorem State.writeProgressPart_awaits (s : State) (ws : List Waiter) (w : Waiter) (h : w ∈ ws) :
    (s.writeProgressPart ws).progressAwaits w := by
  unfold State.writeProgressPart State.progressAwaits; dsimp only; split
  · exact Or.inr ⟨_, rfl, List.mem_append_right _ h⟩
  · refine Or.inl ?_
    rw [write_recordOf]
    exact place_holds _ _ _ _ _ (List.mem_append_right _ h)

/-- R107, R112: all that a resumption of the head job does. -/
theorem State.resumeJob_sweeps (t : State) (j : Job) (ws : List Waiter) (hs : Shaped t) (hj : t.headJob = some j) :
    SweepsAgain j t (t.resumeJob j.range ws) ∧ (t.resumeJob j.range ws).kst.loads = t.kst.loads ∧
    (∀ x, (t.resumeJob j.range ws).slot x = { t.slot x with users := ((t.resumeJob j.range ws).slot x).users }) ∧
    WritesOnly [.rekeyProgress] t (t.resumeJob j.range ws) ∧ ∀ w ∈ ws, (t.resumeJob j.range ws).progressAwaits w := by
  let a := t.takeHold j.range
  let b := a.mapHead (fun j => { j with state := .sweeping, fault := none })
  let n := b.rke.resumption + 1
  let c : State := { b with rke := { b.rke with resuming := true, resumption := n } }
  have ar : a.rke = t.rke := by simp [a]
  have e : t.resumeJob j.range ws = c.writeProgressPart (.rekeyResumed n :: ws) := by
    rfl
  have en : n = t.rke.resumption + 1 := by simp [n, b, State.mapHead, ar]
  have ck : c.kst = a.kst := rfl
  have hk : (t.resumeJob j.range ws).kst = a.kst := by rw [e]; simp [ck]
  have hq : t.rke.queue = j :: t.rke.queue.tail := by
    unfold State.headJob at hj
    cases h : t.rke.queue with
    | nil => simp [h] at hj
    | cons x l => simp [h] at hj; simp [hj]
  have hsl : ∀ x, (t.resumeJob j.range ws).slot x = a.slot x := fun x => by simp [State.slot, hk]
  have asl : ∀ x, a.slot x = { t.slot x with users := (a.slot x).users } := by
    intro x
    simp only [a, State.takeHold]
    cases hf : t.fields j.range with
    | none => rfl
    | some f =>
      dsimp only
      cases hp : f.split with
      | none => rfl
      | some p =>
        have h1 := slot_addUser_alike t f.keySlot x
        have h2 := slot_addUser_alike (t.addUser f.keySlot) p.newKey x
        show ((t.addUser f.keySlot).addUser p.newKey).slot x = { t.slot x with users := (((t.addUser f.keySlot).addUser p.newKey).slot x).users }
        rw [h1] at h2; exact h2
  refine ⟨⟨?_, ?_, ?_, ?_⟩, ?_, ?_, ?_, ?_⟩
  · rw [e, State.writeProgressPart_rke]
    simp only [c, en]
    simp only [b, State.mapHead, ar]
    congr 1
    rw [hq]; rfl
  · rw [e, ← en]; exact State.writeProgressPart_awaits _ _ _ List.mem_cons_self
  · intro g w hg hw
    have ea : a = { (t.addUser g.keySlot).addUser w.newKey with kst := { ((t.addUser g.keySlot).addUser w.newKey).kst with hold := some { range := j.range, oldKey := g.keySlot, newKey := w.newKey } } } := by
      simp only [a, State.takeHold, hg, hw]
    refine ⟨by rw [hk, ea], fun x hx => ?_⟩
    rw [hsl, ea]
    show (((t.addUser g.keySlot).addUser w.newKey).slot x).users = _
    rw [slot_addUser _ (by
      exact (State.addUser_keeps _ _).shaped hs) _ _ hx, slot_addUser _ hs _ _ hx]
    simp only [Nat.add_assoc]
    congr 1
    simp [List.count_cons, Nat.add_comm]
  · intro h
    have ea : a = t := by
      simp only [a, State.takeHold]
      split
      · next f hf => rw [h f hf]
      · rfl
    rw [hk, ea]
    exact ⟨rfl, fun x => by rw [hsl, ea]⟩
  · rw [hk]; simp [a]
  · intro x; rw [hsl]; exact asl x
  · rw [e]
    have : WritesOnly [] t c := writesOnly_of_eq (by simp [c, b, a]) (by simp [c, b, a]) (by simp [c, b, a]) _
    exact (this.trans (State.writeProgressPart_only _ _)).mono (by simp)
  · intro w hw
    rw [e]; exact State.writeProgressPart_awaits _ _ _ (List.mem_cons_of_mem _ hw)

/-- A slot that the load does not unwrap stays. -/
theorem LoadSoFar.skip {s : State} {r : Nat} {k : Rak} {g : RangeFields} {done : List Nat} {t : State} (h : LoadSoFar s r k g done t)
    {x : Nat} (hu : ¬ s.unwraps r x) : LoadSoFar s r k g (x :: done) t := by
  have hn : ¬ s.findsDamaged r k x := fun a => hu a.1
  have hd : DamagedAmong s r k (x :: done) ↔ DamagedAmong s r k done := by
    simp only [DamagedAmong, List.mem_cons, exists_eq_or_imp]; exact ⟨fun a => a.resolve_left hn, Or.inr⟩
  have m : ∀ y, (y ∈ x :: done ∧ s.findsDamaged r k y) ↔ (y ∈ done ∧ s.findsDamaged r k y) := by
    intro y; simp only [List.mem_cons]
    exact ⟨fun a => ⟨a.1.resolve_left (fun e => hn (e ▸ a.2)), a.2⟩, fun a => ⟨Or.inr a.1, a.2⟩⟩
  constructor
  · exact h.shaped
  · exact h.ent
  · rw [hd]; exact h.fldD
  · rw [hd]; exact h.fldN
  · intro y a b; exact h.blank y ((m y).mp ⟨a, b⟩).1 b
  · intro y; rw [m]; exact h.alike y
  · rw [hd]; exact h.rheld
  · rw [hd]; exact h.abD
  · rw [hd]; exact h.abN
  · exact h.flights
  · exact h.res
  · rw [hd]; exact h.lost
  · rw [hd]; exact h.kept
  · rw [hd]; exact h.load
  · rw [hd]; exact h.calmL
  · rw [hd]; intro a y; rw [m]; intro b
    obtain ⟨b1, b2, b3⟩ := h.calmS a y b
    refine ⟨b1, fun c d => b2 ((List.mem_cons.mp c).resolve_left (fun e => hu (e ▸ d))) d, fun c => b3 (fun d => c ⟨List.mem_cons_of_mem _ d.1, d.2⟩)⟩
  · exact h.writes
  · rw [hd]; exact h.writesN
  · rw [hd]; exact h.rtbN

theorem KeySlot.alike_eq {x y : KeySlot} (h : x.alike y) : y.state = x.state ∧ y.owner = x.owner ∧ y.material = x.material := by
  unfold KeySlot.alike at h; rw [h]; exact ⟨rfl, rfl, rfl⟩

/-- R33: one slot more is unwrapped. -/
theorem LoadSoFar.unwraps {s : State} {r : Nat} {k : Rak} {g : RangeFields} {done : List Nat} {t : State} (h : LoadSoFar s r k g done t)
    (hg : s.fields r = some g) {x : Nat} (hx : x ∈ g.named) : LoadSoFar s r k g (x :: done) (t.unwrap r k x) := by
  by_cases hb : x ∈ done ∧ s.findsDamaged r k x
  · have e : t.unwrap r k x = t := by
      unfold State.unwrap
      rw [if_neg]
      rw [(h.blank x hb.1 hb.2).1]; simp [KeySlot.blank]
    rw [e]; exact h.congr (by intro y; simp; exact fun a => a ▸ hb.1)
  · obtain ⟨a1, a2, a3⟩ := KeySlot.alike_eq (h.alike x hb)
    have ow : t.owns r x = s.owns r x := by simp [State.owns, a2]
    have nm : x ∈ s.namedSlots r := by simp [State.namedSlots, hg, hx]
    unfold State.unwrap
    rw [a1, ow, a3]
    split
    · next u =>
      have hu : s.unwraps r x := ⟨nm, u⟩
      have lt : x < 24 := by
        have := slot_lt t x (by rw [a1, u.1]; decide)
        rwa [Shaped.keySlots h.shaped] at this
      cases em : (s.slot x).material with
      | none =>
        have hf : s.findsDamaged r k x := ⟨hu, by simp [em]⟩
        exact h.damages hf lt hx (fun c => hb ⟨c, hf⟩)
      | some m =>
        dsimp only
        split
        · next q => exact h.takes hu (fun hf => hf.2 m em q.1 q.2) em lt
        · next q =>
          have hf : s.findsDamaged r k x := ⟨hu, by
            intro m' hm w e; rw [em] at hm; cases hm; exact q ⟨w, e⟩⟩
          exact h.damages hf lt hx (fun c => hb ⟨c, hf⟩)
    · next u => exact h.skip (fun c => u c.2)

/-- R33: a list of slots is unwrapped. -/
theorem LoadSoFar.fold {s : State} {r : Nat} {k : Rak} {g : RangeFields} (hg : s.fields r = some g) (l : List Nat)
    (hl : ∀ x ∈ l, x ∈ g.named) : ∀ {done : List Nat} {t : State}, LoadSoFar s r k g done t →
      LoadSoFar s r k g (l ++ done) (l.foldl (fun t x => t.unwrap r k x) t) := by
  induction l with
  | nil => intro done t h; exact h
  | cons a l ih =>
    intro done t h
    have := ih (fun x hx => hl x (List.mem_cons_of_mem _ hx)) (h.unwraps hg (hl a List.mem_cons_self))
    exact this.congr (by intro x; simp; exact ⟨fun a => by rcases a with a | a | a <;> simp [a], fun a => by rcases a with a | a | a <;> simp [a]⟩)

/-- Before the first slot the range is LOADED, and nothing else has changed. -/
theorem LoadSoFar.init {s : State} {r : Nat} {k : Rak} {g : RangeFields} (hs : Shaped s) (hg : s.fields r = some g) :
    LoadSoFar s r k g [] (s.setLoad r (.loaded k)) := by
  have nd : ¬ DamagedAmong s r k [] := by simp [DamagedAmong]
  have hr : r < 16 := by have := fields_lt s r g hg; rwa [Shaped.entries hs] at this
  have w : WritesOnly [] s (s.setLoad r (.loaded k)) := writesOnly_of_eq rfl rfl rfl _
  constructor
  · exact (State.setLoad_keeps _ _ _).shaped hs
  · exact fun q _ => rfl
  · exact fun a => absurd a nd
  · exact fun _ => hg
  · simp
  · exact fun x _ => KeySlot.alike_refl _
  · exact fun a => absurd a nd
  · exact fun a => absurd a nd
  · exact fun _ => ⟨rfl, rfl⟩
  · rfl
  · rfl
  · exact fun a => absurd a nd
  · exact fun _ => ⟨rfl, rfl, w.same _ (by simp)⟩
  · intro _; rw [load_setLoad, Shaped.loads hs, if_pos ⟨rfl, hr⟩]
  · intro _ q hq; rw [load_setLoad, if_neg (fun a => hq a.1)]
  · intro _ x _; exact ⟨w.same _ (by simp), by simp, fun _ => rfl⟩
  · exact w.mono (by simp)
  · exact fun _ => w
  · exact fun _ => rfl

/-- R33: a load of a NOT_LOADED range unwraps the slots that it names, and then looks for a PAUSED job. -/
theorem loadRange_soFar {s : State} {r : Nat} {k : Rak} {g : RangeFields} (hs : Shaped s) (hl : s.lockdown = false)
    (hn : s.load r = .notLoaded) (hg : s.fields r = some g) :
    ∃ t, LoadSoFar s r k g g.named t ∧ s.loadRange r (some k) = (t.resumeIfPaused r, true) := by
  refine ⟨_, (LoadSoFar.fold hg g.named (fun _ h => h) (LoadSoFar.init hs hg)).congr (by simp), ?_⟩
  unfold State.loadRange
  simp [hl, hn, State.namedSlots, hg]

/-- R36: a load that finds a key damaged. -/
theorem loadRange_damaged {s : State} {r : Nat} {k : Rak} {g : RangeFields} (hs : Shaped s) (hl : s.lockdown = false)
    (hn : s.load r = .notLoaded) (hg : s.fields r = some g) (hd : ¬ s.intactUnder r k) :
    ∃ t, s.loadRange r (some k) = (t, true) ∧ KeysDamaged r k s t ∧ t.fields r = some { g with keyLost := true } ∧
      (∀ q, q ≠ r → t.entry q = s.entry q) ∧ Shaped t ∧
      WritesOnly (.range r :: .rekeyProgress :: (List.range 24).map StoreUnit.key) s t := by
  obtain ⟨t, m, e⟩ := loadRange_soFar (k := k) hs hl hn hg
  have nm : s.namedSlots r = g.named := by simp [State.namedSlots, hg]
  obtain ⟨x, hx⟩ : ∃ x, s.findsDamaged r k x := by
    apply Classical.byContradiction
    intro a
    apply hd
    intro x h1 h2 h3
    apply Classical.byContradiction
    intro b
    exact a ⟨x, ⟨h1, h2, h3⟩, fun m hm hw hr => b ⟨m, hm, hw, hr⟩⟩
  have inN : ∀ y, s.findsDamaged r k y → y ∈ g.named := fun y h => nm ▸ h.1.1
  have D : DamagedAmong s r k g.named := ⟨x, inN x hx, hx⟩
  have lost : t.slotLost r = true := by
    unfold State.slotLost; rw [m.fldD D]
    simp only [List.any_eq_true]
    exact ⟨x, inN x hx, by rw [(m.blank x (inN x hx) hx).1]; simp [KeySlot.blank]⟩
  have er : t.resumeIfPaused r = t := by
    unfold State.resumeIfPaused
    split
    · rw [if_neg (by rw [lost]; simp)]
    · rfl
  rw [er] at e
  refine ⟨t, e, ⟨m.abD D, m.flights, m.res, fun y hy => m.blank y (inN y hy) hy, m.rheld D,
    fun y hy => m.alike y (fun a => hy a.2), m.lost D, fun a => m.kept (fun _ => a), fun a => m.load (fun _ => a), fun a b => ?_⟩,
    m.fldD D, m.ent, m.shaped, m.writes⟩
  refine ⟨m.calmL (fun _ => ⟨a, b⟩), fun y hy => ?_⟩
  obtain ⟨c1, c2, c3⟩ := m.calmS (fun _ => ⟨a, b⟩) y (fun z => hy z.2)
  exact ⟨c1, fun u => c2 (nm ▸ u.1) u, fun u => c3 (fun z => u z.2)⟩

/-- R107: the head job resumes when the listed ranges are loaded. -/
def Resumes (l : List Nat) (s : State) (j : Job) : Prop := s.headJob = some j ∧ j.state = .paused ∧ j.range ∈ l ∧ (∀ k, s.load j.range ≠ .loaded k) ∧
    s.rke.recovery ≠ .header ∧
    ∃ g, s.fields j.range = some g ∧ ∀ x ∈ g.named, (s.slot x).state ≠ .empty ∧ s.owns j.range x = true

/-- R33, R107: what loads that find nothing damaged have done, range after range. -/
structure LoadsDone (l : List Nat) (via : Nat → Option Rak) (s t : State) : Prop where
  keys : KeysLoaded l via s t
  sweep : SweepResumed l s t
  dpu : t.dpu = s.dpu
  sent : t.sent = s.sent
  writes : WritesOnly [.rekeyProgress] s t
  shaped : Shaped t

theorem slotLost_iff (s : State) (r : Nat) (g : RangeFields) (hg : s.fields r = some g) :
    s.slotLost r = false ↔ ∀ x ∈ g.named, (s.slot x).state ≠ .empty ∧ s.owns r x = true := by
  unfold State.slotLost; rw [hg]
  simp

/-- R107: a range that is LOADED resumes the head job, or does nothing. -/
theorem State.resumeIfPaused_cases {t : State} {r : Nat} {k : Rak} (hl : t.load r = .loaded k) :
    let go := fun j : Job => t.headJob = some j ∧ j.range = r ∧ j.state = .paused ∧ t.rke.recovery ≠ .header ∧
      ∃ g, t.fields r = some g ∧ ∀ x ∈ g.named, (t.slot x).state ≠ .empty ∧ t.owns r x = true
    (∀ j, go j → t.resumeIfPaused r = t.resumeJob j.range []) ∧ ((∀ j, ¬ go j) → t.resumeIfPaused r = t) := by
  intro go
  refine ⟨?_, ?_⟩
  · rintro j ⟨h1, h2, h3, h4, g, h5, h6⟩
    unfold State.resumeIfPaused
    simp only [h1, hl]
    rw [if_pos ⟨h2, h3, h4, (slotLost_iff t r g h5).mpr h6⟩, h2]
  · intro h
    unfold State.resumeIfPaused
    cases e : t.headJob with
    | none => simp
    | some j =>
      simp only [hl]
      rw [if_neg]
      rintro ⟨h2, h3, h4, h5⟩
      cases hg : t.fields r with
      | none => simp [State.slotLost, hg] at h5
      | some g => exact h j ⟨e, h2, h3, h4, g, hg, (slotLost_iff t r g hg).mp h5⟩

/-- R33: a load that finds nothing damaged. -/
theorem loadRange_loads {s : State} {r : Nat} {via : Option Rak} {g : RangeFields} (hs : Shaped s) (hl : s.lockdown = false)
    (hg : s.fields r = some g) (ho : s.load r ≠ .notLoaded ∨ via ≠ none)
    (hi : ∀ k, s.load r = .notLoaded → via = some k → s.intactUnder r k) :
    ∃ t, s.loadRange r via = (t, true) ∧ LoadsDone [r] (fun _ => via) s t ∧ t.rtb = s.rtb := by
  have hr : r < 16 := by have := fields_lt s r g hg; rwa [Shaped.entries hs] at this
  have nm : s.namedSlots r = g.named := by simp [State.namedSlots, hg]
  cases hload : s.load r with
  | loaded k =>
    refine ⟨s, by unfold State.loadRange; simp [hl, hload], ⟨⟨?_, ?_, rfl, ?_⟩, ⟨?_, ?_⟩, rfl, rfl, WritesOnly.refl _ _, hs⟩, rfl⟩
    · intro q hq x hx
      rw [List.mem_singleton] at hq; subst hq
      rw [hload] at hx ⊢; simp [Load.rak?] at hx; rw [hx]
    · exact fun _ _ => rfl
    · intro x
      refine ⟨?_, fun _ => rfl, rfl⟩
      rintro ⟨q, hq, e, _⟩
      rw [List.mem_singleton] at hq; subst hq; rw [hload] at e; cases e
    · rintro j ⟨_, _, h3, h4, _⟩
      rw [List.mem_singleton] at h3
      exact absurd (h3 ▸ hload) (h4 k)
    · exact fun _ => ⟨rfl, rfl, fun _ => rfl, fun _ _ => Iff.rfl⟩
  | _ =>
    obtain ⟨t, k, e, tl, ts, trtb, trke, thold, tdpu, tsent, tw, tres, talike, tload, tcopy, tvia⟩ :
      ∃ t k, s.loadRange r via = (t.resumeIfPaused r, true) ∧ t.load r = .loaded k ∧ Shaped t ∧ t.rtb = s.rtb ∧
        t.rke = s.rke ∧ t.kst.hold = s.kst.hold ∧ t.dpu = s.dpu ∧ t.sent = s.sent ∧ WritesOnly [] s t ∧
        t.kst.reservation = s.kst.reservation ∧ (∀ x, t.slot x = { s.slot x with copy := (t.slot x).copy }) ∧
        (∀ q, q ≠ r → t.load q = s.load q) ∧
        (∀ x, (s.load r = .notLoaded ∧ s.unwraps r x → (t.slot x).copy = (s.slot x).material.map (fun m => m.key)) ∧
          (¬ (s.load r = .notLoaded ∧ s.unwraps r x) → (t.slot x).copy = (s.slot x).copy)) ∧
        (∀ x, (s.load r).rak? = some x ∨ (s.load r = .notLoaded ∧ via = some x) → k = x) := by
      first
      | -- RELEASING
        (next k =>
          refine ⟨s.setLoad r (.loaded k), k, by unfold State.loadRange; simp [hl, hload], ?_, (State.setLoad_keeps _ _ _).shaped hs,
            rfl, rfl, rfl, rfl, rfl, writesOnly_of_eq rfl rfl rfl _, rfl, fun _ => rfl, ?_, ?_, ?_⟩
          · rw [load_setLoad, Shaped.loads hs, if_pos ⟨rfl, hr⟩]
          · intro q hq; rw [load_setLoad, if_neg (fun a => hq a.1)]
          · intro x; refine ⟨fun a => ?_, fun _ => rfl⟩
            rw [hload] at a; cases a.1
          · intro x a
            rw [hload] at a; simp [Load.rak?] at a; exact a)
      | (cases via with
        | none => exact absurd hload (ho.resolve_right (by simp))
        | some k =>
          obtain ⟨t, m, e⟩ := loadRange_soFar (k := k) hs hl hload hg
          have it := hi k hload rfl
          have nd : ¬ DamagedAmong s r k g.named := by
            rintro ⟨x, hx, ⟨u1, u2, u3⟩, u4⟩
            obtain ⟨m, h1, h2, h3⟩ := it x u1 u2 u3
            exact u4 m h1 h2 h3
          have nf : ∀ x, ¬ s.findsDamaged r k x := by
            intro x hx; exact nd ⟨x, nm ▸ hx.1.1, hx⟩
          have kp := m.kept (fun a => absurd a nd)
          have cs := m.calmS (fun a => absurd a nd)
          refine ⟨t, k, e, m.load (fun a => absurd a nd), m.shaped, ?_, kp.1, kp.2.1, (m.abN (fun a => absurd a nd)).1,
            (m.abN (fun a => absurd a nd)).2, m.writesN nd, m.res, ?_, m.calmL (fun a => absurd a nd), ?_, ?_⟩
          · exact m.rtbN nd
          · intro x
            obtain ⟨-, c2, c3⟩ := cs x (fun a => nf x a.2)
            by_cases u : s.unwraps r x
            · rw [c2 (nm ▸ u.1) u]
            · rw [c3 (fun z => u z.2)]
          · intro x
            obtain ⟨-, c2, c3⟩ := cs x (fun a => nf x a.2)
            refine ⟨fun u => ?_, fun u => ?_⟩
            · rw [c2 (nm ▸ u.2.1) u.2]
            · rw [c3 (fun z => u ⟨hload, z.2⟩)]
          · intro x a
            rw [hload] at a; simp [Load.rak?] at a; exact a)
    have hh : t.headJob = s.headJob := by simp [State.headJob, trke]
    have hf : ∀ q, t.fields q = s.fields q := fun q => by simp [State.fields, State.entry, trtb]
    have al : ∀ x, (t.slot x).state = (s.slot x).state ∧ (t.slot x).owner = (s.slot x).owner ∧ (t.slot x).users = (s.slot x).users := by
      intro x; rw [talike]; exact ⟨rfl, rfl, rfl⟩
    have ow : ∀ q x, t.owns q x = s.owns q x := fun q x => by simp [State.owns, (al x).2.1]
    have nl : ∀ k, s.load r ≠ .loaded k := by rw [hload]; simp
    obtain ⟨yes, no⟩ := State.resumeIfPaused_cases tl
    refine ⟨t.resumeIfPaused r, e, ?_, by simp [trtb]⟩
    have goes : ∀ j, Resumes [r] s j → t.resumeIfPaused r = t.resumeJob j.range [] := by
      rintro j ⟨h1, h2, h3, h4, h5, g', h6, h7⟩
      rw [List.mem_singleton] at h3
      refine yes j ⟨hh.trans h1, h3, h2, trke ▸ h5, g', by rw [hf, ← h3]; exact h6, fun x hx => ?_⟩
      rw [(al x).1, ow, ← h3]; exact h7 x hx
    have stays : (∀ j, ¬ Resumes [r] s j) → t.resumeIfPaused r = t := by
      intro h
      refine no (fun j hj => ?_)
      obtain ⟨h1, h2, h3, h4, g', h5, h6⟩ := hj
      refine h j ⟨hh.symm.trans h1, h3, by simp [h2], by rw [h2]; exact nl, trke ▸ h4, g', by rw [h2, ← hf]; exact h5, fun x hx => ?_⟩
      rw [h2, ← (al x).1, ← ow]; exact h6 x hx
    obtain ⟨wload, wslot, wws⟩ : (t.resumeIfPaused r).kst.loads = t.kst.loads ∧
        (∀ x, (t.resumeIfPaused r).slot x = { t.slot x with users := ((t.resumeIfPaused r).slot x).users }) ∧
        WritesOnly [.rekeyProgress] t (t.resumeIfPaused r) := by
      by_cases h : ∃ j, Resumes [r] s j
      · obtain ⟨j, hj⟩ := h
        rw [goes j hj]
        obtain ⟨-, a, b, c, -⟩ := State.resumeJob_sweeps t j [] ts (hh.trans hj.1)
        exact ⟨a, b, c⟩
      · rw [stays (fun j hj => h ⟨j, hj⟩)]; exact ⟨rfl, fun _ => rfl, WritesOnly.refl _ _⟩
    have wl : ∀ q, (t.resumeIfPaused r).load q = t.load q := fun q => by simp [State.load]
    refine ⟨⟨?_, ?_, by simp [tres], ?_⟩, ⟨?_, ?_⟩, by simp [tdpu], by simp [tsent], (tw.trans wws).mono (by simp), (State.resumeIfPaused_keeps _ _).shaped ts⟩
    · intro q hq x hx
      rw [List.mem_singleton] at hq; subst hq
      rw [wl, tl, tvia x (by rw [hload] at hx ⊢; exact hx)]
    · intro q hq; rw [wl]; exact tload q (by simpa using hq)
    · intro x
      have hc : ((t.resumeIfPaused r).slot x).copy = (t.slot x).copy := by rw [wslot]
      have iff1 : (∃ q ∈ [r], s.load q = .notLoaded ∧ s.unwraps q x) ↔ (s.load r = .notLoaded ∧ s.unwraps r x) := by simp
      refine ⟨fun a => ?_, fun a => ?_, ?_⟩
      · rw [hc]; exact (tcopy x).1 (iff1.mp a)
      · rw [hc]; exact (tcopy x).2 (fun b => a (iff1.mpr b))
      · have h1 := wslot x
        rw [talike x] at h1
        rw [hc]; exact h1
    · intro j hj
      have hj : Resumes [r] s j := hj
      rw [goes j hj]
      obtain ⟨⟨a1, a2, a3, a4⟩, -⟩ := State.resumeJob_sweeps t j [] ts (hh.trans hj.1)
      unfold SweepsAgain
      rw [trke] at a1 a2
      refine ⟨a1, a2, fun g' w hg' hw => ?_, fun h => ?_⟩
      · obtain ⟨b1, b2⟩ := a3 g' w (by rw [hf]; exact hg') hw
        exact ⟨b1, fun x hx => by rw [b2 x hx, (al x).2.2]⟩
      · obtain ⟨b1, b2⟩ := a4 (fun g' hg' => h g' (by rw [← hf]; exact hg'))
        exact ⟨b1.trans thold, fun x => by rw [b2, (al x).2.2]⟩
    · intro h
      rw [stays h]
      exact ⟨trke, thold, fun x => (al x).2.2, tw.same _ (by simp)⟩

end Sys2Proof.Machine
end

