-- ==== Sys2Proof/Laws/Requests.lean ====
section
/-! SUPPORT. What a request that passes its checks and a proof that matches come to, and how they are answered. -/

set_option Elab.async false

namespace Sys2Proof.Machine

/-! ### Frames sent -/

/-- What a final frame under the current session adds to the frames sent. -/
theorem answer_sent (s : State) (rto : ReplyTo) (b : Body) (h : rto.session = s.lif.session) :
    (s.answer rto b).sent = s.sent ++ [frame rto.channel rto.tag b] := by
  unfold State.answer; rw [if_pos h]; cases e : rto.channel <;> simp [State.send, State.freeTag, frame]

/-- What a final frame leaves of the link's tags in use. -/
theorem answer_lif (s : State) (rto : ReplyTo) (b : Body) (h : rto.session = s.lif.session) :
    (s.answer rto b).lif = if rto.channel = .control then { s.lif with tagsInUse := s.lif.tagsInUse.filter (fun t => t != rto.tag) } else s.lif := by
  unfold State.answer; rw [if_pos h]; cases e : rto.channel <;> simp [State.send, State.freeTag]

/-! ### A request that passes, a proof that matches -/

/-- The state that the rules of a request of message m are applied to (R165). -/
def State.begun (s : State) (m : Message) (f : Hdr) : State := s.frameTaken.joinTag m f.tag

/-- R177: a request that passes is handed to its message rules. -/
theorem take_passes {s : State} {m : Message} {f : Hdr} {fits : Bool} (h : Passes s m f fits) (act : State → ReplyTo → State) :
    s.take m f fits act = act (s.begun m f) (s.replyTo m.channel f.tag) := by
  obtain ⟨h1, h2, h3, h4, h5, h6⟩ := h
  have hd : s.deaf = false := by simp [State.deaf, h1, h2]
  have hr : s.refusal m f fits = none := by
    unfold State.refusal
    rw [if_neg h3, if_neg (fun k => h4 k.1 k.2.1 k.2.2), if_neg (by rcases h5 with h | h <;> simp [h]), if_neg (by simp [h6])]
  unfold State.take; simp [hd, hr, State.begun]

/-- Before a request's rules, one frame more is taken, and its CONTROL tag is in use. -/
@[simp] theorem begun_frame (s : State) (m : Message) (f : Hdr) :
    (s.begun m f).cru = s.cru ∧ (s.begun m f).btc = s.btc ∧ (s.begun m f).kst = s.kst ∧ (s.begun m f).rtb = s.rtb ∧
    (s.begun m f).dpu = s.dpu ∧ (s.begun m f).rke = s.rke ∧ (s.begun m f).rsu = s.rsu ∧ (s.begun m f).wpe = s.wpe ∧
    (s.begun m f).sst = s.sst ∧ (s.begun m f).fresh = s.fresh ∧ (s.begun m f).sent = s.sent ∧
    (s.begun m f).lif.session = s.lif.session ∧ (s.begun m f).lif.started = s.lif.started ∧
    (s.begun m f).lif.capacity = s.lif.capacity := by
  unfold State.begun State.joinTag; split <;> simp [State.frameTaken]

/-- The state after a matching proof under slot i: its challenge is consumed and its failures are 0 (R48, R52). -/
def State.admitted (s : State) (p : ProofBlock) (i : Nat) : State := (s.consume p).proofMatched i

@[simp] theorem admitted_frame (s : State) (p : ProofBlock) (i : Nat) :
    (s.admitted p i).lif = s.lif ∧ (s.admitted p i).btc = s.btc ∧ (s.admitted p i).kst = s.kst ∧
    (s.admitted p i).rtb = s.rtb ∧ (s.admitted p i).dpu = s.dpu ∧ (s.admitted p i).rke = s.rke ∧
    (s.admitted p i).rsu = s.rsu ∧ (s.admitted p i).wpe = s.wpe ∧ (s.admitted p i).fresh = s.fresh ∧
    (s.admitted p i).sent = s.sent ∧ (s.admitted p i).sst.units = s.sst.units ∧
    (s.admitted p i).sst.power = s.sst.power ∧ (s.admitted p i).sst.drain = s.sst.drain ∧
    (s.admitted p i).sst.lastDevice = s.sst.lastDevice ∧ (s.admitted p i).sst.serving = s.sst.serving ∧
    (s.admitted p i).cru.ops = s.cru.ops := by
  unfold State.admitted State.proofMatched; split <;> simp [State.consume, State.mapCred]

/-- R48, R52, R53: a proof that matches under a slot that may make the request is handed to the request's rules. -/
theorem proven_proves {s : State} {m : Message} {fields : List Nat} {i : Nat} {p : ProofBlock} (h : Proves s m fields i p)
    (n : Nat) (hp : s.permits m i n = true) (rto : ReplyTo) (act : State → Nat → Option WrapValue → State) :
    s.proven m fields n p rto act = act (s.admitted p i) i ((s.admitted p i).grantValue i) := by
  obtain ⟨h1, h2, h3, h4, c, v, h5, h6, h7⟩ := h
  have hs : s.slotRefusal p.slot = none := by
    unfold State.slotRefusal; rw [h1, if_neg (by omega), h3, h4]
  have hv : (s.consume p).verifier p.slot = some v := by rw [h1, ← h6]; rfl
  have hq : ((s.consume p).proofMatched p.slot).permits m p.slot n = true := by
    rw [h1, ← hp]
    have e : ∀ r, ((s.consume p).proofMatched i).fields r = s.fields r := by
      intro r; have := (admitted_frame s p i).2.2.2.1; unfold State.admitted at this; unfold State.fields State.entry; rw [this]
    simp [State.permits, State.rangePermits, State.listsHold, e]
  have hm : Verifier.matches (some v) c.nonce (digestText m fields) p.proof = true := by simp [Verifier.matches, h7]
  unfold State.proven
  simp only [hs, h5, hv, hm, hq, if_true]
  rw [h1]; rfl

/-- R54: a label proof that matches is handed to the request's rules. -/
theorem labelled_labels {s : State} {m : Message} {fields : List Nat} {p : ProofBlock} (h : Labels s m fields p)
    (rto : ReplyTo) (act : State → State) : s.labelled m fields p rto act = act (s.consume p) := by
  obtain ⟨h1, c, h2, h3⟩ := h
  unfold State.labelled
  simp [h1, h2, State.consume, Verifier.matches, h3]

/-- A proof that matches before the request's checks matches after them. -/
theorem proves_begun {s : State} {m : Message} {fields : List Nat} {i : Nat} {p : ProofBlock} (h : Proves s m fields i p)
    (f : Hdr) : Proves (s.begun m f) m fields i p := by
  obtain ⟨h1, h2, h3, h4, c, v, h5, h6, h7⟩ := h
  have e : (s.begun m f).cru = s.cru := (begun_frame s m f).1
  refine ⟨h1, h2, ?_, ?_, c, v, ?_, ?_, h7⟩
  · simpa [State.cred, e] using h3
  · simpa [State.cred, e] using h4
  · simpa [State.challengeOf, e] using h5
  · simpa [State.verifier, State.waveB, State.cred, e] using h6

theorem labels_begun {s : State} {m : Message} {fields : List Nat} {p : ProofBlock} (h : Labels s m fields p) (f : Hdr) :
    Labels (s.begun m f) m fields p := by
  obtain ⟨h1, c, h2, h3⟩ := h
  refine ⟨h1, c, ?_, ?_⟩
  · simpa [State.challengeOf, (begun_frame s m f).1] using h2
  · simpa [(begun_frame s m f).2.1] using h3

/-! ### Commands as requests -/

/-- A command that is a request is taken by the Link Interface's checks. -/
theorem exec_take {c : Instr} {m : Message} {f : Hdr} {fits : Bool} (h : c.asRequest = some (m, f, fits)) :
    ∃ act : State → ReplyTo → State, ∀ s : State, exec c s = done (s.take m f fits act) := by
  cases c <;> simp only [Instr.asRequest, Option.some.injEq, Prod.mk.injEq, reduceCtorEq] at h <;>
    (obtain ⟨rfl, rfl, rfl⟩ := h; exact ⟨_, fun s => rfl⟩)

/-- A request that ends in a proof block is handed to the Credential Unit's checks. -/
theorem exec_proven {c : Instr} {m : Message} {f : Hdr} {fits : Bool} {fields : List Nat} {n : Nat} {p : ProofBlock}
    (h : c.asRequest = some (m, f, fits)) (k : c.asProven = some (m, fields, n, p)) :
    m.channel = .control ∧ m ≠ .linkStart ∧
      ∃ act : ReplyTo → State → Nat → Option WrapValue → State, ∀ s : State,
        exec c s = done (s.take m f fits (fun t rto => t.proven m fields n p rto (act rto))) := by
  cases c with
  | rangeList f' start q =>
    cases q with
    | none => simp [Instr.asProven] at k
    | some b =>
      simp only [Instr.asRequest, Instr.asProven, Option.some.injEq, Prod.mk.injEq] at h k
      obtain ⟨rfl, rfl, rfl⟩ := h
      obtain ⟨-, rfl, rfl, rfl⟩ := k
      exact ⟨rfl, by decide, _, fun s => rfl⟩
  | provision f' a r size present token q =>
    simp only [Instr.asRequest, Instr.asProven, Option.some.injEq, Prod.mk.injEq] at h k
    split at k
    · exact absurd k (by simp)
    · rename_i hq
      simp only [Option.some.injEq, Prod.mk.injEq] at k
      obtain ⟨rfl, rfl, rfl⟩ := h
      obtain ⟨-, rfl, rfl, rfl⟩ := k
      refine ⟨rfl, by decide, fun _ t _ _ => t, fun s => ?_⟩
      simp only [exec, execProvision, State.request, State.labelled, if_neg hq]
  | reprovision f' q =>
    simp only [Instr.asRequest, Instr.asProven, Option.some.injEq, Prod.mk.injEq] at h k
    split at k
    · exact absurd k (by simp)
    · rename_i hq
      simp only [Option.some.injEq, Prod.mk.injEq] at k
      obtain ⟨rfl, rfl, rfl⟩ := h
      obtain ⟨-, rfl, rfl, rfl⟩ := k
      refine ⟨rfl, by decide, fun _ t _ _ => t, fun s => ?_⟩
      simp only [exec, execReprovision, State.request, State.labelled, if_neg hq]
  | _ =>
    first
    | (simp only [Instr.asProven, reduceCtorEq] at k; done)
    | (simp only [Instr.asRequest, Instr.asProven, Option.some.injEq, Prod.mk.injEq] at h k
       obtain ⟨rfl, rfl, rfl⟩ := h
       obtain ⟨-, rfl, rfl, rfl⟩ := k
       exact ⟨rfl, by decide, _, fun s => rfl⟩)

/-- A request whose label proof is checked by the Credential Unit. -/
theorem exec_labelled {c : Instr} {m : Message} {f : Hdr} {fits : Bool} {fields : List Nat} {p : ProofBlock}
    (h : c.asRequest = some (m, f, fits)) (k : c.asLabelled = some (m, fields, p)) :
    m.channel = .control ∧ m ≠ .linkStart ∧
      ∃ act : ReplyTo → State → State, ∀ s : State,
        exec c s = done (s.take m f fits (fun t rto => t.labelled m fields p rto (act rto))) := by
  cases c with
  | provision f' a r size present token q =>
    simp only [Instr.asRequest, Instr.asLabelled, Option.some.injEq, Prod.mk.injEq] at h k
    obtain ⟨rfl, rfl, rfl⟩ := h
    obtain ⟨-, rfl, rfl⟩ := k
    exact ⟨rfl, by decide, _, fun s => rfl⟩
  | reprovision f' q =>
    simp only [Instr.asRequest, Instr.asLabelled, Option.some.injEq, Prod.mk.injEq] at h k
    obtain ⟨rfl, rfl, rfl⟩ := h
    obtain ⟨-, rfl, rfl⟩ := k
    exact ⟨rfl, by decide, _, fun s => rfl⟩
  | _ => simp [Instr.asLabelled] at k

/-- The final answer to a CONTROL request in its own step: its tag joins and leaves the tags in use. -/
theorem answer_begun (s : State) (m : Message) (f : Hdr) (b : Body) (hm : m.channel = .control → m ≠ .linkStart → f.tag ∉ s.lif.tagsInUse)
    (hl : m ≠ .linkStart) : (s.begun m f).answer (s.replyTo m.channel f.tag) b = s.answered m f b := by
  have e : (s.replyTo m.channel f.tag).session = (s.begun m f).lif.session := by
    rw [(begun_frame s m f).2.2.2.2.2.2.2.2.2.2.2.1]; rfl
  unfold State.answer
  rw [if_pos e]
  unfold State.begun State.joinTag State.answered
  cases hc : m.channel <;> simp [State.replyTo, State.send, State.freeTag, State.frameTaken, frame, hl]
  exact fun a ha hb => hm hc hl (hb ▸ ha)

/-! ### After a matching proof -/

/-- What a request's proof leaves as it was before it (R48, R52). -/
theorem admitted_framed (s : State) (m : Message) (f : Hdr) (p : ProofBlock) (i : Nat) :
    Framed [.bursts, .tags, .challenges, .credSlots, .writes] s ((s.begun m f).admitted p i) := by
  refine ⟨?_, fun q hq => ?_⟩
  · unfold State.admitted State.proofMatched State.begun State.joinTag
    (repeat' split) <;> simp [State.consume, State.mapCred, State.frameTaken]
  · unfold State.admitted State.proofMatched State.begun State.joinTag
    cases q <;> (first | (exfalso; simp at hq; done) | skip) <;> (repeat' split) <;>
      simp [Piece.same, State.consume, State.mapCred, State.frameTaken, State.write]

/-- Resetting a count that is 0 changes no slot. -/
theorem resetZero (l : List CredSlot) (i : Nat)
    (h : (l[i]?.getD { record := .blank, backoff := none }).record.failures = 0) :
    l.modify i (fun x => { x with record := { x.record with failures := 0 } }) = l := by
  apply List.ext_getElem?
  intro j
  rw [List.getElem?_modify]
  cases e : l[j]? with
  | none => simp
  | some x =>
    simp only [Option.map_eq_map, Option.map_some, Option.some.injEq]
    split
    · next hij => subst hij; simp only [e, Option.getD_some] at h; cases x; rename_i r b; cases r; simp_all
    · rfl

/-- R48, R52: the challenge is consumed, the slot's failures are 0, and its record is written when they were not. -/
theorem admitted_proved (s : State) (m : Message) (f : Hdr) (p : ProofBlock) (i : Nat) :
    Proved s ((s.begun m f).admitted p i) i p := by
  have e := (begun_frame s m f).1
  unfold State.admitted State.proofMatched
  split
  · next h =>
    have z : (s.cred i).record.failures = 0 := by simpa [State.cred, State.consume, e] using h
    refine ⟨by simp [State.consume], ?_, fun k => absurd z k, fun _ w _ => ?_⟩
    · simp only [State.consume, e]
      exact (resetZero _ _ z).symm
    · simp [State.writesHeld, State.consume]
  · next h =>
    refine ⟨by simp [State.consume, State.mapCred], by simp [State.consume, State.mapCred], fun _ => write_hasWrite _ _ _,
      fun z => absurd ?_ h⟩
    simpa [State.cred, State.consume, e] using z

/-- A matching proof places no write but its slot's (R52). -/
theorem admitted_writes (s : State) (m : Message) (f : Hdr) (p : ProofBlock) (i : Nat) :
    WritesOnly [.cred i] s ((s.begun m f).admitted p i) := by
  unfold State.admitted State.proofMatched
  split
  · exact writesOnly_of_eq (by simp [State.consume]) (by simp [State.consume]) (by simp [State.consume]) _
  · refine WritesOnly.trans (us := []) (t := ((s.begun m f).consume p).mapCred i (fun x => { x with record := { x.record with failures := 0 } })) (writesOnly_of_eq ?_ ?_ ?_ _) (write_only _ _ _) <;> simp [State.consume, State.mapCred]

/-- A CONTROL request is taken: its tag is in use (R165). -/
theorem begun_tags (s : State) (m : Message) (f : Hdr) (hc : m.channel = .control) (hl : m ≠ .linkStart) :
    (s.begun m f).lif = { s.lif with burstTaken := s.lif.burstTaken + 1, tagsInUse := s.lif.tagsInUse ++ [f.tag] } := by
  unfold State.begun State.joinTag; simp [hc, hl, State.frameTaken]

/-- A request whose proof matches comes to its rules applied to the state after the proof. -/
theorem exec_admitted {c : Instr} {s : State} {m : Message} {f : Hdr} {fits : Bool} {fields : List Nat} {n i : Nat} {p : ProofBlock}
    (hr : c.asRequest = some (m, f, fits)) (ha : c.asProven = some (m, fields, n, p)) (hp : c.passes s) (hv : c.proves s i)
    (act : ReplyTo → State → Nat → Option WrapValue → State)
    (e : ∀ s : State, exec c s = done (s.take m f fits (fun t rto => t.proven m fields n p rto (act rto)))) :
    exec c s = done (act (s.replyTo .control f.tag) ((s.begun m f).admitted p i) i (((s.begun m f).admitted p i).grantValue i)) := by
  have hc := (exec_proven hr ha).1
  unfold Instr.passes at hp; rw [hr] at hp
  unfold Instr.proves at hv; rw [ha] at hv
  rw [e, take_passes hp, hc]
  rw [proven_proves (proves_begun hv.1 f)]
  have q : (s.begun m f).permits m i n = s.permits m i n := by
    have := (begun_frame s m f).2.2.2.1
    simp [State.permits, State.rangePermits, State.listsHold, State.fields, State.entry, this]
  rw [q]; exact hv.2

/-- A proof changes no range. -/
theorem fields_admitted (s : State) (m : Message) (f : Hdr) (p : ProofBlock) (i r : Nat) :
    ((s.begun m f).admitted p i).fields r = s.fields r := by
  unfold State.fields State.entry; rw [(admitted_frame _ _ _).2.2.2.1, (begun_frame s m f).2.2.2.1]

/-- The grant of a matching proof is the slot's before it. -/
theorem grant_admitted (s : State) (m : Message) (f : Hdr) (p : ProofBlock) (i j : Nat) :
    ((s.begun m f).admitted p i).grantValue j = s.grantValue j := by
  have e := (begun_frame s m f).1
  have o : ((s.begun m f).admitted p i).cru.ops = s.cru.ops := by rw [(admitted_frame _ _ _).2.2.2.2.2.2.2.2.2.2.2.2.2.2.2, e]
  have k : ∀ j, (((s.begun m f).admitted p i).cred j).record.wrap = (s.cred j).record.wrap := by
    intro j
    have := (admitted_proved s m f p i).2.1
    unfold State.cred; rw [this, List.getElem?_modify]
    cases s.cru.slots[j]? with
    | none => rfl
    | some x => simp only [Option.map_eq_map, Option.map_some, Option.getD_some]; split <;> rfl
  unfold State.grantValue State.waveB; rw [o, k]

/-- A proof changes no envelope. -/
theorem openEnvelope_admitted (s : State) (m : Message) (f : Hdr) (p : ProofBlock) (i r : Nat) (h : Holder) (w : Option WrapValue) :
    ((s.begun m f).admitted p i).openEnvelope r h w = s.openEnvelope r h w := by
  unfold State.openEnvelope; rw [fields_admitted]

/-- An answer right after a matching proof. -/
theorem answered_admitted {c : Instr} {s : State} {m : Message} {f : Hdr} {p : ProofBlock} {i : Nat} {b : Body}
    (hl : m ≠ .linkStart) (hc : m.channel = .control) (ht : f.tag ∉ s.lif.tagsInUse)
    (e : exec c s = done (((s.begun m f).admitted p i).answer (s.replyTo .control f.tag) b)) :
    AnsweredAfterProof c s i p f.tag b := by
  have hs : (s.replyTo .control f.tag).session = ((s.begun m f).admitted p i).lif.session := by
    rw [(admitted_frame _ _ _).1, begun_tags s m f hc hl]; rfl
  have A := admitted_framed s m f p i
  have P := admitted_proved s m f p i
  refine ⟨_, e, ⟨?_, fun q hq => ?_⟩, ?_, ?_, ?_⟩
  · rw [← A.1]; simp
  · by_cases hq2 : q = .tags
    · subst hq2
      simp only [Piece.same]
      rw [answer_lif _ _ _ hs, (admitted_frame _ _ _).1, begun_tags s m f hc hl]
      simp [State.replyTo]; exact fun a ha hb => ht (hb ▸ ha)
    · have := A.2 q (by intro h; simp only [List.mem_cons, List.not_mem_nil, or_false] at h hq; rcases h with h | h | h | h | h <;> simp_all)
      cases q <;> first | (exfalso; simp at hq hq2; done) | (simpa [Piece.same] using this)
  · obtain ⟨h1, h2, h3, h4⟩ := P
    exact ⟨by simp [h1], by simpa using h2, fun z => answer_hasWrite _ _ _ _ (h3 z),
      fun z w hw => by simpa [State.writesHeld] using h4 z w hw⟩
  · refine WritesOnly.trans (us := [.cred i]) (vs := []) (admitted_writes s m f p i) (writesOnly_of_eq ?_ ?_ ?_ _) <;> simp
  · rw [answer_sent _ _ _ hs, (admitted_frame _ _ _).2.2.2.2.2.2.2.2.2.1, (begun_frame s m f).2.2.2.2.2.2.2.2.2.2.1]; rfl

end Sys2Proof.Machine
end

