-- ==== Sys2Proof/Laws/LoadLists.lean ====
section
/-! SUPPORT. Loads of several ranges one after the other, with their unlocks (R68, R133), and what a proof before them and an answer
after them leave of what they say. -/

set_option Elab.async false

namespace Sys2Proof.Machine

/-- The fields of a range but for its lock flags. -/
def RangeFields.unlocked (f : RangeFields) : RangeFields := { f with readLocked := false, writeLocked := false }

/-- Two range tables agree but for the lock flags. -/
def TableAlike (s t : State) : Prop := ∀ q, (t.fields q).map RangeFields.unlocked = (s.fields q).map RangeFields.unlocked

theorem TableAlike.refl (s : State) : TableAlike s s := fun _ => rfl
theorem TableAlike.trans {s t u : State} (h : TableAlike s t) (k : TableAlike t u) : TableAlike s u := fun q => (k q).trans (h q)
theorem TableAlike.symm {s t : State} (h : TableAlike s t) : TableAlike t s := fun q => (h q).symm

theorem TableAlike.some {s t : State} (h : TableAlike s t) {q : Nat} {g : RangeFields} (hg : s.fields q = some g) :
    ∃ f, t.fields q = some f ∧ RangeFields.unlocked f = RangeFields.unlocked g := by
  have := h q
  rw [hg] at this
  cases e : t.fields q with
  | none => rw [e] at this; cases this
  | some f => rw [e] at this; exact ⟨f, rfl, Option.some.inj this⟩

theorem RangeFields.unlocked_eq {f g : RangeFields} (h : RangeFields.unlocked f = RangeFields.unlocked g) : f.named = g.named ∧ f.split = g.split ∧ f.keySlot = g.keySlot ∧ f.envelopes = g.envelopes ∧ f.keyLost = g.keyLost := by
  have e1 : (RangeFields.unlocked f).split = (RangeFields.unlocked g).split := by rw [h]
  have e2 : (RangeFields.unlocked f).keySlot = (RangeFields.unlocked g).keySlot := by rw [h]
  have e3 : (RangeFields.unlocked f).envelopes = (RangeFields.unlocked g).envelopes := by rw [h]
  have e4 : (RangeFields.unlocked f).keyLost = (RangeFields.unlocked g).keyLost := by rw [h]
  have e1' : f.split = g.split := e1
  have e2' : f.keySlot = g.keySlot := e2
  exact ⟨by simp only [RangeFields.named, e1', e2'], e1, e2, e3, e4⟩

theorem TableAlike.named {s t : State} (h : TableAlike s t) (q : Nat) : t.namedSlots q = s.namedSlots q := by
  unfold State.namedSlots
  cases e : s.fields q with
  | none =>
    have := h q; rw [e] at this
    cases e' : t.fields q with
    | none => rfl
    | some f => rw [e'] at this; cases this
  | some g =>
    obtain ⟨f, hf, k⟩ := h.some e
    rw [hf]; exact (RangeFields.unlocked_eq k).1

theorem TableAlike.split {s t : State} (h : TableAlike s t) (q : Nat) : (t.fields q).bind (fun g => g.split) = (s.fields q).bind (fun g => g.split) := by
  cases e : s.fields q with
  | none =>
    have := h q; rw [e] at this
    cases e' : t.fields q with
    | none => rfl
    | some f => rw [e'] at this; cases this
  | some g =>
    obtain ⟨f, hf, k⟩ := h.some e
    rw [hf]; exact (RangeFields.unlocked_eq k).2.1

/-- The progress part does not depend on lock flags. -/
theorem TableAlike.record {s t : State} (h : TableAlike s t) (e : t.rke = s.rke) : t.recordOf .rekeyProgress = s.recordOf .rekeyProgress := by
  unfold State.recordOf State.progressRecord State.cleared State.leaving State.activeJob State.headJob State.recordedChunk State.recordedCopying State.recordedMark
  simp only [e, h.split]

/-- A requester of the progress part awaits it while neither the sweep nor the part changes. -/
theorem progressAwaits_later {s t : State} (h : TableAlike s t) (e : t.rke = s.rke) (w : WritesSame .rekeyProgress s t) (x : Waiter)
    (k : s.progressAwaits x) : t.progressAwaits x := by
  rcases k with ⟨y, h1, h2, h3, h4⟩ | ⟨ws, h1, h2⟩
  · refine Or.inl ⟨y, (w y h2).mpr h1, h2, ?_, h4⟩
    rw [h3, h.record e]
  · exact Or.inr ⟨ws, by rw [e]; exact h1, h2⟩

/-- A change of lock flags after the loads. -/
theorem LoadsDone.locks {l : List Nat} {via : Nat → Option Rak} {s t u : State} (h : LoadsDone l via s t) (c : TableAlike t u) (k : u.kst = t.kst)
    (r : u.rke = t.rke) (d : u.dpu = t.dpu) (se : u.sent = t.sent) (w : WritesOnly [] t u) (sh : Shaped u) : LoadsDone l via s u := by
  have sl : ∀ x, u.slot x = t.slot x := fun x => by simp [State.slot, k]
  have lo : ∀ x, u.load x = t.load x := fun x => by simp [State.load, k]
  obtain ⟨k1, k2, k3, k4⟩ := h.keys
  refine ⟨⟨fun q hq x hx => by rw [lo]; exact k1 q hq x hx, fun q hq => by rw [lo]; exact k2 q hq, by rw [k]; exact k3, fun x => by rw [sl]; exact k4 x⟩, ⟨?_, ?_⟩, d.trans h.dpu, se.trans h.sent, (h.writes.trans w).mono (by simp), sh⟩
  · intro j hj
    obtain ⟨a1, a2, a3, a4⟩ := h.sweep.1 j hj
    refine ⟨by rw [r]; exact a1, progressAwaits_later c r (w.same _ (by simp)) _ a2, ?_, ?_⟩
    · intro g x hg hx; obtain ⟨b1, b2⟩ := a3 g x hg hx
      exact ⟨by rw [k]; exact b1, fun y hy => by rw [sl]; exact b2 y hy⟩
    · intro hx; obtain ⟨b1, b2⟩ := a4 hx
      exact ⟨by rw [k]; exact b1, fun y => by rw [sl]; exact b2 y⟩
  · intro hj
    obtain ⟨a1, a2, a3, a4⟩ := h.sweep.2 hj
    exact ⟨r.trans a1, by rw [k]; exact a2, fun x => by rw [sl]; exact a3 x, a4.trans (w.same _ (by simp))⟩

theorem LoadsDone.nil (via : Nat → Option Rak) (s : State) (h : Shaped s) : LoadsDone [] via s s := by
  refine ⟨⟨by simp, fun _ _ => rfl, rfl, fun x => ⟨by simp, fun _ => rfl, rfl⟩⟩, ⟨?_, fun _ => ⟨rfl, rfl, fun _ => rfl, fun _ _ => Iff.rfl⟩⟩, rfl, rfl, WritesOnly.refl _ _, h⟩
  rintro j ⟨_, _, h3, _⟩; cases h3

/-- One load more, of a range not loaded yet. -/
theorem LoadsDone.snoc {l : List Nat} {via : Nat → Option Rak} {s t u : State} {r : Nat} (h : LoadsDone l via s t) (c : TableAlike s t) (hr : r ∉ l)
    (k : LoadsDone [r] (fun _ => via r) t u) (c2 : TableAlike t u) : LoadsDone (r :: l) via s u := by
  obtain ⟨h1, h2, h3, h4⟩ := h.keys
  obtain ⟨k1, k2, k3, k4⟩ := k.keys
  have al : ∀ x, (t.slot x).state = (s.slot x).state ∧ (t.slot x).owner = (s.slot x).owner ∧ (t.slot x).material = (s.slot x).material := by
    intro x; rw [(h4 x).2.2]; exact ⟨rfl, rfl, rfl⟩
  have ow : ∀ q x, t.owns q x = s.owns q x := fun q x => by simp [State.owns, (al x).2.1]
  have unw : ∀ q x, t.unwraps q x ↔ s.unwraps q x := fun q x => by simp [State.unwraps, c.named, (al x).1, ow]
  have lr : t.load r = s.load r := h2 r hr
  have ku : t.unwraps r = s.unwraps r := by funext x; exact propext (unw r x)
  have cond2 : ∀ j, Resumes [r] t j ↔ (t.headJob = some j ∧ j.state = .paused ∧ j.range = r ∧ (∀ k, s.load r ≠ .loaded k) ∧
      t.rke.recovery ≠ .header ∧ ∃ g, s.fields r = some g ∧ ∀ x ∈ g.named, (s.slot x).state ≠ .empty ∧ s.owns r x = true) := by
    intro j
    simp only [Resumes, List.mem_singleton]
    constructor
    · rintro ⟨a, b, e, d, f, g, hg, i⟩
      subst e
      obtain ⟨g', hg', e'⟩ := c.symm.some hg
      refine ⟨a, b, rfl, by rw [← lr]; exact d, f, g', hg', fun x hx => ?_⟩
      rw [← (al x).1, ← ow]; exact i x (by rw [← (RangeFields.unlocked_eq e').1]; exact hx)
    · rintro ⟨a, b, e, d, f, g, hg, i⟩
      subst e
      obtain ⟨g', hg', e'⟩ := c.some hg
      refine ⟨a, b, rfl, by rw [lr]; exact d, f, g', hg', fun x hx => ?_⟩
      rw [(al x).1, ow]; exact i x (by rw [← (RangeFields.unlocked_eq e').1]; exact hx)
  refine ⟨⟨?_, ?_, k3.trans h3, ?_⟩, ⟨?_, ?_⟩, k.dpu.trans h.dpu, k.sent.trans h.sent, (h.writes.trans k.writes).mono (by simp), k.shaped⟩
  · intro q hq x hx
    by_cases e : q = r
    · subst e; exact k1 q (by simp) x (by rw [lr]; exact hx)
    · rw [k2 q (by simpa using e)]; exact h1 q ((List.mem_cons.mp hq).resolve_left e) x hx
  · intro q hq
    rw [k2 q (by simp at hq ⊢; exact hq.1), h2 q (by simp at hq; exact hq.2)]
  · intro x
    have t1 : (∃ q ∈ [r], t.load q = .notLoaded ∧ t.unwraps q x) ↔ (s.load r = .notLoaded ∧ s.unwraps r x) := by simp [lr, unw]
    obtain ⟨a1, a2, a3⟩ := h4 x
    obtain ⟨b1, b2, b3⟩ := k4 x
    refine ⟨?_, ?_, ?_⟩
    · rintro ⟨q, hq, hl, hu⟩
      by_cases e : s.load r = .notLoaded ∧ s.unwraps r x
      · rw [b1 (t1.mpr e), (al x).2.2]
      · rw [b2 (fun z => e (t1.mp z))]
        refine a1 ⟨q, (List.mem_cons.mp hq).resolve_left (fun e' => ?_), hl, hu⟩
        subst e'; exact e ⟨hl, hu⟩
    · intro n
      rw [b2 (fun z => n ⟨r, by simp, t1.mp z⟩)]
      exact a2 (fun ⟨q, hq, z⟩ => n ⟨q, List.mem_cons_of_mem _ hq, z⟩)
    · rw [a3] at b3; exact b3
  · intro j hj
    by_cases e : Resumes l s j
    · obtain ⟨a1, a2, a3, a4⟩ := h.sweep.1 j e
      have hh : ∀ i, ¬ Resumes [r] t i := by
        intro i hi
        have := hi.1
        unfold State.headJob at this; rw [a1] at this
        simp at this
        have p := hi.2.1; rw [← this] at p; cases p
      obtain ⟨b1, b2, b3, b4⟩ := k.sweep.2 hh
      refine ⟨by rw [b1]; exact a1, progressAwaits_later c2 b1 b4 _ a2, fun g w hg hw => ?_, fun z => ?_⟩
      · obtain ⟨d1, d2⟩ := a3 g w hg hw
        exact ⟨b2.trans d1, fun x hx => (b3 x).trans (d2 x hx)⟩
      · obtain ⟨d1, d2⟩ := a4 z
        exact ⟨b2.trans d1, fun x => (b3 x).trans (d2 x)⟩
    · obtain ⟨e1, e2, e3, e4, e5, g', e6, e7⟩ := hj
      have jr : j.range = r := by
        rcases List.mem_cons.mp e3 with z | z
        · exact z
        · exact absurd ⟨e1, e2, z, e4, e5, g', e6, e7⟩ e
      have nl : ∀ i, ¬ Resumes l s i := by
        intro i hi
        have : i = j := Option.some.inj (hi.1.symm.trans e1)
        subst this; exact hr (jr ▸ hi.2.2.1)
      obtain ⟨a1, a2, a3, a4⟩ := h.sweep.2 nl
      have g2 : Resumes [r] t j := (cond2 j).mpr ⟨by unfold State.headJob; rw [a1]; exact e1, e2, jr, jr ▸ e4, by rw [a1]; exact e5, g', jr ▸ e6, fun x hx => jr ▸ e7 x hx⟩
      obtain ⟨b1, b2, b3, b4⟩ := k.sweep.1 j g2
      unfold SweepsAgain
      rw [a1] at b1 b2
      refine ⟨b1, b2, fun g w hg hw => ?_, fun z => ?_⟩
      · obtain ⟨f, hf, ff⟩ := c.some hg
        obtain ⟨-, n2, n3, -⟩ := RangeFields.unlocked_eq ff
        obtain ⟨d1, d2⟩ := b3 f w hf (n2.trans hw)
        rw [n3] at d1 d2
        exact ⟨d1, fun x hx => by rw [d2 x hx, a3]⟩
      · obtain ⟨d1, d2⟩ := b4 (fun f hf => by
          obtain ⟨g, hg, ff⟩ := c.symm.some hf
          rw [← (RangeFields.unlocked_eq ff).2.1]; exact z g hg)
        exact ⟨d1.trans a2, fun x => by rw [d2, a3]⟩
  · intro n
    obtain ⟨a1, a2, a3, a4⟩ := h.sweep.2 (fun j hj => n j (by
      obtain ⟨e1, e2, e3, e4, e5, e6⟩ := hj; exact ⟨e1, e2, List.mem_cons_of_mem _ e3, e4, e5, e6⟩))
    obtain ⟨b1, b2, b3, b4⟩ := k.sweep.2 (fun j hj => by
      obtain ⟨d1, d2, d3, d4, d5, g, d6, d7⟩ := (cond2 j).mp hj
      subst d3
      exact n j ⟨by unfold State.headJob at d1 ⊢; rw [a1] at d1; exact d1, d2, by simp, d4, a1 ▸ d5, g, d6, d7⟩)
    exact ⟨b1.trans a1, b2.trans a2, fun x => (b3 x).trans (a3 x), a4.trans b4⟩

/-- What follows the loads and leaves the Key Store alone. -/
theorem KeysLoaded.later {l : List Nat} {via : Nat → Option Rak} {s t u : State} (h : KeysLoaded l via s t) (k : u.kst = t.kst) : KeysLoaded l via s u := by
  have sl : ∀ x, u.slot x = t.slot x := fun x => by simp [State.slot, k]
  have lo : ∀ x, u.load x = t.load x := fun x => by simp [State.load, k]
  obtain ⟨k1, k2, k3, k4⟩ := h
  exact ⟨fun q hq x hx => by rw [lo]; exact k1 q hq x hx, fun q hq => by rw [lo]; exact k2 q hq, by rw [k]; exact k3, fun x => by rw [sl]; exact k4 x⟩

theorem SweepsAgain.later {j : Job} {s t u : State} (h : SweepsAgain j s t) (c : TableAlike t u) (k : u.kst = t.kst) (r : u.rke = t.rke)
    (w : WritesSame .rekeyProgress t u) : SweepsAgain j s u := by
  have sl : ∀ x, u.slot x = t.slot x := fun x => by simp [State.slot, k]
  obtain ⟨a1, a2, a3, a4⟩ := h
  refine ⟨by rw [r]; exact a1, progressAwaits_later c r w _ a2, ?_, ?_⟩
  · intro g x hg hx; obtain ⟨b1, b2⟩ := a3 g x hg hx
    exact ⟨by rw [k]; exact b1, fun y hy => by rw [sl]; exact b2 y hy⟩
  · intro hx; obtain ⟨b1, b2⟩ := a4 hx
    exact ⟨by rw [k]; exact b1, fun y => by rw [sl]; exact b2 y⟩

theorem SweepResumed.later {l : List Nat} {s t u : State} (h : SweepResumed l s t) (c : TableAlike t u) (k : u.kst = t.kst) (r : u.rke = t.rke)
    (w : WritesSame .rekeyProgress t u) : SweepResumed l s u := by
  have sl : ∀ x, u.slot x = t.slot x := fun x => by simp [State.slot, k]
  refine ⟨fun j hj => SweepsAgain.later (h.1 j hj) c k r w, fun hj => ?_⟩
  obtain ⟨a1, a2, a3, a4⟩ := h.2 hj
  exact ⟨r.trans a1, by rw [k]; exact a2, fun x => by rw [sl]; exact a3 x, a4.trans w⟩

/-- What comes before the loads, a proof, and leaves the Key Store and the table alone. -/
theorem KeysLoaded.earlier {l : List Nat} {via : Nat → Option Rak} {s s' t : State} (h : KeysLoaded l via s' t) (k : s'.kst = s.kst) (r : s'.rtb = s.rtb) :
    KeysLoaded l via s t := by
  have sl : ∀ x, s'.slot x = s.slot x := fun x => by simp [State.slot, k]
  have lo : ∀ x, s'.load x = s.load x := fun x => by simp [State.load, k]
  have un : ∀ q x, s'.unwraps q x = s.unwraps q x := fun q x => by simp [State.unwraps, State.namedSlots, State.fields, State.entry, State.owns, sl, r]
  unfold KeysLoaded at h ⊢
  simp only [sl, lo, un, k] at h
  exact h

theorem SweepResumed.earlier {l : List Nat} {s s' t : State} (h : SweepResumed l s' t) (k : s'.kst = s.kst) (r : s'.rtb = s.rtb) (e : s'.rke = s.rke)
    (w : WritesSame .rekeyProgress s s') : SweepResumed l s t := by
  have sl : ∀ x, s'.slot x = s.slot x := fun x => by simp [State.slot, k]
  have lo : ∀ x, s'.load x = s.load x := fun x => by simp [State.load, k]
  have fi : ∀ x, s'.fields x = s.fields x := fun x => by simp [State.fields, State.entry, r]
  have ow : ∀ q x, s'.owns q x = s.owns q x := fun q x => by simp [State.owns, sl]
  have hj : s'.headJob = s.headJob := by simp [State.headJob, e]
  unfold SweepResumed SweepsAgain at h ⊢
  simp only [sl, lo, fi, ow, hj, k, e] at h
  exact ⟨h.1, fun a => ⟨(h.2 a).1, (h.2 a).2.1, (h.2 a).2.2.1, w.trans (h.2 a).2.2.2⟩⟩

theorem KeysDamaged.later {r : Nat} {k : Rak} {s t u : State} (h : KeysDamaged r k s t) (c : TableAlike t u) (kk : u.kst = t.kst) (e : u.rke = t.rke)
    (d : u.dpu = t.dpu) (se : ∀ f ∈ t.sent, f ∈ u.sent) (w : WritesOnly [] t u) (rec : u.recordOf (.range r) = t.recordOf (.range r)) : KeysDamaged r k s u := by
  have sl : ∀ x, u.slot x = t.slot x := fun x => by simp [State.slot, kk]
  have lo : ∀ x, u.load x = t.load x := fun x => by simp [State.load, kk]
  have hw : ∀ x, t.hasWrite (.key x) → u.hasWrite (.key x) := fun x => State.hasWrite_of w _ (by simp) (by simp [State.recordOf, sl])
  obtain ⟨h1, h2, h3, h4, h5, h6, h7, h8, h9, h10⟩ := h
  refine ⟨⟨fun x hx => ?_, fun x hx y hy hp => ?_⟩, by rw [d]; exact h2, by rw [kk]; exact h3, fun x hx => ?_, State.hasWrite_of w _ (by simp) rec h5,
    fun x hx => by rw [sl]; exact h6 x hx, fun j hj => ?_, fun hj => ?_, fun a => by rw [lo]; exact h9 a, fun a b => ?_⟩
  · rw [← h1.1 x hx]; simp [State.ctx, d]
  · rw [d]; exact (h1.2 x hx y hy hp).imp (se _) id
  · obtain ⟨a, b⟩ := h4 x hx; exact ⟨by rw [sl]; exact a, hw x b⟩
  · obtain ⟨a1, a2, a3, a4⟩ := h7 j hj
    unfold JobLosesKey
    rw [kk, e]
    exact ⟨a1, a2.imp (State.hasWrite_of w _ (by simp) (c.record e)) id, a3, a4⟩
  · obtain ⟨a1, a2, a3⟩ := h8 hj
    exact ⟨e.trans a1, by rw [kk]; exact a2, a3.trans (w.same _ (by simp))⟩
  · obtain ⟨a1, a2⟩ := h10 a b
    refine ⟨fun q hq => by rw [lo]; exact a1 q hq, fun x hx => ?_⟩
    obtain ⟨c1, c2, c3⟩ := a2 x hx
    exact ⟨c1.trans (w.same _ (by simp)), fun y => by rw [sl]; exact c2 y, fun y => by rw [sl]; exact c3 y⟩

theorem KeysDamaged.earlier {r : Nat} {k : Rak} {s s' t : State} (h : KeysDamaged r k s' t) (kk : s'.kst = s.kst) (rt : s'.rtb = s.rtb) (e : s'.rke = s.rke)
    (d : s'.dpu = s.dpu) {i : Nat} (w : WritesOnly [.cred i] s s') : KeysDamaged r k s t := by
  have sl : ∀ x, s'.slot x = s.slot x := fun x => by simp [State.slot, kk]
  have lo : ∀ x, s'.load x = s.load x := fun x => by simp [State.load, kk]
  have ct : ∀ x, s'.ctx x = s.ctx x := fun x => by simp [State.ctx, d]
  have fd : ∀ x, s'.findsDamaged r k x = s.findsDamaged r k x := fun x => by simp [State.findsDamaged, State.unwraps, State.namedSlots, State.fields, State.entry, State.owns, sl, rt]
  have un : ∀ x, s'.unwraps r x = s.unwraps r x := fun x => by simp [State.unwraps, State.namedSlots, State.fields, State.entry, State.owns, sl, rt]
  have aj : s'.activeJob = s.activeJob := by simp [State.activeJob, State.headJob, e]
  unfold KeysDamaged ContextsAborted JobLosesKey at h ⊢
  simp only [sl, lo, ct, fd, un, aj, kk, e, d] at h
  obtain ⟨h1, h2, h3, h4, h5, h6, h7, h8, h9, h10⟩ := h
  refine ⟨h1, h2, h3, h4, h5, h6, h7, fun a => ⟨(h8 a).1, (h8 a).2.1, (w.same _ (by simp)).trans (h8 a).2.2⟩, h9, fun a b => ⟨(h10 a b).1, fun x hx => ?_⟩⟩
  obtain ⟨c1, c2⟩ := (h10 a b).2 x hx
  exact ⟨(w.same _ (by simp)).trans c1, c2⟩

/-- R3: lock flags are set in one entry alone. -/
theorem setLocks_changes (s : State) (r : Nat) (a b v : Bool) :
    (s.setLocks r a b v).kst = s.kst ∧ (s.setLocks r a b v).rke = s.rke ∧ (s.setLocks r a b v).dpu = s.dpu ∧ (s.setLocks r a b v).sent = s.sent ∧
    (s.setLocks r a b v).sst = s.sst ∧ (∀ q, q ≠ r → (s.setLocks r a b v).entry q = s.entry q) ∧
    (Shaped s → (s.setLocks r a b v).fields r = (s.fields r).map (fun f => { f with readLocked := if a then v else f.readLocked, writeLocked := if b then v else f.writeLocked })) := by
  unfold State.setLocks State.mapFields
  cases h : s.fields r with
  | none => simp [h]
  | some f =>
    refine ⟨rfl, rfl, rfl, rfl, rfl, fun q hq => ?_, fun hs => ?_⟩
    · show (s.setEntry r _).entry q = _
      rw [entry_setEntry, if_neg (fun z => hq z.1)]
    · show ((s.setEntry r _).entry r).fields? = _
      rw [entry_setEntry, if_pos ⟨rfl, fields_lt s r f h⟩]; rfl

theorem setLocks_alike (s : State) (r : Nat) (a b v : Bool) (hs : Shaped s) : TableAlike s (s.setLocks r a b v) := by
  intro q
  by_cases e : q = r
  · subst e
    rw [(setLocks_changes s q a b v).2.2.2.2.2.2 hs]
    cases s.fields q with
    | none => rfl
    | some f => rfl
  · unfold State.fields; rw [(setLocks_changes s r a b v).2.2.2.2.2.1 q e]

/-- R4: no RANGE record holds lock flags. -/
theorem setLocks_record (s : State) (r q : Nat) (a b v : Bool) (hs : Shaped s) :
    (s.setLocks r a b v).recordOf (.range q) = s.recordOf (.range q) := by
  have bt : (s.setLocks r a b v).btc = s.btc := by unfold State.setLocks; simp
  by_cases e : q = r
  · subst e
    have h := (setLocks_changes s q a b v).2.2.2.2.2.2 hs
    cases f : s.fields q with
    | none =>
      have : s.setLocks q a b v = s := by simp [State.setLocks, State.mapFields, f]
      rw [this]
    | some g =>
      rw [f] at h
      have he : s.entry q = .enabled g := by
        unfold State.fields at f; cases e : s.entry q <;> simp [e, Entry.fields?] at f; rw [f]
      have he' : (s.setLocks q a b v).entry q = .enabled { g with readLocked := if a then v else g.readLocked, writeLocked := if b then v else g.writeLocked } := by
        have h : (s.setLocks q a b v).fields q = some _ := h
        unfold State.fields at h; cases e : (s.setLocks q a b v).entry q <;> simp [e, Entry.fields?] at h; rw [h]
      simp only [State.recordOf, bt, h, f, he, he', Option.map_some]
      cases s.btc.provisioning <;> rfl
  · have := (setLocks_changes s r a b v).2.2.2.2.2.1 q e
    simp only [State.recordOf, bt, State.fields, this]

/-- What follows a proof and leaves credentials alone keeps what the proof did. -/
theorem Proved.later {s s' t : State} {i : Nat} {p : ProofBlock} (h : Proved s s' i p) (c : t.cru = s'.cru)
    (b : t.btc.provisioning = s'.btc.provisioning) {us : List StoreUnit} (w : WritesOnly us s' t) (hu : StoreUnit.cred i ∉ us) : Proved s t i p := by
  obtain ⟨h1, h2, h3, h4⟩ := h
  exact ⟨by rw [c]; exact h1, by rw [c]; exact h2, fun z => State.hasWrite_of w _ hu (by simp [State.recordOf, State.cred, b, c]) (h3 z),
    fun z x hx => ((w.same _ hu) x hx).trans (h4 z x hx)⟩

theorem Piece.same_trans {s t u : State} {q : Piece} (h : q.same s t) (k : q.same t u) : q.same s u := by
  cases q <;> simp only [Piece.same] at h k ⊢ <;> first | exact k.trans h | (simp_all)

/-- R68, R133: what the loads and unlocks of the listed ranges have done; `free` is what an unlock makes of a range. -/
structure Opened (via : Nat → Option Rak) (free : RangeFields → RangeFields) (s : State) (l : List Nat) (t : State) : Prop where
  loads : LoadsDone l via s t
  core : TableAlike s t
  fld : ∀ q, t.fields q = if q ∈ l then (s.fields q).map free else s.fields q
  ent : ∀ q, q ∉ l → t.entry q = s.entry q
  lock : t.lockdown = s.lockdown

theorem Opened.start {via : Nat → Option Rak} {free : RangeFields → RangeFields} {s : State} (h : Shaped s) : Opened via free s [] s :=
  ⟨LoadsDone.nil via s h, TableAlike.refl s, fun q => by simp, fun _ _ => rfl, rfl⟩

/-- An envelope opens whatever the lock flags. -/
theorem openEnvelope_alike {s t : State} (h : TableAlike s t) (r : Nat) (x : Holder) (w : Option WrapValue) : t.openEnvelope r x w = s.openEnvelope r x w := by
  unfold State.openEnvelope
  cases e : s.fields r with
  | none =>
    have := h r; rw [e] at this
    cases e' : t.fields r with
    | none => rfl
    | some f => rw [e'] at this; cases this
  | some g =>
    obtain ⟨f, hf, k⟩ := h.some e
    rw [hf]
    have := (RangeFields.unlocked_eq k).2.2.2.1
    cases w with
    | none => rfl
    | some v => dsimp only; rw [this]

/-- One range more opens. -/
theorem Opened.step {via : Nat → Option Rak} {free : RangeFields → RangeFields} {s t : State} {l : List Nat} (h : Opened via free s l t)
    {r : Nat} {g : RangeFields} {rd wr : Bool} (hr : r ∉ l) (hg : s.fields r = some g)
    (hf : free g = { g with readLocked := if rd then false else g.readLocked, writeLocked := if wr then false else g.writeLocked })
    (hl : s.lockdown = false) (ho : s.load r ≠ .notLoaded ∨ via r ≠ none)
    (hi : ∀ k, s.load r = .notLoaded → via r = some k → s.intactUnder r k) :
    Opened via free s (r :: l) (t.unlockRange rd wr (via r) r).1 ∧ (t.unlockRange rd wr (via r) r).2 = true := by
  have lr : t.load r = s.load r := h.loads.keys.2.1 r hr
  have gf : t.fields r = some g := by rw [h.fld, if_neg hr]; exact hg
  have al : ∀ x, (t.slot x).state = (s.slot x).state ∧ (t.slot x).owner = (s.slot x).owner ∧ (t.slot x).material = (s.slot x).material := by
    intro x; rw [(h.loads.keys.2.2.2 x).2.2]; exact ⟨rfl, rfl, rfl⟩
  have it : ∀ k, t.load r = .notLoaded → via r = some k → t.intactUnder r k := by
    intro k h1 h2 x hx h3 h4
    have := hi k (lr ▸ h1) h2 x (by rw [← h.core.named]; exact hx) (by rw [← (al x).1]; exact h3) (by simpa [State.owns, (al x).2.1] using h4)
    rw [(al x).2.2]; exact this
  obtain ⟨u, e, L, er⟩ := loadRange_loads h.loads.shaped (by rw [h.lock]; exact hl) gf (by rw [lr]; exact ho) it
  have el : (t.unlockRange rd wr (via r) r) = (u.setLocks r rd wr false, true) := by
    unfold State.unlockRange; simp [e]
  rw [el]
  refine ⟨?_, rfl⟩
  have ue : u = (t.loadRange r (via r)).1 := by rw [e]
  have uf : ∀ q, u.fields q = t.fields q := fun q => by simp [State.fields, State.entry, er]
  have c1 : TableAlike t u := fun q => by rw [uf]
  have c2 : TableAlike u (u.setLocks r rd wr false) := setLocks_alike u r rd wr false L.shaped
  obtain ⟨l1, l2, l3, l4, l5, l6, l7⟩ := setLocks_changes u r rd wr false
  have L2 := L.locks c2 l1 l2 l3 l4 (writesOnly_of_eq (by rw [l5]) (by rw [l5]) (by rw [l5]) _) ((State.setLocks_keeps _ _ _ _ _).shaped L.shaped)
  refine ⟨h.loads.snoc h.core hr L2 (c1.trans c2), h.core.trans (c1.trans c2), ?_, ?_, ?_⟩
  · intro q
    by_cases e : q = r
    · subst e
      rw [l7 L.shaped, uf, gf, if_pos List.mem_cons_self, hg]
      simp only [Option.map_some, hf]
    · have : (u.setLocks r rd wr false).fields q = t.fields q := by unfold State.fields; rw [l6 q e]; simp [State.entry, er]
      rw [this, h.fld]; simp [e]
  · intro q hq
    simp at hq
    rw [l6 q hq.1]
    have : u.entry q = t.entry q := by simp [State.entry, er]
    rw [this]; exact h.ent q hq.2
  · have : (u.setLocks r rd wr false).lockdown = t.lockdown := by
      rw [ue]; simp [State.lockdown]
    rw [this]; exact h.lock

/-- R3: a range whose RAK cannot be had keeps its flags and its load. -/
theorem unlockRange_shut (t : State) (r : Nat) (rd wr : Bool) (via : Option Rak) (h : t.lockdown = true ∨ (t.load r = .notLoaded ∧ via = none)) :
    t.unlockRange rd wr via r = (t, false) := by
  unfold State.unlockRange State.loadRange
  rcases h with h | ⟨h1, h2⟩
  · simp [h]
  · subst h2; rw [h1]; cases t.lockdown <;> simp

/-- R68: of a list of ranges those that open are opened, the others stay. -/
theorem unlockScope_opened {s : State} {i : Nat} {w : Option WrapValue} {via : Nat → Option Rak} {free : RangeFields → RangeFields}
    (hvia : ∀ q, via q = s.openEnvelope q (.cred i) w)
    (hfree : free = fun g => { g with readLocked := g.readLocked && !listed g.readList i, writeLocked := g.writeLocked && !listed g.writeList i }) (rs : List Nat) :
    ∀ (l : List Nat) (t : State), Opened via free s l t → rs.Nodup → (∀ r ∈ rs, r ∉ l) → (∀ r ∈ rs, ∃ g, s.fields r = some g) →
      (∀ r ∈ rs, ∀ k, s.load r = .notLoaded → via r = some k → s.intactUnder r k) →
      ∃ won : List Nat, Opened via free s (won ++ l) (t.unlockScope i w rs).1 ∧ won.length = (t.unlockScope i w rs).2 ∧ won.Nodup ∧
        ∀ q, q ∈ won ↔ q ∈ rs ∧ s.lockdown = false ∧ (s.load q ≠ .notLoaded ∨ via q ≠ none) := by
  induction rs with
  | nil => intro l t h _ _ _ _; exact ⟨[], h, rfl, List.nodup_nil, by simp⟩
  | cons r rs ih =>
    intro l t h hn hd hf hi
    obtain ⟨hn1, hn2⟩ := List.nodup_cons.mp hn
    obtain ⟨g, hg⟩ := hf r List.mem_cons_self
    have hr : r ∉ l := hd r List.mem_cons_self
    have lr : t.load r = s.load r := h.loads.keys.2.1 r hr
    have gf : t.fields r = some g := by rw [h.fld, if_neg hr]; exact hg
    have eu : t.unlockFor i w r = t.unlockRange (listed g.readList i) (listed g.writeList i) (via r) r := by
      unfold State.unlockFor; rw [gf]; dsimp only; rw [openEnvelope_alike h.core, ← hvia]
    by_cases op : s.lockdown = false ∧ (s.load r ≠ .notLoaded ∨ via r ≠ none)
    · obtain ⟨a, b⟩ := h.step (rd := listed g.readList i) (wr := listed g.writeList i) hr hg (by
        rw [hfree]; dsimp only; congr 1 <;> (cases listed _ i <;> simp)) op.1 op.2 (hi r List.mem_cons_self)
      obtain ⟨won, w1, w2, w3, w4⟩ := ih (r :: l) _ a hn2 (fun q hq => by
        simp; exact ⟨fun e => hn1 (e ▸ hq), hd q (List.mem_cons_of_mem _ hq)⟩) (fun q hq => hf q (List.mem_cons_of_mem _ hq)) (fun q hq => hi q (List.mem_cons_of_mem _ hq))
      refine ⟨won ++ [r], ?_, ?_, ?_, ?_⟩
      · unfold State.unlockScope; dsimp only; rw [eu, List.append_assoc]; exact w1
      · unfold State.unlockScope; dsimp only; rw [eu, b]; simp [w2]
      · rw [List.nodup_append]; exact ⟨w3, by simp, fun x hx y hy e => by
          simp at hy; subst hy; subst e; exact hn1 ((w4 x).mp hx).1⟩
      · intro q; simp only [List.mem_append, w4, List.mem_cons]
        constructor
        · rintro (⟨x, y⟩ | x | x)
          · exact ⟨Or.inr x, y⟩
          · subst x; exact ⟨Or.inl rfl, op⟩
          · cases x
        · rintro ⟨x | x, y⟩
          · exact Or.inr (Or.inl x)
          · exact Or.inl ⟨x, y⟩
    · have sh : t.unlockRange (listed g.readList i) (listed g.writeList i) (via r) r = (t, false) := by
        apply unlockRange_shut
        rw [h.lock, lr]
        cases hl : s.lockdown with
        | true => exact Or.inl rfl
        | false =>
          refine Or.inr ⟨?_, ?_⟩
          · exact Classical.byContradiction (fun z => op ⟨hl, Or.inl z⟩)
          · exact Classical.byContradiction (fun z => op ⟨hl, Or.inr z⟩)
      obtain ⟨won, w1, w2, w3, w4⟩ := ih l t h hn2 (fun q hq => hd q (List.mem_cons_of_mem _ hq)) (fun q hq => hf q (List.mem_cons_of_mem _ hq)) (fun q hq => hi q (List.mem_cons_of_mem _ hq))
      refine ⟨won, ?_, ?_, w3, ?_⟩
      · unfold State.unlockScope; dsimp only; rw [eu, sh]; exact w1
      · unfold State.unlockScope; dsimp only; rw [eu, sh]; simp [w2]
      · intro q; rw [w4, List.mem_cons]
        exact ⟨fun ⟨a, b⟩ => ⟨Or.inr a, b⟩, fun ⟨a, b⟩ => ⟨a.resolve_left (fun e => op (e ▸ b)), b⟩⟩

/-- R133: of a list of ranges those whose device envelope opens are opened, the others stay. -/
theorem reopenAll_opened {s : State} {via : Nat → Option Rak} {free : RangeFields → RangeFields}
    (hvia : ∀ q, via q = s.openEnvelope q .device (some .device))
    (hfree : free = fun g => { g with readLocked := false, writeLocked := false }) (hl : s.lockdown = false) (rs : List Nat) :
    ∀ (l : List Nat) (t : State), Opened via free s l t → rs.Nodup → (∀ r ∈ rs, r ∉ l) → (∀ r ∈ rs, ∃ g, s.fields r = some g) →
      (∀ r ∈ rs, ∀ k, s.load r = .notLoaded → via r = some k → s.intactUnder r k) →
      ∃ won : List Nat, Opened via free s (won ++ l) (rs.foldl State.unlockDevice t) ∧
        ∀ q, q ∈ won ↔ q ∈ rs ∧ (s.load q ≠ .notLoaded ∨ via q ≠ none) := by
  induction rs with
  | nil => intro l t h _ _ _ _; exact ⟨[], h, by simp⟩
  | cons r rs ih =>
    intro l t h hn hd hf hi
    obtain ⟨hn1, hn2⟩ := List.nodup_cons.mp hn
    obtain ⟨g, hg⟩ := hf r List.mem_cons_self
    have hr : r ∉ l := hd r List.mem_cons_self
    have lr : t.load r = s.load r := h.loads.keys.2.1 r hr
    have eu : t.unlockDevice r = (t.unlockRange true true (via r) r).1 := by
      unfold State.unlockDevice State.openDevice; rw [openEnvelope_alike h.core, ← hvia]
    by_cases op : s.load r ≠ .notLoaded ∨ via r ≠ none
    · obtain ⟨a, b⟩ := h.step (rd := true) (wr := true) hr hg (by rw [hfree]; rfl) hl op (hi r List.mem_cons_self)
      obtain ⟨won, w1, w4⟩ := ih (r :: l) _ a hn2 (fun q hq => by
        simp; exact ⟨fun e => hn1 (e ▸ hq), hd q (List.mem_cons_of_mem _ hq)⟩) (fun q hq => hf q (List.mem_cons_of_mem _ hq)) (fun q hq => hi q (List.mem_cons_of_mem _ hq))
      refine ⟨won ++ [r], ?_, ?_⟩
      · rw [List.foldl_cons, eu, List.append_assoc]; exact w1
      · intro q; simp only [List.mem_append, w4, List.mem_cons]
        constructor
        · rintro (⟨x, y⟩ | x | x)
          · exact ⟨Or.inr x, y⟩
          · subst x; exact ⟨Or.inl rfl, op⟩
          · cases x
        · rintro ⟨x | x, y⟩
          · exact Or.inr (Or.inl x)
          · exact Or.inl ⟨x, y⟩
    · have sh : t.unlockRange true true (via r) r = (t, false) := by
        apply unlockRange_shut
        rw [lr]
        refine Or.inr ⟨?_, ?_⟩
        · exact Classical.byContradiction (fun z => op (Or.inl z))
        · exact Classical.byContradiction (fun z => op (Or.inr z))
      obtain ⟨won, w1, w4⟩ := ih l t h hn2 (fun q hq => hd q (List.mem_cons_of_mem _ hq)) (fun q hq => hf q (List.mem_cons_of_mem _ hq)) (fun q hq => hi q (List.mem_cons_of_mem _ hq))
      refine ⟨won, ?_, ?_⟩
      · rw [List.foldl_cons, eu, sh]; exact w1
      · intro q; rw [w4, List.mem_cons]
        exact ⟨fun ⟨a, b⟩ => ⟨Or.inr a, b⟩, fun ⟨a, b⟩ => ⟨a.resolve_left (fun e => op (e ▸ b)), b⟩⟩

end Sys2Proof.Machine
end

