-- ==== Sys2Proof/Laws/Media.lean ====
section
/-! SUPPORT. The request that the sweep has ready to issue, and the tag that an issued request takes (R174, R175). -/

set_option Elab.async false

namespace Sys2Proof.Machine

/-- R175: the Rekey Engine waits for a credit with the next request of its chunk: under a started link, for no scratch write
while one of an earlier chunk is outstanding (R102), and for none under a FAULTED job (R109) but those of a copy that start-up
recovery carries out (R114). -/
theorem State.sweepRequest_iff (s : State) (o : ChunkOp) :
    let scratch := fun o : ChunkOp => (∃ i, o = .scratch i) ∨ o = .headerFilled ∨ o = .headerCopied
    s.sweepRequest = some o ↔ s.lif.started = true ∧ s.rke.todo.head? = some o ∧
      (∃ j, s.headJob = some j ∧ (j.state = .faulted → s.rke.runAnyway = true)) ∧
      (scratch o → ∀ q ∈ s.lif.outstanding, ∀ c x, q.client = .rekey c x → scratch x → c = s.rke.chunk) := by
  intro scratch
  have hs : ∀ o, o.toScratch = true ↔ scratch o := by
    intro o; cases o <;> simp [ChunkOp.toScratch, scratch]
  have hst : s.staleScratch = false ↔ ∀ q ∈ s.lif.outstanding, ∀ c x, q.client = .rekey c x → scratch x → c = s.rke.chunk := by
    unfold State.staleScratch
    rw [List.any_eq_false]
    refine forall₂_congr fun q _ => ?_
    cases q.client with
    | wipe a b c => simp
    | rekey c x =>
      have := hs x
      simp only [Bool.and_eq_true, bne_iff_ne, ne_eq, Client.rekey.injEq, and_imp, forall_eq_apply_imp_iff, this]
      constructor
      · rintro h c' x' rfl rfl hx; by_contra hc; exact h ⟨hc, hx⟩
      · intro h ⟨hc, hx⟩; exact hc (h c x rfl rfl hx)
  unfold State.sweepRequest
  cases ht : s.rke.todo with
  | nil => simp
  | cons a l =>
    cases hj : s.headJob with
    | none => simp
    | some j =>
      simp only [List.head?_cons, Option.some.injEq, exists_eq_left', ← hst]
      have ha := hs a
      split
      · next h =>
        simp only [Bool.and_eq_true, Bool.or_eq_true, bne_iff_ne, ne_eq, Bool.not_eq_true', Bool.and_eq_false_iff] at h
        obtain ⟨⟨h1, h2⟩, h3⟩ := h
        constructor
        · rintro ⟨rfl⟩; exact ⟨h1, rfl, by tauto, fun z => h3.resolve_left (by rw [ha.mpr z]; simp)⟩
        · rintro ⟨-, rfl, -⟩; rfl
      · next h =>
        simp only [Bool.and_eq_true, Bool.or_eq_true, bne_iff_ne, ne_eq, Bool.not_eq_true', Bool.and_eq_false_iff] at h
        constructor
        · rintro ⟨⟩
        · rintro ⟨h1, rfl, h2, h3⟩
          exfalso; apply h; refine ⟨⟨h1, by tauto⟩, ?_⟩
          by_cases z : a.toScratch = true
          · exact Or.inr (h3 (ha.mp z))
          · left; simpa using z

/-- R174: with fewer than 255 requests outstanding, the next tag is the first of the cycle that is free. -/
theorem State.mediaTag_cycle (s : State) (h : s.lif.outstanding.length < 255) :
    let cycle := fun n : Nat => (s.lif.nextTag - 1 + n) % 255 + 1
    let taken := fun x : Nat => x ∈ s.lif.outstanding.map (fun q => q.tag)
    ∃ n < 255, s.mediaTag = cycle n ∧ ¬ taken s.mediaTag ∧ ∀ m < n, taken (cycle m) := by
  intro cycle taken
  have tk : ∀ x, (s.lif.outstanding.any (fun q => q.tag == x)) = true ↔ taken x := by
    intro x; simp [taken]
  have ex : ∃ n, n < 255 ∧ ¬ taken (cycle n) := by
    by_contra hc
    push Not at hc
    have : ((Finset.range 255).image cycle) ⊆ (s.lif.outstanding.map (fun q => q.tag)).toFinset := by
      intro x hx
      simp only [Finset.mem_image, Finset.mem_range] at hx
      obtain ⟨n, hn, rfl⟩ := hx
      rw [List.mem_toFinset]; exact hc n hn
    have c := Finset.card_le_card this
    rw [Finset.card_image_of_injOn] at c
    · have := List.toFinset_card_le (s.lif.outstanding.map (fun q => q.tag))
      simp at this c; omega
    · intro a ha b hb e
      simp only [Finset.coe_range, Set.mem_Iio] at ha hb
      simp only [cycle] at e; omega
  classical
  let n := Nat.find ex
  have hn := Nat.find_spec ex
  have hm : ∀ m < n, taken (cycle m) := by
    intro m hm
    have := Nat.find_min ex hm
    by_contra z; exact this ⟨by omega, z⟩
  have e : s.mediaTag = cycle n := by
    unfold State.mediaTag
    have : ((List.range 255).map (fun i => (s.lif.nextTag - 1 + i) % 255 + 1)).find?
        (fun t => !s.lif.outstanding.any (fun q => q.tag == t)) = some (cycle n) := by
      rw [List.find?_map]
      have : (List.range 255).find? ((fun t => !s.lif.outstanding.any (fun q => q.tag == t)) ∘ fun i => (s.lif.nextTag - 1 + i) % 255 + 1) = some n := by
        rw [List.find?_range_eq_some]
        refine ⟨?_, List.mem_range.mpr hn.1, ?_⟩
        · simp only [Function.comp, Bool.not_eq_true', Bool.eq_false_iff, ne_eq, tk]; exact hn.2
        · intro j hj
          have := (tk _).mpr (hm j hj)
          simp only [Function.comp]; simp only [cycle] at this; rw [this]; rfl
      rw [this]; rfl
    rw [this]; rfl
  exact ⟨n, hn.1, e, e ▸ hn.2, hm⟩

end Sys2Proof.Machine
end

