-- ==== Sys2Proof/WellFormed.lean ====
section
/-! DEFINITION. A command is well formed when its operands fit the bytes that carry them (11.1, 11.2): a
well-formed command may still be refused by the part's own field checks. -/

namespace Sys2Proof

/-- A value of one byte. -/
def fitsByte (n : Nat) : Bool := n < 256

/-- A value of two bytes. -/
def fitsTwo (n : Nat) : Bool := n < 65536

/-- A block or media block number: six bytes (11, opening). -/
def fitsBlock (n : Nat) : Bool := n < Config.mediaMax

/-- A frame's tag is one byte; a taken long frame's payload is 0 to 4160 bytes (R166), a short one has none. The
bytes before a proof block are at most the five argument bytes of a short frame, or a long payload's (11.1). -/
def Hdr.wf (f : Hdr) : Bool :=
  fitsByte f.tag && (match f.form with
    | .short => f.length == 0 && f.bytes.length ≤ 5
    | .long => f.length ≤ Config.payloadMax && f.bytes.length ≤ f.length)

/-- Slot and challenge are one byte each (11.2). -/
def ProofBlock.wf (p : ProofBlock) : Bool := fitsByte p.slot && fitsByte p.challenge

/-- Bytes from outside come 4096 at a time (4.1). -/
def Block.wf : Block → Bool
  | .zeros => true
  | .raw bytes => bytes.length == 4096
  | .header _ => true
  | .enciphered _ _ b => b.wf
  | .deciphered _ _ b => b.wf

/-- The numbers of an edit fit their bytes. -/
def EditFields.wf (e : EditFields) : Bool := fitsByte e.range && fitsBlock e.first && fitsBlock e.count

/-- The numbers of an evidence setting fit their bytes. -/
def EvidenceValues.wf (v : EvidenceValues) : Bool :=
  fitsByte v.level && fitsTwo v.delay && fitsByte v.alarmMinimum && fitsTwo v.absenceThreshold

/-- The latch takes MOTION (1), ENCLOSURE (2) and SUPPLY (6) only (R130); key slots and ranges by number. -/
def StartInputs.wf (u : StartInputs) : Bool :=
  u.edges.all (fun e => e == 1 || e == 2 || e == 6) && u.badKeys.all (· < Config.poolSlots) &&
    u.badEnvelopes.all (· < Config.ranges)

/-- Well-formedness of a command. -/
def Instr.wf : Instr → Bool
  | .linkStart f c cap ib sb => f.wf && fitsByte c && fitsBlock cap && fitsBlock ib && fitsBlock sb
  | .identify f => f.wf
  | .status f => f.wf
  | .setReplyLimit f c l => f.wf && fitsByte c && fitsTwo l
  | .challenge f => f.wf
  | .setCredential f t _ _ l p => f.wf && fitsByte t && fitsByte l && p.wf
  | .resetAttempts f t p => f.wf && fitsByte t && p.wf
  | .slotList f st => f.wf && fitsByte st
  | .provision f _ _ sz _ _ p => f.wf && fitsTwo sz && p.wf
  | .unlock f r p => f.wf && fitsByte r && p.wf
  | .lock f r d p => f.wf && fitsByte r && fitsByte d && p.wf
  | .bindPlatform f _ _ p => f.wf && p.wf
  | .startImageUnseal f _ p => f.wf && p.wf
  | .rangeList f st p => f.wf && fitsByte st && (match p with | none => true | some q => q.wf)
  | .rangeStage f e p => f.wf && e.wf && p.wf
  | .rangeDiscard f p => f.wf && p.wf
  | .rangeCommit f _ p => f.wf && p.wf
  | .rekeyQueue f r p => f.wf && fitsByte r && p.wf
  | .rekeyResume f r p => f.wf && fitsByte r && p.wf
  | .rekeyStatus f => f.wf
  | .evidenceSet f t v p => f.wf && fitsByte t && v.wf && p.wf
  | .evidenceList f st p => f.wf && fitsByte st && p.wf
  | .responseStatus f => f.wf
  | .responseClear f p => f.wf && p.wf
  | .remoteOrder f l p => f.wf && fitsByte l && p.wf
  | .wipeStart f _ p => f.wf && p.wf
  | .wipeAbort f p => f.wf && p.wf
  | .wipeStatus f => f.wf
  | .reprovision f p => f.wf && p.wf
  | .xferOpen f d first n => f.wf && fitsByte d && fitsBlock first && fitsTwo n
  | .xferBlock f c g i b => f.wf && fitsByte c && fitsByte g && fitsTwo i && b.wf
  | .xferClose f c g => f.wf && fitsByte c && fitsByte g
  | .platformHello f _ => f.wf
  | .presence f _ => f.wf
  | .motion f => f.wf
  | .standbyEnter f => f.wf
  | .standbyExit f => f.wf
  | .powerDown f => f.wf
  | .mediaReply t k st b => fitsByte t && decide (k < 32) && fitsByte st && (match b with | none => true | some x => x.wf)
  | .headerCheckFail => true
  | .frameDamaged _ t => fitsByte t
  | .burstEnd => true
  | .motionInEdge => true
  | .tamperInEdge => true
  | .retentionSupplyWarning => true
  | .retentionSupplyLost => true
  | .retentionSupplyReturn => true
  | .mainSupplyRemoved => true
  | .startUp u => u.wf
  | .startUpComplete => true
  | .storeWriteComplete => true
  | .cipherTransformComplete c => decide (c < Config.cores)
  | .cipherCoreGrant => true
  | .mediaCreditGrant => true
  | .challengeExpiry e => decide (e < Config.challengeEntries)
  | .backoffExpiry i => decide (i < Config.credSlots)
  | .drainTimerExpiry => true
  | .helloWindowExpiry => true
  | .delayTimerExpiry => true
  | .absenceThreshold => true
  | .alarmMinimumExpiry => true
  | .mediaTimeout t => fitsByte t
  | .commitWriting => true
  | .rekeyJobStart => true
  | .chunkForm => true
  | .chunkClaim => true
  | .wipeStepBegin _ => true
  | .standbyDrainEnd => true
  | .powerDownDrainEnd => true
  | .unknownKind _ t => fitsByte t

end Sys2Proof
end

