-- ==== Sys2Proof/Laws/PerInstr.lean ====
section
/-! SUPPORT. What holds of every command as syntax, constructor by constructor: the numbers that a well-formed
request carries in its frame header and its proof block fit the bytes that carry them (11.1, 11.2). -/

set_option Elab.async false

namespace Sys2Proof.Laws

/-- A well-formed request has a tag of one byte and a payload that fits its form (R165, R166) and holds
the bytes before its proof block, and a well-formed
proven request has a slot and a challenge of one byte each (11.2). -/
def OperandBytes.Statement (i : Instr) : Prop :=
  i.wf = true →
    (∀ m f fits, i.asRequest = some (m, f, fits) →
      f.tag < 256 ∧ f.length ≤ 4160 ∧ (f.form = .short → f.length = 0 ∧ f.bytes.length ≤ 5) ∧
        (f.form = .long → f.bytes.length ≤ f.length)) ∧
    (∀ m fields n p, i.asProven = some (m, fields, n, p) → p.slot < 256 ∧ p.challenge < 256)

/-- What a well-formed header says. -/
theorem hdr_wf {f : Hdr} (h : f.wf = true) :
    f.tag < 256 ∧ f.length ≤ 4160 ∧ (f.form = .short → f.length = 0 ∧ f.bytes.length ≤ 5) ∧
      (f.form = .long → f.bytes.length ≤ f.length) := by
  unfold Hdr.wf at h
  cases e : f.form <;> simp [e, fitsByte] at h ⊢
  · simp [h]
  · exact h

/-- What a well-formed proof block says. -/
theorem proof_wf {p : ProofBlock} (h : p.wf = true) : p.slot < 256 ∧ p.challenge < 256 := by
  simpa [ProofBlock.wf, fitsByte] using h

/-- What the header says of a command is what it says of its frame. -/
theorem request_wf {i : Instr} (h : i.wf = true) {m : Message} {f : Hdr} {fits : Bool}
    (e : i.asRequest = some (m, f, fits)) : f.wf = true := by
  cases i <;> simp only [Instr.asRequest, Option.some.injEq, Prod.mk.injEq, reduceCtorEq] at e <;>
    (obtain ⟨_, rfl, _⟩ := e; simp only [Instr.wf, Bool.and_eq_true] at h; simp only [h])

/-- A proven command's proof block is well formed with it. -/
theorem proven_wf {i : Instr} (h : i.wf = true) {m : Message} {fields : List Nat} {n : Nat} {p : ProofBlock}
    (e : i.asProven = some (m, fields, n, p)) : p.wf = true := by
  unfold Instr.asProven at e
  split at e
  all_goals first
    | (split at e
       · cases e
       · simp only [Option.some.injEq, Prod.mk.injEq] at e
         simp only [Instr.wf, Bool.and_eq_true] at h
         obtain ⟨_, _, _, rfl⟩ := e; simp only [h])
    | (simp only [Option.some.injEq, Prod.mk.injEq] at e
       simp only [Instr.wf, Bool.and_eq_true] at h
       obtain ⟨_, _, _, rfl⟩ := e; simp only [h])
    | cases e

/-- The statement holds of every command. -/
theorem operandBytes (i : Instr) : OperandBytes.Statement i := fun h =>
  ⟨fun _ _ _ e => hdr_wf (request_wf h e), fun _ _ _ _ e => proof_wf (proven_wf h e)⟩

theorem OperandBytes.linkStart (f : Hdr) (credits capacity imageBase scratchBase : Nat) :
    OperandBytes.Statement (.linkStart f credits capacity imageBase scratchBase) := operandBytes _
theorem OperandBytes.identify (f : Hdr) :
    OperandBytes.Statement (.identify f) := operandBytes _
theorem OperandBytes.status (f : Hdr) :
    OperandBytes.Statement (.status f) := operandBytes _
theorem OperandBytes.setReplyLimit (f : Hdr) (channel limit : Nat) :
    OperandBytes.Statement (.setReplyLimit f channel limit) := operandBytes _
theorem OperandBytes.challenge (f : Hdr) :
    OperandBytes.Statement (.challenge f) := operandBytes _
theorem OperandBytes.setCredential (f : Hdr) (target : Nat) (action : Option CredAction) (secret : Secret) (limit : Nat) (p : ProofBlock) :
    OperandBytes.Statement (.setCredential f target action secret limit p) := operandBytes _
theorem OperandBytes.resetAttempts (f : Hdr) (target : Nat) (p : ProofBlock) :
    OperandBytes.Statement (.resetAttempts f target p) := operandBytes _
theorem OperandBytes.slotList (f : Hdr) (start : Nat) :
    OperandBytes.Statement (.slotList f start) := operandBytes _
theorem OperandBytes.provision (f : Hdr) (adminSecret recoverySecret : Secret) (imageSize : Nat) (tokenPresent : Option Bool) (token : Secret) (p : ProofBlock) :
    OperandBytes.Statement (.provision f adminSecret recoverySecret imageSize tokenPresent token p) := operandBytes _
theorem OperandBytes.unlock (f : Hdr) (range : Nat) (p : ProofBlock) :
    OperandBytes.Statement (.unlock f range p) := operandBytes _
theorem OperandBytes.lock (f : Hdr) (range direction : Nat) (p : ProofBlock) :
    OperandBytes.Statement (.lock f range direction p) := operandBytes _
theorem OperandBytes.bindPlatform (f : Hdr) (action : Option BindAction) (token : Secret) (p : ProofBlock) :
    OperandBytes.Statement (.bindPlatform f action token p) := operandBytes _
theorem OperandBytes.startImageUnseal (f : Hdr) (action : Option UnsealAction) (p : ProofBlock) :
    OperandBytes.Statement (.startImageUnseal f action p) := operandBytes _
theorem OperandBytes.rangeList (f : Hdr) (start : Nat) (p : Option ProofBlock) :
    OperandBytes.Statement (.rangeList f start p) := operandBytes _
theorem OperandBytes.rangeStage (f : Hdr) (e : EditFields) (p : ProofBlock) :
    OperandBytes.Statement (.rangeStage f e p) := operandBytes _
theorem OperandBytes.rangeDiscard (f : Hdr) (p : ProofBlock) :
    OperandBytes.Statement (.rangeDiscard f p) := operandBytes _
theorem OperandBytes.rangeCommit (f : Hdr) (defer : Option Bool) (p : ProofBlock) :
    OperandBytes.Statement (.rangeCommit f defer p) := operandBytes _
theorem OperandBytes.rekeyQueue (f : Hdr) (range : Nat) (p : ProofBlock) :
    OperandBytes.Statement (.rekeyQueue f range p) := operandBytes _
theorem OperandBytes.rekeyResume (f : Hdr) (range : Nat) (p : ProofBlock) :
    OperandBytes.Statement (.rekeyResume f range p) := operandBytes _
theorem OperandBytes.rekeyStatus (f : Hdr) :
    OperandBytes.Statement (.rekeyStatus f) := operandBytes _
theorem OperandBytes.evidenceSet (f : Hdr) (target : Nat) (v : EvidenceValues) (p : ProofBlock) :
    OperandBytes.Statement (.evidenceSet f target v p) := operandBytes _
theorem OperandBytes.evidenceList (f : Hdr) (start : Nat) (p : ProofBlock) :
    OperandBytes.Statement (.evidenceList f start p) := operandBytes _
theorem OperandBytes.responseStatus (f : Hdr) :
    OperandBytes.Statement (.responseStatus f) := operandBytes _
theorem OperandBytes.responseClear (f : Hdr) (p : ProofBlock) :
    OperandBytes.Statement (.responseClear f p) := operandBytes _
theorem OperandBytes.remoteOrder (f : Hdr) (level : Nat) (p : ProofBlock) :
    OperandBytes.Statement (.remoteOrder f level p) := operandBytes _
theorem OperandBytes.wipeStart (f : Hdr) (fill : Option Bool) (p : ProofBlock) :
    OperandBytes.Statement (.wipeStart f fill p) := operandBytes _
theorem OperandBytes.wipeAbort (f : Hdr) (p : ProofBlock) :
    OperandBytes.Statement (.wipeAbort f p) := operandBytes _
theorem OperandBytes.wipeStatus (f : Hdr) :
    OperandBytes.Statement (.wipeStatus f) := operandBytes _
theorem OperandBytes.reprovision (f : Hdr) (p : ProofBlock) :
    OperandBytes.Statement (.reprovision f p) := operandBytes _
theorem OperandBytes.xferOpen (f : Hdr) (direction first count : Nat) :
    OperandBytes.Statement (.xferOpen f direction first count) := operandBytes _
theorem OperandBytes.xferBlock (f : Hdr) (context generation index : Nat) (data : Block) :
    OperandBytes.Statement (.xferBlock f context generation index data) := operandBytes _
theorem OperandBytes.xferClose (f : Hdr) (context generation : Nat) :
    OperandBytes.Statement (.xferClose f context generation) := operandBytes _
theorem OperandBytes.platformHello (f : Hdr) (token : Secret) :
    OperandBytes.Statement (.platformHello f token) := operandBytes _
theorem OperandBytes.presence (f : Hdr) (proof : Proof) :
    OperandBytes.Statement (.presence f proof) := operandBytes _
theorem OperandBytes.motion (f : Hdr) :
    OperandBytes.Statement (.motion f) := operandBytes _
theorem OperandBytes.standbyEnter (f : Hdr) :
    OperandBytes.Statement (.standbyEnter f) := operandBytes _
theorem OperandBytes.standbyExit (f : Hdr) :
    OperandBytes.Statement (.standbyExit f) := operandBytes _
theorem OperandBytes.powerDown (f : Hdr) :
    OperandBytes.Statement (.powerDown f) := operandBytes _
theorem OperandBytes.mediaReply (tag kind status : Nat) (data : Option Block) :
    OperandBytes.Statement (.mediaReply tag kind status data) := operandBytes _
theorem OperandBytes.headerCheckFail :
    OperandBytes.Statement (.headerCheckFail) := operandBytes _
theorem OperandBytes.frameDamaged (channel : Channel) (tag : Nat) :
    OperandBytes.Statement (.frameDamaged channel tag) := operandBytes _
theorem OperandBytes.burstEnd :
    OperandBytes.Statement (.burstEnd) := operandBytes _
theorem OperandBytes.motionInEdge :
    OperandBytes.Statement (.motionInEdge) := operandBytes _
theorem OperandBytes.tamperInEdge :
    OperandBytes.Statement (.tamperInEdge) := operandBytes _
theorem OperandBytes.retentionSupplyWarning :
    OperandBytes.Statement (.retentionSupplyWarning) := operandBytes _
theorem OperandBytes.retentionSupplyLost :
    OperandBytes.Statement (.retentionSupplyLost) := operandBytes _
theorem OperandBytes.retentionSupplyReturn :
    OperandBytes.Statement (.retentionSupplyReturn) := operandBytes _
theorem OperandBytes.mainSupplyRemoved :
    OperandBytes.Statement (.mainSupplyRemoved) := operandBytes _
theorem OperandBytes.startUp (u : StartInputs) :
    OperandBytes.Statement (.startUp u) := operandBytes _
theorem OperandBytes.startUpComplete :
    OperandBytes.Statement (.startUpComplete) := operandBytes _
theorem OperandBytes.storeWriteComplete :
    OperandBytes.Statement (.storeWriteComplete) := operandBytes _
theorem OperandBytes.cipherTransformComplete (core : Nat) :
    OperandBytes.Statement (.cipherTransformComplete core) := operandBytes _
theorem OperandBytes.cipherCoreGrant :
    OperandBytes.Statement (.cipherCoreGrant) := operandBytes _
theorem OperandBytes.mediaCreditGrant :
    OperandBytes.Statement (.mediaCreditGrant) := operandBytes _
theorem OperandBytes.challengeExpiry (entry : Nat) :
    OperandBytes.Statement (.challengeExpiry entry) := operandBytes _
theorem OperandBytes.backoffExpiry (slot : Nat) :
    OperandBytes.Statement (.backoffExpiry slot) := operandBytes _
theorem OperandBytes.drainTimerExpiry :
    OperandBytes.Statement (.drainTimerExpiry) := operandBytes _
theorem OperandBytes.helloWindowExpiry :
    OperandBytes.Statement (.helloWindowExpiry) := operandBytes _
theorem OperandBytes.delayTimerExpiry :
    OperandBytes.Statement (.delayTimerExpiry) := operandBytes _
theorem OperandBytes.absenceThreshold :
    OperandBytes.Statement (.absenceThreshold) := operandBytes _
theorem OperandBytes.alarmMinimumExpiry :
    OperandBytes.Statement (.alarmMinimumExpiry) := operandBytes _
theorem OperandBytes.mediaTimeout (tag : Nat) :
    OperandBytes.Statement (.mediaTimeout tag) := operandBytes _
theorem OperandBytes.commitWriting :
    OperandBytes.Statement (.commitWriting) := operandBytes _
theorem OperandBytes.rekeyJobStart :
    OperandBytes.Statement (.rekeyJobStart) := operandBytes _
theorem OperandBytes.chunkForm :
    OperandBytes.Statement (.chunkForm) := operandBytes _
theorem OperandBytes.chunkClaim :
    OperandBytes.Statement (.chunkClaim) := operandBytes _
theorem OperandBytes.wipeStepBegin (chain : ChainKind) :
    OperandBytes.Statement (.wipeStepBegin chain) := operandBytes _
theorem OperandBytes.standbyDrainEnd :
    OperandBytes.Statement (.standbyDrainEnd) := operandBytes _
theorem OperandBytes.powerDownDrainEnd :
    OperandBytes.Statement (.powerDownDrainEnd) := operandBytes _
theorem OperandBytes.unknownKind (channel : Channel) (tag : Nat) :
    OperandBytes.Statement (.unknownKind channel tag) := operandBytes _

end Sys2Proof.Laws
end

