-- ==== Sys2Proof/Laws/Tags.lean ====
section
/-! SUPPORT. R165: what leaves the tags in use. A final frame frees its own tag; what ends contexts, loads and sweeps
frees none, so of an escalation and of a cut only the abandoned commit does. -/

set_option Elab.async false

namespace Sys2Proof.Machine

/-! ### Final frames -/

/-- R165, R171: all that a final frame does. -/
theorem State.answer_frees (s : State) (rto : ReplyTo) (b : Body) :
    TagFreed rto s (s.answer rto b) ∧ Framed [.tags, .sent] s (s.answer rto b) ∧
    (s.answer rto b).sent = s.sent ++ (if rto.session = s.lif.session then [frame rto.channel rto.tag b] else []) := by
  unfold State.answer TagFreed State.tagsAfter Framed frame
  by_cases h : rto.session = s.lif.session <;> cases hc : rto.channel <;> simp [h, State.freeTag, State.send]
  all_goals (intro p hp; cases p <;> simp_all [Piece.same])

/-- R20: all that the abandonment of a commit does to the commit, the tags and the frames. -/
theorem State.abandonCommit_preempts (s : State) : DrainPreempted s.lif.tagsInUse s s.abandonCommit := by
  refine ⟨fun a n k rto h => ?_, fun h => ?_⟩
  · have A := State.answer_frees { s with rtb := { s.rtb with commit := .idle }, kst := { s.kst with reservation := 0 } } rto
      (.status .preempted [])
    unfold State.abandonCommit State.refuse
    rw [h]
    exact ⟨(A.2.1.2 .commit (by decide)).2.1, A.1, fun e => by rw [A.2.2]; simp [e]⟩
  · unfold State.abandonCommit
    split
    · exact absurd ‹_› (h _ _ _ _)
    · exact ⟨rfl, rfl⟩

/-! ### What frees no tag -/

/-- R90: an abort frees no tag; its XFER_ABORTED is a notice. -/
@[simp] theorem State.abort_tags (s : State) (cause : AbortCause) (c : Nat) : (s.abort cause c).lif.tagsInUse = s.lif.tagsInUse := by
  unfold State.abort
  split
  · rfl
  · unfold State.owe State.lastWord
    dsimp only
    split <;> simp [State.send]

@[simp] theorem State.abortAll_tags (s : State) (cause : AbortCause) (p : OpenContext → Bool) :
    (s.abortAll cause p).lif.tagsInUse = s.lif.tagsInUse :=
  foldl_lif_tagsInUse _ (fun t c => State.abort_tags t cause c) _ s

/-- R125: of the effects of passing LOCK only the abandoned commit frees a tag. -/
theorem State.lockEffects_tags (s : State) : s.lockEffects.lif.tagsInUse = s.abandonCommit.lif.tagsInUse := by
  simp [State.lockEffects, State.forcedUnload, State.lockAll]

/-- R141: of what a CUT_KEYS changes only the abandoned commit frees a tag. -/
theorem State.cut_tags (s : State) : s.cut.lif.tagsInUse = s.abandonCommit.lif.tagsInUse := by
  simp [State.cut, State.cutSlots, State.abandonSweep, State.abortCut]

/-- R124, R125: an escalation that passes LOCK frees the tag of the commit that it abandons, and no other does. -/
theorem State.escalate_tags (s : State) (n : Level) (c : Nat) : (s.escalate n c).lif.tagsInUse =
    if passes s.rsu.level n .lock then s.abandonCommit.lif.tagsInUse else s.lif.tagsInUse := by
  have level : ∀ l f, ({ s with rsu := { s.rsu with level := l, firstCause := f } } : State).abandonCommit.lif.tagsInUse =
      s.abandonCommit.lif.tagsInUse := by
    intro l f
    have A := State.abandonCommit_preempts { s with rsu := { s.rsu with level := l, firstCause := f } }
    have B := State.abandonCommit_preempts s
    cases e : s.rtb.commit with
    | draining a n k rto => rw [(A.1 a n k rto e).2.1, (B.1 a n k rto e).2.1]; rfl
    | _ => rw [(A.2 (by simp [e])).2, (B.2 (by simp [e])).2]
  have given : ∀ (t : State) (b d : Bool) (o : Origin) (ws : List Waiter),
      (if b then t.giveStep d o ws else t).lif.tagsInUse = t.lif.tagsInUse := by
    intro t b d o ws
    cases b <;> simp
  have told : ∀ (t : State) (b : Body), (t.notice b).lif.tagsInUse = t.lif.tagsInUse := by
    intro t b
    unfold State.notice
    split <;> rfl
  unfold State.escalate
  dsimp only
  rw [told, (State.write_frame _ _ _).1, given, given]
  by_cases h : passes s.rsu.level n .lock = true
  · rw [if_pos h, if_pos h, State.lockEffects_tags, level]
  · rw [if_neg h, if_neg h]

/-- R33, R36: a load frees no tag. -/
@[simp] theorem State.damagedKey_tags (s : State) (r k : Nat) : (s.damagedKey r k).lif.tagsInUse = s.lif.tagsInUse := by
  unfold State.damagedKey
  dsimp only
  (repeat' split) <;> simp

@[simp] theorem State.loadRange_tags (s : State) (r : Nat) (via : Option Rak) :
    (s.loadRange r via).1.lif.tagsInUse = s.lif.tagsInUse := by
  have unwrap : ∀ (k : Rak) (t : State) (x : Nat), (t.unwrap r k x).lif.tagsInUse = t.lif.tagsInUse := by
    intro k t x
    unfold State.unwrap
    (repeat' split) <;> simp
  unfold State.loadRange
  split
  · rfl
  · split <;> simp [foldl_lif_tagsInUse _ (unwrap _)]

/-- R5, R6: an unlock frees no tag. -/
@[simp] theorem State.unlockRange_tags (s : State) (rd wr : Bool) (via : Option Rak) (r : Nat) :
    (s.unlockRange rd wr via r).1.lif.tagsInUse = s.lif.tagsInUse := by
  unfold State.unlockRange
  dsimp only
  split <;> simp

/-- R161: the wake frees no tag. -/
theorem State.wake_tags (s : State) : s.wake.lif.tagsInUse = s.lif.tagsInUse := by
  have reopen : ∀ t : State, t.reopen.lif.tagsInUse = t.lif.tagsInUse := by
    intro t
    unfold State.reopen
    split
    · rfl
    · exact foldl_lif_tagsInUse _ (fun u r => by simp [State.unlockDevice]) _ t
  unfold State.wake State.resumeHeadJob
  dsimp only
  split <;> simp [reopen]

end Sys2Proof.Machine
end

