-- ==== Sys2Proof/Tests/Slice0.lean ====
section
/-! SUPPORT. Tests of the model: what well-formedness refuses, the check values of the link, the first cold start-up
of a part fresh from manufacture, single steps, and for every statement with hypotheses states and operands that
meet them. -/

set_option Elab.async false

namespace Sys2Proof.Tests

open Machine

/-! ### States and commands -/

def short : Hdr := { tag := 7, form := .short, length := 0, lengthFits := true, bytes := [] }
def long (n : Nat) : Hdr := { tag := 7, form := .long, length := n, lengthFits := true, bytes := [] }

/-- The secret of a credential slot in the test states. -/
def secretOf (i : Nat) : Secret := BitVec.ofNat 256 (10 + i)

/-- A matching proof over challenge 0 under a slot, or under the label secret for 255. -/
def good (m : Message) (fields : List Nat) (i : Nat) : ProofBlock :=
  { slot := i, challenge := 0
    proof := .digest (if i = 255 then manufactureLabel.secret else secretOf i) { issue := 50 } (digestText m fields) }

/-- A set slot. -/
def userSlot (i : Nat) (st : CredState) (failures : Nat) (backoff : Option Nat) : CredSlot :=
  { record := { state := st, verifier := some { secret := secretOf i }, wrap := some (.ofSecret (secretOf i)),
                failures := failures, limit := 10, damaged := false }, backoff := backoff }

/-- The fields of range 1: blocks 100 to 199 under slot 1, listed for slot 2. -/
def fieldsOne : RangeFields :=
  { RangeFields.blank 1 { issue := 60 } with
    bounds := some { first := 100, count := 100 }, readList := 4, writeList := 4, standbyLock := true
    envelopes := [{ holder := .cred 0, wraps := [.ofSecret (secretOf 0)], rak := { issue := 60 }, whole := true },
                  { holder := .cred 2, wraps := [.ofSecret (secretOf 2)], rak := { issue := 60 }, whole := true }] }

/-- A SEALED part with a started link: custodians 0 and 1, users 2 (enabled), 3 (blocked), 4 (disabled) and 5 (in
backoff), range 0 open and range 1 locked, and challenge 0 out. -/
def ready : State :=
  { State.reset with
    lif := { State.reset.lif with
      started := true, mediaCredits := 2, freeCredits := 2, capacity := 1000, imageBase := 5000, scratchBase := 6000 }
    cru := { slots := [userSlot 0 .enabled 0 none, userSlot 1 .enabled 0 none, userSlot 2 .enabled 2 none,
                       userSlot 3 .blocked 10 none, userSlot 4 .disabled 0 none, userSlot 5 .enabled 5 (some 4)] ++
               List.replicate 4 { record := .blank, backoff := none }
             challenges := [some { nonce := { issue := 50 }, remaining := 60 }, none, none, none], ops := [] }
    btc := { State.reset.btc with state := .sealed, imageSize := 16 }
    kst := { State.reset.kst with
      slots := State.reset.kst.slots.set 1
        { KeySlot.blank with state := .live, owner := some 1
                             material := some { key := { issue := 61 }, rak := { issue := 60 }, whole := true } } }
    rtb := { State.reset.rtb with
      entries := (State.reset.rtb.entries.set 0 (.enabled { RangeFields.blank 0 manufactureRak with
        readLocked := false, writeLocked := false
        envelopes := [{ holder := .cred 0, wraps := [.ofSecret (secretOf 0)], rak := manufactureRak, whole := true }] })).set
          1 (.enabled fieldsOne) }
    sst := { State.reset.sst with lastDevice := { State.reset.sst.lastDevice with boot := .provisioned, imageSize := 16 } }
    fresh := 100 }

/-- The part BLANK with a started link. -/
def fresh : State := { ready with btc := State.reset.btc }

/-- `ready` with its link not started. -/
def unstarted : State := { ready with lif := State.reset.lif }

/-- A state in which no frame is taken. -/
def deaf : State := { ready with sst := { ready.sst with ready := false } }

def opened (s : State) : State := { s with btc := { s.btc with state := .opened } }
def booted (b : BootState) : State := { ready with btc := { ready.btc with state := b } }
def levelled (l : Level) : State := { ready with rsu := { ready.rsu with level := l } }
def limited (n : Nat) : State := { ready with lif := { ready.lif with limitControl := n } }
def timed (l : Level) : State :=
  { ready with rsu := { ready.rsu with timer := some { pending := { level := l, source := 3, delay := 9 }, remaining := 9 } } }

/-- An OPEN context of mode m over 8 blocks from block 300 of range 0, one block taken. -/
def xfer (m : Mode) : OpenContext :=
  { direction := .read, range := some 0, first := 300, count := 8, nextIndex := 1, mode := m, keyRefs := []
    rto := { channel := .data, tag := 9, session := 1 } }

def streaming (m : Mode) : State :=
  { opened ready with dpu := { ready.dpu with contexts := ready.dpu.contexts.set 0 { generation := 1, xfer := some (xfer m) } } }

/-- All sixteen contexts are OPEN. -/
def full : State :=
  { ready with dpu := { ready.dpu with contexts := List.replicate 16 { generation := 1, xfer := some (xfer .shroud) } } }

/-- A chain whose first step may begin. -/
def chainOf (steps : List WipeStep) : Chain := { Chain.make .sanitize steps 0 with durable := true }

/-- A FILL of 1000 blocks in progress. -/
def filling : Chain := { chainOf [.fill (some 1000) 0] with begun := true }

def wiping (c : Chain) : State := { ready with wpe := { ready.wpe with normal := some c } }

/-- A rekey job of range 1. -/
def job (st : JobState) : Job :=
  { range := 1, state := st, copy := some { issue := 60 }, serial := some 1, newKey := some 2, fault := none }

def queued (st : JobState) : State := { opened ready with rke := { ready.rke with queue := [job st] } }

/-- A job of range 1 whose sweep stands at a watermark. -/
def sweeping (watermark : Nat) : State :=
  { queued .sweeping with rtb := { ready.rtb with
      entries := ready.rtb.entries.set 1 (.enabled { fieldsOne with split := some { newKey := 2, watermark := watermark } }) } }

/-- A draining commit of range 0. -/
def draining (m : Mode) : State :=
  { streaming m with rtb := { ready.rtb with
      commit := .draining [0] 5 [] { channel := .control, tag := 9, session := 1 } } }

/-- A write in service for one requester. -/
def serving (u : StoreUnit) (r : Record) (ws : List Waiter) : State :=
  { ready with sst := { ready.sst with serving := some { unit := u, content := r, waiters := ws } } }

/-- s with one entry of its range table replaced. -/
def entries (s : State) (r : Nat) (e : Entry) : State := { s with rtb := { s.rtb with entries := s.rtb.entries.set r e } }

/-- A staged list. -/
def staged (es : List Edit) (m : Mark) : State :=
  { opened ready with rtb := { ready.rtb with staged := { StagedList.blank with edits := es, mark := m } } }

/-- An edit request that disables range 1. -/
def editOff : EditFields :=
  { range := 1, kind := some .disable, first := 0, count := 0, lockMode := none, concealed := none, powerLock := none,
    standbyLock := none, reseal := none, readList := 0, writeList := 0 }

def evidence (n : Nat) : EvidenceValues :=
  { enabled := some true, level := 1, delay := n, immediate := some false, guard := some .always
    purgeAllowed := some true, alarmMinimum := 1, absenceThreshold := 10 }

def dual : ReplyTo := { channel := .control, tag := 9, session := 1 }

/-! ### The commands of the witnesses -/

def cSet (target limit i : Nat) : Instr :=
  .setCredential (long 99) target (some .set) 77 limit (good .setCredential [target, 0, 77, limit] i)
def cDisable (target limit i : Nat) : Instr :=
  .setCredential (long 99) target (some .disable) 77 limit (good .setCredential [target, 1, 77, limit] i)
def cReset (target i : Nat) : Instr := .resetAttempts short target (good .resetAttempts [target] i)
def cUnlock (r i : Nat) : Instr := .unlock short r (good .unlock [r] i)
def cLock (r d i : Nat) : Instr := .lock short r d (good .lock [r, d] i)
def cUnseal (a : Option UnsealAction) (i : Nat) : Instr :=
  .startImageUnseal short a (good .startImageUnseal [unsealActionCode a] i)
def cBind (a : BindAction) : Instr := .bindPlatform (long 99) (some a) 5 (good .bindPlatform [bindActionCode (some a), 5] 0)
def cEvidence (target : Nat) (v : EvidenceValues) : Instr :=
  .evidenceSet (long 99) target v (good .evidenceSet (target :: v.text) 0)
def cRanges (start i : Nat) : Instr := .rangeList (long 36) start (some (good .rangeList [start] i))
def cStage (e : EditFields) : Instr := .rangeStage (long 99) e (good .rangeStage e.text 0)
def cDiscard : Instr := .rangeDiscard short (good .rangeDiscard [] 0)
def cCommit (d : Bool) : Instr := .rangeCommit short (some d) (good .rangeCommit [flagCode (some d)] 0)
def cQueue (r : Nat) : Instr := .rekeyQueue short r (good .rekeyQueue [r] 0)
def cResume (r : Nat) : Instr := .rekeyResume short r (good .rekeyResume [r] 0)
def cEvidenceList (start : Nat) : Instr := .evidenceList short start (good .evidenceList [start] 1)
def cClear : Instr := .responseClear short (good .responseClear [] 0)
def cOrder (l : Nat) : Instr := .remoteOrder short l (good .remoteOrder [l] 1)
def cWipe (fill : Option Bool) : Instr := .wipeStart short fill (good .wipeStart [flagCode fill] 0)
def cAbort : Instr := .wipeAbort short (good .wipeAbort [] 1)
def cReprovision : Instr := .reprovision short (good .reprovision [] 255)
def cProvision (size : Nat) (present : Option Bool) (i : Nat) : Instr :=
  .provision (long 99) 20 21 size present 22 (good .provision [20, 21, size, flagCode present, 22] i)
def cOpen (d first count : Nat) : Instr := .xferOpen (long 9) d first count
def cBlock (n g i : Nat) : Instr := .xferBlock (long 4104) n g i .zeros
def cClose (n g : Nat) : Instr := .xferClose short n g
def cHello (token : Secret) : Instr := .platformHello (long 32) token
def cLink (credits capacity image scratch : Nat) : Instr := .linkStart (long 20) credits capacity image scratch

/-! ### Deciding hypotheses -/

/-- The checks of the Link Interface, decided. -/
def passesB (c : Instr) (s : State) : Bool :=
  match c.asRequest with
  | some (m, f, fits) =>
    s.takesFrames && !s.lif.burstDropped && f.tag != 0 &&
      decide (m.channel = .control → m ≠ .linkStart → f.tag ∉ s.lif.tagsInUse) &&
      (s.lif.started || Message.early m) && fits
  | none => true

theorem passes_of {c : Instr} {s : State} (h : passesB c s = true) : c.passes s := by
  unfold Instr.passes
  cases e : c.asRequest with
  | none => trivial
  | some q =>
    obtain ⟨m, f, fits⟩ := q
    simp only [passesB, e, Bool.and_eq_true, decide_eq_true_eq, bne_iff_ne, Bool.not_eq_true', Bool.or_eq_true] at h
    obtain ⟨⟨⟨⟨⟨h1, h2⟩, h3⟩, h4⟩, h5⟩, h6⟩ := h
    exact ⟨h1, h2, h3, h4, h5, h6⟩

/-- A proof matches and its slot may make the request, decided. -/
def provesB (c : Instr) (s : State) (i : Nat) : Bool :=
  match c.asProven with
  | some (m, fields, n, p) =>
    p.slot == i && decide (i < 10) && (s.cred i).record.state == .enabled && (s.cred i).backoff == none &&
      (match s.challengeOf p, s.verifier i with
       | some x, some v => p.proof == .digest v.secret x.nonce (digestText m fields)
       | _, _ => false) && s.permits m i n
  | none => false

theorem proves_of {c : Instr} {s : State} {i : Nat} (h : provesB c s i = true) : c.proves s i := by
  unfold Instr.proves
  cases e : c.asProven with
  | none => simp [provesB, e] at h
  | some q =>
    obtain ⟨m, fields, n, p⟩ := q
    simp only [provesB, e, Bool.and_eq_true, beq_iff_eq, decide_eq_true_eq] at h
    obtain ⟨⟨⟨⟨⟨h1, h2⟩, h3⟩, h4⟩, h5⟩, h6⟩ := h
    refine ⟨⟨h1, h2, h3, h4, ?_⟩, h6⟩
    cases e1 : s.challengeOf p with
    | none => simp [e1] at h5
    | some x =>
      cases e2 : s.verifier i with
      | none => simp [e1, e2] at h5
      | some v => exact ⟨x, v, rfl, rfl, by simpa [e1, e2] using h5⟩

/-- A label proof matches, decided. -/
def labelsB (c : Instr) (s : State) : Bool :=
  match c.asLabelled with
  | some (m, fields, p) =>
    p.slot == 255 && (match s.challengeOf p with
      | some x => p.proof == .digest s.btc.labelVerifier.secret x.nonce (digestText m fields)
      | none => false)
  | none => false

theorem labels_of {c : Instr} {s : State} (h : labelsB c s = true) : c.labels s := by
  unfold Instr.labels
  cases e : c.asLabelled with
  | none => simp [labelsB, e] at h
  | some q =>
    obtain ⟨m, fields, p⟩ := q
    simp only [labelsB, e, Bool.and_eq_true, beq_iff_eq] at h
    obtain ⟨h1, h2⟩ := h
    refine ⟨h1, ?_⟩
    cases e1 : s.challengeOf p with
    | none => simp [e1] at h2
    | some x => exact ⟨x, rfl, by simpa [e1] using h2⟩

/-- The commands of a list pass the checks of the Link Interface. -/
abbrev AllPass (l : List (Instr × State)) : Prop := ∀ q ∈ l, q.1.passes q.2

/-- The commands of a list pass the checks and prove themselves under a slot. -/
abbrev AllProve (l : List (Instr × State × Nat)) : Prop := ∀ q ∈ l, q.1.passes q.2.1 ∧ q.1.proves q.2.1 q.2.2 ∧ Shaped q.2.1

theorem allPass_of {l : List (Instr × State)} (h : l.all (fun q => passesB q.1 q.2) = true) : AllPass l :=
  fun q hq => passes_of (List.all_eq_true.mp h q hq)

def shapedB (s : State) : Bool :=
  [s.cru.slots.length, s.cru.challenges.length, s.kst.slots.length, s.kst.loads.length, s.rtb.entries.length,
   s.dpu.contexts.length, s.rsu.settings.length, s.sst.units.cred.length, s.sst.units.key.length,
   s.sst.units.range.length, s.sst.units.evset.length] == [10, 4, 24, 16, 16, 16, 8, 10, 24, 16, 8]

theorem shaped_of {s : State} (h : shapedB s = true) : Shaped s := by
  simpa [shapedB, Shaped] using h

theorem allProve_of {l : List (Instr × State × Nat)}
    (h : l.all (fun q => passesB q.1 q.2.1 && provesB q.1 q.2.1 q.2.2 && shapedB q.2.1) = true) : AllProve l := by
  intro q hq
  have k := List.all_eq_true.mp h q hq
  simp only [Bool.and_eq_true] at k
  exact ⟨passes_of k.1.1, proves_of k.1.2, shaped_of k.2⟩

/-! ### Well-formedness refuses what does not fit (11.1, 11.2) -/

def noProof : ProofBlock := { slot := 0, challenge := 0, proof := .other 0 }
def noEdge : StartInputs := { edges := [], badKeys := [], badEnvelopes := [] }

theorem test_wf_accepts : ([cUnlock 255 2, cLink 8 1000 5000 6000, cOpen 1 300 256, cProvision 16 (some true) 255, cStage editOff,
    cEvidence 255 (evidence 0), .startUp noEdge, .cipherTransformComplete 3, .challengeExpiry 3, .backoffExpiry 9,
    .mediaReply 255 0 0 (some .zeros)] : List Instr).all Instr.wf = true := by decide +kernel

/-- One ill-formed command for each check: a tag of two bytes, a payload behind a short header, a payload above 4160,
slots, challenges, numbers and blocks that do not fit, a block of another size, a source that the latch does not take, a
key slot and a range that do not exist, a core, an entry and a slot that do not exist. -/
theorem test_wf_refuses : ([.identify { short with tag := 256 }, .identify { short with length := 1 },
    .linkStart (long 4161) 1 1 0 0, cLink 256 1 0 0, cLink 1 (2 ^ 48) 0 0, cLink 1 1 (2 ^ 48) 0, cLink 1 1 0 (2 ^ 48),
    .setReplyLimit short 256 64, .setReplyLimit short 1 65536, .lock short 256 3 noProof, .lock short 0 256 noProof,
    .unlock short 0 { noProof with slot := 256 }, .unlock short 0 { noProof with challenge := 256 },
    .rangeList (long 36) 0 (some { noProof with slot := 256 }), .setCredential (long 99) 0 none 0 256 noProof,
    .rangeStage (long 99) { editOff with first := 2 ^ 48 } noProof, .evidenceSet (long 99) 0 { evidence 0 with delay := 65536 } noProof,
    .provision (long 99) 0 0 65536 none 0 noProof, .xferOpen (long 9) 0 0 65536, .xferBlock (long 4104) 0 0 0 (.raw []),
    .mediaReply 1 32 0 none, .frameDamaged .data 256, .startUp { noEdge with edges := [3] },
    .startUp { noEdge with badKeys := [23] }, .startUp { noEdge with badEnvelopes := [16] }, .cipherTransformComplete 4,
    .challengeExpiry 4, .backoffExpiry 10, .mediaTimeout 256, .unknownKind .data 256] : List Instr).any Instr.wf = false := by
  decide +kernel

/-! ### The link on the wire (11.1, 11.3) -/

/-- The bytes of the check string 123456789. -/
def digits : List Byte := [0x31, 0x32, 0x33, 0x34, 0x35, 0x36, 0x37, 0x38, 0x39]

theorem test_check_values : hchk digits = 0xF4 ∧ crc32 digits = 0xCBF43926 := by decide +kernel

/-- A burst of an IDENTIFY, a MOTION with a wrong header check, and what follows it. -/
theorem test_burst : scanBurst (shortFrame .control 8 7 [3, 0, 0, 0, 0] ++ shortFrame .platform 1 2 [0, 0, 0, 0, 0] ++ [0, 1]) =
    [.taken .short .control 8 7 [3, 0, 0, 0, 0] [], .taken .short .platform 1 2 [0, 0, 0, 0, 0] [], .failed] := by decide +kernel

/-! ### The first start-up (R63, R145, R163, log 1) -/

/-- The first cold start-up of a part fresh from manufacture ends in the reset state, but for the retention supply,
which the model keeps apart (log 14). -/
theorem test_first_start_up :
    (match exec (.startUp noEdge) State.manufactured with
      | .next t => (match exec .startUpComplete t with
        | .next u => u == { State.reset with sst := { State.reset.sst with retention := false } }
        | _ => false)
      | _ => false) = true := by decide +kernel

/-- The reset state idles on an empty queue: one second passes. -/
theorem test_reset_idles : step State.reset = .next { State.reset with sst := { State.reset.sst with seconds := 1 } } := by
  rfl

/-! ### States and operands that meet the statements' hypotheses -/

theorem witness_StepRunsFrontCommand : { ready with pending := [.burstEnd] }.pending = [Instr.burstEnd] := rfl

theorem witness_IdleStepPassesOneSecond : (State.reset.pending = [] ∧ State.reset.sst.power.supplied = true) ∧
    (State.manufactured.pending = [] ∧ State.manufactured.sst.power.supplied = false) ∧
    (draining .clear).rtb.commit = .draining [0] 5 [] dual ∧ (∀ a n k rto, ready.rtb.commit ≠ .draining a n k rto) :=
  ⟨by decide +kernel, by decide +kernel, by decide +kernel, fun _ _ _ _ h => by cases (show Commit.idle = _ from h)⟩

theorem witness_StepKeepsTableSizes : Shaped State.reset ∧ ∃ t, step State.reset = .next t := ⟨shaped_of (by decide +kernel), _, rfl⟩

theorem witness_StepKeepsStoreLaw : Lawful State.reset ∧ ∃ t, step State.reset = .next t := by
  refine ⟨?_, _, rfl⟩; unfold Lawful WaitLaw; decide +kernel

theorem witness_StepKeepsMediaCredits : Credited ready ∧ ∃ t, step ready = .next t := by
  refine ⟨?_, _, rfl⟩; unfold Credited; decide +kernel

/-- A store whose queue is full, with a write on the wait list. -/
def crowded : State :=
  { ready with sst := { ready.sst with
      queue := (List.range 16).map (fun k => { unit := .key k, content := .key .blank, waiters := [] })
      waiting := [{ unit := .stage, content := .stage .blank, waiters := [] }] } }

/-- A unit that waits in the queue, one on the wait list, one that waits nowhere before an empty and a full queue; a
write to serve, and one in service. -/
theorem witness_StorePlacesAndTakesWrites :
    (∃ w ∈ crowded.sst.queue, w.unit = .key 15) ∧ (∀ w ∈ crowded.sst.queue, w.unit ≠ .stage) ∧
    (∃ w ∈ crowded.sst.waiting, w.unit = .stage) ∧ (∀ w ∈ crowded.writesHeld, w.unit ≠ .wipe) ∧ crowded.sst.queue.length = 16 ∧
    ready.writesHeld = [] ∧ crowded.sst.serving = none ∧ crowded.sst.queue ≠ [] ∧
    (serving .stage (.stage .blank) []).sst.serving ≠ none ∧ Lawful crowded ∧ Lawful ready := by
  unfold Lawful WaitLaw; decide +kernel

/-- READY_OUT deasserted and a dropped burst; tag 0, a tag in use, the link not started, and a request that may come
before it with a wrong length. -/
theorem witness_LinkChecksComeInOrder :
    ((Instr.motion short).asRequest.isSome = true ∧ deaf.takesFrames = false ∧
      { ready with lif := { ready.lif with burstDropped := true } }.lif.burstDropped = true) ∧
    ready.takesFrames = true ∧ ready.lif.burstDropped = false ∧
    (Instr.motion { short with tag := 0 }).asRequest = some (.motion, { short with tag := 0 }, true) ∧
    7 ∈ { ready with lif := { ready.lif with tagsInUse := [7] } }.lif.tagsInUse ∧ Message.channel .slotList = .control ∧
    (unstarted.takesFrames = true ∧ unstarted.lif.started = false ∧ Message.motion ∉ [Message.linkStart, .identify, .status]) ∧
    (Instr.motion (long 0)).asRequest = some (.motion, long 0, false) ∧
    (Instr.identify (long 0)).asRequest = some (.identify, long 0, false) := by decide +kernel

/-- No slot (10 and 255), an EMPTY, a DISABLED and a BLOCKED slot, a backoff, and a free challenge; a user that proves a
custodian's request; a label proof of another text, and one over a free challenge; ranges 15 and 16 in the rows of R53. -/
theorem witness_ProofIsCheckedInOrder :
    AllPass ([10, 255, 6, 4, 3, 5, 2].map (fun i => (cUnlock 1 i, ready))) ∧ (cUnlock 1 255).asProven.isSome = true ∧
    (ready.cred 6).record.state = .empty ∧ (ready.cred 4).record.state = .disabled ∧ (ready.cred 3).record.state = .blocked ∧
    ((ready.cred 5).record.state = .enabled ∧ (ready.cred 5).backoff = some 4) ∧
    ((ready.cred 2).record.state = .enabled ∧ (ready.cred 2).backoff = none ∧
      ready.challengeOf { good .unlock [1] 2 with challenge := 1 } = none ∧
      ready.challengeOf { good .unlock [1] 2 with challenge := 4 } = none) ∧
    (AllPass [(cUnseal none 2, ready), (cProvision 16 none 255, fresh)] ∧ ready.permits .startImageUnseal 2 0 = false ∧
      Proves ready .startImageUnseal [255] 2 (good .startImageUnseal [255] 2)) ∧
    (cProvision 16 none 255).asLabelled.isSome = true ∧
    fresh.challengeOf (good .provision [] 255) = some { nonce := { issue := 50 }, remaining := 60 } ∧
    (good .provision [] 255).proof ≠ .digest fresh.btc.labelVerifier.secret { issue := 50 } (digestText .provision [0]) ∧
    fresh.challengeOf { good .provision [] 255 with challenge := 1 } = none ∧
    (ready.permits .unlock 2 1 = true ∧ ready.permits .unlock 0 15 = false ∧ ready.permits .unlock 0 16 = true ∧
      ready.permits .lock 1 15 = true ∧ ready.permits .lock 2 0 = false ∧ ready.permits .resetAttempts 1 1 = false) := by
  refine ⟨allPass_of (by decide +kernel), by decide, by decide, by decide, by decide, by decide +kernel, by decide +kernel, ?_,
    by decide +kernel⟩
  refine ⟨allPass_of (by decide +kernel), by decide +kernel, by decide, by decide, by decide +kernel, by decide +kernel, ?_⟩
  exact ⟨_, _, rfl, rfl, by decide +kernel⟩

/-- Slot 2 with 2 failures reaches its first backoff; at a limit of 3 it is BLOCKED. -/
theorem witness_BadProofIsCounted : AllPass [(cUnlock 1 2, ready)] ∧ Shaped ready ∧ (ready.cred 2).record.state = .enabled ∧
    (ready.cred 2).backoff = none ∧ ready.challengeOf (good .unlock [2] 2) = some { nonce := { issue := 50 }, remaining := 60 } ∧
    ready.verifier 2 = some { secret := secretOf 2 } ∧
    (good .unlock [2] 2).proof ≠ .digest (secretOf 2) { issue := 50 } (digestText .unlock [1]) ∧
    (ready.cred 2).record.failures = 2 := ⟨allPass_of (by decide +kernel), shaped_of (by decide +kernel), by decide +kernel⟩

/-- The bounds of LINK_START's four values, on both sides, at a first and a later start. -/
theorem witness_LinkStartStartsTheLink :
    AllPass [(cLink 1 1 0 33, unstarted), (cLink 8 (2 ^ 40) 5000 (2 ^ 48 - 34), ready), (cLink 0 1 0 0, ready), (cLink 9 1 0 0, ready),
      (cLink 1 0 0 0, ready), (cLink 1 (2 ^ 40 + 1) 0 0, ready), (cLink 1 1 5000 (2 ^ 48 - 33), ready), (cLink 1 1 5000 5015, ready)] ∧
    (33 + 33 ≤ 99 ∨ 0 + unstarted.btc.imageSize ≤ 33) ∧ ¬(5015 + 33 ≤ 5000 ∨ 5000 + ready.btc.imageSize ≤ 5015) ∧
    (ready.lif.started = true ∧ ready.rke.phase ≠ .staged ∧ ready.rke.phase ≠ .copying ∧ ready.rke.recovery = .none) :=
  ⟨allPass_of (by decide +kernel), by decide +kernel⟩

/-- A chunk of a range that stays locked: two contexts refer to slot 1, RETIRING, and its range is RELEASING. -/
def releasing : State :=
  { streaming .clear with
    dpu := { ready.dpu with contexts := (List.range 16).map (fun c =>
      { generation := 1, xfer := if c < 2 then some { xfer .clear with keyRefs := [1], range := some 1 } else none }) }
    kst := { ready.kst with slots := ready.kst.slots.modify 1 (fun x => { x with users := 2, state := .retiring })
                            loads := ready.kst.loads.set 1 (.releasing { issue := 60 }) } }

/-- The sweep at a LINK_START: a restart in READING before and after the header, in STAGED and in COPYING with a request
outstanding; a first one with a chunk to copy again, and with a header to judge. -/
theorem witness_LinkStartStartsTheLink_sweep :
    AllPass ([releasing, { sweeping 100 with rke := { (sweeping 100).rke with phase := .reading, n := 2, issued := [.read 0] } },
        { sweeping 100 with rke := { (sweeping 100).rke with phase := .reading, n := 2, headerIssued := true, issued := [.headerFilled] } },
        { sweeping 100 with rke := { (sweeping 100).rke with phase := .copying, n := 2, headerIssued := true, issued := [.dest 0], todo := [.dest 1] } }].map
      (fun s => (cLink 1 1 99999 6000, s))) ∧
    AllPass ([Recovery.copy 100 2, .header].map (fun r =>
      (cLink 1 1 99999 6000, { unstarted with rke := { (sweeping 100).rke with recovery := r } }))) ∧
    Shaped releasing ∧ releasing.lif.started = true ∧ (releasing.slot 1).state = .retiring ∧ (releasing.slot 1).owner = some 1 ∧
    (releasing.slot 1).erasing = false ∧ (releasing.slot 1).users = [1, 1].count 1 ∧ releasing.kst.hold = none ∧
    releasing.load 1 = .releasing { issue := 60 } ∧ (∀ g ∈ releasing.fields 1, g.named = [1]) ∧
    ([ChunkOp.dest 1].map ChunkOp.position).Pairwise (· ≤ ·) :=
  ⟨allPass_of (by decide +kernel), allPass_of (by decide +kernel), shaped_of (by decide +kernel), by decide +kernel⟩

/-- The five reads; a concealed and a shown head job, and a FILL that the injected chain suspends. -/
theorem witness_ReadsAnswerInTheirStep :
    AllPass [(.identify short, unstarted), (.status short, ready), (.rekeyStatus short, ready), (.responseStatus short, ready),
      (.wipeStatus short, ready)] ∧
    (queued .sweeping).headJob = some (job .sweeping) ∧ (queued .sweeping).fields 1 = some fieldsOne ∧ fieldsOne.concealed = false ∧
    ({ queued .sweeping with rtb := { ready.rtb with
      entries := ready.rtb.entries.set 1 (.enabled { fieldsOne with concealed := true }) } }.fields 1).any (fun (g : RangeFields) => g.concealed) = true ∧
    (wiping (chainOf [.cutKeys])).chain .normal ≠ none ∧ (wiping filling).wpe.normal = some filling ∧
    ((ready.chainReport .normal { filling with begun := false }).steps = [.fill none 0] ∧
      (ready.chainReport .normal filling).steps = filling.steps) := ⟨allPass_of (by decide +kernel), by decide +kernel⟩

/-- The bounds of each channel's limit, on both sides. -/
theorem witness_SetReplyLimitSetsOneLimit :
    AllPass ([(0, 4104), (0, 4160), (1, 64), (1, 4160), (2, 64), (2, 4160), (3, 64), (1, 4161), (2, 63), (0, 4103)].map
      (fun q => (Instr.setReplyLimit short q.1 q.2, ready))) := allPass_of (by decide +kernel)

theorem witness_DamagedFramesAreAnsweredAndCounted :
    (ready.takesFrames = true ∧ ready.lif.burstDropped = false ∧ ready.lif.burstErrored = false ∧ ready.lif.erroredBursts ≠ 31) ∧
    deaf.takesFrames = false ∧
    { ready with lif := { ready.lif with burstErrored := true, erroredBursts := 31 } }.takesFrames = true := by decide +kernel

/-- A part with one outstanding READ and one FILL. -/
def asking : State :=
  { ready with lif := { ready.lif with
      freeCredits := 0
      outstanding := [{ tag := 1, kind := .read, client := .rekey 1 (.read 0), remaining := 2 },
                      { tag := 255, kind := .fill, client := .wipe .normal 0 0, remaining := 1 }] } }

theorem witness_MediaRequestEndsOnce :
    (∃ q, asking.lif.outstanding.find? (fun x => x.tag == 1) = some q ∧ q.kind = .read) ∧
    (∃ q, asking.lif.outstanding.find? (fun x => x.tag == 255) = some q ∧ q.kind ≠ .read ∧ 0 ≠ q.kind.code) ∧
    asking.lif.outstanding.find? (fun x => x.tag == 2) = none ∧ asking.takesFrames = true ∧ asking.lif.burstDropped = false :=
  ⟨⟨_, rfl, rfl⟩, ⟨_, rfl, by decide, by decide⟩, by decide +kernel⟩

/-- A FILL of either chain waits for a credit, and so does a chunk's read. -/
def injecting : State := { ready with wpe := { ready.wpe with injected := some filling } }
def reading : State :=
  { sweeping 100 with rke := { (queued .sweeping).rke with phase := .reading, first := 100, n := 32, window := true,
                                                           buffer := List.replicate 32 none, todo := [.read 0] } }

theorem witness_CreditGoesToFirstWaiter :
    (injecting.lif.freeCredits ≠ 0 ∧ injecting.fillRequest .injected = some (filling, 0, 256)) ∧ reading.headJob = some (job .sweeping) ∧ reading.sweepRequest ≠ none ∧
    (wiping filling).fillRequest .normal ≠ none ∧ (asking.lif.freeCredits = 0) ∧ Credited injecting ∧ Credited reading ∧
    Credited (wiping filling) := by
  unfold Credited; decide +kernel

/-- A FILL that may issue its last chunk, beside a suspended one; a CUT_KEYS in progress or being recorded holds the
injected chain back. -/
theorem witness_CreditGoesToFirstWaiter_chains :
    (injecting.wpe.normal = none ∧ (wiping filling).wpe.injected = none ∧ injecting.lif.started = true ∧ injecting.sst.power = .active ∧
      filling.begun = true ∧ filling.steps = [.fill (some 1000) 0] ∧ 0 % 256 = 0 ∧ 0 ≤ 3 * 256 ∧ 3 * 256 < 1000 ∧
      filling.above = [] ∧ injecting.lif.outstanding = []) ∧
    (let s := { injecting with wpe := { injecting.wpe with normal := some filling } }
     s.fillRequest .normal = none ∧ s.fillRequest .injected ≠ none) ∧
    (∀ c ∈ [{ chainOf [.cutKeys] with begun := true }, { chainOf [] with recording := true }],
      { injecting with wpe := { injecting.wpe with normal := some c } }.fillRequest .injected = none) := by decide +kernel

/-- A sweep whose requests 255 and 1 are outstanding, one of them of an earlier chunk, beside a free credit. -/
def busyTags (o : ChunkOp) (n : Nat) : State :=
  let q := fun tag => { tag := tag, kind := .write, client := .rekey n o, remaining := 2 : MediaReq }
  { reading with lif := { reading.lif with mediaCredits := 3, freeCredits := 1, outstanding := [q 255, q 1], nextTag := 255 } }

/-- The cycle passes over 255 and 1; a request of the sweep, and none: a FAULTED job, with and without a copy of the
start-up recovery, a scratch write beside one of an earlier chunk, of this chunk, and beside a read of an earlier one. -/
theorem witness_CreditGoesToFirstWaiter_sweep :
    Credited (busyTags (.read 3) 0) ∧
    ((busyTags (.read 3) 0).mediaTag = 2 ∧ ((busyTags (.read 3) 0).grantCredit.lif.outstanding.map (fun q => q.tag)) = [255, 1, 2] ∧
      reading.sweepRequest = some (.read 0)) ∧
    (∀ b ∈ [false, true], { reading with rke := { reading.rke with queue := [job .faulted], runAnyway := b } }.sweepRequest =
      if b then some (.read 0) else none) ∧
    (let wants := fun (s : State) => { s with rke := { s.rke with todo := [.scratch 0] } }.sweepRequest
     reading.rke.chunk ≠ 9 ∧ wants (busyTags (.scratch 3) 9) = none ∧ wants (busyTags .headerFilled 9) = none ∧
       wants (busyTags (.scratch 3) reading.rke.chunk) = some (.scratch 0) ∧ wants (busyTags (.read 3) 9) = some (.scratch 0)) := by
  unfold Credited; decide +kernel

/-- Chunks 1 and 3 of a FILL of 1000 blocks have ended; chunk 0 ends, and chunk 2; a chain that is gone. -/
def holed : Chain := { filling with above := [(1, false), (3, true)] }

theorem witness_FillChunksEnd :
    ready.chain .normal = none ∧ (wiping holed).chain .normal = some holed ∧ holed.no = 0 ∧ holed.begun = true ∧
    holed.steps = [.fill (some 1000) 0] ∧
    (∀ i ∈ [0, 2], ((holed.above ++ [(i, true)]).map (fun x => x.1)).Nodup ∧
      ∀ x ∈ holed.above ++ [(i, true)], 0 ≤ x.1 * 256 ∧ x.1 * 256 < 1000) := by decide +kernel

/-- A job whose header FILLED was issued, and one whose scratch header is still to be judged. -/
def copying : State := { reading with rke := { reading.rke with phase := .copying, headerIssued := true } }
def judged : State := { sweeping 100 with rke := { (sweeping 100).rke with recovery := .header, rangeHeld := true } }

/-- A job whose scratch header is being judged, resumed under its hold: slots 1 and 2 LIVE, its range in a load state. -/
def resumed (l : Load) : State :=
  { judged with
    kst := { ready.kst with
      hold := some { range := 1, oldKey := 1, newKey := 2 }, loads := ready.kst.loads.set 1 l
      slots := (ready.kst.slots.set 2 { ready.slot 1 with users := 1 }).modify 1 (fun x => { x with users := 1 }) } }

/-- Every request of a chunk under the job of range 1: an earlier chunk's, a chunk before and after its header, and the
scratch header of this job, of another, and none. -/
theorem witness_SweepRequestsEnd :
    5 ≠ reading.rke.chunk ∧
    (∀ s ∈ [reading, copying, judged], s.headJob = some (job .sweeping) ∧ ∃ g ∈ s.fields 1, g.split = some { newKey := 2, watermark := 100 }) ∧
    (reading.rke.headerIssued = false ∧ reading.rke.phase ≠ .idle) ∧ copying.rke.headerIssued = true ∧ judged.rke.phase = .idle ∧
    ((job .sweeping).serial.getD 0 = 1 ∧ (job .sweeping).range = 1 ∧ (job .sweeping).newKey.getD 0 = 2) ∧
    (entries judged 1 .damaged).fields 1 = none := by decide +kernel

/-- A free entry, and a table without one. -/
theorem witness_ChallengesComeAndExpire : AllPass [(.challenge short, ready), (.challenge short,
      { ready with cru := { ready.cru with challenges := List.replicate 4 (some { nonce := { issue := 50 }, remaining := 9 }) } })] ∧
    ready.cru.challenges[1]? = some none := ⟨allPass_of (by decide +kernel), by decide +kernel⟩

/-- A DISABLE of slot 4 that waits for its write. -/
def disabling : State := ready.write (.cred 4) [.reply { channel := .control, tag := 9, session := 1 } (.status .ok [0])]

/-- Targets 9 and 10, limits 0, 2, 3, 32 and 33, a user that sets another's slot, a DISABLED target, a change running. -/
theorem witness_SetCredentialIsAdmitted :
    AllProve [(cSet 10 0 0, ready, 0), (cSet 9 2 0, ready, 0), (cSet 9 33 0, ready, 0), (cSet 9 0 2, ready, 2), (cSet 2 3 2, ready, 2),
      (cDisable 1 0 0, ready, 0), (cSet 9 32 0, booted .erased, 0), (cDisable 4 0 0, ready, 0), (cSet 9 3 0, ready, 0), (cSet 4 0 0, disabling, 0)] ∧
    (ready.cred 4).record.state = .disabled ∧ ready.disabling 9 = false ∧ disabling.disabling 4 = true :=
  ⟨allProve_of (by decide +kernel), by decide +kernel⟩

/-- ADMIN sets user 2, whose range it opens and whose envelope stands; ADMIN sets RECOVERY, which has no envelope yet;
ADMIN sets user 9, which no range lists; user 2 changes its own secret. -/
theorem witness_SetCredentialStartsItsWaves :
    AllProve [(cSet 2 3 0, ready, 0), (cSet 1 0 0, ready, 0), (cSet 9 0 0, ready, 0), (cSet 2 0 2, ready, 2)] ∧ ready.btc.state ≠ .erased ∧
    (∃ d, envelopeOf fieldsOne.envelopes (.cred 2) = some d ∧ d.whole = true) ∧ envelopeOf fieldsOne.envelopes (.cred 1) = none ∧
    (1, { issue := 60 }) ∈ ready.openedRanges 1 0 (ready.grantValue 0) ∧
    (∀ o ∈ ready.cru.ops, o.target ≠ 2) ∧ ready.disabling 2 = false ∧ ready.disabling 9 = false ∧ ready.openedRanges 2 0 (ready.grantValue 0) ≠ [] ∧
    ready.openedRanges 9 0 (ready.grantValue 0) = [] :=
  ⟨allProve_of (by decide +kernel), by decide, ⟨_, rfl, rfl⟩, by decide +kernel⟩

/-- What a command comes to. -/
def ran (c : Instr) (s : State) : State :=
  match exec c s with
  | .next t => t
  | _ => s

/-- `ready` with one failure of ADMIN, and without range 1, the only one that slot 2 opens. -/
def failed : State := { ready with cru := { ready.cru with slots := ready.cru.slots.set 0 (userSlot 0 .enabled 1 none) } }
def bare : State := entries ready 1 .disabled

/-- No range opened: ADMIN, with a failure to reset, sets user 9, and user 2 changes its own secret; the proving slot's
failures are 0 and its record is written, the target's backoff and every other slot stay, and the old values stay in force. -/
theorem witness_SetCredentialStartsItsWaves_none :
    AllProve [(cSet 9 0 0, failed, 0), (cSet 5 0 0, failed, 0), (cSet 2 0 2, bare, 2)] ∧
    (∀ q ∈ [(9, 0, failed), (5, 0, failed), (2, 2, bare)],
      let s := q.2.2
      let t := ran (cSet q.1 0 q.2.1) s
      s.openedRanges q.1 q.2.1 (s.grantValue q.2.1) = [] ∧ (t.cred q.2.1).record.failures = 0 ∧
      (t.cred q.1).record.state = .enabled ∧ (t.cred q.1).backoff = (s.cred q.1).backoff ∧
      (t.cred q.1).record.failures = (if q.2.1 = q.1 then 0 else (s.cred q.1).record.failures) ∧
      (∀ j < 10, j ≠ q.1 → j ≠ q.2.1 → t.cred j = s.cred j) ∧
      t.writesHeld.map (fun w => w.unit) = (if q.2.1 = q.1 then [.cred 2] else [.cred 0, .cred q.1]) ∧
      t.verifier q.1 = (s.cred q.1).record.verifier ∧ t.grantValue q.1 = (s.cred q.1).record.wrap) :=
  ⟨allProve_of (by decide +kernel), by decide +kernel⟩

/-- A change of slot 2's secret in a wave. -/
def changing (w : CredWave) (left : Nat) (rs : List Nat) : State :=
  { ready with cru := { ready.cru with ops := [{ target := 2, verifier := { secret := 77 }, wrap := .ofSecret 77, oldVerifier := none,
                                                 oldWrap := none, limit := none, wave := w, left := left, ranges := rs, skipped := 0, rto := dual }] } }

/-- Two writes left, the ends of the three waves, with and without a range for wave C, and a CUT_CREDENTIALS that waits. -/
theorem witness_CredentialWavesComplete :
    ready.credOp 2 = none ∧
    (∀ s ∈ [changing .a 2 [], changing .a 1 [1], changing .b 1 [1], changing .b 1 [], changing .c 1 []], s.credOp 2 ≠ none ∧ shapedB s = true) ∧
    (∀ g ∈ (changing .b 1 []).rtb.entries, g.isEnabled = true → ∀ r < 16, ∀ f ∈ (changing .b 1 []).fields r, ∀ e ∈ f.envelopes, e.wraps.length ≤ 1) ∧
    (let s := { changing .c 1 [] with wpe := (wiping { chainOf [.cutCredentials] with begun := true, waitsCreds := true }).wpe }
     (s.signal (.credWave 2)).cru.ops = [] ∧ (s.chain .normal).map (fun c => c.waitsCreds) = some true) := by decide +kernel

theorem witness_DisableAndResetWaitForTheirWrite :
    AllProve [(cReset 10 0, ready, 0), (cReset 9 0, ready, 0), (cReset 3 1, ready, 1), (cDisable 2 0 0, ready, 0), (cDisable 3 32 1, ready, 1)] ∧
    (ready.cred 9).record.state = .empty ∧ (ready.cred 3).record.state ≠ .empty ∧
    (ready.cred 2).record.state = .enabled ∧ (ready.cred 3).record.state = .blocked ∧ ready.btc.state ≠ .erased ∧
    (∀ o ∈ ready.cru.ops, o.target ≠ 2) ∧ ready.disabling 2 = false ∧ ready.disabling 3 = false := ⟨allProve_of (by decide +kernel), by decide +kernel⟩

theorem witness_SlotAndEvidenceListsShowTheirPage :
    AllPass [(.slotList short 0, ready), (.slotList short 9, ready), (.slotList short 10, limited 64)] ∧
    AllProve [(cEvidenceList 0, ready, 1), (cEvidenceList 7, limited 64, 1), (cEvidenceList 8, ready, 1)] :=
  ⟨allPass_of (by decide +kernel), allProve_of (by decide +kernel)⟩

/-- Image sizes 16384 and 16385, a state that is not BLANK, a chain in the way; an admitted one. -/
theorem witness_ProvisionIsAdmittedAndStarts :
    AllPass [(cProvision 16385 (some true) 255, fresh), (cProvision 16384 none 255, fresh), (cProvision 16384 (some true) 255, ready),
      (cProvision 0 (some false) 255, { fresh with wpe := (wiping (chainOf [.cutKeys])).wpe })] ∧
    (cProvision 16385 (some true) 255).labels fresh ∧ (cProvision 16384 (some true) 255).labels ready ∧
    (cProvision 16384 (some true) 255).labels fresh ∧ ready.btc.state ≠ .blank ∧ fresh.btc.state = .blank ∧
    fresh.btc.provisioning = none ∧ fresh.wpe.normal = none ∧ fresh.wpe.injected = none :=
  ⟨allPass_of (by decide +kernel), labels_of (by decide +kernel), labels_of (by decide +kernel), labels_of (by decide +kernel),
    by decide +kernel⟩

/-- A PROVISION whose range 0 opens through its device envelope, and one whose range does not: the custodians' values from
the two secrets, the envelopes made, and the writes counted. -/
theorem witness_ProvisionIsAdmittedAndStarts_fields :
    ∀ q ∈ [(fresh, 10), (entries fresh 0 (State.reset.entry 0), 11)],
      let t := ran (cProvision 16 (some true) 255) q.1
      passesB (cProvision 16 (some true) 255) q.1 = true ∧ labelsB (cProvision 16 (some true) 255) q.1 = true ∧
      t.writesHeld.length = q.2 ∧ t.btc.provisioning.any (fun x => x.left == q.2 && x.adminVerifier == { secret := 20 } &&
        x.adminWrap == .ofSecret 20 && x.recoveryVerifier == { secret := 21 } && x.recoveryWrap == .ofSecret 21 &&
        x.envelopes.length == 2 * (q.2 - 10)) = true := by decide +kernel

/-- A PROVISION with writes left in its waves. -/
def provisioning (second : Bool) (left : Nat) : State :=
  let p : Provisioning := {
    adminVerifier := { secret := 20 }, adminWrap := .ofSecret 20, recoveryVerifier := { secret := 21 }, recoveryWrap := .ofSecret 21
    imageSize := 16, token := none, secondWave := second, left := left
    envelopes := [(0, { holder := .cred 0, wraps := [.ofSecret 20], rak := manufactureRak, whole := true })], rto := dual }
  { fresh with btc := { fresh.btc with provisioning := some p } }

theorem witness_ProvisionTakesEffect :
    ready.btc.provisioning = none ∧
    (∀ s ∈ [provisioning false 2, provisioning false 1, provisioning true 1], s.btc.provisioning ≠ none ∧ shapedB s = true) ∧
    (provisioning true 1).fields 0 ≠ none ∧ dual.session = (provisioning true 1).lif.session := by decide +kernel

/-- Ranges 15, 16, 254 and 255; a range that opens, one that does not, a pending escalation, QUARANTINE. -/
theorem witness_UnlockOpensItsRanges :
    AllProve [(cUnlock 16 2, ready, 2), (cUnlock 254 2, ready, 2), (cUnlock 255 2, ready, 2), (cUnlock 1 2, ready, 2),
      (cUnlock 1 2, booted .quarantine, 2), (cUnlock 1 2, timed .lock, 2), (cUnlock 255 2, timed .guard, 2),
      (cUnlock 1 2, levelled .lock, 2)] ∧
    (∃ g, ready.fields 1 = some g) ∧ ready.openEnvelope 1 (.cred 2) (ready.grantValue 2) ≠ none ∧ ready.lockdown = false ∧
    (levelled .lock).lockdown = true ∧ ready.rangesWhere (fun g => listed g.readList 2 || listed g.writeList 2) = [1] ∧
    ready.openEnvelope 1 (.cred 2) (ready.grantValue 2) = some { issue := 60 } ∧
    (∀ x ∈ ready.namedSlots 1, (ready.slot x).material = some { key := { issue := 61 }, rak := { issue := 60 }, whole := true }) :=
  ⟨allProve_of (by decide +kernel), ⟨_, rfl⟩, by decide +kernel⟩

theorem witness_LockLocksItsScope :
    AllProve [(cLock 16 3 0, ready, 0), (cLock 254 1 0, ready, 0), (cLock 15 1 0, ready, 0), (cLock 0 0 0, ready, 0), (cLock 0 4 0, ready, 0),
      (cLock 0 1 0, ready, 0), (cLock 255 3 2, ready, 2), (cLock 1 2 2, ready, 2)] ∧ ready.fields 15 = none ∧ ready.fields 0 ≠ none :=
  ⟨allProve_of (by decide +kernel), by decide +kernel⟩

theorem witness_StartImageUnsealSetsTheFlag :
    AllProve [(cUnseal none 0, ready, 0), (cUnseal (some .unseal) 1, ready, 1), (cUnseal (some .reseal) 0, opened ready, 0)] ∧
    ready.btc.state = .sealed := ⟨allProve_of (by decide +kernel), by decide +kernel⟩

/-- The bounds of the target, the level, the delay, the alarm minimum and the absence threshold, on both sides; an unknown
action, and ERASED. -/
theorem witness_SettingsWaitForTheirWrite :
    AllProve [(cBind .bind, ready, 0), (cBind .unbind, ready, 0), (cEvidence 7 (evidence 3600), ready, 0), (cEvidence 0 (evidence 0), ready, 0),
      (cEvidence 255 (evidence 0), ready, 0),
      (cEvidence 255 { evidence 0 with alarmMinimum := 60, absenceThreshold := 3600 }, ready, 0)] ∧
    AllProve ((.bindPlatform (long 99) none 5 (good .bindPlatform [bindActionCode none, 5] 0), ready, 0) :: (cBind .bind, booted .erased, 0) ::
      (cEvidence 255 (evidence 0), booted .erased, 0) :: ([8, 254].map (fun n => (cEvidence n (evidence 0), ready, 0)) ++
      [{ evidence 0 with level := 0 }, { evidence 0 with level := 5 }, evidence 3601, { evidence 0 with immediate := none }].map
        (fun v => (cEvidence 7 v, ready, 0)) ++
      [{ evidence 0 with alarmMinimum := 0 }, { evidence 0 with alarmMinimum := 61 }, { evidence 0 with absenceThreshold := 9 },
        { evidence 0 with absenceThreshold := 3601 }].map (fun v => (cEvidence 255 v, ready, 0)))) ∧
    ready.btc.state ≠ .erased ∧ levelOf (evidence 0).level = some .guard :=
  ⟨allProve_of (by decide +kernel), allProve_of (by decide +kernel), by decide +kernel⟩

/-- A part with token 5 bound. -/
def bound (h : HelloStatus) : State := { ready with btc := { ready.btc with token := some 5, hello := h, window := some 30 } }

theorem witness_PlatformProvesItsToken :
    AllPass [(cHello 5, ready), (cHello 5, bound .waiting), (cHello 5, bound .failed), (cHello 6, bound .waiting),
      (.presence (long 32) (.digest 5 { issue := 3 } []), bound .passed), (.presence (long 32) (.other 0), bound .passed)] ∧
    (bound .passed).rsu.beacon = { issue := 3 } ∧ ready.btc.window = none := ⟨allPass_of (by decide +kernel), by decide +kernel⟩

theorem witness_RangeListShowsItsView :
    AllPass [(.rangeList (long 2) 1 none, ready), (.rangeList (long 2) 2 none, ready), (.rangeList (long 2) 0 none, limited 19)] ∧
    AllProve [(cRanges 15 0, ready, 0), (cRanges 16 1, ready, 1), (cRanges 0 0, limited 35, 0)] ∧ ready.plainView.length = 2 ∧
    (entries ready 2 .damaged).plainView.map (fun x => (x.number, x.status)) = [(0, 1), (1, 1), (2, 2)] ∧
    (entries ready 0 (.enabled { fieldsOne with concealed := true })).plainView.map (fun x => x.number) = [1] :=
  ⟨allPass_of (by decide +kernel), allProve_of (by decide +kernel), by decide +kernel⟩

/-- A deferred list with slot 1 prepared for range 1, and a running commit. -/
def deferred : State :=
  { staged [.newKey 1] .deferred with
    rtb := { (staged [.newKey 1] .deferred).rtb with
      staged := { edits := [.newKey 1], mark := .deferred, prepared := { slots := [(1, 1)], envelopes := [] } } } }

/-- No kind, a running commit, a deferred list, ERASED, seven and eight edits staged; a discard of each kind of list; the
fields of an edit at their bounds: ranges 15 and 16, first blocks 2^40 - 1 and 2^40, counts 2^40 and 2^40 + 1, slots 9 and
10, and an OPTIONS with and without all its values. -/
theorem witness_StagedListIsEdited :
    AllProve [(cStage { editOff with kind := none }, ready, 0), (cStage editOff, draining .shroud, 0), (cStage editOff, staged [] .deferred, 0),
      (cStage editOff, booted .erased, 0), (cStage editOff, staged (List.replicate 8 (.newKey 1)) .none, 0),
      (cStage editOff, staged (List.replicate 7 (.newKey 1)) .none, 0), (cDiscard, ready, 0), (cDiscard, draining .shroud, 0),
      (cDiscard, deferred, 0), (cDiscard, staged [] .none, 0)] ∧
    stagedEdit { editOff with kind := none } = none ∧ stagedEdit editOff = some (.disable 1) ∧
    (let e := fun r k a b l m => stagedEdit { editOff with range := r, kind := some k, first := a, count := b, readList := l, lockMode := m
                                                           concealed := some true, powerLock := some true, standbyLock := some true, reseal := some true }
     (e 15 .newKey 0 0 0 none).isSome ∧ (e 16 .newKey 0 0 0 none).isNone ∧ (e 1 .define (2 ^ 40 - 1) (2 ^ 40) 0 none).isSome ∧
     (e 1 .define (2 ^ 40) 0 0 none).isNone ∧ (e 1 .define 0 (2 ^ 40 + 1) 0 none).isNone ∧ (e 1 .access 0 0 512 none).isSome ∧
     (e 1 .access 0 0 1024 none).isNone ∧ (e 1 .options 0 0 0 (some .shroud)).isSome ∧ (e 1 .options 0 0 0 none).isNone) ∧
    (draining .shroud).rtb.commit ≠ .idle ∧ (deferred.rtb.commit = .idle ∧ (deferred.slot 1).state = .live) :=
  ⟨allProve_of (by decide +kernel), by decide +kernel⟩

/-- Range 1 with its key lost, under a job that sweeps it. -/
def lostOne : State :=
  { queued .sweeping with rtb := { ready.rtb with entries := ready.rtb.entries.set 1 (.enabled { fieldsOne with keyLost := true }) } }

/-- The outcome of a validation: the status and its detail, if it fails. -/
def refusedWith (s : State) (es : List Edit) : Option (Status × List Nat) :=
  match s.validate es with
  | .error q => some q
  | .ok _ => none

/-- The bounds of a DEFINE before range 1 (blocks 100 to 199) and the capacity, a range that is busy, a busy one that is
repaired, an EMPTY credential slot, and a list that needs more keys than there are EMPTY slots. -/
theorem witness_ListIsValidated :
    refusedWith ready [.define 2 99 1] = none ∧ refusedWith ready [.define 2 99 2] = some (.invalidLayout, [0]) ∧
    refusedWith ready [.disable 3, .define 2 199 1] = some (.invalidLayout, [1]) ∧ refusedWith ready [.define 2 200 1] = none ∧
    refusedWith ready [.define 2 999 1] = none ∧ refusedWith ready [.define 2 999 2] = some (.invalidLayout, [0]) ∧
    refusedWith ready [.define 0 1 1] = some (.invalidLayout, [0]) ∧ refusedWith ready [.disable 0] = some (.invalidLayout, [0]) ∧
    refusedWith ready [.newKey 9] = some (.invalidLayout, [0]) ∧ refusedWith ready [.access 1 64 0] = some (.invalidLayout, [0]) ∧
    refusedWith (queued .sweeping) [.newKey 1] = some (.rangeBusy, [0]) ∧ refusedWith (queued .queued) [.newKey 1] = none ∧
    refusedWith lostOne [.newKey 1, .disable 1] = none ∧
    refusedWith { ready with kst := { ready.kst with slots := List.replicate 24 { KeySlot.blank with state := .live } } } [.newKey 1] =
      some (.noKeySlot, []) ∧ (entries ready 0 .damaged).entry 0 = .damaged := by decide +kernel

/-- A draining commit, a deferred list, a CUT_KEYS under way, QUARANTINE, level LOCK, an empty list, a list that is not
valid; a valid list that ADMIN opens, with and without defer, and one that ADMIN does not open; a defer that is neither. -/
theorem witness_RangeCommitIsCheckedAndAccepted :
    AllProve [(cCommit false, draining .shroud, 0), (cCommit true, deferred, 0),
      (cCommit false, wiping { chainOf [.cutKeys] with begun := true }, 0), (cCommit false, booted .quarantine, 0),
      (cCommit false, levelled .lock, 0), (cCommit false, levelled .guard, 0), (cCommit true, ready, 0),
      (cCommit false, staged [.newKey 9] .none, 0), (cCommit false, staged [.newKey 1] .none, 0), (cCommit true, staged [.newKey 1] .none, 0),
      (.rangeCommit short none (good .rangeCommit [flagCode none] 0), ready, 0)] ∧
    affectedSet [.define 3 1 1, .newKey 1, .access 2 0 0] = [0, 1, 3] ∧ affectedSet [.newKey 15] = [15] ∧
    refusedWith (staged [.newKey 9] .none) [.newKey 9] ≠ none ∧ (staged [.newKey 1] .none).commitRefusal = none ∧
    refusedWith (staged [.newKey 1] .none) [.newKey 1] = none ∧
    (staged [.newKey 1] .none).workingRaks ((staged [.newKey 1] .none).grantValue 0) (namedRanges [.newKey 1]) =
      some [(1, { issue := 60 })] ∧
    (staged [.newKey 1] .none).workingRaks none (namedRanges [.newKey 1]) = none :=
  ⟨allProve_of (by decide +kernel), by decide +kernel⟩

/-- A draining commit with a context of its set OPEN, one without, and none draining. -/
theorem witness_DrainEndsInWriting :
    (draining .clear).rtb.commit = .draining [0] 5 [] dual ∧
    (∃ x, ((draining .clear).ctx 0).xfer = some x ∧ x.inRanges [0] = true ∧ x.rto.session = (draining .clear).lif.session) ∧
    (∀ c < 16, ({ draining .clear with dpu := DataPath.blank }.ctx c).xfer = none) ∧ ready.rtb.commit = .idle :=
  ⟨rfl, ⟨_, rfl, rfl, rfl⟩, by decide +kernel, rfl⟩

/-- A drained commit of a list that ADMIN opens. -/
def installing (es : List Edit) (s : State) : State :=
  { s with rtb := { s.rtb with staged := { StagedList.blank with edits := es }, commit := .draining [] 5 [(1, { issue := 60 })] dual } }

/-- Range 2 has lost its key and still names slot 1, which holds range 1's. -/
def stale : State :=
  entries (opened ready) 2 (.enabled { fieldsOne with bounds := some { first := 500, count := 5 }, keyLost := true })

/-- Lists that enable a range, give range 1 a new key, disable it, and turn its power_lock off; a repair of range 1 under
its job; a new key for range 1 while range 2 names its slot; queued jobs of a DAMAGED range that the list does not name,
and of one that it repairs. -/
theorem witness_CommitInstallsItsList :
    (∀ es ∈ [[Edit.define 2 300 10, .newKey 1], [.disable 1], [.options 1 .refuse false false false false]],
      let s := installing es (opened ready)
      shapedB s = true ∧ s.lockdown = false ∧ (s.plan es).needKeys.length ≤ s.poolCount .empty ∧
      s.enabledRanges = [0, 1] ∧ (∀ x ∈ s.namedSlots 1,
        (s.slot x).material = some { key := { issue := 61 }, rak := { issue := 60 }, whole := true })) ∧
    (lostOne.activeJob = some (job .sweeping) ∧ 1 ∈ ((installing [.newKey 1] lostOne).plan [.newKey 1]).repaired) ∧
    (let t := (installing [.newKey 1] stale).enterWriting
     1 ∈ stale.namedSlots 1 ∧ 1 ∈ t.namedSlots 2 ∧ (t.slot 1).state = .retiring) ∧
    (let s := entries (queued .queued) 1 .damaged
     (installing [.define 2 300 10] s).enterWriting.rke.queue = [job .queued] ∧ (installing [.disable 1] s).enterWriting.rke.queue = []) := by
  decide +kernel

/-- The changed ranges and the retired slots of a commit: a new key, a DISABLE, options that change, and the same options. -/
theorem test_commit_names_its_second_wave :
    ∀ p ∈ [([Edit.define 2 300 10, .newKey 1], [1, 2], [1]), ([.disable 1], [1], [1]),
           ([.options 1 .shroud false false false false], [1], []), ([.options 1 .refuse false false true false], [], [])],
      let s := installing p.1 (opened ready)
      let t := s.enterWriting
      (match t.rtb.commit with
        | .writing _ w _ c d _ _ => w == 1 && c == p.2.1 && d == p.2.2
        | _ => false) = true ∧
      (∀ r < 16, r ∈ p.2.1 ↔ (t.entry r).stored ≠ (s.entry r).stored) ∧
      (∀ k < 23, k ∈ p.2.2 ↔ (s.slot k).state = .live ∧ (t.slot k).state = .retiring) := by decide +kernel

/-- A commit in a wave with writes left, and a deferred or a start-up's commit whose writes complete. -/
def writing (w left : Nat) (changed retired : List Nat) (resealed : Bool) : State :=
  { ready with rtb := { ready.rtb with commit := .writing [1] w left changed retired resealed dual } }
def preparing (left : Nat) : State := { ready with rtb := { ready.rtb with preparing := [{ left := left, rto := dual }] } }
def starting (left : Nat) (last : Bool) : State :=
  { ready with rtb := { ready.rtb with startCommit := some { left := left, last := last } } }

theorem witness_CommitWavesComplete :
    ready.rtb.commit = .idle ∧ (writing 1 2 [1] [1] true).rtb.commit = .writing [1] 1 2 [1] [1] true dual ∧
    (writing 1 1 [1] [1] false).rtb.commit = .writing [1] 1 1 [1] [1] false dual ∧
    (writing 1 1 [] [] false).rtb.commit = .writing [1] 1 1 [] [] false dual ∧ dual.session = ready.lif.session ∧
    (∀ n ∈ [1, 2], (preparing n).rtb.preparing.find? (fun x => x.rto == dual) = some { left := n, rto := dual }) ∧
    (∀ n ∈ [1, 2], ∀ b ∈ [false, true], (starting n b).rtb.startCommit = some { left := n, last := b }) := by decide +kernel

/-- Counts 0, 1, 256 and 257, directions 1 and 2, STANDBY, ERASED, the capacity, a span over the end of the image, a
write with and without the unsealed flag, all contexts OPEN. -/
theorem witness_XferOpenIsCheckedAndServesOverlay :
    AllPass [(cOpen 0 0 0, ready), (cOpen 0 0 1, ready), (cOpen 0 0 256, ready), (cOpen 0 0 257, ready), (cOpen 2 0 1, ready),
      (cOpen 1 0 16, ready), (cOpen 0 (2 ^ 40) 1, ready), (cOpen 0 999 2, ready), (cOpen 0 15 2, ready), (cOpen 0 0 16, full),
      (cOpen 1 0 1, booted .erased), (cOpen 0 16 1, booted .erased), (cOpen 0 15 1, booted .erased),
      (cOpen 0 0 1, { ready with sst := { ready.sst with power := .standby } }),
      (cOpen 1 0 16, { ready with btc := { ready.btc with unsealed := true } })] ∧ Shaped ready ∧
    (∀ k < 16, (full.ctx k).xfer ≠ none) ∧ (ready.ctx 0).xfer = none ∧ ready.btc.state = .sealed :=
  ⟨allPass_of (by decide +kernel), shaped_of (by decide +kernel), by decide +kernel⟩

/-- The clauses of an open of range 0 or 1 outside the overlay: the boundary of range 1 from both sides, a damaged entry, a
draining range, a lost key, locked ranges of both modes, a range that is not loaded. -/
def unlocked : RangeFields := { fieldsOne with readLocked := false, writeLocked := false }
def loaded (s : State) : State := { s with kst := { s.kst with loads := s.kst.loads.set 1 (.loaded { issue := 60 }) } }

theorem witness_XferOpenLooksUpItsRange :
    AllPass [(cOpen 0 99 2, ready), (cOpen 0 100 100, ready), (cOpen 1 199 2, ready), (cOpen 0 200 1, ready)] ∧ Shaped ready ∧
    ready.rangeOf 99 = 0 ∧ ready.rangeOf 100 = 1 ∧ ready.rangeOf 199 = 1 ∧ ready.rangeOf 200 = 0 ∧
    (entries ready 5 .damaged).entry 5 = .damaged ∧ 0 ∈ (draining .clear).affected ∧
    (entries ready 1 (.enabled { fieldsOne with keyLost := true })).fields 1 = some { fieldsOne with keyLost := true } ∧
    ready.underChunk 1 100 100 = false ∧ (fieldsOne.readLocked = true ∧ fieldsOne.lockMode = .refuse) ∧
    (entries ready 1 (.enabled { fieldsOne with lockMode := .shroud })).fields 1 = some { fieldsOne with lockMode := .shroud } ∧
    ((entries ready 1 (.enabled unlocked)).load 1 = .notLoaded) ∧
    ((loaded (entries ready 1 (.enabled unlocked))).load 1 = .loaded { issue := 60 } ∧
      ((loaded (entries ready 1 (.enabled unlocked))).slot unlocked.keySlot).state = .live) ∧
    (let g := { unlocked with split := some { newKey := 2, watermark := 150 } }
     (loaded (entries ready 1 (.enabled g))).fields 1 = some g ∧ 100 + 50 ≤ 150 ∧ 150 ≤ 150 ∧ ¬(149 + 2 ≤ 150) ∧
     ((loaded (entries ready 1 (.enabled g))).slot 2).state ≠ .live) ∧
    (reading.underChunk 1 99 1 = false ∧ reading.underChunk 1 99 2 = true ∧ reading.underChunk 1 131 1 = true ∧
      reading.underChunk 1 132 1 = false ∧ judged.underChunk 1 199 1 = true ∧ judged.underChunk 0 200 1 = false) :=
  ⟨allPass_of (by decide +kernel), shaped_of (by decide +kernel), by decide +kernel⟩

/-- Contexts 15 and 16, indices 255 and 256, a FREE context, another generation, another index, the next index, and an ended count. -/
theorem witness_XferBlockIsTakenInOrder :
    AllPass [(cBlock 15 0 255, ready), (cBlock 16 0 0, ready), (cBlock 0 1 256, ready), (cBlock 0 2 1, streaming .clear), (cBlock 0 1 0, streaming .clear),
      (cBlock 0 1 1, streaming .clear), (cBlock 0 1 1, streaming .shroud), (cBlock 0 1 1, streaming .overlay)] ∧
    ((streaming .clear).ctx 0).xfer = some (xfer .clear) ∧ ((streaming .clear).ctx 0).generation = 1 ∧ Shaped (streaming .clear) ∧
    (∀ w ∈ [301, 302], let s := entries (streaming .clear) 0 (.enabled { fieldsOne with split := some { newKey := 2, watermark := w } })
      (s.fields 0).isSome = true ∧ (xfer .clear).range = some 0 ∧ s.blockSlot 0 301 = if w = 302 then 2 else 1) ∧
    ((streaming .clear).slot 0).copy ≠ none ∧ ((streaming .clear).slot 23).copy ≠ none :=
  ⟨allPass_of (by decide +kernel), by decide +kernel, by decide +kernel, shaped_of (by decide +kernel), by decide +kernel⟩

theorem witness_XferCloseFreesItsContext :
    AllPass [(cClose 15 0, ready), (cClose 16 0, ready), (cClose 0 1, streaming .clear), (cClose 0 2, streaming .clear)] ∧
    ((streaming .clear).ctx 0).xfer = some (xfer .clear) ∧ (streaming .clear).inFlight 0 1 = false ∧ Shaped (streaming .clear) :=
  ⟨allPass_of (by decide +kernel), by decide +kernel, by decide +kernel, shaped_of (by decide +kernel)⟩

/-- Context 0 is the last user of slot 1, in a key state, of range 1, which is RELEASING. -/
def lastUser (st : KeyState) : State :=
  let s := streaming .clear
  { s with
    dpu := { s.dpu with contexts := s.dpu.contexts.set 0 { generation := 1, xfer := some { xfer .clear with keyRefs := [1] } } }
    kst := { s.kst with
      slots := s.kst.slots.modify 1 (fun x => { x with state := st, users := 1, copy := some { issue := 61 } })
      loads := s.kst.loads.set 1 (.releasing { issue := 60 }) } }

/-- The last reference of a RETIRING slot ends and its erasure is placed; that of a RELEASING range, and it is NOT_LOADED. -/
theorem witness_XferCloseFreesItsContext_references :
    AllPass [(cClose 0 1, lastUser .retiring), (cClose 0 1, lastUser .live)] ∧
    (∀ st ∈ [KeyState.retiring, .live], let s := lastUser st
      (s.slot 1).state = st ∧ (s.slot 1).erasing = false ∧ (s.slot 1).users = 1 ∧ (s.slot 1).owner = some 1 ∧
      s.load 1 = .releasing { issue := 60 } ∧ s.kst.hold = none ∧ s.namedSlots 1 = [1] ∧ (s.ctx 0).generation = 1) ∧
    (let t := (match exec (cClose 0 1) (lastUser .retiring) with
      | .next v => v
      | _ => ready)
     (t.slot 1).erasing = true ∧ (t.slot 1).copy = none ∧ t.load 1 = .notLoaded) :=
  ⟨allPass_of (by decide +kernel), by decide +kernel, by decide +kernel⟩

/-- A block that waits for a core or holds core 0, and a transform of the sweep. -/
def flight (st : CoreStage) : Flight :=
  { context := 0, generation := 1, index := 0, direction := .read, key := some { issue := 2 }, tweak := 300, data := .zeros, stage := st
    rto := { channel := .data, tag := 9, session := 1 } }
def work (st : CoreStage) : SweepWork :=
  { chunk := 1, position := 0, oldKey := { issue := 61 }, newKey := { issue := 62 }, tweak := 100, data := .zeros, stage := st }
def crypting (fs : List Flight) (ws : List SweepWork) (l : CoreSide) : State :=
  { streaming .clear with dpu := { (streaming .clear).dpu with flights := fs, lastSide := l }, rke := { reading.rke with work := ws } }

theorem witness_CoresServeBothSides :
    (ready.dataWaits = false ∧ ready.sweepWaits = false) ∧
    (let s := crypting [flight .waiting] [work .waiting] .rekey
     s.coreBusy 0 = false ∧ s.dataWaits = true ∧ s.sweepWaits = true ∧ s.dpu.lastSide = .rekey) ∧
    (let s := crypting [flight .waiting] [work .waiting] .dataPath
     s.sweepWaits = true ∧ s.dpu.lastSide = .dataPath) ∧
    (let s := crypting [flight (.inCore 0)] [] .rekey
     s.rke.work.find? (fun w => w.stage == .inCore 0) = none ∧ (flight (.inCore 0)).rto.session = s.lif.session) ∧
    (crypting [] [work (.inCore 3)] .rekey).rke.work.find? (fun w => w.stage == .inCore 3) = some (work (.inCore 3)) ∧
    ((work (.inCore 3)).chunk = reading.rke.chunk ∧ { work (.inCore 3) with chunk := 0 }.chunk ≠ reading.rke.chunk) := by
  decide +kernel

/-- A completed block behind one of its grant that is still in a core stays, with what is owed on its context; once
that one completes, both leave in order and the owed reply follows them. A buffer of one block becomes full. -/
theorem test_replies_leave_in_order :
    let late := { flight .done with index := 1, key := none }
    let owed : Owed := { context := 0, generation := 1, body := .status .ok [2], rto := { channel := .data, tag := 9, session := 1 } }
    let s := { crypting [flight (.inCore 0), late] [] .rekey with
      dpu := { (crypting [flight (.inCore 0), late] [] .rekey).dpu with owed := [owed] } }
    (s.transformDone 1).dpu = s.dpu ∧ (s.transformDone 1).sent = s.sent ∧ (s.transformDone 0).dpu.flights = [] ∧
    (s.transformDone 0).dpu.owed = [] ∧ (s.transformDone 0).sent.map (fun f => f.body) =
      [.block 0 1 0 (decipher { issue := 2 } 300 .zeros), .block 0 1 1 .zeros, .status .ok [2]] ∧
    ({ crypting [] [work (.inCore 3)] .rekey with rke := { reading.rke with
        n := 1, buffer := [none], todo := [], work := [work (.inCore 3)] } }.transformDone 3).rke.todo =
      [.scratch 0] := by decide +kernel

/-- Ranges 15 and 16 and one that is not ENABLED, a lost key, a range queued twice, a full queue, a queued range; a head
that is QUEUED, PAUSED, FAULTED and SWEEPING. -/
theorem witness_RekeyRequestsMoveTheQueue :
    AllProve [(cQueue 16, opened ready, 0), (cQueue 15, opened ready, 0), (cQueue 1, booted .quarantine, 0), (cQueue 1, opened ready, 0),
      (cQueue 1, queued .queued, 0), (cQueue 0, opened ready, 0),
      (cQueue 1, { opened ready with rke := { ready.rke with queue := List.replicate 8 { job .queued with range := 0 } } }, 0),
      (cResume 16, opened ready, 0), (cResume 1, queued .sweeping, 0), (cResume 1, queued .queued, 0), (cResume 1, queued .paused, 0),
      (cResume 1, queued .faulted, 0)] ∧
    (opened ready).fields 15 = none ∧ (∃ g, ready.fields 1 = some g ∧ g.keyLost = false) ∧
    ready.openEnvelope 1 (.cred 0) (ready.grantValue 0) = some { issue := 60 } ∧ (queued .paused).headJob = some (job .paused) ∧
    (queued .queued).headJob = some (job .queued) ∧ (queued .queued).load 1 = .notLoaded ∧
    (∀ x ∈ (queued .paused).namedSlots 1, ((queued .paused).slot x).state = .live →
      ((queued .paused).slot x).material = some { key := { issue := 61 }, rak := { issue := 60 }, whole := true }) :=
  ⟨allProve_of (by decide +kernel), by decide +kernel, ⟨_, rfl, rfl⟩, by decide +kernel⟩

theorem witness_RekeyJobStarts :
    (let s := queued .queued
     s.headJob = some (job .queued) ∧ s.rke.seq = none ∧ s.sst.power = .active ∧ s.rsu.level.number < 2 ∧ s.rtb.commit = .idle ∧
     s.kst.reservation < s.poolCount .empty ∧ s.fields 1 = some fieldsOne ∧ (s.slot fieldsOne.keySlot).state = .live ∧
     s.load 1 = .notLoaded ∧ (s.slot fieldsOne.keySlot).owner = some 1 ∧ (job .queued).copy = some { issue := 60 } ∧
     (∀ x ∈ s.namedSlots 1, (s.slot x).state = .live →
       (s.slot x).material = some { key := { issue := 61 }, rak := { issue := 60 }, whole := true })) ∧
    (loaded (queued .queued)).load 1 = .loaded { issue := 60 } ∧ ready.headJob = none ∧ Shaped (queued .queued) ∧
    ((queued .queued).load 1 = .notLoaded ∧ (queued .queued).intactUnder 1 { issue := 60 }) ∧
    (let s := { queued .queued with kst := { ready.kst with loads := ready.kst.loads.set 1 (.releasing { issue := 60 }) } }
     (s.load 1).rak? = some { issue := 60 } ∧ (s.slot 1).state = .live) :=
  ⟨by decide +kernel, by decide +kernel, by decide +kernel, shaped_of (by decide +kernel),
    ⟨by decide +kernel, by intro f k h; revert f k; decide +kernel⟩, by decide +kernel⟩

/-- A job at its first block, one with a short last chunk, one at the end of its range, and a claimed chunk. -/
theorem witness_ChunksAreFormedAndClaimed :
    Shaped (sweeping 100) ∧ (let s := sweeping 100
     s.headJob = some (job .sweeping) ∧ s.rke.seq = none ∧ s.rke.phase = .idle ∧ s.lif.started = true ∧ s.rtb.commit = .idle ∧
     s.rke.recovery = .none ∧ s.rke.resuming = false ∧
     s.fields 1 = some { fieldsOne with split := some { newKey := 2, watermark := 100 } }) ∧
    (sweeping 100).nextChunk 1 100 = (100, 32) ∧ (sweeping 199).nextChunk 1 199 = (199, 1) ∧ (sweeping 200).nextChunk 1 200 = (200, 0) ∧
    ready.nextChunk 0 90 = (90, 10) ∧ ready.nextChunk 0 100 = (200, 32) ∧ ready.nextChunk 0 1000 = (1000, 0) ∧ ready.headJob = none ∧
    (let s := { sweeping 100 with rke := { (sweeping 100).rke with phase := .claiming, first := 100, n := 32 } }
     s.rke.phase = .claiming ∧ ∀ c < 16, (s.ctx c).xfer = none) :=
  ⟨shaped_of (by decide +kernel), by decide +kernel⟩

/-- The job of range 1 under its hold, its sweep at a watermark: slot 1 in a key state, slot 2 LIVE, one user each. -/
def underHold (st : KeyState) (watermark : Nat) : State :=
  let s := loaded (sweeping watermark)
  let used := fun (st : KeyState) (x : KeySlot) => { x with state := st, owner := some 1, users := 1, copy := some { issue := 61 } }
  { s with kst := { s.kst with
      slots := (s.kst.slots.modify 1 (used st)).modify 2 (used .live), hold := some { range := 1, oldKey := 1, newKey := 2 } } }

/-- At the end of the range the hold ends: its old slot's last user goes and the slot is erased, and the range, locked both
ways, is NOT_LOADED. -/
theorem witness_ChunksAreFormedAndClaimed_hold :
    Shaped (underHold .live 200) ∧ (underHold .live 200).kst.hold = some { range := 1, oldKey := 1, newKey := 2 } ∧
    ((underHold .live 200).slot 1).owner = some 1 ∧ ((underHold .live 200).slot 2).owner = some 1 ∧
    (underHold .live 200).nextChunk 1 200 = (200, 0) ∧ (underHold .live 200).headJob = some (job .sweeping) ∧
    (let t := (underHold .live 200).chunkForm
     t.kst.hold = none ∧ (t.slot 1).state = .retiring ∧ (t.slot 1).users = 0 ∧ (t.slot 2).users = 0 ∧ t.load 1 = .notLoaded) :=
  ⟨shaped_of (by decide +kernel), by decide +kernel⟩

/-- The engine's writes of the job of range 1 under way at one step, of its start or its completion. -/
def sequenced (q : RekeySeq) (f : Option FinishedJob) (left : Nat) : State :=
  { sweeping 100 with rke := { (sweeping 100).rke with seq := some q, finished := f, seqLeft := left } }
def ended (silent : Bool) : Option FinishedJob := some { range := 1, serial := 1, watermark := 200, silent := silent }

/-- Every step of the writes; a STAGED and a closing chunk, the whole range held or not; the states a recovered job is
settled from; a resumption that is the latest, and one that is not. -/
theorem witness_RekeyWritesComplete :
    (∀ q ∈ [RekeySeq.startKey, .startQueue, .startProgress, .startRange],
      (sequenced q none 0).rke.seq = some q ∧ (sequenced q none 0).headJob = some (job .sweeping) ∧ (job .sweeping).serial = some 1) ∧
    (∀ q ∈ [RekeySeq.doneRecords, .doneProgress, .doneQueue], ∀ n ∈ [1, 2], ∀ b ∈ [false, true],
      (sequenced q (ended b) n).rke.seq = some q ∧ (sequenced q (ended b) n).rke.finished = ended b) ∧
    (∀ b ∈ [false, true], let s := { copying with rke := { copying.rke with closing := true, rangeHeld := b } }
      s.rke.chunk = copying.rke.chunk ∧ s.headJob = some (job .sweeping)) ∧
    (judged.rke.rangeHeld = true ∧ judged.activeJob = some (job .sweeping) ∧ (judged.slot 2).state = .empty ∧
      (loaded judged).load 1 = .loaded { issue := 60 }) ∧ ready.rke.rangeHeld = false ∧ ready.rke.resumption ≠ 1 ∧
    ((resumed (.releasing { issue := 60 })).kst.hold ≠ none ∧ (∀ k ∈ [1, 2], (resumed .notLoaded).owns 1 k = true ∧
      ((resumed .notLoaded).slot k).state = .live)) := by decide +kernel

/-- A job that was resumed while its scratch header was judged keeps its hold and sweeps on when its range has become
RELEASING meanwhile (R106, log 39). -/
theorem test_resumed_job_keeps_its_hold :
    let s := resumed (.releasing { issue := 60 })
    (s.signal .rekeyRecovered).headState = some .sweeping ∧ (s.signal .rekeyRecovered).kst = s.kst := by decide +kernel

/-- A job of range 1 in a state, its sweep at block 150 and its scratch chunk kept, its key slots 1 and 2 LIVE, slot 2 with
sound material and slot 1 as named; a CLEAR context of range 1 is OPEN. -/
def stopped (st : JobState) (whole : Bool) : State :=
  let m : Material := { key := { issue := 61 }, rak := { issue := 60 }, whole := whole }
  let live := fun (m : Material) => { KeySlot.blank with state := .live, owner := some 1, material := some m }
  let s := sweeping 150
  { s with
    rke := { copying.rke with queue := [job st] }
    kst := { s.kst with slots := (s.kst.slots.set 1 (live m)).set 2 (live { m with key := { issue := 62 }, whole := true }) }
    dpu := { s.dpu with contexts := s.dpu.contexts.set 0 { generation := 1, xfer := some { xfer .clear with range := some 1 } } } }

/-- The material of slot 1 is found damaged. -/
theorem stopped_damaged (st : JobState) : ¬ (stopped st false).intactUnder 1 { issue := 60 } := by
  intro h
  obtain ⟨m, e, w, _⟩ := h 1 (by cases st <;> decide +kernel) (by cases st <;> decide +kernel) (by cases st <;> decide +kernel)
  have : (stopped st false).slot 1 = { KeySlot.blank with state := .live, owner := some 1, material := some { key := { issue := 61 }, rak := { issue := 60 }, whole := false } } := by
    cases st <;> decide +kernel
  rw [this] at e; cases e; cases w

/-- The material of both slots is sound. -/
theorem stopped_intact (st : JobState) : (stopped st true).intactUnder 1 { issue := 60 } := by
  have : ∀ x ∈ (stopped st true).namedSlots 1, ∃ n, (stopped st true).slot x = { KeySlot.blank with
      state := .live, owner := some 1, material := some { key := { issue := n }, rak := { issue := 60 }, whole := true } } := by
    intro x hx
    have hx : x = 1 ∨ x = 2 := by
      revert x; cases st <;> decide +kernel
    rcases hx with rfl | rfl
    · exact ⟨61, by cases st <;> decide +kernel⟩
    · exact ⟨62, by cases st <;> decide +kernel⟩
  intro x hx _ _
  obtain ⟨n, e⟩ := this x hx
  exact ⟨_, by rw [e], rfl, rfl⟩

/-- An UNLOCK of range 1 with sound keys, which resumes its PAUSED job, and with a damaged one; the load that finds it. -/
theorem witness_UnlockOpensItsRanges_load :
    AllProve [(cUnlock 1 2, stopped .paused true, 2), (cUnlock 1 2, stopped .paused false, 2)] ∧
    (∀ b ∈ [false, true], let s := stopped .paused b
      s.lockdown = false ∧ s.load 1 = .notLoaded ∧ s.fields 1 = some { fieldsOne with split := some { newKey := 2, watermark := 150 } } ∧
      s.openEnvelope 1 (.cred 2) (s.grantValue 2) = some { issue := 60 } ∧ s.headJob = some (job .paused) ∧
      s.activeJob = some (job .paused) ∧ s.rke.finished = none ∧ s.rke.recovery ≠ .header ∧
      ∀ x ∈ s.namedSlots 1, (s.slot x).state = .live ∧ s.owns 1 x = true) ∧
    (¬ (stopped .paused false).intactUnder 1 { issue := 60 } ∧ (stopped .paused true).intactUnder 1 { issue := 60 }) :=
  ⟨allProve_of (by decide +kernel), by decide +kernel, stopped_damaged _, stopped_intact _⟩

/-- R36, R94, R109: a load that finds a key damaged; R33, R107: one that does not. -/
theorem test_loads_of_range_one :
    (let t := ((stopped .paused false).loadRange 1 (some { issue := 60 })).1
     t.slot 1 = .blank ∧ (t.ctx 0).xfer = none ∧ (t.fields 1).map (fun g => g.keyLost) = some true ∧ t.headState = some .faulted ∧
     t.kst.hold = none ∧ t.load 1 = .loaded { issue := 60 } ∧ (t.slot 2).copy = some { issue := 62 }) ∧
    (let t := ((stopped .paused true).loadRange 1 (some { issue := 60 })).1
     (t.slot 1).copy = some { issue := 61 } ∧ (t.ctx 0).xfer ≠ none ∧ t.headState = some .sweeping ∧
     t.kst.hold = some { range := 1, oldKey := 1, newKey := 2 }) := by decide +kernel

/-- A LOCK both ways of a range with its hold and users, and of one without, LOADED and RELEASING. -/
theorem witness_LockLocksItsScope_unloads :
    AllProve [(cLock 1 3 0, underHold .live 150, 0), (cLock 255 3 0, loaded ready, 0)] ∧
    ((underHold .live 150).kst.hold = some { range := 1, oldKey := 1, newKey := 2 } ∧
      ((underHold .live 150).load 1).rak? = some { issue := 60 } ∧
      ((underHold .live 150).lockRange true true 1).load 1 = .releasing { issue := 60 }) ∧
    (let s := loaded ready
     s.kst.hold = none ∧ (∀ x ∈ s.namedSlots 1, (s.slot x).users = 0) ∧ (s.load 1).rak? = some { issue := 60 } ∧
     (s.lockRange true true 1).load 1 = .notLoaded ∧ (s.lockRange true false 0).load 0 = s.load 0) :=
  ⟨allProve_of (by decide +kernel), by decide +kernel, by decide +kernel⟩

/-- A REKEY_RESUME of a kept chunk with a request to issue, PAUSED, FAULTED and LOADED, and of a range with a damaged key,
QUEUED, PAUSED and FAULTED. -/
theorem witness_RekeyRequestsMoveTheQueue_load :
    AllProve ([JobState.queued, .paused, .faulted].map (fun j => (cResume 1, stopped j false, 0)) ++
      [(cResume 1, stopped .queued true, 0), (cResume 1, stopped .paused true, 0), (cResume 1, loaded (stopped .faulted true), 0)]) ∧
    (∀ j ∈ [JobState.queued, .paused, .faulted], ∀ b ∈ [false, true], let s := stopped j b
      s.headJob = some (job j) ∧ (s.fields 1).map (fun g => g.keyLost) = some false ∧ s.load 1 = .notLoaded ∧
      s.openEnvelope 1 (.cred 0) (s.grantValue 0) = some { issue := 60 } ∧ s.rke.todo.head? = some (.read 0) ∧
      s.staleScratch = false) ∧
    (∀ j, ¬ (stopped j false).intactUnder 1 { issue := 60 } ∧ (stopped j true).intactUnder 1 { issue := 60 }) ∧
    (∀ j ∈ [JobState.paused, .faulted], let t := (stopped j true).resumeHead 1 { issue := 60 } dual
      t.headState = some .sweeping ∧ t.sweepRequest = some (.read 0) ∧ t.kst.hold = some { range := 1, oldKey := 1, newKey := 2 }) ∧
    (∀ j ∈ [JobState.queued, .paused, .faulted],
      (((stopped j false).resumeHead 1 { issue := 60 } { channel := .control, tag := 7, session := (stopped j false).lif.session }).lastFrame.map
        (fun x => x.body)) = some (.status .keyLost [])) :=
  ⟨allProve_of (by decide +kernel), by decide +kernel, fun j => ⟨stopped_damaged j, stopped_intact j⟩, by decide +kernel, by decide +kernel⟩

/-- The part of a paused job of range 1 at a level from GUARD, power_lock of range 1 off, with its device envelope, or on. -/
def escalated (l : Level) (locked whole : Bool) : State :=
  let s := stopped .paused whole
  let g : RangeFields := { fieldsOne with
    split := some { newKey := 2, watermark := 150 }, powerLock := locked
    envelopes := { holder := .device, wraps := [.device], rak := { issue := 60 }, whole := true } :: fieldsOne.envelopes }
  { entries s 1 (.enabled g) with rsu := { s.rsu with level := l } }

/-- At GUARD and LOCK: range 1 with power_lock off, whose keys are sound, or damaged, and with power_lock on, neither under a
hold nor RELEASING. -/
theorem witness_ResponseClearCalms_loads :
    AllProve ([Level.guard, .lock].flatMap (fun l =>
      [(cClear, escalated l false true, 0), (cClear, escalated l false false, 0), (cClear, escalated l true true, 0)])) ∧
    (∀ l ∈ [Level.guard, .lock], ∀ b ∈ [false, true], let s := escalated l b true
      s.rsu.level = l ∧ (s.fields 1).map (fun g => g.powerLock) = some b ∧ s.load 1 = .notLoaded ∧ s.kst.hold = none ∧
      s.openEnvelope 1 .device (some .device) = some { issue := 60 } ∧
      s.rangesWhere (fun g => !g.powerLock) = (if b then [0] else [0, 1]) ∧
      (∀ r < 16, ∀ x ∈ s.namedSlots r, (s.slot x).state = .live →
        ∀ k ∈ s.openEnvelope r .device (some .device), ∃ m ∈ (s.slot x).material, m.whole = true ∧ m.rak = k)) ∧
    (let t := (escalated .lock false true).calmed.reopenAll
     (t.load 1).rak? = some { issue := 60 } ∧ t.headState = some .sweeping ∧ (t.fields 1).map (fun g => g.readLocked) = some false) ∧
    (let t := (escalated .lock true true).calmed.reopenAll
     t.load 1 = .notLoaded ∧ t.headState = some .paused ∧ t.entry 1 = (escalated .lock true true).entry 1) :=
  ⟨allProve_of (by decide +kernel), by decide +kernel, by decide +kernel, by decide +kernel⟩

theorem witness_ResponseClearCalms :
    AllProve [(cClear, levelled .purge, 0), (cClear, levelled .erase, 0), (cClear, ready, 0), (cClear, timed .lock, 0),
      (cClear, levelled .guard, 0), (cClear, levelled .lock, 0)] ∧
    (ready.rsu.level = .calm ∧ ready.rsu.timer = none) ∧ (timed .lock).rsu.timer ≠ none := ⟨allProve_of (by decide +kernel), by decide +kernel⟩

/-- `ready` with source 5 enabled, under a delay, and with a timer that runs. -/
def orderly (delay : Nat) (timer : Option Timer) : State :=
  { ready with rsu := { ready.rsu with
      settings := ready.rsu.settings.set 5 { Setting.blank with enabled := true, delay := delay }, timer := timer } }

/-- Levels 0, 1, 4 and 5, with source 5 disabled and enabled; without a delay from CALM and from LOCK, and with one: no
timer, a lower, an equal and a higher pending level. -/theorem witness_RemoteOrderIsAnArrival :
    AllProve [(cOrder 0, ready, 1), (cOrder 5, ready, 1), (cOrder 1, ready, 1), (cOrder 1, orderly 0 none, 1), (cOrder 4, orderly 0 none, 1),
      (cOrder 2, { orderly 0 none with rsu := { (orderly 0 none).rsu with level := .lock } }, 1), (cOrder 3, orderly 9 none, 1),
      (cOrder 3, orderly 9 (timed .guard).rsu.timer, 1), (cOrder 3, orderly 9 (timed .erase).rsu.timer, 1),
      (cOrder 3, orderly 0 (timed .purge).rsu.timer, 1)] ∧
    (ready.setting 5).enabled = false ∧ (((orderly 9 none).setting 5).enabled = true ∧ ((orderly 9 none).setting 5).guard = .always ∧
      ((orderly 9 none).setting 5).immediate = false ∧ ready.btc.state ≠ .blank ∧ ready.rsu.purgeAllowed = false) :=
  ⟨allProve_of (by decide +kernel), by decide +kernel⟩

theorem witness_ArrivalsAreWeighed :
    ready.sst.power.supplied = true ∧ State.manufactured.sst.power = .dead ∧
    { ready with sst := { ready.sst with power := .off } }.sst.power = .off ∧ passesB (.motion short) ready = true ∧
    (∀ n ∈ [599, 600], let s := { bound .passed with rsu := { ready.rsu with
        absence := n, settings := Setting.defaults.set 0 { Setting.blank with enabled := true } } }
      s.absenceCounting = true ∧ s.rsu.absenceThreshold = 600) ∧ ready.absenceCounting = false ∧ (ready.setting 0).enabled = false ∧
    ((ready.setting 3).enabled = true ∧ ready.guardMet (ready.setting 3).guard = true ∧ ready.rsu.level.number < (ready.setting 3).level.number ∧
      (ready.setting 3).delay = 0) ∧
    (levelled .lock).rsu.level.number = ((levelled .lock).setting 3).level.number ∧
    (∀ n ∈ [0, 9], let s := { ready with rsu := { (timed .guard).rsu with
        settings := ready.rsu.settings.set 1 { enabled := true, level := .erase, delay := n, immediate := false, guard := .always } } }
      shapedB s = true ∧ s.guardMet (s.setting 1).guard = true ∧ s.rsu.level.number < (s.setting 1).level.number ∧
      (s.setting 1).delay = n ∧ s.btc.state ≠ .blank ∧ (s.raise 1).rsu.level = if n = 0 then .erase else .calm) := by
  decide +kernel

theorem witness_DelayTimerEscalates :
    ready.rsu.timer = none ∧
    (∃ x, (timed .guard).rsu.timer = some x ∧ (timed .guard).rsu.level.number < x.pending.level.number) ∧
    (∃ x, (timed .erase).rsu.timer = some x ∧ x.pending.level = .erase ∧ (timed .erase).rsu.level.number < 2) ∧
    (∃ x, { timed .guard with rsu := { (timed .guard).rsu with level := .guard } }.rsu.timer = some x ∧
      x.pending.level.number ≤ Level.guard.number) ∧ Shaped (timed .erase) ∧
    (timed .purge).timerExpired.wpe.injected.map (fun c => (c.steps, c.origin)) = some ([.cutKeys, .fill none 0], .responsePurge) ∧
    (∀ c ∈ [chainOf [.cutKeys], { chainOf [.cutKeys] with begun := true }, { chainOf [] with ending := some .done }],
      { timed .erase with wpe := { ready.wpe with injected := some c } }.timerExpired.wpe.injected.map (fun (d : Chain) => d.steps) =
        some (if c.begun then [WipeStep.cutKeys, .cutKeys] else [WipeStep.cutKeys])) :=
  ⟨rfl, ⟨_, rfl, by decide +kernel⟩, ⟨_, rfl, rfl, by decide +kernel⟩, ⟨_, rfl, by decide +kernel⟩, shaped_of (by decide +kernel),
    by decide +kernel⟩

/-- No fill field, both values of it, a chain in the way; REPROVISION in BLANK, SEALED and ERASED; WIPE_ABORT without a
chain, in a CUT_KEYS, in a FILL, while closing, and while its end is being recorded. -/
theorem witness_WipeRequestsMakeAndEndTheChain :
    AllProve [(cWipe none, ready, 0), (cWipe (some false), ready, 0), (cWipe (some true), ready, 0), (cWipe (some true), wiping filling, 0),
      (cAbort, ready, 1), (cAbort, wiping { chainOf [.cutKeys] with begun := true }, 1), (cAbort, wiping filling, 1),
      (cAbort, wiping { chainOf [.cutKeys] with closing := true }, 1), (cAbort, wiping { chainOf [] with ending := some .done }, 1)] ∧
    AllPass [(cReprovision, ready), (cReprovision, fresh), (cReprovision, booted .erased), (cReprovision, wiping filling)] ∧
    cReprovision.labels ready ∧ cReprovision.labels fresh ∧ cReprovision.labels (booted .erased) ∧ ready.wpe.normal = none ∧
    ((wiping filling).chain .normal = some filling ∧ filling.closing = false ∧ filling.ending = none ∧
      filling.abort = { filling with steps := [], begun := false, left := 0, above := [], ending := some .aborted }) :=
  ⟨allProve_of (by decide +kernel), allPass_of (by decide +kernel), labels_of (by decide +kernel), labels_of (by decide +kernel),
    labels_of (by decide +kernel), by decide +kernel⟩

/-- Each of the four steps may begin, of the normal chain without an injected one, and of the injected chain beside a
normal FILL that has begun; a CUT_KEYS of the normal chain in progress or being recorded holds it back, as a commit in
WRITING does a CUT_KEYS and STANDBY a FILL; with a credential change running CUT_CREDENTIALS waits. -/
theorem witness_WipeStepsBegin :
    Shaped (wiping (chainOf [.cutKeys])) ∧
    (∀ a ∈ [WipeStep.cutKeys, .cutCredentials, .fill none 0, .resetTable],
      let s := wiping (chainOf [a])
      s.chain .normal = some (chainOf [a]) ∧ (chainOf [a]).steps.head? = some a ∧ (chainOf [a]).begun = false ∧
      (chainOf [a]).durable = true ∧ s.mayTake .normal = true ∧ s.wpe.injected = none ∧ s.lif.started = true ∧
      s.sst.power.supplied = true ∧ s.sst.downMark = false ∧ s.stepReady a = true ∧ s.sst.power = .active ∧
      s.rtb.commit.phase ≠ .writing ∧ s.btc.provisioning = none) ∧
    (∀ q ∈ [(filling, true), ({ chainOf [.cutKeys] with begun := true }, false), ({ chainOf [] with recording := true }, false)],
      { wiping q.1 with wpe := { (wiping q.1).wpe with injected := some (chainOf [.cutKeys]) } }.mayTake .injected = q.2) ∧
    ((writing 1 1 [] [] false).stepReady .cutKeys = false ∧
      { ready with sst := { ready.sst with power := .standby } }.stepReady (.fill none 0) = false) ∧
    ({ changing .c 1 [] with wpe := (wiping (chainOf [.cutCredentials])).wpe }.cru.ops ≠ [] ∧
      { changing .c 1 [] with wpe := (wiping (chainOf [.cutCredentials])).wpe }.stepReady .cutCredentials = true) ∧
    ready.chain .normal = none ∧ ready.cru.ops = [] ∧ ready.nothingToCut = false ∧ ready.sst.lastDevice.boot ≠ .erased :=
  ⟨shaped_of (by decide +kernel), by decide +kernel⟩

/-- The part after a CUT_KEYS, its boot field as it was or ERASED. -/
def cutPart (b : BootField) (l : List WipeStep) : State :=
  let s := (wiping (chainOf [.cutKeys])).beginStep .normal
  { s with wpe := { s.wpe with normal := some (chainOf (.cutKeys :: l)) }, sst := { ready.sst with lastDevice := { s.sst.lastDevice with boot := b } } }

/-- A CUT_KEYS under a commit that drains with a CLEAR context, and one with nothing to cut whose DEVICE record is not ERASED
or is, with and without a step behind it. -/
theorem witness_WipeStepsBegin_cut :
    (let s := { draining .clear with wpe := (wiping (chainOf [.cutKeys])).wpe }
     shapedB s = true ∧ s.rtb.commit.phase ≠ .writing ∧ s.stepReady .cutKeys = true ∧ (s.slot 23).state = .live ∧
     (s.beginStep .normal).rtb.commit = .idle ∧ (s.beginStep .normal).openContexts = []) ∧
    (∀ l ∈ [[], [WipeStep.fill none 0]], ∀ b ∈ [BootField.provisioned, .erased], let s := cutPart b l
      shapedB s = true ∧ s.nothingToCut = true ∧ s.sst.lastDevice.boot = b ∧ s.chain .normal = some (chainOf (.cutKeys :: l)) ∧
      s.mayTake .normal = true ∧ s.stepReady .cutKeys = true ∧
      ((s.beginStep .normal).btc.state = .erased ↔ b = .erased)) := by decide +kernel

/-- R145, R40: a CLEAR context that is OPEN when RESET_TABLE begins, as one in a part that is BLANK before the step begins
again, ends with KEYS_CUT; one in SHROUD does not. -/
theorem witness_WipeStepsBegin_reset :
    ∀ m ∈ [Mode.clear, .shroud], let s := { streaming m with btc := State.reset.btc, wpe := (wiping (chainOf [.resetTable])).wpe }
      let t := s.beginStep .normal
      shapedB s = true ∧ s.chain .normal = some (chainOf [.resetTable]) ∧ s.stepReady .resetTable = true ∧ s.headJob = none ∧
      (if m = .clear then (t.ctx 0).xfer = none ∧ frame .data 9 (.aborted 0 1 .keysCut 1) ∈ t.sent else t.ctx 0 = s.ctx 0) ∧
      t.load 0 = .loaded { issue := s.fresh } := by decide +kernel

/-- A step with one and with two writes left, a FILL at its count and before it, the end of a chain, a chain that goes on
and one that is over, and a chain that is gone. -/
theorem witness_ChainWritesComplete :
    ready.chain .normal = none ∧
    (∀ a ∈ [WipeStep.cutKeys, .cutCredentials, .resetTable], ∀ l ∈ [[], [WipeStep.fill none 0]], ∀ n ∈ [1, 2], ∀ b ∈ [false, true],
      let c := { chainOf (a :: l) with begun := b, left := n }
      (wiping c).chain .normal = some c ∧ c.no = 0 ∧ c.steps = a :: l) ∧
    (∀ p ∈ [0, 1000], let c := { filling with steps := [.fill (some 1000) p], left := 1 }
      (wiping c).chain .normal = some c ∧ c.no = 0 ∧ c.begun = true) ∧
    (let c := { chainOf [] with ending := some .aborted, closing := true }
     (wiping c).chain .normal = some c ∧ c.no = 0) := by decide +kernel

/-- Nothing in service, and a write in service for each requester that the statement names. -/
theorem witness_WriteCompletionIsDurable :
    ready.sst.serving = none ∧
    ((ready.setting 0).enabled = false ∧ ready.rsu.absenceThreshold = 600) ∧
    (∀ w ∈ [Waiter.reply dual (.status .ok []), .badProof dual true, .badProof dual false, .bindPlatform dual (some 5),
        .evidenceSource dual 0 .blank,
        .evidenceSource dual 0 { Setting.blank with enabled := true }, .evidenceSource dual 7 .blank, .evidenceTable dual true 1 10,
        .evidenceTable dual true 1 600],
      (serving .stage (.stage .blank) [w]).sst.serving = some { unit := .stage, content := .stage .blank, waiters := [w] }) ∧
    dual.session = ready.lif.session ∧
    (let s := { ready with kst := { ready.kst with slots := ready.kst.slots.set 1 { KeySlot.blank with state := .retiring, erasing := true } } }
     (s.slot 1).state = .retiring ∧ (s.slot 1).erasing = true) := by decide +kernel

/-- R165: tag 9 leaves the tags in use with the final frame of its request, in the completions of a BAD_PROOF whose failure
blocked its slot or not, a token, a setting, a credential change, a PROVISION, a commit, a deferred commit, a CUT_KEYS and an
escalation that abandon a commit; after a link restart it stays. -/
theorem test_final_frames_free_their_tag :
    ∀ n ∈ [1, 2],
      let tagged := fun s : State => { s with lif := { s.lif with tagsInUse := [9, 8], session := n } }
      let left := if n = 1 then [8] else [9, 8]
      (∀ w ∈ [Waiter.reply dual (.status .ok []), .badProof dual true, .badProof dual false, .bindPlatform dual none,
          .evidenceSource dual 0 .blank, .evidenceTable dual true 1 10],
        ((tagged (serving .stage (.stage .blank) [w])).signal w).lif.tagsInUse = left) ∧
      ((tagged (changing .c 1 [])).signal (.credWave 2)).lif.tagsInUse = left ∧
      ((tagged (provisioning true 1)).signal .provision).lif.tagsInUse = left ∧
      ((tagged (writing 3 1 [1] [1] false)).signal .commitWave).lif.tagsInUse = left ∧
      ((tagged (preparing 1)).signal (.deferredCommit dual)).lif.tagsInUse = left ∧
      ((tagged { draining .clear with wpe := (wiping (chainOf [.cutKeys])).wpe }).beginStep .normal).lif.tagsInUse = left ∧
      (tagged { draining .clear with rsu := (timed .erase).rsu }).timerExpired.lif.tagsInUse = left := by decide +kernel

/-- R75: the write of a token completes: its OK is sent. -/
theorem test_token_is_answered :
    let completed := fun tok : Option Secret => (serving .stage (.stage .blank) [.bindPlatform dual tok]).signal (.bindPlatform dual tok)
    let answered := some (frame dual.channel dual.tag (.status .ok []))
    ((completed (some 5)).btc.token = some 5 ∧ (completed (some 5)).lastFrame = answered) ∧
    ((completed none).btc.token = none ∧ (completed none).lastFrame = answered) := by decide +kernel

/-- STANDBY_ENTER over a chunk that can be dropped and a hold: the chunk goes, and the range with standby_lock off keeps its
load while the hold's own range, locked both ways, gives it up. -/
theorem witness_StandbyDrainsAndWakes_sweep :
    (∀ p ∈ [(Phase.claiming, false), (.reading, false), (.reading, true)], ∀ b ∈ [true, false],
      let s := entries (underHold .live 132) 1 (.enabled { fieldsOne with standbyLock := b, split := some { newKey := 2, watermark := 132 } })
      let s := { s with rke := { s.rke with phase := p.1, headerIssued := p.2, first := 132, n := 32, window := p.1 != .claiming } }
      let t := s.frameTaken.standbyEnter (s.replyTo .platform 7)
      passesB (.standbyEnter short) s = true ∧ shapedB s = true ∧ s.headJob = some (job .sweeping) ∧ s.rke.finished = none ∧
      (∀ c < 16, (s.ctx c).xfer = none) ∧ s.sst.drain = .none ∧ s.load 1 = .loaded { issue := 60 } ∧
      (∀ k ∈ s.namedSlots 1, s.owns 1 k = true ∧ (s.slot k).users = 1 ∧
        (s.kst.hold.toList.flatMap (fun h => [h.oldKey, h.newKey])).count k = 1) ∧
      t.rke.phase = (if p.2 then .reading else .idle) ∧ t.headState = some .paused ∧ t.load 1 = .notLoaded) := by decide +kernel

/-- ACTIVE and STANDBY, an OPEN context, a drain under way, and a drain that can end; ranges of every lock setting, a
sweeping job, and in STANDBY a PAUSED one whose range is loaded. -/
theorem witness_StandbyDrainsAndWakes :
    (let asleep := { ready with sst := { ready.sst with power := .standby } }
     AllPass ([ready, streaming .clear, asleep].flatMap (fun s =>
       [(.standbyEnter short, s), (.powerDown short, s), (.standbyExit short, s)]))) ∧
    (((streaming .clear).ctx 0).xfer ≠ none ∧ (∀ c < 16, (ready.ctx c).xfer = none) ∧ ready.sst.drain = .none ∧ ready.sst.downMark = false ∧
      fieldsOne.standbyLock = true ∧ ready.kst.hold = none ∧ (∀ k ∈ fieldsOne.named, (ready.slot k).users = 0) ∧
      (queued .sweeping).headJob = some (job .sweeping) ∧ (queued .sweeping).rke.finished = none ∧
      (loaded (queued .paused)).load 1 = .loaded { issue := 60 } ∧ fieldsOne.powerLock = false ∧
      (entries ready 1 (.enabled { fieldsOne with powerLock := true })).rangesWhere (fun g => g.powerLock) = [1] ∧ (opened ready).btc.state = .opened ∧
      { opened ready with rtb := { ready.rtb with resealOnWake := true } }.rtb.resealOnWake = true ∧ ready.openEnvelope 0 .device (some .device) = none) ∧
    (ready.drained = true ∧ dual.session = ready.lif.session ∧ { dual with session := 0 }.session ≠ ready.lif.session) ∧ Shaped ready :=
  ⟨allPass_of (by decide +kernel), by decide +kernel, by decide +kernel, shaped_of (by decide +kernel)⟩

theorem witness_SuppliesMoveThePowerState :
    { ready with sst := { ready.sst with power := .off } }.sst.power = .off ∧ ready.sst.power ≠ .off ∧
    State.manufactured.sst.power.supplied = false ∧ ready.sst.power.supplied = true ∧
    ∃ w, (serving .stage (.stage .blank) []).sst.serving = some w := ⟨rfl, by decide, by decide, by decide, _, rfl⟩

theorem witness_StartUpRebuildsThePart :
    ready.sst.power.supplied = true ∧ State.manufactured.sst.power.supplied = false ∧
    (∃ d, State.manufactured.sst.units.device = some d ∧ d.boot = .blank) ∧ ready.rtb.startCommit = none ∧
    { ready with rtb := { ready.rtb with startCommit := some { left := 1, last := true } } }.rtb.startCommit ≠ none :=
  ⟨by decide, by decide, ⟨_, rfl, rfl⟩, rfl, by decide⟩

/-- A stored part in OFF with a boot field, a response level and a latch: range 0 with its device envelope, ranges 1 and 2
with power_lock off and on. -/
def asleep (b : BootField) (l : Level) (latch : List Nat) : State :=
  let g := { fieldsOne with powerLock := false, envelopes := [{ holder := .device, wraps := [.device], rak := { issue := 60 }, whole := true }] }
  let x := State.manufactured.sst.units
  { State.manufactured with
    rsu := { State.manufactured.rsu with latch := latch }
    sst := { State.manufactured.sst with
      power := .off
      units := { x with
        range := (x.range.set 1 (some (.enabled g))).set 2 (some (.enabled { g with powerLock := true, bounds := some { first := 300, count := 5 } }))
        device := x.device.map (fun d => { d with boot := b })
        response := x.response.map (fun r => { r with level := l }) } } }

/-- What a start-up leaves before it takes the latch, and after it: the boot state, whether ranges 1 and 2 are open, and
the sources taken. -/
def awoken (s : State) (u : StartInputs) : BootState × List Bool × List Nat :=
  let t := s.startUp u
  (t.btc.state, [1, 2].map (fun r => (t.fields r).any (fun g => !g.readLocked && !g.writeLocked)), t.rsu.startLatch)

/-- R5 and R131 at a start-up: SEALED opens the range without power_lock alone, ERASED and QUARANTINE none, and BLANK none
from LOCK on; a warm start-up takes the latch and the edges, a cold one the edges and SUPPLY. -/
theorem test_start_up_locks_and_latch :
    (∀ s ∈ [asleep .provisioned .calm [], asleep .erased .calm [], asleep .provisioned .lock [6, 1], asleep .blank .lock []],
      s.sst.power.supplied = false ∧ shapedB s = true) ∧
    awoken (asleep .provisioned .calm []) noEdge = (.sealed, [true, false], []) ∧
    awoken (asleep .erased .calm []) noEdge = (.erased, [false, false], []) ∧
    awoken (asleep .provisioned .lock [6, 1]) { noEdge with edges := [2] } = (.quarantine, [false, false], [1, 2, 6]) ∧
    awoken (asleep .blank .lock []) noEdge = (.blank, [false, false], []) ∧
    awoken { asleep .provisioned .calm [1] with sst := { (asleep .provisioned .calm [1]).sst with power := .dead } } noEdge =
      (.sealed, [true, false], [6]) := by decide +kernel

/-- A part without supply whose store holds every record but the KEY record of slot 3 and the CRED record of slot 9. -/
def stored (f : Units → Units) : State :=
  let x := State.manufactured.sst.units
  let y := { x with key := x.key.set 3 none, cred := x.cred.set 9 none }
  { State.manufactured with sst := { State.manufactured.sst with units := f y } }

/-- Damaged records of each kind, a queue part without and with an active job, its progress of this job, of another and
damaged, a job that key_slot shows completed, and chains of both kinds. -/
theorem witness_StartUpRebuildsTheBlocks :
    (stored id).sst.power.supplied = false ∧ shapedB (stored id) = true ∧ (stored id).sst.units.key[3]? = some none ∧
    (stored id).sst.units.cred[9]? = some none ∧ (stored id).sst.units.device ≠ none ∧
    ((stored id).sst.units.key[23]?.join.any (fun c => c.state == .live && c.owner.isNone)) = true ∧
    ((stored id).sst.units.stage.all (fun l => l.mark == .none && l.prepared.slots.isEmpty)) = true ∧
    ((stored id).sst.units.rekeyQueue.any (fun q => q.active.isNone)) = true ∧
    (∀ p ∈ [none, some none, some (some (ProgressJob.mk 1 1 2 .faulted (some .mediaFault) true 100 (some (100, 32))))],
      let x := (stored (fun x => { x with
        range := x.range.set 1 (some (.enabled fieldsOne))
        rekeyQueue := some { serial := 1, ranges := [1], active := some { range := 1, serial := 1, newKey := 2 } }
        rekeyProgress := p })).sst.units
      x.range[1]? = some (some (.enabled fieldsOne)) ∧ x.rekeyProgress = p ∧ fieldsOne.keySlot ≠ 2) ∧
    (let s := stored (fun x => { x with
       range := x.range.set 1 (some (.enabled fieldsOne))
       rekeyQueue := some { serial := 1, ranges := [1], active := some { range := 1, serial := 1, newKey := 1 } }, rekeyProgress := some none })
     shapedB s = true ∧ s.sst.units.range[1]? = some (some (.enabled fieldsOne)) ∧ fieldsOne.keySlot = 1 ∧
     (s.startUp noEdge).rke.seq = some .doneProgress) ∧
    (let x := (stored (fun x => { x with
        evset := x.evset.set 2 none, response := none, wipe := some { normal := some (ChainRecord.mk .sanitize [.cutKeys] false 0), injected := none }
        device := none })).sst.units
     x.evset[2]? = some none ∧ x.response = none ∧ x.wipe.any (fun w => w.normal.isSome && w.injected.isNone) = true ∧ x.device = none) ∧
    ((stored (fun x => { x with device := some { DeviceRecord.lost manufactureLabel with boot := .provisioned } })).sst.units.device.any
      (fun d => d.boot == .provisioned)) = true := by
  decide +kernel

/-- The queue part damaged, beside a progress part without a job, of a job, and of a job that has completed: the queue and
the serial counter come from the progress part, and the queue part is written, or due behind the progress part. -/
theorem witness_StartUpRebuildsTheBlocks_queue :
    ∀ p ∈ [(none, 0, false), (some (ProgressJob.mk 1 7 2 .sweeping none false 150 none), 7, false),
           (some (ProgressJob.mk 1 7 1 .sweeping none false 200 none), 7, true)],
      let s := stored (fun x => { x with
        range := x.range.set 1 (some (.enabled fieldsOne)), rekeyQueue := none, rekeyProgress := some p.1 })
      let t := s.startUp noEdge
      s.sst.power.supplied = false ∧ shapedB s = true ∧ s.sst.units.stage.all (fun l => l.mark == .none) = true ∧
      s.sst.units.queuePart.map (fun q => (q.serial, q.ranges)) = some (p.2.1, if p.1 = none then [] else [1]) ∧
      t.rke.serial = p.2.1 ∧ t.rke.queue.map (fun j => j.range) = (if p.1 = none then [] else [1]) ∧
      (if p.2.2 then t.rke.dueQueue ≠ none
        else ∃ w ∈ t.writesHeld, w.unit = .rekeyQueue ∧ w.content = t.recordOf .rekeyQueue) := by decide +kernel

/-- Range 1 stored with its envelopes in two forms, its new key in slot 2, a staged list with a mark and the slot prepared
for it, and what the test adds. -/
def restaged (es : List Edit) (m : Mark) (slot : List (Nat × Nat)) (f : Units → Units) : State :=
  let two : Envelope := { holder := .cred 2, wraps := [.ofSecret (secretOf 2), .ofSecret (secretOf 9)], rak := { issue := 60 }, whole := true }
  let key := fun n : Nat => some { state := KeyState.live, owner := some 1, material := some { key := { issue := n }, rak := { issue := 60 }, whole := true } }
  stored (fun x => f { x with
    cred := x.cred.set 2 (some (userSlot 2 .enabled 0 none).record)
    key := ((x.key.set 1 (key 61)).set 2 (key 62)).set 4 (key 64)
    range := x.range.set 1 (some (.enabled { fieldsOne with envelopes := [two], split := some { newKey := 2, watermark := 150 } }))
    stage := some { edits := es, mark := m, prepared := { slots := slot, envelopes := [] } } })

/-- What the store gives of the envelopes, new key and key_lost of range 1, before a staged list is settled. -/
def tableOne (s : State) : Option (List (List WrapValue) × Option Split × Bool) :=
  (Entry.fields? ((s.sst.units.table[1]?).getD .damaged)).map (fun f => (f.envelopes.map (fun e => e.wraps), f.split, f.keyLost))

/-- An envelope in two forms with its CRED record whole and damaged; both parts of the REKEY record damaged; a STAGE record
that is damaged; a deferred list whose check holds, one for whose range a job is recovered, one whose prepared slot is gone;
and an interrupted list. -/
theorem witness_StartUpRebuildsTheBlocks_table :
    tableOne (restaged [] .none [] id) = some ([[.ofSecret (secretOf 2)]], some { newKey := 2, watermark := 150 }, false) ∧
    tableOne (restaged [] .none [] (fun x => { x with cred := x.cred.set 2 none, rekeyQueue := none, rekeyProgress := none })) =
      some ([[.ofSecret (secretOf 9)]], some { newKey := 2, watermark := 150 }, true) ∧
    ((restaged [] .none [] (fun x => { x with stage := none })).startUp noEdge).rtb.staged = .blank ∧
    (∀ p ∈ [(Mark.deferred, 4, false, true), (.deferred, 5, false, false), (.deferred, 4, true, false), (.applying, 4, true, true)],
      let s := restaged [.newKey 1] p.1 [(1, p.2.1)] (fun x => if p.2.2.1 then
        { x with rekeyQueue := some { serial := 1, ranges := [1], active := some { range := 1, serial := 1, newKey := 2 } } } else x)
      let t := s.startUp noEdge
      shapedB s = true ∧ s.sst.power.supplied = false ∧ s.sst.units.key[4]?.join.any (fun c => c.state == .live) = true ∧
      ((s.sst.units.key[5]?).join.map (fun c => c.state)) = some .empty ∧ (s.sst.units.plan false [.newKey 1]).needKeys = [1] ∧
      (t.fields 1).map (fun g => g.keySlot) = some (if p.2.2.2 then 4 else 1) ∧
      t.rtb.staged.edits = (if p.2.2.2 then [] else [.newKey 1]) ∧ (t.slot 4).state = (if p.2.2.2 then .live else .retiring)) := by
  decide +kernel

end Sys2Proof.Tests
end

/-! R12, R14, R15, R22: how a RANGE_COMMIT is refused, accepted or deferred (O36). The lists that a commit names come
first, then the plan's new keys, then the cases of the commit itself. -/

namespace Sys2Proof.Machine

/-! ### What a list of edits names (R15, R22) -/

theorem Edit.structural_iff (e : Edit) (r : Nat) :
    (e.structural && e.range == r) = true ↔ (∃ n m, e = .define r n m) ∨ e = .newKey r ∨ e = .disable r := by
  cases e <;> simp [Edit.structural, Edit.range]

theorem Edit.reshapes_iff (e : Edit) : e.reshapes = true ↔ ∃ x, (∃ n m, e = .define x n m) ∨ e = .disable x := by
  cases e <;> simp [Edit.reshapes]

theorem mem_affectedSet (es : List Edit) (r : Nat) : r ∈ affectedSet es ↔ r < 16 ∧
    ((∃ n m, .define r n m ∈ es) ∨ .newKey r ∈ es ∨ .disable r ∈ es ∨
      (r = 0 ∧ ∃ x, (∃ n m, .define x n m ∈ es) ∨ .disable x ∈ es)) := by
  simp only [affectedSet, List.mem_filter, List.mem_range, Bool.or_eq_true, List.any_eq_true, Edit.structural_iff,
    Bool.and_eq_true (r == 0), beq_iff_eq, Edit.reshapes_iff]
  grind

theorem mem_namedRanges (es : List Edit) (r : Nat) : r ∈ namedRanges es ↔ r < 16 ∧ ∃ e ∈ es, e.range = r := by
  simp [namedRanges]

/-- R15: the RAKs of a list of ranges cannot all be had exactly when the envelope of an ENABLED one does not open. -/
theorem workingRaks_eq_none (s : State) (w : Option WrapValue) (l : List Nat) :
    s.workingRaks w l = none ↔ ∃ r ∈ l, s.fields r ≠ none ∧ s.openEnvelope r (.cred 0) w = none := by
  induction l with
  | nil => simp [State.workingRaks]
  | cons a l ih =>
    rw [State.workingRaks, List.exists_mem_cons_iff, ← ih]
    cases s.fields a with
    | none => simp
    | some g => cases s.openEnvelope a (.cred 0) w <;> cases s.workingRaks w l <;> simp

/-- R15, R22: each RAK that is had is the one that the ADMIN envelope of its range holds. -/
theorem mem_workingRaks (s : State) (w : Option WrapValue) (l : List Nat) (raks : List (Nat × Rak))
    (h : s.workingRaks w l = some raks) (r : Nat) (k : Rak) :
    (r, k) ∈ raks ↔ r ∈ l ∧ s.fields r ≠ none ∧ s.openEnvelope r (.cred 0) w = some k := by
  induction l generalizing raks with
  | nil => simp_all [State.workingRaks]
  | cons a l ih =>
    rw [State.workingRaks] at h
    cases hf : s.fields a with
    | none =>
      rw [hf] at h
      rw [ih raks h, List.mem_cons]
      constructor
      · rintro ⟨hl, hr⟩; exact ⟨.inr hl, hr⟩
      · rintro ⟨rfl | hl, hr⟩
        · exact absurd hf hr.1
        · exact ⟨hl, hr⟩
    | some g =>
      rw [hf] at h
      cases ho : s.openEnvelope a (.cred 0) w with
      | none => simp [ho] at h
      | some k' =>
        cases hw : s.workingRaks w l with
        | none => simp [ho, hw] at h
        | some rest =>
          simp only [ho, hw, Option.isSome_some, if_true, Option.some.injEq] at h
          subst h
          rw [List.mem_cons, ih rest hw, Prod.mk.injEq, List.mem_cons]
          constructor
          · rintro (⟨rfl, rfl⟩ | ⟨hl, hr⟩)
            · exact ⟨.inl rfl, by simp [hf], ho⟩
            · exact ⟨.inr hl, hr⟩
          · rintro ⟨rfl | hl, hr, hk⟩
            · exact .inl ⟨rfl, by simpa [ho] using hk.symm⟩
            · exact .inr ⟨hl, hr, hk⟩

/-- A number that a list pairs has a value paired with it. -/
theorem pairedWith_of_mem {α : Type} {l : List (Nat × α)} {r : Nat} {a : α} (h : (r, a) ∈ l) :
    ∃ b, pairedWith l r = some b := by
  have hs : (l.find? (fun q => q.1 == r)).isSome := List.find?_isSome.mpr ⟨_, h, by simp⟩
  obtain ⟨q, hq⟩ := Option.isSome_iff_exists.mp hs
  exact ⟨q.2, by simp [pairedWith, hq]⟩

/-! ### The ranges that need a new key (R13) -/

theorem Plan.entry_set (p : Plan) (r q : Nat) (e : Entry) :
    (p.set r e).entry q = if q = r ∧ r < p.entries.length then e else p.entry q := by
  unfold Plan.entry Plan.set
  by_cases h : r = q <;> by_cases hl : r < p.entries.length <;> simp_all
  omega

@[simp] theorem Plan.repair_lists (p : Plan) (r : Nat) (f : RangeFields) :
    (p.repair r f).remade = p.remade ∧ (p.repair r f).rekeyed = p.rekeyed := by
  unfold Plan.repair; split <;> exact ⟨rfl, rfl⟩

theorem Plan.mem_repaired_repair (p : Plan) (r q : Nat) (f : RangeFields) (h : q ∈ (p.repair r f).repaired) :
    q ∈ p.repaired ∨ q = r := by
  unfold Plan.repair at h
  split at h
  · exact (List.mem_cons.mp h).symm
  · exact .inl h

theorem Plan.entry_repair_other (p : Plan) (r q : Nat) (f : RangeFields) (h : q ≠ r) :
    (p.repair r f).entry q = p.entry q := by
  unfold Plan.repair
  split
  · exact (Plan.entry_set p r q _).trans (if_neg (fun k => h k.1))
  · exact (Plan.entry_set p r q _).trans (if_neg (fun k => h k.1))

/-- R13: an edit leaves the entries of the other ranges. -/
theorem Plan.entry_apply_other (p : Plan) (e : Edit) (q : Nat) (h : q ≠ e.range) : (p.apply e).entry q = p.entry q := by
  have hset : ∀ x, (p.set e.range x).entry q = p.entry q := fun x =>
    (Plan.entry_set p e.range q x).trans (if_neg (fun k => h k.1))
  have hrep : ∀ f, (p.repair e.range f).entry q = p.entry q := fun f => Plan.entry_repair_other p e.range q f h
  cases e <;> simp only [Plan.apply] <;> (repeat' split) <;> first | rfl | exact hset _ | exact hrep _

/-- R13: an edit takes no range from those made anew. -/
theorem Plan.remade_apply (p : Plan) (e : Edit) (q : Nat) (h : q ∈ p.remade) : q ∈ (p.apply e).remade := by
  cases e <;> simp only [Plan.apply] <;> (repeat' split) <;> simp [Plan.set, h]

/-- R13: an edit of an entry that is not ENABLED makes the range anew, as a DEFINE and range 0's NEW_KEY do, or leaves the
entry so. -/
theorem Plan.remade_or_isEnabled_apply (p : Plan) (e : Edit) (h : (p.entry e.range).isEnabled = false) :
    e.range ∈ (p.apply e).remade ∨ ((p.apply e).entry e.range).isEnabled = false := by
  cases e with
  | define r first count =>
    by_cases hr : r = 0
    · exact .inr (by simpa [Plan.apply, hr, Edit.range] using h)
    · left; cases he : p.entry r <;> simp_all [Plan.apply, Edit.range, Entry.isEnabled]
  | options r mode concealed powerLock standbyLock reseal =>
    right; cases he : p.entry r <;> simp_all [Plan.apply, Edit.range, Entry.isEnabled]
  | access r readList writeList =>
    right; cases he : p.entry r <;> simp_all [Plan.apply, Edit.range, Entry.isEnabled]
  | newKey r =>
    cases he : p.entry r with
    | enabled f => simp [Edit.range, he, Entry.isEnabled] at h
    | disabled => exact .inr (by simp [Plan.apply, Edit.range, he, Entry.isEnabled])
    | damaged =>
      by_cases hr : r = 0
      · exact .inl (by simp_all [Plan.apply, Edit.range])
      · exact .inr (by simp [Plan.apply, Edit.range, he, hr, Entry.isEnabled])
  | disable r =>
    right
    by_cases hr : r = 0
    · simpa [Plan.apply, hr, Edit.range] using h
    · cases he : p.entry r with
      | enabled f => simp [Edit.range, he, Entry.isEnabled] at h
      | disabled => simp [Plan.apply, Edit.range, hr, he, Entry.isEnabled]
      | damaged =>
        have hs := Plan.entry_set p r r .disabled
        have ha : ((p.apply (.disable r)).entry r) = (p.set r .disabled).entry r := by
          simp only [Plan.apply, if_neg hr, he]; rfl
        rw [Edit.range, ha, hs]; split <;> simp [Entry.isEnabled, he]

/-- R13: an edit gives a new key to no range but its own. -/
theorem Plan.mem_rekeyed_apply (p : Plan) (e : Edit) (q : Nat) (h : q ∈ (p.apply e).rekeyed) :
    q ∈ p.rekeyed ∨ q = e.range := by
  cases e <;> simp only [Plan.apply] at h <;> (repeat' split at h) <;> simp_all [Plan.set, Edit.range]
  tauto

/-- R13: an edit repairs no range but its own. -/
theorem Plan.mem_repaired_apply (p : Plan) (e : Edit) (q : Nat) (h : q ∈ (p.apply e).repaired) :
    q ∈ p.repaired ∨ q = e.range := by
  have hrep : ∀ f, q ∈ (p.repair e.range f).repaired → q ∈ p.repaired ∨ q = e.range :=
    fun f => Plan.mem_repaired_repair p e.range q f
  cases e <;> simp only [Plan.apply] at h <;> (repeat' split at h) <;>
    first | exact .inl h | exact hrep _ h | exact (List.mem_cons.mp h).symm

/-- R13: what the edits so far made ENABLED they made anew, and they gave new keys to no range that they do not name. -/
structure Plan.Rooted (s : State) (es : List Edit) (p : Plan) : Prop where
  enabled : ∀ r, (p.entry r).isEnabled = true → r ∈ p.remade ∨ (s.entry r).isEnabled = true
  named : ∀ r, r ∈ p.rekeyed ∨ r ∈ p.repaired → ∃ e ∈ es, e.range = r

theorem State.planStart_rooted (s : State) : s.planStart.Rooted s [] where
  enabled _ h := .inr h
  named _ h := by simp [State.planStart] at h

/-- One more edit of the list. -/
theorem Plan.Rooted.apply {s : State} {es : List Edit} {p : Plan} (h : p.Rooted s es) (e : Edit) :
    (p.apply e).Rooted s (es ++ [e]) where
  enabled r hr := by
    have before : (p.entry r).isEnabled = true → r ∈ (p.apply e).remade ∨ (s.entry r).isEnabled = true :=
      fun hp => (h.enabled r hp).imp_left (p.remade_apply e r)
    by_cases hre : r = e.range
    · subst hre
      cases hp : (p.entry e.range).isEnabled with
      | true => exact before hp
      | false => exact .inl ((p.remade_or_isEnabled_apply e hp).resolve_right (by simp [hr]))
    · exact before (by rw [← p.entry_apply_other e r hre]; exact hr)
  named r hr := by
    have old : r ∈ p.rekeyed ∨ r ∈ p.repaired → ∃ x ∈ es ++ [e], x.range = r := fun hp =>
      let ⟨x, hx, he⟩ := h.named r hp
      ⟨x, List.mem_append_left _ hx, he⟩
    have new : r = e.range → ∃ x ∈ es ++ [e], x.range = r := fun he => ⟨e, by simp, he.symm⟩
    rcases hr with hr | hr
    · exact (p.mem_rekeyed_apply e r hr).elim (fun k => old (.inl k)) new
    · exact (p.mem_repaired_apply e r hr).elim (fun k => old (.inr k)) new

theorem State.plan_rooted (s : State) (es : List Edit) : (s.plan es).Rooted s es := by
  induction es using List.reverseRecOn with
  | nil => exact s.planStart_rooted
  | append_singleton es e ih =>
    have := ih.apply e
    rwa [State.plan, List.foldl_append]

/-- R13: a range that needs a new key is made anew, or is ENABLED before the list and named by it. -/
theorem State.needKeys_named (s : State) (es : List Edit) (r : Nat) (h : r ∈ (s.plan es).needKeys) :
    r ∈ (s.plan es).remade ∨ (r ∈ namedRanges es ∧ s.fields r ≠ none) := by
  have hp := s.plan_rooted es
  simp only [Plan.needKeys, List.mem_filter, List.mem_range, Bool.and_eq_true, Bool.or_eq_true,
    List.contains_iff_mem] at h
  obtain ⟨hr, hen, hnew⟩ := h
  by_cases hm : r ∈ (s.plan es).remade
  · exact .inl hm
  · have hf : (s.entry r).isEnabled = true := (hp.enabled r hen).resolve_left hm
    refine .inr ⟨(mem_namedRanges es r).mpr ⟨hr, hp.named r ?_⟩, ?_⟩
    · tauto
    · unfold State.fields
      cases he : s.entry r <;> simp_all [Entry.isEnabled, Entry.fields?]

/-- R14: validation runs the edits of the list as its plan does. -/
theorem State.checkEdits_ok (s : State) (es : List Edit) (i : Nat) (p x : Plan) (h : s.checkEdits i p es = .ok x) :
    x = es.foldl Plan.apply p := by
  induction es generalizing i p with
  | nil => exact (Except.ok.inj h).symm
  | cons e es ih =>
    rw [State.checkEdits] at h
    split at h
    · cases h
    · exact ih _ _ h

/-- R14: a list that is valid comes to its plan, and there are pool slots for the new keys. -/
theorem State.validate_ok (s : State) (es : List Edit) (x : Plan) (h : s.validate es = .ok x) :
    x = s.plan es ∧ x.needKeys.length ≤ s.poolCount .empty := by
  unfold State.validate at h
  cases hc : s.checkEdits 0 s.planStart es with
  | error e => simp [hc] at h
  | ok p =>
    simp only [hc] at h
    split at h
    · cases h
    · split at h
      · cases h
      · cases h
        exact ⟨s.checkEdits_ok es 0 _ _ hc, by omega⟩

/-! ### New keys (R29, R18 step 2, R22 step 1) -/

/-- A test that fails at one entry of a list, and is else as before, picks one entry fewer. -/
theorem length_filter_except (l : List Nat) (hl : l.Nodup) (P Q : Nat → Bool) (k : Nat) (hk : k ∈ l) (hP : P k = true)
    (hQ : ∀ x, Q x = (x != k && P x)) : (l.filter Q).length + 1 = (l.filter P).length := by
  have hmem : k ∈ l.filter P := List.mem_filter.mpr ⟨hk, hP⟩
  have he : l.filter Q = (l.filter P).erase k := by
    rw [(hl.filter P).erase_eq_filter, List.filter_filter]
    exact List.filter_congr (fun x _ => hQ x)
  have hpos := List.length_pos_of_mem hmem
  rw [he, List.length_erase_of_mem hmem]; omega

/-- R29: a generation changes no slot but an EMPTY one. -/
theorem State.generate_slot_other (s : State) (r : Nat) (rak : Rak) (x : Nat) (h : (s.slot x).state ≠ .empty) :
    (s.generate r rak).1.slot x = s.slot x := by
  unfold State.generate
  split
  · rfl
  · next k hk =>
    have hst : (s.slot k).state = .empty := by simpa using List.find?_some hk
    have hne : x ≠ k := fun e => h (e ▸ hst)
    exact (slot_mapSlot s k x _).trans (if_neg (fun e => hne e.1))

/-- R29: with an EMPTY pool slot a generation takes one of them for the range, and one fewer is EMPTY. -/
theorem State.generate_takes (s : State) (r : Nat) (rak : Rak) (hs : s.kst.slots.length = 24)
    (he : 0 < s.poolCount .empty) : ∃ k, (s.generate r rak).2 = some k ∧ k < 23 ∧ (s.slot k).state = .empty ∧
      ((s.generate r rak).1.slot k).state = .live ∧ ((s.generate r rak).1.slot k).owner = some r ∧
      (s.generate r rak).1.poolCount .empty + 1 = s.poolCount .empty ∧ (s.generate r rak).1.kst.slots.length = 24 := by
  have hex : s.emptySlot.isSome := by
    obtain ⟨x, hx⟩ := List.exists_mem_of_length_pos he
    obtain ⟨hx, hst⟩ := List.mem_filter.mp hx
    exact List.find?_isSome.mpr ⟨x, hx, hst⟩
  obtain ⟨k, hk⟩ := Option.isSome_iff_exists.mp hex
  have hst : (s.slot k).state = .empty := by simpa using List.find?_some hk
  have hlt : k < 23 := List.mem_range.mp (List.mem_of_find?_eq_some hk)
  obtain ⟨y, hy, hlive, hown⟩ : ∃ y, s.generate r rak = ((s.mapSlot k (fun _ => y)).bump, some k) ∧
      y.state = .live ∧ y.owner = some r := by
    unfold State.generate; rw [hk]; exact ⟨_, rfl, rfl, rfl⟩
  have hslot : ∀ x, (s.generate r rak).1.slot x = if x = k then y else s.slot x := by
    intro x
    rw [hy]
    refine (slot_mapSlot s k x (fun _ => y)).trans (if_congr ⟨fun h => h.1, fun h => ⟨h, by omega⟩⟩ rfl rfl)
  refine ⟨k, by rw [hy], hlt, hst, by rw [hslot, if_pos rfl]; exact hlive, by rw [hslot, if_pos rfl]; exact hown, ?_, ?_⟩
  · refine length_filter_except _ List.nodup_range _ _ k (List.mem_range.mpr hlt) (by simpa using hst) (fun x => ?_)
    rw [hslot]
    by_cases hx : x = k <;> simp [hx, hlive]
  · rw [hy]; simpa [State.bump, State.mapSlot] using hs

/-- The state and the RAK that the new key of range r is made in: a new RAK where the range is made anew. -/
def State.rakFor (s : State) (p : Plan) (raks : List (Nat × Rak)) (r : Nat) : State × Option Rak :=
  if p.remade.contains r then (s.newRak.1, some s.newRak.2) else (s, pairedWith raks r)

/-- Naming a RAK takes no key slot. -/
@[simp] theorem State.rakFor_kst (s : State) (p : Plan) (raks : List (Nat × Rak)) (r : Nat) :
    (s.rakFor p raks r).1.kst = s.kst := by
  unfold State.rakFor; split <;> simp

theorem State.makeKeys_cons_none (s : State) (p : Plan) (raks : List (Nat × Rak)) (r : Nat) (rs : List Nat)
    (h : (s.rakFor p raks r).2 = none) : s.makeKeys p raks (r :: rs) = (s.rakFor p raks r).1.makeKeys p raks rs := by
  rw [State.makeKeys]; dsimp only; unfold State.rakFor at h ⊢; rw [h]

theorem State.makeKeys_cons_some (s : State) (p : Plan) (raks : List (Nat × Rak)) (r : Nat) (rs : List Nat) (k : Rak)
    (h : (s.rakFor p raks r).2 = some k) :
    let g := (s.rakFor p raks r).1.generate r k
    (s.makeKeys p raks (r :: rs)).1 = (g.1.makeKeys p raks rs).1 ∧
      (s.makeKeys p raks (r :: rs)).2.1 = (g.2.map (fun x => (r, x))).toList ++ (g.1.makeKeys p raks rs).2.1 := by
  rw [State.makeKeys]; dsimp only
  unfold State.rakFor at h ⊢
  generalize (if p.remade.contains r = true then (s.newRak.1, some s.newRak.2) else (s, pairedWith raks r)) = q at h ⊢
  rw [h]
  refine ⟨rfl, ?_⟩
  dsimp only
  cases (q.1.generate r k).2 <;> rfl

/-- R22 step 1: new keys leave every slot that is not EMPTY. -/
theorem State.makeKeys_slot_other (s : State) (p : Plan) (raks : List (Nat × Rak)) (l : List Nat) (x : Nat)
    (h : (s.slot x).state ≠ .empty) : (s.makeKeys p raks l).1.slot x = s.slot x := by
  induction l generalizing s with
  | nil => rfl
  | cons r rs ih =>
    have hq : (s.rakFor p raks r).1.slot x = s.slot x := by simp [State.slot]
    cases hk : (s.rakFor p raks r).2 with
    | none => rw [s.makeKeys_cons_none p raks r rs hk, ih _ (hq ▸ h), hq]
    | some k =>
      have hg := (s.rakFor p raks r).1.generate_slot_other r k x (hq ▸ h)
      rw [(s.makeKeys_cons_some p raks r rs k hk).1, ih _ (by rw [hg, hq]; exact h), hg, hq]

/-- R22 step 1: with pool slots and RAKs for all of them, each range of the list has a new key in a slot of the pool that
was EMPTY. -/
theorem State.makeKeys_takes (s : State) (p : Plan) (raks : List (Nat × Rak)) (l : List Nat) (hs : s.kst.slots.length = 24)
    (hl : l.length ≤ s.poolCount .empty) (hr : ∀ r ∈ l, r ∈ p.remade ∨ ∃ k, pairedWith raks r = some k) :
    ∀ n ∈ l, ∃ k, (n, k) ∈ (s.makeKeys p raks l).2.1 ∧ k < 23 ∧ (s.slot k).state = .empty ∧
      ((s.makeKeys p raks l).1.slot k).state = .live ∧ ((s.makeKeys p raks l).1.slot k).owner = some n := by
  induction l generalizing s with
  | nil => simp
  | cons r rs ih =>
    obtain ⟨k, hk⟩ : ∃ k, (s.rakFor p raks r).2 = some k := by
      unfold State.rakFor
      by_cases hm : r ∈ p.remade
      · exact ⟨s.newRak.2, by simp [hm]⟩
      · obtain ⟨k, hk⟩ := (hr r List.mem_cons_self).resolve_left hm
        exact ⟨k, by simp [hm, hk]⟩
    have hq : ∀ x, (s.rakFor p raks r).1.slot x = s.slot x := fun x => by simp [State.slot]
    have hc : (s.rakFor p raks r).1.poolCount .empty = s.poolCount .empty := by simp [State.poolCount, hq]
    obtain ⟨hstate, hslots⟩ := s.makeKeys_cons_some p raks r rs k hk
    obtain ⟨x, hx, hx23, hxe, hxl, hxo, hcount, hsize⟩ :=
      (s.rakFor p raks r).1.generate_takes r k (by simpa using hs) (by rw [hc]; simp at hl; omega)
    rw [hstate, hslots, hx]
    intro n hn
    rcases List.mem_cons.mp hn with rfl | hn
    · have hkeep := State.makeKeys_slot_other _ p raks rs x (by rw [hxl]; decide)
      exact ⟨x, by simp, hx23, by rw [← hq]; exact hxe, by rw [hkeep]; exact hxl, by rw [hkeep]; exact hxo⟩
    · obtain ⟨y, hy, hy23, hye, hrest⟩ := ih _ hsize (by simp at hl; omega)
        (fun q hq => hr q (List.mem_cons_of_mem _ hq)) n hn
      refine ⟨y, by simp [hy], hy23, ?_, hrest⟩
      by_contra hne
      exact hne (by rw [← hq, ← State.generate_slot_other _ r k y (by rw [hq]; exact hne)]; exact hye)

/-! ### What a matching proof leaves to the commit (R48, R52) -/

/-- A proof resets a count, and changes the state of no credential slot. -/
theorem credState_admitted (s : State) (m : Message) (f : Hdr) (p : ProofBlock) (i j : Nat) :
    (((s.begun m f).admitted p i).cred j).record.state = (s.cred j).record.state := by
  have h := (admitted_proved s m f p i).2.1
  unfold State.cred
  rw [h, List.getElem?_modify]
  cases s.cru.slots[j]? with
  | none => rfl
  | some x => simp only [Option.map_eq_map, Option.map_some, Option.getD_some]; split <;> rfl

/-- R14: a list is validated against the table, the jobs, the capacity, the key slots and the states of the credential
slots. -/
theorem validate_congr {s t : State} (hrtb : t.rtb = s.rtb) (hrke : t.rke = s.rke) (hkst : t.kst = s.kst)
    (hcap : t.lif.capacity = s.lif.capacity) (hcred : ∀ j, (t.cred j).record.state = (s.cred j).record.state)
    (es : List Edit) : t.validate es = s.validate es := by
  have hbusy : ∀ p r, t.busyRange p r = s.busyRange p r := fun p r => by
    simp only [State.busyRange, State.inSweep, State.activeJob, State.headJob, hrke]
  have hempty : ∀ l, t.listsEmpty l = s.listsEmpty l := fun l => by simp only [State.listsEmpty, hcred]
  have hcheck : ∀ p e, t.checkEdit p e = s.checkEdit p e := by
    intro p e; cases e <;> simp only [State.checkEdit, hbusy, hempty, hcap]
  have hchecks : ∀ i p, t.checkEdits i p es = s.checkEdits i p es := by
    induction es with
    | nil => intro i p; rfl
    | cons e es ih => intro i p; simp only [State.checkEdits, hcheck, ih]
  have hcount : t.poolCount .empty = s.poolCount .empty := by simp only [State.poolCount, State.slot, hkst]
  have hstart : t.planStart = s.planStart := by simp only [State.planStart, hrtb]
  simp only [State.validate, hchecks, hcount, hstart]

theorem validate_admitted (s : State) (m : Message) (f : Hdr) (p : ProofBlock) (i : Nat) (es : List Edit) :
    ((s.begun m f).admitted p i).validate es = s.validate es :=
  validate_congr (by simp) (by simp) (by simp) (by simp) (credState_admitted s m f p i) es

theorem workingRaks_admitted (s : State) (m : Message) (f : Hdr) (p : ProofBlock) (i : Nat) (w : Option WrapValue)
    (l : List Nat) : ((s.begun m f).admitted p i).workingRaks w l = s.workingRaks w l := by
  induction l with
  | nil => rfl
  | cons r rs ih => simp only [State.workingRaks, fields_admitted, openEnvelope_admitted, ih]

theorem commitRefusal_admitted (s : State) (m : Message) (f : Hdr) (p : ProofBlock) (i : Nat) :
    ((s.begun m f).admitted p i).commitRefusal = s.commitRefusal := by
  simp [State.commitRefusal, State.commitIdle, State.lockdown]

/-! ### The cases of a commit (R12, R14, R15, R22) -/

/-- R12 items 1 to 3: a commit is in progress, a list is deferred, or keys are being cut. -/
def State.CommitBusy (s : State) : Prop :=
  s.rtb.commit ≠ .idle ∨ s.rtb.staged.mark = .deferred ∨
    ∃ k x, s.chain k = some x ∧ x.begun = true ∧ x.steps.head? = some .cutKeys

/-- R12: neither SEALED nor OPEN, or the response level is LOCK or higher. -/
def State.CommitShut (s : State) : Prop :=
  (s.btc.state ≠ .sealed ∧ s.btc.state ≠ .opened) ∨ 2 ≤ s.rsu.level.number

theorem Chain.cutting_iff (c : Option Chain) :
    Chain.cutting c = true ↔ ∃ x, c = some x ∧ x.begun = true ∧ x.steps.head? = some .cutKeys := by
  cases c <;> simp [Chain.cutting]

theorem State.commitIdle_iff (s : State) : s.commitIdle = true ↔ s.rtb.commit = .idle := by
  unfold State.commitIdle; cases s.rtb.commit <;> simp [Commit.phase]

theorem State.cutting_iff (s : State) : (Chain.cutting s.wpe.normal = true ∨ Chain.cutting s.wpe.injected = true) ↔
    ∃ k x, s.chain k = some x ∧ x.begun = true ∧ x.steps.head? = some .cutKeys := by
  rw [Chain.cutting_iff, Chain.cutting_iff]
  constructor
  · rintro (h | h)
    · exact ⟨.normal, h⟩
    · exact ⟨.injected, h⟩
  · rintro ⟨k, h⟩
    cases k
    · exact .inl h
    · exact .inr h

theorem State.commitShut_iff (s : State) : (s.btc.state.usable = false ∨ s.lockdown = true) ↔ s.CommitShut := by
  unfold State.CommitShut State.lockdown
  cases s.btc.state <;> simp [BootState.usable]

/-- R12: the refusals before the list is looked at, in their order. -/
theorem State.commitRefusal_cases (s : State) :
    (s.CommitBusy → s.commitRefusal = some .busy) ∧
    (¬ s.CommitBusy → s.CommitShut → s.commitRefusal = some .wrongState) ∧
    (¬ s.CommitBusy → ¬ s.CommitShut → s.commitRefusal = none) := by
  unfold State.commitRefusal State.CommitBusy
  rw [← s.cutting_iff, ← s.commitShut_iff, Ne, ← s.commitIdle_iff, Bool.not_eq_true]
  refine ⟨?_, ?_, ?_⟩
  · rintro (h | h | h)
    · rw [if_pos h]
    · rw [if_pos h, ite_self]
    · rw [if_pos h, ite_self, ite_self]
  · intro hb hw
    push Not at hb
    obtain ⟨hi, hm, hc⟩ := hb
    rw [if_neg hi, if_neg hm, if_neg (by simpa using hc), if_pos hw]
  · intro hb hw
    push Not at hb
    obtain ⟨hi, hm, hc⟩ := hb
    rw [if_neg hi, if_neg hm, if_neg (by simpa using hc), if_neg hw]

section outcomes
variable {s : State} (g : Option WrapValue) (d : Bool) (rto : ReplyTo)

theorem State.commit_refused {st : Status} (h : s.commitRefusal = some st) :
    s.commit g (some d) rto = s.refuse rto st := by
  simp [State.commit, h]

theorem State.commit_empty (h : s.commitRefusal = none) (he : s.rtb.staged.edits = []) :
    s.commit g (some d) rto = s.refuse rto .done := by
  simp [State.commit, h, he]

theorem State.commit_invalid {st : Status} {i : List Nat} (h : s.commitRefusal = none) (he : s.rtb.staged.edits ≠ [])
    (hv : s.validate s.rtb.staged.edits = .error (st, i)) : s.commit g (some d) rto = s.refuse rto st i := by
  simp [State.commit, h, he, hv]

theorem State.commit_unopened {x : Plan} (h : s.commitRefusal = none) (he : s.rtb.staged.edits ≠ [])
    (hv : s.validate s.rtb.staged.edits = .ok x) (hw : s.workingRaks g (namedRanges s.rtb.staged.edits) = none) :
    s.commit g (some d) rto = s.refuse rto .wrongState := by
  simp [State.commit, h, he, hv, hw]

theorem State.commit_accepted {x : Plan} {raks : List (Nat × Rak)} (h : s.commitRefusal = none)
    (he : s.rtb.staged.edits ≠ []) (hv : s.validate s.rtb.staged.edits = .ok x)
    (hw : s.workingRaks g (namedRanges s.rtb.staged.edits) = some raks) :
    s.commit g (some d) rto = if d then s.defer x raks rto else s.startDrain x raks rto := by
  simp [State.commit, h, he, hv, hw]

end outcomes

/-! ### Acceptance and deferral -/

theorem Framed.trans {as bs : List Piece} {s t u : State} (h : Framed as s t) (k : Framed bs t u) :
    Framed (as ++ bs) s u :=
  ⟨k.1.trans h.1, fun q hq => Piece.same_trans (h.2 q (fun m => hq (List.mem_append_left _ m)))
    (k.2 q (fun m => hq (List.mem_append_right _ m)))⟩

theorem Framed.mono {as bs : List Piece} {s t : State} (h : Framed as s t) (k : as ⊆ bs) : Framed bs s t :=
  ⟨h.1, fun q hq => h.2 q (fun m => hq (k m))⟩

/-- R15: the commit as its drain begins, before the step asks whether the drain waits for any context. -/
def State.drainBegun (s : State) (p : Plan) (raks : List (Nat × Rak)) (rto : ReplyTo) : State :=
  let t := s.interim rto (.status .accepted [])
  { t with rtb := { t.rtb with commit := .draining (affectedSet s.rtb.staged.edits) 5 raks rto }
           kst := { t.kst with reservation := p.needKeys.length } }

theorem State.startDrain_eq (s : State) (p : Plan) (raks : List (Nat × Rak)) (rto : ReplyTo) :
    s.startDrain p raks rto = (s.drainBegun p raks rto).settleDrain := rfl

theorem State.drainBegun_framed (s : State) (p : Plan) (raks : List (Nat × Rak)) (rto : ReplyTo) :
    Framed [.commit, .hold, .sent] s (s.drainBegun p raks rto) := by
  refine ⟨(s.interim_keeps rto _).1, fun q hq => ?_⟩
  cases q <;> first | (exact absurd hq (by decide)) | simp [Piece.same, State.drainBegun]

theorem State.defer_framed (s : State) (p : Plan) (raks : List (Nat × Rak)) (rto : ReplyTo) :
    Framed [.writes, .commit, .keySlots, .names] s (s.defer p raks rto) := by
  refine ⟨(s.defer_keeps p raks rto).1, fun q hq => ?_⟩
  cases q <;> first | (exact absurd hq (by decide)) | simp [Piece.same]

/-- R22: a deferred list is marked beside what was prepared for it, and the key slots are as the preparation left them. -/
theorem State.defer_marks (s : State) (p : Plan) (raks : List (Nat × Rak)) (rto : ReplyTo) :
    let q := s.prepare p (namedRanges s.rtb.staged.edits) raks
    (s.defer p raks rto).rtb.staged = { edits := s.rtb.staged.edits, mark := .deferred, prepared := q.2 } ∧
      (s.defer p raks rto).kst = q.1.kst := by
  simp [State.defer]

/-- R22: the answer waits for the writes of the prepared slots and of the STAGE record. -/
theorem State.defer_holds (s : State) (p : Plan) (raks : List (Nat × Rak)) (rto : ReplyTo) (u : StoreUnit)
    (hu : u ∈ waveOne (s.defer p raks rto).rtb.staged.prepared) :
    (s.defer p raks rto).holds u ((s.defer p raks rto).recordOf u) (.deferredCommit rto) := by
  rw [(s.defer_marks p raks rto).1] at hu
  unfold State.defer
  rw [writeAll_recordOf]
  exact writeAll_holds _ _ _ _ hu

/-- R22: a deferral writes its prepared slots and the STAGE record, and nothing else. -/
theorem State.defer_only (s : State) (p : Plan) (raks : List (Nat × Rak)) (rto : ReplyTo) :
    WritesOnly (waveOne (s.defer p raks rto).rtb.staged.prepared) s (s.defer p raks rto) := by
  rw [(s.defer_marks p raks rto).1]
  unfold State.defer
  exact (writesOnly_of_eq (by simp) (by simp) (by simp) []).trans (writeAll_only _ _ _)

theorem cred_not_mem_waveOne (m : Prepared) (i : Nat) : StoreUnit.cred i ∉ waveOne m := by simp [waveOne]

/-- R22: with pool slots for the new keys and the RAK of every ENABLED range that the list names, each range that needs
a new key has a slot prepared for it, EMPTY before. -/
theorem State.defer_takes (s : State) (raks : List (Nat × Rak)) (rto : ReplyTo) (w : Option WrapValue) (p : Plan)
    (hs : s.kst.slots.length = 24) (hv : s.validate s.rtb.staged.edits = .ok p)
    (hw : s.workingRaks w (namedRanges s.rtb.staged.edits) = some raks) :
    ∀ n ∈ p.needKeys, ∃ k, (n, k) ∈ (s.defer p raks rto).rtb.staged.prepared.slots ∧ k < 23 ∧
      (s.slot k).state = .empty ∧ ((s.defer p raks rto).slot k).state = .live ∧
      ((s.defer p raks rto).slot k).owner = some n := by
  obtain ⟨hp, hcount⟩ := s.validate_ok _ p hv
  have hrak : ∀ r ∈ p.needKeys, r ∈ p.remade ∨ ∃ k, pairedWith raks r = some k := by
    intro r hr
    rw [hp] at hr ⊢
    refine (s.needKeys_named _ r hr).imp_right (fun ⟨hnamed, hf⟩ => ?_)
    cases ho : s.openEnvelope r (.cred 0) w with
    | none =>
      have hnone := (workingRaks_eq_none s w _).mpr ⟨r, hnamed, hf, ho⟩
      rw [hw] at hnone; cases hnone
    | some k => exact pairedWith_of_mem ((mem_workingRaks s w _ raks hw r k).mpr ⟨hnamed, hf, ho⟩)
  have hslot : ∀ k, (s.defer p raks rto).slot k = (s.makeKeys p raks p.needKeys).1.slot k := fun k => by
    unfold State.slot; rw [(s.defer_marks p raks rto).2]; rfl
  intro n hn
  obtain ⟨k, hk, hk23, hke, hkl, hko⟩ := s.makeKeys_takes p raks p.needKeys hs hcount hrak n hn
  rw [(s.defer_marks p raks rto).1]
  exact ⟨k, hk, hk23, hke, by rw [hslot]; exact hkl, by rw [hslot]; exact hko⟩

/-! ### The command -/

section command
variable {f : Hdr} {defer : Option Bool} {i : Nat} {p : ProofBlock} {s : State}
  (hp : (Instr.rangeCommit f defer p).passes s) (hv : (Instr.rangeCommit f defer p).proves s i)
include hp hv

/-- A RANGE_COMMIT whose proof matches comes to the commit's own rules, under the proving slot's grant. -/
theorem rangeCommit_goes : Goes (.rangeCommit f defer p) s
    (((s.begun .rangeCommit f).admitted p i).commit (s.grantValue i) defer (s.replyTo .control f.tag)) := by
  rw [← grant_admitted s .rangeCommit f p i i]
  exact exec_admitted rfl rfl hp hv (fun rto u _ g => u.commit g defer rto) (fun _ => rfl)

/-- A commit that is refused has nothing but its answer beyond the proof. -/
theorem rangeCommit_refused {st : Status} {d : List Nat}
    (h : ((s.begun .rangeCommit f).admitted p i).commit (s.grantValue i) defer (s.replyTo .control f.tag) =
      ((s.begun .rangeCommit f).admitted p i).refuse (s.replyTo .control f.tag) st d) :
    RefusedAfterProof (.rangeCommit f defer p) s i p f.tag st d := by
  have hgo := rangeCommit_goes hp hv
  obtain ⟨-, -, -, htag, -, -⟩ := hp
  refine answered_admitted (m := .rangeCommit) (by decide) rfl (htag rfl (by decide)) ?_
  exact hgo.trans (by rw [h]; rfl)

end command

section checks
variable {f : Hdr} {d : Bool} {i : Nat} {p : ProofBlock} {s : State}
  (hp : (Instr.rangeCommit f (some d) p).passes s) (hv : (Instr.rangeCommit f (some d) p).proves s i)
include hp hv

/-- R12: a commit is refused before its list is looked at. -/
theorem rangeCommit_refused_early {st : Status} (hc : s.commitRefusal = some st) :
    RefusedAfterProof (.rangeCommit f (some d) p) s i p f.tag st [] :=
  rangeCommit_refused hp hv (State.commit_refused _ _ _ ((commitRefusal_admitted ..).trans hc))

/-- R12: an empty list is answered DONE at once. -/
theorem rangeCommit_empty (hc : s.commitRefusal = none) (he : s.rtb.staged.edits = []) :
    AnsweredAfterProof (.rangeCommit f (some d) p) s i p f.tag (.status .done []) :=
  rangeCommit_refused hp hv (State.commit_empty _ _ _ ((commitRefusal_admitted ..).trans hc) (by simpa using he))

/-- R14: a list that is not valid is refused with its status. -/
theorem rangeCommit_invalid (hc : s.commitRefusal = none) (he : s.rtb.staged.edits ≠ []) {st : Status} {e : List Nat}
    (hx : s.validate s.rtb.staged.edits = .error (st, e)) :
    RefusedAfterProof (.rangeCommit f (some d) p) s i p f.tag st e :=
  rangeCommit_refused hp hv (State.commit_invalid _ _ _ ((commitRefusal_admitted ..).trans hc) (by simpa using he)
    (by simpa [validate_admitted] using hx))

/-- R15, R22: a list one of whose ADMIN envelopes does not open is refused WRONG_STATE. -/
theorem rangeCommit_unopened (hc : s.commitRefusal = none) (he : s.rtb.staged.edits ≠ []) {x : Plan}
    (hx : s.validate s.rtb.staged.edits = .ok x)
    (hw : s.workingRaks (s.grantValue i) (namedRanges s.rtb.staged.edits) = none) :
    RefusedAfterProof (.rangeCommit f (some d) p) s i p f.tag .wrongState [] :=
  rangeCommit_refused hp hv (State.commit_unopened (x := x) _ _ _ ((commitRefusal_admitted ..).trans hc)
    (by simpa using he) (by simpa [validate_admitted] using hx) (by simpa [workingRaks_admitted] using hw))

end checks

section accepted
variable {f : Hdr} {d : Bool} {i : Nat} {p : ProofBlock} {s : State} {x : Plan} {raks : List (Nat × Rak)}
  (hp : (Instr.rangeCommit f (some d) p).passes s) (hv : (Instr.rangeCommit f (some d) p).proves s i)
  (hc : s.commitRefusal = none) (he : s.rtb.staged.edits ≠ []) (hx : s.validate s.rtb.staged.edits = .ok x)
  (hw : s.workingRaks (s.grantValue i) (namedRanges s.rtb.staged.edits) = some raks)
include hp hv hc he hx hw

/-- R12, R14: a RANGE_COMMIT that passes every check drains, or is deferred. -/
theorem rangeCommit_accepted : Goes (.rangeCommit f (some d) p) s
    (let a := (s.begun .rangeCommit f).admitted p i
     if d then a.defer x raks (s.replyTo .control f.tag) else a.startDrain x raks (s.replyTo .control f.tag)) := by
  have hrtb : ((s.begun .rangeCommit f).admitted p i).rtb = s.rtb := by simp
  have h := rangeCommit_goes hp hv
  rwa [State.commit_accepted (x := x) (raks := raks) _ _ _ (by rw [commitRefusal_admitted]; exact hc)
    (by rw [hrtb]; exact he) (by rw [hrtb, validate_admitted]; exact hx)
    (by rw [hrtb, workingRaks_admitted]; exact hw)] at h

/-- R15: without defer the commit is accepted at once and drains, 5 seconds on its timer, its new keys reserved. -/
theorem rangeCommit_drains (hd : d = false) : ∃ t, Goes (.rangeCommit f (some d) p) s t.settleDrain ∧
    Framed [.bursts, .tags, .challenges, .credSlots, .writes, .commit, .hold, .sent] s t ∧ Proved s t i p ∧
    WritesOnly [.cred i] s t ∧ t.lif.tagsInUse = s.lif.tagsInUse ++ [f.tag] ∧
    t.rtb = { s.rtb with commit := .draining (affectedSet s.rtb.staged.edits) 5 raks (s.replyTo .control f.tag) } ∧
    t.kst = { s.kst with reservation := x.needKeys.length } ∧
    t.sent = s.sent ++ [frame .control f.tag (.status .accepted [])] := by
  have hgo := rangeCommit_accepted hp hv hc he hx hw
  simp only [hd, Bool.false_eq_true, if_false, State.startDrain_eq] at hgo
  rw [hd]
  have htags := begun_tags s .rangeCommit f rfl (by decide)
  have hkeep := writesOnly_of_eq (s := (s.begun .rangeCommit f).admitted p i)
    (t := ((s.begun .rangeCommit f).admitted p i).drainBegun x raks (s.replyTo .control f.tag))
    (by simp [State.drainBegun]) (by simp [State.drainBegun]) (by simp [State.drainBegun]) []
  refine ⟨_, hgo, (admitted_framed s .rangeCommit f p i).trans (State.drainBegun_framed _ _ _ _),
    (admitted_proved s .rangeCommit f p i).later (by simp [State.drainBegun]) (by simp [State.drainBegun]) hkeep (by simp),
    (admitted_writes s .rangeCommit f p i).trans hkeep, ?_, ?_, ?_, ?_⟩
  · simp [State.drainBegun, htags]
  · simp [State.drainBegun]
  · simp [State.drainBegun]
  · simp [State.drainBegun, State.interim, State.replyTo, State.send, frame]

/-- R22: with defer the list is marked DEFERRED beside its prepared slots, and the answer waits for the writes. -/
theorem rangeCommit_defers (hd : d = true) : ∃ t, Goes (.rangeCommit f (some d) p) s t ∧
    Framed [.bursts, .tags, .challenges, .credSlots, .writes, .commit, .keySlots, .names] s t ∧ Proved s t i p ∧
    t.lif.tagsInUse = s.lif.tagsInUse ++ [f.tag] ∧
    t.rtb.staged.edits = s.rtb.staged.edits ∧ t.rtb.staged.mark = .deferred ∧ t.rtb.commit = s.rtb.commit ∧
    t.holds .stage (.stage t.rtb.staged) (.deferredCommit (s.replyTo .control f.tag)) ∧
    (Shaped s → ∀ n ∈ x.needKeys, ∃ k, (n, k) ∈ t.rtb.staged.prepared.slots ∧ k < 23 ∧ (s.slot k).state = .empty ∧
      (t.slot k).state = .live ∧ (t.slot k).owner = some n) ∧
    (∀ q ∈ t.rtb.staged.prepared.slots,
      t.holds (.key q.2) (t.recordOf (.key q.2)) (.deferredCommit (s.replyTo .control f.tag))) := by
  have hgo := rangeCommit_accepted hp hv hc he hx hw
  simp only [hd, if_true] at hgo
  rw [hd]
  have hrtb : ((s.begun .rangeCommit f).admitted p i).rtb = s.rtb := by simp
  have hkst : ((s.begun .rangeCommit f).admitted p i).kst = s.kst := by simp
  have hval := (validate_admitted s .rangeCommit f p i s.rtb.staged.edits).trans hx
  have hopen := (workingRaks_admitted s .rangeCommit f p i (s.grantValue i) (namedRanges s.rtb.staged.edits)).trans hw
  have hframe := admitted_framed s .rangeCommit f p i
  have hproved := admitted_proved s .rangeCommit f p i
  have hlif : ((s.begun .rangeCommit f).admitted p i).lif.tagsInUse = s.lif.tagsInUse ++ [f.tag] := by
    simp [begun_tags s .rangeCommit f rfl (by decide)]
  generalize (s.begun .rangeCommit f).admitted p i = a at hgo hrtb hkst hval hopen hframe hproved hlif
  generalize s.replyTo .control f.tag = rto at hgo ⊢
  rw [← hrtb] at hval hopen ⊢
  obtain ⟨hstaged, -⟩ := a.defer_marks x raks rto
  refine ⟨_, hgo, (hframe.trans (a.defer_framed x raks rto)).mono (by decide),
    hproved.later (by simp) (by simp) (a.defer_only x raks rto) (cred_not_mem_waveOne _ _),
    by simpa using hlif, by rw [hstaged], by rw [hstaged], by simp,
    a.defer_holds x raks rto .stage (by simp [waveOne]), fun hs => ?_, fun q hq => a.defer_holds x raks rto _ ?_⟩
  · have hslot : ∀ k, s.slot k = a.slot k := fun k => by simp [State.slot, hkst]
    simp only [hslot]
    exact a.defer_takes raks rto _ x (by rw [hkst]; exact hs.keySlots) hval hopen
  · exact List.mem_append_left _ (List.mem_map.mpr ⟨q, hq, rfl⟩)

end accepted

end Sys2Proof.Machine

namespace Sys2Proof
open Machine

/-- Settles O36: the checks of R12 in their order, then the list's validation, its RAKs, and its drain or deferral, each
read off the case of the commit that the state after the proof meets. -/
theorem rangeCommitIsCheckedAndAccepted : Obligations.RangeCommitIsCheckedAndAccepted := by
  refine ⟨mem_affectedSet, fun s w es => ?_, fun f i p s hp hv => rangeCommit_refused hp hv rfl,
    fun f d i p s hp hv => ?_, fun f d i p s hp hv hc he => ?_⟩
  · constructor
    · rw [workingRaks_eq_none]
      simp only [mem_namedRanges]
      grind
    · intro l hl r k
      rw [mem_workingRaks s w _ l hl, mem_namedRanges]
      tauto
  · obtain ⟨hbusy, hshut, hpass⟩ := s.commitRefusal_cases
    exact ⟨fun hb => rangeCommit_refused_early hp hv (hbusy hb),
      fun hb hs => rangeCommit_refused_early hp hv (hshut hb hs),
      fun hb hs he => rangeCommit_empty hp hv (hpass hb hs) he,
      fun hb hs he _ _ hx => rangeCommit_invalid hp hv (hpass hb hs) he hx⟩
  · exact ⟨fun _ _ hx => rangeCommit_invalid hp hv hc he hx,
      fun _ hx hw => rangeCommit_unopened hp hv hc he hx hw,
      fun _ _ hx hw => ⟨rangeCommit_drains hp hv hc he hx hw, rangeCommit_defers hp hv hc he hx hw⟩⟩

end Sys2Proof

/-! R3, R4, R34, R69: what a LOCK does to the ranges of its scope (O29). The ordinary unload of one range comes first, then
the lock of one range and of a list of them, then the cases of the request itself. -/

namespace Sys2Proof.Machine

/-! ### An ordinary unload (R34) -/

/-- What an unload makes of the load state of a range. -/
def Load.unloaded (held : Bool) : Load → Load
  | .notLoaded => .notLoaded
  | .loaded k | .releasing k => if held then .releasing k else .notLoaded

/-- An unload of range r drops the copy of slot x. -/
def State.drops (s : State) (r x : Nat) : Bool :=
  s.load r != .notLoaded && !s.hasHolders r && (s.ownedSlots r).contains x

theorem State.drops_iff (s : State) (r x : Nat) : s.drops r x = true ↔
    s.load r ≠ .notLoaded ∧ s.hasHolders r = false ∧ x < 23 ∧ (s.slot x).state = .live ∧ s.owns r x = true := by
  simp [State.drops, State.ownedSlots, and_assoc]

theorem State.hasHolders_iff (s : State) (r : Nat) : s.hasHolders r = true ↔
    (∃ h, s.kst.hold = some h ∧ h.range = r) ∨ ∃ x ∈ s.namedSlots r, s.owns r x = true ∧ 0 < (s.slot x).users := by
  cases e : s.kst.hold <;> simp [State.hasHolders, e]

/-- A slot loses its copy; one outside the table has none. -/
theorem slot_dropCopy (s : State) (k x : Nat) :
    (s.mapSlot k (fun y => { y with copy := none })).slot x = if x = k then { s.slot x with copy := none } else s.slot x := by
  rw [slot_mapSlot]
  by_cases hx : x < s.kst.slots.length
  · simp [hx]
  · have hblank : s.slot x = .blank := by simp [State.slot, List.getElem?_eq_none (Nat.le_of_not_lt hx)]
    simp [hx, hblank, KeySlot.blank]

theorem slot_dropCopies (l : List Nat) (s : State) (x : Nat) :
    (l.foldl (fun t k => t.mapSlot k (fun y => { y with copy := none })) s).slot x =
      if x ∈ l then { s.slot x with copy := none } else s.slot x := by
  induction l generalizing s with
  | nil => rfl
  | cons k l ih =>
    rw [List.foldl_cons, ih, slot_dropCopy]
    by_cases hk : x = k <;> by_cases hl : x ∈ l <;> simp [hk, hl]

theorem load_setLoad_of_ne (s : State) (r q : Nat) (l : Load) (h : s.load r ≠ .notLoaded) :
    (s.setLoad r l).load q = if q = r then l else s.load q := by
  have hr : r < s.kst.loads.length := by
    by_contra hr
    exact h (by simp [State.load, List.getElem?_eq_none (Nat.le_of_not_lt hr)])
  simp [load_setLoad, hr]

theorem State.dropRange_slot (s : State) (r x : Nat) :
    (s.dropRange r).slot x = if x ∈ s.ownedSlots r then { s.slot x with copy := none } else s.slot x :=
  slot_dropCopies (s.ownedSlots r) s x

theorem State.dropRange_load (s : State) (r q : Nat) (h : s.load r ≠ .notLoaded) :
    (s.dropRange r).load q = if q = r then .notLoaded else s.load q := by
  have hload : ∀ k, ((s.ownedSlots r).foldl (fun t k => t.mapSlot k (fun y => { y with copy := none })) s).load k =
      s.load k := fun k => by simp [State.load]
  unfold State.dropRange
  rw [load_setLoad_of_ne _ _ _ _ (by rwa [hload]), hload]

/-- R34: an unload changes the load of its range alone. -/
theorem State.unload_load (s : State) (r q : Nat) :
    (s.unload r).load q = if q = r then (s.load q).unloaded (s.hasHolders q) else s.load q := by
  by_cases hq : q = r
  · subst hq
    unfold State.unload
    cases hl : s.load q <;> cases hh : s.hasHolders q <;>
      simp [hl, Load.unloaded, load_setLoad_of_ne, State.dropRange_load]
  · unfold State.unload
    cases hl : s.load r <;> cases hh : s.hasHolders r <;>
      simp [hl, hq, load_setLoad_of_ne, State.dropRange_load]

/-- R34: an unload drops copies, and only where nothing holds the range. -/
theorem State.unload_slot (s : State) (r x : Nat) :
    (s.unload r).slot x = if s.drops r x then { s.slot x with copy := none } else s.slot x := by
  unfold State.unload State.drops
  cases hl : s.load r <;> cases hh : s.hasHolders r <;> simp [State.dropRange_slot] <;> rfl

/-! ### The lock of one range (R3, R4) -/

/-- The fields of a range once the named directions are locked. -/
def RangeFields.locked (rd wr : Bool) (g : RangeFields) : RangeFields :=
  { g with readLocked := g.readLocked || rd, writeLocked := g.writeLocked || wr }

/-- Range r is locked both ways once the named directions are. -/
def State.closes (s : State) (rd wr : Bool) (r : Nat) : Bool :=
  match s.fields r with
  | some g => (g.readLocked || rd) && (g.writeLocked || wr)
  | none => false

theorem State.closes_iff (s : State) (rd wr : Bool) (r : Nat) : s.closes rd wr r = true ↔
    ∃ g, (s.fields r).map (RangeFields.locked rd wr) = some g ∧ g.readLocked = true ∧ g.writeLocked = true := by
  unfold State.closes
  cases s.fields r <;> simp [RangeFields.locked]

/-- A range has the same holders in states whose tables and slots differ in lock flags and copies alone. -/
theorem hasHolders_congr {s t : State} (h : TableAlike s t) (hold : t.kst.hold = s.kst.hold)
    (hslot : ∀ x, (t.slot x).owner = (s.slot x).owner ∧ (t.slot x).users = (s.slot x).users) (q : Nat) :
    t.hasHolders q = s.hasHolders q := by
  simp only [State.hasHolders, State.owns, h.named, hold, hslot]

section lockRange
variable {s : State} (hs : Shaped s) (rd wr : Bool) (r : Nat)
include hs

theorem setLocks_fields_locked (q : Nat) : (s.setLocks r rd wr true).fields q =
    if q = r then (s.fields q).map (RangeFields.locked rd wr) else s.fields q := by
  obtain ⟨-, -, -, -, -, hother, hself⟩ := setLocks_changes s r rd wr true
  split
  · next hq =>
    subst hq
    rw [hself hs]
    congr 1; funext g
    cases rd <;> cases wr <;> simp [RangeFields.locked]
  · next hq => unfold State.fields; rw [hother q hq]

theorem setLocks_bothLocked : (s.setLocks r rd wr true).bothLocked r = s.closes rd wr r := by
  unfold State.bothLocked State.closes
  rw [setLocks_fields_locked hs rd wr r r, if_pos rfl]
  cases s.fields r <;> rfl

theorem setLocks_hasHolders (q : Nat) : (s.setLocks r rd wr true).hasHolders q = s.hasHolders q :=
  hasHolders_congr (setLocks_alike s r rd wr true hs) (by simp) (fun x => by simp [State.slot]) q

theorem lockRange_fields (q : Nat) : (s.lockRange rd wr r).fields q =
    if q = r then (s.fields q).map (RangeFields.locked rd wr) else s.fields q := by
  rw [← setLocks_fields_locked hs]
  unfold State.lockRange
  dsimp only
  split
  · simp [State.fields, State.entry]
  · rfl

theorem lockRange_load (q : Nat) : (s.lockRange rd wr r).load q =
    if q = r ∧ s.closes rd wr r = true then (s.load q).unloaded (s.hasHolders q) else s.load q := by
  have hload : ∀ k, (s.setLocks r rd wr true).load k = s.load k := fun k => by simp [State.load]
  unfold State.lockRange
  simp only [setLocks_bothLocked hs]
  split
  · next hc => simp [State.unload_load, hload, setLocks_hasHolders hs, hc]
  · next hc => simp [hload, hc]

theorem lockRange_slot (x : Nat) : (s.lockRange rd wr r).slot x =
    if s.closes rd wr r && s.drops r x then { s.slot x with copy := none } else s.slot x := by
  have hslot : ∀ k, (s.setLocks r rd wr true).slot k = s.slot k := fun k => by simp [State.slot]
  have hdrops : (s.setLocks r rd wr true).drops r x = s.drops r x := by
    simp [State.drops, setLocks_hasHolders hs, State.load, State.ownedSlots, State.owns, State.slot]
  unfold State.lockRange
  simp only [setLocks_bothLocked hs]
  split
  · next hc => simp [State.unload_slot, hslot, hdrops, hc]
  · next hc => simp [hslot, hc]

theorem lockRange_alike : TableAlike s (s.lockRange rd wr r) := by
  intro q
  rw [lockRange_fields hs]
  split
  · cases s.fields q <;> rfl
  · rfl

/-- A lock drops copies, and changes nothing else of a key slot. -/
theorem lockRange_slot_keeps (x : Nat) : ((s.lockRange rd wr r).slot x).state = (s.slot x).state ∧
    ((s.lockRange rd wr r).slot x).owner = (s.slot x).owner ∧ ((s.lockRange rd wr r).slot x).users = (s.slot x).users := by
  rw [lockRange_slot hs]
  split <;> exact ⟨rfl, rfl, rfl⟩

theorem lockRange_hasHolders (q : Nat) : (s.lockRange rd wr r).hasHolders q = s.hasHolders q :=
  hasHolders_congr (lockRange_alike hs rd wr r) (by simp) (fun x => (lockRange_slot_keeps hs rd wr r x).2) q

/-- The lock of one range decides nothing for another. -/
theorem lockRange_other {q : Nat} (hq : q ≠ r) : (s.lockRange rd wr r).closes rd wr q = s.closes rd wr q ∧
    (s.lockRange rd wr r).load q = s.load q ∧ ∀ x, (s.lockRange rd wr r).drops q x = s.drops q x := by
  have hload : (s.lockRange rd wr r).load q = s.load q := by simp [lockRange_load hs, hq]
  refine ⟨by simp [State.closes, lockRange_fields hs, hq], hload, fun x => ?_⟩
  simp only [State.drops, State.ownedSlots, State.owns, hload, lockRange_hasHolders hs, lockRange_slot_keeps hs]

end lockRange

/-! ### The locks of a list of ranges (R69) -/

/-- What the locks of the listed ranges have done to the table and the Key Store. -/
structure RangesLocked (rd wr : Bool) (l : List Nat) (s t : State) : Prop where
  fields : ∀ q, t.fields q = if q ∈ l then (s.fields q).map (RangeFields.locked rd wr) else s.fields q
  load : ∀ q, t.load q =
    if q ∈ l ∧ s.closes rd wr q = true then (s.load q).unloaded (s.hasHolders q) else s.load q
  slot : ∀ x, t.slot x =
    if l.any (fun q => s.closes rd wr q && s.drops q x) then { s.slot x with copy := none } else s.slot x

theorem lockRanges_locked (rd wr : Bool) (l : List Nat) (hl : l.Nodup) (s : State) (hs : Shaped s) :
    RangesLocked rd wr l s (l.foldl (fun t r => t.lockRange rd wr r) s) := by
  induction l generalizing s with
  | nil => exact ⟨fun q => by simp, fun q => by simp, fun x => by simp⟩
  | cons r l ih =>
    obtain ⟨hr, hl⟩ := List.nodup_cons.mp hl
    obtain ⟨hfields, hload, hslot⟩ := ih hl (s.lockRange rd wr r) ((State.lockRange_keeps s rd wr r).shaped hs)
    have hne : ∀ q ∈ l, q ≠ r := fun q hq e => hr (e ▸ hq)
    refine ⟨fun q => ?_, fun q => ?_, fun x => ?_⟩
    · rw [List.foldl_cons, hfields, lockRange_fields hs]
      by_cases hq : q ∈ l
      · simp [hq, hne q hq]
      · simp [hq]
    · rw [List.foldl_cons, hload]
      by_cases hq : q ∈ l
      · obtain ⟨hcloses, hkept, -⟩ := lockRange_other hs rd wr r (hne q hq)
        simp [hq, hcloses, hkept, lockRange_hasHolders hs]
      · by_cases hqr : q = r
        · subst hqr; simp [hq, lockRange_load hs]
        · simp [hq, hqr, lockRange_load hs]
    · have hany : l.any (fun q => (s.lockRange rd wr r).closes rd wr q && (s.lockRange rd wr r).drops q x) =
          l.any (fun q => s.closes rd wr q && s.drops q x) := by
        rw [Bool.eq_iff_iff, List.any_eq_true, List.any_eq_true]
        refine exists_congr fun q => and_congr_right fun hq => ?_
        obtain ⟨hcloses, -, hdrops⟩ := lockRange_other hs rd wr r (hne q hq)
        rw [hcloses, hdrops]
      rw [List.foldl_cons, hslot, hany, lockRange_slot hs, List.any_cons]
      cases s.closes rd wr r && s.drops r x <;> cases l.any (fun q => s.closes rd wr q && s.drops q x) <;> rfl

/-- Locks see and change the table and the Key Store alone. -/
theorem RangesLocked.congr {rd wr : Bool} {l : List Nat} {s s' t t' : State} (h : RangesLocked rd wr l s' t')
    (hk : s'.kst = s.kst) (hr : s'.rtb = s.rtb) (tk : t.kst = t'.kst) (tr : t.rtb = t'.rtb) : RangesLocked rd wr l s t := by
  have hfields : ∀ q, s'.fields q = s.fields q := fun q => by simp [State.fields, State.entry, hr]
  have tfields : ∀ q, t.fields q = t'.fields q := fun q => by simp [State.fields, State.entry, tr]
  have hslot : ∀ x, s'.slot x = s.slot x := fun x => by simp [State.slot, hk]
  have tslot : ∀ x, t.slot x = t'.slot x := fun x => by simp [State.slot, tk]
  have hload : ∀ q, s'.load q = s.load q := fun q => by simp [State.load, hk]
  have tload : ∀ q, t.load q = t'.load q := fun q => by simp [State.load, tk]
  have hcloses : ∀ q, s'.closes rd wr q = s.closes rd wr q := fun q => by simp only [State.closes, hfields]
  have hheld : ∀ q, s'.hasHolders q = s.hasHolders q := fun q => by
    simp only [State.hasHolders, State.namedSlots, State.owns, hfields, hslot, hk]
  have hdrops : ∀ q x, s'.drops q x = s.drops q x := fun q x => by
    simp only [State.drops, State.ownedSlots, State.owns, hload, hheld, hslot]
  refine ⟨fun q => ?_, fun q => ?_, fun x => ?_⟩
  · rw [tfields, h.fields, hfields]
  · rw [tload, h.load, hload, hcloses, hheld]
  · simp only [tslot, h.slot, hslot, hcloses, hdrops]

/-- R34, R69: how the loads and the copies read after the locks of a scope. -/
theorem RangesLocked.unloads {rd wr : Bool} {l : List Nat} {s t : State} (h : RangesLocked rd wr l s t) :
    let both := fun r : Nat => r ∈ l ∧ ∃ g, t.fields r = some g ∧ g.readLocked = true ∧ g.writeLocked = true
    let held := fun r : Nat => (∃ h, s.kst.hold = some h ∧ h.range = r) ∨
      ∃ x ∈ s.namedSlots r, s.owns r x = true ∧ 0 < (s.slot x).users
    (∀ r, ¬ both r → t.load r = s.load r) ∧
    (∀ r, both r →
      (s.load r = .notLoaded → t.load r = .notLoaded) ∧
      (∀ k, (s.load r).rak? = some k → (held r → t.load r = .releasing k) ∧ (¬ held r → t.load r = .notLoaded))) ∧
    (∀ x,
      let dropped := x < 23 ∧ (s.slot x).state = .live ∧
        ∃ r, both r ∧ s.load r ≠ .notLoaded ∧ ¬ held r ∧ s.owns r x = true
      (dropped → t.slot x = { s.slot x with copy := none }) ∧ (¬ dropped → t.slot x = s.slot x)) := by
  intro both held
  have hboth : ∀ r, both r ↔ r ∈ l ∧ s.closes rd wr r = true := fun r =>
    and_congr_right (fun hr => by rw [h.fields, if_pos hr, State.closes_iff])
  have hheld : ∀ r, held r ↔ s.hasHolders r = true := fun r => (s.hasHolders_iff r).symm
  refine ⟨fun r hr => ?_, fun r hr => ⟨fun hn => ?_, fun k hk => ⟨fun hh => ?_, fun hh => ?_⟩⟩, fun x => ?_⟩
  · rw [h.load, if_neg (mt (hboth r).mpr hr)]
  · rw [h.load, if_pos ((hboth r).mp hr), hn, Load.unloaded]
  · rw [h.load, if_pos ((hboth r).mp hr), (hheld r).mp hh]
    cases hl : s.load r <;> simp_all [Load.rak?, Load.unloaded]
  · rw [h.load, if_pos ((hboth r).mp hr), Bool.eq_false_iff.mpr (mt (hheld r).mpr hh)]
    cases hl : s.load r <;> simp [Load.unloaded]
  · intro dropped
    have hdropped : dropped ↔ l.any (fun q => s.closes rd wr q && s.drops q x) = true := by
      simp only [dropped, hboth, hheld, List.any_eq_true, Bool.and_eq_true, State.drops_iff, Bool.not_eq_true]
      constructor
      · rintro ⟨hx, hlive, r, ⟨hr, hc⟩, hn, hh, ho⟩
        exact ⟨r, hr, hc, hn, hh, hx, hlive, ho⟩
      · rintro ⟨r, hr, hc, hn, hh, hx, hlive, ho⟩
        exact ⟨hx, hlive, r, ⟨hr, hc⟩, hn, hh, ho⟩
    exact ⟨fun hd => by rw [h.slot, if_pos (hdropped.mp hd)], fun hd => by rw [h.slot, if_neg (mt hdropped.mpr hd)]⟩

/-! ### The cases of a LOCK (R69) -/

theorem lockDirections_of_fits {d : Nat} (h1 : 1 ≤ d) (h3 : d ≤ 3) :
    lockDirections d = some (d == 1 || d == 3, d == 2 || d == 3) := by
  interval_cases d <;> rfl

theorem lockDirections_eq_none {d : Nat} (h : ¬ (1 ≤ d ∧ d ≤ 3)) : lockDirections d = none := by
  unfold lockDirections
  split
  · omega
  · omega
  · omega
  · rfl

theorem rangeFieldFits_iff (r : Nat) : rangeFieldFits r = true ↔ r < 16 ∨ r = 255 := by simp [rangeFieldFits]

theorem State.lockScope_nodup (s : State) (range i : Nat) : (s.lockScope range i).Nodup := by
  unfold State.lockScope
  split
  · split
    · exact List.nodup_range.filter _
    · exact List.nodup_range.filter _
  · exact List.nodup_singleton _

section cases
variable {s : State} {range direction : Nat} (i : Nat) (rto : ReplyTo)

theorem State.lock_unfit (h : ¬ ((range < 16 ∨ range = 255) ∧ 1 ≤ direction ∧ direction ≤ 3)) :
    s.lock i range direction rto = s.refuse rto .badField := by
  unfold State.lock
  by_cases hd : 1 ≤ direction ∧ direction ≤ 3
  · have hr : rangeFieldFits range = false :=
      Bool.eq_false_iff.mpr (fun hr => h ⟨(rangeFieldFits_iff range).mp hr, hd⟩)
    simp [lockDirections_of_fits hd.1 hd.2, hr]
  · simp [lockDirections_eq_none hd]

theorem State.lock_disabled (h1 : 1 ≤ direction) (h3 : direction ≤ 3) (hr : range < 16) (hf : s.fields range = none) :
    s.lock i range direction rto = s.refuse rto .wrongState := by
  simp [State.lock, lockDirections_of_fits h1 h3, (rangeFieldFits_iff range).mpr (.inl hr), hr, hf]

theorem State.lock_accepted (h1 : 1 ≤ direction) (h3 : direction ≤ 3) (hr : range < 16 ∨ range = 255)
    (hf : range < 16 → s.fields range ≠ none) : s.lock i range direction rto =
      ((s.lockScope range i).foldl (fun t r => t.lockRange (direction == 1 || direction == 3)
        (direction == 2 || direction == 3) r) s).answer rto (.status .ok [(s.lockScope range i).length]) := by
  have hd : ¬ (range < 16 ∧ s.fields range = none) := fun h => hf h.1 h.2
  simp only [State.lock, lockDirections_of_fits h1 h3, (rangeFieldFits_iff range).mpr hr, Bool.true_eq_false,
    if_false, if_neg hd, State.refuse]

end cases

theorem State.lock_framed (s : State) (i range direction : Nat) (rto : ReplyTo) :
    Framed [.tags, .sent, .ranges, .loads, .keySlots] s (s.lock i range direction rto) := by
  refine ⟨(s.lock_keeps i range direction rto).1, fun q hq => ?_⟩
  cases q <;> first | (exact absurd hq (by decide)) | simp [Piece.same]

theorem State.lock_writes (s : State) (i range direction : Nat) (rto : ReplyTo) :
    WritesOnly [] s (s.lock i range direction rto) :=
  writesOnly_of_eq (by simp) (by simp) (by simp) []

/-- A proof keeps what every operation keeps. -/
theorem admitted_keeps (s : State) (m : Message) (f : Hdr) (p : ProofBlock) (i : Nat) :
    Keeps s ((s.begun m f).admitted p i) :=
  ((State.frameTaken_keeps s).trans (State.joinTag_keeps _ m f.tag)).trans
    ((State.consume_keeps _ p).trans (State.proofMatched_keeps _ i))

/-- A piece that is the same after all may be left out of a frame. -/
theorem Framed.drop {q : Piece} {ps qs : List Piece} {s t : State} (h : Framed ps s t) (hq : q.same s t)
    (hsub : ps ⊆ q :: qs) : Framed qs s t := by
  refine ⟨h.1, fun x hx => ?_⟩
  by_cases e : x = q
  · exact e ▸ hq
  · exact h.2 x (fun m => (List.mem_cons.mp (hsub m)).elim e hx)

section command
variable {f : Hdr} {range direction i : Nat} {p : ProofBlock} {s : State}
  (hp : (Instr.lock f range direction p).passes s) (hv : (Instr.lock f range direction p).proves s i)
include hp hv

/-- A LOCK whose proof matches comes to R69's own rules. -/
theorem lock_goes : Goes (.lock f range direction p) s
    (((s.begun .lock f).admitted p i).lock i range direction (s.replyTo .control f.tag)) :=
  exec_admitted rfl rfl hp hv (fun rto u i _ => u.lock i range direction rto) (fun _ => rfl)

/-- A LOCK that is refused has nothing but its answer beyond the proof. -/
theorem lock_refused {st : Status}
    (h : ((s.begun .lock f).admitted p i).lock i range direction (s.replyTo .control f.tag) =
      ((s.begun .lock f).admitted p i).refuse (s.replyTo .control f.tag) st) :
    RefusedAfterProof (.lock f range direction p) s i p f.tag st [] := by
  have hgo := lock_goes hp hv
  obtain ⟨-, -, -, htag, -, -⟩ := hp
  exact answered_admitted (m := .lock) (by decide) rfl (htag rfl (by decide)) (hgo.trans (by rw [h]; rfl))

/-- R69: a LOCK whose fields are right locks its scope and answers the number of ranges. -/
theorem lock_locks (h1 : 1 ≤ direction) (h3 : direction ≤ 3) (hr : range < 16 ∨ range = 255)
    (hf : range < 16 → s.fields range ≠ none) (hs : Shaped s) : ∃ t, Goes (.lock f range direction p) s t ∧
      Framed [.bursts, .challenges, .credSlots, .writes, .sent, .ranges, .loads, .keySlots] s t ∧ Proved s t i p ∧
      WritesOnly [.cred i] s t ∧
      t.sent = s.sent ++ [frame .control f.tag (.status .ok [(s.lockScope range i).length])] ∧
      t.rtb.resealOnWake = s.rtb.resealOnWake ∧
      RangesLocked (direction == 1 || direction == 3) (direction == 2 || direction == 3) (s.lockScope range i) s t := by
  have hgo := lock_goes hp hv
  obtain ⟨-, -, -, htag, -, -⟩ := hp
  have hfree : ∀ x ∈ s.lif.tagsInUse, x ≠ f.tag := fun x hx e => htag rfl (by decide) (e ▸ hx)
  have hrtb : ((s.begun .lock f).admitted p i).rtb = s.rtb := by simp
  have hkst : ((s.begun .lock f).admitted p i).kst = s.kst := by simp
  have hlif := begun_tags s .lock f rfl (by decide)
  have hshaped : Shaped ((s.begun .lock f).admitted p i) := (admitted_keeps s .lock f p i).shaped hs
  have hscope : ((s.begun .lock f).admitted p i).lockScope range i = s.lockScope range i := by
    simp only [State.lockScope, State.enabledRanges, State.listedScope, State.rangesWhere, fields_admitted]
  have hacc := State.lock_accepted (s := (s.begun .lock f).admitted p i) i (s.replyTo .control f.tag) h1 h3 hr
    (by rwa [fields_admitted])
  rw [hscope] at hacc
  have hlocked := lockRanges_locked (direction == 1 || direction == 3) (direction == 2 || direction == 3) _
    (s.lockScope_nodup range i) _ hshaped
  refine ⟨_, hgo, ((admitted_framed s .lock f p i).trans (State.lock_framed _ _ _ _ _)).drop (q := .tags) ?_ (by decide),
    (admitted_proved s .lock f p i).later (by simp) (by simp) (State.lock_writes _ _ _ _ _) (by simp),
    (admitted_writes s .lock f p i).trans (State.lock_writes _ _ _ _ _), ?_, by simp, ?_⟩
  · rw [hacc]
    simp only [Piece.same]
    rw [answer_lif]
    · simpa [State.replyTo, hlif] using hfree
    · simp [State.replyTo]
  · rw [hacc, answer_sent]
    · simp [State.replyTo]
    · simp [State.replyTo]
  · rw [hacc]
    exact hlocked.congr hkst hrtb (by simp) (by simp)

end command

end Sys2Proof.Machine

namespace Sys2Proof
open Machine

/-- Settles O29: the refusals of R69, then the locks of its scope, whose unloads R34 gives. -/
theorem lockLocksItsScope : Obligations.LockLocksItsScope := by
  intro f range direction i p s c hp hv hs fields scope locked
  have hscope : s.lockScope range i = scope := by
    simp [State.lockScope, State.listedScope, scope, custodian]
  have hlocked : RangeFields.locked (direction == 1 || direction == 3) (direction == 2 || direction == 3) = locked := by
    funext g
    simp [RangeFields.locked, locked, Bool.or_assoc]
  refine ⟨fun hn => lock_refused hp hv (State.lock_unfit _ _ hn),
    fun ⟨_, h1, h3⟩ hr hf => ?_, fun ⟨hr, h1, h3⟩ hf => ?_⟩
  · exact lock_refused hp hv (State.lock_disabled _ _ h1 h3 hr (by rwa [fields_admitted]))
  · obtain ⟨t, hgo, hframe, hproved, honly, hsent, hreseal, hlocks⟩ := lock_locks hp hv h1 h3 hr hf hs
    rw [hscope] at hsent hlocks
    exact ⟨t, hgo, hframe, hproved, honly, hsent, hreseal, hlocked ▸ hlocks.fields, hlocks.unloads⟩

end Sys2Proof

/-! R154, R155: where the store places a write and which one it takes into service (O8): an equation for each case of the
placement and of the service, and what both leave as it is. -/

namespace Sys2Proof.Machine

/-! ### Where a write is placed (R154) -/

theorem any_unit_iff (l : List Write) (u : StoreUnit) : l.any (fun w => w.unit == u) = true ↔ ∃ w ∈ l, w.unit = u := by
  simp only [List.any_eq_true, beq_iff_eq]

section place
variable {s : State} {u : StoreUnit} (c : Record) (ws : List Waiter)

/-- R154 case 1, the unit waits in the queue. -/
theorem place_of_queued (hq : ∃ w ∈ s.sst.queue, w.unit = u) :
    s.place u c ws = { s with sst := { s.sst with queue := replaceWrite u c ws s.sst.queue } } := by
  rw [← any_unit_iff] at hq
  simp only [State.place, if_pos hq]

/-- R154 case 1, the unit waits on the wait list. -/
theorem place_of_waits (hq : ¬ ∃ w ∈ s.sst.queue, w.unit = u) (hw : ∃ w ∈ s.sst.waiting, w.unit = u) :
    s.place u c ws = { s with sst := { s.sst with waiting := replaceWrite u c ws s.sst.waiting } } := by
  rw [← any_unit_iff] at hq hw
  simp only [State.place, if_neg hq, if_pos hw]

/-- R154 case 2. -/
theorem place_of_room (hq : ¬ ∃ w ∈ s.sst.queue, w.unit = u) (hw : ¬ ∃ w ∈ s.sst.waiting, w.unit = u)
    (hl : s.sst.queue.length < Config.queueMax) :
    s.place u c ws = { s with sst := { s.sst with queue := s.sst.queue ++ [⟨u, c, ws⟩] } } := by
  rw [← any_unit_iff] at hq hw
  simp only [State.place, if_neg hq, if_neg hw, if_pos hl]

/-- R154 case 3. -/
theorem place_of_full (hq : ¬ ∃ w ∈ s.sst.queue, w.unit = u) (hw : ¬ ∃ w ∈ s.sst.waiting, w.unit = u)
    (hl : Config.queueMax ≤ s.sst.queue.length) :
    s.place u c ws = { s with sst := { s.sst with waiting := s.sst.waiting ++ [⟨u, c, ws⟩] } } := by
  rw [← any_unit_iff] at hq hw
  simp only [State.place, if_neg hq, if_neg hw, if_neg (Nat.not_lt.mpr hl)]

end place

/-- R154: a placement changes no piece of state but the waiting writes. -/
theorem place_framed (s : State) (u : StoreUnit) (c : Record) (ws : List Waiter) : Framed [.writes] s (s.place u c ws) := by
  refine ⟨(s.place_keeps u c ws).1, fun q hq => ?_⟩
  cases q
  case writes => exact absurd (List.mem_singleton_self _) hq
  all_goals simp [Piece.same]

/-! ### Which write is served next (R155) -/

/-- R155: the store serves one write at a time. -/
theorem serve_of_serving {s : State} {w : Write} (h : s.sst.serving = some w) : s.serve = s := by
  simp only [State.serve, h]

theorem serve_of_empty {s : State} (h : s.sst.queue = []) : s.serve = s := by
  cases hs : s.sst.serving with
  | none => simp only [State.serve, hs, h]
  | some w => exact serve_of_serving hs

/-- R154, R155: the head of the queue goes into service, and the head of the wait list, if any, joins the tail. -/
theorem serve_of_head {s : State} {w : Write} {q : List Write} (hs : s.sst.serving = none) (hq : s.sst.queue = w :: q) :
    s.serve = { s with sst := { s.sst with
      serving := some w, queue := q ++ s.sst.waiting.take 1, waiting := s.sst.waiting.drop 1 } } := by
  cases hw : s.sst.waiting with
  | nil => simp [State.serve, hs, hq, hw]
  | cons x l => simp [State.serve, hs, hq, hw]

/-- R155: taking a write into service changes no piece of state but the writes of the store. -/
theorem serve_framed (s : State) : Framed [.writes] s s.serve := by
  refine ⟨s.serve_keeps.1, fun q hq => ?_⟩
  cases q
  case writes => exact absurd (List.mem_singleton_self _) hq
  all_goals simp [Piece.same]

end Sys2Proof.Machine

namespace Sys2Proof
open Machine

/-- Settles O8: the cases of R154 in their order, then the next write that the store serves. -/
theorem storePlacesAndTakesWrites : Obligations.StorePlacesAndTakesWrites := by
  refine ⟨fun s u c ws => ?_, fun s => ⟨serve_framed s, serve_law s, fun _ => serve_of_serving, serve_of_empty,
    fun w q hs hq => ?_⟩⟩
  · refine ⟨rfl, place_law s u c ws, place_framed s u c ws, by simp, fun hq => ?_, fun hq hw => ?_, fun hq hw hl => ?_,
      fun hq hw hl => ?_⟩
    · rw [place_of_queued c ws hq]; exact ⟨rfl, rfl⟩
    · rw [place_of_waits c ws hq hw]; exact ⟨rfl, rfl⟩
    · rw [place_of_room c ws hq hw hl]; exact ⟨rfl, rfl⟩
    · rw [place_of_full c ws hq hw hl]; exact ⟨rfl, rfl⟩
  · rw [serve_of_head hs hq]; exact ⟨rfl, rfl, rfl⟩

end Sys2Proof

/-! What every command and every step keep (O1 to O7): the queue of commands, the manufacture copy of the label verifier,
the sizes of the tables, the law of the store and the account of the media credits. Most commands keep all that `Keeps`
names; the few that end or issue media requests or start the link are taken one by one. -/

namespace Sys2Proof.Machine

/-! ### What a command keeps -/

/-- What every command keeps: the queue of commands, the label copy, and each part of the machine's order. -/
structure InOrder (s t : State) : Prop where
  pending : t.pending = s.pending
  label : t.sst.labelCopy = s.sst.labelCopy
  shaped : Shaped s → Shaped t
  lawful : Lawful s → Lawful t
  credited : Credited s → Credited t

theorem Keeps.inOrder {s t : State} (h : Keeps s t) : InOrder s t := by
  obtain ⟨hp, hl, ho, hf, hm, hs, hw⟩ := h
  exact ⟨hp, hl, hs, hw, fun hc => by unfold Credited; rwa [ho, hf, hm]⟩

theorem InOrder.refl (s : State) : InOrder s s := ⟨rfl, rfl, id, id, id⟩

theorem InOrder.trans {s t u : State} (h : InOrder s t) (k : InOrder t u) : InOrder s u :=
  ⟨k.pending.trans h.pending, k.label.trans h.label, k.shaped ∘ h.shaped, k.lawful ∘ h.lawful, k.credited ∘ h.credited⟩

/-- A command goes on, and keeps the machine's order. -/
def GoesInOrder (s : State) (o : Host.Outcome State Fault Refusal) : Prop := ∃ t, o = .next t ∧ InOrder s t

theorem goesInOrder_done {s t : State} (h : InOrder s t) : GoesInOrder s (done t) :=
  ⟨_, rfl, h.trans t.serve_keeps.inOrder⟩

theorem goesInOrder_keeps {s t : State} (h : Keeps s t) : GoesInOrder s (done t) := goesInOrder_done h.inOrder

theorem goesInOrder_next {s t : State} (h : InOrder s t) : GoesInOrder s (.next t) := ⟨_, rfl, h⟩

/-! ### The requests -/

/-- A request whose action keeps the order. -/
theorem State.request_inOrder (s : State) (m : Message) (f : Hdr) (act : State → ReplyTo → State)
    (h : ∀ t rto, InOrder t (act t rto)) : InOrder s (s.request m f act) := by
  unfold State.request State.take
  split
  · exact .refl s
  · split
    · exact (s.frameTaken_keeps.trans (State.send_keeps _ _ _ _)).inOrder
    · exact (s.frameTaken_keeps.trans (State.joinTag_keeps _ _ _)).inOrder.trans (h _ _)

/-- A request that carries a proof, with an action that keeps. -/
theorem goesInOrder_proven (s : State) (m : Message) (f : Hdr) (fields : List Nat) (n : Nat) (p : ProofBlock)
    (act : ReplyTo → State → Nat → Option WrapValue → State) (h : ∀ rto t i g, Keeps t (act rto t i g)) :
    GoesInOrder s (done (s.request m f (fun t rto => t.proven m fields n p rto (act rto)))) :=
  goesInOrder_keeps (s.request_keeps m f _ fun t rto => t.proven_keeps m fields n p rto _ (h rto))

/-- A request that carries a label proof, with an action that keeps. -/
theorem goesInOrder_labelled (s : State) (m : Message) (f : Hdr) (fields : List Nat) (p : ProofBlock)
    (act : ReplyTo → State → State) (h : ∀ rto t, Keeps t (act rto t)) :
    GoesInOrder s (done (s.request m f (fun t rto => t.labelled m fields p rto (act rto)))) :=
  goesInOrder_keeps (s.request_keeps m f _ fun t rto => t.labelled_keeps m fields p rto _ (h rto))

/-- A request without a proof, with an action that keeps. -/
theorem goesInOrder_request (s : State) (m : Message) (f : Hdr) (act : State → ReplyTo → State)
    (h : ∀ t rto, Keeps t (act t rto)) : GoesInOrder s (done (s.request m f act)) :=
  goesInOrder_keeps (s.request_keeps m f act h)

/-! ### LINK_START, the media requests, and the supplies -/

/-- R170: fields that fit give at most 8 credits. -/
theorem credits_of_linkFieldsFit {credits capacity image scratch size : Nat}
    (h : linkFieldsFit credits capacity image scratch size = true) : credits ≤ 8 := by
  simp only [linkFieldsFit, Bool.and_eq_true, decide_eq_true_eq] at h
  omega

/-- R170, R171: a LINK_START that is taken leaves no request outstanding and every credit free. -/
theorem State.linkStarted_inOrder (s : State) {credits : Nat} (capacity image scratch : Nat) (h : credits ≤ 8) :
    InOrder s (s.linkStarted credits capacity image scratch) := by
  have hfree : InOrder s (if s.lif.started then s.freeAll else s) := by
    split
    · exact s.freeAll_keeps.inOrder
    · exact .refl s
  refine hfree.trans (.trans (t := State.linkParameters _ s.lif.started credits capacity image scratch) ?_
    (((State.linkHello_keeps _).trans (State.linkBeacon_keeps _)).trans (State.linkSweep_keeps _ _)).inOrder)
  exact ⟨rfl, rfl, id, id, fun _ => ⟨Nat.zero_add _, h, List.nodup_nil⟩⟩

theorem State.linkStart_inOrder (s : State) (credits capacity image scratch tag : Nat) :
    InOrder s (s.linkStart credits capacity image scratch tag) := by
  unfold State.linkStart
  split
  · exact (s.send_keeps _ _ _).inOrder
  · next hfit =>
    split
    · exact (s.send_keeps _ _ _).inOrder
    · exact (s.linkStarted_inOrder capacity image scratch (credits_of_linkFieldsFit (by simpa using hfit))).trans
        ((State.send_keeps _ _ _ _).trans (State.settleDrain_keeps _)).inOrder

/-- R174: taking out the one request under a tag shortens the table by one. -/
theorem length_filter_tag {l : List MediaReq} {tag : Nat} {q : MediaReq} (hn : (l.map (fun x => x.tag)).Nodup)
    (hq : l.find? (fun x => x.tag == tag) = some q) : (l.filter (fun x => x.tag != tag)).length + 1 = l.length := by
  induction l with
  | nil => simp at hq
  | cons a l ih =>
    rw [List.map_cons, List.nodup_cons] at hn
    by_cases ha : a.tag = tag
    · have hall : l.filter (fun x => x.tag != tag) = l := List.filter_eq_self.mpr fun x hx => by
        simpa using fun hx' : x.tag = tag => hn.1 (List.mem_map.mpr ⟨x, hx, hx'.trans ha.symm⟩)
      simp [ha, hall]
    · simp only [List.find?_cons, beq_eq_false_iff_ne.mpr ha] at hq
      simpa [ha] using ih hn.2 hq

/-- R174: a request that ends gives its credit back. -/
theorem State.endRequest_inOrder (s : State) {tag : Nat} {q : MediaReq} (h : s.request? tag = some q) :
    InOrder s (s.endRequest tag) :=
  ⟨rfl, rfl, id, id, fun ⟨hsum, hmax, hnodup⟩ =>
    ⟨by have := length_filter_tag hnodup h; simp only [State.endRequest]; omega, hmax,
      (List.filter_sublist.map _).nodup hnodup⟩⟩

theorem State.mediaReply_inOrder (s : State) (tag kind status : Nat) (data : Option Block) :
    InOrder s (s.mediaReply tag kind status data) := by
  unfold State.mediaReply
  split
  · exact .refl s
  · refine s.frameTaken_keeps.inOrder.trans ?_
    dsimp only
    split
    · next q hq =>
      split
      · exact (State.endRequest_inOrder _ hq).trans (State.mediaEnded_keeps _ _ _).inOrder
      · exact .refl _
    · exact .refl _

theorem State.mediaTimeout_inOrder (s : State) (tag : Nat) : InOrder s (s.mediaTimeout tag) := by
  unfold State.mediaTimeout
  split
  · next q hq => exact (s.endRequest_inOrder hq).trans (State.mediaEnded_keeps _ _ _).inOrder
  · exact .refl s

/-- R174: an issued request takes a free credit and a tag that no outstanding one has. -/
theorem State.issue_inOrder (s : State) (k : MediaKind) (c : Client) (b : Body) (h : s.lif.freeCredits ≠ 0) :
    InOrder s (s.issue k c b) := by
  refine ⟨rfl, rfl, id, id, fun ⟨hsum, hmax, hnodup⟩ => ⟨?_, hmax, ?_⟩⟩
  · simp only [State.issue, State.send, List.length_append, List.length_singleton]; omega
  · obtain ⟨-, -, -, hfree, -⟩ := s.mediaTag_cycle (by omega)
    simp only [State.issue, State.send, List.map_append, List.map_singleton]
    exact List.nodup_append.mpr ⟨hnodup, List.nodup_singleton _, fun a ha b hb hab => hfree (by simp_all)⟩

theorem State.grantCredit_inOrder (s : State) : InOrder s s.grantCredit := by
  unfold State.grantCredit
  split
  · exact .refl s
  · next hfree =>
    split
    · exact s.issue_inOrder _ _ _ hfree
    · next o _ _ =>
      exact (s.issue_inOrder _ _ (s.chunkFrame o).2 hfree).trans ⟨rfl, rfl, fun h => h, fun h => h, fun h => h⟩
    · exact s.issue_inOrder _ _ _ hfree
    · exact .refl s

/-- R156: without the main supply the link has no credit. -/
theorem State.mainRemoved_inOrder (s : State) : InOrder s s.mainRemoved := by
  unfold State.mainRemoved
  split
  · refine (State.cutStore_keeps s).inOrder.trans ⟨rfl, rfl, fun h => ?_, fun h => h, fun _ => ⟨rfl, Nat.zero_le 8, List.nodup_nil⟩⟩
    have hc := h.credSlots
    have hk := h.keySlots
    have he := h.entries
    have hs := h.settings
    simp_all [State.blackout, DataPath.blank]
  · exact .refl s

/-! ### The start-up and the timebase -/

theorem foldl_modify_length {α β : Type} (g : α → β → β) (i : α → Nat) (l : List α) (x : List β) :
    (l.foldl (fun y a => y.modify (i a) (g a)) x).length = x.length := by
  induction l generalizing x with
  | nil => rfl
  | cons a l ih => simp [ih]

theorem State.readStore_inOrder (s : State) (u : StartInputs) : InOrder s (s.readStore u) := by
  refine ⟨rfl, rfl, fun h => ?_, fun _ => waitLaw_nil, fun _ => ⟨rfl, Nat.zero_le 8, List.nodup_nil⟩⟩
  have hkey : (u.badKeys.foldl (fun l k => l.modify k (fun c => c.map KeyRecord.spoil)) s.sst.units.key).length = 24 :=
    (foldl_modify_length _ id _ _).trans h.keyUnits
  have hrange : (u.badEnvelopes.foldl (fun l r => l.modify r (fun c => c.map Entry.spoil)) s.sst.units.range).length = 16 :=
    (foldl_modify_length _ id _ _).trans h.rangeUnits
  simp [State.readStore, Units.spoil, DataPath.blank, h, hkey, hrange]

theorem State.startUp_inOrder (s : State) (u : StartInputs) : InOrder s (s.startUp u) :=
  (s.readStore_inOrder u).trans
    ((State.rebuild_keeps _).trans ((State.chooseBoot_keeps _).trans ((State.undoProvision_keeps _).trans
      ((State.startLocks_keeps _).trans ((State.startSettle_keeps _).trans (State.takeLatch_keeps _ _ _)))))).inOrder

/-- R158, R174: a second changes the remaining times of the media requests, not their tags. -/
theorem State.second_inOrder (s : State) : InOrder s s.second := by
  unfold State.second
  split
  · refine ⟨rfl, rfl, fun h => ?_, id, fun ⟨hsum, hmax, hnodup⟩ => ⟨?_, hmax, ?_⟩⟩
    · simp [Credentials.tick, Response.tick, h]
    · simpa [Link.tick] using hsum
    · simpa [Link.tick, Function.comp_def] using hnodup
  · exact .refl s

/-- R158: the pieces of state that a second may change. -/
theorem State.second_framed (s : State) :
    Framed [.credSlots, .challenges, .boot, .commit, .media, .response, .power] s s.second := by
  refine ⟨by unfold State.second; split <;> rfl, fun q hq => ?_⟩
  unfold State.second
  split <;> cases q <;> simp_all [Piece.same, Credentials.tick, Link.tick]

/-! ### Every command -/

theorem keeps_refl (s : State) : Keeps s s := ⟨rfl, rfl, rfl, rfl, rfl, id, id⟩

theorem execRangeStage_goes (f : Hdr) (e : EditFields) (p : ProofBlock) (s : State) :
    GoesInOrder s (execRangeStage f e p s) :=
  goesInOrder_proven s _ f _ _ p _ fun _ _ _ _ => by
    split
    · exact State.stage_keeps _ _ _
    · exact State.refuse_keeps _ _ _ _

theorem execRangeList_goes (f : Hdr) (start : Nat) (p : Option ProofBlock) (s : State) :
    GoesInOrder s (execRangeList f start p s) := by
  refine goesInOrder_keeps (s.take_keeps _ f _ _ fun t rto => ?_)
  cases p with
  | none => exact t.listPlain_keeps start rto
  | some b => exact t.proven_keeps _ _ _ b rto _ fun u _ _ => u.listFull_keeps start rto

theorem execStartUp_goes (u : StartInputs) (s : State) : GoesInOrder s (execStartUp u s) := by
  unfold execStartUp
  split
  · exact goesInOrder_next (.refl s)
  · exact goesInOrder_done (s.startUp_inOrder u)

/-- Every command goes on and keeps the machine's order. -/
theorem exec_goesInOrder (c : Instr) (s : State) : GoesInOrder s (exec c s) := by
  cases c with
  | linkStart f credits capacity image scratch =>
    exact goesInOrder_done (s.request_inOrder _ f _ fun t rto => t.linkStart_inOrder credits capacity image scratch rto.tag)
  | identify f => exact goesInOrder_request s _ f _ fun t rto => t.answer_keeps rto _
  | status f => exact goesInOrder_request s _ f _ fun t rto => t.answer_keeps rto _
  | setReplyLimit f channel limit => exact goesInOrder_request s _ f _ fun t rto => t.replyLimit_keeps channel limit rto
  | challenge f => exact goesInOrder_request s _ f _ fun t rto => t.challenge_keeps rto
  | setCredential => exact goesInOrder_proven s _ _ _ _ _ _ fun _ _ _ _ => State.setCredential_keeps _ _ _ _ _ _ _ _
  | resetAttempts => exact goesInOrder_proven s _ _ _ _ _ _ fun _ _ _ _ => State.resetAttempts_keeps _ _ _
  | slotList f start => exact goesInOrder_request s _ f _ fun t rto => t.slotList_keeps start rto
  | provision => exact goesInOrder_labelled s _ _ _ _ _ fun _ _ => State.provision_keeps _ _ _ _ _ _ _
  | unlock => exact goesInOrder_proven s _ _ _ _ _ _ fun _ _ _ _ => State.unlock_keeps _ _ _ _ _
  | lock => exact goesInOrder_proven s _ _ _ _ _ _ fun _ _ _ _ => State.lock_keeps _ _ _ _ _
  | bindPlatform => exact goesInOrder_proven s _ _ _ _ _ _ fun _ _ _ _ => State.bindPlatform_keeps _ _ _ _
  | startImageUnseal => exact goesInOrder_proven s _ _ _ _ _ _ fun _ _ _ _ => State.unseal_keeps _ _ _
  | rangeList f start p => exact execRangeList_goes f start p s
  | rangeStage f e p => exact execRangeStage_goes f e p s
  | rangeDiscard => exact goesInOrder_proven s _ _ _ _ _ _ fun _ _ _ _ => State.discard_keeps _ _
  | rangeCommit => exact goesInOrder_proven s _ _ _ _ _ _ fun _ _ _ _ => State.commit_keeps _ _ _ _
  | rekeyQueue => exact goesInOrder_proven s _ _ _ _ _ _ fun _ _ _ _ => State.queueRekey_keeps _ _ _ _
  | rekeyResume => exact goesInOrder_proven s _ _ _ _ _ _ fun _ _ _ _ => State.resumeRekey_keeps _ _ _ _
  | rekeyStatus f => exact goesInOrder_request s _ f _ fun t rto => t.answerLong_keeps rto _ _
  | evidenceSet => exact goesInOrder_proven s _ _ _ _ _ _ fun _ _ _ _ => State.evidenceSet_keeps _ _ _ _
  | evidenceList => exact goesInOrder_proven s _ _ _ _ _ _ fun _ _ _ _ => State.evidenceList_keeps _ _ _
  | responseStatus f => exact goesInOrder_request s _ f _ fun t rto => t.answerLong_keeps rto _ _
  | responseClear => exact goesInOrder_proven s _ _ _ _ _ _ fun _ _ _ _ => State.responseClear_keeps _ _
  | remoteOrder => exact goesInOrder_proven s _ _ _ _ _ _ fun _ _ _ _ => State.remoteOrder_keeps _ _ _
  | wipeStart => exact goesInOrder_proven s _ _ _ _ _ _ fun _ _ _ _ => State.wipeStart_keeps _ _ _
  | wipeAbort => exact goesInOrder_proven s _ _ _ _ _ _ fun _ _ _ _ => State.wipeAbort_keeps _ _
  | wipeStatus f => exact goesInOrder_request s _ f _ fun t rto => t.answerLong_keeps rto _ _
  | reprovision => exact goesInOrder_labelled s _ _ _ _ _ fun _ _ => State.reprovision_keeps _ _
  | xferOpen f direction first count =>
    exact goesInOrder_request s _ f _ fun t rto => t.xferOpen_keeps direction first count rto
  | xferBlock f c g i data => exact goesInOrder_request s _ f _ fun t rto => t.xferBlock_keeps c g i data rto
  | xferClose f c g => exact goesInOrder_request s _ f _ fun t rto => t.xferClose_keeps c g rto
  | platformHello f token =>
    exact goesInOrder_request s _ f _ fun t rto => (t.hello_keeps token).trans (State.refuse_keeps _ _ _ _)
  | presence f p => exact goesInOrder_request s _ f _ fun t rto => (t.presence_keeps p).trans (State.answer_keeps _ _ _)
  | motion f => exact goesInOrder_request s _ f _ fun t rto => (t.raise_keeps 1).trans (State.refuse_keeps _ _ _ _)
  | standbyEnter f => exact goesInOrder_request s _ f _ fun t rto => t.standbyEnter_keeps rto
  | standbyExit f => exact goesInOrder_request s _ f _ fun t rto => t.standbyExit_keeps rto
  | powerDown f => exact goesInOrder_request s _ f _ fun t rto => t.powerDown_keeps rto
  | mediaReply tag kind status data => exact goesInOrder_done (s.mediaReply_inOrder tag kind status data)
  | headerCheckFail => exact goesInOrder_next s.dropBurst_keeps.inOrder
  | frameDamaged ch tag => exact goesInOrder_next (s.damagedFrame_keeps ch tag).inOrder
  | burstEnd => exact goesInOrder_keeps s.burstEnd_keeps
  | motionInEdge => exact goesInOrder_keeps (s.edge_keeps 1)
  | tamperInEdge => exact goesInOrder_keeps (s.edge_keeps 2)
  | retentionSupplyWarning =>
    refine goesInOrder_next ?_
    split
    · exact (s.latch_keeps 6).inOrder
    · exact .refl s
  | retentionSupplyLost => exact goesInOrder_next s.retentionLost_keeps.inOrder
  | retentionSupplyReturn => exact goesInOrder_next ⟨rfl, rfl, id, id, id⟩
  | mainSupplyRemoved => exact goesInOrder_next s.mainRemoved_inOrder
  | startUp u => exact execStartUp_goes u s
  | startUpComplete => exact goesInOrder_next s.startUpComplete_keeps.inOrder
  | storeWriteComplete => exact goesInOrder_keeps s.writeDone_keeps
  | cipherTransformComplete core => exact goesInOrder_keeps (s.transformDone_keeps core)
  | cipherCoreGrant => exact goesInOrder_next s.grantCore_keeps.inOrder
  | mediaCreditGrant => exact goesInOrder_next s.grantCredit_inOrder
  | challengeExpiry entry => exact goesInOrder_next ⟨rfl, rfl, fun h => by simp [h], id, id⟩
  | backoffExpiry slot => exact goesInOrder_next (s.mapCred_keeps slot _).inOrder
  | drainTimerExpiry => exact goesInOrder_keeps s.drainExpired_keeps
  | helloWindowExpiry => exact goesInOrder_keeps s.helloExpired_keeps
  | delayTimerExpiry => exact goesInOrder_keeps s.timerExpired_keeps
  | absenceThreshold => exact goesInOrder_keeps s.absenceReached_keeps
  | alarmMinimumExpiry => exact goesInOrder_next ⟨rfl, rfl, id, id, id⟩
  | mediaTimeout tag => exact goesInOrder_done (s.mediaTimeout_inOrder tag)
  | commitWriting => exact goesInOrder_keeps s.settleDrain_keeps
  | rekeyJobStart => exact goesInOrder_keeps s.rekeyJobStart_keeps
  | chunkForm => exact goesInOrder_keeps s.chunkForm_keeps
  | chunkClaim => exact goesInOrder_next s.chunkClaim_keeps.inOrder
  | wipeStepBegin k => exact goesInOrder_keeps (s.beginStep_keeps k)
  | standbyDrainEnd => exact goesInOrder_keeps s.standbyDrainEnd_keeps
  | powerDownDrainEnd => exact goesInOrder_keeps s.powerDownDrainEnd_keeps
  | unknownKind ch tag => exact goesInOrder_next (s.unknownKind_keeps ch tag).inOrder

/-! ### Every step -/

/-- A step keeps what a property of the order says, once the rest of the queue of commands does not matter to it. -/
theorem step_inOrder {P : State → Prop} (hpop : ∀ (s : State) (l : List Instr), P s → P { s with pending := l })
    (hkeep : ∀ s t : State, InOrder s t → P s → P t) {s t : State} (hs : P s) (h : step s = .next t) : P t := by
  unfold step at h
  split at h
  · next c rest hp =>
    obtain ⟨u, hu, hin⟩ := exec_goesInOrder c { s with pending := rest }
    rw [hu, Host.Outcome.next.injEq] at h
    exact h ▸ hkeep _ _ hin (hpop s rest hs)
  · rw [Host.Outcome.next.injEq] at h
    exact h ▸ hkeep _ _ s.second_inOrder hs

end Sys2Proof.Machine

namespace Sys2Proof
open Machine

/-- Settles O4. -/
theorem stepKeepsTableSizes : Obligations.StepKeepsTableSizes := fun _ _ hs h =>
  step_inOrder (fun _ _ h => h) (fun _ _ k => k.shaped) hs h

/-- Settles O5. -/
theorem stepKeepsStoreLaw : Obligations.StepKeepsStoreLaw := fun _ _ hs h =>
  step_inOrder (fun _ _ h => h) (fun _ _ k => k.lawful) hs h

/-- Settles O6. -/
theorem stepKeepsMediaCredits : Obligations.StepKeepsMediaCredits := fun _ _ hs h =>
  step_inOrder (fun _ _ h => h) (fun _ _ k => k.credited) hs h

/-- Settles O1. -/
theorem stepRunsFrontCommand : Obligations.StepRunsFrontCommand := fun c rest s h => by
  simp only [step, h]

/-- Settles O2: the second of an empty queue, by the power state. -/
theorem idleStepPassesOneSecond : Obligations.IdleStepPassesOneSecond := by
  intro s hp
  have hstep : step s = .next s.second := by simp only [step, hp]
  rw [hstep]
  constructor
  · intro h
    simp [State.second, h]
  · intro h
    refine ⟨_, rfl, s.second_framed, ?_⟩
    rw [show s.second = _ from if_pos h]
    refine ⟨rfl, rfl, rfl, rfl, rfl, ?_, rfl, ?_, ?_⟩
    · simp [Response.tick, tickOption]
    · rintro a n k rto hc
      by_cases ha : s.sst.power = .active <;> simp [hc, ha, Commit.tick]
    · intro hc
      split
      · cases hk : s.rtb.commit with
        | draining a n k rto => exact absurd hk (hc a n k rto)
        | idle => rfl
        | writing => rfl
      · rfl

/-- Settles O7: the reset state is a value, and each clause is read off it. -/
theorem resetIsBlankPart : Obligations.ResetIsBlankPart := by
  unfold Obligations.ResetIsBlankPart
  refine ⟨?_, waitLaw_nil, ⟨rfl, Nat.zero_le 8, List.nodup_nil⟩, ?_⟩
  · simp [Shaped, State.reset, Units.manufacture, DataPath.blank]
  · refine ⟨rfl, rfl, rfl, rfl, rfl, rfl, rfl, rfl, rfl, rfl, rfl, rfl, rfl, rfl, rfl, rfl, rfl, rfl, rfl, ?_⟩
    refine ⟨by decide, by decide, by decide, ⟨_, rfl, rfl, rfl, rfl, rfl⟩, ?_⟩
    refine ⟨by decide, by decide, rfl, by decide, by decide, rfl, rfl, rfl, rfl, rfl, rfl, rfl⟩

/-- Settles O3: what every command keeps says it. -/
theorem everyCommandGoesOn : Obligations.EveryCommandGoesOn := fun c s =>
  let ⟨t, h, k⟩ := exec_goesInOrder c s
  ⟨t, h, k.pending, k.label⟩

end Sys2Proof

/-! How a request is taken and a proof is checked (O9, O10, O11): the Link Interface's checks (R163, R165, R169, R177) by
the status that refuses, then the Credential Unit's (R48 to R54). -/

namespace Sys2Proof.Machine

/-! ### The Link Interface's checks -/

theorem Message.early_iff (m : Message) : Message.early m = true ↔ m ∈ [Message.linkStart, .identify, .status] := by
  cases m <;> simp [Message.early]

/-- R163, R166: a request that is not taken leaves no trace. -/
theorem take_of_deaf {s : State} (h : s.takesFrames = false ∨ s.lif.burstDropped = true) (m : Message) (f : Hdr)
    (fits : Bool) (act : State → ReplyTo → State) : s.take m f fits act = s :=
  if_pos (by simpa [State.deaf] using h)

/-- R177: a request that a check refuses is answered, and counts among the frames taken. -/
theorem take_of_refusal {s : State} {m : Message} {f : Hdr} {fits : Bool} {st : Status} (ht : s.takesFrames = true)
    (hb : s.lif.burstDropped = false) (hr : s.refusal m f fits = some st) (act : State → ReplyTo → State) :
    s.take m f fits act = s.answered m f (.status st []) := by
  have hd : s.deaf = false := by simp [State.deaf, ht, hb]
  unfold State.take
  simp only [hd, hr]
  rfl

/-- R165, R169, R177: the status that refuses a request, check by check. -/
theorem refusal_cases (s : State) (m : Message) (f : Hdr) (fits : Bool) :
    let inUse := m.channel = .control ∧ m ≠ .linkStart ∧ f.tag ∈ s.lif.tagsInUse
    (f.tag = 0 → s.refusal m f fits = some .badField) ∧
    (f.tag ≠ 0 → inUse → s.refusal m f fits = some .tagInUse) ∧
    (f.tag ≠ 0 → ¬ inUse → s.lif.started = false → m ∉ [Message.linkStart, .identify, .status] →
      s.refusal m f fits = some .notStarted) ∧
    (f.tag ≠ 0 → ¬ inUse → (s.lif.started = true ∨ m ∈ [Message.linkStart, .identify, .status]) → fits = false →
      s.refusal m f fits = some .badLength) := by
  simp only [← Message.early_iff]
  unfold State.refusal
  refine ⟨fun h => if_pos h, fun h hu => ?_, fun h hu hs he => ?_, fun h hu hs hf => ?_⟩
  · rw [if_neg h, if_pos hu]
  · rw [if_neg h, if_neg hu, if_pos ⟨hs, by simpa using he⟩]
  · rw [if_neg h, if_neg hu, if_neg (by rcases hs with hs | hs <;> simp [hs]), if_pos hf]

/-- A request that passes the checks is admitted to its rules under a CONTROL tag that was not in use. -/
theorem Passes.of_request {c : Instr} {s : State} {m : Message} {f : Hdr} {fits : Bool}
    (hr : c.asRequest = some (m, f, fits)) (h : c.passes s) : Passes s m f fits := by
  unfold Instr.passes at h; rwa [hr] at h

/-! ### The order of the proof checks -/

/-- R48 checks 1 to 3: the slot that refuses. -/
theorem slotRefusal_cases (s : State) (i : Nat) :
    ((10 ≤ i ∨ (s.cred i).record.state = .empty ∨ (s.cred i).record.state = .disabled) →
      s.slotRefusal i = some (.badSlot, [])) ∧
    (i < 10 → (s.cred i).record.state = .blocked → s.slotRefusal i = some (.blockedSlot, [])) ∧
    (∀ k, i < 10 → (s.cred i).record.state = .enabled → (s.cred i).backoff = some k →
      s.slotRefusal i = some (.backoff, [k])) ∧
    (i < 10 → (s.cred i).record.state = .enabled → (s.cred i).backoff = none → s.slotRefusal i = none) := by
  unfold State.slotRefusal
  refine ⟨fun h => ?_, fun h hs => ?_, fun k h hs hb => ?_, fun h hs hb => ?_⟩
  · split
    · rfl
    · rcases h with h | h | h
      · contradiction
      · rw [h]
      · rw [h]
  · rw [if_neg (by omega), hs]
  · rw [if_neg (by omega), hs, hb]
  · rw [if_neg (by omega), hs, hb]

section proven
variable {s : State} {p : ProofBlock} (m : Message) (fields : List Nat) (n : Nat) (rto : ReplyTo)
  (act : State → Nat → Option WrapValue → State)

/-- R48 checks 1 to 3: nothing is counted and no challenge is consumed. -/
theorem proven_of_slotRefusal {st : Status} {d : List Nat} (h : s.slotRefusal p.slot = some (st, d)) :
    s.proven m fields n p rto act = s.refuse rto st d := by
  unfold State.proven; rw [h]

/-- R48 check 4. -/
theorem proven_of_stale (h : s.slotRefusal p.slot = none) (hc : s.challengeOf p = none) :
    s.proven m fields n p rto act = s.refuse rto .staleChallenge := by
  unfold State.proven; rw [h, hc]

/-- R49: a proof that does not match. -/
theorem proven_of_mismatch {ch : Challenge} {v : Verifier} (h : s.slotRefusal p.slot = none)
    (hc : s.challengeOf p = some ch) (hv : s.verifier p.slot = some v)
    (hp : p.proof ≠ .digest v.secret ch.nonce (digestText m fields)) :
    s.proven m fields n p rto act = (s.consume p).failProof p.slot rto := by
  have hv' : (s.consume p).verifier p.slot = some v := hv
  unfold State.proven
  simp [h, hc, hv', Verifier.matches, hp]

/-- R52, R53: a proof that matches under a slot that may not make the request. -/
theorem proven_of_notPermitted {i : Nat} (h : Proves s m fields i p) (hn : s.permits m i n = false) :
    s.proven m fields n p rto act = (s.admitted p i).refuse rto .notPermitted := by
  obtain ⟨rfl, hi, hs, hb, ch, v, hc, hv, hp⟩ := h
  have hslot := (slotRefusal_cases s p.slot).2.2.2 hi hs hb
  have hv' : (s.consume p).verifier p.slot = some v := hv
  have hfields : ∀ r, ((s.consume p).proofMatched p.slot).fields r = s.fields r := fun r =>
    congrArg (fun x : Ranges => Entry.fields? (x.entries[r]?.getD .disabled)) (admitted_frame s p p.slot).2.2.2.1
  have hn' : ((s.consume p).proofMatched p.slot).permits m p.slot n = false := by
    rw [← hn]; simp [State.permits, State.rangePermits, State.listsHold, hfields]
  unfold State.proven
  simp [hslot, hc, hv', Verifier.matches, hp, hn', State.admitted]

end proven

/-- R54: a label proof that does not match, or that names a free challenge. -/
theorem labelled_cases {s : State} (m : Message) (fields : List Nat) {p : ProofBlock} (rto : ReplyTo)
    (act : State → State) (h : p.slot = 255) :
    (∀ ch, s.challengeOf p = some ch → p.proof ≠ .digest s.btc.labelVerifier.secret ch.nonce (digestText m fields) →
      s.labelled m fields p rto act = (s.consume p).refuse rto .badProof) ∧
    (s.challengeOf p = none → s.labelled m fields p rto act = s.refuse rto .staleChallenge) := by
  unfold State.labelled
  refine ⟨fun ch hc hp => ?_, fun hc => ?_⟩
  · have hl : (s.consume p).btc.labelVerifier = s.btc.labelVerifier := rfl
    simp [h, hc, Verifier.matches, hp]
  · simp [h, hc]

/-! ### What the request's own checks leave to the proof's -/

theorem begun_cred (s : State) (m : Message) (f : Hdr) (i : Nat) : (s.begun m f).cred i = s.cred i := by
  unfold State.cred; rw [(begun_frame s m f).1]

theorem begun_slotRefusal (s : State) (m : Message) (f : Hdr) (i : Nat) :
    (s.begun m f).slotRefusal i = s.slotRefusal i := by
  unfold State.slotRefusal; rw [begun_cred]

theorem begun_challengeOf (s : State) (m : Message) (f : Hdr) (p : ProofBlock) :
    (s.begun m f).challengeOf p = s.challengeOf p := by
  unfold State.challengeOf; rw [(begun_frame s m f).1]

theorem begun_verifier (s : State) (m : Message) (f : Hdr) (i : Nat) : (s.begun m f).verifier i = s.verifier i := by
  unfold State.verifier State.waveB; rw [(begun_frame s m f).1, begun_cred]

theorem begun_permits (s : State) (m k : Message) (f : Hdr) (i n : Nat) :
    (s.begun m f).permits k i n = s.permits k i n := by
  have h := (begun_frame s m f).2.2.2.1
  simp [State.permits, State.rangePermits, State.listsHold, State.fields, State.entry]

section refusals
variable {c : Instr} {s : State} {m : Message} {f : Hdr} {fields : List Nat} {n : Nat} {p : ProofBlock}

/-- A request refused by a proof check that consumes no challenge is answered in its step. -/
theorem goes_of_proven_refuse (hr : c.asRequest = some (m, f, true)) (ha : c.asProven = some (m, fields, n, p))
    (hp : c.passes s) {st : Status} {d : List Nat}
    (h : ∀ rto act, (s.begun m f).proven m fields n p rto act = (s.begun m f).refuse rto st d) :
    Goes c s (s.answered m f (.status st d)) := by
  obtain ⟨hc, hl, act, hact⟩ := exec_proven hr ha
  have hpass := Passes.of_request hr hp
  show exec c s = done _
  rw [hact, take_passes hpass, h]
  exact congrArg done (answer_begun s m f _ hpass.2.2.2.1 hl)

/-- R52, R53. -/
theorem refused_notPermitted (hr : c.asRequest = some (m, f, true)) (ha : c.asProven = some (m, fields, n, p))
    (hp : c.passes s) {i : Nat} (hv : Proves s m fields i p) (hn : s.permits m i n = false) :
    RefusedAfterProof c s i p f.tag .notPermitted [] := by
  obtain ⟨hc, hl, act, hact⟩ := exec_proven hr ha
  have hpass := Passes.of_request hr hp
  refine answered_admitted hl hc (hpass.2.2.2.1 hc hl) ?_
  rw [hact, take_passes hpass, proven_of_notPermitted m fields n _ _ (proves_begun hv f) (by rwa [begun_permits]), hc]
  rfl

/-- An answer right after a label proof: the challenge is consumed, and nothing else changes. -/
theorem refused_label {st : Status} (hc : m.channel = .control) (hl : m ≠ .linkStart) (ht : f.tag ∉ s.lif.tagsInUse)
    (e : exec c s = done (((s.begun m f).consume p).refuse (s.replyTo m.channel f.tag) st)) :
    RefusedAfterLabel c s p f.tag st := by
  have hanswer : ((s.begun m f).consume p).refuse (s.replyTo m.channel f.tag) st =
      { s.answered m f (.status st []) with
        cru := { s.cru with challenges := s.cru.challenges.set p.challenge none } } := by
    rw [← answer_begun s m f (.status st []) (fun _ _ => ht) hl]
    have hcru := (begun_frame s m f).1
    unfold State.refuse State.answer State.consume
    rw [hcru]
    split
    · rw [hc]; rfl
    · rfl
  rw [hanswer] at e
  refine ⟨_, e, ⟨rfl, fun q hq => ?_⟩, rfl, by rw [← hc]; rfl⟩
  cases q <;> simp_all [Piece.same, State.answered]

end refusals

/-! ### Frames of the small operations -/

theorem begun_framed (s : State) (m : Message) (f : Hdr) : Framed [.bursts, .tags] s (s.begun m f) := by
  refine ⟨(s.frameTaken_keeps.trans (State.joinTag_keeps _ m f.tag)).1, fun q hq => ?_⟩
  unfold State.begun State.joinTag
  split <;> cases q <;> simp_all [Piece.same, State.frameTaken]

theorem consume_framed (s : State) (p : ProofBlock) : Framed [.challenges] s (s.consume p) := by
  refine ⟨rfl, fun q hq => ?_⟩
  cases q <;> simp_all [Piece.same, State.consume]

theorem mapCred_framed (s : State) (i : Nat) (g : CredSlot → CredSlot) : Framed [.credSlots] s (s.mapCred i g) := by
  refine ⟨rfl, fun q hq => ?_⟩
  cases q <;> simp_all [Piece.same, State.mapCred]

theorem write_framed (s : State) (u : StoreUnit) (ws : List Waiter) : Framed [.writes] s (s.write u ws) :=
  place_framed s u _ ws

/-- What credential slot j holds after slot i was changed. -/
theorem cred_mapCred (s : State) (i j : Nat) (g : CredSlot → CredSlot) :
    (s.mapCred i g).cred j = if j = i ∧ j < s.cru.slots.length then g (s.cred j) else s.cred j := by
  unfold State.cred State.mapCred
  rw [List.getElem?_modify]
  by_cases h : i = j <;> by_cases hl : j < s.cru.slots.length <;> simp [h, hl, eq_comm]

theorem write_cred (s : State) (u : StoreUnit) (ws : List Waiter) (j : Nat) : (s.write u ws).cred j = s.cred j := by
  unfold State.cred; simp

/-! ### A failure that is counted (R49) -/

/-- R50: the backoff of 2^(n − 3) seconds, 512 at most. -/
theorem backoffPeriod_eq {n : Nat} (h : 3 ≤ n) : backoffPeriod n = min 512 (2 ^ (n - 3)) := by
  unfold backoffPeriod
  split
  · have : 2 ^ 9 ≤ 2 ^ (n - 3) := Nat.pow_le_pow_right (by decide) (by omega)
    omega
  · have : 2 ^ (n - 3) ≤ 2 ^ 9 := Nat.pow_le_pow_right (by decide) (by omega)
    omega

/-- R49, R50: what a failure makes of an ENABLED slot without backoff. -/
theorem CredSlot.fail_cases (x : CredSlot) (hs : x.record.state = .enabled) (hb : x.backoff = none) :
    x.fail.record.failures = min 255 (x.record.failures + 1) ∧ x.fail.record.limit = x.record.limit ∧
    x.fail.record.verifier = x.record.verifier ∧
    (x.record.limit ≤ x.fail.record.failures → x.fail.record.state = .blocked ∧ x.fail.backoff = none) ∧
    (x.fail.record.failures < x.record.limit → x.fail.record.state = .enabled ∧
      x.fail.backoff = if 3 ≤ x.fail.record.failures then some (min 512 (2 ^ (x.fail.record.failures - 3))) else none) := by
  unfold CredSlot.fail
  by_cases hl : x.record.limit ≤ min 255 (x.record.failures + 1)
  · simpa [hl] using Nat.le_min.mp hl
  · by_cases h3 : 3 ≤ min 255 (x.record.failures + 1)
    · simp [hl, h3, hs, backoffPeriod_eq h3]
    · simp [hl, h3, hs, hb]

/-- R49: after a failure under slot i the challenge is consumed, slot i alone has changed, and the BAD_PROOF waits for the
write of its record. -/
theorem failProof_counts (s : State) (m : Message) (f : Hdr) (p : ProofBlock) (rto : ReplyTo) (hs : Shaped s)
    (hi : p.slot < 10) (he : (s.cred p.slot).record.state = .enabled) :
    let t := ((s.begun m f).consume p).failProof p.slot rto
    Framed [.bursts, .tags, .challenges, .credSlots, .writes] s t ∧ WritesOnly [.cred p.slot] s t ∧
      t.lif = (s.begun m f).lif ∧ t.cru.challenges = s.cru.challenges.set p.challenge none ∧
      (∀ j, j ≠ p.slot → t.cred j = s.cred j) ∧ t.cred p.slot = (s.cred p.slot).fail ∧
      t.holds (.cred p.slot) (t.recordOf (.cred p.slot)) (.badProof rto ((t.cred p.slot).record.state == .blocked)) := by
  intro t
  have hcred : ∀ j, t.cred j = if j = p.slot then (s.cred j).fail else s.cred j := fun j => by
    have hlen : ((s.begun m f).consume p).cru.slots.length = 10 := by simp [State.consume, hs.credSlots]
    have hbase : ((s.begun m f).consume p).cred j = s.cred j := begun_cred s m f j
    show (State.write _ _ _).cred j = _
    rw [write_cred, cred_mapCred, hlen, hbase]
    by_cases hj : j = p.slot <;> simp [hj, hi]
  have hblocked : ((s.begun m f).consume p).cred p.slot = s.cred p.slot := begun_cred s m f p.slot
  refine ⟨?_, ?_, by simp [t, State.failProof, State.mapCred, State.consume],
    by simp [t, State.failProof, State.mapCred, State.consume], fun j hj => by rw [hcred, if_neg hj], by rw [hcred, if_pos rfl], ?_⟩
  · exact (((begun_framed s m f).trans (consume_framed _ p)).trans ((mapCred_framed _ _ _).trans (write_framed _ _ _))).mono
      (by decide)
  · refine WritesOnly.trans (us := []) (writesOnly_of_eq ?_ ?_ ?_ _) (write_only _ _ _) <;>
      simp [State.mapCred, State.consume]
  · rw [hcred, if_pos rfl]
    have hw : (.badProof rto ((s.cred p.slot).fail.record.state == .blocked) : Waiter) =
        .badProof rto ((((s.begun m f).consume p).cred p.slot).fail.record.state == .blocked &&
          (((s.begun m f).consume p).cred p.slot).record.state != .blocked) := by
      rw [hblocked, he]; simp
    rw [hw]
    show (State.write _ _ _).holds _ ((State.write _ _ _).recordOf _) _
    rw [write_recordOf]
    exact place_holds _ _ _ _ _ (List.mem_singleton_self _)

/-! ### The rows of R53 -/

theorem rangePermits_iff (s : State) (n i : Nat) : s.rangePermits n i = true ↔
    (n < 16 → ∃ g, s.fields n = some g ∧ (listed g.readList i = true ∨ listed g.writeList i = true)) := by
  unfold State.rangePermits State.listsHold
  by_cases h : n < 16
  · cases hf : s.fields n <;> simp [h]
  · simp [h]

end Sys2Proof.Machine

namespace Sys2Proof
open Machine

/-- Settles O9. -/
theorem linkChecksComeInOrder : Obligations.LinkChecksComeInOrder := by
  refine ⟨fun c s hr h => ?_, fun c s m f fits hr ht hb => ?_⟩
  · obtain ⟨⟨m, f, fits⟩, hr⟩ := Option.isSome_iff_exists.mp hr
    obtain ⟨act, hact⟩ := exec_take hr
    rw [Goes, hact, take_of_deaf h]; rfl
  · obtain ⟨act, hact⟩ := exec_take hr
    obtain ⟨htag, huse, hstart, hlen⟩ := refusal_cases s m f fits
    have goes : ∀ {st : Status}, s.refusal m f fits = some st → Goes c s (s.answered m f (.status st [])) := fun h => by
      rw [Goes, hact, take_of_refusal ht hb h]; rfl
    exact ⟨fun h => goes (htag h), fun h hc hl hu => goes (huse h ⟨hc, hl, hu⟩),
      fun h hu hs he => goes (hstart h hu hs he), fun h hu hs hf => goes (hlen h hu hs hf)⟩

/-- Settles O10: the checks of R48 in their order, then R52 and R54, then R53's table. -/
theorem proofIsCheckedInOrder : Obligations.ProofIsCheckedInOrder := by
  refine ⟨fun c s m f fields n p hr ha hp => ?_, fun c s m f fields p hr hp => ⟨fun n i ha hv hn => ?_, fun ch ha hs hc hn => ?_, fun ha hs hc => ?_⟩, fun s i n => ?_⟩
  · obtain ⟨hbad, hblocked, hback, hnone⟩ := slotRefusal_cases s p.slot
    have goes : ∀ {st d}, s.slotRefusal p.slot = some (st, d) → Goes c s (s.answered m f (.status st d)) := fun h =>
      goes_of_proven_refuse hr ha hp fun rto act => proven_of_slotRefusal m fields n rto act (by rwa [begun_slotRefusal])
    exact ⟨fun h => goes (hbad h), fun h hs => goes (hblocked h hs), fun k h hs hb => goes (hback k h hs hb),
      fun h hs hb hc => goes_of_proven_refuse hr ha hp fun rto act =>
        proven_of_stale m fields n rto act (by rw [begun_slotRefusal]; exact hnone h hs hb) (by rwa [begun_challengeOf])⟩
  · exact refused_notPermitted hr ha hp hv hn
  · obtain ⟨hch, hl, act, hact⟩ := exec_labelled hr ha
    have hpass := Passes.of_request hr hp
    refine refused_label hch hl (hpass.2.2.2.1 hch hl) ?_
    rw [hact, take_passes hpass]
    have hbtc := (begun_frame s m f).2.1
    rw [(labelled_cases m fields _ _ hs).1 ch (by rwa [begun_challengeOf]) (by rwa [hbtc])]
  · obtain ⟨hch, hl, act, hact⟩ := exec_labelled hr ha
    have hpass := Passes.of_request hr hp
    show exec c s = done _
    rw [hact, take_passes hpass, (labelled_cases m fields _ _ hs).2 (by rwa [begun_challengeOf])]
    exact congrArg done (answer_begun s m f _ hpass.2.2.2.1 hl)
  · simp only [State.permits, rangePermits_iff, custodian, Bool.or_eq_true, Bool.and_eq_true, decide_eq_true_eq, bne_iff_ne]
    simp

/-- Settles O11. -/
theorem badProofIsCounted : Obligations.BadProofIsCounted := by
  intro c s m f fields n p ch v hr ha hp hs hi he hb hc hv hne
  obtain ⟨hctl, hl, act, hact⟩ := exec_proven hr ha
  have hpass := Passes.of_request hr hp
  have hgo : Goes c s (((s.begun m f).consume p).failProof p.slot (s.replyTo .control f.tag)) := by
    rw [Goes, hact, take_passes hpass, proven_of_mismatch m fields n _ _ (by rw [begun_slotRefusal]; exact (slotRefusal_cases s _).2.2.2 hi he hb)
      (by rwa [begun_challengeOf]) (by rwa [begun_verifier]) hne, hctl]
    rfl
  obtain ⟨hframe, honly, hlif, hch, hother, hslot, hholds⟩ :=
    failProof_counts s m f p (s.replyTo .control f.tag) hs hi he
  obtain ⟨hfail, hlimit, hver, hblock, hopen⟩ := (s.cred p.slot).fail_cases he hb
  refine ⟨_, hgo, hframe, honly, by rw [hlif, begun_tags s m f hctl hl], hch, hother, ?_⟩
  rw [hslot] at hholds ⊢
  exact ⟨hfail, hlimit, hver, hblock, hopen, hholds⟩

end Sys2Proof

/-! The requests that are answered in their own step (O13, O14, O20, O25), the frames that are no request (O15) and the ends
of the media requests (O16): chapters 3, 7 and 10. -/

namespace Sys2Proof.Machine

/-! ### A request without a proof -/

/-- A CONTROL request that is taken: its frame is counted and its tag is in use. -/
theorem begun_control {s : State} {m : Message} {f : Hdr} (hc : m.channel = .control) (hl : m ≠ .linkStart) :
    s.begun m f = { s with lif := { s.lif with
      burstTaken := s.lif.burstTaken + 1, tagsInUse := s.lif.tagsInUse ++ [f.tag] } } := by
  unfold State.begun State.joinTag
  rw [if_pos ⟨hc, hl⟩]
  rfl

section request
variable {c : Instr} {s : State} {m : Message} {f : Hdr} {fits : Bool} {act : State → ReplyTo → State}

/-- A request that passes comes to its own rules. -/
theorem goes_request (hr : c.asRequest = some (m, f, fits)) (hp : c.passes s)
    (e : ∀ s : State, exec c s = done (s.take m f fits act)) :
    Goes c s (act (s.begun m f) (s.replyTo m.channel f.tag)) := by
  rw [Goes, e, take_passes (Passes.of_request hr hp)]
  rfl

/-- A request that its rules answer at once changes nothing but the count of frames taken. -/
theorem goes_answer (hr : c.asRequest = some (m, f, fits)) (hp : c.passes s) (hl : m ≠ .linkStart)
    (e : ∀ s : State, exec c s = done (s.take m f fits act)) {b : Body}
    (h : act (s.begun m f) (s.replyTo m.channel f.tag) = (s.begun m f).answer (s.replyTo m.channel f.tag) b) :
    Goes c s (s.answered m f b) := by
  have hpass := Passes.of_request hr hp
  have hgo := goes_request hr hp e
  rwa [h, answer_begun s m f b hpass.2.2.2.1 hl] at hgo

end request

/-- R165: the final frame of a CONTROL request frees the tag that it took. -/
theorem answer_control {s t : State} {m : Message} {f : Hdr} (b : Body) (hc : m.channel = .control) (hl : m ≠ .linkStart)
    (ht : f.tag ∉ s.lif.tagsInUse) (hsame : t.lif = (s.begun m f).lif) :
    t.answer (s.replyTo .control f.tag) b =
      { t with lif := { s.lif with burstTaken := s.lif.burstTaken + 1 }, sent := t.sent ++ [frame .control f.tag b] } := by
  have hfree : s.lif.tagsInUse.filter (fun x => x != f.tag) = s.lif.tagsInUse :=
    List.filter_eq_self.mpr fun x hx => by simpa using fun e : x = f.tag => ht (e ▸ hx)
  rw [begun_control hc hl] at hsame
  unfold State.answer State.replyTo
  rw [if_pos (by rw [hsame])]
  simp [State.send, State.freeTag, frame, hsame, hfree]

/-- A CONTROL request that its rules answer at once after its matching proof. -/
theorem answers_admitted {c : Instr} {s : State} {m : Message} {f : Hdr} {fits : Bool} {fields : List Nat} {n i : Nat}
    {p : ProofBlock} {b : Body} (hr : c.asRequest = some (m, f, fits)) (ha : c.asProven = some (m, fields, n, p))
    (hp : c.passes s) (hv : c.proves s i) (act : ReplyTo → State → Nat → Option WrapValue → State)
    (e : ∀ s : State, exec c s = done (s.take m f fits (fun t rto => t.proven m fields n p rto (act rto))))
    (h : act (s.replyTo .control f.tag) ((s.begun m f).admitted p i) i (((s.begun m f).admitted p i).grantValue i) =
      ((s.begun m f).admitted p i).answer (s.replyTo .control f.tag) b) : AnsweredAfterProof c s i p f.tag b := by
  obtain ⟨hc, hl, -⟩ := exec_proven hr ha
  obtain ⟨-, -, -, htag, -, -⟩ := Passes.of_request hr hp
  exact answered_admitted hl hc (htag hc hl) ((exec_admitted hr ha hp hv act e).trans (by rw [h]))

/-! ### The long replies and what they show (R113, R150, R173) -/

/-- R173: a long reply is sent whole where it fits the limit of CONTROL, else refused. -/
theorem goes_long {c : Instr} {s : State} {m : Message} {f : Hdr} {bytes : State → Nat} {b : State → Body}
    (hr : c.asRequest = some (m, f, m.fits f)) (hc : m.channel = .control) (hl : m ≠ .linkStart) (hp : c.passes s)
    (e : ∀ s : State, exec c s = done (s.take m f (m.fits f) fun t rto => t.answerLong rto (bytes t) (b t))) :
    Goes c s (s.answered m f
      (if bytes (s.begun m f) ≤ s.lif.limitControl then b (s.begun m f) else .status .tooLong [])) := by
  refine goes_answer hr hp hl e ?_
  have hlimit : (s.begun m f).limit (s.replyTo m.channel f.tag).channel = s.lif.limitControl := by
    rw [begun_control hc hl, State.replyTo, hc]; rfl
  unfold State.answerLong
  rw [hlimit]
  split <;> rfl

theorem concealed_iff (s : State) (r : Nat) : s.concealed r = true ↔ ∃ g, s.fields r = some g ∧ g.concealed = true := by
  unfold State.concealed
  cases s.fields r <;> simp

/-- R113: each job by its range, 0xFF where that is concealed. -/
theorem rekeyReport_job {s : State} {i : Nat} {j : Job} (h : s.rke.queue[i]? = some j) :
    s.rekeyReport.jobs[i]? = some (if s.concealed j.range then 255 else j.range, j.state) := by
  simp [State.rekeyReport, h]

/-- R113: what the report shows of the head job. -/
theorem rekeyReport_head {s : State} {j : Job} (h : s.headJob = some j) :
    (s.concealed j.range = true → s.rekeyReport.watermark = none ∧ s.rekeyReport.chunk = none) ∧
    (¬ s.concealed j.range = true →
      s.rekeyReport.watermark = ((s.fields j.range).bind (fun g => g.split)).map (fun w => w.watermark) ∧
      s.rekeyReport.chunk = if s.rke.phase = .idle then none else some (s.rke.first, s.rke.n)) := by
  refine ⟨fun hc => by simp [State.rekeyReport, h, hc], fun hc => ?_⟩
  by_cases hi : s.rke.phase = .idle <;> simp [State.rekeyReport, h, hc, hi, State.split]

/-- R139, R150: the normal chain's FILL is suspended while the injected chain is present. -/
theorem chainReport_suspended (s : State) (k : ChainKind) (c : Chain) : (s.chainReport k c).suspended = true ↔
    k = .normal ∧ c.begun = true ∧ (∃ n p, c.steps.head? = some (.fill n p)) ∧ s.wpe.injected ≠ none := by
  unfold State.chainReport
  cases hs : c.steps with
  | nil => simp
  | cons x l => cases x <;> simp [WipeStep.isFill, Option.isSome_iff_ne_none, and_assoc]

/-! ### SET_REPLY_LIMIT (R173) -/

/-- The limit of a channel is set in the step that answers. -/
theorem setLimit_goes {f : Hdr} {channel limit : Nat} {s : State} (hp : (Instr.setReplyLimit f channel limit).passes s)
    {ch : Channel} (h : limitTaken channel limit = some ch) :
    Goes (.setReplyLimit f channel limit) s
      ((s.answered .setReplyLimit f (.status .ok [limit])).setLimit ch limit) := by
  obtain ⟨-, -, -, htag, -, -⟩ := Passes.of_request rfl hp
  have hgo := goes_request (act := fun t rto => t.replyLimit channel limit rto) rfl hp fun _ => rfl
  have hset : (State.answered (s.setLimit ch limit) .setReplyLimit f (.status .ok [limit])) =
      (s.answered .setReplyLimit f (.status .ok [limit])).setLimit ch limit := by cases ch <;> rfl
  have hbegun : (s.begun .setReplyLimit f).setLimit ch limit = (s.setLimit ch limit).begun .setReplyLimit f := by
    cases ch <;> rfl
  have hsame : (s.setLimit ch limit).lif.tagsInUse = s.lif.tagsInUse := by cases ch <;> rfl
  have hrto : s.replyTo .control f.tag = (s.setLimit ch limit).replyTo .control f.tag := by cases ch <;> rfl
  rw [← hset, ← answer_begun _ _ f _ (by rw [hsame]; exact htag) (by decide), ← hbegun]
  unfold State.replyLimit at hgo
  rw [h] at hgo
  exact hrto ▸ hgo

/-! ### Pages of a list (R173) -/

section page
variable {α : Type} {limit head item start : Nat} {l : List α}

theorem pageOf_past (h : l.length ≤ start) : pageOf limit head item start l = some [] := if_pos h

theorem pageOf_tooLong (h : start < l.length) (hn : (limit - head) / item = 0) : pageOf limit head item start l = none := by
  rw [pageOf, if_neg (by omega), if_pos hn]

theorem pageOf_entries (h : start < l.length) (hn : (limit - head) / item ≠ 0) :
    pageOf limit head item start l = some ((l.drop start).take ((limit - head) / item)) := by
  rw [pageOf, if_neg (by omega), if_neg hn]

end page

/-- R173: one entry always fits a reply limit of 64. -/
theorem entry_fits (head : Fin 64) (item : Nat) {limit : Nat} (h : 64 ≤ limit) :
    (limit - head.val) / (item % (64 - head.val) + 1) ≠ 0 := by
  have hhead := head.isLt
  have hitem : item % (64 - head.val) < 64 - head.val := Nat.mod_lt _ (by omega)
  exact (Nat.div_pos (by omega) (by omega)).ne'

/-- R119: the settings as EVIDENCE_LIST reads them. -/
theorem settings_listed {s : State} (h : Shaped s) : (List.range 8).map s.setting = s.rsu.settings := by
  refine List.ext_getElem (by simp [h.settings]) fun i h1 h2 => ?_
  simp [State.setting, h2]

/-! ### The challenge table (R45) -/

/-- R45: a free entry is taken, the lowest. -/
theorem challengeEntry_free {s : State} (h : ∃ j < 4, (s.cru.challenges[j]?).getD none = none) :
    s.challengeEntry < 4 ∧ (s.cru.challenges[s.challengeEntry]?).getD none = none ∧
      ∀ j < s.challengeEntry, (s.cru.challenges[j]?).getD none ≠ none := by
  obtain ⟨j, hj, hfree⟩ := h
  unfold State.challengeEntry
  cases hfind : (List.range 4).find? (fun i => ((s.cru.challenges[i]?).getD none).isNone) with
  | none => exact absurd (List.find?_eq_none.mp hfind j (by simpa using hj)) (by simp [hfree])
  | some i =>
    obtain ⟨hsome, hi, hbefore⟩ := List.find?_range_eq_some.mp hfind
    exact ⟨by simpa using hi, by simpa using hsome, fun k hk hn => by
      simpa [hn] using hbefore k hk⟩

/-- R45: with no free entry the one with the least seconds remaining is taken, the lowest of equals. -/
theorem challengeEntry_full {s : State} (h : ∀ j < 4, (s.cru.challenges[j]?).getD none ≠ none) :
    let left := fun i => challengeLeft ((s.cru.challenges[i]?).getD none)
    s.challengeEntry < 4 ∧ (∀ j < 4, left s.challengeEntry ≤ left j) ∧ ∀ j < s.challengeEntry, left s.challengeEntry < left j := by
  intro left
  have hnone : (List.range 4).find? (fun i => ((s.cru.challenges[i]?).getD none).isNone) = none :=
    List.find?_eq_none.mpr fun j hj hn => h j (by simpa using hj) (Option.isNone_iff_eq_none.mp hn)
  have hentry : s.challengeEntry = ((List.range 4).find? (fun i => (List.range 4).all (fun j => left i ≤ left j))).getD 0 := by
    unfold State.challengeEntry; rw [hnone]
  obtain ⟨k, hk, hleast⟩ : ∃ k < 4, ∀ j < 4, left k ≤ left j := by
    obtain ⟨k, hk, hmin⟩ := Finset.exists_min_image (Finset.range 4) left ⟨0, by decide⟩
    exact ⟨k, by simpa using hk, fun j hj => hmin j (by simpa using hj)⟩
  cases hfind : (List.range 4).find? (fun i => (List.range 4).all (fun j => left i ≤ left j)) with
  | none =>
    refine absurd (List.find?_eq_none.mp hfind k (by simpa using hk)) ?_
    simpa using hleast
  | some i =>
    obtain ⟨hall, hi, hbefore⟩ := List.find?_range_eq_some.mp hfind
    rw [hentry, hfind, Option.getD_some]
    have hmin : ∀ j < 4, left i ≤ left j := by simpa using hall
    refine ⟨by simpa using hi, hmin, fun j hj => ?_⟩
    obtain ⟨x, hx, hlt⟩ : ∃ x < 4, left x < left j := by simpa using hbefore j hj
    exact (hmin x hx).trans_lt hlt

/-! ### The ends of media requests (R174) -/

/-- R174: how a reply ends its request. -/
theorem mediaEnd_cases (k : MediaKind) (status : Nat) (data : Option Block) :
    (status ≠ 0 → mediaEnd k status data = .failed .mediaFault) ∧
    (status = 0 → k = .read → data = none → mediaEnd k status data = .failed .mediaFault) ∧
    (∀ b, status = 0 → k = .read → data = some b → mediaEnd k status data = .ok b) ∧
    (status = 0 → k ≠ .read → mediaEnd k status data = .ok .zeros) := by
  unfold mediaEnd
  refine ⟨fun h => if_pos h, ?_, ?_, fun h hk => ?_⟩
  · rintro rfl rfl rfl; rfl
  · rintro b rfl rfl rfl; rfl
  · cases k <;> simp_all

/-- R174: what its engine does with the end of a request leaves the table and the credits as the end left them. -/
theorem mediaEnded_credits (s : State) (tag : Nat) (c : Client) (e : MediaEnd) :
    ((s.endRequest tag).mediaEnded c e).lif.outstanding = s.lif.outstanding.filter (fun x => x.tag != tag) ∧
    ((s.endRequest tag).mediaEnded c e).lif.freeCredits = s.lif.freeCredits + 1 := by
  obtain ⟨-, -, hout, hfree, -⟩ := (s.endRequest tag).mediaEnded_keeps c e
  exact ⟨hout, hfree⟩

theorem mediaReply_of_taken {s : State} (ht : s.takesFrames = true) (hb : s.lif.burstDropped = false)
    (tag kind status : Nat) (data : Option Block) : s.mediaReply tag kind status data =
      match s.frameTaken.request? tag with
      | some q => if q.kind.code = kind then (s.frameTaken.endRequest tag).mediaEnded q.client (mediaEnd q.kind status data)
        else s.frameTaken
      | none => s.frameTaken := by
  unfold State.mediaReply
  exact if_neg (by simp [State.deaf, ht, hb])

end Sys2Proof.Machine

namespace Sys2Proof
open Machine

/-- Settles O13: each read answers from the state it finds, which the request's own tag and count do not touch. -/
theorem readsAnswerInTheirStep : Obligations.ReadsAnswerInTheirStep := by
  intro f s whole hidden
  refine ⟨fun hp => goes_answer (act := fun t rto => t.answer rto (.identity identity)) rfl hp (by decide) (fun _ => rfl) rfl,
    fun hp => ⟨s.statusReport, goes_answer (act := fun t rto => t.answer rto (.partStatus t.statusReport)) rfl hp (by decide)
      (fun _ => rfl) rfl, rfl, rfl, rfl, rfl, rfl, rfl, rfl, rfl, ?_, rfl, rfl, rfl, rfl, rfl, rfl, rfl, rfl, rfl, rfl, rfl, rfl, rfl, rfl⟩,
    fun hp => ⟨s.rekeyReport, goes_long (bytes := fun t => Config.rekeyStatusBytes t.rke.queue.length) (b := fun t => .rekeyStatus t.rekeyReport)
      rfl rfl (by decide) hp fun _ => rfl, rfl, rfl, rfl, by simp [State.rekeyReport], ?_, ?_, ?_⟩,
    fun hp => ⟨s.responseReport, goes_long (bytes := fun _ => Config.responseStatusBytes) (b := fun t => .responseStatus t.responseReport)
      rfl rfl (by decide) hp fun _ => rfl, rfl, rfl, rfl, rfl, rfl, rfl, rfl, rfl, ?_, ?_⟩,
    fun hp => ⟨fun k => (s.chain k).map (s.chainReport k), goes_long
      (bytes := fun t => Config.wipeStatusBytes (Chain.count t.wpe.normal + Chain.count t.wpe.injected))
      (b := fun t => .wipeStatus (t.wpe.normal.map (t.chainReport .normal)) (t.wpe.injected.map (t.chainReport .injected)))
      rfl rfl (by decide) hp fun _ => rfl, fun k hk => by simp [hk], ?_⟩⟩
  · cases h : s.btc.state <;> simp [State.statusReport, BootState.overlay, h]
  · intro i j hj
    refine ⟨_, rekeyReport_job hj, fun h => if_pos ((concealed_iff s _).mpr h), fun h => if_neg (mt (concealed_iff s _).mp h)⟩
  · intro h
    simp [State.rekeyReport, h]
  · intro j hj
    obtain ⟨hhidden, hshown⟩ := rekeyReport_head hj
    exact ⟨by simp [State.rekeyReport, hj], by simp [State.rekeyReport, hj],
      fun h => hhidden ((concealed_iff s _).mpr h), fun h => hshown (mt (concealed_iff s _).mp h)⟩
  · simp [State.responseReport, State.absenceCounting, and_assoc, Option.isSome_iff_ne_none]
  · simp [State.responseReport, State.alarmOut, Option.isSome_iff_ne_none]
  · intro k c hc
    exact ⟨s.chainReport k c, by simp [hc], rfl, rfl, rfl, rfl, rfl, chainReport_suspended s k c, rfl⟩

/-- Settles O14. -/
theorem setReplyLimitSetsOneLimit : Obligations.SetReplyLimitSetsOneLimit := by
  intro f channel limit s hp c t
  refine ⟨?_, ?_, ?_, fun h => goes_answer (act := fun t rto => t.replyLimit channel limit rto) rfl hp (by decide) (fun _ => rfl) ?_⟩
  · rintro rfl h1 h2
    exact setLimit_goes (ch := .data) hp (by simp [limitTaken, h1, h2])
  · rintro rfl h1 h2
    exact setLimit_goes (ch := .control) hp (by simp [limitTaken, h1, h2])
  · rintro rfl h1 h2
    exact setLimit_goes (ch := .platform) hp (by simp [limitTaken, h1, h2])
  · have hnone : limitTaken channel limit = none := by
      unfold limitTaken
      split_ifs with h0 h00 h1 h11 h2 h22 <;> simp_all <;> omega
    simp [State.replyLimit, hnone, State.refuse]

/-- Settles O15. -/
theorem damagedFramesAreAnsweredAndCounted : Obligations.DamagedFramesAreAnsweredAndCounted := by
  intro ch tag s
  refine ⟨fun ht hb => ?_, fun h => ?_, fun ht => ⟨fun he => ?_, fun he hn => ?_, fun he hn => ?_⟩⟩
  · have hd : s.deaf = false := by simp [State.deaf, ht, hb]
    refine ⟨?_, ?_, ?_⟩
    · show Host.Outcome.next s.dropBurst = _
      cases hs : s.lif.started <;> simp [State.dropBurst, hd, State.notice, State.send, frame, hs]
    · show Host.Outcome.next (s.damagedFrame ch tag) = _
      simp [State.damagedFrame, hd, State.send, frame]
    · show Host.Outcome.next (s.unknownKind ch tag) = _
      unfold State.unknownKind
      split_ifs <;> simp_all [State.send, frame, State.frameTaken]
  · have hd : s.deaf = true := by simpa [State.deaf] using h
    refine ⟨?_, ?_, ?_⟩
    · show Host.Outcome.next s.dropBurst = _
      simp [State.dropBurst, hd]
    · show Host.Outcome.next (s.damagedFrame ch tag) = _
      simp [State.damagedFrame, hd]
    · show Host.Outcome.next (s.unknownKind ch tag) = _
      simp [State.unknownKind, hd]
  · show done s.burstEnd = done _
    simp [State.burstEnd, ht, he, State.nextBurst]
  · show done s.burstEnd = done _
    simp [State.burstEnd, ht, he, hn, State.nextBurst]
  · show done s.burstEnd = done _
    simp [State.burstEnd, ht, he, hn, State.nextBurst]

/-- Settles O16. -/
theorem mediaRequestEndsOnce : Obligations.MediaRequestEndsOnce := by
  intro tag kind status data s ended taken
  refine ⟨fun q hq => ⟨⟨_, ?_, rfl, mediaEnded_credits s tag _ _⟩, fun ht hb => ⟨fun hk => ?_, fun hk => ?_⟩⟩, fun hq => ⟨?_, fun ht hb => ?_⟩⟩
  · show done (s.mediaTimeout tag) = done _
    simp [State.mediaTimeout, State.request?, hq, ended, State.endRequest]
  · obtain ⟨hfault, hempty, hread, hother⟩ := mediaEnd_cases q.kind status data
    have hgo : Goes (.mediaReply tag kind status data) s
        ((s.frameTaken.endRequest tag).mediaEnded q.client (mediaEnd q.kind status data)) := by
      show done (s.mediaReply tag kind status data) = done _
      have hq' : s.frameTaken.request? tag = some q := hq
      rw [mediaReply_of_taken ht hb, hq']
      simp [hk]
    obtain ⟨hout, hcredits⟩ := mediaEnded_credits s.frameTaken tag q.client (mediaEnd q.kind status data)
    exact ⟨_, hgo, fun h => by rw [hfault h]; rfl, fun h1 h2 h3 => by rw [hempty h1 h2 h3]; rfl,
      fun b h1 h2 h3 => by rw [hread b h1 h2 h3]; rfl, fun h1 h2 => by rw [hother h1 h2]; rfl, hout, hcredits⟩
  · show done (s.mediaReply tag kind status data) = done _
    have hq' : s.frameTaken.request? tag = some q := hq
    rw [mediaReply_of_taken ht hb, hq']
    simp [Ne.symm hk]
    rfl
  · show done (s.mediaTimeout tag) = done _
    simp [State.mediaTimeout, State.request?, hq]
  · show done (s.mediaReply tag kind status data) = done _
    have hq' : s.frameTaken.request? tag = none := hq
    rw [mediaReply_of_taken ht hb, hq']
    rfl

/-- Settles O20. -/
theorem challengesComeAndExpire : Obligations.ChallengesComeAndExpire := by
  constructor
  swap
  · exact fun e i s => ⟨rfl, rfl⟩
  intro f s hp entry left
  obtain ⟨-, -, -, htag, -, -⟩ := Passes.of_request rfl hp
  have hcru : (s.begun .challenge f).cru = s.cru := (begun_frame s _ f).1
  have hfresh : (s.begun .challenge f).fresh = s.fresh := by simp
  have hgo := goes_request (act := fun t rto => t.challenge rto) rfl hp fun _ => rfl
  have hentry : (s.begun .challenge f).challengeEntry = s.challengeEntry := by unfold State.challengeEntry; rw [hcru]
  have hleft : ∀ j, challengeLeft (entry j) = left j := fun _ => rfl
  have hout : (s.begun .challenge f).challenge (s.replyTo .control f.tag) = _ :=
    answer_control _ rfl (by decide) (htag rfl (by decide)) rfl
  rw [hentry, hfresh, hcru] at hout
  refine ⟨_, s.challengeEntry, hgo.trans (congrArg done hout), ⟨rfl, fun q hq => ?_⟩, ?_, fun h => (challengeEntry_free h).2, fun h => ?_, rfl, rfl, rfl⟩
  · cases q <;> simp_all [Piece.same, State.bump]
  · by_cases h : ∃ j < 4, entry j = none
    · exact (challengeEntry_free h).1
    · exact (challengeEntry_full (s := s) (by simpa using h)).1
  · obtain ⟨-, hmin, hbefore⟩ := challengeEntry_full (s := s) h
    simp only [← hleft]
    exact ⟨hmin, hbefore⟩

/-- Settles O25. -/
theorem slotAndEvidenceListsShowTheirPage : Obligations.SlotAndEvidenceListsShowTheirPage := by
  constructor
  · intro f start s hp n entry c
    have goes : ∀ {b : Body}, (s.begun .slotList f).slotList start (s.replyTo .control f.tag) =
        (s.begun .slotList f).answer (s.replyTo .control f.tag) b → Goes c s (s.answered .slotList f b) := fun h =>
      goes_answer (act := fun t rto => t.slotList start rto) rfl hp (by decide) (fun _ => rfl) h
    have hentry : (s.begun .slotList f).slotEntry = entry := funext fun j => by
      unfold State.slotEntry; rw [begun_cred]
    have hlimit : (s.begun .slotList f).limit .control = s.lif.limitControl := rfl
    refine ⟨fun h => goes ?_, fun h hn => goes ?_, fun h hn => goes ?_, entry_fits _ _⟩
    all_goals unfold State.slotList; rw [hentry, hlimit]
    · rw [pageOf_past (by simpa using h)]; rfl
    · rw [pageOf_tooLong (by simpa using h) hn]; rfl
    · rw [pageOf_entries (by simpa using h) hn]; simp [List.map_take, List.map_drop, n]
  · intro f start i p s c n list hp hv hs
    have answers : ∀ {b : Body}, ((s.begun .evidenceList f).admitted p i).evidenceList start (s.replyTo .control f.tag) =
        ((s.begun .evidenceList f).admitted p i).answer (s.replyTo .control f.tag) b → AnsweredAfterProof c s i p f.tag b :=
      fun h => answers_admitted rfl rfl hp hv (fun rto u _ _ => u.evidenceList start rto) (fun _ => rfl) h
    have hrsu : ((s.begun .evidenceList f).admitted p i).rsu = s.rsu := by simp
    have hset : (List.range 8).map ((s.begun .evidenceList f).admitted p i).setting = s.rsu.settings := by
      rw [← settings_listed hs]; unfold State.setting; rw [hrsu]
    have hlimit : ((s.begun .evidenceList f).admitted p i).limit .control = s.lif.limitControl := by
      rw [State.limit, (admitted_frame _ _ _).1]; rfl
    have hcustodian : i < 2 := by
      obtain ⟨-, hmay⟩ := hv
      simpa [State.permits, custodian] using hmay
    refine ⟨hcustodian, fun h => answers ?_, fun h hn => answers ?_, fun h hn => answers ?_,
      entry_fits _ _⟩
    all_goals unfold State.evidenceList; rw [hset, hlimit, hrsu]
    · rw [pageOf_past (by rwa [hs.settings])]; rfl
    · rw [pageOf_tooLong (by rwa [hs.settings]) hn]; rfl
    · rw [pageOf_entries (by rwa [hs.settings]) hn]; simp [hs.settings, list, n]

end Sys2Proof

/-! The media credits (O17) and the chunks of a FILL (O18): which request a credit goes to (R143, R174, R175), and how the
progress of a FILL passes the chunks that have ended (R144). -/

namespace Sys2Proof.Machine

/-! ### Which chain may take a step (R139) -/

theorem chain_setChain (s : State) (k : ChainKind) (c : Option Chain) : (s.setChain k c).chain k = c := by cases k <;> rfl

theorem chain_setChain_other (s : State) {k x : ChainKind} (h : x ≠ k) (c : Option Chain) :
    (s.setChain k c).chain x = s.chain x := by
  cases k <;> cases x <;> first | exact absurd rfl h | rfl

theorem setChain_framed (s : State) (k : ChainKind) (c : Option Chain) : Framed [.wipe] s (s.setChain k c) := by
  refine ⟨by cases k <;> rfl, fun q hq => ?_⟩
  cases q <;> simp_all [Piece.same]

theorem holdsBack_eq_false (x : Chain) : x.holdsBack = false ↔
    x.recording = false ∧ (x.begun = true → ∀ a l, x.steps = a :: l → ∃ n q, a = .fill n q) := by
  unfold Chain.holdsBack
  cases x.recording <;> cases x.begun <;> cases hs : x.steps with
  | nil => simp
  | cons a l => cases a <;> simp [WipeStep.isFill]

theorem mayTake_iff (s : State) (k : ChainKind) : s.mayTake k = true ↔
    (k = .normal → s.wpe.injected = none) ∧
    (k = .injected → ∀ x, s.wpe.normal = some x →
      x.recording = false ∧ (x.begun = true → ∀ a l, x.steps = a :: l → ∃ n q, a = .fill n q)) := by
  cases k with
  | normal => simp [State.mayTake]
  | injected =>
    cases hn : s.wpe.normal with
    | none => simp [State.mayTake, hn]
    | some x => simp [State.mayTake, hn, ← holdsBack_eq_false]

/-! ### The chunk that a FILL asks for (R143) -/

/-- Chunk i may be issued: within the step's span from its progress, not ended and not outstanding. -/
def State.chunkFree (s : State) (k : ChainKind) (c : Chain) (p m i : Nat) : Prop :=
  p ≤ i * 256 ∧ i * 256 < m ∧ (∀ q ∈ c.above, q.1 ≠ i) ∧ ∀ q ∈ s.lif.outstanding, q.client ≠ .wipe k c.no i

/-- The chunks among which a FILL looks for its next one. -/
def State.fillCandidates (s : State) (c : Chain) (p : Nat) : List Nat :=
  (List.range (c.above.length + s.lif.outstanding.length + 1)).map (fun i => p / 256 + i)

/-- The test by which a FILL picks its next chunk. -/
def State.fillTest (s : State) (k : ChainKind) (c : Chain) (p m i : Nat) : Bool :=
  decide (p ≤ i * 256) && decide (i * 256 < m) && !c.above.any (fun q => q.1 == i) && !s.chunkOut k c.no i

theorem fillTest_iff (s : State) (k : ChainKind) (c : Chain) (p m i : Nat) :
    s.fillTest k c p m i = true ↔ s.chunkFree k c p m i := by
  simp [State.fillTest, State.chunkFree, State.chunkOut, and_assoc]

theorem fillRequest_eq {s : State} {k : ChainKind} {c : Chain} {m p : Nat} {l : List WipeStep} (hc : s.chain k = some c)
    (hs : c.steps = .fill (some m) p :: l) : s.fillRequest k =
      if c.begun && s.lif.started && s.sst.power == .active && s.mayTake k then
        ((s.fillCandidates c p).find? (s.fillTest k c p m)).map (fun i => (c, i, min 256 (m - i * 256)))
      else none := by
  unfold State.fillRequest
  rw [hc]
  simp only [hs]
  rfl

/-- R143: a chain that asks for a chunk has a FILL that has begun, and may take a step. -/
theorem fillRequest_some {s : State} {k : ChainKind} {c : Chain} {i n : Nat} (h : s.fillRequest k = some (c, i, n)) :
    s.chain k = some c ∧ c.begun = true ∧ s.lif.started = true ∧ s.sst.power = .active ∧ s.mayTake k = true ∧
      ∃ m p l, c.steps = .fill (some m) p :: l ∧ (s.fillCandidates c p).find? (s.fillTest k c p m) = some i ∧
        n = min 256 (m - i * 256) := by
  cases hc : s.chain k with
  | none => simp [State.fillRequest, hc] at h
  | some d =>
    have hsteps : ∃ m p l, d.steps = .fill (some m) p :: l := by
      unfold State.fillRequest at h
      rw [hc] at h
      dsimp only at h
      split at h
      · next hs => exact ⟨_, _, _, hs⟩
      · cases h
    obtain ⟨m, p, l, hs⟩ := hsteps
    rw [fillRequest_eq hc hs] at h
    split at h
    · next hmay =>
      simp only [Option.map_eq_some_iff, Prod.mk.injEq] at h
      obtain ⟨j, hfind, rfl, rfl, rfl⟩ := h
      simp only [Bool.and_eq_true, beq_iff_eq] at hmay
      obtain ⟨⟨⟨hbegun, hstarted⟩, hactive⟩, hmay⟩ := hmay
      exact ⟨rfl, hbegun, hstarted, hactive, hmay, m, p, l, hs, hfind, rfl⟩
    · cases h

/-- R143: the chunk that is found may be issued, and each below it from progress on has ended or is outstanding. -/
theorem fillCandidates_find {s : State} {k : ChainKind} {c : Chain} {p m i : Nat}
    (h : (s.fillCandidates c p).find? (s.fillTest k c p m) = some i) :
    s.chunkFree k c p m i ∧ ∀ j, p ≤ j * 256 → j < i →
      (∃ q ∈ c.above, q.1 = j) ∨ ∃ q ∈ s.lif.outstanding, q.client = .wipe k c.no j := by
  rw [State.fillCandidates, List.find?_map, Option.map_eq_some_iff] at h
  obtain ⟨x, hfind, rfl⟩ := h
  obtain ⟨hx, -, hbefore⟩ := List.find?_range_eq_some.mp hfind
  have hfree := (fillTest_iff ..).mp hx
  refine ⟨hfree, fun j hp hj => ?_⟩
  have hlt : (p / 256 + x) * 256 < m := hfree.2.1
  have hj' : j < p / 256 + x := hj
  have hnot : ¬ s.chunkFree k c p m j := by
    have hb := hbefore (j - p / 256) (by omega)
    rw [Function.comp, show p / 256 + (j - p / 256) = j by omega] at hb
    rw [← fillTest_iff]
    simpa using hb
  by_contra hc
  push Not at hc
  obtain ⟨habove, hout⟩ := hc
  have hjm : j * 256 < m := (Nat.mul_lt_mul_of_pos_right hj' (by decide)).trans hlt
  exact hnot ⟨hp, hjm, habove, hout⟩

/-- R143: among one chunk more than have ended or are outstanding, one is free: a FILL that has a chunk to issue finds one. -/
theorem fillCandidates_find_isSome {s : State} {k : ChainKind} {c : Chain} {p m i : Nat} (hp : p % 256 = 0)
    (h : s.chunkFree k c p m i) : ((s.fillCandidates c p).find? (s.fillTest k c p m)).isSome = true := by
  have hfree := h
  obtain ⟨hlow, hlt, -⟩ : p ≤ i * 256 ∧ i * 256 < m ∧ _ := h
  rw [List.find?_isSome]
  simp only [fillTest_iff, State.fillCandidates, List.mem_map, List.mem_range]
  by_cases hi : i - p / 256 < c.above.length + s.lif.outstanding.length + 1
  · exact ⟨i, ⟨_, hi, by omega⟩, hfree⟩
  by_contra hnone
  push Not at hnone
  let ended := c.above.map (fun q => q.1)
  let out := s.lif.outstanding.filterMap (fun q => match q.client with
    | .wipe _ _ j => some j
    | .rekey _ _ => none)
  have hsub : (Finset.range (c.above.length + s.lif.outstanding.length + 1)).image (p / 256 + ·) ⊆ (ended ++ out).toFinset := by
    intro x hx
    simp only [Finset.mem_image, Finset.mem_range] at hx
    obtain ⟨y, hy, rfl⟩ := hx
    have hbusy := hnone (p / 256 + y) ⟨y, hy, rfl⟩
    unfold State.chunkFree at hbusy
    rw [List.mem_toFinset, List.mem_append]
    by_contra hno
    have hyi : p / 256 + y < i := by omega
    have hlow' : p ≤ (p / 256 + y) * 256 := by
      rw [Nat.add_mul, Nat.div_mul_cancel (Nat.dvd_of_mod_eq_zero hp)]
      exact Nat.le_add_right _ _
    have hlt' : (p / 256 + y) * 256 < m := (Nat.mul_lt_mul_of_pos_right hyi (by decide)).trans hlt
    refine hbusy ⟨hlow', hlt', fun q hq e => hno (.inl (List.mem_map.mpr ⟨q, hq, e⟩)), fun q hq e => hno (.inr ?_)⟩
    exact List.mem_filterMap.mpr ⟨q, hq, by rw [e]⟩
  have hcard := (Finset.card_le_card hsub).trans (List.toFinset_card_le _)
  rw [Finset.card_image_of_injective _ (add_right_injective _), Finset.card_range, List.length_append] at hcard
  have hout : out.length ≤ s.lif.outstanding.length := List.length_filterMap_le _ _
  have hended : ended.length = c.above.length := List.length_map _
  omega

/-! ### A credit that is granted (R174, R175) -/

/-- R174: what an issued request leaves: one credit fewer, its row in the table, and its frame. -/
theorem issue_issues (s : State) (k : MediaKind) (c : Client) (b : Body) (hf : s.lif.freeCredits ≠ 0) (hc : Credited s) :
    let t := s.issue k c b
    let cycle := fun n : Nat => (s.lif.nextTag - 1 + n) % 255 + 1
    let taken := fun x : Nat => x ∈ s.lif.outstanding.map (fun q => q.tag)
    Framed [.media, .sent] s t ∧ t.lif.freeCredits + 1 = s.lif.freeCredits ∧
      t.lif.outstanding = s.lif.outstanding ++ [{ tag := s.mediaTag, kind := k, client := c, remaining := 2 }] ∧
      (∃ n < 255, s.mediaTag = cycle n ∧ ¬ taken s.mediaTag ∧ ∀ m < n, taken (cycle m)) ∧
      t.lif.nextTag = s.mediaTag % 255 + 1 ∧ t.sent = s.sent ++ [frame .media s.mediaTag b] := by
  obtain ⟨hsum, hmax, -⟩ := hc
  have hcycle := s.mediaTag_cycle (by omega)
  refine ⟨⟨rfl, fun q hq => ?_⟩, ?_, rfl, hcycle, rfl, rfl⟩
  · cases q <;> simp_all [Piece.same, State.issue, State.send]
  · show s.lif.freeCredits - 1 + 1 = s.lif.freeCredits
    omega

/-- The first waiter of the arbiter's order. -/
theorem grantCredit_cases (s : State) (h : s.lif.freeCredits ≠ 0) :
    (∀ q, s.fillRequest .injected = some q → s.grantCredit = s.issueFill .injected q) ∧
    (∀ o, s.fillRequest .injected = none → s.sweepRequest = some o → s.grantCredit = s.issueSweep o) ∧
    (∀ q, s.fillRequest .injected = none → s.sweepRequest = none → s.fillRequest .normal = some q →
      s.grantCredit = s.issueFill .normal q) := by
  unfold State.grantCredit
  rw [if_neg h]
  refine ⟨fun q hi => ?_, fun o hi hs => ?_, fun q hi hs hn => ?_⟩
  · rw [hi]
  · rw [hi, hs]
  · rw [hi, hs, hn]

theorem grantCredit_idle {s : State} (h : s.lif.freeCredits = 0 ∨
    (s.fillRequest .injected = none ∧ s.sweepRequest = none ∧ s.fillRequest .normal = none)) : s.grantCredit = s := by
  unfold State.grantCredit
  split
  · rfl
  · obtain ⟨hi, hs, hn⟩ := h.resolve_left (by assumption)
    rw [hi, hs, hn]

/-- The scratch header of the head job's chunk. -/
theorem scratchHeader_eq {s : State} {j : Job} (h : s.headJob = some j) (st : HeaderState) :
    s.scratchHeader st = .header { serial := j.serial.getD 0, range := j.range, newKeySlot := j.newKey.getD 0,
                                   first := s.rke.first, n := s.rke.n, state := st } := by
  unfold State.scratchHeader; rw [h]

/-- R102, R104, R114, R115: what each operation of a chunk asks of the medium. -/
theorem chunkFrame_asks (s : State) (o : ChunkOp) :
    (∀ i, o = .read i → (s.chunkFrame o).1 = .read ∧ (s.chunkFrame o).2 = .mediaRead (s.rke.first + i)) ∧
    (∀ i, o = .scratch i → (s.chunkFrame o).1 = .write ∧
      (s.chunkFrame o).2 = .mediaWrite (s.lif.scratchBase + 1 + i) (s.buffered i)) ∧
    (∀ i, o = .dest i → (s.chunkFrame o).1 = .write ∧ (s.chunkFrame o).2 = .mediaWrite (s.rke.first + i) (s.buffered i)) ∧
    (∀ i, o = .recoverRead i → (s.chunkFrame o).1 = .read ∧ (s.chunkFrame o).2 = .mediaRead (s.lif.scratchBase + 1 + i)) ∧
    (o = .recoverHeader → (s.chunkFrame o).1 = .read ∧ (s.chunkFrame o).2 = .mediaRead s.lif.scratchBase) ∧
    (∀ j, s.headJob = some j →
      (o = .headerFilled → (s.chunkFrame o).1 = .write ∧ (s.chunkFrame o).2 = .mediaWrite s.lif.scratchBase
        (.header { serial := j.serial.getD 0, range := j.range, newKeySlot := j.newKey.getD 0, first := s.rke.first,
                   n := s.rke.n, state := .filled })) ∧
      (o = .headerCopied → (s.chunkFrame o).1 = .write ∧ (s.chunkFrame o).2 = .mediaWrite s.lif.scratchBase
        (.header { serial := j.serial.getD 0, range := j.range, newKeySlot := j.newKey.getD 0, first := s.rke.first,
                   n := s.rke.n, state := .copied }))) := by
  refine ⟨?_, ?_, ?_, ?_, ?_, fun j hj => ⟨?_, ?_⟩⟩
  · rintro i rfl; exact ⟨rfl, rfl⟩
  · rintro i rfl; exact ⟨rfl, rfl⟩
  · rintro i rfl; exact ⟨rfl, rfl⟩
  · rintro i rfl; exact ⟨rfl, rfl⟩
  · rintro rfl; exact ⟨rfl, rfl⟩
  · rintro rfl; exact ⟨rfl, by rw [State.chunkFrame, scratchHeader_eq hj]⟩
  · rintro rfl; exact ⟨rfl, by rw [State.chunkFrame, scratchHeader_eq hj]⟩

/-- What the sweep keeps of its own beyond the request that it issues. -/
theorem issueSweep_framed (s : State) (o : ChunkOp) :
    Framed [.rekey] (s.issue (s.chunkFrame o).1 (.rekey s.rke.chunk o) (s.chunkFrame o).2) (s.issueSweep o) := by
  refine ⟨rfl, fun q hq => ?_⟩
  cases q <;> simp_all [Piece.same, State.issueSweep]

/-! ### The progress of a FILL (R144) -/

/-- The chunks of a FILL's span from progress p to n, each known once. -/
structure ChunksFrom (n p : Nat) (l : List (Nat × Bool)) : Prop where
  aligned : p < n → p % 256 = 0
  bound : p ≤ n
  inside : ∀ x ∈ l, p ≤ x.1 * 256 ∧ x.1 * 256 < n
  once : (l.map (fun x => x.1)).Nodup

/-- R144: progress has passed from p to r.1: each chunk between has ended, the one at r.1 has not, the chunks above stay, and
the skipped ones passed are counted. -/
structure FillPassed (n p : Nat) (l : List (Nat × Bool)) (r : Nat × List (Nat × Bool) × Nat) : Prop where
  low : p ≤ r.1
  high : r.1 ≤ n
  aligned : r.1 < n → r.1 % 256 = 0
  rest : r.2.1 = l.filter (fun x => decide (r.1 ≤ x.1 * 256))
  count : r.2.2 = (l.filter (fun x => x.2 && decide (x.1 * 256 < r.1))).length
  passed : ∀ j, p ≤ j * 256 → j * 256 < r.1 → ∃ x ∈ l, x.1 = j
  stops : ∀ x ∈ l, r.1 < n → x.1 * 256 ≠ r.1

/-- Progress that stays where it is. -/
theorem ChunksFrom.stay {n p : Nat} {l : List (Nat × Bool)} (h : ChunksFrom n p l)
    (hstop : ∀ x ∈ l, p < n → x.1 * 256 ≠ p) : FillPassed n p l (p, l, 0) where
  low := le_rfl
  high := h.bound
  aligned := h.aligned
  rest := (List.filter_eq_self.mpr fun x hx => by simpa using (h.inside x hx).1).symm
  count := by
    symm
    rw [List.length_eq_zero_iff, List.filter_eq_nil_iff]
    intro x hx
    have := (h.inside x hx).1
    simp only [Bool.and_eq_true, decide_eq_true_eq, not_and]
    omega
  passed := fun j h1 h2 => by omega
  stops := hstop

/-- The chunks above the one at progress. -/
theorem ChunksFrom.next {n p : Nat} {l : List (Nat × Bool)} (h : ChunksFrom n p l) (hp : p < n) :
    ChunksFrom n (min n ((p / 256 + 1) * 256)) (l.filter (fun x => x.1 != p / 256)) where
  aligned := fun hlt => by omega
  bound := by omega
  inside := fun x hx => by
    obtain ⟨hx, hne⟩ := List.mem_filter.mp hx
    have := h.inside x hx
    have := h.aligned hp
    simp only [bne_iff_ne, ne_eq] at hne
    omega
  once := (List.filter_sublist.map _).nodup h.once

/-- One of the known chunks is taken out by its number. -/
theorem length_filter_remove {l : List (Nat × Bool)} {q : Nat × Bool} (hn : (l.map (fun x => x.1)).Nodup) (hq : q ∈ l)
    (f : Nat × Bool → Bool) :
    (l.filter f).length = ((l.filter (fun x => x.1 != q.1)).filter f).length + if f q then 1 else 0 := by
  induction l with
  | nil => simp at hq
  | cons a l ih =>
    obtain ⟨hnot, hn⟩ := List.nodup_cons.mp hn
    rcases List.mem_cons.mp hq with rfl | hq
    · have hall : l.filter (fun x => x.1 != q.1) = l := List.filter_eq_self.mpr fun x hx => by
        simpa using fun e : x.1 = q.1 => hnot (List.mem_map.mpr ⟨x, hx, e⟩)
      by_cases hf : f q <;> simp [hall, hf]
    · have hne : a.1 ≠ q.1 := fun e => hnot (List.mem_map.mpr ⟨q, hq, e.symm⟩)
      have hrest := ih hn hq
      rw [List.filter_cons_of_pos (p := fun x : Nat × Bool => x.1 != q.1) (by simpa using hne)]
      by_cases hf : f a
      · rw [List.filter_cons_of_pos hf, List.filter_cons_of_pos hf, List.length_cons, List.length_cons]
        omega
      · rwa [List.filter_cons_of_neg hf, List.filter_cons_of_neg hf]

/-- R144: progress passes one chunk after the other. -/
theorem advanceFill_passed (n : Nat) (fuel p : Nat) (l : List (Nat × Bool)) (hl : l.length < fuel)
    (h : ChunksFrom n p l) : FillPassed n p l (advanceFill n fuel p l) := by
  induction fuel generalizing p l with
  | zero => omega
  | succ fuel ih =>
    unfold advanceFill
    by_cases hp : n ≤ p
    · rw [if_pos hp]
      exact h.stay fun x hx hlt => by omega
    rw [if_neg hp]
    have hmod := h.aligned (by omega)
    cases hfind : l.find? (fun q => q.1 == p / Config.fillChunk) with
    | none =>
      refine h.stay fun x hx _ e => ?_
      have := List.find?_eq_none.mp hfind x hx
      simp only [beq_iff_eq, Config.fillChunk] at this
      omega
    | some q =>
      have hq : q ∈ l := List.mem_of_find?_eq_some hfind
      have hat : q.1 = p / 256 := by simpa [Config.fillChunk] using List.find?_some hfind
      have hshort : (l.filter (fun x => x.1 != q.1)).length < fuel := by
        have := length_filter_remove h.once hq (fun _ => true)
        simp only [List.filter_true, if_true] at this
        omega
      have hnext := h.next (by omega)
      rw [← hat] at hnext
      obtain ⟨low, high, aligned, rest, count, passed, stops⟩ := ih _ _ hshort hnext
      dsimp only [Config.fillChunk]
      generalize advanceFill n fuel (min n ((q.1 + 1) * 256)) (l.filter (fun x => x.1 != q.1)) = r at *
      refine ⟨by dsimp only; omega, high, aligned, ?_, ?_, fun j h1 h2 => ?_, fun x hx hlt => ?_⟩
      · dsimp only
        rw [rest, List.filter_filter]
        refine List.filter_congr fun x hx => ?_
        by_cases hx : x.1 = q.1
        · simp [hx]; omega
        · simp [hx]
      · dsimp only
        rw [length_filter_remove h.once hq, count]
        have : q.1 * 256 < r.1 := by omega
        simp [this]
      · by_cases hj : j = q.1
        · exact ⟨q, hq, hj.symm⟩
        · obtain ⟨x, hx, e⟩ := passed j (by omega) h2
          exact ⟨x, (List.mem_filter.mp hx).1, e⟩
      · dsimp only at hlt ⊢
        by_cases hx' : x.1 = q.1
        · omega
        · exact stops x (List.mem_filter.mpr ⟨hx, by simpa using hx'⟩) hlt

/-- R144: how far the end of chunk i brings the progress of a FILL. -/
def Chain.advanced (c : Chain) (n p i : Nat) (skipped : Bool) : Nat × List (Nat × Bool) × Nat :=
  advanceFill n ((c.above ++ [(i, skipped)]).length + 1) p (c.above ++ [(i, skipped)])

/-- R144: the chain as the end of chunk i leaves it. -/
def Chain.chunkPassed (c : Chain) (n p : Nat) (rest : List WipeStep) (i : Nat) (skipped : Bool) : Chain :=
  let q := c.advanced n p i skipped
  { c with steps := .fill (some n) q.1 :: rest, above := q.2.1, failedChunks := min 65535 (c.failedChunks + q.2.2)
           left := if q.1 = p then c.left else c.left + 1 }

theorem chunkEnded_fill {s : State} {k : ChainKind} {c : Chain} {n p : Nat} {rest : List WipeStep} (hc : s.chain k = some c)
    (hb : c.begun = true) (hs : c.steps = .fill (some n) p :: rest) (i : Nat) (skipped : Bool) :
    let d := s.setChain k (some (c.chunkPassed n p rest i skipped))
    s.chunkEnded k c.no i skipped =
      if (c.advanced n p i skipped).1 = p then d else d.write .wipe [.fillProgress k c.no] := by
  have hfold : s.chunkEnded k c.no i skipped =
      let q := c.advanced n p i skipped
      let d := { c with steps := .fill (some n) q.1 :: rest, above := q.2.1,
                        failedChunks := min 65535 (c.failedChunks + q.2.2) }
      if q.1 = p then s.setChain k (some d)
      else (s.setChain k (some { d with left := d.left + 1 })).write .wipe [.fillProgress k c.no] := by
    unfold State.chunkEnded
    rw [hc]
    dsimp only
    rw [hs]
    exact if_pos ⟨rfl, hb⟩
  rw [hfold]
  by_cases h : (c.advanced n p i skipped).1 = p <;> simp [Chain.chunkPassed, h]

/-- R144: the end of a chunk of a step that is no begun FILL of this chain. -/
theorem chunkEnded_other {s : State} {k : ChainKind} {no : Nat}
    (h : ∀ c n p l, s.chain k = some c → c.no = no → c.begun = true → c.steps ≠ .fill (some n) p :: l) (i : Nat)
    (skipped : Bool) : s.chunkEnded k no i skipped = s := by
  unfold State.chunkEnded
  split
  · next c hc =>
    split
    · next n p rest hs =>
      split
      · next hcond => exact absurd hs (h c n p rest hc hcond.1 hcond.2)
      · rfl
    · rfl
  · rfl

end Sys2Proof.Machine

namespace Sys2Proof
open Machine

/-- Settles O17. -/
theorem creditGoesToFirstWaiter : Obligations.CreditGoesToFirstWaiter := by
  intro s header asks may cycle taken scratch
  refine ⟨fun k hk => ?_, fun k c m p l i hc hb hs hp hmay hstart hact h1 h2 h3 h4 => ?_, fun k c i n h => ?_,
    fun o => s.sweepRequest_iff o, fun h => by rw [show exec .mediaCreditGrant s = .next s.grantCredit from rfl, grantCredit_idle h],
    fun hf hw hcred => ?_⟩
  · obtain ⟨⟨c, i, n⟩, h⟩ := Option.ne_none_iff_exists'.mp hk
    obtain ⟨hc, hb, hstart, hact, hmay, -⟩ := fillRequest_some h
    exact ⟨(mayTake_iff s k).mp hmay, hstart, hact, c, hc, hb⟩
  · have hmay' := (mayTake_iff s k).mpr hmay
    have hsome := fillCandidates_find_isSome (s := s) (k := k) hp ⟨h1, h2, h3, h4⟩
    obtain ⟨x, hx⟩ := Option.isSome_iff_exists.mp hsome
    rw [fillRequest_eq hc hs, hx]
    simp [hb, hstart, hact, hmay']
  · obtain ⟨hc, -, -, -, -, m, p, l, hs, hfind, hn⟩ := fillRequest_some h
    obtain ⟨⟨h1, h2, h3, h4⟩, h5⟩ := fillCandidates_find hfind
    exact ⟨hc, m, p, l, hs, h1, h2, hn, h3, h4, h5⟩
  · obtain ⟨hinj, hsweep, hnorm⟩ := grantCredit_cases s hf
    cases hi : s.fillRequest .injected with
    | some q =>
      obtain ⟨hframe, hcredit, hout, hcycle, htag, hsent⟩ :=
        issue_issues s .fill (.wipe .injected q.1.no q.2.1) (.mediaFill (q.2.1 * 256) q.2.2 0) hf hcred
      refine ⟨s.issueFill .injected q, _, _, congrArg Host.Outcome.next (hinj q hi), hframe.mono (by decide), hcredit, hout,
        hcycle, rfl, htag, hsent, fun c i n h => ?_, fun o h => absurd h (by simp), fun c i n h => absurd h (by simp)⟩
      obtain rfl := Option.some.inj h
      exact ⟨rfl, rfl, rfl, rfl⟩
    | none =>
      cases hs : s.sweepRequest with
      | some o =>
        obtain ⟨hframe, hcredit, hout, hcycle, htag, hsent⟩ :=
          issue_issues s (s.chunkFrame o).1 (.rekey s.rke.chunk o) (s.chunkFrame o).2 hf hcred
        refine ⟨s.issueSweep o, _, _, congrArg Host.Outcome.next (hsweep o hi hs),
          (hframe.trans (issueSweep_framed s o)).mono (by decide), hcredit, hout,
          hcycle, rfl, htag, hsent, fun c i n h => absurd h (by simp), fun x _ h => ?_, fun c i n _ h => absurd h (by simp)⟩
        obtain rfl := Option.some.inj h
        exact ⟨rfl, chunkFrame_asks s o, rfl⟩
      | none =>
        obtain ⟨q, hq⟩ : ∃ q, s.fillRequest .normal = some q := by
          simpa [hi, hs, Option.ne_none_iff_exists'] using hw
        obtain ⟨hframe, hcredit, hout, hcycle, htag, hsent⟩ :=
          issue_issues s .fill (.wipe .normal q.1.no q.2.1) (.mediaFill (q.2.1 * 256) q.2.2 0) hf hcred
        refine ⟨s.issueFill .normal q, _, _, congrArg Host.Outcome.next (hnorm q hi hs hq), hframe.mono (by decide), hcredit, hout,
          hcycle, rfl, htag, hsent, fun c i n h => absurd h (by simp), fun o _ h => absurd h (by simp), fun c i n _ _ h => ?_⟩
        obtain rfl := Option.some.inj (hq.symm.trans h)
        exact ⟨rfl, rfl, rfl, rfl⟩

/-- Settles O18. -/
theorem fillChunksEnd : Obligations.FillChunksEnd := by
  intro k no i e s t skipped
  have ht : t = s.chunkEnded k no i skipped := by cases e <;> rfl
  refine ⟨fun h => ht.trans (chunkEnded_other h i skipped), ?_⟩
  rintro c n p l hc rfl hb hs hp known hnodup hinside
  have hmem : (i, skipped) ∈ known := List.mem_append_right _ (List.mem_singleton_self _)
  have hchunks : ChunksFrom n p known := ⟨fun _ => hp, by have := hinside _ hmem; omega, hinside, hnodup⟩
  have hpass : FillPassed n p known (c.advanced n p i skipped) :=
    advanceFill_passed n (known.length + 1) p known (Nat.lt_succ_self _) hchunks
  obtain ⟨low, high, aligned, rest, count, passed, stops⟩ := hpass
  have hend := chunkEnded_fill hc hb hs i skipped
  have hstay : (c.advanced n p i skipped).1 = p → t = s.setChain k (some (c.chunkPassed n p l i skipped)) := fun h => by
    rw [ht, hend, if_pos h]
  have hmove : (c.advanced n p i skipped).1 ≠ p →
      t = (s.setChain k (some (c.chunkPassed n p l i skipped))).write .wipe [.fillProgress k c.no] := fun h => by
    rw [ht, hend, if_neg h]
  have hwpe : t.wpe = (s.setChain k (some (c.chunkPassed n p l i skipped))).wpe := by
    by_cases h : (c.advanced n p i skipped).1 = p
    · rw [hstay h]
    · rw [hmove h]; simp
  have hchain : ∀ x, t.chain x = (s.setChain k (some (c.chunkPassed n p l i skipped))).chain x := fun x => by
    unfold State.chain; rw [hwpe]
  refine ⟨c.chunkPassed n p l i skipped, (c.advanced n p i skipped).1, (hchain k).trans (chain_setChain s k _), low, high, aligned,
    ?_, passed, fun x hx hlt => stops x hx hlt, fun h => ?_, fun h => ⟨?_, ?_, ?_⟩, fun x hx => ?_, ?_⟩
  · show c.chunkPassed n p l i skipped = _
    rw [← count, ← rest]
    rfl
  · rw [hstay h]
    exact setChain_framed s k _
  · rw [hmove h]
    exact (setChain_framed s k _).trans (write_framed _ _ _)
  · rw [hmove h]
    exact WritesOnly.trans (us := []) (writesOnly_of_eq (by simp) (by simp) (by simp) _) (write_only _ _ _)
  · rw [hmove h, write_recordOf]
    exact place_holds _ _ _ _ _ (List.mem_singleton_self _)
  · rw [hchain, chain_setChain_other s hx]
  · rw [hwpe]; cases k <;> rfl

end Sys2Proof

/-! SET_CREDENTIAL and RESET_ATTEMPTS (O21, O24): the admission of R55 check by check, and the two changes of a slot that
wait for nothing but the write of its record (R57, R58). -/

namespace Sys2Proof.Machine

/-! ### What a matching proof leaves to a credential request (R48, R52) -/

/-- R52: the proving slot's failures are 0, and no other slot changes. -/
theorem cred_admitted (s : State) (m : Message) (f : Hdr) (p : ProofBlock) (i j : Nat) :
    ((s.begun m f).admitted p i).cred j =
      if j = i then { s.cred j with record := { (s.cred j).record with failures := 0 } } else s.cred j := by
  obtain ⟨-, hslots, -, -⟩ := admitted_proved s m f p i
  unfold State.cred
  rw [hslots, List.getElem?_modify]
  by_cases h : i = j
  · subst h
    cases s.cru.slots[i]? <;> simp [CredRecord.blank]
  · simp [h, Ne.symm h]

theorem ops_admitted (s : State) (m : Message) (f : Hdr) (p : ProofBlock) (i : Nat) :
    ((s.begun m f).admitted p i).cru.ops = s.cru.ops := by simp

theorem credOp_admitted (s : State) (m : Message) (f : Hdr) (p : ProofBlock) (i j : Nat) :
    ((s.begun m f).admitted p i).credOp j = s.credOp j := by
  unfold State.credOp; rw [ops_admitted]

theorem credOp_isSome (s : State) (i : Nat) : (s.credOp i).isSome = true ↔ ∃ o ∈ s.cru.ops, o.target = i := by
  simp [State.credOp]

/-- R55 item 5: a write that is no DISABLE's neither ends nor begins one. -/
theorem place_disabling (s : State) (u : StoreUnit) (c : Record) {ws : List Waiter} (h : ws.any Waiter.ofDisable = false)
    (i : Nat) : (s.place u c ws).disabling i = s.disabling i := by
  have hreplace : ∀ l : List Write,
      (replaceWrite u c ws l).any (fun w => w.unit == .cred i && w.waiters.any Waiter.ofDisable) =
        l.any (fun w => w.unit == .cred i && w.waiters.any Waiter.ofDisable) := fun l => by
    rw [replaceWrite, List.any_map]
    refine congrArg l.any (funext fun w => ?_)
    by_cases hw : w.unit = u <;> simp [hw, List.any_append, h]
  unfold State.place State.disabling
  dsimp only
  split
  · simp only [List.any_append, hreplace]
  · split
    · simp only [List.any_append, hreplace]
    · split <;> simp [List.any_append, h]

theorem disabling_admitted (s : State) (m : Message) (f : Hdr) (p : ProofBlock) (i j : Nat) :
    ((s.begun m f).admitted p i).disabling j = s.disabling j := by
  have hsst : (s.begun m f).sst = s.sst := by simp
  have hbegun : ∀ g : CredSlot → CredSlot, (((s.begun m f).consume p).mapCred i g).disabling j = s.disabling j := fun g => by
    unfold State.disabling; simp [State.consume, State.mapCred]
  unfold State.admitted State.proofMatched
  split
  · unfold State.disabling; simp [State.consume]
  · rw [State.write, place_disabling _ _ _ rfl, hbegun]

/-- R52: the writes that wait for a request whose proof matched, and its tag. -/
theorem lif_admitted {m : Message} (s : State) (f : Hdr) (p : ProofBlock) (i : Nat) (hc : m.channel = .control)
    (hl : m ≠ .linkStart) : ((s.begun m f).admitted p i).lif =
      { s.lif with burstTaken := s.lif.burstTaken + 1, tagsInUse := s.lif.tagsInUse ++ [f.tag] } := by
  rw [(admitted_frame _ _ _).1, begun_tags s m f hc hl]

/-! ### The checks of R55 -/

theorem limitFits_iff (n : Nat) : limitFits n = true ↔ n = 0 ∨ (3 ≤ n ∧ n ≤ 32) := by
  simp [limitFits]

/-- R55 item 2: the pairs of proving slot and target. -/
theorem mayChange_iff (i t : Nat) (a : CredAction) (limit : Nat) : mayChange i t a limit = true ↔
    (a = .set ∧ ((i = t ∧ (i < 2 ∨ limit = 0)) ∨ (i ≠ t ∧ i < 2))) ∨ (a = .disable ∧ i < 2 ∧ 2 ≤ t) := by
  cases a
  · by_cases h : i = t <;> simp [mayChange, custodian, h]
  · simp only [mayChange, custodian, Bool.and_eq_true, Bool.not_eq_true', decide_eq_true_eq, decide_eq_false_iff_not]
    simp [Nat.succ_le_iff]

theorem idleTarget_iff (s : State) (i : Nat) : s.idleTarget i = true ↔
    (s.cred i).record.state = .empty ∨ (s.cred i).record.state = .disabled := by
  simp [State.idleTarget]

section checks
variable {s : State} {i target limit : Nat} {g : Option WrapValue} {secret : Secret} {rto : ReplyTo}

/-- R55 item 1. -/
theorem setCredential_badField {a : Option CredAction} (h : ¬(target ≤ 9 ∧ a ≠ none ∧ (limit = 0 ∨ (3 ≤ limit ∧ limit ≤ 32)))) :
    s.setCredential i g target a secret limit rto = s.refuse rto .badField := by
  rw [← limitFits_iff] at h
  cases a with
  | none => rfl
  | some a =>
    refine if_pos ?_
    by_contra hc
    exact h (by simpa using hc)

variable {a : CredAction} (ht : target ≤ 9) (hl : limit = 0 ∨ (3 ≤ limit ∧ limit ≤ 32))
include ht hl

/-- The checks of R55 in their order, for fields that are right. -/
theorem setCredential_eq : s.setCredential i g target (some a) secret limit rto =
    if mayChange i target a limit = false then s.refuse rto .notPermitted
    else if s.btc.state = .erased then s.refuse rto .wrongState
    else if a = .disable ∧ s.idleTarget target = true then s.refuse rto .wrongState
    else if (s.credOp target).isSome ∨ s.disabling target = true then s.refuse rto .busy
    else match a with
      | .set => s.startOp target i g secret limit rto
      | .disable => s.disableCred target limit rto := by
  rw [← limitFits_iff] at hl
  unfold State.setCredential
  exact if_neg (by simp [hl]; omega)

theorem setCredential_notPermitted (hm : ¬ mayChange i target a limit = true) :
    s.setCredential i g target (some a) secret limit rto = s.refuse rto .notPermitted := by
  rw [setCredential_eq ht hl, if_pos (by simpa using hm)]

variable (hm : mayChange i target a limit = true)
include hm

theorem setCredential_erased (he : s.btc.state = .erased) :
    s.setCredential i g target (some a) secret limit rto = s.refuse rto .wrongState := by
  rw [setCredential_eq ht hl, if_neg (by simp [hm]), if_pos he]

variable (he : s.btc.state ≠ .erased)
include he

theorem setCredential_idle (ha : a = .disable) (hi : s.idleTarget target = true) :
    s.setCredential i g target (some a) secret limit rto = s.refuse rto .wrongState := by
  rw [setCredential_eq ht hl, if_neg (by simp [hm]), if_neg he, if_pos ⟨ha, hi⟩]

variable (hi : a = .disable → ¬ s.idleTarget target = true)
include hi

theorem setCredential_busy (hb : (∃ o ∈ s.cru.ops, o.target = target) ∨ s.disabling target = true) :
    s.setCredential i g target (some a) secret limit rto = s.refuse rto .busy := by
  rw [← credOp_isSome] at hb
  rw [setCredential_eq ht hl, if_neg (by simp [hm]), if_neg he, if_neg (fun h => hi h.1 h.2), if_pos hb]

/-- R56, R57: an admitted SET_CREDENTIAL. -/
theorem setCredential_admitted (hops : ∀ o ∈ s.cru.ops, o.target ≠ target) (hd : s.disabling target = false) :
    (a = .set → s.setCredential i g target (some a) secret limit rto = s.startOp target i g secret limit rto) ∧
    (a = .disable → s.setCredential i g target (some a) secret limit rto = s.disableCred target limit rto) := by
  have hb : ¬((s.credOp target).isSome = true ∨ s.disabling target = true) := by
    rw [credOp_isSome, hd]
    rintro (⟨o, ho, h⟩ | h)
    · exact hops o ho h
    · exact Bool.false_ne_true h
  rw [setCredential_eq ht hl, if_neg (by simp [hm]), if_neg he, if_neg (fun h => hi h.1 h.2), if_neg hb]
  cases a <;> simp

end checks

/-! ### The commands -/

section command
variable {f : Hdr} {target limit i : Nat} {secret : Secret} {p : ProofBlock} {s : State}

/-- A SET_CREDENTIAL whose proof matches comes to R55's checks. -/
theorem setCredential_goes {a : Option CredAction} (hp : (Instr.setCredential f target a secret limit p).passes s)
    (hv : (Instr.setCredential f target a secret limit p).proves s i) :
    Goes (.setCredential f target a secret limit p) s (((s.begun .setCredential f).admitted p i).setCredential i (s.grantValue i)
      target a secret limit (s.replyTo .control f.tag)) := by
  have hgo := exec_admitted rfl rfl hp hv (fun rto u slot g => u.setCredential slot g target a secret limit rto) (fun _ => rfl)
  rwa [grant_admitted] at hgo

theorem setCredential_refused {a : Option CredAction} {st : Status}
    (hp : (Instr.setCredential f target a secret limit p).passes s)
    (hv : (Instr.setCredential f target a secret limit p).proves s i)
    (h : ∀ g rto, ((s.begun .setCredential f).admitted p i).setCredential i g target a secret limit rto =
      ((s.begun .setCredential f).admitted p i).refuse rto st) :
    RefusedAfterProof (.setCredential f target a secret limit p) s i p f.tag st [] :=
  answers_admitted rfl rfl hp hv (fun rto u slot g => u.setCredential slot g target a secret limit rto) (fun _ => rfl) (h _ _)

end command

/-! ### A slot that changes with the write of its record (R57, R58) -/

/-- A change of one slot by a request whose proof under slot i matched, with a write of its record for a reply. -/
theorem credChanged {s : State} {m : Message} {f : Hdr} {p : ProofBlock} {i target : Nat} (g : CredSlot → CredSlot) (b : Body)
    (hc : m.channel = .control) (hl : m ≠ .linkStart) (hs : Shaped s) (ht : target < 10) (hi : i ≠ target) :
    let u := (s.begun m f).admitted p i
    let t := (u.mapCred target g).write (.cred target) [s.reply f.tag b]
    Framed [.bursts, .tags, .challenges, .credSlots, .writes] s t ∧ WritesOnly [.cred i, .cred target] s t ∧
      t.lif.tagsInUse = s.lif.tagsInUse ++ [f.tag] ∧ t.cru.challenges = s.cru.challenges.set p.challenge none ∧
      (t.cred i).record.failures = 0 ∧ (∀ j, j ≠ i → j ≠ target → t.cred j = s.cred j) ∧
      t.cred target = g (s.cred target) ∧ t.holds (.cred target) (t.recordOf (.cred target)) (s.reply f.tag b) := by
  intro u t
  have hlen : u.cru.slots.length = 10 := ((admitted_keeps s m f p i).shaped hs).credSlots
  have hcred : ∀ j, t.cred j = if j = target then g (s.cred j) else u.cred j := fun j => by
    show (State.write _ _ _).cred j = _
    rw [write_cred, cred_mapCred, hlen]
    by_cases hj : j = target
    · subst hj
      rw [if_pos ⟨rfl, ht⟩, if_pos rfl, cred_admitted, if_neg (Ne.symm hi)]
    · rw [if_neg (fun h => hj h.1), if_neg hj]
  obtain ⟨hch, -, -, -⟩ := admitted_proved s m f p i
  refine ⟨((admitted_framed s m f p i).trans ((mapCred_framed u target g).trans (write_framed _ _ _))).mono (by decide),
    ?_, ?_, ?_, ?_, fun j h1 h2 => ?_, ?_, ?_⟩
  · exact (admitted_writes s m f p i).trans
      (WritesOnly.trans (us := []) (writesOnly_of_eq rfl rfl rfl _) (write_only _ _ _))
  · have hlif : t.lif = u.lif := by simp [t, State.mapCred]
    rw [hlif, lif_admitted s f p i hc hl]
  · rw [← hch]; simp [t, State.mapCred, u]
  · rw [hcred, if_neg hi, cred_admitted, if_pos rfl]
  · rw [hcred, if_neg h2, cred_admitted, if_neg h1]
  · rw [hcred, if_pos rfl]
  · show (State.write _ _ _).holds _ ((State.write _ _ _).recordOf _) _
    rw [write_recordOf]
    exact place_holds _ _ _ _ _ (List.mem_singleton_self _)

/-- The record that a write of a user slot carries. -/
theorem recordOf_userCred (s : State) {i : Nat} (h : 2 ≤ i) : s.recordOf (.cred i) = .cred (s.cred i).record := by
  unfold State.recordOf
  dsimp only
  split
  · rw [if_neg (by omega), if_neg (by omega)]
  · rfl

end Sys2Proof.Machine

namespace Sys2Proof
open Machine

/-- Settles O21: the checks of R55, each on the state after the proof. -/
theorem setCredentialIsAdmitted : Obligations.SetCredentialIsAdmitted := by
  intro f target action secret limit i p s c hp hv hs fields permitted idle
  have hbtc : ((s.begun .setCredential f).admitted p i).btc = s.btc := by simp
  have hidle : ((s.begun .setCredential f).admitted p i).idleTarget target = true ↔ idle := by
    rw [idleTarget_iff, credState_admitted]
  refine ⟨fun h => setCredential_refused hp hv fun g rto => setCredential_badField h, ?_⟩
  cases action with
  | none => exact ⟨fun h => absurd rfl h.2.1, fun h => absurd rfl h.2.1, fun h => absurd rfl h.2.1, fun h => absurd rfl h.2.1⟩
  | some a =>
    have hmay : permitted ↔ mayChange i target a limit = true := by
      rw [mayChange_iff]; simp only [permitted, Option.some.injEq]
    refine ⟨fun ⟨ht, _, hl⟩ hn => ?_, fun ⟨ht, _, hl⟩ hm he => ?_, fun ⟨ht, _, hl⟩ hm he ha hi => ?_,
      fun ⟨ht, _, hl⟩ hm he hi hb => ?_⟩
    · exact setCredential_refused hp hv fun g rto => setCredential_notPermitted ht hl (mt hmay.mpr hn)
    · exact setCredential_refused hp hv fun g rto => setCredential_erased ht hl (hmay.mp hm) (by rwa [hbtc])
    · exact setCredential_refused hp hv fun g rto => setCredential_idle ht hl (hmay.mp hm) (by rwa [hbtc])
        (Option.some.inj ha) (hidle.mpr hi)
    · refine setCredential_refused hp hv fun g rto => setCredential_busy ht hl (hmay.mp hm) (by rwa [hbtc])
        (fun ha => mt hidle.mp (hi (congrArg some ha))) ?_
      rwa [ops_admitted, disabling_admitted]

/-- Settles O24. -/
theorem disableAndResetWaitForTheirWrite : Obligations.DisableAndResetWaitForTheirWrite := by
  constructor
  · intro f target secret limit i p s c hp hv hs ht hl hi h2 he hstate hops hd
    have hidle : ¬ ((s.begun .setCredential f).admitted p i).idleTarget target = true := by
      rw [idleTarget_iff, credState_admitted]
      rcases hstate with h | h <;> simp [h]
    have hgo := setCredential_goes hp hv
    rw [(setCredential_admitted (a := .disable) ht hl ((mayChange_iff ..).mpr (.inr ⟨rfl, hi, h2⟩)) (by simpa using he) (fun _ => hidle)
      (by rwa [ops_admitted]) (by rwa [disabling_admitted])).2 rfl] at hgo
    obtain ⟨hframe, honly, htags, hch, hfail, hother, hslot, hholds⟩ := credChanged (m := .setCredential) (f := f) (p := p)
      (fun x => { record := { x.record with state := .disabled, limit := if limit = 0 then x.record.limit else limit }, backoff := none })
      (.status .ok [0]) rfl (by decide) hs (by omega) (show i ≠ target by omega)
    rw [recordOf_userCred _ h2] at hholds
    exact ⟨_, hgo, hframe, honly, htags, hch, hfail, hother, hslot, hholds⟩
  · intro f target i p s c hp hv hs
    have refused : ∀ {st : Status}, ((s.begun .resetAttempts f).admitted p i).resetAttempts target (s.replyTo .control f.tag) =
        ((s.begun .resetAttempts f).admitted p i).refuse (s.replyTo .control f.tag) st → RefusedAfterProof c s i p f.tag st [] := fun h =>
      answers_admitted rfl rfl hp hv (fun rto u _ _ => u.resetAttempts target rto) (fun _ => rfl) h
    refine ⟨fun h => refused (if_pos h), fun ht he => refused ?_, fun ht he => ?_⟩
    · rw [State.resetAttempts, if_neg (by omega), if_pos (by rwa [credState_admitted])]
    · have hi : i ≠ target := by
        obtain ⟨-, hmay⟩ := hv
        simp only [State.permits, Bool.and_eq_true, bne_iff_ne, ne_eq] at hmay
        exact fun e => hmay.2 e.symm
      have hgo : Goes c s _ := exec_admitted rfl rfl hp hv (fun rto u _ _ => u.resetAttempts target rto) (fun _ => rfl)
      rw [State.resetAttempts, if_neg (by omega), if_neg (by rwa [credState_admitted])] at hgo
      obtain ⟨hframe, honly, htags, hch, hfail, hother, hslot, hholds⟩ := credChanged (m := .resetAttempts) (f := f) (p := p)
        CredSlot.resetAttempts (.status .ok []) rfl (by decide) hs (by omega) hi
      exact ⟨_, hgo, hframe, honly, htags, hch, hfail, hother, hslot, hholds⟩

end Sys2Proof

/-! The waves of a credential change (O22, O23): what SET_CREDENTIAL starts (R38, R39, R56) and what the completion of each
wave's writes brings. First the changes of many ranges' fields at once, and the envelope lists (R31). -/

namespace Sys2Proof.Machine

/-! ### Envelope lists (R31) -/

theorem envelopeOf_holder {l : List Envelope} {x : Holder} {e : Envelope} (h : envelopeOf l x = some e) : e.holder = x := by
  simpa using List.find?_some h

theorem envelopeOf_filterMap (l : List Envelope) (hs : List Holder) (x : Holder) :
    envelopeOf (hs.filterMap (envelopeOf l)) x = if x ∈ hs then envelopeOf l x else none := by
  induction hs with
  | nil => rfl
  | cons h hs ih =>
    cases he : envelopeOf l h with
    | none =>
      rw [List.filterMap_cons_none he, ih]
      by_cases hx : x = h
      · subst hx; simp [he]
      · simp [hx]
    | some e =>
      have hholder := envelopeOf_holder he
      rw [List.filterMap_cons_some he]
      by_cases hx : x = h
      · subst hx
        rw [envelopeOf, List.find?_cons_of_pos (by simpa using hholder), he, if_pos List.mem_cons_self]
      · rw [envelopeOf, List.find?_cons_of_neg (by simpa [hholder] using Ne.symm hx)]
        simpa [hx, envelopeOf] using ih

/-- R31: an ordered list holds the first envelope of each holder. -/
theorem envelopeOf_ordered (l : List Envelope) {x : Holder} (h : x ∈ holderOrder) : envelopeOf (ordered l) x = envelopeOf l x := by
  show envelopeOf (holderOrder.filterMap (envelopeOf l)) x = _
  rw [envelopeOf_filterMap, if_pos h]

theorem envelopeOf_put (l : List Envelope) (e : Envelope) {x : Holder} (h : x ∈ holderOrder) :
    envelopeOf (putEnvelope l e) x = if e.holder = x then some e else envelopeOf l x := by
  rw [putEnvelope, envelopeOf_ordered _ h, envelopeOf]
  by_cases hx : e.holder = x
  · rw [List.find?_cons_of_pos (by simpa using hx), if_pos hx]
  · rw [List.find?_cons_of_neg (by simpa using hx), if_neg hx, envelopeOf]

theorem cred_mem_holderOrder {i : Nat} (h : i ≤ 9) : .cred i ∈ holderOrder := by
  interval_cases i <;> decide

/-! ### Changes of many ranges -/

theorem fields_mapFields (s : State) (r q : Nat) (g : RangeFields → RangeFields) :
    (s.mapFields r g).fields q = if q = r then (s.fields q).map g else s.fields q := by
  unfold State.mapFields
  by_cases hq : q = r
  · subst hq
    cases hf : s.fields q with
    | none => simp [hf]
    | some f =>
      rw [State.fields, entry_setEntry, if_pos ⟨rfl, fields_lt s q f hf⟩, if_pos rfl]
      rfl
  · cases hf : s.fields r with
    | none => simp [hq]
    | some f =>
      rw [State.fields, entry_setEntry, if_neg (fun h => hq h.1), if_neg hq]
      rfl

theorem entry_mapFields (s : State) {r q : Nat} (g : RangeFields → RangeFields) (h : q ≠ r ∨ s.fields q = none) :
    (s.mapFields r g).entry q = s.entry q := by
  unfold State.mapFields
  cases hf : s.fields r with
  | none => rfl
  | some f =>
    have hq : q ≠ r := h.elim id fun hn e => by simp [← e, hn] at hf
    exact (entry_setEntry ..).trans (if_neg (fun e => hq e.1))

/-- The fields of the ranges of a list are changed, each by its own element. -/
def State.mapEach {α : Type} (s : State) (l : List α) (key : α → Nat) (g : α → RangeFields → RangeFields) : State :=
  l.foldl (fun u a => u.mapFields (key a) (g a)) s

section mapEach
variable {α : Type} (l : List α) (key : α → Nat) (g : α → RangeFields → RangeFields) (s : State)

theorem mapEach_framed : Framed [.ranges] s (s.mapEach l key g) := by
  unfold State.mapEach
  refine ⟨(foldl_keeps _ (fun u a => u.mapFields_keeps (key a) (g a)) l s).1, fun q hq => ?_⟩
  cases q <;> simp_all [Piece.same]

theorem mapEach_same : (s.mapEach l key g).sst = s.sst ∧ (s.mapEach l key g).lif = s.lif ∧ (s.mapEach l key g).cru = s.cru ∧
    (s.mapEach l key g).btc = s.btc ∧ (s.mapEach l key g).wpe = s.wpe ∧ (s.mapEach l key g).sent = s.sent ∧
    (s.mapEach l key g).rtb.resealOnWake = s.rtb.resealOnWake := by
  unfold State.mapEach
  simp

theorem mapEach_entry_other {q : Nat} (h : q ∉ l.map key ∨ s.fields q = none) : (s.mapEach l key g).entry q = s.entry q := by
  unfold State.mapEach
  induction l generalizing s with
  | nil => rfl
  | cons a l ih =>
    rw [List.foldl_cons, ih]
    · exact entry_mapFields s (g a) (h.imp_left fun hn e => hn (by simp [e]))
    · refine h.imp (fun hn hm => hn (by simp [hm])) fun hn => ?_
      rw [fields_mapFields, hn]
      simp

theorem mapEach_fields_mem (hn : (l.map key).Nodup) {a : α} (ha : a ∈ l) :
    (s.mapEach l key g).fields (key a) = (s.fields (key a)).map (g a) := by
  unfold State.mapEach
  induction l generalizing s with
  | nil => simp at ha
  | cons b l ih =>
    obtain ⟨hb, hn⟩ := List.nodup_cons.mp hn
    rw [List.foldl_cons]
    rcases List.mem_cons.mp ha with rfl | ha
    · have hother := mapEach_entry_other l key g (s.mapFields (key a) (g a)) (.inl hb)
      rw [State.mapEach] at hother
      rw [State.fields, hother]
      exact (fields_mapFields ..).trans (if_pos rfl)
    · have hne : key a ≠ key b := fun e => hb (e ▸ List.mem_map_of_mem ha)
      rw [ih _ hn ha, fields_mapFields, if_neg hne]

end mapEach

theorem writeAll_framed (s : State) (us : List StoreUnit) (w : Waiter) : Framed [.writes] s (s.writeAll us w) := by
  unfold State.writeAll
  induction us generalizing s with
  | nil => exact ⟨rfl, fun q _ => by cases q <;> simp [Piece.same]⟩
  | cons u us ih => exact ((write_framed s u [w]).trans (ih _)).mono (by decide)

theorem writeAll_cred (s : State) (us : List StoreUnit) (w : Waiter) (j : Nat) : (s.writeAll us w).cred j = s.cred j := by
  unfold State.cred; simp

/-! ### Wave B (R56) -/

/-- R56 item 2: the record of a target with the new values. -/
theorem CredSlot.renew_cases (x : CredSlot) (v : Verifier) (w : WrapValue) (limit : Option Nat) :
    let y := x.renew v w limit
    let blocked := x.record.state = .blocked ∨ limit.getD x.record.limit ≤ x.record.failures
    y.record.verifier = some v ∧ y.record.wrap = some w ∧ y.record.damaged = false ∧
    y.record.limit = limit.getD x.record.limit ∧ y.record.failures = x.record.failures ∧
    y.record.state = (if blocked then .blocked else .enabled) ∧
    y.backoff = (if y.record.state = .blocked then none else x.backoff) := by
  unfold CredSlot.renew
  cases hs : x.record.state <;> by_cases hl : limit.getD x.record.limit ≤ x.record.failures <;> simp [hl]

/-- R39, R56: wave B of the change of slot i: its record takes the new values and is written, the old ones are in force. -/
theorem placeWaveB_placed {s : State} {i : Nat} {o : CredOp} (ho : s.credOp i = some o) (hi : i < s.cru.slots.length) :
    let t := s.placeWaveB i
    Framed [.credOps, .credSlots, .writes] s t ∧ WritesOnly [.cred i] s t ∧ t.cru.challenges = s.cru.challenges ∧
      t.cru.ops = s.cru.ops.map (fun x => if x.target = i then { x with
        wave := .b, left := 1, oldVerifier := (s.cred i).record.verifier, oldWrap := (s.cred i).record.wrap } else x) ∧
      (∀ j, j ≠ i → t.cred j = s.cred j) ∧ t.cred i = (s.cred i).renew o.verifier o.wrap o.limit ∧
      t.verifier i = (s.cred i).record.verifier ∧ t.grantValue i = (s.cred i).record.wrap ∧
      t.holds (.cred i) (t.recordOf (.cred i)) (.credWave i) := by
  intro t
  let inB : CredOp → CredOp := fun x =>
    { x with wave := .b, left := 1, oldVerifier := (s.cred i).record.verifier, oldWrap := (s.cred i).record.wrap }
  have ht : t = (((s.mapOp i inB).mapCred i (fun x => x.renew o.verifier o.wrap o.limit)).write (.cred i) [.credWave i]) := by
    simp only [t, State.placeWaveB, ho, inB]
  have hcred : ∀ j, t.cred j = if j = i then (s.cred i).renew o.verifier o.wrap o.limit else s.cred j := fun j => by
    rw [ht, write_cred, cred_mapCred]
    by_cases hj : j = i
    · rw [if_pos ⟨hj, hj ▸ hi⟩, if_pos hj, hj]; rfl
    · rw [if_neg (fun h => hj h.1), if_neg hj]; rfl
  have hops : t.cru.ops = s.cru.ops.map (fun x => if x.target = i then inB x else x) := by
    rw [ht]; simp [State.mapCred, State.mapOp]
  have hwave : ∃ x, t.waveB i = some (inB x) := by
    have hmem := List.mem_of_find?_eq_some ho
    have htarget : o.target = i := by simpa using List.find?_some ho
    have hsome : (t.waveB i).isSome = true := by
      rw [State.waveB, List.find?_isSome, hops]
      exact ⟨inB o, List.mem_map.mpr ⟨o, hmem, by rw [if_pos htarget]⟩, by simp [inB, htarget]⟩
    obtain ⟨y, hy⟩ := Option.isSome_iff_exists.mp hsome
    have hym := List.mem_of_find?_eq_some hy
    have hyt := List.find?_some hy
    rw [hops, List.mem_map] at hym
    obtain ⟨x, -, rfl⟩ := hym
    by_cases hx : x.target = i
    · exact ⟨x, by rw [hy, if_pos hx]⟩
    · rw [if_neg hx] at hyt
      simp [hx] at hyt
  obtain ⟨x, hx⟩ := hwave
  refine ⟨?_, ?_, by rw [ht]; simp [State.mapCred, State.mapOp], hops, fun j hj => by rw [hcred, if_neg hj], by rw [hcred, if_pos rfl],
    by rw [State.verifier, hx], by rw [State.grantValue, hx], ?_⟩
  · have hop : Framed [.credOps] s (s.mapOp i inB) :=
      ⟨rfl, fun q hq => by cases q <;> simp_all [Piece.same, State.mapOp]⟩
    rw [ht]
    exact (hop.trans ((mapCred_framed _ _ _).trans (write_framed _ _ _))).mono (by decide)
  · rw [ht]
    exact WritesOnly.trans (us := []) (writesOnly_of_eq rfl rfl rfl _) (write_only _ _ _)
  · rw [ht, write_recordOf]
    exact place_holds _ _ _ _ _ (List.mem_singleton_self _)

/-! ### The start of a change (R38, R56 item 1) -/

/-- The change of slot i as R56 starts it. -/
def State.newOp (s : State) (i p : Nat) (g : Option WrapValue) (secret : Secret) (limit : Nat) (rto : ReplyTo) : CredOp :=
  { target := i, verifier := { secret := secret }, wrap := .ofSecret secret, oldVerifier := (s.cred i).record.verifier,
    oldWrap := (s.cred i).record.wrap, limit := if limit = 0 then none else some limit, wave := .a,
    left := (s.openedRanges i p g).length, ranges := (s.openedRanges i p g).map (fun q => q.1),
    skipped := (s.rangesFor i).length - (s.openedRanges i p g).length + s.damagedEntries, rto := rto }

/-- R38, R39: the opened ranges with the target's envelope in two forms. -/
def State.twoFormed (s : State) (i p : Nat) (g : Option WrapValue) (w : WrapValue) : State :=
  s.mapEach (s.openedRanges i p g) (fun q => q.1)
    (fun q f => { f with envelopes := putEnvelope f.envelopes (twoForms f.envelopes i q.2 w) })

def State.opStarted (s : State) (i p : Nat) (g : Option WrapValue) (secret : Secret) (limit : Nat) (rto : ReplyTo) : State :=
  let t := s.twoFormed i p g (.ofSecret secret)
  { t with cru := { t.cru with ops := t.cru.ops ++ [s.newOp i p g secret limit rto] } }

section start
variable (s : State) (i p : Nat) (g : Option WrapValue) (secret : Secret) (limit : Nat) (rto : ReplyTo)

theorem startOp_eq : s.startOp i p g secret limit rto =
    if (s.openedRanges i p g).isEmpty then (s.opStarted i p g secret limit rto).placeWaveB i
    else (s.opStarted i p g secret limit rto).writeAll ((s.openedRanges i p g).map (fun q => .range q.1)) (.credWave i) := rfl

theorem opStarted_framed : Framed [.ranges, .credOps] s (s.opStarted i p g secret limit rto) := by
  have hop : Framed [.credOps] (s.twoFormed i p g (.ofSecret secret)) (s.opStarted i p g secret limit rto) :=
    ⟨rfl, fun q hq => by cases q <;> simp_all [Piece.same, State.opStarted]⟩
  exact ((mapEach_framed ..).trans hop).mono (by decide)

theorem opStarted_same :
    let t := s.opStarted i p g secret limit rto
    t.sst = s.sst ∧ t.lif = s.lif ∧ t.cru.slots = s.cru.slots ∧ t.cru.challenges = s.cru.challenges ∧ t.btc = s.btc ∧
      t.cru.ops = s.cru.ops ++ [s.newOp i p g secret limit rto] ∧ t.rtb.resealOnWake = s.rtb.resealOnWake := by
  obtain ⟨hsst, hlif, hcru, hbtc, -, -, hreseal⟩ := mapEach_same (s.openedRanges i p g) (fun q => q.1)
    (fun q f => { f with envelopes := putEnvelope f.envelopes (twoForms f.envelopes i q.2 (.ofSecret secret)) }) s
  refine ⟨hsst, hlif, ?_, ?_, hbtc, ?_, hreseal⟩ <;> simp [State.opStarted, State.twoFormed, hcru]

theorem openedRanges_nodup : ((s.openedRanges i p g).map (fun q => q.1)).Nodup := by
  have hkey : (s.openedRanges i p g).map (fun q => q.1) =
      (s.rangesFor i).filter (fun r => (s.openEnvelope r (.cred p) g).isSome) := by
    unfold State.openedRanges
    induction s.rangesFor i with
    | nil => rfl
    | cons r l ih => cases h : s.openEnvelope r (.cred p) g <;> simp [h, ih]
  rw [hkey]
  exact (List.nodup_range.filter _).filter _

/-- R38: which ranges a change opens, under which RAK. -/
theorem mem_openedRanges (hs : Shaped s) (r : Nat) (k : Rak) : (r, k) ∈ s.openedRanges i p g ↔
    ∃ f, s.fields r = some f ∧ (i < 2 ∨ listed f.readList i = true ∨ listed f.writeList i = true) ∧
      s.openEnvelope r (.cred p) g = some k := by
  simp only [State.openedRanges, State.rangesFor, State.rangesWhere, List.mem_filterMap, List.mem_filter, List.mem_range,
    Option.map_eq_some_iff, Prod.mk.injEq]
  constructor
  · rintro ⟨x, ⟨-, hx⟩, y, hy, rfl, rfl⟩
    cases hf : s.fields x with
    | none => simp [hf] at hx
    | some f => exact ⟨f, rfl, by simpa [hf, custodian, or_assoc] using hx, hy⟩
  · rintro ⟨f, hf, hlist, hk⟩
    have hr : r < 16 := hs.entries ▸ fields_lt s r f hf
    exact ⟨r, ⟨hr, by simpa [hf, custodian, or_assoc] using hlist⟩, k, hk, rfl, rfl⟩

variable {s i p g secret limit rto}

/-- R39: an opened range gets the target's envelope in the new form behind the old one; the rest of it stays. -/
theorem opStarted_range (hi : i ≤ 9) {q : Nat × Rak} (hq : q ∈ s.openedRanges i p g) {f : RangeFields}
    (hf : s.fields q.1 = some f) :
    ∃ h e, (s.opStarted i p g secret limit rto).fields q.1 = some h ∧ { h with envelopes := f.envelopes } = f ∧
      envelopeOf h.envelopes (.cred i) = some e ∧ e.rak = q.2 ∧ e.whole = true ∧ .ofSecret secret ∈ e.wraps ∧
      (∀ d, envelopeOf f.envelopes (.cred i) = some d → d.whole = true → e.wraps = d.wraps ++ [.ofSecret secret]) ∧
      (envelopeOf f.envelopes (.cred i) = none → e.wraps = [.ofSecret secret]) ∧
      (∀ x ∈ holderOrder, x ≠ .cred i → envelopeOf h.envelopes x = envelopeOf f.envelopes x) := by
  have hfields : (s.opStarted i p g secret limit rto).fields q.1 = _ :=
    (mapEach_fields_mem _ (fun q : Nat × Rak => q.1) _ s (openedRanges_nodup s i p g) hq).trans (congrArg _ hf)
  refine ⟨_, twoForms f.envelopes i q.2 (.ofSecret secret), hfields, rfl, ?_, rfl, rfl, ?_, fun d hd hw => ?_, fun hn => ?_,
    fun x hx hne => ?_⟩
  · exact (envelopeOf_put _ _ (cred_mem_holderOrder hi)).trans (if_pos rfl)
  · exact List.mem_append_right _ (List.mem_singleton_self _)
  · simp [twoForms, hd, hw]
  · simp [twoForms, hn]
  · exact (envelopeOf_put _ _ hx).trans (if_neg (Ne.symm hne))

theorem opStarted_entry {r : Nat} (h : r ∉ (s.openedRanges i p g).map (fun q => q.1)) :
    (s.opStarted i p g secret limit rto).entry r = s.entry r :=
  mapEach_entry_other _ (fun q : Nat × Rak => q.1) _ s (.inl h)

theorem opStarted_credOp (h : ∀ o ∈ s.cru.ops, o.target ≠ i) :
    (s.opStarted i p g secret limit rto).credOp i = some (s.newOp i p g secret limit rto) := by
  obtain ⟨-, -, -, -, -, hops, -⟩ := opStarted_same s i p g secret limit rto
  rw [State.credOp, hops, List.find?_append, List.find?_eq_none.mpr (by simpa using h)]
  simp [State.newOp]

end start

/-- What is in force of a slot without a change whose wave B is outstanding is what its record holds. -/
theorem inForce_of_record {s : State} {i : Nat} (h : s.waveB i = none) :
    s.verifier i = (s.cred i).record.verifier ∧ s.grantValue i = (s.cred i).record.wrap := by
  unfold State.verifier State.grantValue
  rw [h]
  exact ⟨rfl, rfl⟩

/-! ### SET_CREDENTIAL after its proof -/

theorem rangesFor_admitted (s : State) (m : Message) (f : Hdr) (p : ProofBlock) (i target : Nat) :
    ((s.begun m f).admitted p i).rangesFor target = s.rangesFor target := by
  simp only [State.rangesFor, State.rangesWhere, fields_admitted]

theorem openedRanges_admitted (s : State) (m : Message) (f : Hdr) (p : ProofBlock) (i target j : Nat) (g : Option WrapValue) :
    ((s.begun m f).admitted p i).openedRanges target j g = s.openedRanges target j g := by
  simp only [State.openedRanges, rangesFor_admitted, openEnvelope_admitted]

theorem entry_admitted (s : State) (m : Message) (f : Hdr) (p : ProofBlock) (i r : Nat) :
    ((s.begun m f).admitted p i).entry r = s.entry r := by
  unfold State.entry; simp

/-- The change that a SET_CREDENTIAL starts, from the state before its proof. -/
theorem newOp_admitted (s : State) (m : Message) (f : Hdr) (p : ProofBlock) (i target : Nat) (g : Option WrapValue)
    (secret : Secret) (limit : Nat) (rto : ReplyTo) :
    ((s.begun m f).admitted p i).newOp target i g secret limit rto = s.newOp target i g secret limit rto := by
  have hrecord : (((s.begun m f).admitted p i).cred target).record.verifier = (s.cred target).record.verifier ∧
      (((s.begun m f).admitted p i).cred target).record.wrap = (s.cred target).record.wrap := by
    rw [cred_admitted]; split <;> exact ⟨rfl, rfl⟩
  simp only [State.newOp, openedRanges_admitted, rangesFor_admitted, State.damagedEntries, entry_admitted, hrecord]

/-- What a matching proof changes stands through a change of the Credential Unit's operations alone. -/
theorem Proved.through {s u t : State} {i : Nat} {p : ProofBlock} (h : Proved s u i p) (hslots : t.cru.slots = u.cru.slots)
    (hch : t.cru.challenges = u.cru.challenges) (hb : t.btc.provisioning = u.btc.provisioning) {us : List StoreUnit}
    (w : WritesOnly us u t) (hu : StoreUnit.cred i ∉ us) : Proved s t i p := by
  obtain ⟨h1, h2, h3, h4⟩ := h
  exact ⟨by rw [hch]; exact h1, by rw [hslots]; exact h2,
    fun z => State.hasWrite_of w _ hu (by simp [State.recordOf, State.cred, hslots, hb]) (h3 z),
    fun z x hx => ((w.same _ hu) x hx).trans (h4 z x hx)⟩

/-- What a SET_CREDENTIAL has changed as its first wave is placed. -/
structure SetStarted (s v : State) (f : Hdr) (p : ProofBlock) (i target : Nat) (secret : Secret) (limit : Nat) : Prop where
  framed : Framed [.bursts, .tags, .challenges, .credSlots, .writes, .ranges, .credOps] s v
  only : WritesOnly [.cred i] s v
  proved : Proved s v i p
  reseal : v.rtb.resealOnWake = s.rtb.resealOnWake
  entry : ∀ r, r ∉ (s.openedRanges target i (s.grantValue i)).map (fun q => q.1) → v.entry r = s.entry r
  tags : v.lif.tagsInUse = s.lif.tagsInUse ++ [f.tag]
  ops : v.cru.ops = s.cru.ops ++ [s.newOp target i (s.grantValue i) secret limit (s.replyTo .control f.tag)]
  slots : v.cru.slots.length = s.cru.slots.length
  cred : ∀ j, v.cred j = if j = i then { s.cred j with record := { (s.cred j).record with failures := 0 } } else s.cred j
  unopened : s.openedRanges target i (s.grantValue i) = [] → v.rtb = s.rtb
  range : target ≤ 9 → ∀ q ∈ s.openedRanges target i (s.grantValue i), ∀ g, s.fields q.1 = some g →
    ∃ h e, v.fields q.1 = some h ∧ { h with envelopes := g.envelopes } = g ∧
      envelopeOf h.envelopes (.cred target) = some e ∧ e.rak = q.2 ∧ e.whole = true ∧ .ofSecret secret ∈ e.wraps ∧
      (∀ d, envelopeOf g.envelopes (.cred target) = some d → d.whole = true → e.wraps = d.wraps ++ [.ofSecret secret]) ∧
      (envelopeOf g.envelopes (.cred target) = none → e.wraps = [.ofSecret secret]) ∧
      (∀ x ∈ holderOrder, x ≠ .cred target → envelopeOf h.envelopes x = envelopeOf g.envelopes x)

theorem setStarted (s : State) (f : Hdr) (p : ProofBlock) (i target : Nat) (secret : Secret) (limit : Nat) :
    SetStarted s (((s.begun .setCredential f).admitted p i).opStarted target i (s.grantValue i) secret limit
      (s.replyTo .control f.tag)) f p i target secret limit := by
  obtain ⟨hsst, hlif, hslots, hch, hbtc, hops, hreseal⟩ := opStarted_same ((s.begun .setCredential f).admitted p i) target i
    (s.grantValue i) secret limit (s.replyTo .control f.tag)
  have hwrites := writesOnly_of_eq (congrArg (·.queue) hsst) (congrArg (·.waiting) hsst) (congrArg (·.serving) hsst) []
  refine ⟨(admitted_framed s .setCredential f p i).trans (opStarted_framed ..), (admitted_writes s .setCredential f p i).trans hwrites,
    (admitted_proved s .setCredential f p i).through hslots hch (by rw [hbtc]) hwrites (by simp), by rw [hreseal]; simp, fun r hr => ?_,
    by rw [hlif, lif_admitted s f p i rfl (by decide)], by rw [hops, ops_admitted, newOp_admitted],
    by rw [hslots, (admitted_proved s .setCredential f p i).2.1, List.length_modify], fun j => ?_, fun hnone => ?_,
    fun ht q hq g hg => ?_⟩
  · rw [← entry_admitted s .setCredential f p i]
    exact opStarted_entry (by rwa [openedRanges_admitted])
  · rw [← cred_admitted s .setCredential f p i]
    unfold State.cred
    rw [hslots]
  · have htwo : ((s.begun .setCredential f).admitted p i).twoFormed target i (s.grantValue i) (.ofSecret secret) =
        (s.begun .setCredential f).admitted p i := by
      rw [State.twoFormed, openedRanges_admitted, hnone]; rfl
    show (State.twoFormed _ _ _ _ _).rtb = _
    rw [htwo]; simp
  · exact opStarted_range ht (by rwa [openedRanges_admitted]) (by rwa [fields_admitted])

/-- A SET_CREDENTIAL of R56 places its first wave: wave A over the ranges it opened, or wave B where it opened none. -/
theorem set_goes {f : Hdr} {target limit i : Nat} {secret : Secret} {p : ProofBlock} {s : State}
    (hp : (Instr.setCredential f target (some .set) secret limit p).passes s)
    (hv : (Instr.setCredential f target (some .set) secret limit p).proves s i) (ht : target ≤ 9)
    (hl : limit = 0 ∨ (3 ≤ limit ∧ limit ≤ 32)) (hmay : (i = target ∧ (i < 2 ∨ limit = 0)) ∨ (i ≠ target ∧ i < 2))
    (he : s.btc.state ≠ .erased) (hops : ∀ o ∈ s.cru.ops, o.target ≠ target) (hd : s.disabling target = false) :
    ∃ v, SetStarted s v f p i target secret limit ∧
      v.credOp target = some (s.newOp target i (s.grantValue i) secret limit (s.replyTo .control f.tag)) ∧
      Goes (.setCredential f target (some .set) secret limit p) s
        (if (s.openedRanges target i (s.grantValue i)).isEmpty then v.placeWaveB target
         else v.writeAll ((s.openedRanges target i (s.grantValue i)).map (fun q => .range q.1)) (.credWave target)) := by
  have hgo := setCredential_goes hp hv
  rw [(setCredential_admitted (a := .set) ht hl ((mayChange_iff ..).mpr (.inl ⟨rfl, hmay⟩)) (by simpa using he)
    (fun h => by cases h) (by rwa [ops_admitted]) (by rwa [disabling_admitted])).1 rfl, startOp_eq, openedRanges_admitted] at hgo
  refine ⟨_, setStarted s f p i target secret limit, ?_, hgo⟩
  rw [opStarted_credOp (by rwa [ops_admitted]), newOp_admitted]

end Sys2Proof.Machine

namespace Sys2Proof
open Machine

/-- Settles O22: the ranges that the proving slot opens are written by wave A; without one, the record by wave B. -/
theorem setCredentialStartsItsWaves : Obligations.SetCredentialStartsItsWaves := by
  intro f target secret limit i p s c hp hv hs ht hl hmay he hops hd opened
  obtain ⟨v, started, hop, hgo⟩ := set_goes hp hv ht hl hmay he hops hd
  obtain ⟨framed, only, proved, reseal, entry, tags, ops, slots, cred, unopened, range⟩ := started
  have hmem : ∀ r k, (r, k) ∈ opened ↔ _ := mem_openedRanges s target i (s.grantValue i) hs
  have hstate : (v.cred target).record.state = (s.cred target).record.state := by rw [cred]; split <;> rfl
  have hlimit : (v.cred target).record.limit = (s.cred target).record.limit := by rw [cred]; split <;> rfl
  have hback : (v.cred target).backoff = (s.cred target).backoff := by rw [cred]; split <;> rfl
  have hver : (v.cred target).record.verifier = (s.cred target).record.verifier := by rw [cred]; split <;> rfl
  have hwrap : (v.cred target).record.wrap = (s.cred target).record.wrap := by rw [cred]; split <;> rfl
  by_cases hnone : opened = []
  · rw [if_pos (by simpa using hnone)] at hgo
    obtain ⟨hframe, honly, hch, hops', hother, hslot, hver', hwrap', hholds⟩ := placeWaveB_placed hop (by rw [slots, hs.credSlots]; omega)
    have hkeep : ∀ g : CredOp → CredOp, s.cru.ops.map (fun x => if x.target = target then g x else x) = s.cru.ops := fun g =>
      (List.map_congr_left fun x hx => if_neg (hops x hx)).trans (List.map_id _)
    have htarget : (s.newOp target i (s.grantValue i) secret limit (s.replyTo .control f.tag)).target = target := rfl
    rw [ops, List.map_append, hkeep, List.map_singleton, if_pos htarget] at hops'
    obtain ⟨hv1, hv2, hv3, hv4, hv5, hv6, hv7⟩ := (v.cred target).renew_cases { secret := secret } (.ofSecret secret)
      (if limit = 0 then none else some limit)
    have hslot : (v.placeWaveB target).cred target = (v.cred target).renew { secret := secret } (.ofSecret secret)
      (if limit = 0 then none else some limit) := hslot
    have hrtb : (v.placeWaveB target).rtb = s.rtb := (by simp : (v.placeWaveB target).rtb = v.rtb).trans (unopened hnone)
    obtain ⟨hproved, -, hwritten, hsame⟩ := proved
    refine ⟨_, _, hgo, (framed.trans hframe).mono (by decide), (only.trans honly).mono (fun x hx => ?_), by rw [hrtb],
      fun r _ => by unfold State.entry; rw [hrtb], by simpa using tags, hch.trans hproved, hops', rfl, rfl, rfl, rfl, rfl,
      hver, hver'.trans hver, hwrap, hwrap'.trans hwrap, rfl, hmem, fun h => absurd hnone h, fun _ => ⟨rfl, rfl, hrtb, ?_⟩⟩
    · rcases List.mem_append.mp hx with hx | hx
      · exact List.mem_singleton.mp hx ▸ List.mem_cons_self
      · exact List.mem_cons_of_mem _ (List.mem_singleton.mp hx ▸ List.mem_cons_self)
    · have hgiven : (if limit = 0 then none else some limit).getD (s.cred target).record.limit =
          if limit = 0 then (s.cred target).record.limit else limit := by split <;> rfl
      have hfailures : (v.cred target).record.failures = if i = target then 0 else (s.cred target).record.failures := by
        by_cases h : i = target
        · rw [cred, if_pos h.symm, if_pos h]
        · rw [cred, if_neg (Ne.symm h), if_neg h]
      have hnewLimit : ((v.placeWaveB target).cred target).record.limit =
          if limit = 0 then (s.cred target).record.limit else limit := by rw [hslot, hv4, hlimit, hgiven]
      have hnewState : ((v.placeWaveB target).cred target).record.state = if (s.cred target).record.state = .blocked ∨
          ((v.placeWaveB target).cred target).record.limit ≤ ((v.placeWaveB target).cred target).record.failures
          then .blocked else .enabled := by rw [hslot, hv6, hv4, hv5, hstate]
      refine ⟨by rw [hslot, hv1], by rw [hslot, hv2], by rw [hslot, hv3], hnewLimit, hnewState, by rw [hslot, hv5, hfailures],
        by rw [hslot, hv7, hback], fun j hi ht => by rw [hother j ht, cred, if_neg hi], fun hi => ⟨?_, fun h => ?_, fun h => ?_⟩, hholds⟩
      · rw [hother i hi, cred, if_pos rfl]
      · have hrecord : (v.placeWaveB target).recordOf (.cred i) = v.recordOf (.cred i) := by
          simp [State.recordOf, hother i hi]
        exact State.hasWrite_of honly _ (by simpa using hi) hrecord (hwritten h)
      · exact WritesSame.trans (hsame h) (honly.same _ (by simpa using hi))
  · rw [if_neg (by simpa using hnone)] at hgo
    have honly := writeAll_only (opened.map (fun q => .range q.1)) (.credWave target) v
    have hwave : (v.writeAll (opened.map (fun q => .range q.1)) (.credWave target)).waveB target = none := by
      refine List.find?_eq_none.mpr fun x hx => ?_
      have hx : x ∈ v.cru.ops := by simpa using hx
      rw [ops, List.mem_append, List.mem_singleton] at hx
      rcases hx with hx | rfl
      · simp [hops x hx]
      · simp [State.newOp]
    obtain ⟨hver', hwrap'⟩ := inForce_of_record hwave
    rw [writeAll_cred] at hver' hwrap'
    refine ⟨_, s.newOp target i (s.grantValue i) secret limit (s.replyTo .control f.tag), hgo,
      (framed.trans (writeAll_framed ..)).mono (by decide), (only.trans honly).mono (fun x hx => ?_), by simpa using reseal,
      fun r hr => by simpa [State.entry] using entry r hr, by simpa using tags, by simpa using proved.1, by simpa using ops, rfl, rfl,
      rfl, rfl, rfl, rfl, hver'.trans hver, rfl, hwrap'.trans hwrap, rfl, hmem, fun _ => ⟨rfl, rfl, rfl, ?_, fun q hq => ⟨?_, ?_⟩⟩,
      fun h => absurd h hnone⟩
    · rcases List.mem_append.mp hx with hx | hx
      · exact List.mem_singleton.mp hx ▸ List.mem_cons_self
      · exact List.mem_cons_of_mem _ (List.mem_cons_of_mem _ hx)
    · exact proved.through (by simp) (by simp) (by simp) honly (by simp)
    · rw [writeAll_recordOf]
      exact writeAll_holds _ _ _ _ (List.mem_map_of_mem hq)
    · obtain ⟨k, hk, -⟩ := (hmem q.1 q.2).mp hq
      obtain ⟨h, e, hh, hrest⟩ := range ht q hq k hk
      exact ⟨k, h, e, hk, by simpa [State.fields, State.entry] using hh, hrest⟩

end Sys2Proof

/-! The completion of a write of a credential change (O23): the count of its wave, wave B and wave C (R39, R56), and the end of
the change with a CUT_CREDENTIALS that waited for it (R60). -/

namespace Sys2Proof.Machine

/-! ### A change in progress -/

theorem mapOp_framed (s : State) (i : Nat) (g : CredOp → CredOp) : Framed [.credOps] s (s.mapOp i g) :=
  ⟨rfl, fun q hq => by cases q <;> simp_all [Piece.same, State.mapOp]⟩

theorem credOp_target {s : State} {i : Nat} {o : CredOp} (h : s.credOp i = some o) : o.target = i := by
  simpa using List.find?_some h

theorem credOp_mapOp {s : State} {i : Nat} {o : CredOp} {g : CredOp → CredOp} (hg : ∀ x, (g x).target = x.target)
    (h : s.credOp i = some o) : (s.mapOp i g).credOp i = some (g o) := by
  have htarget : ((fun x : CredOp => x.target == i) ∘ fun x => if x.target = i then g x else x) = fun x => x.target == i :=
    funext fun x => by by_cases hx : x.target = i <;> simp [hx, hg]
  unfold State.credOp at h ⊢
  rw [State.mapOp, List.find?_map, htarget, h, Option.map_some, if_pos (by simpa using List.find?_some h)]

theorem filter_ops_mapOp (s : State) (i : Nat) {g : CredOp → CredOp} (hg : ∀ x, (g x).target = x.target) :
    (s.mapOp i g).cru.ops.filter (fun x => x.target != i) = s.cru.ops.filter (fun x => x.target != i) := by
  simp only [State.mapOp, List.filter_map]
  refine Eq.trans (congrArg _ (List.filter_congr fun x _ => ?_)) ((List.map_congr_left fun x hx => ?_).trans (List.map_id _))
  · by_cases hx : x.target = i <;> simp [hx, hg]
  · exact if_neg (by simpa using (List.mem_filter.mp hx).2)

/-! ### CUT_CREDENTIALS (R60, R142) -/

/-- R60: every slot is EMPTY, and a write of each waits for a requester. -/
def CredsCut (s : State) (w : Waiter) : Prop :=
  (∀ j < 10, s.cred j = { record := .blank, backoff := none }) ∧ ∀ j < 10, s.holds (.cred j) (s.recordOf (.cred j)) w

/-- R60 item 1: a chain that does not wait for credential changes is left alone. -/
theorem resumeCutCredentials_idle {s : State} {k : ChainKind} (h : ∀ c, s.chain k = some c → c.waitsCreds = false) :
    s.resumeCutCredentials k = s := by
  unfold State.resumeCutCredentials
  cases hc : s.chain k with
  | none => rfl
  | some c => simp [h c hc]

theorem resumeCutCredentials_cuts {s : State} {k : ChainKind} {c : Chain} (hc : s.chain k = some c) (hw : c.waitsCreds = true)
    (ho : s.cru.ops = []) : s.resumeCutCredentials k = s.cutCredentials k := by
  unfold State.resumeCutCredentials
  simp [hc, hw, ho]

/-- R60 items 2 to 4: the slots and the challenges as the step leaves them, before its writes. -/
def State.credsBlank (s : State) (k : ChainKind) (c : Chain) : State :=
  ({ s with cru := { s.cru with
      slots := s.cru.slots.map (fun _ => { record := .blank, backoff := none })
      challenges := s.cru.challenges.map (fun _ => none) } }).setChain k (some { c with left := 10, waitsCreds := false })

theorem cutCredentials_eq {s : State} {k : ChainKind} {c : Chain} (hc : s.chain k = some c) :
    s.cutCredentials k = (s.credsBlank k c).writeAll ((List.range 10).map StoreUnit.cred) (.stepWork k c.no) := by
  unfold State.cutCredentials
  rw [hc]
  rfl

theorem credsBlank_cred (s : State) (k : ChainKind) (c : Chain) (j : Nat) :
    (s.credsBlank k c).cred j = { record := .blank, backoff := none } := by
  have hslots : (s.credsBlank k c).cru.slots = s.cru.slots.map (fun _ => { record := .blank, backoff := none }) := by
    cases k <;> rfl
  unfold State.cred
  rw [hslots, List.getElem?_map]
  cases s.cru.slots[j]? <;> rfl

theorem cutCredentials_chain {s : State} {k : ChainKind} {c : Chain} (hc : s.chain k = some c) :
    (s.cutCredentials k).chain k = some { c with left := 10, waitsCreds := false } ∧
      ∀ x, x ≠ k → (s.cutCredentials k).chain x = s.chain x := by
  have hwpe : ∀ x, (s.cutCredentials k).chain x = (s.credsBlank k c).chain x := fun x => by
    rw [cutCredentials_eq hc]; unfold State.chain; simp
  refine ⟨(hwpe k).trans (chain_setChain ..), fun x hx => (hwpe x).trans ((chain_setChain_other _ hx _).trans ?_)⟩
  cases x <;> rfl

theorem cutCredentials_cut {s : State} {k : ChainKind} {c : Chain} (hc : s.chain k = some c) :
    CredsCut (s.cutCredentials k) (.stepWork k c.no) := by
  rw [cutCredentials_eq hc]
  refine ⟨fun j _ => by rw [writeAll_cred, credsBlank_cred], fun j hj => ?_⟩
  rw [writeAll_recordOf]
  exact writeAll_holds _ _ _ _ (List.mem_map_of_mem (List.mem_range.mpr hj))

/-- A second CUT_CREDENTIALS leaves the writes of the first one waiting. -/
theorem CredsCut.cut {s : State} {w : Waiter} (h : CredsCut s w) {k : ChainKind} {c : Chain} (hc : s.chain k = some c) :
    CredsCut (s.cutCredentials k) w := by
  obtain ⟨hblank, hholds⟩ := h
  rw [cutCredentials_eq hc]
  refine ⟨fun j _ => by rw [writeAll_cred, credsBlank_cred], fun j hj => ?_⟩
  have hrecord : (s.credsBlank k c).recordOf (.cred j) = s.recordOf (.cred j) := by
    have hbtc : (s.credsBlank k c).btc = s.btc := by cases k <;> rfl
    simp [State.recordOf, hbtc, credsBlank_cred, hblank j hj]
  have hsst : (s.credsBlank k c).sst = s.sst := by cases k <;> rfl
  rw [writeAll_recordOf]
  refine writeAll_keeps_holds _ _ _ _ _ ?_
  rw [hrecord, holds_of_eq (congrArg (·.queue) hsst) (congrArg (·.waiting) hsst) (congrArg (·.serving) hsst)]
  exact hholds j hj

/-- R60: both chains may go on when a change has ended. -/
theorem resumeBoth_cuts {s : State} (ho : s.cru.ops = []) {k : ChainKind} {c : Chain} (hc : s.chain k = some c)
    (hw : c.waitsCreds = true) :
    let t := (s.resumeCutCredentials .injected).resumeCutCredentials .normal
    (∃ d, t.chain k = some d ∧ d.waitsCreds = false) ∧ CredsCut t (.stepWork k c.no) := by
  intro t
  cases k with
  | injected =>
    have hfirst := resumeCutCredentials_cuts hc hw ho
    obtain ⟨hown, -⟩ := cutCredentials_chain hc
    have hcut := cutCredentials_cut hc
    rw [← hfirst] at hown hcut
    by_cases hn : ∃ d, (s.resumeCutCredentials .injected).chain .normal = some d ∧ d.waitsCreds = true
    · obtain ⟨d, hd, hdw⟩ := hn
      have hsecond := resumeCutCredentials_cuts hd hdw (by simpa using ho)
      obtain ⟨-, hother⟩ := cutCredentials_chain hd
      show (∃ d, State.chain (State.resumeCutCredentials _ _) _ = some d ∧ _) ∧ CredsCut (State.resumeCutCredentials _ _) _
      rw [hsecond]
      exact ⟨⟨_, (hother .injected (by decide)).trans hown, rfl⟩, hcut.cut hd⟩
    · have hsecond : (s.resumeCutCredentials .injected).resumeCutCredentials .normal = s.resumeCutCredentials .injected :=
        resumeCutCredentials_idle fun d hd => by simpa using fun hdw => hn ⟨d, hd, hdw⟩
      show (∃ d, State.chain (State.resumeCutCredentials _ _) _ = some d ∧ _) ∧ CredsCut (State.resumeCutCredentials _ _) _
      rw [hsecond]
      exact ⟨⟨_, hown, rfl⟩, hcut⟩
  | normal =>
    have hkept : (s.resumeCutCredentials .injected).chain .normal = some c := by
      by_cases hi : ∃ d, s.chain .injected = some d ∧ d.waitsCreds = true
      · obtain ⟨d, hd, hdw⟩ := hi
        obtain ⟨-, hother⟩ := cutCredentials_chain hd
        rw [resumeCutCredentials_cuts hd hdw ho, hother .normal (by decide), hc]
      · rw [resumeCutCredentials_idle fun d hd => by simpa using fun hdw => hi ⟨d, hd, hdw⟩, hc]
    have hsecond := resumeCutCredentials_cuts hkept hw (by simpa using ho)
    obtain ⟨hown, -⟩ := cutCredentials_chain hkept
    show (∃ d, State.chain (State.resumeCutCredentials _ _) _ = some d ∧ _) ∧ CredsCut (State.resumeCutCredentials _ _) _
    rw [hsecond]
    exact ⟨⟨_, hown, rfl⟩, cutCredentials_cut hkept⟩

/-! ### The end of a change (R56 item 5) -/

/-- What the end of the change o of slot i brings. -/
structure OpEnded (i : Nat) (o : CredOp) (s t : State) : Prop where
  ops : t.cru.ops = s.cru.ops.filter (fun x => x.target != i)
  reply : o.rto.session = s.lif.session → frame o.rto.channel o.rto.tag (.status .ok [o.skipped]) ∈ t.sent
  freed : TagFreed o.rto s t
  framed : (∀ k c, s.chain k = some c → c.waitsCreds = false) → Framed [.credOps, .tags, .sent] s t
  cuts : ∀ k c, t.cru.ops = [] → s.chain k = some c → c.waitsCreds = true →
    (∃ d, t.chain k = some d ∧ d.waitsCreds = false) ∧ CredsCut t (.stepWork k c.no)

/-- R56 item 5: the change ends with its reply. -/
theorem finishOp_ended {s : State} {i : Nat} {o : CredOp} (h : s.credOp i = some o) : OpEnded i o s (s.finishOp i) := by
  let a : State := { s with cru := { s.cru with ops := s.cru.ops.filter (fun x => x.target != i) } }
  have ht : s.finishOp i = ((a.answer o.rto (.status .ok [o.skipped])).resumeCutCredentials .injected).resumeCutCredentials .normal := by
    simp only [State.finishOp, h, State.refuse, a]
  obtain ⟨hfreed, hframe, hsent⟩ := a.answer_frees o.rto (.status .ok [o.skipped])
  have hops : (s.finishOp i).cru.ops = a.cru.ops := by rw [ht]; simp
  have hchain : ∀ k, (a.answer o.rto (.status .ok [o.skipped])).chain k = s.chain k := fun k => by
    unfold State.chain; simp [a]
  refine ⟨hops, fun hsession => ?_, ?_, fun hidle => ?_, fun k c hnone hc hw => ?_⟩
  · rw [ht]
    simp only [State.resumeCutCredentials_frame]
    rw [hsent, if_pos hsession]
    exact List.mem_append_right _ (List.mem_singleton_self _)
  · show (s.finishOp i).lif.tagsInUse = _
    rw [ht]
    simp only [State.resumeCutCredentials_frame]
    exact hfreed
  · have hfirst : (a.answer o.rto (.status .ok [o.skipped])).resumeCutCredentials .injected = a.answer o.rto (.status .ok [o.skipped]) :=
      resumeCutCredentials_idle fun c hc => hidle _ c (by rwa [hchain] at hc)
    have hsecond : (a.answer o.rto (.status .ok [o.skipped])).resumeCutCredentials .normal = a.answer o.rto (.status .ok [o.skipped]) :=
      resumeCutCredentials_idle fun c hc => hidle _ c (by rwa [hchain] at hc)
    have hop : Framed [.credOps] s a := ⟨rfl, fun q hq => by cases q <;> simp_all [Piece.same, a]⟩
    rw [ht, hfirst, hsecond]
    exact (hop.trans hframe).mono (by decide)
  · rw [hops] at hnone
    rw [ht]
    exact resumeBoth_cuts (by simpa using hnone) (by rwa [hchain]) hw

/-- The end of a change whose wave was marked just before. -/
theorem OpEnded.of_mapOp {s t : State} {i : Nat} {o x : CredOp} {g : CredOp → CredOp} (hg : ∀ x, (g x).target = x.target)
    (hrto : x.rto = o.rto) (hskip : x.skipped = o.skipped) (h : OpEnded i x (s.mapOp i g) t) : OpEnded i o s t := by
  obtain ⟨ops, reply, freed, framed, cuts⟩ := h
  rw [hrto] at reply freed
  rw [hskip] at reply
  exact ⟨by rw [ops, filter_ops_mapOp s i hg], reply, freed,
    fun hidle => ((mapOp_framed s i g).trans (framed hidle)).mono (by decide), cuts⟩

/-! ### Wave C (R39) -/

/-- R39: the ranges that wave C writes. -/
def State.waveCRanges (s : State) (i : Nat) (o : CredOp) : List Nat :=
  (List.range 16).filter (fun r => o.ranges.contains r || (match s.fields r with
    | some f => f.envelopes.any (fun e => e.holder == .cred i && 1 < e.wraps.length)
    | none => false))

theorem mem_waveCRanges (s : State) (i : Nat) (o : CredOp) (r : Nat) : r ∈ s.waveCRanges i o ↔
    r < 16 ∧ (r ∈ o.ranges ∨ ∃ g e, s.fields r = some g ∧ e ∈ g.envelopes ∧ e.holder = .cred i ∧ 1 < e.wraps.length) := by
  unfold State.waveCRanges
  cases hf : s.fields r <;> simp [hf]

/-- R39: the ranges of a list with the envelope of slot i in the new form alone. -/
def State.newForms (s : State) (i : Nat) (o : CredOp) : State :=
  s.mapEach (s.waveCRanges i o) (fun r => r) (fun _ f => { f with envelopes := settleForms f.envelopes i o.wrap })

/-- R39: the mark of a change in its third wave. -/
def CredOp.inWaveC (n : Nat) (o : CredOp) : CredOp := { o with wave := .c, left := n }

theorem placeWaveC_eq {s : State} {i : Nat} {o : CredOp} (h : s.credOp i = some o) : s.placeWaveC i =
    let t := (s.newForms i o).mapOp i (CredOp.inWaveC (s.waveCRanges i o).length)
    if (s.waveCRanges i o).isEmpty then t.finishOp i
    else t.writeAll ((s.waveCRanges i o).map StoreUnit.range) (.credWave i) := by
  unfold State.placeWaveC
  rw [h]
  rfl

theorem newForms_fields (s : State) (i : Nat) (o : CredOp) (r : Nat) : (s.newForms i o).fields r =
    if r ∈ s.waveCRanges i o then (s.fields r).map (fun f => { f with envelopes := settleForms f.envelopes i o.wrap })
    else s.fields r := by
  have hnodup : ((s.waveCRanges i o).map (fun r => r)).Nodup := by
    rw [List.map_id']; exact List.nodup_range.filter _
  by_cases hr : r ∈ s.waveCRanges i o
  · rw [if_pos hr]
    exact mapEach_fields_mem _ (fun r => r) _ s hnodup hr
  · rw [if_neg hr]
    exact congrArg Entry.fields? (mapEach_entry_other _ (fun r => r) _ s (.inl (by rwa [List.map_id'])))

/-- R39: wave C over at least one range. -/
theorem placeWaveC_placed {s : State} {i : Nat} {o : CredOp} (h : s.credOp i = some o) (hne : s.waveCRanges i o ≠ []) :
    let t := s.placeWaveC i
    let rs := s.waveCRanges i o
    Framed [.credOps, .ranges, .writes] s t ∧ WritesOnly (rs.map StoreUnit.range) s t ∧
      t.rtb.resealOnWake = s.rtb.resealOnWake ∧
      t.cru.ops = s.cru.ops.map (fun x => if x.target = i then { x with wave := .c, left := rs.length } else x) ∧
      (∀ r, t.fields r = if r ∈ rs then (s.fields r).map (fun f => { f with envelopes := settleForms f.envelopes i o.wrap })
        else s.fields r) ∧
      (∀ r, s.fields r = none → t.entry r = s.entry r) ∧
      (∀ r ∈ rs, t.holds (.range r) (t.recordOf (.range r)) (.credWave i)) := by
  intro t rs
  have ht : t = ((s.newForms i o).mapOp i (CredOp.inWaveC rs.length)).writeAll (rs.map StoreUnit.range) (.credWave i) := by
    show s.placeWaveC i = _
    rw [placeWaveC_eq h]
    exact if_neg (by simpa using hne)
  have hrtb : t.rtb = (s.newForms i o).rtb := by rw [ht]; simp [State.mapOp]
  obtain ⟨hsst, -, hcru, -, -, -, hreseal⟩ := mapEach_same (s.waveCRanges i o) (fun r => r)
    (fun _ f => { f with envelopes := settleForms f.envelopes i o.wrap }) s
  have hsst' : ((s.newForms i o).mapOp i (CredOp.inWaveC rs.length)).sst = s.sst := hsst
  refine ⟨?_, ?_, by rw [hrtb]; exact hreseal, ?_, fun r => ?_, fun r hr => ?_, fun r hr => ?_⟩
  · rw [ht]
    exact ((mapEach_framed ..).trans ((mapOp_framed ..).trans (writeAll_framed ..))).mono (by decide)
  · rw [ht]
    exact WritesOnly.trans (us := []) (writesOnly_of_eq (congrArg (·.queue) hsst') (congrArg (·.waiting) hsst')
      (congrArg (·.serving) hsst') _) (writeAll_only _ _ _)
  · rw [ht]
    simp only [State.writeAll_frame, State.mapOp]
    exact congrArg (fun c : Credentials => c.ops.map _) hcru
  · rw [← newForms_fields]; unfold State.fields State.entry; rw [hrtb]
  · unfold State.entry
    rw [hrtb]
    exact mapEach_entry_other _ (fun r => r) _ s (.inr hr)
  · rw [ht, writeAll_recordOf]
    exact writeAll_holds _ _ _ _ (List.mem_map_of_mem hr)

/-- R39: a change without a range for wave C ends at once (log 19). -/
theorem placeWaveC_ended {s : State} {i : Nat} {o : CredOp} (h : s.credOp i = some o) (hnone : s.waveCRanges i o = []) :
    OpEnded i o s (s.placeWaveC i) := by
  have ht : s.placeWaveC i = (s.mapOp i (CredOp.inWaveC 0)).finishOp i := by
    rw [placeWaveC_eq h]
    have hforms : s.newForms i o = s := by unfold State.newForms; rw [hnone]; rfl
    rw [hforms, hnone]
    rfl
  rw [ht]
  exact OpEnded.of_mapOp (x := o.inWaveC 0) (g := CredOp.inWaveC 0) (fun _ => rfl) rfl rfl (finishOp_ended (credOp_mapOp (fun _ => rfl) h))

/-- R39: a completed write of a wave, by what its change waits for. -/
theorem credWaveDone_cases {s : State} {i : Nat} {o : CredOp} (h : s.credOp i = some o) :
    (1 < o.left → s.credWaveDone i = s.mapOp i (fun x => { x with left := x.left - 1 })) ∧
    (o.left ≤ 1 → o.wave = .a → s.credWaveDone i = s.placeWaveB i) ∧
    (o.left ≤ 1 → o.wave = .b → s.credWaveDone i = s.placeWaveC i) ∧
    (o.left ≤ 1 → o.wave = .c → s.credWaveDone i = s.finishOp i) := by
  unfold State.credWaveDone
  rw [h]
  refine ⟨fun hl => if_pos hl, fun hl hw => ?_, fun hl hw => ?_, fun hl hw => ?_⟩
  all_goals exact (if_neg (by omega)).trans (by rw [hw])

end Sys2Proof.Machine

namespace Sys2Proof
open Machine

/-- Settles O23. -/
theorem credentialWavesComplete : Obligations.CredentialWavesComplete := by
  intro i s t ops
  refine ⟨fun h => ?_, fun o h => ?_⟩
  · show s.credWaveDone i = s
    unfold State.credWaveDone
    rw [h]
  intro inWaveC newForm ends
  obtain ⟨hcount, ha, hb, hc⟩ := credWaveDone_cases h
  have hends : OpEnded i o s t → ends := fun e =>
    ⟨e.ops, e.reply, e.freed, e.framed, fun k c _ hnone hk hw => by
      obtain ⟨hchain, hblank, hholds⟩ := e.cuts k c hnone hk hw
      exact ⟨hchain, hblank, hholds⟩⟩
  have hmem : ∀ r, r ∈ s.waveCRanges i o ↔ inWaveC r := mem_waveCRanges s i o
  refine ⟨fun hl => ?_, fun hl hw hi hs => ?_, fun hl hw hex => ?_, fun hl hw hno => ?_, fun hl hw => ?_⟩
  · have ht : t = _ := hcount hl
    rw [ht]
    exact ⟨mapOp_framed _ _ _, rfl⟩
  · have ht : t = _ := ha hl hw
    obtain ⟨hframe, honly, -, hops, hother, hslot, hver, hwrap, hholds⟩ := placeWaveB_placed h (by rwa [hs.credSlots])
    obtain ⟨h1, h2, h3, h4, h5, h6, h7⟩ := (s.cred i).renew_cases o.verifier o.wrap o.limit
    intro limit blocked
    rw [ht]
    rw [← hslot] at h1 h2 h3 h4 h5 h6 h7
    refine ⟨hframe, honly, hops, hother, h1, h2, h5, h4, h3, fun hb => ?_, fun hb => ?_, hver, hwrap, hholds⟩
    · rw [if_pos hb] at h6
      exact ⟨h6, by rw [h7, if_pos h6]⟩
    · rw [if_neg hb] at h6
      exact ⟨h6, by rw [h7, if_neg (by rw [h6]; decide)]⟩
  · have ht : t = _ := hb hl hw
    obtain ⟨r, hr⟩ := hex
    obtain ⟨hframe, honly, hreseal, hops, hfields, hentry, hholds⟩ :=
      placeWaveC_placed h (List.ne_nil_of_mem ((hmem r).mpr hr))
    rw [ht]
    exact ⟨s.waveCRanges i o, List.nodup_range.filter _, hmem, hframe, honly, hreseal, hops, hfields, hentry, hholds⟩
  · have ht : t = _ := hb hl hw
    refine hends ?_
    rw [ht]
    exact placeWaveC_ended h (List.eq_nil_iff_forall_not_mem.mpr fun r hr => hno r ((hmem r).mp hr))
  · have ht : t = _ := hc hl hw
    refine hends ?_
    rw [ht]
    exact finishOp_ended h

end Sys2Proof

/-! Boot Control (O26, O27, O30, O31, O32): PROVISION and its two waves (R61, R65, R66), START_IMAGE_UNSEAL (R74), the settings
that wait for their DEVICE or EVSET record (R75, R118), and the proofs of the platform (R76, R77, R128). -/

namespace Sys2Proof.Machine

/-! ### Requests after their proof -/

/-- A request whose proof matched, with its own rules applied to the state after it, is refused. -/
theorem refused_admitted {c : Instr} {s : State} {m : Message} {f : Hdr} {fits : Bool} {fields : List Nat} {n i : Nat}
    {p : ProofBlock} {st : Status} (hr : c.asRequest = some (m, f, fits)) (ha : c.asProven = some (m, fields, n, p))
    (hp : c.passes s) (hv : c.proves s i) (act : ReplyTo → State → Nat → Option WrapValue → State)
    (e : ∀ s : State, exec c s = done (s.take m f fits (fun t rto => t.proven m fields n p rto (act rto))))
    (h : act (s.replyTo .control f.tag) ((s.begun m f).admitted p i) i (((s.begun m f).admitted p i).grantValue i) =
      ((s.begun m f).admitted p i).refuse (s.replyTo .control f.tag) st) : RefusedAfterProof c s i p f.tag st [] :=
  answers_admitted hr ha hp hv act e h

theorem writeDevice_framed (s : State) (g : DeviceRecord → DeviceRecord) (ws : List Waiter) :
    Framed [.device, .writes] s (s.writeDevice g ws) := by
  have hdevice : Framed [.device] s { s with sst := { s.sst with lastDevice := g s.sst.lastDevice } } :=
    ⟨rfl, fun q hq => by cases q <;> simp_all [Piece.same]⟩
  exact hdevice.trans (place_framed ..)

/-- R153: the store holds the DEVICE record with the requester's change. -/
theorem writeDevice_holds (s : State) (g : DeviceRecord → DeviceRecord) (ws : List Waiter) {w : Waiter} (h : w ∈ ws) :
    (s.writeDevice g ws).holds .device (.device (g s.sst.lastDevice)) w := place_holds _ _ _ _ _ h

/-- What a request changes that places its DEVICE write and waits for it. -/
theorem deviceWritten {s : State} {m : Message} {f : Hdr} {p : ProofBlock} {i : Nat} (g : DeviceRecord → DeviceRecord) (w : Waiter)
    (hc : m.channel = .control) (hl : m ≠ .linkStart) :
    let t := ((s.begun m f).admitted p i).writeDevice g [w]
    Framed [.bursts, .tags, .challenges, .credSlots, .writes, .device] s t ∧ Proved s t i p ∧ WritesOnly [.cred i, .device] s t ∧
      t.lif.tagsInUse = s.lif.tagsInUse ++ [f.tag] ∧ t.sst.lastDevice = g s.sst.lastDevice ∧
      t.holds .device (.device t.sst.lastDevice) w := by
  intro t
  have hlast : ((s.begun m f).admitted p i).sst.lastDevice = s.sst.lastDevice := by simp
  have ht : t.sst.lastDevice = g s.sst.lastDevice := by simp [t, State.writeDevice]
  have honly := writeDevice_only ((s.begun m f).admitted p i) g [w]
  refine ⟨((admitted_framed s m f p i).trans (writeDevice_framed ..)).mono (by decide),
    (admitted_proved s m f p i).through (by simp [t]) (by simp [t]) (by simp [t]) honly (by simp),
    (admitted_writes s m f p i).trans honly, ?_, ht, ?_⟩
  · have hlif : t.lif = ((s.begun m f).admitted p i).lif := by simp [t]
    rw [hlif, lif_admitted s f p i hc hl]
  · rw [ht, ← hlast]
    exact writeDevice_holds _ _ _ (List.mem_singleton_self _)

/-- What a CONTROL request that is answered in its step leaves, where its own rules make v of the state after its proof. -/
theorem answeredChange {s v : State} {m : Message} {f : Hdr} {p : ProofBlock} {i : Nat} {ps : List Piece} {us : List StoreUnit}
    (b : Body) (hc : m.channel = .control) (hl : m ≠ .linkStart) (htag : f.tag ∉ s.lif.tagsInUse)
    (hframe : Framed ps ((s.begun m f).admitted p i) v) (hlif : v.lif = (s.begun m f).lif)
    (hcru : v.cru = ((s.begun m f).admitted p i).cru) (hprov : v.btc.provisioning = s.btc.provisioning)
    (hw : WritesOnly us ((s.begun m f).admitted p i) v) (hu : StoreUnit.cred i ∉ us) :
    let t : State := { v with
      lif := { s.lif with burstTaken := s.lif.burstTaken + 1 }, sent := v.sent ++ [frame .control f.tag b] }
    v.answer (s.replyTo .control f.tag) b = t ∧ Framed ([.bursts, .challenges, .credSlots, .writes, .sent] ++ ps) s t ∧
      Proved s t i p ∧ WritesOnly (.cred i :: us) s t := by
  intro t
  have hanswer := answer_control b hc hl htag hlif
  have hsent : Framed [.bursts, .tags, .sent] v t := by
    rw [begun_control hc hl] at hlif
    refine ⟨rfl, fun q hq => ?_⟩
    cases q <;> simp_all [Piece.same, t]
  have hall := ((admitted_framed s m f p i).trans hframe).trans hsent
  have htags : Piece.same s t .tags := rfl
  refine ⟨hanswer, hall.drop (q := .tags) htags ?_, (admitted_proved s m f p i).through (t := t) (by rw [show t.cru = v.cru from rfl, hcru])
    (by rw [show t.cru = v.cru from rfl, hcru]) (by simp [t, hprov]) (us := us) hw hu, (admitted_writes s m f p i).trans hw⟩
  intro q hq
  simp only [List.cons_append, List.nil_append, List.mem_cons, List.mem_append, List.not_mem_nil, or_false] at hq ⊢
  tauto

/-! ### START_IMAGE_UNSEAL (R74) -/

/-- R72: the overlay is on in SEALED, QUARANTINE and ERASED. -/
theorem overlay_iff (b : BootState) : b.overlay = true ↔ b = .sealed ∨ b = .quarantine ∨ b = .erased := by
  cases b <;> simp [BootState.overlay]

theorem unseal_answers {s : State} (a : UnsealAction) (rto : ReplyTo) (h : s.btc.state.overlay = true) :
    s.unseal (some a) rto = ({ s with btc := { s.btc with unsealed := a == UnsealAction.unseal } } : State).answer rto
      (.status .ok [if a == UnsealAction.unseal then 1 else 0]) := if_pos h

/-! ### EVIDENCE_SET (R118) -/

/-- R118, 7.2: a level that may be asked for. -/
theorem askedLevel_iff (n : Nat) (l : Level) : askedLevel n = some l ↔ n ≠ 0 ∧ levelOf n = some l := by
  unfold askedLevel
  by_cases h : n = 0 <;> simp [h]

theorem askedLevel_isSome (n : Nat) : (askedLevel n).isSome = true ↔ 1 ≤ n ∧ n ≤ 4 := by
  match n with
  | 0 | 1 | 2 | 3 | 4 => decide
  | n + 5 =>
    have : askedLevel (n + 5) = none := rfl
    simp [this]

/-- R118: the values that make a source's entry. -/
theorem settingOf_eq_none {v : EvidenceValues} (h : ¬ (v.enabled ≠ none ∧ 1 ≤ v.level ∧ v.level ≤ 4 ∧ v.delay ≤ 3600 ∧
    v.immediate ≠ none ∧ v.guard ≠ none)) : settingOf v = none := by
  unfold settingOf
  split
  · next e l i g he hl hi hg =>
    refine if_neg fun hd => h ?_
    obtain ⟨h1, h4⟩ := (askedLevel_isSome v.level).mp (by rw [hl]; rfl)
    exact ⟨by simp [he], h1, h4, hd, by simp [hi], by simp [hg]⟩
  · rfl

theorem settingOf_isSome {v : EvidenceValues} (h : v.enabled ≠ none ∧ 1 ≤ v.level ∧ v.level ≤ 4 ∧ v.delay ≤ 3600 ∧
    v.immediate ≠ none ∧ v.guard ≠ none) : ∃ e, settingOf v = some e := by
  obtain ⟨he, h1, h4, hd, hi, hg⟩ := h
  obtain ⟨e, he⟩ := Option.ne_none_iff_exists'.mp he
  obtain ⟨i, hi⟩ := Option.ne_none_iff_exists'.mp hi
  obtain ⟨g, hg⟩ := Option.ne_none_iff_exists'.mp hg
  obtain ⟨l, hl⟩ := Option.isSome_iff_exists.mp ((askedLevel_isSome v.level).mpr ⟨h1, h4⟩)
  exact ⟨⟨e, l, v.delay, i, g⟩, by simp [settingOf, he, hl, hi, hg, hd]⟩

/-- R118: the table-wide values. -/
theorem tableOf_eq (v : EvidenceValues) {b : Bool} (hb : v.purgeAllowed = some b) : tableOf v =
    if 1 ≤ v.alarmMinimum ∧ v.alarmMinimum ≤ 60 ∧ 10 ≤ v.absenceThreshold ∧ v.absenceThreshold ≤ 3600 then
      some (b, v.alarmMinimum, v.absenceThreshold) else none := by
  simp [tableOf, hb, and_assoc]

theorem tableOf_isSome (v : EvidenceValues) : (tableOf v).isSome = true ↔ v.purgeAllowed ≠ none ∧ 1 ≤ v.alarmMinimum ∧
    v.alarmMinimum ≤ 60 ∧ 10 ≤ v.absenceThreshold ∧ v.absenceThreshold ≤ 3600 := by
  cases hb : v.purgeAllowed with
  | none => simp [tableOf, hb]
  | some b =>
    rw [tableOf_eq v hb]
    split_ifs with h <;> simp [h]

section evidence
variable {s : State} {target : Nat} {v : EvidenceValues} {rto : ReplyTo}

theorem evidenceSet_badField (h : ¬ ((target < 8 ∧ (settingOf v).isSome = true) ∨ (target = 255 ∧ (tableOf v).isSome = true))) :
    s.evidenceSet target v rto = s.refuse rto .badField := by
  unfold State.evidenceSet
  by_cases h8 : target < 8
  · rw [if_pos h8]
    have : settingOf v = none := by simpa [h8] using fun hs => h (.inl ⟨h8, hs⟩)
    rw [this]
  · rw [if_neg h8]
    by_cases h255 : target = 255
    · rw [if_pos h255]
      have : tableOf v = none := by simpa [h255] using fun hs => h (.inr ⟨h255, hs⟩)
      rw [this]
    · rw [if_neg h255]

theorem evidenceSet_source {e : Setting} (h8 : target < 8) (he : settingOf v = some e) : s.evidenceSet target v rto =
    if s.btc.state = .erased then s.refuse rto .wrongState
    else s.place (.evset target) (.evset e) [.evidenceSource rto target e] := by
  unfold State.evidenceSet
  rw [if_pos h8, he]

theorem evidenceSet_table {b : Bool} {a n : Nat} (ht : tableOf v = some (b, a, n)) : s.evidenceSet 255 v rto =
    if s.btc.state = .erased then s.refuse rto .wrongState
    else s.writeDevice (.withTable b a n) [.evidenceTable rto b a n] := by
  unfold State.evidenceSet
  rw [if_neg (by decide), if_pos rfl, ht]

end evidence

/-! ### The requests of PLATFORM (R76, R77, R128) -/

/-- A request on PLATFORM keeps no tag. -/
theorem begun_platform {s : State} {m : Message} {f : Hdr} (h : m.channel = .platform) : s.begun m f = s.frameTaken := by
  unfold State.begun State.joinTag
  rw [h]
  rfl

/-- R77: what a hello changes. -/
theorem hello_effect (s : State) (token : Secret) :
    (s.btc.token = none → s.hello token = s) ∧
    (s.btc.token = some token → s.btc.hello = .failed → s.hello token = s) ∧
    (s.btc.token = some token → s.btc.hello ≠ .failed →
      s.hello token = { s with btc := { s.btc with hello := .passed, window := none } }) ∧
    (∀ k, s.btc.token = some k → k ≠ token →
      s.hello token = ({ s with btc := { s.btc with hello := .failed, window := none } } : State).raise 4) := by
  unfold State.hello
  refine ⟨fun h => ?_, fun h hf => ?_, fun h hf => ?_, fun k h hk => ?_⟩
  · simp only [h]
  · simp only [h, hf, if_true]
  · simp only [h, hf, if_true, if_false]
  · simp only [h, hk, if_false]

/-- R76: the expiry of a window. -/
theorem helloExpired_effect (s : State) : (s.btc.window = none → s.helloExpired = s) ∧
    (s.btc.window ≠ none →
      s.helloExpired = ({ s with btc := { s.btc with hello := .failed, window := none } } : State).raise 4) := by
  unfold State.helloExpired
  refine ⟨fun h => by simp only [h], fun h => ?_⟩
  obtain ⟨x, hx⟩ := Option.ne_none_iff_exists'.mp h
  simp only [hx]

/-- R128: what a PRESENCE changes. -/
theorem presence_effect (s : State) (q : Proof) :
    (∀ k, s.btc.token = some k → q = .digest k s.rsu.beacon [] → s.presence q = { s with
      rsu := { s.rsu with absence := 0, beacon := { issue := s.fresh } }, fresh := s.fresh + 1 }) ∧
    ((∀ k, s.btc.token = some k → q ≠ .digest k s.rsu.beacon []) → s.presence q = s) := by
  unfold State.presence
  refine ⟨fun k h hq => ?_, fun h => ?_⟩
  · simp only [h, hq, if_true]
    rfl
  · cases ht : s.btc.token with
    | none => rfl
    | some k => simp only [h k ht, if_false]

theorem answer_platform {s t : State} {f : Hdr} {b : Body} (h : t.lif.session = s.lif.session) :
    t.answer (s.replyTo .platform f.tag) b = t.send .platform f.tag b := by
  unfold State.answer
  rw [if_pos (by rw [h]; rfl)]
  rfl

/-- A PLATFORM request that its rules answer after a change of the state. -/
theorem goes_platform {c : Instr} {s : State} {m : Message} {f : Hdr} {fits : Bool} {act : State → ReplyTo → State}
    {t : State} {b : Body} (hr : c.asRequest = some (m, f, fits)) (hp : c.passes s) (hm : m.channel = .platform)
    (e : ∀ s : State, exec c s = done (s.take m f fits act)) (hs : t.lif.session = s.lif.session)
    (h : act s.frameTaken (s.replyTo .platform f.tag) = t.answer (s.replyTo .platform f.tag) b) :
    Goes c s (t.send .platform f.tag b) := by
  have hgo := goes_request hr hp e
  rwa [hm, begun_platform hm, h, answer_platform hs] at hgo

/-! ### PROVISION: its admission and wave 1 (R61, R65, R66) -/

theorem fields_isSome_of_openDevice {s : State} {r : Nat} (h : (s.openDevice r).isSome = true) : (s.fields r).isSome = true := by
  unfold State.openDevice State.openEnvelope at h
  cases hf : s.fields r with
  | none => simp [hf] at h
  | some f => rfl

theorem enabled_lt {s : State} {r : Nat} : r ∈ s.enabledRanges ↔ r < 16 ∧ (s.fields r).isSome = true := by
  simp [State.enabledRanges]

/-- R66: the envelopes that wave 1 makes. -/
theorem mem_custodianEnvelopes (s : State) (a b : WrapValue) (r : Nat) (e : Envelope) : (r, e) ∈ s.custodianEnvelopes a b ↔
    r < 16 ∧ ∃ k, s.openDevice r = some k ∧ (e = { holder := .cred 0, wraps := [a], rak := k, whole := true } ∨
      e = { holder := .cred 1, wraps := [b], rak := k, whole := true }) := by
  unfold State.custodianEnvelopes
  rw [List.mem_flatMap]
  constructor
  · rintro ⟨x, hx, he⟩
    cases hk : s.openDevice x with
    | none => simp [hk] at he
    | some k =>
      simp only [hk, List.mem_cons, Prod.mk.injEq, List.not_mem_nil, or_false] at he
      obtain ⟨rfl, he⟩ | ⟨rfl, he⟩ := he
      · exact ⟨(enabled_lt.mp hx).1, k, hk, .inl he⟩
      · exact ⟨(enabled_lt.mp hx).1, k, hk, .inr he⟩
  · rintro ⟨hr, k, hk, he⟩
    refine ⟨r, enabled_lt.mpr ⟨hr, fields_isSome_of_openDevice (by rw [hk]; rfl)⟩, ?_⟩
    rw [hk]
    rcases he with rfl | rfl <;> simp

/-- R66: the ranges that gain envelopes are those whose device envelope opens. -/
theorem gained_custodianEnvelopes (s : State) (a b : WrapValue) :
    gained (s.custodianEnvelopes a b) = (List.range 16).filter (fun r => (s.openDevice r).isSome) := by
  unfold gained
  refine List.filter_congr fun r hr => ?_
  rw [Bool.eq_iff_iff, List.any_eq_true]
  constructor
  · rintro ⟨⟨x, e⟩, hq, hx⟩
    obtain ⟨-, k, hk, -⟩ := (mem_custodianEnvelopes s a b x e).mp hq
    have hx : x = r := by simpa using hx
    rw [← hx, hk]; rfl
  · intro h
    obtain ⟨k, hk⟩ := Option.isSome_iff_exists.mp h
    exact ⟨(r, _), (mem_custodianEnvelopes s a b r _).mpr ⟨by simpa using hr, k, hk, .inl rfl⟩, by simp⟩

section provision
variable {s : State} {admin recovery : Secret} {size : Nat} {present : Option Bool} {token : Secret} {rto : ReplyTo}

/-- R65: the checks of PROVISION in their order. -/
theorem provision_refusals :
    ((16384 < size ∨ present = none) → s.provision admin recovery size present token rto = s.refuse rto .badField) ∧
    (size ≤ 16384 → present ≠ none → s.btc.state ≠ .blank →
      s.provision admin recovery size present token rto = s.refuse rto .wrongState) ∧
    (size ≤ 16384 → present ≠ none → s.btc.state = .blank →
      (s.btc.provisioning ≠ none ∨ s.wpe.normal ≠ none ∨ s.wpe.injected ≠ none) →
      s.provision admin recovery size present token rto = s.refuse rto .busy) := by
  cases present with
  | none => exact ⟨fun _ => rfl, fun _ h => absurd rfl h, fun _ h => absurd rfl h⟩
  | some b =>
    refine ⟨fun h => if_pos (h.resolve_right (by simp)), fun hs _ hb => ?_, fun hs _ hb hbusy => ?_⟩
    · exact (if_neg (by simp [Config.imageMax]; omega)).trans (if_pos hb)
    · refine (if_neg (by simp [Config.imageMax]; omega)).trans ((if_neg (by simpa using hb)).trans (if_pos ?_))
      simpa [Option.isSome_iff_ne_none] using hbusy

theorem provision_starts {b : Bool} (hs : size ≤ 16384) (hb : s.btc.state = .blank) (hp : s.btc.provisioning = none)
    (hn : s.wpe.normal = none) (hi : s.wpe.injected = none) : s.provision admin recovery size (some b) token rto =
      s.startProvision admin recovery size (if b then some token else none) rto := by
  refine (if_neg (by simp [Config.imageMax]; omega)).trans ((if_neg (by simpa using hb)).trans (if_neg ?_))
  simp [hp, hn, hi]

end provision

/-- R66: what a PROVISION holds until its wave 2 has completed. -/
def State.provisioningOf (s : State) (admin recovery : Secret) (size : Nat) (token : Option Secret) (rto : ReplyTo) : Provisioning :=
  let es := s.custodianEnvelopes (.ofSecret admin) (.ofSecret recovery)
  { adminVerifier := { secret := admin }, adminWrap := .ofSecret admin, recoveryVerifier := { secret := recovery },
    recoveryWrap := .ofSecret recovery, imageSize := size, token := token, secondWave := false
    left := ([StoreUnit.cred 0, .cred 1] ++ (gained es).map StoreUnit.range ++ (List.range 8).map StoreUnit.evset).length
    envelopes := es, rto := rto }

/-- R61, R66: what wave 1 changes. -/
theorem startProvision_starts (s : State) (admin recovery : Secret) (size : Nat) (token : Option Secret) (rto : ReplyTo) :
    let t := s.startProvision admin recovery size token rto
    let x := s.provisioningOf admin recovery size token rto
    Framed [.boot, .response, .writes] s t ∧
      WritesOnly ([.cred 0, .cred 1] ++ (List.range 16).map StoreUnit.range ++ (List.range 8).map StoreUnit.evset) s t ∧
      t.lif = s.lif ∧ t.cru = s.cru ∧ t.btc = { s.btc with provisioning := some x } ∧
      t.rsu = { s.rsu with settings := Setting.defaults, purgeAllowed := false, alarmMinimum := 5, absenceThreshold := 600 } ∧
      t.holds (.cred 0) (.cred (custodianRecord x.adminVerifier x.adminWrap)) .provision ∧
      t.holds (.cred 1) (.cred (custodianRecord x.recoveryVerifier x.recoveryWrap)) .provision ∧
      (∀ i < 8, t.holds (.evset i) (.evset (t.setting i)) .provision) ∧
      (∀ r < 16, (s.openDevice r).isSome = true → t.holds (.range r) (t.recordOf (.range r)) .provision) := by
  intro t x
  let b : State := { s with
    btc := { s.btc with provisioning := some x }
    rsu := { s.rsu with settings := Setting.defaults, purgeAllowed := false, alarmMinimum := Config.defaultAlarm,
                        absenceThreshold := Config.defaultAbsence } }
  let us : List StoreUnit := [StoreUnit.cred 0, StoreUnit.cred 1] ++ (gained x.envelopes).map StoreUnit.range ++ (List.range 8).map StoreUnit.evset
  have ht : t = b.writeAll us .provision := rfl
  have hbase : Framed [.boot, .response] s b := ⟨rfl, fun q hq => by cases q <;> simp_all [Piece.same, b]⟩
  have hholds : ∀ u ∈ us, t.holds u (b.recordOf u) .provision := fun u hu => by
    rw [ht]; exact writeAll_holds us .provision b u hu
  have hgained : gained x.envelopes = (List.range 16).filter (fun r => (s.openDevice r).isSome) := gained_custodianEnvelopes ..
  refine ⟨?_, ?_, by rw [ht]; simp [b], by rw [ht]; simp [b], by rw [ht]; simp [b], by rw [ht]; simp [b, Config.defaultAlarm, Config.defaultAbsence],
    hholds (.cred 0) (by simp [us]), hholds (.cred 1) (by simp [us]), fun i hi => ?_, fun r hr ho => ?_⟩
  · rw [ht]
    exact hbase.trans (writeAll_framed ..)
  · rw [ht]
    refine WritesOnly.trans (us := []) (writesOnly_of_eq rfl rfl rfl _) ((writeAll_only us .provision b).mono fun u hu => ?_)
    simp only [us, hgained, List.mem_append, List.mem_map, List.mem_filter] at hu
    rcases hu with (hu | ⟨r, ⟨hr, -⟩, rfl⟩) | ⟨i, hi, rfl⟩
    · exact List.mem_append_left _ (List.mem_append_left _ hu)
    · simpa using hr
    · simpa using hi
  · have hset : t.setting i = b.setting i := by rw [ht]; unfold State.setting; simp
    rw [hset]
    exact hholds (.evset i) (List.mem_append_right _ (List.mem_map_of_mem (List.mem_range.mpr hi)))
  · have hrecord : t.recordOf (.range r) = b.recordOf (.range r) := by rw [ht, writeAll_recordOf]
    rw [hrecord]
    refine hholds (.range r) (List.mem_append_left _ (List.mem_append_right _ (List.mem_map_of_mem ?_)))
    rw [hgained]
    exact List.mem_filter.mpr ⟨List.mem_range.mpr hr, ho⟩

/-! ### PROVISION: its waves complete (R66) -/

/-- R31, R66: what the envelopes of a list, put in one after the other, leave of a range. -/
theorem fields_putEnvelopes (l : List (Nat × Envelope)) (s : State) (r : Nat) {g : RangeFields} (hg : s.fields r = some g) :
    ∃ h, (s.mapEach l (fun q => q.1) (fun q f => { f with envelopes := putEnvelope f.envelopes q.2 })).fields r = some h ∧
      { h with envelopes := g.envelopes } = g ∧
      ∀ x ∈ holderOrder, (∃ e, (r, e) ∈ l ∧ e.holder = x ∧ envelopeOf h.envelopes x = some e) ∨
        ((∀ e, (r, e) ∈ l → e.holder ≠ x) ∧ envelopeOf h.envelopes x = envelopeOf g.envelopes x) := by
  unfold State.mapEach
  induction l generalizing s g with
  | nil => exact ⟨g, hg, rfl, fun x _ => .inr ⟨by simp, rfl⟩⟩
  | cons q l ih =>
    have hnext := fields_mapFields s q.1 r (fun f => { f with envelopes := putEnvelope f.envelopes q.2 })
    rw [hg] at hnext
    by_cases hr : r = q.1
    · rw [if_pos hr, Option.map_some] at hnext
      obtain ⟨h, hh, hsame, hrest⟩ := ih _ hnext
      refine ⟨h, hh, congrArg (fun y : RangeFields => { y with envelopes := g.envelopes }) hsame, fun x hx => ?_⟩
      rcases hrest x hx with ⟨e, he, hx', hfind⟩ | ⟨hnone, hfind⟩
      · exact .inl ⟨e, List.mem_cons_of_mem _ he, hx', hfind⟩
      · rw [envelopeOf_put _ _ hx] at hfind
        by_cases hq : q.2.holder = x
        · exact .inl ⟨q.2, by simp [hr], hq, by rw [hfind, if_pos hq]⟩
        · refine .inr ⟨fun e he => ?_, by rw [hfind, if_neg hq]⟩
          rcases List.mem_cons.mp he with rfl | he
          · exact hq
          · exact hnone e he
    · rw [if_neg hr] at hnext
      obtain ⟨h, hh, hsame, hrest⟩ := ih _ hnext
      refine ⟨h, hh, hsame, fun x hx => (hrest x hx).imp (fun ⟨e, he, hx'⟩ => ⟨e, List.mem_cons_of_mem _ he, hx'⟩)
        fun ⟨hnone, hfind⟩ => ⟨fun e he => ?_, hfind⟩⟩
      rcases List.mem_cons.mp he with rfl | he
      · exact absurd rfl hr
      · exact hnone e he

/-- R66: the custodians' records in force. -/
def State.custodiansSet (s : State) (p : Provisioning) : State :=
  (s.mapCred 0 (fun x => { x with record := custodianRecord p.adminVerifier p.adminWrap })).mapCred 1
    (fun x => { x with record := custodianRecord p.recoveryVerifier p.recoveryWrap })

/-- R66: what takes effect with the completion of wave 2, before the OK. -/
def State.provisioned (s : State) (p : Provisioning) : State :=
  let t := (s.custodiansSet p).mapEach p.envelopes (fun q => q.1) (fun q f => { f with envelopes := putEnvelope f.envelopes q.2 })
  { t with btc := { t.btc with
      provisioning := none, imageSize := p.imageSize, token := p.token
      hello := if p.token.isSome then .notDue else t.btc.hello
      state := if s.lockdown then .quarantine else .opened } }

theorem finishProvision_eq (s : State) (p : Provisioning) :
    s.finishProvision p = (s.provisioned p).answer p.rto (.status .ok []) := rfl

theorem custodiansSet_cred (s : State) (p : Provisioning) (hs : s.cru.slots.length = 10) (j : Nat) :
    (s.custodiansSet p).cred j =
      if j = 0 then { s.cred j with record := custodianRecord p.adminVerifier p.adminWrap }
      else if j = 1 then { s.cred j with record := custodianRecord p.recoveryVerifier p.recoveryWrap } else s.cred j := by
  have hlen : (s.mapCred 0 (fun x => { x with record := custodianRecord p.adminVerifier p.adminWrap })).cru.slots.length = 10 := by
    simpa [State.mapCred] using hs
  unfold State.custodiansSet
  rw [cred_mapCred, cred_mapCred, hlen, hs]
  match j with
  | 0 | 1 => simp
  | j + 2 => simp

theorem custodiansSet_framed (s : State) (p : Provisioning) : Framed [.credSlots] s (s.custodiansSet p) :=
  ((mapCred_framed ..).trans (mapCred_framed ..)).mono (by decide)

/-- R66: what is in force once wave 2 has completed. -/
theorem provisioned_effect (s : State) (p : Provisioning) :
    let t := s.provisioned p
    Framed [.boot, .credSlots, .ranges] s t ∧ t.rtb.resealOnWake = s.rtb.resealOnWake ∧ t.lif = s.lif ∧ t.sent = s.sent ∧
      (∀ j, t.cred j = (s.custodiansSet p).cred j) ∧ (∀ r, s.fields r = none → t.entry r = s.entry r) ∧
      (∀ r g, s.fields r = some g → ∃ h, t.fields r = some h ∧ { h with envelopes := g.envelopes } = g ∧
        ((∀ q ∈ p.envelopes, q.1 ≠ r) → h = g) ∧
        (∀ e, (r, e) ∈ p.envelopes → (e.holder = .cred 0 ∨ e.holder = .cred 1) →
          ∃ x, (r, x) ∈ p.envelopes ∧ x.holder = e.holder ∧ envelopeOf h.envelopes e.holder = some x) ∧
        (∀ x ∈ holderOrder, (∀ e, (r, e) ∈ p.envelopes → e.holder ≠ x) →
          envelopeOf h.envelopes x = envelopeOf g.envelopes x)) ∧
      t.btc = { s.btc with
        provisioning := none, imageSize := p.imageSize, token := p.token
        hello := if p.token.isSome then .notDue else s.btc.hello
        state := if 2 ≤ s.rsu.level.number then .quarantine else .opened } := by
  intro t
  let v := (s.custodiansSet p).mapEach p.envelopes (fun q => q.1) (fun q f => { f with envelopes := putEnvelope f.envelopes q.2 })
  have hv : Framed [.ranges] (s.custodiansSet p) v := mapEach_framed ..
  obtain ⟨-, hlif, hcru, hbtc, -, hsent, hreseal⟩ := mapEach_same p.envelopes (fun q => q.1)
    (fun q f => { f with envelopes := putEnvelope f.envelopes q.2 }) (s.custodiansSet p)
  have hboot : Framed [.boot] v t := ⟨rfl, fun q hq => by cases q <;> simp_all [Piece.same, t, State.provisioned, v]⟩
  have hentry : ∀ r, (s.custodiansSet p).entry r = s.entry r := fun _ => rfl
  refine ⟨((custodiansSet_framed s p).trans (hv.trans hboot)).mono (by decide), hreseal, hlif, hsent, fun j => ?_, fun r hr => ?_,
    fun r g hg => ?_, ?_⟩
  · show v.cred j = _
    unfold State.cred; rw [hcru]
  · exact mapEach_entry_other _ (fun q : Nat × Envelope => q.1) _ _ (.inr hr)
  · obtain ⟨h, hh, hsame, hrest⟩ := fields_putEnvelopes p.envelopes (s.custodiansSet p) r hg
    refine ⟨h, hh, hsame, fun hnone => ?_, fun e he hx => ?_, fun x hx hnone => ?_⟩
    · have hkeep : v.entry r = s.entry r :=
        mapEach_entry_other _ (fun q : Nat × Envelope => q.1) _ _ (.inl (by simpa using fun e he => hnone (r, e) he rfl))
      have : v.fields r = s.fields r := congrArg Entry.fields? hkeep
      exact Option.some.inj (hh.symm.trans (this.trans hg))
    · rcases hrest e.holder (by rcases hx with hx | hx <;> rw [hx] <;> decide) with ⟨x, hx, hholder, hfind⟩ | ⟨hnone, -⟩
      · exact ⟨x, hx, hholder, hfind⟩
      · exact absurd rfl (hnone e he)
    · rcases hrest x hx with ⟨e, he, hholder, -⟩ | ⟨-, hfind⟩
      · exact absurd hholder (hnone e he)
      · exact hfind
  · have ht : t.btc = { v.btc with
        provisioning := none, imageSize := p.imageSize, token := p.token
        hello := if p.token.isSome then .notDue else v.btc.hello
        state := if s.lockdown then .quarantine else .opened } := rfl
    rw [ht, hbtc]
    simp [State.lockdown, State.custodiansSet, State.mapCred]

end Sys2Proof.Machine

namespace Sys2Proof
open Machine

/-- Settles O26. -/
theorem provisionIsAdmittedAndStarts : Obligations.ProvisionIsAdmittedAndStarts := by
  have takes : ∀ {f admin recovery size present token p} {s : State},
      (Instr.provision f admin recovery size present token p).passes s → (Instr.provision f admin recovery size present token p).labels s →
      Goes (.provision f admin recovery size present token p) s
        (((s.begun .provision f).consume p).provision admin recovery size present token (s.replyTo .control f.tag)) := by
    intro f admin recovery size present token p s hp hl
    have hgo := goes_request (act := fun t rto => t.labelled .provision
      (f.covered [admin.toNat, recovery.toNat, size, flagCode present, token.toNat]) p rto
      (fun u => u.provision admin recovery size present token rto)) rfl hp fun _ => rfl
    rwa [labelled_labels (labels_begun hl f)] at hgo
  constructor
  · intro f admin recovery size present token p s c hp hl
    obtain ⟨hbad, hwrong, hbusy⟩ := provision_refusals (s := (s.begun .provision f).consume p) (admin := admin) (recovery := recovery)
      (size := size) (present := present) (token := token) (rto := s.replyTo .control f.tag)
    have hgo := takes hp hl
    obtain ⟨-, -, -, htag, -, -⟩ := Passes.of_request rfl hp
    have refused : ∀ {st : Status}, ((s.begun .provision f).consume p).provision admin recovery size present token (s.replyTo .control f.tag) =
        ((s.begun .provision f).consume p).refuse (s.replyTo .control f.tag) st → RefusedAfterLabel c s p f.tag st := fun h =>
      refused_label (m := .provision) rfl (by decide) (htag rfl (by decide)) (hgo.trans (by rw [h]; rfl))
    exact ⟨fun h => refused (hbad h), fun h1 h2 h3 => refused (hwrong h1 h2 h3), fun h1 h2 h3 h4 => refused (hbusy h1 h2 h3 h4)⟩
  · intro f admin recovery size b token p s c hp hl hsize hblank hprov hnormal hinjected
    have hgo := takes hp hl
    rw [provision_starts (s := (s.begun .provision f).consume p) hsize hblank hprov hnormal hinjected] at hgo
    obtain ⟨hframe, honly, hlif, hcru, hbtc, hrsu, hadmin, hrecovery, hevset, hrange⟩ := startProvision_starts
      ((s.begun .provision f).consume p) admin recovery size (if b then some token else none) (s.replyTo .control f.tag)
    have hopen : ((s.begun .provision f).consume p).openDevice = s.openDevice := rfl
    have hbegun : Framed [.bursts, .tags, .challenges] s ((s.begun .provision f).consume p) :=
      (begun_framed s .provision f).trans (consume_framed _ p)
    refine ⟨_, _, hgo, (hbegun.trans hframe).mono (by decide), WritesOnly.trans (us := []) (writesOnly_of_eq rfl rfl rfl _) honly,
      by rw [hlif]; rfl, by rw [hcru]; rfl, hbtc, rfl, rfl, rfl, rfl, rfl, rfl, rfl, rfl, ?_, fun r e he => ?_, hrsu, hadmin, hrecovery,
      hevset, fun r hr k hk => ⟨hrange r hr (by rw [hopen, hk]; rfl), ?_, ?_⟩⟩
    · simp only [State.provisioningOf, gained_custodianEnvelopes, hopen, List.length_append, List.length_map, List.length_range,
        List.length_cons, List.length_nil]
      omega
    · exact (mem_custodianEnvelopes _ _ _ r e).mp he
    · exact (mem_custodianEnvelopes _ _ _ r _).mpr ⟨hr, k, hk, .inl rfl⟩
    · exact (mem_custodianEnvelopes _ _ _ r _).mpr ⟨hr, k, hk, .inr rfl⟩

/-- Settles O27. -/
theorem provisionTakesEffect : Obligations.ProvisionTakesEffect := by
  intro s t
  refine ⟨fun h => ?_, fun p h => ?_⟩
  · show s.provisionDone = s
    simp only [State.provisionDone, h]
  intro device
  have ht : t = if 1 < p.left then { s with btc := { s.btc with provisioning := some { p with left := p.left - 1 } } }
      else if p.secondWave then s.finishProvision p
      else { s with btc := { s.btc with provisioning := some { p with secondWave := true, left := 1 } } }.writeDevice
        (.provisioned p.imageSize p.token) [.provision] := by
    show s.provisionDone = _
    simp only [State.provisionDone, h]
  refine ⟨fun hl => ?_, fun hl hw => ?_, fun hl hw hs => ?_⟩
  · rw [ht, if_pos hl]
    exact ⟨⟨rfl, fun q hq => by cases q <;> simp_all [Piece.same]⟩, rfl⟩
  · rw [if_neg (by omega), hw, if_neg (by decide)] at ht
    have hbase : Framed [.boot] s { s with btc := { s.btc with provisioning := some { p with secondWave := true, left := 1 } } } :=
      ⟨rfl, fun q hq => by cases q <;> simp_all [Piece.same]⟩
    rw [ht]
    exact ⟨(hbase.trans (writeDevice_framed ..)).mono (by decide),
      WritesOnly.trans (us := []) (writesOnly_of_eq rfl rfl rfl _) (writeDevice_only _ _ _), by simp,
      by simp [State.writeDevice, device, DeviceRecord.provisioned, Config.defaultAlarm, Config.defaultAbsence],
      writeDevice_holds _ _ _ (List.mem_singleton_self _)⟩
  · rw [if_neg (by omega), if_pos hw, finishProvision_eq] at ht
    obtain ⟨hframe, hreseal, hlif, hsent, hcred, hentry, hfields, hbtc⟩ := provisioned_effect s p
    obtain ⟨hfreed, haframe, hasent⟩ := (s.provisioned p).answer_frees p.rto (.status .ok [])
    have hset := custodiansSet_cred s p hs.credSlots
    have hcred' : ∀ j, t.cred j = (s.custodiansSet p).cred j := fun j => by rw [← hcred, ht]; unfold State.cred; simp
    have hrtb : t.rtb = (s.provisioned p).rtb := by rw [ht]; simp
    have hentry' : ∀ r, t.entry r = (s.provisioned p).entry r := fun r => by unfold State.entry; rw [hrtb]
    have hfields' : ∀ r, t.fields r = (s.provisioned p).fields r := fun r => congrArg _ (hentry' r)
    refine ⟨by rw [ht]; exact (hframe.trans haframe).mono (by decide), by rw [hrtb, hreseal], by rw [hcred', hset]; rfl,
      by rw [hcred', hset]; rfl, by rw [hcred', hset]; rfl, by rw [hcred', hset]; rfl, fun j hj => ?_,
      fun r hr => by rw [hentry', hentry r hr], fun r g hg => by rw [hfields']; exact hfields r g hg, by rw [← hbtc, ht]; simp, ?_,
      fun hsession => ?_⟩
    · rw [hcred', hset, if_neg (by omega), if_neg (by omega)]
    · show t.lif.tagsInUse = _
      rw [ht, hfreed]
      simp [State.tagsAfter, hlif]
    · rw [ht, hasent, hsent, hlif, if_pos hsession]

/-- Settles O30. -/
theorem startImageUnsealSetsTheFlag : Obligations.StartImageUnsealSetsTheFlag := by
  intro f action i p s c hp hv on
  have refused : ∀ {st : Status}, ((s.begun .startImageUnseal f).admitted p i).unseal action (s.replyTo .control f.tag) =
      ((s.begun .startImageUnseal f).admitted p i).refuse (s.replyTo .control f.tag) st → RefusedAfterProof c s i p f.tag st [] := fun h =>
    refused_admitted rfl rfl hp hv (fun rto u _ _ => u.unseal action rto) (fun _ => rfl) h
  have hbtc : ((s.begun .startImageUnseal f).admitted p i).btc = s.btc := by simp
  have hon : s.btc.state.overlay = true ↔ on := overlay_iff _
  refine ⟨?_, fun ha hn => ?_, ?_⟩
  · rintro rfl
    exact refused rfl
  · obtain ⟨a, rfl⟩ := Option.ne_none_iff_exists'.mp ha
    refine refused ?_
    exact if_neg (by rwa [hbtc, hon])
  · rintro a rfl ho
    obtain ⟨-, -, -, htag, -, -⟩ := Passes.of_request rfl hp
    have hgo : Goes c s _ := exec_admitted rfl rfl hp hv (fun rto u _ _ => u.unseal (some a) rto) (fun _ => rfl)
    rw [unseal_answers a _ (by rwa [hbtc, hon])] at hgo
    obtain ⟨hanswer, hframe, hproved, honly⟩ := answeredChange (p := p) (i := i) (ps := [.boot]) (us := [])
      (v := { (s.begun .startImageUnseal f).admitted p i with
        btc := { ((s.begun .startImageUnseal f).admitted p i).btc with unsealed := a == UnsealAction.unseal } })
      (.status .ok [if a == UnsealAction.unseal then 1 else 0]) (m := .startImageUnseal) rfl (by decide) (htag rfl (by decide))
      ⟨rfl, fun q hq => by cases q <;> simp_all [Piece.same]⟩ (by simp) rfl (by simp) (writesOnly_of_eq rfl rfl rfl _) (by simp)
    rw [hanswer] at hgo
    refine ⟨_, hgo, hframe, hproved, honly, ?_, ?_⟩
    · simp
      cases a <;> rfl
    · cases a <;> simp
      

/-- Settles O31. -/
theorem settingsWaitForTheirWrite : Obligations.SettingsWaitForTheirWrite := by
  intro f p s
  have hstate : ∀ m i, ((s.begun m f).admitted p i).btc = s.btc := fun m i => by simp
  refine ⟨?_, ?_, fun hne => ⟨?_, ?_, ?_⟩⟩
  · intro action token i c hp hv
    have refused : ∀ {st : Status}, ((s.begun .bindPlatform f).admitted p i).bindPlatform action token (s.replyTo .control f.tag) =
        ((s.begun .bindPlatform f).admitted p i).refuse (s.replyTo .control f.tag) st → RefusedAfterProof c s i p f.tag st [] :=
      refused_admitted rfl rfl hp hv (fun rto u _ _ => u.bindPlatform action token rto) (fun _ => rfl)
    constructor
    · rintro rfl
      exact refused rfl
    · intro ha he
      obtain ⟨a, rfl⟩ := Option.ne_none_iff_exists'.mp ha
      exact refused (if_pos (by rw [hstate, he]))
  · intro target v i c entry table fields hp hv
    have refused : ∀ {st : Status}, ((s.begun .evidenceSet f).admitted p i).evidenceSet target v (s.replyTo .control f.tag) =
        ((s.begun .evidenceSet f).admitted p i).refuse (s.replyTo .control f.tag) st → RefusedAfterProof c s i p f.tag st [] :=
      refused_admitted rfl rfl hp hv (fun rto u _ _ => u.evidenceSet target v rto) (fun _ => rfl)
    constructor
    · intro hf
      refine refused (evidenceSet_badField fun h => hf ?_)
      refine h.imp (fun ⟨h8, he⟩ => ⟨h8, ?_⟩) (fun ⟨h255, ht⟩ => ⟨h255, (tableOf_isSome v).mp ht⟩)
      by_contra hn
      rw [settingOf_eq_none hn] at he
      exact absurd he (by decide)
    · rintro (⟨h8, he⟩ | ⟨rfl, ht⟩) herased
      · obtain ⟨e, he⟩ := settingOf_isSome he
        exact refused ((evidenceSet_source h8 he).trans (if_pos (by rw [hstate, herased])))
      · obtain ⟨⟨b, a, n⟩, hx⟩ := Option.isSome_iff_exists.mp ((tableOf_isSome v).mpr ht)
        exact refused ((evidenceSet_table hx).trans (if_pos (by rw [hstate, herased])))
  · intro a token i c new hp hv
    have hgo : Goes c s _ := exec_admitted rfl rfl hp hv (fun rto u _ _ => u.bindPlatform (some a) token rto) (fun _ => rfl)
    obtain ⟨hframe, hproved, honly, htags, hlast, hholds⟩ := deviceWritten (s := s) (m := .bindPlatform) (f := f) (p := p) (i := i)
      (DeviceRecord.withToken new) (.bindPlatform (s.replyTo .control f.tag) new) rfl (by decide)
    exact ⟨_, hgo.trans (by rw [show ((s.begun .bindPlatform f).admitted p i).bindPlatform (some a) token _ = _ from
      if_neg (by rwa [hstate])]), hframe, hproved, honly, htags, hlast, hholds⟩
  · intro target v e i c hp hv h8 hen hlev hzero hdelay hmax him hgu
    have hset : settingOf v = some e := by
      have hl : askedLevel v.level = some e.level := (askedLevel_iff _ _).mpr ⟨hzero, hlev⟩
      obtain ⟨e1, e2, e3, e4, e5⟩ := e
      simp_all [settingOf]
    have hgo : Goes c s _ := exec_admitted rfl rfl hp hv (fun rto u _ _ => u.evidenceSet target v rto) (fun _ => rfl)
    rw [evidenceSet_source h8 hset, if_neg (by rwa [hstate])] at hgo
    have hplace := place_only ((s.begun .evidenceSet f).admitted p i) (.evset target) (.evset e)
      [.evidenceSource (s.replyTo .control f.tag) target e]
    refine ⟨_, hgo, ((admitted_framed s _ f p i).trans (place_framed ..)).mono (by decide),
      (admitted_proved s _ f p i).through (by simp) (by simp) (by simp) hplace (by simp), (admitted_writes s _ f p i).trans hplace, ?_,
      place_holds _ _ _ _ _ (List.mem_singleton_self _)⟩
    rw [(State.place_frame ..).1, lif_admitted s f p i rfl (by decide)]
  · intro v b i c hp hv hb h1 h60 h10 h3600
    have hgo : Goes c s _ := exec_admitted rfl rfl hp hv (fun rto u _ _ => u.evidenceSet 255 v rto) (fun _ => rfl)
    have htable : tableOf v = some (b, v.alarmMinimum, v.absenceThreshold) := by
      rw [tableOf_eq v hb, if_pos ⟨h1, h60, h10, h3600⟩]
    rw [evidenceSet_table htable, if_neg (by rwa [hstate])] at hgo
    obtain ⟨hframe, hproved, honly, htags, hlast, hholds⟩ := deviceWritten (s := s) (m := .evidenceSet) (f := f) (p := p) (i := i)
      (DeviceRecord.withTable b v.alarmMinimum v.absenceThreshold)
      (.evidenceTable (s.replyTo .control f.tag) b v.alarmMinimum v.absenceThreshold) rfl (by decide)
    exact ⟨_, hgo, hframe, hproved, honly, htags, hlast, hholds⟩

/-- Settles O32. -/
theorem platformProvesItsToken : Obligations.PlatformProvesItsToken := by
  intro f token q s c ok failed
  refine ⟨fun hp => ?_, fun h => ?_, fun h => ?_, fun hp => ⟨?_, ?_⟩⟩
  · have goes : ∀ {t : State}, s.frameTaken.hello token = t → t.lif.session = s.lif.session → Goes c s (t.send .platform f.tag ok) :=
      fun h hs => goes_platform (act := fun t rto => (t.hello token).refuse rto .ok) rfl hp rfl (fun _ => rfl) hs (by rw [h]; rfl)
    obtain ⟨hnone, hfailed, hpassed, hwrong⟩ := hello_effect s.frameTaken token
    exact ⟨fun h => goes (hnone h) rfl, fun h hf => goes (hfailed h hf) rfl, fun h hf => goes (hpassed h hf) rfl,
      fun k h hk => goes (hwrong k h hk) (by simp; rfl)⟩
  · exact congrArg done ((helloExpired_effect s).1 h)
  · exact congrArg done ((helloExpired_effect s).2 h)
  all_goals
    have goes : ∀ {t : State}, s.frameTaken.presence q = t → t.lif.session = s.lif.session →
        Goes (.presence f q) s (t.send .platform f.tag (.beacon t.rsu.beacon)) := fun h hs =>
      goes_platform (act := fun t rto => (t.presence q).answer rto (.beacon (t.presence q).rsu.beacon)) rfl hp rfl (fun _ => rfl) hs
        (by rw [h])
  · exact fun k h hq => goes ((presence_effect s.frameTaken q).1 k h hq) rfl
  · exact fun h => goes ((presence_effect s.frameTaken q).2 h) rfl

end Sys2Proof

/-! The Range Table's requests (O33, O34, O35): RANGE_LIST (R7, R8), RANGE_STAGE and RANGE_DISCARD (R10, R11), and the
validation of a list with the effect of its edits (R13, R14). -/

namespace Sys2Proof.Machine

/-! ### RANGE_LIST (R7, R8) -/

theorem plainEntry_isSome (r : Nat) (e : Entry) : (∃ x, plainEntry r e = some x) ↔
    e = .damaged ∨ ∃ g, e = .enabled g ∧ g.concealed = false := by
  cases e with
  | disabled => simp [plainEntry]
  | damaged => simp [plainEntry]
  | enabled g => cases hc : g.concealed <;> simp [plainEntry, hc]

theorem plainEntry_number {r : Nat} {e : Entry} {x : ListedRange} (h : plainEntry r e = some x) : x.number = r := by
  cases e with
  | disabled => cases h
  | damaged => cases h; rfl
  | enabled g =>
    by_cases hc : g.concealed = true
    · cases (if_pos hc).symm.trans h
    · cases (if_neg hc).symm.trans h
      rfl

/-- R7: the ranges that the plain view shows. -/
theorem mem_plainView (s : State) {r : Nat} (hr : r < 16) : (∃ x ∈ s.plainView, x.number = r) ↔
    s.entry r = .damaged ∨ ∃ g, s.entry r = .enabled g ∧ g.concealed = false := by
  rw [← plainEntry_isSome r]
  unfold State.plainView
  simp only [List.mem_filterMap, List.mem_range]
  constructor
  · rintro ⟨x, ⟨q, -, hx⟩, hn⟩
    have : q = r := (plainEntry_number hx).symm.trans hn
    exact ⟨x, this ▸ hx⟩
  · rintro ⟨x, hx⟩
    exact ⟨x, ⟨r, hr, hx⟩, plainEntry_number hx⟩

theorem plainView_eq {s : State} {g : Nat → List ListedRange} (h : ∀ r, g r = (plainEntry r (s.entry r)).toList) :
    (List.range 16).flatMap g = s.plainView := by
  rw [State.plainView, List.filterMap_eq_flatMap_toList]
  exact congrArg (fun k => (List.range 16).flatMap k) (funext h)

theorem fullView_eq {s : State} {g : Nat → ListedRange} (h : ∀ r, g r = fullEntry r (s.entry r)) :
    (List.range 16).map g = s.fullView := congrArg (fun k => (List.range 16).map k) (funext h)

theorem fields_eq_some {s : State} {r : Nat} {g : RangeFields} : s.fields r = some g ↔ s.entry r = .enabled g := by
  unfold State.fields Entry.fields?
  cases s.entry r <;> simp

section pages
variable {s : State} {start : Nat} {rto : ReplyTo}

theorem listPlain_past (h : s.plainView.length ≤ start) :
    s.listPlain start rto = s.answer rto (.rangeList 0 s.plainView.length none []) := by
  unfold State.listPlain
  rw [pageOf_past h]
  exact rfl

theorem listPlain_tooLong (h : start < s.plainView.length) (hn : (s.lif.limitControl - 4) / 16 = 0) :
    s.listPlain start rto = s.refuse rto .tooLong := by
  unfold State.listPlain
  rw [pageOf_tooLong h (limit := s.limit .control) hn]

theorem listPlain_page (h : start < s.plainView.length) (hn : (s.lif.limitControl - 4) / 16 ≠ 0) :
    s.listPlain start rto = s.answer rto (.rangeList (min ((s.lif.limitControl - 4) / 16) (s.plainView.length - start))
      s.plainView.length none ((s.plainView.drop start).take ((s.lif.limitControl - 4) / 16))) := by
  unfold State.listPlain
  rw [pageOf_entries h (limit := s.limit .control) hn]
  simp only [List.length_take, List.length_drop]
  exact rfl

theorem fullView_length (s : State) : s.fullView.length = 16 := by simp [State.fullView]

theorem listFull_past (h : 16 ≤ start) : s.listFull start rto = s.answer rto (.rangeList 0 16 (some s.fullHeader) []) := by
  unfold State.listFull
  rw [pageOf_past (by rwa [fullView_length])]
  exact rfl

theorem listFull_tooLong (h : start < 16) (hn : (s.lif.limitControl - 8) / 28 = 0) :
    s.listFull start rto = s.refuse rto .tooLong := by
  unfold State.listFull
  rw [pageOf_tooLong (by rwa [fullView_length]) (limit := s.limit .control) hn]

theorem listFull_page (h : start < 16) (hn : (s.lif.limitControl - 8) / 28 ≠ 0) :
    s.listFull start rto = s.answer rto (.rangeList (min ((s.lif.limitControl - 8) / 28) (16 - start)) 16 (some s.fullHeader)
      ((s.fullView.drop start).take ((s.lif.limitControl - 8) / 28))) := by
  unfold State.listFull
  rw [pageOf_entries (by rwa [fullView_length]) (limit := s.limit .control) hn]
  simp only [List.length_take, List.length_drop, fullView_length]
  exact rfl

end pages

/-! ### Retirement (R30) -/

theorem Framed.refl (ps : List Piece) (s : State) : Framed ps s s := ⟨rfl, fun q _ => by cases q <;> simp [Piece.same]⟩


/-- R30: a slot that is retired; one without users has its copy dropped and its erasure placed. -/
def KeySlot.retired (x : KeySlot) : KeySlot :=
  if x.users = 0 ∧ x.erasing = false then { x with state := .retiring, copy := none, erasing := true }
  else { x with state := .retiring }

theorem KeySlot.retired_state (x : KeySlot) : x.retired.state = .retiring := by
  unfold KeySlot.retired
  split <;> rfl

theorem retire_slot (s : State) (k x : Nat) : (s.retire k).slot x =
    if x = k ∧ (s.slot k).state = .live then (s.slot x).retired else s.slot x := by
  unfold State.retire
  by_cases hlive : (s.slot k).state = .live
  · have hk : k < s.kst.slots.length := slot_lt s k (by rw [hlive]; decide)
    have hmid : ∀ y, (s.mapSlot k (fun x => { x with state := .retiring })).slot y =
        if y = k then { s.slot y with state := .retiring } else s.slot y := fun y => by
      rw [slot_mapSlot]
      exact if_congr ⟨fun h => h.1, fun h => ⟨h, h ▸ hk⟩⟩ rfl rfl
    rw [if_pos hlive]
    unfold State.settleSlot KeySlot.retired
    rw [hmid k, if_pos rfl]
    by_cases hx : x = k
    · subst hx
      by_cases hfree : (s.slot x).users = 0 ∧ (s.slot x).erasing = false
      · rw [if_pos ⟨rfl, hfree⟩, if_pos ⟨rfl, hlive⟩, if_pos hfree]
        simp only [State.slot, State.write_frame]
        have hlen : x < (s.mapSlot x (fun x => { x with state := .retiring })).kst.slots.length := by simpa [State.mapSlot] using hk
        exact ((slot_mapSlot _ x x _).trans (if_pos ⟨rfl, hlen⟩)).trans (by rw [hmid x, if_pos rfl]; exact rfl)
      · rw [if_neg (fun h => hfree h.2), if_pos ⟨rfl, hlive⟩, if_neg hfree, hmid x, if_pos rfl]
    · have hno : ¬ (x = k ∧ (s.slot k).state = .live) := fun h => hx h.1
      rw [if_neg hno]
      split
      · simp only [State.slot, State.write_frame]
        exact ((slot_mapSlot _ k x _).trans (if_neg fun h => hx h.1)).trans ((hmid x).trans (if_neg hx))
      · exact (hmid x).trans (if_neg hx)
  · rw [if_neg hlive, if_neg fun h => hlive h.2]

theorem retireAll_slot (ks : List Nat) (s : State) (x : Nat) : (s.retireAll ks).slot x =
    if x ∈ ks ∧ (s.slot x).state = .live then (s.slot x).retired else s.slot x := by
  unfold State.retireAll
  induction ks generalizing s with
  | nil => simp
  | cons k ks ih =>
    rw [List.foldl_cons, ih, retire_slot]
    by_cases hx : x = k
    · subst hx
      by_cases hlive : (s.slot x).state = .live
      · simp [hlive, KeySlot.retired_state]
      · simp [hlive]
    · simp [hx]

theorem retire_only (s : State) (k : Nat) : WritesOnly [.key k] s (s.retire k) := by
  unfold State.retire State.settleSlot
  split_ifs
  · exact WritesOnly.trans (us := []) (writesOnly_of_eq rfl rfl rfl _) (write_only _ _ _)
  · exact writesOnly_of_eq rfl rfl rfl _
  · exact WritesOnly.refl _ _

theorem retireAll_only (ks : List Nat) (s : State) : WritesOnly (ks.map StoreUnit.key) s (s.retireAll ks) := by
  unfold State.retireAll
  induction ks generalizing s with
  | nil => exact WritesOnly.refl _ _
  | cons k ks ih => exact (retire_only s k).trans (ih _)

theorem retire_framed (s : State) (k : Nat) : Framed [.keySlots, .writes] s (s.retire k) := by
  unfold State.retire State.settleSlot
  have hmap : ∀ (u : State) (g : KeySlot → KeySlot), Framed [.keySlots] u (u.mapSlot k g) := fun u g =>
    ⟨rfl, fun q hq => by cases q <;> simp_all [Piece.same, State.mapSlot]⟩
  split_ifs
  · exact ((hmap _ _).trans ((hmap _ _).trans (write_framed ..))).mono (by decide)
  · exact (hmap _ _).mono (by decide)
  · exact Framed.refl _ s

theorem retireAll_framed (ks : List Nat) (s : State) : Framed [.keySlots, .writes] s (s.retireAll ks) := by
  unfold State.retireAll
  induction ks generalizing s with
  | nil => exact Framed.refl _ s
  | cons k ks ih => exact ((retire_framed s k).trans (ih _)).mono (by decide)

/-! ### The fields of a staged edit (R10) -/

/-- R10: the slots of a list are 0 to 9. -/
theorem listFits_iff (l : CredSet) : listFits l = true ↔ ∀ i, 9 < i → listed l i = false := by
  unfold listFits listed
  rw [decide_eq_true_iff]
  constructor
  · intro h i hi
    refine Nat.testBit_lt_two_pow (h.trans_le ?_)
    exact Nat.pow_le_pow_right (n := 2) (i := 10) (by decide) hi
  · intro h
    refine Nat.lt_pow_two_of_testBit (n := 10) _ fun i hi => ?_
    exact h i hi

/-- R10: an edit whose fields are right goes on to its checks. -/
def State.stageOr (s : State) (o : Option Edit) (rto : ReplyTo) : State :=
  match o with
  | some x => s.stage x rto
  | none => s.refuse rto .badField

/-- R10: the list with an edit appended. -/
def State.withEdit (s : State) (e : Edit) : State :=
  { s with rtb := { s.rtb with staged := { s.rtb.staged with edits := s.rtb.staged.edits ++ [e] } } }

section stage
variable {s : State} {e : Edit} {rto : ReplyTo}

theorem stage_busy (h : s.rtb.commit ≠ .idle ∨ s.rtb.staged.mark = .deferred) : s.stage e rto = s.refuse rto .busy := by
  unfold State.stage
  by_cases hc : s.rtb.commit = .idle
  · rw [if_neg (by simp [(State.commitIdle_iff s).mpr hc]), if_pos (h.resolve_left (by simpa using hc))]
  · rw [if_pos (by simpa using fun hi => hc ((State.commitIdle_iff s).mp hi))]

variable (hc : s.rtb.commit = .idle) (hm : s.rtb.staged.mark ≠ .deferred)
include hc hm

theorem stage_wrongState (hb : s.btc.state = .erased) : s.stage e rto = s.refuse rto .wrongState := by
  unfold State.stage
  rw [if_neg (by simp [(State.commitIdle_iff s).mpr hc]), if_neg hm, if_pos hb]

theorem stage_listFull (hb : s.btc.state ≠ .erased) (hn : 8 ≤ s.rtb.staged.edits.length) :
    s.stage e rto = s.refuse rto .listFull := by
  unfold State.stage
  rw [if_neg (by simp [(State.commitIdle_iff s).mpr hc]), if_neg hm, if_neg hb]
  exact if_pos hn

theorem stage_appends (hb : s.btc.state ≠ .erased) (hn : s.rtb.staged.edits.length < 8) : s.stage e rto =
    (s.withEdit e).write .stage [.reply rto (.status .ok [s.rtb.staged.edits.length + 1])] := by
  unfold State.stage State.withEdit
  rw [if_neg (by simp [(State.commitIdle_iff s).mpr hc]), if_neg hm, if_neg hb]
  exact (if_neg (by simpa [Config.stagedMax] using hn)).trans (by simp)

end stage

/-- R11: what an emptied list leaves before its record is written. -/
def State.discarded (s : State) : State :=
  let t := if s.rtb.staged.mark = .deferred then s.retireAll (s.rtb.staged.prepared.slots.map (fun q => q.2)) else s
  { t with rtb := { t.rtb with staged := .blank } }

theorem discard_busy {s : State} {rto : ReplyTo} (h : s.rtb.commit ≠ .idle) : s.discard rto = s.refuse rto .busy :=
  if_pos (by simpa using fun hi => h ((State.commitIdle_iff s).mp hi))

theorem discard_eq {s : State} {rto : ReplyTo} (h : s.rtb.commit = .idle) :
    s.discard rto = s.discarded.write .stage [.reply rto (.status .ok [])] :=
  if_neg (by simp [(State.commitIdle_iff s).mpr h])

/-- R11: what a discard changes before its record is written. -/
theorem discarded_effect (s : State) :
    let prepared := s.rtb.staged.prepared.slots.map (fun q => q.2)
    Framed [.keySlots, .writes, .commit] s s.discarded ∧ WritesOnly (prepared.map StoreUnit.key) s s.discarded ∧
      s.discarded.lif = s.lif ∧ s.discarded.cru = s.cru ∧ s.discarded.btc = s.btc ∧
      s.discarded.rtb = { s.rtb with staged := .blank } ∧ (s.rtb.staged.mark ≠ .deferred → s.discarded.kst = s.kst) ∧
      (∀ k, s.rtb.staged.mark = .deferred → k ∈ prepared → (s.slot k).state = .live → (s.discarded.slot k).state = .retiring) ∧
      (∀ k, k ∉ prepared → s.discarded.slot k = s.slot k) := by
  intro prepared
  have hstaged : ∀ t : State, Framed [.commit] t { t with rtb := { t.rtb with staged := .blank } } := fun t =>
    ⟨rfl, fun q hq => by cases q <;> simp_all [Piece.same]⟩
  by_cases hm : s.rtb.staged.mark = .deferred
  · have ht : s.discarded = { s.retireAll prepared with rtb := { (s.retireAll prepared).rtb with staged := .blank } } := by
      unfold State.discarded; rw [if_pos hm]
    rw [ht]
    refine ⟨((retireAll_framed prepared s).trans (hstaged _)).mono (by decide), retireAll_only prepared s, by simp, by simp, by simp, by simp,
      fun h => absurd hm h, fun k _ hk hlive => ?_, fun k hk => ?_⟩
    · have : ({ s.retireAll prepared with rtb := { (s.retireAll prepared).rtb with staged := .blank } } : State).slot k =
          (s.retireAll prepared).slot k := rfl
      rw [this, retireAll_slot, if_pos ⟨hk, hlive⟩, KeySlot.retired_state]
    · exact (retireAll_slot prepared s k).trans (if_neg fun h => hk h.1)
  · have ht : s.discarded = { s with rtb := { s.rtb with staged := .blank } } := by
      unfold State.discarded; rw [if_neg hm]
    rw [ht]
    exact ⟨(hstaged s).mono (by decide), writesOnly_of_eq rfl rfl rfl _, rfl, rfl, rfl, rfl, fun _ => rfl, fun k h => absurd h hm,
      fun k _ => rfl⟩

/-- What a request changes that places a write with its answer, after changes v of its own. -/
theorem writtenReply {s v : State} {m : Message} {f : Hdr} {p : ProofBlock} {i : Nat} {ps : List Piece} {us : List StoreUnit}
    (u : StoreUnit) (b : Body) (hc : m.channel = .control) (hl : m ≠ .linkStart) (hframe : Framed ps ((s.begun m f).admitted p i) v)
    (hlif : v.lif = ((s.begun m f).admitted p i).lif) (hcru : v.cru = ((s.begun m f).admitted p i).cru)
    (hprov : v.btc.provisioning = s.btc.provisioning) (hw : WritesOnly us ((s.begun m f).admitted p i) v)
    (hu : StoreUnit.cred i ∉ us ++ [u]) :
    let t := v.write u [s.reply f.tag b]
    Framed ([.bursts, .tags, .challenges, .credSlots, .writes] ++ ps) s t ∧ Proved s t i p ∧
      WritesOnly ([.cred i] ++ (us ++ [u])) s t ∧ t.lif.tagsInUse = s.lif.tagsInUse ++ [f.tag] ∧
      t.holds u (v.recordOf u) (s.reply f.tag b) ∧ t.rtb = v.rtb ∧ t.kst = v.kst := by
  intro t
  have honly : WritesOnly (us ++ [u]) ((s.begun m f).admitted p i) t := hw.trans (write_only v u _)
  refine ⟨(((admitted_framed s m f p i).trans hframe).trans (write_framed ..)).mono ?_,
    (admitted_proved s m f p i).through (by simp [t, hcru]) (by simp [t, hcru]) (by simp [t, hprov]) honly hu,
    (admitted_writes s m f p i).trans honly, ?_, place_holds _ _ _ _ _ (List.mem_singleton_self _), by simp [t], by simp [t]⟩
  · intro q hq
    simp only [List.cons_append, List.nil_append, List.mem_cons, List.mem_append, List.not_mem_nil, or_false] at hq ⊢
    tauto
  · have : t.lif = ((s.begun m f).admitted p i).lif := by simp [t, hlif]
    rw [this, lif_admitted s f p i hc hl]

end Sys2Proof.Machine

namespace Sys2Proof
open Machine

/-- Settles O33. -/
theorem rangeListShowsItsView : Obligations.RangeListShowsItsView := by
  intro f start s n m bare open_ v full header
  have hv : v = s.plainView := plainView_eq fun r => by
    cases he : s.entry r with
    | disabled => simp [plainEntry]
    | damaged => simp [plainEntry, bare]
    | enabled g => cases hc : g.concealed <;> simp [plainEntry, bare, open_, hc]
  have hfull : full = s.fullView := fullView_eq fun r => by
    cases he : s.entry r <;> simp [fullEntry, bare, open_]
  refine ⟨fun r hr => ?_, fun h => ⟨?_, ?_⟩, fun hp => ?_, ?_⟩
  · rw [hv, mem_plainView s hr]
    simp only [fields_eq_some]
  · exact (Nat.div_pos (by omega) (by omega)).ne'
  · exact (Nat.div_pos (by omega) (by omega)).ne'
  · have goes : ∀ {b : Body}, (s.begun .rangeList f).listPlain start (s.replyTo .control f.tag) =
        (s.begun .rangeList f).answer (s.replyTo .control f.tag) b → Goes (.rangeList f start none) s (s.answered .rangeList f b) := fun h =>
      goes_answer (act := fun t rto => t.listPlain start rto) rfl hp (by decide) (fun _ => rfl) h
    have hview : (s.begun .rangeList f).plainView = v := hv.symm
    refine ⟨fun h => goes ?_, fun h hn => goes ?_, fun h hn => goes ?_⟩
    · rw [listPlain_past (by rwa [hview]), hview]
    · exact listPlain_tooLong (by rwa [hview]) hn
    · exact (listPlain_page (s := s.begun .rangeList f) (by rwa [hview]) hn).trans (by rw [hview]; exact rfl)
  · intro i p hp hv c
    have answers : ∀ {b : Body}, ((s.begun .rangeList f).admitted p i).listFull start (s.replyTo .control f.tag) =
        ((s.begun .rangeList f).admitted p i).answer (s.replyTo .control f.tag) b → AnsweredAfterProof c s i p f.tag b :=
      answers_admitted rfl rfl hp hv (fun rto u _ _ => u.listFull start rto) (fun _ => rfl)
    have hrtb : ((s.begun .rangeList f).admitted p i).rtb = s.rtb := by simp
    have hview : ((s.begun .rangeList f).admitted p i).fullView = full := by
      rw [hfull]; unfold State.fullView State.entry; rw [hrtb]
    have hheader : some ((s.begun .rangeList f).admitted p i).fullHeader = header := by
      unfold State.fullHeader; rw [hrtb]
    have hlimit : ((s.begun .rangeList f).admitted p i).lif.limitControl = s.lif.limitControl := by
      rw [(admitted_frame _ _ _).1]; rfl
    refine ⟨fun h => answers ?_, fun h hn => answers ?_, fun h hn => answers ?_⟩
    · exact (listFull_past h).trans (by rw [hheader])
    · exact listFull_tooLong h (by rwa [hlimit])
    · exact (listFull_page h (by rwa [hlimit])).trans (by rw [hheader, hview, hlimit])

/-- Settles O34. -/
theorem stagedListIsEdited : Obligations.StagedListIsEdited := by
  refine ⟨?_, ?_, ?_⟩
  · intro e known slots
    have hfits : ∀ l, listFits l = true ↔ slots l := listFits_iff
    have hmax : Config.blockMax = 2 ^ 40 := rfl
    have hrange : known → ¬ (e.range > 15) := fun h => by simpa using h
    refine ⟨fun h => ?_, fun hk h => ?_, fun hk h => ⟨fun m a b c d hm ha hb hc hd => ?_, fun hn => ?_⟩,
      fun hk h => ⟨fun h1 h2 => ?_, fun hn => ?_⟩, fun hk h => ?_, fun hk h => ?_⟩
    all_goals unfold stagedEdit
    · by_cases hk : e.range > 15
      · exact if_pos hk
      · rw [if_neg hk, h.resolve_left (by simpa [known] using hk)]
    all_goals rw [if_neg (hrange hk), h]
    · by_cases hf : e.first < 2 ^ 40 ∧ e.count ≤ 2 ^ 40
      · rw [if_pos hf]
        refine if_neg ?_
        rw [Bool.or_eq_true, decide_eq_true_eq, decide_eq_true_eq, hmax]
        omega
      · rw [if_neg hf]
        refine if_pos ?_
        rw [Bool.or_eq_true, decide_eq_true_eq, decide_eq_true_eq, hmax]
        omega
    · simp only [hm, ha, hb, hc, hd]
    · dsimp only
      split
      · simp_all
      · rfl
    · simp [(hfits _).mpr h1, (hfits _).mpr h2]
    · refine if_neg fun hboth => hn ?_
      obtain ⟨h1, h2⟩ := (Bool.and_eq_true _ _).mp hboth
      exact ⟨(hfits _).mp h1, (hfits _).mp h2⟩
  · intro f e i p s c hp hv
    have hsame : ((s.begun .rangeStage f).admitted p i).rtb = s.rtb ∧ ((s.begun .rangeStage f).admitted p i).btc = s.btc := by simp
    obtain ⟨hrtb, hbtc⟩ := hsame
    have refused : ∀ {st : Status}, ((s.begun .rangeStage f).admitted p i).stageOr (stagedEdit e) (s.replyTo .control f.tag) =
        ((s.begun .rangeStage f).admitted p i).refuse (s.replyTo .control f.tag) st → RefusedAfterProof c s i p f.tag st [] :=
      refused_admitted rfl rfl hp hv (fun rto u _ _ => u.stageOr (stagedEdit e) rto) (fun _ => rfl)
    refine ⟨fun h => refused (by rw [h]; exact rfl), fun x hx => ?_⟩
    rw [hx] at refused
    refine ⟨fun h => refused (stage_busy (by rwa [hrtb])), fun hc hm hb => refused (stage_wrongState (by rwa [hrtb]) (by rwa [hrtb]) (by rwa [hbtc])),
      fun hc hm hb hn => refused (stage_listFull (by rwa [hrtb]) (by rwa [hrtb]) (by rwa [hbtc]) (by rwa [hrtb])), fun hc hm hb hn => ?_⟩
    have hgo : Goes c s _ := exec_admitted rfl rfl hp hv (fun rto u _ _ => u.stageOr (stagedEdit e) rto) (fun _ => rfl)
    rw [hx, State.stageOr, stage_appends (by rwa [hrtb]) (by rwa [hrtb]) (by rwa [hbtc]) (by rwa [hrtb]), hrtb] at hgo
    obtain ⟨hframe, hproved, honly, htags, hholds, hwrtb, hwkst⟩ := writtenReply (s := s) (m := .rangeStage) (f := f) (p := p) (i := i) (ps := [.commit]) (us := [])
      (v := ((s.begun .rangeStage f).admitted p i).withEdit x)
      .stage (.status .ok [s.rtb.staged.edits.length + 1]) rfl (by decide)
      ⟨rfl, fun q hq => by cases q <;> simp_all [Piece.same, State.withEdit]⟩ rfl rfl (by simp [State.withEdit])
      (writesOnly_of_eq rfl rfl rfl _) (by simp)
    have hedits : (((s.begun .rangeStage f).admitted p i).withEdit x).rtb =
        { s.rtb with staged := { s.rtb.staged with edits := s.rtb.staged.edits ++ [x] } } := by
      unfold State.withEdit; rw [hrtb]
    refine ⟨_, hgo, hframe, hproved, honly, htags, hwrtb.trans hedits, ?_⟩
    show State.holds _ _ (.stage (State.write _ _ _).rtb.staged) _
    rw [(State.write_frame ..).2.2.2.2.1]
    exact hholds
  · intro f i p s c prepared
    have hrtb : ((s.begun .rangeDiscard f).admitted p i).rtb = s.rtb := by simp
    have hslot : ∀ k, ((s.begun .rangeDiscard f).admitted p i).slot k = s.slot k := fun k => by unfold State.slot; simp
    refine ⟨fun hv => ?_, fun hp hv hc => ?_, fun hp hv hs hc => ?_⟩
    · obtain ⟨-, hmay⟩ := hv
      simpa [State.permits] using hmay
    · exact refused_admitted rfl rfl hp hv (fun rto u _ _ => u.discard rto) (fun _ => rfl) (discard_busy (by rwa [hrtb]))
    · have hgo : Goes c s _ := exec_admitted rfl rfl hp hv (fun rto u _ _ => u.discard rto) (fun _ => rfl)
      rw [discard_eq (by rwa [hrtb])] at hgo
      obtain ⟨hdframe, hdonly, hlif, hcru, hbtc, hdrtb, hkst, hretiring, hslots⟩ := discarded_effect ((s.begun .rangeDiscard f).admitted p i)
      rw [hrtb] at hdonly hdrtb hkst hretiring hslots
      obtain ⟨hframe, hproved, honly, htags, hholds, hwrtb, hwkst⟩ := writtenReply (s := s) (m := .rangeDiscard) (f := f) (p := p) (i := i)
        (v := ((s.begun .rangeDiscard f).admitted p i).discarded) .stage (.status .ok []) rfl (by decide) hdframe hlif hcru (by rw [hbtc]; simp)
        hdonly (by simp)
      have hrecord : ((s.begun .rangeDiscard f).admitted p i).discarded.recordOf .stage = .stage .blank := by
        show Record.stage _ = _
        rw [hdrtb]
      have hwslot : ∀ k, (((s.begun .rangeDiscard f).admitted p i).discarded.write .stage [s.reply f.tag (.status .ok [])]).slot k =
          ((s.begun .rangeDiscard f).admitted p i).discarded.slot k := fun k => by unfold State.slot; rw [hwkst]
      refine ⟨_, hgo, hframe.mono (by decide), hproved, honly.mono (fun u hu => ?_), htags, hwrtb.trans hdrtb, fun h => ?_, fun k h1 h2 h3 => ?_,
        fun k h => ?_, by rwa [← hrecord]⟩
      · simp only [List.mem_append, List.mem_cons, List.not_mem_nil, or_false] at hu ⊢
        tauto
      · have hk : ((s.begun .rangeDiscard f).admitted p i).kst = s.kst := by simp
        exact hwkst.trans ((hkst h).trans hk)
      · exact (congrArg KeySlot.state (hwslot k)).trans (hretiring k h1 h2 (by rwa [hslot]))
      · exact (hwslot k).trans ((hslots k h).trans (hslot k))

end Sys2Proof

/-! The validation of a staged list and the effect of its edits (O35; R13, R14). -/

namespace Sys2Proof.Machine

/-! ### The checks of one edit (R14) -/

/-- R14: a range under rekey whose keys are not lost, which no earlier edit repairs. -/
def State.PlanBusy (s : State) (p : Plan) (r : Nat) : Prop :=
  (∃ j, s.headJob = some j ∧ j.state ≠ .queued ∧ j.range = r) ∧ r ∉ p.repaired ∧ ∃ g, p.entry r = .enabled g ∧ g.keyLost = false

/-- The range of the active job (R96). -/
theorem inSweep_iff (s : State) (r : Nat) :
    s.inSweep r = true ↔ ∃ j, s.headJob = some j ∧ j.state ≠ .queued ∧ j.range = r := by
  unfold State.inSweep State.activeJob
  cases h : s.headJob with
  | none => simp
  | some j => by_cases hq : j.state = .queued <;> simp [hq]

theorem busyRange_iff (s : State) (p : Plan) (r : Nat) : s.busyRange p r = true ↔ s.PlanBusy p r := by
  unfold State.busyRange State.PlanBusy
  rw [Bool.and_eq_true, Bool.and_eq_true, inSweep_iff, and_assoc]
  refine and_congr Iff.rfl (and_congr (by simp) ?_)
  cases p.entry r <;> simp

theorem isEnabled_iff (e : Entry) : e.isEnabled = true ↔ ∃ g, e = .enabled g := by
  cases e <;> simp [Entry.isEnabled]

/-- R14: the last check of an edit that changes coverage or keys. -/
theorem busyCheck (s : State) (p : Plan) (r : Nat) :
    (s.PlanBusy p r → (if s.busyRange p r then some Status.rangeBusy else none) = some .rangeBusy) ∧
    (¬ s.PlanBusy p r → (if s.busyRange p r then some Status.rangeBusy else none) = none) := by
  rw [← busyRange_iff]
  exact ⟨fun h => if_pos h, fun h => if_neg h⟩

theorem checkEdit_define (s : State) (p : Plan) (r first count : Nat) :
    s.checkEdit p (.define r first count) = if r = 0 ∨ count = 0 ∨ s.lif.capacity < first + count then some .invalidLayout
      else if s.busyRange p r then some .rangeBusy else none := by
  unfold State.checkEdit
  by_cases h1 : r = 0
  · simp [h1]
  by_cases h2 : count = 0
  · simp [h2]
  by_cases h3 : s.lif.capacity < first + count <;> simp [h1, h2, h3]

theorem listsEmpty_iff (s : State) (l : CredSet) :
    s.listsEmpty l = true ↔ ∃ i < 10, listed l i = true ∧ (s.cred i).record.state = .empty := by
  unfold State.listsEmpty
  simp

theorem checkEdit_access (s : State) (p : Plan) (r : Nat) (x y : CredSet) :
    let bad := (¬ ∃ g, p.entry r = .enabled g) ∨
      ∃ i < 10, (listed x i = true ∨ listed y i = true) ∧ (s.cred i).record.state = .empty
    (bad → s.checkEdit p (.access r x y) = some .invalidLayout) ∧ (¬ bad → s.checkEdit p (.access r x y) = none) := by
  intro bad
  have hlists : (s.listsEmpty x || s.listsEmpty y) = true ↔
      ∃ i < 10, (listed x i = true ∨ listed y i = true) ∧ (s.cred i).record.state = .empty := by
    rw [Bool.or_eq_true, listsEmpty_iff, listsEmpty_iff]
    constructor
    · rintro (⟨i, hi, hl, he⟩ | ⟨i, hi, hl, he⟩)
      · exact ⟨i, hi, .inl hl, he⟩
      · exact ⟨i, hi, .inr hl, he⟩
    · rintro ⟨i, hi, hl | hl, he⟩
      · exact .inl ⟨i, hi, hl, he⟩
      · exact .inr ⟨i, hi, hl, he⟩
  have hbad : bad ↔ ¬ (p.entry r).isEnabled = true ∨ (s.listsEmpty x || s.listsEmpty y) = true := by
    rw [hlists, isEnabled_iff]
  rw [hbad]
  have hcheck : s.checkEdit p (.access r x y) = if !(p.entry r).isEnabled then some .invalidLayout
      else if s.listsEmpty x || s.listsEmpty y then some .invalidLayout else none := rfl
  rw [hcheck]
  cases (p.entry r).isEnabled <;> cases (s.listsEmpty x || s.listsEmpty y) <;> decide

theorem checkEdit_newKey (s : State) (p : Plan) (r : Nat) :
    let bad := (¬ ∃ g, p.entry r = .enabled g) ∧ ¬ (r = 0 ∧ p.entry 0 = .damaged)
    (bad → s.checkEdit p (.newKey r) = some .invalidLayout) ∧
    (¬ bad → s.checkEdit p (.newKey r) = if s.busyRange p r then some .rangeBusy else none) := by
  intro bad
  have hbad : (!((p.entry r).isEnabled || (r == 0 && p.entry r == .damaged))) = true ↔ bad := by
    rw [Bool.not_eq_true', ← Bool.not_eq_true, Bool.or_eq_true, Bool.and_eq_true, beq_iff_eq, beq_iff_eq, not_or, isEnabled_iff]
    exact and_congr Iff.rfl (not_congr ⟨fun ⟨h, k⟩ => ⟨h, h ▸ k⟩, fun ⟨h, k⟩ => ⟨h, h ▸ k⟩⟩)
  exact ⟨fun h => if_pos (hbad.mpr h), fun h => if_neg fun k => h (hbad.mp k)⟩

/-! ### The first edit that fails (R14) -/

theorem checkEdits_error {s : State} {es : List Edit} {e : Edit} {st : Status} (i k : Nat) (p : Plan) (he : es[i]? = some e)
    (hst : s.checkEdit ((es.take i).foldl Plan.apply p) e = some st)
    (hbefore : ∀ j x, j < i → es[j]? = some x → s.checkEdit ((es.take j).foldl Plan.apply p) x = none) :
    s.checkEdits k p es = .error (st, [k + i]) := by
  induction es generalizing i k p with
  | nil => cases he
  | cons x es ih =>
    unfold State.checkEdits
    cases i with
    | zero =>
      obtain rfl : x = e := Option.some.inj he
      rw [show s.checkEdit p x = some st from hst]
      exact rfl
    | succ i =>
      rw [show s.checkEdit p x = none from hbefore 0 x (by omega) rfl]
      rw [show k + (i + 1) = k + 1 + i by omega]
      exact ih i (k + 1) (p.apply x) he hst fun j y hj hy => hbefore (j + 1) y (by omega) hy

theorem checkEdits_all {s : State} {es : List Edit} (k : Nat) (p : Plan)
    (h : ∀ i x, es[i]? = some x → s.checkEdit ((es.take i).foldl Plan.apply p) x = none) :
    s.checkEdits k p es = .ok (es.foldl Plan.apply p) := by
  induction es generalizing k p with
  | nil => exact rfl
  | cons x es ih =>
    unfold State.checkEdits
    rw [show s.checkEdit p x = none from h 0 x rfl]
    exact ih (k + 1) (p.apply x) fun j y hy => h (j + 1) y hy

/-! ### Overlapping ranges (R14) -/

/-- The order of R14's pairs of ranges. -/
def PairBefore (x y : Nat × Nat) : Prop := x.1 < y.1 ∨ (x.1 = y.1 ∧ x.2 < y.2)

/-- The pairs of bounded ranges in the order in which they are looked at. -/
def rangePairs : List (Nat × Nat) := ((List.range 16).drop 1).flatMap (fun a => ((List.range 16).drop (a + 1)).map (fun b => (a, b)))

theorem mem_drop_range (k a : Nat) : a ∈ (List.range 16).drop k ↔ k ≤ a ∧ a < 16 := by
  rw [List.range_eq_range', List.drop_range', List.mem_range'_1]
  omega

theorem mem_rangePairs (a b : Nat) : (a, b) ∈ rangePairs ↔ 1 ≤ a ∧ a < b ∧ b < 16 := by
  unfold rangePairs
  simp only [List.mem_flatMap, List.mem_map, mem_drop_range, Prod.mk.injEq]
  constructor
  · rintro ⟨x, ⟨h1, -⟩, y, ⟨h2, h3⟩, rfl, rfl⟩
    omega
  · rintro ⟨h1, h2, h3⟩
    exact ⟨a, by omega, b, by omega, rfl, rfl⟩

theorem pairwise_drop_range (k : Nat) : ((List.range 16).drop k).Pairwise (· < ·) :=
  List.pairwise_lt_range.sublist (List.drop_sublist _ _)

theorem rangePairs_ordered : rangePairs.Pairwise PairBefore := by
  unfold rangePairs
  rw [List.pairwise_flatMap]
  refine ⟨fun a _ => ?_, (pairwise_drop_range 1).imp fun hab x hx y hy => ?_⟩
  · rw [List.pairwise_map]
    exact (pairwise_drop_range (a + 1)).imp fun h => .inr ⟨rfl, h⟩
  · obtain ⟨_, -, rfl⟩ := List.mem_map.mp hx
    obtain ⟨_, -, rfl⟩ := List.mem_map.mp hy
    exact .inl hab

/-- In an ordered list, the first element that passes a test comes before every other that passes it. -/
theorem find?_first {α : Type} {R : α → α → Prop} {l : List α} {f : α → Bool} {x : α} (hl : l.Pairwise R) (hx : x ∈ l)
    (hf : f x = true) (hmin : ∀ y ∈ l, f y = true → ¬ R y x) : l.find? f = some x := by
  cases hfind : l.find? f with
  | none => exact absurd hf (List.find?_eq_none.mp hfind x hx)
  | some y =>
    obtain ⟨hy, as, bs, rfl, hnot⟩ := List.find?_eq_some_iff_append.mp hfind
    have hmem : y ∈ as ++ y :: bs := by simp
    rcases List.mem_append.mp hx with h | h
    · exact absurd hf (by simpa using hnot x h)
    rcases List.mem_cons.mp h with rfl | h
    · rfl
    · have := (List.pairwise_append.mp hl).2.1
      exact absurd ((List.pairwise_cons.mp this).1 x h) (hmin y hmem hy)

/-- R14: two bounded ranges of a plan overlap. -/
def Plan.Overlaps (p : Plan) (a b : Nat) : Prop := 1 ≤ a ∧ a < b ∧ b < 16 ∧ ∃ g h x y, p.entry a = .enabled g ∧
  p.entry b = .enabled h ∧ g.bounds = some x ∧ h.bounds = some y ∧ x.first < y.first + y.count ∧ y.first < x.first + x.count

/-- The test of one pair. -/
def Plan.pairOverlaps (p : Plan) (q : Nat × Nat) : Bool :=
  match (p.entry q.1).bounds?, (p.entry q.2).bounds? with
  | some x, some y => overlap x.first x.count y.first y.count
  | _, _ => false

theorem overlapping_eq (p : Plan) : p.overlapping = rangePairs.find? p.pairOverlaps := rfl

theorem bounds?_eq_some {e : Entry} {x : Span} : e.bounds? = some x ↔ ∃ g, e = .enabled g ∧ g.bounds = some x := by
  cases e <;> simp [Entry.bounds?]

theorem pairOverlaps_iff (p : Plan) (a b : Nat) : p.pairOverlaps (a, b) = true ↔ ∃ g h x y, p.entry a = .enabled g ∧
    p.entry b = .enabled h ∧ g.bounds = some x ∧ h.bounds = some y ∧ x.first < y.first + y.count ∧ y.first < x.first + x.count := by
  unfold Plan.pairOverlaps
  constructor
  · intro h
    split at h
    · next x y hx hy =>
      obtain ⟨g, hg, hgx⟩ := bounds?_eq_some.mp hx
      obtain ⟨k, hk, hky⟩ := bounds?_eq_some.mp hy
      refine ⟨g, k, x, y, hg, hk, hgx, hky, ?_⟩
      simpa [overlap] using h
    · cases h
  · rintro ⟨g, k, x, y, hg, hk, hx, hy, hover⟩
    simp only [hg, hk, Entry.bounds?, hx, hy]
    simpa [overlap] using hover

theorem overlapping_eq_some {p : Plan} {a b : Nat} (h : p.Overlaps a b) (hmin : ∀ x y, p.Overlaps x y → a < x ∨ (a = x ∧ b ≤ y)) :
    p.overlapping = some (a, b) := by
  obtain ⟨h1, h2, h3, hover⟩ := h
  refine find?_first rangePairs_ordered ((mem_rangePairs a b).mpr ⟨h1, h2, h3⟩) ((pairOverlaps_iff p a b).mpr hover) ?_
  rintro ⟨x, y⟩ hmem hxy hbefore
  obtain ⟨k1, k2, k3⟩ := (mem_rangePairs x y).mp hmem
  have := hmin x y ⟨k1, k2, k3, (pairOverlaps_iff p x y).mp hxy⟩
  rcases hbefore with hb | ⟨hb, hb'⟩ <;> simp only at hb <;> omega

theorem overlapping_eq_none {p : Plan} (h : ∀ x y, ¬ p.Overlaps x y) : p.overlapping = none := by
  rw [overlapping_eq, List.find?_eq_none]
  rintro ⟨a, b⟩ hmem hover
  obtain ⟨h1, h2, h3⟩ := (mem_rangePairs a b).mp hmem
  exact h a b ⟨h1, h2, h3, (pairOverlaps_iff p a b).mp hover⟩

/-! ### The last edit of the bounds (R14) -/

/-- In an ordered list the last element is the greatest. -/
theorem getLast?_greatest {l : List Nat} {x : Nat} (hl : l.Pairwise (· < ·)) (hx : x ∈ l) (hmax : ∀ y ∈ l, y ≤ x) :
    l.getLast? = some x := by
  rcases List.eq_nil_or_concat l with rfl | ⟨as, b, rfl⟩
  · cases hx
  rw [List.concat_eq_append] at *
  rw [List.getLast?_concat]
  rcases List.mem_append.mp hx with h | h
  · have hlt := (List.pairwise_append.mp hl).2.2 x h b (by simp)
    exact absurd (hmax b (by simp)) (by omega)
  · rw [List.mem_singleton.mp h]

/-- The edit at an index sets the bounds of one of two ranges. -/
def setsBoundsAt (es : List Edit) (a b i : Nat) : Bool :=
  match es[i]? with
  | some e => e.setsBounds a b
  | none => false

theorem lastBounds_eq (es : List Edit) (a b : Nat) :
    lastBounds es a b = (((List.range es.length).filter (setsBoundsAt es a b)).getLast?).toList := rfl

theorem setsBoundsAt_iff (es : List Edit) (a b i : Nat) :
    setsBoundsAt es a b i = true ↔ ∃ n m, es[i]? = some (.define a n m) ∨ es[i]? = some (.define b n m) := by
  unfold setsBoundsAt
  cases h : es[i]? with
  | none => simp
  | some e =>
    cases e with
    | define r n m =>
      simp only [Edit.setsBounds, Bool.or_eq_true, beq_iff_eq, Option.some.injEq, Edit.define.injEq]
      constructor
      · rintro (rfl | rfl)
        · exact ⟨n, m, .inl ⟨rfl, rfl, rfl⟩⟩
        · exact ⟨n, m, .inr ⟨rfl, rfl, rfl⟩⟩
      · rintro ⟨_, _, h | h⟩
        · exact .inl h.1
        · exact .inr h.1
    | options | access | newKey | disable => simp [Edit.setsBounds]

theorem lastBounds_last {es : List Edit} {a b i : Nat} {e : Edit} (he : es[i]? = some e)
    (hsets : ∃ n m, e = .define a n m ∨ e = .define b n m)
    (hlast : ∀ j n m, i < j → es[j]? ≠ some (.define a n m) ∧ es[j]? ≠ some (.define b n m)) : lastBounds es a b = [i] := by
  have hi : i < es.length := (List.getElem?_eq_some_iff.mp he).1
  rw [lastBounds_eq, getLast?_greatest (x := i) (List.pairwise_lt_range.filter _)]
  · exact rfl
  · refine List.mem_filter.mpr ⟨List.mem_range.mpr hi, (setsBoundsAt_iff es a b i).mpr ?_⟩
    obtain ⟨n, m, h⟩ := hsets
    exact ⟨n, m, h.imp (fun h => he.trans (congrArg some h)) (fun h => he.trans (congrArg some h))⟩
  · intro j hj
    obtain ⟨n, m, h⟩ := (setsBoundsAt_iff es a b j).mp (List.mem_filter.mp hj).2
    by_contra hlt
    obtain ⟨h1, h2⟩ := hlast j n m (by omega)
    exact h.elim h1 h2

/-! ### The list as a whole (R14) -/

section validate
variable {s : State} {es : List Edit}

theorem validate_firstError {e : Edit} {st : Status} {i : Nat} (he : es[i]? = some e)
    (hst : s.checkEdit (s.plan (es.take i)) e = some st)
    (hbefore : ∀ j x, j < i → es[j]? = some x → s.checkEdit (s.plan (es.take j)) x = none) : s.validate es = .error (st, [i]) := by
  unfold State.validate
  rw [checkEdits_error i 0 s.planStart he hst hbefore, Nat.zero_add]

variable (h : ∀ i x, es[i]? = some x → s.checkEdit (s.plan (es.take i)) x = none)
include h

theorem checkEdits_plan : s.checkEdits 0 s.planStart es = .ok (s.plan es) := checkEdits_all 0 s.planStart h

theorem validate_overlap {a b : Nat} (ho : (s.plan es).overlapping = some (a, b)) :
    s.validate es = .error (.invalidLayout, lastBounds es a b) := by
  simp only [State.validate, checkEdits_plan h, ho]

theorem validate_noKeySlot (ho : (s.plan es).overlapping = none) (hn : s.poolCount .empty < (s.plan es).needKeys.length) :
    s.validate es = .error (.noKeySlot, []) := by
  simp only [State.validate, checkEdits_plan h, ho]
  exact if_pos hn

theorem validate_plan (ho : (s.plan es).overlapping = none) (hn : (s.plan es).needKeys.length ≤ s.poolCount .empty) :
    s.validate es = .ok (s.plan es) := by
  simp only [State.validate, checkEdits_plan h, ho]
  exact if_neg (by omega)

end validate

theorem mem_needKeys (p : Plan) (r : Nat) : r ∈ p.needKeys ↔
    r < 16 ∧ (∃ g, p.entry r = .enabled g) ∧ (r ∈ p.remade ∨ r ∈ p.rekeyed ∨ r ∈ p.repaired) := by
  unfold Plan.needKeys
  rw [← isEnabled_iff]
  simp [or_assoc]

/-! ### The effect of an edit (R13) -/

section apply
variable {p : Plan} {r : Nat} {g : RangeFields}

theorem Plan.entry_set_same (e : Entry) (hr : r < p.entries.length) : (p.set r e).entry r = e :=
  (Plan.entry_set p r r e).trans (if_pos ⟨rfl, hr⟩)

/-- R13, repair edits: key_lost is cleared, and the split of the range goes with its keys. -/
def RangeFields.cleared (g : RangeFields) : RangeFields := { g with keyLost := false, split := if g.keyLost then none else g.split }

theorem Plan.repair_effect (hr : r < p.entries.length) : (p.repair r g).entry r = .enabled g.cleared ∧
    (p.repair r g).reseal = p.reseal ∧ (∀ x, x ∈ (p.repair r g).repaired ↔ x ∈ p.repaired ∨ (x = r ∧ g.keyLost = true)) := by
  unfold Plan.repair RangeFields.cleared
  by_cases hk : g.keyLost = true
  · rw [if_pos hk]
    exact ⟨(Plan.entry_set_same _ hr).trans (by rw [if_pos hk]), rfl, fun x => by simp [hk, or_comm]⟩
  · rw [if_neg hk]
    refine ⟨(Plan.entry_set_same _ hr).trans (by rw [if_neg hk]; simp [← Bool.eq_false_iff.mpr hk]), rfl, fun x => by simp [hk, Plan.set]⟩

theorem Plan.apply_define (hr : r ≠ 0) (first count : Nat) :
    (∀ g, p.entry r = .enabled g → p.apply (.define r first count) = p.repair r { g with bounds := some ⟨first, count⟩ }) ∧
    (p.entry r = .disabled → p.apply (.define r first count) =
      { p.set r (.enabled (.made (some ⟨first, count⟩) true)) with remade := r :: p.remade }) ∧
    (p.entry r = .damaged → p.apply (.define r first count) =
      { p.set r (.enabled (.made (some ⟨first, count⟩) true)) with remade := r :: p.remade, repaired := r :: p.repaired }) := by
  exact ⟨fun g hg => by simp only [Plan.apply, if_neg hr, hg], fun h => by simp only [Plan.apply, if_neg hr, h],
    fun h => by simp only [Plan.apply, if_neg hr, h]⟩

theorem Plan.apply_disable (hr : r ≠ 0) :
    (∀ g, p.entry r = .enabled g → p.apply (.disable r) =
      { p.set r .disabled with repaired := if g.keyLost then r :: p.repaired else p.repaired }) ∧
    (p.entry r = .damaged → p.apply (.disable r) = { p.set r .disabled with repaired := r :: p.repaired }) ∧
    (p.entry r = .disabled → p.apply (.disable r) = p) := by
  exact ⟨fun g hg => by simp only [Plan.apply, if_neg hr, hg], fun h => by simp only [Plan.apply, if_neg hr, h],
    fun h => by simp only [Plan.apply, if_neg hr, h]⟩

end apply

end Sys2Proof.Machine

namespace Sys2Proof
open Machine

/-- Settles O35. -/
theorem listIsValidated : Obligations.ListIsValidated := by
  intro s busy enabled invalid keyChecks overlaps
  refine ⟨fun p r first count => ?_, fun p r m a b c d => ?_, fun p r x y => ?_, fun p r => ?_, fun p r => ?_,
    fun es i e st he hst hb => validate_firstError he hst hb, fun es h => ?_, rfl, rfl, rfl, rfl, rfl, fun es e => ?_, fun p r => mem_needKeys p r, fun p r hr => ?_⟩
  · intro o bad
    have ho : o = _ := checkEdit_define s p r first count
    refine ⟨fun h => ho.trans (if_pos h), fun h => ?_⟩
    rw [ho.trans (if_neg h)]
    exact busyCheck s p r
  · intro o
    have ho : o = if (p.entry r).isEnabled then none else some .invalidLayout := rfl
    exact ⟨fun h => ho.trans (if_pos ((isEnabled_iff _).mpr h)), fun h => ho.trans (if_neg fun k => h ((isEnabled_iff _).mp k))⟩
  · intro o bad
    exact checkEdit_access s p r x y
  · intro o bad
    obtain ⟨hbad, hok⟩ := checkEdit_newKey s p r
    refine ⟨hbad, fun h => ?_⟩
    rw [show o = _ from hok h]
    exact busyCheck s p r
  · intro o
    have ho : o = if r = 0 then some .invalidLayout else if s.busyRange p r then some .rangeBusy else none := rfl
    refine ⟨fun h => ho.trans (if_pos h), fun h => ?_⟩
    rw [ho.trans (if_neg h)]
    exact busyCheck s p r
  · intro p
    refine ⟨fun a b i e hover hmin he hsets hlast => ?_, fun hno hn => validate_noKeySlot h (overlapping_eq_none hno) hn,
      fun hno hn => validate_plan h (overlapping_eq_none hno) hn⟩
    rw [validate_overlap h (overlapping_eq_some hover hmin), lastBounds_last he hsets hlast]
  · exact List.foldl_concat ..
  · intro cleared others
    have hother : ∀ e : Edit, e.range = r → others (p.apply e) := fun e he x hx => Plan.entry_apply_other p e x (he ▸ hx)
    refine ⟨?_, ?_, ?_, ?_, ?_, ?_⟩
    · intro first count h0
      obtain ⟨henabled, hdisabled, hdamaged⟩ := p.apply_define h0 first count
      refine ⟨hother _ rfl, ?_, ?_, fun g hg => ?_, fun hn => ?_⟩
      · cases he : p.entry r with
        | disabled => rw [hdisabled he]; exact rfl
        | damaged => rw [hdamaged he]; exact rfl
        | enabled g => rw [henabled g he, (Plan.repair_effect hr).2.1]
      · cases he : p.entry r with
        | disabled => rw [hdisabled he]; exact rfl
        | damaged => rw [hdamaged he]; exact rfl
        | enabled g => rw [henabled g he, (Plan.repair_lists ..).2]
      · obtain ⟨hentry, -, hrepaired⟩ := Plan.repair_effect (g := { g with bounds := some ⟨first, count⟩ }) hr
        rw [henabled g hg]
        exact ⟨hentry, (Plan.repair_lists ..).1, hrepaired⟩
      · cases he : p.entry r with
        | disabled =>
          rw [hdisabled he]
          exact ⟨Plan.entry_set_same _ hr, rfl, fun x => by simp [Plan.set]⟩
        | damaged =>
          rw [hdamaged he]
          exact ⟨Plan.entry_set_same _ hr, rfl, fun x => by simp [or_comm]⟩
        | enabled g => exact absurd ⟨g, he⟩ hn
    · intro m a b c d g hg
      have happly : p.apply (.options r m a b c d) =
          { p.set r (.enabled { g with lockMode := m, concealed := a, powerLock := b, standbyLock := c }) with
            reseal := if r = 0 then d else p.reseal } := by simp only [Plan.apply, hg]
      refine ⟨hother _ rfl, ?_⟩
      rw [happly]
      exact ⟨Plan.entry_set_same _ hr, rfl, rfl, rfl, rfl⟩
    · intro x y g hg
      simp only [Plan.apply, hg, Plan.set]
    · intro g hg
      have happly : p.apply (.newKey r) = { p.repair r g with rekeyed := r :: p.rekeyed } := by simp only [Plan.apply, hg]
      obtain ⟨hentry, hreseal, hrepaired⟩ := Plan.repair_effect (g := g) hr
      refine ⟨hother _ rfl, ?_⟩
      rw [happly]
      exact ⟨hentry, hreseal, (Plan.repair_lists ..).1, rfl, hrepaired⟩
    · rintro rfl hd
      have happly : p.apply (.newKey 0) =
          { p.set 0 (.enabled (.made none false)) with remade := 0 :: p.remade, repaired := 0 :: p.repaired } := by
        simp only [Plan.apply, hd, if_true]
      refine ⟨hother _ rfl, ?_⟩
      rw [happly]
      exact ⟨Plan.entry_set_same _ hr, rfl, rfl, rfl, rfl⟩
    · intro h0
      obtain ⟨henabled, hdamaged, hdisabled⟩ := p.apply_disable h0
      refine ⟨hother _ rfl, ?_⟩
      cases he : p.entry r with
      | disabled =>
        rw [hdisabled he]
        exact ⟨he, rfl, rfl, rfl, fun x => by simp⟩
      | damaged =>
        rw [hdamaged he]
        exact ⟨Plan.entry_set_same _ hr, rfl, rfl, rfl, fun x => by simp [or_comm]⟩
      | enabled g =>
        rw [henabled g he]
        refine ⟨Plan.entry_set_same _ hr, rfl, rfl, rfl, fun x => ?_⟩
        cases hk : g.keyLost <;> simp [or_comm, hk]

end Sys2Proof

/-! The Data Path's requests (O40, O41, O42): XFER_OPEN (R80 to R83) and XFER_BLOCK (R85 to R87). -/

namespace Sys2Proof.Machine

/-! ### Requests that keep no tag -/

/-- A request on another channel than CONTROL keeps no tag. -/
theorem begun_untagged {s : State} {m : Message} {f : Hdr} (h : m.channel ≠ .control) : s.begun m f = s.frameTaken :=
  if_neg fun hc => h hc.1

theorem answer_untagged {s t : State} {ch : Channel} {n : Nat} (hch : ch ≠ .control) (h : t.lif.session = s.lif.session) (b : Body) :
    t.answer (s.replyTo ch n) b = t.send ch n b := by
  unfold State.answer
  rw [if_pos (by rw [h]; exact rfl)]
  cases ch
  case control => exact absurd rfl hch
  all_goals exact rfl

theorem answer_shared (t : State) (rto : ReplyTo) (b : Body) : ∃ lif sent, t.answer rto b = { t with lif := lif, sent := sent } := by
  unfold State.answer
  split
  · cases rto.channel <;> exact ⟨_, _, rfl⟩
  · exact ⟨_, _, rfl⟩

/-! ### Contexts and key users (R78, R28) -/

/-- R78: the lowest FREE context. -/
theorem freeContext_none (s : State) : s.freeContextNumber = none ↔ ∀ k < 16, (s.ctx k).xfer ≠ none := by
  unfold State.freeContextNumber
  rw [List.find?_eq_none]
  simp

theorem freeContext_some {s : State} {k : Nat} (h : s.freeContextNumber = some k) :
    k < 16 ∧ (s.ctx k).xfer = none ∧ ∀ j < k, (s.ctx j).xfer ≠ none := by
  obtain ⟨hk, hlt, hmin⟩ := List.find?_range_eq_some.mp h
  exact ⟨by simpa using hlt, by simpa using hk, fun j hj => by simpa [Option.isSome_iff_ne_none] using hmin j hj⟩

theorem freeContext_exists {s : State} (h : ∃ k < 16, (s.ctx k).xfer = none) : ∃ k, s.freeContextNumber = some k := by
  cases hf : s.freeContextNumber with
  | none =>
    obtain ⟨k, hk, hx⟩ := h
    exact absurd hx ((freeContext_none s).mp hf k hk)
  | some k => exact ⟨k, rfl⟩

theorem addUser_slot (s : State) {k : Nat} (hk : k < s.kst.slots.length) (j : Nat) :
    (s.addUser k).slot j = { s.slot j with users := (s.slot j).users + [k].count j } := by
  unfold State.addUser
  rw [slot_mapSlot]
  by_cases h : j = k
  · subst h
    rw [if_pos ⟨rfl, hk⟩]
    simp
  · rw [if_neg fun hh => h hh.1, List.count_cons_of_ne (Ne.symm h)]
    rfl

/-- R28: a reference on each of a list of slots. -/
theorem addUsers_slot (ks : List Nat) (s : State) (hk : ∀ k ∈ ks, k < s.kst.slots.length) (j : Nat) :
    (ks.foldl State.addUser s).slot j = { s.slot j with users := (s.slot j).users + ks.count j } := by
  induction ks generalizing s with
  | nil => exact rfl
  | cons k ks ih =>
    have hlen : (s.addUser k).kst.slots.length = s.kst.slots.length := by simp [State.addUser, State.mapSlot]
    rw [List.foldl_cons, ih _ fun x hx => by rw [hlen]; exact hk x (List.mem_cons_of_mem _ hx),
      addUser_slot s (hk k List.mem_cons_self)]
    have hcount : (k :: ks).count j = [k].count j + ks.count j := List.count_append (l₁ := [k])
    rw [hcount, Nat.add_assoc]

theorem addUsers_framed (ks : List Nat) (s : State) : Framed [.keySlots] s (ks.foldl State.addUser s) := by
  induction ks generalizing s with
  | nil => exact Framed.refl _ s
  | cons k ks ih =>
    have hone : Framed [.keySlots] s (s.addUser k) :=
      ⟨rfl, fun q hq => by cases q <;> simp_all [Piece.same, State.addUser, State.mapSlot]⟩
    exact (hone.trans (ih _)).mono (by decide)

/-! ### XFER_OPEN: its checks (R80, R81, R82) -/

section checks
variable {s : State} {d first count : Nat}

/-- The direction of an open whose field is in range. -/
theorem openDirection_of_le (h : d ≤ 1) : openDirection d = some (if d = 1 then .write else .read) := by
  match d with
  | 0 | 1 => rfl
  | n + 2 => omega

theorem openResult_standby (h : s.sst.power = .standby) : s.openResult d first count = .refuse .standby [] := if_pos h

theorem openResult_badField (hp : s.sst.power ≠ .standby) (h : ¬ (d ≤ 1 ∧ 1 ≤ count ∧ count ≤ 256 ∧ first < 2 ^ 40)) :
    s.openResult d first count = .refuse .badField [] := by
  have hmax : Config.blockMax = 2 ^ 40 := rfl
  unfold State.openResult
  rw [if_neg hp]
  by_cases hd : d ≤ 1
  · rw [openDirection_of_le hd]
    exact if_pos (by rw [hmax]; omega)
  · match d with
    | 0 | 1 => omega
    | n + 2 => rfl

theorem openResult_fields (hp : s.sst.power ≠ .standby) (hd : d ≤ 1) (h1 : 1 ≤ count) (h256 : count ≤ 256) (hf : first < 2 ^ 40) :
    s.openResult d first count = s.openFields (if d = 1 then .write else .read) first count := by
  have hmax : Config.blockMax = 2 ^ 40 := rfl
  unfold State.openResult
  rw [if_neg hp, openDirection_of_le hd]
  exact if_neg (by rw [hmax]; omega)

variable {dir : Direction}

theorem openFields_wrongState (h : s.btc.state = .erased ∧ ¬ (dir = .read ∧ first < s.btc.imageSize)) :
    s.openFields dir first count = .refuse .wrongState [] := if_pos h

variable (hw : ¬ (s.btc.state = .erased ∧ ¬ (dir = .read ∧ first < s.btc.imageSize)))
include hw

theorem openFields_outOfRange (h : s.lif.capacity < first + count) : s.openFields dir first count = .refuse .outOfRange [] :=
  (if_neg hw).trans (if_pos h)

theorem openFields_overlay (hc : first + count ≤ s.lif.capacity) (ho : s.btc.state.overlay = true) (hi : first < s.btc.imageSize) :
    s.openFields dir first count = if s.btc.imageSize < first + count then .refuse .crossesRange [s.btc.imageSize - first]
      else s.openOverlay dir first :=
  (if_neg hw).trans ((if_neg (by omega)).trans (if_pos ⟨ho, hi⟩))

theorem openFields_span (hc : first + count ≤ s.lif.capacity) (ho : s.btc.state.overlay = true → s.btc.imageSize ≤ first) :
    s.openFields dir first count = s.openSpan dir first count :=
  (if_neg hw).trans ((if_neg (by omega)).trans (if_neg fun h => absurd (ho h.1) (by omega)))

end checks

/-! ### The range of a block (R2), and what holds a span (R82) -/

theorem covers_iff (e : Entry) (b : Nat) :
    e.covers b = true ↔ ∃ g x, e = .enabled g ∧ g.bounds = some x ∧ x.first ≤ b ∧ b < x.first + x.count := by
  cases e with
  | disabled => simp [Entry.covers]
  | damaged => simp [Entry.covers]
  | enabled g => cases hb : g.bounds <;> simp [Entry.covers, hb]

/-- R2: a bounded ENABLED range covers a block. -/
def State.Covers (s : State) (q b : Nat) : Prop :=
  ∃ g x, s.fields q = some g ∧ g.bounds = some x ∧ x.first ≤ b ∧ b < x.first + x.count

theorem entry_covers_iff (s : State) (q b : Nat) : (s.entry q).covers b = true ↔ s.Covers q b := by
  rw [covers_iff]
  unfold State.Covers
  simp only [fields_eq_some]

theorem rangeOf_none {s : State} {b : Nat} (h : ∀ q < 16, 1 ≤ q → ¬ s.Covers q b) : s.rangeOf b = 0 := by
  have hfind : ((List.range 16).drop 1).find? (fun r => (s.entry r).covers b) = none :=
    List.find?_eq_none.mpr fun q hq => by
      obtain ⟨h1, h16⟩ := (mem_drop_range 1 q).mp hq
      exact fun k => h q h16 h1 ((entry_covers_iff s q b).mp k)
  unfold State.rangeOf
  rw [hfind]
  exact rfl

theorem rangeOf_covering {s : State} {q b : Nat} (h1 : 1 ≤ q) (h16 : q < 16) (hq : s.Covers q b)
    (honly : ∀ x < 16, 1 ≤ x → s.Covers x b → x = q) : s.rangeOf b = q := by
  have hfind : ((List.range 16).drop 1).find? (fun r => (s.entry r).covers b) = some q := by
    refine find?_first (pairwise_drop_range 1) ((mem_drop_range 1 q).mpr ⟨h1, h16⟩) ((entry_covers_iff s q b).mpr hq) fun x hx hc => ?_
    obtain ⟨hx1, hx16⟩ := (mem_drop_range 1 x).mp hx
    rw [honly x hx16 hx1 ((entry_covers_iff s x b).mp hc)]
    exact Nat.lt_irrefl q
  unfold State.rangeOf
  rw [hfind]
  exact rfl

/-- R82 item 3, R115. -/
theorem underChunk_iff (s : State) (q b n : Nat) : s.underChunk q b n = true ↔
    ((s.rke.phase = .claiming ∨ s.rke.window = true) ∧ b < s.rke.first + s.rke.n ∧ s.rke.first < b + n) ∨
      (s.rke.rangeHeld = true ∧ ∃ j, s.headJob = some j ∧ j.state ≠ .queued ∧ j.range = q) := by
  unfold State.underChunk
  rw [Bool.or_eq_true, Bool.and_eq_true, Bool.and_eq_true, Bool.or_eq_true, beq_iff_eq, inSweep_iff, or_comm]
  simp [overlap]

theorem crossing_some {s : State} {f n i : Nat} (hi : i < n) (hne : s.rangeOf (f + i) ≠ s.rangeOf f)
    (hbefore : ∀ j < i, s.rangeOf (f + j) = s.rangeOf f) : s.crossing f n = some i :=
  List.find?_range_eq_some.mpr ⟨by simpa using hne, List.mem_range.mpr hi, fun j hj => by simpa using hbefore j hj⟩

theorem crossing_none {s : State} {f n : Nat} (h : ∀ i < n, s.rangeOf (f + i) = s.rangeOf f) : s.crossing f n = none :=
  List.find?_eq_none.mpr fun i hi => by simpa using h i (List.mem_range.mp hi)

theorem tableDamaged_iff (s : State) : s.tableDamaged = true ↔ ∃ q < 16, s.entry q = .damaged := by
  simp [State.tableDamaged]

/-! ### XFER_OPEN in a range (R82) -/

section span
variable {s : State} {d : Direction} {first count : Nat}

theorem openSpan_crosses {i : Nat} (h : s.crossing first count = some i) :
    s.openSpan d first count = .refuse .crossesRange [i] := by
  simp only [State.openSpan, h]

variable (h : s.crossing first count = none)
include h

theorem openSpan_tableDamaged (ht : s.tableDamaged = true) : s.openSpan d first count = .refuse .tableDamaged [] := by
  simp only [State.openSpan, h]
  exact if_pos ht

variable (ht : ¬ s.tableDamaged = true)
include ht

theorem openSpan_held (hh : (s.affected.contains (s.rangeOf first) || s.underChunk (s.rangeOf first) first count) = true) :
    s.openSpan d first count = .refuse .held [] := by
  simp only [State.openSpan, h]
  exact (if_neg ht).trans (if_pos hh)

theorem openSpan_enabled (hh : ¬ (s.affected.contains (s.rangeOf first) || s.underChunk (s.rangeOf first) first count) = true)
    {g : RangeFields} (hg : s.fields (s.rangeOf first) = some g) :
    s.openSpan d first count = s.openRange d (s.rangeOf first) g first count := by
  simp only [State.openSpan, h]
  refine (if_neg ht).trans ((if_neg hh).trans ?_)
  rw [hg]

end span

/-- R82 item 5: the lock flag of a direction. -/
def RangeFields.lockedFor (g : RangeFields) (d : Direction) : Bool :=
  match d with
  | .read => g.readLocked
  | .write => g.writeLocked

section range
variable {s : State} {d : Direction} {r first count : Nat} {g : RangeFields}

theorem openRange_eq : s.openRange d r g first count =
    if g.keyLost then .refuse .keyLost []
    else if g.lockedFor d = true ∧ g.lockMode = .refuse then .refuse .locked []
    else if s.freeContextNumber.isNone then .refuse .noContext []
    else if g.lockedFor d then .grant .shroud (some r) [] 0
    else match s.load r with
      | .loaded _ =>
        if (spanSlots g first count).all (fun k => (s.slot k).state == .live) then .grant .clear (some r) (spanSlots g first count) 0
        else .refuse .keyLost []
      | _ => .refuse .locked [] := by
  cases d <;> exact rfl

theorem openRange_keyLost (h : g.keyLost = true) : s.openRange d r g first count = .refuse .keyLost [] :=
  openRange_eq.trans (if_pos h)

variable (hk : g.keyLost = false)
include hk

theorem openRange_locked (hl : g.lockedFor d = true) (hm : g.lockMode = .refuse) : s.openRange d r g first count = .refuse .locked [] :=
  openRange_eq.trans ((if_neg (by simp [hk])).trans (if_pos ⟨hl, hm⟩))

variable (hl : g.lockedFor d = false ∨ g.lockMode = .shroud)
include hl

theorem not_lockedRefuse : ¬ (g.lockedFor d = true ∧ g.lockMode = .refuse) := by
  rintro ⟨h1, h2⟩
  rcases hl with h | h
  · rw [h] at h1; cases h1
  · rw [h] at h2; cases h2

theorem openRange_noContext (hf : ∀ k < 16, (s.ctx k).xfer ≠ none) : s.openRange d r g first count = .refuse .noContext [] :=
  openRange_eq.trans ((if_neg (by simp [hk])).trans ((if_neg (not_lockedRefuse hk hl)).trans
    (if_pos (by rw [(freeContext_none s).mpr hf]; exact rfl))))

variable (hf : ∃ k < 16, (s.ctx k).xfer = none)
include hf

theorem openRange_open : s.openRange d r g first count = if g.lockedFor d then .grant .shroud (some r) [] 0
    else match s.load r with
      | .loaded _ =>
        if (spanSlots g first count).all (fun k => (s.slot k).state == .live) then .grant .clear (some r) (spanSlots g first count) 0
        else .refuse .keyLost []
      | _ => .refuse .locked [] := by
  obtain ⟨k, hfree⟩ := freeContext_exists hf
  exact openRange_eq.trans ((if_neg (by simp [hk])).trans ((if_neg (not_lockedRefuse hk hl)).trans (if_neg (by rw [hfree]; exact Bool.false_ne_true))))

end range

/-! ### XFER_OPEN: its answer (R83) -/

section goes
variable {f : Hdr} {d first count : Nat} {s : State}

theorem xferOpen_goes (hp : (Instr.xferOpen f d first count).passes s) :
    Goes (.xferOpen f d first count) s (s.frameTaken.xferOpen d first count (s.replyTo .data f.tag)) := by
  have hgo := goes_request (act := fun t rto => t.xferOpen d first count rto) rfl hp fun _ => rfl
  rwa [begun_untagged (by decide)] at hgo

theorem xferOpen_refused (hp : (Instr.xferOpen f d first count).passes s) {st : Status} {det : List Nat}
    (h : s.frameTaken.openResult d first count = .refuse st det) :
    Goes (.xferOpen f d first count) s (s.answered .xferOpen f (.status st det)) := by
  have hgo := xferOpen_goes hp
  unfold State.xferOpen at hgo
  rw [h] at hgo
  exact hgo.trans (congrArg done (answer_untagged (ch := .data) (by decide) rfl _))

/-- R83: an open that its checks grant. -/
theorem xferOpen_granted (hp : (Instr.xferOpen f d first count).passes s) (hs : Shaped s) {mode : Mode} {range : Option Nat}
    {keys : List Nat} {offset : Nat} (h : s.frameTaken.openResult d first count = .grant mode range keys offset)
    (hfree : ∃ k < 16, (s.ctx k).xfer = none) (hkeys : ∀ k ∈ keys, k < s.kst.slots.length) :
    GrantedOpen (.xferOpen f d first count) s f (if d = 1 then .write else .read) first count mode range keys offset := by
  obtain ⟨k, hk⟩ := freeContext_exists hfree
  obtain ⟨hlt, hnone, hmin⟩ := freeContext_some hk
  have hgo := xferOpen_goes hp
  unfold State.xferOpen at hgo
  rw [h] at hgo
  let x : Context := {
    generation := ((s.ctx k).generation + 1) % 256
    xfer := some { direction := if d = 1 then .write else .read, range := range, first := first, count := count, nextIndex := 0,
                   mode := mode, keyRefs := keys, rto := s.replyTo .data f.tag } }
  have hctx : ∀ j, (s.frameTaken.setCtx k x).ctx j = if j = k then x else s.ctx j := fun j =>
    ctx_setCtx s.frameTaken k j x (by rw [show s.frameTaken.dpu = s.dpu from rfl, hs.contexts]; exact hlt)
  have hset : Framed [.bursts, .data] s (s.frameTaken.setCtx k x) := ⟨rfl, fun q hq => by cases q <;> simp_all [Piece.same, State.setCtx, State.frameTaken]⟩
  have hadd := addUsers_framed keys (s.frameTaken.setCtx k x)
  have hdpu : (keys.foldl State.addUser (s.frameTaken.setCtx k x)).dpu = (s.frameTaken.setCtx k x).dpu := hadd.2 .data (by decide)
  have hsent : Framed [.sent] (keys.foldl State.addUser (s.frameTaken.setCtx k x)) ((keys.foldl State.addUser (s.frameTaken.setCtx k x)).send .data f.tag
      (.grant k x.generation mode offset)) := ⟨rfl, fun q hq => by cases q <;> simp_all [Piece.same, State.send]⟩
  have hsession : (keys.foldl State.addUser (s.frameTaken.setCtx k x)).lif.session = s.lif.session :=
    (hadd.2 .link (by decide)).2.2.2.2.2.2.2.2
  have hgrant : s.frameTaken.grant d first count mode range keys offset (s.replyTo .data f.tag) =
      (keys.foldl State.addUser (s.frameTaken.setCtx k x)).send .data f.tag (.grant k x.generation mode offset) := by
    unfold State.grant
    rw [show s.frameTaken.freeContextNumber = some k from hk]
    exact answer_untagged (by decide) hsession _
  refine ⟨_, k, hgo.trans (congrArg (fun u => done u) hgrant), ((hset.trans hadd).trans hsent).mono (by decide), hlt, hnone, hmin, ?_, fun j hj => ?_, ?_, ?_, fun j => ?_, ?_⟩
  · show (keys.foldl State.addUser (s.frameTaken.setCtx k x)).ctx k = x
    unfold State.ctx; rw [hdpu]
    exact (hctx k).trans (if_pos rfl)
  · show (keys.foldl State.addUser (s.frameTaken.setCtx k x)).ctx j = s.ctx j
    unfold State.ctx; rw [hdpu]
    exact (hctx j).trans (if_neg hj)
  · exact congrArg (fun y => y.flights) hdpu
  · exact congrArg (fun y => y.owed) hdpu
  · exact addUsers_slot keys (s.frameTaken.setCtx k x) hkeys j
  · show (keys.foldl State.addUser (s.frameTaken.setCtx k x)).sent ++ _ = s.sent ++ _
    rw [show (keys.foldl State.addUser (s.frameTaken.setCtx k x)).sent = s.sent from hadd.2 .sent (by decide)]
    exact rfl

end goes

/-! ### XFER_BLOCK (R79, R85 to R87) -/

/-- R79: what a frame on a context is answered before its context is looked up, and where that is not OPEN. -/
theorem transfer_none {s : State} {n g : Nat} (h : (s.ctx n).xfer = none ∨ (s.ctx n).generation ≠ g) : s.transfer n g = none := by
  unfold State.transfer
  by_cases hg : (s.ctx n).generation = g
  · exact (if_pos hg).trans (h.resolve_right (by simpa using hg))
  · exact if_neg hg

theorem transfer_some {s : State} {n g : Nat} {x : OpenContext} (hg : (s.ctx n).generation = g) (hx : (s.ctx n).xfer = some x) :
    s.transfer n g = some x := (if_pos hg).trans hx

/-- R86: the slot of the key of a block in a mode. -/
def State.blockKeySlot (s : State) (x : OpenContext) : Nat :=
  if x.mode = .overlay then 23 else s.blockSlot (x.range.getD 0) (x.first + x.nextIndex)

/-- R87: the answer to a block of a SHROUD context. -/
def OpenContext.shroudAnswer (x : OpenContext) (n g : Nat) : Body :=
  if x.direction = .read then .block n g x.nextIndex .zeros else .discarded n g x.nextIndex

/-- R85: the context of a block that is taken. -/
def State.blockTaken (s : State) (n : Nat) (x : OpenContext) : State :=
  s.setCtx n { s.ctx n with xfer := some { x with nextIndex := x.nextIndex + 1 } }

theorem takeBlock_shroud {s : State} {n g : Nat} {x : OpenContext} {data : Block} {rto : ReplyTo} (h : x.mode = .shroud) :
    s.takeBlock n g x data rto = (s.blockTaken n x).answer rto (x.shroudAnswer n g) := by
  obtain ⟨direction, range, first, count, nextIndex, mode, keyRefs, reply⟩ := x
  obtain rfl : mode = .shroud := h
  cases direction <;> exact rfl

theorem takeBlock_flies {s : State} {n g : Nat} {x : OpenContext} {data : Block} {rto : ReplyTo} (h : x.mode ≠ .shroud) :
    s.takeBlock n g x data rto = (s.blockTaken n x).fly n g x.nextIndex x (s.keyOf (s.blockKeySlot x)) data rto := by
  obtain ⟨direction, range, first, count, nextIndex, mode, keyRefs, reply⟩ := x
  cases mode with
  | shroud => exact absurd rfl h
  | overlay => exact rfl
  | clear => exact rfl

theorem coreStage_ne_done (s : State) : s.coreStage ≠ .done := by
  unfold State.coreStage
  split
  · decide
  · split <;> simp

theorem keyOf_copy {s : State} {k : Nat} {z : DataKey} (h : (s.slot k).copy = some z) : s.keyOf k = z := by
  simp only [State.keyOf, h]

/-- R86: the key slot of a block of a range. -/
theorem blockSlot_of_fields {s : State} {r b : Nat} {h : RangeFields} (hr : s.fields r = some h) :
    s.blockSlot r b = h.split.elim h.keySlot fun w => if b < w.watermark then w.newKey else h.keySlot := by
  cases hs : h.split with
  | none => simp only [State.blockSlot, hr, hs, Option.elim]
  | some w => simp only [State.blockSlot, hr, hs, Option.elim]

section block
variable {f : Hdr} {n g i : Nat} {data : Block} {s : State}

theorem xferBlock_goes (hp : (Instr.xferBlock f n g i data).passes s) :
    Goes (.xferBlock f n g i data) s (s.frameTaken.xferBlock n g i data (s.replyTo .data f.tag)) := by
  have hgo := goes_request (act := fun t rto => t.xferBlock n g i data rto) rfl hp fun _ => rfl
  rwa [begun_untagged (by decide)] at hgo

theorem xferBlock_answered (hp : (Instr.xferBlock f n g i data).passes s) {b : Body}
    (h : s.frameTaken.xferBlock n g i data (s.replyTo .data f.tag) = s.frameTaken.answer (s.replyTo .data f.tag) b) :
    Goes (.xferBlock f n g i data) s (s.answered .xferBlock f b) :=
  (xferBlock_goes hp).trans (congrArg done (h.trans (answer_untagged (ch := .data) (by decide) rfl b)))

variable (rto : ReplyTo) (hpower : s.sst.power ≠ .standby)
include hpower

theorem xferBlock_badField (h : 15 < n ∨ 255 < i) : s.xferBlock n g i data rto = s.refuse rto .badField :=
  (if_neg hpower).trans (if_pos h)

variable (hn : n ≤ 15) (hi : i ≤ 255)
include hn hi

theorem xferBlock_noContext (h : (s.ctx n).xfer = none ∨ (s.ctx n).generation ≠ g) :
    s.xferBlock n g i data rto = s.refuse rto .noContext := by
  refine (if_neg hpower).trans ((if_neg (by omega)).trans ?_)
  rw [transfer_none h]

theorem xferBlock_order {x : OpenContext} (hg : (s.ctx n).generation = g) (hx : (s.ctx n).xfer = some x)
    (h : i ≠ x.nextIndex ∨ x.count ≤ x.nextIndex) : s.xferBlock n g i data rto = s.refuse rto .order := by
  refine (if_neg hpower).trans ((if_neg (by omega)).trans ?_)
  rw [transfer_some hg hx]
  exact if_pos h

theorem xferBlock_taken {x : OpenContext} (hg : (s.ctx n).generation = g) (hx : (s.ctx n).xfer = some x)
    (h1 : i = x.nextIndex) (h2 : x.nextIndex < x.count) : s.xferBlock n g i data rto = s.takeBlock n g x data rto := by
  refine (if_neg hpower).trans ((if_neg (by omega)).trans ?_)
  rw [transfer_some hg hx]
  exact if_neg (by omega)

end block

end Sys2Proof.Machine

namespace Sys2Proof
open Machine

/-- Settles O40. -/
theorem xferOpenIsCheckedAndServesOverlay : Obligations.XferOpenIsCheckedAndServesOverlay := by
  intro f d first count s c refused fields overlay wrong hp hs
  have refuse : ∀ {st : Status} {det : List Nat}, s.frameTaken.openResult d first count = .refuse st det → refused st det :=
    fun h => xferOpen_refused hp h
  refine ⟨fun h => refuse (openResult_standby h), fun h hf => refuse (openResult_badField h hf), fun h hf => ?_⟩
  obtain ⟨hd, h1, h256, hfirst⟩ := hf
  have hfields := openResult_fields (s := s.frameTaken) h hd h1 h256 hfirst
  have hread : (if d = 1 then Direction.write else .read) = .read ↔ d = 0 := by
    match d with
    | 0 | 1 => decide
    | n + 2 => omega
  have hwrong : (s.btc.state = .erased ∧ ¬ ((if d = 1 then Direction.write else .read) = .read ∧ first < s.btc.imageSize)) ↔ wrong := by
    rw [hread]
  refine ⟨fun hw => refuse (hfields.trans (openFields_wrongState (hwrong.mpr hw))),
    fun hw hc => refuse (hfields.trans (openFields_outOfRange (fun k => hw (hwrong.mp k)) hc)), fun hw hc ho hi => ?_⟩
  have hoverlay := hfields.trans (openFields_overlay (fun k => hw (hwrong.mp k)) hc ((overlay_iff _).mpr ho) hi)
  refine ⟨fun hx => refuse (hoverlay.trans (if_pos hx)), fun hx hd1 hu => ?_, fun hx hmay => ?_⟩
  · exact refuse (hoverlay.trans ((if_neg (Nat.not_lt.mpr hx)).trans (if_pos ⟨if_pos hd1, hu⟩)))
  · have hmay' : ¬ ((if d = 1 then Direction.write else .read) = .write ∧ s.btc.unsealed = false) := by
      rintro ⟨hdir, hu⟩
      rcases hmay with rfl | hmay
      · cases hdir
      · rw [hu] at hmay; cases hmay
    have hopen := hoverlay.trans ((if_neg (Nat.not_lt.mpr hx)).trans (if_neg hmay'))
    constructor
    · intro hfull
      exact refuse (hopen.trans (if_pos (by rw [show s.frameTaken.freeContextNumber = _ from (freeContext_none s).mpr hfull]; rfl)))
    · intro hfree
      obtain ⟨k, hk⟩ := freeContext_exists hfree
      refine xferOpen_granted hp hs (hopen.trans (if_neg ?_)) hfree (by simp [hs.keySlots])
      rw [show s.frameTaken.freeContextNumber = _ from hk]
      exact Bool.false_ne_true

/-- Settles O41. -/
theorem xferOpenLooksUpItsRange : Obligations.XferOpenLooksUpItsRange := by
  intro f d first count s c refused overlay r full covers
  refine ⟨fun b h => rangeOf_none h, fun q b h1 h16 hq honly => rangeOf_covering h1 h16 hq honly, fun q b n => underChunk_iff s q b n, ?_⟩
  intro hp hs hpower hd h1 h256 hfirst herased hcap hover
  have refuse : ∀ {st : Status} {det : List Nat}, s.frameTaken.openResult d first count = .refuse st det → refused st det :=
    fun h => xferOpen_refused hp h
  have hspan : s.frameTaken.openResult d first count = s.openSpan (if d = 1 then .write else .read) first count :=
    (openResult_fields (s := s.frameTaken) hpower hd h1 h256 hfirst).trans
      (openFields_span (fun h => herased h.1) hcap fun h => hover ((overlay_iff _).mp h))
  refine ⟨fun i hi hne hbefore => refuse (hspan.trans (openSpan_crosses (crossing_some hi hne hbefore))), fun hsame => ?_⟩
  have hcross := crossing_none hsame
  refine ⟨fun h => refuse (hspan.trans (openSpan_tableDamaged hcross ((tableDamaged_iff s).mpr h))), fun hwhole => ?_⟩
  have htable : ¬ s.tableDamaged = true := fun h => by
    obtain ⟨q, hq, hdam⟩ := (tableDamaged_iff s).mp h
    exact hwhole q hq hdam
  refine ⟨fun h => refuse (hspan.trans (openSpan_held hcross htable (by simpa using h))), fun haff hchunk g hg => ?_⟩
  intro locked dir keys
  have hrange : s.frameTaken.openResult d first count = s.openRange dir r g first count :=
    hspan.trans (openSpan_enabled hcross htable (by simp [haff, hchunk, r]) hg)
  have hlocked : g.lockedFor dir = locked := by
    by_cases h : d = 1 <;> simp [dir, locked, h, RangeFields.lockedFor]
  have hkeys : spanSlots g first count = keys := rfl
  have free : ¬ full → ∃ k < 16, (s.ctx k).xfer = none := fun h => by simpa [full] using h
  refine ⟨fun hk => refuse (hrange.trans (openRange_keyLost hk)),
    fun hk hl hm => refuse (hrange.trans (openRange_locked hk (by rwa [hlocked]) hm)),
    fun hk hl hf => refuse (hrange.trans (openRange_noContext hk (by rwa [hlocked]) hf)), fun hk hl hm hf => ?_, fun hk hl hf hload => ?_,
    fun k hk hl hf hload => ⟨fun hdead => ?_, fun hlive => ?_⟩⟩
  · exact xferOpen_granted hp hs (hrange.trans ((openRange_open hk (.inr hm) (free hf)).trans (if_pos (by rwa [hlocked])))) (free hf) (by simp)
  all_goals
    have hopen := hrange.trans ((openRange_open hk (.inl (by rwa [hlocked])) (free hf)).trans (if_neg (by rw [hlocked, hl]; decide)))
  · cases hr : s.load r with
    | loaded k => exact absurd hr (hload k)
    | notLoaded => exact refuse (hopen.trans (by rw [hr]))
    | releasing k => exact refuse (hopen.trans (by rw [hr]))
  · rw [hload] at hopen
    refine refuse (hopen.trans (if_neg ?_))
    obtain ⟨x, hx, hstate⟩ := hdead
    rw [hkeys, List.all_eq_true]
    exact fun h => hstate (by simpa using h x hx)
  · rw [hload] at hopen
    refine xferOpen_granted hp hs (hopen.trans (if_pos ?_)) (free hf) fun x hx => slot_lt s x (by rw [hlive x hx]; decide)
    rw [hkeys, List.all_eq_true]
    exact fun x hx => by simpa using hlive x hx

/-- Settles O42. -/
theorem xferBlockIsTakenInOrder : Obligations.XferBlockIsTakenInOrder := by
  intro f n g i data s c refused hp hs
  have refuse : ∀ {st : Status}, s.frameTaken.xferBlock n g i data (s.replyTo .data f.tag) =
      s.frameTaken.refuse (s.replyTo .data f.tag) st → refused st := fun h => xferBlock_answered hp h
  refine ⟨fun h => refuse (if_pos h), fun h hb => refuse (xferBlock_badField _ h hb),
    fun h hn hi hx => refuse (xferBlock_noContext (s := s.frameTaken) _ h hn hi hx), fun x h hn hi hg hx =>
      ⟨fun ho => refuse (xferBlock_order (s := s.frameTaken) _ h hn hi hg hx ho), ?_⟩⟩
  rintro rfl hcount
  have hgo := xferBlock_goes hp
  rw [xferBlock_taken (s := s.frameTaken) _ h hn hi hg hx rfl hcount] at hgo
  let y : Context := { s.ctx n with xfer := some { x with nextIndex := x.nextIndex + 1 } }
  have hctx : ∀ j, (s.frameTaken.setCtx n y).ctx j = if j = n then y else s.ctx j := fun j =>
    ctx_setCtx s.frameTaken n j y (by rw [show s.frameTaken.dpu = s.dpu from rfl, hs.contexts]; omega)
  have hframe : ∀ u : State, u = { s.frameTaken.setCtx n y with dpu := u.dpu, sent := u.sent } → Framed [.bursts, .data, .sent] s u :=
    fun u hu => ⟨by rw [hu]; exact rfl, fun q hq => by rw [hu]; cases q <;> simp_all [Piece.same, State.setCtx, State.frameTaken]⟩
  by_cases hm : x.mode = .shroud
  · rw [takeBlock_shroud hm, answer_untagged (ch := .data) (by decide) (by exact rfl)] at hgo
    refine ⟨_, hgo, hframe _ rfl, (hctx n).trans (if_pos rfl), fun j hj => (hctx j).trans (if_neg hj), rfl, rfl, fun _ => ⟨rfl, rfl⟩,
      fun h => absurd hm h⟩
  · rw [takeBlock_flies hm] at hgo
    refine ⟨_, hgo, hframe _ rfl, (hctx n).trans (if_pos rfl), fun j hj => (hctx j).trans (if_neg hj), rfl, rfl, fun h => absurd h hm,
      fun _ => ⟨rfl, _, rfl, rfl, rfl, rfl, rfl, rfl, rfl, rfl, coreStage_ne_done _, rfl, fun q k hclear hq hk => ?_, fun z ho hz => ?_⟩⟩
    · have hslot : s.blockKeySlot x = s.blockSlot q (x.first + x.nextIndex) := by
        unfold State.blockKeySlot
        rw [if_neg (by rw [hclear]; decide), hq]
        exact rfl
      intro slot
      have hkey : slot = s.blockKeySlot x := by
        rw [hslot, blockSlot_of_fields hk]
        dsimp only [slot]
        cases k.split with
        | none => exact rfl
        | some w => exact rfl
      rw [hkey]
      exact ⟨rfl, fun z hz => congrArg some (keyOf_copy hz)⟩
    · have hslot : s.blockKeySlot x = 23 := if_pos ho
      exact congrArg some ((congrArg s.keyOf hslot).trans (keyOf_copy hz))

end Sys2Proof

/-! XFER_CLOSE (O43; R79, R89) and the end of references on key slots that it brings (R28, R30, R34). -/

namespace Sys2Proof.Machine

/-! ### One reference fewer on a slot (R28, R30) -/

/-- R30: a RETIRING slot without users loses its copy, and its erasure is due. -/
def KeySlot.settled (x : KeySlot) : KeySlot :=
  if x.state = .retiring ∧ x.users = 0 ∧ x.erasing = false then { x with copy := none, erasing := true } else x

theorem settleSlot_slot (s : State) (k j : Nat) : (s.settleSlot k).slot j = if j = k then (s.slot j).settled else s.slot j := by
  unfold State.settleSlot KeySlot.settled
  by_cases h : (s.slot k).state = .retiring ∧ (s.slot k).users = 0 ∧ (s.slot k).erasing = false
  · have hk : k < s.kst.slots.length := slot_lt s k (by rw [h.1]; decide)
    rw [if_pos h]
    simp only [State.slot, State.write_frame]
    by_cases hj : j = k
    · subst hj
      exact ((slot_mapSlot s j j _).trans (if_pos ⟨rfl, hk⟩)).trans ((if_pos rfl).trans (if_pos h)).symm
    · exact ((slot_mapSlot s k j _).trans (if_neg fun e => hj e.1)).trans (if_neg hj).symm
  · rw [if_neg h]
    by_cases hj : j = k
    · subst hj
      exact ((if_pos rfl).trans (if_neg h)).symm
    · exact (if_neg hj).symm

/-- R28, R30: a reference on slot k ends, without what follows for its range. -/
def State.lessUser (s : State) (k : Nat) : State := (s.mapSlot k (fun x => { x with users := x.users - 1 })).settleSlot k

theorem slot_fewer (s : State) (k j : Nat) : (s.mapSlot k (fun x => { x with users := x.users - 1 })).slot j =
    { s.slot j with users := (s.slot j).users - [k].count j } := by
  rw [slot_mapSlot]
  by_cases hj : j = k
  · subst hj
    by_cases hlt : j < s.kst.slots.length
    · rw [if_pos ⟨rfl, hlt⟩]
      simp
    · have hblank : s.slot j = .blank := by simp [State.slot, List.getElem?_eq_none (Nat.le_of_not_lt hlt)]
      rw [if_neg fun h => hlt h.2, hblank]
      simp [KeySlot.blank]
  · rw [if_neg fun h => hj h.1, List.count_cons_of_ne (Ne.symm hj)]
    exact rfl

theorem lessUser_slot (s : State) (k j : Nat) : (s.lessUser k).slot j =
    if j = k then ({ s.slot j with users := (s.slot j).users - 1 } : KeySlot).settled else s.slot j := by
  unfold State.lessUser
  rw [settleSlot_slot, slot_fewer]
  by_cases hj : j = k
  · subst hj; simp
  · rw [if_neg hj, if_neg hj, List.count_cons_of_ne (Ne.symm hj)]
    exact rfl

/-- R30: where the slot settles, its erasure is placed. -/
theorem lessUser_erases {s : State} {k : Nat} (h : (s.slot k).state = .retiring ∧ (s.slot k).users - 1 = 0 ∧ (s.slot k).erasing = false) :
    (s.lessUser k).holds (.key k) (.key .blank) (.erased k) := by
  have hslot : (s.mapSlot k (fun x => { x with users := x.users - 1 })).slot k = { s.slot k with users := (s.slot k).users - 1 } :=
    (slot_fewer s k k).trans (by simp)
  have hk : k < s.kst.slots.length := slot_lt s k (by rw [h.1]; decide)
  unfold State.lessUser State.settleSlot
  rw [hslot, if_pos h]
  have hrecord : ((s.mapSlot k (fun x => { x with users := x.users - 1 })).mapSlot k (fun x => { x with copy := none, erasing := true })).recordOf (.key k) =
      .key .blank := by
    have herasing : (((s.mapSlot k (fun x => { x with users := x.users - 1 })).mapSlot k
        (fun x => { x with copy := none, erasing := true })).slot k).erasing = true := by
      rw [slot_mapSlot, if_pos ⟨rfl, by simpa [State.mapSlot] using hk⟩]
    exact if_pos herasing
  exact hrecord ▸ place_holds _ _ _ _ _ (List.mem_singleton_self _)

theorem lessUser_holds_other {s : State} {k j : Nat} (hj : j ≠ k) {c : Record} {w : Waiter} (h : s.holds (.key j) c w) :
    (s.lessUser k).holds (.key j) c w := by
  unfold State.lessUser State.settleSlot
  split
  · exact place_holds_other _ _ _ _ _ _ _ (by simpa using Ne.symm hj) h
  · exact h

theorem lessUser_holds_idle {s : State} {k : Nat} (h : (s.slot k).erasing = true) {u : StoreUnit} {c : Record} {w : Waiter}
    (hh : s.holds u c w) : (s.lessUser k).holds u c w := by
  have hslot : (s.mapSlot k (fun x => { x with users := x.users - 1 })).slot k = { s.slot k with users := (s.slot k).users - 1 } :=
    (slot_fewer s k k).trans (by simp)
  unfold State.lessUser State.settleSlot
  rw [hslot, if_neg (by simp [h])]
  exact hh

theorem lessUser_load (s : State) (k r : Nat) : (s.lessUser k).load r = s.load r := by
  unfold State.lessUser State.load
  simp [State.mapSlot]

theorem lessUser_same (s : State) (k : Nat) : (s.lessUser k).kst.hold = s.kst.hold ∧ (s.lessUser k).rtb = s.rtb := by
  unfold State.lessUser
  simp [State.mapSlot]

theorem dropUser_eq (s : State) (k : Nat) : s.dropUser k = match (s.slot k).owner with
    | some r => (s.lessUser k).settleRange r
    | none => s.lessUser k := rfl

/-! ### The end of a list of references (R28, R30, R34) -/

/-- The users of a slot once a list of references has ended. -/
def State.usersLeft (s : State) (ks : List Nat) (j : Nat) : Nat := (s.slot j).users - ks.count j

/-- R30: the slots that a list of references leaves to be erased. -/
def State.ErasedBy (s : State) (ks : List Nat) (j : Nat) : Prop :=
  j ∈ ks ∧ (s.slot j).state = .retiring ∧ (s.slot j).erasing = false ∧ s.usersLeft ks j = 0

/-- R34: the RELEASING ranges that a list of references leaves without a holder. -/
def State.LeftBy (s : State) (ks : List Nat) (r : Nat) : Prop :=
  (∃ y, s.load r = .releasing y) ∧ (∃ k ∈ ks, (s.slot k).owner = some r) ∧ (∀ h, s.kst.hold = some h → h.range ≠ r) ∧
    ∀ k ∈ s.namedSlots r, (s.slot k).owner = some r → s.usersLeft ks k = 0

/-- What the end of a list of references does to the slots and the loads. -/
structure RefsEnded (s t : State) (ks : List Nat) : Prop where
  slots : ∀ j, t.slot j = { s.slot j with users := s.usersLeft ks j, copy := (t.slot j).copy, erasing := (t.slot j).erasing }
  erased : ∀ j, s.ErasedBy ks j →
    (t.slot j).copy = none ∧ (t.slot j).erasing = true ∧ t.holds (.key j) (.key .blank) (.erased j)
  erasing : ∀ j, ¬ s.ErasedBy ks j → (t.slot j).erasing = (s.slot j).erasing
  left : ∀ r, s.LeftBy ks r →
    t.load r = .notLoaded ∧ ∀ k < 23, (s.slot k).state = .live → (s.slot k).owner = some r → (t.slot k).copy = none
  loads : ∀ r, ¬ s.LeftBy ks r → t.load r = s.load r
  copies : ∀ j, ¬ s.ErasedBy ks j → (∀ r, (s.slot j).owner = some r → ¬ s.LeftBy ks r) → (t.slot j).copy = (s.slot j).copy
  hold : t.kst.hold = s.kst.hold
  table : t.rtb = s.rtb

theorem refsEnded_nil (s : State) : RefsEnded s s [] where
  slots _ := rfl
  erased j h := absurd h.1 (by simp)
  erasing _ _ := rfl
  left r h := by
    obtain ⟨-, ⟨k, hk, -⟩, -⟩ := h
    exact absurd hk (by simp)
  loads _ _ := rfl
  copies _ _ _ := rfl
  hold := rfl
  table := rfl

theorem usersLeft_concat (s : State) (ks : List Nat) (k j : Nat) :
    s.usersLeft (ks ++ [k]) j = s.usersLeft ks j - if j = k then 1 else 0 := by
  unfold State.usersLeft
  rw [List.count_append, Nat.sub_add_eq]
  by_cases hj : j = k
  · subst hj; simp
  · rw [if_neg hj, List.count_cons_of_ne (Ne.symm hj)]
    exact rfl

theorem usersLeft_other {s : State} {ks : List Nat} {k j : Nat} (h : j ≠ k) : s.usersLeft (ks ++ [k]) j = s.usersLeft ks j := by
  rw [usersLeft_concat, if_neg h, Nat.sub_zero]

theorem usersLeft_zero {s : State} {ks : List Nat} {k j : Nat} (h : s.usersLeft ks j = 0) : s.usersLeft (ks ++ [k]) j = 0 := by
  rw [usersLeft_concat, h, Nat.zero_sub]

theorem erasedBy_concat {s : State} {ks : List Nat} {j : Nat} (k : Nat) (h : s.ErasedBy ks j) : s.ErasedBy (ks ++ [k]) j := by
  obtain ⟨hmem, hstate, herasing, hleft⟩ := h
  exact ⟨List.mem_append_left _ hmem, hstate, herasing, usersLeft_zero hleft⟩

theorem erasedBy_other {s : State} {ks : List Nat} {k j : Nat} (hj : j ≠ k) (h : s.ErasedBy (ks ++ [k]) j) : s.ErasedBy ks j := by
  obtain ⟨hmem, hstate, herasing, hleft⟩ := h
  refine ⟨(List.mem_append.mp hmem).resolve_right (by simpa using hj), hstate, herasing, ?_⟩
  rwa [usersLeft_other hj] at hleft

theorem leftBy_concat {s : State} {ks : List Nat} {r : Nat} (k : Nat) (h : s.LeftBy ks r) : s.LeftBy (ks ++ [k]) r := by
  obtain ⟨hload, ⟨x, hx, howner⟩, hhold, husers⟩ := h
  exact ⟨hload, ⟨x, List.mem_append_left _ hx, howner⟩, hhold, fun y hy ho => usersLeft_zero (husers y hy ho)⟩

/-- A range is left by the last reference on one of its own slots. -/
theorem leftBy_other {s : State} {ks : List Nat} {k r : Nat} (hk : (s.slot k).owner ≠ some r) (h : s.LeftBy (ks ++ [k]) r) : s.LeftBy ks r := by
  obtain ⟨hload, ⟨x, hx, howner⟩, hhold, husers⟩ := h
  have hne : ∀ y, (s.slot y).owner = some r → y ≠ k := fun y hy e => hk (e ▸ hy)
  refine ⟨hload, ⟨x, (List.mem_append.mp hx).resolve_right (by simpa using hne x howner), howner⟩, hhold, fun y hy ho => ?_⟩
  have := husers y hy ho
  rwa [usersLeft_other (hne y ho)] at this

section step
variable {s t : State} {ks : List Nat} {k : Nat} (h : RefsEnded s t ks)
include h

theorem RefsEnded.fields (j : Nat) : (t.slot j).state = (s.slot j).state ∧ (t.slot j).owner = (s.slot j).owner ∧
    (t.slot j).users = s.usersLeft ks j := by
  rw [h.slots j]
  exact ⟨rfl, rfl, rfl⟩

/-- The slot settles exactly where the reference that ends leaves it to be erased. -/
theorem RefsEnded.settles_iff : ((t.slot k).state = .retiring ∧ (t.slot k).users - 1 = 0 ∧ (t.slot k).erasing = false) ↔
    s.ErasedBy (ks ++ [k]) k ∧ ¬ s.ErasedBy ks k := by
  obtain ⟨hstate, -, husers⟩ := h.fields k
  have hleft : s.usersLeft (ks ++ [k]) k = s.usersLeft ks k - 1 := by rw [usersLeft_concat, if_pos rfl]
  rw [hstate, husers, ← hleft]
  constructor
  · rintro ⟨h1, h2, h3⟩
    have hno : ¬ s.ErasedBy ks k := fun he => by
      rw [(h.erased k he).2.1] at h3; cases h3
    exact ⟨⟨by simp, h1, (h.erasing k hno).symm.trans h3, h2⟩, hno⟩
  · rintro ⟨⟨-, h1, h3, h2⟩, hno⟩
    exact ⟨h1, h2, (h.erasing k hno).trans h3⟩

/-- The slots after one reference more has ended, before the range of its key settles. -/
theorem RefsEnded.lessUser_slots (j : Nat) : (t.lessUser k).slot j = { t.slot j with
    users := s.usersLeft (ks ++ [k]) j
    copy := ((t.lessUser k).slot j).copy, erasing := ((t.lessUser k).slot j).erasing } := by
  have husers := (h.fields j).2.2
  rw [lessUser_slot, usersLeft_concat, ← husers]
  by_cases hj : j = k
  · rw [if_pos hj, if_pos hj]
    unfold KeySlot.settled
    split <;> exact rfl
  · rw [if_neg hj, if_neg hj]
    exact rfl

theorem RefsEnded.lessUser_erased (j : Nat) (he : s.ErasedBy (ks ++ [k]) j) : ((t.lessUser k).slot j).copy = none ∧
    ((t.lessUser k).slot j).erasing = true ∧ (t.lessUser k).holds (.key j) (.key .blank) (.erased j) := by
  rw [lessUser_slot]
  by_cases hj : j = k
  · subst hj
    rw [if_pos rfl]
    by_cases hold : s.ErasedBy ks j
    · obtain ⟨hcopy, herasing, hholds⟩ := h.erased j hold
      unfold KeySlot.settled
      rw [if_neg (by simp [herasing])]
      exact ⟨hcopy, herasing, lessUser_holds_idle herasing hholds⟩
    · have hsettles := h.settles_iff.mpr ⟨he, hold⟩
      unfold KeySlot.settled
      rw [if_pos hsettles]
      exact ⟨rfl, rfl, lessUser_erases hsettles⟩
  · obtain ⟨hcopy, herasing, hholds⟩ := h.erased j (erasedBy_other hj he)
    rw [if_neg hj]
    exact ⟨hcopy, herasing, lessUser_holds_other hj hholds⟩

theorem RefsEnded.lessUser_kept (j : Nat) (he : ¬ s.ErasedBy (ks ++ [k]) j) :
    ((t.lessUser k).slot j).copy = (t.slot j).copy ∧ ((t.lessUser k).slot j).erasing = (t.slot j).erasing := by
  rw [lessUser_slot]
  by_cases hj : j = k
  · subst hj
    rw [if_pos rfl]
    unfold KeySlot.settled
    rw [if_neg fun hs => he (h.settles_iff.mp hs).1]
    exact ⟨rfl, rfl⟩
  · rw [if_neg hj]
    exact ⟨rfl, rfl⟩

theorem RefsEnded.lessUser_holders (r : Nat) : (t.lessUser k).hasHolders r = true ↔
    (∃ x, s.kst.hold = some x ∧ x.range = r) ∨
      ∃ j ∈ s.namedSlots r, (s.slot j).owner = some r ∧ 0 < s.usersLeft (ks ++ [k]) j := by
  obtain ⟨hhold, htable⟩ := lessUser_same t k
  rw [State.hasHolders_iff, hhold, h.hold]
  have hnamed : (t.lessUser k).namedSlots r = s.namedSlots r := by
    unfold State.namedSlots State.fields State.entry
    rw [htable, h.table]
  have howner : ∀ j, (t.lessUser k).owns r j = true ↔ (s.slot j).owner = some r := fun j => by
    unfold State.owns
    rw [h.lessUser_slots j, beq_iff_eq]
    exact iff_of_eq (congrArg (· = some r) (h.fields j).2.1)
  have husers : ∀ j, ((t.lessUser k).slot j).users = s.usersLeft (ks ++ [k]) j := fun j => by rw [h.lessUser_slots j]
  rw [hnamed]
  simp only [howner, husers]

/-- R34: the range of the slot's key goes NOT_LOADED exactly where this reference was its last holder. -/
theorem RefsEnded.dropUser_cases :
    (∀ r, (s.slot k).owner = some r → s.LeftBy (ks ++ [k]) r → ¬ s.LeftBy ks r → t.dropUser k = (t.lessUser k).dropRange r) ∧
    ((∀ r, (s.slot k).owner = some r → s.LeftBy (ks ++ [k]) r → s.LeftBy ks r) → t.dropUser k = t.lessUser k) := by
  have howner := (h.fields k).2.1
  constructor
  · intro r hr hleft hnot
    rw [dropUser_eq, howner, hr]
    obtain ⟨⟨y, hy⟩, -, hhold, husers⟩ := hleft
    have hload : (t.lessUser k).load r = .releasing y := by rw [lessUser_load, h.loads r hnot, hy]
    have hno : ¬ (t.lessUser k).hasHolders r = true := fun hh => by
      rcases (h.lessUser_holders r).mp hh with ⟨x, hx, hxr⟩ | ⟨j, hj, hjo, hpos⟩
      · exact hhold x hx hxr
      · have := husers j hj hjo
        omega
    show (t.lessUser k).settleRange r = _
    unfold State.settleRange
    rw [hload]
    exact if_neg hno
  · intro hstays
    rw [dropUser_eq, howner]
    cases ho : (s.slot k).owner with
    | none => exact rfl
    | some r =>
      show (t.lessUser k).settleRange r = _
      unfold State.settleRange
      cases hload : (t.lessUser k).load r with
      | notLoaded => exact rfl
      | loaded y => exact rfl
      | releasing y =>
        refine if_pos ?_
        rw [lessUser_load] at hload
        have hnot : ¬ s.LeftBy ks r := fun hl => by
          rw [(h.left r hl).1] at hload; cases hload
        rw [h.loads r hnot] at hload
        by_contra hno
        refine hnot (hstays r ho ⟨⟨y, hload⟩, ⟨k, by simp, ho⟩, fun x hx hxr => hno ((h.lessUser_holders r).mpr (.inl ⟨x, hx, hxr⟩)),
          fun j hj hjo => ?_⟩)
        by_contra hpos
        exact hno ((h.lessUser_holders r).mpr (.inr ⟨j, hj, hjo, Nat.pos_of_ne_zero hpos⟩))

/-- The end of one reference more, where it leaves no range without a holder. -/
theorem RefsEnded.step_keeps (hstays : ∀ r, (s.slot k).owner = some r → s.LeftBy (ks ++ [k]) r → s.LeftBy ks r) :
    RefsEnded s (t.lessUser k) (ks ++ [k]) := by
  obtain ⟨hhold, htable⟩ := lessUser_same t k
  have hleft : ∀ r, s.LeftBy (ks ++ [k]) r → s.LeftBy ks r := fun r hl => by
    by_cases ho : (s.slot k).owner = some r
    · exact hstays r ho hl
    · exact leftBy_other ho hl
  refine ⟨fun j => ?_, h.lessUser_erased, fun j he => ?_, fun r hl => ?_, fun r hl => ?_, fun j he hr => ?_, hhold.trans h.hold, htable.trans h.table⟩
  · rw [h.lessUser_slots j, h.slots j]
  · rw [(h.lessUser_kept j he).2, h.erasing j fun hh => he (erasedBy_concat k hh)]
  · obtain ⟨hload, hcopies⟩ := h.left r (hleft r hl)
    refine ⟨by rw [lessUser_load, hload], fun j hj hlive ho => ?_⟩
    have hno : ¬ s.ErasedBy (ks ++ [k]) j := fun he => by
      rw [he.2.1] at hlive; cases hlive
    rw [(h.lessUser_kept j hno).1, hcopies j hj hlive ho]
  · rw [lessUser_load, h.loads r fun hh => hl (leftBy_concat k hh)]
  · rw [(h.lessUser_kept j he).1, h.copies j (fun hh => he (erasedBy_concat k hh)) fun r ho hh => hr r ho (leftBy_concat k hh)]

/-- The end of one reference more, where it leaves range r without a holder. -/
theorem RefsEnded.step_drops {r : Nat} (ho : (s.slot k).owner = some r) (hl : s.LeftBy (ks ++ [k]) r) (hnot : ¬ s.LeftBy ks r) :
    RefsEnded s ((t.lessUser k).dropRange r) (ks ++ [k]) := by
  obtain ⟨hhold, htable⟩ := lessUser_same t k
  have hload : (t.lessUser k).load r ≠ .notLoaded := by
    obtain ⟨⟨y, hy⟩, -⟩ := hl
    rw [lessUser_load, h.loads r hnot, hy]
    simp
  have howned : ∀ j, j ∈ (t.lessUser k).ownedSlots r ↔ j < 23 ∧ (s.slot j).state = .live ∧ (s.slot j).owner = some r := fun j => by
    have hstate : ((t.lessUser k).slot j).state = (s.slot j).state := by
      rw [h.lessUser_slots j]; exact (h.fields j).1
    have howner : ((t.lessUser k).slot j).owner = (s.slot j).owner := by
      rw [h.lessUser_slots j]; exact (h.fields j).2.1
    simp [State.ownedSlots, State.owns, hstate, howner]
  have hslot : ∀ j, ((t.lessUser k).dropRange r).slot j = { (t.lessUser k).slot j with
      copy := if j < 23 ∧ (s.slot j).state = .live ∧ (s.slot j).owner = some r then none else ((t.lessUser k).slot j).copy } := fun j => by
    rw [State.dropRange_slot]
    by_cases hj : j < 23 ∧ (s.slot j).state = .live ∧ (s.slot j).owner = some r
    · rw [if_pos ((howned j).mpr hj), if_pos hj]
    · rw [if_neg (mt (howned j).mp hj), if_neg hj]
  have hother : ∀ q, s.LeftBy (ks ++ [k]) q → q ≠ r → s.LeftBy ks q := fun q hq hne =>
    leftBy_other (by rw [ho]; simpa using Ne.symm hne) hq
  have hdead : ∀ j, s.ErasedBy (ks ++ [k]) j → ¬ (s.slot j).state = .live := fun j he hlive => by
    rw [he.2.1] at hlive; cases hlive
  refine ⟨fun j => ?_, fun j he => ?_, fun j he => ?_, fun q hq => ?_, fun q hq => ?_, fun j he hr => ?_, ?_, ?_⟩
  · rw [hslot, h.lessUser_slots j, h.slots j]
  · obtain ⟨hcopy, herasing, hholds⟩ := h.lessUser_erased j he
    rw [hslot]
    refine ⟨(if_neg fun hj => hdead j he hj.2.1).trans hcopy, herasing, ?_⟩
    exact (holds_of_eq (by simp) (by simp) (by simp) _ _ _).mpr hholds
  · rw [hslot]
    exact (h.lessUser_kept j he).2.trans (h.erasing j fun hh => he (erasedBy_concat k hh))
  · have hload' := State.dropRange_load (t.lessUser k) r q hload
    by_cases hqr : q = r
    · subst hqr
      rw [if_pos rfl] at hload'
      refine ⟨hload', fun j hj hlive hjo => ?_⟩
      rw [hslot]
      exact if_pos ⟨hj, hlive, hjo⟩
    · obtain ⟨hnl, hcopies⟩ := h.left q (hother q hq hqr)
      rw [if_neg hqr] at hload'
      refine ⟨hload'.trans ((lessUser_load t k q).trans hnl), fun j hj hlive hjo => ?_⟩
      have hno : ¬ s.ErasedBy (ks ++ [k]) j := fun he => hdead j he hlive
      rw [hslot]
      refine (if_neg fun hh => hqr ?_).trans ((h.lessUser_kept j hno).1.trans (hcopies j hj hlive hjo))
      exact Option.some.inj (hjo.symm.trans hh.2.2)
  · have hqr : q ≠ r := fun e => hq (e ▸ hl)
    rw [State.dropRange_load _ _ _ hload, if_neg hqr, lessUser_load, h.loads q fun hh => hq (leftBy_concat k hh)]
  · rw [hslot]
    refine (if_neg fun hh => hr r hh.2.2 hl).trans ((h.lessUser_kept j he).1.trans ?_)
    exact h.copies j (fun hh => he (erasedBy_concat k hh)) fun q hq hh => hr q hq (leftBy_concat k hh)
  · simp [hhold, h.hold]
  · simp [htable, h.table]

theorem RefsEnded.dropUser : RefsEnded s (t.dropUser k) (ks ++ [k]) := by
  obtain ⟨hdrops, hkeeps⟩ := h.dropUser_cases (k := k)
  by_cases hcase : ∃ r, (s.slot k).owner = some r ∧ s.LeftBy (ks ++ [k]) r ∧ ¬ s.LeftBy ks r
  · obtain ⟨r, ho, hl, hnot⟩ := hcase
    rw [hdrops r ho hl hnot]
    exact h.step_drops ho hl hnot
  · have hstays : ∀ r, (s.slot k).owner = some r → s.LeftBy (ks ++ [k]) r → s.LeftBy ks r := fun r ho hl => by
      by_contra hnot
      exact hcase ⟨r, ho, hl, hnot⟩
    rw [hkeeps hstays]
    exact h.step_keeps hstays

end step

/-- R28, R30, R34: the end of a list of references. -/
theorem refsEnded_foldl (s : State) (ks : List Nat) : RefsEnded s (ks.foldl State.dropUser s) ks := by
  induction ks using List.reverseRecOn with
  | nil => exact refsEnded_nil s
  | append_singleton ks k ih =>
    rw [List.foldl_append]
    exact ih.dropUser

/-! ### What else the end of references touches -/

theorem mapSlot_framed (s : State) (k : Nat) (g : KeySlot → KeySlot) : Framed [.keySlots] s (s.mapSlot k g) :=
  ⟨rfl, fun q hq => by cases q <;> simp_all [Piece.same, State.mapSlot]⟩

theorem lessUser_framed (s : State) (k : Nat) : Framed [.keySlots, .writes] s (s.lessUser k) := by
  unfold State.lessUser State.settleSlot
  split
  · exact ((mapSlot_framed ..).trans ((mapSlot_framed ..).trans (write_framed ..))).mono (by decide)
  · exact (mapSlot_framed ..).mono (by decide)

theorem dropRange_framed (s : State) (r : Nat) : Framed [.keySlots, .loads] s (s.dropRange r) := by
  have hcopies : ∀ (l : List Nat) (t : State),
      Framed [.keySlots] t (l.foldl (fun t k => t.mapSlot k (fun x => { x with copy := none })) t) := fun l => by
    induction l with
    | nil => exact fun t => Framed.refl _ t
    | cons k l ih => exact fun t => ((mapSlot_framed ..).trans (ih _)).mono (by decide)
  have hload : ∀ t : State, Framed [.loads] t (t.setLoad r .notLoaded) := fun t =>
    ⟨rfl, fun q hq => by cases q <;> simp_all [Piece.same, State.setLoad]⟩
  exact (hcopies _ s).trans (hload _)

theorem settleRange_framed (s : State) (r : Nat) : Framed [.keySlots, .loads] s (s.settleRange r) := by
  unfold State.settleRange
  split
  · split
    · exact Framed.refl _ s
    · exact dropRange_framed s r
  · exact Framed.refl _ s

theorem dropUser_framed (s : State) (k : Nat) : Framed [.keySlots, .loads, .writes] s (s.dropUser k) := by
  rw [dropUser_eq]
  split
  · exact ((lessUser_framed s k).trans (settleRange_framed ..)).mono (by decide)
  · exact (lessUser_framed s k).mono (by decide)

theorem dropUser_only (s : State) (k : Nat) : WritesOnly [.key k] s (s.dropUser k) := by
  have hless : WritesOnly [.key k] s (s.lessUser k) := by
    unfold State.lessUser State.settleSlot
    split
    · exact WritesOnly.trans (us := []) (writesOnly_of_eq rfl rfl rfl _) (write_only _ _ _)
    · exact writesOnly_of_eq rfl rfl rfl _
  rw [dropUser_eq]
  split
  · exact hless.trans (us := [.key k]) (vs := []) (writesOnly_of_eq (by simp) (by simp) (by simp) _)
  · exact hless

theorem dropUsers_framed (ks : List Nat) (s : State) : Framed [.keySlots, .loads, .writes] s (ks.foldl State.dropUser s) := by
  induction ks generalizing s with
  | nil => exact Framed.refl _ s
  | cons k ks ih => exact ((dropUser_framed s k).trans (ih _)).mono (by decide)

theorem dropUsers_only (ks : List Nat) (s : State) : WritesOnly (ks.map StoreUnit.key) s (ks.foldl State.dropUser s) := by
  induction ks generalizing s with
  | nil => exact WritesOnly.refl _ _
  | cons k ks ih => exact (dropUser_only s k).trans (ih _)

/-! ### XFER_CLOSE (R79, R89) -/

theorem freeContext_eq {s : State} {n : Nat} {x : OpenContext} (h : (s.ctx n).xfer = some x) :
    s.freeContext n = x.keyRefs.foldl State.dropUser (s.setCtx n { s.ctx n with xfer := none }) := by
  unfold State.freeContext
  rw [h]

/-- R88, R89: what the DPU owes on a context that ended, where a reply of its own is not a notice of an abort. -/
theorem owe_status (s : State) (n g : Nat) (rto : ReplyTo) (st : Status) (det : List Nat) :
    (s.inFlight n g = false → s.owe n g rto (.status st det) = s.answer rto (.status st det)) ∧
    (s.inFlight n g = true → s.owe n g rto (.status st det) = { s with dpu := { s.dpu with
      owed := s.dpu.owed ++ [{ context := n, generation := g, body := .status st det, rto := rto }] } }) :=
  ⟨fun h => if_neg (by simp [h]), fun h => if_pos h⟩

/-- R88, R89: what is owed goes out at once, or behind the blocks still in flight. -/
theorem owe_answered {s : State} (v : State) (hsession : v.lif.session = s.lif.session) (n g tag : Nat) (st : Status) (det : List Nat) :
    ∃ t, v.owe n g (s.replyTo .data tag) (.status st det) = t ∧ Framed [.data, .sent] v t ∧ t.kst = v.kst ∧ t.sst = v.sst ∧
      t.dpu.contexts = v.dpu.contexts ∧ t.dpu.flights = v.dpu.flights ∧
      (v.inFlight n g = false → t.dpu.owed = v.dpu.owed ∧ t.sent = v.sent ++ [frame .data tag (.status st det)]) ∧
      (v.inFlight n g = true → t.dpu.owed =
        v.dpu.owed ++ [{ context := n, generation := g, body := .status st det, rto := s.replyTo .data tag }] ∧ t.sent = v.sent) := by
  obtain ⟨hnow, hlater⟩ := owe_status v n g (s.replyTo .data tag) st det
  cases hf : v.inFlight n g with
  | false =>
    rw [hnow hf, answer_untagged (ch := .data) (by decide) hsession]
    exact ⟨_, rfl, ⟨rfl, fun q hq => by cases q <;> simp_all [Piece.same, State.send]⟩, rfl, rfl, rfl, rfl, fun _ => ⟨rfl, rfl⟩,
      fun h => absurd h (by decide)⟩
  | true =>
    rw [hlater hf]
    exact ⟨_, rfl, ⟨rfl, fun q hq => by cases q <;> simp_all [Piece.same]⟩, rfl, rfl, rfl, rfl, fun h => absurd h (by decide),
      fun _ => ⟨rfl, rfl⟩⟩

section close
variable {f : Hdr} {n g : Nat} {s : State}

theorem xferClose_goes (hp : (Instr.xferClose f n g).passes s) :
    Goes (.xferClose f n g) s (s.frameTaken.xferClose n g (s.replyTo .data f.tag)) := by
  have hgo := goes_request (act := fun t rto => t.xferClose n g rto) rfl hp fun _ => rfl
  rwa [begun_untagged (by decide)] at hgo

theorem xferClose_refused (hp : (Instr.xferClose f n g).passes s) {st : Status}
    (h : s.frameTaken.xferClose n g (s.replyTo .data f.tag) = s.frameTaken.refuse (s.replyTo .data f.tag) st) :
    Goes (.xferClose f n g) s (s.answered .xferClose f (.status st [])) :=
  (xferClose_goes hp).trans (congrArg done (h.trans (answer_untagged (ch := .data) (by decide) rfl _)))

variable (rto : ReplyTo) (hpower : s.sst.power ≠ .standby)
include hpower

theorem xferClose_badField (h : 15 < n) : s.xferClose n g rto = s.refuse rto .badField := (if_neg hpower).trans (if_pos h)

variable (hn : n ≤ 15)
include hn

theorem xferClose_noContext (h : (s.ctx n).xfer = none ∨ (s.ctx n).generation ≠ g) : s.xferClose n g rto = s.refuse rto .noContext := by
  refine (if_neg hpower).trans ((if_neg (by omega)).trans ?_)
  rw [transfer_none h]

theorem xferClose_closes {x : OpenContext} (hg : (s.ctx n).generation = g) (hx : (s.ctx n).xfer = some x) :
    s.xferClose n g rto = ((s.freeContext n).owe n g rto (.status .ok [x.nextIndex])).settleDrain := by
  refine (if_neg hpower).trans ((if_neg (by omega)).trans ?_)
  rw [transfer_some hg hx]

end close

end Sys2Proof.Machine

namespace Sys2Proof
open Machine

/-- Settles O43. -/
theorem xferCloseFreesItsContext : Obligations.XferCloseFreesItsContext := by
  intro f n g s c refused hp hs
  have refuse : ∀ {st : Status}, s.frameTaken.xferClose n g (s.replyTo .data f.tag) =
      s.frameTaken.refuse (s.replyTo .data f.tag) st → refused st := fun h => xferClose_refused hp h
  refine ⟨fun h => refuse (if_pos h), fun h hb => refuse (xferClose_badField (s := s.frameTaken) _ h hb),
    fun h hn hx => refuse (xferClose_noContext (s := s.frameTaken) _ h hn hx), fun x h hn hg hx => ?_⟩
  have hgo := xferClose_goes hp
  rw [xferClose_closes (s := s.frameTaken) _ h hn hg hx, freeContext_eq (s := s.frameTaken) hx] at hgo
  let b : State := s.frameTaken.setCtx n { s.ctx n with xfer := none }
  let v : State := x.keyRefs.foldl State.dropUser b
  have hbase : Framed [.bursts, .data] s b := ⟨rfl, fun q hq => by cases q <;> simp_all [Piece.same, b, State.setCtx, State.frameTaken]⟩
  have hframe : Framed [.keySlots, .loads, .writes] b v := dropUsers_framed ..
  have honly : WritesOnly (x.keyRefs.map StoreUnit.key) s v :=
    WritesOnly.trans (us := []) (writesOnly_of_eq rfl rfl rfl _) (dropUsers_only x.keyRefs b)
  have hended : RefsEnded b v x.keyRefs := refsEnded_foldl ..
  have hdpu : v.dpu = b.dpu := hframe.2 .data (by decide)
  have hctx : ∀ j, b.ctx j = if j = n then { s.ctx n with xfer := none } else s.ctx j := fun j =>
    ctx_setCtx s.frameTaken n j _ (by rw [show s.frameTaken.dpu = s.dpu from rfl, hs.contexts]; omega)
  have hflight : v.inFlight n g = s.inFlight n g := by
    unfold State.inFlight; rw [hdpu]; exact rfl
  have hsession : v.lif.session = s.lif.session := (hframe.2 .link (by decide)).2.2.2.2.2.2.2.2
  have hsent : v.sent = s.sent := hframe.2 .sent (by decide)
  obtain ⟨t, ht, htframe, hkst, hsst, hcontexts, hflights, hnow, hlater⟩ := owe_answered v hsession n g f.tag .ok [x.nextIndex]
  have hgo : Goes c s t.settleDrain := by
    rw [← ht]
    exact hgo
  rw [hflight] at hnow hlater
  have hslot : ∀ k, t.slot k = v.slot k := fun k => by unfold State.slot; rw [hkst]
  have hload : ∀ r, t.load r = v.load r := fun r => by unfold State.load; rw [hkst]
  have hctx' : ∀ j, t.ctx j = b.ctx j := fun j => by unfold State.ctx; rw [hcontexts, hdpu]
  have herased : ∀ k, (k ∈ x.keyRefs ∧ (s.slot k).state = .retiring ∧ (s.slot k).erasing = false ∧ (t.slot k).users = 0) ↔
      b.ErasedBy x.keyRefs k := fun k => by
    rw [hslot, (hended.fields k).2.2]
    exact Iff.rfl
  have hleft : ∀ r, ((∃ y, s.load r = .releasing y) ∧ (∃ k ∈ x.keyRefs, (s.slot k).owner = some r) ∧
      (∀ h, s.kst.hold = some h → h.range ≠ r) ∧
      ∀ k ∈ s.namedSlots r, (s.slot k).owner = some r → (t.slot k).users = 0) ↔ b.LeftBy x.keyRefs r := fun r => by
    have husers : ∀ k, (t.slot k).users = b.usersLeft x.keyRefs k := fun k => by rw [hslot, (hended.fields k).2.2]
    simp only [husers]
    exact Iff.rfl
  refine ⟨t, hgo, ((hbase.trans hframe).trans htframe).mono (by decide), ?_, ?_, fun j hj => ?_, ?_, fun k => ?_,
    ⟨fun k hk => ?_, fun k hk => ?_, fun r hr => ?_, fun r hr => ?_, fun k hk hr => ?_⟩, fun hf => ?_, fun hf => ?_⟩
  · exact (honly.trans (us := x.keyRefs.map StoreUnit.key) (vs := []) (writesOnly_of_eq (by rw [hsst]) (by rw [hsst]) (by rw [hsst]) _)).mono
      (by simp)
  · exact (hctx' n).trans ((hctx n).trans (if_pos rfl))
  · exact (hctx' j).trans ((hctx j).trans (if_neg hj))
  · rw [hflights, hdpu]; exact rfl
  · rw [hslot]; exact hended.slots k
  · obtain ⟨hcopy, herasing, hholds⟩ := hended.erased k ((herased k).mp hk)
    rw [hslot]
    exact ⟨hcopy, herasing, (holds_of_eq (by rw [hsst]) (by rw [hsst]) (by rw [hsst]) _ _ _).mpr hholds⟩
  · rw [hslot]; exact hended.erasing k (mt (herased k).mpr hk)
  · obtain ⟨hnl, hcopies⟩ := hended.left r ((hleft r).mp hr)
    exact ⟨(hload r).trans hnl, fun k hk hlive ho => (congrArg KeySlot.copy (hslot k)).trans (hcopies k hk hlive ho)⟩
  · rw [hload]; exact hended.loads r (mt (hleft r).mpr hr)
  · rw [hslot]; exact hended.copies k (mt (herased k).mpr hk) fun r ho hl => hr r ho ((hleft r).mpr hl)
  · obtain ⟨howed, hsaid⟩ := hnow hf
    exact ⟨howed.trans (by rw [hdpu]; exact rfl), by rw [hsaid, hsent]⟩
  · obtain ⟨howed, hsaid⟩ := hlater hf
    exact ⟨hsaid.trans hsent, howed.trans (by rw [hdpu]; exact rfl)⟩

end Sys2Proof

/-! Cipher cores (O44; R88, R102): the grant of a core, and the completion of a transform with the replies it releases. -/

namespace Sys2Proof.Machine

/-! ### The grant of a core (R88) -/

theorem freeCore_none (s : State) : s.freeCore = none ↔ ∀ k < 4, s.coreBusy k = true := by
  unfold State.freeCore
  rw [List.find?_eq_none]
  simp

theorem freeCore_lowest {s : State} {k : Nat} (hk : k < 4) (hfree : s.coreBusy k = false) (hbefore : ∀ j < k, s.coreBusy j = true) :
    s.freeCore = some k :=
  List.find?_range_eq_some.mpr ⟨by simpa using hfree, List.mem_range.mpr hk, fun j hj => by simpa using hbefore j hj⟩

/-- R88: the first flight that waits takes the core. -/
theorem grantFlight_first (core : Nat) (l : List Flight) (h : l.any (fun f => f.stage == .waiting) = true) :
    ∃ pre y post, l = pre ++ y :: post ∧ y.stage = .waiting ∧ (∀ z ∈ pre, z.stage ≠ .waiting) ∧
      grantFlight core l = pre ++ { y with stage := .inCore core } :: post := by
  induction l with
  | nil => exact absurd h (by decide)
  | cons f l ih =>
    unfold grantFlight
    by_cases hf : f.stage = .waiting
    · exact ⟨[], f, l, rfl, hf, by simp, if_pos hf⟩
    · obtain ⟨pre, y, post, hl, hy, hpre, hgrant⟩ := ih (by simpa [hf] using h)
      exact ⟨f :: pre, y, post, by rw [hl]; exact rfl, hy, by simpa [hf] using hpre, by rw [if_neg hf, hgrant]; exact rfl⟩

/-- R88: the first rekey transform that waits takes the core. -/
theorem grantWork_first (core : Nat) (l : List SweepWork) (h : l.any (fun w => w.stage == .waiting) = true) :
    ∃ pre y post, l = pre ++ y :: post ∧ y.stage = .waiting ∧ (∀ z ∈ pre, z.stage ≠ .waiting) ∧
      grantWork core l = pre ++ { y with stage := .inCore core } :: post := by
  induction l with
  | nil => exact absurd h (by decide)
  | cons w l ih =>
    unfold grantWork
    by_cases hw : w.stage = .waiting
    · exact ⟨[], w, l, rfl, hw, by simp, if_pos hw⟩
    · obtain ⟨pre, y, post, hl, hy, hpre, hgrant⟩ := ih (by simpa [hw] using h)
      exact ⟨w :: pre, y, post, by rw [hl]; exact rfl, hy, by simpa [hw] using hpre, by rw [if_neg hw, hgrant]; exact rfl⟩

/-- R88: the Data Path takes a free core. -/
theorem grantCore_data {s : State} {c : Nat} (hc : s.freeCore = some c) (hd : s.dataWaits = true)
    (hside : s.sweepWaits = false ∨ s.dpu.lastSide = .rekey) : s.grantCore = { s with dpu := { s.dpu with
      flights := grantFlight c s.dpu.flights, lastSide := if s.sweepWaits then .dataPath else s.dpu.lastSide } } := by
  unfold State.grantCore
  rw [hc]
  dsimp only
  rw [hd]
  cases hw : s.sweepWaits with
  | false => exact rfl
  | true => rw [hside.resolve_left (by simp [hw])]; exact rfl

/-- R88: the Rekey Engine takes a free core. -/
theorem grantCore_sweep {s : State} {c : Nat} (hc : s.freeCore = some c) (hw : s.sweepWaits = true)
    (hside : s.dataWaits = false ∨ s.dpu.lastSide = .dataPath) : s.grantCore = { s with
      rke := { s.rke with work := grantWork c s.rke.work }
      dpu := { s.dpu with lastSide := if s.dataWaits then .rekey else s.dpu.lastSide } } := by
  unfold State.grantCore
  rw [hc]
  dsimp only
  rw [hw]
  cases hd : s.dataWaits with
  | false => exact rfl
  | true => rw [hside.resolve_left (by simp [hd])]; exact rfl

theorem grantCore_idle {s : State} (h : s.freeCore = none ∨ (s.dataWaits = false ∧ s.sweepWaits = false)) : s.grantCore = s := by
  unfold State.grantCore
  cases hc : s.freeCore with
  | none => exact rfl
  | some c =>
    obtain ⟨hd, hw⟩ := h.resolve_left (by simp [hc])
    simp only [hd, hw]

/-! ### The replies that a completed transform releases (R88) -/

/-- Two blocks are of one grant. -/
def Flight.sameGrant (x y : Flight) : Bool := x.context == y.context && x.generation == y.generation

/-- R88: a block may leave where neither it nor an earlier block of its grant is still under way. -/
def mayLeave (earlier : List Flight) (f : Flight) : Bool :=
  (earlier ++ [f]).all (fun z => !z.sameGrant f || z.stage == .done)

/-- The blocks of a list behind others that leave, and those that stay. -/
def leaving : List Flight → List Flight → List Flight
  | _, [] => []
  | earlier, f :: l => (if mayLeave earlier f then [f] else []) ++ leaving (earlier ++ [f]) l

def staying : List Flight → List Flight → List Flight
  | _, [] => []
  | earlier, f :: l => (if mayLeave earlier f then [] else [f]) ++ staying (earlier ++ [f]) l

/-- The test of a block by its place in the list. -/
def leavesAt (l : List Flight) (i : Nat) : Bool :=
  match l[i]? with
  | some y => (l.take (i + 1)).all (fun z => !(z.context == y.context && z.generation == y.generation) || z.stage == .done)
  | none => false

theorem leavesAt_append (earlier : List Flight) (f : Flight) (l : List Flight) :
    leavesAt (earlier ++ f :: l) earlier.length = mayLeave earlier f := by
  have hget : (earlier ++ f :: l)[earlier.length]? = some f := by simp
  have htake : (earlier ++ f :: l).take (earlier.length + 1) = earlier ++ [f] := by
    rw [List.take_append]
    simp
  unfold leavesAt
  rw [hget]
  show ((earlier ++ f :: l).take (earlier.length + 1)).all _ = _
  rw [htake]
  exact rfl

/-- What a test by place picks out of a list behind others. -/
theorem filterMap_places (test : List Flight → Nat → Bool) (earlier m : List Flight) (f : Flight) :
    (List.range (f :: m).length).filterMap (fun i =>
        if test (earlier ++ f :: m) (earlier.length + i) then (earlier ++ f :: m)[earlier.length + i]? else none) =
      (if test (earlier ++ f :: m) earlier.length then [f] else []) ++ (List.range m.length).filterMap (fun i =>
        if test (earlier ++ [f] ++ m) ((earlier ++ [f]).length + i) then (earlier ++ [f] ++ m)[(earlier ++ [f]).length + i]? else none) := by
  rw [List.length_cons, List.range_succ_eq_map, List.filterMap_cons, List.filterMap_map]
  have hrest : ∀ i, earlier.length + (i + 1) = (earlier ++ [f]).length + i := fun i => by
    rw [List.length_append, List.length_singleton]; omega
  have hlist : earlier ++ f :: m = earlier ++ [f] ++ m := by simp
  have hfirst : (earlier ++ f :: m)[earlier.length + 0]? = some f := by simp
  rw [Nat.add_zero] at hfirst ⊢
  have htail : ((fun i => if test (earlier ++ f :: m) (earlier.length + i) then (earlier ++ f :: m)[earlier.length + i]? else none) ∘ Nat.succ) =
      fun i => if test (earlier ++ [f] ++ m) ((earlier ++ [f]).length + i) then (earlier ++ [f] ++ m)[(earlier ++ [f]).length + i]? else none := by
    funext i
    rw [Function.comp_apply, Nat.succ_eq_add_one, hrest, hlist]
  rw [htail, hfirst]
  by_cases h : test (earlier ++ f :: m) earlier.length = true
  · rw [if_pos h, if_pos h]; exact rfl
  · rw [if_neg h, if_neg h]; exact rfl

theorem leaving_eq (earlier l : List Flight) : (List.range l.length).filterMap (fun i =>
    if leavesAt (earlier ++ l) (earlier.length + i) then (earlier ++ l)[earlier.length + i]? else none) = leaving earlier l := by
  induction l generalizing earlier with
  | nil => exact rfl
  | cons f m ih =>
    rw [filterMap_places leavesAt, ih, leavesAt_append]
    exact rfl

theorem staying_eq (earlier l : List Flight) : (List.range l.length).filterMap (fun i =>
    if !leavesAt (earlier ++ l) (earlier.length + i) then (earlier ++ l)[earlier.length + i]? else none) = staying earlier l := by
  induction l generalizing earlier with
  | nil => exact rfl
  | cons f m ih =>
    rw [filterMap_places fun a b => !leavesAt a b, ih, leavesAt_append]
    have hcons : staying earlier (f :: m) = (if mayLeave earlier f then [] else [f]) ++ staying (earlier ++ [f]) m := rfl
    rw [hcons]
    cases mayLeave earlier f <;> exact rfl

theorem mayLeave_iff (earlier : List Flight) (f : Flight) : mayLeave earlier f = true ↔
    f.stage = .done ∧ ¬ ∃ z ∈ earlier, z.sameGrant f = true ∧ z.stage ≠ .done := by
  have hself : f.sameGrant f = true := by simp [Flight.sameGrant]
  unfold mayLeave
  rw [List.all_append, Bool.and_eq_true, and_comm]
  refine and_congr (by simp [hself]) ?_
  rw [List.all_eq_true]
  constructor
  · rintro h ⟨z, hz, hgrant, hstage⟩
    simpa [hgrant, hstage] using h z hz
  · intro h z hz
    by_cases hg : z.sameGrant f = true
    · by_cases hd : z.stage = .done
      · simp [hd]
      · exact absurd ⟨z, hz, hg, hd⟩ h
    · simp [hg]

theorem sameGrant_iff (x y : Flight) : x.sameGrant y = true ↔ x.context = y.context ∧ x.generation = y.generation := by
  simp [Flight.sameGrant]

/-- R88: the kept blocks tell whether an earlier block of a grant is still under way. -/
theorem readyFlights_eq (earlier l kept : List Flight)
    (hkept : ∀ f : Flight, kept.any (fun k => k.context == f.context && k.generation == f.generation) = true ↔
      ∃ z ∈ earlier, z.sameGrant f = true ∧ z.stage ≠ .done) :
    readyFlights kept l = (leaving earlier l, kept ++ staying earlier l) := by
  induction l generalizing earlier kept with
  | nil => simp [readyFlights, leaving, staying]
  | cons f l ih =>
    have hmay : (f.stage = .done ∧ ¬ kept.any (fun k => k.context == f.context && k.generation == f.generation) = true) ↔
        mayLeave earlier f = true := by
      rw [mayLeave_iff, hkept]
    unfold readyFlights leaving staying
    by_cases h : mayLeave earlier f = true
    · have hdone := (hmay.mpr h).1
      rw [if_pos (hmay.mpr h), if_pos h, if_pos h, ih (earlier ++ [f]) kept fun g => ?_]
      · exact rfl
      · rw [hkept g]
        simp [hdone]
    · rw [if_neg (mt hmay.mp h), if_neg h, if_neg h, ih (earlier ++ [f]) (kept ++ [f]) fun g => ?_]
      · simp
      · have hgrant : (f.context == g.context && f.generation == g.generation) = f.sameGrant g := rfl
        rw [List.any_append, Bool.or_eq_true, hkept g]
        simp only [List.any_cons, List.any_nil, Bool.or_false, hgrant, List.mem_append, List.mem_singleton]
        constructor
        · rintro (⟨z, hz, hrest⟩ | hg)
          · exact ⟨z, .inl hz, hrest⟩
          · by_cases hd : f.stage = .done
            · obtain ⟨z, hz, hzf, hstage⟩ : ∃ z ∈ earlier, z.sameGrant f = true ∧ z.stage ≠ .done := by
                by_contra hno
                exact h ((mayLeave_iff earlier f).mpr ⟨hd, hno⟩)
              obtain ⟨h1, h2⟩ := (sameGrant_iff z f).mp hzf
              obtain ⟨h3, h4⟩ := (sameGrant_iff f g).mp hg
              exact ⟨z, .inl hz, (sameGrant_iff z g).mpr ⟨h1.trans h3, h2.trans h4⟩, hstage⟩
            · exact ⟨f, .inr rfl, hg, hd⟩
        · rintro ⟨z, hz | rfl, hrest⟩
          · exact .inl ⟨z, hz, hrest⟩
          · exact .inr hrest.1

/-- R88: the blocks that leave, and those that stay, in the order in which they were taken. -/
theorem readyFlights_places (l : List Flight) : readyFlights [] l =
    ((List.range l.length).filterMap (fun i => if leavesAt l i then l[i]? else none),
      (List.range l.length).filterMap (fun i => if leavesAt l i then none else l[i]?)) := by
  have hleave := leaving_eq [] l
  have hstay := staying_eq [] l
  simp only [List.nil_append, List.length_nil, Nat.zero_add] at hleave hstay
  rw [readyFlights_eq [] l [] (by simp), hleave, List.nil_append, ← hstay]
  refine congrArg _ (congrArg (fun k => (List.range l.length).filterMap k) (funext fun i => ?_))
  by_cases h : leavesAt l i = true <;> simp [h]

/-! ### The replies are sent (R88, R171) -/

/-- Frames are sent, and beyond them at most tags leave their set. -/
def Says (s t : State) (l : List Frame) : Prop := t = { s with lif := { s.lif with tagsInUse := t.lif.tagsInUse }, sent := s.sent ++ l }

theorem Says.refl (s : State) : Says s s [] := by
  unfold Says
  rw [List.append_nil]

theorem Says.trans {s t u : State} {l m : List Frame} (h : Says s t l) (k : Says t u m) : Says s u (l ++ m) := by
  unfold Says at h k ⊢
  rw [k, h, List.append_assoc]

theorem Says.withData {s t : State} {l : List Frame} (h : Says s t l) (d : DataPath) : Says { s with dpu := d } { t with dpu := d } l := by
  unfold Says at h ⊢
  exact congrArg (fun x : State => { x with dpu := d }) h

theorem Says.session {s t : State} {l : List Frame} (h : Says s t l) : t.lif.session = s.lif.session := by rw [h]

/-- R171: a reply goes out under the session of its request alone. -/
theorem says_answer (s : State) (rto : ReplyTo) (b : Body) : Says s (s.answer rto b)
    (if decide (rto.session = s.lif.session) then [frame rto.channel rto.tag b] else []) := by
  by_cases h : rto.session = s.lif.session
  · unfold Says State.answer
    simp only [h, if_true, decide_true]
    cases rto.channel <;> exact rfl
  · unfold Says State.answer
    simp [h]

theorem answer_data_lif {s : State} {rto : ReplyTo} (b : Body) (h : rto.channel = .data) : (s.answer rto b).lif = s.lif := by
  unfold State.answer
  rw [h]
  split <;> exact rfl

/-- The notice of an abort goes out under any session (4.6, R171). -/
def Body.outlives (b : Body) : Bool :=
  match b with
  | .aborted _ _ _ _ => true
  | _ => false

theorem says_lastWord (s : State) (rto : ReplyTo) (b : Body) : Says s (s.lastWord rto b)
    (if decide (rto.session = s.lif.session) || b.outlives then [frame rto.channel rto.tag b] else []) := by
  cases ho : b.outlives with
  | true =>
    cases b <;> simp only [Body.outlives, Bool.false_eq_true] at ho
    rw [Bool.or_true, if_pos rfl]
    exact rfl
  | false =>
    have hword : s.lastWord rto b = s.answer rto b := by
      cases b <;> first | exact rfl | exact absurd ho (by simp [Body.outlives])
    rw [hword, Bool.or_false]
    exact says_answer s rto b

theorem lastWord_data_lif {s : State} {rto : ReplyTo} (b : Body) (h : rto.channel = .data) : (s.lastWord rto b).lif = s.lif := by
  unfold State.lastWord
  split
  · exact rfl
  · exact answer_data_lif _ h

theorem says_foldl {α : Type} {step : State → α → State} {said : α → List Frame} {n : Nat}
    (h : ∀ u a, u.lif.session = n → Says u (step u a) (said a)) (l : List α) {s : State} (hs : s.lif.session = n) :
    Says s (l.foldl step s) (l.flatMap said) := by
  induction l generalizing s with
  | nil => exact Says.refl s
  | cons a l ih =>
    have hone := h s a hs
    rw [List.foldl_cons, List.flatMap_cons]
    exact hone.trans (ih (hone.session.trans hs))

theorem lif_foldl {α : Type} {step : State → α → State} (l : List α) (h : ∀ u, ∀ a ∈ l, (step u a).lif = u.lif) (s : State) :
    (l.foldl step s).lif = s.lif := by
  induction l generalizing s with
  | nil => exact rfl
  | cons a l ih =>
    rw [List.foldl_cons, ih (fun u x hx => h u x (List.mem_cons_of_mem _ hx)), h s a List.mem_cons_self]

theorem flatMap_test {α β : Type} (l : List α) (p : α → Bool) (g : α → β) :
    l.flatMap (fun x => if p x then [g x] else []) = (l.filter p).map g := by
  induction l with
  | nil => exact rfl
  | cons a l ih =>
    rw [List.flatMap_cons, ih, List.filter_cons]
    split <;> exact rfl

/-- R88: the replies of a list of blocks, and what is owed on contexts with no block left in flight. -/
theorem flushData_effect (s : State) {gone left : List Flight} (h : readyFlights [] s.dpu.flights = (gone, left)) :
    let waits := fun o : Owed => left.any (fun z => z.context == o.context && z.generation == o.generation)
    Says { s with dpu := { s.dpu with flights := left, owed := s.dpu.owed.filter waits } } s.flushData
      ((gone.filter (fun y => decide (y.rto.session = s.lif.session))).map (fun y =>
          frame y.rto.channel y.rto.tag (.block y.context y.generation y.index y.data)) ++
        (s.dpu.owed.filter (fun o => !waits o && (decide (o.rto.session = s.lif.session) || o.body.outlives))).map
          (fun o => frame o.rto.channel o.rto.tag o.body)) ∧
      ((∀ y ∈ gone, y.rto.channel = .data) → (∀ o ∈ s.dpu.owed, o.rto.channel = .data) → s.flushData.lif = s.lif) := by
  intro waits
  let v : State := { s with dpu := { s.dpu with flights := left } }
  let u : State := gone.foldl (fun u f => u.answer f.rto (.block f.context f.generation f.index f.data)) v
  have hu : Says v u ((gone.filter (fun y => decide (y.rto.session = s.lif.session))).map (fun y =>
      frame y.rto.channel y.rto.tag (.block y.context y.generation y.index y.data))) := by
    rw [← flatMap_test]
    exact says_foldl (n := s.lif.session) (fun u a hu => by rw [← hu]; exact says_answer u a.rto _) gone rfl
  have hdpu : u.dpu = v.dpu := by rw [hu]
  have hwaits : ∀ o : Owed, u.inFlight o.context o.generation = waits o := fun o => by
    unfold State.inFlight; rw [hdpu]
  let w : State := { u with dpu := { u.dpu with owed := u.dpu.owed.filter (fun o => u.inFlight o.context o.generation) } }
  have hflush : s.flushData = (u.dpu.owed.filter (fun o => !u.inFlight o.context o.generation)).foldl (fun u o => u.lastWord o.rto o.body) w := by
    unfold State.flushData
    rw [h]
  have hlast : Says w s.flushData ((s.dpu.owed.filter (fun o => !waits o && (decide (o.rto.session = s.lif.session) || o.body.outlives))).map
      (fun o => frame o.rto.channel o.rto.tag o.body)) := by
    rw [hflush]
    have hsaid := says_foldl (step := fun u o => u.lastWord o.rto o.body) (n := s.lif.session)
      (said := fun o : Owed => if decide (o.rto.session = s.lif.session) || o.body.outlives then [frame o.rto.channel o.rto.tag o.body] else [])
      (fun u a hu => by rw [← hu]; exact says_lastWord u a.rto a.body)
      (u.dpu.owed.filter (fun o => !u.inFlight o.context o.generation)) (s := w) (hu.session.trans rfl)
    rw [flatMap_test, List.filter_filter] at hsaid
    have howed : u.dpu.owed = s.dpu.owed := by rw [hdpu]
    simp only [howed, hwaits, Bool.and_comm] at hsaid ⊢
    exact hsaid
  constructor
  · have hw := hu.withData { s.dpu with flights := left, owed := s.dpu.owed.filter waits }
    have hdata : w = { u with dpu := { s.dpu with flights := left, owed := s.dpu.owed.filter waits } } := by
      simp only [w, hdpu, v, hwaits]
    rw [← hdata] at hw
    exact hw.trans hlast
  · intro hgone howed
    rw [hflush, lif_foldl]
    · exact lif_foldl gone (fun u a ha => answer_data_lif _ (hgone a ha)) v
    · intro x o ho
      have hmem : o ∈ s.dpu.owed := by
        have := List.mem_of_mem_filter ho
        rwa [hdpu] at this
      exact lastWord_data_lif _ (howed o hmem)

/-- R86 to R88: a completed block. -/
theorem flight_complete_eq (k : Nat) (y : Flight) : y.complete k = if y.stage = .inCore k then { y with
    stage := .done, key := none
    data := match y.key, y.direction with
      | some key, .read => decipher key y.tweak y.data
      | some key, .write => encipher key y.tweak y.data
      | none, _ => y.data } else y := by
  unfold Flight.complete Flight.result
  cases y.key <;> cases y.direction <;> exact rfl

theorem flight_complete_rto (k : Nat) (y : Flight) : (y.complete k).rto = y.rto := by
  unfold Flight.complete
  split <;> exact rfl

/-! ### A rekey transform (R102) -/

theorem fillBuffer_rke (s : State) (i : Nat) (b : Block) (next : List ChunkOp) : s.fillBuffer i b next = { s with rke := { s.rke with
    buffer := s.rke.buffer.set i (some b)
    todo := if (∀ x ∈ s.rke.buffer.set i (some b), x ≠ none) ∧ s.rke.todo = [] ∧ s.rke.issued = [] then next else s.rke.todo } } := by
  have hfull : (s.rke.buffer.set i (some b)).all (fun x => x.isSome) = true ↔ ∀ x ∈ s.rke.buffer.set i (some b), x ≠ none := by
    simp [Option.isSome_iff_ne_none]
  unfold State.fillBuffer State.thenOps
  by_cases h : ∀ x ∈ s.rke.buffer.set i (some b), x ≠ none
  · refine (if_pos (hfull.mpr h)).trans ?_
    by_cases hidle : s.rke.todo = [] ∧ s.rke.issued = []
    · rw [if_pos (by simp [hidle.1, hidle.2]), if_pos ⟨h, hidle⟩]
    · rw [if_neg (by simpa using hidle), if_neg fun k => hidle k.2]
  · have hnot : ¬ ((∀ x ∈ s.rke.buffer.set i (some b), x ≠ none) ∧ s.rke.todo = [] ∧ s.rke.issued = []) := fun k => h k.1
    rw [if_neg hnot]
    exact if_neg (mt hfull.mp h)

end Sys2Proof.Machine

namespace Sys2Proof
open Machine

/-- Settles O44. -/
theorem coresServeBothSides : Obligations.CoresServeBothSides := by
  refine ⟨fun s h => ?_, fun s k hk hfree hbefore => ⟨fun hd hside => ?_, fun hw hside => ?_⟩, ?_, ?_⟩
  · exact congrArg Host.Outcome.next (grantCore_idle (h.imp_left (freeCore_none s).mpr))
  · obtain ⟨pre, y, post, hl, hy, hpre, hgrant⟩ := grantFlight_first k s.dpu.flights hd
    refine ⟨_, pre, y, post, congrArg Host.Outcome.next (grantCore_data (freeCore_lowest hk hfree hbefore) hd hside),
      ⟨rfl, fun q hq => by cases q <;> simp_all [Piece.same]⟩, hl, hy, hpre, by rw [hgrant]⟩
  · obtain ⟨pre, y, post, hl, hy, hpre, hgrant⟩ := grantWork_first k s.rke.work hw
    refine ⟨_, pre, y, post, congrArg Host.Outcome.next (grantCore_sweep (freeCore_lowest hk hfree hbefore) hw hside),
      ⟨rfl, fun q hq => by cases q <;> simp_all [Piece.same]⟩, hl, hy, hpre, by rw [hgrant], rfl⟩
  · intro s k hwork after leaves gone left waits told
    let b : State := { s with dpu := { s.dpu with flights := s.dpu.flights.map (Flight.complete k) } }
    have hafter : b.dpu.flights = after := List.map_congr_left fun y _ => flight_complete_eq k y
    have hdone : s.transformDone k = b.flushData := by
      unfold State.transformDone
      rw [hwork]
    have hready : readyFlights [] b.dpu.flights = (gone, left) := by
      rw [hafter]
      exact readyFlights_places after
    obtain ⟨hsays, htags⟩ := flushData_effect b hready
    refine ⟨s.transformDone k, rfl, ?_, fun hf ho => ?_, ?_, ?_⟩
    · rw [hdone, hsays]
      exact ⟨rfl, fun q hq => by cases q <;> simp_all [Piece.same, b]⟩
    · rw [hdone, htags ?_ ho]
      intro y hy
      obtain ⟨i, -, hi⟩ := List.mem_filterMap.mp hy
      have hmem : y ∈ after := by
        split at hi
        · exact List.mem_of_getElem? hi
        · cases hi
      rw [← hafter] at hmem
      obtain ⟨z, hz, rfl⟩ := List.mem_map.mp hmem
      rw [flight_complete_rto]
      exact hf z hz
    · rw [hdone, hsays]
    · rw [hdone, hsays]
      exact (List.append_assoc ..).symm
  · intro s k w hwork others buffer
    have hdone : s.transformDone k = if w.chunk = s.rke.chunk
        then ({ s with rke := { s.rke with work := others } } : State).fillBuffer w.position
          (encipher w.newKey w.tweak (decipher w.oldKey w.tweak w.data)) (opsFor s.rke.n .scratch)
        else { s with rke := { s.rke with work := others } } := by
      unfold State.transformDone
      rw [hwork]
    refine ⟨s.transformDone k, rfl, ?_, fun h => ?_, fun h => ?_⟩
    · rw [hdone, fillBuffer_rke]
      split <;> exact ⟨rfl, fun q hq => by cases q <;> simp_all [Piece.same]⟩
    · rw [hdone, if_neg h]
    · rw [hdone, if_pos h, fillBuffer_rke]
      exact rfl

end Sys2Proof


/-! UNLOCK (O28): its admission checks in their order, the ranges of its scope that open or not, and what a load that
finds a damaged key leaves. What the loads do is said once in the laws about lists of loads; here they are joined to the
boot state that they open, the proof before them and the answer. -/

namespace Sys2Proof.Machine

/-! ### What an unlock of ranges leaves unchanged -/

theorem loadRange_framed (s : State) (r : Nat) (via : Option Rak) :
    Framed [.writes, .sent, .ranges, .loads, .keySlots, .hold, .data, .rekey] s (s.loadRange r via).1 :=
  ⟨(s.loadRange_keeps r via).1, fun q hq => by cases q <;> simp_all [Piece.same]⟩

theorem setLocks_framed (s : State) (r : Nat) (read write v : Bool) : Framed [.ranges] s (s.setLocks r read write v) :=
  ⟨(State.setLocks_keeps ..).1, fun q hq => by cases q <;> simp_all [Piece.same]⟩

/-- The pieces of state that an unlock of ranges may change. -/
def unlockPieces : List Piece := [.writes, .sent, .ranges, .loads, .keySlots, .hold, .data, .rekey]

theorem unlockRange_of_loads {s : State} {r : Nat} {via : Option Rak} (read write : Bool) (h : (s.loadRange r via).2 = true) :
    s.unlockRange read write via r = ((s.loadRange r via).1.setLocks r read write false, true) := if_pos h

theorem unlockRange_of_not_loads {s : State} {r : Nat} {via : Option Rak} (read write : Bool) (h : (s.loadRange r via).2 ≠ true) :
    s.unlockRange read write via r = ((s.loadRange r via).1, false) := if_neg h

theorem unlockRange_framed (s : State) (read write : Bool) (via : Option Rak) (r : Nat) :
    Framed unlockPieces s (s.unlockRange read write via r).1 ∧ (s.unlockRange read write via r).1.lif = s.lif := by
  have hload := loadRange_framed s r via
  have hlif := s.loadRange_lif r via
  by_cases h : (s.loadRange r via).2 = true
  · rw [unlockRange_of_loads read write h]
    exact ⟨(hload.trans (setLocks_framed _ r read write false)).mono (by decide), (by simp : _ = (s.loadRange r via).1.lif).trans hlif⟩
  · rw [unlockRange_of_not_loads read write h]
    exact ⟨hload, hlif⟩

theorem unlockFor_framed (s : State) (i : Nat) (w : Option WrapValue) (r : Nat) :
    Framed unlockPieces s (s.unlockFor i w r).1 ∧ (s.unlockFor i w r).1.lif = s.lif := by
  unfold State.unlockFor
  cases s.fields r with
  | none => exact ⟨Framed.refl _ _, rfl⟩
  | some g => exact unlockRange_framed ..

theorem unlockScope_framed (s : State) (i : Nat) (w : Option WrapValue) (l : List Nat) :
    Framed unlockPieces s (s.unlockScope i w l).1 ∧ (s.unlockScope i w l).1.lif = s.lif := by
  induction l generalizing s with
  | nil => exact ⟨Framed.refl _ _, rfl⟩
  | cons r l ih =>
    obtain ⟨hone, hlif⟩ := unlockFor_framed s i w r
    obtain ⟨hrest, hrestlif⟩ := ih (s.unlockFor i w r).1
    exact ⟨(hone.trans hrest).mono (by decide), hrestlif.trans hlif⟩

/-- R68: no more ranges open than the scope holds. -/
theorem unlockScope_le (s : State) (i : Nat) (w : Option WrapValue) (l : List Nat) : (s.unlockScope i w l).2 ≤ l.length := by
  induction l generalizing s with
  | nil => exact Nat.le_refl 0
  | cons r l ih =>
    have hrest := ih (s.unlockFor i w r).1
    simp only [State.unlockScope, List.length_cons]
    split <;> omega

/-! ### The boot state and the answer -/

/-- R68, R73: the boot control once n ranges were opened. -/
def Boot.booted (b : Boot) (n : Nat) : Boot := if 0 < n ∧ b.state = .sealed then { b with state := .opened, unsealed := false } else b

theorem openBoot_eq (s : State) (n : Nat) : s.openBoot n = { s with btc := s.btc.booted n } := by
  unfold State.openBoot Boot.booted
  split
  · exact rfl
  · exact rfl

theorem Boot.booted_provisioning (b : Boot) (n : Nat) : (b.booted n).provisioning = b.provisioning := by
  unfold Boot.booted
  split
  · exact rfl
  · exact rfl

/-- R68: the ranges of a scope are opened, those that open, with the boot state that this gives. -/
def State.scopeOpened (s : State) (i : Nat) (w : Option WrapValue) (scope : List Nat) : State :=
  (s.unlockScope i w scope).1.openBoot (s.unlockScope i w scope).2

theorem scopeOpened_btc (s : State) (i : Nat) (w : Option WrapValue) (scope : List Nat) :
    (s.scopeOpened i w scope).btc = s.btc.booted (s.unlockScope i w scope).2 := by
  rw [State.scopeOpened, openBoot_eq]
  exact congrArg (fun b : Boot => b.booted _) (by simp)

theorem scopeOpened_framed (s : State) (i : Nat) (w : Option WrapValue) (scope : List Nat) :
    Framed (.boot :: unlockPieces) s (s.scopeOpened i w scope) ∧ (s.scopeOpened i w scope).lif = s.lif ∧
      (s.scopeOpened i w scope).cru = s.cru := by
  obtain ⟨hframe, hlif⟩ := unlockScope_framed s i w scope
  have hboot : Framed [.boot] (s.unlockScope i w scope).1 (s.scopeOpened i w scope) := by
    rw [State.scopeOpened, openBoot_eq]
    exact ⟨rfl, fun q hq => by cases q <;> simp_all [Piece.same]⟩
  refine ⟨(hframe.trans hboot).mono (by decide), ?_, ?_⟩
  · rw [State.scopeOpened, openBoot_eq]
    exact hlif
  · rw [State.scopeOpened, openBoot_eq]
    simp

/-! ### UNLOCK (R67, R68) -/

theorem responsePending_some {s : State} {x : Timer} (h : s.rsu.timer = some x) (hl : 2 ≤ x.pending.level.number) :
    s.responsePending = some (x.pending.level, x.remaining) := by
  simp [State.responsePending, h, hl]

theorem responsePending_none {s : State} (h : ∀ x, s.rsu.timer = some x → x.pending.level.number < 2) : s.responsePending = none := by
  cases hx : s.rsu.timer with
  | none => simp [State.responsePending, hx]
  | some x => simp [State.responsePending, hx, h x hx]

theorem unlock_unfit {u : State} {r : Nat} (i : Nat) (w : Option WrapValue) (rto : ReplyTo) (h : rangeFieldFits r = false) :
    u.unlock i w r rto = u.refuse rto .badField := if_pos h

theorem unlock_shutBoot {u : State} {r : Nat} (i : Nat) (w : Option WrapValue) (rto : ReplyTo) (h : rangeFieldFits r = true)
    (hs : u.btc.state = .quarantine ∨ u.btc.state = .erased) : u.unlock i w r rto = u.refuse rto .wrongState :=
  (if_neg (by simp [h])).trans (if_pos hs)

theorem unlock_pending {u : State} {r n : Nat} {l : Level} (i : Nat) (w : Option WrapValue) (rto : ReplyTo) (h : rangeFieldFits r = true)
    (hs : ¬ (u.btc.state = .quarantine ∨ u.btc.state = .erased)) (hp : u.responsePending = some (l, n)) :
    u.unlock i w r rto = u.refuse rto .responsePending [l.number, n] :=
  (if_neg (by simp [h])).trans ((if_neg hs).trans (by rw [hp]))

theorem unlock_opens {u : State} {r : Nat} (i : Nat) (w : Option WrapValue) (rto : ReplyTo) (h : rangeFieldFits r = true)
    (hs : ¬ (u.btc.state = .quarantine ∨ u.btc.state = .erased)) (hp : u.responsePending = none) :
    let n := (u.unlockScope i w (u.listedScope r i)).2
    let v := u.scopeOpened i w (u.listedScope r i)
    u.unlock i w r rto = (v.answer rto (.unlocked n ((u.listedScope r i).length - n) v.btc.state)).settleDrain :=
  (if_neg (by simp [h])).trans ((if_neg hs).trans (by rw [hp]; exact rfl))

/-- The state in which an UNLOCK of range field r under slot i is answered. -/
def State.unlocked (s : State) (f : Hdr) (r i : Nat) (p : ProofBlock) : State :=
  let a := (s.begun .unlock f).admitted p i
  let v := a.scopeOpened i (s.grantValue i) (s.listedScope r i)
  let n := (a.unlockScope i (s.grantValue i) (s.listedScope r i)).2
  { v with lif := { s.lif with burstTaken := s.lif.burstTaken + 1 }
           sent := v.sent ++ [frame .control f.tag (.unlocked n ((s.listedScope r i).length - n) v.btc.state)] }

section command
variable {f : Hdr} {r i : Nat} {p : ProofBlock} {s : State}

theorem unlock_refused {st : Status} {detail : List Nat} (hp : (Instr.unlock f r p).passes s) (hv : (Instr.unlock f r p).proves s i)
    (h : ((s.begun .unlock f).admitted p i).unlock i (((s.begun .unlock f).admitted p i).grantValue i) r (s.replyTo .control f.tag) =
      ((s.begun .unlock f).admitted p i).refuse (s.replyTo .control f.tag) st detail) :
    RefusedAfterProof (.unlock f r p) s i p f.tag st detail :=
  answers_admitted rfl rfl hp hv (fun rto u i g => u.unlock i g r rto) (fun _ => rfl) h

theorem unlock_goes (hp : (Instr.unlock f r p).passes s) (hv : (Instr.unlock f r p).proves s i) (h : rangeFieldFits r = true)
    (hs : s.btc.state ≠ .quarantine ∧ s.btc.state ≠ .erased)
    (hcalm : ∀ x, s.rsu.timer = some x → x.pending.level.number < 2) :
    Goes (.unlock f r p) s (s.unlocked f r i p).settleDrain := by
  obtain ⟨-, -, -, htag, -, -⟩ := Passes.of_request rfl hp
  have hgo : Goes (.unlock f r p) s _ := exec_admitted rfl rfl hp hv (fun rto u i g => u.unlock i g r rto) (fun _ => rfl)
  have hscope : ((s.begun .unlock f).admitted p i).listedScope r i = s.listedScope r i := by
    simp only [State.listedScope, State.rangesWhere, fields_admitted]
  obtain ⟨-, hlif, -⟩ := scopeOpened_framed ((s.begun .unlock f).admitted p i) i (s.grantValue i) (s.listedScope r i)
  rw [grant_admitted, unlock_opens i _ _ h (by simp [hs]) (responsePending_none (by simpa using hcalm)), hscope,
    answer_control (m := .unlock) _ rfl (by decide) (htag rfl (by decide)) (hlif.trans (by simp))] at hgo
  exact hgo

/-- R68: whatever opens, the boot state is that of the number opened, which the answer carries. -/
theorem unlocked_btc : (s.unlocked f r i p).btc =
    s.btc.booted (((s.begun .unlock f).admitted p i).unlockScope i (s.grantValue i) (s.listedScope r i)).2 :=
  (scopeOpened_btc ..).trans (by simp)

theorem unlocked_lastFrame (n k : Nat)
    (hn : (((s.begun .unlock f).admitted p i).unlockScope i (s.grantValue i) (s.listedScope r i)).2 = n)
    (hk : (s.listedScope r i).length - n = k) : (s.unlocked f r i p).lastFrame =
    some (frame .control f.tag (.unlocked n k (s.unlocked f r i p).btc.state)) := by
  subst hn hk
  exact List.getLast?_concat ..

/-- What the proof and the loads leave between them, where the loads write no record of the slot. -/
theorem unlocked_effect {us : List StoreUnit} (hp : (Instr.unlock f r p).passes s) (hu : StoreUnit.cred i ∉ us)
    (hw : WritesOnly us ((s.begun .unlock f).admitted p i)
      (((s.begun .unlock f).admitted p i).unlockScope i (s.grantValue i) (s.listedScope r i)).1) :
    Framed [.bursts, .challenges, .credSlots, .writes, .sent, .boot, .ranges, .loads, .keySlots, .hold, .data, .rekey] s
      (s.unlocked f r i p) ∧ Proved s (s.unlocked f r i p) i p ∧ WritesOnly (.cred i :: us) s (s.unlocked f r i p) := by
  obtain ⟨-, -, -, htag, -, -⟩ := Passes.of_request rfl hp
  obtain ⟨hframe, hlif, hcru⟩ := scopeOpened_framed ((s.begun .unlock f).admitted p i) i (s.grantValue i) (s.listedScope r i)
  have hprov : (((s.begun .unlock f).admitted p i).scopeOpened i (s.grantValue i) (s.listedScope r i)).btc.provisioning =
      s.btc.provisioning := by rw [scopeOpened_btc, Boot.booted_provisioning]; simp
  have hboot : WritesOnly us ((s.begun .unlock f).admitted p i)
      (((s.begun .unlock f).admitted p i).scopeOpened i (s.grantValue i) (s.listedScope r i)) := by
    rw [State.scopeOpened, openBoot_eq]
    exact hw
  obtain ⟨-, hframed, hproved, honly⟩ := answeredChange
    (.unlocked (((s.begun .unlock f).admitted p i).unlockScope i (s.grantValue i) (s.listedScope r i)).2
      ((s.listedScope r i).length - (((s.begun .unlock f).admitted p i).unlockScope i (s.grantValue i) (s.listedScope r i)).2)
      (((s.begun .unlock f).admitted p i).scopeOpened i (s.grantValue i) (s.listedScope r i)).btc.state)
    rfl (by decide) (htag rfl (by decide)) hframe (hlif.trans (by simp)) hcru hprov hboot hu
  exact ⟨hframed.mono (by decide), hproved, honly⟩

end command


/-! ### The ranges that open -/

theorem unlocked_parts (s : State) (f : Hdr) (r i : Nat) (p : ProofBlock) :
    let t := s.unlocked f r i p
    let q := ((s.begun .unlock f).admitted p i).unlockScope i (s.grantValue i) (s.listedScope r i)
    t.kst = q.1.kst ∧ t.rtb = q.1.rtb ∧ t.rke = q.1.rke ∧ t.dpu = q.1.dpu ∧ t.sst = q.1.sst ∧
      t.sent = q.1.sent ++ [frame .control f.tag (.unlocked q.2 ((s.listedScope r i).length - q.2) t.btc.state)] := by
  simp only [State.unlocked, State.scopeOpened, openBoot_eq, and_self]

theorem recordOf_range_of_eq {s t : State} {r : Nat} (hb : t.btc.provisioning = s.btc.provisioning) (he : t.entry r = s.entry r) :
    t.recordOf (.range r) = s.recordOf (.range r) := by simp only [State.recordOf, State.fields, hb, he]

theorem listedScope_single {r : Nat} (s : State) (i : Nat) (h : r < 16) : s.listedScope r i = [r] := if_neg (by omega)

theorem mem_rangesWhere (s : State) (p : RangeFields → Bool) (q : Nat) (h : Shaped s) :
    q ∈ s.rangesWhere p ↔ ∃ g, s.fields q = some g ∧ p g = true := by
  unfold State.rangesWhere
  rw [List.mem_filter, List.mem_range]
  cases hq : s.fields q with
  | none => simp
  | some g =>
    have hlt := fields_lt s q g hq
    rw [Shaped.entries h] at hlt
    simp [hlt]

theorem rangesWhere_nodup (s : State) (p : RangeFields → Bool) : (s.rangesWhere p).Nodup := List.nodup_range.filter _

theorem unlockScope_single (s : State) (i : Nat) (w : Option WrapValue) (r : Nat) :
    s.unlockScope i w [r] = ((s.unlockFor i w r).1, if (s.unlockFor i w r).2 then 1 else 0) := by
  simp [State.unlockScope]

theorem unlockFor_enabled {s : State} {r : Nat} {g : RangeFields} (i : Nat) (w : Option WrapValue) (h : s.fields r = some g) :
    s.unlockFor i w r = s.unlockRange (listed g.readList i) (listed g.writeList i) (s.openEnvelope r (.cred i) w) r := by
  simp [State.unlockFor, h]

/-- R68: the fields of a range that opened for slot i: the directions that its lists give the slot are unlocked. -/
def RangeFields.freedFor (i : Nat) (g : RangeFields) : RangeFields :=
  { g with readLocked := g.readLocked && !listed g.readList i, writeLocked := g.writeLocked && !listed g.writeList i }

theorem flag_freed (b x : Bool) : (if b = true then false else x) = (x && !b) := by cases b <;> simp

section opened
variable {f : Hdr} {r i : Nat} {p : ProofBlock} {s : State}

theorem unlocked_reseal : (s.unlocked f r i p).rtb.resealOnWake = s.rtb.resealOnWake := by
  rw [(unlocked_parts s f r i p).2.1]
  simp

/-- R33, R68, R107: of a scope of ENABLED ranges without damage those open whose RAK can be had. -/
theorem unlocked_loads {w : List Nat} (hp : (Instr.unlock f r p).passes s)
    (hscope : s.listedScope r i = w) (hs : Shaped s) (hn : w.Nodup) (hf : ∀ q ∈ w, ∃ g, s.fields q = some g)
    (hi : ∀ q ∈ w, ∀ k, s.load q = .notLoaded → s.openEnvelope q (.cred i) (s.grantValue i) = some k → s.intactUnder q k) :
    let via := fun q => s.openEnvelope q (.cred i) (s.grantValue i)
    let t := s.unlocked f r i p
    ∃ won : List Nat, won.Nodup ∧ (∀ q, q ∈ won ↔ q ∈ w ∧ s.lockdown = false ∧ (s.load q ≠ .notLoaded ∨ via q ≠ none)) ∧
      Framed [.bursts, .challenges, .credSlots, .writes, .sent, .boot, .ranges, .loads, .keySlots, .hold, .data, .rekey] s t ∧
      Proved s t i p ∧ t.rtb.resealOnWake = s.rtb.resealOnWake ∧
      (∀ q, t.fields q = if q ∈ won then (s.fields q).map (RangeFields.freedFor i) else s.fields q) ∧
      (∀ q, q ∉ won → t.entry q = s.entry q) ∧ KeysLoaded won via s t ∧ SweepResumed won s t ∧
      WritesOnly [.cred i, .rekeyProgress] s t ∧ t.btc = s.btc.booted won.length ∧
      t.sent = s.sent ++ [frame .control f.tag (.unlocked won.length (w.length - won.length) t.btc.state)] := by
  intro via t
  have hload : ∀ q, ((s.begun .unlock f).admitted p i).load q = s.load q := fun q => by simp [State.load]
  have hslots : ∀ q, ((s.begun .unlock f).admitted p i).slot q = s.slot q := fun q => by simp [State.slot]
  have hlock : ((s.begun .unlock f).admitted p i).lockdown = s.lockdown := by simp [State.lockdown]
  have hintact : ∀ q k, ((s.begun .unlock f).admitted p i).intactUnder q k ↔ s.intactUnder q k := fun q k => by
    simp only [State.intactUnder, State.namedSlots, State.owns, fields_admitted, hslots]
  obtain ⟨won, hopen, hlen, hnodup, hwon⟩ := unlockScope_opened (s := (s.begun .unlock f).admitted p i) (i := i)
    (w := s.grantValue i) (via := via) (free := RangeFields.freedFor i) (fun q => (openEnvelope_admitted ..).symm) rfl w []
    _ (Opened.start ((admitted_keeps s .unlock f p i).shaped hs)) hn (fun q _ => List.not_mem_nil)
    (fun q hq => by rw [fields_admitted]; exact hf q hq)
    (fun q hq k hk hv => by rw [hload] at hk; rw [hintact]; exact hi q hq k hk hv)
  rw [List.append_nil] at hopen
  obtain ⟨hkst, hrtb, hrke, -, hsst, hsent⟩ := unlocked_parts s f r i p
  rw [hscope] at hkst hrtb hrke hsst hsent
  rw [← hlen] at hsent
  have hfields : ∀ q, t.fields q = (((s.begun .unlock f).admitted p i).unlockScope i (s.grantValue i) w).1.fields q := fun q => by
    simp only [State.fields, State.entry, t, hrtb]
  have hwrites := writesOnly_of_eq (s := (((s.begun .unlock f).admitted p i).unlockScope i (s.grantValue i) w).1) (t := t)
    (by rw [hsst]) (by rw [hsst]) (by rw [hsst]) []
  have halike : TableAlike (((s.begun .unlock f).admitted p i).unlockScope i (s.grantValue i) w).1 t := fun q => by rw [hfields]
  obtain ⟨hframe, hproved, honly⟩ := unlocked_effect (r := r) (us := [.rekeyProgress]) hp (by simp) (by
    rw [hscope]; exact hopen.loads.writes)
  refine ⟨won, hnodup, fun q => by rw [hwon, hlock, hload], hframe, hproved, ?_, fun q => ?_, fun q hq => ?_, ?_, ?_, honly, ?_, ?_⟩
  · exact unlocked_reseal
  · rw [hfields, hopen.fld, fields_admitted]
  · refine (by simp only [State.entry, t, hrtb] : _ = State.entry _ q).trans ((hopen.ent q hq).trans ?_)
    simp [State.entry]
  · exact (hopen.loads.keys.later hkst).earlier (by simp) (by simp)
  · exact (hopen.loads.sweep.later halike hkst hrke (hwrites.same _ List.not_mem_nil)).earlier (by simp) (by simp) (by simp)
      ((admitted_writes s .unlock f p i).same _ (by simp))
  · rw [unlocked_btc, hscope, ← hlen]
  · rw [hsent, hopen.loads.sent]
    simp [t]

/-- R36, R109: of a single range whose load finds damage. -/
theorem unlocked_damaged {g : RangeFields} {k : Rak} (hp : (Instr.unlock f r p).passes s) (hr : r < 16) (hs : Shaped s)
    (hg : s.fields r = some g) (hl : s.lockdown = false) (hn : s.load r = .notLoaded)
    (hk : s.openEnvelope r (.cred i) (s.grantValue i) = some k) (hd : ¬ s.intactUnder r k) :
    let t := s.unlocked f r i p
    let us := .range r :: .rekeyProgress :: (List.range 24).map StoreUnit.key
    Framed [.bursts, .challenges, .credSlots, .writes, .sent, .boot, .ranges, .loads, .keySlots, .hold, .data, .rekey] s t ∧
      Proved s t i p ∧ t.rtb.resealOnWake = s.rtb.resealOnWake ∧ (∀ q, q ≠ r → t.entry q = s.entry q) ∧
      t.fields r = some { g.freedFor i with keyLost := true } ∧ KeysDamaged r k s t ∧ WritesOnly (.cred i :: us) s t ∧
      (((s.begun .unlock f).admitted p i).unlockScope i (s.grantValue i) (s.listedScope r i)).2 = 1 := by
  intro t us
  have hload : ((s.begun .unlock f).admitted p i).load r = .notLoaded := by simpa [State.load] using hn
  have hslots : ∀ q, ((s.begun .unlock f).admitted p i).slot q = s.slot q := fun q => by simp [State.slot]
  have hlock : ((s.begun .unlock f).admitted p i).lockdown = false := by simpa [State.lockdown] using hl
  have hfields : ((s.begun .unlock f).admitted p i).fields r = some g := (fields_admitted ..).trans hg
  have hbad : ¬ ((s.begun .unlock f).admitted p i).intactUnder r k := by
    simpa only [State.intactUnder, State.namedSlots, State.owns, fields_admitted, hslots] using hd
  obtain ⟨u, hu, hdamaged, huf, hue, hshaped, hwrites⟩ :=
    loadRange_damaged ((admitted_keeps s .unlock f p i).shaped hs) hlock hload hfields hbad
  have hscope : ((s.begun .unlock f).admitted p i).unlockScope i (s.grantValue i) (s.listedScope r i) =
      (u.setLocks r (listed g.readList i) (listed g.writeList i) false, 1) := by
    rw [listedScope_single s i hr, unlockScope_single, unlockFor_enabled i _ hfields, openEnvelope_admitted, hk,
      unlockRange_of_loads _ _ (by rw [hu]), hu]
    simp
  obtain ⟨ekst, erke, edpu, esent, esst, eentry, efields⟩ := setLocks_changes u r (listed g.readList i) (listed g.writeList i) false
  obtain ⟨hkst, hrtb, hrke, hdpu, hsst, hsent⟩ := unlocked_parts s f r i p
  rw [hscope] at hkst hrtb hrke hdpu hsst hsent
  have hentry : ∀ q, t.entry q = (u.setLocks r (listed g.readList i) (listed g.writeList i) false).entry q := fun q => by
    simp only [State.entry, t, hrtb]
  have hsame : ∀ q, t.fields q = (u.setLocks r (listed g.readList i) (listed g.writeList i) false).fields q := fun q => by
    simp only [State.fields, hentry]
  have halike : TableAlike u t := (setLocks_alike u r _ _ false hshaped).trans fun q => by rw [hsame]
  have hkeep := writesOnly_of_eq (s := u) (t := t) (by rw [hsst, esst]) (by rw [hsst, esst]) (by rw [hsst, esst]) []
  have hnone : StoreUnit.cred i ∉ us := by simp [us]
  obtain ⟨hframe, hproved, honly⟩ := unlocked_effect (r := r) (us := us) hp hnone (by
    rw [hscope]
    exact (hwrites.trans (us := us) (vs := []) (writesOnly_of_eq (by rw [esst]) (by rw [esst]) (by rw [esst]) [])).mono (by simp [us]))
  refine ⟨hframe, hproved, ?_, fun q hq => ?_, ?_, ?_, honly, congrArg Prod.snd hscope⟩
  · exact unlocked_reseal
  · rw [hentry, eentry q hq, hue q hq]
    simp [State.entry]
  · rw [hsame, efields hshaped, huf]
    simp only [Option.map_some, RangeFields.freedFor, flag_freed]
  · refine (hdamaged.later halike (hkst.trans ekst) (hrke.trans erke) (hdpu.trans edpu) (fun x hx => ?_) hkeep ?_).earlier (by simp)
      (by simp) (by simp) (by simp) (admitted_writes s .unlock f p i)
    · rw [hsent, esent]
      exact List.mem_append_left _ hx
    · refine (recordOf_range_of_eq ?_ ?_).trans (setLocks_record u r r (listed g.readList i) (listed g.writeList i) false hshaped)
      · rw [unlocked_btc, Boot.booted_provisioning, show u = _ from (congrArg Prod.fst hu).symm]
        simp
      · exact hentry r

/-- R68: of a single range that does not open nothing but the proof takes effect. -/
theorem unlocked_shut {g : RangeFields} (hp : (Instr.unlock f r p).passes s) (hr : r < 16) (hg : s.fields r = some g)
    (ho : ¬ (s.lockdown = false ∧ (s.load r ≠ .notLoaded ∨ s.openEnvelope r (.cred i) (s.grantValue i) ≠ none))) :
    let t := s.unlocked f r i p
    t.sent = s.sent ++ [frame .control f.tag (.unlocked 0 1 s.btc.state)] ∧
      Framed [.bursts, .challenges, .credSlots, .writes, .sent] s t ∧ Proved s t i p ∧ WritesOnly [.cred i] s t := by
  intro t
  obtain ⟨-, -, -, htag, -, -⟩ := Passes.of_request rfl hp
  have hload : ((s.begun .unlock f).admitted p i).load r = s.load r := by simp [State.load]
  have hlock : ((s.begun .unlock f).admitted p i).lockdown = s.lockdown := by simp [State.lockdown]
  have hscope : ((s.begun .unlock f).admitted p i).unlockScope i (s.grantValue i) [r] =
      ((s.begun .unlock f).admitted p i, 0) := by
    rw [unlockScope_single, unlockFor_enabled i _ ((fields_admitted ..).trans hg), openEnvelope_admitted,
      unlockRange_shut]
    · simp
    · rw [hload, hlock]
      cases hld : s.lockdown with
      | true => exact .inl rfl
      | false => exact .inr (by simpa [hld] using ho)
  obtain ⟨-, hframe, hproved, honly⟩ := answeredChange (s := s) (m := .unlock) (f := f) (p := p) (i := i)
    (.unlocked 0 1 s.btc.state) rfl (by decide) (htag rfl (by decide)) (Framed.refl [] _) (by simp) rfl (by simp) (WritesOnly.refl _ _)
    (us := []) List.not_mem_nil
  have ht : t = { (s.begun .unlock f).admitted p i with
      lif := { s.lif with burstTaken := s.lif.burstTaken + 1 }
      sent := ((s.begun .unlock f).admitted p i).sent ++ [frame .control f.tag (.unlocked 0 1 s.btc.state)] } := by
    have hbtc : ((s.begun .unlock f).admitted p i).btc = s.btc := by simp
    have hboot : s.btc.booted 0 = s.btc := if_neg (by simp)
    simp only [t, State.unlocked, State.scopeOpened, openBoot_eq, listedScope_single s i hr, hscope, hbtc, hboot]
    exact rfl
  rw [ht]
  exact ⟨by simp, hframe, hproved, honly⟩

end opened

end Sys2Proof.Machine

namespace Sys2Proof
open Machine

/-- Settles O28: the refusals in the order of R67; then, of one range, what it comes to as it opens intact, opens with
damage or does not open, and of all the ranges that list the slot, those that open; last the load that finds damage. -/
theorem unlockOpensItsRanges : Obligations.UnlockOpensItsRanges := by
  refine ⟨?_, fun s r k g hs hl hn hg hd => ?_⟩
  · intro f r i p s c usable calm via opens freed pieces booted hp hv
    have hfit : r < 16 ∨ r = 255 → rangeFieldFits r = true := (rangeFieldFits_iff r).mpr
    have hbtc : ((s.begun .unlock f).admitted p i).btc = s.btc := by simp
    have hrsu : ((s.begun .unlock f).admitted p i).rsu = s.rsu := by simp
    have hopen : usable → ¬ (((s.begun .unlock f).admitted p i).btc.state = .quarantine ∨
        ((s.begun .unlock f).admitted p i).btc.state = .erased) := fun h => by rw [hbtc]; exact not_or.mpr h
    refine ⟨fun h1 h2 => ?_, fun h hu => ?_, fun x h hu hx hlevel => ?_, fun g hs hr hg hu hcalm => ⟨fun ho => ?_, fun ho => ?_⟩,
      fun hr hu hcalm => ⟨?_, fun hs hi => ?_⟩⟩
    · refine unlock_refused hp hv (unlock_unfit _ _ _ ?_)
      rw [← Bool.not_eq_true, rangeFieldFits_iff]
      omega
    · refine unlock_refused hp hv (unlock_shutBoot _ _ _ (hfit h) ?_)
      rw [hbtc]
      by_contra hn
      exact hu (not_or.mp hn)
    · exact unlock_refused hp hv (unlock_pending _ _ _ (hfit h) (hopen hu) (responsePending_some (hrsu ▸ hx) hlevel))
    · have hscope := listedScope_single s i hr
      have hgo := unlock_goes hp hv (hfit (.inl hr)) hu hcalm
      refine ⟨s.unlocked f r i p, hgo, ?_⟩
      by_cases hi : s.load r ≠ .notLoaded ∨ ∀ k, via r = some k → s.intactUnder r k
      · obtain ⟨won, hn, hwon, hframe, hproved, hreseal, hfields, hentry, hkeys, hsweep, honly, hboot, hsent⟩ :=
          unlocked_loads (f := f) (p := p) hp hscope hs (List.nodup_singleton r) (by simp [hg]) (by
            intro q hq k hk hvia
            obtain rfl := List.mem_singleton.mp hq
            exact hi.elim (absurd hk) fun hi => hi k hvia)
        obtain rfl : won = [r] := List.perm_singleton.mp ((List.perm_ext_iff_of_nodup hn (List.nodup_singleton r)).mpr fun q => by
          rw [hwon, List.mem_singleton]
          exact ⟨And.left, fun e => ⟨e, e ▸ ho⟩⟩)
        refine ⟨hframe, hproved, hreseal, fun q hq => hentry q (by simpa using hq), hboot, ?_, fun _ => ⟨?_, hkeys, hsweep, honly, hsent⟩,
          fun k hk hv hd => (hi.elim (absurd hk) fun hi => hd (hi k hv)).elim⟩
        · rw [State.lastFrame, hsent]
          exact List.getLast?_concat ..
        · rw [hfields, if_pos (List.mem_singleton_self r), hg]
          exact rfl
      · simp only [ne_eq, not_or, not_not, not_forall] at hi
        obtain ⟨hn, k, hk, hd⟩ := hi
        obtain ⟨hframe, hproved, hreseal, hentry, hfields, hdamaged, honly, hone⟩ := unlocked_damaged (f := f) (p := p) hp hr hs hg ho.1 hn hk hd
        refine ⟨hframe, hproved, hreseal, hentry, ?_, ?_, fun h => ?_, fun k' _ hk' _ => ?_⟩
        · rw [unlocked_btc, hone]
          exact rfl
        · exact unlocked_lastFrame 1 0 hone (by rw [hscope]; exact rfl)
        · exact (h.elim (absurd hn) fun h => hd (h k hk)).elim
        · obtain rfl : k = k' := Option.some.inj (hk.symm.trans hk')
          exact ⟨hfields, hdamaged, honly⟩
    · obtain ⟨heq, hframe, hproved, honly⟩ := unlocked_shut (f := f) (p := p) hp hr hg ho
      exact ⟨_, unlock_goes hp hv (hfit (.inl hr)) hu hcalm, hframe, hproved, honly, heq⟩
    · obtain rfl := hr
      refine ⟨s.unlocked f 255 i p, _, _, unlock_goes hp hv (hfit (.inr rfl)) hu hcalm, ?_, unlocked_btc, unlocked_lastFrame _ _ rfl rfl⟩
      exact Nat.add_sub_cancel' (unlockScope_le ..)
    · obtain rfl := hr
      have hscope : s.listedScope 255 i = s.rangesWhere fun g => listed g.readList i || listed g.writeList i := rfl
      have hall : ∀ q, q ∈ s.listedScope 255 i ↔ ∃ g, s.fields q = some g ∧
          (listed g.readList i = true ∨ listed g.writeList i = true) := fun q => by
        rw [hscope, mem_rangesWhere s _ q hs]
        simp only [Bool.or_eq_true]
      obtain ⟨won, hn, hwon, hframe, hproved, hreseal, hfields, hentry, hkeys, hsweep, honly, hboot, hsent⟩ :=
        unlocked_loads (f := f) (p := p) hp rfl hs (rangesWhere_nodup s _) (fun q hq => by
          obtain ⟨g, hg, -⟩ := (hall q).mp hq
          exact ⟨g, hg⟩) (fun q hq k hk hvia => by
          obtain ⟨g, hg, hlist⟩ := (hall q).mp hq
          exact hi q g k hg hlist hk hvia)
      exact ⟨s.unlocked f 255 i p, s.listedScope 255 i, won, unlock_goes hp hv (hfit (.inr rfl)) hu hcalm, hframe, rangesWhere_nodup s _,
        hn, hall, hwon, hproved, hreseal, hfields, hentry, hkeys, hsweep, honly, hboot, hsent⟩
  · obtain ⟨t, ht, hdamaged, hf, he, -, honly⟩ := loadRange_damaged hs hl hn hg hd
    have hframe := loadRange_framed s r (some k)
    have hreseal : (s.loadRange r (some k)).1.rtb.resealOnWake = s.rtb.resealOnWake := by simp
    rw [ht] at hframe hreseal
    exact ⟨t, ht, hframe, hdamaged, hf, he, hreseal, honly⟩

end Sys2Proof


/-! REKEY_QUEUE and REKEY_RESUME (O45). Both write a part of the REKEY record, now or once the other part's write is
through, so what such a write keeps is said first. -/

namespace Sys2Proof.Machine

/-! ### Writes of the two parts of the REKEY record (R110) -/

theorem writeQueuePart_framed (s : State) (ws : List Waiter) : Framed [.writes, .rekey] s (s.writeQueuePart ws) :=
  ⟨(s.writeQueuePart_keeps ws).1, fun q hq => by cases q <;> simp_all [Piece.same]⟩

theorem writeProgressPart_framed (s : State) (ws : List Waiter) : Framed [.writes, .rekey] s (s.writeProgressPart ws) :=
  ⟨(s.writeProgressPart_keeps ws).1, fun q hq => by cases q <;> simp_all [Piece.same]⟩

/-- R110: a write of the queue part that must wait, and one that is placed. -/
theorem writeQueuePart_due {s : State} (ws : List Waiter) (h : s.outstanding .rekeyProgress = true) :
    s.writeQueuePart ws = { s with rke := { s.rke with dueQueue := some (s.rke.dueQueue.getD [] ++ ws) } } := if_pos h

theorem writeQueuePart_placed {s : State} (ws : List Waiter) (h : s.outstanding .rekeyProgress ≠ true) :
    s.writeQueuePart ws = { s with rke := { s.rke with dueQueue := none } }.write .rekeyQueue (s.rke.dueQueue.getD [] ++ ws) := if_neg h

theorem writeQueuePart_rke (s : State) (ws : List Waiter) :
    (s.writeQueuePart ws).rke = { s.rke with dueQueue := (s.writeQueuePart ws).rke.dueQueue } := by
  by_cases h : s.outstanding .rekeyProgress = true
  · rw [writeQueuePart_due ws h]
  · rw [writeQueuePart_placed ws h]
    simp

theorem writeQueuePart_only (s : State) (ws : List Waiter) : WritesOnly [.rekeyQueue] s (s.writeQueuePart ws) := by
  by_cases h : s.outstanding .rekeyProgress = true
  · rw [writeQueuePart_due ws h]
    exact writesOnly_of_eq rfl rfl rfl _
  · rw [writeQueuePart_placed ws h]
    exact (writesOnly_of_eq (us := []) rfl rfl rfl).trans (write_only _ _ _)

/-- Each requester of a write of the queue part awaits it. -/
theorem writeQueuePart_awaits {s : State} {ws : List Waiter} {w : Waiter} (hw : w ∈ ws) : (s.writeQueuePart ws).queuePartAwaits w := by
  by_cases h : s.outstanding .rekeyProgress = true
  · rw [writeQueuePart_due ws h]
    exact .inr ⟨_, rfl, List.mem_append_right _ hw⟩
  · rw [writeQueuePart_placed ws h]
    refine .inl ?_
    rw [write_recordOf]
    exact place_holds _ _ _ _ _ (List.mem_append_right _ hw)

/-- R110: a write of the progress part that must wait, and one that is placed. -/
theorem writeProgressPart_due {s : State} (ws : List Waiter) (h : s.progressBlocked = true) :
    s.writeProgressPart ws = { s with rke := { s.rke with dueProgress := some (s.rke.dueProgress.getD [] ++ ws) } } := if_pos h

theorem writeProgressPart_placed {s : State} (ws : List Waiter) (h : s.progressBlocked ≠ true) :
    s.writeProgressPart ws = { s with rke := { s.rke with dueProgress := none } }.write .rekeyProgress
      (s.rke.dueProgress.getD [] ++ ws) := if_neg h

/-- A further write of the progress part leaves those that await it waiting. -/
theorem writeProgressPart_keeps_awaits {s : State} (ws : List Waiter) {w : Waiter} (hw : s.progressAwaits w) :
    (s.writeProgressPart ws).progressAwaits w := by
  by_cases h : s.progressBlocked = true
  · rw [writeProgressPart_due ws h]
    refine hw.imp id fun ⟨l, hl, hw⟩ => ⟨_, rfl, ?_⟩
    simp [hl, hw]
  · rw [writeProgressPart_placed ws h]
    refine .inl ?_
    rw [write_recordOf]
    obtain hw | ⟨l, hl, hw⟩ := hw
    · exact write_keeps_holds _ _ _ _ _ hw
    · exact place_holds _ _ _ _ _ (by simp [hl, hw])


/-- A request that waits for its answer after change t of the state after its proof. -/
theorem waitingReply {s t : State} {m : Message} {f : Hdr} {p : ProofBlock} {i : Nat} {ps : List Piece} {us : List StoreUnit}
    (hc : m.channel = .control) (hl : m ≠ .linkStart) (hframe : Framed ps ((s.begun m f).admitted p i) t)
    (hlif : t.lif = ((s.begun m f).admitted p i).lif) (hcru : t.cru = ((s.begun m f).admitted p i).cru)
    (hprov : t.btc.provisioning = s.btc.provisioning) (hw : WritesOnly us ((s.begun m f).admitted p i) t)
    (hu : StoreUnit.cred i ∉ us) :
    Framed ([.bursts, .tags, .challenges, .credSlots, .writes] ++ ps) s t ∧ Proved s t i p ∧
      WritesOnly (.cred i :: us) s t ∧ t.lif.tagsInUse = s.lif.tagsInUse ++ [f.tag] :=
  ⟨(admitted_framed s m f p i).trans hframe,
    (admitted_proved s m f p i).through (by rw [hcru]) (by rw [hcru]) (by rw [hprov]; simp) hw hu,
    (admitted_writes s m f p i).trans hw, by rw [hlif, lif_admitted s f p i hc hl]⟩

/-- The link, credential and boot parts of the state as their pieces give them. -/
theorem Framed.parts {ps : List Piece} {s t : State} (h : Framed ps s t)
    (hn : ∀ q ∈ [Piece.link, .media, .bursts, .tags, .credSlots, .challenges, .credOps, .boot], q ∉ ps) :
    t.lif = s.lif ∧ t.cru = s.cru ∧ t.btc = s.btc := by
  have hlink := h.2 _ (hn .link (by decide))
  have hmedia := h.2 _ (hn .media (by decide))
  have hbursts := h.2 _ (hn .bursts (by decide))
  have htags := h.2 _ (hn .tags (by decide))
  have hslots := h.2 _ (hn .credSlots (by decide))
  have hchallenges := h.2 _ (hn .challenges (by decide))
  have hops := h.2 _ (hn .credOps (by decide))
  refine ⟨?_, ?_, h.2 _ (hn .boot (by decide))⟩
  · simp only [Piece.same] at hlink hmedia hbursts htags
    cases hs : s.lif
    cases ht : t.lif
    simp_all
  · simp only [Piece.same] at hslots hchallenges hops
    cases hs : s.cru
    cases ht : t.cru
    simp_all

/-! ### REKEY_QUEUE (R99) -/

/-- The boot state and the level in which R99 and R112 refuse WRONG_STATE. -/
theorem unready_iff (s : State) : (s.btc.state.usable = false ∨ s.lockdown = true) ↔
    (s.btc.state ≠ .sealed ∧ s.btc.state ≠ .opened) ∨ 2 ≤ s.rsu.level.number := by
  have hl : s.lockdown = true ↔ 2 ≤ s.rsu.level.number := by simp [State.lockdown]
  rw [hl]
  cases s.btc.state <;> simp [BootState.usable]

theorem unready_admitted {s : State} {m : Message} {f : Hdr} {p : ProofBlock} {i : Nat} :
    (((s.begun m f).admitted p i).btc.state.usable = false ∨ ((s.begun m f).admitted p i).lockdown = true) ↔
      (s.btc.state ≠ .sealed ∧ s.btc.state ≠ .opened) ∨ 2 ≤ s.rsu.level.number := by
  rw [unready_iff]
  simp

section queueRefusal
variable {s : State} {r : Nat} {g : RangeFields}

theorem queueRefusal_badField (h : 15 < r) : s.queueRefusal r = some .badField := if_pos h

theorem queueRefusal_unready (h : r ≤ 15) (hw : s.btc.state.usable = false ∨ s.lockdown = true) :
    s.queueRefusal r = some .wrongState := (if_neg (by omega)).trans (if_pos hw)

theorem queueRefusal_disabled (h : r ≤ 15) (hw : ¬ (s.btc.state.usable = false ∨ s.lockdown = true)) (hf : s.fields r = none) :
    s.queueRefusal r = some .wrongState := (if_neg (by omega)).trans ((if_neg hw).trans (by rw [hf]))

/-- R99: what is looked at last, for a range that is ENABLED. -/
theorem queueRefusal_enabled (h : r ≤ 15) (hw : ¬ (s.btc.state.usable = false ∨ s.lockdown = true)) (hf : s.fields r = some g) :
    s.queueRefusal r = if g.keyLost then some .keyLost
      else if s.rke.queue.any (fun j => j.range == r) then some .duplicate
      else if 8 ≤ s.rke.queue.length then some .listFull else none :=
  (if_neg (by omega)).trans ((if_neg hw).trans (by rw [hf]; exact rfl))

end queueRefusal

theorem queueRekey_refuses {s : State} {r : Nat} {st : Status} (g : Option WrapValue) (rto : ReplyTo)
    (h : s.queueRefusal r = some st) : s.queueRekey g r rto = s.refuse rto st := by
  simp only [State.queueRekey, h]

theorem queueRekey_shut {s : State} {r : Nat} {g : Option WrapValue} (rto : ReplyTo) (h : s.queueRefusal r = none)
    (ho : s.openEnvelope r (.cred 0) g = none) : s.queueRekey g r rto = s.refuse rto .wrongState := by
  simp only [State.queueRekey, h, ho]

/-- R99: the job of a range as it joins the queue. -/
def Job.queuedFor (r : Nat) (k : Rak) : Job :=
  { range := r, state := .queued, copy := some k, serial := none, newKey := none, fault := none }

/-- R99: a job joins the tail of the queue. -/
def State.withJob (s : State) (j : Job) : State := { s with rke := { s.rke with queue := s.rke.queue ++ [j] } }

theorem queueRekey_joins {s : State} {r : Nat} {g : Option WrapValue} {k : Rak} (rto : ReplyTo) (h : s.queueRefusal r = none)
    (ho : s.openEnvelope r (.cred 0) g = some k) : s.queueRekey g r rto =
      (s.withJob (.queuedFor r k)).writeQueuePart [.reply rto (.status .ok [s.rke.queue.length])] := by
  simp only [State.queueRekey, h, ho, State.withJob, Job.queuedFor]

section queue
variable {f : Hdr} {r i : Nat} {p : ProofBlock} {s : State}

theorem rekeyQueue_refused {st : Status} (hp : (Instr.rekeyQueue f r p).passes s) (hv : (Instr.rekeyQueue f r p).proves s i)
    (h : ((s.begun .rekeyQueue f).admitted p i).queueRekey (s.grantValue i) r (s.replyTo .control f.tag) =
      ((s.begun .rekeyQueue f).admitted p i).refuse (s.replyTo .control f.tag) st) :
    RefusedAfterProof (.rekeyQueue f r p) s i p f.tag st [] :=
  refused_admitted rfl rfl hp hv (fun rto u _ g => u.queueRekey g r rto) (fun _ => rfl) (by rw [grant_admitted]; exact h)

/-- R99: the job that joins the queue, and the write of the queue part that its OK waits for. -/
theorem rekeyQueue_joins {k : Rak} (hp : (Instr.rekeyQueue f r p).passes s) (hv : (Instr.rekeyQueue f r p).proves s i)
    (hr : ((s.begun .rekeyQueue f).admitted p i).queueRefusal r = none)
    (ho : s.openEnvelope r (.cred 0) (s.grantValue i) = some k) :
    ∃ t, Goes (.rekeyQueue f r p) s t ∧ Framed [.bursts, .tags, .challenges, .credSlots, .writes, .rekey] s t ∧ Proved s t i p ∧
      WritesOnly [.cred i, .rekeyQueue] s t ∧ t.lif.tagsInUse = s.lif.tagsInUse ++ [f.tag] ∧
      t.rke = { s.rke with queue := s.rke.queue ++ [.queuedFor r k], dueQueue := t.rke.dueQueue } ∧
      t.queuePartAwaits (s.reply f.tag (.status .ok [s.rke.queue.length])) := by
  have hrke : ((s.begun .rekeyQueue f).admitted p i).rke = s.rke := by simp
  have hgo : Goes (.rekeyQueue f r p) s _ := exec_admitted rfl rfl hp hv (fun rto u _ g => u.queueRekey g r rto) (fun _ => rfl)
  rw [grant_admitted, queueRekey_joins _ hr ((openEnvelope_admitted ..).trans ho), hrke] at hgo
  have hjoin : Framed [.rekey] ((s.begun .rekeyQueue f).admitted p i) (((s.begun .rekeyQueue f).admitted p i).withJob (.queuedFor r k)) :=
    ⟨rfl, fun q hq => by cases q <;> simp_all [Piece.same, State.withJob]⟩
  obtain ⟨hframe, hproved, honly, htags⟩ := waitingReply (s := s) (m := .rekeyQueue) (f := f) (p := p) (i := i) (us := [.rekeyQueue])
    rfl (by decide) (hjoin.trans (writeQueuePart_framed _ [.reply (s.replyTo .control f.tag) (.status .ok [s.rke.queue.length])]))
    (by simp [State.withJob]) (by simp [State.withJob]) (by simp [State.withJob])
    ((writesOnly_of_eq (us := []) rfl rfl rfl).trans (writeQueuePart_only _ _)) (by simp)
  refine ⟨_, hgo, hframe.mono (by decide), hproved, honly, htags, ?_, writeQueuePart_awaits (List.mem_singleton_self _)⟩
  rw [writeQueuePart_rke]
  simp [State.withJob]

end queue

/-! ### REKEY_RESUME (R112) -/

section resumeRefusal
variable {s : State} {r : Nat}

theorem resumeRefusal_badField (h : 15 < r) : s.resumeRefusal r = some .badField := if_pos h

theorem resumeRefusal_unready (h : r ≤ 15) (hw : s.sst.power = .standby ∨ s.lockdown = true ∨ s.btc.state.usable = false) :
    s.resumeRefusal r = some .wrongState := (if_neg (by omega)).trans (if_pos hw)

/-- R112: no head job of the range that could resume. -/
theorem resumeRefusal_noJob (h : r ≤ 15) (hw : ¬ (s.sst.power = .standby ∨ s.lockdown = true ∨ s.btc.state.usable = false))
    (hj : ∀ j, s.headJob = some j → j.range ≠ r ∨ j.state = .sweeping) : s.resumeRefusal r = some .wrongState := by
  refine (if_neg (by omega)).trans ((if_neg hw).trans ?_)
  cases hhead : s.headJob with
  | none => exact rfl
  | some j => exact if_pos (hj j hhead)

theorem resumeRefusal_job {j : Job} (h : r ≤ 15) (hw : ¬ (s.sst.power = .standby ∨ s.lockdown = true ∨ s.btc.state.usable = false))
    (hj : s.headJob = some j) (hr : j.range = r) (hs : j.state ≠ .sweeping) :
    (s.fields r = none → s.resumeRefusal r = some .wrongState) ∧
    (∀ g, s.fields r = some g → s.resumeRefusal r = if g.keyLost then some .keyLost else none) := by
  have hpage : ¬ 15 < r := by omega
  have hmay : ¬ (j.range ≠ r ∨ j.state = .sweeping) := by simp [hr, hs]
  exact ⟨fun hf => by simp only [State.resumeRefusal, if_neg hpage, if_neg hw, hj, if_neg hmay, hf],
    fun g hf => by simp only [State.resumeRefusal, if_neg hpage, if_neg hw, hj, if_neg hmay, hf]⟩

end resumeRefusal

theorem resumeRekey_refuses {s : State} {r : Nat} {st : Status} (g : Option WrapValue) (rto : ReplyTo)
    (h : s.resumeRefusal r = some st) : s.resumeRekey g r rto = s.refuse rto st := by
  simp only [State.resumeRekey, h]

theorem resumeRekey_shut {s : State} {r : Nat} {g : Option WrapValue} (rto : ReplyTo) (h : s.resumeRefusal r = none)
    (ho : s.openEnvelope r (.cred 0) g = none) : s.resumeRekey g r rto = s.refuse rto .wrongState := by
  simp only [State.resumeRekey, h, ho]

theorem resumeRekey_opens {s : State} {r : Nat} {g : Option WrapValue} {k : Rak} (rto : ReplyTo) (h : s.resumeRefusal r = none)
    (ho : s.openEnvelope r (.cred 0) g = some k) : s.resumeRekey g r rto = (s.resumeHead r k rto).settleDrain := by
  simp only [State.resumeRekey, h, ho]

section resumeHead
variable {s u : State} {r : Nat} {k : Rak} {g : RangeFields} (rto : ReplyTo)

theorem resumeHead_sweeping (hu : s.loadRange r (some k) = (u, true)) (hh : u.headState = some .sweeping) :
    s.resumeHead r k rto = u.writeProgressPart [.reply rto (.jobState .sweeping)] := by
  simp [State.resumeHead, hu, hh]

theorem resumeHead_lost (hu : s.loadRange r (some k) = (u, true)) (hh : u.headState ≠ some .sweeping) (hf : u.fields r = some g)
    (hk : g.keyLost = true) : s.resumeHead r k rto = u.refuse rto .keyLost := by
  simp [State.resumeHead, hu, hh, hf, hk]

theorem resumeHead_queued (hu : s.loadRange r (some k) = (u, true)) (hh : u.headState = some .queued) (hf : u.fields r = some g)
    (hk : g.keyLost = false) :
    s.resumeHead r k rto = (u.mapHead (fun j => { j with copy := some k })).answer rto (.jobState .queued) := by
  simp [State.resumeHead, hu, hh, hf, hk]

theorem resumeHead_resumes (hu : s.loadRange r (some k) = (u, true)) (hh : u.headState ≠ some .sweeping)
    (hq : u.headState ≠ some .queued) (hf : u.fields r = some g) (hk : g.keyLost = false) :
    s.resumeHead r k rto = u.resumeJob r [.reply rto (.jobState .sweeping)] := by
  simp [State.resumeHead, hu, hh, hq, hf, hk]

end resumeHead

theorem headState_of_rke {s u : State} {j : Job} (hj : s.headJob = some j) (h : u.rke = s.rke) : u.headState = some j.state := by
  simp [State.headState, State.headJob, h, show s.rke.queue.head? = some j from hj]

/-- What a resumption does is said of any state with the same sweep, hold, users counts and table. -/
theorem SweepsAgain.before {j : Job} {s s' t : State} (h : SweepsAgain j s' t) (hrke : s'.rke = s.rke) (hhold : s'.kst.hold = s.kst.hold)
    (husers : ∀ x, (s'.slot x).users = (s.slot x).users) (hf : ∀ q, s'.fields q = s.fields q) : SweepsAgain j s t := by
  obtain ⟨hr, hawait, hsplit, hwhole⟩ := h
  rw [hrke] at hr hawait
  simp only [hf, hhold, husers] at hsplit hwhole
  exact ⟨hr, hawait, hsplit, hwhole⟩

theorem SweepsAgain.head {j : Job} {s t : State} (h : SweepsAgain j s t) : t.headJob = some { j with state := .sweeping, fault := none } := by
  obtain ⟨hr, -⟩ := h
  rw [State.headJob, hr]
  exact rfl

/-- A further requester of the progress part changes nothing of a resumption. -/
theorem SweepsAgain.writesAgain {j : Job} {s t : State} (h : SweepsAgain j s t) (ws : List Waiter) :
    SweepsAgain j s (t.writeProgressPart ws) := by
  obtain ⟨hr, hawait, hsplit, hwhole⟩ := h
  have hslot : ∀ x, (t.writeProgressPart ws).slot x = t.slot x := fun x => by simp [State.slot]
  refine ⟨?_, writeProgressPart_keeps_awaits ws hawait, fun g w hg hw => ?_, fun hn => ?_⟩
  · rw [State.writeProgressPart_rke, hr]
  · obtain ⟨hhold, husers⟩ := hsplit g w hg hw
    exact ⟨by simpa using hhold, fun x hx => by rw [hslot]; exact husers x hx⟩
  · obtain ⟨hhold, husers⟩ := hwhole hn
    exact ⟨by simpa using hhold, fun x => by rw [hslot]; exact husers x⟩

/-- Loads say nothing of the users counts of the slots. -/
theorem KeysLoaded.users {l : List Nat} {via : Nat → Option Rak} {s t u : State} (h : KeysLoaded l via s t)
    (hl : u.kst.loads = t.kst.loads) (hr : u.kst.reservation = t.kst.reservation)
    (hx : ∀ x, u.slot x = { t.slot x with users := (u.slot x).users }) : KeysLoaded l via s u := by
  obtain ⟨hin, hout, hres, hslots⟩ := h
  have hload : ∀ q, u.load q = t.load q := fun q => by rw [State.load, State.load, hl]
  refine ⟨fun q hq k hk => (hload q).trans (hin q hq k hk), fun q hq => (hload q).trans (hout q hq), hr.trans hres, fun x => ?_⟩
  obtain ⟨htaken, hleft, heq⟩ := hslots x
  have hcopy : (u.slot x).copy = (t.slot x).copy := by rw [hx x]
  refine ⟨fun h => hcopy.trans (htaken h), fun h => hcopy.trans (hleft h), ?_⟩
  rw [hcopy]
  exact (hx x).trans (by rw [heq])

/-! ### What the head job comes to (R107, R112) -/

theorem resumeJob_framed (s : State) (r : Nat) (ws : List Waiter) :
    Framed [.writes, .rekey, .hold, .keySlots] s (s.resumeJob r ws) :=
  ⟨(s.resumeJob_keeps r ws).1, fun q hq => by cases q <;> simp_all [Piece.same]⟩

theorem loadsDone_framed {s u : State} {r : Nat} {via : Option Rak} {v : Nat → Option Rak} (hu : s.loadRange r via = (u, true))
    (h : LoadsDone [r] v s u) (hrtb : u.rtb = s.rtb) : Framed [.writes, .loads, .keySlots, .hold, .rekey] s u := by
  have hall := loadRange_framed s r via
  rw [hu] at hall
  have hsent := hall.drop (q := .sent) (qs := [.writes, .ranges, .loads, .keySlots, .hold, .data, .rekey]) h.sent (by decide)
  have hdata := hsent.drop (q := .data) (qs := [.writes, .ranges, .loads, .keySlots, .hold, .rekey]) h.dpu (by decide)
  exact hdata.drop (q := .ranges) ⟨by rw [hrtb], by rw [hrtb]⟩ (by decide)

section head
variable {s : State} {j : Job} {r : Nat} {k : Rak} {g : RangeFields} (rto : ReplyTo)

/-- R112: a QUEUED head stays QUEUED; the load takes no job up again. -/
theorem resumeHead_of_queued (hs : Shaped s) (hl : s.lockdown = false) (hj : s.headJob = some j) (hq : j.state = .queued)
    (hg : s.fields r = some g) (hk : g.keyLost = false) (hi : s.load r ≠ .notLoaded ∨ s.intactUnder r k) :
    ∃ u, s.resumeHead r k rto = (u.mapHead (fun j => { j with copy := some k })).answer rto (.jobState .queued) ∧
      Framed [.writes, .loads, .keySlots] s u ∧ u.rke = s.rke ∧ WritesOnly [] s u ∧ KeysLoaded [r] (fun _ => some k) s u ∧
      (∀ x, (u.slot x).users = (s.slot x).users) ∧ u.sent = s.sent := by
  obtain ⟨u, hu, hloads, hrtb⟩ := loadRange_loads (via := some k) hs hl hg (.inr (by simp)) fun k' hn hk' =>
    hi.elim (absurd hn) fun h => Option.some.inj hk' ▸ h
  obtain ⟨-, hstays⟩ := hloads.sweep
  obtain ⟨hrke, hhold, husers, hsame⟩ := hstays fun j' h => by
    obtain ⟨hj', hpaused, -⟩ := h
    obtain rfl := Option.some.inj (hj.symm.trans hj')
    rw [hq] at hpaused
    cases hpaused
  have hf : u.fields r = some g := by simpa [State.fields, State.entry, hrtb] using hg
  refine ⟨u, resumeHead_queued rto hu (by rw [headState_of_rke hj hrke, hq]) hf hk, ?_, hrke, fun w _ => ?_, hloads.keys, husers, hloads.sent⟩
  · have hnothold := (loadsDone_framed hu hloads hrtb).drop (q := .hold) (qs := [.writes, .loads, .keySlots, .rekey])
      ⟨hhold, hloads.keys.2.2.1⟩ (by decide)
    exact hnothold.drop (q := .rekey) hrke (by decide)
  · by_cases hw : w.unit = .rekeyProgress
    · exact hsame w hw
    · exact hloads.writes w (by simpa using hw)

/-- R107, R112: a PAUSED or FAULTED head sweeps again, whether the load took it up or the request does. -/
theorem resumeHead_of_stopped (hs : Shaped s) (hl : s.lockdown = false) (hj : s.headJob = some j) (hr : j.range = r)
    (hstop : j.state = .paused ∨ j.state = .faulted) (hg : s.fields r = some g) (hk : g.keyLost = false)
    (hi : s.load r ≠ .notLoaded ∨ s.intactUnder r k) :
    ∃ t, s.resumeHead r k rto = t ∧ Framed [.writes, .loads, .keySlots, .hold, .rekey] s t ∧ WritesOnly [.rekeyProgress] s t ∧
      KeysLoaded [r] (fun _ => some k) s t ∧ SweepsAgain j s t ∧ t.progressAwaits (.reply rto (.jobState .sweeping)) := by
  obtain ⟨u, hu, hloads, hrtb⟩ := loadRange_loads (via := some k) hs hl hg (.inr (by simp)) fun k' hn hk' =>
    hi.elim (absurd hn) fun h => Option.some.inj hk' ▸ h
  have hframe := loadsDone_framed hu hloads hrtb
  have hf : ∀ q, u.fields q = s.fields q := fun q => by simp [State.fields, State.entry, hrtb]
  obtain ⟨hagain, hstays⟩ := hloads.sweep
  by_cases hres : ∃ j', Resumes [r] s j'
  · obtain ⟨j', hj'⟩ := hres
    obtain rfl := Option.some.inj (hj.symm.trans hj'.1)
    have hsweeps := hagain j hj'
    have hhead : u.headState = some .sweeping := by rw [State.headState, hsweeps.head]; exact rfl
    refine ⟨_, resumeHead_sweeping rto hu hhead, (hframe.trans (writeProgressPart_framed u _)).mono (by decide),
      hloads.writes.trans (us := [.rekeyProgress]) (u.writeProgressPart_only _) |>.mono (by decide), hloads.keys.later (by simp),
      hsweeps.writesAgain _, State.writeProgressPart_awaits _ _ _ (List.mem_singleton_self _)⟩
  · obtain ⟨hrke, hhold, husers, -⟩ := hstays (not_exists.mp hres)
    have hhead : u.headState = some j.state := headState_of_rke hj hrke
    have hjob : u.headJob = some j := by rw [State.headJob, hrke]; exact hj
    obtain ⟨hsweeps, hload, hslots, honly, hawait⟩ := State.resumeJob_sweeps u j [.reply rto (.jobState .sweeping)] hloads.shaped hjob
    rw [hr] at hsweeps hload hslots honly hawait
    have hnot : j.state ≠ .sweeping ∧ j.state ≠ .queued := by obtain h | h := hstop <;> simp [h]
    refine ⟨_, resumeHead_resumes rto hu (by simp [hhead, hnot]) (by simp [hhead, hnot]) ((hf r).trans hg) hk,
      (hframe.trans (resumeJob_framed u r _)).mono (by decide), (hloads.writes.trans honly).mono (by decide),
      hloads.keys.users hload (by simp) hslots, hsweeps.before hrke hhold husers hf, hawait _ (List.mem_singleton_self _)⟩

/-- R36, R109: a load that finds damage leaves no head SWEEPING that was not, so the request is refused (log 24). -/
theorem resumeHead_of_damaged (hs : Shaped s) (hl : s.lockdown = false) (hj : s.headJob = some j) (hsw : j.state ≠ .sweeping)
    (hg : s.fields r = some g) (hn : s.load r = .notLoaded) (hd : ¬ s.intactUnder r k) :
    ∃ u, s.loadRange r (some k) = (u, true) ∧ s.resumeHead r k rto = u.refuse rto .keyLost ∧ KeysDamaged r k s u ∧
      u.fields r = some { g with keyLost := true } ∧ (∀ q, q ≠ r → u.entry q = s.entry q) ∧
      WritesOnly (.range r :: .rekeyProgress :: (List.range 24).map StoreUnit.key) s u := by
  obtain ⟨u, hu, hdamaged, hf, he, -, honly⟩ := loadRange_damaged hs hl hn hg hd
  refine ⟨u, hu, resumeHead_lost rto hu ?_ hf rfl, hdamaged, hf, he, honly⟩
  obtain ⟨-, -, -, -, -, -, hswept, hleft, -⟩ := hdamaged
  by_cases hjob : ∃ j', s.activeJob = some j' ∧ j'.range = r ∧ s.rke.finished = none
  · obtain ⟨j', hj'⟩ := hjob
    obtain ⟨-, -, hkept, hdropped⟩ := hswept j' hj'
    have hqueue : u.rke.queue = { j' with state := .faulted, fault := some .keyLost } :: s.rke.queue.tail := by
      by_cases hchunk : s.rke.headerIssued = true ∨ s.rke.phase = .idle
      · rw [hkept hchunk]
      · rw [hdropped hchunk]
    simp [State.headState, State.headJob, hqueue]
  · obtain ⟨hrke, -⟩ := hleft (not_exists.mp hjob)
    rw [headState_of_rke hj hrke]
    simpa using hsw

end head

/-! ### The request -/

theorem load_admitted (s : State) (m : Message) (f : Hdr) (p : ProofBlock) (i q : Nat) :
    ((s.begun m f).admitted p i).load q = s.load q := by simp [State.load]

theorem slot_admitted (s : State) (m : Message) (f : Hdr) (p : ProofBlock) (i x : Nat) :
    ((s.begun m f).admitted p i).slot x = s.slot x := by simp [State.slot]

theorem lockdown_admitted (s : State) (m : Message) (f : Hdr) (p : ProofBlock) (i : Nat) :
    ((s.begun m f).admitted p i).lockdown = s.lockdown := by simp [State.lockdown]

theorem headJob_admitted (s : State) (m : Message) (f : Hdr) (p : ProofBlock) (i : Nat) :
    ((s.begun m f).admitted p i).headJob = s.headJob := by simp [State.headJob]

theorem intactUnder_admitted (s : State) (m : Message) (f : Hdr) (p : ProofBlock) (i r : Nat) (k : Rak) :
    ((s.begun m f).admitted p i).intactUnder r k ↔ s.intactUnder r k := by
  simp only [State.intactUnder, State.namedSlots, State.owns, fields_admitted, slot_admitted]

/-- R107: the head job waits with a request of its chunk as soon as it sweeps again. -/
theorem SweepsAgain.request {j : Job} {s t : State} {o : ChunkOp} {l : List ChunkOp} (h : SweepsAgain j s t)
    (hlink : t.lif.started = true) (hout : t.lif.outstanding = s.lif.outstanding) (ho : s.rke.todo = o :: l)
    (hs : o.toScratch = true → s.staleScratch = false) : t.sweepRequest = some o := by
  have hhead := h.head
  obtain ⟨hr, -⟩ := h
  have htodo : t.rke.todo = o :: l := by rw [hr]; exact ho
  have hstale : t.staleScratch = s.staleScratch := by
    unfold State.staleScratch
    rw [hout, show t.rke.chunk = s.rke.chunk by rw [hr]]
  have hwait : (o.toScratch && s.staleScratch) = false := by
    cases hsc : o.toScratch with
    | false => exact rfl
    | true => rw [hs hsc]; exact rfl
  simp [State.sweepRequest, htodo, hhead, hlink, hstale, hwait]

section resume
variable {f : Hdr} {r i : Nat} {p : ProofBlock} {s : State} {j : Job} {g : RangeFields} {k : Rak}

theorem rekeyResume_refused {st : Status} (hp : (Instr.rekeyResume f r p).passes s) (hv : (Instr.rekeyResume f r p).proves s i)
    (h : ((s.begun .rekeyResume f).admitted p i).resumeRekey (s.grantValue i) r (s.replyTo .control f.tag) =
      ((s.begun .rekeyResume f).admitted p i).refuse (s.replyTo .control f.tag) st) :
    RefusedAfterProof (.rekeyResume f r p) s i p f.tag st [] :=
  refused_admitted rfl rfl hp hv (fun rto u _ g => u.resumeRekey g r rto) (fun _ => rfl) (by rw [grant_admitted]; exact h)

theorem rekeyResume_goes (hp : (Instr.rekeyResume f r p).passes s) (hv : (Instr.rekeyResume f r p).proves s i)
    (hr : ((s.begun .rekeyResume f).admitted p i).resumeRefusal r = none)
    (ho : s.openEnvelope r (.cred 0) (s.grantValue i) = some k) :
    Goes (.rekeyResume f r p) s
      (((s.begun .rekeyResume f).admitted p i).resumeHead r k (s.replyTo .control f.tag)).settleDrain := by
  have hgo : Goes (.rekeyResume f r p) s _ := exec_admitted rfl rfl hp hv (fun rto u _ g => u.resumeRekey g r rto) (fun _ => rfl)
  rw [grant_admitted, resumeRekey_opens _ hr ((openEnvelope_admitted ..).trans ho)] at hgo
  exact hgo

theorem rekeyResume_queued (hp : (Instr.rekeyResume f r p).passes s) (hv : (Instr.rekeyResume f r p).proves s i)
    (hres : ((s.begun .rekeyResume f).admitted p i).resumeRefusal r = none) (ho : s.openEnvelope r (.cred 0) (s.grantValue i) = some k)
    (hl : s.lockdown = false) (hj : s.headJob = some j) (hg : s.fields r = some g) (hk : g.keyLost = false) (hq : j.state = .queued)
    (hi : s.load r ≠ .notLoaded ∨ s.intactUnder r k) (hs : Shaped s) :
    ∃ t : State, Goes (.rekeyResume f r p) s t.settleDrain ∧
      Framed [.bursts, .challenges, .credSlots, .writes, .keySlots, .loads, .rekey, .sent] s t ∧ Proved s t i p ∧
      WritesOnly [.cred i] s t ∧ KeysLoaded [r] (fun _ => some k) s t ∧ (∀ x, (t.slot x).users = (s.slot x).users) ∧
      t.rke = { s.rke with queue := { j with copy := some k } :: s.rke.queue.tail } ∧
      t.sent = s.sent ++ [frame .control f.tag (.jobState .queued)] := by
  obtain ⟨-, -, -, htag, -, -⟩ := Passes.of_request rfl hp
  obtain ⟨u, hu, hframe, hrke, honly, hkeys, husers, hsent⟩ := resumeHead_of_queued (s.replyTo .control f.tag)
    ((admitted_keeps s .rekeyResume f p i).shaped hs) ((lockdown_admitted ..).trans hl) ((headJob_admitted ..).trans hj) hq
    ((fields_admitted ..).trans hg) hk (by rw [load_admitted, intactUnder_admitted]; exact hi)
  have hgo := rekeyResume_goes hp hv hres ho
  have hhead : Framed [.rekey] u (u.mapHead (fun j => { j with copy := some k })) :=
    ⟨rfl, fun q hq => by cases q <;> simp_all [Piece.same, State.mapHead]⟩
  obtain ⟨hlif, hcru, hbtc⟩ := hframe.parts (by decide)
  obtain ⟨hanswer, hframed, hproved, hwrites⟩ := answeredChange (s := s) (m := .rekeyResume) (f := f) (p := p) (i := i) (us := [])
    (.jobState .queued) rfl (by decide) (htag rfl (by decide)) (hframe.trans hhead) (hlif.trans (by simp)) hcru
    (by rw [show (u.mapHead _).btc = u.btc from rfl, hbtc]; simp) (honly.trans (us := []) (vs := []) (writesOnly_of_eq rfl rfl rfl _)) List.not_mem_nil
  rw [hu, hanswer] at hgo
  refine ⟨_, hgo, hframed.mono (by decide), hproved, hwrites, (hkeys.later (u := u) rfl).earlier (by simp) (by simp),
    fun x => (husers x).trans (by rw [slot_admitted]), ?_, by simp [hsent, State.mapHead]⟩
  have hqueue : ((s.begun .rekeyResume f).admitted p i).rke = s.rke := by simp
  have htail : s.rke.queue = j :: s.rke.queue.tail := (List.head?_eq_some_iff.mp hj).elim fun l hl => by rw [hl]; exact rfl
  simp only [State.mapHead, hrke, hqueue]
  rw [htail]
  exact rfl

theorem rekeyResume_sweeps (hp : (Instr.rekeyResume f r p).passes s) (hv : (Instr.rekeyResume f r p).proves s i)
    (hres : ((s.begun .rekeyResume f).admitted p i).resumeRefusal r = none) (ho : s.openEnvelope r (.cred 0) (s.grantValue i) = some k)
    (hl : s.lockdown = false) (hj : s.headJob = some j) (hr : j.range = r) (hg : s.fields r = some g) (hk : g.keyLost = false)
    (hstop : j.state = .paused ∨ j.state = .faulted) (hi : s.load r ≠ .notLoaded ∨ s.intactUnder r k) (hs : Shaped s) :
    ∃ t : State, Goes (.rekeyResume f r p) s t.settleDrain ∧
      Framed [.bursts, .tags, .challenges, .credSlots, .writes, .rekey, .hold, .keySlots, .loads] s t ∧ Proved s t i p ∧
      WritesOnly [.cred i, .rekeyProgress] s t ∧ t.lif.tagsInUse = s.lif.tagsInUse ++ [f.tag] ∧
      KeysLoaded [r] (fun _ => some k) s t ∧ SweepsAgain j s t ∧ t.progressAwaits (s.reply f.tag (.jobState .sweeping)) ∧
      (∀ o l, s.rke.todo = o :: l → (o.toScratch = true → s.staleScratch = false) → t.sweepRequest = some o) := by
  obtain ⟨-, -, -, -, hearly, -⟩ := Passes.of_request rfl hp
  obtain ⟨t, ht, hframe, honly, hkeys, hsweeps, hawait⟩ := resumeHead_of_stopped (s.replyTo .control f.tag)
    ((admitted_keeps s .rekeyResume f p i).shaped hs) ((lockdown_admitted ..).trans hl) ((headJob_admitted ..).trans hj) hr hstop
    ((fields_admitted ..).trans hg) hk (by rw [load_admitted, intactUnder_admitted]; exact hi)
  obtain ⟨hlif, hcru, hbtc⟩ := hframe.parts (by decide)
  obtain ⟨hframed, hproved, hwrites, htags⟩ := waitingReply (s := s) (m := .rekeyResume) (f := f) (p := p) (i := i) (us := [.rekeyProgress])
    rfl (by decide) hframe hlif hcru (by rw [hbtc]; simp) honly (by simp)
  have hbefore : SweepsAgain j s t := hsweeps.before (by simp) (by simp) (fun x => by rw [slot_admitted]) (fun q => fields_admitted ..)
  have hlink := hframed.2 .link (by decide)
  have hmedia := hframed.2 .media (by decide)
  have hgo := rekeyResume_goes hp hv hres ho
  rw [ht] at hgo
  refine ⟨t, hgo, hframed.mono (by decide), hproved, hwrites, htags, hkeys.earlier (by simp) (by simp), hbefore, hawait,
    fun o l hto hsc => hbefore.request ?_ hmedia.1 hto hsc⟩
  rw [hlink.1]
  exact hearly.resolve_right (by decide)

theorem rekeyResume_damaged (hp : (Instr.rekeyResume f r p).passes s) (hv : (Instr.rekeyResume f r p).proves s i)
    (hres : ((s.begun .rekeyResume f).admitted p i).resumeRefusal r = none) (ho : s.openEnvelope r (.cred 0) (s.grantValue i) = some k)
    (hl : s.lockdown = false) (hj : s.headJob = some j) (hsw : j.state ≠ .sweeping) (hg : s.fields r = some g)
    (hn : s.load r = .notLoaded) (hd : ¬ s.intactUnder r k) (hs : Shaped s) :
    ∃ t : State, Goes (.rekeyResume f r p) s t.settleDrain ∧
      Framed [.bursts, .challenges, .credSlots, .writes, .sent, .ranges, .loads, .keySlots, .hold, .data, .rekey] s t ∧
      Proved s t i p ∧ KeysDamaged r k s t ∧ t.fields r = some { g with keyLost := true } ∧
      (∀ q, q ≠ r → t.entry q = s.entry q) ∧ t.rtb.resealOnWake = s.rtb.resealOnWake ∧
      WritesOnly (.cred i :: .range r :: .rekeyProgress :: (List.range 24).map StoreUnit.key) s t ∧
      t.lastFrame = some (frame .control f.tag (.status .keyLost [])) := by
  obtain ⟨-, -, -, htag, -, -⟩ := Passes.of_request rfl hp
  obtain ⟨u, hload, hu, hdamaged, hf, he, honly⟩ := resumeHead_of_damaged (g := g) (s.replyTo .control f.tag)
    ((admitted_keeps s .rekeyResume f p i).shaped hs) ((lockdown_admitted ..).trans hl) ((headJob_admitted ..).trans hj) hsw
    ((fields_admitted ..).trans hg) ((load_admitted ..).trans hn) (mt (intactUnder_admitted ..).mp hd)
  have hframe := loadRange_framed ((s.begun .rekeyResume f).admitted p i) r (some k)
  have hreseal : (((s.begun .rekeyResume f).admitted p i).loadRange r (some k)).1.rtb.resealOnWake = s.rtb.resealOnWake := by simp
  rw [hload] at hframe hreseal
  obtain ⟨hlif, hcru, hbtc⟩ := hframe.parts (by decide)
  obtain ⟨hanswer, hframed, hproved, hwrites⟩ := answeredChange (s := s) (m := .rekeyResume) (f := f) (p := p) (i := i)
    (us := .range r :: .rekeyProgress :: (List.range 24).map StoreUnit.key)
    (.status .keyLost []) rfl (by decide) (htag rfl (by decide)) hframe (hlif.trans (by simp)) hcru (by rw [hbtc]; simp) honly (by simp)
  have hgo := rekeyResume_goes hp hv hres ho
  rw [hu, State.refuse, hanswer] at hgo
  refine ⟨_, hgo, hframed.mono (by decide), hproved, ?_, hf, fun q hq => (he q hq).trans (by simp [State.entry]), hreseal, hwrites,
    List.getLast?_concat ..⟩
  exact (hdamaged.earlier (by simp) (by simp) (by simp) (by simp) (admitted_writes s .rekeyResume f p i)).later (fun _ => rfl) rfl rfl rfl
    (fun x hx => List.mem_append_left _ hx) (writesOnly_of_eq rfl rfl rfl []) rfl

end resume

end Sys2Proof.Machine

namespace Sys2Proof
open Machine

/-- Settles O45: the refusals of R99 and R112 in their order, the job that joins the queue, and the head job as it stays
QUEUED, sweeps again or loses its key. -/
theorem rekeyRequestsMoveTheQueue : Obligations.RekeyRequestsMoveTheQueue := by
  intro f r i p s wrong opened
  constructor
  · intro c hp hv
    have hrke : ((s.begun .rekeyQueue f).admitted p i).rke = s.rke := by simp
    have refuse : ∀ {st}, ((s.begun .rekeyQueue f).admitted p i).queueRefusal r = some st → RefusedAfterProof c s i p f.tag st [] :=
      fun h => rekeyQueue_refused hp hv (queueRekey_refuses _ _ h)
    refine ⟨fun h => refuse (queueRefusal_badField h), fun h hw => ?_, ?_⟩
    · by_cases hbad : wrong
      · exact refuse (queueRefusal_unready h (unready_admitted.mpr hbad))
      · exact refuse (queueRefusal_disabled h (mt unready_admitted.mp hbad) ((fields_admitted ..).trans (hw.resolve_left hbad)))
    · intro g h hw hg twice
      have hall := queueRefusal_enabled h (mt unready_admitted.mp hw) ((fields_admitted s .rekeyQueue f p i r).trans hg)
      have htwice : s.rke.queue.any (fun j => j.range == r) = true ↔ twice := by simp [twice]
      rw [hrke] at hall
      have fits : g.keyLost = false → ¬ twice → s.rke.queue.length < 8 →
          ((s.begun .rekeyQueue f).admitted p i).queueRefusal r = none := fun hk ht hn =>
        hall.trans ((if_neg (by simp [hk])).trans ((if_neg (mt htwice.mp ht)).trans (if_neg (by omega))))
      exact ⟨fun hk => refuse (hall.trans (if_pos hk)),
        fun hk ht => refuse (hall.trans ((if_neg (by simp [hk])).trans (if_pos (htwice.mpr ht)))),
        fun hk ht hn => refuse (hall.trans ((if_neg (by simp [hk])).trans ((if_neg (mt htwice.mp ht)).trans (if_pos hn)))),
        fun hk ht hn ho => rekeyQueue_refused hp hv (queueRekey_shut _ (fits hk ht hn) ((openEnvelope_admitted ..).trans ho)),
        fun k hk ht hn ho => rekeyQueue_joins hp hv (fits hk ht hn) ho⟩
  · intro c hp hv
    have hpower : ((s.begun .rekeyResume f).admitted p i).sst.power = s.sst.power := by simp
    have refuse : ∀ {st}, ((s.begun .rekeyResume f).admitted p i).resumeRefusal r = some st → RefusedAfterProof c s i p f.tag st [] :=
      fun h => rekeyResume_refused hp hv (resumeRekey_refuses _ _ h)
    have hready : (((s.begun .rekeyResume f).admitted p i).sst.power = .standby ∨
        ((s.begun .rekeyResume f).admitted p i).lockdown = true ∨
        ((s.begun .rekeyResume f).admitted p i).btc.state.usable = false) ↔ s.sst.power = .standby ∨ wrong := by
      rw [hpower, or_comm (b := _ = false), unready_admitted]
    refine ⟨fun h => refuse (resumeRefusal_badField h), fun h hw => ?_, ?_⟩
    · by_cases hbad : s.sst.power = .standby ∨ wrong
      · exact refuse (resumeRefusal_unready h (hready.mpr hbad))
      · by_cases hjob : ∀ j, s.headJob = some j → j.range ≠ r ∨ j.state = .sweeping
        · exact refuse (resumeRefusal_noJob h (mt hready.mp hbad) fun j hj => hjob j ((headJob_admitted ..).symm.trans hj))
        · simp only [not_forall, not_or, ne_eq, not_not] at hjob
          obtain ⟨j, hj, hr, hs⟩ := hjob
          have hf : s.fields r = none := by
            obtain hw | hw | hw | hw := hw
            · exact absurd (.inl hw) hbad
            · exact absurd (.inr hw) hbad
            · exact ((hw j hj).elim (absurd hr) hs).elim
            · exact hw
          exact refuse ((resumeRefusal_job h (mt hready.mp hbad) ((headJob_admitted ..).trans hj) hr hs).1 ((fields_admitted ..).trans hf))
    · intro j g h hpow hw hj hr hs hg
      have hl : s.lockdown = false := by
        rw [Bool.eq_false_iff]
        exact fun hl => hw (.inr (by simpa [State.lockdown] using hl))
      have hall := (resumeRefusal_job h (mt hready.mp (not_or.mpr ⟨hpow, hw⟩)) ((headJob_admitted ..).trans hj) hr hs).2 g
        ((fields_admitted ..).trans hg)
      have hnone : g.keyLost = false → ((s.begun .rekeyResume f).admitted p i).resumeRefusal r = none :=
        fun hk => hall.trans (if_neg (by simp [hk]))
      exact ⟨fun hk => refuse (hall.trans (if_pos hk)),
        fun hk ho => rekeyResume_refused hp hv (resumeRekey_shut _ (hnone hk) ((openEnvelope_admitted ..).trans ho)),
        fun k hk ho hq hi hsh => rekeyResume_queued hp hv (hnone hk) ho hl hj hg hk hq hi hsh,
        fun k hk ho hstop hi hsh => rekeyResume_sweeps hp hv (hnone hk) ho hl hj hr hg hk hstop hi hsh,
        fun k hk ho hn hd hsh => rekeyResume_damaged hp hv (hnone hk) ho hl hj hs hg hn hd hsh⟩

end Sys2Proof


/-! REKEY_JOB_START (O46): what a load leaves where no job resumes, and the state in which the head job has started. -/

namespace Sys2Proof.Machine

/-- A load that takes no job up again changes neither the sweep nor its hold, and places no write. -/
theorem LoadsDone.still {l : List Nat} {via : Nat → Option Rak} {s u : State} (h : LoadsDone l via s u) (hn : ∀ j, ¬ Resumes l s j) :
    u.rke = s.rke ∧ u.kst.hold = s.kst.hold ∧ (∀ x, (u.slot x).users = (s.slot x).users) ∧ WritesOnly [] s u := by
  obtain ⟨hrke, hhold, husers, hsame⟩ := h.sweep.2 hn
  refine ⟨hrke, hhold, husers, fun w _ => ?_⟩
  by_cases hw : w.unit = .rekeyProgress
  · exact hsame w hw
  · exact h.writes w (by simpa using hw)

theorem RangeFields.keySlot_mem_named (g : RangeFields) : g.keySlot ∈ g.named := by
  unfold RangeFields.named
  cases g.split <;> simp

/-- R29: the slot of a key that is made for a range, as it is LOADED under the RAK. -/
def KeySlot.made (r n : Nat) (rak : Rak) : KeySlot :=
  { state := .live, owner := some r, material := some { key := { issue := n }, rak := rak, whole := true }, users := 0
    copy := some { issue := n }, erasing := false }

theorem generate_made {s : State} {r e : Nat} {rak : Rak} (he : s.emptySlot = some e) (hl : (s.load r).rak? = some rak) :
    s.generate r rak = ((s.mapSlot e (fun _ => .made r s.fresh rak)).bump, some e) := by
  simp only [State.generate, he, hl, if_pos, KeySlot.made]

theorem takeHold_split {s : State} {r : Nat} {g : RangeFields} {w : Split} (hg : s.fields r = some g) (hw : g.split = some w) :
    s.takeHold r = { (s.addUser g.keySlot).addUser w.newKey with
      kst := { ((s.addUser g.keySlot).addUser w.newKey).kst with hold := some { range := r, oldKey := g.keySlot, newKey := w.newKey } } } := by
  simp only [State.takeHold, hg, hw]

/-- R100 items 2 and 3: the new key in slot e, and the range under rekey from its first block. -/
def State.rekeyed (s : State) (r e : Nat) (rak : Rak) (g : RangeFields) : State :=
  ((s.mapSlot e (fun _ => .made r s.fresh rak)).bump).setEntry r
    (.enabled { g with split := some { newKey := e, watermark := s.firstBlock r } })

/-- R100 item 4: the head job as it sweeps, before the first of its writes is placed. -/
def State.jobStarted (s : State) (r e : Nat) : State :=
  let t := (s.takeHold r).mapHead fun j =>
    { j with state := .sweeping, copy := none, serial := some ((s.rke.serial + 1) % 65536), newKey := some e }
  { t with rke := { t.rke with serial := (s.rke.serial + 1) % 65536, seq := some .startKey } }

theorem startJob_starts {s : State} {r e : Nat} {rak : Rak} {g : RangeFields} (he : s.emptySlot = some e)
    (hl : (s.load r).rak? = some rak) (hg : s.fields r = some g) (hk : (s.slot g.keySlot).state = .live)
    (ho : s.owns r g.keySlot = true) :
    s.startJob r rak = ((s.rekeyed r e rak g).jobStarted r e).write (.key e) [.rekeySeq .startKey ((s.rke.serial + 1) % 65536)] := by
  have hf : ((s.mapSlot e (fun _ => .made r s.fresh rak)).bump).fields r = some g := hg
  have hfirst : ((s.mapSlot e (fun _ => .made r s.fresh rak)).bump).firstBlock r = s.firstBlock r := rfl
  have hserial : (s.rekeyed r e rak g).rke.serial = s.rke.serial := rfl
  simp only [State.startJob, generate_made he hl, hf, hfirst, if_pos (And.intro hk ho), State.jobStarted, hserial]
  exact rfl

theorem startJob_framed (s : State) (r : Nat) (rak : Rak) :
    Framed [.writes, .keySlots, .loads, .hold, .ranges, .rekey, .names] s (s.startJob r rak) :=
  ⟨(s.startJob_keeps r rak).1, fun q hq => by cases q <;> simp_all [Piece.same]⟩

section started
variable {s : State} {r e : Nat} {rak : Rak} {g : RangeFields}

theorem rekeyed_fields (hs : Shaped s) (hr : r < 16) : (s.rekeyed r e rak g).fields r =
    some { g with split := some { newKey := e, watermark := s.firstBlock r } } := by
  unfold State.fields State.rekeyed
  rw [entry_setEntry, if_pos ⟨rfl, show r < s.rtb.entries.length by rw [hs.entries]; exact hr⟩]
  exact rfl

/-- R28, R100: the slots once the job holds its two keys. -/
theorem jobStarted_slot (hs : Shaped s) (hr : r < 16) (hg : s.fields r = some g) (he : e < 24) (hk : g.keySlot < 24)
    (hne : g.keySlot ≠ e) (x : Nat) : ((s.rekeyed r e rak g).jobStarted r e).slot x =
      if x = e then { KeySlot.made r s.fresh rak with users := 1 }
      else if x = g.keySlot then { s.slot x with users := (s.slot x).users + 1 } else s.slot x := by
  have hheld : ((s.rekeyed r e rak g).jobStarted r e).kst.slots =
      (((s.rekeyed r e rak g).addUser g.keySlot).addUser e).kst.slots := by
    unfold State.jobStarted
    rw [takeHold_split (rekeyed_fields hs hr) rfl]
    exact rfl
  have hmade : (s.rekeyed r e rak g).slot x = if x = e ∧ x < 24 then .made r s.fresh rak else s.slot x := by
    refine (slot_mapSlot s e x _).trans ?_
    rw [hs.keySlots]
  have hlen : (s.rekeyed r e rak g).kst.slots.length = 24 := by
    rw [← hs.keySlots]
    exact List.length_modify ..
  have hlen' : ((s.rekeyed r e rak g).addUser g.keySlot).kst.slots.length = 24 := by
    rw [← hlen]
    exact List.length_modify ..
  rw [State.slot, hheld, ← State.slot, State.addUser, slot_mapSlot, hlen', State.addUser, slot_mapSlot, hlen, hmade]
  by_cases hxe : x = e
  · subst hxe
    simp [he, Ne.symm hne, KeySlot.made]
  · by_cases hxk : x = g.keySlot
    · subst hxk
      simp [hk, hxe]
    · simp [hxe, hxk]

/-- The parts of the state in which the head job has started. -/
theorem jobStarted_parts (hs : Shaped s) (hr : r < 16) :
    let t := (s.rekeyed r e rak g).jobStarted r e
    t.kst.loads = s.kst.loads ∧ t.kst.reservation = s.kst.reservation ∧ t.rtb = (s.rekeyed r e rak g).rtb ∧ t.sst = s.sst ∧
      t.rke = { s.rke with
        serial := (s.rke.serial + 1) % 65536, seq := some .startKey
        queue := s.rke.queue.modify 0 fun j =>
          { j with state := .sweeping, copy := none, serial := some ((s.rke.serial + 1) % 65536), newKey := some e } } ∧
      t.fresh = s.fresh + 1 ∧ t.kst.hold = some { range := r, oldKey := g.keySlot, newKey := e } := by
  unfold State.jobStarted
  rw [takeHold_split (rekeyed_fields hs hr) rfl]
  exact ⟨rfl, rfl, rfl, rfl, rfl, rfl, rfl⟩

end started

/-! ### The start of the head job (R100) -/

theorem canStart_iff (s : State) (j : Job) : s.canStart j = true ↔ j.state = .queued ∧ s.rke.seq = none ∧ s.sst.power = .active ∧
    s.rsu.level.number < 2 ∧ s.rtb.commit = .idle ∧ (j.copy ≠ none ∨ ∃ k, s.load j.range = .loaded k) ∧
    s.kst.reservation < s.poolCount .empty ∧ s.fields j.range ≠ none := by
  have hcopy : j.copy.isSome = true ↔ j.copy ≠ none := Option.isSome_iff_ne_none
  have hfields : (s.fields j.range).isSome = true ↔ s.fields j.range ≠ none := Option.isSome_iff_ne_none
  have hlock : (!s.lockdown) = true ↔ s.rsu.level.number < 2 := by simp [State.lockdown]
  have hkey : s.canGenerate = true ↔ s.kst.reservation < s.poolCount .empty := by simp [State.canGenerate]
  unfold State.canStart
  cases hl : s.load j.range <;>
    simp only [Bool.and_eq_true, Bool.or_eq_true, beq_iff_eq, Option.isNone_iff_eq_none, s.commitIdle_iff, hcopy, hfields, hlock, hkey,
      reduceCtorEq, Load.loaded.injEq, exists_eq', exists_false, Bool.false_eq_true, or_false, or_true, and_assoc, true_and]

theorem rekeyJobStart_waits {s : State} (h : ∀ j, s.headJob = some j → s.canStart j ≠ true) : s.rekeyJobStart = s := by
  unfold State.rekeyJobStart
  cases hj : s.headJob with
  | none => exact rfl
  | some j => exact if_neg (h j hj)

theorem rekeyJobStart_starts {s u : State} {j : Job} {k : Rak} (hj : s.headJob = some j) (hc : s.canStart j = true)
    (hu : s.loadRange j.range j.copy = (u, true)) (hl : (u.load j.range).rak? = some k) : s.rekeyJobStart = u.startJob j.range k := by
  simp only [State.rekeyJobStart, hj, hc, if_pos, hu, hl]

/-- R29: with room for a generation the key is made in the lowest EMPTY slot. -/
theorem emptySlot_of_room {s : State} (h : s.kst.reservation < s.poolCount .empty) :
    ∃ e, s.emptySlot = some e ∧ e < 23 ∧ (s.slot e).state = .empty ∧ ∀ x < e, (s.slot x).state ≠ .empty := by
  cases he : s.emptySlot with
  | none =>
    have hnone := List.find?_eq_none.mp he
    have hzero : s.poolCount .empty = 0 := by
      unfold State.poolCount
      rw [List.filter_eq_nil_iff.mpr hnone]
      exact rfl
    omega
  | some e =>
    have hlt : e < 23 := List.mem_range.mp (List.mem_of_find?_eq_some he)
    refine ⟨e, rfl, hlt, by simpa using List.find?_some he, fun x hx hempty => ?_⟩
    obtain ⟨-, i, hi, rfl, hmin⟩ := List.find?_eq_some_iff_getElem.mp he
    rw [List.getElem_range] at hx
    simpa [hempty] using hmin x hx

end Sys2Proof.Machine

namespace Sys2Proof
open Machine

/-- Settles O46: the load of the head job takes no job up, so all else is what the start makes of the state after it. -/
theorem rekeyJobStarts : Obligations.RekeyJobStarts := by
  intro s ready
  have hready : ∀ j, ready j ↔ s.headJob = some j ∧ s.canStart j = true := fun j => by rw [canStart_iff]; tauto
  refine ⟨fun hn => ?_, fun j g k hj hs hg hlive howner hrak => ?_⟩
  · exact congrArg done (rekeyJobStart_waits fun j hj hc => hn j ((hready j).mpr ⟨hj, hc⟩))
  · obtain ⟨hhead, hcan⟩ := (hready j).mp hj
    obtain ⟨-, hqueued, -, -, hlevel, -, hroom, hcopy, -⟩ := hj
    have hl : s.lockdown = false := by simpa [State.lockdown] using hlevel
    have hr : j.range < 16 := by have := fields_lt s _ _ hg; rwa [hs.entries] at this
    obtain ⟨u, hu, hloads, hrtb⟩ := loadRange_loads (via := j.copy) hs hl hg (by
      obtain hk | ⟨-, hk, -⟩ := hrak
      · exact .inl fun hn => by rw [hn] at hk; cases hk
      · exact .inr (by simp [hk])) (fun k' hn hk' => by
      obtain hk | ⟨-, hk, hi⟩ := hrak
      · rw [hn] at hk; cases hk
      · obtain rfl := Option.some.inj (hk.symm.trans hk')
        exact hi)
    obtain ⟨hrke, hhold, husers, hquiet⟩ := hloads.still fun j' h => by
      obtain ⟨hj', hpaused, -⟩ := h
      obtain rfl := Option.some.inj (hhead.symm.trans hj')
      rw [hqueued] at hpaused
      cases hpaused
    obtain ⟨hin, hout, hres, hslots⟩ := hloads.keys
    have hfields : ∀ q, u.fields q = s.fields q := fun q => by simp [State.fields, State.entry, hrtb]
    have hstate : ∀ x, (u.slot x).state = (s.slot x).state := fun x => by rw [(hslots x).2.2]
    have howns : u.owns j.range g.keySlot = true := by
      have howner' : (u.slot g.keySlot).owner = (s.slot g.keySlot).owner := by rw [(hslots g.keySlot).2.2]
      rw [State.owns, howner', howner]
      simp
    have hload : u.load j.range = .loaded k := hin _ (List.mem_singleton_self _) k (hrak.imp_right fun ⟨hn, hk, _⟩ => ⟨hn, hk⟩)
    obtain ⟨e, he, helt, hempty, hlow⟩ := emptySlot_of_room hroom
    have hemptyU : u.emptySlot = some e := by
      rw [← he]
      simp only [State.emptySlot, hstate]
    have hk24 : g.keySlot < 24 := by
      rw [← hs.keySlots]
      exact slot_lt s _ (by rw [hlive]; decide)
    have hne : g.keySlot ≠ e := fun h => by rw [h, hempty] at hlive; cases hlive
    have hfresh : u.fresh = s.fresh := by
      have hall := (loadRange_framed s j.range j.copy).2 .names (by decide)
      rw [hu] at hall
      exact hall
    have hstart := startJob_starts hemptyU (by rw [hload]; exact rfl) ((hfields _).trans hg) ((hstate _).trans hlive) howns
    have hframe := (loadsDone_framed hu hloads hrtb).trans (startJob_framed u j.range k)
    have hgo : Goes .rekeyJobStart s (u.startJob j.range k) :=
      congrArg done (rekeyJobStart_starts hhead hcan hu (by rw [hload]; exact rfl))
    have hsh := hloads.shaped
    have hslot := jobStarted_slot (rak := k) hsh hr ((hfields _).trans hg) (show e < 24 by omega) hk24 hne
    obtain ⟨hxloads, hxres, hxrtb, hxsst, hxrke, hxfresh, hxhold⟩ := jobStarted_parts (e := e) (rak := k) (g := g) hsh hr
    rw [hstart] at hgo hframe
    obtain ⟨t, ht⟩ : ∃ t, t = ((u.rekeyed j.range e k g).jobStarted j.range e).write (.key e)
      [.rekeySeq .startKey ((u.rke.serial + 1) % 65536)] := ⟨_, rfl⟩
    rw [← ht] at hgo hframe
    have htkst : t.kst = ((u.rekeyed j.range e k g).jobStarted j.range e).kst := by simp [ht]
    have htrtb : t.rtb = (u.rekeyed j.range e k g).rtb := by simp [ht, hxrtb]
    have htrke : t.rke = ((u.rekeyed j.range e k g).jobStarted j.range e).rke := by simp [ht]
    have htslot : ∀ x, t.slot x = if x = e then { KeySlot.made j.range u.fresh k with users := 1 }
        else if x = g.keySlot then { u.slot x with users := (u.slot x).users + 1 } else u.slot x := fun x => by
      rw [State.slot, htkst]
      exact hslot x
    have htload : ∀ q, t.load q = u.load q := fun q => by rw [State.load, State.load, htkst, hxloads]
    have hentry : ∀ q, t.entry q = (u.rekeyed j.range e k g).entry q := fun q => by rw [State.entry, State.entry, htrtb]
    have halike : ∀ x, u.slot x = { s.slot x with copy := (u.slot x).copy } := fun x => by
      refine (hslots x).2.2.trans ?_
      rw [husers]
    refine ⟨t, e, hgo, hframe.mono (by decide), ?_, (htload _).trans hload, fun q hq => (htload q).trans (hout q (by simpa using hq)),
      ?_, helt, hempty, hlow, ?_, ?_, ?_, fun q hq => ?_, ?_, ?_, fun x hxe hxk => ?_, ?_, ?_, ?_⟩
    · rw [ht]
      exact (hquiet.trans (writesOnly_of_eq (us := []) (by rw [hxsst]) (by rw [hxsst]) (by rw [hxsst]))).trans (write_only _ _ _)
    · rw [htkst, hxres, hres]
    · rw [htrtb]
      exact congrArg (fun x => x.resealOnWake) hrtb
    · rw [← hfresh]
      simp [ht, hxfresh]
    · have hfirst : u.firstBlock j.range = s.firstBlock j.range := by simp only [State.firstBlock, hfields]
      rw [State.fields, hentry, ← hfirst]
      exact rekeyed_fields hsh hr
    · rw [hentry, State.rekeyed, entry_setEntry, if_neg fun h => hq h.1]
      exact congrArg (fun x => x.entries[q]?.getD _) hrtb
    · rw [htslot, if_pos rfl, hfresh]
      exact rfl
    · rw [htslot, if_neg hne, if_pos rfl, husers]
      by_cases hn : s.load j.range = .notLoaded
      · have hnamed : s.unwraps j.range g.keySlot := ⟨by simpa [State.namedSlots, hg] using g.keySlot_mem_named, hlive, by simp [State.owns, howner]⟩
        rw [if_pos hn, ← (hslots g.keySlot).1 ⟨_, List.mem_singleton_self _, hn, hnamed⟩, halike]
      · rw [if_neg hn, ← (hslots g.keySlot).2.1 (by simp [hn]), halike]
    · have hx : t.slot x = u.slot x := by rw [htslot, if_neg hxe, if_neg hxk]
      rw [hx]
      refine ⟨halike x, fun hstay => ?_⟩
      have hcopy := (hslots x).2.1 fun ⟨q, hq, hn, hun⟩ => by
        obtain rfl := List.mem_singleton.mp hq
        obtain ⟨hnamed, -⟩ := hun
        exact hstay.elim (fun h => h hn) fun h => h (by simpa [State.namedSlots, hg] using hnamed)
      rw [halike, hcopy]
    · rw [htkst, hxhold]
    · have hqueue : u.rke.queue = j :: s.rke.queue.tail := by
        rw [hrke]
        exact (List.head?_eq_some_iff.mp hhead).elim fun l hl => by rw [hl]; exact rfl
      rw [htrke, hxrke, hqueue, hrke]
      exact rfl
    · have hrecord : ((u.rekeyed j.range e k g).jobStarted j.range e).recordOf (.key e) =
          .key { state := .live, owner := some j.range, material := (t.slot e).material } := by
        rw [htslot, if_pos rfl]
        simp only [State.recordOf, hslot, if_pos]
        exact rfl
      rw [ht, ← hrke, ← ht, ← hrecord, ht]
      exact place_holds _ _ _ _ _ (List.mem_singleton_self _)

end Sys2Proof


/-! R28, R34: what the release of the sweep hold leaves (used by O47, O48 and O57): its two references end, and the range
that was swept is unloaded where it is locked both ways, and else settled. -/

namespace Sys2Proof.Machine

/-! ### A range that settles, or is unloaded -/

/-- R34: the load state of a range that settles. -/
def Load.settled (held : Bool) : Load → Load
  | .releasing k => if held then .releasing k else .notLoaded
  | l => l

theorem settleRange_cases (s : State) (r : Nat) :
    ((∃ k, s.load r = .releasing k) ∧ s.hasHolders r = false ∧ s.settleRange r = s.dropRange r) ∨
    (¬ ((∃ k, s.load r = .releasing k) ∧ s.hasHolders r = false) ∧ s.settleRange r = s) := by
  unfold State.settleRange
  cases hl : s.load r with
  | releasing k => cases hh : s.hasHolders r <;> simp
  | notLoaded => simp
  | loaded k => simp

theorem settleRange_load (s : State) (r q : Nat) :
    (s.settleRange r).load q = if q = r then (s.load q).settled (s.hasHolders q) else s.load q := by
  by_cases hq : q = r
  · subst hq
    unfold State.settleRange
    cases hl : s.load q <;> cases hh : s.hasHolders q <;> simp [hl, Load.settled, State.dropRange_load]
  · unfold State.settleRange
    cases hl : s.load r <;> cases hh : s.hasHolders r <;> simp [hl, hq, State.dropRange_load]

theorem settleRange_slot (s : State) (r x : Nat) :
    (s.settleRange r).slot x = s.slot x ∨ (s.settleRange r).slot x = { s.slot x with copy := none } := by
  obtain ⟨-, -, h⟩ | ⟨-, h⟩ := settleRange_cases s r
  · rw [h, State.dropRange_slot]
    split
    · exact .inr rfl
    · exact .inl rfl
  · rw [h]
    exact .inl rfl

/-- R28, R34: what follows the release for the range that was swept. -/
def State.settleHeld (s : State) (r : Nat) : State := if s.bothLocked r then s.unload r else s.settleRange r

theorem settleHeld_slot (s : State) (r x : Nat) :
    (s.settleHeld r).slot x = s.slot x ∨ (s.settleHeld r).slot x = { s.slot x with copy := none } := by
  unfold State.settleHeld
  split
  · rw [State.unload_slot]
    split
    · exact .inr rfl
    · exact .inl rfl
  · exact settleRange_slot s r x

theorem settleHeld_load (s : State) (r q : Nat) : (s.settleHeld r).load q =
    if q = r then (if s.bothLocked r then (s.load q).unloaded (s.hasHolders q) else (s.load q).settled (s.hasHolders q)) else s.load q := by
  unfold State.settleHeld
  by_cases h : s.bothLocked r = true
  · rw [if_pos h, if_pos h, State.unload_load]
  · rw [if_neg h, if_neg h, settleRange_load]

theorem settleHeld_same (s : State) (r : Nat) : (s.settleHeld r).sst = s.sst ∧ (s.settleHeld r).rtb = s.rtb ∧
    (s.settleHeld r).kst.hold = s.kst.hold := by
  unfold State.settleHeld
  split <;> simp

theorem settleHeld_framed (s : State) (r : Nat) : Framed [.keySlots, .loads] s (s.settleHeld r) := by
  unfold State.settleHeld
  split
  · exact ⟨(s.unload_keeps r).1, fun q hq => by cases q <;> simp_all [Piece.same]⟩
  · exact settleRange_framed s r

/-! ### An erasure that is placed stays placed -/

/-- R30: slot x is RETIRING without a copy, and its erasure is held. -/
def State.ErasureHeld (s : State) (x : Nat) : Prop :=
  (s.slot x).state = .retiring ∧ (s.slot x).copy = none ∧ (s.slot x).erasing = true ∧ s.holds (.key x) (.key .blank) (.erased x)

theorem State.ErasureHeld.kept {s t : State} {x : Nat} (h : s.ErasureHeld x) (hsst : t.sst = s.sst)
    (hx : t.slot x = s.slot x ∨ t.slot x = { s.slot x with copy := none }) : t.ErasureHeld x := by
  obtain ⟨hstate, hcopy, herasing, hholds⟩ := h
  have hkeep := (holds_of_eq (s := s) (t := t) (by rw [hsst]) (by rw [hsst]) (by rw [hsst]) (.key x) (.key .blank) (.erased x)).mpr hholds
  obtain hx | hx := hx
  · exact ⟨by rw [hx]; exact hstate, by rw [hx]; exact hcopy, by rw [hx]; exact herasing, hkeep⟩
  · exact ⟨by rw [hx]; exact hstate, by rw [hx], by rw [hx]; exact herasing, hkeep⟩

theorem State.ErasureHeld.lessUser {s : State} {x : Nat} (h : s.ErasureHeld x) (k : Nat) : (s.lessUser k).ErasureHeld x := by
  obtain ⟨hstate, hcopy, herasing, hholds⟩ := h
  by_cases hk : x = k
  · subst hk
    have hslot : (s.lessUser x).slot x = { s.slot x with users := (s.slot x).users - 1 } := by
      rw [lessUser_slot, if_pos rfl]
      exact if_neg (by simp [herasing])
    exact ⟨by rw [hslot]; exact hstate, by rw [hslot]; exact hcopy, by rw [hslot]; exact herasing, lessUser_holds_idle herasing hholds⟩
  · have hslot : (s.lessUser k).slot x = s.slot x := by rw [lessUser_slot, if_neg hk]
    exact ⟨by rw [hslot]; exact hstate, by rw [hslot]; exact hcopy, by rw [hslot]; exact herasing, lessUser_holds_other hk hholds⟩

theorem State.ErasureHeld.dropUser {s : State} {x : Nat} (h : s.ErasureHeld x) (k : Nat) : (s.dropUser k).ErasureHeld x := by
  rw [dropUser_eq]
  cases (s.slot k).owner with
  | none => exact h.lessUser k
  | some r => exact (h.lessUser k).kept (by simp) (settleRange_slot ..)

/-! ### The release of the hold -/

/-- The state without the hold, its references still counted. -/
def State.unheld (s : State) : State := { s with kst := { s.kst with hold := none } }

theorem releaseHold_some {s : State} {h : Hold} (hh : s.kst.hold = some h) :
    s.releaseHold = ([h.oldKey, h.newKey].foldl State.dropUser s.unheld).settleHeld h.range := by
  simp only [State.releaseHold, hh]
  exact rfl

theorem releaseHold_framed (s : State) : Framed [.keySlots, .loads, .hold, .writes] s s.releaseHold :=
  ⟨s.releaseHold_keeps.1, fun q hq => by cases q <;> simp_all [Piece.same]⟩

/-- R30: only the records of the two keys of the hold are written. -/
theorem releaseHold_only (s : State) : WritesOnly s.heldUnits s s.releaseHold := by
  unfold State.heldUnits
  cases hh : s.kst.hold with
  | none =>
    rw [s.releaseHold_none hh]
    exact WritesOnly.refl _ _
  | some h =>
    rw [releaseHold_some hh]
    have hsst := (settleHeld_same ([h.oldKey, h.newKey].foldl State.dropUser s.unheld) h.range).1
    exact (WritesOnly.trans (us := []) (writesOnly_of_eq rfl rfl rfl _) (dropUsers_only [h.oldKey, h.newKey] s.unheld)).trans
      (us := [.key h.oldKey, .key h.newKey]) (vs := []) (writesOnly_of_eq (by rw [hsst]) (by rw [hsst]) (by rw [hsst]) _)

/-- What the release of a hold does to the slots and the loads. -/
structure HoldReleased (h : Hold) (s t : State) : Prop where
  slots : ∀ x, t.slot x = { s.slot x with
    users := s.usersLeft [h.oldKey, h.newKey] x, copy := (t.slot x).copy, erasing := (t.slot x).erasing }
  erased : ∀ x, s.ErasedBy [h.oldKey, h.newKey] x → t.ErasureHeld x
  kept : ∀ x, s.ErasureHeld x → t.ErasureHeld x
  load : LoadReleased s t h.range
  others : ∀ r, r ≠ h.range → (s.slot h.oldKey).owner = some h.range → (s.slot h.newKey).owner = some h.range → t.load r = s.load r

theorem loadReleased_of {s u t : State} {r : Nat} (hload : u.load r = s.load r ∨ ((∃ k, s.load r = .releasing k) ∧ u.load r = .notLoaded ∧
      u.hasHolders r = false)) (ht : t = u.settleHeld r) (hfields : ∀ q, t.fields q = u.fields q)
    (hheld : u.hasHolders r = true ↔ ∃ x ∈ t.namedSlots r, (t.slot x).owner = some r ∧ 0 < (t.slot x).users) : LoadReleased s t r := by
  have hlocked : u.bothLocked r = true ↔ ∃ g, t.fields r = some g ∧ g.readLocked = true ∧ g.writeLocked = true := by
    rw [hfields]
    unfold State.bothLocked
    cases u.fields r <;> simp
  have hunused : (∀ k ∈ t.namedSlots r, (t.slot k).owner = some r → (t.slot k).users = 0) ↔ u.hasHolders r = false := by
    rw [← Bool.not_eq_true, hheld]
    push Not
    simp only [Nat.le_zero_eq]
  have hfinal : t.load r = if u.bothLocked r then (u.load r).unloaded (u.hasHolders r) else (u.load r).settled (u.hasHolders r) := by
    rw [ht, settleHeld_load, if_pos rfl]
  refine ⟨fun hn => ?_, fun k hk hl => ?_, fun k hk => ⟨fun hu => ?_, fun hu => ?_⟩⟩
  · have hu : u.load r = .notLoaded := hload.elim (·.trans hn) (·.2.1)
    rw [hfinal, hu]
    split <;> rfl
  · have hu : u.load r = .loaded k := hload.elim (·.trans hk) fun ⟨⟨y, hy⟩, _⟩ => by rw [hk] at hy; cases hy
    rw [hfinal, hu, if_neg (mt hlocked.mp hl)]
    rfl
  · have hh := hunused.mp hu
    rw [hfinal, hh]
    obtain hsame | ⟨-, hgone, -⟩ := hload
    · rw [hsame]
      obtain hk | ⟨hk, hl⟩ := hk
      · rw [hk]
        split <;> rfl
      · rw [hk, if_pos (hlocked.mpr hl)]
        rfl
    · rw [hgone]
      split <;> rfl
  · have hh : u.hasHolders r = true := by simpa using mt hunused.mpr hu
    obtain hsame | ⟨-, -, hno⟩ := hload
    · rw [hfinal, hh, hsame]
      obtain hk | ⟨hk, hl⟩ := hk
      · rw [hk]
        split <;> rfl
      · rw [hk, if_pos (hlocked.mpr hl)]
        rfl
    · rw [hno] at hh
      cases hh

theorem releaseHold_released {s : State} {h : Hold} (hh : s.kst.hold = some h) : HoldReleased h s s.releaseHold := by
  have hrefs := refsEnded_foldl s.unheld [h.oldKey, h.newKey]
  have heq := releaseHold_some hh
  obtain ⟨hsst, hrtb, -⟩ := settleHeld_same ([h.oldKey, h.newKey].foldl State.dropUser s.unheld) h.range
  have hslot := settleHeld_slot ([h.oldKey, h.newKey].foldl State.dropUser s.unheld) h.range
  have hslots : ∀ x, s.releaseHold.slot x = { s.slot x with users := s.usersLeft [h.oldKey, h.newKey] x
                                                            copy := (s.releaseHold.slot x).copy
                                                            erasing := (s.releaseHold.slot x).erasing } := fun x => by
    have hx := hrefs.slots x
    rw [heq]
    obtain h' | h' := hslot x
    · rw [h']
      exact hx
    · rw [h', hx]
      exact rfl
  have hnamed : ∀ r, s.releaseHold.namedSlots r = s.namedSlots r := fun r => by simp [State.namedSlots, State.fields, State.entry]
  have hsame : ∀ x, (s.releaseHold.slot x).owner = (s.slot x).owner ∧ (s.releaseHold.slot x).users = s.usersLeft [h.oldKey, h.newKey] x :=
    fun x => by rw [hslots x]; exact ⟨rfl, rfl⟩
  have hheld : ([h.oldKey, h.newKey].foldl State.dropUser s.unheld).hasHolders h.range = true ↔
      ∃ x ∈ s.namedSlots h.range, (s.slot x).owner = some h.range ∧ 0 < s.usersLeft [h.oldKey, h.newKey] x := by
    have hu : ([h.oldKey, h.newKey].foldl State.dropUser s.unheld).namedSlots h.range = s.namedSlots h.range := by
      simp only [State.namedSlots, State.fields, State.entry, hrefs.table]
      exact rfl
    rw [State.hasHolders_iff, hrefs.hold, hu]
    have hnone : ¬ ∃ y, s.unheld.kst.hold = some y ∧ y.range = h.range := fun ⟨y, hy, _⟩ => by cases hy
    rw [or_iff_right hnone]
    have howns : ∀ x, ([h.oldKey, h.newKey].foldl State.dropUser s.unheld).owns h.range x = true ↔ (s.slot x).owner = some h.range :=
      fun x => by rw [State.owns, hrefs.slots x, beq_iff_eq]; exact Iff.rfl
    have husers : ∀ x, (([h.oldKey, h.newKey].foldl State.dropUser s.unheld).slot x).users = s.usersLeft [h.oldKey, h.newKey] x :=
      fun x => by rw [hrefs.slots x]; exact rfl
    simp only [howns, husers]
  refine ⟨hslots, fun x hx => ?_, fun x hx => ?_, loadReleased_of ?_ heq (fun q => ?_) ?_, fun r hr ho hn => ?_⟩
  · obtain ⟨hcopy, herasing, hholds⟩ := hrefs.erased x hx
    have herased : ([h.oldKey, h.newKey].foldl State.dropUser s.unheld).ErasureHeld x :=
      ⟨by rw [hrefs.slots x]; exact hx.2.1, hcopy, herasing, hholds⟩
    rw [heq]
    exact herased.kept hsst (hslot x)
  · have hunheld : s.unheld.ErasureHeld x := hx
    rw [heq]
    exact ((hunheld.dropUser h.oldKey).dropUser h.newKey).kept hsst (hslot x)
  · by_cases hleft : s.unheld.LeftBy [h.oldKey, h.newKey] h.range
    · refine .inr ⟨hleft.1, (hrefs.left _ hleft).1, ?_⟩
      rw [← Bool.not_eq_true, hheld]
      rintro ⟨x, hx, ho, hpos⟩
      have hzero : s.usersLeft [h.oldKey, h.newKey] x = 0 := hleft.2.2.2 x hx ho
      omega
    · exact .inl (hrefs.loads _ hleft)
  · rw [heq]
    simp only [State.fields, State.entry, hrtb]
  · rw [hheld, hnamed]
    simp only [hsame]
  · rw [heq, settleHeld_load, if_neg hr]
    refine hrefs.loads r fun ⟨_, ⟨k, hk, hkr⟩, _⟩ => ?_
    have hkr' : (s.slot k).owner = some r := hkr
    simp only [List.mem_cons, List.not_mem_nil, or_false] at hk
    obtain rfl | rfl := hk
    · exact hr (Option.some.inj (hkr'.symm.trans ho))
    · exact hr (Option.some.inj (hkr'.symm.trans hn))

end Sys2Proof.Machine


/-! The chunks of a sweep (O47): where the next chunk of range 0 begins and how long it is, the chunk as it is formed and
claimed, and the completion of a job that has no block left. -/

namespace Sys2Proof.Machine

/-! ### The blocks of range 0 (R2, R101) -/

/-- R2: a block lies outside range 0 exactly where some other range covers it. -/
theorem rangeOf_ne_zero {s : State} {b : Nat} : s.rangeOf b ≠ 0 ↔ ∃ q, 1 ≤ q ∧ q < 16 ∧ s.Covers q b := by
  constructor
  · intro h
    by_contra hn
    exact h (rangeOf_none fun q h16 h1 hc => hn ⟨q, h1, h16, hc⟩)
  · rintro ⟨q, h1, h16, hc⟩
    cases hfind : ((List.range 16).drop 1).find? (fun r => (s.entry r).covers b) with
    | none => exact absurd ((entry_covers_iff s q b).mpr hc) (List.find?_eq_none.mp hfind q ((mem_drop_range 1 q).mpr ⟨h1, h16⟩))
    | some x =>
      obtain ⟨hx, -⟩ := (mem_drop_range 1 x).mp (List.mem_of_find?_eq_some hfind)
      have hrange : s.rangeOf b = x := by rw [State.rangeOf, hfind]; exact rfl
      omega

/-- R2: the range of a block that lies outside range 0 covers it. -/
theorem rangeOf_covers {s : State} {b : Nat} (h : s.rangeOf b ≠ 0) : 1 ≤ s.rangeOf b ∧ s.rangeOf b < 16 ∧ s.Covers (s.rangeOf b) b := by
  cases hfind : ((List.range 16).drop 1).find? (fun r => (s.entry r).covers b) with
  | none => exact absurd (by rw [State.rangeOf, hfind]; exact rfl) h
  | some x =>
    have hrange : s.rangeOf b = x := by rw [State.rangeOf, hfind]; exact rfl
    obtain ⟨h1, h16⟩ := (mem_drop_range 1 x).mp (List.mem_of_find?_eq_some hfind)
    rw [hrange]
    exact ⟨h1, h16, (entry_covers_iff s x b).mp (by simpa using List.find?_some hfind)⟩

/-- The first block behind a range, 0 where it has no bounds. -/
def State.rangeEnd (s : State) (q : Nat) : Nat := ((s.fields q).bind (fun f => f.bounds)).elim 0 fun p => p.first + p.count

/-- The ranges but range 0 that end behind block b. -/
def State.rangesAhead (s : State) (b : Nat) : List Nat := (List.range 16).filter fun q => 1 ≤ q && b < s.rangeEnd q

theorem rangeEnd_covers {s : State} {q b : Nat} (h : s.Covers q b) : b < s.rangeEnd q := by
  obtain ⟨f, p, hf, hp, -, hb⟩ := h
  simpa [State.rangeEnd, hf, hp] using hb

theorem rangesAhead_length (s : State) (b : Nat) : (s.rangesAhead b).length < 16 := by
  have h := (List.length_filter_lt_length_iff_exists (p := fun q => 1 ≤ q && b < s.rangeEnd q) (l := List.range 16)).mpr ⟨0, by simp, by simp⟩
  rwa [List.length_range] at h

/-- A jump behind a range leaves fewer ranges ahead. -/
theorem rangesAhead_jump {s : State} {q b : Nat} (h1 : 1 ≤ q) (h16 : q < 16) (hb : b < s.rangeEnd q) :
    (s.rangesAhead (s.rangeEnd q)).length < (s.rangesAhead b).length := by
  have hsub : s.rangesAhead (s.rangeEnd q) = (s.rangesAhead b).filter fun x => s.rangeEnd q < s.rangeEnd x := by
    rw [State.rangesAhead, State.rangesAhead, List.filter_filter]
    refine List.filter_congr fun x _ => ?_
    rw [Bool.eq_iff_iff]
    simp only [Bool.and_eq_true, decide_eq_true_eq]
    omega
  rw [hsub, List.length_filter_lt_length_iff_exists]
  exact ⟨q, by simp [State.rangesAhead, h1, h16, hb], by simp⟩

theorem nextGlobal_stops {s : State} {g : RangeFields} (fuel b : Nat) (hg : s.fields 0 = some g) (hb : g.bounds = none)
    (h : s.rangeOf b = 0) : s.nextGlobal fuel b = b := by
  cases fuel with
  | zero => exact rfl
  | succ n => simp only [State.nextGlobal, h, hg, hb]

theorem nextGlobal_jumps {s : State} (fuel : Nat) {b : Nat} (h : s.rangeOf b ≠ 0) :
    s.nextGlobal (fuel + 1) b = s.nextGlobal fuel (s.rangeEnd (s.rangeOf b)) := by
  obtain ⟨-, -, hc⟩ := rangeOf_covers h
  obtain ⟨f, p, hf, hp, -, -⟩ := hc
  simp only [State.nextGlobal, State.rangeEnd, hf, hp, Option.bind_some, Option.elim]

/-- R101: with fuel for every range ahead the next block of range 0 is found, and none lies before it. -/
theorem nextGlobal_spec {s : State} {g : RangeFields} (hg : s.fields 0 = some g) (hb : g.bounds = none) (fuel : Nat) :
    ∀ b, (s.rangesAhead b).length < fuel →
      b ≤ s.nextGlobal fuel b ∧ s.rangeOf (s.nextGlobal fuel b) = 0 ∧ ∀ x, b ≤ x → x < s.nextGlobal fuel b → s.rangeOf x ≠ 0 := by
  induction fuel with
  | zero => exact fun b h => absurd h (Nat.not_lt_zero _)
  | succ n ih =>
    intro b h
    by_cases hr : s.rangeOf b = 0
    · rw [nextGlobal_stops _ _ hg hb hr]
      exact ⟨Nat.le_refl b, hr, fun x h1 h2 => absurd h1 (by omega)⟩
    · obtain ⟨h1, h16, hc⟩ := rangeOf_covers hr
      have hend := rangeEnd_covers hc
      obtain ⟨hle, hzero, hall⟩ := ih (s.rangeEnd (s.rangeOf b)) (by have := rangesAhead_jump h1 h16 hend; omega)
      rw [nextGlobal_jumps n hr]
      refine ⟨by omega, hzero, fun x hx1 hx2 => ?_⟩
      by_cases hx : x < s.rangeEnd (s.rangeOf b)
      · refine rangeOf_ne_zero.mpr ⟨s.rangeOf b, h1, h16, ?_⟩
        obtain ⟨f, p, hf, hp, hfirst, -⟩ := hc
        simp only [State.rangeEnd, hf, hp, Option.bind_some, Option.elim] at hx
        exact ⟨f, p, hf, hp, by omega, hx⟩
      · exact hall x (by omega) hx2

/-! ### The run of range 0 from a block (R101) -/

/-- A range that begins at or behind block b cuts the run from b, where it has a block. -/
def State.cutsAt (s : State) (b r c : Nat) : Prop :=
  ∃ f p, s.fields r = some f ∧ f.bounds = some p ∧ b ≤ p.first ∧ 0 < p.count ∧ c = p.first - b

/-- One range more is looked at for the run from b. -/
def State.runStep (s : State) (b m r : Nat) : Nat :=
  match s.fields r with
  | some f =>
    match f.bounds with
    | some p => if b ≤ p.first ∧ 0 < p.count then min m (p.first - b) else m
    | none => m
  | none => m

theorem runStep_cut {s : State} {b r : Nat} {f : RangeFields} {p : Span} (m : Nat) (hf : s.fields r = some f) (hp : f.bounds = some p)
    (hc : b ≤ p.first ∧ 0 < p.count) : s.runStep b m r = min m (p.first - b) := by
  simp only [State.runStep, hf, hp, if_pos hc]

theorem runStep_pass {s : State} {b r : Nat} (m : Nat) (h : ∀ c, ¬ s.cutsAt b r c) : s.runStep b m r = m := by
  cases hf : s.fields r with
  | none => simp only [State.runStep, hf]
  | some f =>
    cases hp : f.bounds with
    | none => simp only [State.runStep, hf, hp]
    | some p =>
      have hc : ¬ (b ≤ p.first ∧ 0 < p.count) := fun ⟨h1, h2⟩ => h _ ⟨f, p, hf, hp, h1, h2, rfl⟩
      simp only [State.runStep, hf, hp, if_neg hc]

theorem cutsAt_unique {s : State} {b r c d : Nat} (h : s.cutsAt b r c) (k : s.cutsAt b r d) : c = d := by
  obtain ⟨f, p, hf, hp, -, -, rfl⟩ := h
  obtain ⟨f', p', hf', hp', -, -, rfl⟩ := k
  obtain rfl := Option.some.inj (hf.symm.trans hf')
  rw [Option.some.inj (hp.symm.trans hp')]

theorem runStep_spec (s : State) (b m r : Nat) : s.runStep b m r ≤ m ∧ (∀ c, s.cutsAt b r c → s.runStep b m r ≤ c) ∧
    (s.runStep b m r = m ∨ s.cutsAt b r (s.runStep b m r)) := by
  by_cases h : ∃ c, s.cutsAt b r c
  · obtain ⟨c, hc⟩ := h
    obtain ⟨f, p, hf, hp, h1, h2, rfl⟩ := id hc
    rw [runStep_cut m hf hp ⟨h1, h2⟩]
    refine ⟨Nat.min_le_left .., fun d hd => cutsAt_unique hc hd ▸ Nat.min_le_right .., ?_⟩
    obtain hle | hle := Nat.le_total m (p.first - b)
    · exact .inl (Nat.min_eq_left hle)
    · exact .inr (by rw [Nat.min_eq_right hle]; exact hc)
  · rw [runStep_pass m (not_exists.mp h)]
    exact ⟨Nat.le_refl m, fun c hc => absurd ⟨c, hc⟩ h, .inl rfl⟩

theorem runFold_spec (s : State) (b : Nat) (l : List Nat) : ∀ m, l.foldl (s.runStep b) m ≤ m ∧
    (∀ r ∈ l, ∀ c, s.cutsAt b r c → l.foldl (s.runStep b) m ≤ c) ∧
    (l.foldl (s.runStep b) m = m ∨ ∃ r ∈ l, s.cutsAt b r (l.foldl (s.runStep b) m)) := by
  induction l with
  | nil => exact fun m => ⟨Nat.le_refl m, by simp, .inl rfl⟩
  | cons r l ih =>
    intro m
    obtain ⟨hle, hcut, hfrom⟩ := runStep_spec s b m r
    obtain ⟨hle', hcut', hfrom'⟩ := ih (s.runStep b m r)
    refine ⟨hle'.trans hle, fun x hx c hc => ?_, ?_⟩
    · obtain rfl | hx := List.mem_cons.mp hx
      · exact hle'.trans (hcut c hc)
      · exact hcut' x hx c hc
    · obtain h | ⟨x, hx, h⟩ := hfrom'
      · rw [List.foldl_cons, h]
        exact hfrom.imp id fun h => ⟨r, List.mem_cons_self, h⟩
      · exact .inr ⟨x, List.mem_cons_of_mem _ hx, h⟩

theorem globalRun_eq (s : State) (b n : Nat) : s.globalRun b n = (List.range 16).foldl (s.runStep b) n := rfl

/-! ### The next chunk (R101) -/

theorem nextChunk_bounded {s : State} {r w : Nat} {g : RangeFields} {p : Span} (hg : s.fields r = some g) (hb : g.bounds = some p) :
    s.nextChunk r w = (w, min 32 (min (p.first + p.count) s.lif.capacity - w)) := by
  simp only [State.nextChunk, hg, hb]
  exact rfl

theorem nextChunk_global {s : State} {r w : Nat} {g : RangeFields} (hg : s.fields r = some g) (hb : g.bounds = none) :
    s.nextChunk r w = (s.nextGlobal 16 w, min (s.lif.capacity - s.nextGlobal 16 w) (s.globalRun (s.nextGlobal 16 w) 32)) := by
  simp only [State.nextChunk, hg, hb]
  exact rfl

/-- R101: from a block of range 0 the run covers only blocks of range 0, and is as long as it may be. -/
theorem globalRun_spec {s : State} {g : RangeFields} {b : Nat} (hg : s.fields 0 = some g) (hb : g.bounds = none) (h : s.rangeOf b = 0) :
    0 < s.globalRun b 32 ∧ s.globalRun b 32 ≤ 32 ∧ (∀ i < s.globalRun b 32, s.rangeOf (b + i) = 0) ∧
      (s.globalRun b 32 = 32 ∨ s.rangeOf (b + s.globalRun b 32) ≠ 0) := by
  have hcovered : ∀ q, 1 ≤ q → q < 16 → ¬ s.Covers q b := fun q h1 h16 hc => rangeOf_ne_zero.mpr ⟨q, h1, h16, hc⟩ h
  have hcut : ∀ r < 16, ∀ c, s.cutsAt b r c → 1 ≤ r ∧ 0 < c ∧ s.rangeOf (b + c) ≠ 0 := by
    rintro r hr c ⟨f, p, hf, hp, h1, h2, rfl⟩
    have hr1 : 1 ≤ r := by
      by_contra hr0
      obtain rfl : r = 0 := by omega
      obtain rfl := Option.some.inj (hg.symm.trans hf)
      rw [hb] at hp
      cases hp
    have hnot := hcovered r hr1 hr
    refine ⟨hr1, ?_, rangeOf_ne_zero.mpr ⟨r, hr1, hr, f, p, hf, hp, by omega, by omega⟩⟩
    by_contra h0
    exact hnot ⟨f, p, hf, hp, by omega, by omega⟩
  obtain ⟨hle, hall, hfrom⟩ := runFold_spec s b (List.range 16) 32
  rw [globalRun_eq]
  refine ⟨?_, hle, fun i hi => ?_, hfrom.imp id fun ⟨r, hr, hc⟩ => (hcut r (List.mem_range.mp hr) _ hc).2.2⟩
  · obtain h32 | ⟨r, hr, hc⟩ := hfrom
    · omega
    · exact (hcut r (List.mem_range.mp hr) _ hc).2.1
  · by_contra hne
    obtain ⟨q, h1, h16, f, p, hf, hp, hfirst, hlast⟩ := rangeOf_ne_zero.mp hne
    by_cases hbefore : b ≤ p.first
    · have := hall q (List.mem_range.mpr h16) _ ⟨f, p, hf, hp, hbefore, by omega, rfl⟩
      omega
    · exact hcovered q h1 h16 ⟨f, p, hf, hp, by omega, by omega⟩

/-! ### CHUNK_FORM (R101, R105) -/

theorem canForm_iff (s : State) (j : Job) : s.canForm j = true ↔ j.state = .sweeping ∧ s.rke.seq = none ∧ s.rke.phase = .idle ∧
    s.lif.started = true ∧ s.rtb.commit = .idle ∧ s.rke.recovery = .none ∧ s.rke.resuming = false := by
  unfold State.canForm
  simp only [Bool.and_eq_true, beq_iff_eq, Option.isNone_iff_eq_none, s.commitIdle_iff, Bool.not_eq_true', and_assoc]

theorem split_of_fields {s : State} {r : Nat} {g : RangeFields} (h : s.fields r = some g) : s.split r = g.split := by
  rw [State.split, h]
  exact rfl

theorem chunkForm_ready {s : State} {j : Job} {g : RangeFields} {w : Split} (hj : s.headJob = some j) (hc : s.canForm j = true)
    (hg : s.fields j.range = some g) (hw : g.split = some w) : s.chunkForm =
      if (s.nextChunk j.range w.watermark).2 = 0 then s.completeJob j g w
      else (s.setWatermark j.range (s.nextChunk j.range w.watermark).1).claiming (s.nextChunk j.range w.watermark).1
        (s.nextChunk j.range w.watermark).2 := by
  simp only [State.chunkForm, hj, hc, hg, split_of_fields hg, hw, if_pos]

theorem chunkForm_waits {s : State} (h : ∀ j g w, ¬ (s.headJob = some j ∧ s.canForm j = true ∧ s.fields j.range = some g ∧ g.split = some w)) :
    s.chunkForm = s := by
  cases hj : s.headJob with
  | none => simp only [State.chunkForm, hj]
  | some j =>
    by_cases hc : s.canForm j = true
    · cases hg : s.fields j.range with
      | none => simp only [State.chunkForm, hj, hc, hg, if_pos]
      | some g =>
        cases hw : g.split with
        | none => simp only [State.chunkForm, hj, hc, hg, split_of_fields hg, hw, if_pos]
        | some w => exact absurd ⟨hj, hc, hg, hw⟩ (h j g w)
    · simp only [State.chunkForm, hj, if_neg hc]

theorem setWatermark_fields {s : State} {r w : Nat} {g : RangeFields} {p : Split} (hg : s.fields r = some g) (hw : g.split = some p)
    (m : Nat) : (s.setWatermark r m).fields r = some { g with split := some { p with watermark := m } } := by
  rw [State.setWatermark, fields_mapFields, if_pos rfl, hg, Option.map_some, hw]
  exact rfl

/-- R101: a chunk is formed: it is to be claimed, and the watermark is at its first block. -/
theorem chunkForm_forms {s : State} {j : Job} {g : RangeFields} {w : Split} (hg : s.fields j.range = some g) (hw : g.split = some w)
    (first n : Nat) :
    let t := (s.setWatermark j.range first).claiming first n
    Framed [.ranges, .rekey] s t ∧ t.rke = { s.rke with phase := .claiming, first := first, n := n } ∧
      t.fields j.range = some { g with split := some { w with watermark := first } } ∧ ∀ r, r ≠ j.range → t.entry r = s.entry r := by
  have hframe : Framed [.ranges] s (s.setWatermark j.range first) :=
    ⟨(s.setWatermark_keeps j.range first).1, fun q hq => by cases q <;> simp_all [Piece.same]⟩
  have hrke : (s.setWatermark j.range first).rke = s.rke := by simp
  have hclaim : Framed [.rekey] (s.setWatermark j.range first) ((s.setWatermark j.range first).claiming first n) :=
    ⟨rfl, fun q hq => by cases q <;> simp_all [Piece.same, State.claiming]⟩
  refine ⟨hframe.trans hclaim, ?_,
    setWatermark_fields (w := first) hg hw first, fun r hr => entry_mapFields s _ (.inl hr)⟩
  rw [State.claiming, hrke]

/-! ### A job that completes (R105) -/

/-- R105: the range of a job that completes has the new key alone. -/
def State.rekeyEnded (s : State) (r : Nat) (g : RangeFields) (w : Split) : State :=
  s.setEntry r (.enabled { g with keySlot := w.newKey, split := none })

/-- R105: the completion of a job, before the first of its writes is placed. -/
def State.jobEnded (s : State) (j : Job) (g : RangeFields) (w : Split) : State :=
  let t := ((s.rekeyEnded j.range g w).retire g.keySlot).releaseHold
  { t with rke := { t.rke with
    finished := some { range := j.range, serial := j.serial.getD 0, watermark := w.watermark, silent := false }
    seq := some .doneRecords, seqLeft := 2 } }

theorem completeJob_eq (s : State) (j : Job) (g : RangeFields) (w : Split) : s.completeJob j g w =
    (s.jobEnded j g w).writeAll [.range j.range, .key g.keySlot] (.rekeySeq .doneRecords (j.serial.getD 0)) := rfl

theorem completeJob_framed (s : State) (j : Job) (g : RangeFields) (w : Split) :
    Framed [.ranges, .rekey, .keySlots, .loads, .hold, .writes] s (s.completeJob j g w) :=
  ⟨(s.completeJob_keeps j g w).1, fun q hq => by cases q <;> simp_all [Piece.same]⟩

/-- R30: a LIVE slot without users is erased as it is retired. -/
theorem retire_erases {s : State} {k : Nat} (hl : (s.slot k).state = .live) (hu : (s.slot k).users = 0) (he : (s.slot k).erasing = false) :
    (s.retire k).ErasureHeld k := by
  have hk : k < s.kst.slots.length := slot_lt s k (by rw [hl]; decide)
  have hmid : (s.mapSlot k (fun x => { x with state := .retiring })).slot k = { s.slot k with state := .retiring } :=
    (slot_mapSlot s k k _).trans (if_pos ⟨rfl, hk⟩)
  have hslot : (s.retire k).slot k = { s.slot k with state := .retiring, copy := none, erasing := true } := by
    rw [retire_slot, if_pos ⟨rfl, hl⟩]
    exact if_pos ⟨hu, he⟩
  have hrecord : ((s.mapSlot k (fun x => { x with state := .retiring })).mapSlot k (fun x => { x with copy := none, erasing := true })).recordOf (.key k) =
      .key .blank := by
    have herasing : (((s.mapSlot k (fun x => { x with state := .retiring })).mapSlot k
        (fun x => { x with copy := none, erasing := true })).slot k).erasing = true := by
      rw [slot_mapSlot, if_pos ⟨rfl, by simpa [State.mapSlot] using hk⟩]
    exact if_pos herasing
  refine ⟨by rw [hslot], by rw [hslot], by rw [hslot], ?_⟩
  unfold State.retire State.settleSlot
  rw [if_pos hl, hmid, if_pos ⟨rfl, hu, he⟩]
  exact hrecord ▸ place_holds _ _ _ _ _ (List.mem_singleton_self _)

section ended
variable {s : State} {j : Job} {g : RangeFields} {w : Split}

theorem rekeyEnded_fields (hg : s.fields j.range = some g) :
    (s.rekeyEnded j.range g w).fields j.range = some { g with keySlot := w.newKey, split := none } :=
  congrArg Entry.fields? ((entry_setEntry s j.range j.range _).trans (if_pos ⟨rfl, fields_lt s _ _ hg⟩))

/-- What the completion does to the table, the hold, the sweep and the slots. -/
theorem jobEnded_effect (hg : s.fields j.range = some g) :
    let t := s.jobEnded j g w
    t.fields j.range = some { g with keySlot := w.newKey, split := none } ∧ (∀ r, r ≠ j.range → t.entry r = s.entry r) ∧
      t.kst.hold = none ∧
      t.rke = { s.rke with
        finished := some { range := j.range, serial := j.serial.getD 0, watermark := w.watermark, silent := false }
        seq := some .doneRecords, seqLeft := 2 } ∧
      WritesOnly (.key g.keySlot :: s.heldUnits) s t ∧
      (∀ x, ((s.rekeyEnded j.range g w).retire g.keySlot |>.slot x).alike (t.slot x)) := by
  intro t
  have hrtb : t.rtb = (s.rekeyEnded j.range g w).rtb := by simp [t, State.jobEnded]
  have hentry : ∀ r, t.entry r = (s.rekeyEnded j.range g w).entry r := fun r => by rw [State.entry, State.entry, hrtb]
  have hhold : ((s.rekeyEnded j.range g w).retire g.keySlot).kst.hold = s.kst.hold :=
    ((retire_framed (s.rekeyEnded j.range g w) g.keySlot).2 .hold (by decide)).1
  have hunits : ((s.rekeyEnded j.range g w).retire g.keySlot).heldUnits = s.heldUnits := by
    unfold State.heldUnits
    rw [hhold]
  have hrke : ((s.rekeyEnded j.range g w).retire g.keySlot).releaseHold.rke = s.rke := by
    simp [State.rekeyEnded]
  refine ⟨?_, fun r hr => ?_, State.releaseHold_hold _, ?_, ?_, (State.releaseHold_loosened _).1⟩
  · rw [State.fields, hentry]
    exact rekeyEnded_fields hg
  · rw [hentry, State.rekeyEnded, entry_setEntry, if_neg fun h => hr h.1]
  · simp only [t, State.jobEnded, hrke]
  · have hall := (WritesOnly.trans (us := []) (writesOnly_of_eq rfl rfl rfl _) (retire_only (s.rekeyEnded j.range g w) g.keySlot)).trans
      (releaseHold_only ((s.rekeyEnded j.range g w).retire g.keySlot))
    rw [hunits] at hall
    exact WritesOnly.trans (us := _) (vs := []) hall (writesOnly_of_eq rfl rfl rfl _) |>.mono (by simp)

theorem LoadReleased.congr {s s' t t' : State} {r : Nat} (h : LoadReleased s t r) (hs : s'.load r = s.load r) (hkst : t'.kst = t.kst)
    (hrtb : t'.rtb = t.rtb) : LoadReleased s' t' r := by
  have hload : t'.load r = t.load r := by rw [State.load, State.load, hkst]
  have hslot : ∀ x, t'.slot x = t.slot x := fun x => by rw [State.slot, State.slot, hkst]
  have hf : t'.fields r = t.fields r := by rw [State.fields, State.fields, State.entry, State.entry, hrtb]
  unfold LoadReleased State.namedSlots at h ⊢
  simpa only [hs, hload, hslot, hf] using h

/-- R28, R30, R34: what the completion does where the hold is on the two keys of the range. -/
theorem jobEnded_releases (hh : s.kst.hold = some { range := j.range, oldKey := g.keySlot, newKey := w.newKey })
    (hne : g.keySlot ≠ w.newKey) (ho : (s.slot g.keySlot).owner = some j.range) (hn : (s.slot w.newKey).owner = some j.range) :
    let t := s.jobEnded j g w
    LoadReleased s t j.range ∧ (∀ r, r ≠ j.range → t.load r = s.load r) ∧
      (∀ x, (t.slot x).users = (s.slot x).users - if x = g.keySlot ∨ x = w.newKey then 1 else 0) ∧
      ((s.slot g.keySlot).state = .live → (s.slot g.keySlot).erasing = false → (t.slot g.keySlot).users = 0 → t.ErasureHeld g.keySlot) := by
  intro t
  have hframe := retire_framed (s.rekeyEnded j.range g w) g.keySlot
  have hload : ∀ r, ((s.rekeyEnded j.range g w).retire g.keySlot).load r = s.load r := fun r => by
    rw [State.load, show _ = s.kst.loads from hframe.2 .loads (by decide)]
    exact rfl
  have hslot : ∀ x, ((s.rekeyEnded j.range g w).retire g.keySlot).slot x =
      if x = g.keySlot ∧ (s.slot g.keySlot).state = .live then (s.slot x).retired else s.slot x :=
    fun x => retire_slot (s.rekeyEnded j.range g w) g.keySlot x
  have hkeep : ∀ x, (((s.rekeyEnded j.range g w).retire g.keySlot).slot x).owner = (s.slot x).owner ∧
      (((s.rekeyEnded j.range g w).retire g.keySlot).slot x).users = (s.slot x).users := fun x => by
    rw [hslot]
    unfold KeySlot.retired
    split_ifs <;> exact ⟨rfl, rfl⟩
  have hrel := releaseHold_released (s := (s.rekeyEnded j.range g w).retire g.keySlot) ((hframe.2 .hold (by decide)).1.trans hh)
  have husers : ∀ x, (t.slot x).users = (s.slot x).users - if x = g.keySlot ∨ x = w.newKey then 1 else 0 := fun x => by
    have hx : (t.slot x).users = ((s.rekeyEnded j.range g w).retire g.keySlot).usersLeft [g.keySlot, w.newKey] x := by
      rw [show t.slot x = _ from hrel.slots x]
    rw [hx, State.usersLeft, (hkeep x).2]
    congr 1
    by_cases hx : x = g.keySlot
    · subst hx
      simp [Ne.symm hne]
    · by_cases hx' : x = w.newKey
      · subst hx'
        simp [hne]
      · simp [Ne.symm hx, Ne.symm hx', hx, hx']
  refine ⟨hrel.load.congr (hload _).symm rfl rfl, fun r hr => ?_, husers, fun hl he hu => ?_⟩
  · exact (hrel.others r hr ((hkeep _).1.trans ho) ((hkeep _).1.trans hn)).trans (hload r)
  · by_cases hfree : (s.slot g.keySlot).users = 0
    · exact hrel.kept _ (retire_erases (s := s.rekeyEnded j.range g w) hl hfree he)
    · refine hrel.erased _ ⟨by simp, ?_, ?_, ?_⟩
      · rw [hslot, if_pos ⟨rfl, hl⟩, KeySlot.retired_state]
      · rw [hslot, if_pos ⟨rfl, hl⟩]
        unfold KeySlot.retired
        rw [if_neg fun h => hfree h.1]
        exact he
      · rw [← hu, show t.slot g.keySlot = _ from hrel.slots g.keySlot]

end ended

/-! ### CHUNK_CLAIM (R101) -/

theorem mem_openContexts (s : State) (c : Nat) (x : OpenContext) : (c, x) ∈ s.openContexts ↔ c < 16 ∧ (s.ctx c).xfer = some x := by
  simp only [State.openContexts, List.mem_filterMap, List.mem_range, Option.map_eq_some_iff, Prod.mk.injEq]
  constructor
  · rintro ⟨a, ha, y, hy, rfl, rfl⟩
    exact ⟨ha, hy⟩
  · exact fun ⟨hc, hx⟩ => ⟨c, hc, x, hx, rfl, rfl⟩

theorem chunkBlocked_iff (s : State) : s.chunkBlocked = false ↔ ∀ c < 16, ∀ x, (s.ctx c).xfer = some x → x.mode ≠ .overlay →
    (x.first + x.count ≤ s.rke.first ∨ s.rke.first + s.rke.n ≤ x.first) := by
  unfold State.chunkBlocked overlap
  simp only [List.any_eq_false, Prod.forall, mem_openContexts, Bool.and_eq_true, decide_eq_true_eq, bne_iff_ne, not_and]
  refine ⟨fun h c hc x hx hm => ?_, fun h c x hx hm hlt => ?_⟩
  · have := h c x ⟨hc, hx⟩ hm
    omega
  · have := h c hx.1 x hx.2 hm
    omega

end Sys2Proof.Machine

namespace Sys2Proof
open Machine

/-- Settles O47: a chunk of a bounded range by its bounds, of range 0 by the laws of the next block and of the run from it; the
chunk as it is formed and claimed; and the job that has none left. -/
theorem chunksAreFormedAndClaimed : Obligations.ChunksAreFormedAndClaimed := by
  intro s ready
  have hready : ∀ j g w, ready j g w ↔ s.headJob = some j ∧ s.canForm j = true ∧ s.fields j.range = some g ∧ g.split = some w :=
    fun j g w => by rw [canForm_iff]; tauto
  refine ⟨fun hn => congrArg done (chunkForm_waits fun j g w h => hn j g w ((hready j g w).mpr h)), ?_, ?_⟩
  · intro j g w hj hs q
    obtain ⟨hhead, hcan, hg, hw⟩ := (hready j g w).mp hj
    have hform := chunkForm_ready hhead hcan hg hw
    refine ⟨fun b hb => nextChunk_bounded hg hb, fun hb h0 => ?_, fun hq => ?_, fun hq => ?_⟩
    · have hg0 : s.fields 0 = some g := by rw [← h0]; exact hg
      obtain ⟨hle, hzero, hbefore⟩ := nextGlobal_spec hg0 hb 16 w.watermark (rangesAhead_length s _)
      obtain ⟨hpos, h32, hrun, hend⟩ := globalRun_spec hg0 hb hzero
      have hq : q = _ := nextChunk_global hg hb
      rw [hq]
      refine ⟨hle, hzero, hbefore, (Nat.min_le_right ..).trans h32, fun i hi => ⟨hrun i (by omega), by omega⟩, ?_, ?_⟩
      · by_cases hshort : s.lif.capacity - s.nextGlobal 16 w.watermark ≤ s.globalRun (s.nextGlobal 16 w.watermark) 32
        · rw [Nat.min_eq_left hshort]
          omega
        · rw [Nat.min_eq_right (by omega)]
          exact hend.imp id .inr
      · refine ⟨fun hzero' b hb1 hb2 => hbefore b hb1 (by omega), fun hall => ?_⟩
        by_contra hsome
        exact hall _ hle (by omega) hzero
    · obtain ⟨hframe, hrke, hfields, hentry⟩ := chunkForm_forms hg hw q.1 q.2
      exact ⟨_, congrArg done (hform.trans (if_neg hq)), hframe, hrke, hfields, hentry⟩
    · obtain ⟨hfields, hentry, hhold, hrke, honly, halike⟩ := jobEnded_effect (w := w) hg
      have hkst : (s.completeJob j g w).kst = (s.jobEnded j g w).kst := by rw [completeJob_eq]; simp
      have hrtb : (s.completeJob j g w).rtb = (s.jobEnded j g w).rtb := by rw [completeJob_eq]; simp
      have hslot : ∀ x, (s.completeJob j g w).slot x = (s.jobEnded j g w).slot x := fun x => by rw [State.slot, State.slot, hkst]
      have hent : ∀ r, (s.completeJob j g w).entry r = (s.jobEnded j g w).entry r := fun r => by rw [State.entry, State.entry, hrtb]
      have hretired := retire_slot (s.rekeyEnded j.range g w) g.keySlot
      refine ⟨_, congrArg done (hform.trans (if_pos hq)), completeJob_framed s j g w, ?_, fun r hr => (hent r).trans (hentry r hr), ?_, ?_, ?_,
        fun hl => ?_, fun x hx => ?_, fun hh hne ho hn => ?_, ?_, ?_⟩
      · rw [State.fields, hent]
        exact hfields
      · rw [hkst, hhold]
      · rw [completeJob_eq]
        simpa using hrke
      · rw [completeJob_eq]
        refine (honly.trans (writeAll_only _ _ _)).mono fun u hu => ?_
        simp only [List.cons_append, List.mem_cons, List.mem_append, List.not_mem_nil, or_false] at hu ⊢
        tauto
      · have hx := halike g.keySlot
        rw [hslot, hx, hretired, if_pos ⟨rfl, hl⟩]
        exact KeySlot.retired_state _
      · rw [hslot]
        have hsame : ((s.rekeyEnded j.range g w).retire g.keySlot).slot x = s.slot x := (hretired x).trans (if_neg fun h => hx h.1)
        have hx' := halike x
        rw [hsame] at hx'
        exact hx'
      · obtain ⟨hrel, hloads, husers, herased⟩ := jobEnded_releases hh hne ho hn
        refine ⟨hrel.congr rfl hkst hrtb, fun r hr => ?_, fun x => by rw [hslot]; exact husers x, fun hl he hu => ?_⟩
        · rw [State.load, hkst]
          exact hloads r hr
        · obtain ⟨-, hcopy, herasing, hholds⟩ := herased hl he (by rw [← hslot]; exact hu)
          have hrecord : (s.jobEnded j g w).recordOf (.key g.keySlot) = .key .blank := if_pos herasing
          refine ⟨by rw [hslot]; exact hcopy, ?_⟩
          rw [completeJob_eq, ← hrecord]
          exact writeAll_keeps_holds _ _ _ _ _ (hrecord ▸ hholds)
      · rw [completeJob_eq, writeAll_recordOf]
        exact writeAll_holds _ _ _ _ (by simp)
      · rw [completeJob_eq, writeAll_recordOf]
        exact writeAll_holds _ _ _ _ (by simp)
  · intro free
    have hfree : free ↔ s.rke.phase = .claiming ∧ s.chunkBlocked = false := by rw [chunkBlocked_iff]
    exact ⟨fun h => congrArg Host.Outcome.next (if_pos (hfree.mp h)), fun h => congrArg Host.Outcome.next (if_neg (mt hfree.mpr h))⟩

end Sys2Proof


/-! The completion of the Rekey Engine's writes (O48): each step of a job's start and completion places the next, the two
records of a chunk let it be written in place and end it, and a recovery settles the state of its job. -/

namespace Sys2Proof.Machine

/-! ### The steps of a job's start and completion (R100, R105) -/

theorem seqSerial_iff (s : State) (n : Nat) : s.seqSerial = some n ↔
    (∃ x, s.rke.finished = some x ∧ x.serial = n) ∨ (s.rke.finished = none ∧ ∃ j, s.headJob = some j ∧ j.serial = some n) := by
  cases hf : s.rke.finished with
  | some x => simp [State.seqSerial, hf]
  | none => simp [State.seqSerial, hf, Option.bind_eq_some_iff]

section seq
variable {s : State} {n : Nat}

theorem seqDone_other {q : RekeySeq} (h : ¬ (s.rke.seq = some q ∧ s.seqSerial = some n)) : s.seqDone q n = s := if_neg h

variable {q : RekeySeq} (h : s.rke.seq = some q ∧ s.seqSerial = some n)
include h

theorem seqDone_startKey (hq : q = .startKey) :
    s.seqDone q n = (s.setSeq (some .startQueue)).writeQueuePart [.rekeySeq .startQueue n] := by
  subst hq
  exact if_pos h

theorem seqDone_startQueue (hq : q = .startQueue) :
    s.seqDone q n = (s.setSeq (some .startProgress)).writeProgressPart [.rekeySeq .startProgress n] := by
  subst hq
  exact if_pos h

theorem seqDone_startProgress {j : Job} (hq : q = .startProgress) (hj : s.headJob = some j) :
    s.seqDone q n = (s.setSeq (some .startRange)).write (.range j.range) [.rekeySeq .startRange n] := by
  subst hq
  exact (if_pos h).trans (by rw [hj])

theorem seqDone_startRange (hq : q = .startRange) : s.seqDone q n = s.setSeq none := by
  subst hq
  exact if_pos h

theorem seqDone_firstRecord (hq : q = .doneRecords) (hl : 1 < s.rke.seqLeft) :
    s.seqDone q n = { s with rke := { s.rke with seqLeft := s.rke.seqLeft - 1 } } := by
  subst hq
  exact (if_pos h).trans (if_pos hl)

theorem seqDone_lastRecord (hq : q = .doneRecords) (hl : s.rke.seqLeft ≤ 1) :
    s.seqDone q n = (s.setSeq (some .doneProgress)).writeProgressPart [.rekeySeq .doneProgress n] := by
  subst hq
  exact (if_pos h).trans (if_neg (Nat.not_lt.mpr hl))

theorem seqDone_doneProgress (hq : q = .doneProgress) :
    s.seqDone q n = (s.setSeq (some .doneQueue)).writeQueuePart [.rekeySeq .doneQueue n] := by
  subst hq
  exact if_pos h

theorem seqDone_doneQueue (hq : q = .doneQueue) : s.seqDone q n = s.rekeyDone := by
  subst hq
  exact if_pos h

end seq

theorem setSeq_framed (s : State) (q : Option RekeySeq) : Framed [.rekey] s (s.setSeq q) :=
  ⟨rfl, fun p hp => by cases p <;> simp_all [Piece.same, State.setSeq]⟩

/-- The next step's write of the queue part. -/
theorem setSeq_queuePart (s : State) (q : RekeySeq) (ws : List Waiter) :
    let t := (s.setSeq (some q)).writeQueuePart ws
    Framed [.rekey, .writes] s t ∧ WritesOnly [.rekeyQueue] s t ∧
      t.rke = { s.rke with seq := some q, dueQueue := t.rke.dueQueue, dueProgress := t.rke.dueProgress } := by
  intro t
  have hrke := writeQueuePart_rke (s.setSeq (some q)) ws
  refine ⟨((setSeq_framed s _).trans (writeQueuePart_framed _ ws)).mono (by decide),
    WritesOnly.trans (us := []) (writesOnly_of_eq rfl rfl rfl _) (writeQueuePart_only _ ws), ?_⟩
  have hdue : t.rke.dueProgress = s.rke.dueProgress := by rw [hrke]; exact rfl
  rw [hdue]
  exact hrke

/-- The next step's write of the progress part. -/
theorem setSeq_progressPart (s : State) (q : RekeySeq) (ws : List Waiter) :
    let t := (s.setSeq (some q)).writeProgressPart ws
    Framed [.rekey, .writes] s t ∧ WritesOnly [.rekeyProgress] s t ∧
      t.rke = { s.rke with seq := some q, dueQueue := t.rke.dueQueue, dueProgress := t.rke.dueProgress } := by
  intro t
  have hrke := State.writeProgressPart_rke (s.setSeq (some q)) ws
  refine ⟨((setSeq_framed s _).trans (writeProgressPart_framed _ ws)).mono (by decide),
    WritesOnly.trans (us := []) (writesOnly_of_eq rfl rfl rfl _) (State.writeProgressPart_only _ ws), ?_⟩
  have hdue : t.rke.dueQueue = s.rke.dueQueue := by rw [hrke]; exact rfl
  rw [hdue]
  exact hrke

/-- R105: the progress part of a job whose completion has come to it is cleared. -/
theorem progressRecord_cleared {s : State} (h : s.rke.seq = some .doneProgress) : s.recordOf .rekeyProgress = .rekeyProgress none := by
  have hcleared : s.cleared = true := by simp [State.cleared, h]
  have hrecord : s.progressRecord = none := by
    unfold State.progressRecord
    cases s.activeJob with
    | none => exact rfl
    | some j => exact if_pos hcleared
  exact congrArg Record.rekeyProgress hrecord

/-- R105: the queue part is written without the job that leaves. -/
theorem queueRecord_leaving {s : State} (h : s.rke.seq = some .doneQueue) : s.recordOf .rekeyQueue =
    .rekeyQueue { serial := s.rke.serial, ranges := s.rke.queue.tail.map (fun j => j.range), active := none } := by
  have hleaving : s.leaving = true := by simp [State.leaving, h]
  have hrecord : s.queueRecord = { serial := s.rke.serial, ranges := (s.rke.queue.map (fun j => j.range)).drop 1, active := none } :=
    if_pos hleaving
  refine (congrArg Record.rekeyQueue hrecord).trans ?_
  simp

/-- R105: the completed job leaves the queue. -/
def State.jobLeft (s : State) : State := { s with rke := { s.rke with queue := s.rke.queue.tail, seq := none, finished := none } }

theorem rekeyDone_leaves {s : State} {x : FinishedJob} (h : s.rke.finished = some x) :
    s.rekeyDone = if x.silent then s.jobLeft else s.jobLeft.notice (.rekeyDone x.range x.serial .done) := by
  simp only [State.rekeyDone, h, List.drop_one, State.jobLeft]

theorem notice_effect (s : State) (b : Body) : Framed [.sent] s (s.notice b) ∧ (s.notice b).rke = s.rke ∧
    (s.notice b).sent = s.sent ++ if s.lif.started = true then [frame .control 0 b] else [] := by
  unfold State.notice
  by_cases h : s.lif.started = true
  · rw [if_pos h, if_pos h]
    exact ⟨⟨rfl, fun p hp => by cases p <;> simp_all [Piece.same, State.send]⟩, rfl, rfl⟩
  · rw [if_neg h, if_neg h, List.append_nil]
    exact ⟨Framed.refl _ s, rfl, rfl⟩

/-- R105: the job leaves the queue, and REKEY_DONE is sent unless the completion is silent. -/
theorem rekeyDone_effect {s : State} {x : FinishedJob} (h : s.rke.finished = some x) :
    Framed [.rekey, .sent] s s.rekeyDone ∧ s.rekeyDone.rke = { s.rke with queue := s.rke.queue.tail, seq := none, finished := none } ∧
      s.rekeyDone.sent = s.sent ++ (if x.silent = false ∧ s.lif.started = true
        then [frame .control 0 (.rekeyDone x.range x.serial .done)] else []) := by
  have hleft : Framed [.rekey] s s.jobLeft := ⟨rfl, fun p hp => by cases p <;> simp_all [Piece.same, State.jobLeft]⟩
  obtain ⟨hframe, hrke, hsent⟩ := notice_effect s.jobLeft (.rekeyDone x.range x.serial .done)
  rw [rekeyDone_leaves h]
  cases x.silent with
  | true =>
    rw [if_pos rfl, if_neg (by simp), List.append_nil]
    exact ⟨hleft.mono (by decide), rfl, rfl⟩
  | false =>
    rw [if_neg (by simp)]
    exact ⟨hleft.trans hframe, hrke, hsent.trans (congrArg (s.sent ++ ·) (if_congr (by simp [State.jobLeft]) rfl rfl))⟩

/-! ### The state of a recovered job (R107, R114) -/

/-- R107, R114: the state of the active job is settled from its slots, its hold and its range's RAK. -/
def State.SettledTo (s t : State) : Prop :=
  (s.activeJob = none → t.rke.queue = s.rke.queue ∧ t.kst = s.kst ∧ t.sst = s.sst) ∧
  (∀ j, s.activeJob = some j →
    let kept := j.state = .faulted ∨ s.rke.finished ≠ none
    let lost := ∀ g, s.fields j.range = some g → ∃ k ∈ g.named, (s.slot k).state = .empty ∨ (s.slot k).owner ≠ some j.range
    let loaded := ∃ k, s.load j.range = .loaded k
    (kept → t.rke.queue = s.rke.queue ∧ t.kst = s.kst) ∧
    (¬ kept → lost → t.rke.queue = { j with state := .faulted, fault := some .keyLost } :: s.rke.queue.tail ∧
      t.kst.hold = none ∧ (s.kst.hold = none → t.kst = s.kst ∧ t.sst = s.sst)) ∧
    ((kept ∨ ¬ lost) → t.sst = s.sst ∧ t.kst.loads = s.kst.loads) ∧
    (¬ kept → ¬ lost → s.kst.hold ≠ none → t.rke.queue = { j with state := .sweeping } :: s.rke.queue.tail ∧ t.kst = s.kst) ∧
    (¬ kept → ¬ lost → s.kst.hold = none → loaded → t.rke.queue = { j with state := .sweeping } :: s.rke.queue.tail ∧
      (∀ g w, s.fields j.range = some g → g.split = some w →
        t.kst.hold = some { range := j.range, oldKey := g.keySlot, newKey := w.newKey })) ∧
    (¬ kept → ¬ lost → s.kst.hold = none → ¬ loaded → t.rke.queue = { j with state := .paused } :: s.rke.queue.tail ∧ t.kst = s.kst))

theorem slotLost_forall (s : State) (r : Nat) : s.slotLost r = true ↔
    ∀ g, s.fields r = some g → ∃ k ∈ g.named, (s.slot k).state = .empty ∨ (s.slot k).owner ≠ some r := by
  cases hf : s.fields r with
  | none => simp [State.slotLost, hf]
  | some g => simp [State.slotLost, State.owns, hf]

theorem activeJob_some {s : State} {j : Job} (h : s.activeJob = some j) : s.headJob = some j ∧ j.state ≠ .queued := by
  unfold State.activeJob at h
  cases hj : s.headJob with
  | none => rw [hj] at h; cases h
  | some j' =>
    rw [hj] at h
    by_cases hq : j'.state = .queued
    · simp [hq] at h
    · simp only [beq_iff_eq, if_neg hq, Option.some.injEq] at h
      exact ⟨by rw [h], h ▸ hq⟩

/-- The queue with its head job changed. -/
theorem queue_modify {s : State} {j : Job} (h : s.headJob = some j) (f : Job → Job) : s.rke.queue.modify 0 f = f j :: s.rke.queue.tail := by
  obtain ⟨l, hl⟩ := List.head?_eq_some_iff.mp (show s.rke.queue.head? = some j from h)
  rw [hl]
  exact rfl

theorem settleJob_framed (s : State) : Framed [.rekey, .hold, .keySlots, .loads, .writes] s s.settleJob :=
  ⟨s.settleJob_keeps.1, fun q hq => by cases q <;> simp_all [Piece.same]⟩

section settle
variable {s : State} {j : Job}

theorem settleJob_none (h : s.activeJob = none) : s.settleJob = s := by simp only [State.settleJob, h]

theorem settleJob_kept (h : s.activeJob = some j) (hk : j.state = .faulted ∨ s.rke.finished.isSome = true) : s.settleJob = s := by
  simp only [State.settleJob, h, if_pos hk]

variable (h : s.activeJob = some j) (hk : ¬ (j.state = .faulted ∨ s.rke.finished.isSome = true))
include h hk

theorem settleJob_lost (hl : s.slotLost j.range = true) :
    s.settleJob = s.releaseHold.mapHead (fun j => { j with state := .faulted, fault := some .keyLost }) := by
  simp only [State.settleJob, h, if_neg hk, if_pos hl]

variable (hl : ¬ s.slotLost j.range = true)
include hl

theorem settleJob_held (hh : s.kst.hold.isSome = true) : s.settleJob = s.mapHead (fun j => { j with state := .sweeping }) := by
  simp only [State.settleJob, h, if_neg hk, if_neg hl, if_pos hh]

theorem settleJob_loaded {k : Rak} (hh : ¬ s.kst.hold.isSome = true) (hk' : s.load j.range = .loaded k) :
    s.settleJob = (s.takeHold j.range).mapHead (fun j => { j with state := .sweeping }) := by
  simp only [State.settleJob, h, if_neg hk, if_neg hl, if_neg hh, hk']

theorem settleJob_unloaded (hh : ¬ s.kst.hold.isSome = true) (hk' : ¬ ∃ k, s.load j.range = .loaded k) :
    s.settleJob = s.mapHead (fun j => { j with state := .paused }) := by
  cases hload : s.load j.range with
  | loaded k => exact absurd ⟨k, hload⟩ hk'
  | notLoaded => simp only [State.settleJob, h, if_neg hk, if_neg hl, if_neg hh, hload]
  | releasing k => simp only [State.settleJob, h, if_neg hk, if_neg hl, if_neg hh, hload]

end settle

theorem settleJob_settles (s : State) : s.SettledTo s.settleJob := by
  refine ⟨fun hn => by rw [settleJob_none hn]; exact ⟨rfl, rfl, rfl⟩, fun j hj => ?_⟩
  intro kept lost loaded
  obtain ⟨hhead, -⟩ := activeJob_some hj
  have hkept : (j.state = .faulted ∨ s.rke.finished.isSome = true) ↔ kept := by simp only [kept, Option.isSome_iff_ne_none]
  have hlost : s.slotLost j.range = true ↔ lost := slotLost_forall s j.range
  have hheld : s.kst.hold.isSome = true ↔ s.kst.hold ≠ none := Option.isSome_iff_ne_none
  refine ⟨fun hk => ?_, fun hk hl => ?_, fun h => ?_, fun hk hl hh => ?_, fun hk hl hh hload => ?_, fun hk hl hh hload => ?_⟩
  · rw [settleJob_kept hj (hkept.mpr hk)]
    exact ⟨rfl, rfl⟩
  · rw [settleJob_lost hj (mt hkept.mp hk) (hlost.mpr hl)]
    refine ⟨?_, State.releaseHold_hold s, fun hn => ?_⟩
    · have hqueue : s.releaseHold.rke = s.rke := by simp
      simp only [State.mapHead, hqueue]
      exact queue_modify hhead _
    · rw [s.releaseHold_none hn]
      exact ⟨rfl, rfl⟩
  · by_cases hk : kept
    · rw [settleJob_kept hj (hkept.mpr hk)]
      exact ⟨rfl, rfl⟩
    · have hl : ¬ s.slotLost j.range = true := mt hlost.mp (h.resolve_left hk)
      have hk' := mt hkept.mp hk
      by_cases hh : s.kst.hold.isSome = true
      · rw [settleJob_held hj hk' hl hh]
        exact ⟨rfl, rfl⟩
      · by_cases hload : loaded
        · obtain ⟨k, hload⟩ := hload
          rw [settleJob_loaded hj hk' hl hh hload]
          exact ⟨(s.takeHold_frame j.range).2.2.2.2.2.2.2.2.2.2.1, by simp [State.mapHead]⟩
        · rw [settleJob_unloaded hj hk' hl hh hload]
          exact ⟨rfl, rfl⟩
  · rw [settleJob_held hj (mt hkept.mp hk) (mt hlost.mp hl) (hheld.mpr hh)]
    exact ⟨queue_modify hhead _, rfl⟩
  · obtain ⟨k, hload⟩ := hload
    rw [settleJob_loaded hj (mt hkept.mp hk) (mt hlost.mp hl) (by simp [hh]) hload]
    have hqueue : (s.takeHold j.range).rke = s.rke := by simp
    refine ⟨?_, fun g w hg hw => ?_⟩
    · simp only [State.mapHead, hqueue]
      exact queue_modify hhead _
    · rw [takeHold_split hg hw]
      exact rfl
  · rw [settleJob_unloaded hj (mt hkept.mp hk) (mt hlost.mp hl) (by simp [hh]) hload]
    exact ⟨queue_modify hhead _, rfl⟩

/-! ### The end of a chunk and of a recovery (R104, R115) -/

theorem endRecovery_unheld {s : State} (h : s.rke.rangeHeld = false) : s.endRecovery = s := if_neg (by simp [h])

theorem endRecovery_held {s : State} (h : s.rke.rangeHeld = true) :
    s.endRecovery = ({ s with rke := { s.rke with rangeHeld := false } } : State).settleJob := if_pos h

theorem settleJob_heldOnly (s : State) : WritesOnly s.heldUnits s s.settleJob := by
  obtain ⟨hnone, hsome⟩ := settleJob_settles s
  have quiet : s.settleJob.sst = s.sst → WritesOnly s.heldUnits s s.settleJob := fun h =>
    writesOnly_of_eq (by rw [h]) (by rw [h]) (by rw [h]) _
  cases hj : s.activeJob with
  | none => exact quiet (hnone hj).2.2
  | some j =>
    obtain ⟨-, -, hsst, -⟩ := hsome j hj
    by_cases hl : s.slotLost j.range = true
    · by_cases hk : j.state = .faulted ∨ s.rke.finished.isSome = true
      · rw [settleJob_kept hj hk]
        exact WritesOnly.refl _ _
      · rw [settleJob_lost hj hk hl]
        exact WritesOnly.trans (us := s.heldUnits) (vs := []) (releaseHold_only s) (writesOnly_of_eq rfl rfl rfl _) |>.mono (by simp)
    · exact quiet (hsst (.inr (mt (slotLost_forall s j.range).mpr hl))).1

/-- What a job is settled from is the same in two states. -/
theorem State.SettledTo.before {s s' t : State} (h : s'.SettledTo t) (hqueue : s'.rke.queue = s.rke.queue)
    (hfinished : s'.rke.finished = s.rke.finished) (hkst : s'.kst = s.kst) (hsst : s'.sst = s.sst)
    (hlost : ∀ r, s'.slotLost r = s.slotLost r)
    (hkeys : ∀ r g w, s.fields r = some g → g.split = some w → ∃ g' w', s'.fields r = some g' ∧ g'.split = some w' ∧
      g'.keySlot = g.keySlot ∧ w'.newKey = w.newKey) : s.SettledTo t := by
  obtain ⟨hnone, hsome⟩ := h
  have hjob : s'.activeJob = s.activeJob := by simp only [State.activeJob, State.headJob, hqueue]
  have hload : ∀ r, s'.load r = s.load r := fun r => by rw [State.load, State.load, hkst]
  have hlost' : ∀ r, (∀ g, s'.fields r = some g → ∃ k ∈ g.named, (s'.slot k).state = .empty ∨ (s'.slot k).owner ≠ some r) ↔
      ∀ g, s.fields r = some g → ∃ k ∈ g.named, (s.slot k).state = .empty ∨ (s.slot k).owner ≠ some r := fun r => by
    rw [← slotLost_forall, ← slotLost_forall, hlost]
  rw [hjob, hqueue, hkst, hsst] at hnone
  refine ⟨hnone, fun j hj => ?_⟩
  have hall := hsome j (hjob.trans hj)
  simp only [hlost', hload, hfinished, hqueue, hkst, hsst] at hall
  obtain ⟨hkept, hl, hquiet, hheld, hloaded, hpaused⟩ := hall
  refine ⟨hkept, hl, hquiet, hheld, fun hk hn hh hr => ?_, hpaused⟩
  obtain ⟨hq, hhold⟩ := hloaded hk hn hh hr
  refine ⟨hq, fun g w hg hw => ?_⟩
  obtain ⟨g', w', hg', hw', ekey, enew⟩ := hkeys _ g w hg hw
  rw [hhold g' w' hg' hw', ekey, enew]

theorem mapHead_rke (u : State) (f : Job → Job) : (u.mapHead f).rke = { u.rke with queue := (u.mapHead f).rke.queue } := rfl

/-- The settling of a job changes nothing of the sweep but the queue. -/
theorem settleJob_rke (s : State) : s.settleJob.rke = { s.rke with queue := s.settleJob.rke.queue } := by
  cases hj : s.activeJob with
  | none => rw [settleJob_none hj]
  | some j =>
    by_cases hk : j.state = .faulted ∨ s.rke.finished.isSome = true
    · rw [settleJob_kept hj hk]
    · by_cases hl : s.slotLost j.range = true
      · have hrke : s.releaseHold.rke = s.rke := by simp
        rw [settleJob_lost hj hk hl, mapHead_rke, hrke]
      · by_cases hh : s.kst.hold.isSome = true
        · rw [settleJob_held hj hk hl hh]
          exact rfl
        · by_cases hload : ∃ k, s.load j.range = .loaded k
          · obtain ⟨k, hload⟩ := hload
            have hrke : (s.takeHold j.range).rke = s.rke := by simp
            rw [settleJob_loaded hj hk hl hh hload, mapHead_rke, hrke]
          · rw [settleJob_unloaded hj hk hl hh hload]
            exact rfl

/-- R115: the hold on the whole range ends. -/
theorem endRecovery_settles {u : State} (hh : u.rke.rangeHeld = true) :
    let t := u.endRecovery
    Framed [.rekey, .hold, .keySlots, .loads, .writes] u t ∧ WritesOnly u.heldUnits u t ∧
      t.rke = { u.rke with rangeHeld := false, queue := t.rke.queue } ∧ u.SettledTo t := by
  intro t
  have ht : t = _ := endRecovery_held hh
  have hframe : Framed [.rekey] u { u with rke := { u.rke with rangeHeld := false } } :=
    ⟨rfl, fun q hq => by cases q <;> simp_all [Piece.same]⟩
  rw [ht]
  refine ⟨(hframe.trans (settleJob_framed _)).mono (by decide), WritesOnly.trans (us := []) (writesOnly_of_eq rfl rfl rfl _)
    (settleJob_heldOnly ({ u with rke := { u.rke with rangeHeld := false } } : State)), settleJob_rke _, ?_⟩
  exact (settleJob_settles _).before rfl rfl rfl rfl (fun r => rfl) fun r g w hg hw => ⟨g, w, hg, hw, rfl, rfl⟩

/-- R104: the watermark behind the chunk, the chunk dropped, and no recovery left. -/
def State.chunkClosed (s : State) (r : Nat) : State :=
  let t := (s.setWatermark r (s.rke.first + s.rke.n)).dropChunk
  { t with rke := { t.rke with recovery := .none, runAnyway := false } }

theorem chunkDone_closes {s : State} {n : Nat} {j : Job} (hn : s.rke.chunk = n) (hc : s.rke.closing = true) (hj : s.headJob = some j) :
    s.chunkDone n = (s.chunkClosed j.range).endRecovery :=
  (if_pos ⟨hn, hc⟩).trans (by rw [hj]; exact rfl)

theorem setWatermark_map (s : State) (r q m : Nat) : (s.setWatermark r m).fields q = if q = r then
    (s.fields q).map (fun g => { g with split := g.split.map (fun w => { w with watermark := m }) }) else s.fields q :=
  fields_mapFields s r q _

theorem chunkClosed_fields (s : State) (r q : Nat) : (s.chunkClosed r).fields q = if q = r then
    (s.fields q).map (fun g => { g with split := g.split.map (fun w => { w with watermark := s.rke.first + s.rke.n }) }) else s.fields q :=
  setWatermark_map s r q _

theorem chunkClosed_parts (s : State) (r : Nat) : (s.chunkClosed r).kst = s.kst ∧ (s.chunkClosed r).sst = s.sst ∧
    (s.chunkClosed r).rtb.resealOnWake = s.rtb.resealOnWake ∧ (∀ q, q ≠ r → (s.chunkClosed r).entry q = s.entry q) ∧
    (s.chunkClosed r).rke = { s.rke with
      phase := .idle, first := 0, n := 0, window := false, headerIssued := false, buffer := [], todo := [], issued := []
      work := s.rke.work.filter (fun w => w.stage != .waiting), chunk := s.rke.chunk + 1, closing := false
      recovery := .none, runAnyway := false } := by
  have hrke : (s.setWatermark r (s.rke.first + s.rke.n)).rke = s.rke := by simp
  refine ⟨by simp [State.chunkClosed], by simp [State.chunkClosed], by simp [State.chunkClosed],
    fun q hq => entry_mapFields s _ (.inl hq), ?_⟩
  simp only [State.chunkClosed, State.dropChunk, hrke]

theorem chunkClosed_framed (s : State) (r : Nat) : Framed [.ranges, .rekey] s (s.chunkClosed r) := by
  have hmark : Framed [.ranges] s (s.setWatermark r (s.rke.first + s.rke.n)) :=
    ⟨(s.setWatermark_keeps r _).1, fun q hq => by cases q <;> simp_all [Piece.same]⟩
  have hdrop : Framed [.rekey] (s.setWatermark r (s.rke.first + s.rke.n)) (s.chunkClosed r) :=
    ⟨rfl, fun q hq => by cases q <;> simp_all [Piece.same, State.chunkClosed, State.dropChunk]⟩
  exact hmark.trans hdrop

/-- The new watermark changes no name of a range's slots. -/
theorem RangeFields.named_watermark (g : RangeFields) (m : Nat) :
    ({ g with split := g.split.map (fun w => { w with watermark := m }) } : RangeFields).named = g.named := by
  unfold RangeFields.named
  cases g.split <;> exact rfl

theorem chunkClosed_keys (s : State) (r q : Nat) : (s.chunkClosed r).slotLost q = s.slotLost q ∧
    ∀ g w, s.fields q = some g → g.split = some w → ∃ g' w', (s.chunkClosed r).fields q = some g' ∧ g'.split = some w' ∧
      g'.keySlot = g.keySlot ∧ w'.newKey = w.newKey := by
  have hslot : ∀ x, (s.chunkClosed r).slot x = s.slot x := fun x => by rw [State.slot, (chunkClosed_parts s r).1, ← State.slot]
  cases hg : s.fields q with
  | none =>
    have hnone : (s.chunkClosed r).fields q = none := by rw [chunkClosed_fields, hg]; simp
    exact ⟨by simp only [State.slotLost, hg, hnone], fun g w h => by cases h⟩
  | some g =>
    by_cases hq : q = r
    · have hsome := (chunkClosed_fields s r q).trans (if_pos hq)
      rw [hg, Option.map_some] at hsome
      refine ⟨?_, fun g' w h hw => ?_⟩
      · simp only [State.slotLost, hg, hsome, RangeFields.named_watermark, State.owns, hslot]
      · obtain rfl := Option.some.inj h
        exact ⟨_, { w with watermark := s.rke.first + s.rke.n }, hsome, by rw [hw]; exact rfl, rfl, rfl⟩
    · have hsome := ((chunkClosed_fields s r q).trans (if_neg hq)).trans hg
      exact ⟨by simp only [State.slotLost, hg, hsome, State.owns, hslot], fun g' w h hw => ⟨g', w, hsome.trans h, hw, rfl, rfl⟩⟩

end Sys2Proof.Machine

namespace Sys2Proof
open Machine

/-- Settles O48: the steps of a job's start and completion one by one, then the two records of a chunk, the progress part of
a resumption, and the end of a recovery. -/
theorem rekeyWritesComplete : Obligations.RekeyWritesComplete := by
  intro s settled
  have hsettled : ∀ t, settled t ↔ s.SettledTo t := fun t => Iff.rfl
  refine ⟨?_, fun n => ⟨fun hc hp => if_pos ⟨hc, hp⟩, fun h => if_neg h, fun h => if_neg h, fun j hn hc hj => ?_,
    fun h => if_pos h, fun h => if_neg h⟩, endRecovery_unheld, fun hh => ?_⟩
  · intro q n t mine goesOn
    have hmine : mine ↔ s.rke.seq = some q ∧ s.seqSerial = some n := by rw [seqSerial_iff]
    refine ⟨fun h => seqDone_other (mt hmine.mpr h), fun h hq => ?_, fun h hq => ?_, fun j h hq hj => ?_,
      fun h hq => seqDone_startRange (hmine.mp h) hq, fun h hq hl => seqDone_firstRecord (hmine.mp h) hq hl, fun h hq hl => ?_,
      fun h hq => ?_, fun x h hq hx => ?_⟩
    · have ht : t = _ := seqDone_startKey (hmine.mp h) hq
      obtain ⟨hframe, honly, hrke⟩ := setSeq_queuePart s .startQueue [.rekeySeq .startQueue n]
      rw [← ht] at hframe honly hrke
      exact ⟨hframe, honly, hrke, by rw [ht]; exact writeQueuePart_awaits (List.mem_singleton_self _)⟩
    · have ht : t = _ := seqDone_startQueue (hmine.mp h) hq
      obtain ⟨hframe, honly, hrke⟩ := setSeq_progressPart s .startProgress [.rekeySeq .startProgress n]
      rw [← ht] at hframe honly hrke
      exact ⟨hframe, honly, hrke, by rw [ht]; exact State.writeProgressPart_awaits _ _ _ (List.mem_singleton_self _)⟩
    · have ht : t = _ := seqDone_startProgress (hmine.mp h) hq hj
      have hframe := (setSeq_framed s (some .startRange)).trans (write_framed _ (.range j.range) [.rekeySeq .startRange n])
      have honly := WritesOnly.trans (us := []) (writesOnly_of_eq rfl rfl rfl _)
        (write_only (s.setSeq (some .startRange)) (.range j.range) [.rekeySeq .startRange n])
      rw [← ht] at hframe honly
      refine ⟨hframe, honly, ?_, ?_⟩
      · have hrke : t.rke = (s.setSeq (some .startRange)).rke := by rw [ht]; simp
        simp only [goesOn, hrke, State.setSeq]
      · rw [ht, write_recordOf]
        exact place_holds _ _ _ _ _ (List.mem_singleton_self _)
    · have ht : t = _ := seqDone_lastRecord (hmine.mp h) hq hl
      obtain ⟨hframe, honly, hrke⟩ := setSeq_progressPart s .doneProgress [.rekeySeq .doneProgress n]
      rw [← ht] at hframe honly hrke
      exact ⟨hframe, honly, hrke, progressRecord_cleared (by rw [hrke]), by
        rw [ht]; exact State.writeProgressPart_awaits _ _ _ (List.mem_singleton_self _)⟩
    · have ht : t = _ := seqDone_doneProgress (hmine.mp h) hq
      obtain ⟨hframe, honly, hrke⟩ := setSeq_queuePart s .doneQueue [.rekeySeq .doneQueue n]
      rw [← ht] at hframe honly hrke
      have hrecord := queueRecord_leaving (s := t) (by rw [hrke])
      refine ⟨hframe, honly, hrke, ?_, by rw [ht]; exact writeQueuePart_awaits (List.mem_singleton_self _)⟩
      rw [hrecord, hrke]
    · have ht : t = _ := seqDone_doneQueue (hmine.mp h) hq
      rw [ht]
      exact rekeyDone_effect hx
  · intro t
    have ht : t = _ := chunkDone_closes hn hc hj
    obtain ⟨hkst, hsst, hreseal, hentry, hrke⟩ := chunkClosed_parts s j.range
    have hfields := (chunkClosed_fields s j.range j.range).trans (if_pos rfl)
    have hclosed := chunkClosed_framed s j.range
    have hunits : (s.chunkClosed j.range).heldUnits = s.heldUnits := by simp only [State.heldUnits, hkst]
    have hquiet : WritesOnly [] s (s.chunkClosed j.range) := writesOnly_of_eq (by rw [hsst]) (by rw [hsst]) (by rw [hsst]) _
    by_cases hh : s.rke.rangeHeld = true
    · have hheld : (s.chunkClosed j.range).rke.rangeHeld = true := by rw [hrke]; exact hh
      obtain ⟨hframe, honly, hrke', hset⟩ := endRecovery_settles hheld
      rw [← ht] at hframe honly hrke' hset
      rw [hunits] at honly
      have htable := hframe.2 .ranges (by decide)
      have hent : ∀ q, t.entry q = (s.chunkClosed j.range).entry q := fun q => by rw [State.entry, State.entry, htable.1]
      refine ⟨(hclosed.trans hframe).mono (by decide), hquiet.trans honly, fun h => absurd h (by simp [hh]), fun _ => ?_, ?_,
        fun r hr => (hent r).trans (hentry r hr), htable.2.trans hreseal, ?_⟩
      · exact hset.before (by rw [hrke]) (by rw [hrke]) hkst hsst (fun r => (chunkClosed_keys s j.range r).1)
          fun r => (chunkClosed_keys s j.range r).2
      · rw [State.fields, hent]
        exact hfields
      · rw [hrke', hrke, hn]
        exact ⟨rfl, rfl, rfl, rfl, rfl, rfl, rfl, rfl⟩
    · have hfree : s.rke.rangeHeld = false := by simpa using hh
      have hend : t = s.chunkClosed j.range := ht.trans (endRecovery_unheld (by rw [hrke]; exact hfree))
      rw [hend]
      refine ⟨hclosed.mono (by decide), hquiet.mono (by simp), fun _ => ⟨hkst, hsst, by rw [hrke]⟩, fun h => absurd h hh, hfields, hentry, hreseal, ?_⟩
      rw [hrke, hn]
      exact ⟨rfl, rfl, rfl, rfl, rfl, rfl, rfl, hfree⟩
  · exact endRecovery_settles hh

end Sys2Proof


/-! RESPONSE_CLEAR (O49): what the unlocks of a list of ranges through their device envelopes leave of the ranges that are
not on it, and the request's cases by the level. -/

namespace Sys2Proof.Machine

/-! ### A load that nothing of another range touches (R28, R34) -/

/-- The load state of range r stays, where it is not RELEASING and the sweep hold is on another range; and so the hold stays
off it. -/
def LoadStays (r : Nat) (s t : State) : Prop :=
  (∀ k, s.load r ≠ .releasing k) → (∀ h, s.kst.hold = some h → h.range ≠ r) →
    t.load r = s.load r ∧ ∀ h, t.kst.hold = some h → h.range ≠ r

section stays
variable {r : Nat}

theorem LoadStays.of_eq {s t : State} (hl : t.kst.loads = s.kst.loads) (hh : t.kst.hold = s.kst.hold) : LoadStays r s t :=
  fun _ h => ⟨by rw [State.load, State.load, hl], by rw [hh]; exact h⟩

theorem LoadStays.refl (s : State) : LoadStays r s s := .of_eq rfl rfl

theorem LoadStays.trans {s t u : State} (h : LoadStays r s t) (k : LoadStays r t u) : LoadStays r s u := fun hn hh => by
  obtain ⟨hl, hold⟩ := h hn hh
  obtain ⟨hl', hold'⟩ := k (by rw [hl]; exact hn) hold
  exact ⟨hl'.trans hl, hold'⟩

theorem LoadStays.foldl {α : Type} {f : State → α → State} (h : ∀ s x, LoadStays r s (f s x)) (l : List α) (s : State) :
    LoadStays r s (l.foldl f s) := by
  induction l generalizing s with
  | nil => exact .refl s
  | cons x l ih => exact (h s x).trans (ih _)

theorem loadStays_dropUser (s : State) (k : Nat) : LoadStays r s (s.dropUser k) := by
  rw [dropUser_eq]
  have hless : LoadStays r s (s.lessUser k) := fun _ h => ⟨lessUser_load s k r, by rw [(lessUser_same s k).1]; exact h⟩
  cases (s.slot k).owner with
  | none => exact hless
  | some q =>
    refine hless.trans fun hn hh => ⟨?_, by simpa using hh⟩
    rw [settleRange_load]
    by_cases hq : r = q
    · rw [if_pos hq]
      cases hl : (s.lessUser k).load r with
      | releasing y => exact absurd hl (hn y)
      | notLoaded => exact rfl
      | loaded y => exact rfl
    · rw [if_neg hq]

theorem loadStays_freeContext (s : State) (c : Nat) : LoadStays r s (s.freeContext c) := by
  unfold State.freeContext
  split
  · exact .refl s
  · exact (LoadStays.of_eq (t := s.setCtx c { s.ctx c with xfer := none }) rfl rfl).trans (LoadStays.foldl loadStays_dropUser _ _)

theorem loadStays_abortAll (s : State) (cause : AbortCause) (p : OpenContext → Bool) : LoadStays r s (s.abortAll cause p) := by
  refine LoadStays.foldl (fun t c => ?_) _ s
  unfold State.abort
  split
  · exact .refl t
  · exact (loadStays_freeContext t c).trans (.of_eq (by simp) (by simp))

theorem loadStays_releaseHold (s : State) : LoadStays r s s.releaseHold := by
  intro hn hh
  refine ⟨?_, fun h h' => by rw [State.releaseHold_hold] at h'; cases h'⟩
  cases hs : s.kst.hold with
  | none => rw [s.releaseHold_none hs]
  | some h =>
    rw [releaseHold_some hs, settleHeld_load, if_neg (Ne.symm (hh h hs))]
    exact (LoadStays.foldl loadStays_dropUser _ s.unheld hn (fun _ h' => by cases h')).1

/-- R109: the active job as it is faulted, before its hold is released. -/
def State.jobFaulted (s : State) (cause : FaultCause) : State :=
  let t := if s.rke.headerIssued || s.rke.phase == .idle then s else s.dropChunk
  let t := t.mapHead (fun j => { j with state := .faulted, fault := some cause })
  { t with rke := { t.rke with runAnyway := false } }

theorem faultJob_eq (s : State) (cause : FaultCause) : s.faultJob cause = (s.jobFaulted cause).releaseHold.writeProgressPart [] := rfl

theorem jobFaulted_kst (s : State) (cause : FaultCause) : (s.jobFaulted cause).kst = s.kst := by
  unfold State.jobFaulted
  split <;> exact rfl

theorem loadStays_faultJob (s : State) (cause : FaultCause) : LoadStays r s (s.faultJob cause) := by
  have hfault : LoadStays r s (s.jobFaulted cause) := .of_eq (by rw [jobFaulted_kst]) (by rw [jobFaulted_kst])
  rw [faultJob_eq]
  exact (hfault.trans (loadStays_releaseHold _)).trans (.of_eq (by simp) (by simp))

/-- R36: the active job of range q loses the key of slot k. -/
def State.jobHit (s : State) (q k : Nat) : State :=
  match s.activeJob, s.fields q with
  | some j, some f => if j.range = q ∧ k ∈ f.named ∧ s.rke.finished = none then s.faultJob .keyLost else s
  | _, _ => s

theorem damagedKey_eq (s : State) (q k : Nat) : s.damagedKey q k =
    ((((s.abortAll .keyDamaged (fun x => x.mode == .clear && x.range == some q)).jobHit q k).mapSlot k (fun _ => KeySlot.blank)).write
      (.key k) []).loseKey q := rfl

theorem loadStays_jobHit (s : State) (q k : Nat) : LoadStays r s (s.jobHit q k) := by
  unfold State.jobHit
  split
  · split
    · exact loadStays_faultJob _ _
    · exact .refl _
  · exact .refl _

theorem loadStays_damagedKey (s : State) (q k : Nat) : LoadStays r s (s.damagedKey q k) := by
  rw [damagedKey_eq]
  exact ((loadStays_abortAll s .keyDamaged (fun x => x.mode == .clear && x.range == some q)).trans (loadStays_jobHit _ q k)).trans
    (.of_eq (by simp [State.mapSlot]) (by simp [State.mapSlot]))

theorem loadStays_unwrap (s : State) (q : Nat) (k : Rak) (x : Nat) : LoadStays r s (s.unwrap q k x) := by
  unfold State.unwrap
  split
  · split
    · split
      · exact .of_eq rfl rfl
      · exact loadStays_damagedKey _ _ _
    · exact loadStays_damagedKey _ _ _
  · exact .refl s

variable {q : Nat} (hq : q ≠ r)
include hq

theorem loadStays_setLoad (s : State) (l : Load) : LoadStays r s (s.setLoad q l) := fun _ hh =>
  ⟨by rw [load_setLoad, if_neg fun h => hq h.1.symm], hh⟩

theorem loadStays_resumeJob (s : State) (ws : List Waiter) : LoadStays r s (s.resumeJob q ws) := by
  have htake : LoadStays r s (s.takeHold q) := fun _ hh => by
    refine ⟨by simp [State.load], ?_⟩
    unfold State.takeHold
    split
    · split
      · intro h hheld
        obtain rfl := Option.some.inj hheld
        exact hq
      · exact hh
    · exact hh
  exact htake.trans (.of_eq (by simp [State.resumeJob, State.mapHead]) (by simp [State.resumeJob, State.mapHead]))

theorem loadStays_resumeIfPaused (s : State) : LoadStays r s (s.resumeIfPaused q) := by
  unfold State.resumeIfPaused
  split
  · split
    · exact loadStays_resumeJob hq s []
    · exact .refl s
  · exact .refl s

theorem loadStays_loadRange (s : State) (via : Option Rak) : LoadStays r s (s.loadRange q via).1 := by
  unfold State.loadRange
  split
  · exact .refl s
  · split
    · exact .refl s
    · exact (loadStays_setLoad hq s _).trans (loadStays_resumeIfPaused hq _)
    · exact .refl s
    · exact ((loadStays_setLoad hq s _).trans (LoadStays.foldl (fun t x => loadStays_unwrap t q _ x) _ _)).trans
        (loadStays_resumeIfPaused hq _)

theorem loadStays_unlockRange (s : State) (read write : Bool) (via : Option Rak) : LoadStays r s (s.unlockRange read write via q).1 := by
  by_cases h : (s.loadRange q via).2 = true
  · rw [unlockRange_of_loads read write h]
    exact (loadStays_loadRange hq s via).trans (.of_eq (by simp) (by simp))
  · rw [unlockRange_of_not_loads read write h]
    exact loadStays_loadRange hq s via

end stays

/-! ### What an unlock through the device envelope writes (R3, R36, R107) -/

/-- The records that a load of range r may write. -/
def loadUnits (r : Nat) : List StoreUnit := .range r :: .rekeyProgress :: (List.range 24).map StoreUnit.key

theorem resumeIfPaused_only (s : State) (r : Nat) : WritesOnly [.rekeyProgress] s (s.resumeIfPaused r) := by
  have hresume : WritesOnly [.rekeyProgress] s (s.resumeJob r []) := by
    have hsst : (s.takeHold r).sst = s.sst := by simp
    exact WritesOnly.trans (us := []) (writesOnly_of_eq (by simp [State.mapHead]) (by simp [State.mapHead])
      (by simp [State.mapHead]) _) (State.writeProgressPart_only _ _)
  unfold State.resumeIfPaused
  split
  · split
    · exact hresume
    · exact WritesOnly.refl _ _
  · exact WritesOnly.refl _ _

/-- The records that a load may write. -/
theorem loadRange_only {s : State} {r : Nat} {via : Option Rak} (hs : Shaped s) (hvia : s.fields r = none → via = none) :
    WritesOnly (loadUnits r) s (s.loadRange r via).1 := by
  have stays : (s.loadRange r via).1 = s → WritesOnly (loadUnits r) s (s.loadRange r via).1 := fun h => by
    rw [h]
    exact WritesOnly.refl _ _
  by_cases hl : s.lockdown = true
  · exact stays (congrArg Prod.fst (if_pos hl))
  · have hl' : s.lockdown = false := by simpa using hl
    cases hload : s.load r with
    | loaded k => exact stays (by simp [State.loadRange, hl', hload])
    | releasing k =>
      have hres : (s.loadRange r via).1 = (s.setLoad r (.loaded k)).resumeIfPaused r := by simp [State.loadRange, hl', hload]
      have honly := WritesOnly.trans (us := []) (writesOnly_of_eq rfl rfl rfl _) (resumeIfPaused_only (s.setLoad r (.loaded k)) r)
      rw [hres]
      exact honly.mono (by simp [loadUnits])
    | notLoaded =>
      cases via with
      | none => exact stays (by simp [State.loadRange, hl', hload])
      | some k =>
        cases hg : s.fields r with
        | none => cases hvia hg
        | some g =>
          by_cases hi : s.intactUnder r k
          · obtain ⟨u, hu, hloads, -⟩ := loadRange_loads (via := some k) hs hl' hg (.inr (by simp))
              fun k' _ hk' => Option.some.inj hk' ▸ hi
            rw [hu]
            exact hloads.writes.mono (by simp [loadUnits])
          · obtain ⟨u, hu, -, -, -, -, honly⟩ := loadRange_damaged hs hl' hload hg hi
            rw [hu]
            exact honly

theorem unlockDevice_only {s : State} {r : Nat} (hs : Shaped s) : WritesOnly (loadUnits r) s (s.unlockDevice r) := by
  have honly := loadRange_only (r := r) hs fun h : s.fields r = none =>
    (by simp [State.openDevice, State.openEnvelope, h] : s.openDevice r = none)
  unfold State.unlockDevice
  by_cases h : (s.loadRange r (s.openDevice r)).2 = true
  · obtain ⟨-, -, -, -, hsst, -⟩ := setLocks_changes (s.loadRange r (s.openDevice r)).1 r true true false
    rw [unlockRange_of_loads true true h]
    exact (honly.trans (vs := []) (writesOnly_of_eq (by rw [hsst]) (by rw [hsst]) (by rw [hsst]) _)).mono (by simp)
  · rw [unlockRange_of_not_loads true true h]
    exact honly

theorem unlockDevices_only (rs : List Nat) : ∀ s : State, Shaped s →
    WritesOnly ((.rekeyProgress :: (List.range 24).map StoreUnit.key) ++ rs.map StoreUnit.range) s (rs.foldl State.unlockDevice s) := by
  induction rs with
  | nil => exact fun s _ => WritesOnly.refl _ _
  | cons r rs ih =>
    intro s hs
    refine ((unlockDevice_only (r := r) hs).trans (ih _ ((State.unlockDevice_keeps s r).shaped hs))).mono fun u hu => ?_
    simp only [loadUnits, List.map_cons, List.cons_append, List.mem_append, List.mem_cons] at hu ⊢
    tauto

/-! ### An unlock writes no CREDENTIAL record -/

/-- No write of a CREDENTIAL record comes or goes. -/
def CredWritesStay (s t : State) : Prop := ∃ us, WritesOnly us s t ∧ ∀ i, StoreUnit.cred i ∉ us

theorem CredWritesStay.of_sst {s t : State} (h : t.sst = s.sst) : CredWritesStay s t :=
  ⟨[], writesOnly_of_eq (by rw [h]) (by rw [h]) (by rw [h]) _, fun _ => List.not_mem_nil⟩

theorem CredWritesStay.refl (s : State) : CredWritesStay s s := .of_sst rfl

theorem CredWritesStay.trans {s t u : State} (h : CredWritesStay s t) (k : CredWritesStay t u) : CredWritesStay s u := by
  obtain ⟨us, ht, hus⟩ := h
  obtain ⟨vs, hu, hvs⟩ := k
  exact ⟨us ++ vs, ht.trans hu, fun i hi => (List.mem_append.mp hi).elim (hus i) (hvs i)⟩

theorem CredWritesStay.foldl {α : Type} {f : State → α → State} (h : ∀ s x, CredWritesStay s (f s x)) (l : List α) (s : State) :
    CredWritesStay s (l.foldl f s) := by
  induction l generalizing s with
  | nil => exact .refl s
  | cons x l ih => exact (h s x).trans (ih _)

theorem WritesOnly.credsStay {s t : State} {u : StoreUnit} (h : WritesOnly [u] s t) (hu : ∀ i, u ≠ .cred i) : CredWritesStay s t :=
  ⟨[u], h, fun i hi => hu i (List.mem_singleton.mp hi).symm⟩

theorem credsStay_dropUser (s : State) (k : Nat) : CredWritesStay s (s.dropUser k) :=
  (dropUser_only s k).credsStay fun _ => StoreUnit.noConfusion

theorem credsStay_abortAll (s : State) (cause : AbortCause) (p : OpenContext → Bool) : CredWritesStay s (s.abortAll cause p) := by
  have hfree : ∀ (t : State) (c : Nat), CredWritesStay t (t.freeContext c) := fun t c => by
    unfold State.freeContext
    split
    · exact .refl t
    · exact (CredWritesStay.of_sst (t := t.setCtx c { t.ctx c with xfer := none }) rfl).trans (CredWritesStay.foldl credsStay_dropUser _ _)
  refine CredWritesStay.foldl (fun t c => ?_) _ s
  unfold State.abort
  split
  · exact .refl t
  · exact (hfree t c).trans (.of_sst (by simp))

theorem credsStay_releaseHold (s : State) : CredWritesStay s s.releaseHold := by
  refine ⟨s.heldUnits, releaseHold_only s, fun i hi => ?_⟩
  unfold State.heldUnits at hi
  split at hi <;> simp at hi

theorem credsStay_faultJob (s : State) (cause : FaultCause) : CredWritesStay s (s.faultJob cause) := by
  have hfault : (s.jobFaulted cause).sst = s.sst := by
    unfold State.jobFaulted
    split <;> exact rfl
  exact ((CredWritesStay.of_sst hfault).trans (credsStay_releaseHold _)).trans
    ((State.writeProgressPart_only _ _).credsStay fun _ => StoreUnit.noConfusion)

theorem credsStay_damagedKey (s : State) (q k : Nat) : CredWritesStay s (s.damagedKey q k) := by
  have hhit : ∀ t : State, CredWritesStay t (t.jobHit q k) := fun t => by
    unfold State.jobHit
    split
    · split
      · exact credsStay_faultJob t _
      · exact .refl t
    · exact .refl t
  rw [damagedKey_eq]
  exact ((((credsStay_abortAll s .keyDamaged (fun x => x.mode == .clear && x.range == some q)).trans (hhit _)).trans
    (CredWritesStay.of_sst (t := State.mapSlot _ k fun _ => KeySlot.blank) rfl)).trans
    ((write_only _ (.key k) []).credsStay fun _ => StoreUnit.noConfusion)).trans ((State.loseKey_only _ q).credsStay fun _ => StoreUnit.noConfusion)

theorem credsStay_unwrap (s : State) (q : Nat) (k : Rak) (x : Nat) : CredWritesStay s (s.unwrap q k x) := by
  unfold State.unwrap
  split
  · split
    · split
      · exact .of_sst rfl
      · exact credsStay_damagedKey _ _ _
    · exact credsStay_damagedKey _ _ _
  · exact .refl s

theorem credsStay_loadRange (s : State) (r : Nat) (via : Option Rak) : CredWritesStay s (s.loadRange r via).1 := by
  have hresume : ∀ t : State, CredWritesStay t (t.resumeIfPaused r) := fun t =>
    (resumeIfPaused_only t r).credsStay fun _ => StoreUnit.noConfusion
  unfold State.loadRange
  split
  · exact .refl s
  · split
    · exact .refl s
    · exact (CredWritesStay.of_sst rfl).trans (hresume _)
    · exact .refl s
    · exact ((CredWritesStay.of_sst (t := s.setLoad r _) rfl).trans (CredWritesStay.foldl (fun t x => credsStay_unwrap t r _ x) _ _)).trans
        (hresume _)

theorem credsStay_unlockDevice (s : State) (r : Nat) : CredWritesStay s (s.unlockDevice r) := by
  unfold State.unlockDevice
  by_cases h : (s.loadRange r (s.openDevice r)).2 = true
  · rw [unlockRange_of_loads true true h]
    exact (credsStay_loadRange s r (s.openDevice r)).trans (.of_sst (by simp))
  · rw [unlockRange_of_not_loads true true h]
    exact credsStay_loadRange ..

/-! ### The entries of the other ranges (R33, R36) -/

section other
variable {r q : Nat} (hq : q ≠ r) (s : State)
include hq

theorem entry_loseKey_of_ne : (s.loseKey r).entry q = s.entry q := by
  unfold State.loseKey
  cases s.fields r with
  | none => exact rfl
  | some g =>
    have hset : (s.setEntry r (.enabled { g with keyLost := true })).entry q = s.entry q := by
      rw [entry_setEntry, if_neg fun h => hq h.1]
    exact (by simp [State.entry] : _ = (s.setEntry r (.enabled { g with keyLost := true })).entry q).trans hset

theorem entry_damagedKey_of_ne (k : Nat) : (s.damagedKey r k).entry q = s.entry q := by
  have hhit : ∀ t : State, (t.jobHit r k).entry q = t.entry q := fun t => by
    unfold State.jobHit
    split
    · split
      · simp [State.entry]
      · exact rfl
    · exact rfl
  rw [damagedKey_eq, entry_loseKey_of_ne hq]
  calc _ = ((s.abortAll .keyDamaged (fun x => x.mode == .clear && x.range == some r)).jobHit r k).entry q := by simp [State.entry]
    _ = s.entry q := (hhit _).trans (by simp [State.entry])

theorem entry_unwrap_of_ne (k : Rak) (x : Nat) : (s.unwrap r k x).entry q = s.entry q := by
  unfold State.unwrap
  split
  · split
    · split
      · exact rfl
      · exact entry_damagedKey_of_ne hq s _
    · exact entry_damagedKey_of_ne hq s _
  · exact rfl

theorem entry_loadRange_of_ne (via : Option Rak) : (s.loadRange r via).1.entry q = s.entry q := by
  have hresume : ∀ t : State, (t.resumeIfPaused r).entry q = t.entry q := fun t => by simp [State.entry]
  have hall : ∀ (k : Rak) (l : List Nat) (t : State), (l.foldl (fun t x => t.unwrap r k x) t).entry q = t.entry q := by
    intro k l
    induction l with
    | nil => exact fun _ => rfl
    | cons x l ih => exact fun t => (ih _).trans (entry_unwrap_of_ne hq t k x)
  unfold State.loadRange
  split
  · exact rfl
  · split
    · exact rfl
    · exact hresume _
    · exact rfl
    · exact (hresume _).trans (hall _ _ _)

theorem entry_unlockDevice_of_ne : (s.unlockDevice r).entry q = s.entry q := by
  have hload := entry_loadRange_of_ne hq s (s.openDevice r)
  unfold State.unlockDevice
  by_cases h : (s.loadRange r (s.openDevice r)).2 = true
  · obtain ⟨-, -, -, -, -, hother, -⟩ := setLocks_changes (s.loadRange r (s.openDevice r)).1 r true true false
    rw [unlockRange_of_loads true true h]
    exact (hother q hq).trans hload
  · rw [unlockRange_of_not_loads true true h]
    exact hload

end other

theorem unlockDevices_stay {q : Nat} (rs : List Nat) : ∀ s : State, q ∉ rs →
    (rs.foldl State.unlockDevice s).entry q = s.entry q ∧ LoadStays q s (rs.foldl State.unlockDevice s) := by
  induction rs with
  | nil => exact fun s _ => ⟨rfl, .refl s⟩
  | cons r rs ih =>
    intro s hq
    obtain ⟨hqr, hqrs⟩ : q ≠ r ∧ q ∉ rs := by simpa using hq
    obtain ⟨he, hl⟩ := ih (s.unlockDevice r) hqrs
    exact ⟨he.trans (entry_unlockDevice_of_ne hqr s), (loadStays_unlockRange (Ne.symm hqr) s true true (s.openDevice r)).trans hl⟩

theorem unlockDevices_framed (rs : List Nat) (s : State) : Framed unlockPieces s (rs.foldl State.unlockDevice s) ∧
    (rs.foldl State.unlockDevice s).lif = s.lif := by
  induction rs generalizing s with
  | nil => exact ⟨Framed.refl _ s, rfl⟩
  | cons r rs ih =>
    obtain ⟨hone, hlif⟩ := unlockRange_framed s true true (s.openDevice r) r
    obtain ⟨hrest, hlif'⟩ := ih (s.unlockDevice r)
    exact ⟨(hone.trans hrest).mono (by decide), hlif'.trans hlif⟩

/-! ### RESPONSE_CLEAR at GUARD or LOCK (R133) -/

theorem calmed_framed (s : State) : Framed [.response, .boot] s s.calmed :=
  ⟨rfl, fun q hq => by cases q <;> simp_all [Piece.same, State.calmed]⟩

theorem calmed_unlocked (s : State) : s.calmed.lockdown = false := rfl

/-- The list of the ranges that a clear opens. -/
def State.clearedRanges (s : State) : List Nat := s.rangesWhere (fun g => !g.powerLock)

theorem reopenAll_eq (s : State) : s.calmed.reopenAll = s.clearedRanges.foldl State.unlockDevice s.calmed := rfl

theorem mem_clearedRanges {s : State} (hs : Shaped s) (q : Nat) :
    q ∈ s.clearedRanges ↔ ∃ g, s.fields q = some g ∧ g.powerLock = false := by
  simp [State.clearedRanges, mem_rangesWhere s _ q hs]

/-- An enabled range keeps its power_lock out of the list. -/
theorem not_mem_clearedRanges {s : State} {r : Nat} (h : ∀ g, s.fields r = some g → g.powerLock = true) : r ∉ s.clearedRanges := by
  intro hm
  obtain ⟨-, hm⟩ := List.mem_filter.mp hm
  cases hf : s.fields r with
  | none => simp [hf] at hm
  | some g => simp [hf, h g hf] at hm

/-- The state of a part whose ranges the clear has opened, before the RESPONSE record is written. -/
def State.reopened (s : State) (f : Hdr) (p : ProofBlock) (i : Nat) : State :=
  ((s.begun .responseClear f).admitted p i).calmed.reopenAll

section clear
variable {s : State} {f : Hdr} {p : ProofBlock} {i : Nat}

theorem clearedRanges_admitted (s : State) (f : Hdr) (p : ProofBlock) (i : Nat) :
    ((s.begun .responseClear f).admitted p i).clearedRanges = s.clearedRanges := by
  simp [State.clearedRanges, State.rangesWhere, fields_admitted]

theorem reopened_eq (s : State) (f : Hdr) (p : ProofBlock) (i : Nat) :
    s.reopened f p i = s.clearedRanges.foldl State.unlockDevice ((s.begun .responseClear f).admitted p i).calmed := by
  rw [← clearedRanges_admitted s f p i]
  exact reopenAll_eq _

theorem calmed_only (s : State) : WritesOnly [] s s.calmed := writesOnly_of_eq rfl rfl rfl _

theorem reopened_framed (s : State) (f : Hdr) (p : ProofBlock) (i : Nat) :
    Framed ([.response, .boot] ++ unlockPieces) ((s.begun .responseClear f).admitted p i) (s.reopened f p i) ∧
      (s.reopened f p i).lif = ((s.begun .responseClear f).admitted p i).lif ∧
      (s.reopened f p i).cru = ((s.begun .responseClear f).admitted p i).cru ∧
      (s.reopened f p i).rsu = { s.rsu with level := .calm, firstCause := none, timer := none } ∧
      (s.reopened f p i).btc = { s.btc with state := if s.btc.state = .quarantine then .sealed else s.btc.state } ∧
      (s.reopened f p i).rtb.resealOnWake = s.rtb.resealOnWake := by
  obtain ⟨hframe, hlif⟩ := unlockDevices_framed s.clearedRanges ((s.begun .responseClear f).admitted p i).calmed
  obtain ⟨-, hcru, hbtc⟩ := hframe.parts (by decide)
  have hrsu := hframe.2 .response (by decide)
  have hreseal : ∀ (l : List Nat) (t : State), (l.foldl State.unlockDevice t).rtb.resealOnWake = t.rtb.resealOnWake := by
    intro l
    induction l with
    | nil => exact fun _ => rfl
    | cons r l ih => exact fun t => (ih _).trans (by simp [State.unlockDevice])
  rw [← reopened_eq] at hframe hlif hcru hbtc hrsu
  refine ⟨(calmed_framed _).trans hframe, hlif, hcru, Eq.trans hrsu ?_, hbtc.trans ?_, ?_⟩
  · simp [State.calmed]
  · simp [State.calmed]
  · rw [reopened_eq, hreseal]
    simp [State.calmed]

theorem reopened_untouched {r : Nat} (h : ∀ g, s.fields r = some g → g.powerLock = true) :
    (s.reopened f p i).entry r = s.entry r ∧ LoadStays r s (s.reopened f p i) := by
  obtain ⟨he, hl⟩ := unlockDevices_stay s.clearedRanges ((s.begun .responseClear f).admitted p i).calmed (not_mem_clearedRanges h)
  rw [reopened_eq]
  exact ⟨he.trans (entry_admitted s .responseClear f p i r), (LoadStays.of_eq (by simp [State.calmed]) (by simp [State.calmed])).trans hl⟩

theorem reopened_only (hs : Shaped s) : WritesOnly ((.rekeyProgress :: (List.range 24).map StoreUnit.key) ++
    s.clearedRanges.map StoreUnit.range) ((s.begun .responseClear f).admitted p i) (s.reopened f p i) := by
  have hshaped : Shaped ((s.begun .responseClear f).admitted p i).calmed := (admitted_keeps s .responseClear f p i).shaped hs
  rw [reopened_eq]
  exact (calmed_only _).trans (us := []) (unlockDevices_only s.clearedRanges _ hshaped)

theorem reopened_credsStay : CredWritesStay ((s.begun .responseClear f).admitted p i) (s.reopened f p i) := by
  rw [reopened_eq]
  exact (CredWritesStay.of_sst rfl).trans (CredWritesStay.foldl credsStay_unlockDevice _ _)

/-- Where no key is damaged, the ranges that open are those whose device envelope or cache gives the RAK. -/
theorem reopened_opens (hs : Shaped s) (hi : ∀ r g k, s.fields r = some g → g.powerLock = false → s.load r = .notLoaded →
      s.openEnvelope r .device (some .device) = some k → s.intactUnder r k) :
    ∃ won : List Nat,
      (∀ r, r ∈ won ↔ ∃ g, s.fields r = some g ∧ g.powerLock = false ∧
        (s.load r ≠ .notLoaded ∨ s.openEnvelope r .device (some .device) ≠ none)) ∧
      Opened (fun r => s.openEnvelope r .device (some .device)) (fun g => { g with readLocked := false, writeLocked := false })
        ((s.begun .responseClear f).admitted p i).calmed won (s.reopened f p i) := by
  have hshaped : Shaped ((s.begun .responseClear f).admitted p i).calmed := (admitted_keeps s .responseClear f p i).shaped hs
  have hload : ∀ q, ((s.begun .responseClear f).admitted p i).calmed.load q = s.load q := fun q => load_admitted ..
  have hfields : ∀ q, ((s.begun .responseClear f).admitted p i).calmed.fields q = s.fields q := fun q => fields_admitted ..
  obtain ⟨won, hopen, hwon⟩ := reopenAll_opened (s := ((s.begun .responseClear f).admitted p i).calmed)
    (via := fun r => s.openEnvelope r .device (some .device)) (fun q => (openEnvelope_admitted ..).symm) rfl rfl s.clearedRanges []
    _ (Opened.start hshaped) (rangesWhere_nodup ..) (fun _ _ => List.not_mem_nil)
    (fun r hr => by
      obtain ⟨g, hg, -⟩ := (mem_clearedRanges hs r).mp hr
      exact ⟨g, (hfields r).trans hg⟩)
    (fun r hr k hn hv => by
      obtain ⟨g, hg, hlock⟩ := (mem_clearedRanges hs r).mp hr
      exact (intactUnder_admitted ..).mpr (hi r g k hg hlock ((hload r).symm.trans hn) hv))
  rw [List.append_nil] at hopen
  refine ⟨won, fun r => ?_, by rwa [reopened_eq]⟩
  rw [hwon, mem_clearedRanges hs, hload]
  exact ⟨fun ⟨⟨g, hg, hl⟩, ho⟩ => ⟨g, hg, hl, ho⟩, fun ⟨g, hg, hl, ho⟩ => ⟨⟨g, hg, hl⟩, ho⟩⟩

end clear

/-! ### The request by the level (R133) -/

theorem mem_clearUnits (c : StoreUnit) (keys ranges : List StoreUnit) (u : StoreUnit)
    (h : u ∈ [c] ++ ((.rekeyProgress :: keys) ++ ranges) ++ [.response]) : u ∈ [c, .response, .rekeyProgress] ++ keys ++ ranges := by
  simp only [List.cons_append, List.nil_append, List.mem_append, List.mem_cons, List.not_mem_nil, or_false] at h ⊢
  tauto

/-- A write holds the record of its unit as it stands then, for its requester. -/
theorem write_holds_own (s : State) (u : StoreUnit) {w : Waiter} {ws : List Waiter} (h : w ∈ ws) :
    (s.write u ws).holds u ((s.write u ws).recordOf u) w := by
  rw [write_recordOf]
  exact place_holds _ _ _ _ _ h

/-- R133: the delay timer is removed. -/
def State.untimed (s : State) : State := { s with rsu := { s.rsu with timer := none } }

theorem responseClear_timed {s : State} {x : Timer} {rto : ReplyTo} (h : s.rsu.level = .calm) (ht : s.rsu.timer = some x) :
    s.responseClear rto = s.untimed.write .response [.reply rto (.level .calm)] := by
  unfold State.responseClear
  rw [h, ht]
  exact rfl

theorem responseClear_reopens {s : State} {rto : ReplyTo} (h : s.rsu.level = .guard ∨ s.rsu.level = .lock) :
    s.responseClear rto = (s.calmed.reopenAll.write .response [.reply rto (.level .calm)]).settleDrain := by
  unfold State.responseClear
  obtain h | h := h <;> rw [h]

end Sys2Proof.Machine

namespace Sys2Proof
open Machine

/-- Settles O49: the refusal in ERASE and PURGE, the answer at CALM, the timer that the request stops there, and from GUARD
and LOCK the ranges that open. -/
theorem responseClearCalms : Obligations.ResponseClearCalms := by
  intro f i p s c calm via hp hv
  have hrsu : ((s.begun .responseClear f).admitted p i).rsu = s.rsu := by simp
  have hgo : Goes c s _ := exec_admitted rfl rfl hp hv (fun rto u _ _ => u.responseClear rto) (fun _ => rfl)
  refine ⟨fun h => ?_, fun h ht => ?_, fun h ht => ?_, fun h => ?_⟩
  · refine refused_admitted rfl rfl hp hv (fun rto u _ _ => u.responseClear rto) (fun _ => rfl) ?_
    unfold State.responseClear
    obtain h | h := h <;> rw [hrsu, h]
  · refine answers_admitted rfl rfl hp hv (fun rto u _ _ => u.responseClear rto) (fun _ => rfl) ?_
    unfold State.responseClear
    rw [hrsu, h, ht]
  · obtain ⟨x, hx⟩ := Option.ne_none_iff_exists'.mp ht
    rw [responseClear_timed (hrsu ▸ h) (hrsu ▸ hx)] at hgo
    obtain ⟨hframe, hproved, honly, htags, -⟩ := writtenReply (s := s) (m := .responseClear) (f := f) (p := p) (i := i)
      (v := ((s.begun .responseClear f).admitted p i).untimed)
      (ps := [.response]) (us := []) .response (.level .calm) rfl (by decide)
      ⟨rfl, fun q hq => by cases q <;> simp_all [Piece.same, State.untimed]⟩
      rfl rfl (by simp [State.untimed]) (writesOnly_of_eq rfl rfl rfl _) (by simp)
    exact ⟨_, hgo, hframe, hproved, honly, htags, by simp [State.untimed], write_holds_own _ .response (List.mem_singleton_self _)⟩
  · rw [responseClear_reopens (hrsu ▸ h)] at hgo
    obtain ⟨hrframe, hlif, hcru, hrrsu, hrbtc, hreseal⟩ := reopened_framed s f p i
    have hprov : (s.reopened f p i).btc.provisioning = s.btc.provisioning := by rw [hrbtc]
    obtain ⟨us, hus, hnone⟩ := reopened_credsStay (s := s) (f := f) (p := p) (i := i)
    obtain ⟨hframe, hproved, -, htags, -, hrtb, hkst⟩ := writtenReply .response (.level .calm) rfl (by decide) hrframe hlif hcru hprov hus
      (by simp [hnone])
    have hpass := admitted_writes s .responseClear f p i
    have hwrite : WritesOnly [.response] (s.reopened f p i) ((s.reopened f p i).write .response [calm]) := write_only _ _ _
    have halike : TableAlike (s.reopened f p i) ((s.reopened f p i).write .response [calm]) := fun q => by simp [State.fields, State.entry]
    have hentry : ∀ r, ((s.reopened f p i).write .response [calm]).entry r = (s.reopened f p i).entry r := fun r => by simp [State.entry]
    refine ⟨(s.reopened f p i).write .response [calm], hgo, hframe.mono (by decide), hproved, htags, by simp [hrrsu], by simp [hrbtc],
      by simp [hreseal], fun hs => ?_, fun r hr => ?_, fun hs hi => ?_, write_holds_own _ .response (List.mem_singleton_self _)⟩
    · exact ((hpass.trans (reopened_only hs)).trans hwrite).mono (mem_clearUnits _ _ _)
    · obtain ⟨he, hl⟩ := reopened_untouched (f := f) (p := p) (i := i) hr
      refine ⟨(hentry r).trans he, fun hn hh => ?_⟩
      rw [← (hl hn hh).1]
      simp [State.load]
    · obtain ⟨won, hwon, hopen⟩ := reopened_opens (f := f) (p := p) (i := i) hs hi
      have hshut : ∀ q, ((s.begun .responseClear f).admitted p i).calmed.fields q = s.fields q := fun q => fields_admitted ..
      refine ⟨won, hwon, fun r => ?_, fun r hr => ?_, ?_, ?_, ?_, ?_⟩
      · exact (by simp only [State.fields, hentry] : _ = (s.reopened f p i).fields r).trans (by rw [hopen.fld, hshut])
      · exact (hentry r).trans ((hopen.ent r hr).trans (entry_admitted ..))
      · exact (hopen.loads.keys.later (by simp)).earlier (by simp [State.calmed]) (by simp [State.calmed])
      · exact (hopen.loads.sweep.later halike (by simp) (by simp) (hwrite.same _ (by simp))).earlier (by simp [State.calmed])
          (by simp [State.calmed]) (by simp [State.calmed]) ((hpass.trans (calmed_only _)).same _ (by simp))
      · refine (((hpass.trans (calmed_only _)).trans hopen.loads.writes).trans hwrite).mono (by simp)
      · exact (by simp : _ = (s.reopened f p i).sent).trans (hopen.loads.sent.trans (by simp [State.calmed]))

end Sys2Proof


/-! Evidence that escalates to LOCK (O50, O51, O52). The statements claim for every state of the right sizes that passing LOCK
leaves the copy of slot 23, the START key's, alone. They do not ask that the slot is LIVE, and of a RETIRING one the copy is
dropped with its last user (R30): with the sweep hold on it the release of the hold, which passing LOCK brings, does that. -/

namespace Sys2Proof.Machine

/-- The part after reset but for slot 23, which is RETIRING, the sweep hold its one user; slot 0 has a secret, challenge 0 is
given, the link is started and source 5 is enabled. -/
def startRetiring (timer : Option Timer) : State :=
  { State.reset with
    lif := { State.reset.lif with started := true }
    cru := { State.reset.cru with
      slots := State.reset.cru.slots.set 0
        { record := { CredRecord.blank with state := .enabled, verifier := some { secret := 0 } }, backoff := none }
      challenges := [some { nonce := { issue := 4 }, remaining := 9 }, none, none, none] }
    kst := { State.reset.kst with
      slots := State.reset.kst.slots.set 23
        { state := .retiring, owner := none, material := some .start, users := 1, copy := some startKey, erasing := false }
      hold := some { range := 0, oldKey := 23, newKey := 1 } }
    rsu := { State.reset.rsu with
      settings := State.reset.rsu.settings.set 5 { Setting.blank with enabled := true }, timer := timer } }

theorem startRetiring_shaped (timer : Option Timer) : Shaped (startRetiring timer) := by
  refine ⟨?_, ?_, ?_, ?_, ?_, ?_, ?_, ?_, ?_, ?_, ?_⟩ <;> exact rfl

theorem startRetiring_copy (timer : Option Timer) : ((startRetiring timer).slot 23).copy = some startKey := rfl

/-- A state in which slot 23 has lost its copy is not what the escalation of `startRetiring` to LOCK is said to reach. -/
theorem not_escalates_of_copy {more : List Piece} {tags : List Nat} {timer : Option Timer} {t : State} {c : Nat}
    (h : (t.slot 23).copy = none) : ¬ Escalates more tags (startRetiring timer) t .lock c := by
  rintro ⟨-, -, -, -, hlock, -⟩
  obtain ⟨-, -, -, -, -, -, hcopy, -⟩ := hlock ⟨(by decide : (0 : Nat) < 2), by decide⟩
  rw [h, startRetiring_copy] at hcopy
  cases hcopy

/-- What stands in slot 23 after a command stands there before the store is served. -/
theorem slot_of_goes {c : Instr} {s t u : State} (h : Goes c s t) (hu : exec c s = .next u) (k : Nat) : t.slot k = u.slot k := by
  have heq : t.serve = u := Host.Outcome.next.inj (h.symm.trans hu)
  rw [← heq]
  simp [State.slot]

/-- An order of LOCK under credential slot 0, and its proof. -/
def lockOrderHdr : Hdr := { tag := 1, form := .short, length := 8, lengthFits := true, bytes := [] }

def lockOrderProof : ProofBlock :=
  { slot := 0, challenge := 0, proof := .digest 0 { issue := 4 } (digestText .remoteOrder (lockOrderHdr.covered [2])) }

end Sys2Proof.Machine

namespace Sys2Proof
open Machine

/-- Refutes O50: an order of LOCK in `startRetiring`, taken at once, drops the copy of slot 23. -/
theorem not_remoteOrderIsAnArrival : ¬ Obligations.RemoteOrderIsAnArrival := by
  intro h
  have hpass : (Instr.remoteOrder lockOrderHdr 2 lockOrderProof).passes (startRetiring none) :=
    ⟨rfl, rfl, by decide, fun _ _ => by decide, .inl rfl, by decide⟩
  have hproves : (Instr.remoteOrder lockOrderHdr 2 lockOrderProof).proves (startRetiring none) 0 :=
    ⟨⟨rfl, by decide, rfl, rfl, _, _, rfl, rfl, rfl⟩, by decide⟩
  obtain ⟨-, -, hgo⟩ := h lockOrderHdr 2 0 lockOrderProof (startRetiring none) hpass hproves
  obtain ⟨t, hgoes, -, -, -, -, hlock, -⟩ := hgo .lock (by decide) (by decide) ⟨rfl, .inl rfl⟩ (by decide)
  obtain ⟨hescalates, -⟩ := hlock (by decide) (.inl rfl) (startRetiring_shaped none)
  exact not_escalates_of_copy ((congrArg KeySlot.copy (slot_of_goes hgoes rfl 23)).trans (by decide +kernel)) hescalates

/-- Refutes O51: source 3, enabled at LOCK without a delay, drops in `startRetiring` the copy of slot 23. -/
theorem not_arrivalsAreWeighed : ¬ Obligations.ArrivalsAreWeighed := by
  intro h
  obtain ⟨-, -, -, -, -, -, hraise⟩ := h (startRetiring none)
  obtain ⟨-, -, hlock, -⟩ := (hraise 3).2 rfl rfl
  obtain ⟨hescalates, -⟩ := hlock (by decide) (.inl rfl)
  exact not_escalates_of_copy (by decide +kernel) (hescalates (startRetiring_shaped none))

/-- The delay timer at LOCK, from source 1. -/
def lockPending : Timer := { pending := { level := .lock, source := 1, delay := 1 }, remaining := 0 }

/-- Refutes O52: the expiry of a delay timer at LOCK drops in `startRetiring` the copy of slot 23. -/
theorem not_delayTimerEscalates : ¬ Obligations.DelayTimerEscalates := by
  intro h
  obtain ⟨-, -, -, hexpiry⟩ := h (startRetiring (some lockPending))
  obtain ⟨t, hgoes, -, -, -, -, -, -, hescalates⟩ := hexpiry lockPending rfl (by decide) (startRetiring_shaped _)
  exact not_escalates_of_copy ((congrArg KeySlot.copy (slot_of_goes hgoes rfl 23)).trans (by decide +kernel)) hescalates

end Sys2Proof


/-! The requests that create and end the normal chain (O53). -/

namespace Sys2Proof.Machine

/-! ### A chain that is created (R137) -/

/-- The chain as it is created, before its record is written. -/
def State.withChain (s : State) (o : Origin) (steps : List WipeStep) : State :=
  { s with wpe := { s.wpe with normal := some (.make o steps s.wpe.nextNo), nextNo := s.wpe.nextNo + 1 } }

theorem createChain_normal (s : State) (o : Origin) (steps : List WipeStep) (ws : List Waiter) :
    s.createChain .normal o steps ws = (s.withChain o steps).write .wipe (.chainDurable .normal s.wpe.nextNo :: ws) := rfl

theorem withChain_framed (s : State) (o : Origin) (steps : List WipeStep) : Framed [.wipe] s (s.withChain o steps) :=
  ⟨rfl, fun q hq => by cases q <;> simp_all [Piece.same, State.withChain]⟩

/-- A record's write, after a change v of the Wipe Engine alone. -/
theorem wipeWritten {s v : State} (ws : List Waiter) (hv : Framed [.wipe] s v) (hs : v.sst = s.sst) (hl : v.lif = s.lif) :
    let t := v.write .wipe ws
    Framed [.wipe, .writes] s t ∧ WritesOnly [.wipe] s t ∧ t.lif = s.lif ∧ t.wpe = v.wpe ∧
      ∀ w ∈ ws, t.holds .wipe (t.recordOf .wipe) w :=
  ⟨hv.trans (write_framed ..), WritesOnly.trans (us := []) (writesOnly_of_eq (by rw [hs]) (by rw [hs]) (by rw [hs]) _) (write_only _ _ _),
    by simp [hl], by simp, fun _ hw => write_holds_own _ _ hw⟩

/-! ### WIPE_START, REPROVISION and WIPE_ABORT (R147 to R149) -/

section requests
variable {s : State} {rto : ReplyTo}

theorem wipeStart_none : s.wipeStart none rto = s.refuse rto .badField := rfl

theorem wipeStart_busy {b : Bool} (h : s.wpe.normal ≠ none) : s.wipeStart (some b) rto = s.refuse rto .busy :=
  if_pos (Option.isSome_iff_ne_none.mpr h)

theorem wipeStart_makes {b : Bool} (h : s.wpe.normal = none) : s.wipeStart (some b) rto =
    s.createChain .normal .sanitize (if b then [.cutKeys, .fill none 0] else [.cutKeys]) [.reply rto (.status .accepted [])] :=
  if_neg (by simp [h])

theorem reprovision_blank (h : s.btc.state = .blank) : s.reprovision rto = s.refuse rto .wrongState := by
  simp only [State.reprovision, h]

theorem reprovision_erased (h : s.btc.state = .erased) : s.reprovision rto =
    if s.wpe.normal.isSome ∨ s.wpe.injected.isSome then s.refuse rto .busy
    else s.createChain .normal .reprovision [.cutCredentials, .resetTable] [.reply rto (.status .accepted [])] := by
  simp only [State.reprovision, h]

theorem reprovision_whole (hb : s.btc.state ≠ .blank) (he : s.btc.state ≠ .erased) : s.reprovision rto =
    if s.wpe.normal.isSome then s.refuse rto .busy
    else s.createChain .normal .reprovision [.cutKeys, .cutCredentials, .resetTable] [.reply rto (.status .accepted [])] := by
  cases h : s.btc.state with
  | blank => exact absurd h hb
  | erased => exact absurd h he
  | sealed => simp only [State.reprovision, h]
  | opened => simp only [State.reprovision, h]
  | quarantine => simp only [State.reprovision, h]

theorem wipeAbort_none (h : s.wpe.normal = none) : s.wipeAbort rto = s.refuse rto .wrongState := by
  simp only [State.wipeAbort, h]

/-- The part with another normal chain. -/
def State.withNormal (s : State) (c : Chain) : State := { s with wpe := { s.wpe with normal := some c } }

/-- The requesters of the write that a WIPE_ABORT places. -/
def Chain.abortWaiters (c : Chain) (rto : ReplyTo) : List Waiter :=
  .reply rto (.status .ok []) :: if c.ending.isNone && c.abort.ending.isSome then [.chainEnd .normal c.no] else []

theorem wipeAbort_some {c : Chain} (h : s.wpe.normal = some c) :
    s.wipeAbort rto = (s.withNormal c.abort).write .wipe (c.abortWaiters rto) := by
  simp only [State.wipeAbort, h]
  exact rfl

theorem withNormal_framed (s : State) (c : Chain) : Framed [.wipe] s (s.withNormal c) :=
  ⟨rfl, fun q hq => by cases q <;> simp_all [Piece.same, State.withNormal]⟩

end requests

/-- R148: a chain that closes, or whose end is being recorded, stays. -/
theorem Chain.abort_stays {c : Chain} (h : c.closing = true ∨ c.ending ≠ none) : c.abort = c := by
  refine if_pos ?_
  rw [Bool.or_eq_true, Option.isSome_iff_ne_none]
  exact h

theorem Chain.abort_closes {c : Chain} {a : WipeStep} {l : List WipeStep} (hc : c.closing = false) (he : c.ending = none)
    (hs : c.steps = a :: l) (hb : c.begun = true) (ha : ∀ n q, a ≠ .fill n q) : c.abort = { c with steps := [a], closing := true } := by
  have hfill : a.isFill = false := by
    cases a with
    | fill n q => exact absurd rfl (ha n q)
    | cutKeys => rfl
    | cutCredentials => rfl
    | resetTable => rfl
  simp [Chain.abort, hc, he, hs, hb, hfill]

theorem Chain.abort_removes {c : Chain} (hc : c.closing = false) (he : c.ending = none)
    (h : c.begun = false ∨ ∃ n q, c.steps.head? = some (.fill n q)) :
    c.abort = { c with steps := [], begun := false, left := 0, above := [], ending := some .aborted } := by
  refine (if_neg (by simp [hc, he])).trans (if_neg ?_)
  obtain h | ⟨n, q, h⟩ := h
  · simp [h]
  · obtain ⟨l, hl⟩ : ∃ l, c.steps = .fill n q :: l := by
      cases hs : c.steps with
      | nil => simp [hs] at h
      | cons x l => exact ⟨l, by simp_all⟩
    simp [hl, WipeStep.isFill]

/-! ### What the requests leave, from the state before the proof -/

/-- R137: a request that its proof admits has created the normal chain, its ACCEPTED waiting for the WIPE record. -/
def ChainMade (c : Instr) (s : State) (f : Hdr) (units : List StoreUnit) (proved : State → Prop) (o : Origin)
    (steps : List WipeStep) : Prop :=
  ∃ t, Goes c s t ∧ Framed [.bursts, .tags, .challenges, .credSlots, .writes, .wipe] s t ∧
    WritesOnly (.wipe :: units) s t ∧ t.lif.tagsInUse = s.lif.tagsInUse ++ [f.tag] ∧ proved t ∧
    t.wpe = { s.wpe with normal := some (.make o steps s.wpe.nextNo), nextNo := s.wpe.nextNo + 1 } ∧
    t.holds .wipe (t.recordOf .wipe) (s.reply f.tag (.status .accepted [])) ∧
    t.holds .wipe (t.recordOf .wipe) (.chainDurable .normal s.wpe.nextNo)

/-- The Wipe Engine before the request is the one before its proof. -/
theorem chainMade_of {c : Instr} {s v : State} {f : Hdr} {o : Origin} {steps : List WipeStep} {units : List StoreUnit}
    {proved : State → Prop} {ps : List Piece}
    (hgo : Goes c s (v.createChain .normal o steps [s.reply f.tag (.status .accepted [])])) (hwpe : v.wpe = s.wpe)
    (hv : Framed ps s v) (hps : ∀ q ∈ ps, q ∈ [Piece.bursts, .tags, .challenges, .credSlots, .writes]) (hw : WritesOnly units s v)
    (htags : v.lif.tagsInUse = s.lif.tagsInUse ++ [f.tag])
    (hproved : ∀ t : State, t.cru = v.cru → t.btc = v.btc → WritesOnly [.wipe] v t → proved t) : ChainMade c s f units proved o steps := by
  rw [createChain_normal] at hgo
  obtain ⟨hframe, honly, hlif, hwpe', hholds⟩ := wipeWritten (s := v) (v := v.withChain o steps)
    (.chainDurable .normal v.wpe.nextNo :: [s.reply f.tag (.status .accepted [])]) (withChain_framed v o steps) rfl rfl
  refine ⟨_, hgo, (hv.trans hframe).mono fun q hq => ?_, (hw.trans honly).mono fun u hu => ?_, hlif ▸ htags, hproved _ (by simp [State.withChain]) (by simp [State.withChain]) honly, ?_, ?_, ?_⟩
  · have hps' := hps q
    simp only [List.mem_append, List.mem_cons, List.not_mem_nil, or_false] at hq hps' ⊢
    tauto
  · simpa [or_comm] using hu
  · rw [hwpe', State.withChain, hwpe]
  · exact hholds _ (by simp)
  · rw [← hwpe]
    exact hholds _ (by simp)

theorem chainMade_proven {c : Instr} {s : State} {m : Message} {f : Hdr} {p : ProofBlock} {i : Nat} {o : Origin} {steps : List WipeStep}
    (hc : m.channel = .control) (hl : m ≠ .linkStart)
    (hgo : Goes c s (((s.begun m f).admitted p i).createChain .normal o steps [s.reply f.tag (.status .accepted [])])) :
    ChainMade c s f [.cred i] (fun t => Proved s t i p) o steps :=
  chainMade_of hgo (by simp) (admitted_framed s m f p i) (by decide) (admitted_writes s m f p i) (by rw [lif_admitted s f p i hc hl])
    fun _ hcru hbtc hw => (admitted_proved s m f p i).through (by rw [hcru]) (by rw [hcru]) (by rw [hbtc]) hw (by simp)

theorem chainMade_labelled {c : Instr} {s : State} {m : Message} {f : Hdr} {p : ProofBlock} {o : Origin} {steps : List WipeStep}
    (hc : m.channel = .control) (hl : m ≠ .linkStart)
    (hgo : Goes c s (((s.begun m f).consume p).createChain .normal o steps [s.reply f.tag (.status .accepted [])])) :
    ChainMade c s f [] (fun t => t.cru.challenges = s.cru.challenges.set p.challenge none ∧ t.cru.slots = s.cru.slots) o steps := by
  have hb : s.begun m f = { s with lif := { s.lif with
      burstTaken := s.lif.burstTaken + 1, tagsInUse := s.lif.tagsInUse ++ [f.tag] } } := begun_control hc hl
  refine chainMade_of hgo ?_ ((begun_framed s m f).trans (consume_framed _ p)) (by decide) ?_ ?_ fun t hcru _ _ => ?_
  · simp [State.consume]
  · exact writesOnly_of_eq (by simp [State.consume]) (by simp [State.consume]) (by simp [State.consume]) _
  · rw [hb]
    exact rfl
  · rw [hcru, hb]
    exact ⟨rfl, rfl⟩

end Sys2Proof.Machine

namespace Sys2Proof
open Machine

/-- Settles O53: the refusals of the three requests, the chain that WIPE_START or REPROVISION creates, and what WIPE_ABORT
makes of the normal chain. -/
theorem wipeRequestsMakeAndEndTheChain : Obligations.WipeRequestsMakeAndEndTheChain := by
  intro f p s made byProof byLabel
  refine ⟨fun i fill hp hv => ?_, fun hp hl => ?_, fun i hp hv => ?_⟩
  · have hwpe : ((s.begun .wipeStart f).admitted p i).wpe = s.wpe := by simp
    have refused : ∀ {st : Status}, ((s.begun .wipeStart f).admitted p i).wipeStart fill (s.replyTo .control f.tag) =
        ((s.begun .wipeStart f).admitted p i).refuse (s.replyTo .control f.tag) st →
        RefusedAfterProof (.wipeStart f fill p) s i p f.tag st [] :=
      refused_admitted rfl rfl hp hv (fun rto u _ _ => u.wipeStart fill rto) (fun _ => rfl)
    have hgo : Goes (.wipeStart f fill p) s _ := exec_admitted rfl rfl hp hv (fun rto u _ _ => u.wipeStart fill rto) (fun _ => rfl)
    refine ⟨fun h => refused (by rw [h]; exact wipeStart_none), fun h hn => ?_, fun hn h => ?_, fun hn h => ?_⟩
    · obtain ⟨b, rfl⟩ := Option.ne_none_iff_exists'.mp h
      exact refused (wipeStart_busy (by rwa [hwpe]))
    · rw [h, wipeStart_makes (by rwa [hwpe])] at hgo
      exact chainMade_proven (m := .wipeStart) rfl (by decide) (h ▸ hgo)
    · rw [h, wipeStart_makes (by rwa [hwpe])] at hgo
      exact chainMade_proven (m := .wipeStart) rfl (by decide) (h ▸ hgo)
  · obtain ⟨-, -, -, htag, -, -⟩ := Passes.of_request rfl hp
    have hwpe : ((s.begun .reprovision f).consume p).wpe = s.wpe := by simp [State.consume]
    have hbtc : ((s.begun .reprovision f).consume p).btc = s.btc := by simp [State.consume]
    have hgo : Goes (.reprovision f p) s (((s.begun .reprovision f).consume p).reprovision (s.replyTo .control f.tag)) := by
      have htake := goes_request (act := fun t rto => t.labelled .reprovision (f.covered []) p rto (fun u => u.reprovision rto)) rfl hp
        fun _ => rfl
      rwa [labelled_labels (labels_begun hl f)] at htake
    have refused : ∀ {st : Status}, ((s.begun .reprovision f).consume p).reprovision (s.replyTo .control f.tag) =
        ((s.begun .reprovision f).consume p).refuse (s.replyTo .control f.tag) st → RefusedAfterLabel (.reprovision f p) s p f.tag st :=
      fun h => refused_label (m := .reprovision) rfl (by decide) (htag rfl (by decide)) (hgo.trans (congrArg done h))
    refine ⟨fun h => refused (reprovision_blank (by rwa [hbtc])), fun hb h => ?_, fun hb he hn => ?_, fun he hn hi => ?_⟩
    · by_cases he : s.btc.state = .erased
      · refine refused ((reprovision_erased (by rwa [hbtc])).trans (if_pos ?_))
        simp only [hwpe, Option.isSome_iff_ne_none]
        exact h.imp_right And.right
      · refine refused ((reprovision_whole (by rwa [hbtc]) (by rwa [hbtc])).trans (if_pos ?_))
        rw [hwpe, Option.isSome_iff_ne_none]
        exact h.resolve_right fun h => he h.1
    · have hmade := (reprovision_whole (s := (s.begun .reprovision f).consume p) (rto := s.replyTo .control f.tag) (by rwa [hbtc])
        (by rwa [hbtc])).trans (if_neg (by simp [hn]))
      exact chainMade_labelled (m := .reprovision) rfl (by decide) (hmade ▸ hgo)
    · have hmade := (reprovision_erased (s := (s.begun .reprovision f).consume p) (rto := s.replyTo .control f.tag)
        (by rwa [hbtc])).trans (if_neg (by simp [hn, hi]))
      exact chainMade_labelled (m := .reprovision) rfl (by decide) (hmade ▸ hgo)
  · have hwpe : ((s.begun .wipeAbort f).admitted p i).wpe = s.wpe := by simp
    refine ⟨fun h => refused_admitted rfl rfl hp hv (fun rto u _ _ => u.wipeAbort rto) (fun _ => rfl)
      (wipeAbort_none (by rwa [hwpe])), fun x hx => ?_⟩
    have hgo : Goes (.wipeAbort f p) s _ := exec_admitted rfl rfl hp hv (fun rto u _ _ => u.wipeAbort rto) (fun _ => rfl)
    rw [wipeAbort_some (by rwa [hwpe])] at hgo
    obtain ⟨hframe, honly, hlif, hwpe', hholds⟩ := wipeWritten (x.abortWaiters (s.replyTo .control f.tag))
      (withNormal_framed ((s.begun .wipeAbort f).admitted p i) x.abort) rfl rfl
    refine ⟨_, x.abort, hgo, ((admitted_framed s .wipeAbort f p i).trans hframe).mono (by decide),
      (admitted_proved s .wipeAbort f p i).through (by simp [State.withNormal]) (by simp [State.withNormal]) (by simp [State.withNormal]) honly (by simp),
      (admitted_writes s .wipeAbort f p i).trans honly, ?_, ?_, hholds _ (by simp [Chain.abortWaiters, State.reply]), Chain.abort_stays,
      fun a l hc he hs hb ha => Chain.abort_closes hc he hs hb ha, fun hc he h => ⟨Chain.abort_removes hc he h, hholds _ ?_⟩⟩
    · rw [hlif, lif_admitted s f p i rfl (by decide)]
    · rw [hwpe', State.withNormal, hwpe]
    · simp [Chain.abortWaiters, he, Chain.abort_removes hc he h]

end Sys2Proof


/-! The completions of a chain's writes (O55). -/

namespace Sys2Proof.Machine

/-! ### A chain in its place (R137) -/

/-- Of a change of the chain of kind k: the chain is there, and the other one stays. -/
def ChainSet (k : ChainKind) (c : Option Chain) (s t : State) : Prop := t.chain k = c ∧ ∀ x, x ≠ k → t.chain x = s.chain x

theorem setChain_sets (s : State) (k : ChainKind) (c : Option Chain) : ChainSet k c s (s.setChain k c) :=
  ⟨chain_setChain s k c, fun _ hx => chain_setChain_other s hx c⟩

theorem ChainSet.of_wpe {k : ChainKind} {c : Option Chain} {s t u : State} (h : ChainSet k c s t) (hu : u.wpe = t.wpe) :
    ChainSet k c s u := by
  have hchain : ∀ x, u.chain x = t.chain x := fun x => by cases x <;> simp only [State.chain, hu]
  exact ⟨(hchain k).trans h.1, fun x hx => (hchain x).trans (h.2 x hx)⟩

theorem setChain_sst (s : State) (k : ChainKind) (c : Option Chain) : (s.setChain k c).sst = s.sst ∧ (s.setChain k c).lif = s.lif := by
  cases k <;> exact ⟨rfl, rfl⟩

/-- The WIPE record is written with another chain of kind k. -/
theorem chainWritten (s : State) (k : ChainKind) (c : Option Chain) (ws : List Waiter) :
    let t := (s.setChain k c).write .wipe ws
    Framed [.wipe, .writes] s t ∧ WritesOnly [.wipe] s t ∧ ChainSet k c s t ∧ ∀ w ∈ ws, t.holds .wipe (t.recordOf .wipe) w := by
  obtain ⟨hsst, hlif⟩ := setChain_sst s k c
  obtain ⟨hframe, honly, -, hwpe, hholds⟩ := wipeWritten ws (setChain_framed s k c) hsst hlif
  exact ⟨hframe, honly, (setChain_sets s k c).of_wpe hwpe, hholds⟩

/-! ### A step completes (R140, R146) -/

/-- The completed step has left the front of its chain, and the record is written. -/
def StepEnded (k : ChainKind) (c : Chain) (t : State) : Prop :=
  ∃ d, t.chain k = some d ∧ d.steps = c.steps.tail ∧ d.begun = false ∧ d.durable = false ∧ d.closing = c.closing ∧
    d.failedChunks = c.failedChunks ∧ d.no = c.no ∧ d.origin = c.origin ∧
    (c.steps.tail = [] → d.ending = some (if c.closing then .aborted else .done) ∧
      t.holds .wipe (t.recordOf .wipe) (.chainEnd k c.no)) ∧
    (c.steps.tail ≠ [] → d.ending = c.ending ∧ t.holds .wipe (t.recordOf .wipe) (.chainDurable k c.no))

theorem stepCompleted_ended (s : State) (k : ChainKind) (c : Chain) :
    let t := s.stepCompleted k c
    Framed [.wipe, .writes] s t ∧ WritesOnly [.wipe] s t ∧ StepEnded k c t ∧ ∀ x, x ≠ k → t.chain x = s.chain x := by
  intro t
  by_cases h : c.steps.tail = []
  · have ht : t = _ := if_pos (by simp [h])
    obtain ⟨hframe, honly, ⟨hset, hother⟩, hholds⟩ := chainWritten s k _ [.chainEnd k c.no]
    rw [← ht] at hframe honly hset hother hholds
    exact ⟨hframe, honly, ⟨_, hset, by simp, rfl, rfl, rfl, rfl, rfl, rfl, fun _ => ⟨rfl, hholds _ (by simp)⟩, fun hn => absurd h hn⟩, hother⟩
  · have ht : t = _ := if_neg (by simpa using h)
    obtain ⟨hframe, honly, ⟨hset, hother⟩, hholds⟩ := chainWritten s k _ [.chainDurable k c.no]
    rw [← ht] at hframe honly hset hother hholds
    exact ⟨hframe, honly, ⟨_, hset, by simp, rfl, rfl, rfl, rfl, rfl, rfl, fun hn => absurd hn h, fun _ => ⟨rfl, hholds _ (by simp)⟩⟩, hother⟩

theorem StepEnded.of_left {k : ChainKind} {c : Chain} {t : State} {n : Nat} (h : StepEnded k { c with left := n } t) : StepEnded k c t := h

/-! ### The writes of a step's own work (R141, R142, R144, R145) -/

/-- A completion that names no present chain changes nothing. -/
theorem signal_gone {s : State} {k : ChainKind} {no : Nat} (h : ∀ c, s.chain k = some c → c.no ≠ no) :
    s.chainDurable k no = s ∧ s.stepWorkDone k no = s ∧ s.fillProgressDone k no = s ∧ s.chainEnded k no = s := by
  cases hc : s.chain k with
  | none => simp [State.chainDurable, State.stepWorkDone, State.fillProgressDone, State.chainEnded, hc]
  | some c =>
    have hn := h c hc
    refine ⟨by simp [State.chainDurable, hc, hn], by simp [State.stepWorkDone, hc, hn], by simp [State.fillProgressDone, hc, hn], ?_⟩
    cases he : c.ending <;> simp [State.chainEnded, hc, hn, he]

section present
variable {s : State} {k : ChainKind} {c : Chain} (hc : s.chain k = some c)
include hc

theorem chainDurable_eq : s.chainDurable k c.no = s.setChain k (some { c with durable := true, recording := false }) := by
  simp [State.chainDurable, hc]

theorem stepWorkDone_idle (hb : c.begun = false) : s.stepWorkDone k c.no = s := by
  simp [State.stepWorkDone, hc, hb]

theorem stepWorkDone_counts (hb : c.begun = true) (hl : 1 < c.left) :
    s.stepWorkDone k c.no = s.setChain k (some { c with left := c.left - 1 }) := by
  simp [State.stepWorkDone, hc, hb, hl]

theorem stepWorkDone_finishes (hb : c.begun = true) (hl : c.left ≤ 1) :
    s.stepWorkDone k c.no = (s.setChain k (some { c with left := 0 })).finishStep k := by
  simp [State.stepWorkDone, hc, hb, Nat.not_lt.mpr hl]

theorem chainEnded_none (he : c.ending = none) : s.chainEnded k c.no = s := by
  simp [State.chainEnded, hc, he]

theorem chainEnded_some {st : Status} (he : c.ending = some st) :
    s.chainEnded k c.no = (s.setChain k none).notice (.wipeDone k c.origin st c.failedChunks) := by
  simp [State.chainEnded, hc, he]

theorem fillProgressDone_eq : s.fillProgressDone k c.no = (s.setChain k (some { c with left := c.left - 1 })).settleFill k := by
  simp [State.fillProgressDone, hc]

/-- R71: the boot state as a completed step leaves it. -/
def WipeStep.bootAfter (b : Boot) : WipeStep → Boot
  | .cutKeys => { b with state := .erased }
  | .resetTable => { b with state := .blank, unsealed := false, hello := .none, window := none }
  | _ => b

omit hc in
theorem withBoot_framed (s : State) (b : Boot) : Framed [.boot] s { s with btc := b } :=
  ⟨rfl, fun q hq => by cases q <;> simp_all [Piece.same]⟩

theorem finishStep_eq {a : WipeStep} {l : List WipeStep} (hs : c.steps = a :: l) :
    s.finishStep k = ({ s with btc := a.bootAfter s.btc } : State).stepCompleted k c := by
  cases a <;> simp only [State.finishStep, hc, hs, WipeStep.bootAfter]

theorem finishStep_ended {a : WipeStep} {l : List WipeStep} (hs : c.steps = a :: l) :
    let t := s.finishStep k
    Framed [.boot, .wipe, .writes] s t ∧ WritesOnly [.wipe] s t ∧ StepEnded k c t ∧ (∀ x, x ≠ k → t.chain x = s.chain x) ∧
      t.btc = a.bootAfter s.btc := by
  intro t
  have ht : t = _ := finishStep_eq hc hs
  obtain ⟨hframe, honly, hended, hother⟩ := stepCompleted_ended { s with btc := a.bootAfter s.btc } k c
  rw [← ht] at hframe honly hended hother
  exact ⟨(withBoot_framed s _).trans hframe, WritesOnly.trans (us := []) (writesOnly_of_eq rfl rfl rfl _) honly, hended,
    fun x hx => (hother x hx).trans (by cases x <;> exact rfl), hframe.2 .boot (by decide)⟩

/-- R144: a FILL is at its count and no progress write is outstanding. -/
def Chain.filled (c : Chain) : Prop := ∃ n p l, c.steps = .fill (some n) p :: l ∧ c.begun = true ∧ n ≤ p ∧ c.left = 0

theorem settleFill_filled (h : c.filled) : s.settleFill k = s.stepCompleted k c := by
  obtain ⟨n, p, l, hs, hb, hp, hl⟩ := h
  simp [State.settleFill, hc, hs, hb, hp, hl]

theorem settleFill_unfilled (h : ¬ c.filled) : s.settleFill k = s := by
  unfold State.settleFill
  rw [hc]
  split
  · rename_i c' hc'
    obtain rfl := Option.some.inj hc'
    split
    · rename_i n p l hs
      refine if_neg fun hfull => h ⟨n, p, l, hs, ?_⟩
      simp only [Bool.and_eq_true, decide_eq_true_eq, beq_iff_eq] at hfull
      exact ⟨hfull.1.1, hfull.1.2, hfull.2⟩
    · exact rfl
  · exact rfl

end present

/-! ### A level whose steps are recorded (R126) -/

theorem wipeGiven_effect (s : State) (l : Level) :
    let t := s.wipeGiven l
    Framed [.response, .writes] s t ∧ WritesOnly [.response] s t ∧
      t.rsu = { s.rsu with wipeLevel := if s.rsu.wipeLevel.number < l.number then l else s.rsu.wipeLevel } ∧ t.hasWrite .response := by
  intro t
  have written : ∀ v : Level, let u := ({ s with rsu := { s.rsu with wipeLevel := v } } : State).write .response []
      Framed [.response, .writes] s u ∧ WritesOnly [.response] s u ∧ u.rsu = { s.rsu with wipeLevel := v } ∧ u.hasWrite .response := fun v => by
    have hset : Framed [.response] s { s with rsu := { s.rsu with wipeLevel := v } } :=
      ⟨rfl, fun q hq => by cases q <;> simp_all [Piece.same]⟩
    exact ⟨hset.trans (write_framed ..), WritesOnly.trans (us := []) (writesOnly_of_eq rfl rfl rfl _) (write_only _ _ _), by simp,
      write_hasWrite _ _ _⟩
  by_cases h : s.rsu.wipeLevel.number < l.number
  · have ht : t = ({ s with rsu := { s.rsu with wipeLevel := l } } : State).write .response [] :=
      if_pos (by simpa [Level.below] using h)
    rw [ht, if_pos h]
    exact written l
  · have ht : t = ({ s with rsu := { s.rsu with wipeLevel := s.rsu.wipeLevel } } : State).write .response [] :=
      if_neg (by simpa [Level.below] using h)
    rw [ht, if_neg h]
    exact written _

end Sys2Proof.Machine

namespace Sys2Proof
open Machine

/-- Settles O55: the requesters of the WIPE record, those of a step's own work, and the report of a level. -/
theorem chainWritesComplete : Obligations.ChainWritesComplete := by
  intro k no s completed
  refine ⟨signal_gone, fun c hc hno => ?_, wipeGiven_effect s⟩
  subst hno
  have replaced : ∀ d : Option Chain, Framed [.wipe] s (s.setChain k d) ∧ (s.setChain k d).chain k = d ∧
      ∀ x, x ≠ k → (s.setChain k d).chain x = s.chain x := fun d => ⟨setChain_framed s k d, setChain_sets s k d⟩
  have hwrites : ∀ d : Option Chain, WritesOnly [] s (s.setChain k d) := fun d => by
    have hsst := (setChain_sst s k d).1
    exact writesOnly_of_eq (by rw [hsst]) (by rw [hsst]) (by rw [hsst]) _
  refine ⟨?_, ⟨stepWorkDone_idle hc, fun hb hl => ?_, fun a l hb hl hs ha => ?_⟩, ?_, chainEnded_none hc, fun st he => ?_⟩
  · rw [show s.signal (.chainDurable k c.no) = _ from chainDurable_eq hc]
    exact replaced _
  · rw [show s.signal (.stepWork k c.no) = _ from stepWorkDone_counts hc hb hl]
    exact replaced _
  · rw [show s.signal (.stepWork k c.no) = _ from stepWorkDone_finishes hc hb hl]
    obtain ⟨hset, hchain, hrest⟩ := replaced (some { c with left := 0 })
    obtain ⟨hframe, honly, hended, hother, hboot⟩ := finishStep_ended (c := { c with left := 0 }) hchain hs
    have hbtc : (s.setChain k (some { c with left := 0 })).btc = s.btc := hset.2 .boot (by decide)
    rw [hbtc] at hboot
    refine ⟨(hset.trans hframe).mono (by decide), (hwrites _).trans (us := []) honly, hended.of_left,
      fun x hx => (hother x hx).trans (hrest x hx), ?_, ?_, ?_⟩ <;> (rintro rfl; exact hboot)
  · rw [show s.signal (.fillProgress k c.no) = _ from fillProgressDone_eq hc]
    obtain ⟨hset, hchain, hrest⟩ := replaced (some { c with left := c.left - 1 })
    have hfilled : ({ c with left := c.left - 1 } : Chain).filled ↔
        ∃ n p l, c.steps = .fill (some n) p :: l ∧ c.begun = true ∧ n ≤ p ∧ c.left ≤ 1 := by
      simp only [Chain.filled, Nat.sub_eq_zero_iff_le]
    refine ⟨fun h => ?_, fun h => ?_⟩
    · rw [settleFill_filled hchain (hfilled.mpr h)]
      obtain ⟨hframe, honly, hended, hother⟩ := stepCompleted_ended (s.setChain k (some { c with left := c.left - 1 })) k
        { c with left := c.left - 1 }
      exact ⟨(hset.trans hframe).mono (by decide), (hwrites _).trans (us := []) honly, hended.of_left,
        fun x hx => (hother x hx).trans (hrest x hx)⟩
    · rw [settleFill_unfilled hchain (mt hfilled.mp h)]
      exact replaced _
  · rw [show s.signal (.chainEnd k c.no) = _ from chainEnded_some hc he]
    obtain ⟨hset, hchain, hrest⟩ := replaced none
    obtain ⟨hnotice, -, hsent⟩ := notice_effect (s.setChain k none) (.wipeDone k c.origin st c.failedChunks)
    have hwpe : ((s.setChain k none).notice (.wipeDone k c.origin st c.failedChunks)).wpe = (s.setChain k none).wpe :=
      hnotice.2 .wipe (by decide)
    obtain ⟨hgone, hother⟩ := (setChain_sets s k none).of_wpe hwpe
    refine ⟨hset.trans hnotice, hgone, hother, hsent.trans ?_⟩
    rw [(setChain_sst s k none).2, show (s.setChain k none).sent = s.sent from hset.2 .sent (by decide)]

end Sys2Proof


/-! What the ends of references leave of the Key Store whatever contexts end (R28, R30, R34): a LIVE start slot its copy, and
the store but for the records of RETIRING slots; and of aborts, what CUT_KEYS and RESET_TABLE need (O54). -/

namespace Sys2Proof.Machine

/-! ### The ends of references (R28, R30) -/

/-- The records of the RETIRING slots. -/
def State.retiringUnits (s : State) : List StoreUnit :=
  ((List.range s.kst.slots.length).filter (fun x => (s.slot x).state == .retiring)).map StoreUnit.key

theorem mem_retiringUnits (s : State) (u : StoreUnit) : u ∈ s.retiringUnits ↔ ∃ x, (s.slot x).state = .retiring ∧ u = .key x := by
  simp only [State.retiringUnits, List.mem_map, List.mem_filter, List.mem_range, beq_iff_eq]
  constructor
  · rintro ⟨x, ⟨-, hx⟩, rfl⟩
    exact ⟨x, hx, rfl⟩
  · rintro ⟨x, hx, rfl⟩
    exact ⟨x, ⟨slot_lt s x (by rw [hx]; decide), hx⟩, rfl⟩

/-- What the ends of references leave: no slot changes its state or its key, a LIVE start slot keeps its copy, and only the
records of RETIRING slots are written. -/
structure RefsGo (s t : State) : Prop where
  alike : ∀ x, (s.slot x).alike (t.slot x)
  start : (s.slot 23).state = .live → (t.slot 23).copy = (s.slot 23).copy
  writes : WritesOnly s.retiringUnits s t

theorem RefsGo.state {s t : State} (h : RefsGo s t) (x : Nat) : (t.slot x).state = (s.slot x).state ∧
    (t.slot x).material = (s.slot x).material ∧ (t.slot x).owner = (s.slot x).owner := by
  have hx := h.alike x
  unfold KeySlot.alike at hx
  rw [hx]
  exact ⟨rfl, rfl, rfl⟩

theorem RefsGo.of_eq {s t : State} (hk : t.kst.slots = s.kst.slots) (hs : t.sst = s.sst) : RefsGo s t := by
  have hslot : ∀ x, t.slot x = s.slot x := fun x => by rw [State.slot, State.slot, hk]
  exact ⟨fun x => by rw [hslot]; exact KeySlot.alike_refl _, fun _ => by rw [hslot],
    writesOnly_of_eq (by rw [hs]) (by rw [hs]) (by rw [hs]) _⟩

theorem RefsGo.refl (s : State) : RefsGo s s := .of_eq rfl rfl

theorem RefsGo.trans {s t u : State} (h : RefsGo s t) (k : RefsGo t u) : RefsGo s u := by
  refine ⟨fun x => (h.alike x).trans (k.alike x), fun hl => ?_, (h.writes.trans k.writes).mono fun v hv => ?_⟩
  · exact (k.start ((h.state 23).1.trans hl)).trans (h.start hl)
  · obtain hv | hv := List.mem_append.mp hv
    · exact hv
    · obtain ⟨x, hx, rfl⟩ := (mem_retiringUnits t v).mp hv
      exact (mem_retiringUnits s _).mpr ⟨x, (h.state x).1.symm.trans hx, rfl⟩

theorem RefsGo.foldl {α : Type} {f : State → α → State} (h : ∀ s x, RefsGo s (f s x)) (l : List α) (s : State) :
    RefsGo s (l.foldl f s) := by
  induction l generalizing s with
  | nil => exact .refl s
  | cons x l ih => exact (h s x).trans (ih _)

theorem settled_of_live {x : KeySlot} (h : x.state = .live) : x.settled = x := if_neg (by rw [h]; simp)

theorem lessUser_only (s : State) (k : Nat) : WritesOnly s.retiringUnits s (s.lessUser k) := by
  have hfewer : WritesOnly [] s (s.mapSlot k (fun x => { x with users := x.users - 1 })) := writesOnly_of_eq rfl rfl rfl _
  unfold State.lessUser State.settleSlot
  split
  · next h =>
    have hretiring : (s.slot k).state = .retiring := by
      have hstate := h.1
      rwa [slot_fewer] at hstate
    have hwrite := hfewer.trans (us := []) (WritesOnly.trans (us := []) (writesOnly_of_eq rfl rfl rfl _)
      (write_only ((s.mapSlot k (fun x => { x with users := x.users - 1 })).mapSlot k (fun x => { x with copy := none, erasing := true }))
        (.key k) [.erased k]))
    refine hwrite.mono fun u hu => (mem_retiringUnits s u).mpr ⟨k, hretiring, ?_⟩
    simpa using hu
  · exact hfewer.mono (by simp)

theorem refsGo_lessUser (s : State) (k : Nat) : RefsGo s (s.lessUser k) := by
  refine ⟨(((loosened_mapSlot s k (fun x => { x with users := x.users - 1 }) (fun _ => rfl)).trans (State.settleSlot_loosened _ k)).1),
    fun h => ?_, lessUser_only s k⟩
  rw [lessUser_slot]
  by_cases hk : 23 = k
  · rw [if_pos hk, settled_of_live (by exact h)]
  · rw [if_neg hk]

theorem refsGo_settleRange (s : State) (r : Nat) : RefsGo s (s.settleRange r) := by
  refine ⟨(s.settleRange_loosened r).1, fun _ => ?_, writesOnly_of_eq (by simp) (by simp) (by simp) _⟩
  obtain ⟨-, -, h⟩ | ⟨-, h⟩ := settleRange_cases s r
  · rw [h, State.dropRange_slot, if_neg fun hm => by simp [State.ownedSlots] at hm]
  · rw [h]

theorem refsGo_dropUser (s : State) (k : Nat) : RefsGo s (s.dropUser k) := by
  rw [dropUser_eq]
  cases (s.slot k).owner with
  | none => exact refsGo_lessUser s k
  | some r => exact (refsGo_lessUser s k).trans (refsGo_settleRange _ r)

theorem refsGo_abortAll (s : State) (cause : AbortCause) (p : OpenContext → Bool) : RefsGo s (s.abortAll cause p) := by
  have hfree : ∀ (t : State) (c : Nat), RefsGo t (t.freeContext c) := fun t c => by
    unfold State.freeContext
    split
    · exact .refl t
    · exact (RefsGo.of_eq (s := t) (t := t.setCtx c { t.ctx c with xfer := none }) rfl rfl).trans (RefsGo.foldl refsGo_dropUser _ _)
  refine RefsGo.foldl (fun t c => ?_) _ s
  unfold State.abort
  split
  · exact .refl t
  · exact (hfree t c).trans (.of_eq (by simp) (by simp))

/-- What is held of a unit that is not written stays held. -/
theorem WritesOnly.keeps_holds {us : List StoreUnit} {s t : State} (h : WritesOnly us s t) {u : StoreUnit} (hu : u ∉ us) {c : Record}
    {w : Waiter} (hh : s.holds u c w) : t.holds u c w := by
  obtain ⟨x, hx, rfl, hc, hw⟩ := hh
  exact ⟨x, (h x hu).mpr hx, rfl, hc, hw⟩

/-! ### What an abort leaves unchanged (R90) -/

theorem abortAll_framed (s : State) (cause : AbortCause) (p : OpenContext → Bool) :
    Framed [.sent, .data, .keySlots, .loads, .writes] s (s.abortAll cause p) :=
  ⟨(s.abortAll_keeps cause p).1, fun q hq => by cases q <;> simp_all [Piece.same]⟩

theorem abandonCommit_framed (s : State) : Framed [.commit, .hold, .tags, .sent] s s.abandonCommit :=
  ⟨s.abandonCommit_keeps.1, fun q hq => by cases q <;> simp_all [Piece.same]⟩

end Sys2Proof.Machine


/-! CUT_KEYS begins (O54): what the cut itself leaves, and what its writes add. -/

namespace Sys2Proof.Machine

/-- An abort takes back no frame and leaves the side that the cores served last. -/
theorem abortAll_sent (s : State) (cause : AbortCause) (p : OpenContext → Bool) :
    s.sent <+: (s.abortAll cause p).sent ∧ (s.abortAll cause p).dpu.lastSide = s.dpu.lastSide := by
  have hside : ∀ (t : State) (c : Nat), (t.freeContext c).dpu.lastSide = t.dpu.lastSide ∧ (t.freeContext c).sent = t.sent := fun t c => by
    unfold State.freeContext
    split
    · exact ⟨rfl, rfl⟩
    · simp [State.setCtx]
  have one : ∀ (t : State) (c : Nat), t.sent <+: (t.abort cause c).sent ∧ (t.abort cause c).dpu.lastSide = t.dpu.lastSide := fun t c => by
    obtain ⟨hl, hs⟩ := hside t c
    unfold State.abort
    split
    · exact ⟨List.prefix_refl _, rfl⟩
    · unfold State.owe
      dsimp only
      split <;> simp [State.lastWord, State.send, hl]
  have all : ∀ (l : List Nat) (t : State), t.sent <+: (l.foldl (fun u c => u.abort cause c) t).sent ∧
      (l.foldl (fun u c => u.abort cause c) t).dpu.lastSide = t.dpu.lastSide := by
    intro l
    induction l with
    | nil => exact fun t => ⟨List.prefix_refl _, rfl⟩
    | cons c l ih => exact fun t => ⟨(one t c).1.trans (ih _).1, (ih _).2.trans (one t c).2⟩
  exact all _ s

/-! ### The cut (R40, R141) -/

/-- R40, R141: what the cut leaves, but for the writes. -/
structure CutDone (s t : State) : Prop where
  blank : ∀ x < 23, t.slot x = .blank
  scratch : (t.slot 23).state = (s.slot 23).state ∧ (t.slot 23).material = (s.slot 23).material
  start : (s.slot 23).state = .live → (t.slot 23).copy = (s.slot 23).copy
  loads : ∀ r, t.load r = .notLoaded
  hold : t.kst.hold = none ∧ t.kst.reservation = 0
  staged : t.rtb.staged = .blank
  preempted : DrainPreempted s.lif.tagsInUse s t
  aborted : ClearAborted .keysCut s t
  data : t.dpu.flights = s.dpu.flights ∧ t.dpu.lastSide = s.dpu.lastSide
  reseal : t.rtb.resealOnWake = s.rtb.resealOnWake
  sweep : t.rke = { Rekey.blank s.rke.serial (s.rke.chunk + 1) with
    work := s.rke.work.filter (fun w => w.stage != .waiting), resumption := s.rke.resumption
    dueQueue := t.rke.dueQueue, dueProgress := t.rke.dueProgress }
  disabled : ∀ r, s.fields r = none → t.entry r = s.entry r
  cut : ∀ r g, s.fields r = some g →
    t.fields r = some { g with envelopes := [], split := none, readLocked := true, writeLocked := true }

theorem CutDone.later {s t u : State} (h : CutDone s t) (hk : u.kst = t.kst) (hr : u.rtb = t.rtb) (hd : u.dpu = t.dpu)
    (hs : u.sent = t.sent) (hl : u.lif = t.lif)
    (he : u.rke = { t.rke with dueQueue := u.rke.dueQueue, dueProgress := u.rke.dueProgress }) : CutDone s u := by
  have hslot : ∀ x, u.slot x = t.slot x := fun x => by rw [State.slot, State.slot, hk]
  have hload : ∀ x, u.load x = t.load x := fun x => by rw [State.load, State.load, hk]
  have hentry : ∀ x, u.entry x = t.entry x := fun x => by rw [State.entry, State.entry, hr]
  have hfields : ∀ x, u.fields x = t.fields x := fun x => by rw [State.fields, State.fields, hentry]
  have hctx : ∀ x, u.ctx x = t.ctx x := fun x => by rw [State.ctx, State.ctx, hd]
  refine ⟨fun x hx => (hslot x).trans (h.blank x hx), by rw [hslot]; exact h.scratch, by rw [hslot]; exact h.start,
    fun r => (hload r).trans (h.loads r), by rw [hk]; exact h.hold, by rw [hr]; exact h.staged, ?_, ?_, by rw [hd]; exact h.data,
    by rw [hr]; exact h.reseal, ?_, fun r hn => (hentry r).trans (h.disabled r hn), fun r g hg => (hfields r).trans (h.cut r g hg)⟩
  · unfold DrainPreempted
    rw [hr, hl, hs]
    exact h.preempted
  · refine ⟨fun c hc => (hctx c).trans (h.aborted.1 c hc), fun c hc x hx hp => ?_⟩
    rw [hs, hd]
    exact h.aborted.2 c hc x hx hp
  · rw [he, h.sweep]

theorem cut_framed (s : State) : Framed [.keySlots, .loads, .hold, .ranges, .commit, .data, .rekey, .tags, .writes, .sent] s s.cut :=
  ⟨s.cut_keeps.1, fun q hq => by cases q <;> simp_all [Piece.same]⟩

theorem slot_cutSlots (s : State) (hlen : s.kst.slots.length = 24) (x : Nat) :
    s.cutSlots.slot x = if x < 23 then .blank else s.slot x := by
  unfold State.slot State.cutSlots
  by_cases hx : x < 23
  · rw [if_pos hx]
    dsimp only
    rw [List.getElem?_append_left (by simp [hlen, hx]), List.getElem?_map, List.getElem?_take_of_lt hx]
    cases s.kst.slots[x]? <;> exact rfl
  · rw [if_neg hx]
    simp only [List.getElem?_append, List.length_map, List.length_take, hlen]
    rw [if_neg (by omega)]
    simp only [List.getElem?_drop]
    congr 2
    omega

theorem load_cutSlots (s : State) (r : Nat) : s.cutSlots.load r = .notLoaded := by
  unfold State.load State.cutSlots
  simp only [List.getElem?_map]
  cases s.kst.loads[r]? <;> rfl

/-- R141: the cut once the commit is abandoned and the CLEAR contexts have ended. -/
def State.cutFrom (u : State) : State :=
  { { u with rke := { u.abandonSweep.rke with queue := [] } }.cutSlots with
    rtb := { u.rtb with entries := u.rtb.entries.map Entry.cut, staged := .blank } }

theorem cut_eq (s : State) : s.cut = s.abandonCommit.abortCut.cutFrom := rfl

theorem cutFrom_parts (u : State) : u.cutFrom.kst = u.cutSlots.kst ∧ u.cutFrom.rtb.commit = u.rtb.commit ∧
    u.cutFrom.rtb.staged = .blank ∧ u.cutFrom.rtb.entries = u.rtb.entries.map Entry.cut ∧ u.cutFrom.dpu = u.dpu ∧ u.cutFrom.sent = u.sent ∧
    u.cutFrom.sst = u.sst ∧ u.cutFrom.lif = u.lif := ⟨rfl, rfl, rfl, rfl, rfl, rfl, rfl, rfl⟩

theorem entry_cut (s : State) (r : Nat) : s.cut.entry r = (s.entry r).cut := by
  obtain ⟨-, -, -, hcut, -⟩ := cutFrom_parts s.abandonCommit.abortCut
  have hentries : s.cut.rtb.entries = s.rtb.entries.map Entry.cut := by
    rw [cut_eq, hcut]
    simp [State.abortCut]
  unfold State.entry
  rw [hentries, List.getElem?_map]
  cases s.rtb.entries[r]? <;> rfl

/-- R110: the sweep as the cut leaves it. -/
def Rekey.abandoned (x : Rekey) : Rekey :=
  { Rekey.blank x.serial (x.chunk + 1) with
    work := x.work.filter (fun w => w.stage != .waiting), resumption := x.resumption, dueQueue := x.dueQueue
    dueProgress := x.dueProgress }

theorem cutFrom_rke (u : State) : u.cutFrom.rke = u.rke.abandoned := rfl

theorem cut_rke (s : State) : s.cut.rke = s.rke.abandoned := by
  rw [cut_eq, cutFrom_rke]
  simp [State.abortCut]

theorem abortCut_refs (s : State) : RefsGo s s.abandonCommit.abortCut :=
  (RefsGo.of_eq (by simp) (by simp)).trans (refsGo_abortAll ..)

theorem cut_writes (s : State) : WritesOnly s.retiringUnits s s.cut := by
  obtain ⟨-, -, -, -, -, -, hsst, -⟩ := cutFrom_parts s.abandonCommit.abortCut
  rw [cut_eq]
  exact ((abortCut_refs s).writes.trans (vs := []) (writesOnly_of_eq (by rw [hsst]) (by rw [hsst]) (by rw [hsst]) _)).mono (by simp)

theorem cut_slot {s : State} (h : Shaped s) (x : Nat) : s.cut.slot x = if x < 23 then .blank else s.abandonCommit.abortCut.slot x := by
  have hlen := Shaped.keySlots ((s.abandonCommit.abortAll_keeps .keysCut (fun x => x.mode == .clear)).shaped (s.abandonCommit_keeps.shaped h))
  obtain ⟨hkst, -⟩ := cutFrom_parts s.abandonCommit.abortCut
  rw [cut_eq, State.slot, hkst]
  exact slot_cutSlots _ hlen x

theorem cut_preempts (s : State) : DrainPreempted s.lif.tagsInUse s s.cut := by
  obtain ⟨hsent, -⟩ := abortAll_sent s.abandonCommit .keysCut (fun x => x.mode == .clear)
  obtain ⟨-, hcommit, -, -, -, hsame, -, -⟩ := cutFrom_parts s.abandonCommit.abortCut
  have hrtb : s.abandonCommit.abortCut.rtb = s.abandonCommit.rtb := by simp [State.abortCut]
  have hidle : s.cut.rtb.commit = s.abandonCommit.rtb.commit := by rw [cut_eq, hcommit, hrtb]
  have hpre := s.abandonCommit_preempts
  refine ⟨fun a n k rto hd => ?_, fun hn => ?_⟩
  · obtain ⟨hc, htags, hframe⟩ := hpre.1 a n k rto hd
    refine ⟨hidle.trans hc, s.cut_tags.trans htags, fun hr => ?_⟩
    rw [cut_eq, hsame]
    exact hsent.subset (hframe hr)
  · obtain ⟨hc, htags⟩ := hpre.2 hn
    exact ⟨hidle.trans hc, s.cut_tags.trans htags⟩

theorem cut_aborts {s : State} (h : Shaped s) : ClearAborted .keysCut s s.cut ∧ s.cut.dpu.flights = s.dpu.flights ∧
    s.cut.dpu.lastSide = s.dpu.lastSide := by
  obtain ⟨⟨habort, hnotice⟩, hflights⟩ := State.abortAll_aborted s.abandonCommit .keysCut (fun x => x.mode == .clear)
    (s.abandonCommit_keeps.shaped h)
  obtain ⟨-, hside⟩ := abortAll_sent s.abandonCommit .keysCut (fun x => x.mode == .clear)
  obtain ⟨-, -, -, -, hcut, hsame, -, -⟩ := cutFrom_parts s.abandonCommit.abortCut
  have hdpu : s.abandonCommit.dpu = s.dpu := by simp
  have hctx : ∀ c, s.abandonCommit.ctx c = s.ctx c := fun c => by rw [State.ctx, State.ctx, hdpu]
  have hctxcut : ∀ c, s.cut.ctx c = s.abandonCommit.abortCut.ctx c := fun c => by rw [cut_eq, State.ctx, hcut, State.ctx]
  simp only [hctx] at habort hnotice
  rw [hdpu] at hflights hside
  refine ⟨⟨fun c hc => (hctxcut c).trans (habort c hc), fun c hc x hx hp => ?_⟩, ?_, ?_⟩
  · rw [cut_eq, hsame, hcut]
    exact hnotice c hc x hx hp
  · rw [cut_eq, hcut]
    exact hflights
  · rw [cut_eq, hcut]
    exact hside

theorem cut_done (s : State) (h : Shaped s) : CutDone s s.cut := by
  have hrefs := abortCut_refs s
  obtain ⟨hkst, -, hstaged, -⟩ := cutFrom_parts s.abandonCommit.abortCut
  refine ⟨fun x hx => (cut_slot h x).trans (if_pos hx), ?_, fun hl => ?_, fun r => ?_, ?_, ?_, cut_preempts s, (cut_aborts h).1,
    (cut_aborts h).2, by simp, by rw [cut_rke]; exact rfl, fun r hn => ?_, fun r g hg => ?_⟩
  · rw [cut_slot h]
    exact ⟨(hrefs.state 23).1, (hrefs.state 23).2.1⟩
  · rw [cut_slot h]
    exact hrefs.start hl
  · rw [cut_eq, State.load, hkst]
    exact load_cutSlots _ r
  · rw [cut_eq, hkst]
    exact ⟨rfl, rfl⟩
  · rw [cut_eq, hstaged]
  · rw [entry_cut]
    unfold State.fields at hn
    cases he : s.entry r with
    | enabled g => simp [he, Entry.fields?] at hn
    | disabled => exact rfl
    | damaged => exact rfl
  · unfold State.fields
    rw [entry_cut]
    unfold State.fields at hg
    cases he : s.entry r <;> simp_all [Entry.cut, Entry.fields?]

end Sys2Proof.Machine


/-! CUT_KEYS begins (O54), continued: the writes of the step. -/

namespace Sys2Proof.Machine

/-! ### Requesters of the REKEY record that go on waiting (R110) -/

theorem queuePartAwaits_keeps {s t : State} {us : List StoreUnit} {w : Waiter} (h : s.queuePartAwaits w) (ho : WritesOnly us s t)
    (hu : StoreUnit.rekeyQueue ∉ us) (hrec : t.recordOf .rekeyQueue = s.recordOf .rekeyQueue) (hd : t.rke.dueQueue = s.rke.dueQueue) :
    t.queuePartAwaits w := by
  obtain h | h := h
  · exact .inl (hrec ▸ ho.keeps_holds hu h)
  · exact .inr (hd ▸ h)

theorem progressAwaits_keeps {s t : State} {us : List StoreUnit} {w : Waiter} (h : s.progressAwaits w) (ho : WritesOnly us s t)
    (hu : StoreUnit.rekeyProgress ∉ us) (hrec : t.recordOf .rekeyProgress = s.recordOf .rekeyProgress)
    (hd : t.rke.dueProgress = s.rke.dueProgress) : t.progressAwaits w := by
  obtain h | h := h
  · exact .inl (hrec ▸ ho.keeps_holds hu h)
  · exact .inr (hd ▸ h)

/-- R141: the last three writes of a CUT_KEYS: both parts of the REKEY record and the DEVICE record. -/
def State.partsWritten (u : State) (w : Waiter) : State :=
  ((u.writeQueuePart [w]).writeProgressPart [w]).writeDevice (.withBoot .erased) [w]

theorem recordOf_rekey_idle {s : State} (hq : s.rke.queue = []) (hs : s.rke.seq = none) :
    s.recordOf .rekeyQueue = .rekeyQueue { serial := s.rke.serial, ranges := [], active := none } ∧
      s.recordOf .rekeyProgress = .rekeyProgress none := by
  have hjob : s.activeJob = none := by simp [State.activeJob, State.headJob, hq]
  have hleaving : s.leaving = false := by simp [State.leaving, hs]
  refine ⟨congrArg Record.rekeyQueue ?_, congrArg Record.rekeyProgress ?_⟩
  · simp [State.queueRecord, hleaving, hq, hjob]
  · simp [State.progressRecord, hjob]

/-- Of the three writes, where the queue is empty. -/
theorem partsWritten_effect {u : State} (w : Waiter) (hq : u.rke.queue = []) (hs : u.rke.seq = none) :
    let t := u.partsWritten w
    Framed [.writes, .rekey, .device] u t ∧ WritesOnly [.rekeyQueue, .rekeyProgress, .device] u t ∧
      t.rke = { u.rke with dueQueue := t.rke.dueQueue, dueProgress := t.rke.dueProgress } ∧
      t.sst.lastDevice = { u.sst.lastDevice with boot := .erased } ∧ t.holds .device (.device t.sst.lastDevice) w ∧
      t.kst = u.kst ∧ t.rtb = u.rtb ∧ t.dpu = u.dpu ∧ t.sent = u.sent ∧ t.lif = u.lif ∧ t.wpe = u.wpe ∧ t.btc = u.btc ∧
      t.queuePartAwaits w ∧ t.progressAwaits w := by
  intro t
  have hqueue := writeQueuePart_rke u [w]
  have hprogress := State.writeProgressPart_rke (u.writeQueuePart [w]) [w]
  have hdevice : t.rke = ((u.writeQueuePart [w]).writeProgressPart [w]).rke := by simp [t, State.partsWritten]
  have hrke : t.rke = { u.rke with dueQueue := t.rke.dueQueue, dueProgress := t.rke.dueProgress } := by
    rw [hdevice, hprogress, hqueue]
  have hlast : t.sst.lastDevice = { u.sst.lastDevice with boot := .erased } := by
    simp [t, State.partsWritten, State.writeDevice, DeviceRecord.withBoot]
  have idle : ∀ v : State, v.rke = { u.rke with dueQueue := v.rke.dueQueue, dueProgress := v.rke.dueProgress } →
      v.recordOf .rekeyQueue = .rekeyQueue { serial := u.rke.serial, ranges := [], active := none } ∧
        v.recordOf .rekeyProgress = .rekeyProgress none := fun v hv => by
    have hserial : v.rke.serial = u.rke.serial := by rw [hv]
    rw [← hserial]
    exact recordOf_rekey_idle (by rw [hv]; exact hq) (by rw [hv]; exact hs)
  obtain ⟨hrq, hrp⟩ := idle t hrke
  obtain ⟨hq1, -⟩ := idle (u.writeQueuePart [w]) (by rw [hqueue])
  obtain ⟨-, hp2⟩ := idle ((u.writeQueuePart [w]).writeProgressPart [w]) (by rw [hprogress, hqueue])
  have honly2 := State.writeProgressPart_only (u.writeQueuePart [w]) [w]
  have honly3 : WritesOnly [.device] ((u.writeQueuePart [w]).writeProgressPart [w]) t := writeDevice_only _ _ _
  refine ⟨(((writeQueuePart_framed u [w]).trans (writeProgressPart_framed _ [w])).trans (writeDevice_framed ..)).mono (by decide),
    ((writeQueuePart_only u [w]).trans honly2).trans honly3, hrke, hlast, ?_, by simp [t, State.partsWritten],
    by simp [t, State.partsWritten], by simp [t, State.partsWritten], by simp [t, State.partsWritten], by simp [t, State.partsWritten],
    by simp [t, State.partsWritten], by simp [t, State.partsWritten], ?_, ?_⟩
  · rw [hlast]
    have hold : ((u.writeQueuePart [w]).writeProgressPart [w]).sst.lastDevice = u.sst.lastDevice := by simp
    rw [← hold]
    exact writeDevice_holds _ _ _ (List.mem_singleton_self _)
  · refine queuePartAwaits_keeps (writeQueuePart_awaits (List.mem_singleton_self w)) (honly2.trans honly3) (by simp)
      (hrq.trans hq1.symm) ?_
    rw [hdevice, hprogress]
  · exact progressAwaits_keeps (State.writeProgressPart_awaits _ _ w (List.mem_singleton_self w)) honly3 (by simp) (hrp.trans hp2.symm)
      (by rw [hdevice])

/-! ### The beginning of the step (R141) -/

/-- With the pool EMPTY and the start slot LIVE no slot is RETIRING. -/
theorem retiringUnits_none {s : State} (h : Shaped s) (hn : s.nothingToCut = true) (hl : (s.slot 23).state = .live) :
    s.retiringUnits = [] := by
  have hpool : ∀ x < 23, (s.slot x).state = .empty := by
    have hcount : s.poolCount .empty = 23 := by
      unfold State.nothingToCut at hn
      simpa using (Bool.and_eq_true _ _).mp hn |>.1
    have hall := List.length_filter_eq_length_iff.mp (hcount.trans (List.length_range (n := 23)).symm)
    exact fun x hx => by simpa using hall x (List.mem_range.mpr hx)
  refine List.eq_nil_iff_forall_not_mem.mpr fun u hu => ?_
  obtain ⟨x, hx, -⟩ := (mem_retiringUnits s u).mp hu
  have hlt : x < 24 := Shaped.keySlots h ▸ slot_lt s x (by rw [hx]; decide)
  obtain hlt | rfl : x < 23 ∨ x = 23 := by omega
  · rw [hpool x hlt] at hx
    cases hx
  · rw [hl] at hx
    cases hx

theorem retiringUnits_pool {s : State} (h : Shaped s) (hl : (s.slot 23).state = .live) (u : StoreUnit) (hu : u ∈ s.retiringUnits) :
    u ∈ (List.range 23).map StoreUnit.key := by
  obtain ⟨x, hx, rfl⟩ := (mem_retiringUnits s u).mp hu
  have hlt : x < 24 := Shaped.keySlots h ▸ slot_lt s x (by rw [hx]; decide)
  have hne : x ≠ 23 := by
    rintro rfl
    rw [hl] at hx
    cases hx
  exact List.mem_map_of_mem (List.mem_range.mpr (by omega))

/-- The pieces of state that CUT_KEYS may change. -/
def cutPieces : List Piece :=
  [.wipe, .keySlots, .loads, .hold, .ranges, .commit, .data, .rekey, .tags, .boot, .writes, .device, .sent]

theorem setChain_nextNo (s : State) (k : ChainKind) (c : Option Chain) : (s.setChain k c).wpe.nextNo = s.wpe.nextNo := by
  cases k <;> rfl

theorem stepCompleted_nextNo (s : State) (k : ChainKind) (c : Chain) : (s.stepCompleted k c).wpe.nextNo = s.wpe.nextNo := by
  by_cases h : c.steps.tail = []
  · have ht : s.stepCompleted k c = _ := if_pos (by simp [h])
    rw [ht]
    simp [setChain_nextNo]
  · have ht : s.stepCompleted k c = _ := if_neg (by simpa using h)
    rw [ht]
    simp [setChain_nextNo]

/-- Another chain of kind k in the place of the one that stood there. -/
def ChainBegun (k : ChainKind) (c : Chain) (s t : State) : Prop :=
  t.chain k = some c ∧ (∀ x, x ≠ k → t.chain x = s.chain x) ∧ t.wpe.nextNo = s.wpe.nextNo

theorem chainBegun_of {k : ChainKind} {c : Chain} {s u t : State} (hu : u.wpe = s.wpe) (ht : t.wpe = (u.setChain k (some c)).wpe) :
    ChainBegun k c s t := by
  obtain ⟨hset, hother⟩ := (setChain_sets u k (some c)).of_wpe ht
  refine ⟨hset, fun x hx => (hother x hx).trans ?_, by rw [ht, setChain_nextNo, hu]⟩
  cases x <;> simp only [State.chain, hu]

section cut
variable {s : State} {k : ChainKind} {c : Chain}

/-- What the cut has changed once the chain has taken its step. -/
structure CutBegun (k : ChainKind) (c : Chain) (s t : State) : Prop where
  framed : Framed cutPieces s t
  done : CutDone s t
  device : t.sst.lastDevice = { s.sst.lastDevice with boot := .erased }

/-- R141: the chain's step has begun, with n writes still to complete. -/
def State.cutStarted (s : State) (k : ChainKind) (c : Chain) (n : Nat) : State :=
  s.cut.setChain k (some { c with begun := true, left := n })

theorem beginCut_some (h : s.nothingToCut = false) : s.beginCut k c =
    ((s.cutStarted k c (s.cut.cutUnits.length + 3)).writeAll s.cut.cutUnits (.stepWork k c.no)).partsWritten (.stepWork k c.no) :=
  if_neg (by simp [h])

theorem beginCut_device (h : s.nothingToCut = true) (hb : s.sst.lastDevice.boot ≠ .erased) : s.beginCut k c =
    (s.cutStarted k c 1).writeDevice (.withBoot .erased) [.stepWork k c.no] :=
  (if_pos h).trans (if_neg hb)

theorem beginCut_done (h : s.nothingToCut = true) (hb : s.sst.lastDevice.boot = .erased) : s.beginCut k c =
    (s.cutStarted k c c.left).finishStep k :=
  (if_pos h).trans (if_pos hb)

theorem setChain_parts (s : State) (k : ChainKind) (x : Option Chain) : (s.setChain k x).kst = s.kst ∧ (s.setChain k x).rtb = s.rtb ∧
    (s.setChain k x).dpu = s.dpu ∧ (s.setChain k x).sent = s.sent ∧ (s.setChain k x).lif = s.lif ∧ (s.setChain k x).rke = s.rke ∧
    (s.setChain k x).sst = s.sst ∧ (s.setChain k x).btc = s.btc := by
  cases k <;> exact ⟨rfl, rfl, rfl, rfl, rfl, rfl, rfl, rfl⟩

theorem cut_enabledRanges (h : Shaped s) : s.cut.enabledRanges = s.enabledRanges := by
  have hdone := cut_done s h
  refine List.filter_congr fun r _ => ?_
  cases hf : s.fields r with
  | some g => rw [hdone.cut r g hf]; exact rfl
  | none => rw [State.fields, hdone.disabled r hf, ← State.fields, hf]

theorem cutUnits_cut (h : Shaped s) :
    s.cut.cutUnits = (List.range 23).map StoreUnit.key ++ s.enabledRanges.map StoreUnit.range ++ [.stage] := by
  rw [State.cutUnits, cut_enabledRanges h]

theorem cutStarted_done (h : Shaped s) (n : Nat) : CutDone s (s.cutStarted k c n) ∧
    Framed [.wipe, .keySlots, .loads, .hold, .ranges, .commit, .data, .rekey, .tags, .writes, .sent] s (s.cutStarted k c n) ∧
    WritesOnly s.retiringUnits s (s.cutStarted k c n) ∧ (s.cutStarted k c n).sst.lastDevice = s.sst.lastDevice ∧
    (s.cutStarted k c n).wpe = (s.cut.setChain k (some { c with begun := true, left := n })).wpe := by
  obtain ⟨hk, hr, hd, hs, hl, he, hsst, -⟩ := setChain_parts s.cut k (some { c with begun := true, left := n })
  refine ⟨(cut_done s h).later hk hr hd hs hl (by rw [State.cutStarted, he]), ((cut_framed s).trans (setChain_framed ..)).mono (by decide), ?_, ?_, rfl⟩
  · exact ((cut_writes s).trans (vs := []) (writesOnly_of_eq (by rw [State.cutStarted, hsst]) (by rw [State.cutStarted, hsst])
      (by rw [State.cutStarted, hsst]) _)).mono (by simp)
  · rw [State.cutStarted, hsst]
    simp

/-- With something to cut: the step's own records. -/
theorem beginCut_writes (h : Shaped s) (hn : s.nothingToCut = false) :
    let t := s.beginCut k c
    let work := Waiter.stepWork k c.no
    CutBegun k c s t ∧ t.btc = s.btc ∧ ChainBegun k { c with begun := true, left := 27 + s.enabledRanges.length } s t ∧
      ((s.slot 23).state = .live → WritesOnly ((List.range 23).map StoreUnit.key ++ s.enabledRanges.map StoreUnit.range ++
        [.stage, .rekeyQueue, .rekeyProgress, .device]) s t) ∧
      (∀ x < 23, t.holds (.key x) (.key .blank) work) ∧
      (∀ r g, s.fields r = some g → t.holds (.range r) (t.recordOf (.range r)) work) ∧ t.holds .stage (.stage .blank) work ∧
      t.recordOf .rekeyQueue = .rekeyQueue { serial := s.rke.serial, ranges := [], active := none } ∧
      t.queuePartAwaits work ∧ t.recordOf .rekeyProgress = .rekeyProgress none ∧ t.progressAwaits work ∧
      t.holds .device (.device t.sst.lastDevice) work := by
  intro t work
  have hunits := cutUnits_cut h
  have hleft : s.cut.cutUnits.length + 3 = 27 + s.enabledRanges.length := by
    rw [hunits]
    simp
    omega
  have ht : t = ((s.cutStarted k c (27 + s.enabledRanges.length)).writeAll s.cut.cutUnits work).partsWritten work :=
    hleft ▸ beginCut_some hn
  obtain ⟨hdone, hframe, honly, hlast, hwpe⟩ := cutStarted_done (k := k) (c := c) h (27 + s.enabledRanges.length)
  have hrke : ((s.cutStarted k c (27 + s.enabledRanges.length)).writeAll s.cut.cutUnits work).rke =
      (s.cutStarted k c (27 + s.enabledRanges.length)).rke := by simp
  obtain ⟨hpframe, hponly, hprke, hpdevice, hpholds, hpkst, hprtb, hpdpu, hpsent, hplif, hpwpe, hpbtc, hqueue, hprogress⟩ :=
    partsWritten_effect (u := (s.cutStarted k c (27 + s.enabledRanges.length)).writeAll s.cut.cutUnits work) work
      (by rw [hrke, hdone.sweep]; exact rfl) (by rw [hrke, hdone.sweep]; exact rfl)
  rw [← ht] at hpframe hponly hprke hpdevice hpholds hpkst hprtb hpdpu hpsent hplif hpwpe hpbtc hqueue hprogress
  have hcut : CutDone s t := hdone.later (by rw [hpkst]; simp) (by rw [hprtb]; simp) (by rw [hpdpu]; simp) (by rw [hpsent]; simp)
    (by rw [hplif]; simp) (by rw [hprke, hrke])
  have hbtc : t.btc = s.btc := by
    rw [hpbtc]
    simp [State.cutStarted]
  have held : ∀ u ∈ s.cut.cutUnits, u ∉ [StoreUnit.rekeyQueue, .rekeyProgress, .device] →
      t.holds u ((s.cutStarted k c (27 + s.enabledRanges.length)).recordOf u) work := fun u hu hn =>
    hponly.keeps_holds hn (writeAll_holds _ _ _ _ hu)
  obtain ⟨hrq, hrp⟩ := recordOf_rekey_idle (s := t) (by rw [hcut.sweep]; exact rfl) (by rw [hcut.sweep]; exact rfl)
  have hserial : t.rke.serial = s.rke.serial := by
    rw [hcut.sweep]
    exact rfl
  refine ⟨⟨((hframe.trans (writeAll_framed ..)).trans hpframe).mono (by decide), hcut, ?_⟩, hbtc, ?_, fun hl => ?_, fun x hx => ?_,
    fun r g hg => ?_, ?_, hserial ▸ hrq, hqueue, hrp, hprogress, hpholds⟩
  · rw [hpdevice]
    simp [hlast]
  · exact chainBegun_of (u := s.cut) (by simp) (by rw [hpwpe, ← hwpe]; simp)
  · refine ((honly.trans (writeAll_only s.cut.cutUnits work _)).trans hponly).mono fun u hu => ?_
    rw [hunits] at hu
    have hpool := retiringUnits_pool h hl u
    simp only [List.mem_append, List.mem_cons, List.not_mem_nil, or_false] at hu ⊢
    tauto
  · have hrecord : (s.cutStarted k c (27 + s.enabledRanges.length)).recordOf (.key x) = .key .blank := by
      simp only [State.recordOf, hdone.blank x hx]
      exact rfl
    exact hrecord ▸ held (.key x) (by rw [hunits]; simp [hx]) (by simp)
  · have hrecord : t.recordOf (.range r) = (s.cutStarted k c (27 + s.enabledRanges.length)).recordOf (.range r) :=
      recordOf_range_of_eq (by rw [hpbtc]; simp) (by simp [State.entry, hprtb])
    have hr : r ∈ s.enabledRanges :=
      List.mem_filter.mpr ⟨List.mem_range.mpr (Shaped.entries h ▸ fields_lt s r g hg), by simp [hg]⟩
    rw [hrecord]
    exact held (.range r) (by rw [hunits]; simp [hr]) (by simp)
  · have hrecord : (s.cutStarted k c (27 + s.enabledRanges.length)).recordOf .stage = .stage .blank := congrArg Record.stage hdone.staged
    exact hrecord ▸ held .stage (by rw [hunits]; simp) (by simp)

/-- With nothing left to cut: the DEVICE record alone. -/
theorem beginCut_writesDevice (h : Shaped s) (hn : s.nothingToCut = true) (hb : s.sst.lastDevice.boot ≠ .erased) :
    let t := s.beginCut k c
    CutBegun k c s t ∧ t.btc = s.btc ∧ ChainBegun k { c with begun := true, left := 1 } s t ∧
      ((s.slot 23).state = .live → WritesOnly [.device] s t) ∧ t.holds .device (.device t.sst.lastDevice) (.stepWork k c.no) := by
  intro t
  have ht : t = (s.cutStarted k c 1).writeDevice (.withBoot .erased) [.stepWork k c.no] := beginCut_device hn hb
  obtain ⟨hdone, hframe, honly, hlast, hwpe⟩ := cutStarted_done (k := k) (c := c) h 1
  have hdevice : t.sst.lastDevice = { s.sst.lastDevice with boot := .erased } := by
    rw [ht, ← hlast]
    simp [State.writeDevice, DeviceRecord.withBoot]
  refine ⟨⟨?_, hdone.later ?_ ?_ ?_ ?_ ?_ ?_, hdevice⟩, ?_, chainBegun_of (u := s.cut) ?_ ?_, fun hl => ?_, ?_⟩
  · rw [ht]
    exact (hframe.trans (writeDevice_framed ..)).mono (by decide)
  · rw [ht]; simp
  · rw [ht]; simp
  · rw [ht]; simp
  · rw [ht]; simp
  · rw [ht]; simp
  · rw [ht]; simp
  · rw [ht]; simp [State.cutStarted]
  · simp
  · rw [ht, ← hwpe]; simp
  · have hnone := retiringUnits_none h hn hl
    rw [hnone] at honly
    rw [ht]
    exact honly.trans (us := []) (writeDevice_only _ _ _)
  · rw [hdevice, ht, ← hlast]
    exact writeDevice_holds _ _ _ (List.mem_singleton_self _)

/-- With nothing left to cut and the boot field ERASED already the step completes at once. -/
theorem beginCut_completes {l : List WipeStep} (h : Shaped s) (hn : s.nothingToCut = true) (hb : s.sst.lastDevice.boot = .erased)
    (hs : c.steps = .cutKeys :: l) :
    let t := s.beginCut k c
    CutBegun k c s t ∧ t.btc = { s.btc with state := .erased } ∧ StepEnded k c t ∧ (∀ x, x ≠ k → t.chain x = s.chain x) ∧
      t.wpe.nextNo = s.wpe.nextNo ∧ ((s.slot 23).state = .live → WritesOnly [.wipe] s t) := by
  intro t
  have ht : t = (s.cutStarted k c c.left).finishStep k := beginCut_done hn hb
  obtain ⟨hdone, hframe, honly, hlast, hwpe⟩ := cutStarted_done (k := k) (c := c) h c.left
  have hchain : (s.cutStarted k c c.left).chain k = some { c with begun := true } := chain_setChain ..
  obtain ⟨hfframe, hfonly, hended, hother, hboot⟩ := finishStep_ended hchain hs
  have hnext := (congrArg (fun u : State => u.wpe.nextNo) (finishStep_eq hchain hs)).trans (stepCompleted_nextNo ..)
  rw [← ht] at hfframe hfonly hended hother hboot hnext
  have hcut : CutDone s t := hdone.later (by rw [ht]; simp) (by rw [ht]; simp) (by rw [ht]; simp) (by rw [ht]; simp)
    (by rw [ht]; simp) (by rw [ht]; simp)
  refine ⟨⟨(hframe.trans hfframe).mono (by decide), hcut, ?_⟩, ?_, hended, fun x hx => ?_, ?_, fun hlive => ?_⟩
  · have hsame : t.sst.lastDevice = s.sst.lastDevice := by
      rw [ht, ← hlast]
      simp
    rw [hsame, ← hb]
  · rw [hboot]
    simp [WipeStep.bootAfter, State.cutStarted]
  · exact (hother x hx).trans ((chain_setChain_other _ hx _).trans (by cases x <;> simp [State.chain]))
  · exact hnext.trans ((setChain_nextNo ..).trans (by simp))
  · have hnone := retiringUnits_none h hn hlive
    rw [hnone] at honly
    exact honly.trans (us := []) hfonly

end cut

end Sys2Proof.Machine


/-! RESET_TABLE begins (O54): the BLANK configuration, the writes of the step, and the beginnings of the other steps. -/

namespace Sys2Proof.Machine

/-! ### The BLANK configuration (R145) -/

/-- R145: range 0's key slot as the step generates it, before the load. -/
def KeySlot.sealedFor (key : DataKey) (rak : Rak) : KeySlot :=
  { state := .live, owner := some 0, material := some { key := key, rak := rak, whole := true }, users := 0, copy := none, erasing := false }

/-- R145: range 0 of the BLANK configuration. -/
def RangeFields.reset (rak : Rak) : RangeFields := { RangeFields.blank 0 rak with readLocked := false, writeLocked := false }

/-- R145: the incident, the settings and the count of the BLANK configuration. -/
def Response.reset (x : Response) : Response :=
  { x with
    level := .calm, firstCause := none, lastCause := none, timer := none, wipeLevel := .calm
    settings := Setting.defaults, purgeAllowed := false, alarmMinimum := Config.defaultAlarm
    absenceThreshold := Config.defaultAbsence, absence := 0 }

/-- R145: the BLANK configuration before range 0 is loaded, once the CLEAR contexts have ended. -/
def State.resetFrom (u : State) : State :=
  let t := (u.cutSlots.bump.mapSlot 0 (fun _ => .sealedFor { issue := u.fresh + 1 } { issue := u.fresh })).bump
  { t with
    rtb := { t.rtb with
      entries := .enabled (RangeFields.reset { issue := u.fresh }) :: List.replicate 15 .disabled, resealOnWake := false, staged := .blank }
    rsu := t.rsu.reset
    btc := { t.btc with token := none } }

section reset
variable {u : State} (hlen : u.kst.slots.length = 24)
include hlen

theorem cutSlots_emptySlot : u.cutSlots.bump.emptySlot = some 0 := by
  have hslot : (u.cutSlots.bump.slot 0).state = .empty := by
    rw [show u.cutSlots.bump.slot 0 = u.cutSlots.slot 0 from rfl, slot_cutSlots u hlen 0]
    exact rfl
  unfold State.emptySlot
  rw [List.range_succ_eq_map, List.find?_cons_of_pos (by simp [hslot])]

theorem cutSlots_generate : u.cutSlots.bump.generate 0 { issue := u.fresh } =
    ((u.cutSlots.bump.mapSlot 0 (fun _ => .sealedFor { issue := u.fresh + 1 } { issue := u.fresh })).bump, some 0) := by
  have hload : (u.cutSlots.bump.load 0).rak? = none := by
    rw [show u.cutSlots.bump.load 0 = u.cutSlots.load 0 from rfl, load_cutSlots]
    exact rfl
  simp only [State.generate, cutSlots_emptySlot hlen, hload]
  exact rfl

theorem blankTable_eq {s : State} (hu : u = s.abortCut) : s.blankTable = (u.resetFrom.loadRange 0 (u.resetFrom.openDevice 0)).1 := by
  have hgen := cutSlots_generate hlen
  subst hu
  unfold State.blankTable State.newRak
  dsimp only
  rw [show s.abortCut.cutSlots.fresh = s.abortCut.fresh from rfl, hgen]
  exact rfl

theorem resetFrom_slot (x : Nat) : u.resetFrom.slot x =
    if x = 0 then .sealedFor { issue := u.fresh + 1 } { issue := u.fresh } else if x < 23 then .blank else u.slot x := by
  have hslots : u.resetFrom.slot x = (u.cutSlots.mapSlot 0 (fun _ => .sealedFor { issue := u.fresh + 1 } { issue := u.fresh })).slot x := rfl
  have hcut : u.cutSlots.kst.slots.length = 24 := by simp [State.cutSlots, hlen]
  rw [hslots, slot_mapSlot, hcut, slot_cutSlots u hlen]
  by_cases hx : x = 0
  · subst hx
    simp
  · simp [hx]

omit hlen in
theorem resetFrom_load (r : Nat) : u.resetFrom.load r = .notLoaded := load_cutSlots u r

omit hlen in
theorem resetFrom_range : u.resetFrom.fields 0 = some (RangeFields.reset { issue := u.fresh }) := rfl

omit hlen in
theorem resetFrom_disabled {r : Nat} (h : r < 16) (hr : 0 < r) : u.resetFrom.entry r = .disabled := by
  obtain ⟨q, rfl⟩ : ∃ q, r = q + 1 := ⟨r - 1, by omega⟩
  have hq : (List.replicate 15 Entry.disabled)[q]? = some .disabled := by
    rw [List.getElem?_replicate, if_pos (by omega)]
  exact congrArg (fun e : Option Entry => e.getD .disabled) hq

theorem resetFrom_loads (hs : Shaped u.resetFrom) : ∃ t, u.resetFrom.loadRange 0 (u.resetFrom.openDevice 0) = (t, true) ∧
    LoadsDone [0] (fun _ => some { issue := u.fresh }) u.resetFrom t ∧ t.rtb = u.resetFrom.rtb := by
  have hopen : u.resetFrom.openDevice 0 = some { issue := u.fresh } := rfl
  rw [hopen]
  refine loadRange_loads hs rfl (g := RangeFields.reset { issue := u.fresh }) rfl (.inr (by simp)) fun k _ hk x hx _ _ => ?_
  obtain rfl := Option.some.inj hk
  obtain rfl : x = 0 := List.mem_singleton.mp hx
  rw [resetFrom_slot hlen, if_pos rfl]
  exact ⟨_, rfl, rfl, rfl⟩

end reset

/-- The pieces of state that RESET_TABLE may change. -/
def resetPieces : List Piece :=
  [.wipe, .keySlots, .loads, .hold, .ranges, .commit, .data, .rekey, .response, .boot, .writes, .device, .names, .sent]

theorem resetFrom_framed (u : State) : Framed [.keySlots, .loads, .hold, .ranges, .commit, .response, .boot, .names] u u.resetFrom := by
  refine ⟨rfl, fun q hq => ?_⟩
  cases q <;> simp_all [Piece.same, State.resetFrom, State.cutSlots]

/-- What RESET_TABLE has made of the table and the Key Store, before its writes are placed. -/
structure TableReset (s t : State) : Prop where
  framed : Framed [.keySlots, .loads, .hold, .ranges, .commit, .data, .rekey, .response, .boot, .writes, .names, .sent] s t
  aborted : ClearAborted .keysCut s t
  flights : t.dpu.flights = s.dpu.flights
  range : t.fields 0 = some (RangeFields.reset { issue := s.fresh })
  disabled : ∀ r < 16, 0 < r → t.entry r = .disabled
  table : t.rtb = { s.rtb with entries := t.rtb.entries, resealOnWake := false, staged := .blank }
  key : t.slot 0 = { KeySlot.sealedFor { issue := s.fresh + 1 } { issue := s.fresh } with copy := some { issue := s.fresh + 1 } }
  pool : ∀ x < 23, 0 < x → t.slot x = .blank
  scratch : (t.slot 23).state = (s.slot 23).state ∧ (t.slot 23).material = (s.slot 23).material ∧
    ((s.slot 23).state = .live → (t.slot 23).copy = (s.slot 23).copy)
  open0 : t.load 0 = .loaded { issue := s.fresh }
  loads : ∀ r, 0 < r → t.load r = .notLoaded
  reservation : t.kst.reservation = 0
  fresh : t.fresh = s.fresh + 2
  quiet : (∀ j, s.headJob = some j → j.state ≠ .paused) → t.kst.hold = none ∧ t.rke = s.rke ∧ WritesOnly s.retiringUnits s t
  response : t.rsu = s.rsu.reset
  boot : t.btc = { s.btc with token := none }
  rest : t.sst.lastDevice = s.sst.lastDevice ∧ t.wpe = s.wpe ∧ t.lif = s.lif
  shaped : Shaped t

theorem resetFrom_shaped {u : State} (h : Shaped u) : Shaped u.resetFrom := by
  obtain ⟨hcreds, hchallenges, hslots, hloads, -, hcontexts, -, hunits⟩ := h
  refine ⟨hcreds, hchallenges, ?_, ?_, rfl, hcontexts, rfl, hunits⟩
  · simp [State.resetFrom, State.cutSlots, State.mapSlot, State.bump, hslots]
  · simp [State.resetFrom, State.cutSlots, State.mapSlot, State.bump, hloads]

/-- What the load of range 0 adds to the BLANK configuration. -/
theorem resetFrom_loaded {u t : State} (hlen : u.kst.slots.length = 24)
    (h : LoadsDone [0] (fun _ => some { issue := u.fresh }) u.resetFrom t) :
    t.slot 0 = { KeySlot.sealedFor { issue := u.fresh + 1 } { issue := u.fresh } with copy := some { issue := u.fresh + 1 } } ∧
      (∀ x, 0 < x → t.slot x = { u.resetFrom.slot x with users := (t.slot x).users }) ∧ (∀ x, (t.slot x).users = (u.resetFrom.slot x).users) ∧
      t.load 0 = .loaded { issue := u.fresh } ∧ ∀ r, 0 < r → t.load r = .notLoaded := by
  obtain ⟨hin, hout, -, hslots⟩ := h.keys
  have hzero : u.resetFrom.slot 0 = .sealedFor { issue := u.fresh + 1 } { issue := u.fresh } := (resetFrom_slot hlen 0).trans (if_pos rfl)
  have hunwraps : ∀ x, u.resetFrom.unwraps 0 x ↔ x = 0 := fun x => by
    constructor
    · exact fun hx => List.mem_singleton.mp hx.1
    · rintro rfl
      exact ⟨List.mem_singleton_self _, by rw [hzero]; exact rfl, by simp [State.owns, hzero, KeySlot.sealedFor]⟩
  have husers : ∀ x, (t.slot x).users = (u.resetFrom.slot x).users := fun x => by
    by_cases hr : ∃ j, Resumes [0] u.resetFrom j
    · obtain ⟨j, hj⟩ := hr
      have hrange : j.range = 0 := List.mem_singleton.mp hj.2.2.1
      obtain ⟨-, -, -, hsame⟩ := h.sweep.1 j hj
      refine (hsame fun g hg => ?_).2 x
      rw [hrange, resetFrom_range] at hg
      obtain rfl := Option.some.inj hg
      exact rfl
    · exact (h.still (not_exists.mp hr)).2.2.1 x
  refine ⟨?_, fun x hx => ?_, husers, hin 0 (by simp) _ (.inr ⟨resetFrom_load 0, rfl⟩), fun r hr => ?_⟩
  · obtain ⟨htaken, -, heq⟩ := hslots 0
    have hcopy := htaken ⟨0, by simp, resetFrom_load 0, (hunwraps 0).mpr rfl⟩
    rw [heq, hcopy, husers, hzero]
    exact rfl
  · obtain ⟨-, hleft, heq⟩ := hslots x
    have hcopy : (t.slot x).copy = (u.resetFrom.slot x).copy := hleft fun ⟨r, hr, _, hx'⟩ => by
      obtain rfl := List.mem_singleton.mp hr
      exact absurd ((hunwraps x).mp hx') (by omega)
    rw [heq, hcopy]
  · exact (hout r (by simp; omega)).trans (resetFrom_load r)

theorem resetFrom_parts (u : State) : u.resetFrom.dpu = u.dpu ∧ u.resetFrom.sent = u.sent ∧ u.resetFrom.rke = u.rke ∧
    u.resetFrom.kst.hold = none ∧ u.resetFrom.kst.reservation = 0 ∧ u.resetFrom.fresh = u.fresh + 2 ∧ u.resetFrom.rsu = u.rsu.reset ∧
    u.resetFrom.btc = { u.btc with token := none } ∧ u.resetFrom.sst = u.sst ∧ u.resetFrom.wpe = u.wpe ∧ u.resetFrom.lif = u.lif ∧
    u.resetFrom.rtb = { u.rtb with entries := u.resetFrom.rtb.entries, resealOnWake := false, staged := .blank } :=
  ⟨rfl, rfl, rfl, rfl, rfl, rfl, rfl, rfl, rfl, rfl, rfl, rfl⟩

/-- Once the contexts of the cut have ended, as u, the rest of the step's beginning gives the BLANK configuration. -/
theorem tableReset_of {s u t : State} (hlen : u.kst.slots.length = 24) (haborted : ClearAborted .keysCut s u)
    (hflights : u.dpu.flights = s.dpu.flights) (hrefs : RefsGo s u) (habort : Framed [.sent, .data, .keySlots, .loads, .writes] s u)
    (hulif : u.lif = s.lif) (hurtb : u.rtb = s.rtb) (ht : u.resetFrom.loadRange 0 (u.resetFrom.openDevice 0) = (t, true))
    (hloads : LoadsDone [0] (fun _ => some { issue := u.fresh }) u.resetFrom t) (hrtb : t.rtb = u.resetFrom.rtb) : TableReset s t := by
  have hframe := loadRange_framed u.resetFrom 0 (u.resetFrom.openDevice 0)
  have hlif := State.loadRange_lif u.resetFrom 0 (u.resetFrom.openDevice 0)
  rw [ht] at hframe hlif
  have hfresh : u.fresh = s.fresh := habort.2 .names (by decide)
  have hrke : u.rke = s.rke := habort.2 .rekey (by decide)
  have hrsu : u.rsu = s.rsu := habort.2 .response (by decide)
  have hbtc : u.btc = s.btc := habort.2 .boot (by decide)
  have hwpe : u.wpe = s.wpe := habort.2 .wipe (by decide)
  have hdevice : u.sst.lastDevice = s.sst.lastDevice := habort.2 .device (by decide)
  obtain ⟨hpdpu, hpsent, hprke, hphold, hpres, hpfresh, hprsu, hpbtc, hpsst, hpwpe, hplif, hprtb⟩ := resetFrom_parts u
  obtain ⟨hzero, hothers, husers, hopen, hclosed⟩ := resetFrom_loaded hlen hloads
  rw [hfresh] at hzero hopen hpfresh
  rw [hrke] at hprke
  have hslot : ∀ x, 0 < x → t.slot x = u.resetFrom.slot x := fun x hx => by rw [hothers x hx, husers]
  refine ⟨((habort.trans (resetFrom_framed u)).trans hframe).mono (by decide), ⟨fun c hc => ?_, fun c hc x hx hp => ?_⟩,
    ?_, ?_, fun r hr h0 => ?_, ?_, hzero, fun x hx h0 => ?_, ?_, hopen, hclosed, hloads.keys.2.2.1.trans hpres, ?_, fun hq => ?_, ?_, ?_, ?_,
    hloads.shaped⟩
  · rw [State.ctx, hloads.dpu, hpdpu]
    exact haborted.1 c hc
  · rw [hloads.sent, hloads.dpu, hpsent, hpdpu]
    exact haborted.2 c hc x hx hp
  · rw [hloads.dpu, hpdpu]
    exact hflights
  · have hfields : t.fields 0 = u.resetFrom.fields 0 := by simp only [State.fields, State.entry, hrtb]
    rw [hfields, resetFrom_range, hfresh]
  · rw [State.entry, hrtb]
    exact resetFrom_disabled hr h0
  · rw [hrtb, ← hurtb]
    exact hprtb
  · rw [hslot x h0, resetFrom_slot hlen, if_neg (by omega), if_pos hx]
  · rw [hslot 23 (by decide), resetFrom_slot hlen, if_neg (by decide), if_neg (by decide)]
    exact ⟨(hrefs.state 23).1, (hrefs.state 23).2.1, hrefs.start⟩
  · exact (hframe.2 .names (by decide)).trans hpfresh
  · have hnone : ∀ j, ¬ Resumes [0] u.resetFrom j := fun j hj => by
      refine hq j ?_ hj.2.1
      rw [State.headJob, ← hprke]
      exact hj.1
    obtain ⟨hsweep, hhold, -, honly⟩ := hloads.still hnone
    have hreset : WritesOnly [] u u.resetFrom := writesOnly_of_eq (by rw [hpsst]) (by rw [hpsst]) (by rw [hpsst]) _
    exact ⟨hhold.trans hphold, hsweep.trans hprke, ((hrefs.writes.trans hreset).trans honly).mono (by simp)⟩
  · exact (hframe.2 .response (by decide)).trans (hprsu.trans (by rw [hrsu]))
  · exact (hframe.2 .boot (by decide)).trans (hpbtc.trans (by rw [hbtc]))
  · refine ⟨(hframe.2 .device (by decide)).trans (by rw [hpsst, hdevice]), (hframe.2 .wipe (by decide)).trans (hpwpe.trans hwpe), ?_⟩
    exact hlif.trans (hplif.trans hulif)

theorem blankTable_reset {s : State} (h : Shaped s) : TableReset s s.blankTable := by
  have hkeeps : Keeps s s.abortCut := s.abortAll_keeps .keysCut (fun x => x.mode == .clear)
  have hlen : s.abortCut.kst.slots.length = 24 := Shaped.keySlots (hkeeps.shaped h)
  obtain ⟨t, ht, hloads, hrtb⟩ := resetFrom_loads hlen (resetFrom_shaped (hkeeps.shaped h))
  obtain ⟨haborted, hflights⟩ := State.abortAll_aborted s .keysCut (fun x => x.mode == .clear) h
  rw [(blankTable_eq hlen rfl).trans (congrArg Prod.fst ht)]
  exact tableReset_of hlen haborted hflights (refsGo_abortAll ..) (abortAll_framed ..)
    (State.abortAll_lif s .keysCut (fun x => x.mode == .clear)) (by simp [State.abortCut]) ht hloads hrtb

/-! ### RESET_TABLE begins (R145) -/

section begin
variable {s : State} {k : ChainKind} {c : Chain}

/-- The pool slots whose KEY records the step writes. -/
def State.resetSlots (s : State) : List Nat := (List.range 23).filter (fun x => (s.slot x).state != .empty || x == 0)

/-- The records that the step writes, but for the DEVICE record. -/
def State.resetUnits (s : State) : List StoreUnit :=
  (List.range 16).map StoreUnit.range ++ s.resetSlots.map StoreUnit.key ++ [.response] ++ (List.range 8).map StoreUnit.evset

/-- The chain's step has begun, with n writes still to complete. -/
def State.resetStarted (s : State) (k : ChainKind) (c : Chain) (n : Nat) : State :=
  s.blankTable.setChain k (some { c with begun := true, left := n })

theorem beginReset_eq (h : Shaped s) : s.beginReset k c = ((s.resetStarted k c (26 + s.resetSlots.length)).writeAll s.resetUnits
    (.stepWork k c.no)).writeDevice DeviceRecord.reset [.stepWork k c.no] := by
  have hreset := blankTable_reset h
  have hslots : (List.range 23).filter (fun i => (s.slot i).state != .empty || (s.blankTable.slot i).state != .empty) = s.resetSlots := by
    refine List.filter_congr fun x hx => ?_
    by_cases h0 : x = 0
    · subst h0
      simp [hreset.key, KeySlot.sealedFor]
    · rw [hreset.pool x (List.mem_range.mp hx) (by omega)]
      simp [KeySlot.blank, h0]
  have hunits : (List.range 16).map StoreUnit.range ++ s.resetSlots.map StoreUnit.key ++ [.response] ++ (List.range 8).map StoreUnit.evset =
      s.resetUnits := rfl
  have hlen : s.resetUnits.length + 1 = 26 + s.resetSlots.length := by
    simp [State.resetUnits]
    omega
  unfold State.beginReset
  dsimp only
  rw [hslots, hunits, hlen]
  exact rfl

theorem recordOf_writeDevice (s : State) (g : DeviceRecord → DeviceRecord) (ws : List Waiter) {u : StoreUnit} (hu : u ≠ .device) :
    (s.writeDevice g ws).recordOf u = s.recordOf u := by
  refine (place_recordOf ..).trans ?_
  cases u with
  | device => exact absurd rfl hu
  | _ => exact rfl

theorem beginReset_effect (h : Shaped s) :
    let t := s.beginReset k c
    let work := Waiter.stepWork k c.no
    Framed resetPieces s t ∧ ChainBegun k { c with begun := true, left := 26 + s.resetSlots.length } s t ∧
      t.kst = s.blankTable.kst ∧ t.rtb = s.blankTable.rtb ∧ t.dpu = s.blankTable.dpu ∧ t.sent = s.blankTable.sent ∧ t.rke = s.blankTable.rke ∧
      t.rsu = s.rsu.reset ∧ t.btc = s.blankTable.btc ∧ t.fresh = s.blankTable.fresh ∧
      t.sst.lastDevice = .blank s.sst.lastDevice.labelVerifier s.sst.lastDevice.imageSize ∧
      WritesOnly (s.resetUnits ++ [.device]) s.blankTable t ∧ (∀ u ∈ s.resetUnits, t.holds u (t.recordOf u) work) ∧
      t.holds .device (.device t.sst.lastDevice) work := by
  intro t work
  have ht : t = ((s.resetStarted k c (26 + s.resetSlots.length)).writeAll s.resetUnits work).writeDevice DeviceRecord.reset [work] :=
    beginReset_eq h
  have hreset := blankTable_reset h
  obtain ⟨hlast, hwpe, -⟩ := hreset.rest
  obtain ⟨ek, er, ed, es, el, ee, esst, eb⟩ := setChain_parts s.blankTable k (some { c with begun := true, left := 26 + s.resetSlots.length })
  have hdevice : t.sst.lastDevice = .blank s.sst.lastDevice.labelVerifier s.sst.lastDevice.imageSize := by
    rw [ht, ← hlast]
    simp [State.writeDevice, State.resetStarted, DeviceRecord.reset]
  have hunit : ∀ u ∈ s.resetUnits, u ≠ .device := by
    rintro u hu rfl
    simp [State.resetUnits] at hu
  have hstarted : WritesOnly [] s.blankTable (s.resetStarted k c (26 + s.resetSlots.length)) :=
    writesOnly_of_eq (by rw [State.resetStarted, esst]) (by rw [State.resetStarted, esst]) (by rw [State.resetStarted, esst]) _
  have hrecord : ∀ u, u ≠ .device → t.recordOf u = (s.resetStarted k c (26 + s.resetSlots.length)).recordOf u := fun u hu => by
    rw [ht, recordOf_writeDevice _ _ _ hu, writeAll_recordOf]
  refine ⟨?_, ?_, ?_, ?_, ?_, ?_, ?_, ?_, ?_, ?_, hdevice, ?_, ?_, ?_⟩
  · rw [ht]
    exact (((hreset.framed.trans (setChain_framed ..)).trans (writeAll_framed ..)).trans (writeDevice_framed ..)).mono (by decide)
  · exact chainBegun_of (u := s.blankTable) hwpe (by rw [ht]; simp [State.resetStarted])
  · rw [ht]; simp [State.resetStarted]
  · rw [ht]; simp [State.resetStarted]
  · rw [ht]; simp [State.resetStarted]
  · rw [ht]; simp [State.resetStarted]
  · rw [ht]; simp [State.resetStarted]
  · rw [ht, ← hreset.response]; simp [State.resetStarted]
  · rw [ht]; simp [State.resetStarted]
  · rw [ht]; simp [State.resetStarted]
  · rw [ht]
    exact (hstarted.trans (writeAll_only s.resetUnits work _)).trans (us := s.resetUnits) (writeDevice_only _ _ _)
  · intro u hu
    rw [hrecord u (hunit u hu), ht]
    exact (writeDevice_only _ _ _).keeps_holds (by simpa using hunit u hu) (writeAll_holds _ _ _ _ hu)
  · have hold : ((s.resetStarted k c (26 + s.resetSlots.length)).writeAll s.resetUnits work).sst.lastDevice = s.sst.lastDevice := by
      simp [State.resetStarted]
    have hholds := writeDevice_holds ((s.resetStarted k c (26 + s.resetSlots.length)).writeAll s.resetUnits work) DeviceRecord.reset [work]
      (List.mem_singleton_self work)
    rw [hold, ← ht] at hholds
    rw [hdevice]
    exact hholds

end begin

end Sys2Proof.Machine


/-! The steps of a chain begin (O54). -/

namespace Sys2Proof.Machine

/-! ### The conditions of a step (R139, R140) -/

/-- R139, R140: the current step of chain c is a, and it may begin. -/
def StepReady (k : ChainKind) (s : State) (c : Chain) (a : WipeStep) : Prop :=
  s.chain k = some c ∧ c.steps.head? = some a ∧ c.begun = false ∧ c.durable = true ∧
    ((k = .normal → s.wpe.injected = none) ∧
      (k = .injected → ∀ x, s.wpe.normal = some x →
        x.recording = false ∧ (x.begun = true → ∀ a l, x.steps = a :: l → ∃ n q, a = .fill n q))) ∧
    s.lif.started = true ∧ s.sst.power.supplied = true ∧ s.sst.downMark = false ∧
    (a = .cutKeys → s.rtb.commit.phase ≠ .writing ∧ s.btc.provisioning = none) ∧
    (∀ n q, a = .fill n q → s.sst.power = .active)

theorem stepReady_state_iff (s : State) (a : WipeStep) : s.stepReady a = true ↔
    (a = .cutKeys → s.rtb.commit.phase ≠ .writing ∧ s.btc.provisioning = none) ∧ (∀ n q, a = .fill n q → s.sst.power = .active) := by
  cases a <;> simp [State.stepReady]

theorem stepReady_iff {k : ChainKind} {s : State} {c : Chain} {a : WipeStep} {l : List WipeStep} (hc : s.chain k = some c)
    (hs : c.steps = a :: l) : StepReady k s c a ↔ s.canBegin k c a = true := by
  unfold StepReady
  rw [← mayTake_iff, ← stepReady_state_iff]
  simp [State.canBegin, hc, hs, and_assoc]

section begin
variable {k : ChainKind} {s : State} {c : Chain}

theorem StepReady.steps {a : WipeStep} (h : StepReady k s c a) : ∃ l, c.steps = a :: l := by
  obtain ⟨-, hs, -⟩ := h
  exact List.head?_eq_some_iff.mp hs

theorem beginStep_idle (h : ∀ c a, ¬ StepReady k s c a) : s.beginStep k = s := by
  unfold State.beginStep
  cases hc : s.chain k with
  | none => exact rfl
  | some c =>
    dsimp only
    cases hs : c.steps with
    | nil => exact rfl
    | cons a l => exact if_neg fun hb => h c a ((stepReady_iff hc hs).mpr hb)

theorem beginStep_cut (h : StepReady k s c .cutKeys) : s.beginStep k = s.beginCut k c := by
  obtain ⟨l, hs⟩ := h.steps
  simp only [State.beginStep, h.1, hs, (stepReady_iff h.1 hs).mp h, if_pos]

theorem beginStep_credentials (h : StepReady k s c .cutCredentials) : s.beginStep k = s.beginCutCredentials k c := by
  obtain ⟨l, hs⟩ := h.steps
  simp only [State.beginStep, h.1, hs, (stepReady_iff h.1 hs).mp h, if_pos]

theorem beginStep_fill {n : Option Nat} {q : Nat} (h : StepReady k s c (.fill n q)) : s.beginStep k = s.beginFill k c n q := by
  obtain ⟨l, hs⟩ := h.steps
  simp only [State.beginStep, h.1, hs, (stepReady_iff h.1 hs).mp h, if_pos]

theorem beginStep_reset (h : StepReady k s c .resetTable) : s.beginStep k = s.beginReset k c := by
  obtain ⟨l, hs⟩ := h.steps
  simp only [State.beginStep, h.1, hs, (stepReady_iff h.1 hs).mp h, if_pos]

/-! ### CUT_CREDENTIALS and FILL begin (R142, R143) -/

/-- R60: the step waits for the changes in progress. -/
theorem beginCutCredentials_waits (h : s.cru.ops ≠ []) :
    s.beginCutCredentials k c = s.setChain k (some { c with begun := true, waitsCreds := true }) := by
  unfold State.beginCutCredentials State.resumeCutCredentials
  rw [chain_setChain]
  exact if_neg (by simp [h])

theorem beginCutCredentials_cuts (h : s.cru.ops = []) : s.beginCutCredentials k c =
    (s.setChain k (some { c with begun := true, waitsCreds := true })).cutCredentials k :=
  resumeCutCredentials_cuts (chain_setChain ..) rfl (by simp [h])

/-- R143: the chain whose FILL has begun, with the count recorded before or the capacity. -/
def Chain.filling (c : Chain) (count : Nat) (q : Nat) : Chain :=
  { c with begun := true, left := 1, above := [], steps := .fill (some count) q :: c.steps.tail }

theorem beginFill_eq (n : Option Nat) (q : Nat) : s.beginFill k c n q =
    (s.setChain k (some (c.filling (n.getD s.lif.capacity) q))).write .wipe [.fillProgress k c.no] := by
  unfold State.beginFill Chain.filling
  rw [List.drop_one]

/-- R145: of what the cut of the pool and the step write, the units. -/
theorem mem_resetWrites (hs : Shaped s) (hl : (s.slot 23).state = .live) (u : StoreUnit) (h : u ∈ s.retiringUnits ++ (s.resetUnits ++ [.device])) :
    u ∈ (List.range 16).map StoreUnit.range ++ s.resetSlots.map StoreUnit.key ++ (List.range 8).map StoreUnit.evset ++ [.response, .device] := by
  have hkeys : u ∈ s.retiringUnits → u ∈ s.resetSlots.map StoreUnit.key := fun hu => by
    obtain ⟨x, hx, rfl⟩ := (mem_retiringUnits s u).mp hu
    have hlt : x ∈ List.range 23 := by simpa using retiringUnits_pool hs hl _ hu
    exact List.mem_map_of_mem (List.mem_filter.mpr ⟨hlt, by simp [hx]⟩)
  simp only [State.resetUnits, List.mem_append, List.mem_cons, List.not_mem_nil, or_false] at h ⊢
  tauto

theorem cutCredentials_effect {c : Chain} (hs : Shaped s) (hc : s.chain k = some c) :
    let t := s.cutCredentials k
    Framed [.wipe, .credSlots, .challenges, .writes] s t ∧ WritesOnly ((List.range 10).map StoreUnit.cred) s t ∧
      (∀ i < 4, t.cru.challenges[i]? = some none) ∧ t.wpe = (s.setChain k (some { c with left := 10, waitsCreds := false })).wpe := by
  intro t
  have ht : t = _ := cutCredentials_eq hc
  have hblank : Framed [.wipe, .credSlots, .challenges] s (s.credsBlank k c) := by
    unfold State.credsBlank
    have hcreds : Framed [.credSlots, .challenges] s { s with cru := { s.cru with
        slots := s.cru.slots.map (fun _ => { record := .blank, backoff := none })
        challenges := s.cru.challenges.map (fun _ => none) } } :=
      ⟨rfl, fun q hq => by cases q <;> simp_all [Piece.same]⟩
    exact (hcreds.trans (setChain_framed ..)).mono (by decide)
  have hsst : (s.credsBlank k c).sst = s.sst := by cases k <;> rfl
  rw [ht]
  refine ⟨(hblank.trans (writeAll_framed ..)).mono (by decide), ?_, fun i hi => ?_, ?_⟩
  · exact WritesOnly.trans (us := []) (writesOnly_of_eq (by rw [hsst]) (by rw [hsst]) (by rw [hsst]) _) (writeAll_only _ _ _)
  · have hlen := Shaped.challenges hs
    have hch : ((s.credsBlank k c).writeAll ((List.range 10).map StoreUnit.cred) (.stepWork k c.no)).cru.challenges =
        s.cru.challenges.map (fun _ => none) := by
      cases k <;> simp [State.credsBlank, State.setChain]
    rw [hch, List.getElem?_map, List.getElem?_eq_getElem (by omega)]
    exact rfl
  · cases k <;> simp [State.credsBlank, State.setChain]

end begin

end Sys2Proof.Machine

namespace Sys2Proof
open Machine

/-- Settles O54: no step begins outside its conditions; then what each kind of step changes as it begins. -/
theorem wipeStepsBegin : Obligations.WipeStepsBegin := by
  intro k s may ready go begun start
  have goes : ∀ t : State, s.beginStep k = t → Goes go s t := fun t h => congrArg done h
  refine ⟨fun h => goes s (beginStep_idle h), fun c h hs => ?_, fun c h hs => ⟨fun ho => ?_, fun ho => ?_⟩, fun c n q h => ?_, fun c h hs => ?_⟩
  · obtain ⟨l, hl⟩ := StepReady.steps h
    have htail : c.steps.tail = l := by rw [hl]; exact rfl
    obtain ⟨hframe, hdone, hdevice⟩ : CutBegun k c s (s.beginCut k c) := by
      cases hn : s.nothingToCut with
      | false => exact (beginCut_writes hs hn).1
      | true =>
        by_cases hb : s.sst.lastDevice.boot = .erased
        · exact (beginCut_completes hs hn hb hl).1
        · exact (beginCut_writesDevice hs hn hb).1
    refine ⟨s.beginCut k c, goes _ (beginStep_cut h), hframe, hdone.blank, hdone.scratch.1, hdone.scratch.2, hdone.start, hdone.loads,
      hdone.hold.1, hdone.hold.2, hdone.staged, hdone.preempted, hdone.aborted, hdone.data.1, hdone.data.2, hdone.reseal, hdone.sweep,
      hdone.disabled, hdone.cut, hdevice, fun hn => ?_, fun hn hb => ?_, fun hn hb => ?_⟩
    · exact (beginCut_writes hs hn).2
    · exact (beginCut_writesDevice hs hn hb).2
    · obtain ⟨-, hbtc, ⟨d, hd, hsteps, hbegun, hdurable, -, -, -, -, hend, hnext⟩, hother, hno, honly⟩ := beginCut_completes (k := k) hs hn hb hl
      exact ⟨hbtc, honly, d, ⟨hd, hother, hno⟩, hsteps, hbegun, hdurable, hend, hnext⟩
  · refine ⟨_, goes _ ((beginStep_credentials h).trans (beginCutCredentials_waits ho)), setChain_framed .., chainBegun_of (u := s) rfl rfl⟩
  · have hchain : (s.setChain k (some { c with begun := true, waitsCreds := true })).chain k = _ := chain_setChain ..
    have hshaped : Shaped (s.setChain k (some { c with begun := true, waitsCreds := true })) := (State.setChain_keeps ..).shaped hs
    obtain ⟨hframe, honly, hfree, hwpe⟩ := cutCredentials_effect hshaped hchain
    obtain ⟨hblank, hholds⟩ := cutCredentials_cut hchain
    have hsst := (setChain_sst s k (some { c with begun := true, waitsCreds := true })).1
    refine ⟨_, goes _ ((beginStep_credentials h).trans (beginCutCredentials_cuts ho)), ((setChain_framed ..).trans hframe).mono (by decide),
      chainBegun_of (u := s) rfl (hwpe.trans ?_), ?_, hblank, hfree, hholds⟩
    · cases k <;> exact rfl
    · exact (writesOnly_of_eq (by rw [hsst]) (by rw [hsst]) (by rw [hsst]) []).trans honly
  · obtain ⟨hframe, honly, -, hholds⟩ := chainWritten s k (some (c.filling (n.getD s.lif.capacity) q)) [.fillProgress k c.no]
    have hbegun : ChainBegun k (c.filling (n.getD s.lif.capacity) q) s ((s.setChain k (some (c.filling (n.getD s.lif.capacity) q))).write
      .wipe [.fillProgress k c.no]) := chainBegun_of (u := s) rfl (by simp)
    exact ⟨_, goes _ ((beginStep_fill h).trans (beginFill_eq n q)), hframe, honly, hbegun, hholds _ (List.mem_singleton_self _)⟩
  · have hreset := blankTable_reset hs
    obtain ⟨hframe, hbegun, hkst, hrtb, hdpu, hsent, hrke, hrsu, hbtc, hfresh, hdevice, honly, hholds, hdholds⟩ :=
      beginReset_effect (k := k) (c := c) hs
    have hslot : ∀ x, (s.beginReset k c).slot x = s.blankTable.slot x := fun x => by rw [State.slot, State.slot, hkst]
    have hload : ∀ x, (s.beginReset k c).load x = s.blankTable.load x := fun x => by rw [State.load, State.load, hkst]
    have hentry : ∀ x, (s.beginReset k c).entry x = s.blankTable.entry x := fun x => by rw [State.entry, State.entry, hrtb]
    have hheld : ∀ u ∈ s.resetUnits, (s.beginReset k c).holds u ((s.beginReset k c).recordOf u) (.stepWork k c.no) := hholds
    refine ⟨s.beginReset k c, RangeFields.reset { issue := s.fresh }, goes _ (beginStep_reset h), hframe, hbegun, ⟨fun i hi => ?_, fun i hi x hx hp => ?_⟩,
      ?_, ?_, rfl, rfl, rfl, rfl, rfl, rfl, rfl, rfl, rfl, rfl, rfl, rfl, rfl, fun r hr h0 => (hentry r).trans (hreset.disabled r hr h0), ?_,
      (hslot 0).trans hreset.key, fun x hx h0 => (hslot x).trans (hreset.pool x hx h0), ?_, ?_, fun hl => ?_, (hload 0).trans hreset.open0,
      fun r h0 => (hload r).trans (hreset.loads r h0), ?_, hfresh.trans hreset.fresh, fun hq => ?_, hrsu, hbtc.trans hreset.boot, hdevice,
      fun hq hl => ?_, fun r hr => ?_, fun x hx => ?_, ?_, fun i hi => ?_, hdholds⟩
    · rw [State.ctx, hdpu]
      exact hreset.aborted.1 i hi
    · rw [hsent, hdpu]
      exact hreset.aborted.2 i hi x hx hp
    · rw [hdpu]
      exact hreset.flights
    · rw [State.fields, hentry, ← State.fields]
      exact hreset.range
    · rw [hrtb]
      exact hreset.table
    · rw [hslot]
      exact hreset.scratch.1
    · rw [hslot]
      exact hreset.scratch.2.1
    · rw [hslot]
      exact hreset.scratch.2.2 hl
    · rw [hkst]
      exact hreset.reservation
    · obtain ⟨hhold, hsweep, -⟩ := hreset.quiet hq
      exact ⟨by rw [hkst]; exact hhold, hrke.trans hsweep⟩
    · obtain ⟨-, -, hwrites⟩ := hreset.quiet hq
      exact (hwrites.trans honly).mono (mem_resetWrites hs hl)
    · exact hheld _ (by simp [State.resetUnits, hr])
    · refine hheld (.key x) ?_
      have hmem : x ∈ s.resetSlots := hx
      simp [State.resetUnits, hmem]
    · exact hheld .response (by simp [State.resetUnits])
    · exact hheld (.evset i) (by simp [State.resetUnits, hi])

end Sys2Proof


/-! STORE_WRITE_COMPLETE (O56) and the supplies of the part (O58). -/

namespace Sys2Proof.Machine

/-! ### The requesters of a completed write (R155) -/

/-- No requester makes a unit durable, clears a mark or takes a write into service. -/
theorem signal_units (s : State) (w : Waiter) :
    (s.signal w).sst.units = s.sst.units ∧ (s.signal w).sst.marks = s.sst.marks ∧ (s.signal w).sst.serving = s.sst.serving := by
  cases w <;> simp [State.signal]

theorem signals_units (ws : List Waiter) (s : State) : (ws.foldl State.signal s).sst.units = s.sst.units ∧
    (ws.foldl State.signal s).sst.marks = s.sst.marks ∧ (ws.foldl State.signal s).sst.serving = s.sst.serving :=
  ⟨foldl_sst_units _ (fun t w => (signal_units t w).1) ws s, foldl_sst_marks _ (fun t w => (signal_units t w).2.1) ws s,
    foldl_sst_serving _ (fun t w => (signal_units t w).2.2) ws s⟩

/-- What an answer changes after a change v of other pieces. -/
theorem answer_after {d v : State} {ps : List Piece} (rto : ReplyTo) (b : Body) (hv : Framed ps d v) (hlif : v.lif = d.lif) :
    Framed (ps ++ [.tags, .sent]) d (v.answer rto b) ∧ TagFreed rto d (v.answer rto b) ∧
      (v.answer rto b).sent = v.sent ++ if rto.session = d.lif.session then [frame rto.channel rto.tag b] else [] := by
  obtain ⟨hfreed, hframe, hsent⟩ := State.answer_frees v rto b
  refine ⟨hv.trans hframe, ?_, hlif ▸ hsent⟩
  unfold TagFreed State.tagsAfter at hfreed ⊢
  rw [← hlif]
  exact hfreed

/-- R75: the token as it takes effect. -/
def State.tokenSet (s : State) (token : Option Secret) : State :=
  { s with
    btc := { s.btc with
      token := token
      hello := token.elim .none fun _ => if s.btc.hello = .none then .notDue else s.btc.hello
      window := if token.isNone then none else s.btc.window }
    rsu := { s.rsu with absence := 0 } }

theorem bound_eq (s : State) (rto : ReplyTo) (token : Option Secret) : s.bound rto token = (s.tokenSet token).answer rto (.status .ok []) := by
  cases token <;> exact rfl

/-- R118: a source's settings as they take effect. -/
def State.settingSet (s : State) (i : Nat) (e : Setting) : State :=
  { s with rsu := { s.rsu with
      settings := s.rsu.settings.set i e
      absence := if i = 0 ∧ e.enabled ≠ (s.setting 0).enabled then 0 else s.rsu.absence } }

theorem sourceSet_eq (s : State) (rto : ReplyTo) (i : Nat) (e : Setting) :
    s.sourceSet rto i e = (s.settingSet i e).answer rto (.status .ok []) := by
  have hrearm : (i == 0 && e.enabled != (s.setting 0).enabled) = true ↔ i = 0 ∧ e.enabled ≠ (s.setting 0).enabled := by simp
  unfold State.sourceSet State.settingSet
  simp only [hrearm]
  exact rfl

/-- R118: the table-wide settings as they take effect. -/
def State.tableHeld (s : State) (purge : Bool) (alarm threshold : Nat) : State :=
  { s with rsu := { s.rsu with
      purgeAllowed := purge, alarmMinimum := alarm, absenceThreshold := threshold
      absence := if threshold = s.rsu.absenceThreshold then s.rsu.absence else 0 } }

end Sys2Proof.Machine

namespace Sys2Proof
open Machine

/-- Settles O56: the unit is durable with its mark cleared, and what a lone requester of each kind does. -/
theorem writeCompletionIsDurable : Obligations.WriteCompletionIsDurable := by
  intro s
  refine ⟨fun h => ?_, ?_⟩
  · have hs : s.writeDone = s := by simp only [State.writeDone, h]
    exact congrArg done hs
  · intro w hw d
    have hgo : s.writeDone = (w.waiters.foldl State.signal d).flushParts := by
      simp only [State.writeDone, hw]
      exact rfl
    obtain ⟨hunits, hmarks, hserving⟩ := signals_units w.waiters d
    have one : ∀ x, w.waiters = [x] → w.waiters.foldl State.signal d = d.signal x := fun x h => by
      rw [h]
      exact rfl
    refine ⟨_, congrArg done hgo, rfl, by simpa using hunits, by simpa using hmarks, by simpa using hserving, fun h => ?_, fun rto b h hs => ?_,
      fun rto b h hs => ?_, fun rto blocked h => ?_, fun k h hr he => ?_, fun rto tok h => ?_, fun rto i e h => ?_, fun rto b x y h => ?_⟩
    · rw [h]
      exact rfl
    · obtain ⟨hfreed, hframe, hsent⟩ := State.answer_frees d rto b
      rw [one _ h]
      exact ⟨hframe, hfreed, hsent.trans (by rw [if_pos hs])⟩
    · rw [one _ h]
      exact if_neg hs
    · obtain ⟨hfreed, hframe, hsent⟩ := State.answer_frees d rto (.status .badProof [])
      rw [one _ h]
      exact ⟨d.refuse rto .badProof, rfl, hframe, hfreed, hsent⟩
    · have hslot : (s.slot k).state = .retiring ∧ (s.slot k).erasing = true := ⟨hr, he⟩
      rw [one _ h, show d.signal (.erased k) = d.mapSlot k (fun _ => .blank) from if_pos hslot, slot_mapSlot]
      exact if_pos ⟨rfl, slot_lt s k (by rw [hr]; decide)⟩
    · have hset : Framed [.boot, .response] d (d.tokenSet tok) := ⟨rfl, fun q hq => by cases q <;> simp_all [Piece.same, State.tokenSet]⟩
      obtain ⟨hframe, hfreed, hsent⟩ := answer_after rto (.status .ok []) hset rfl
      have hbtc : ((d.tokenSet tok).answer rto (.status .ok [])).btc = (d.tokenSet tok).btc := by simp
      have hrsu : ((d.tokenSet tok).answer rto (.status .ok [])).rsu = (d.tokenSet tok).rsu := by simp
      rw [one _ h, show d.signal (.bindPlatform rto tok) = _ from bound_eq d rto tok, hbtc]
      refine ⟨hframe, hfreed, rfl, hrsu, ?_, fun hn => ?_, fun hs => hsent.trans (congrArg _ (if_pos hs))⟩
      · rintro rfl
        exact ⟨rfl, rfl⟩
      · obtain ⟨x, rfl⟩ := Option.ne_none_iff_exists'.mp hn
        exact ⟨rfl, rfl⟩
    · have hset : Framed [.response] d (d.settingSet i e) := ⟨rfl, fun q hq => by cases q <;> simp_all [Piece.same, State.settingSet]⟩
      obtain ⟨hframe, hfreed, hsent⟩ := answer_after rto (.status .ok []) hset rfl
      rw [one _ h, show d.signal (.evidenceSource rto i e) = _ from sourceSet_eq d rto i e]
      have hrsu : ((d.settingSet i e).answer rto (.status .ok [])).rsu = (d.settingSet i e).rsu := by simp
      exact ⟨hframe, hfreed, hrsu, fun hs => hsent.trans (congrArg _ (if_pos hs))⟩
    · have hset : Framed [.response] d (d.tableHeld b x y) := ⟨rfl, fun q hq => by cases q <;> simp_all [Piece.same, State.tableHeld]⟩
      obtain ⟨hframe, hfreed, hsent⟩ := answer_after rto (.status .ok []) hset rfl
      rw [one _ h, show d.signal (.evidenceTable rto b x y) = (d.tableHeld b x y).answer rto (.status .ok []) from rfl]
      have hrsu : ((d.tableHeld b x y).answer rto (.status .ok [])).rsu = (d.tableHeld b x y).rsu := by simp
      exact ⟨hframe, hfreed, hrsu, fun hs => hsent.trans (congrArg _ (if_pos hs))⟩

/-- Settles O58. -/
theorem suppliesMoveThePowerState : Obligations.SuppliesMoveThePowerState := by
  intro s
  have next : ∀ {t u : State}, t = u → (Host.Outcome.next t : Host.Outcome State Fault Refusal) = .next u := congrArg _
  refine ⟨fun h => next ((if_pos h).trans ?_), fun h => next (if_neg h), fun h => next (if_pos h), fun h => next (if_neg h), rfl,
    fun h => next (if_neg (by simp [h])), fun h => ⟨_, next (if_pos h), ?_⟩⟩
  · unfold State.latch
    by_cases hl : 6 ∈ s.rsu.latch
    · rw [if_pos hl, if_pos hl]
    · rw [if_neg hl, if_neg hl]
  · refine ⟨rfl, rfl, rfl, rfl, rfl, rfl, rfl, fun w hw => ?_, fun hn => ?_, rfl, rfl, rfl⟩
    · simp [State.blackout, State.cutStore, hw]
    · simp [State.blackout, State.cutStore, hn]

end Sys2Proof


/-! The completions of a commit's writes (O39): its three waves, a deferral's writes and those of a start-up's commit. -/

namespace Sys2Proof.Machine

/-! ### The waves (R19) -/

/-- The table with another state of its commit. -/
def State.committing (s : State) (c : Commit) : State := { s with rtb := { s.rtb with commit := c } }

theorem committing_framed (s : State) (c : Commit) : Framed [.commit] s (s.committing c) :=
  ⟨rfl, fun q hq => by cases q <;> simp_all [Piece.same, State.committing]⟩

section waves
variable {s : State} {a : List Nat} {w l : Nat} {c d : List Nat} {e : Bool} {rto : ReplyTo}
  (hc : s.rtb.commit = .writing a w l c d e rto)
include hc

theorem commitWaveDone_counts (hl : 1 < l) : s.commitWaveDone = s.committing (.writing a w (l - 1) c d e rto) := by
  simp only [State.commitWaveDone, hc]
  exact if_pos hl

theorem commitWaveDone_second (hl : l ≤ 1) (hw : w = 1) : s.commitWaveDone = s.placeWaveTwo := by
  simp only [State.commitWaveDone, hc]
  exact (if_neg (Nat.not_lt.mpr hl)).trans (if_pos hw)

theorem commitWaveDone_third (hl : l ≤ 1) (hw : w = 2) : s.commitWaveDone = s.placeWaveThree := by
  simp only [State.commitWaveDone, hc]
  exact (if_neg (Nat.not_lt.mpr hl)).trans ((if_neg (by omega)).trans (if_pos hw))

theorem commitWaveDone_over (hl : l ≤ 1) (hw : w = 3) :
    s.commitWaveDone = ({ s with rtb := { s.rtb with staged := .blank, commit := .idle } } : State).answer rto (.status .done []) := by
  simp only [State.commitWaveDone, hc]
  exact (if_neg (Nat.not_lt.mpr hl)).trans ((if_neg (by omega)).trans (if_neg (by omega)))

theorem placeWaveThree_eq :
    s.placeWaveThree = (s.committing (.writing a 3 1 c d e rto)).place .stage (.stage .blank) [.commitWave] := by
  simp only [State.placeWaveThree, hc]
  exact rfl

theorem placeWaveTwo_empty (hn : (waveTwo c d).length + (if e then 1 else 0) = 0) : s.placeWaveTwo = s.placeWaveThree := by
  simp only [State.placeWaveTwo, hc]
  exact if_pos hn

/-- R19: wave 2 without the DEVICE record. -/
def State.waveTwoPlaced (s : State) (a c d : List Nat) (e : Bool) (rto : ReplyTo) : State :=
  (s.committing (.writing a 2 ((waveTwo c d).length + (if e then 1 else 0)) c d e rto)).writeAll (waveTwo c d) .commitWave

theorem placeWaveTwo_some (hn : (waveTwo c d).length + (if e then 1 else 0) ≠ 0) : s.placeWaveTwo = if e then
    (s.waveTwoPlaced a c d e rto).writeDevice (fun x => { x with resealOnWake := s.rtb.resealOnWake }) [.commitWave]
    else s.waveTwoPlaced a c d e rto := by
  simp only [State.placeWaveTwo, hc]
  exact if_neg hn

omit hc in
theorem waveTwoPlaced_effect (s : State) (a c d : List Nat) (e : Bool) (rto : ReplyTo) :
    Framed [.commit, .writes] s (s.waveTwoPlaced a c d e rto) ∧ WritesOnly (waveTwo c d) s (s.waveTwoPlaced a c d e rto) ∧
      (s.waveTwoPlaced a c d e rto).rtb =
        { s.rtb with commit := .writing a 2 ((waveTwo c d).length + (if e then 1 else 0)) c d e rto } ∧
      (∀ u ∈ waveTwo c d, (s.waveTwoPlaced a c d e rto).holds u ((s.waveTwoPlaced a c d e rto).recordOf u) .commitWave) ∧
      (s.waveTwoPlaced a c d e rto).sst.lastDevice = s.sst.lastDevice := by
  unfold State.waveTwoPlaced
  refine ⟨(committing_framed ..).trans (writeAll_framed ..), ?_, by simp [State.committing], fun u hu => ?_, by simp [State.committing]⟩
  · exact WritesOnly.trans (us := []) (writesOnly_of_eq rfl rfl rfl _) (writeAll_only _ _ _)
  · rw [writeAll_recordOf]
    exact writeAll_holds _ _ _ _ hu

end waves

/-! ### Deferrals and a start-up's commit (R22, R23, R25) -/

/-- The table with another state of the start-up's commit. -/
def State.startCommitting (s : State) (c : Option StartCommit) : State := { s with rtb := { s.rtb with startCommit := c } }

theorem startCommitting_framed (s : State) (c : Option StartCommit) : Framed [.commit] s (s.startCommitting c) :=
  ⟨rfl, fun q hq => by cases q <;> simp_all [Piece.same, State.startCommitting]⟩

theorem deferredDone_none {s : State} {rto : ReplyTo} (h : ∀ q ∈ s.rtb.preparing, q.rto ≠ rto) : s.deferredDone rto = s := by
  have hnone : s.rtb.preparing.find? (fun q => q.rto == rto) = none := List.find?_eq_none.mpr fun q hq => by simpa using h q hq
  simp only [State.deferredDone, hnone]

end Sys2Proof.Machine

namespace Sys2Proof
open Machine

/-- Settles O39: the waves of a commit in turn, the writes of a deferral, and those of a start-up's commit. -/
theorem commitWavesComplete : Obligations.CommitWavesComplete := by
  intro s
  refine ⟨⟨fun h => ?_, ?_⟩, ?_, ?_⟩
  · show s.commitWaveDone = s
    unfold State.commitWaveDone
    split
    · exact absurd ‹_› (h _ _ _ _ _ _ _)
    · exact rfl
  · intro a w l c d e rto hc units n
    have hn : n = (waveTwo c d).length + if e then 1 else 0 := rfl
    refine ⟨fun hl => ?_, fun hl hw hn0 => ?_, fun hl hw => ?_, fun hl hw => ?_⟩
    · rw [show s.signal .commitWave = _ from commitWaveDone_counts hc hl]
      exact ⟨committing_framed .., rfl⟩
    · obtain ⟨hframe, honly, hrtb, hholds, hlast⟩ := waveTwoPlaced_effect s a c d e rto
      rw [show s.signal .commitWave = _ from (commitWaveDone_second hc hl hw).trans (placeWaveTwo_some hc hn0)]
      cases e with
      | false =>
        rw [if_neg (by decide)]
        exact ⟨hframe.mono (by decide), honly.mono fun u hu => List.mem_cons_of_mem _ hu, hrtb, hholds, fun _ => ⟨hlast, honly⟩, fun h => absurd h (by decide)⟩
      | true =>
        rw [if_pos rfl]
        have hdevice : ((s.waveTwoPlaced a c d true rto).writeDevice (fun x => { x with resealOnWake := s.rtb.resealOnWake })
            [.commitWave]).sst.lastDevice = { s.sst.lastDevice with resealOnWake := s.rtb.resealOnWake } := by
          rw [← hlast]
          simp [State.writeDevice]
        refine ⟨(hframe.trans (writeDevice_framed ..)).mono (by decide), (honly.trans (writeDevice_only _ _ _)).mono fun u hu => ?_,
          (by simp : _ = (s.waveTwoPlaced a c d true rto).rtb).trans hrtb, fun u hu => ?_, fun h => absurd h (by decide), fun _ => ⟨hdevice, ?_⟩⟩
        · obtain hu | hu := List.mem_append.mp hu
          · exact List.mem_cons_of_mem _ hu
          · exact List.mem_cons.mpr (.inl (List.mem_singleton.mp hu))
        · have hne : u ≠ .device := by
            rintro rfl
            simp [units] at hu
          rw [recordOf_writeDevice _ _ _ hne]
          exact (writeDevice_only _ _ _).keeps_holds (by simpa using hne) (hholds u hu)
        · rw [hdevice, ← hlast]
          exact writeDevice_holds _ _ _ (List.mem_singleton_self _)
    · have hthree : s.commitWaveDone = s.placeWaveThree := by
        obtain hw | ⟨hw, hn0⟩ := hw
        · exact commitWaveDone_third hc hl hw
        · exact (commitWaveDone_second hc hl hw).trans (placeWaveTwo_empty hc hn0)
      rw [show s.signal .commitWave = _ from hthree.trans (placeWaveThree_eq hc)]
      exact ⟨(committing_framed ..).trans (place_framed ..),
        WritesOnly.trans (us := []) (writesOnly_of_eq rfl rfl rfl _) (place_only _ _ _ _), by simp [State.committing],
        place_holds _ _ _ _ _ (List.mem_singleton_self _)⟩
    · have hover := commitWaveDone_over hc hl hw
      have hset : Framed [.commit] s { s with rtb := { s.rtb with staged := .blank, commit := .idle } } :=
        ⟨rfl, fun q hq => by cases q <;> simp_all [Piece.same]⟩
      obtain ⟨hframe, hfreed, hsent⟩ := answer_after rto (.status .done []) hset rfl
      rw [show s.signal .commitWave = _ from hover]
      exact ⟨hframe, hfreed, by simp, fun hs => hsent.trans (congrArg _ (if_pos hs))⟩
  · intro rto t
    refine ⟨deferredDone_none, fun q hq => ⟨fun hl => ?_, fun hl => ?_⟩⟩
    · have ht : t = { s with rtb := { s.rtb with
          preparing := s.rtb.preparing.map (fun x => if x.rto = rto then { x with left := x.left - 1 } else x) } } := by
        simp only [t, State.signal, State.deferredDone, hq]
        exact if_pos hl
      rw [ht]
      exact ⟨⟨rfl, fun q hq => by cases q <;> simp_all [Piece.same]⟩, rfl⟩
    · have ht : t = ({ s with rtb := { s.rtb with preparing := s.rtb.preparing.filter (fun x => x.rto != rto) } } : State).answer rto
          (.status .accepted []) := by
        simp only [t, State.signal, State.deferredDone, hq]
        exact if_neg (Nat.not_lt.mpr hl)
      have hset : Framed [.commit] s { s with rtb := { s.rtb with preparing := s.rtb.preparing.filter (fun x => x.rto != rto) } } :=
        ⟨rfl, fun q hq => by cases q <;> simp_all [Piece.same]⟩
      obtain ⟨hframe, hfreed, hsent⟩ := answer_after rto (.status .accepted []) hset rfl
      rw [ht]
      exact ⟨hframe, hfreed, by simp, fun hs => hsent.trans (congrArg _ (if_pos hs))⟩
  · intro t
    refine ⟨fun h => ?_, fun c hc => ⟨fun hl => ?_, fun hl hlast => ?_, fun hl hlast => ?_⟩⟩
    · simp only [t, State.signal, State.startCommitDone, h]
    · have ht : t = s.startCommitting (some { c with left := c.left - 1 }) := by
        simp only [t, State.signal, State.startCommitDone, hc]
        exact if_pos hl
      rw [ht]
      exact ⟨startCommitting_framed .., rfl⟩
    · have ht : t = s.startCommitting none := by
        simp only [t, State.signal, State.startCommitDone, hc]
        exact (if_neg (Nat.not_lt.mpr hl)).trans (if_pos hlast)
      rw [ht]
      exact ⟨startCommitting_framed .., rfl⟩
    · have ht : t = (s.startCommitting (some { left := 1, last := true })).write .stage [.startCommit] := by
        simp only [t, State.signal, State.startCommitDone, hc]
        exact (if_neg (Nat.not_lt.mpr hl)).trans (if_neg (by simp [hlast]))
      rw [ht]
      exact ⟨(startCommitting_framed ..).trans (write_framed ..),
        WritesOnly.trans (us := []) (writesOnly_of_eq rfl rfl rfl _) (write_only _ _ _), by simp [State.startCommitting],
        place_holds _ _ _ _ _ (List.mem_singleton_self _)⟩

end Sys2Proof


/-! The end of a commit's drain (O37): the contexts that its timer ends, and the commit as it enters WRITING. -/

namespace Sys2Proof.Machine

/-! ### Aborts, whatever the sizes of the tables (R90) -/

/-- An OPEN context is one of the table. -/
theorem ctx_lt {s : State} {c : Nat} (h : (s.ctx c).xfer ≠ none) : c < s.dpu.contexts.length := by
  by_contra hlt
  exact h (by simp [State.ctx, List.getElem?_eq_none (Nat.le_of_not_lt hlt)])

theorem abortAll_contexts (s : State) (cause : AbortCause) (p : OpenContext → Bool) : ContextsAborted cause p s (s.abortAll cause p) := by
  let l := (s.openContexts.filter (fun q => p q.2)).map (fun q => q.1)
  have hmem : ∀ c, c ∈ l ↔ c < 16 ∧ ∃ x, (s.ctx c).xfer = some x ∧ p x = true := fun c => by
    simp only [l, List.mem_map, List.mem_filter, Prod.exists, mem_openContexts]
    constructor
    · rintro ⟨d, x, ⟨⟨hd, hx⟩, hp⟩, rfl⟩
      exact ⟨hd, x, hx, hp⟩
    · rintro ⟨hc, x, hx, hp⟩
      exact ⟨c, x, ⟨⟨hc, hx⟩, hp⟩, rfl⟩
  have hnodup : l.Nodup := by
    have hsub : l.Sublist (s.openContexts.map (fun q => q.1)) := List.filter_sublist.map _
    exact hsub.nodup (by rw [openContexts_numbers]; exact List.filter_sublist.nodup List.nodup_range)
  obtain ⟨hctx, -, -, -, hnotice⟩ := State.aborts_open cause l s hnodup fun c hc => by
    obtain ⟨-, x, hx, -⟩ := (hmem c).mp hc
    have hopen : (s.ctx c).xfer ≠ none := by simp [hx]
    exact ⟨ctx_lt hopen, hopen⟩
  refine ⟨fun c hc => (hctx c).trans ?_, fun c hc x hx hp => hnotice c ((hmem c).mpr ⟨hc, x, hx, hp⟩) x hx⟩
  cases hx : (s.ctx c).xfer with
  | none => exact if_neg fun hm => by obtain ⟨-, y, hy, -⟩ := (hmem c).mp hm; simp [hx] at hy
  | some x =>
    by_cases hp : p x = true
    · rw [if_pos ((hmem c).mpr ⟨hc, x, hx, hp⟩)]
      exact (if_pos hp).symm
    · rw [if_neg fun hm => by
        obtain ⟨-, y, hy, hpy⟩ := (hmem c).mp hm
        rw [hx] at hy
        exact hp (Option.some.inj hy ▸ hpy)]
      exact (if_neg hp).symm

/-! ### The commit enters WRITING (R18, R19) -/

/-- The result of a staged list as a commit installs it: its plan, the ranges that the list names and their RAKs. -/
structure Installation where
  plan : Plan
  named : List Nat
  raks : List (Nat × Rak)

/-- R18: what the list makes of the table as it stands. -/
def State.installation (s : State) (raks : List (Nat × Rak)) : Installation :=
  { plan := s.plan s.rtb.staged.edits, named := namedRanges s.rtb.staged.edits, raks := raks }

/-- R18 step 1: the ranges that the list remakes or ends are NOT_LOADED, and the reservation ends. -/
def State.listEmptied (s : State) (x : Installation) : State :=
  let t := x.named.foldl (fun u r => if x.plan.remade.contains r || !(x.plan.entry r).isEnabled then u.dropRange r else u) s
  { t with kst := { t.kst with reservation := 0 } }

/-- R18 steps 2 and 4: the new keys and envelopes. -/
def State.listSupplied (s : State) (x : Installation) : State × Prepared := (s.listEmptied x).prepare x.plan x.named x.raks

/-- R18 steps 2 to 4 and 6: the result is in the table. -/
def State.listPlaced (s : State) (x : Installation) : State × List Nat × List Nat :=
  (s.listSupplied x).1.install x.plan (s.listSupplied x).2 x.named

/-- R18 step 5: the lock flags follow. -/
def State.listRelocked (s : State) (x : Installation) : State :=
  x.named.foldl (fun u r => State.commitLocks s x.plan (s.listSupplied x).2 u r) (s.listPlaced x).1

/-- R18, R19: the commit is WRITING, its wave 1 still to be placed. -/
def State.listWriting (s : State) (x : Installation) (a : List Nat) (rto : ReplyTo) : State :=
  { s.listRelocked x with rtb := { (s.listRelocked x).rtb with
      staged := { edits := s.rtb.staged.edits, mark := .applying, prepared := (s.listSupplied x).2 }
      commit := .writing a 1 (waveOne (s.listSupplied x).2).length (s.listPlaced x).2.1 (s.listPlaced x).2.2
        (x.plan.reseal != s.rtb.resealOnWake) rto } }

theorem enterWriting_eq {s : State} {a : List Nat} {n : Nat} {raks : List (Nat × Rak)} {rto : ReplyTo}
    (h : s.rtb.commit = .draining a n raks rto) : s.enterWriting =
      (s.listWriting (s.installation raks) a rto).writeAll (waveOne (s.listSupplied (s.installation raks)).2) .commitWave := by
  simp only [State.enterWriting, h]
  exact rfl

theorem listRelocked_reservation (s : State) (x : Installation) : (s.listRelocked x).kst.reservation = 0 := by
  have hlocks := foldl_kst_reservation (fun u r => State.commitLocks s x.plan (s.listSupplied x).2 u r) (fun _ _ => by simp) x.named (s.listPlaced x).1
  refine hlocks.trans ?_
  simp [State.listPlaced, State.listSupplied, State.listEmptied]

theorem enterWriting_commit {s : State} {a : List Nat} {n : Nat} {raks : List (Nat × Rak)} {rto : ReplyTo}
    (h : s.rtb.commit = .draining a n raks rto) : s.enterWriting.rtb =
      { (s.listRelocked (s.installation raks)).rtb with
        staged := { edits := s.rtb.staged.edits, mark := .applying, prepared := (s.listSupplied (s.installation raks)).2 }
        commit := .writing a 1 (waveOne (s.listSupplied (s.installation raks)).2).length
          (s.listPlaced (s.installation raks)).2.1 (s.listPlaced (s.installation raks)).2.2
          ((s.installation raks).plan.reseal != s.rtb.resealOnWake) rto } := by
  rw [enterWriting_eq h]
  exact (State.writeAll_frame _ _ _).2.2.2.2.1

theorem enterWriting_stage_held {s : State} {a : List Nat} {n : Nat} {raks : List (Nat × Rak)} {rto : ReplyTo}
    (h : s.rtb.commit = .draining a n raks rto) :
    s.enterWriting.holds .stage (.stage s.enterWriting.rtb.staged) .commitWave := by
  have hheld := writeAll_holds (waveOne (s.listSupplied (s.installation raks)).2) .commitWave
    (s.listWriting (s.installation raks) a rto) .stage (by simp [waveOne])
  rw [enterWriting_eq h, (State.writeAll_frame _ _ _).2.2.2.2.1]
  exact hheld

theorem enterWriting_reservation {s : State} {a : List Nat} {n : Nat} {raks : List (Nat × Rak)} {rto : ReplyTo}
    (h : s.rtb.commit = .draining a n raks rto) : s.enterWriting.kst.reservation = 0 := by
  rw [enterWriting_eq h, (State.writeAll_frame _ _ _).2.2.2.1]
  exact listRelocked_reservation s (s.installation raks)

/-! ### The drain (R17, R93) -/

theorem settleDrain_of_idle {s : State} (h : ∀ a n k rto, s.rtb.commit ≠ .draining a n k rto) : s.settleDrain = s := by
  unfold State.settleDrain
  split
  · next hd => exact (h _ _ _ _ hd).elim
  · exact rfl

theorem drainExpired_of_idle {s : State} (h : ∀ a n k rto, s.rtb.commit ≠ .draining a n k rto) : s.drainExpired = s := by
  unfold State.drainExpired
  split
  · next hd => exact (h _ _ _ _ hd).elim
  · exact rfl

section draining
variable {s : State} {a : List Nat} {n : Nat} {raks : List (Nat × Rak)} {rto : ReplyTo}

theorem settleDrain_of_draining (h : s.rtb.commit = .draining a n raks rto) :
    s.settleDrain = if s.openContexts.any (fun q => q.2.inRanges a) then s else s.enterWriting := by
  simp only [State.settleDrain, h]

theorem settleDrain_of_open (h : s.rtb.commit = .draining a n raks rto)
    (hopen : ∃ c < 16, ∃ x, (s.ctx c).xfer = some x ∧ x.inRanges a = true) : s.settleDrain = s := by
  obtain ⟨c, hc, x, hx, hin⟩ := hopen
  refine (settleDrain_of_draining h).trans (if_pos ?_)
  exact List.any_eq_true.mpr ⟨(c, x), (mem_openContexts s c x).mpr ⟨hc, hx⟩, hin⟩

theorem settleDrain_of_clear (h : s.rtb.commit = .draining a n raks rto)
    (hclear : ∀ c < 16, ∀ x, (s.ctx c).xfer = some x → x.inRanges a = false) : s.settleDrain = s.enterWriting := by
  refine (settleDrain_of_draining h).trans (if_neg fun hany => ?_)
  obtain ⟨⟨c, x⟩, hmem, hin⟩ := List.any_eq_true.mp hany
  obtain ⟨hc, hx⟩ := (mem_openContexts s c x).mp hmem
  exact Bool.false_ne_true ((hclear c hc x hx).symm.trans hin)

theorem drainExpired_of_draining (h : s.rtb.commit = .draining a n raks rto) :
    s.drainExpired = (s.abortAll .drain (fun x => x.inRanges a)).enterWriting := by
  simp only [State.drainExpired, h]

end draining

end Sys2Proof.Machine

namespace Sys2Proof
open Machine

/-- Settles O37: both events are `settleDrain` and `drainExpired`; the contexts by the rule of an abort of many, the
commit's own state by `enterWriting_commit`, whose STAGE write is the last of wave 1. -/
theorem drainEndsInWriting : Obligations.DrainEndsInWriting := by
  intro s
  refine ⟨fun h => ⟨?_, ?_⟩, fun a n k rto h => ⟨fun hopen => ?_, fun hclear => ?_, ?_, ?_, ?_, ?_, ?_, ?_⟩⟩
  · exact congrArg done (settleDrain_of_idle h)
  · exact congrArg done (drainExpired_of_idle h)
  · exact congrArg done (settleDrain_of_open h hopen)
  · exact congrArg done (settleDrain_of_clear h hclear)
  · obtain ⟨hctx, hnotice⟩ := abortAll_contexts s .drain (fun x => x.inRanges a)
    refine ⟨s.abortAll .drain (fun x => x.inRanges a), congrArg done (drainExpired_of_draining h),
      (abortAll_framed s .drain _).mono (by decide), hctx, fun c hc x hx hin => ?_⟩
    exact (hnotice c hc x hx hin).imp_right fun howed => ⟨_, howed, rfl, rfl, rfl, rfl⟩
  · exact ⟨1, _, _, _, _, congrArg (fun x => x.commit) (enterWriting_commit h), rfl⟩
  · rw [enterWriting_commit h]
  · rw [enterWriting_commit h]
  · exact enterWriting_reservation h
  · exact enterWriting_stage_held h

end Sys2Proof


/-! The end of a request of the sweep's chunk (O19): each kind of request answered OK, the scratch header as it is
judged, and the faults. -/

namespace Sys2Proof.Machine

/-! ### Shared operations -/

/-- R110: each part that waits is placed, or not. -/
theorem flushParts_cases (s : State) : ∃ u, (u = s ∨ u = s.writeQueuePart []) ∧ (s.flushParts = u ∨ s.flushParts = u.writeProgressPart []) := by
  have hprogress : ∀ u : State, ∃ v, (v = u ∨ v = u.writeProgressPart []) ∧ v = match u.rke.dueProgress with
      | some _ => u.writeProgressPart []
      | none => u := fun u => by
    cases u.rke.dueProgress with
    | none => exact ⟨u, .inl rfl, rfl⟩
    | some l => exact ⟨_, .inr rfl, rfl⟩
  unfold State.flushParts
  cases s.rke.dueQueue with
  | none =>
    obtain ⟨v, hv, he⟩ := hprogress s
    exact ⟨s, .inl rfl, hv.imp he.symm.trans he.symm.trans⟩
  | some l =>
    obtain ⟨v, hv, he⟩ := hprogress (s.writeQueuePart [])
    exact ⟨_, .inr rfl, hv.imp he.symm.trans he.symm.trans⟩

theorem flushParts_effect (s : State) : s.flushParts.rke =
      { s.rke with dueQueue := s.flushParts.rke.dueQueue, dueProgress := s.flushParts.rke.dueProgress } ∧
    WritesOnly [.rekeyQueue, .rekeyProgress] s s.flushParts := by
  obtain ⟨u, hu, hs⟩ := flushParts_cases s
  have hqueue : u.rke = { s.rke with dueQueue := u.rke.dueQueue, dueProgress := u.rke.dueProgress } ∧ WritesOnly [.rekeyQueue] s u := by
    obtain rfl | rfl := hu
    · exact ⟨rfl, WritesOnly.refl _ _⟩
    · exact ⟨by rw [writeQueuePart_rke], writeQueuePart_only s []⟩
  obtain ⟨hrke, honly⟩ := hqueue
  obtain hs | hs := hs
  · rw [hs]
    exact ⟨hrke, honly.mono (by simp)⟩
  · rw [hs]
    exact ⟨by rw [u.writeProgressPart_rke [], hrke], honly.trans (u.writeProgressPart_only [])⟩

theorem flushParts_framed (s : State) : Framed [.rekey, .writes] s s.flushParts :=
  ⟨s.flushParts_keeps.1, fun q hq => by cases q <;> simp_all [Piece.same]⟩

theorem fields_of_rtb {s t : State} (h : t.rtb = s.rtb) (r : Nat) : t.fields r = s.fields r := by
  rw [State.fields, State.fields, State.entry, State.entry, h]

theorem fields_loseKey (s : State) (r q : Nat) :
    (s.loseKey r).fields q = if q = r then (s.fields q).map (fun g => { g with keyLost := true }) else s.fields q := by
  have hmap : ∀ u : State, u.rtb = (s.mapFields r fun g => { g with keyLost := true }).rtb →
      u.fields q = if q = r then (s.fields q).map (fun g => { g with keyLost := true }) else s.fields q := fun u hu => by
    rw [fields_of_rtb hu, fields_mapFields]
  refine hmap _ ?_
  unfold State.loseKey State.mapFields
  cases s.fields r <;> simp

/-- The request o has ended. -/
def State.opEnded (s : State) (o : ChunkOp) : State := { s with rke := { s.rke with issued := s.rke.issued.erase o } }

theorem opEnded_framed (s : State) (o : ChunkOp) : Framed [.rekey] s (s.opEnded o) :=
  ⟨rfl, fun q hq => by cases q <;> simp_all [Piece.same, State.opEnded]⟩

theorem freeCore_free {s : State} {c : Nat} (h : s.freeCore = some c) : c < 4 ∧ s.coreBusy c = false := by
  unfold State.freeCore at h
  have hfree := List.find?_some h
  have hmem := List.mem_of_find?_eq_some h
  simp at hfree hmem
  exact ⟨hmem, hfree⟩

theorem coreStage_cases (s : State) : s.coreStage = .waiting ∨ ∃ c < 4, s.coreBusy c = false ∧ s.coreStage = .inCore c := by
  unfold State.coreStage
  split
  · exact .inl rfl
  · cases hc : s.freeCore with
    | none => exact .inl rfl
    | some c =>
      obtain ⟨hlt, hfree⟩ := freeCore_free hc
      exact .inr ⟨c, hlt, hfree, rfl⟩

theorem thenOps_eq (s : State) (l : List ChunkOp) :
    s.thenOps l = { s with rke := { s.rke with todo := if s.rke.todo = [] ∧ s.rke.issued = [] then l else s.rke.todo } } := by
  unfold State.thenOps
  by_cases h : s.rke.todo = [] ∧ s.rke.issued = []
  · rw [if_pos (by simp [h.1, h.2]), if_pos h]
  · rw [if_neg (by simpa using h), if_neg h]

/-! ### The keys of the range are lost (R115) -/

/-- R115, R157: what a scratch header that is none does to the range of job j and to the job. -/
def SweepLost (j : Job) (s t : State) : Prop :=
  Framed [.ranges, .rekey, .hold, .keySlots, .loads, .writes] s t ∧
  (∀ g, s.fields j.range = some g → t.fields j.range = some { g with keyLost := true } ∧ t.hasWrite (.range j.range)) ∧
  (s.fields j.range = none → t.rtb = s.rtb ∧ ∀ w : Write, w.unit = .range j.range → (w ∈ t.writesHeld ↔ w ∈ s.writesHeld)) ∧
  t.headJob = some { j with state := .faulted, fault := some .keyLost } ∧ t.rke.recovery = .none ∧
  t.rke.rangeHeld = false ∧ t.kst.hold = none

/-- R115: the job is FAULTED and its recovery is over; its hold is still to be released. -/
def State.headerLost (s : State) (r : Nat) : State :=
  let t := (s.loseKey r).mapHead (fun j => { j with state := .faulted, fault := some .keyLost })
  { t with rke := { t.rke with recovery := .none, runAnyway := false, rangeHeld := false } }

theorem unrecovered_eq (s : State) (r : Nat) : s.unrecovered r = (s.headerLost r).releaseHold.flushParts := rfl

/-- The releases and the parts that follow write no RANGE record. -/
theorem unrecovered_only (s : State) (r : Nat) : WritesOnly ((s.headerLost r).heldUnits ++ [.rekeyQueue, .rekeyProgress])
    (s.loseKey r) (s.unrecovered r) := by
  rw [unrecovered_eq]
  have hsame : WritesOnly [] (s.loseKey r) (s.headerLost r) := writesOnly_of_eq rfl rfl rfl _
  exact (hsame.trans (releaseHold_only _)).trans (flushParts_effect _).2

theorem range_not_heldUnits (s : State) (r : Nat) : StoreUnit.range r ∉ s.heldUnits ++ [.rekeyQueue, .rekeyProgress] := by
  unfold State.heldUnits
  cases s.kst.hold <;> simp

theorem unrecovered_lost {s : State} {j : Job} (hj : s.headJob = some j) : SweepLost j s (s.unrecovered j.range) := by
  have hrtb : (s.unrecovered j.range).rtb = (s.loseKey j.range).rtb := by
    rw [unrecovered_eq]
    simp [State.headerLost]
  have hrke : (s.unrecovered j.range).rke = { (s.headerLost j.range).rke with
      dueQueue := (s.unrecovered j.range).rke.dueQueue, dueProgress := (s.unrecovered j.range).rke.dueProgress } := by
    have hheld : (s.headerLost j.range).releaseHold.rke = (s.headerLost j.range).rke := by simp
    rw [unrecovered_eq, (flushParts_effect _).1, hheld]
  have honly := unrecovered_only s j.range
  have hrange := range_not_heldUnits (s.headerLost j.range) j.range
  refine ⟨⟨(s.unrecovered_keeps j.range).1, fun q hq => by cases q <;> simp_all [Piece.same]⟩, fun g hg => ⟨?_, ?_⟩, fun hn => ?_, ?_, ?_, ?_, ?_⟩
  · rw [fields_of_rtb hrtb, fields_loseKey, if_pos rfl, hg]
    exact rfl
  · obtain ⟨w, hw, hunit, hcontent⟩ := s.loseKey_held j.range g hg
    have hrecord : (s.unrecovered j.range).recordOf (.range j.range) = (s.loseKey j.range).recordOf (.range j.range) :=
      recordOf_range_of_eq (by simp) (by rw [State.entry, State.entry, hrtb])
    exact ⟨w, (honly w (hunit ▸ hrange)).mpr hw, hunit, hcontent.trans hrecord.symm⟩
  · rw [State.loseKey_of_none s j.range hn] at honly hrtb
    exact ⟨hrtb, fun w hw => honly w (hw ▸ hrange)⟩
  · have hqueue : (s.unrecovered j.range).rke.queue = s.rke.queue.modify 0 (fun j => { j with state := .faulted, fault := some .keyLost }) := by
      rw [hrke]
      simp [State.headerLost, State.mapHead]
    rw [State.headJob, hqueue, queue_modify hj]
    exact rfl
  · rw [hrke]
    exact rfl
  · rw [hrke]
    exact rfl
  · rw [unrecovered_eq, (State.flushParts_frame _).2.2.2.1]
    exact State.releaseHold_hold _

/-- The same of a state that differs in the sweep alone. -/
theorem SweepLost.before {j : Job} {s u t : State} (h : SweepLost j u t) (hf : Framed [.rekey] s u) (hrtb : u.rtb = s.rtb)
    (hw : ∀ w : Write, w ∈ u.writesHeld ↔ w ∈ s.writesHeld) : SweepLost j s t := by
  obtain ⟨hframe, hsome, hnone, hlast⟩ := h
  rw [fields_of_rtb hrtb] at hsome hnone
  refine ⟨(hf.trans hframe).mono (by decide), hsome, fun hn => ?_, hlast⟩
  obtain ⟨hsame, hwrites⟩ := hnone hn
  exact ⟨hsame.trans hrtb, fun w h => (hwrites w h).trans (hw w)⟩

/-! ### The scratch header is judged (R115) -/

/-- R115: the watermark of the range becomes w. -/
def WatermarkAt (r w : Nat) (s u : State) : Prop :=
  u.fields r = (s.fields r).map (fun g => { g with split := g.split.map (fun x => { x with watermark := w }) }) ∧
  ∀ q, q ≠ r → u.entry q = s.entry q

/-- R115: the watermark is known, and the recovery over. -/
def Recovered (r w : Nat) (s u : State) : Prop :=
  Framed [.ranges, .rekey, .writes] s u ∧ WritesOnly [.rekeyProgress] s u ∧ WatermarkAt r w s u ∧
    u.rke.recovery = .none ∧ u.rke.queue = s.rke.queue ∧ u.progressAwaits .rekeyRecovered

theorem watermarkAt_of_rtb {s u : State} {r w : Nat} (h : u.rtb = (s.setWatermark r w).rtb) : WatermarkAt r w s u := by
  refine ⟨?_, fun q hq => ?_⟩
  · rw [fields_of_rtb h]
    exact (fields_mapFields s r r _).trans (if_pos rfl)
  · rw [State.entry, h]
    exact entry_mapFields s _ (.inl hq)

theorem recovered_recovered (s : State) (r w : Nat) : Recovered r w s (s.recovered r w) := by
  have hrke := (({ s.setWatermark r w with
    rke := { (s.setWatermark r w).rke with recovery := .none, runAnyway := false } } : State).writeProgressPart_rke [.rekeyRecovered])
  have hrtb : (s.recovered r w).rtb = (s.setWatermark r w).rtb := by simp [State.recovered]
  have hwater : (s.setWatermark r w).rke = s.rke := by simp
  refine ⟨⟨(s.recovered_keeps r w).1, fun q hq => by cases q <;> simp_all [Piece.same]⟩, ?_, watermarkAt_of_rtb hrtb, ?_, ?_,
    State.writeProgressPart_awaits _ _ _ (List.mem_singleton_self _)⟩
  · have hsame : WritesOnly [] s { s.setWatermark r w with
        rke := { (s.setWatermark r w).rke with recovery := .none, runAnyway := false } } :=
      writesOnly_of_eq (by simp) (by simp) (by simp) _
    exact hsame.trans (State.writeProgressPart_only _ _)
  · exact congrArg (fun x => x.recovery) hrke
  · exact (congrArg (fun x => x.queue) hrke).trans (by rw [hwater])

/-- What is known of a state holds of one that differs from it in the requests of the sweep. -/
theorem Recovered.before {r w : Nat} {s t : State} {o : ChunkOp} (h : Recovered r w (s.opEnded o) t) : Recovered r w s t := by
  obtain ⟨hframe, honly, hrest⟩ := h
  have hsame : WritesOnly [] s (s.opEnded o) := writesOnly_of_eq rfl rfl rfl _
  exact ⟨((opEnded_framed s o).trans hframe).mono (by decide), hsame.trans honly, hrest⟩

/-- R115: the chunk is copied from the scratch span. -/
def CopiesAgain (r : Nat) (h : ScratchHeader) (s t : State) : Prop :=
  Framed [.ranges, .rekey, .writes] s t ∧ WatermarkAt r h.first s t ∧
    t.rke.phase = .copying ∧ t.rke.first = h.first ∧ t.rke.n = h.n ∧ t.rke.window = true ∧
    t.rke.recovery = .copy h.first h.n ∧ t.rke.buffer = List.replicate h.n none ∧
    t.rke.todo = (List.range h.n).map ChunkOp.recoverRead ∧ t.rke.issued = [] ∧ t.rke.queue = s.rke.queue

theorem recoverCopy_copies (s : State) (r : Nat) (h : ScratchHeader) :
    CopiesAgain r h s (((s.setWatermark r h.first).recoverCopy h.first h.n).flushParts) := by
  have hrke := (flushParts_effect ((s.setWatermark r h.first).recoverCopy h.first h.n)).1
  have hrtb : (((s.setWatermark r h.first).recoverCopy h.first h.n).flushParts).rtb = (s.setWatermark r h.first).rtb := by simp
  have hwater : (s.setWatermark r h.first).rke = s.rke := by simp
  refine ⟨⟨by simp, fun q hq => by cases q <;> simp_all [Piece.same]⟩, watermarkAt_of_rtb hrtb, ?_, ?_, ?_, ?_, ?_, ?_, ?_, ?_, ?_⟩ <;>
    rw [hrke]
  iterate 8 exact rfl
  exact congrArg (fun x => x.queue) hwater

/-- R115: the header is that of the job's own chunk. -/
def HeaderOf (h : ScratchHeader) (j : Job) : Prop :=
  h.serial = j.serial.getD 0 ∧ h.range = j.range ∧ h.newKeySlot = j.newKey.getD 0

section judge
variable {s : State} {j : Job} {h : ScratchHeader} (hj : s.headJob = some j)
include hj

theorem judge_copied (hm : HeaderOf h j) (hs : h.state = .copied) : s.judge (.header h) = s.recovered j.range (h.first + h.n) := by
  simp only [State.judge, hj]
  exact (if_pos hm).trans (by rw [hs])

theorem judge_filled (hm : HeaderOf h j) (hs : h.state = .filled) :
    s.judge (.header h) = ((s.setWatermark j.range h.first).recoverCopy h.first h.n).flushParts := by
  simp only [State.judge, hj]
  exact (if_pos hm).trans (by rw [hs])

theorem judge_other (hm : ¬ HeaderOf h j) : s.judge (.header h) = s.recovered j.range (s.firstBlock j.range) := by
  simp only [State.judge, hj]
  exact if_neg hm

theorem judge_none {b : Block} (hb : ∀ h, b ≠ .header h) : s.judge b = s.unrecovered j.range := by
  simp only [State.judge, hj]

end judge

/-! ### Requests answered OK (R102 to R104, R114) -/

/-- R102: a block of the chunk that has been read goes to a cipher core. -/
theorem startTransform_work {s : State} {j : Job} {g : RangeFields} (hj : s.headJob = some j) (hg : s.fields j.range = some g)
    (i : Nat) (b : Block) : ∃ w : SweepWork, s.startTransform i b = { s with rke := { s.rke with work := s.rke.work ++ [w] } } ∧
      w.chunk = s.rke.chunk ∧ w.position = i ∧ w.tweak = s.rke.first + i ∧ w.data = b ∧ w.oldKey = s.keyOf g.keySlot ∧
      w.newKey = s.keyOf (j.newKey.getD g.keySlot) ∧ w.stage = s.coreStage := by
  simp only [State.startTransform, hj, hg]
  exact ⟨_, rfl, rfl, rfl, rfl, rfl, rfl, rfl, rfl⟩

/-- R102, R104: the progress part is written with the state x of the sweep. -/
theorem progress_with (s : State) (x : Rekey) (w : Waiter) :
    let t := ({ s with rke := x } : State).writeProgressPart [w]
    Framed [.rekey, .writes] s t ∧ WritesOnly [.rekeyProgress] s t ∧ t.rke = { x with dueProgress := t.rke.dueProgress } ∧
      t.progressAwaits w := by
  have hsame : WritesOnly [] s ({ s with rke := x } : State) := writesOnly_of_eq rfl rfl rfl _
  refine ⟨⟨(State.writeProgressPart_keeps _ _).1, fun q hq => by cases q <;> simp_all [Piece.same]⟩,
    hsame.trans (State.writeProgressPart_only _ _), State.writeProgressPart_rke _ _,
    State.writeProgressPart_awaits _ _ _ (List.mem_singleton_self _)⟩

/-- R114: a block read back from the scratch span is in the buffer; a full one is written in place. -/
theorem recoverRead_eq (s : State) (i : Nat) (b : Block) :
    let left := s.rke.issued.erase (.recoverRead i)
    let full := (s.rke.buffer.set i (some b)).all (fun x => x.isSome)
    s.confirmOp (.recoverRead i) b = { s with rke := { s.rke with
      issued := left, buffer := s.rke.buffer.set i (some b)
      todo := if full then (if s.rke.todo = [] ∧ left = [] then (List.range s.rke.n).map ChunkOp.dest else s.rke.todo) else s.rke.todo
      recovery := if full then .none else s.rke.recovery } } := by
  intro left full
  let ops := (List.range s.rke.n).map ChunkOp.dest
  let todo := if full then (if s.rke.todo = [] ∧ left = [] then ops else s.rke.todo) else s.rke.todo
  let filled := fun (l : List ChunkOp) (r : Recovery) =>
    ({ s with rke := { s.rke with issued := left, buffer := s.rke.buffer.set i (some b), todo := l, recovery := r } } : State)
  have hfull : full = true ↔ ∀ x ∈ s.rke.buffer.set i (some b), x ≠ none := by simp [full, Option.isSome_iff_ne_none]
  have htodo : (if (∀ x ∈ s.rke.buffer.set i (some b), x ≠ none) ∧ s.rke.todo = [] ∧ left = [] then ops else s.rke.todo) = todo := by
    simp only [todo, ← hfull]
    by_cases h : full = true <;> simp [h]
  have hfill : (s.opEnded (.recoverRead i)).fillBuffer i b ops = filled todo s.rke.recovery :=
    (fillBuffer_rke ..).trans (congrArg (fun l => filled l s.rke.recovery) htodo)
  have hop : s.confirmOp (.recoverRead i) b =
      if ((s.opEnded (.recoverRead i)).fillBuffer i b ops).rke.buffer.all (fun x => x.isSome) then
        { (s.opEnded (.recoverRead i)).fillBuffer i b ops with
          rke := { ((s.opEnded (.recoverRead i)).fillBuffer i b ops).rke with recovery := .none } }
      else (s.opEnded (.recoverRead i)).fillBuffer i b ops := rfl
  rw [hop, hfill]
  by_cases h : full = true
  · exact (if_pos h).trans (congrArg (filled todo) (if_pos h).symm)
  · exact (if_neg h).trans (congrArg (filled todo) (if_neg h).symm)

/-! ### Faults (R109) -/

/-- The request o has failed, and is to be made again. -/
def State.opFailed (s : State) (o : ChunkOp) : State :=
  { s with rke := { s.rke with issued := s.rke.issued.erase o, todo := insertOp o s.rke.todo } }

/-- R115: the read of the scratch header has failed for good. -/
def State.headerUnread (s : State) : State :=
  { s with rke := { s.rke with issued := s.rke.issued.erase .recoverHeader, todo := [] } }

theorem headerUnread_framed (s : State) : Framed [.rekey] s s.headerUnread :=
  ⟨rfl, fun q hq => by cases q <;> simp_all [Piece.same, State.headerUnread]⟩

theorem opFailed_framed (s : State) (o : ChunkOp) : Framed [.rekey] s (s.opFailed o) :=
  ⟨rfl, fun q hq => by cases q <;> simp_all [Piece.same, State.opFailed]⟩

theorem failOp_header {s : State} {j : Job} (hj : s.headJob = some j) :
    s.failOp .recoverHeader .mediaFault = s.headerUnread.unrecovered j.range := by
  simp only [State.failOp, hj]
  exact rfl

theorem failOp_other {s : State} {o : ChunkOp} {x : FaultCause} {j : Job} (hj : s.headJob = some j)
    (h : o ≠ .recoverHeader ∨ x ≠ .mediaFault) : s.failOp o x = (s.opFailed o).faultJob x := by
  simp only [State.failOp, hj]
  split
  · next ho hx _ => exact (h.elim (fun k => k rfl) (fun k => k rfl)).elim
  · exact rfl

theorem mem_insertOp (o : ChunkOp) (l : List ChunkOp) : o ∈ insertOp o l := by simp [insertOp]

/-- R109: the active job is FAULTED; its chunk is kept where its header was issued. -/
theorem faultJob_effect {s : State} {j : Job} (hj : s.headJob = some j) (x : FaultCause) :
    Framed [.rekey, .hold, .keySlots, .loads, .writes] s (s.faultJob x) ∧ (s.faultJob x).kst.hold = none ∧
    (s.faultJob x).rke.queue = { j with state := .faulted, fault := some x } :: s.rke.queue.tail ∧
    ((∃ w ∈ (s.faultJob x).writesHeld, w.unit = .rekeyProgress) ∨ (s.faultJob x).rke.dueProgress ≠ none) ∧
    (s.faultJob x).rke = { (s.jobFaulted x).rke with dueProgress := (s.faultJob x).rke.dueProgress } := by
  have hrke : (s.faultJob x).rke = { (s.jobFaulted x).rke with dueProgress := (s.faultJob x).rke.dueProgress } := by
    have hheld : (s.jobFaulted x).releaseHold.rke = (s.jobFaulted x).rke := by simp
    rw [faultJob_eq, State.writeProgressPart_rke, hheld]
  have hqueue : (s.jobFaulted x).rke.queue = s.rke.queue.modify 0 (fun j => { j with state := .faulted, fault := some x }) := by
    unfold State.jobFaulted
    split <;> exact rfl
  refine ⟨⟨(s.faultJob_keeps x).1, fun q hq => by cases q <;> simp_all [Piece.same]⟩, ?_, ?_, ?_, hrke⟩
  · rw [faultJob_eq]
    have hkst : ((s.jobFaulted x).releaseHold.writeProgressPart []).kst = (s.jobFaulted x).releaseHold.kst := by simp
    rw [hkst]
    exact State.releaseHold_hold _
  · rw [hrke]
    exact hqueue.trans (queue_modify hj _)
  · rw [faultJob_eq]
    exact (State.writeProgressPart_held _ _).imp_left fun ⟨w, hw, hunit, _⟩ => ⟨w, hw, hunit⟩

/-- R109: a chunk whose header was issued is kept. -/
theorem jobFaulted_kept {s : State} (x : FaultCause) (h : s.rke.headerIssued = true ∨ s.rke.phase = .idle) :
    (s.jobFaulted x).rke = { s.rke with
      queue := s.rke.queue.modify 0 (fun j => { j with state := .faulted, fault := some x }), runAnyway := false } := by
  unfold State.jobFaulted
  rw [if_pos (by simpa using h)]
  exact rfl

/-- R109: any other is dropped. -/
theorem jobFaulted_dropped {s : State} (x : FaultCause) (hh : s.rke.headerIssued = false) (hp : s.rke.phase ≠ .idle) :
    (s.jobFaulted x).rke = { s.dropChunk.rke with
      queue := s.rke.queue.modify 0 (fun j => { j with state := .faulted, fault := some x }), runAnyway := false } := by
  unfold State.jobFaulted
  rw [if_neg (by simp [hh, hp])]
  exact rfl

end Sys2Proof.Machine

namespace Sys2Proof
open Machine

/-- Settles O19: a request of the current chunk is `confirmOp` or `failOp`, by the kind of the request; the scratch
header by the three rows of R115. -/
theorem sweepRequestsEnd : Obligations.SweepRequestsEnd := by
  intro n o s left next lost
  refine ⟨fun e hn => ?_, fun b hn => ?_, fun j hn hj ho => ?_, fun x j hn hj hox => ?_⟩
  · cases e <;> exact if_neg hn
  · have hok : s.mediaEnded (.rekey n o) (.ok b) = s.confirmOp o b := if_pos hn
    rw [hok]
    refine ⟨fun i j g ho hj hg => ?_, fun i ho => ?_, fun i ho => ?_, fun ho => ?_, fun ho => ?_, fun i ho => ?_, fun j ho hj => ?_⟩
    · subst ho
      obtain ⟨w, hw, hchunk, hpos, htweak, hdata, hold, hnew, hstage⟩ := startTransform_work (s := s.opEnded (.read i)) hj hg i b
      have ht : s.confirmOp (.read i) b = _ := hw
      rw [ht]
      refine ⟨⟨rfl, fun q hq => by cases q <;> simp_all [Piece.same, State.opEnded]⟩, w, rfl, hchunk, hpos, htweak, hdata,
        fun x hx => hold.trans (keyOf_copy hx), fun k x hk hx => hnew.trans ?_, ?_⟩
      · rw [hk]
        exact keyOf_copy hx
      · rw [hstage]
        exact coreStage_cases (s.opEnded (.read i))
    · subst ho
      have ht : s.confirmOp (.scratch i) b = _ := thenOps_eq (s.opEnded (.scratch i)) [.headerFilled]
      rw [ht]
      exact ⟨⟨rfl, fun q hq => by cases q <;> simp_all [Piece.same, State.opEnded]⟩, rfl⟩
    · subst ho
      have ht : s.confirmOp (.dest i) b = _ := thenOps_eq (s.opEnded (.dest i)) [.headerCopied]
      rw [ht]
      exact ⟨⟨rfl, fun q hq => by cases q <;> simp_all [Piece.same, State.opEnded]⟩, rfl⟩
    · subst ho
      rw [hn]
      exact progress_with s { s.rke with issued := left, phase := .staged } (.chunkStaged s.rke.chunk)
    · subst ho
      rw [hn]
      exact progress_with s { s.rke with issued := left, closing := true } (.chunkDone s.rke.chunk)
    · subst ho
      rw [recoverRead_eq]
      exact ⟨⟨rfl, fun q hq => by cases q <;> simp_all [Piece.same]⟩, rfl⟩
    · subst ho
      have hop : s.confirmOp .recoverHeader b = (s.opEnded .recoverHeader).judge b := rfl
      intro moved known
      rw [hop]
      refine ⟨fun h hb hmatch => ⟨fun hst => ?_, fun hst => ?_⟩, fun h hb hmatch => ?_, fun hb => ?_⟩
      · subst hb
        rw [judge_copied (s := s.opEnded .recoverHeader) hj hmatch hst]
        exact (recovered_recovered _ j.range _).before
      · subst hb
        rw [judge_filled (s := s.opEnded .recoverHeader) hj hmatch hst]
        obtain ⟨hframe, hrest⟩ := recoverCopy_copies (s.opEnded .recoverHeader) j.range h
        exact ⟨((opEnded_framed s _).trans hframe).mono (by decide), hrest⟩
      · subst hb
        rw [judge_other (s := s.opEnded .recoverHeader) hj hmatch]
        exact (recovered_recovered _ j.range _).before
      · rw [judge_none (s := s.opEnded .recoverHeader) hj hb]
        exact (unrecovered_lost (s := s.opEnded .recoverHeader) hj).before (opEnded_framed s _) rfl fun w => Iff.rfl
  · subst ho
    have hfail : s.mediaEnded (.rekey n .recoverHeader) (.failed .mediaFault) = _ := (if_pos hn).trans (failOp_header hj)
    rw [hfail]
    exact (unrecovered_lost (s := s.headerUnread) hj).before (headerUnread_framed s) rfl fun w => Iff.rfl
  · have hfail : s.mediaEnded (.rekey n o) (.failed x) = _ := (if_pos hn).trans (failOp_other hj hox)
    rw [hfail]
    obtain ⟨hframe, hhold, hqueue, hdue, hrke⟩ := faultJob_effect (s := s.opFailed o) hj x
    refine ⟨((opFailed_framed s o).trans hframe).mono (by decide), hhold, hqueue, hdue, fun hkeep => ?_, fun hissued hphase => ?_⟩
    · rw [hrke, jobFaulted_kept (s := s.opFailed o) x hkeep]
      exact ⟨rfl, rfl, rfl, rfl, mem_insertOp o _⟩
    · rw [hrke, jobFaulted_dropped (s := s.opFailed o) x hissued hphase]
      exact ⟨rfl, rfl, rfl, rfl, rfl⟩

end Sys2Proof


/-! LINK_START (O12): the contexts that a restart frees (R96), the sweep that starts again (R111, R114, R115), and the link
with its values (R170, R171). -/

namespace Sys2Proof.Machine

/-! ### The contexts of a restart are FREE (R96) -/

/-- The references of context c. -/
def State.refsOf (s : State) (c : Nat) : List Nat := (s.ctx c).xfer.elim [] OpenContext.keyRefs

/-- R96: what the contexts of a list leave as they become FREE. -/
structure ContextsFreed (l : List Nat) (s t : State) : Prop where
  ctx : ∀ c, t.ctx c = if c ∈ l then { s.ctx c with xfer := none } else s.ctx c
  rest : t.dpu = { s.dpu with contexts := t.dpu.contexts }
  refs : RefsEnded s t (l.flatMap s.refsOf)
  frame : Framed [.data, .keySlots, .loads, .writes] s t
  only : WritesOnly ((l.flatMap s.refsOf).map StoreUnit.key) s t

theorem RefsEnded.setCtx {s t : State} {ks : List Nat} (h : RefsEnded s t ks) (c : Nat) (x : Context) : RefsEnded s (t.setCtx c x) ks :=
  ⟨h.slots, h.erased, h.erasing, h.left, h.loads, h.copies, h.hold, h.table⟩

theorem RefsEnded.dropUsers {s t : State} {ks : List Nat} (h : RefsEnded s t ks) (ms : List Nat) :
    RefsEnded s (ms.foldl State.dropUser t) (ks ++ ms) := by
  induction ms generalizing t ks with
  | nil => simpa using h
  | cons m ms ih => simpa using ih h.dropUser

theorem contextsFreed_nil (s : State) : ContextsFreed [] s s where
  ctx _ := rfl
  rest := rfl
  refs := refsEnded_nil s
  frame := Framed.refl _ s
  only := WritesOnly.refl _ _

theorem ContextsFreed.freeContext {l : List Nat} {s t : State} (h : ContextsFreed l s t) {c : Nat} (hc : c ∉ l) :
    ContextsFreed (l ++ [c]) s (t.freeContext c) := by
  have hold : t.ctx c = s.ctx c := (h.ctx c).trans (if_neg hc)
  cases hx : (s.ctx c).xfer with
  | none =>
    have hrefs : (l ++ [c]).flatMap s.refsOf = l.flatMap s.refsOf := by simp [State.refsOf, hx]
    have hstay : t.freeContext c = t := by
      unfold State.freeContext
      rw [hold, hx]
    rw [hstay]
    refine ⟨fun d => ?_, h.rest, hrefs ▸ h.refs, h.frame, hrefs ▸ h.only⟩
    rw [h.ctx d]
    by_cases hd : d = c
    · subst hd
      rw [if_neg hc, if_pos (by simp)]
      cases he : s.ctx d
      simp_all
    · simp [hd]
  | some x =>
    have hrefs : (l ++ [c]).flatMap s.refsOf = l.flatMap s.refsOf ++ x.keyRefs := by simp [State.refsOf, hx]
    rw [freeContext_eq (show (t.ctx c).xfer = some x by rw [hold, hx])]
    let u : State := t.setCtx c { t.ctx c with xfer := none }
    have hset : Framed [.data] t u := ⟨rfl, fun q hq => by cases q <;> simp_all [Piece.same, u, State.setCtx]⟩
    have hdrop : Framed [.keySlots, .loads, .writes] u (x.keyRefs.foldl State.dropUser u) := dropUsers_framed ..
    have hdpu : (x.keyRefs.foldl State.dropUser u).dpu = u.dpu := hdrop.2 .data (by decide)
    refine ⟨fun d => ?_, ?_, ?_, ?_, ?_⟩
    · have hctx : (x.keyRefs.foldl State.dropUser u).ctx d = u.ctx d := by rw [State.ctx, State.ctx, hdpu]
      rw [hctx, ctx_setCtx t c d _ (ctx_lt (by simp [hold, hx])), h.ctx d, hold]
      by_cases hd : d = c
      · simp [hd]
      · simp [hd]
    · rw [hdpu]
      exact congrArg (fun y => { y with contexts := u.dpu.contexts }) h.rest
    · rw [hrefs]
      exact (h.refs.setCtx c _).dropUsers x.keyRefs
    · exact (h.frame.trans (hset.trans hdrop)).mono (by decide)
    · rw [hrefs, List.map_append]
      exact h.only.trans (WritesOnly.trans (us := []) (writesOnly_of_eq rfl rfl rfl _) (dropUsers_only x.keyRefs u))

theorem contextsFreed_foldl (l : List Nat) (hl : l.Nodup) (s : State) : ContextsFreed l s (l.foldl State.freeContext s) := by
  induction l using List.reverseRecOn with
  | nil => exact contextsFreed_nil s
  | append_singleton l c ih =>
    rw [List.foldl_append]
    exact (ih (List.nodup_append.mp hl).1).freeContext fun hc => (List.nodup_append.mp hl).2.2 c hc c (by simp) rfl

/-- The references of all contexts. -/
def State.openRefs (s : State) : List Nat := (List.range 16).flatMap s.refsOf

theorem freeAll_freed (s : State) : ContextsFreed (List.range 16) s s.freeAll := contextsFreed_foldl _ List.nodup_range s

/-! ### Requests of a chunk that are made again (R102, R111) -/

theorem mem_insertOp_iff (o x : ChunkOp) (l : List ChunkOp) : x ∈ insertOp o l ↔ x = o ∨ x ∈ l := by
  simp only [insertOp, List.mem_append, List.mem_filter, List.mem_cons, decide_eq_true_eq, Bool.and_eq_true, Bool.not_eq_true',
    decide_eq_false_iff_not, bne_iff_ne]
  by_cases hx : x = o
  · simp [hx]
  · by_cases hp : x.position < o.position <;> simp [hx, hp]

theorem insertOp_sorted (o : ChunkOp) {l : List ChunkOp} (h : (l.map ChunkOp.position).Pairwise (· ≤ ·)) :
    ((insertOp o l).map ChunkOp.position).Pairwise (· ≤ ·) := by
  rw [List.pairwise_map] at h ⊢
  unfold insertOp
  refine List.pairwise_append.mpr ⟨h.filter _, List.pairwise_cons.mpr ⟨fun x hx => ?_, h.filter _⟩, fun x hx y hy => ?_⟩
  · have := (List.mem_filter.mp hx).2
    simp at this
    omega
  · have hlt : x.position < o.position := by simpa using (List.mem_filter.mp hx).2
    obtain rfl | hy := List.mem_cons.mp hy
    · omega
    · have := (List.mem_filter.mp hy).2
      simp at this
      omega

theorem mem_insertOps (x : ChunkOp) (os l : List ChunkOp) : x ∈ os.foldl (fun l o => insertOp o l) l ↔ x ∈ l ∨ x ∈ os := by
  induction os generalizing l with
  | nil => simp
  | cons o os ih =>
    rw [List.foldl_cons, ih, mem_insertOp_iff, List.mem_cons]
    tauto

theorem insertOps_sorted (os : List ChunkOp) {l : List ChunkOp} (h : (l.map ChunkOp.position).Pairwise (· ≤ ·)) :
    ((os.foldl (fun l o => insertOp o l) l).map ChunkOp.position).Pairwise (· ≤ ·) := by
  induction os generalizing l with
  | nil => exact h
  | cons o os ih => exact ih (insertOp_sorted o h)

/-! ### The sweep at a LINK_START (R111, R114, R115) -/

theorem linkSweep_same (s : State) (b : Bool) : s.linkSweep b = { s with rke := (s.linkSweep b).rke } := by
  unfold State.linkSweep
  cases b with
  | true => cases s.rke.phase <;> cases s.rke.headerIssued <;> exact rfl
  | false => cases s.rke.recovery <;> exact rfl

theorem linkSweep_reads {s : State} (hp : s.rke.phase = .reading) (hh : s.rke.headerIssued = false) : (s.linkSweep true).rke = { s.rke with
    chunk := s.rke.chunk + 1, buffer := List.replicate s.rke.n none, issued := []
    todo := (List.range s.rke.n).map ChunkOp.read, work := s.rke.work.filter (fun w => w.stage != .waiting) } := by
  simp only [State.linkSweep, hp, hh]
  exact rfl

theorem linkSweep_writes {s : State} (hp : s.rke.phase = .reading) (hh : s.rke.headerIssued = true) : (s.linkSweep true).rke = { s.rke with
    todo := (List.range s.rke.n).map ChunkOp.scratch, issued := [] } := by
  simp only [State.linkSweep, hp, hh]
  exact rfl

theorem linkSweep_again {s : State} (hp : s.rke.phase ≠ .reading) : (s.linkSweep true).rke = { s.rke with
    todo := s.rke.issued.foldl (fun l o => insertOp o l) s.rke.todo, issued := [] } := by
  simp only [State.linkSweep, if_true]
  cases h : s.rke.phase <;> simp_all

theorem linkSweep_copies {s : State} {first n : Nat} (h : s.rke.recovery = .copy first n) : (s.linkSweep false).rke = { s.rke with
    phase := .copying, first := first, n := n, window := true, headerIssued := true, buffer := List.replicate n none
    todo := (List.range n).map ChunkOp.recoverRead, issued := [], runAnyway := true } := by
  have hcopy : (s.linkSweep false).rke = (s.recoverCopy first n).rke := by
    simp only [State.linkSweep, h]
    exact rfl
  refine hcopy.trans ?_
  unfold State.recoverCopy
  rw [← h]
  exact rfl

theorem mem_namedSlots (s : State) (r k : Nat) : k ∈ s.namedSlots r ↔ ∃ g, s.fields r = some g ∧ k ∈ g.named := by
  unfold State.namedSlots
  cases s.fields r <;> simp

/-! ### The link and its values (R76, R127, R128, R170, R171) -/

/-- R170, R171: the link is started with its values, the hello window and the beacon. -/
def State.linkOn (s : State) (restart : Bool) (credits capacity image scratch : Nat) : State :=
  ((s.linkParameters restart credits capacity image scratch).linkHello).linkBeacon

theorem linkStarted_eq (s : State) (credits capacity image scratch : Nat) : s.linkStarted credits capacity image scratch =
    ((if s.lif.started then s.freeAll else s).linkOn s.lif.started credits capacity image scratch).linkSweep s.lif.started := rfl

theorem linkOn_framed (s : State) (b : Bool) (credits capacity image scratch : Nat) :
    Framed [.link, .media, .tags, .boot, .response, .names] s (s.linkOn b credits capacity image scratch) :=
  ⟨rfl, fun q hq => by
    cases q <;> simp_all [Piece.same, State.linkOn, State.linkParameters, State.linkHello, State.linkBeacon, State.bump]⟩

/-- What holds of the state whose contexts a restart has freed, as of the state itself at a first start. -/
structure Freed (s v : State) : Prop where
  lif : v.lif = s.frameTaken.lif
  btc : v.btc = s.btc
  rsu : v.rsu = s.rsu
  rke : v.rke = s.rke
  power : v.sst.power = s.sst.power
  fresh : v.fresh = s.fresh
  sent : v.sent = s.sent
  generation : ∀ c, (v.ctx c).generation = (s.ctx c).generation
  rest : v.dpu = { s.dpu with contexts := v.dpu.contexts }
  frame : Framed [.bursts, .data, .keySlots, .loads, .writes] s v
  only : WritesOnly (s.openRefs.map StoreUnit.key) s v

theorem frameTaken_bursts (s : State) : Framed [.bursts] s s.frameTaken :=
  ⟨rfl, fun q hq => by cases q <;> simp_all [Piece.same, State.frameTaken]⟩

theorem freed_frameTaken (s : State) : Freed s s.frameTaken :=
  ⟨rfl, rfl, rfl, rfl, rfl, rfl, rfl, fun _ => rfl, rfl, (frameTaken_bursts s).mono (by decide), writesOnly_of_eq rfl rfl rfl _⟩

theorem freed_freeAll (s : State) : Freed s s.frameTaken.freeAll := by
  have h := freeAll_freed s.frameTaken
  have hsame : WritesOnly [] s s.frameTaken := writesOnly_of_eq rfl rfl rfl _
  refine ⟨by simp, by simp [State.frameTaken], by simp [State.frameTaken], by simp [State.frameTaken], by simp [State.frameTaken],
    by simp [State.frameTaken], by simp [State.frameTaken], fun c => ?_, h.rest, ((frameTaken_bursts s).trans h.frame).mono (by decide),
    hsame.trans h.only⟩
  rw [h.ctx]
  split <;> exact rfl

theorem freeAll_refs (s : State) : RefsEnded s s.frameTaken.freeAll s.openRefs := by
  obtain ⟨hslots, herased, herasing, hleft, hloads, hcopies, hhold, htable⟩ := (freeAll_freed s.frameTaken).refs
  exact ⟨hslots, herased, herasing, hleft, hloads, hcopies, hhold, htable⟩

theorem linkFieldsFit_iff (credits capacity image scratch size : Nat) : linkFieldsFit credits capacity image scratch size = true ↔
    1 ≤ credits ∧ credits ≤ 8 ∧ 1 ≤ capacity ∧ capacity ≤ 2 ^ 40 ∧ image < 2 ^ 48 ∧ scratch ≤ 2 ^ 48 - 34 ∧
      (size = 0 ∨ scratch + 33 ≤ image ∨ image + size ≤ scratch) := by
  unfold linkFieldsFit overlap Config.blockMax Config.mediaMax Config.scratchSpan
  simp only [Bool.and_eq_true, decide_eq_true_eq, Bool.not_eq_true', Bool.and_eq_false_iff, decide_eq_false_iff_not, and_assoc]
  omega

theorem scratchFixed_iff (s : State) (scratch : Nat) : ¬ (s.scratchFixed = true ∧ scratch ≠ s.lif.scratchBase) ↔
    (s.lif.started = true → scratch ≠ s.lif.scratchBase → s.rke.phase ≠ .staged ∧ s.rke.phase ≠ .copying ∧ s.rke.recovery = .none) := by
  simp only [State.scratchFixed, Bool.and_eq_true, Bool.or_eq_true, beq_iff_eq, bne_iff_ne]
  tauto

end Sys2Proof.Machine

namespace Sys2Proof
open Machine

/-- Settles O12: a LINK_START is `linkOn` and `linkSweep` on the state whose contexts a restart has freed, whose slots and
loads are those at the end of all their references. -/
theorem linkStartStartsTheLink : Obligations.LinkStartStartsTheLink := by
  intro f credits capacity image scratch s hp fits refs
  have hrefs : refs = s.openRefs := List.flatMap_congr fun c _ => by
    unfold State.refsOf
    cases (s.ctx c).xfer <;> exact rfl
  have hgo := goes_request (act := fun t rto => t.linkStart credits capacity image scratch rto.tag) rfl hp fun _ => rfl
  have hbegun : s.begun .linkStart f = s.frameTaken := rfl
  rw [hbegun] at hgo
  have hfits : fits ↔ linkFieldsFit credits capacity image scratch s.btc.imageSize = true ∧
      ¬ (s.scratchFixed = true ∧ scratch ≠ s.lif.scratchBase) := by
    rw [linkFieldsFit_iff, scratchFixed_iff]
    simp only [fits, and_assoc]
  refine ⟨fun hfit => ?_, fun hfit => ?_⟩
  · obtain ⟨hfields, hfixed⟩ := hfits.mp hfit
    let v : State := if s.lif.started then s.frameTaken.freeAll else s.frameTaken
    let w : State := v.linkOn s.lif.started credits capacity image scratch
    obtain ⟨x, hx⟩ : ∃ x, w.linkSweep s.lif.started = { w with rke := x } := ⟨_, linkSweep_same w s.lif.started⟩
    have hxrke : (w.linkSweep s.lif.started).rke = x := congrArg (fun y => y.rke) hx
    have hv : Freed s v := by
      by_cases h : s.lif.started = true
      · rw [show v = s.frameTaken.freeAll from if_pos h]
        exact freed_freeAll s
      · rw [show v = s.frameTaken from if_neg h]
        exact freed_frameTaken s
    have hwrke : w.rke = s.rke := hv.rke
    let t : State := ({ w with rke := x } : State).send .control f.tag (.linkStarted s.btc.state s.sst.power s.lif.started)
    have hstart : s.frameTaken.linkStart credits capacity image scratch f.tag = t.settleDrain := by
      refine (if_neg (by simp [State.frameTaken, hfields])).trans ((if_neg hfixed).trans ?_)
      have hlink : s.frameTaken.linkStarted credits capacity image scratch = { w with rke := x } := hx
      rw [hlink]
      exact congrArg₂ (fun a b => (State.send { w with rke := x } .control f.tag (.linkStarted a b s.lif.started)).settleDrain)
        (congrArg (fun y => y.state) hv.btc) hv.power
    have hframe : Framed [.bursts, .data, .keySlots, .loads, .writes] s v := hv.frame
    have hlast : Framed [.rekey, .sent] w t := ⟨rfl, fun q hq => by cases q <;> simp_all [Piece.same, t, State.send]⟩
    have ht : Framed [.link, .media, .tags, .boot, .response, .names, .rekey, .sent] v t :=
      ((linkOn_framed v s.lif.started credits capacity image scratch).trans hlast).mono (by decide)
    have honly : WritesOnly (refs.map StoreUnit.key) s t := hrefs ▸ hv.only
    refine ⟨t, hgo.trans (congrArg done hstart), (hframe.trans ht).mono (by decide), rfl, rfl, rfl, rfl, rfl, rfl, rfl, ?_, ?_, rfl, rfl, rfl,
      ?_, fun h => ?_, ?_, ?_, honly, fun h => ?_, fun h => ?_, ?_, ?_, ?_, ?_⟩
    · exact congrArg (fun y => y.nextTag) hv.lif
    · exact congrArg (fun y => y.erroredBursts) hv.lif
    · exact if_congr Iff.rfl rfl (congrArg (fun y => y.tagsInUse) hv.lif)
    · have hfree : v = s.frameTaken.freeAll := if_pos h
      refine ⟨?_, fun c hc => ?_⟩
      · exact (if_pos h).trans (congrArg (fun y => y.session + 1) hv.lif)
      · have hctx := (freeAll_freed s.frameTaken).ctx c
        rw [if_pos (List.mem_range.mpr hc), ← hfree] at hctx
        exact congrArg (fun y => y.xfer) hctx
    · exact fun c _ => hv.generation c
    · exact hv.rest
    · have hfree : v = s.frameTaken.freeAll := if_pos h
      have hended : RefsEnded s v refs := by
        rw [hrefs, hfree]
        exact freeAll_refs s
      refine ⟨hended.slots, fun k hk hr he hz => ?_, fun r => ?_, fun r k hk ho hl hh hz => ?_, fun hp hh => ?_, fun hp hh => ?_, fun hp => ⟨?_, ?_, ?_⟩⟩
      · refine (hended.erased k ⟨hk, hr, he, ?_⟩).2.2
        rwa [← (hended.fields k).2.2]
      · by_cases hl : s.LeftBy refs r
        · exact .inr ⟨hl.1, (hended.left r hl).1⟩
        · exact .inl (hended.loads r hl)
      · refine (hended.left r ⟨hl, ⟨k, hk, ho⟩, hh, fun y hy hyo => ?_⟩).1
        obtain ⟨g, hg, hy⟩ := (mem_namedSlots s r y).mp hy
        exact (hended.fields y).2.2.symm.trans (hz g hg y hy hyo)
      · rw [← hwrke] at hp hh ⊢
        rw [h] at hxrke
        exact hxrke.symm.trans (linkSweep_reads hp hh)
      · rw [← hwrke] at hp hh ⊢
        rw [h] at hxrke
        exact hxrke.symm.trans (linkSweep_writes hp hh)
      all_goals
        rw [← hwrke] at hp ⊢
        rw [h, linkSweep_again hp] at hxrke
      · exact hxrke.symm.trans (congrArg (fun l => ({ w.rke with todo := l, issued := [] } : Rekey)) (congrArg (fun y => y.todo) hxrke))
      · exact fun o => (congrArg (fun y => o ∈ y.todo) hxrke.symm).to_iff.trans (mem_insertOps o _ _)
      · intro hsorted
        exact (congrArg (fun y : Rekey => (y.todo.map ChunkOp.position).Pairwise (· ≤ ·)) hxrke).mp (insertOps_sorted _ hsorted)
    · have hstay : v = s.frameTaken := if_neg (by simp [h])
      refine ⟨congrArg (fun y => y.kst) hstay, congrArg (fun y => y.dpu) hstay, congrArg (fun y => y.sst) hstay, ?_⟩
      rw [h] at hxrke
      refine hxrke.symm.trans ?_
      rw [← hwrke]
      cases hr : w.rke.recovery with
      | none => simp only [State.linkSweep, hr, Bool.false_eq_true, if_false]
      | copy first n => exact linkSweep_copies hr
      | header =>
        simp only [State.linkSweep, hr]
        exact rfl
    · exact congrArg (fun y : Boot => { y with
        hello := if y.token.isSome then .waiting else .none, window := if y.token.isSome then some 30 else none }) hv.btc
    · exact congrArg₂ (fun (y : Response) n => { y with absence := 0, beacon := { issue := n } }) hv.rsu hv.fresh
    · exact congrArg (fun n => n + 1) hv.fresh
    · exact congrArg (fun l => l ++ [frame .control f.tag (.linkStarted s.btc.state s.sst.power s.lif.started)]) hv.sent
  · refine hgo.trans (congrArg done ?_)
    by_cases hfields : linkFieldsFit credits capacity image scratch s.btc.imageSize = true
    · have hfixed : s.scratchFixed = true ∧ scratch ≠ s.lif.scratchBase := by
        by_contra hn
        exact hfit (hfits.mpr ⟨hfields, hn⟩)
      exact (if_neg (by simp [State.frameTaken, hfields])).trans (if_pos hfixed)
    · exact if_pos (Bool.eq_false_iff.mpr hfields)

end Sys2Proof


/-! What a start-up rebuilds from the record units (O60). The statement claims for every stored content that the Range Table
shows `Units.table`, which keeps no envelope whose holder is a credential slot beyond the ten of the part. The start-up drops
an envelope of a slot whose record was damaged, and a slot that is none has no damaged record: it keeps that envelope. -/

namespace Sys2Proof.Machine

/-- Range 0 as stored, its one envelope for a credential slot 12, of which the part has none. -/
def strayRange : RangeFields :=
  { RangeFields.blank 0 manufactureRak with
    envelopes := [{ holder := .cred 12, wraps := [.device], rak := manufactureRak, whole := true }] }

/-- The part without supply, fresh from manufacture but for the record of range 0. -/
def strayStored : State :=
  { State.manufactured with
    sst := { State.manufactured.sst with
      units := { Units.manufacture with range := some (.enabled strayRange) :: List.replicate 15 (some .disabled) } } }

def quietStart : StartInputs := { edges := [], badKeys := [], badEnvelopes := [] }

theorem strayStored_shaped : Shaped strayStored := by
  refine ⟨?_, ?_, ?_, ?_, ?_, ?_, ?_, ?_, ?_, ?_, ?_⟩ <;> exact rfl

/-- The stored table as the statement reads it has no envelope in range 0. -/
theorem strayStored_table :
    ((strayStored.sst.units.spoil quietStart).table[0]?).getD .disabled = .enabled { strayRange with envelopes := [] } := by
  decide +kernel

/-- The start-up leaves the envelope in range 0. -/
theorem strayStored_started :
    ((strayStored.startUp quietStart).fields 0).map (fun g => g.envelopes) = some strayRange.envelopes := by
  decide +kernel

/-- The ranges after a command are those before the store is served. -/
theorem fields_of_goes {c : Instr} {s t u : State} (h : Goes c s t) (hu : exec c s = .next u) (r : Nat) : t.fields r = u.fields r := by
  have heq : t.serve = u := Host.Outcome.next.inj (h.symm.trans hu)
  rw [← heq]
  exact (fields_of_rtb (by simp) r).symm

end Sys2Proof.Machine

namespace Sys2Proof
open Machine

/-- Refutes O60: the start-up of `strayStored`, whose staged list has mark NONE, keeps in range 0 the envelope that the
stored table of the statement lacks. -/
theorem not_startUpRebuildsTheBlocks : ¬ Obligations.StartUpRebuildsTheBlocks := by
  intro h
  obtain ⟨t, hgoes, -, -, -, -, htable, -⟩ := h quietStart strayStored rfl strayStored_shaped
  obtain ⟨hshows, -⟩ := htable fun l hl => by
    cases hl
    exact rfl
  have hrange := (congrArg (t.shows 0) strayStored_table).mp (hshows 0 (by decide))
  obtain ⟨g, hg, -, henvelopes, -⟩ := hrange
  have hfields : t.fields 0 = (strayStored.startUp quietStart).fields 0 :=
    (fields_of_goes hgoes rfl 0).trans (fields_of_rtb (by simp) 0)
  have hstarted := strayStored_started
  rw [← hfields, hg] at hstarted
  have hstray : g.envelopes = strayRange.envelopes := Option.some.inj hstarted
  rw [henvelopes] at hstray
  cases hstray

end Sys2Proof


/-! The entry to STANDBY (O57; R6, R108, R160): the sweep that pauses, and the ranges with standby_lock that are locked. -/

namespace Sys2Proof.Machine

/-! ### The sweep pauses (R107, R108) -/

/-- The sweep without its chunk, where that can be dropped. -/
def State.sweepDropped (s : State) : Rekey := if s.droppable then s.dropChunk.rke else s.rke

theorem pauseSweep_start (s : State) : (if s.droppable then s.dropChunk else s) = { s with rke := s.sweepDropped } := by
  unfold State.sweepDropped
  split <;> exact rfl

/-- The hold is released, the chunk dropped where it can be. -/
def State.sweepLeft (s : State) : State := ({ s with rke := s.sweepDropped } : State).releaseHold

/-- R107: the head job is one that a standby pauses. -/
def State.Pauses (s : State) : Prop := ∃ j, s.headJob = some j ∧ j.state = .sweeping ∧ s.rke.finished = none

theorem sweepDropped_queue (s : State) : s.sweepDropped.queue = s.rke.queue ∧ s.sweepDropped.finished = s.rke.finished ∧
    s.sweepDropped.dueProgress = s.rke.dueProgress := by
  unfold State.sweepDropped
  split <;> exact ⟨rfl, rfl, rfl⟩

theorem sweepLeft_rke (s : State) : s.sweepLeft.rke = s.sweepDropped := by simp [State.sweepLeft]

theorem pauseSweep_eq (s : State) : s.pauseSweep false = match s.sweepLeft.headJob with
    | some j => if j.state = .sweeping ∧ s.sweepLeft.rke.finished = none then
        (s.sweepLeft.mapHead (fun j => { j with state := .paused })).writeProgressPart [] else s.sweepLeft
    | none => s.sweepLeft := by
  unfold State.pauseSweep
  rw [pauseSweep_start]
  exact rfl

theorem sweepLeft_head (s : State) : s.sweepLeft.headJob = s.headJob := by
  rw [State.headJob, sweepLeft_rke, (sweepDropped_queue s).1, State.headJob]

theorem pauseSweep_pauses {s : State} (h : s.Pauses) :
    s.pauseSweep false = (s.sweepLeft.mapHead (fun j => { j with state := .paused })).writeProgressPart [] := by
  obtain ⟨j, hj, hs, hf⟩ := h
  rw [pauseSweep_eq, sweepLeft_head, hj]
  exact if_pos ⟨hs, by rw [sweepLeft_rke, (sweepDropped_queue s).2.1, hf]⟩

theorem pauseSweep_stays {s : State} (h : ¬ s.Pauses) : s.pauseSweep false = s.sweepLeft := by
  rw [pauseSweep_eq, sweepLeft_head]
  cases hj : s.headJob with
  | none => exact rfl
  | some j =>
    refine if_neg fun hs => h ⟨j, hj, hs.1, ?_⟩
    rw [← (sweepDropped_queue s).2.1, ← sweepLeft_rke]
    exact hs.2

/-- R108: what the pause does to the sweep. -/
structure SweepPaused (s t : State) : Prop where
  paused : s.Pauses → t.rke.queue = s.rke.queue.modify 0 (fun j => { j with state := .paused }) ∧
    (t.hasWrite .rekeyProgress ∨ t.rke.dueProgress ≠ none)
  stays : ¬ s.Pauses → t.rke.queue = s.rke.queue ∧ t.rke.dueProgress = s.rke.dueProgress
  rest : t.rke = { s.sweepDropped with queue := t.rke.queue, dueProgress := t.rke.dueProgress }
  only : WritesOnly (.rekeyProgress :: s.heldUnits) s t

theorem sweepLeft_only (s : State) : WritesOnly s.heldUnits s s.sweepLeft :=
  releaseHold_only ({ s with rke := s.sweepDropped } : State)

theorem pauseSweep_paused (s : State) : SweepPaused s (s.pauseSweep false) := by
  obtain ⟨hqueue, -, hdue⟩ := sweepDropped_queue s
  have hrke := sweepLeft_rke s
  by_cases h : s.Pauses
  · rw [pauseSweep_pauses h]
    let u : State := s.sweepLeft.mapHead (fun j => { j with state := .paused })
    have hu : u.rke = { s.sweepDropped with queue := s.rke.queue.modify 0 (fun j => { j with state := .paused }) } := by
      rw [mapHead_rke, ← hrke, ← hqueue, ← hrke]
      exact rfl
    have hsame : WritesOnly [] s.sweepLeft u := writesOnly_of_eq rfl rfl rfl _
    refine ⟨fun _ => ⟨?_, u.writeProgressPart_held []⟩, fun hn => absurd h hn, ?_, ?_⟩
    · rw [u.writeProgressPart_rke [], hu]
    · rw [u.writeProgressPart_rke [], hu]
    · exact (((sweepLeft_only s).trans hsame).trans (u.writeProgressPart_only [])).mono (by simp [or_comm])
  · rw [pauseSweep_stays h]
    refine ⟨fun hp => absurd hp h, fun _ => ⟨?_, ?_⟩, ?_, (sweepLeft_only s).mono (List.subset_cons_self _ _)⟩
    · rw [hrke, hqueue]
    · rw [hrke, hdue]
    · rw [hrke]

/-- The Key Store and the table after the pause are those after the release of the hold. -/
theorem pauseSweep_kst (s : State) : (s.pauseSweep false).kst = s.sweepLeft.kst ∧ (s.pauseSweep false).rtb = s.rtb := by
  have hrtb : s.sweepLeft.rtb = s.rtb := by simp [State.sweepLeft]
  by_cases h : s.Pauses
  · rw [pauseSweep_pauses h]
    exact ⟨by simp, by simp [hrtb]⟩
  · rw [pauseSweep_stays h]
    exact ⟨rfl, hrtb⟩

/-! ### The hold is released (R28, R34) -/

/-- How often the hold has a reference on slot k. -/
def State.heldOn (s : State) (k : Nat) : Nat := (s.kst.hold.toList.flatMap (fun h => [h.oldKey, h.newKey])).count k

/-- What the release leaves of users, owners and loads. -/
structure HoldGone (s t : State) : Prop where
  hold : t.kst.hold = none
  slots : ∀ x, (t.slot x).users = (s.slot x).users - s.heldOn x ∧ (t.slot x).owner = (s.slot x).owner
  loads : ∀ r, (∀ h, s.kst.hold = some h → h.range ≠ r ∧ (s.slot h.oldKey).owner ≠ some r ∧ (s.slot h.newKey).owner ≠ some r) →
    t.load r = s.load r
  released : ∀ h, s.kst.hold = some h → LoadReleased s t h.range

theorem releaseHold_loads {s : State} {h : Hold} (hh : s.kst.hold = some h) {r : Nat} (hr : h.range ≠ r)
    (hold : (s.slot h.oldKey).owner ≠ some r) (hnew : (s.slot h.newKey).owner ≠ some r) : s.releaseHold.load r = s.load r := by
  rw [releaseHold_some hh, settleHeld_load, if_neg (Ne.symm hr)]
  refine (refsEnded_foldl s.unheld [h.oldKey, h.newKey]).loads r fun hleft => ?_
  obtain ⟨-, ⟨k, hk, howner⟩, -⟩ := hleft
  obtain rfl | rfl : k = h.oldKey ∨ k = h.newKey := by simpa using hk
  · exact hold howner
  · exact hnew howner

theorem releaseHold_gone (s : State) : HoldGone s s.releaseHold := by
  cases hh : s.kst.hold with
  | none =>
    rw [s.releaseHold_none hh]
    exact ⟨hh, fun x => ⟨by simp [State.heldOn, hh], rfl⟩, fun _ _ => rfl, fun h h' => by rw [hh] at h'; cases h'⟩
  | some h =>
    have hreleased := releaseHold_released hh
    refine ⟨State.releaseHold_hold s, fun x => ?_, fun r hr => ?_, fun g hg => ?_⟩
    · rw [hreleased.slots x]
      exact ⟨by simp [State.usersLeft, State.heldOn, hh], rfl⟩
    · obtain ⟨hrange, hold, hnew⟩ := hr h hh
      exact releaseHold_loads hh hrange hold hnew
    · rw [hh] at hg
      cases hg
      exact hreleased.load

/-- The same of a state whose Key Store and table are these. -/
theorem HoldGone.congr {s t u : State} (h : HoldGone s t) (hkst : u.kst = t.kst) (hrtb : u.rtb = t.rtb) : HoldGone s u := by
  have hslot : ∀ x, u.slot x = t.slot x := fun x => by rw [State.slot, State.slot, hkst]
  have hload : ∀ r, u.load r = t.load r := fun r => by rw [State.load, State.load, hkst]
  refine ⟨by rw [hkst, h.hold], fun x => by rw [hslot]; exact h.slots x, fun r hr => (hload r).trans (h.loads r hr), fun x hx => ?_⟩
  have hreleased := h.released x hx
  unfold LoadReleased State.namedSlots at hreleased ⊢
  simp only [hslot, hload, fields_of_rtb hrtb]
  exact hreleased

theorem pauseSweep_gone (s : State) : HoldGone s (s.pauseSweep false) := by
  obtain ⟨hkst, hrtb⟩ := pauseSweep_kst s
  have hgone := releaseHold_gone ({ s with rke := s.sweepDropped } : State)
  have hleft : HoldGone s s.sweepLeft := ⟨hgone.hold, hgone.slots, hgone.loads, hgone.released⟩
  exact hleft.congr hkst (hrtb.trans (by simp [State.sweepLeft]))

/-! ### The ranges with standby_lock are locked (R6, R160) -/

/-- Locks change the lock flags of the table alone. -/
theorem RangesLocked.alike {rd wr : Bool} {l : List Nat} {s t : State} (h : RangesLocked rd wr l s t) : TableAlike s t := fun q => by
  rw [h.fields]
  split
  · cases s.fields q <;> exact rfl
  · exact rfl

theorem RangesLocked.slots {rd wr : Bool} {l : List Nat} {s t : State} (h : RangesLocked rd wr l s t) (x : Nat) :
    (t.slot x).users = (s.slot x).users ∧ (t.slot x).owner = (s.slot x).owner := by
  rw [h.slot]
  split <;> exact ⟨rfl, rfl⟩

/-- A range that is not locked is released as before. -/
theorem LoadReleased.locked {rd wr : Bool} {l : List Nat} {s p t : State} {r : Nat} (h : LoadReleased s p r) (k : RangesLocked rd wr l p t)
    (hr : r ∉ l) : LoadReleased s t r := by
  have hfields : t.fields r = p.fields r := (k.fields r).trans (if_neg hr)
  have hload : t.load r = p.load r := (k.load r).trans (if_neg fun hc => hr hc.1)
  have husers : ∀ x, (t.slot x).users = (p.slot x).users := fun x => (k.slots x).1
  have howner : ∀ x, (t.slot x).owner = (p.slot x).owner := fun x => (k.slots x).2
  unfold LoadReleased at h ⊢
  simp only [k.alike.named, hfields, hload, husers, howner]
  exact h

/-- The state whose sweep has paused, in STANDBY. -/
def State.sleeping (s : State) : State := ({ s with sst := { s.sst with power := .standby } } : State).pauseSweep false

theorem enterStandby_eq (s : State) : s.enterStandby =
    (s.sleeping.rangesWhere (fun f => f.standbyLock)).foldl (fun u r => u.lockRange true true r) s.sleeping := rfl

theorem sleeping_gone (s : State) : HoldGone s s.sleeping := by
  have h := pauseSweep_gone ({ s with sst := { s.sst with power := .standby } } : State)
  exact ⟨h.hold, h.slots, h.loads, h.released⟩

theorem sleeping_shaped {s : State} (hs : Shaped s) : Shaped s.sleeping :=
  (State.pauseSweep_keeps ({ s with sst := { s.sst with power := .standby } } : State) false).shaped hs

theorem sleeping_rtb (s : State) : s.sleeping.rtb = s.rtb := (pauseSweep_kst _).2

theorem enterStandby_locked {s : State} (hs : Shaped s) :
    RangesLocked true true (s.sleeping.rangesWhere (fun f => f.standbyLock)) s.sleeping s.enterStandby :=
  lockRanges_locked true true _ (rangesWhere_nodup _ _) _ (sleeping_shaped hs)

theorem lockRanges_same (rd wr : Bool) (l : List Nat) (s : State) : let t := l.foldl (fun u r => u.lockRange rd wr r) s
    t.rke = s.rke ∧ t.sst = s.sst ∧ t.sent = s.sent ∧ t.kst.hold = s.kst.hold := by
  simp

/-- R6, R42, R160: what a range's flags and load are in STANDBY. -/
structure RangeAsleep (s t : State) (r : Nat) (g : RangeFields) : Prop where
  fields : t.fields r = some { g with readLocked := g.readLocked || g.standbyLock, writeLocked := g.writeLocked || g.standbyLock }
  locked : g.standbyLock = true → ∀ k, t.load r ≠ .loaded k
  unused : g.standbyLock = true → (∀ k ∈ g.named, s.owns r k = true → (s.slot k).users ≤ s.heldOn k) → t.load r = .notLoaded
  kept : g.standbyLock = false → (∀ h, s.kst.hold = some h → h.range ≠ r ∧ (s.slot h.oldKey).owner ≠ some r ∧
    (s.slot h.newKey).owner ≠ some r) → t.load r = s.load r
  released : g.standbyLock = false → ∀ h, s.kst.hold = some h → h.range = r → LoadReleased s t r

theorem hasHolders_of_unused {s : State} {r : Nat} {g : RangeFields} (hg : s.fields r = some g) (hh : s.kst.hold = none)
    (hu : ∀ k ∈ g.named, (s.slot k).owner = some r → (s.slot k).users = 0) : s.hasHolders r = false := by
  rw [← Bool.not_eq_true, State.hasHolders_iff, hh]
  rintro (⟨x, hx, -⟩ | ⟨k, hk, ho, hpos⟩)
  · cases hx
  · obtain ⟨g', hg', hk⟩ := (mem_namedSlots s r k).mp hk
    rw [hg] at hg'
    cases hg'
    have := hu k hk (by simpa [State.owns] using ho)
    omega

theorem enterStandby_range {s : State} (hs : Shaped s) {r : Nat} {g : RangeFields} (hg : s.fields r = some g) :
    RangeAsleep s s.enterStandby r g := by
  have hgone := sleeping_gone s
  have hlocks := enterStandby_locked hs
  have hp : s.sleeping.fields r = some g := (fields_of_rtb (sleeping_rtb s) r).trans hg
  have hmem : r ∈ s.sleeping.rangesWhere (fun f => f.standbyLock) ↔ g.standbyLock = true := by
    rw [mem_rangesWhere _ _ _ (sleeping_shaped hs)]
    constructor
    · rintro ⟨g', hg', h⟩
      rw [hp] at hg'
      cases hg'
      exact h
    · exact fun h => ⟨g, hp, h⟩
  have hcloses : s.sleeping.closes true true r = true := by simp [State.closes, hp]
  cases hb : g.standbyLock with
  | true =>
    have hin := hmem.mpr hb
    have hload := (hlocks.load r).trans (if_pos ⟨hin, hcloses⟩)
    refine ⟨?_, fun _ k hk => ?_, fun _ hu => ?_, by simp [hb], by simp [hb]⟩
    · rw [hlocks.fields, if_pos hin, hp]
      simp [RangeFields.locked, hb]
    · rw [hload] at hk
      cases hl : s.sleeping.load r <;> simp only [hl, Load.unloaded] at hk
      · cases hk
      all_goals split at hk <;> cases hk
    · have hfree : s.sleeping.hasHolders r = false := hasHolders_of_unused hp hgone.hold fun k hk ho => by
        obtain ⟨husers, howner⟩ := hgone.slots k
        have := hu k hk (by simpa [State.owns] using howner.symm.trans ho)
        omega
      rw [hload, hfree]
      cases s.sleeping.load r <;> exact rfl
  | false =>
    have hin : r ∉ s.sleeping.rangesWhere (fun f => f.standbyLock) := fun h => by simp [hmem.mp h] at hb
    refine ⟨?_, by simp [hb], by simp [hb], fun _ hr => ?_, fun _ h hh hr => ?_⟩
    · rw [hlocks.fields, if_neg hin, hp]
      cases g
      simp_all
    · exact ((hlocks.load r).trans (if_neg fun hc => hin hc.1)).trans (hgone.loads r hr)
    · subst hr
      exact (hgone.released h hh).locked hlocks hin

/-! ### The part is in STANDBY (R160, R162) -/

/-- The part in STANDBY, with its drain and the mark of a POWER_DOWN. -/
def State.asleepWith (s : State) (d : Drain) (m : Bool) : State :=
  { s.enterStandby with sst := { s.enterStandby.sst with drain := d, downMark := m } }

theorem asleepWith_framed (s : State) (d : Drain) (m : Bool) :
    Framed [.power, .ranges, .loads, .keySlots, .hold, .rekey, .writes] s (s.asleepWith d m) :=
  ⟨s.enterStandby_keeps.1, fun q hq => by cases q <;> simp_all [Piece.same, State.asleepWith]⟩

theorem asleepWith_power (s : State) (d : Drain) (m : Bool) : (s.asleepWith d m).sst.power = .standby := by
  have hpower : s.sleeping.sst.power = .standby := by simp [State.sleeping]
  have hlocks := (lockRanges_same true true (s.sleeping.rangesWhere (fun f => f.standbyLock)) s.sleeping).2.1
  rw [← enterStandby_eq] at hlocks
  exact (congrArg (fun x => x.power) hlocks).trans hpower

theorem asleepWith_hold (s : State) (d : Drain) (m : Bool) : (s.asleepWith d m).kst.hold = none := by
  have hlocks := (lockRanges_same true true (s.sleeping.rangesWhere (fun f => f.standbyLock)) s.sleeping).2.2.2
  rw [← enterStandby_eq] at hlocks
  exact hlocks.trans (sleeping_gone s).hold

theorem asleepWith_sweep {s : State} (hs : Shaped s) (d : Drain) (m : Bool) : SweepPaused s (s.asleepWith d m) := by
  have hpaused := pauseSweep_paused ({ s with sst := { s.sst with power := .standby } } : State)
  obtain ⟨hrke, hsst, -, -⟩ := lockRanges_same true true (s.sleeping.rangesWhere (fun f => f.standbyLock)) s.sleeping
  rw [← enterStandby_eq] at hrke hsst
  have hsame : WritesOnly [] s.sleeping (s.asleepWith d m) :=
    writesOnly_of_eq (congrArg (fun x => x.queue) hsst) (congrArg (fun x => x.waiting) hsst) (congrArg (fun x => x.serving) hsst) _
  have hrec : (s.asleepWith d m).recordOf .rekeyProgress = s.sleeping.recordOf .rekeyProgress :=
    (enterStandby_locked hs).alike.record hrke
  refine ⟨fun h => ?_, fun h => ?_, ?_, ?_⟩
  · obtain ⟨hqueue, hwrite⟩ := hpaused.paused h
    refine ⟨(congrArg (fun x => x.queue) hrke).trans hqueue, hwrite.imp (State.hasWrite_of hsame .rekeyProgress (by simp) hrec) fun hdue => ?_⟩
    rw [show (s.asleepWith d m).rke = s.sleeping.rke from hrke]
    exact hdue
  · obtain ⟨hqueue, hdue⟩ := hpaused.stays h
    exact ⟨(congrArg (fun x => x.queue) hrke).trans hqueue, (congrArg (fun x => x.dueProgress) hrke).trans hdue⟩
  · rw [show (s.asleepWith d m).rke = s.sleeping.rke from hrke]
    exact hpaused.rest
  · have honly : WritesOnly (.rekeyProgress :: s.heldUnits) s s.sleeping := hpaused.only
    exact (honly.trans hsame).mono (by simp)

theorem asleepWith_range {s : State} (hs : Shaped s) (d : Drain) (m : Bool) {r : Nat} {g : RangeFields} (hg : s.fields r = some g) :
    RangeAsleep s (s.asleepWith d m) r g := by
  have h := enterStandby_range hs hg
  exact ⟨h.fields, h.locked, h.unused, h.kept, h.released⟩

theorem contextsOpen_iff (s : State) : s.contextsOpen = true ↔ ∃ c < 16, (s.ctx c).xfer ≠ none := by
  unfold State.contextsOpen
  rw [Bool.not_eq_true', List.isEmpty_eq_false_iff_exists_mem]
  constructor
  · rintro ⟨⟨c, x⟩, hmem⟩
    obtain ⟨hc, hx⟩ := (mem_openContexts s c x).mp hmem
    exact ⟨c, hc, by simp [hx]⟩
  · rintro ⟨c, hc, hx⟩
    obtain ⟨x, hx⟩ := Option.ne_none_iff_exists'.mp hx
    exact ⟨(c, x), (mem_openContexts s c x).mpr ⟨hc, hx⟩⟩

end Sys2Proof.Machine


/-! STANDBY (O57): the part wakes with a reseal and a reopen (R6, R108, R161), and the drains end (R160, R162). -/

namespace Sys2Proof.Machine

/-! ### The reseal (R6, R70) -/

/-- The ranges that a wake seals. -/
def State.sealedRanges (s : State) : List Nat :=
  if s.rtb.resealOnWake = true ∧ s.btc.state = .opened then s.rangesWhere (fun f => f.powerLock) else []

theorem reseal_eq (s : State) : s.reseal = { s.sealedRanges.foldl (fun u r => u.lockRange true true r) s with
    btc := if s.rtb.resealOnWake = true ∧ s.btc.state = .opened then { s.btc with state := .sealed, unsealed := false } else s.btc } := by
  unfold State.reseal State.sealedRanges
  by_cases h : s.rtb.resealOnWake = true ∧ s.btc.state = .opened
  · rw [if_pos h, if_pos h, if_pos h]
    simp
  · rw [if_neg h, if_neg h, if_neg h]
    exact rfl

theorem mem_sealedRanges {s : State} (hs : Shaped s) {r : Nat} {g : RangeFields} (hg : s.fields r = some g) :
    r ∈ s.sealedRanges ↔ s.rtb.resealOnWake = true ∧ s.btc.state = .opened ∧ g.powerLock = true := by
  unfold State.sealedRanges
  split
  · next h =>
    rw [mem_rangesWhere _ _ _ hs]
    constructor
    · rintro ⟨g', hg', hp⟩
      rw [hg] at hg'
      cases hg'
      exact ⟨h.1, h.2, hp⟩
    · exact fun hp => ⟨g, hg, hp.2.2⟩
  · next h => exact ⟨fun hm => absurd hm (by simp), fun hp => absurd ⟨hp.1, hp.2.1⟩ h⟩

theorem sealedRanges_nodup (s : State) : s.sealedRanges.Nodup := by
  unfold State.sealedRanges
  split
  · exact rangesWhere_nodup _ _
  · exact List.nodup_nil

theorem reseal_locked {s : State} (hs : Shaped s) : RangesLocked true true s.sealedRanges s s.reseal := by
  have hlocked := lockRanges_locked true true s.sealedRanges (sealedRanges_nodup s) s hs
  refine hlocked.congr rfl rfl ?_ ?_
  · rw [reseal_eq]
  · rw [reseal_eq]

theorem reseal_framed (s : State) : Framed [.boot, .ranges, .loads, .keySlots] s s.reseal :=
  ⟨s.reseal_keeps.1, fun q hq => by cases q <;> simp_all [Piece.same]⟩

/-! ### The reopen (R6) -/

/-- The ranges that a wake may open. -/
def State.reopenRanges (s : State) : List Nat :=
  if s.lockdown = true ∨ s.btc.state = .erased then [] else s.rangesWhere (fun f => f.standbyLock && !f.powerLock)

theorem reopen_eq (s : State) : s.reopen = s.reopenRanges.foldl State.unlockDevice s := by
  unfold State.reopen State.reopenRanges
  split <;> exact rfl

theorem reopen_framed (s : State) : Framed unlockPieces s s.reopen := by
  rw [reopen_eq]
  exact (unlockDevices_framed s.reopenRanges s).1

/-- R6, R33: what the reopen opens. -/
theorem reopen_opened {s : State} (hs : Shaped s)
    (hi : ∀ r g k, s.fields r = some g → g.powerLock = false → s.load r = .notLoaded →
      s.openEnvelope r .device (some .device) = some k → s.intactUnder r k) :
    ∃ won, Opened (fun q => s.openEnvelope q .device (some .device)) (fun g => { g with readLocked := false, writeLocked := false })
      s won s.reopen ∧
      ∀ q, q ∈ won ↔ q ∈ s.reopenRanges ∧ (s.load q ≠ .notLoaded ∨ s.openEnvelope q .device (some .device) ≠ none) := by
  rw [reopen_eq]
  by_cases hc : s.lockdown = true ∨ s.btc.state = .erased
  · have hnone : s.reopenRanges = [] := if_pos hc
    rw [hnone]
    exact ⟨[], .start hs, by simp⟩
  · have hl : s.lockdown = false := by simpa using fun h => hc (.inl h)
    have hrs : s.reopenRanges = s.rangesWhere (fun f => f.standbyLock && !f.powerLock) := if_neg hc
    rw [hrs]
    have hfields : ∀ r ∈ s.rangesWhere (fun f => f.standbyLock && !f.powerLock), ∃ g, s.fields r = some g ∧ g.powerLock = false := fun r hr => by
      obtain ⟨g, hg, hp⟩ := (mem_rangesWhere _ _ _ hs).mp hr
      exact ⟨g, hg, by simp at hp; exact hp.2⟩
    obtain ⟨won, hopened, hwon⟩ := reopenAll_opened (s := s) (fun _ => rfl) rfl hl _ [] s (.start hs) (rangesWhere_nodup _ _) (by simp)
      (fun r hr => (hfields r hr).imp fun g h => h.1) fun r hr k hn hk => by
        obtain ⟨g, hg, hp⟩ := hfields r hr
        exact hi r g k hg hp hn hk
    exact ⟨won, by simpa using hopened, hwon⟩

/-! ### The head job (R108) -/

/-- R107, R108: the head job j sweeps again. -/
def State.HeadResumes (t : State) (j : Job) : Prop :=
  t.headJob = some j ∧ j.state = .paused ∧ (∃ k, t.load j.range = .loaded k) ∧ t.rke.recovery ≠ .header ∧
    ∃ g, t.fields j.range = some g ∧ ∀ x ∈ g.named, (t.slot x).state ≠ .empty ∧ t.owns j.range x = true

theorem resumeHeadJob_resumes {t : State} {j : Job} (h : t.HeadResumes j) : t.resumeHeadJob = t.resumeJob j.range [] := by
  obtain ⟨hj, hp, ⟨k, hk⟩, hr, hg⟩ := h
  have hresume := (State.resumeIfPaused_cases hk).1 j ⟨hj, rfl, hp, hr, hg⟩
  unfold State.resumeHeadJob
  rw [hj]
  exact hresume

theorem resumeHeadJob_stays {t : State} (h : ∀ j, ¬ t.HeadResumes j) : t.resumeHeadJob = t := by
  unfold State.resumeHeadJob
  cases hj : t.headJob with
  | none => exact rfl
  | some j =>
    by_cases hk : ∃ k, t.load j.range = .loaded k
    · obtain ⟨k, hk⟩ := hk
      refine (State.resumeIfPaused_cases hk).2 fun j' hgo => ?_
      obtain ⟨hj', hrange, hp, hr, hg⟩ := hgo
      rw [← hrange] at hg hk
      exact h j' ⟨hj', hp, ⟨k, hk⟩, hr, hg⟩
    · show t.resumeIfPaused j.range = t
      unfold State.resumeIfPaused
      rw [hj]
      cases hl : t.load j.range with
      | loaded k => exact absurd ⟨k, hl⟩ hk
      | notLoaded => exact rfl
      | releasing k => exact rfl

theorem resumeHeadJob_framed (t : State) : Framed [.writes, .rekey, .hold, .keySlots] t t.resumeHeadJob := by
  by_cases h : ∃ j, t.HeadResumes j
  · obtain ⟨j, hj⟩ := h
    rw [resumeHeadJob_resumes hj]
    exact resumeJob_framed t j.range []
  · rw [resumeHeadJob_stays (not_exists.mp h)]
    exact Framed.refl _ t

/-- R107: what the head job comes to. -/
theorem resumeHeadJob_head {t : State} {j : Job} (hs : Shaped t) (hj : t.headJob = some j) :
    (t.HeadResumes j → t.resumeHeadJob.headState = some .sweeping) ∧ (¬ t.HeadResumes j → t.resumeHeadJob = t) := by
  refine ⟨fun h => ?_, fun h => resumeHeadJob_stays fun j' hj' => h ?_⟩
  · rw [resumeHeadJob_resumes h]
    have hsweeps := (State.resumeJob_sweeps t j [] hs hj).1
    rw [State.headState, hsweeps.head]
    exact rfl
  · have hsame := hj'.1
    rw [hj] at hsame
    cases hsame
    exact hj'

/-! ### The part wakes (R161) -/

/-- The power state is ACTIVE, and nothing else has changed. -/
def State.activated (s : State) : State := { s with sst := { s.sst with power := .active, downMark := false } }

/-- The part before its head job is looked at. -/
def State.unslept (s : State) : State :=
  { s.activated.reseal.reopen with rsu := { s.activated.reseal.reopen.rsu with absence := 0 } }

theorem wake_eq (s : State) : s.wake = s.unslept.resumeHeadJob := rfl

theorem unslept_framed (s : State) : Framed (.boot :: .response :: .power :: unlockPieces) s s.unslept := by
  have hstart : Framed [.power] s s.activated := ⟨rfl, fun q hq => by cases q <;> simp_all [Piece.same, State.activated]⟩
  have hlast : Framed [.response] s.activated.reseal.reopen s.unslept :=
    ⟨rfl, fun q hq => by cases q <;> simp_all [Piece.same, State.unslept]⟩
  exact (hstart.trans ((reseal_framed _).trans ((reopen_framed _).trans hlast))).mono (by decide)

theorem wake_framed (s : State) : Framed (.boot :: .response :: .power :: unlockPieces) s s.wake := by
  rw [wake_eq]
  exact ((unslept_framed s).trans (resumeHeadJob_framed _)).mono (by decide)

/-- What a wake leaves of the power state, the response record and the boot state. -/
theorem wake_parts (s : State) : s.wake.sst.power = .active ∧ s.wake.sst.downMark = false ∧ s.wake.rsu = { s.rsu with absence := 0 } ∧
    s.wake.btc = if s.rtb.resealOnWake = true ∧ s.btc.state = .opened then { s.btc with state := .sealed, unsealed := false } else s.btc := by
  have hframe : Framed (.boot :: unlockPieces) s.activated s.activated.reseal.reopen :=
    ((reseal_framed _).trans (reopen_framed _)).mono (by decide)
  have hresume := resumeHeadJob_framed s.unslept
  rw [wake_eq]
  obtain ⟨-, hpower, -, hdown, -⟩ := hframe.2 .power (by decide)
  obtain ⟨-, hpower', -, hdown', -⟩ := hresume.2 .power (by decide)
  refine ⟨hpower'.trans hpower, hdown'.trans hdown, (hresume.2 .response (by decide)).trans ?_, (hresume.2 .boot (by decide)).trans ?_⟩
  · exact congrArg (fun x : Response => { x with absence := 0 }) (hframe.2 .response (by decide))
  · refine ((reopen_framed s.activated.reseal).2 .boot (by decide)).trans ?_
    rw [reseal_eq]
    exact rfl

/-- R6: what the wake does to a range. -/
structure RangeAwake (s t : State) (r : Nat) (g : RangeFields) : Prop where
  closed : s.rtb.resealOnWake = true → s.btc.state = .opened → g.powerLock = true →
    t.fields r = some { g with readLocked := true, writeLocked := true } ∧ ∀ k, t.load r ≠ .loaded k
  opened : s.lockdown = false → s.btc.state ≠ .erased → g.standbyLock = true → g.powerLock = false →
    (s.load r ≠ .notLoaded ∨ s.openEnvelope r .device (some .device) ≠ none) →
    t.fields r = some { g with readLocked := false, writeLocked := false } ∧ ∃ k, t.load r = .loaded k
  kept : ¬ (s.rtb.resealOnWake = true ∧ s.btc.state = .opened ∧ g.powerLock = true) →
    ¬ (s.lockdown = false ∧ s.btc.state ≠ .erased ∧ g.standbyLock = true ∧ g.powerLock = false ∧
      (s.load r ≠ .notLoaded ∨ s.openEnvelope r .device (some .device) ≠ none)) → t.entry r = s.entry r ∧ t.load r = s.load r

/-- The keys of every range that the reopen may load are sound. -/
def State.SoundKeys (s : State) : Prop := ∀ r g k, s.fields r = some g → g.powerLock = false → s.load r = .notLoaded →
  s.openEnvelope r .device (some .device) = some k → s.intactUnder r k

section wake
variable {s : State} (hs : Shaped s)
include hs

theorem activated_shaped : Shaped s.activated := hs

theorem reseal_shaped : Shaped s.activated.reseal := (State.reseal_keeps s.activated).shaped hs

/-- A range without power_lock is not sealed. -/
theorem reseal_unsealed {r : Nat} {g : RangeFields} (hg : s.fields r = some g) (hr : r ∉ s.activated.sealedRanges) :
    s.activated.reseal.fields r = some g ∧ s.activated.reseal.load r = s.load r := by
  have hlocked := reseal_locked (activated_shaped hs)
  exact ⟨((hlocked.fields r).trans (if_neg hr)).trans hg, (hlocked.load r).trans (if_neg fun h => hr h.1)⟩

theorem reseal_fields {r : Nat} {g : RangeFields} (hg : s.activated.reseal.fields r = some g) (hp : g.powerLock = false) :
    s.fields r = some g ∧ r ∉ s.activated.sealedRanges := by
  have hlocked := reseal_locked (activated_shaped hs)
  have hfields := (hlocked.fields r).symm.trans hg
  cases ho : s.activated.fields r with
  | none => simp [ho] at hfields
  | some o =>
    have hmem := mem_sealedRanges (activated_shaped hs) ho
    by_cases hr : r ∈ s.activated.sealedRanges
    · rw [if_pos hr, ho] at hfields
      have hlock := (hmem.mp hr).2.2
      obtain rfl := Option.some.inj hfields
      exact absurd (hlock.symm.trans hp) (by decide)
    · rw [if_neg hr] at hfields
      exact ⟨hfields, hr⟩

theorem reseal_sound (hi : s.SoundKeys) : s.activated.reseal.SoundKeys := by
  have hlocked := reseal_locked (activated_shaped hs)
  intro r g k hg hp hn hk x hx hlive hown
  obtain ⟨hfields, hr⟩ := reseal_fields hs hg hp
  have hload := (reseal_unsealed hs hfields hr).2
  have hslot : (s.activated.reseal.slot x).state = (s.slot x).state ∧ (s.activated.reseal.slot x).owner = (s.slot x).owner ∧
      (s.activated.reseal.slot x).material = (s.slot x).material := by
    rw [hlocked.slot]
    split <;> exact ⟨rfl, rfl, rfl⟩
  obtain ⟨hstate, howner, hmaterial⟩ := hslot
  rw [hmaterial]
  refine hi r g k hfields hp (hload.symm.trans hn) ((openEnvelope_alike hlocked.alike r _ _).symm.trans hk) x ?_ (hstate.symm.trans hlive) ?_
  · rwa [hlocked.alike.named] at hx
  · rw [State.owns, howner] at hown
    exact hown

theorem mem_reopenRanges (r : Nat) : r ∈ s.activated.reseal.reopenRanges ↔
    s.lockdown = false ∧ s.btc.state ≠ .erased ∧ ∃ g, s.fields r = some g ∧ g.standbyLock = true ∧ g.powerLock = false := by
  have hlock : s.activated.reseal.lockdown = s.lockdown := by
    have hrsu : s.activated.reseal.rsu = s.rsu := (reseal_framed s.activated).2 .response (by decide)
    rw [State.lockdown, hrsu, State.lockdown]
  have herased : s.activated.reseal.btc.state = .erased ↔ s.btc.state = .erased := by
    rw [reseal_eq]
    show (if s.rtb.resealOnWake = true ∧ s.btc.state = .opened then { s.btc with state := .sealed, unsealed := false } else s.btc).state = _ ↔ _
    split
    · next h => simp [h.2]
    · exact Iff.rfl
  have hcond : (s.activated.reseal.lockdown = true ∨ s.activated.reseal.btc.state = .erased) ↔ (s.lockdown = true ∨ s.btc.state = .erased) := by
    rw [hlock, herased]
  unfold State.reopenRanges
  by_cases hc : s.lockdown = true ∨ s.btc.state = .erased
  · rw [if_pos (hcond.mpr hc)]
    refine ⟨fun h => absurd h (by simp), fun ⟨hl, hb, _⟩ => ?_⟩
    rcases hc with h | h
    · simp [hl] at h
    · exact absurd h hb
  · rw [if_neg (mt hcond.mp hc), mem_rangesWhere _ _ _ (reseal_shaped hs)]
    have hclear : s.lockdown = false ∧ s.btc.state ≠ .erased := ⟨by simpa using fun h => hc (.inl h), fun h => hc (.inr h)⟩
    constructor
    · rintro ⟨g, hg, hp⟩
      simp only [Bool.and_eq_true, Bool.not_eq_true'] at hp
      exact ⟨hclear.1, hclear.2, g, (reseal_fields hs hg hp.2).1, hp⟩
    · rintro ⟨-, -, g, hg, hst, hp⟩
      have hr : r ∉ s.activated.sealedRanges := fun h => by
        have := ((mem_sealedRanges (activated_shaped hs) hg).mp h).2.2
        simp [hp] at this
      exact ⟨g, (reseal_unsealed hs hg hr).1, by simp [hst, hp]⟩

/-- What the reopen of a wake does, on sound keys. -/
theorem wake_opened (hi : s.SoundKeys) : ∃ won,
    Opened (fun q => s.activated.reseal.openEnvelope q .device (some .device)) (fun g => { g with readLocked := false, writeLocked := false })
      s.activated.reseal won s.activated.reseal.reopen ∧
    (∀ r ∈ won, ∃ k, s.activated.reseal.reopen.load r = .loaded k) ∧
    ∀ r g, s.fields r = some g → (r ∈ won ↔ s.lockdown = false ∧ s.btc.state ≠ .erased ∧ g.standbyLock = true ∧ g.powerLock = false ∧
      (s.load r ≠ .notLoaded ∨ s.openEnvelope r .device (some .device) ≠ none)) := by
  obtain ⟨won, hopened, hwon⟩ := reopen_opened (reseal_shaped hs) (reseal_sound hs hi)
  refine ⟨won, hopened, fun r hr => ?_, fun r g hg => ?_⟩
  · have hkeys := hopened.loads.keys.1 r hr
    cases hl : s.activated.reseal.load r with
    | loaded k => exact ⟨k, hkeys k (.inl (by rw [hl]; rfl))⟩
    | releasing k => exact ⟨k, hkeys k (.inl (by rw [hl]; rfl))⟩
    | notLoaded =>
      obtain ⟨k, hk⟩ := Option.ne_none_iff_exists'.mp (((hwon r).mp hr).2.resolve_left fun h => h hl)
      exact ⟨k, hkeys k (.inr ⟨hl, hk⟩)⟩
  have halike := (reseal_locked (activated_shaped hs)).alike
  rw [hwon, mem_reopenRanges hs, openEnvelope_alike halike]
  constructor
  · rintro ⟨⟨hl, hb, g', hg', hst, hp⟩, hopens⟩
    rw [hg] at hg'
    cases hg'
    have hr : r ∉ s.activated.sealedRanges := fun h => by
      have := ((mem_sealedRanges (activated_shaped hs) hg).mp h).2.2
      simp [hp] at this
    rw [(reseal_unsealed hs hg hr).2] at hopens
    exact ⟨hl, hb, hst, hp, hopens⟩
  · rintro ⟨hl, hb, hst, hp, hopens⟩
    have hr : r ∉ s.activated.sealedRanges := fun h => by
      have := ((mem_sealedRanges (activated_shaped hs) hg).mp h).2.2
      simp [hp] at this
    refine ⟨⟨hl, hb, g, hg, hst, hp⟩, ?_⟩
    rw [(reseal_unsealed hs hg hr).2]
    exact hopens

/-- The flags and loads are those after the reopen. -/
theorem wake_table (r : Nat) : s.wake.entry r = s.activated.reseal.reopen.entry r ∧ s.wake.load r = s.activated.reseal.reopen.load r := by
  rw [wake_eq]
  have hrtb : s.unslept.resumeHeadJob.rtb = s.unslept.rtb := by simp
  have hloads : s.unslept.resumeHeadJob.kst.loads = s.unslept.kst.loads := by simp
  rw [State.entry, State.load, hrtb, hloads]
  exact ⟨rfl, rfl⟩

theorem wake_range (hi : s.SoundKeys) {r : Nat} {g : RangeFields} (hg : s.fields r = some g) : RangeAwake s s.wake r g := by
  obtain ⟨won, hopened, hloaded, hwon⟩ := wake_opened hs hi
  have hlocked := reseal_locked (activated_shaped hs)
  have hsealed := mem_sealedRanges (activated_shaped hs) hg
  obtain ⟨hentry, hload⟩ := wake_table hs r
  have hfields : s.wake.fields r = s.activated.reseal.reopen.fields r := by rw [State.fields, State.fields, hentry]
  refine ⟨fun h1 h2 h3 => ?_, fun h1 h2 h3 h4 h5 => ?_, fun hns hnr => ?_⟩
  · have hin := hsealed.mpr ⟨h1, h2, h3⟩
    have hout : r ∉ won := fun h => by
      have := ((hwon r g hg).mp h).2.2.2.1
      simp [h3] at this
    rw [hfields, hload, hopened.fld, if_neg hout, hopened.loads.keys.2.1 r hout, hlocked.fields, if_pos hin, hlocked.load]
    have hcloses : s.activated.closes true true r = true := by simp [State.closes, show s.activated.fields r = some g from hg]
    rw [if_pos ⟨hin, hcloses⟩]
    refine ⟨?_, fun k hk => ?_⟩
    · rw [show s.activated.fields r = some g from hg]
      simp [RangeFields.locked]
    · cases hl : s.activated.load r <;> simp only [hl, Load.unloaded] at hk
      · cases hk
      all_goals split at hk <;> cases hk
  · have hin := (hwon r g hg).mpr ⟨h1, h2, h3, h4, h5⟩
    have hr : r ∉ s.activated.sealedRanges := fun h => by
      have := (hsealed.mp h).2.2
      simp [h4] at this
    obtain ⟨hkept, hsame⟩ := reseal_unsealed hs hg hr
    rw [hfields, hload, hopened.fld, if_pos hin, hkept]
    exact ⟨rfl, hloaded r hin⟩
  · have hout : r ∉ won := fun h => hnr ((hwon r g hg).mp h)
    have hr : r ∉ s.activated.sealedRanges := fun h => hns (hsealed.mp h)
    obtain ⟨hkept, hsame⟩ := reseal_unsealed hs hg hr
    rw [hentry, hload, hopened.ent r hout, hopened.loads.keys.2.1 r hout]
    exact ⟨(fields_eq_some.mp hkept).trans (fields_eq_some.mp hg).symm, hsame⟩

/-- R108: the head job after a wake. -/
theorem wake_head (hi : s.SoundKeys) {j : Job} (hj : s.headJob = some j) :
    ((j.state ≠ .paused ∨ ∀ k, s.wake.load j.range ≠ .loaded k) → s.wake.headState = some j.state) ∧
    (∀ g k, j.state = .paused → s.wake.fields j.range = some g → s.wake.load j.range = .loaded k → s.rke.recovery ≠ .header →
      (∀ x ∈ g.named, (s.wake.slot x).state ≠ .empty ∧ (s.wake.slot x).owner = some j.range) → s.wake.headState = some .sweeping) := by
  obtain ⟨won, hopened, hloaded, hwon⟩ := wake_opened hs hi
  have hrke : s.activated.reseal.rke = s.rke := by simp [State.activated]
  have hhead : s.activated.reseal.headJob = some j := by rw [State.headJob, hrke]; exact hj
  obtain ⟨hagain, hstays⟩ := hopened.loads.sweep
  have hload : ∀ r, s.wake.load r = s.unslept.load r := fun r => (wake_table hs r).2
  have hfields : ∀ r, s.wake.fields r = s.unslept.fields r := fun r => by
    rw [State.fields, (wake_table hs r).1]
    exact rfl
  have hshaped : Shaped s.unslept := hopened.loads.shaped
  by_cases hres : ∃ i, s.activated.reseal.headJob = some i ∧ i.state = .paused ∧ i.range ∈ won ∧
      (∀ k, s.activated.reseal.load i.range ≠ .loaded k) ∧ s.activated.reseal.rke.recovery ≠ .header ∧
      ∃ g, s.activated.reseal.fields i.range = some g ∧
        ∀ x ∈ g.named, (s.activated.reseal.slot x).state ≠ .empty ∧ s.activated.reseal.owns i.range x = true
  · obtain ⟨i, hi'⟩ := hres
    have hsweeps := hagain i hi'
    obtain ⟨hij, hpaused, hin, -⟩ := hi'
    rw [hhead] at hij
    cases hij
    have hnew : s.unslept.headJob = some { j with state := .sweeping, fault := none } := hsweeps.head
    have hsame : s.wake = s.unslept := by
      rw [wake_eq]
      exact (resumeHeadJob_head hshaped hnew).2 fun h => by cases h.2.1
    have hsweeping : s.wake.headState = some .sweeping := by
      rw [hsame, State.headState, hnew]
      exact rfl
    refine ⟨fun h => ?_, fun _ _ _ _ _ _ _ => hsweeping⟩
    rcases h with h | h
    · exact absurd hpaused h
    · obtain ⟨k, hk⟩ := hloaded j.range hin
      exact absurd ((hload _).trans hk) (h k)
  · have hsame := (hstays (not_exists.mp hres)).1
    have hnew : s.unslept.headJob = some j := by
      rw [State.headJob]
      show s.activated.reseal.reopen.rke.queue.head? = _
      rw [hsame]
      exact hhead
    have hrec : s.unslept.rke.recovery = s.rke.recovery := by
      show s.activated.reseal.reopen.rke.recovery = _
      rw [hsame, hrke]
    obtain ⟨hgo, hstay⟩ := resumeHeadJob_head hshaped hnew
    by_cases hresumes : s.unslept.HeadResumes j
    · have hsweeping : s.wake.headState = some .sweeping := hgo hresumes
      refine ⟨fun h => ?_, fun _ _ _ _ _ _ _ => hsweeping⟩
      obtain ⟨-, hp, ⟨k, hk⟩, -⟩ := hresumes
      rcases h with h | h
      · exact absurd hp h
      · exact absurd ((hload _).trans hk) (h k)
    · have hwake : s.wake = s.unslept := hstay hresumes
      refine ⟨fun _ => ?_, fun g k hp hg hk hr hx => (hresumes ⟨hnew, hp, ⟨k, (hload _).symm.trans hk⟩, ?_, g, (hfields _).symm.trans hg, fun x hm => ?_⟩).elim⟩
      · rw [hwake, State.headState, hnew]
        exact rfl
      · rwa [hrec]
      · rw [← hwake]
        obtain ⟨hstate, howner⟩ := hx x hm
        exact ⟨hstate, by simpa [State.owns] using howner⟩

end wake

/-! ### The drains of STANDBY_ENTER and POWER_DOWN (R160, R162) -/

theorem fillOut_iff (s : State) : s.fillOut = false ↔ ∀ q ∈ s.lif.outstanding, ∀ k no x, q.client ≠ .wipe k no x := by
  unfold State.fillOut
  rw [List.any_eq_false]
  refine forall₂_congr fun q _ => ?_
  cases q.client <;> simp

theorem drained_iff (s : State) : s.drained = true ↔ s.rke.phase = .idle ∧ s.rtb.commit = .idle ∧
    (∀ q ∈ s.lif.outstanding, ∀ k no x, q.client ≠ .wipe k no x) ∧ Chain.working s.wpe.normal = false ∧
    Chain.working s.wpe.injected = false ∧ s.sst.queue = [] ∧ s.sst.waiting = [] ∧ s.sst.serving = none := by
  have hidle : s.commitIdle = true ↔ s.rtb.commit = .idle := by
    unfold State.commitIdle
    cases s.rtb.commit <;> simp [Commit.phase]
  simp only [State.drained, State.storeIdle, Bool.and_eq_true, Bool.not_eq_true', beq_iff_eq, fillOut_iff, hidle, List.isEmpty_iff,
    Option.isNone_iff_eq_none, and_assoc]

/-- The end of the drain, where its request is of the link's session, and where it is not. -/
theorem drainEnd_withheld {s : State} {rto : ReplyTo} (h : rto.session ≠ s.lif.session) :
    (s.setDrain .none).refuse rto .done = { s with sst := { s.sst with drain := .none } } := if_neg h

theorem drainEnd_answered {s : State} {rto : ReplyTo} (h : rto.session = s.lif.session) :
    Framed [.power, .tags, .sent] s ((s.setDrain .none).refuse rto .done) ∧ TagFreed rto s ((s.setDrain .none).refuse rto .done) ∧
      ((s.setDrain .none).refuse rto .done).sst = { s.sst with drain := .none } ∧
      ((s.setDrain .none).refuse rto .done).sent = s.sent ++ [frame rto.channel rto.tag (.status .done [])] := by
  have hset : Framed [.power] s (s.setDrain .none) := ⟨rfl, fun q hq => by cases q <;> simp_all [Piece.same, State.setDrain]⟩
  obtain ⟨hframe, htag, hsent⟩ := answer_after rto (.status .done []) hset rfl
  exact ⟨hframe, htag, by simp [State.setDrain], hsent.trans (congrArg (fun l => s.sent ++ l) (if_pos h))⟩

section ends
variable {s : State}

theorem standbyDrainEnd_stays (h : ¬ s.drained = true ∨ ∀ rto, s.sst.drain ≠ .standby rto) : s.standbyDrainEnd = s := by
  unfold State.standbyDrainEnd
  split
  · next rto hd => exact if_neg (h.resolve_right fun k => k rto hd)
  · exact rfl

theorem powerDownDrainEnd_stays (h : ¬ s.drained = true ∨ ∀ rto, s.sst.drain ≠ .powerDown rto) : s.powerDownDrainEnd = s := by
  unfold State.powerDownDrainEnd
  split
  · next rto hd => exact if_neg (h.resolve_right fun k => k rto hd)
  · exact rfl

theorem standbyDrainEnd_ends {rto : ReplyTo} (h : s.drained = true) (hd : s.sst.drain = .standby rto) :
    s.standbyDrainEnd = (s.setDrain .none).refuse rto .done := by
  unfold State.standbyDrainEnd
  rw [hd]
  exact if_pos h

theorem powerDownDrainEnd_ends {rto : ReplyTo} (h : s.drained = true) (hd : s.sst.drain = .powerDown rto) :
    s.powerDownDrainEnd = (s.setDrain .none).refuse rto .done := by
  unfold State.powerDownDrainEnd
  rw [hd]
  exact if_pos h

end ends

/-! ### The requests (R160 to R162) -/

theorem droppable_iff {s : State} : s.droppable = true ↔ s.rke.phase = .claiming ∨ (s.rke.phase = .reading ∧ s.rke.headerIssued = false) := by
  simp [State.droppable]

theorem sweepDropped_dropped {s : State} (h : s.droppable = true) : s.sweepDropped = s.dropChunk.rke := if_pos h

theorem sweepDropped_kept {s : State} (h : ¬ s.droppable = true) : s.sweepDropped = s.rke := if_neg h

/-- A PLATFORM request that is answered at once. -/
theorem platform_answer {s t : State} {n : Nat} {st : Status} (h : t = s.frameTaken.refuse (s.replyTo .platform n) st) :
    done t = done (s.frameTaken.send .platform n (.status st [])) :=
  congrArg done (h.trans (answer_untagged (ch := .platform) (by decide) rfl _))

theorem enterStandby_setDrain (s : State) (d : Drain) : s.enterStandby.setDrain d = s.asleepWith d s.sst.downMark := by
  have hmark : s.enterStandby.sst.downMark = s.sst.downMark := by simp
  unfold State.setDrain State.asleepWith
  rw [← hmark]

/-- R162: the mark of a POWER_DOWN and its drain. -/
def State.downWith (s : State) (rto : ReplyTo) : State := { s with sst := { s.sst with downMark := true, drain := .powerDown rto } }

theorem powerDown_busy {s : State} (rto : ReplyTo) (h : s.contextsOpen = true ∨ s.sst.drain ≠ .none) :
    s.powerDown rto = s.refuse rto .busy := by
  unfold State.powerDown
  by_cases hc : s.contextsOpen = true
  · exact if_pos hc
  · exact (if_neg hc).trans (if_pos (h.resolve_left hc))

theorem powerDown_starts {s : State} (rto : ReplyTo) (hc : ¬ s.contextsOpen = true) (hd : s.sst.drain = .none) (hm : s.sst.downMark = false) :
    s.powerDown rto = (if s.sst.power = .standby then s else s.enterStandby).downWith rto :=
  ((if_neg hc).trans (if_neg (not_not.mpr hd))).trans (if_neg (by simp [hm]))

end Sys2Proof.Machine

namespace Sys2Proof
open Machine

/-- Settles O57: the entry by the pause of the sweep, the release of its hold and the locks of the ranges; the wake by the
reseal, the reopen on sound keys and the head job; the drains by their conditions. -/
theorem standbyDrainsAndWakes : Obligations.StandbyDrainsAndWakes := by
  intro f s openCtx held asleep pieces
  have hopen : s.contextsOpen = true ↔ openCtx := contextsOpen_iff s
  have hasleep : ∀ (d : Drain) (m : Bool), Shaped s → asleep (s.frameTaken.asleepWith d m) := fun d m hs => by
    have hsweep := asleepWith_sweep (s := s.frameTaken) hs d m
    refine ⟨asleepWith_power _ d m, ?_, fun r _ g hg => ?_, asleepWith_hold _ d m, ?_, ?_, ?_, ?_, ?_⟩
    · exact (asleepWith_framed s.frameTaken d m).2 .sent (by decide)
    · have hrange := asleepWith_range (s := s.frameTaken) hs d m hg
      refine ⟨_, hrange.fields, rfl, hrange.locked, hrange.unused, hrange.kept, fun hb hh => ?_⟩
      obtain ⟨h, hh, hr, -, -⟩ := hh
      have hreleased := hrange.released hb h hh hr
      exact hreleased
    · exact hsweep.only
    · exact hsweep.paused
    · exact hsweep.stays
    · exact fun hd => (hsweep.rest.trans (by rw [sweepDropped_dropped (s := s.frameTaken) (droppable_iff.mpr hd)]; exact rfl))
    · exact fun hd => (hsweep.rest.trans (by rw [sweepDropped_kept (s := s.frameTaken) (mt droppable_iff.mp hd)]; exact rfl))
  have hpieces : ∀ (d : Drain) (m : Bool), Framed pieces s (s.frameTaken.asleepWith d m) := fun d m =>
    ((frameTaken_bursts s).trans (asleepWith_framed s.frameTaken d m)).mono (by decide)
  refine ⟨fun hp => ?_, fun hp => ?_, fun hp => ?_, ?_⟩
  · have hgo := goes_request (act := fun t rto => t.standbyEnter rto) rfl hp fun _ => rfl
    rw [begun_untagged (by decide)] at hgo
    refine ⟨fun h => hgo.trans (platform_answer (if_pos h)), fun h hs => hgo.trans (platform_answer ((if_neg (not_not.mpr h)).trans (if_pos hs))),
      fun h hs hc => hgo.trans (platform_answer (((if_neg (not_not.mpr h)).trans (if_neg hs)).trans (if_pos (hopen.mpr hc)))),
      fun h hs hc hshape => ⟨s.frameTaken.asleepWith (.standby (s.replyTo .platform f.tag)) s.sst.downMark, ?_, hpieces _ _,
        hasleep _ _ hshape, rfl, rfl⟩⟩
    refine hgo.trans (congrArg done ((((if_neg (not_not.mpr h)).trans (if_neg hs)).trans (if_neg (mt hopen.mp hc))).trans ?_))
    exact enterStandby_setDrain s.frameTaken _
  · have hgo := goes_request (act := fun t rto => t.powerDown rto) rfl hp fun _ => rfl
    rw [begun_untagged (by decide)] at hgo
    refine ⟨fun h => hgo.trans (platform_answer (powerDown_busy (s := s.frameTaken) _ (h.imp_left hopen.mpr))),
      fun hc h hm => hgo.trans (platform_answer (((if_neg (mt hopen.mp hc)).trans (if_neg (not_not.mpr h))).trans (if_pos hm))),
      fun hc h hm hshape hs => ⟨s.frameTaken.asleepWith (.powerDown (s.replyTo .platform f.tag)) true, ?_, hpieces _ _,
        hasleep _ _ hshape, rfl, rfl⟩, fun hc h hm hs => ?_⟩
    · exact hgo.trans (congrArg done ((powerDown_starts (s := s.frameTaken) _ (mt hopen.mp hc) h hm).trans
        (congrArg (fun t : State => t.downWith (s.replyTo .platform f.tag)) (if_neg hs))))
    · exact hgo.trans (congrArg done ((powerDown_starts (s := s.frameTaken) _ (mt hopen.mp hc) h hm).trans
        (congrArg (fun t : State => t.downWith (s.replyTo .platform f.tag)) (if_pos hs))))
  · have hgo := goes_request (act := fun t rto => t.standbyExit rto) rfl hp fun _ => rfl
    rw [begun_untagged (by decide)] at hgo
    refine ⟨fun h => hgo.trans (platform_answer (if_pos h)),
      fun h hs => hgo.trans (platform_answer ((if_neg (not_not.mpr h)).trans (if_neg hs))),
      fun h hs => ⟨s.frameTaken.wake.send .platform f.tag (.status .ok []), ?_, ?_⟩⟩
    · exact hgo.trans (congrArg done (((if_neg (not_not.mpr h)).trans (if_pos hs)).trans
        (congrArg State.settleDrain (answer_untagged (ch := .platform) (by decide) (by simp [State.frameTaken]) _))))
    obtain ⟨hpower, hdown, hrsu, hbtc⟩ := wake_parts s.frameTaken
    have hframe : Framed [.sent] s.frameTaken.wake (s.frameTaken.wake.send .platform f.tag (.status .ok [])) :=
      ⟨rfl, fun q hq => by cases q <;> simp_all [Piece.same, State.send]⟩
    refine ⟨((frameTaken_bursts s).trans ((wake_framed s.frameTaken).trans hframe)).mono (by decide), hpower, hdown, hrsu, hbtc,
      fun hshape hi => ⟨?_, fun j hj => (wake_head (s := s.frameTaken) hshape hi hj).1,
        fun j g k hj => (wake_head (s := s.frameTaken) hshape hi hj).2 g k, fun r g hg => ?_⟩, ?_⟩
    · show s.frameTaken.wake.rtb.resealOnWake = _
      simp [State.frameTaken]
    · have hawake := wake_range (s := s.frameTaken) hshape hi hg
      exact ⟨fun ⟨h1, h2, h3⟩ => hawake.closed h1 h2 h3, fun ⟨h1, h2, h3, h4, h5⟩ => hawake.opened h1 h2 h3 h4 h5, hawake.kept⟩
    · exact List.getLast?_concat
  · intro drained
    have hdrained : s.drained = true ↔ drained := drained_iff s
    refine ⟨fun h => ?_, fun h => ?_, fun rto hd hsession => ⟨fun h => ?_, fun h => ?_⟩, fun rto hd hsession => ⟨fun h => ?_, fun h => ?_⟩⟩
    · exact congrArg done (standbyDrainEnd_stays (h.imp_left (mt hdrained.mp)))
    · exact congrArg done (powerDownDrainEnd_stays (h.imp_left (mt hdrained.mp)))
    · exact congrArg done ((standbyDrainEnd_ends (hdrained.mpr hd) h).trans (drainEnd_withheld hsession))
    · exact congrArg done ((powerDownDrainEnd_ends (hdrained.mpr hd) h).trans (drainEnd_withheld hsession))
    · exact ⟨_, congrArg done (standbyDrainEnd_ends (hdrained.mpr hd) h), drainEnd_answered hsession⟩
    · exact ⟨_, congrArg done (powerDownDrainEnd_ends (hdrained.mpr hd) h), drainEnd_answered hsession⟩

end Sys2Proof


/-! START_UP (O59): what the arrivals of the start latch leave of the part (R121, R125, R131), and what no operation does to a
Data Path without streams (R90). -/

namespace Sys2Proof.Machine

/-! ### No stream is open (R78, R90) -/

/-- No context is OPEN. -/
def State.NoStreams (s : State) : Prop := ∀ c, (s.ctx c).xfer = none

/-- Without an open context, the Data Path stays. -/
def Streamless (s t : State) : Prop := s.NoStreams → t.dpu = s.dpu

theorem Streamless.of_dpu {s t : State} (h : t.dpu = s.dpu) : Streamless s t := fun _ => h

theorem Streamless.refl (s : State) : Streamless s s := .of_dpu rfl

theorem State.NoStreams.congr {s t : State} (hs : s.NoStreams) (h : t.dpu = s.dpu) : t.NoStreams := fun c => by
  rw [State.ctx, h]
  exact hs c

theorem Streamless.trans {s t u : State} (h : Streamless s t) (k : Streamless t u) : Streamless s u := fun hs =>
  (k (hs.congr (h hs))).trans (h hs)

theorem Streamless.foldl {α : Type} {f : State → α → State} (h : ∀ s x, Streamless s (f s x)) (l : List α) (s : State) :
    Streamless s (l.foldl f s) := by
  induction l generalizing s with
  | nil => exact .refl s
  | cons x l ih => exact (h s x).trans (ih _)

theorem streamless_abortAll (s : State) (cause : AbortCause) (p : OpenContext → Bool) : Streamless s (s.abortAll cause p) := fun hs => by
  rw [State.abortAll_none s cause p fun c _ x hx => by rw [hs c] at hx; cases hx]

theorem streamless_damagedKey (s : State) (r k : Nat) : Streamless s (s.damagedKey r k) := by
  have hhit : ∀ t : State, (t.jobHit r k).dpu = t.dpu := fun t => by
    unfold State.jobHit
    split
    · split
      · simp
      · exact rfl
    · exact rfl
  rw [damagedKey_eq]
  exact ((streamless_abortAll s .keyDamaged (fun x => x.mode == .clear && x.range == some r)).trans (.of_dpu (hhit _))).trans
    (.of_dpu (by simp [State.mapSlot]))

theorem streamless_unwrap (s : State) (r : Nat) (k : Rak) (x : Nat) : Streamless s (s.unwrap r k x) := by
  unfold State.unwrap
  split
  · split
    · split
      · exact .of_dpu rfl
      · exact streamless_damagedKey _ _ _
    · exact streamless_damagedKey _ _ _
  · exact .refl s

theorem streamless_loadRange (s : State) (r : Nat) (via : Option Rak) : Streamless s (s.loadRange r via).1 := by
  have hresume : ∀ t : State, Streamless t (t.resumeIfPaused r) := fun t => .of_dpu (by simp)
  unfold State.loadRange
  split
  · exact .refl s
  · split
    · exact .refl s
    · exact (Streamless.of_dpu (t := s.setLoad r _) rfl).trans (hresume _)
    · exact .refl s
    · exact ((Streamless.of_dpu (t := s.setLoad r _) rfl).trans (Streamless.foldl (fun t x => streamless_unwrap t r _ x) _ _)).trans
        (hresume _)

theorem streamless_unlockDevice (s : State) (r : Nat) : Streamless s (s.unlockDevice r) := by
  unfold State.unlockDevice
  by_cases h : (s.loadRange r (s.openDevice r)).2 = true
  · rw [unlockRange_of_loads true true h]
    exact (streamless_loadRange s r _).trans (.of_dpu (setLocks_changes ..).2.2.1)
  · rw [unlockRange_of_not_loads true true h]
    exact streamless_loadRange s r _

/-! ### Arrivals (R121 to R125) -/

/-- Both directions of every ENABLED range are locked. -/
def State.AllLocked (s : State) : Prop := ∀ r g, s.fields r = some g → g.readLocked = true ∧ g.writeLocked = true

/-- What an arrival leaves of the part: the table and the boot state, or an escalation past LOCK has locked every range. -/
structure Escalated (s t : State) : Prop where
  streams : Streamless s t
  commit : s.rtb.commit = .idle → t.rtb.commit = .idle
  boot : t.btc = { s.btc with state := t.btc.state }
  state : t.btc.state = s.btc.state ∨ ((s.btc.state = .sealed ∨ s.btc.state = .opened) ∧ t.btc.state = .quarantine)
  locks : (t.rtb.entries = s.rtb.entries ∧ t.btc = s.btc) ∨ t.AllLocked

theorem State.AllLocked.congr {s t : State} (hs : s.AllLocked) (h : t.rtb.entries = s.rtb.entries) : t.AllLocked := fun r g hg =>
  hs r g (by simpa only [State.fields, State.entry, h] using hg)

theorem Escalated.of_frame {s t : State} (hdpu : t.dpu = s.dpu) (hrtb : t.rtb = s.rtb) (hbtc : t.btc = s.btc) : Escalated s t :=
  ⟨.of_dpu hdpu, fun h => by rw [hrtb, h], by rw [hbtc], .inl (by rw [hbtc]), .inl ⟨by rw [hrtb], hbtc⟩⟩

theorem Escalated.refl (s : State) : Escalated s s := .of_frame rfl rfl rfl

theorem Escalated.trans {s t u : State} (h : Escalated s t) (k : Escalated t u) : Escalated s u := by
  refine ⟨h.streams.trans k.streams, fun hs => k.commit (h.commit hs), ?_, ?_, ?_⟩
  · rw [k.boot, h.boot]
  · rcases h.state with hst | ⟨hst, hq⟩
    · rw [← hst]
      exact k.state
    · rcases k.state with hq' | ⟨hq', -⟩
      · exact .inr ⟨hst, hq'.trans hq⟩
      · simp [hq] at hq'
  · rcases k.locks with ⟨hent, hbtc⟩ | hall
    · rcases h.locks with ⟨hent', hbtc'⟩ | hall
      · exact .inl ⟨hent.trans hent', hbtc.trans hbtc'⟩
      · exact .inr (hall.congr hent)
    · exact .inr hall

theorem lockAll_locked (s : State) : s.lockAll.AllLocked := by
  intro r g hg
  have hentry := fields_eq_some.mp hg
  unfold State.lockAll State.entry at hentry
  cases h : s.rtb.entries[r]? with
  | none => simp [h] at hentry
  | some e =>
    cases e <;> simp [h] at hentry
    simp [← hentry]

theorem lockEffects_escalated (s : State) : Escalated s s.lockEffects := by
  have hcommit : s.rtb.commit = .idle → s.abandonCommit = s := fun h => by
    unfold State.abandonCommit
    rw [h]
  let u : State := s.abandonCommit.lockAll
  have hrtb : s.lockEffects.rtb = u.rtb := by simp [State.lockEffects, u]
  have hbtc : s.lockEffects.btc = { s.btc with state := s.lockEffects.btc.state } := by simp [State.lockEffects]
  refine ⟨fun hs => ?_, fun h => ?_, hbtc, ?_, .inr ((lockAll_locked s.abandonCommit).congr (congrArg (fun x => x.entries) hrtb))⟩
  · have hno : u.NoStreams := hs.congr (by simp [u])
    have habort := streamless_abortAll u .lockdown (fun x => x.mode == .clear) hno
    simpa [State.lockEffects, u] using habort
  · rw [hrtb]
    show s.abandonCommit.lockAll.rtb.commit = .idle
    rw [hcommit h]
    simpa using h
  · cases h : s.btc.state <;> simp [State.lockEffects, h]

theorem escalate_escalated (s : State) (n : Level) (c : Nat) : Escalated s (s.escalate n c) := by
  unfold State.escalate
  refine Escalated.trans (t := { s with rsu := { s.rsu with level := n, firstCause := if s.rsu.level = Level.calm then some c else s.rsu.firstCause } })
    (.of_frame rfl rfl rfl) ?_
  have hif : ∀ (b : Bool) (t u : State), Escalated t u → Escalated t (if b then u else t) := fun b t u h => by
    cases b
    · exact .refl t
    · exact h
  have hgive : ∀ (fill : Bool) (o : Origin) (ws : List Waiter) (t : State), Escalated t (t.giveStep fill o ws) := fun fill o ws t =>
    .of_frame (by simp) (by simp) (by simp)
  have hsend : ∀ (b : Body) (t : State), Escalated t ((t.write .response []).notice b) := fun b t => .of_frame (by simp) (by simp) (by simp)
  exact (hif _ _ _ (lockEffects_escalated _)).trans ((hif _ _ _ (hgive ..)).trans ((hif _ _ _ (hgive ..)).trans (hsend _ _)))

theorem weigh_escalated (s : State) (i : Nat) (l : Level) : Escalated s (s.weigh i l) := by
  have hcancel : ∀ t : State, Escalated t (t.cancelTimerTo l) := fun t => .of_frame (by simp) (by simp) (by simp)
  unfold State.weigh
  split
  · exact .refl s
  · dsimp only
    split
    · exact (escalate_escalated ..).trans (hcancel _)
    · exact .of_frame (by simp) (by simp) (by simp)

theorem raise_escalated (s : State) (i : Nat) : Escalated s (s.raise i) := by
  have hwrite : ∀ t : State, Escalated t (t.write .response []) := fun t => .of_frame (by simp) (by simp) (by simp)
  unfold State.raise State.arrive
  split
  · refine Escalated.trans (t := { s with rsu := { s.rsu with lastCause := some i, alarm := some s.rsu.alarmMinimum } })
      (.of_frame rfl rfl rfl) (Escalated.trans (weigh_escalated _ _ _) (hwrite _))
  · exact .refl s

theorem takeLatch_escalated (s : State) (warm : Bool) (edges : List Nat) : Escalated s (s.takeLatch warm edges) := by
  have hraise : ∀ (l : List Nat) (t : State), Escalated t (l.foldl State.raise t) := fun l => by
    induction l with
    | nil => exact .refl
    | cons i l ih => exact fun t => (raise_escalated t i).trans (ih _)
  unfold State.takeLatch
  exact (hraise _ s).trans (.of_frame rfl rfl rfl)

end Sys2Proof.Machine


/-! START_UP (O59): the ranges that the start-up opens (R5, R33, R36), in order, and what the blocks rebuild before it. -/

namespace Sys2Proof.Machine

/-! ### Nothing is loaded before the start-up opens a range (R41) -/

/-- No range is loaded, and nothing is held. -/
structure State.Unloaded (s : State) : Prop where
  load : ∀ r, s.load r = .notLoaded
  hold : s.kst.hold = none

theorem State.Unloaded.of_eq {s t : State} (h : s.Unloaded) (hl : t.kst.loads = s.kst.loads) (hh : t.kst.hold = s.kst.hold) : t.Unloaded :=
  ⟨fun r => by rw [State.load, hl]; exact h.load r, by rw [hh, h.hold]⟩

theorem unloaded_dropRange {s : State} (h : s.Unloaded) (r : Nat) : (s.dropRange r).Unloaded := by
  refine ⟨fun q => ?_, by simp [h.hold]⟩
  unfold State.dropRange
  rw [load_setLoad]
  split
  · exact rfl
  · simpa [State.load] using h.load q

/-- The queue without its head, where the plan repairs the head's range. -/
def State.headDropped (s : State) (p : Plan) : State :=
  match s.activeJob with
  | some j => if p.repaired.contains j.range then s.discardHead j else s
  | none => s

theorem dropJobs_eq (s : State) (p : Plan) : s.dropJobs p = if (s.headDropped p).rke.queue.any (s.removesJob p) then
    { s.headDropped p with rke := { (s.headDropped p).rke with
      queue := (s.headDropped p).rke.queue.filter (fun j => !s.removesJob p j) } }.writeQueuePart [] else s.headDropped p := rfl

theorem unloaded_dropJobs {s : State} (h : s.Unloaded) (p : Plan) : (s.dropJobs p).Unloaded := by
  have hdiscard : ∀ j, (s.discardHead j).Unloaded := fun j => by
    unfold State.discardHead
    rw [s.releaseHold_none h.hold]
    exact h.of_eq (by simp) (by simp)
  have hstart : (s.headDropped p).Unloaded := by
    unfold State.headDropped
    split
    · split
      · exact hdiscard _
      · exact h
    · exact h
  rw [dropJobs_eq]
  by_cases hc : (s.headDropped p).rke.queue.any (s.removesJob p) = true
  · rw [if_pos hc]
    exact hstart.of_eq (by simp) (by simp)
  · rw [if_neg hc]
    exact hstart

theorem State.Unloaded.foldl {α : Type} {f : State → α → State} (hf : ∀ s x, s.Unloaded → (f s x).Unloaded) (l : List α) {s : State}
    (h : s.Unloaded) : (l.foldl f s).Unloaded := by
  induction l generalizing s with
  | nil => exact h
  | cons x l ih => exact ih (hf s x h)

theorem unloaded_install {s : State} (h : s.Unloaded) (p : Plan) (m : Prepared) (named : List Nat) : (s.install p m named).1.Unloaded := by
  have hjobs : (s.commitJobs p).Unloaded := by
    unfold State.commitJobs
    split
    · exact (unloaded_dropJobs h p).of_eq (by simp) (by simp)
    · exact unloaded_dropJobs h p
  have hdrop : (named.foldl (fun u r => if p.remade.contains r || !(p.entry r).isEnabled then u.dropRange r else u) (s.commitJobs p)).Unloaded := by
    refine hjobs.foldl (fun t r ht => ?_) named
    split
    · exact unloaded_dropRange ht r
    · exact ht
  have hset := hdrop.foldl (f := fun u r => u.setEntry r (installed p m r)) (fun t r ht => ht.of_eq (by simp) (by simp)) named
  unfold State.install
  exact hset.of_eq (by simp) (by simp)

theorem unloaded_startApply {s : State} (h : s.Unloaded) (p : Plan) (l : StagedList) : (s.startApply p l).Unloaded := by
  have hinstall := unloaded_install h p l.prepared (namedRanges l.edits)
  unfold State.startApply
  dsimp only
  split
  · exact hinstall.of_eq (by simp) (by simp)
  · split <;> exact hinstall.of_eq (by simp) (by simp)

theorem unloaded_settleStaged {s : State} (h : s.Unloaded) : s.settleStaged.Unloaded := by
  unfold State.settleStaged
  dsimp only
  split
  · exact h
  · split
    · exact unloaded_startApply h _ _
    · exact h.of_eq (by simp) (by simp)
  · exact unloaded_startApply h _ _

theorem unloaded_rebuild (s : State) : s.rebuild.Unloaded := by
  have hkeys : s.rebuildCreds.rebuildKeys.Unloaded := by
    refine ⟨fun r => ?_, rfl⟩
    show (List.replicate 16 Load.notLoaded)[r]?.getD .notLoaded = _
    rw [List.getElem?_replicate]
    split <;> exact rfl
  have hlost : s.rebuildCreds.rebuildKeys.rebuildTable.resolveEnvelopes.rebuildRekey.loseKeys.Unloaded := hkeys.of_eq (by simp) (by simp)
  unfold State.rebuild
  exact (unloaded_settleStaged hlost).of_eq (by simp) (by simp)

/-! ### The ranges that the start-up has opened (R5) -/

/-- b with the ranges of the list opened where R5 lets them, and the other ranges as they were. -/
structure StartOpened (b : State) (l : List Nat) (t : State) : Prop where
  shaped : Shaped t
  dpu : t.dpu = b.dpu
  rsu : t.rsu = b.rsu
  others : ∀ q, q ∉ l → t.entry q = b.entry q ∧ t.load q = .notLoaded
  opened : ∀ q ∈ l, ∀ g k, b.lockdown = false → b.fields q = some g → b.openDevice q = some k →
    t.load q = .loaded k ∧ ∃ v, t.fields q = some { g with keyLost := v, readLocked := false, writeLocked := false }
  closed : ∀ q ∈ l, (b.lockdown = true ∨ b.openDevice q = none) → t.entry q = b.entry q ∧ t.load q = .notLoaded
  hold : ∀ h, t.kst.hold = some h → h.range ∈ l ∧ (∃ k, t.load h.range = .loaded k) ∧ ∃ j, t.headJob = some j ∧ j.range = h.range

theorem StartOpened.start {b : State} (hs : Shaped b) (h : b.Unloaded) : StartOpened b [] b :=
  ⟨hs, rfl, rfl, fun q _ => ⟨rfl, h.load q⟩, fun q hq => absurd hq (by simp), fun q hq => absurd hq (by simp),
    fun x hx => by rw [h.hold] at hx; cases hx⟩

/-- A range whose envelope does not open, or any in LOCK, stays. -/
theorem unlockDevice_closed {t : State} {r : Nat} (hl : t.load r = .notLoaded) (h : t.lockdown = true ∨ t.openDevice r = none) :
    t.unlockDevice r = t := by
  have hload : t.loadRange r (t.openDevice r) = (t, false) := by
    unfold State.loadRange
    by_cases hc : t.lockdown = true
    · exact if_pos hc
    · rw [if_neg hc, hl, h.resolve_left hc]
  unfold State.unlockDevice
  rw [unlockRange_of_not_loads true true (by rw [hload]; exact Bool.false_ne_true), hload]

/-- R36: the hold is released with the job that loses its key, or stays. -/
theorem LoadSoFar.hold {s t : State} {r : Nat} {k : Rak} {g : RangeFields} {l : List Nat} (h : LoadSoFar s r k g l t) :
    t.kst.hold = none ∨ (t.rke = s.rke ∧ t.kst.hold = s.kst.hold) := by
  by_cases hd : DamagedAmong s r k l ∧ ∃ j, JobOf s r j
  · obtain ⟨hd, j, hj⟩ := hd
    exact .inl (h.lost hd j hj).1
  · have hkept := h.kept fun hd' j hj => hd ⟨hd', j, hj⟩
    exact .inr ⟨hkept.1, hkept.2.1⟩

/-- R107: the hold after a load is the one of its range's job, or as it was. -/
theorem resumeIfPaused_hold {t : State} {r : Nat} {k : Rak} (hs : Shaped t) (hl : t.load r = .loaded k) {h : Hold}
    (hh : (t.resumeIfPaused r).kst.hold = some h) :
    (∃ j, (t.resumeIfPaused r).headJob = some j ∧ j.range = r ∧ (h.range = r ∨ ∃ i, t.headJob = some i ∧ i.range = r ∧ t.kst.hold = some h)) ∨
      (t.resumeIfPaused r = t ∧ t.kst.hold = some h) := by
  obtain ⟨hgo, hstay⟩ := State.resumeIfPaused_cases hl
  by_cases hc : ∃ j : Job, t.headJob = some j ∧ j.range = r ∧ j.state = .paused ∧ t.rke.recovery ≠ .header ∧
      ∃ g, t.fields r = some g ∧ ∀ x ∈ g.named, (t.slot x).state ≠ .empty ∧ t.owns r x = true
  · obtain ⟨j, hj⟩ := hc
    rw [hgo j hj] at hh ⊢
    obtain ⟨hhead, hr, -, -, g, hg, -⟩ := hj
    have hsweeps := (State.resumeJob_sweeps t j [] hs hhead).1
    refine .inl ⟨_, hsweeps.head, hr, ?_⟩
    obtain ⟨-, -, hsplit, hplain⟩ := hsweeps
    cases hsp : g.split with
    | none =>
      have hsame := (hplain fun g' hg' => by rw [hr, hg] at hg'; cases hg'; exact hsp).1
      exact .inr ⟨j, hhead, hr, hsame.symm.trans hh⟩
    | some w =>
      have hnew := (hsplit g w (by rw [hr]; exact hg) hsp).1
      rw [hnew] at hh
      cases hh
      exact .inl hr
  · have hsame := hstay (not_exists.mp hc)
    exact .inr ⟨hsame, by rwa [hsame] at hh⟩

theorem StartOpened.step {b t : State} {l : List Nat} (h : StartOpened b l t) (hno : b.NoStreams) {r : Nat} (hr : r ∉ l) {g : RangeFields}
    (hg : b.fields r = some g) : StartOpened b (r :: l) (t.unlockDevice r) := by
  obtain ⟨hentry, hload⟩ := h.others r hr
  have hfields : t.fields r = some g := fields_eq_some.mpr (hentry.trans (fields_eq_some.mp hg))
  have hlock : t.lockdown = b.lockdown := by rw [State.lockdown, h.rsu, State.lockdown]
  have hopen : t.openDevice r = b.openDevice r := by
    simp only [State.openDevice, State.openEnvelope, hfields, hg]
  by_cases hc : b.lockdown = true ∨ b.openDevice r = none
  · rw [unlockDevice_closed hload (by rwa [hlock, hopen])]
    refine ⟨h.shaped, h.dpu, h.rsu, fun q hq => h.others q fun k => hq (List.mem_cons_of_mem _ k), fun q hq g' k' hl hg' hk' => ?_,
      fun q hq hcl => ?_, fun x hx => (h.hold x hx).imp_left (List.mem_cons_of_mem _)⟩
    · rcases List.mem_cons.mp hq with rfl | hq
      · rcases hc with hc | hc
        · simp [hl] at hc
        · rw [hc] at hk'; cases hk'
      · exact h.opened q hq g' k' hl hg' hk'
    · rcases List.mem_cons.mp hq with rfl | hq
      · exact ⟨hentry, hload⟩
      · exact h.closed q hq hcl
  · obtain ⟨hl, hk⟩ := not_or.mp hc
    obtain ⟨k, hk⟩ := Option.ne_none_iff_exists'.mp hk
    have hnt : t.NoStreams := hno.congr h.dpu
    obtain ⟨u, hu, heq⟩ := loadRange_soFar (k := k) h.shaped (by rw [hlock]; simpa using hl) hload hfields
    have hquiet : ∀ c y, (t.ctx c).xfer = some y → clearIn r y = false := fun c y hy => by rw [hnt c] at hy; cases hy
    have hheld : ∀ x, t.kst.hold = some x → x.range ≠ r ∧ ∀ j, t.headJob = some j → j.range ≠ r := fun x hx => by
      obtain ⟨hin, -, j, hj, hjr⟩ := h.hold x hx
      have hne : x.range ≠ r := fun e => hr (e ▸ hin)
      refine ⟨hne, fun i hi => ?_⟩
      rw [hj] at hi
      cases hi
      exact hjr ▸ hne
    have hfree : HoldFree t r := by
      rintro ⟨j, hj, hjr, -⟩
      by_contra hn
      obtain ⟨x, hx⟩ := Option.ne_none_iff_exists'.mp hn
      exact (hheld x hx).2 j (activeJob_some hj).1 hjr
    have hloadr := hu.load fun _ => hfree
    have hothers := hu.calmL fun _ => ⟨hfree, hquiet⟩
    let v := u.resumeIfPaused r
    have hv : t.unlockDevice r = v.setLocks r true true false := by
      unfold State.unlockDevice
      rw [hopen, hk, unlockRange_of_loads true true (by rw [heq]), heq]
    have hvs : Shaped v := (State.resumeIfPaused_keeps u r).shaped hu.shaped
    have hvloads : ∀ q, v.load q = u.load q := fun q => by simp [State.load, v]
    have hvrtb : v.rtb = u.rtb := by simp [v]
    obtain ⟨hkst, hrke, hdpu, -, -, hent, hfld⟩ := setLocks_changes v r true true false
    have hxload : ∀ q, (v.setLocks r true true false).load q = u.load q := fun q => by rw [State.load, hkst]; exact hvloads q
    rw [hv]
    refine ⟨(State.setLocks_keeps v r true true false).shaped hvs, ?_, ?_, fun q hq => ?_, fun q hq g' k' hlq hg' hk' => ?_, fun q hq hcl => ?_,
      fun x hx => ?_⟩
    · rw [hdpu]
      exact (by simp [v] : v.dpu = u.dpu).trans ((hu.abN fun _ c _ => hquiet c).1.trans h.dpu)
    · have hrsu := congrArg (fun z : State × Bool => z.1.rsu) heq
      have hkeep : (t.loadRange r (some k)).1.rsu = t.rsu := by simp
      simp only [State.setLocks_frame]
      exact (hrsu.symm.trans hkeep).trans h.rsu
    · obtain ⟨hqr, hql⟩ : q ≠ r ∧ q ∉ l := ⟨List.ne_of_not_mem_cons hq, List.not_mem_of_not_mem_cons hq⟩
      obtain ⟨he, hn⟩ := h.others q hql
      refine ⟨?_, by rw [hxload, hothers q hqr, hn]⟩
      rw [hent q hqr, State.entry, hvrtb]
      exact (hu.ent q hqr).trans he
    · rcases List.mem_cons.mp hq with rfl | hq
      · rw [hg] at hg'
        cases hg'
        rw [hk] at hk'
        cases hk'
        refine ⟨by rw [hxload, hloadr], ?_⟩
        rw [hfld hvs, fields_of_rtb hvrtb]
        by_cases hd : DamagedAmong t q k g.named
        · exact ⟨true, by rw [hu.fldD hd]; exact rfl⟩
        · exact ⟨g.keyLost, by rw [hu.fldN hd]; exact rfl⟩
      · have hqr : q ≠ r := fun e => hr (e ▸ hq)
        obtain ⟨hn, y, hy⟩ := h.opened q hq g' k' hlq hg' hk'
        refine ⟨by rw [hxload, hothers q hqr, hn], y, ?_⟩
        rw [fields_eq_some] at hy ⊢
        rw [hent q hqr, State.entry, hvrtb]
        exact (hu.ent q hqr).trans hy
    · rcases List.mem_cons.mp hq with rfl | hq
      · exact absurd hcl hc
      · have hqr : q ≠ r := fun e => hr (e ▸ hq)
        obtain ⟨he, hn⟩ := h.closed q hq hcl
        refine ⟨?_, by rw [hxload, hothers q hqr, hn]⟩
        rw [hent q hqr, State.entry, hvrtb]
        exact (hu.ent q hqr).trans he
    · rw [hkst] at hx
      have hhead : (v.setLocks r true true false).headJob = v.headJob := by rw [State.headJob, hrke, State.headJob]
      rw [hhead]
      have hwas : u.kst.hold = some x → t.kst.hold = some x ∧ u.headJob = t.headJob := fun hux => by
        rcases hu.hold with hn | ⟨hsame, hhold⟩
        · rw [hn] at hux; cases hux
        · exact ⟨hhold.symm.trans hux, by rw [State.headJob, hsame, State.headJob]⟩
      rcases resumeIfPaused_hold hu.shaped hloadr hx with ⟨j, hj, hjr, hxr | ⟨i, hi, hir, hux⟩⟩ | ⟨hsame, hux⟩
      · exact ⟨by rw [hxr]; exact List.mem_cons_self, ⟨k, by rw [hxr, hxload, hloadr]⟩, j, hj, hjr.trans hxr.symm⟩
      · obtain ⟨htx, hth⟩ := hwas hux
        exact absurd hir ((hheld x htx).2 i (hth.symm.trans hi))
      · obtain ⟨htx, hth⟩ := hwas hux
        obtain ⟨hin, ⟨y, hy⟩, j, hj, hjr⟩ := h.hold x htx
        refine ⟨List.mem_cons_of_mem _ hin, ⟨y, by rw [hxload, hothers _ (hheld x htx).1, hy]⟩, j, ?_, hjr⟩
        show v.headJob = _
        rw [show v = u from hsame, hth]
        exact hj

theorem StartOpened.fold {b : State} (hno : b.NoStreams) (rs : List Nat) : ∀ {l : List Nat} {t : State}, StartOpened b l t →
    (∀ r ∈ rs, r ∉ l) → rs.Nodup → (∀ r ∈ rs, ∃ g, b.fields r = some g) → StartOpened b (rs.reverse ++ l) (rs.foldl State.unlockDevice t) := by
  induction rs with
  | nil => exact fun h _ _ _ => h
  | cons r rs ih =>
    intro l t h hout hnd hfields
    obtain ⟨hr, hnd⟩ := List.nodup_cons.mp hnd
    obtain ⟨g, hg⟩ := hfields r List.mem_cons_self
    have hstep := h.step hno (hout r List.mem_cons_self) hg
    have hrest := ih hstep (fun q hq hmem => ?_) hnd fun q hq => hfields q (List.mem_cons_of_mem _ hq)
    · simpa using hrest
    · rcases List.mem_cons.mp hmem with rfl | hmem
      · exact hr hq
      · exact hout q (List.mem_cons_of_mem _ hq) hmem

/-! ### The recovered job is settled (R114) -/

theorem releaseHold_stays {s : State} (hl : ∀ r k, s.load r ≠ .releasing k) (hb : ∀ h, s.kst.hold = some h → s.bothLocked h.range = false)
    (r : Nat) : s.releaseHold.load r = s.load r := by
  cases hh : s.kst.hold with
  | none => rw [s.releaseHold_none hh]
  | some h =>
    let d := [h.oldKey, h.newKey].foldl State.dropUser s.unheld
    have hstay : d.load r = s.load r :=
      (LoadStays.foldl loadStays_dropUser [h.oldKey, h.newKey] s.unheld (hl r) (fun _ k => by cases k)).1
    have hopen : d.bothLocked h.range = false := by
      have hrtb : d.rtb = s.rtb := by simp [d, State.unheld]
      rw [State.bothLocked, fields_of_rtb hrtb]
      exact hb h hh
    rw [releaseHold_some hh, settleHeld_load]
    show (if r = h.range then (if d.bothLocked h.range then _ else (d.load r).settled (d.hasHolders r)) else d.load r) = _
    rw [hopen, hstay]
    split
    · cases hr : s.load r with
      | releasing k => exact absurd hr (hl r k)
      | notLoaded => exact rfl
      | loaded k => exact rfl
    · exact rfl

theorem startSettle_load {s : State} (hl : ∀ r k, s.load r ≠ .releasing k) (hb : ∀ h, s.kst.hold = some h → s.bothLocked h.range = false)
    (r : Nat) : s.startSettle.load r = s.load r := by
  have hhead : ∀ (t : State) (f : Job → Job), (t.mapHead f).load r = t.load r := fun _ _ => rfl
  have hjob : s.settleJob.load r = s.load r := by
    unfold State.settleJob
    split
    · exact rfl
    · split
      · exact rfl
      · split
        · exact releaseHold_stays hl hb r
        · split
          · exact rfl
          · split
            · rw [hhead, State.load]
              simp [State.load]
            · exact rfl
  unfold State.startSettle
  split
  · exact rfl
  · exact hjob

end Sys2Proof.Machine


/-! START_UP (O59): the part as its blocks leave it, the ranges open, and the arrivals that the start latch holds (R131, R163). -/

namespace Sys2Proof.Machine

/-! ### The stages of a start-up (R163) -/

/-- The part once the boot state is chosen. -/
def State.chosen (s : State) (u : StartInputs) : State := (s.readStore u).rebuild.chooseBoot.undoProvision

/-- The part with its ranges open and its job settled, before the latch is taken. -/
def State.startedUp (s : State) (u : StartInputs) : State := (s.chosen u).startLocks.startSettle

theorem startUp_eq (s : State) (u : StartInputs) : s.startUp u = (s.startedUp u).takeLatch (s.sst.power == .off) u.edges := rfl

theorem readStore_store (s : State) (u : StartInputs) : (s.readStore u).lif = .blank (s.lif.session + 1) ∧ (s.readStore u).dpu = .blank ∧
    (s.readStore u).sst = { s.sst with
      units := s.sst.units.spoil u, marks := (s.sst.units.spoil u).damaged, queue := [], waiting := [], serving := none
      lastDevice := s.storedDevice, seconds := 0, power := .active, drain := .none, downMark := false, ready := false } :=
  ⟨rfl, rfl, rfl⟩

theorem readStore_shaped {s : State} (hs : Shaped s) (u : StartInputs) : Shaped (s.readStore u) := (s.readStore_inOrder u).shaped hs

section chosen
variable (s : State) (u : StartInputs)

theorem chosen_keeps : Keeps (s.readStore u) (s.chosen u) := by
  unfold State.chosen
  generalize s.readStore u = t
  exact t.rebuild_keeps.trans (t.rebuild.chooseBoot_keeps.trans t.rebuild.chooseBoot.undoProvision_keeps)

theorem chosen_shaped {s : State} (hs : Shaped s) (u : StartInputs) : Shaped (s.chosen u) :=
  (chosen_keeps s u).shaped (readStore_shaped hs u)

theorem chosen_dpu : (s.chosen u).dpu = .blank := by
  obtain ⟨-, hdpu, -⟩ := readStore_store s u
  simp [State.chosen, hdpu]

theorem chosen_noStreams : (s.chosen u).NoStreams := fun c => by
  rw [State.ctx, chosen_dpu]
  show ((List.replicate 16 ({ generation := 0, xfer := none } : Context))[c]?.getD { generation := 0, xfer := none }).xfer = none
  rw [List.getElem?_replicate]
  split <;> exact rfl

theorem chosen_unloaded : (s.chosen u).Unloaded :=
  (unloaded_rebuild (s.readStore u)).of_eq (by simp [State.chosen]) (by simp [State.chosen])

/-- R63: the fields of Boot Control. -/
theorem chosen_btc : ∃ d : DeviceRecord, ∃ b : BootState, d = (s.sst.units.spoil u).device.getD (.lost s.sst.labelCopy) ∧
    b = (s.readStore u).rebuild.bootChoice d ∧
    (s.chosen u).btc = { state := b, unsealed := false, imageSize := d.imageSize, token := d.token
                         labelVerifier := d.labelVerifier, hello := if d.token.isSome then .notDue else .none
                         window := none, provisioning := none } := by
  have hdev : (s.readStore u).rebuild.storedDevice = (s.sst.units.spoil u).device.getD (.lost s.sst.labelCopy) := by
    simp [State.storedDevice, (readStore_store s u).2.2]
  refine ⟨_, _, rfl, rfl, ?_⟩
  rw [← hdev]
  unfold State.chosen
  simp only [State.undoProvision_frame]
  unfold State.chooseBoot
  dsimp only
  split
  · simp
  · exact rfl

theorem chosen_latch : (s.chosen u).rsu.latch = s.rsu.latch := by
  have hresponse : ∀ t : State, t.rebuildResponse.rsu.latch = t.rsu.latch := fun t => by
    unfold State.rebuildResponse
    dsimp only
    split <;> simp
  simp [State.chosen, State.rebuild, hresponse]

theorem chosen_commit : (s.chosen u).rtb.commit = .idle := by
  have htable : ∀ t : State, t.rebuildTable.rtb.commit = .idle := fun t => by
    unfold State.rebuildTable
    simp
  simp [State.chosen, State.rebuild, htable]

theorem chosen_challenges : (s.chosen u).cru.challenges = List.replicate 4 none := by
  have hcreds : ∀ t : State, t.rebuildCreds.cru.challenges = List.replicate 4 none := fun t => by
    unfold State.rebuildCreds
    simp
  simp [State.chosen, State.rebuild, hcreds]

/-! ### The ranges open (R5) -/

theorem startLocks_streams : (s.chosen u).startLocks.dpu = .blank := by
  have hfold : ∀ (l : List Nat) (t : State), Streamless t (l.foldl State.unlockDevice t) := fun l t =>
    Streamless.foldl streamless_unlockDevice l t
  have hlock : (s.chosen u).lockAll.dpu = .blank := by
    simp [chosen_dpu]
  have hno : (s.chosen u).lockAll.NoStreams := (chosen_noStreams s u).congr (by simp)
  unfold State.startLocks
  dsimp only
  split
  · exact (hfold _ _ hno).trans hlock
  · exact (hfold _ _ hno).trans hlock
  · exact hlock

/-- R5: outside BLANK and SEALED every range is locked. -/
theorem startLocks_closed (t : State) (hb : t.btc.state ≠ .blank) (hse : t.btc.state ≠ .sealed) : t.startLocks = t.lockAll := by
  unfold State.startLocks
  cases h : t.btc.state <;> simp_all

theorem startLocks_opens (t : State) (h : t.btc.state = .blank ∨ t.btc.state = .sealed) :
    t.startLocks = (t.lockAll.rangesWhere (fun f => !f.powerLock)).foldl State.unlockDevice t.lockAll := by
  unfold State.startLocks
  rcases h with h | h <;> rw [h]

/-- R5: what a range is after the start-up's locks and loads. -/
def OpenOrLocked (s t : State) : Prop := ∀ r g, t.fields r = some g →
  let opens := fun k : Rak => (s.btc.state = .blank ∨ s.btc.state = .sealed) ∧ g.powerLock = false ∧
    s.lockdown = false ∧ t.openEnvelope r .device (some .device) = some k
  (∀ k, opens k → g.readLocked = false ∧ g.writeLocked = false ∧ t.load r = .loaded k) ∧
  ((∀ k, ¬ opens k) → g.readLocked = true ∧ g.writeLocked = true ∧ t.load r = .notLoaded)

theorem startLocks_openOrLocked {t : State} (hs : Shaped t) (hn : t.Unloaded) (hno : t.NoStreams) : OpenOrLocked t t.startLocks ∧
    (∀ r k, t.startLocks.load r ≠ .releasing k) ∧ ∀ h, t.startLocks.kst.hold = some h → t.startLocks.bothLocked h.range = false := by
  let b := t.lockAll
  have hbs : Shaped b := (State.lockAll_keeps t).shaped hs
  have hbn : b.Unloaded := hn.of_eq (by simp [b]) (by simp [b])
  have hlock : b.lockdown = t.lockdown := by simp [State.lockdown, b]
  by_cases hb : t.btc.state = .blank ∨ t.btc.state = .sealed
  · let rs := b.rangesWhere (fun f => !f.powerLock)
    have hmem : ∀ r, r ∈ rs ↔ ∃ g, b.fields r = some g ∧ g.powerLock = false := fun r =>
      (mem_rangesWhere b _ r hbs).trans (by simp)
    have hopened := (StartOpened.start hbs hbn).fold (hno.congr (by simp [b])) rs (by simp) (rangesWhere_nodup _ _)
      fun r hr => ((hmem r).mp hr).imp fun g h => h.1
    rw [startLocks_opens t hb]
    show OpenOrLocked t (rs.foldl State.unlockDevice b) ∧ (∀ r k, (rs.foldl State.unlockDevice b).load r ≠ .releasing k) ∧
      ∀ h, (rs.foldl State.unlockDevice b).kst.hold = some h → (rs.foldl State.unlockDevice b).bothLocked h.range = false
    generalize rs.foldl State.unlockDevice b = x at hopened
    have hin : ∀ r, r ∈ rs.reverse ++ [] ↔ r ∈ rs := by simp
    have hcases : ∀ r, (x.entry r = b.entry r ∧ x.load r = .notLoaded ∧ ((r ∉ rs) ∨ b.lockdown = true ∨ b.openDevice r = none)) ∨
        ∃ g k v, r ∈ rs ∧ b.lockdown = false ∧ b.openDevice r = some k ∧ b.fields r = some g ∧ x.load r = .loaded k ∧
          x.fields r = some { g with keyLost := v, readLocked := false, writeLocked := false } := fun r => by
      by_cases hr : r ∈ rs
      · by_cases hc : b.lockdown = true ∨ b.openDevice r = none
        · obtain ⟨he, hl⟩ := hopened.closed r ((hin r).mpr hr) hc
          exact .inl ⟨he, hl, .inr hc⟩
        · obtain ⟨hl, hk⟩ := not_or.mp hc
          obtain ⟨k, hk⟩ := Option.ne_none_iff_exists'.mp hk
          obtain ⟨g, hg, -⟩ := (hmem r).mp hr
          obtain ⟨hload, v, hv⟩ := hopened.opened r ((hin r).mpr hr) g k (by simpa using hl) hg hk
          exact .inr ⟨g, k, v, hr, by simpa using hl, hk, hg, hload, hv⟩
      · obtain ⟨he, hl⟩ := hopened.others r (mt (hin r).mp hr)
        exact .inl ⟨he, hl, .inl hr⟩
    refine ⟨fun r g hg => ?_, fun r k hk => ?_, fun h hh => ?_⟩
    · rcases hcases r with ⟨he, hl, hwhy⟩ | ⟨g', k, v, hr, hlow, hk, hg', hl, hf⟩
      · have hgb : b.fields r = some g := fields_eq_some.mpr (he.symm.trans (fields_eq_some.mp hg))
        have henv : x.openEnvelope r .device (some .device) = b.openDevice r := by
          simp only [State.openDevice, State.openEnvelope, hg, hgb]
        obtain ⟨hrd, hwr⟩ := lockAll_locked t r g hgb
        refine ⟨fun k hk => ?_, fun _ => ⟨hrd, hwr, hl⟩⟩
        obtain ⟨-, hp, hlow, hopen⟩ := hk
        rcases hwhy with hr | hlk | hno'
        · exact absurd ((hmem r).mpr ⟨g, hgb, hp⟩) hr
        · rw [hlock, hlow] at hlk
          cases hlk
        · rw [henv, hno'] at hopen
          cases hopen
      · rw [hf] at hg
        cases hg
        have henv : x.openEnvelope r .device (some .device) = some k := by
          rw [← hk]
          simp only [State.openDevice, State.openEnvelope, hf, hg']
        obtain ⟨g'', hg'', hp⟩ := (hmem r).mp hr
        rw [hg'] at hg''
        cases hg''
        refine ⟨fun k' hk' => ⟨rfl, rfl, ?_⟩, fun hnone => absurd ⟨hb, hp, hlock.symm.trans hlow, henv⟩ (hnone k)⟩
        obtain ⟨-, -, -, hopen⟩ := hk'
        rw [henv] at hopen
        cases hopen
        exact hl
    · rcases hcases r with ⟨-, hl, -⟩ | ⟨g, k', v, -, -, -, -, hl, -⟩
      · rw [hl] at hk; cases hk
      · rw [hl] at hk; cases hk
    · obtain ⟨-, ⟨y, hy⟩, -⟩ := hopened.hold h hh
      rcases hcases h.range with ⟨-, hl, -⟩ | ⟨g, k, v, -, -, -, -, -, hf⟩
      · rw [hl] at hy; cases hy
      · simp [State.bothLocked, hf]
  · have hclosed := startLocks_closed t (fun h => hb (.inl h)) (fun h => hb (.inr h))
    rw [hclosed]
    refine ⟨fun r g hg => ⟨fun k hk => absurd hk.1 hb, fun _ => ?_⟩, fun r k hk => ?_, fun h hh => ?_⟩
    · obtain ⟨hrd, hwr⟩ := lockAll_locked t r g hg
      exact ⟨hrd, hwr, hbn.load r⟩
    · rw [show t.lockAll.load r = .notLoaded from hbn.load r] at hk; cases hk
    · rw [show t.lockAll.kst.hold = none from hbn.hold] at hh; cases hh

end chosen

/-! ### The part before the latch is taken, and after it (R131, R163) -/

theorem startedUp_parts (s : State) (u : StartInputs) : (s.startedUp u).btc = (s.chosen u).btc ∧ (s.startedUp u).dpu = .blank ∧
    (s.startedUp u).rtb.commit = .idle ∧ (s.startedUp u).rsu.latch = s.rsu.latch ∧ (s.startedUp u).rsu = (s.chosen u).rsu ∧
    (s.startedUp u).rtb = (s.chosen u).startLocks.rtb := by
  refine ⟨by simp [State.startedUp], ?_, ?_, ?_, by simp [State.startedUp], by simp [State.startedUp]⟩
  · simp [State.startedUp, startLocks_streams]
  · simp [State.startedUp, chosen_commit]
  · simp [State.startedUp, chosen_latch]

theorem startedUp_noStreams (s : State) (u : StartInputs) : (s.startedUp u).NoStreams := by
  have hdpu := (startedUp_parts s u).2.1
  exact (chosen_noStreams s u).congr (hdpu.trans (chosen_dpu s u).symm)

/-- R5: outside BLANK and SEALED every range is locked. -/
theorem startedUp_locked (s : State) (u : StartInputs) (hb : (s.startedUp u).btc.state ≠ .blank) (hse : (s.startedUp u).btc.state ≠ .sealed) :
    (s.startedUp u).AllLocked := by
  obtain ⟨hbtc, -, -, -, -, hrtb⟩ := startedUp_parts s u
  rw [hbtc] at hb hse
  refine (lockAll_locked (s.chosen u)).congr ?_
  rw [hrtb, startLocks_closed _ hb hse]

/-- R5: each range of the part is open or locked as the boot state, the level and its envelope have it. -/
theorem startedUp_ranges {s : State} (hs : Shaped s) (u : StartInputs) : OpenOrLocked (s.startedUp u) (s.startedUp u) := by
  obtain ⟨hbtc, -, -, -, hrsu, hrtb⟩ := startedUp_parts s u
  obtain ⟨hopen, hrel, hheld⟩ := startLocks_openOrLocked (chosen_shaped hs u) (chosen_unloaded s u) (chosen_noStreams s u)
  have hload : ∀ r, (s.startedUp u).load r = (s.chosen u).startLocks.load r := startSettle_load hrel hheld
  have hfields : ∀ r, (s.startedUp u).fields r = (s.chosen u).startLocks.fields r := fields_of_rtb hrtb
  intro r g hg
  have h := hopen r g ((hfields r).symm.trans hg)
  have hlock : (s.startedUp u).lockdown = (s.chosen u).lockdown := by rw [State.lockdown, hrsu, State.lockdown]
  have henv : (s.startedUp u).openEnvelope r .device (some .device) = (s.chosen u).startLocks.openEnvelope r .device (some .device) := by
    simp only [State.openEnvelope, hfields]
  rw [hbtc, hlock, henv, hload]
  exact h

/-- R163: what the link and the store hold after a start-up. -/
theorem startUp_store (s : State) (u : StartInputs) :
    ((s.startUp u).sst.power = .active ∧ (s.startUp u).sst.seconds = 0 ∧ (s.startUp u).sst.drain = .none ∧
      (s.startUp u).sst.downMark = false ∧ (s.startUp u).sst.ready = false ∧ (s.startUp u).sst.units = s.sst.units.spoil u ∧
      (s.startUp u).sst.marks = (s.sst.units.spoil u).damaged) ∧
    (s.startUp u).lif.started = false ∧ (s.startUp u).lif.outstanding = [] ∧ (s.startUp u).lif.freeCredits = 0 ∧
      (s.startUp u).lif.erroredBursts = 0 ∧ (s.startUp u).lif.nextTag = 1 ∧ (s.startUp u).lif.limitControl = 4160 := by
  obtain ⟨hlif, -, hsst⟩ := readStore_store s u
  rw [startUp_eq]
  constructor
  · simp [State.startedUp, State.chosen, hsst]
  · simp [State.startedUp, State.chosen, hlif, Link.blank, Config.payloadMax]

theorem startUp_challenges (s : State) (u : StartInputs) : (s.startUp u).cru.challenges = [none, none, none, none] := by
  have h := chosen_challenges s u
  rw [startUp_eq]
  simpa [State.startedUp] using h

theorem takeLatch_eq (s : State) (warm : Bool) (edges : List Nat) : s.takeLatch warm edges =
    { (s.latched warm edges).foldl State.raise s with
      rsu := { ((s.latched warm edges).foldl State.raise s).rsu with latch := [], startLatch := s.latched warm edges } } := rfl

/-- R131: the sources taken. -/
theorem latched_eq (s : State) (p : PowerState) (edges latch : List Nat) (h : s.rsu.latch = latch) :
    s.latched (p == .off) edges = [1, 2, 6].filter (fun i => decide (i ∈ edges ∨
      if p = .off then i ∈ latch else i = 6 ∧ s.btc.state ≠ .blank)) := by
  subst h
  unfold State.latched
  refine List.filter_congr fun i _ => ?_
  by_cases hp : p = .off
  · simp [hp, or_comm]
  · by_cases hb : s.btc.state = .blank
    · simp [hp, hb]
    · simp [hp, hb, or_comm]

end Sys2Proof.Machine

namespace Sys2Proof
open Machine

/-- Settles O59: the blocks by their frames, the ranges by the induction over those that the start-up opens, the arrivals by
what an escalation leaves of the part. -/
theorem startUpRebuildsThePart : Obligations.StartUpRebuildsThePart := by
  intro u s
  refine ⟨fun h => if_pos h, fun h => ⟨s.startUp u, if_neg (by simp [h]), ?_⟩, fun hp hc => ?_, fun hc => ?_⟩
  · have hesc := takeLatch_escalated (s.startedUp u) (s.sst.power == .off) u.edges
    rw [← startUp_eq] at hesc
    obtain ⟨hbtc, hdpu, hcommit, hlatch, -, -⟩ := startedUp_parts s u
    obtain ⟨d, b, hd, hb, hboot⟩ := chosen_btc s u
    have hstreams : (s.startUp u).dpu = .blank := (hesc.streams (startedUp_noStreams s u)).trans hdpu
    have hfields : (s.startUp u).btc = { (s.chosen u).btc with state := (s.startUp u).btc.state } := hesc.boot.trans (by rw [hbtc])
    obtain ⟨⟨hpower, hseconds, hdrain, hdown, hready, hunits, hmarks⟩, hstarted, hout, hfree, herr, htag, hlimit⟩ := startUp_store s u
    refine ⟨hpower, hseconds, hdrain, hdown, hready, hunits, hmarks, hstarted, hout, hfree, herr, htag, hlimit, fun c => ?_, ?_,
      startUp_challenges s u, rfl, hesc.commit hcommit, ?_, ?_, fun x hx => ?_, fun hnb hns => ?_,
      fun hs => ⟨s.startedUp u, ?_, ?_, ?_⟩⟩
    · rw [State.ctx, hstreams]
      show (List.replicate 16 ({ generation := 0, xfer := none } : Context))[c]?.getD { generation := 0, xfer := none } = _
      rw [List.getElem?_replicate]
      split <;> exact rfl
    · rw [hstreams]
      exact rfl
    · rw [hfields, hboot]
    · rw [hfields, hboot]
    · obtain rfl : d = x := hd.trans (by rw [show (s.sst.units.spoil u).device = s.sst.units.device from rfl, hx]; exact rfl)
      refine ⟨by rw [hfields, hboot], by rw [hfields, hboot], by rw [hfields, hboot], fun hbl => ?_, fun her => ?_⟩
      · have hstate : (s.startedUp u).btc.state = .blank := by rw [hbtc, hboot, hb, State.bootChoice, hbl]
        rcases hesc.state with hsame | ⟨hse | hop, -⟩
        · exact hsame.trans hstate
        · rw [hstate] at hse; cases hse
        · rw [hstate] at hop; cases hop
      · have hstate : (s.startedUp u).btc.state = .erased := by rw [hbtc, hboot, hb, State.bootChoice, her]
        rcases hesc.state with hsame | ⟨hse | hop, -⟩
        · exact hsame.trans hstate
        · rw [hstate] at hse; cases hse
        · rw [hstate] at hop; cases hop
    · rcases hesc.locks with ⟨hent, hsame⟩ | hall
      · rw [hsame] at hnb hns
        exact (startedUp_locked s u hnb hns).congr hent
      · exact hall
    · simp [State.startedUp, State.chosen, (readStore_store s u).2.2]
    · simp [State.startedUp, State.chosen, (readStore_store s u).1, Link.blank]
    · refine ⟨fun r g hg => ?_, ?_⟩
      · have hrange := startedUp_ranges hs u r g hg
        have hlow : (s.startedUp u).lockdown = false ↔ (s.startedUp u).rsu.level.number < 2 := by simp [State.lockdown]
        simp only [hlow] at hrange
        exact hrange
      · intro taken after
        have htaken : (s.startedUp u).latched (s.sst.power == .off) u.edges = taken := latched_eq _ _ _ _ hlatch
        show s.startUp u = _
        rw [startUp_eq, takeLatch_eq, htaken]
  · exact (congrArg Host.Outcome.next (if_pos ⟨hp, by simp [hc]⟩))
  · refine congrArg Host.Outcome.next (if_neg fun hn => ?_)
    rcases hc with hc | hc
    · simp [hc] at hn
    · exact hc (by simpa using hn.2)

end Sys2Proof


/-! A commit's installation (O38): what a plan keeps of the table (R13), the new keys of its ranges (R29, R18 step 2) and their
envelopes (R31, R37). -/

namespace Sys2Proof.Machine

/-! ### What a plan keeps (R13) -/

/-- The key slots and the envelopes of g are those of o, but for a split that may be gone. -/
structure SameKeys (o g : RangeFields) : Prop where
  envelopes : g.envelopes = o.envelopes
  keySlot : g.keySlot = o.keySlot
  split : g.split = o.split ∨ g.split = none

theorem SameKeys.refl (o : RangeFields) : SameKeys o o := ⟨rfl, rfl, .inl rfl⟩

theorem SameKeys.trans {o g h : RangeFields} (k : SameKeys o g) (l : SameKeys g h) : SameKeys o h := by
  refine ⟨l.envelopes.trans k.envelopes, l.keySlot.trans k.keySlot, ?_⟩
  rcases l.split with hl | hl
  · rw [hl]
    exact k.split
  · exact .inr hl

/-- R13: a range that the edits made anew has no key slot of its own yet; any other ENABLED one keeps its keys. -/
structure Plan.KeepsKeys (s : State) (p : Plan) : Prop where
  size : p.entries.length = s.rtb.entries.length
  kept : ∀ r g, r ∉ p.remade → p.entry r = .enabled g → ∃ o, s.entry r = .enabled o ∧ SameKeys o g
  made : ∀ r g, r ∈ p.remade → p.entry r = .enabled g → g.split = none ∧ g.envelopes = []

/-- R13: what one edit does to the entry that it names. -/
structure EditKeeps (p q : Plan) (r : Nat) : Prop where
  kept : ∀ g, r ∉ q.remade → q.entry r = .enabled g → ∃ o, p.entry r = .enabled o ∧ SameKeys o g
  made : ∀ g, q.entry r = .enabled g → (r ∈ p.remade ∧ ∃ o, p.entry r = .enabled o ∧ SameKeys o g) ∨ r ∉ q.remade ∨
    (g.split = none ∧ g.envelopes = [])

theorem EditKeeps.of_same {p q : Plan} {r : Nat} (hm : q.remade = p.remade)
    (h : ∀ g, q.entry r = .enabled g → ∃ o, p.entry r = .enabled o ∧ SameKeys o g) : EditKeeps p q r := by
  refine ⟨fun g _ hg => h g hg, fun g hg => ?_⟩
  by_cases hr : r ∈ p.remade
  · exact .inl ⟨hr, h g hg⟩
  · exact .inr (.inl (by rwa [hm]))

theorem EditKeeps.of_set {p q : Plan} {r : Nat} {o g : RangeFields} (hm : q.remade = p.remade) (ho : p.entry r = .enabled o)
    (hq : q.entry r = (p.set r (.enabled g)).entry r) (h : SameKeys o g) : EditKeeps p q r := by
  refine .of_same hm fun x hx => ⟨o, ho, ?_⟩
  rw [hq, Plan.entry_set] at hx
  split at hx
  · cases hx
    exact h
  · rw [ho] at hx
    cases hx
    exact .refl o

theorem EditKeeps.of_repair {p : Plan} {r : Nat} {o g : RangeFields} (ho : p.entry r = .enabled o) (h : SameKeys o g) :
    EditKeeps p (p.repair r g) r := by
  unfold Plan.repair
  split
  · exact .of_set rfl ho rfl (h.trans ⟨rfl, rfl, .inr rfl⟩)
  · exact .of_set rfl ho rfl h

theorem EditKeeps.of_made {p q : Plan} {r : Nat} {b : Option Span} {pl : Bool} (hp : ∀ o, p.entry r ≠ .enabled o)
    (hm : r ∈ q.remade) (hq : q.entry r = (p.set r (.enabled (.made b pl))).entry r) : EditKeeps p q r := by
  refine ⟨fun g hn => absurd hm hn, fun g hg => ?_⟩
  rw [hq, Plan.entry_set] at hg
  split at hg
  · cases hg
    exact .inr (.inr ⟨rfl, rfl⟩)
  · exact absurd hg (hp g)

theorem EditKeeps.of_disabled {p q : Plan} {r : Nat} (hm : q.remade = p.remade)
    (hq : q.entry r = (p.set r .disabled).entry r) : EditKeeps p q r := by
  refine .of_same hm fun g hg => ?_
  rw [hq, Plan.entry_set] at hg
  split at hg
  · cases hg
  · exact ⟨g, hg, .refl g⟩

theorem Plan.apply_keeps (p : Plan) (e : Edit) : EditKeeps p (p.apply e) e.range := by
  have hsame : EditKeeps p p e.range := .of_same rfl fun g hg => ⟨g, hg, .refl g⟩
  cases e with
  | define r first count =>
    by_cases h0 : r = 0
    · simpa [Plan.apply, h0] using hsame
    · simp only [Plan.apply, if_neg h0, Edit.range]
      cases ho : p.entry r with
      | enabled o => exact .of_repair ho ⟨rfl, rfl, .inl rfl⟩
      | disabled => exact .of_made (by simp [ho]) List.mem_cons_self rfl
      | damaged => exact .of_made (by simp [ho]) List.mem_cons_self rfl
  | options r mode concealed powerLock standbyLock reseal =>
    simp only [Plan.apply, Edit.range] at hsame ⊢
    cases ho : p.entry r with
    | enabled o => exact .of_set rfl ho rfl ⟨rfl, rfl, .inl rfl⟩
    | disabled => exact hsame
    | damaged => exact hsame
  | access r rl wl =>
    simp only [Plan.apply, Edit.range] at hsame ⊢
    cases ho : p.entry r with
    | enabled o => exact .of_set rfl ho rfl ⟨rfl, rfl, .inl rfl⟩
    | disabled => exact hsame
    | damaged => exact hsame
  | newKey r =>
    simp only [Plan.apply, Edit.range] at hsame ⊢
    cases ho : p.entry r with
    | enabled o =>
      have hrep : EditKeeps p (p.repair r o) r := .of_repair ho (.refl o)
      exact ⟨hrep.kept, hrep.made⟩
    | disabled => exact hsame
    | damaged =>
      by_cases h0 : r = 0
      · simp only [if_pos h0]
        exact .of_made (by simp [ho]) List.mem_cons_self rfl
      · simp only [if_neg h0]
        exact hsame
  | disable r =>
    by_cases h0 : r = 0
    · simpa [Plan.apply, h0] using hsame
    · simp only [Plan.apply, if_neg h0, Edit.range] at hsame ⊢
      cases ho : p.entry r with
      | enabled o => exact .of_disabled rfl rfl
      | disabled => exact hsame
      | damaged => exact .of_disabled rfl rfl

theorem Plan.apply_size (p : Plan) (e : Edit) : (p.apply e).entries.length = p.entries.length := by
  have hrepair : ∀ r f, (p.repair r f).entries.length = p.entries.length := fun r f => by
    unfold Plan.repair
    split <;> simp [Plan.set]
  cases e <;> simp only [Plan.apply] <;> (repeat' split) <;> simp [Plan.set, hrepair]

/-- R13: an edit makes no range anew but its own. -/
theorem Plan.mem_remade_apply (p : Plan) (e : Edit) (q : Nat) (h : q ∈ (p.apply e).remade) : q ∈ p.remade ∨ q = e.range := by
  have hrepair : ∀ r f, (p.repair r f).remade = p.remade := fun r f => by
    unfold Plan.repair
    split <;> exact rfl
  cases e <;> simp only [Plan.apply] at h <;> (repeat' split at h) <;> simp_all [Plan.set, Edit.range]
  all_goals tauto

theorem Plan.KeepsKeys.apply {s : State} {p : Plan} (h : p.KeepsKeys s) (e : Edit) : (p.apply e).KeepsKeys s := by
  have hedit := p.apply_keeps e
  refine ⟨(p.apply_size e).trans h.size, fun r g hr hg => ?_, fun r g hr hg => ?_⟩
  · have hrp : r ∉ p.remade := mt (p.remade_apply e r) hr
    by_cases hre : r = e.range
    · subst hre
      obtain ⟨o, ho, hsame⟩ := hedit.kept g hr hg
      obtain ⟨o', ho', hsame'⟩ := h.kept _ o hrp ho
      exact ⟨o', ho', hsame'.trans hsame⟩
    · exact h.kept r g hrp (by rw [← p.entry_apply_other e r hre]; exact hg)
  · by_cases hre : r = e.range
    · subst hre
      rcases hedit.made g hg with ⟨hp, o, ho, hsame⟩ | hn | hnew
      · obtain ⟨hs, he⟩ := h.made _ o hp ho
        exact ⟨hsame.split.elim (fun k => k.trans hs) id, hsame.envelopes.trans he⟩
      · exact absurd hr hn
      · exact hnew
    · exact h.made r g ((p.mem_remade_apply e r hr).resolve_right hre) (by rw [← p.entry_apply_other e r hre]; exact hg)

theorem plan_keepsKeys (s : State) (es : List Edit) : (s.plan es).KeepsKeys s := by
  unfold State.plan
  have hstart : s.planStart.KeepsKeys s := ⟨rfl, fun r g _ hg => ⟨g, hg, .refl g⟩, fun r g hr _ => by simp [State.planStart] at hr⟩
  generalize s.planStart = p at hstart
  induction es generalizing p with
  | nil => exact hstart
  | cons e es ih => exact ih _ (hstart.apply e)

/-- R13: a list leaves the entries that it does not name. -/
theorem plan_other (s : State) (es : List Edit) (r : Nat) (h : ∀ e ∈ es, e.range ≠ r) : (s.plan es).entry r = s.entry r := by
  have hfold : ∀ (l : List Edit) (p : Plan), (∀ e ∈ l, e.range ≠ r) → (l.foldl Plan.apply p).entry r = p.entry r := by
    intro l
    induction l with
    | nil => exact fun _ _ => rfl
    | cons e l ih =>
      intro p hl
      exact (ih _ fun x hx => hl x (List.mem_cons_of_mem _ hx)).trans (p.entry_apply_other e r (hl e List.mem_cons_self).symm)
  exact hfold es s.planStart h

/-! ### New keys (R29, R18 step 2) -/

theorem pairedWith_cons {α : Type} (q a : Nat) (x : α) (l : List (Nat × α)) :
    pairedWith ((a, x) :: l) q = if a = q then some x else pairedWith l q := by
  unfold pairedWith
  by_cases h : a = q
  · simp [h]
  · simp [h]

theorem pairedWith_append_of_not_mem {α : Type} {q : Nat} {l m : List (Nat × α)} (h : ∀ x, (q, x) ∉ l) :
    pairedWith (l ++ m) q = pairedWith m q := by
  induction l with
  | nil => rfl
  | cons a l ih =>
    obtain ⟨a, x⟩ := a
    rw [List.cons_append, pairedWith_cons, if_neg fun e => h x (by simp [e]), ih fun y hy => h y (List.mem_cons_of_mem _ hy)]

/-- R29: the new key of range r in its slot. -/
structure KeyMade (s : State) (r x : Nat) (rak : Rak) : Prop where
  state : (s.slot x).state = .live
  owner : (s.slot x).owner = some r
  material : ∃ d, (s.slot x).material = some d ∧ d.whole = true ∧ d.rak = rak

/-- R29: the slot that a generation takes. -/
theorem generate_slot {s : State} {r x : Nat} {rak : Rak} (hx : s.emptySlot = some x) (hs : s.kst.slots.length = 24) :
    x < 23 ∧ (s.slot x).state = .empty ∧ (s.generate r rak).2 = some x ∧ KeyMade (s.generate r rak).1 r x rak ∧
      (∀ y, y ≠ x → (s.generate r rak).1.slot y = s.slot y) := by
  have hlt : x < 23 := List.mem_range.mp (List.mem_of_find?_eq_some hx)
  have hst : (s.slot x).state = .empty := by simpa using List.find?_some hx
  have hlt' : x < s.kst.slots.length := by omega
  have hsame : ∀ (v : KeySlot), (s.mapSlot x fun _ => v).bump.slot x = v := fun v =>
    (slot_mapSlot s x x (fun _ => v)).trans (if_pos ⟨rfl, hlt'⟩)
  have hother : ∀ (v : KeySlot) y, y ≠ x → (s.mapSlot x fun _ => v).bump.slot y = s.slot y := fun v y hy =>
    (slot_mapSlot s x y (fun _ => v)).trans (if_neg fun h => hy h.1)
  unfold State.generate
  rw [hx]
  refine ⟨hlt, hst, rfl, ⟨?_, ?_, ?_⟩, hother _⟩
  · rw [hsame]
  · rw [hsame]
  · rw [hsame]
    exact ⟨_, rfl, rfl, rfl⟩

/-- R18 step 2, R29: what the new keys of a list of ranges come to. -/
structure KeysMade (s : State) (p : Plan) (raks : List (Nat × Rak)) (l : List Nat) (q : State × List (Nat × Nat) × List (Nat × Rak)) : Prop where
  ranges : q.2.1.map (fun a => a.1) = l
  remade : ∀ r k, (r, k) ∈ q.2.2 → r ∈ l ∧ r ∈ p.remade
  rak : ∀ r ∈ l, ∃ k, pairedWith (q.2.2 ++ raks) r = some k
  made : ∀ r x, (r, x) ∈ q.2.1 → x < 23 ∧ (s.slot x).state = .empty ∧ ∃ k, pairedWith (q.2.2 ++ raks) r = some k ∧ KeyMade q.1 r x k
  other : ∀ x, (∀ r, (r, x) ∉ q.2.1) → q.1.slot x = s.slot x

theorem makeKeys_cons_raks {s : State} {p : Plan} {raks : List (Nat × Rak)} {r : Nat} {rs : List Nat} {k : Rak}
    (h : (s.rakFor p raks r).2 = some k) : (s.makeKeys p raks (r :: rs)).2.2 =
      (if p.remade.contains r then [(r, k)] else []) ++ (((s.rakFor p raks r).1.generate r k).1.makeKeys p raks rs).2.2 := by
  rw [State.makeKeys]
  dsimp only
  unfold State.rakFor at h ⊢
  generalize (if p.remade.contains r = true then (s.newRak.1, some s.newRak.2) else (s, pairedWith raks r)) = q at h ⊢
  rw [h]
  dsimp only
  split <;> exact rfl

theorem makeKeys_made (p : Plan) (raks : List (Nat × Rak)) (l : List Nat) : ∀ s : State, s.kst.slots.length = 24 → l.Nodup →
    l.length ≤ s.poolCount .empty → (∀ r ∈ l, r ∈ p.remade ∨ ∃ k, pairedWith raks r = some k) →
    KeysMade s p raks l (s.makeKeys p raks l) := by
  induction l with
  | nil =>
    intro s _ _ _ _
    exact ⟨rfl, fun r k h => by simp [State.makeKeys] at h, by simp, fun r x h => by simp [State.makeKeys] at h, fun x _ => rfl⟩
  | cons r rs ih =>
    intro s hs hnd hl hr
    obtain ⟨hnot, hnd⟩ := List.nodup_cons.mp hnd
    obtain ⟨k, hk⟩ : ∃ k, (s.rakFor p raks r).2 = some k := by
      unfold State.rakFor
      by_cases hm : r ∈ p.remade
      · exact ⟨s.newRak.2, by simp [hm]⟩
      · obtain ⟨k, hk⟩ := (hr r List.mem_cons_self).resolve_left hm
        exact ⟨k, by simp [hm, hk]⟩
    let b := (s.rakFor p raks r).1
    have hslot : ∀ x, b.slot x = s.slot x := fun x => by simp [b, State.slot]
    have hcount : b.poolCount .empty = s.poolCount .empty := by simp [State.poolCount, hslot]
    have hsize : b.kst.slots.length = 24 := by simpa [b] using hs
    obtain ⟨x, hx, -, -, -, -, hless, hsize'⟩ := b.generate_takes r k hsize (by rw [hcount]; simp at hl; omega)
    have hempty : b.emptySlot = some x := by
      unfold State.generate at hx
      cases he : b.emptySlot with
      | none => simp [he] at hx
      | some y => simpa [he] using hx
    obtain ⟨hlt, hst, -, hmade, hother⟩ := generate_slot (r := r) (rak := k) hempty hsize
    have hrest := ih (b.generate r k).1 hsize' hnd (by simp at hl; omega) fun q hq => hr q (List.mem_cons_of_mem _ hq)
    obtain ⟨hstate, hpairs⟩ := s.makeKeys_cons_some p raks r rs k hk
    have hraks := makeKeys_cons_raks (rs := rs) hk
    have hpairs' : (s.makeKeys p raks (r :: rs)).2.1 = (r, x) :: ((b.generate r k).1.makeKeys p raks rs).2.1 := by
      rw [hpairs]
      show ((b.generate r k).2.map (fun x => (r, x))).toList ++ _ = _
      rw [hx]
      exact rfl
    have hnew : ∀ y, (r, y) ∉ ((b.generate r k).1.makeKeys p raks rs).2.2 := fun y hy => hnot (hrest.remade r y hy).1
    have hhead : pairedWith ((s.makeKeys p raks (r :: rs)).2.2 ++ raks) r = some k := by
      rw [hraks]
      by_cases hm : r ∈ p.remade
      · rw [if_pos (by simpa using hm)]
        exact (pairedWith_cons r r k _).trans (if_pos rfl)
      · rw [if_neg (by simpa using hm), List.nil_append, pairedWith_append_of_not_mem hnew]
        rw [State.rakFor, if_neg (by simpa using hm)] at hk
        exact hk
    have htail : ∀ q, q ≠ r → pairedWith ((s.makeKeys p raks (r :: rs)).2.2 ++ raks) q =
        pairedWith (((b.generate r k).1.makeKeys p raks rs).2.2 ++ raks) q := fun q hq => by
      rw [hraks]
      by_cases hm : p.remade.contains r = true
      · rw [if_pos hm]
        exact (pairedWith_cons q r k _).trans (if_neg (Ne.symm hq))
      · rw [if_neg hm]
        exact rfl
    have hfree : ∀ q, (q, x) ∉ ((b.generate r k).1.makeKeys p raks rs).2.1 := fun q hq => by
      have := (hrest.made q x hq).2.1
      rw [hmade.state] at this
      cases this
    refine ⟨?_, fun q y hq => ?_, fun q hq => ?_, fun q y hq => ?_, fun y hy => ?_⟩
    · rw [hpairs', List.map_cons, hrest.ranges]
    · rw [hraks] at hq
      rcases List.mem_append.mp hq with hq | hq
      · split at hq
        · next hm =>
          obtain ⟨rfl, -⟩ := Prod.mk.inj (List.mem_singleton.mp hq)
          exact ⟨List.mem_cons_self, by simpa using hm⟩
        · simp at hq
      · exact (hrest.remade q y hq).imp_left (List.mem_cons_of_mem _)
    · rcases List.mem_cons.mp hq with rfl | hq
      · exact ⟨k, hhead⟩
      · rw [htail q fun e => hnot (e ▸ hq)]
        exact hrest.rak q hq
    · rw [hpairs'] at hq
      rcases List.mem_cons.mp hq with hq | hq
      · obtain ⟨rfl, rfl⟩ := Prod.mk.inj hq
        have hkeep : (s.makeKeys p raks (q :: rs)).1.slot y = (b.generate q k).1.slot y := by
          rw [hstate]
          exact hrest.other y hfree
        refine ⟨hlt, by rw [← hslot]; exact hst, k, hhead, ⟨?_, ?_, ?_⟩⟩
        · rw [hkeep]; exact hmade.state
        · rw [hkeep]; exact hmade.owner
        · rw [hkeep]; exact hmade.material
      · obtain ⟨hylt, hyst, z, hz, hmz⟩ := hrest.made q y hq
        have hyx : y ≠ x := fun e => hfree q (e ▸ hq)
        have hqr : q ≠ r := fun e => hnot (by rw [← e, ← hrest.ranges]; exact List.mem_map.mpr ⟨(q, y), hq, rfl⟩)
        refine ⟨hylt, by rw [← hslot, ← hother y hyx]; exact hyst, z, by rw [htail q hqr]; exact hz, ⟨?_, ?_, ?_⟩⟩
        · rw [hstate]; exact hmz.state
        · rw [hstate]; exact hmz.owner
        · rw [hstate]; exact hmz.material
    · rw [hpairs'] at hy
      rw [hstate, ← hslot, ← hother y fun e => hy r (by simp [e])]
      exact hrest.other y fun q hq => hy q (List.mem_cons_of_mem _ hq)

end Sys2Proof.Machine


/-! A commit's installation (O38): the envelopes that it makes (R31, R37), and the entries that it installs (R18). -/

namespace Sys2Proof.Machine

/-! ### The envelopes made for a range (R37) -/

/-- The envelopes that are prepared for range r. -/
def Prepared.envelopesFor (m : Prepared) (r : Nat) : List Envelope := (m.envelopes.filter (fun q => q.1 == r)).map (fun q => q.2)

theorem filter_flatMap_fst {α : Type} (g : Nat → List (Nat × α)) (hg : ∀ r, ∀ x ∈ g r, x.1 = r) {l : List Nat} (hl : l.Nodup) {r : Nat}
    (hr : r ∈ l) : (l.flatMap g).filter (fun q => q.1 == r) = g r := by
  have hnone : ∀ l : List Nat, r ∉ l → (l.flatMap g).filter (fun q => q.1 == r) = [] := fun l hn => by
    refine List.filter_eq_nil_iff.mpr fun x hx => ?_
    obtain ⟨a, ha, hx⟩ := List.mem_flatMap.mp hx
    have : x.1 ≠ r := fun e => hn (e ▸ hg a x hx ▸ ha)
    simpa using this
  induction l with
  | nil => simp at hr
  | cons a l ih =>
    obtain ⟨hn, hnd⟩ := List.nodup_cons.mp hl
    rw [List.flatMap_cons, List.filter_append]
    by_cases ha : a = r
    · subst ha
      rw [hnone l hn, List.append_nil]
      exact List.filter_eq_self.mpr fun x hx => by simpa using hg a x hx
    · rw [ih hnd ((List.mem_cons.mp hr).resolve_left (Ne.symm ha)), List.filter_eq_nil_iff.mpr fun x hx => ?_, List.nil_append]
      simpa [hg a x hx] using ha

/-- R37: the fields that count as before the commit: a range that is made anew has none. -/
def State.oldFields (s : State) (p : Plan) (r : Nat) : Option RangeFields := if p.remade.contains r then none else s.fields r

theorem prepare_envelopesFor {s : State} {p : Plan} {named : List Nat} {raks : List (Nat × Rak)} (hn : named.Nodup) {r : Nat}
    (hr : r ∈ named) {f : RangeFields} (hf : p.entry r = .enabled f) {k : Rak}
    (hk : pairedWith ((s.makeKeys p raks p.needKeys).2.2 ++ raks) r = some k) :
    (s.prepare p named raks).2.envelopesFor r =
      (newHolders (s.oldFields p r) f).filterMap ((s.makeKeys p raks p.needKeys).1.makeEnvelope k) := by
  unfold Prepared.envelopesFor State.prepare
  dsimp only
  rw [filter_flatMap_fst _ (fun q x hx => ?_) hn hr]
  · rw [hf, hk]
    dsimp only
    rw [List.map_filterMap]
    refine List.filterMap_congr fun h _ => ?_
    cases (s.makeKeys p raks p.needKeys).1.makeEnvelope k h <;> exact rfl
  · split at hx
    · split at hx
      · obtain ⟨h, -, hx⟩ := List.mem_filterMap.mp hx
        obtain ⟨e, -, rfl⟩ := Option.map_eq_some_iff.mp hx
        exact rfl
      · simp at hx
    · simp at hx

theorem makeEnvelope_holder {s : State} {k : Rak} {h : Holder} {e : Envelope} (he : s.makeEnvelope k h = some e) : e.holder = h := by
  unfold State.makeEnvelope at he
  obtain ⟨-, hmade⟩ := Option.ite_none_left_eq_some.mp he
  exact (congrArg (fun y => y.holder) (Option.some.inj hmade)).symm

/-- The envelope of one holder among those made for a list of them. -/
theorem envelopeOf_made (s : State) (k : Rak) (hs : List Holder) (x : Holder) :
    envelopeOf (hs.filterMap (s.makeEnvelope k)) x = if x ∈ hs then s.makeEnvelope k x else none := by
  induction hs with
  | nil => exact rfl
  | cons h hs ih =>
    cases he : s.makeEnvelope k h with
    | none =>
      rw [List.filterMap_cons_none he, ih]
      by_cases hx : x = h
      · subst hx
        simp [he]
      · simp [hx]
    | some e =>
      have hholder := makeEnvelope_holder he
      rw [List.filterMap_cons_some he]
      by_cases hx : x = h
      · subst hx
        rw [envelopeOf, List.find?_cons_of_pos (by simpa using hholder), he, if_pos List.mem_cons_self]
      · rw [envelopeOf, List.find?_cons_of_neg (by simpa [hholder] using Ne.symm hx)]
        refine ih.trans ?_
        simp [hx]

theorem mem_newHolders {old : Option RangeFields} {f : RangeFields} {x : Holder} (hx : x ∈ holderOrder) :
    x ∈ newHolders old f ↔ f.holds x = true ∧ ∀ o, old = some o → o.holds x = false := by
  unfold newHolders
  rw [List.mem_filter]
  cases old <;> simp [hx]

theorem mem_newHolders_holds {old : Option RangeFields} {f : RangeFields} {x : Holder} (h : x ∈ newHolders old f) : f.holds x = true := by
  unfold newHolders at h
  simp only [List.mem_filter, Bool.and_eq_true] at h
  exact h.2.1

/-- R37: the device's envelope can always be made. -/
theorem makeEnvelope_device (s : State) (k : Rak) :
    s.makeEnvelope k .device = some { holder := .device, wraps := [.device], rak := k, whole := true } := rfl

/-- R37: an envelope in the one form of its slot. -/
theorem makeEnvelope_form {s : State} {k : Rak} {x : Holder}
    (hx : ∀ i, x = .cred i → s.credOp i = none ∧ (s.cred i).record.wrap ≠ none) :
    ∃ e, s.makeEnvelope k x = some e ∧ e.whole = true ∧ e.rak = k ∧
      (∀ i, x = .cred i → some e.wraps = (s.cred i).record.wrap.map (fun w => [w])) ∧ (x = .device → e.wraps = [.device]) := by
  cases x with
  | device => exact ⟨_, makeEnvelope_device s k, rfl, rfl, by simp, fun _ => rfl⟩
  | cred i =>
    obtain ⟨hop, hw⟩ := hx i rfl
    obtain ⟨w, hw⟩ := Option.ne_none_iff_exists'.mp hw
    have hforms : s.wrapForms i = [w] := by
      have hnone : s.cru.ops.find? (fun o => o.target == i && o.wave != .c) = none := by
        rw [List.find?_eq_none]
        intro o ho
        have := List.find?_eq_none.mp hop o ho
        simp_all
      unfold State.wrapForms
      rw [hnone, hw]
      exact rfl
    refine ⟨{ holder := .cred i, wraps := [w], rak := k, whole := true }, ?_, rfl, rfl, fun j hj => ?_, by simp⟩
    · unfold State.makeEnvelope
      simp [hforms]
    · cases hj
      rw [hw]
      exact rfl

/-! ### The installed entry (R18) -/

/-- The fields that a list installs in an ENABLED range. -/
def RangeFields.installed (f : RangeFields) (m : Prepared) (r : Nat) : RangeFields :=
  { f with
    keySlot := (pairedWith m.slots r).getD f.keySlot
    envelopes := ordered (m.envelopesFor r ++ f.envelopes.filter (fun e => f.holds e.holder)) }

theorem installed_enabled {p : Plan} {m : Prepared} {r : Nat} {f : RangeFields} (h : p.entry r = .enabled f) :
    installed p m r = .enabled (f.installed m r) := by
  unfold Sys2Proof.Machine.installed
  rw [h]
  exact rfl

theorem installed_other {p : Plan} {m : Prepared} {r : Nat} (h : ∀ f, p.entry r ≠ .enabled f) : installed p m r = p.entry r := by
  unfold Sys2Proof.Machine.installed
  split
  · next f hf => exact absurd hf (h f)
  · exact rfl

theorem envelopeOf_installed (f : RangeFields) (m : Prepared) (r : Nat) {x : Holder} (hx : x ∈ holderOrder) :
    envelopeOf (f.installed m r).envelopes x =
      (envelopeOf (m.envelopesFor r) x).or (if f.holds x = true then envelopeOf f.envelopes x else none) := by
  show envelopeOf (ordered (m.envelopesFor r ++ f.envelopes.filter (fun e => f.holds e.holder))) x = _
  rw [envelopeOf_ordered _ hx, envelopeOf, List.find?_append]
  refine congrArg (fun z => (envelopeOf (m.envelopesFor r) x).or z) ?_
  rw [List.find?_filter]
  by_cases h : f.holds x = true
  · rw [if_pos h, envelopeOf]
    refine List.find?_congr fun e _ => ?_
    by_cases he : e.holder = x
    · simp [he, h]
    · simp [he]
  · rw [if_neg h, List.find?_eq_none]
    intro e _ he
    simp only [beq_iff_eq, decide_eq_true_eq] at he
    exact h (he.2 ▸ he.1)

section envelopes
variable {s : State} {p : Plan} {named : List Nat} {raks : List (Nat × Rak)} (hn : named.Nodup) {r : Nat} (hr : r ∈ named)
  {f : RangeFields} (hf : p.entry r = .enabled f) {k : Rak} (hk : pairedWith ((s.makeKeys p raks p.needKeys).2.2 ++ raks) r = some k)
  {x : Holder} (hx : x ∈ holderOrder)
include hn hr hf hk hx

/-- R37: a holder that the range no longer has has no envelope. -/
theorem installed_dropped (h : f.holds x = false) : envelopeOf (f.installed (s.prepare p named raks).2 r).envelopes x = none := by
  rw [envelopeOf_installed f _ r hx, prepare_envelopesFor hn hr hf hk, envelopeOf_made, if_neg, if_neg (by simp [h])]
  · exact rfl
  · intro hm
    rw [mem_newHolders_holds hm] at h
    cases h

/-- R37: a holder that the range had keeps its envelope. -/
theorem installed_kept (h : f.holds x = true) {o : RangeFields} (ho : s.oldFields p r = some o) (hox : o.holds x = true) :
    envelopeOf (f.installed (s.prepare p named raks).2 r).envelopes x = envelopeOf f.envelopes x := by
  rw [envelopeOf_installed f _ r hx, prepare_envelopesFor hn hr hf hk, envelopeOf_made, if_neg, if_pos h]
  · exact rfl
  · intro hm
    have := ((mem_newHolders hx).mp hm).2 o ho
    rw [hox] at this
    cases this

/-- R37: a holder that the range has now and had not before gets one. -/
theorem installed_new (h : f.holds x = true) (ho : ∀ o, s.oldFields p r = some o → o.holds x = false) {e : Envelope}
    (he : (s.makeKeys p raks p.needKeys).1.makeEnvelope k x = some e) :
    envelopeOf (f.installed (s.prepare p named raks).2 r).envelopes x = some e ∧ envelopeOf ((s.prepare p named raks).2.envelopesFor r) x = some e := by
  have hmade : envelopeOf ((s.prepare p named raks).2.envelopesFor r) x = some e := by
    rw [prepare_envelopesFor hn hr hf hk, envelopeOf_made, if_pos ((mem_newHolders hx).mpr ⟨h, ho⟩), he]
  refine ⟨?_, hmade⟩
  rw [envelopeOf_installed f _ r hx, hmade]
  exact rfl

end envelopes

end Sys2Proof.Machine


/-! A commit's installation (O38): the jobs that it ends (R18 step 6, R110), the table that it places and the slots that go
RETIRING (R18 step 3). -/

namespace Sys2Proof.Machine

/-! ### Ranges that the list remakes or ends are unloaded (R18 step 1) -/

theorem dropRange_load (s : State) (r q : Nat) : (s.dropRange r).load q = if q = r then .notLoaded else s.load q := by
  have hload : ((s.ownedSlots r).foldl (fun t k => t.mapSlot k (fun y => { y with copy := none })) s).kst.loads = s.kst.loads := by simp
  have hsame : ((s.ownedSlots r).foldl (fun t k => t.mapSlot k (fun y => { y with copy := none })) s).load q = s.load q := by
    rw [State.load, hload, State.load]
  unfold State.dropRange
  rw [load_setLoad, hsame, hload]
  by_cases hq : q = r
  · by_cases hl : r < s.kst.loads.length
    · rw [if_pos ⟨hq, hl⟩, if_pos hq]
    · rw [if_neg fun h => hl h.2, if_pos hq, hq]
      simp [State.load, List.getElem?_eq_none (Nat.le_of_not_lt hl)]
  · rw [if_neg fun h => hq h.1, if_neg hq]

/-- The list remakes range r, or leaves it not ENABLED. -/
def Plan.unloads (p : Plan) (r : Nat) : Bool := p.remade.contains r || !(p.entry r).isEnabled

/-- R18 step 1: the ranges that the list remakes or ends are NOT_LOADED. -/
def State.unloadedBy (s : State) (p : Plan) (named : List Nat) : State :=
  named.foldl (fun u r => if p.unloads r then u.dropRange r else u) s

theorem unloadedBy_loosened (s : State) (p : Plan) (named : List Nat) : Loosened s (s.unloadedBy p named) :=
  Loosened.foldl _ (fun t r => by
    split
    · exact t.dropRange_loosened r
    · exact Loosened.refl t) named s

theorem unloadedBy_load (p : Plan) (named : List Nat) (r : Nat) : ∀ s : State,
    (s.unloadedBy p named).load r = if r ∈ named ∧ p.unloads r = true then .notLoaded else s.load r := by
  unfold State.unloadedBy
  induction named with
  | nil => simp
  | cons a l ih =>
    intro s
    rw [List.foldl_cons, ih]
    by_cases hr : p.unloads r = true
    · by_cases ha : a = r
      · subst ha
        simp [hr, dropRange_load]
      · by_cases hu : p.unloads a = true
        · simp [hu, dropRange_load, Ne.symm ha]
        · simp [hu, Ne.symm ha]
    · by_cases hu : p.unloads a = true
      · have ha : r ≠ a := fun e => hr (e ▸ hu)
        simp [hr, hu, dropRange_load, ha]
      · simp [hr, hu]

theorem unloadedBy_same (s : State) (p : Plan) (named : List Nat) : (s.unloadedBy p named).rtb = s.rtb ∧ (s.unloadedBy p named).rke = s.rke ∧
    (s.unloadedBy p named).sent = s.sent ∧ (s.unloadedBy p named).lif = s.lif ∧ (s.unloadedBy p named).cru = s.cru ∧
    (s.unloadedBy p named).rsu = s.rsu := by
  unfold State.unloadedBy
  induction named generalizing s with
  | nil => exact ⟨rfl, rfl, rfl, rfl, rfl, rfl⟩
  | cons a l ih =>
    rw [List.foldl_cons]
    obtain ⟨h1, h2, h3, h4, h5, h6⟩ := ih (if p.unloads a then s.dropRange a else s)
    rw [h1, h2, h3, h4, h5, h6]
    split <;> simp

/-! ### The jobs of the ranges (R18 step 6, R110) -/

/-- The sweep without its head job, whose two parts are still to be written. -/
def State.headLeft (s : State) : State :=
  { s.releaseHold.abandonSweep with rke := { s.releaseHold.abandonSweep.rke with queue := s.releaseHold.abandonSweep.rke.queue.drop 1 } }

theorem discardHead_eq (s : State) (j : Job) : s.discardHead j =
    ((s.headLeft.writeQueuePart []).writeProgressPart []).notice (.rekeyDone j.range (j.serial.getD 0) .keyLost) := rfl

theorem headLeft_same (s : State) : s.headLeft.rke.queue = s.rke.queue.tail ∧ s.headLeft.sent = s.sent ∧ s.headLeft.lif = s.lif := by
  simp [State.headLeft, State.abandonSweep, State.dropChunk]

theorem discardHead_effect (s : State) (j : Job) : (s.discardHead j).rke.queue = s.rke.queue.tail ∧
    (s.discardHead j).sent = s.sent ++ if s.lif.started = true then [frame .control 0 (.rekeyDone j.range (j.serial.getD 0) .keyLost)] else [] := by
  obtain ⟨hqueue, hleft, hlif⟩ := headLeft_same s
  have hwritten : ((s.headLeft.writeQueuePart []).writeProgressPart []).rke.queue = s.headLeft.rke.queue ∧
      ((s.headLeft.writeQueuePart []).writeProgressPart []).sent = s.headLeft.sent ∧
      ((s.headLeft.writeQueuePart []).writeProgressPart []).lif = s.headLeft.lif :=
    ⟨by rw [State.writeProgressPart_rke, writeQueuePart_rke], by simp, by simp⟩
  obtain ⟨hq, hs, hl⟩ := hwritten
  rw [discardHead_eq]
  obtain ⟨-, hrke, hsent⟩ := notice_effect ((s.headLeft.writeQueuePart []).writeProgressPart []) (.rekeyDone j.range (j.serial.getD 0) .keyLost)
  exact ⟨(congrArg (fun z => z.queue) hrke).trans (hq.trans hqueue), hsent.trans (by rw [hs, hleft, hl, hlif])⟩

theorem discardHead_alike (s : State) (j : Job) (x : Nat) : (s.slot x).alike ((s.discardHead j).slot x) := by
  have hsame : (s.discardHead j).slot x = s.releaseHold.slot x := by
    unfold State.discardHead
    rw [State.slot, State.slot]
    simp
  rw [hsame]
  exact s.releaseHold_loosened.1 x

theorem headDropped_active {s : State} {p : Plan} {j : Job} (h : s.activeJob = some j) (hr : j.range ∈ p.repaired) :
    s.headDropped p = s.discardHead j := by
  unfold State.headDropped
  rw [h]
  exact if_pos (by simpa using hr)

theorem headDropped_stays {s : State} {p : Plan} (h : ∀ j, s.activeJob = some j → j.range ∉ p.repaired) : s.headDropped p = s := by
  unfold State.headDropped
  split
  · next j hj => exact if_neg (by simpa using h j hj)
  · exact rfl

theorem dropJobs_effect (s : State) (p : Plan) :
    (s.dropJobs p).rke.queue = (s.headDropped p).rke.queue.filter (fun j => !s.removesJob p j) ∧
      (s.dropJobs p).sent = (s.headDropped p).sent ∧ (s.dropJobs p).kst = (s.headDropped p).kst := by
  rw [dropJobs_eq]
  by_cases h : (s.headDropped p).rke.queue.any (s.removesJob p) = true
  · rw [if_pos h]
    exact ⟨by rw [writeQueuePart_rke], by simp, by simp⟩
  · rw [if_neg h]
    refine ⟨(List.filter_eq_self.mpr fun j hj => ?_).symm, rfl, rfl⟩
    have := mt (fun hj' => List.any_eq_true.mpr ⟨j, hj, hj'⟩) h
    simpa using this

/-- R18 step 6, R110: what a commit does to the jobs. -/
structure JobsEnded (s : State) (p : Plan) (t : State) : Prop where
  sent : ∀ f ∈ s.sent, f ∈ t.sent
  discarded : ∀ j, s.activeJob = some j → j.range ∈ p.repaired →
    t.rke.queue = s.rke.queue.tail.filter (fun j => !s.removesJob p j) ∧
      (s.lif.started = true → frame .control 0 (.rekeyDone j.range (j.serial.getD 0) .keyLost) ∈ t.sent)
  kept : (∀ j, s.activeJob = some j → j.range ∉ p.repaired) → t.rke.queue = s.rke.queue.filter (fun j => !s.removesJob p j)
  queued : ∀ j, s.headJob = some j → j.state = .queued → j.range ∈ p.repaired → j.range ∉ p.remade →
    (∃ g, p.entry j.range = .enabled g) → s.lif.started = true →
      frame .control 0 (.rekeyDone j.range (j.serial.getD 0) .keyLost) ∈ t.sent

theorem dropJobs_ended (s : State) (p : Plan) : (∀ x, (s.slot x).alike ((s.dropJobs p).slot x)) ∧ (∀ f ∈ s.sent, f ∈ (s.dropJobs p).sent) ∧
    (∀ j, s.activeJob = some j → j.range ∈ p.repaired →
      (s.dropJobs p).rke.queue = s.rke.queue.tail.filter (fun j => !s.removesJob p j) ∧
        (s.lif.started = true → frame .control 0 (.rekeyDone j.range (j.serial.getD 0) .keyLost) ∈ (s.dropJobs p).sent)) ∧
    ((∀ j, s.activeJob = some j → j.range ∉ p.repaired) →
      (s.dropJobs p).rke.queue = s.rke.queue.filter (fun j => !s.removesJob p j)) := by
  obtain ⟨hqueue, hsent, hkst⟩ := dropJobs_effect s p
  have hslot : ∀ x, (s.dropJobs p).slot x = (s.headDropped p).slot x := fun x => by rw [State.slot, hkst, State.slot]
  have hcases : (∃ j, s.activeJob = some j ∧ j.range ∈ p.repaired ∧ s.headDropped p = s.discardHead j) ∨ s.headDropped p = s := by
    by_cases h : ∃ j, s.activeJob = some j ∧ j.range ∈ p.repaired
    · obtain ⟨j, hj, hr⟩ := h
      exact .inl ⟨j, hj, hr, headDropped_active hj hr⟩
    · exact .inr (headDropped_stays fun j hj hr => h ⟨j, hj, hr⟩)
  refine ⟨fun x => ?_, fun f hf => ?_, fun j hj hr => ?_, fun h => ?_⟩
  · rw [hslot]
    rcases hcases with ⟨j, -, -, heq⟩ | heq
    · rw [heq]
      exact discardHead_alike s j x
    · rw [heq]
      exact KeySlot.alike_refl _
  · rw [hsent]
    rcases hcases with ⟨j, -, -, heq⟩ | heq
    · rw [heq, (discardHead_effect s j).2]
      exact List.mem_append_left _ hf
    · rwa [heq]
  · rw [hqueue, hsent, headDropped_active hj hr]
    obtain ⟨hq, hs⟩ := discardHead_effect s j
    refine ⟨by rw [hq], fun hstart => ?_⟩
    rw [hs, if_pos hstart]
    exact List.mem_append_right _ List.mem_cons_self
  · rw [hqueue, headDropped_stays h]

theorem commitJobs_ended (s : State) (p : Plan) : JobsEnded s p (s.commitJobs p) := by
  obtain ⟨-, hsent, hdiscarded, hkept⟩ := dropJobs_ended s p
  unfold State.commitJobs
  cases hq : s.queuedRepair p with
  | none =>
    refine ⟨hsent, hdiscarded, hkept, fun j hj hst hr hm hg _ => ?_⟩
    obtain ⟨g, hg⟩ := hg
    have : s.queuedRepair p = some j := by
      simp [State.queuedRepair, hj, hst, hr, hm, hg, Entry.isEnabled]
    rw [hq] at this
    cases this
  | some j =>
    obtain ⟨hjob, hcond⟩ := Option.filter_eq_some_iff.mp hq
    obtain ⟨-, hrke, hmore⟩ := notice_effect (s.dropJobs p) (.rekeyDone j.range (j.serial.getD 0) .keyLost)
    have hin : ∀ f ∈ (s.dropJobs p).sent, f ∈ ((s.dropJobs p).notice (.rekeyDone j.range (j.serial.getD 0) .keyLost)).sent := fun f hf => by
      rw [hmore]
      exact List.mem_append_left _ hf
    refine ⟨fun f hf => hin f (hsent f hf), fun i hi hr => ?_, fun h => ?_, fun i hi _ _ _ _ hstart => ?_⟩
    · dsimp only
      rw [hrke]
      exact ⟨(hdiscarded i hi hr).1, fun hstart => hin _ ((hdiscarded i hi hr).2 hstart)⟩
    · dsimp only
      rw [hrke]
      exact hkept h
    · rw [hjob] at hi
      cases hi
      dsimp only
      rw [hmore, if_pos (by simpa using hstart)]
      exact List.mem_append_right _ List.mem_cons_self

theorem commitJobs_alike (s : State) (p : Plan) (x : Nat) : (s.slot x).alike ((s.commitJobs p).slot x) := by
  have hsame : (s.commitJobs p).slot x = (s.dropJobs p).slot x := by
    unfold State.commitJobs
    rw [State.slot, State.slot]
    split <;> simp
  rw [hsame]
  exact (dropJobs_ended s p).1 x

/-! ### The table (R18 steps 2 and 4) -/

/-- The entries of the ranges named, as the list installs them. -/
def State.tabled (s : State) (p : Plan) (m : Prepared) (named : List Nat) : State :=
  named.foldl (fun u r => u.setEntry r (installed p m r)) s

theorem tabled_entry (p : Plan) (m : Prepared) (named : List Nat) (r : Nat) : ∀ s : State,
    (s.tabled p m named).entry r = if r ∈ named ∧ r < s.rtb.entries.length then installed p m r else s.entry r := by
  unfold State.tabled
  induction named with
  | nil => simp
  | cons a l ih =>
    intro s
    have hlen : (s.setEntry a (installed p m a)).rtb.entries.length = s.rtb.entries.length := by simp [State.setEntry]
    rw [List.foldl_cons, ih, hlen, entry_setEntry]
    by_cases hr : r < s.rtb.entries.length
    · by_cases ha : r = a
      · subst ha
        simp [hr]
      · simp [hr, ha]
    · have : ¬ (r = a ∧ a < s.rtb.entries.length) := fun h => hr (h.1 ▸ h.2)
      simp [hr, this]

/-- R18: the table with the list's result, before any slot is retired. -/
def State.tablePlaced (s : State) (p : Plan) (m : Prepared) (named : List Nat) : State :=
  let t := ((s.commitJobs p).unloadedBy p named).tabled p m named
  { t with rtb := { t.rtb with resealOnWake := p.reseal } }

theorem install_eq (s : State) (p : Plan) (m : Prepared) (named : List Nat) : s.install p m named =
    ((s.tablePlaced p m named).retireAll ((s.tablePlaced p m named).unnamedSlots s named),
      named.filter (fun r => (installed p m r).stored != (s.entry r).stored), (s.tablePlaced p m named).unnamedSlots s named) := rfl

theorem tabled_same (p : Plan) (m : Prepared) (named : List Nat) (s : State) : (s.tabled p m named).kst = s.kst ∧
    (s.tabled p m named).rke = s.rke ∧ (s.tabled p m named).sent = s.sent ∧ (s.tabled p m named).rsu = s.rsu ∧
    (Shaped s → Shaped (s.tabled p m named)) := by
  unfold State.tabled
  induction named generalizing s with
  | nil => exact ⟨rfl, rfl, rfl, rfl, id⟩
  | cons a l ih =>
    obtain ⟨h1, h2, h3, h4, h5⟩ := ih (s.setEntry a (installed p m a))
    exact ⟨h1.trans (by simp), h2.trans (by simp), h3.trans (by simp), h4.trans (by simp),
      fun hs => h5 ((State.setEntry_keeps s a _).shaped hs)⟩

/-- R18: what the placed table comes to. -/
structure TablePlaced (s : State) (p : Plan) (m : Prepared) (named : List Nat) (t : State) : Prop where
  shaped : Shaped t
  entry : ∀ r, t.entry r = if r ∈ named ∧ r < 16 then installed p m r else s.entry r
  alike : ∀ x, (s.slot x).alike (t.slot x)
  load : ∀ r ∈ named, p.unloads r = true → t.load r = .notLoaded
  rke : t.rke = (s.commitJobs p).rke
  sent : t.sent = (s.commitJobs p).sent
  rsu : t.rsu = s.rsu

theorem tablePlaced_placed {s : State} (hs : Shaped s) (p : Plan) (m : Prepared) (named : List Nat) :
    TablePlaced s p m named (s.tablePlaced p m named) := by
  obtain ⟨hrtb, hrke, hsent, -, -, hrsu⟩ := unloadedBy_same (s.commitJobs p) p named
  obtain ⟨hkst, hrke', hsent', hrsu', hshaped⟩ := tabled_same p m named ((s.commitJobs p).unloadedBy p named)
  have hsu : Shaped ((s.commitJobs p).unloadedBy p named) := ((unloadedBy_loosened (s.commitJobs p) p named).2.2.2.2 ((State.commitJobs_keeps s p).shaped hs)).1
  have hcommit : (s.commitJobs p).rtb = s.rtb := by simp
  refine ⟨hshaped hsu, fun r => ?_, fun x => ?_, fun r hr hu => ?_, hrke'.trans hrke, hsent'.trans hsent, (hrsu'.trans hrsu).trans (by simp)⟩
  · have hentry := tabled_entry p m named r ((s.commitJobs p).unloadedBy p named)
    rw [hrtb, hcommit, Shaped.entries hs, State.entry, State.entry, hrtb, hcommit] at hentry
    exact hentry
  · have hslot : (s.tablePlaced p m named).slot x = ((s.commitJobs p).unloadedBy p named).slot x := by
      rw [State.slot, State.slot, ← hkst]
      exact rfl
    rw [hslot]
    exact (commitJobs_alike s p x).trans ((unloadedBy_loosened (s.commitJobs p) p named).1 x)
  · have hload : (s.tablePlaced p m named).load r = ((s.commitJobs p).unloadedBy p named).load r := by
      rw [State.load, State.load, ← hkst]
      exact rfl
    rw [hload, unloadedBy_load, if_pos ⟨hr, hu⟩]

/-! ### The slots that go RETIRING (R18 step 3) -/

theorem mem_unnamedSlots {s before : State} {named : List Nat} {k : Nat} : k ∈ s.unnamedSlots before named ↔
    k < 23 ∧ (s.slot k).state = .live ∧ ∃ r, (s.slot k).owner = some r ∧ before.released s named r k = true ∧ s.entry r ≠ .damaged ∧
      k ∉ s.namedSlots r := by
  unfold State.unnamedSlots
  rw [List.mem_filter, List.mem_range, Bool.and_eq_true]
  cases s.slot k with
  | mk state owner material users copy erasing =>
    cases owner <;> simp [and_assoc]

theorem retired_alike (x : KeySlot) : x.retired.owner = x.owner ∧ x.retired.material = x.material := by
  unfold KeySlot.retired
  split <;> exact ⟨rfl, rfl⟩

end Sys2Proof.Machine


/-! A commit's installation (O38): the new keys of the list (R18 step 2), and the table with its result in it (R18 steps 3, 4
and 6). -/

namespace Sys2Proof.Machine

/-! ### Pairs by their number -/

theorem pairedWith_of_nodup {α : Type} {l : List (Nat × α)} (hl : (l.map (fun q => q.1)).Nodup) {r : Nat} {a : α} (h : (r, a) ∈ l) :
    pairedWith l r = some a := by
  induction l with
  | nil => simp at h
  | cons q l ih =>
    obtain ⟨b, c⟩ := q
    obtain ⟨hn, hnd⟩ := List.nodup_cons.mp hl
    rw [pairedWith_cons]
    rcases List.mem_cons.mp h with h | h
    · obtain ⟨rfl, rfl⟩ := Prod.mk.inj h
      exact if_pos rfl
    · rw [if_neg fun e : b = r => hn (e ▸ List.mem_map.mpr ⟨_, h, rfl⟩), ih hnd h]

theorem pairedWith_none {α : Type} {l : List (Nat × α)} {r : Nat} (h : ∀ a, (r, a) ∉ l) : pairedWith l r = none := by
  have := pairedWith_append_of_not_mem (m := []) h
  rw [List.append_nil] at this
  exact this

/-! ### The ranges of a list -/

theorem namedRanges_nodup (es : List Edit) : (namedRanges es).Nodup := List.nodup_range.filter _

theorem needKeys_nodup (p : Plan) : p.needKeys.Nodup := List.nodup_range.filter _

/-- R13: a range that a list makes anew is one that it names. -/
theorem remade_named (s : State) (es : List Edit) {r : Nat} (h : r ∈ (s.plan es).remade) : ∃ e ∈ es, e.range = r := by
  have hfold : ∀ (l : List Edit) (p : Plan), r ∈ (l.foldl Plan.apply p).remade → r ∈ p.remade ∨ ∃ e ∈ l, e.range = r := by
    intro l
    induction l with
    | nil => exact fun _ h => .inl h
    | cons e l ih =>
      intro p h
      rcases ih _ h with h | ⟨x, hx, hr⟩
      · rcases p.mem_remade_apply e r h with h | h
        · exact .inl h
        · exact .inr ⟨e, List.mem_cons_self, h.symm⟩
      · exact .inr ⟨x, List.mem_cons_of_mem _ hx, hr⟩
  exact (hfold es s.planStart h).resolve_left (by simp [State.planStart])

/-! ### The keys of a list (R18 step 2) -/

theorem listEmptied_eq (s : State) (x : Installation) : s.listEmptied x =
    { s.unloadedBy x.plan x.named with kst := { (s.unloadedBy x.plan x.named).kst with reservation := 0 } } := rfl

/-- R18 step 2: the RAKs that the new keys of a list are made under, and those of the ranges that keep theirs. -/
def State.listRaks (s : State) (x : Installation) : List (Nat × Rak) :=
  ((s.listEmptied x).makeKeys x.plan x.raks x.plan.needKeys).2.2 ++ x.raks

theorem listEmptied_slot (s : State) (x : Installation) (k : Nat) : (s.slot k).alike ((s.listEmptied x).slot k) :=
  (unloadedBy_loosened s x.plan x.named).1 k

theorem listEmptied_shaped {s : State} (hs : Shaped s) (x : Installation) : Shaped (s.listEmptied x) :=
  ((unloadedBy_loosened s x.plan x.named).2.2.2.2 hs).1

/-- What a list's new keys leave. -/
theorem listSupplied_same (s : State) (x : Installation) : (s.listSupplied x).1.rtb = s.rtb ∧ (s.listSupplied x).1.rke = s.rke ∧
    (s.listSupplied x).1.sent = s.sent ∧ (s.listSupplied x).1.lif = s.lif ∧ (s.listSupplied x).1.cru = s.cru ∧
    (s.listSupplied x).1.rsu = s.rsu := by
  obtain ⟨hrtb, hrke, hsent, hlif, hcru, hrsu⟩ := unloadedBy_same s x.plan x.named
  have hkeys : ∀ (l : List Nat) (t : State), (t.makeKeys x.plan x.raks l).1.rtb = t.rtb ∧ (t.makeKeys x.plan x.raks l).1.rke = t.rke ∧
      (t.makeKeys x.plan x.raks l).1.sent = t.sent ∧ (t.makeKeys x.plan x.raks l).1.lif = t.lif ∧
      (t.makeKeys x.plan x.raks l).1.cru = t.cru ∧ (t.makeKeys x.plan x.raks l).1.rsu = t.rsu := fun l t => by simp
  obtain ⟨h1, h2, h3, h4, h5, h6⟩ := hkeys x.plan.needKeys (s.listEmptied x)
  exact ⟨h1.trans hrtb, h2.trans hrke, h3.trans hsent, h4.trans hlif, h5.trans hcru, h6.trans hrsu⟩

/-- R18 step 2: the new keys of a list, each in a slot that was EMPTY. -/
structure ListSupplied (s : State) (x : Installation) (w : State) (m : Prepared) : Prop where
  shaped : Shaped w
  ranges : m.slots.map (fun q => q.1) = x.plan.needKeys
  rak : ∀ r ∈ x.plan.needKeys, ∃ k, pairedWith (s.listRaks x) r = some k
  given : ∀ r, r ∉ x.plan.remade → pairedWith (s.listRaks x) r = pairedWith x.raks r
  made : ∀ r k, (r, k) ∈ m.slots → k < 23 ∧ (s.slot k).state = .empty ∧ ∃ y, pairedWith (s.listRaks x) r = some y ∧ KeyMade w r k y
  other : ∀ k, (∀ r, (r, k) ∉ m.slots) → (s.slot k).alike (w.slot k)

theorem listSupplied_supplied {s : State} (hs : Shaped s) (x : Installation) (hcount : x.plan.needKeys.length ≤ s.poolCount .empty)
    (hraks : ∀ r ∈ x.plan.needKeys, r ∈ x.plan.remade ∨ ∃ k, pairedWith x.raks r = some k) :
    ListSupplied s x (s.listSupplied x).1 (s.listSupplied x).2 := by
  have hstate : ∀ k, ((s.listEmptied x).slot k).state = (s.slot k).state := fun k => (KeySlot.alike_eq (listEmptied_slot s x k)).1
  have hpool : (s.listEmptied x).poolCount .empty = s.poolCount .empty := by simp [State.poolCount, hstate]
  have hsb := listEmptied_shaped hs x
  have hkeys := makeKeys_made x.plan x.raks x.plan.needKeys (s.listEmptied x) (Shaped.keySlots hsb) (needKeys_nodup _)
    (by rw [hpool]; exact hcount) hraks
  refine ⟨(State.makeKeys_keeps _ _ _ _).shaped hsb, hkeys.ranges, hkeys.rak, fun r hr => ?_, fun r k hk => ?_, fun k hk => ?_⟩
  · exact pairedWith_append_of_not_mem fun y hy => hr (hkeys.remade r y hy).2
  · obtain ⟨hlt, hst, y, hy, hmade⟩ := hkeys.made r k hk
    exact ⟨hlt, (hstate k).symm.trans hst, y, hy, hmade⟩
  · have hsame : (s.listSupplied x).1.slot k = (s.listEmptied x).slot k := hkeys.other k hk
    rw [hsame]
    exact listEmptied_slot s x k

/-! ### The list's result in the table (R18 steps 3, 4 and 6) -/

/-- R18 steps 2 to 4 and 6: the table with the result of the list m in it. -/
structure ListPlaced (s : State) (x : Installation) (m : Prepared) (v : State) (gone : List Nat) : Prop where
  shaped : Shaped v
  rsu : v.rsu = s.rsu
  entry : ∀ r, v.entry r = if r ∈ x.named ∧ r < 16 then installed x.plan m r else s.entry r
  load : ∀ r ∈ x.named, x.plan.unloads r = true → v.load r = .notLoaded
  jobs : ∃ t, JobsEnded s x.plan t ∧ v.rke = t.rke ∧ v.sent = t.sent
  nodup : gone.Nodup
  retires : ∀ k, k ∈ gone ↔ k < 23 ∧ (s.slot k).state = .live ∧ ∃ r, (s.slot k).owner = some r ∧ s.released v x.named r k = true ∧
    v.entry r ≠ .damaged ∧ k ∉ v.namedSlots r
  made : ∀ r k, (r, k) ∈ m.slots → ∃ y, pairedWith (s.listRaks x) r = some y ∧ KeyMade v r k y
  kept : ∀ k, (∀ r, (r, k) ∉ m.slots) → (v.slot k).owner = (s.slot k).owner ∧ (v.slot k).material = (s.slot k).material ∧
    (v.slot k).state = if k ∈ gone then .retiring else (s.slot k).state

theorem JobsEnded.congr {s w t : State} {p : Plan} (h : JobsEnded w p t) (hrke : w.rke = s.rke)
    (hsent : w.sent = s.sent) (hlif : w.lif = s.lif) (hrtb : w.rtb = s.rtb) : JobsEnded s p t := by
  have hremoves : w.removesJob p = s.removesJob p := funext fun j => by
    simp only [State.removesJob, State.entry, hrtb]
  have hactive : w.activeJob = s.activeJob := by simp only [State.activeJob, State.headJob, hrke]
  have hhead : w.headJob = s.headJob := by simp only [State.headJob, hrke]
  obtain ⟨h2, h3, h4, h5⟩ := h
  rw [hsent] at h2
  rw [hactive, hremoves, hrke, hlif] at h3
  rw [hactive, hremoves, hrke] at h4
  rw [hhead, hlif] at h5
  exact ⟨h2, h3, h4, h5⟩

theorem released_congr {s t u v : State} (hs : t.rtb = s.rtb) (hv : v.rtb.entries = u.rtb.entries) (named : List Nat) (r k : Nat) :
    t.released u named r k = s.released v named r k := by
  have hnamed : ∀ {a b : State}, a.rtb.entries = b.rtb.entries → ∀ q, a.namedSlots q = b.namedSlots q := fun h q => by
    simp only [State.namedSlots, State.fields, State.entry, h]
  have hentry : t.entry r = s.entry r := by rw [State.entry, State.entry, hs]
  unfold State.released
  rw [hentry]
  simp only [hnamed (congrArg (fun z => z.entries) hs), hnamed hv]

/-- The new key slot of a range is the one that its entry names. -/
theorem installed_keySlot {p : Plan} {m : Prepared} (hm : m.slots.map (fun q => q.1) = p.needKeys) {r k : Nat} (h : (r, k) ∈ m.slots)
    (f : RangeFields) : (f.installed m r).keySlot = k := by
  show (pairedWith m.slots r).getD f.keySlot = k
  rw [pairedWith_of_nodup (by rw [hm]; exact needKeys_nodup _) h]
  exact rfl

theorem mem_named_of_keySlot (g : RangeFields) : g.keySlot ∈ g.named := by
  unfold RangeFields.named
  split <;> simp

section placed
variable {s : State} {es : List Edit} {x : Installation} (hplan : x.plan = s.plan es) (hnamed : x.named = namedRanges es)
include hplan hnamed

/-- A range that needs a new key is one that the list names. -/
theorem needKeys_mem {r : Nat} (h : r ∈ x.plan.needKeys) : r ∈ x.named ∧ r < 16 ∧ ∃ f, x.plan.entry r = .enabled f := by
  obtain ⟨hlt, hf, -⟩ := (mem_needKeys _ _).mp h
  rw [hplan] at h
  refine ⟨?_, hlt, hf⟩
  rw [hnamed]
  rcases s.needKeys_named es r h with hm | ⟨hm, -⟩
  · exact (mem_namedRanges es r).mpr ⟨hlt, remade_named s es hm⟩
  · exact hm

theorem listPlaced_placed (hs : Shaped s) {w : State} {m : Prepared} (hw : ListSupplied s x w m) (hsame : w.rtb = s.rtb ∧ w.rke = s.rke ∧
    w.sent = s.sent ∧ w.lif = s.lif ∧ w.cru = s.cru ∧ w.rsu = s.rsu) :
    ListPlaced s x m (w.install x.plan m x.named).1 (w.install x.plan m x.named).2.2 := by
  obtain ⟨hrtb, hrke, hsent, hlif, -, hrsu⟩ := hsame
  have hplaced := tablePlaced_placed hw.shaped x.plan m x.named
  rw [install_eq]
  dsimp only
  generalize w.tablePlaced x.plan m x.named = t at hplaced
  let gone := t.unnamedSlots w x.named
  let v := t.retireAll gone
  have hventries : v.rtb.entries = t.rtb.entries := by simp [v]
  have hventry : ∀ r, v.entry r = t.entry r := fun r => by rw [State.entry, State.entry, hventries]
  have hvnamed : ∀ r, v.namedSlots r = t.namedSlots r := fun r => by simp only [State.namedSlots, State.fields, hventry]
  have hslot : ∀ k, v.slot k = if k ∈ gone ∧ (t.slot k).state = .live then (t.slot k).retired else t.slot k := fun k =>
    retireAll_slot gone t k
  have hentry : ∀ r, t.entry r = if r ∈ x.named ∧ r < 16 then installed x.plan m r else s.entry r := fun r => by
    rw [hplaced.entry, State.entry, State.entry, hrtb]
  have hmade : ∀ r k, (r, k) ∈ m.slots → ∃ y, pairedWith (s.listRaks x) r = some y ∧ KeyMade t r k y ∧ k ∉ gone := fun r k hk => by
    obtain ⟨-, -, y, hy, hmk⟩ := hw.made r k hk
    obtain ⟨hst, how, hmat⟩ := KeySlot.alike_eq (hplaced.alike k)
    have hkt : KeyMade t r k y := ⟨hst.trans hmk.state, how.trans hmk.owner, by rw [hmat]; exact hmk.material⟩
    refine ⟨y, hy, hkt, fun hg => ?_⟩
    obtain ⟨-, -, q, hq, -, -, hno⟩ := mem_unnamedSlots.mp hg
    rw [hkt.owner] at hq
    cases hq
    have hneed : r ∈ x.plan.needKeys := by
      rw [← hw.ranges]
      exact List.mem_map.mpr ⟨(r, k), hk, rfl⟩
    obtain ⟨hin, hlt, f, hf⟩ := needKeys_mem hplan hnamed hneed
    have hfields : t.fields r = some (f.installed m r) := by
      rw [fields_eq_some, hentry, if_pos ⟨hin, hlt⟩, installed_enabled hf]
    refine hno ((mem_namedSlots t r k).mpr ⟨_, hfields, ?_⟩)
    have hkey := installed_keySlot hw.ranges hk f
    have hself := mem_named_of_keySlot (f.installed m r)
    rwa [hkey] at hself
  have hkept : ∀ k, (∀ r, (r, k) ∉ m.slots) → (s.slot k).alike (t.slot k) := fun k hk => (hw.other k hk).trans (hplaced.alike k)
  have hgone : ∀ k, k ∈ gone ↔ k < 23 ∧ (s.slot k).state = .live ∧ ∃ r, (s.slot k).owner = some r ∧ s.released v x.named r k = true ∧
      v.entry r ≠ .damaged ∧ k ∉ v.namedSlots r := fun k => by
    have hrel : ∀ r, w.released t x.named r k = s.released v x.named r k := fun r => released_congr hrtb hventries x.named r k
    simp only [gone, mem_unnamedSlots, hventry, hvnamed, hrel]
    by_cases hk : ∃ r, (r, k) ∈ m.slots
    · obtain ⟨q, hq⟩ := hk
      obtain ⟨-, hempty, -⟩ := hw.made q k hq
      obtain ⟨y, -, hkt, hng⟩ := hmade q k hq
      constructor
      · intro h
        exact absurd (mem_unnamedSlots.mpr (by simpa only [hrel] using h)) hng
      · rintro ⟨-, hlive, -⟩
        rw [hempty] at hlive
        cases hlive
    · obtain ⟨hst, how, -⟩ := KeySlot.alike_eq (hkept k (not_exists.mp hk))
      rw [hst, how]
  refine ⟨(State.retireAll_keeps t gone).shaped hplaced.shaped, ?_, fun r => (hventry r).trans (hentry r), fun r hr hu => ?_, ?_, ?_, hgone,
    fun r k hk => ?_, fun k hk => ?_⟩
  · show v.rsu = s.rsu
    rw [show v.rsu = t.rsu by simp [v], hplaced.rsu, hrsu]
  · have hload : v.load r = t.load r := by simp [State.load, v]
    rw [show (t.retireAll gone).load r = v.load r from rfl, hload]
    exact hplaced.load r hr hu
  · refine ⟨w.commitJobs x.plan, (commitJobs_ended w x.plan).congr hrke hsent hlif hrtb, ?_, ?_⟩
    · show v.rke = _
      rw [show v.rke = t.rke by simp [v], hplaced.rke]
    · show v.sent = _
      rw [show v.sent = t.sent by simp [v], hplaced.sent]
  · exact List.nodup_range.filter _
  · obtain ⟨y, hy, hkt, hng⟩ := hmade r k hk
    have hsame : v.slot k = t.slot k := (hslot k).trans (if_neg fun h => hng h.1)
    exact ⟨y, hy, by rw [hsame]; exact hkt.state, by rw [hsame]; exact hkt.owner, by rw [hsame]; exact hkt.material⟩
  · obtain ⟨hst, how, hmat⟩ := KeySlot.alike_eq (hkept k hk)
    show (v.slot k).owner = _ ∧ (v.slot k).material = _ ∧ (v.slot k).state = _
    rw [hslot]
    by_cases hg : k ∈ gone
    · have hlive := (mem_unnamedSlots.mp hg).2.1
      obtain ⟨ho, hm'⟩ := retired_alike (t.slot k)
      rw [if_pos ⟨hg, hlive⟩, if_pos hg]
      exact ⟨ho.trans how, hm'.trans hmat, KeySlot.retired_state _⟩
    · rw [if_neg fun h => hg h.1, if_neg hg]
      exact ⟨how, hmat, hst⟩

end placed

end Sys2Proof.Machine


/-! A commit's installation (O38): the lock flags that follow (R18 step 5, R3, R33). -/

namespace Sys2Proof.Machine

/-! ### An unlock changes no envelope -/

/-- What an unlock through a device envelope asks of the fields. -/
def RangeFields.opening (g : RangeFields) : Bool × List Envelope := (g.powerLock, g.envelopes)

/-- Two tables open the same ranges with the same envelopes. -/
def OpensAlike (s t : State) : Prop := ∀ q, (t.fields q).map RangeFields.opening = (s.fields q).map RangeFields.opening

theorem OpensAlike.of_entries {s t : State} (h : t.rtb.entries = s.rtb.entries) : OpensAlike s t := fun q => by
  simp only [State.fields, State.entry, h]

theorem OpensAlike.refl (s : State) : OpensAlike s s := .of_entries rfl

theorem OpensAlike.trans {s t u : State} (h : OpensAlike s t) (k : OpensAlike t u) : OpensAlike s u := fun q => (k q).trans (h q)

theorem OpensAlike.foldl {α : Type} {f : State → α → State} (h : ∀ s x, OpensAlike s (f s x)) (l : List α) (s : State) :
    OpensAlike s (l.foldl f s) := by
  induction l generalizing s with
  | nil => exact .refl s
  | cons x l ih => exact (h s x).trans (ih _)

theorem opensAlike_setEntry (s : State) {r : Nat} {f g : RangeFields} (hf : s.fields r = some f) (h : g.opening = f.opening) :
    OpensAlike s (s.setEntry r (.enabled g)) := fun q => by
  have hlt := fields_lt s r f hf
  have hentry : (s.setEntry r (.enabled g)).entry q = if q = r then .enabled g else s.entry q :=
    (entry_setEntry s r q _).trans (if_congr ⟨fun k => k.1, fun k => ⟨k, hlt⟩⟩ rfl rfl)
  by_cases hq : q = r
  · subst hq
    rw [hf, State.fields, hentry, if_pos rfl]
    exact congrArg some h
  · rw [State.fields, hentry, if_neg hq, State.fields]

theorem opensAlike_loseKey (s : State) (r : Nat) : OpensAlike s (s.loseKey r) := by
  unfold State.loseKey
  cases hf : s.fields r with
  | none => exact .refl s
  | some f =>
    exact (opensAlike_setEntry s (g := { f with keyLost := true }) hf rfl).trans (.of_entries (by simp))

theorem opensAlike_setLocks (s : State) (r : Nat) (read write v : Bool) : OpensAlike s (s.setLocks r read write v) := by
  unfold State.setLocks State.mapFields
  cases hf : s.fields r with
  | none => exact .refl s
  | some f => exact opensAlike_setEntry s hf rfl

theorem opensAlike_damagedKey (s : State) (r k : Nat) : OpensAlike s (s.damagedKey r k) := by
  have hhit : ∀ t : State, OpensAlike t (t.jobHit r k) := fun t => .of_entries (by
    unfold State.jobHit
    split
    · split
      · simp
      · exact rfl
    · exact rfl)
  rw [damagedKey_eq]
  have habort : OpensAlike s (s.abortAll .keyDamaged (fun x => x.mode == .clear && x.range == some r)) := .of_entries (by simp)
  have hkey : ∀ t : State, OpensAlike t ((t.mapSlot k (fun _ => KeySlot.blank)).write (.key k) []) := fun t =>
    .of_entries (by simp [State.mapSlot])
  exact (habort.trans ((hhit _).trans (hkey _))).trans (opensAlike_loseKey _ r)

theorem opensAlike_unwrap (s : State) (r : Nat) (k : Rak) (x : Nat) : OpensAlike s (s.unwrap r k x) := by
  unfold State.unwrap
  split
  · split
    · split
      · exact .of_entries rfl
      · exact opensAlike_damagedKey _ _ _
    · exact opensAlike_damagedKey _ _ _
  · exact .refl s

theorem opensAlike_loadRange (s : State) (r : Nat) (via : Option Rak) : OpensAlike s (s.loadRange r via).1 := by
  have hresume : ∀ t : State, OpensAlike t (t.resumeIfPaused r) := fun t => .of_entries (by simp)
  unfold State.loadRange
  split
  · exact .refl s
  · split
    · exact .refl s
    · exact (OpensAlike.of_entries (t := s.setLoad r _) rfl).trans (hresume _)
    · exact .refl s
    · exact ((OpensAlike.of_entries (t := s.setLoad r _) rfl).trans (OpensAlike.foldl (fun t x => opensAlike_unwrap t r _ x) _ _)).trans
        (hresume _)

theorem opensAlike_unlockDevice (s : State) (r : Nat) : OpensAlike s (s.unlockDevice r) := by
  unfold State.unlockDevice
  by_cases h : (s.loadRange r (s.openDevice r)).2 = true
  · rw [unlockRange_of_loads true true h]
    exact (opensAlike_loadRange s r _).trans (opensAlike_setLocks _ r true true false)
  · rw [unlockRange_of_not_loads true true h]
    exact opensAlike_loadRange s r _

theorem OpensAlike.some {s t : State} (h : OpensAlike s t) {r : Nat} {g : RangeFields} (hg : t.fields r = some g) :
    ∃ f, s.fields r = some f ∧ g.powerLock = f.powerLock ∧ g.envelopes = f.envelopes := by
  have hr := h r
  rw [hg] at hr
  obtain ⟨f, hf, he⟩ := Option.map_eq_some_iff.mp hr.symm
  obtain ⟨hp, he⟩ := Prod.mk.inj he
  exact ⟨f, hf, hp.symm, he.symm⟩

theorem OpensAlike.none {s t : State} (h : OpensAlike s t) {r : Nat} (hg : t.fields r = none) : s.fields r = none := by
  have hr := h r
  rw [hg] at hr
  exact Option.map_eq_none_iff.mp hr.symm

/-! ### The ranges that a commit unlocks (R18 step 5) -/

/-- R18 step 5: the list's result unlocks range r, which is newly ENABLED or was under power_lock. -/
def State.frees (s : State) (x : Installation) (v : State) (r : Nat) : Bool :=
  (v.fields r).any (fun f => !f.powerLock && (x.plan.remade.contains r || (s.fields r).any (fun o => o.powerLock)))

theorem frees_iff {s : State} {x : Installation} {v : State} {r : Nat} : s.frees x v r = true ↔
    ∃ f, v.fields r = some f ∧ f.powerLock = false ∧ (r ∈ x.plan.remade ∨ ∃ o, s.fields r = some o ∧ o.powerLock = true) := by
  unfold State.frees
  rw [Option.any_eq_true]
  refine exists_congr fun f => and_congr_right fun _ => ?_
  simp [Option.any_eq_true]

/-- R31, R37: the device's envelope of a range that a commit unlocks. -/
structure DeviceReady (s : State) (x : Installation) (m : Prepared) (r : Nat) (f : RangeFields) (e : Envelope) : Prop where
  envelope : envelopeOf f.envelopes .device = some e
  whole : e.whole = true
  wraps : e.wraps = [.device]
  rak : pairedWith (s.listRaks x) r = some e.rak
  made : envelopeOf (m.envelopesFor r) .device = some e

theorem openDevice_ready {u : State} {r : Nat} {f : RangeFields} {e : Envelope} (hf : u.fields r = some f)
    (he : envelopeOf f.envelopes .device = some e) (hw : e.whole = true) (hd : e.wraps = [.device]) : u.openDevice r = some e.rak := by
  unfold State.openDevice State.openEnvelope
  rw [hf]
  dsimp only
  rw [he]
  exact if_pos ⟨hw, by rw [hd]; exact List.mem_cons_self⟩

section relock
variable {s : State} {x : Installation} {m : Prepared} {v : State}
  (hready : ∀ r ∈ x.named, ∀ f, v.fields r = some f → s.frees x v r = true → ∃ e, DeviceReady s x m r f e)
include hready

/-- R18 step 5: one range named. -/
theorem commitLocks_frees {u : State} (hu : OpensAlike v u) {r : Nat} (hr : r ∈ x.named) :
    State.commitLocks s x.plan m u r = if s.frees x v r = true then u.unlockDevice r else u := by
  unfold State.commitLocks
  cases hg : u.fields r with
  | none =>
    rw [if_neg fun h => ?_]
    obtain ⟨f, hf, -⟩ := frees_iff.mp h
    rw [hu.none hg] at hf
    cases hf
  | some g =>
    obtain ⟨f, hf, hp, henv⟩ := hu.some hg
    dsimp only
    by_cases hm : r ∈ x.plan.remade
    · rw [if_pos (by simpa using hm)]
      cases hpl : g.powerLock with
      | true =>
        rw [if_pos rfl, if_neg fun h => ?_]
        obtain ⟨f', hf', hp', -⟩ := frees_iff.mp h
        rw [hf] at hf'
        cases hf'
        rw [← hp, hpl] at hp'
        cases hp'
      | false =>
        have hfree : s.frees x v r = true := frees_iff.mpr ⟨f, hf, by rw [← hp, hpl], .inl hm⟩
        obtain ⟨e, he⟩ := hready r hr f hf hfree
        have hopen : u.openDevice r = some e.rak := openDevice_ready hg (by rw [henv]; exact he.envelope) he.whole he.wraps
        rw [if_neg Bool.false_ne_true, if_pos hfree, State.unlockDevice, hopen]
        have hmade := he.made
        unfold Prepared.envelopesFor at hmade
        rw [hmade]
        exact rfl
    · rw [if_neg (by simpa using hm)]
      cases ho : s.fields r with
      | none =>
        rw [if_neg fun h => ?_]
        obtain ⟨f', -, -, hk⟩ := frees_iff.mp h
        rcases hk with hk | ⟨o, ho', -⟩
        · exact hm hk
        · rw [ho] at ho'
          cases ho'
      | some o =>
        dsimp only
        refine if_congr ?_ rfl rfl
        rw [frees_iff]
        simp only [Bool.and_eq_true, Bool.not_eq_true', hp]
        constructor
        · rintro ⟨h1, h2⟩
          exact ⟨f, hf, h2, .inr ⟨o, ho, h1⟩⟩
        · rintro ⟨f', hf', h2, h3⟩
          rw [hf] at hf'
          cases hf'
          rcases h3 with h3 | ⟨o', ho', h3⟩
          · exact absurd h3 hm
          · rw [ho] at ho'
            cases ho'
            exact ⟨h3, h2⟩

theorem commitLocks_fold : ∀ (l : List Nat) (u : State), (∀ r ∈ l, r ∈ x.named) → OpensAlike v u →
    l.foldl (fun u r => State.commitLocks s x.plan m u r) u = (l.filter (s.frees x v)).foldl State.unlockDevice u := by
  intro l
  induction l with
  | nil => exact fun _ _ _ => rfl
  | cons r l ih =>
    intro u hl hu
    rw [List.foldl_cons, commitLocks_frees hready hu (hl r List.mem_cons_self)]
    by_cases hf : s.frees x v r = true
    · rw [if_pos hf, List.filter_cons_of_pos hf, List.foldl_cons]
      exact ih _ (fun q hq => hl q (List.mem_cons_of_mem _ hq)) (hu.trans (opensAlike_unlockDevice u r))
    · rw [if_neg hf, List.filter_cons_of_neg hf]
      exact ih _ (fun q hq => hl q (List.mem_cons_of_mem _ hq)) hu

/-- R18 step 5, R33: the ranges that a commit unlocks are LOADED, and their keys are intact. -/
theorem commitLocks_opened (hv : Shaped v) (hlow : v.lockdown = false) (hn : x.named.Nodup)
    (hintact : ∀ r ∈ x.named, s.frees x v r = true → ∀ k, v.openDevice r = some k → v.intactUnder r k) : ∃ won,
    Opened (fun q => v.openEnvelope q .device (some .device)) (fun g => { g with readLocked := false, writeLocked := false }) v won
      (x.named.foldl (fun u r => State.commitLocks s x.plan m u r) v) ∧
    ∀ q, q ∈ won ↔ q ∈ x.named ∧ s.frees x v q = true := by
  rw [commitLocks_fold hready x.named v (fun _ h => h) (.refl v)]
  have hfree : ∀ r ∈ x.named.filter (s.frees x v), r ∈ x.named ∧ s.frees x v r = true := fun r hr => List.mem_filter.mp hr
  obtain ⟨won, hopened, hwon⟩ := reopenAll_opened (s := v) (fun _ => rfl) rfl hlow (x.named.filter (s.frees x v)) [] v (.start hv) (hn.filter _)
    (by simp) (fun r hr => by
      obtain ⟨f, hf, -⟩ := frees_iff.mp (hfree r hr).2
      exact ⟨f, hf⟩) fun r hr k _ hk => hintact r (hfree r hr).1 (hfree r hr).2 k hk
  refine ⟨won, by simpa using hopened, fun q => (hwon q).trans ?_⟩
  rw [List.mem_filter]
  refine ⟨fun h => h.1, fun h => ⟨h, .inr ?_⟩⟩
  obtain ⟨f, hf, -⟩ := frees_iff.mp h.2
  obtain ⟨e, he⟩ := hready q h.1 f hf h.2
  have hopen := openDevice_ready hf he.envelope he.whole he.wraps
  rw [show v.openEnvelope q .device (some .device) = v.openDevice q from rfl, hopen]
  simp

end relock

end Sys2Proof.Machine


/-! A commit's installation (O38): its steps put together (R18, R19). -/

namespace Sys2Proof.Machine

/-! ### A list that can be installed -/

/-- The list es, whose keys are at hand: pool slots for the new ones, and a RAK for each range named that is ENABLED. -/
structure Installs (s : State) (es : List Edit) (x : Installation) : Prop where
  plan : x.plan = s.plan es
  named : x.named = namedRanges es
  shaped : Shaped s
  count : x.plan.needKeys.length ≤ s.poolCount .empty
  raks : ∀ r ∈ x.named, ∀ g, s.fields r = some g → ∃ k, pairedWith x.raks r = some k ∧ s.intactUnder r k

/-- The fields that count as before the commit are those of the table, but for a range that is made anew. -/
theorem listEmptied_oldFields (s : State) (x : Installation) (r : Nat) :
    (s.listEmptied x).oldFields x.plan r = if r ∈ x.plan.remade then none else s.fields r := by
  have hfields : (s.listEmptied x).fields r = s.fields r := fields_of_rtb (unloadedBy_same s x.plan x.named).1 r
  unfold State.oldFields
  rw [hfields]
  exact if_congr (by simp) rfl rfl

section installs
variable {s : State} {es : List Edit} {x : Installation} (h : Installs s es x)
include h

theorem Installs.named_lt {r : Nat} (hr : r ∈ x.named) : r < 16 := by
  rw [h.named] at hr
  exact ((mem_namedRanges es r).mp hr).1

theorem Installs.supplied : ListSupplied s x (s.listSupplied x).1 (s.listSupplied x).2 :=
  listSupplied_supplied h.shaped x h.count fun r hr => by
    have hin := (needKeys_mem h.plan h.named hr).1
    rw [h.plan] at hr ⊢
    refine (s.needKeys_named es r hr).imp_right fun ⟨_, hf⟩ => ?_
    obtain ⟨g, hg⟩ := Option.ne_none_iff_exists'.mp hf
    exact (h.raks r hin g hg).imp fun k hk => hk.1

theorem Installs.placed : ListPlaced s x (s.listSupplied x).2 (s.listPlaced x).1 (s.listPlaced x).2.2 :=
  listPlaced_placed h.plan h.named h.shaped h.supplied (listSupplied_same s x)

/-- R13: a range that the list leaves ENABLED and does not make anew was ENABLED with the same keys. -/
theorem Installs.kept {r : Nat} {g : RangeFields} (hm : r ∉ x.plan.remade) (hg : x.plan.entry r = .enabled g) :
    ∃ o, s.fields r = some o ∧ SameKeys o g := by
  rw [h.plan] at hm hg
  obtain ⟨o, ho, hsame⟩ := (plan_keepsKeys s es).kept r g hm hg
  exact ⟨o, fields_eq_some.mpr ho, hsame⟩

/-- R18 step 2: the RAK of a range that the list leaves ENABLED. -/
theorem Installs.rak {r : Nat} {g : RangeFields} (hr : r ∈ x.named) (hg : x.plan.entry r = .enabled g) :
    ∃ k, pairedWith (s.listRaks x) r = some k := by
  by_cases hm : r ∈ x.plan.remade
  · exact h.supplied.rak r ((mem_needKeys _ _).mpr ⟨h.named_lt hr, ⟨g, hg⟩, .inl hm⟩)
  · obtain ⟨o, ho, -⟩ := h.kept hm hg
    rw [h.supplied.given r hm]
    exact (h.raks r hr o ho).imp fun k hk => hk.1

/-- R18: the fields of a range named, as the list has placed them. -/
theorem Installs.placed_fields {r : Nat} (hr : r ∈ x.named) {f : RangeFields} (hf : (s.listPlaced x).1.fields r = some f) :
    ∃ g, x.plan.entry r = .enabled g ∧ f = g.installed (s.listSupplied x).2 r := by
  rw [fields_eq_some, h.placed.entry, if_pos ⟨hr, h.named_lt hr⟩] at hf
  by_cases hg : ∃ g, x.plan.entry r = .enabled g
  · obtain ⟨g, hg⟩ := hg
    rw [installed_enabled hg] at hf
    cases hf
    exact ⟨g, hg, rfl⟩
  · rw [installed_other (not_exists.mp hg)] at hf
    exact absurd ⟨f, hf⟩ hg

theorem Installs.fields_placed {r : Nat} (hr : r ∈ x.named) {g : RangeFields} (hg : x.plan.entry r = .enabled g) :
    (s.listPlaced x).1.fields r = some (g.installed (s.listSupplied x).2 r) := by
  rw [fields_eq_some, h.placed.entry, if_pos ⟨hr, h.named_lt hr⟩, installed_enabled hg]

theorem Installs.ready {r : Nat} (hr : r ∈ x.named) {f : RangeFields} (hf : (s.listPlaced x).1.fields r = some f)
    (hfree : s.frees x (s.listPlaced x).1 r = true) : ∃ e, DeviceReady s x (s.listSupplied x).2 r f e := by
  obtain ⟨g, hg, rfl⟩ := h.placed_fields hr hf
  obtain ⟨k, hk⟩ := h.rak hr hg
  obtain ⟨f', hf', hp, hwhy⟩ := frees_iff.mp hfree
  rw [hf] at hf'
  cases hf'
  have hholds : g.holds .device = true := by
    show (!g.powerLock) = true
    rw [show g.powerLock = false from hp]
    exact rfl
  have hold : ∀ o, (s.listEmptied x).oldFields x.plan r = some o → o.holds .device = false := fun o ho => by
    rw [listEmptied_oldFields] at ho
    by_cases hm : r ∈ x.plan.remade
    · rw [if_pos hm] at ho
      cases ho
    · rw [if_neg hm] at ho
      obtain ⟨o', ho', hlock⟩ := hwhy.resolve_left hm
      rw [ho] at ho'
      cases ho'
      show (!o.powerLock) = false
      rw [hlock]
      exact rfl
  obtain ⟨henv, hmade⟩ := installed_new (s := s.listEmptied x) (raks := x.raks) (by rw [h.named]; exact namedRanges_nodup es) hr hg hk
    (by decide : Holder.device ∈ holderOrder) hholds hold (makeEnvelope_device _ _)
  exact ⟨_, henv, rfl, rfl, hk, hmade⟩

/-- R33: the keys of a range that the commit unlocks are under its RAK. -/
theorem Installs.intact {r : Nat} (hr : r ∈ x.named) (hfree : s.frees x (s.listPlaced x).1 r = true) {k : Rak}
    (hk : (s.listPlaced x).1.openDevice r = some k) : (s.listPlaced x).1.intactUnder r k := by
  obtain ⟨f, hf, -⟩ := frees_iff.mp hfree
  obtain ⟨e, he⟩ := h.ready hr hf hfree
  rw [openDevice_ready hf he.envelope he.whole he.wraps] at hk
  cases hk
  obtain ⟨g, hg, rfl⟩ := h.placed_fields hr hf
  intro y hy hlive hown
  obtain ⟨f', hf', hy⟩ := (mem_namedSlots _ r y).mp hy
  rw [hf] at hf'
  cases hf'
  have howner : ((s.listPlaced x).1.slot y).owner = some r := by simpa [State.owns] using hown
  by_cases hnew : ∃ q, (q, y) ∈ (s.listSupplied x).2.slots
  · obtain ⟨q, hq⟩ := hnew
    obtain ⟨z, hz, hmade⟩ := h.placed.made q y hq
    rw [hmade.owner] at howner
    cases howner
    obtain ⟨d, hd, hwhole, hrak⟩ := hmade.material
    rw [he.rak] at hz
    cases hz
    exact ⟨d, hd, hwhole, hrak⟩
  · obtain ⟨hko, hkm, hks⟩ := h.placed.kept y (not_exists.mp hnew)
    have hslive : (s.slot y).state = .live := by
      rw [hks] at hlive
      split at hlive
      · cases hlive
      · exact hlive
    have hneed : r ∉ x.plan.needKeys ∨ y ≠ (g.installed (s.listSupplied x).2 r).keySlot := by
      by_contra hc
      obtain ⟨hin, hy'⟩ := not_or.mp hc
      obtain rfl := not_not.mp hy'
      have hc := not_not.mp hin
      rw [← h.supplied.ranges] at hc
      obtain ⟨⟨q, z⟩, hq, rfl⟩ := List.mem_map.mp hc
      exact hnew ⟨q, by rw [installed_keySlot h.supplied.ranges hq g]; exact hq⟩
    have hremade : r ∉ x.plan.remade := fun hm => by
      have hsplit : g.split = none := ((plan_keepsKeys s es).made r g (by rw [← h.plan]; exact hm) (by rw [← h.plan]; exact hg)).1
      have hin : r ∈ x.plan.needKeys := (mem_needKeys _ _).mpr ⟨h.named_lt hr, ⟨g, hg⟩, .inl hm⟩
      have hy' : y = (g.installed (s.listSupplied x).2 r).keySlot := by
        unfold RangeFields.named at hy
        rw [show (g.installed (s.listSupplied x).2 r).split = none from hsplit] at hy
        simpa using hy
      rcases hneed with hn | hn
      · exact hn hin
      · exact hn hy'
    obtain ⟨o, ho, hsame⟩ := h.kept hremade hg
    have hmem : y ∈ s.namedSlots r := by
      refine (mem_namedSlots s r y).mpr ⟨o, ho, ?_⟩
      have hsplit : ∀ w, g.split = some w → o.split = some w := fun w hw => by
        rcases hsame.split with hs | hs
        · rw [← hs, hw]
        · rw [hs] at hw
          cases hw
      unfold RangeFields.named at hy ⊢
      rw [show (g.installed (s.listSupplied x).2 r).split = g.split from rfl] at hy
      have hkey : y = (g.installed (s.listSupplied x).2 r).keySlot → y = o.keySlot := fun e => by
        rcases hneed with hn | hn
        · rw [e, ← hsame.keySlot]
          show (pairedWith (s.listSupplied x).2.slots r).getD g.keySlot = _
          rw [pairedWith_none fun z hz => hn (by rw [← h.supplied.ranges]; exact List.mem_map.mpr ⟨_, hz, rfl⟩)]
          exact rfl
        · exact absurd e hn
      cases hg' : g.split with
      | none =>
        rw [hg'] at hy
        have := hkey (by simpa using hy)
        split <;> simp [this]
      | some w =>
        rw [hg'] at hy
        rw [hsplit w hg']
        rcases List.mem_cons.mp hy with hy | hy
        · simp [hkey hy]
        · simp [List.mem_singleton.mp hy]
    obtain ⟨z, hz, hint⟩ := h.raks r hr o ho
    have hrak := he.rak
    rw [h.supplied.given r hremade, hz] at hrak
    cases hrak
    obtain ⟨d, hd, hwhole, hdr⟩ := hint y hmem hslive (by rw [State.owns, ← hko]; exact hown)
    exact ⟨d, hkm.trans hd, hwhole, hdr⟩

/-- R18 step 5: what the lock flags come to. -/
theorem Installs.relocked (hlow : s.lockdown = false) : ∃ won,
    Opened (fun q => (s.listPlaced x).1.openEnvelope q .device (some .device)) (fun g => { g with readLocked := false, writeLocked := false })
      (s.listPlaced x).1 won (s.listRelocked x) ∧ ∀ q, q ∈ won ↔ q ∈ x.named ∧ s.frees x (s.listPlaced x).1 q = true :=
  commitLocks_opened (fun _ hr _ hf hfree => h.ready hr hf hfree) h.placed.shaped
    (by rw [State.lockdown, h.placed.rsu]; exact hlow) (by rw [h.named]; exact namedRanges_nodup es)
    fun _ hr hfree _ hk => h.intact hr hfree hk

end installs

end Sys2Proof.Machine


/-! A commit's installation (O38): what the part holds once its list is installed, and its wave 1 (R19). -/

namespace Sys2Proof.Machine

/-! ### What the unlocks leave -/

section opened
variable {via : Nat → Option Rak} {free : RangeFields → RangeFields} {s t : State} {l : List Nat}

theorem stored_opened (h : Opened via (fun g => { g with readLocked := false, writeLocked := false }) s l t)
    (hl : ∀ q ∈ l, ∃ g, s.fields q = some g) (q : Nat) : (t.entry q).stored = (s.entry q).stored := by
  by_cases hq : q ∈ l
  · obtain ⟨g, hg⟩ := hl q hq
    have hf := h.fld q
    rw [if_pos hq, hg] at hf
    rw [fields_eq_some.mp hf, fields_eq_some.mp hg]
    exact rfl
  · rw [h.ent q hq]

theorem stored_damaged (e : Entry) : e.stored = .damaged ↔ e = .damaged := by
  cases e <;> simp [Entry.stored]

/-- The slots of the Key Store after the unlocks differ from those before in their users and copies. -/
theorem Opened.slot (h : Opened via free s l t) (k : Nat) :
    (t.slot k).state = (s.slot k).state ∧ (t.slot k).owner = (s.slot k).owner ∧ (t.slot k).material = (s.slot k).material := by
  obtain ⟨-, -, -, hslot⟩ := h.loads.keys
  obtain ⟨-, -, hk⟩ := hslot k
  rw [hk]
  exact ⟨rfl, rfl, rfl⟩

/-- The jobs keep their ranges and their order. -/
theorem Opened.jobs (h : Opened via free s l t) : t.rke.queue.map (fun j => j.range) = s.rke.queue.map (fun j => j.range) := by
  obtain ⟨hgo, hstay⟩ := h.loads.sweep
  by_cases hr : ∃ j : Job, s.headJob = some j ∧ j.state = .paused ∧ j.range ∈ l ∧ (∀ k, s.load j.range ≠ .loaded k) ∧
      s.rke.recovery ≠ .header ∧ ∃ g, s.fields j.range = some g ∧ ∀ x ∈ g.named, (s.slot x).state ≠ .empty ∧ s.owns j.range x = true
  · obtain ⟨j, hj⟩ := hr
    obtain ⟨hrke, -⟩ := hgo j hj
    have hhead := hj.1
    unfold State.headJob at hhead
    rw [hrke]
    cases hq : s.rke.queue with
    | nil => simp [hq] at hhead
    | cons i q =>
      simp only [hq, List.head?_cons, Option.some.injEq] at hhead
      simp [hhead]
  · rw [(hstay (not_exists.mp hr)).1]

end opened

/-! ### The list installed (R18) -/

section installed
variable {s : State} {es : List Edit} {x : Installation} (h : Installs s es x) {won : List Nat}
  (ho : Opened (fun q => (s.listPlaced x).1.openEnvelope q .device (some .device)) (fun g => { g with readLocked := false, writeLocked := false })
    (s.listPlaced x).1 won (s.listRelocked x))
  (hw : ∀ q, q ∈ won ↔ q ∈ x.named ∧ s.frees x (s.listPlaced x).1 q = true)
include h ho hw

theorem won_fields (q : Nat) (hq : q ∈ won) : ∃ g, (s.listPlaced x).1.fields q = some g := by
  obtain ⟨f, hf, -⟩ := frees_iff.mp ((hw q).mp hq).2
  exact ⟨f, hf⟩

theorem relocked_unnamed {r : Nat} (hr : r ∉ x.named) : (s.listRelocked x).entry r = s.entry r := by
  rw [ho.ent r fun hc => hr ((hw r).mp hc).1, h.placed.entry, if_neg fun hc => hr hc.1]

theorem relocked_stored (r : Nat) :
    ((s.listRelocked x).entry r).stored = (if r ∈ x.named then installed x.plan (s.listSupplied x).2 r else s.entry r).stored := by
  rw [stored_opened ho (won_fields h ho hw), h.placed.entry]
  by_cases hr : r ∈ x.named
  · rw [if_pos ⟨hr, h.named_lt hr⟩, if_pos hr]
  · rw [if_neg fun hc => hr hc.1, if_neg hr]

theorem relocked_damaged (r : Nat) : (s.listRelocked x).entry r = .damaged ↔ (s.listPlaced x).1.entry r = .damaged := by
  rw [← stored_damaged, stored_opened ho (won_fields h ho hw), stored_damaged]

theorem relocked_ended {r : Nat} (hr : r ∈ x.named) (hp : ∀ g, x.plan.entry r ≠ .enabled g) :
    (s.listRelocked x).entry r = x.plan.entry r ∧ (s.listRelocked x).load r = .notLoaded := by
  have hentry : (s.listPlaced x).1.entry r = x.plan.entry r := by
    rw [h.placed.entry, if_pos ⟨hr, h.named_lt hr⟩, installed_other hp]
  have hout : r ∉ won := fun hc => by
    obtain ⟨g, hg⟩ := won_fields h ho hw r hc
    exact hp g (hentry.symm.trans (fields_eq_some.mp hg))
  refine ⟨(ho.ent r hout).trans hentry, ?_⟩
  obtain ⟨-, hload, -⟩ := ho.loads.keys
  rw [hload r hout]
  refine h.placed.load r hr ?_
  unfold Plan.unloads Entry.isEnabled
  cases he : x.plan.entry r with
  | enabled g => exact absurd he (hp g)
  | disabled => simp
  | damaged => simp

/-- R18 step 5: the ranges whose lock flags the commit opens. -/
theorem relocked_frees {r : Nat} (hr : r ∈ x.named) {g : RangeFields} (hg : x.plan.entry r = .enabled g) :
    r ∈ won ↔ g.powerLock = false ∧ (r ∈ x.plan.remade ∨ ∃ o, s.fields r = some o ∧ o.powerLock = true) := by
  have hf := h.fields_placed hr hg
  rw [hw, frees_iff]
  constructor
  · rintro ⟨-, f, hf', hp, hwhy⟩
    rw [hf] at hf'
    cases hf'
    exact ⟨hp, hwhy⟩
  · exact fun hc => ⟨hr, _, hf, hc⟩

theorem relocked_fields {r : Nat} (hr : r ∈ x.named) {g : RangeFields} (hg : x.plan.entry r = .enabled g) :
    (s.listRelocked x).fields r = some (if r ∈ won then { g.installed (s.listSupplied x).2 r with readLocked := false, writeLocked := false }
      else g.installed (s.listSupplied x).2 r) := by
  rw [ho.fld, h.fields_placed hr hg]
  by_cases hin : r ∈ won
  · rw [if_pos hin, if_pos hin]
    exact rfl
  · rw [if_neg hin, if_neg hin]

theorem relocked_loaded {r : Nat} (hin : r ∈ won) : ∃ k, (s.listRelocked x).load r = .loaded k := by
  obtain ⟨hkeys, -⟩ := ho.loads.keys
  cases hl : (s.listPlaced x).1.load r with
  | loaded k => exact ⟨k, hkeys r hin k (.inl (by rw [hl]; exact rfl))⟩
  | releasing k => exact ⟨k, hkeys r hin k (.inl (by rw [hl]; exact rfl))⟩
  | notLoaded =>
    obtain ⟨hr, hfree⟩ := (hw r).mp hin
    obtain ⟨f, hf⟩ := won_fields h ho hw r hin
    obtain ⟨e, he⟩ := h.ready hr hf hfree
    exact ⟨e.rak, hkeys r hin e.rak (.inr ⟨hl, openDevice_ready hf he.envelope he.whole he.wraps⟩)⟩

/-- R18 step 2: the new key of a range. -/
theorem relocked_made {r k : Nat} (hk : (r, k) ∈ (s.listSupplied x).2.slots) :
    ∃ y, pairedWith (s.listRaks x) r = some y ∧ KeyMade (s.listRelocked x) r k y := by
  obtain ⟨y, hy, hmade⟩ := h.placed.made r k hk
  obtain ⟨hst, how, hmat⟩ := ho.slot k
  exact ⟨y, hy, hst.trans hmade.state, how.trans hmade.owner, by rw [hmat]; exact hmade.material⟩

/-- R18 step 3: a slot that was LIVE goes RETIRING, or stays. -/
theorem relocked_live {k : Nat} (hk : (s.slot k).state = .live) :
    ((s.listRelocked x).slot k).state = if k ∈ (s.listPlaced x).2.2 then .retiring else .live := by
  have hold : ∀ r, (r, k) ∉ (s.listSupplied x).2.slots := fun r hr => by
    have := (h.supplied.made r k hr).2.1
    rw [hk] at this
    cases this
  rw [(ho.slot k).1, (h.placed.kept k hold).2.2, hk]

theorem relocked_gone (k : Nat) : k ∈ (s.listPlaced x).2.2 ↔
    k < 23 ∧ (s.slot k).state = .live ∧ ((s.listRelocked x).slot k).state = .retiring := by
  constructor
  · intro hg
    obtain ⟨hlt, hlive, -⟩ := (h.placed.retires k).mp hg
    exact ⟨hlt, hlive, (relocked_live h ho hw hlive).trans (if_pos hg)⟩
  · rintro ⟨-, hlive, hret⟩
    by_contra hg
    rw [relocked_live h ho hw hlive, if_neg hg] at hret
    cases hret

/-- R18 step 3: the slots that go RETIRING, by the slots that the table names. -/
theorem relocked_drops {k r : Nat} (hk : k < 23) (hlive : (s.slot k).state = .live) (hr : (s.slot k).owner = some r) :
    k ∈ (s.listPlaced x).2.2 ↔ (s.listRelocked x).entry r ≠ .damaged ∧ k ∉ (s.listRelocked x).namedSlots r ∧
      ((r ∈ x.named ∧ s.entry r = .damaged) ∨ ∃ q, q ∈ x.named ∧ k ∈ s.namedSlots q ∧ k ∉ (s.listRelocked x).namedSlots q) := by
  have hnames : ∀ q, (s.listRelocked x).namedSlots q = (s.listPlaced x).1.namedSlots q := ho.core.named
  have hreleased : s.released (s.listPlaced x).1 x.named r k = true ↔
      (r ∈ x.named ∧ s.entry r = .damaged) ∨ ∃ q, q ∈ x.named ∧ k ∈ s.namedSlots q ∧ k ∉ (s.listPlaced x).1.namedSlots q := by
    simp [State.released]
  rw [h.placed.retires, ne_eq, relocked_damaged h ho hw, hnames]
  simp only [hnames, ← hreleased]
  constructor
  · rintro ⟨-, -, q, hq, hrel, hd, hno⟩
    rw [hr] at hq
    cases hq
    exact ⟨hd, hno, hrel⟩
  · rintro ⟨hd, hno, hrel⟩
    exact ⟨hk, hlive, r, hr, hrel, hd, hno⟩

end installed

end Sys2Proof.Machine


/-! A commit's installation (O38): the statement, from the steps of the installation (R18, R19). -/

namespace Sys2Proof.Machine

/-- R37: a credential slot is for a commit what it was before its new keys. -/
theorem listSupplied_form (s : State) (x : Installation) {k : Rak} {y : Holder}
    (hy : ∀ i, y = .cred i → s.credOp i = none ∧ (s.cred i).record.wrap ≠ none) :
    ∃ e, (s.listSupplied x).1.makeEnvelope k y = some e ∧ e.whole = true ∧ e.rak = k ∧
      (∀ i, y = .cred i → some e.wraps = (s.cred i).record.wrap.map (fun w => [w])) ∧ (y = .device → e.wraps = [.device]) := by
  have hcru := (listSupplied_same s x).2.2.2.2.1
  have hcred : ∀ i, (s.listSupplied x).1.cred i = s.cred i := fun i => by rw [State.cred, State.cred, hcru]
  have hop : ∀ i, (s.listSupplied x).1.credOp i = s.credOp i := fun i => by rw [State.credOp, State.credOp, hcru]
  have hform := makeEnvelope_form (s := (s.listSupplied x).1) (k := k) (x := y) (by simpa only [hcred, hop] using hy)
  simpa only [hcred] using hform

section installed
variable {s : State} {es : List Edit} {x : Installation} (h : Installs s es x)
include h

/-- A range that needs a new key has its slot among the prepared ones. -/
theorem Installs.slot_of_need {r : Nat} (hr : r ∈ x.plan.needKeys) : ∃ k, (r, k) ∈ (s.listSupplied x).2.slots := by
  rw [← h.supplied.ranges] at hr
  obtain ⟨⟨q, k⟩, hq, rfl⟩ := List.mem_map.mp hr
  exact ⟨k, hq⟩

theorem Installs.keySlot_kept {r : Nat} (hr : r ∉ x.plan.needKeys) (g : RangeFields) :
    (g.installed (s.listSupplied x).2 r).keySlot = g.keySlot := by
  show (pairedWith (s.listSupplied x).2.slots r).getD g.keySlot = _
  rw [pairedWith_none fun z hz => hr (by rw [← h.supplied.ranges]; exact List.mem_map.mpr ⟨_, hz, rfl⟩)]
  exact rfl

section envelopes
variable {r : Nat} (hr : r ∈ x.named) {g : RangeFields} (hg : x.plan.entry r = .enabled g) {y : Holder} (hy : y ∈ holderOrder)
include hr hg hy

theorem Installs.envelope_dropped (hno : g.holds y = false) : envelopeOf (g.installed (s.listSupplied x).2 r).envelopes y = none := by
  obtain ⟨k, hk⟩ := h.rak hr hg
  exact installed_dropped (s := s.listEmptied x) (raks := x.raks) (by rw [h.named]; exact namedRanges_nodup es) hr hg hk hy hno

theorem Installs.envelope_kept (hyes : g.holds y = true) (hm : r ∉ x.plan.remade) {o : RangeFields} (ho : s.fields r = some o)
    (hoy : o.holds y = true) : envelopeOf (g.installed (s.listSupplied x).2 r).envelopes y = envelopeOf o.envelopes y := by
  obtain ⟨k, hk⟩ := h.rak hr hg
  obtain ⟨o', ho', hsame⟩ := h.kept hm hg
  rw [ho] at ho'
  cases ho'
  rw [← hsame.envelopes]
  exact installed_kept (s := s.listEmptied x) (raks := x.raks) (by rw [h.named]; exact namedRanges_nodup es) hr hg hk hy hyes
    (by rw [listEmptied_oldFields, if_neg hm]; exact ho) hoy

theorem Installs.envelope_new (hyes : g.holds y = true)
    (hnew : r ∈ x.plan.remade ∨ ∀ o, s.fields r = some o → o.holds y = false)
    (hform : ∀ i, y = .cred i → s.credOp i = none ∧ (s.cred i).record.wrap ≠ none) :
    ∃ e, envelopeOf (g.installed (s.listSupplied x).2 r).envelopes y = some e ∧ e.whole = true ∧
      pairedWith (s.listRaks x) r = some e.rak ∧
      (∀ i, y = .cred i → some e.wraps = (s.cred i).record.wrap.map (fun w => [w])) ∧ (y = .device → e.wraps = [.device]) := by
  obtain ⟨k, hk⟩ := h.rak hr hg
  obtain ⟨e, he, hwhole, rfl, hcred, hdev⟩ := listSupplied_form s x (k := k) hform
  have hold : ∀ o, (s.listEmptied x).oldFields x.plan r = some o → o.holds y = false := fun o ho => by
    rw [listEmptied_oldFields] at ho
    by_cases hm : r ∈ x.plan.remade
    · rw [if_pos hm] at ho
      cases ho
    · rw [if_neg hm] at ho
      exact hnew.resolve_left hm o ho
  have henv := (installed_new (s := s.listEmptied x) (raks := x.raks) (by rw [h.named]; exact namedRanges_nodup es) hr hg hk hy hyes hold he).1
  exact ⟨e, henv, hwhole, hk, hcred, hdev⟩

end envelopes

/-! ### The entries that the list leaves ENABLED (R18 steps 2, 4 and 5) -/

theorem relocked_enabled {won : List Nat}
    (ho : Opened (fun q => (s.listPlaced x).1.openEnvelope q .device (some .device)) (fun g => { g with readLocked := false, writeLocked := false })
      (s.listPlaced x).1 won (s.listRelocked x))
    (hw : ∀ q, q ∈ won ↔ q ∈ x.named ∧ s.frees x (s.listPlaced x).1 q = true) {r : Nat} (hr : r ∈ x.named) {g : RangeFields}
    (hg : x.plan.entry r = .enabled g) : ∃ f, (s.listRelocked x).fields r = some f ∧
      { f with keySlot := g.keySlot, readLocked := g.readLocked, writeLocked := g.writeLocked, envelopes := g.envelopes } = g ∧
      f.keySlot = (g.installed (s.listSupplied x).2 r).keySlot ∧ f.envelopes = (g.installed (s.listSupplied x).2 r).envelopes ∧
      (r ∈ won → f.readLocked = false ∧ f.writeLocked = false) ∧
      (r ∉ won → f.readLocked = g.readLocked ∧ f.writeLocked = g.writeLocked) := by
  have hf := relocked_fields h ho hw hr hg
  by_cases hin : r ∈ won
  · rw [if_pos hin] at hf
    exact ⟨_, hf, rfl, rfl, rfl, fun _ => ⟨rfl, rfl⟩, fun hn => absurd hin hn⟩
  · rw [if_neg hin] at hf
    exact ⟨_, hf, rfl, rfl, rfl, fun hc => absurd hc hin, fun _ => ⟨rfl, rfl⟩⟩

/-! ### The changed entries (R18 step 4) -/

theorem Installs.changed_nodup : (s.listPlaced x).2.1.Nodup := by
  have hnodup : x.named.Nodup := by
    rw [h.named]
    exact namedRanges_nodup es
  exact hnodup.filter _

theorem Installs.mem_changed {won : List Nat}
    (ho : Opened (fun q => (s.listPlaced x).1.openEnvelope q .device (some .device)) (fun g => { g with readLocked := false, writeLocked := false })
      (s.listPlaced x).1 won (s.listRelocked x))
    (hw : ∀ q, q ∈ won ↔ q ∈ x.named ∧ s.frees x (s.listPlaced x).1 q = true) (r : Nat) :
    r ∈ (s.listPlaced x).2.1 ↔ ((s.listRelocked x).entry r).stored ≠ (s.entry r).stored := by
  have hchanged : (s.listPlaced x).2.1 =
      x.named.filter (fun r => (installed x.plan (s.listSupplied x).2 r).stored != ((s.listSupplied x).1.entry r).stored) := rfl
  have hsame : (s.listSupplied x).1.entry r = s.entry r := by rw [State.entry, (listSupplied_same s x).1, State.entry]
  rw [hchanged, relocked_stored h ho hw, List.mem_filter, hsame]
  by_cases hr : r ∈ x.named <;> simp [hr]

end installed

/-! ### Wave 1 (R19) -/

theorem recordOf_keyUnit (s : State) (k : Nat) : s.recordOf (.key k) =
    if (s.slot k).erasing then .key .blank
    else .key { state := (s.slot k).state, owner := (s.slot k).owner, material := (s.slot k).material } := rfl

theorem listRelocked_reseal (s : State) (x : Installation) : (s.listRelocked x).rtb.resealOnWake = x.plan.reseal := by
  have hlocks := foldl_rtb_resealOnWake (fun u r => State.commitLocks s x.plan (s.listSupplied x).2 u r) (fun _ _ => by simp) x.named (s.listPlaced x).1
  refine hlocks.trans ?_
  simp [State.listPlaced, install_eq, State.tablePlaced]

section written
variable {s : State} {a : List Nat} {n : Nat} {raks : List (Nat × Rak)} {rto : ReplyTo} (h : s.rtb.commit = .draining a n raks rto)
include h

/-- The writes of wave 1 leave all but the store as the installation has it. -/
theorem enterWriting_same : s.enterWriting.kst = (s.listRelocked (s.installation raks)).kst ∧
    s.enterWriting.rke = (s.listRelocked (s.installation raks)).rke ∧ s.enterWriting.sent = (s.listRelocked (s.installation raks)).sent := by
  rw [enterWriting_eq h]
  have hsame : ∀ (t : State) (us : List StoreUnit) (w : Waiter), (t.writeAll us w).kst = t.kst ∧ (t.writeAll us w).rke = t.rke ∧
      (t.writeAll us w).sent = t.sent := fun t us w => by simp
  exact hsame (s.listWriting (s.installation raks) a rto) _ _

theorem enterWriting_entry (r : Nat) : s.enterWriting.entry r = (s.listRelocked (s.installation raks)).entry r := by
  rw [State.entry, enterWriting_commit h]
  exact rfl

theorem enterWriting_slot (k : Nat) : s.enterWriting.slot k = (s.listRelocked (s.installation raks)).slot k := by
  rw [State.slot, (enterWriting_same h).1]
  exact rfl

theorem enterWriting_load (r : Nat) : s.enterWriting.load r = (s.listRelocked (s.installation raks)).load r := by
  rw [State.load, (enterWriting_same h).1]
  exact rfl

theorem enterWriting_key_held {r k : Nat} (hk : (r, k) ∈ (s.listSupplied (s.installation raks)).2.slots) :
    s.enterWriting.holds (.key k) (s.enterWriting.recordOf (.key k)) .commitWave := by
  have hheld := writeAll_holds (waveOne (s.listSupplied (s.installation raks)).2) .commitWave
    (s.listWriting (s.installation raks) a rto) (.key k) (List.mem_append_left _ (List.mem_map.mpr ⟨(r, k), hk, rfl⟩))
  have hrecord : s.enterWriting.recordOf (.key k) = (s.listWriting (s.installation raks) a rto).recordOf (.key k) := by
    have hslot : s.enterWriting.slot k = (s.listWriting (s.installation raks) a rto).slot k := enterWriting_slot h k
    rw [recordOf_keyUnit, recordOf_keyUnit, hslot]
  rw [hrecord, enterWriting_eq h]
  exact hheld

end written

end Sys2Proof.Machine

namespace Sys2Proof
open Machine

/-- Settles O38: the new keys by `makeKeys_made`, the entries and the slots that go RETIRING by `listPlaced_placed`, the lock
flags by the loads of the ranges that the commit unlocks, whose keys are intact. -/
theorem commitInstallsItsList : Obligations.CommitInstallsItsList := by
  intro s a n raks rto es p t m named freed stays names told hcommit hs hlow hcount hraks
  let x := s.installation raks
  have hmem : ∀ r, r ∈ x.named ↔ named r := fun r => mem_namedRanges es r
  have h : Installs s es x := ⟨rfl, rfl, hs, hcount, fun r hr g hg => hraks r g ((hmem r).mp hr) hg⟩
  obtain ⟨won, hopened, hwon⟩ := h.relocked hlow
  have hrtb := enterWriting_commit hcommit
  obtain ⟨-, hrke, hsent⟩ := enterWriting_same hcommit
  have hm : m = (s.listSupplied x).2 := congrArg (fun z => z.staged.prepared) hrtb
  have hentry : ∀ r, t.entry r = (s.listRelocked x).entry r := enterWriting_entry hcommit
  have hfields : ∀ r, t.fields r = (s.listRelocked x).fields r := fun r => congrArg Entry.fields? (hentry r)
  have hslot : ∀ k, t.slot k = (s.listRelocked x).slot k := enterWriting_slot hcommit
  have hload : ∀ r, t.load r = (s.listRelocked x).load r := enterWriting_load hcommit
  have hnames : ∀ q k, names t q k ↔ k ∈ (s.listRelocked x).namedSlots q := fun q k => by
    rw [mem_namedSlots]
    simp only [names, hfields]
  have hnamesBefore : ∀ q k, names s q k ↔ k ∈ s.namedSlots q := fun q k => (mem_namedSlots s q k).symm
  have hjobs : t.rke.queue.map (fun j => j.range) = (s.listPlaced x).1.rke.queue.map (fun j => j.range) := by
    show s.enterWriting.rke.queue.map _ = _
    rw [hrke]
    exact hopened.jobs
  have hframes : t.sent = (s.listPlaced x).1.sent := hsent.trans hopened.loads.sent
  obtain ⟨u, hended, hurke, husent⟩ := h.placed.jobs
  rw [hurke] at hjobs
  rw [husent] at hframes
  refine ⟨⟨(s.listPlaced x).2.1, (s.listPlaced x).2.2, ?_, ?_, h.placed.nodup, fun r => ?_, fun k => ?_⟩, ?_, ?_, ?_,
    enterWriting_reservation hcommit, enterWriting_stage_held hcommit, fun r hr => ?_, fun r hr hp => ?_, fun r hr => ?_,
    fun r g hr hg => ?_, fun k hk r hlive howner => ?_, fun j hj hr => ?_, fun hj => ?_, fun j hj hst hr hnm hg hstart => ?_⟩
  · refine (congrArg (fun z => z.commit) hrtb).trans ?_
    rw [hm, show (waveOne (s.listSupplied (s.installation raks)).2).length = (s.listSupplied x).2.slots.length + 1 by simp [waveOne, x]]
    exact rfl
  · exact h.changed_nodup
  · rw [hentry]
    exact h.mem_changed hopened hwon r
  · rw [hslot]
    exact relocked_gone h hopened hwon k
  · exact (congrArg (fun z => z.resealOnWake) hrtb).trans (listRelocked_reseal s x)
  · exact congrArg (fun z => z.staged.edits) hrtb
  · exact congrArg (fun z => z.staged.mark) hrtb
  · rw [hentry]
    exact relocked_unnamed h hopened hwon fun hc => hr ((hmem r).mp hc)
  · rw [hentry, hload]
    exact relocked_ended h hopened hwon ((hmem r).mpr hr) hp
  · obtain ⟨k, hk⟩ := h.slot_of_need hr
    obtain ⟨hlt, hempty, -⟩ := h.supplied.made r k hk
    obtain ⟨y, hy, hmade⟩ := relocked_made h hopened hwon hk
    obtain ⟨d, hd, hwhole, hrak⟩ := hmade.material
    refine ⟨k, by rw [hm]; exact hk, hlt, hempty, by rw [hslot]; exact hmade.state, by rw [hslot]; exact hmade.owner,
      enterWriting_key_held hcommit hk, d, by rw [hslot]; exact hd, hwhole, fun hrm => ?_⟩
    rw [hrak, ← hy]
    exact (h.supplied.given r hrm).symm
  · have hin := (hmem r).mpr hr
    have hfrees := relocked_frees h hopened hwon hin hg
    obtain ⟨f, hf, hrest, hkey, henv, hopen, hshut⟩ := relocked_enabled h hopened hwon hin hg
    rw [hm]
    refine ⟨f, (hfields r).trans hf, hrest, fun k hk => hkey.trans (installed_keySlot h.supplied.ranges hk g),
      fun hn => hkey.trans (h.keySlot_kept hn g), fun hfree => ?_, fun hfree => hshut fun hc => hfree ⟨hr, hfrees.mp hc⟩, fun y hy hno => ?_,
      fun y hy hyes o hrm ho hoy => ?_, fun y hy hyes hnew hform => ?_⟩
    · obtain ⟨hread, hwrite⟩ := hopen (hfrees.mpr hfree.2)
      rw [hload]
      exact ⟨hread, hwrite, relocked_loaded h hopened hwon (hfrees.mpr hfree.2)⟩
    · rw [henv]
      exact h.envelope_dropped hin hg hy hno
    · rw [henv]
      exact h.envelope_kept hin hg hy hyes hrm ho hoy
    · obtain ⟨e, he, hwhole, hrak, hcred, hdev⟩ := h.envelope_new hin hg hy hyes hnew hform
      refine ⟨e, by rw [henv]; exact he, hwhole, fun hrm => (h.supplied.given r hrm).symm.trans hrak, fun d hd hrm => ?_, hcred, hdev⟩
      obtain ⟨k, hk⟩ := h.slot_of_need ((mem_needKeys _ _).mpr ⟨hr.1, ⟨g, hg⟩, .inl hrm⟩)
      obtain ⟨z, hz, hmade⟩ := relocked_made h hopened hwon hk
      obtain ⟨d', hd', -, hrak'⟩ := hmade.material
      rw [hslot, hkey, installed_keySlot h.supplied.ranges hk g, hd'] at hd
      cases hd
      rw [hrak] at hz
      exact (Option.some.inj hz).trans hrak'.symm
  · have hdrop := relocked_drops h hopened hwon hk hlive howner
    simp only [← hentry, ← hnames, ← hnamesBefore, hmem] at hdrop
    have hstate := relocked_live h hopened hwon hlive
    rw [← hslot] at hstate
    exact ⟨fun hd => hstate.trans (if_pos (hdrop.mpr hd)), fun hd => hstate.trans (if_neg fun hg => hd (hdrop.mp hg))⟩
  · obtain ⟨hqueue, htold⟩ := hended.discarded j hj hr
    exact ⟨hjobs.trans (congrArg _ hqueue), fun hstart => by
      show _ ∈ t.sent
      rw [hframes]
      exact htold hstart⟩
  · exact hjobs.trans (congrArg _ (hended.kept hj))
  · show _ ∈ t.sent
    rw [hframes]
    exact hended.queued j hj hst hr hnm hg hstart

end Sys2Proof
